-- ==== Sys2Proof/Word.lean ====
section
/-! DEFINITION. The word types of the LLX3264 model: octets, fixed-width registers, and the sparse table
(a list of index and record pairs in rising order of index) that every indexed table of the part is held in. -/
namespace Sys2Proof

/-- One octet. -/
abbrev Byte := BitVec 8
/-- An octet string, first octet first (the OCTETS and DOMAIN types of R12, and frames). -/
abbrev Octets := List (BitVec 8)
/-- A 16-bit register. -/
abbrev W16 := BitVec 16
/-- A 32-bit register. -/
abbrev W32 := BitVec 32
/-- A 64-bit register or counter; every counter of this width wraps to 0 (R340). -/
abbrev W64 := BitVec 64
/-- A key, a DRBG state word or a conditioner state of 256 bits. -/
abbrev W256 := BitVec 256

/-- A table indexed by number: index and record pairs, indices strictly rising. An index that is not listed
holds the table's own default record. -/
abbrev Tab (α : Type) := List (Nat × α)

/-- The two directions of R9. -/
inductive Dir where
  /-- S2L, system to line. -/
  | s2l
  /-- L2S, line to system. -/
  | l2s
deriving DecidableEq, Repr

/-- The number d of a direction: 0 for S2L and 1 for L2S (R447). -/
def Dir.num : Dir → Nat
  | .s2l => 0
  | .l2s => 1

/-- The other direction. -/
def Dir.flip : Dir → Dir
  | .s2l => .l2s
  | .l2s => .s2l

/-- The two sides of a pair (R10). -/
inductive Side where
  | system
  | line
deriving DecidableEq, Repr

/-- 0 for the system side and 1 for the line side (R171). -/
def Side.num : Side → Nat
  | .system => 0
  | .line => 1

/-- The opposite side of the pair. -/
def Side.other : Side → Side
  | .system => .line
  | .line => .system

/-- A port-direction: port Pn in one direction (R10). -/
structure PD where
  port : Fin 32
  dir : Dir
deriving DecidableEq, Repr

/-- The number 2n + d of a port-direction (R447). -/
def PD.key (p : PD) : Nat := 2 * p.port.val + p.dir.num

end Sys2Proof
end

