-- ==== Sys2Proof/Syntax.lean ====
section
/-! DEFINITION. The commands of the part: one constructor per row of the table of operations and events, in the
table's order, with what each carries from outside (frame octets, measured values, sensor conditions, operands). -/
namespace Sys2Proof

/-- What the receiving side delivers at acceptance: an Ethernet frame (R222) or one tributary frame (R145). -/
inductive Received where
  /-- Frame octets without FCS, whether the FCS was bad, and how long ago (2^-16 ns) the message timestamp point crossed the pins. -/
  | ethernet (data : Octets) (fcsBad : Bool) (ago : Nat)
  /-- Tributary record, 15,232 payload octets, 64 overhead octets (columns 1 to 16 of rows 1 to 4), and the Cm received for it;
  no Cm where its CRC failed (R148). -/
  | tributary (t : Fin 256) (payload overhead : Octets) (jc : Octets)
deriving DecidableEq, Repr

/-- The tree compiler's result: the part's own choice of lines (R57 to R60 bound it; R58 gives their layout). -/
structure Compiled where
  /-- Every table fits in 12 levels and 8 rules per leaf (R60). -/
  fits : Bool
  /-- Root line of each table. -/
  roots : List (Nat × Nat)
  /-- Lines built: index and 512 bits. -/
  lines : List (Nat × BitVec 512)
deriving DecidableEq, Repr

/-- What a spindle's known-answer test shows (R209): the result of each vector, whether the detectors fired at the injected code violation
and parity error, and the rates, in 0.001 G per second, of the saturated pipeline's tokens and of the replica ring (R185). -/
structure KatRun where
  outputs : List Octets := []
  violation : Bool := false
  parity : Bool := false
  tokenRate : Nat := 0
  ringRate : Nat := 0
deriving DecidableEq, Repr

/-- What a diagnosis of a spindle shows (R206): whether its memories pass their self-test, and its known-answer test. -/
structure DiagnosisRun where
  memory : Bool := false
  kat : KatRun := {}
deriving DecidableEq, Repr

/-- The concurrent checks of R183 that a fault can come from. -/
inductive Check where
  | codeViolation | parity | counter | transfer
deriving DecidableEq, Repr

/-- The two lockstep stages of R221. -/
inductive Half where
  | headstock | tailstock
deriving DecidableEq, Repr

/-- A frame aligner: of OTUC slice s of a pair's side, or of a tributary on a side (R132). -/
inductive AlignerId where
  | slice (pair : Fin 8) (side : Side) (s : Fin 8)
  | tributary (t : Fin 256) (side : Side)
deriving DecidableEq, Repr

/-- An offset that met R133, its BIP-8 agreements over the extended test (R134) and its MFAS. -/
structure Candidate where
  offset : Nat
  agreements : Nat
  mfas : BitVec 8
deriving DecidableEq, Repr

/-- What an aligner sees in one frame: the alignment markers of its FlexO instances, each valid or not (R132), and the offsets that met
R133. -/
structure LockView where
  markers : List Bool := []
  cands : List Candidate := []
deriving DecidableEq, Repr

/-- A defect of R138 by the bit that shows it (R171). -/
inductive DefectId where
  /-- Bit 0 to 18 of a side's status; for bit 13, which of dAIS 0, dOCI 1, dLCK 2. -/
  | side (pair : Fin 8) (side : Side) (bit : Fin 19) (which : Fin 3)
  /-- Bit 0 to 6 of a tributary's status as received on a side. -/
  | tributary (t : Fin 256) (side : Side) (bit : Fin 7)
  /-- dNOSEC 0, dAUTH 1, dKEY 2 of a tributary. -/
  | security (t : Fin 256) (which : Fin 3)
deriving DecidableEq, Repr

/-- What one second showed of one monitored entity (R164, R165). -/
structure SecObs where
  entity : Nat
  /-- Blocks of the second, and those whose BIP-8 disagreed. -/
  blocks : Nat
  errored : Nat
  /-- Blocks of the second that the far end reported on, and those it reported errored (BEI). -/
  farBlocks : Nat
  farErrored : Nat
deriving DecidableEq, Repr

/-- What the FEC of one OTN lane counted in one second (R172): lanes 0 to 3 of the system side, then of the line side. -/
structure LaneObs where
  pair : Fin 8
  lane : Fin 8
  corrected : Nat
  uncorrectable : Nat
  symbols : Nat
deriving DecidableEq, Repr

/-- What one second showed: the monitored entities, the FAS mismatches of aligners in runs of one to four (R136), and codewords corrected
and uncorrectable on OTN lanes and on the lanes of Ethernet ports (R122, R172). -/
structure SecondObs where
  entities : List SecObs := []
  fas : List (AlignerId × Nat) := []
  lanes : List LaneObs := []
  ports : List (PD × Nat × Nat) := []
deriving DecidableEq, Repr

/-- The user of a rollover record (R265). -/
inductive RollUser where
  | sc (s : Fin 16384)
  | tributary (t : Fin 256)
deriving DecidableEq, Repr

/-- What a sensor shows at a sample or between samples (R397). -/
structure SensorObs where
  sensor : Fin 23
  /-- The condition is present at the sample. -/
  now : Bool
  /-- An excursion was latched since the last sample (R398). -/
  latched : Bool
  /-- Sub-sensor map and measured value (R417). -/
  sub : BitVec 16
  value : Int
deriving DecidableEq, Repr

/-- Which continuous test a source failed (R377). -/
inductive HealthTest where
  | repetition | proportion
deriving DecidableEq, Repr

/-- How the two chucks fare at a key command they both carry out (R247). -/
inductive ChuckRun where
  /-- Both give the same result, at once or at the retry. -/
  | agree
  /-- They disagree twice, and the known-answer tests isolate chuck A (false) or B (true). -/
  | isolates (chuckB : Bool)
  /-- They disagree twice, and both pass their tests. -/
  | unresolved
deriving DecidableEq, Repr

/-- The commands. -/
inductive Instr where
  | gougeParseStart (pd : PD) (cluster : Fin 8) (gouge : Fin 16) (header : Octets) (len : Nat) (parityFails : Fin 3)
  | gougeParseTimeout (cluster : Fin 8) (gouge : Fin 16)
  | frameAccepted (pd : PD) (rx : Received)
  | pauseReceived (port : Fin 32) (quanta : BitVec 16)
  | pfcReceived (port : Fin 32) (enable : BitVec 8) (times : List (BitVec 16))
  | pauseTimeExpiry (port : Fin 32) (prio : Option (Fin 8))
  | classifyFrame (pd : PD)
  | ruleBlockFill (pd : PD)
  | cutCompileComplete (tree : Compiled)
  | cutRetired (cut : BitVec 8)
  | cutLimitWaitExpiry
  | headstockSettle (pd : PD)
  | dispatchFrame
  | tokenIssue (sp : Fin 28)
  | tokenComplete (sp : Fin 28)
  | spindleFault (sp : Fin 28) (check : Check)
  | tokenWatchdogExpiry (sp : Fin 28)
  | maskReseedRequest (sp : Fin 28)
  | maskReseedServed (sp : Fin 28)
  | maskRatchet (sp : Fin 28)
  | maskStarvation (sp : Fin 28)
  | commitEntry (pd : PD)
  | pauseRefresh (port : Fin 32)
  | injectionDescriptor (ring : Fin 512) (frame : Octets)
  | injectedFrameAccepted
  | spillWriteStart (pd : PD) (queue : Fin 1024)
  | egressSelect (pd : PD)
  | calendarPostingDue (es : Fin 4) (dir : Dir) (queue : Fin 1024)
  | timedLaunch (pd : PD)
  | frameTransmitted (pd : PD)
  | linkReceiveFault (port : Fin 32) (side : Side) (localFault : Bool)
  | linkFaultCleared (port : Fin 32) (side : Side)
  | avsEvaluation (rings : List Nat)
  | marginEventClear
  | avsCommandAck (read : Option (BitVec 12))
  | avsVoltageRead
  | avsAckTimeout
  | avsReadbackMismatch
  | avsRetry
  | lagEvaluation (elapsed : Nat)
  | rotationStart
  | spindleKatComplete (sp : Fin 28) (kat : KatRun) (elapsed : Nat)
  | spindleStartTimeout (sp : Fin 28)
  | spareSeedTimeout (sp : Fin 28)
  | spareStartRetry (sp : Fin 28)
  | spindleDrainComplete (sp : Fin 28)
  | isolationTimerExpiry (sp : Fin 28)
  | spindleDiagnosisComplete (sp : Fin 28) (run : DiagnosisRun)
  | diagnosisRetryTimer (sp : Fin 28)
  | spindleIsolate (ses : Fin 128) (sp : Fin 28)
  | spindleReturn (ses : Fin 128) (sp : Fin 28)
  | spindleInjectFault (ses : Fin 128) (sp : Fin 28)
  | lockstepMismatchRestart (half : Half)
  | retentionRebuildComplete (bank : Fin 4)
  | spindlePark
  | alignerLock (a : AlignerId) (view : LockView)
  | alignerOof (a : AlignerId)
  | alignmentTimerExpiry (a : AlignerId)
  | defectDeclared (d : DefectId)
  | defectCleared (d : DefectId)
  | tributaryRemapDue (t : Fin 256) (dir : Dir) (elapsed : Nat)
  | pmSecondTick (obs : SecondObs)
  | pmBinEnd (day : Bool)
  | pmBinComplete (day : Bool)
  | keyLoadBlob (ses : Fin 128) (target : BitVec 16) (blob : Octets) (chucks : ChuckRun)
  | keyLoadBlobStore (ses : Fin 128) (target : BitVec 16) (index : BitVec 32) (chucks : ChuckRun)
  | keyDerive (ses : Fin 128) (target source : BitVec 16) (prf ctrWidth lenWidth : BitVec 8) (label context attr : Octets) (chucks : ChuckRun)
  | keyGenerate (ses : Fin 128) (target : BitVec 16) (attr : Octets) (chucks : ChuckRun)
  | keyExport (ses : Fin 128) (source wrapping : BitVec 16) (format : BitVec 8) (chucks : ChuckRun)
  | keyImportBare (ses : Fin 128) (target kek : BitVec 16) (attr wrapped : Octets) (chucks : ChuckRun)
  | keyDelete (ses : Fin 128) (target : BitVec 16)
  | keyLoadSa (ses : Fin 128) (store : BitVec 32) (sa slot : BitVec 16) (chucks : ChuckRun)
  | chuckMirrorRebuildComplete (chuckB : Bool)
  | ownershipTake (ses : Fin 128) (command : Octets)
  | ownershipTransfer (ses : Fin 128) (command : Octets)
  | ownershipRelease (ses : Fin 128) (command : Octets)
  | enrollmentOpen (ses : Fin 128) (nk : Octets)
  | enrollmentRequest (ses : Fin 128) (request : Octets) (chucks : ChuckRun)
  | enrollmentSessionTimeout
  | slotScrub (bad : List (BitVec 16 × Bool))
  | slotReferenceReleased (target : BitVec 16)
  | saRetireComplete (sa : Fin 32768)
  | rolloverDue (user : RollUser)
  | guardWindowEnd (user : RollUser)
  | chainLoad (user : RollUser) (chucks : ChuckRun)
  | keyExpiryCheck
  | zeroizePinAsserted
  | zeroizePinDeasserted
  | zeroizeDataKeys (ses : Fin 128)
  | zeroizeWholePart (ses : Fin 128)
  | ptpOwnClockFrame
  | delayReqSend
  | followUpTimeout
  | delayRespTimeout
  | syncTimeout
  | setTime (ses : Fin 128) (time96 : Octets)
  | adjustTime (ses : Fin 128) (amount : BitVec 64)
  | toolRestSecondsWrite
  | slotOccurrence (slot : Fin 16)
  | slotPulseEnd (pin : Fin 4)
  | pinCaptureEdge (pin : Fin 4) (rising : Bool)
  | captureFifoRead (ses : Fin 128) (pin : Fin 4)
  | mpuRead (addr : BitVec 48) (lines : Fin 9)
  | mpuWrite (addr : BitVec 48) (data : Octets)
  | metadataEviction (line : Fin 1331200)
  | blockAllocate (key : BitVec 4) (block : Fin 1310720)
  | patrolScrub (line : Fin 83886080)
  | faultInjection (ses : Fin 128) (record : Octets)
  | rawViewRead (ses : Fin 128) (addr : BitVec 64)
  | conditionedBlockReady (source : Fin 8) (raw : Octets)
  | sourceHealthFailure (source : Fin 8) (test : HealthTest)
  | sourceStartupComplete (source : Fin 8) (raw : Octets)
  | sourceRetest (source : Fin 8)
  | sourceFailuresCleared (source : Fin 8)
  | expanderReseed
  | rngRequestServed
  | rngRequestTimeout
  | expanderFault (half : Fin 2)
  | rngHalfRestartComplete (half : Fin 2)
  | rngDataRead (wide : Bool) (stall : BitVec 16)
  | conditionerKat (ses : Fin 128) (input : Octets)
  | expanderKat (ses : Fin 128) (vector : Octets)
  | rawCapture (ses : Fin 128) (source : Fin 8)
  | rawCaptureComplete (data : Octets)
  | toolRestSample (obs : List SensorObs) (temps : List Int) (supplies : List Nat)
  | sensorAlarmImmediate (obs : SensorObs)
  | decisionWindowClose
  | shadowScan (bad : List (Fin 8 × BitVec 32))
  | toolRestRestart
  | unlockToken (ses : Fin 128) (token : Octets)
  | debugToken (ses : Fin 128) (token : Octets)
  | tokenHoldoffEnd
  | debugPowerOn (ses : Fin 128)
  | debugPowerOff (ses : Fin 128)
  | coalesceSecondEnd
  | logExportReminder
  | exportSegmentFormed
  | exportAcknowledge (ses : Fin 128) (segment : BitVec 16) (last : BitVec 64)
  | counterAdvance (ses : Fin 128) (counter : BitVec 8) (value : BitVec 32)
  | dictionaryWrite (ses : Fin 128) (flags : BitVec 8) (index : BitVec 16) (sub : BitVec 8) (offset : BitVec 32) (data : Octets)
  | snapshotRead (ses : Fin 128) (index : BitVec 16) (sub : BitVec 8) (len : BitVec 16)
  | snapshotExpiry (ses : Fin 128) (index : BitVec 16) (sub : BitVec 8)
  | commit (ses : Fin 128) (generation : BitVec 64) (chucks : ChuckRun)
  | discardStaging (ses : Fin 128)
  | savePersistentImage (ses : Fin 128)
  | imageSaveComplete (ok : Bool)
  | doorbellWrite (ring : Fin 1120) (index : BitVec 32) (dma : List (Octets × Octets))
  | moderationTimerExpiry (ring : Fin 1120)
  | functionLevelReset
  | urzidunFrameReceived
  | urzidunOpen
  | urzidunRequest
  | urzidunClose
  | urzidunSessionTimeout (slot : Fin 64)
  | heartbeatSend (pd : PD)
  | heartbeatReceived
  | peerAbsentTimeout (pd : PD)
  | controllerFault
  | progressMarkTimeout
  | controllerStartComplete (ok : Bool)
  | controllerDiagnosisComplete (ctlB : Bool) (pass : Bool)
  | powerGoodAsserted (byResetN : Bool) (sramIntact : Bool)
  | resetAsserted (pwrgoodFell : Bool)
  | initComplete (ok : Bool)
  | hbmTrainingComplete (stack : Fin 2) (pass : Bool)
  | generatorReady (kat : List KatRun)
  | randomWaitTimeout
  | imageRestore
  | serviceReset (ses : Fin 128)
  | coldReset (ses : Fin 128)
  | coldResetDelayExpiry
  | drainComplete
  | drainTimeout
  | domainPowerRequest (ses : Fin 128) (domain : Fin 80) (value : BitVec 8)
  | domainReset (ses : Option (Fin 128)) (domain : Fin 80)
  | thermtripAssert
  | outOfMultiframe (a : AlignerId)
  | remoteFaultReceived (port : Fin 32) (side : Side) (present : Bool)
  | rwcBitClearWrite (ses : Fin 128) (index : BitVec 16) (sub : BitVec 8) (data : Octets)
  | sinceLastReadStatusRead (ses : Fin 128) (index : BitVec 16) (sub : BitVec 8)
  | domainRestartComplete (domain : Fin 80)
  | serviceResetComplete
  | zeroizationComplete
  | coreSupplyUnderVoltage
deriving DecidableEq, Repr

end Sys2Proof
end

