-- ==== Sys2Proof/Decode.lean ====
section
/-! DEFINITION. The command a table word spells. The table of operations gives no row any bits (every row's list of
fields is empty), so no word spells a command. -/
namespace Sys2Proof

/-- The command that the table's bits `w` of a row of `nbits` bits spell: none, since no row of the table has bits. -/
def decodeTableWord (nbits w : Nat) : Option Instr :=
  match nbits, w with
  | _, _ => none

end Sys2Proof
end

