-- ==== Sys2Proof/Machine/Map.lean ====
section
/-! DEFINITION. Sparse tables and octet strings: looking up, writing and counting in a table; the byte orders of R7. -/
namespace Sys2Proof

/-- The record listed at index `k`, if any. -/
def Tab.find {α : Type} (k : Nat) : Tab α → Option α
  | [] => none
  | (i, x) :: t => if i = k then some x else Tab.find k t

/-- The record at index `k`, `d` where none is listed. -/
def Tab.get {α : Type} (t : Tab α) (k : Nat) (d : α) : α := (t.find k).getD d

/-- Write the record at index `k`, keeping the indices in rising order. -/
def Tab.put {α : Type} (k : Nat) (x : α) : Tab α → Tab α
  | [] => [(k, x)]
  | (i, y) :: t => if k < i then (k, x) :: (i, y) :: t else if k = i then (k, x) :: t else (i, y) :: Tab.put k x t

/-- Unlist index `k`. -/
def Tab.drop {α : Type} (k : Nat) : Tab α → Tab α
  | [] => []
  | (i, y) :: t => if i = k then t else (i, y) :: Tab.drop k t

/-- Change the record at index `k`. -/
def Tab.upd {α : Type} (t : Tab α) (k : Nat) (d : α) (f : α → α) : Tab α := t.put k (f (t.get k d))

/-- Add to the counter at index `k`; counters of 64 bits wrap to 0 (R340). -/
def Tab.bump (t : Tab W64) (k : Nat) (n : Nat) : Tab W64 := t.put k (t.get k 0 + BitVec.ofNat 64 n)

/-- Apply a change to every listed record. -/
def Tab.mapAll {α : Type} (t : Tab α) (f : Nat → α → α) : Tab α := t.map (fun p => (p.1, f p.1 p.2))

/-- `n` octets of `v`, least significant first (R7, dictionary values). -/
def leBytes : Nat → Nat → Octets
  | 0, _ => []
  | n + 1, v => BitVec.ofNat 8 v :: leBytes n (v / 256)

/-- The number that octets spell, least significant first. -/
def leNat : Octets → Nat
  | [] => 0
  | b :: t => b.toNat + 256 * leNat t

/-- `n` octets of `v`, most significant first (R7, the part's own formats). -/
def beBytes (n v : Nat) : Octets := (leBytes n v).reverse

/-- The number that octets spell, most significant first. -/
def beNat (b : Octets) : Nat := leNat b.reverse

/-- `n` octets from offset `o`. -/
def slice (b : Octets) (o n : Nat) : Octets := (b.drop o).take n

/-- Little-endian field at offset `o`. -/
def leAt (b : Octets) (o n : Nat) : Nat := leNat (slice b o n)

/-- Big-endian field at offset `o`. -/
def beAt (b : Octets) (o n : Nat) : Nat := beNat (slice b o n)

/-- Octet `o` as a number; 0 beyond the end. -/
def octet (b : Octets) (o : Nat) : Nat := (b.getD o 0).toNat

/-- Exactly `n` octets: cut, or padded with zeros. -/
def padTo (n : Nat) (b : Octets) : Octets := (b ++ List.replicate (n - b.length) 0).take n

/-- `n` zero octets. -/
def zeros (n : Nat) : Octets := List.replicate n 0

/-- Overwrite octets from offset `o`. -/
def patch (b : Octets) (o : Nat) (x : Octets) : Octets := b.take o ++ x ++ b.drop (o + x.length)

/-- Bits [hi:lo] of a number. -/
def bits (v hi lo : Nat) : Nat := v / 2 ^ lo % 2 ^ (hi + 1 - lo)

/-- Bit `i` of a number. -/
def bitAt (v i : Nat) : Bool := v.testBit i

/-- 1 for true. -/
def bit (b : Bool) : Nat := if b then 1 else 0

/-- ASCII octets of a string. -/
def ascii (s : String) : Octets := s.toList.map (fun c => BitVec.ofNat 8 c.toNat)

/-- XOR of two octet strings, as long as the shorter. -/
def xorB (a b : Octets) : Octets := List.zipWith (· ^^^ ·) a b

/-- A signed number from `n` octets' worth of bits. -/
def signed (width v : Nat) : Int := if v < 2 ^ (width - 1) then v else (v : Int) - 2 ^ width

/-- The two's complement of a signed number in `width` bits. -/
def unsign (width : Nat) (v : Int) : Nat := (v % (2 ^ width : Int)).toNat

/-- A TIME96 as R12 lays it out, from a total in 2^-16 ns. -/
def time96 (t : Nat) : Octets :=
  leBytes 2 (t % 2 ^ 16) ++ leBytes 4 (t / 2 ^ 16 % 10 ^ 9) ++ leBytes 6 (t / 2 ^ 16 / 10 ^ 9)

/-- The total in 2^-16 ns of a TIME96 of R12. -/
def time96Of (b : Octets) : Nat := ((leAt b 6 6 * 10 ^ 9 + leAt b 2 4) * 2 ^ 16) + leAt b 0 2

/-- Put a value into a list before the first that it comes before or equals. -/
def insertBy {α : Type} (le : α → α → Bool) (x : α) : List α → List α
  | [] => [x]
  | y :: t => if le x y then x :: y :: t else y :: insertBy le x t

/-- A list in rising order. -/
def sortBy {α : Type} (le : α → α → Bool) (l : List α) : List α := l.foldl (fun a x => insertBy le x a) []

/-- The nanoseconds part of a TIME96 is at most 999,999,999 (R12). -/
def time96Ok (b : Octets) : Bool := decide (leAt b 2 4 ≤ 999999999)

/-- Cut an octet string into records of `n` octets; a short rest is dropped. -/
def records (n : Nat) : Nat → Octets → List Octets
  | 0, _ => []
  | k + 1, b => if b.length < n ∨ n = 0 then [] else b.take n :: records n k (b.drop n)

/-- All whole records of `n` octets. -/
def recordsOf (n : Nat) (b : Octets) : List Octets := records n (b.length + 1) b

end Sys2Proof
end

