-- ==== Sys2Proof/Machine/Aes.lean ====
section
/-! DEFINITION. The block cipher and its modes as the published standards the spec names define them (FIPS 197 AES;
SP 800-38D GCM; SP 800-38F AES-KW and AES-KWP; AES-CMAC). PRESUMED: the standards' own text, log 8. -/
namespace Sys2Proof

/-- Multiplication by x in GF(2^8). -/
def xtime (b : Nat) : Nat := if b < 128 then 2 * b else (2 * b) ^^^ 0x11B

/-- Octet `a` of a table of 256 octets, given as rows of 16. -/
def octetAt (rows : List Nat) (a : Nat) : Nat := rows.foldl (fun n r => n * 2 ^ 128 + r) 0 / 2 ^ (8 * (255 - a)) % 256

/-- The S-box (FIPS 197), a row of 16 octets a number. -/
def sboxRows : List Nat :=
  [0x637C777BF26B6FC53001672BFED7AB76, 0xCA82C97DFA5947F0ADD4A2AF9CA472C0,
   0xB7FD9326363FF7CC34A5E5F171D83115, 0x04C723C31896059A071280E2EB27B275,
   0x09832C1A1B6E5AA0523BD6B329E32F84, 0x53D100ED20FCB15B6ACBBE394A4C58CF,
   0xD0EFAAFB434D338545F9027F503C9FA8, 0x51A3408F929D38F5BCB6DA2110FFF3D2,
   0xCD0C13EC5F974417C4A77E3D645D1973, 0x60814FDC222A908846EEB814DE5E0BDB,
   0xE0323A0A4906245CC2D3AC629195E479, 0xE7C8376D8DD54EA96C56F4EA657AAE08,
   0xBA78252E1CA6B4C6E8DD741F4BBD8B8A, 0x703EB5664803F60E613557B986C11D9E,
   0xE1F8981169D98E949B1E87E9CE5528DF, 0x8CA1890DBFE6426841992D0FB054BB16]

/-- The inverse S-box. -/
def invSboxRows : List Nat :=
  [0x52096AD53036A538BF40A39E81F3D7FB, 0x7CE339829B2FFF87348E4344C4DEE9CB,
   0x547B9432A6C2233DEE4C950B42FAC34E, 0x082EA16628D924B2765BA2496D8BD125,
   0x72F8F66486689816D4A45CCC5D65B692, 0x6C704850FDEDB9DA5E154657A78D9D84,
   0x90D8AB008CBCD30AF7E45805B8B34506, 0xD02C1E8FCA3F0F02C1AFBD0301138A6B,
   0x3A9111414F67DCEA97F2CFCEF0B4E673, 0x96AC7422E7AD3585E2F937E81C75DF6E,
   0x47F11A711D29C5896FB7620EAA18BE1B, 0xFC563E4BC6D279209ADBC0FE78CD5AF4,
   0x1FDDA8338807C731B11210592780EC5F, 0x60517FA919B54A0D2DE57A9F93C99CEF,
   0xA0E03B4DAE2AF5B0C8EBBB3C83539961, 0x172B047EBA77D626E169146355210C7D]

def sbox (a : Nat) : Nat := octetAt sboxRows a
def invSbox (a : Nat) : Nat := octetAt invSboxRows a

/-- Round-key words, newest first, each four octets. -/
def expandKey (nk : Nat) : Nat → Nat → Nat → List (List Nat) → List (List Nat)
  | 0, _, _, w => w
  | k + 1, i, rcon, w =>
    let prev := w.headD []
    let old := w.getD (nk - 1) []
    let t := if i % nk = 0 then
        match prev with
        | [a, b, c, d] => [sbox b ^^^ rcon, sbox c, sbox d, sbox a]
        | x => x
      else if nk = 8 ∧ i % 8 = 4 then prev.map sbox else prev
    expandKey nk k (i + 1) (if i % nk = 0 then xtime rcon else rcon) (List.zipWith (· ^^^ ·) old t :: w)

/-- Groups of four. -/
def quads : Nat → List Nat → List (List Nat)
  | 0, _ => []
  | k + 1, l => if l.length < 4 then [] else l.take 4 :: quads k (l.drop 4)

/-- The round keys of a 16- or 32-octet key, each 16 octets. -/
def roundKeys (key : Octets) : List (List Nat) :=
  let kb := key.map (·.toNat)
  let nk := kb.length / 4
  let ws := (expandKey nk (4 * (nk + 7) - nk) nk 1 ((quads 8 kb).reverse)).reverse
  (List.range (nk + 7)).map (fun r => ((ws.drop (4 * r)).take 4).flatten)

/-- ShiftRows on a column-major state. -/
def shiftRows : List Nat → List Nat
  | [a, b, c, d, e, f, g, h, i, j, k, l, m, n, o, p] => [a, f, k, p, e, j, o, d, i, n, c, h, m, b, g, l]
  | s => s

/-- MixColumns of one column. -/
def mixColumn : List Nat → List Nat
  | [a, b, c, d] =>
    let e := a ^^^ b ^^^ c ^^^ d
    [a ^^^ e ^^^ xtime (a ^^^ b), b ^^^ e ^^^ xtime (b ^^^ c), c ^^^ e ^^^ xtime (c ^^^ d), d ^^^ e ^^^ xtime (d ^^^ a)]
  | x => x

/-- The rounds after the first key addition. -/
def aesRounds : List (List Nat) → List Nat → List Nat
  | [], s => s
  | [k], s => List.zipWith (· ^^^ ·) (shiftRows (s.map sbox)) k
  | k :: ks, s =>
    aesRounds ks (List.zipWith (· ^^^ ·) ((quads 4 (shiftRows (s.map sbox))).map mixColumn).flatten k)

/-- AES encryption of one 16-octet block. -/
def aesEnc (key block : Octets) : Octets :=
  match roundKeys key with
  | k0 :: ks => (aesRounds ks (List.zipWith (· ^^^ ·) (block.map (·.toNat)) k0)).map (BitVec.ofNat 8)
  | [] => block

/-- The inverse of ShiftRows. -/
def invShiftRows : List Nat → List Nat
  | [a, f, k, p, e, j, o, d, i, n, c, h, m, b, g, l] => [a, b, c, d, e, f, g, h, i, j, k, l, m, n, o, p]
  | s => s

/-- The inverse of MixColumns of one column: MixColumns after adding four times the sum of every second octet. -/
def invMixColumn : List Nat → List Nat
  | [a, b, c, d] =>
    let u := xtime (xtime (a ^^^ c))
    let v := xtime (xtime (b ^^^ d))
    mixColumn [a ^^^ u, b ^^^ v, c ^^^ u, d ^^^ v]
  | x => x

/-- The inverse rounds, round keys last first. -/
def aesInvRounds : List (List Nat) → List Nat → List Nat
  | [], s => s
  | [k], s => List.zipWith (· ^^^ ·) ((invShiftRows s).map invSbox) k
  | k :: ks, s =>
    let t := List.zipWith (· ^^^ ·) ((invShiftRows s).map invSbox) k
    aesInvRounds ks ((quads 4 t).map invMixColumn).flatten

/-- AES decryption of one block. -/
def aesDec (key block : Octets) : Octets :=
  match (roundKeys key).reverse with
  | kn :: ks => (aesInvRounds ks (List.zipWith (· ^^^ ·) (block.map (·.toNat)) kn)).map (BitVec.ofNat 8)
  | [] => block

/-! ## GCM -/

/-- 16 octets as a 128-bit block, first octet most significant. -/
def blockOf (b : Octets) : BitVec 128 := BitVec.ofNat 128 (beNat (padTo 16 b))

/-- A block's 16 octets. -/
def octetsOf (b : BitVec 128) : Octets := beBytes 16 b.toNat

/-- Multiplication in the field of GHASH (SP 800-38D). -/
def gf128Mul (x y : BitVec 128) : BitVec 128 :=
  ((List.range 128).foldl (fun (p : BitVec 128 × BitVec 128) i =>
    (if x.getMsbD i then p.1 ^^^ p.2 else p.1,
     if p.2.getLsbD 0 then (p.2 >>> 1) ^^^ (0xE1 <<< 120) else p.2 >>> 1)) (0, y)).1

/-- Square and multiply over the low bits of `n`. -/
def gf128PowBits : Nat → Nat → BitVec 128 → BitVec 128 → BitVec 128
  | 0, _, _, r => r
  | k + 1, n, b, r => gf128PowBits k (n / 2) (gf128Mul b b) (if n % 2 = 1 then gf128Mul r b else r)

/-- `H` to a power below 2^16. -/
def gf128Pow (h : BitVec 128) (n : Nat) : BitVec 128 := gf128PowBits 16 n h (1 <<< 127)

/-- One GHASH step. -/
def ghashStep (h y : BitVec 128) (x : BitVec 128) : BitVec 128 := gf128Mul (y ^^^ x) h

/-- Blocks of 16 octets, the last padded with zeros. -/
def blocks16 : Nat → Octets → List Octets
  | 0, _ => []
  | k + 1, b => if b.isEmpty then [] else padTo 16 (b.take 16) :: blocks16 k (b.drop 16)

def blocksOf (b : Octets) : List Octets := blocks16 (b.length / 16 + 1) b

/-- The hash subkey H = E(K, 0). -/
def hashKey (key : Octets) : BitVec 128 := blockOf (aesEnc key (zeros 16))

/-- The length block of GCM, in bits. -/
def lengthBlock (aad body : Nat) : BitVec 128 := blockOf (beBytes 8 (8 * aad) ++ beBytes 8 (8 * body))

/-- GHASH over whole blocks from a start value. -/
def ghash (h y : BitVec 128) (xs : List (BitVec 128)) : BitVec 128 := xs.foldl (ghashStep h) y

/-- Keystream block `n` after J0 of a 12-octet IV: E(K, inc32^n(J0)); n = 0 gives E(J0). -/
def keystream (key iv : Octets) (n : Nat) : Octets := aesEnc key (padTo 12 iv ++ beBytes 4 (1 + n))

/-- GCM counter-mode encryption or decryption. -/
def gcmCrypt (key iv data : Octets) : Octets :=
  xorB data ((List.range (data.length / 16 + 1)).map (fun i => keystream key iv (i + 1))).flatten

/-- The GCM tag of ciphertext and AAD. -/
def gcmTag (key iv aad cipher : Octets) : Octets :=
  let h := hashKey key
  let y := ghash h 0 ((blocksOf aad).map blockOf ++ (blocksOf cipher).map blockOf ++ [lengthBlock aad.length cipher.length])
  octetsOf (y ^^^ blockOf (keystream key iv 0))

/-! ## AES-CMAC -/

/-- Doubling in the field of CMAC. -/
def cmacDouble (b : BitVec 128) : BitVec 128 := if b.getMsbD 0 then (b <<< 1) ^^^ 0x87 else b <<< 1

/-- AES-CMAC of a message, 16 octets. -/
def cmac (key msg : Octets) : Octets :=
  let k1 := cmacDouble (blockOf (aesEnc key (zeros 16)))
  let n := (msg.length + 15) / 16 - 1
  let head := msg.take (16 * n)
  let rest := msg.drop (16 * n)
  let last := if rest.length = 16 then blockOf rest ^^^ k1 else blockOf (rest ++ [0x80]) ^^^ cmacDouble k1
  let x := (blocksOf head).foldl (fun y b => blockOf (aesEnc key (octetsOf (y ^^^ blockOf b)))) (0 : BitVec 128)
  aesEnc key (octetsOf (x ^^^ last))

/-! ## AES-KW and AES-KWP -/

/-- Semiblocks of 8 octets. -/
def semiblocks (b : Octets) : List Octets := recordsOf 8 b

/-- `f n`, with `n` evaluated first (the lemma `withNat_eq`). -/
def withNat {α : Type} (n : Nat) (f : Nat → α) : α :=
  match n with
  | 0 => f 0
  | m + 1 => f (m + 1)

theorem withNat_eq {α : Type} (n : Nat) (f : Nat → α) : withNat n f = f n := by cases n <;> rfl

/-- One pass over the semiblocks of W: the register A, the rest, and the step counter t. -/
def kwPass (key : Octets) : List Octets → Octets → Nat → List Octets → Octets × List Octets × Nat
  | [], a, t, acc => (a, acc.reverse, t)
  | r :: rs, a, t, acc =>
    withNat (beNat (aesEnc key (a ++ r))) fun n =>
      kwPass key rs (xorB (beBytes 8 (n / 2 ^ 64)) (beBytes 8 t)) (t + 1) (beBytes 8 n :: acc)

/-- The wrapping function W of SP 800-38F on an initial value and plaintext semiblocks. -/
def kwWrap (key a0 : Octets) (p : List Octets) : Octets :=
  let r := (List.range 6).foldl (fun (s : Octets × List Octets × Nat) _ => kwPass key s.2.1 s.1 s.2.2 []) (a0, p, 1)
  r.1 ++ r.2.1.flatten

/-- One inverse pass, last semiblock first. -/
def kwUnPass (key : Octets) : List Octets → Octets → Nat → List Octets → Octets × List Octets × Nat
  | [], a, t, acc => (a, acc, t)
  | r :: rs, a, t, acc =>
    withNat (beNat (aesDec key (xorB a (beBytes 8 t) ++ r))) fun n =>
      kwUnPass key rs (beBytes 8 (n / 2 ^ 64)) (t - 1) (beBytes 8 n :: acc)

/-- The inverse of W: the initial value and the plaintext octets. -/
def kwUnwrap (key c : Octets) : Octets × Octets :=
  let rs := (semiblocks c).drop 1
  let r := (List.range 6).foldl (fun (s : Octets × List Octets × Nat) _ => kwUnPass key s.2.1.reverse s.1 s.2.2 [])
    (c.take 8, rs, 6 * rs.length)
  (r.1, r.2.1.flatten)

/-- AES-KW of a plaintext of whole semiblocks. -/
def aesKw (key p : Octets) : Octets := kwWrap key (List.replicate 8 0xA6) (semiblocks p)

/-- AES-KW unwrap with its integrity check. -/
def aesKwOpen (key c : Octets) : Option Octets :=
  let r := kwUnwrap key c
  if r.1 = List.replicate 8 0xA6 then some r.2 else none

/-- AES-KWP of a plaintext of more than 8 octets. -/
def aesKwp (key p : Octets) : Octets :=
  kwWrap key ([0xA6, 0x59, 0x59, 0xA6] ++ beBytes 4 p.length) (semiblocks (padTo (8 * ((p.length + 7) / 8)) p))

/-- AES-KWP unwrap with its integrity and padding checks. -/
def aesKwpOpen (key c : Octets) : Option Octets :=
  let r := kwUnwrap key c
  let n := beAt r.1 4 4
  if r.1.take 4 = [0xA6, 0x59, 0x59, 0xA6] ∧ n ≤ r.2.length ∧ r.2.length < n + 8 ∧ (r.2.drop n).all (· == 0)
  then some (r.2.take n) else none

end Sys2Proof
end

