-- ==== Sys2Proof/Config.lean ====
section
/-! DEFINITION. What one implementation fixes and the spec does not state, as constants with no body: nothing can
be proved of their values, so whatever is proved holds for every one of them. -/
namespace Sys2Proof.Config

/-- A value the spec leaves open, drawn afresh: argument is the model's counter of open values used so far. -/
opaque freeWord : Nat → Nat
/-- The fused root key, generated inside the part at manufacture (R231). -/
opaque fusedRootKey : BitVec 256
/-- PCI vendor identifier, OD 0x1000.01 (R469: Factory). -/
opaque vendorId : Nat
/-- Silicon stepping, OD 0x1000.04 (R469: Factory). -/
opaque stepping : Nat
/-- Serial number, OD 0x1000.05 (R469: Factory). -/
opaque serialNumber : Octets
/-- Controller firmware version, OD 0x1000.07 (R469 gives no value). -/
opaque firmwareVersion : Nat
/-- Identity certificate, OD 0x3420.01 (R279: Factory). -/
opaque identityCertificate : Octets
/-- Factory lot and wafer position of the genesis log entry (R417). -/
opaque factoryLot : Nat
/-- Chain hash after the factory genesis entry (R416, OD 0x5040.01 default Factory). -/
opaque factoryChainHash : Octets
/-- The standard microcode image's octets, the default of OD 0x2000.01 (R49); the spec gives its effect only. -/
opaque standardImage : Octets
/-- Lifetime service hours and other MRAM spindle records start from manufacture; the silicon's factory trim (R208). -/
opaque spindleFactoryTrim : Nat → Nat
/-- What an HBM octet holds before anything has been written there (power-on contents; the spec gives none). -/
opaque hbmPowerOn : Nat → BitVec 8
/-- The one-way function by which a spindle ratchets its mask generator (R182 gives no formula). -/
opaque maskRatchet : BitVec 256 → BitVec 256
/-- The keyed polynomial hash in GF(2^32) of a slot copy (R254 gives no polynomial). -/
opaque slotCheck : BitVec 64 → Nat → Octets → BitVec 32
/-- The DRBG serves a Generate within the stall of R253, by the counter of open values; what the sources deliver meanwhile is open. -/
opaque stallServed : Nat → Bool
/-- Both copies of a Bad slot pass the slot memory self-test of a power-on reset, by power-on resets so far and target (R255). -/
opaque slotSelfTest : Nat → Nat → Bool
/-- Log type of a drain timeout: R225 has it logged and R417 lists no type for it. -/
opaque drainLogType : Nat
/-- Log type of a controller's isolation and retirement: R464 has them logged and R417 lists no type for them. -/
opaque controllerLogType : Nat
/-- The state of a spindle's mask generator after one token has drawn its mask bits: a keyed stream generator (R181 gives no formula). -/
opaque maskDraw : BitVec 256 → BitVec 256
/-- The fixed vectors of the known-answer test held in a spindle's start sequencer, by number (R209 gives no values). -/
opaque katVector : Nat → Octets
/-- What a read gives for a symbol of a retention word whose losses pass what its code corrects, from the symbols present (R198). -/
opaque retentionLost : List (Nat × Nat) → Nat → Nat
/-- The part's choice of the octets of a GMP frame, from the tributary's record number and direction, the octets its slots hold, and the fill of
the play-out buffer and its cushion in nanoseconds (R146 gives the aim and no formula). -/
opaque gmpChoice : Nat → Nat → Nat → Nat → Nat → Nat
/-- The JC octets of a Cm and a sum of CnD, and what received ones come to, none where their CRC fails: G.709's coding (R148). -/
opaque jcOctets : Nat → Nat → Octets
opaque jcRead : Octets → Option (Nat × Nat)
/-- The rank the other copy of a mismatched response entry gives (R399 takes the higher of the two). -/
opaque shadowRank : Nat → Nat

end Sys2Proof.Config
end

