-- ==== Sys2Proof/Machine/Dict.lean ====
section
/-! DEFINITION. The parameter dictionary's entries: index, subindices, type, access, default, persistence and range, as
the dictionary tables of the chapters list them (R83, R125, R171, R172, R228, R279, R306, R341, R342, R373, R392, R427,
R469, R470, R499). -/
namespace Sys2Proof

/-- Access rights (R13). -/
inductive Access where
  | ro | rw | wo | rwc | rwl
deriving DecidableEq, Repr

/-- Types by their length rule (R12). -/
inductive Ty where
  /-- An unsigned number of `n` octets. -/
  | uint (n : Nat)
  /-- A two's complement number of `n` octets. -/
  | sint (n : Nat)
  | bool
  | time
  /-- OCTETS or DOMAIN of a fixed length. -/
  | octets (n : Nat)
  /-- DOMAIN of up to a length; writes of delta and command entries are concatenated. -/
  | upTo (n : Nat)
deriving DecidableEq, Repr

/-- Values a field may take. -/
inductive Within where
  | any
  /-- Inclusive range. -/
  | range (lo hi : Int)
  /-- Inclusive range and a step. -/
  | step (lo hi by_ : Int)
  /-- Inclusive range or one further value. -/
  | rangeOr (lo hi other : Int)
  /-- Defined bits; the others are reserved, ignored when written and read as 0 (R6). -/
  | bits (mask : Nat)
  /-- Octet records of one length, over and over, with their defined bits; the others are reserved (R6). -/
  | every (mask : List Nat)
deriving DecidableEq, Repr

/-- One row of a dictionary table. -/
structure Entry where
  idx : Nat
  lo : Nat
  hi : Nat
  ty : Ty
  acc : Access
  /-- Default of a subindex as a number (0 for all-zero and empty). -/
  dflt : Nat → Nat
  pers : Bool
  within : Within

/-- A numeric or octet-string entry with one default. -/
def ent (idx lo hi : Nat) (ty : Ty) (acc : Access) (d : Nat) (pers : Bool := false) (w : Within := .any) : Entry :=
  { idx := idx, lo := lo, hi := hi, ty := ty, acc := acc, dflt := fun _ => d, pers := pers, within := w }

/-- An entry whose default depends on the subindex. -/
def entF (idx lo hi : Nat) (ty : Ty) (acc : Access) (d : Nat → Nat) (pers : Bool) (w : Within := .any) : Entry :=
  { idx := idx, lo := lo, hi := hi, ty := ty, acc := acc, dflt := d, pers := pers, within := w }

/-- Defined bits of a ring configuration record (R443), of an action record (R63) and of a segment word (R55). -/
def ringMask : Within := .every [255, 255, 255, 255, 255, 255, 255, 255, 255, 1, 255, 255, 255, 255, 255, 255]
def actionOctets : List Nat := [255, 255, 255, 227, 255, 255, 255, 255, 255, 0, 0, 0, 0, 0, 0, 0]
def segmentMask : Within := .every [255, 1, 0, 255]

/-- R469. -/
def dict1000 : List Entry := [
  ent 0x1000 1 1 (.uint 2) .ro 0 true, ent 0x1000 2 3 (.octets 32) .ro 0 true, ent 0x1000 4 4 (.uint 2) .ro 0 true,
  ent 0x1000 5 6 (.octets 16) .ro 0 true, ent 0x1000 7 7 (.uint 4) .ro 0,
  ent 0x1010 1 1 (.uint 2) .rwl 0xFFFF true (.rangeOr 0 4095 0xFFFF), ent 0x1010 2 2 (.uint 2) .rwl 0 true,
  ent 0x1010 3 4 (.uint 1) .rwl 0xFF true, ent 0x1010 5 5 (.octets 6) .rw 0x0100584C4C03 true,
  ent 0x1010 6 6 (.uint 1) .rw 16 true (.range 1 64), ent 0x1010 7 7 (.uint 2) .rw 0x8000 true (.range 0x8000 0x80FF),
  ent 0x1011 1 32 (.uint 1) .rw 0x0F true (.bits 0x0F), ent 0x1012 1 32 (.uint 2) .rw 0xFFFF true,
  ent 0x1013 1 8 (.uint 2) .rw 0x00FF true (.bits 0x03FF),
  ent 0x1014 1 1 (.octets 2048) .ro 0, ent 0x1014 2 2 (.octets 1024) .ro 0, ent 0x1015 1 1 (.octets 64) .ro 0]

/-- R470. -/
def dict1800 : List Entry := [
  entF 0x1800 1 64 (.octets 16) .rw (fun s => (s - 1) * 2 ^ 80) false ringMask,
  ent 0x1801 1 1 (.octets 8192) .rw 0 false ringMask, ent 0x1802 1 1 (.octets 8192) .rw 0 false ringMask,
  entF 0x1803 1 32 (.octets 16) .rw (fun s => (1087 + s) * 2 ^ 80) false ringMask,
  ent 0x1804 1 1 (.octets 4) .rw (1120 + 1121 * 65536), ent 0x1805 1 1 (.octets 8960) .ro 0, ent 0x1806 1 1 (.octets 256) .ro 0,
  entF 0x1840 1 32 (.uint 1) .rw (fun s => s - 1) true (.range 0 31), ent 0x1841 1 1 (.uint 1) .rw 0 true (.range 0 31),
  ent 0x1F00 1 1 (.uint 8) .wo 0, ent 0x1F00 2 2 (.uint 1) .wo 0 false (.range 1 1), ent 0x1F00 3 3 (.uint 4) .ro 0,
  ent 0x1F00 4 4 (.uint 8) .ro 1, ent 0x1F00 5 5 .time .ro 0, ent 0x1F00 6 6 (.uint 4) .ro 0,
  ent 0x1F01 1 1 (.uint 1) .wo 0 false (.range 1 1), ent 0x1F01 2 2 (.uint 1) .ro 0, ent 0x1F01 3 3 (.uint 8) .ro 0,
  ent 0x1F10 1 1 (.octets 2) .ro 0, ent 0x1F10 2 2 (.uint 8) .ro 0]

/-- R83. The row of 0x2001 gives no range: a start address above 4,095 names no instruction of the image, and the model refuses it as a
value out of range (DESIGN CHOICE, log 112). -/
def dict2000 : List Entry := [
  ent 0x2000 1 1 (.octets 32768) .rw 0 true, ent 0x2000 2 2 (.uint 1) .ro 0, ent 0x2000 3 3 (.uint 1) .ro 22,
  ent 0x2001 1 32 (.uint 2) .rw 0 true (.range 0 4095), ent 0x2002 1 1 (.uint 2) .rw 0x9100 true,
  ent 0x2010 1 32 (.uint 1) .rw 0 true (.range 0 15), ent 0x2011 1 32 (.uint 1) .rw 0 true (.range 0 15),
  ent 0x2012 1 32 (.octets 16) .rw 0 true (.every actionOctets), ent 0x2013 1 32 (.octets 16) .rw 0 true (.every actionOctets),
  ent 0x2014 1 32 (.uint 2) .rw 0x0455 true (.bits 0x0FFF), ent 0x2015 1 32 (.uint 2) .rw 0x0455 true (.bits 0x0FFF),
  ent 0x2016 1 32 (.uint 1) .rw 0x09 true (.bits 0x0F), ent 0x2017 1 32 (.uint 1) .rw 0x05 true (.bits 0x0F),
  entF 0x2018 1 32 (.uint 2) .rw (fun s => 128 * ((s - 1) % 8)) true (.range 0 1023),
  entF 0x2019 1 32 (.uint 2) .rw (fun s => 128 * ((s - 1) % 8)) true (.range 0 1023),
  ent 0x2020 1 16 (.octets 32) .rw 0 false segmentMask, ent 0x2042 1 64 (.octets 1048576) .rw 0, ent 0x2043 1 1 (.upTo 1048576) .wo 0,
  ent 0x2050 1 1 (.uint 1) .ro 0, ent 0x2050 2 2 (.uint 1) .ro 1, ent 0x2050 3 5 (.uint 4) .ro 0, ent 0x2050 6 6 .bool .ro 1,
  ent 0x2060 1 2 (.octets 131072) .rw 0, ent 0x2061 1 2 (.octets 98304) .ro 0, ent 0x2070 1 2 (.octets 2560) .ro 0,
  ent 0x2071 1 1 (.octets 524288) .ro 0]

/-- R125. -/
def dict2400 : List Entry := [
  ent 0x2400 1 8 (.uint 1) .rw 0 true (.range 0 4), ent 0x2401 1 32 (.uint 1) .rwl 2 true (.range 0 2),
  ent 0x2402 1 32 (.uint 2) .rw 10240 true (.range 64 10240), ent 0x2403 1 32 .bool .rw 1 true, ent 0x2404 1 32 (.uint 1) .ro 0,
  ent 0x2405 1 32 (.uint 1) .rw 7 true (.bits 7), ent 0x2406 1 32 (.uint 4) .rw 4000 true (.range 2000 40000),
  ent 0x2410 1 1 (.octets 524288) .rw 0, ent 0x2411 1 1 (.upTo 1048576) .wo 0, ent 0x2412 1 2 (.uint 2) .ro 0]

/-- R171. -/
def dict2800 : List Entry := [
  ent 0x2800 1 8 (.uint 1) .rw 0 true (.range 0 8), ent 0x2801 1 8 (.uint 1) .rw 0 true (.bits 3),
  ent 0x2802 1 8 (.uint 2) .rw 24 true (.range 22 64), ent 0x2803 1 16 (.octets 64) .rw 0 true, ent 0x2804 1 16 (.octets 64) .rw 0 true,
  ent 0x2805 1 8 (.uint 4) .rw 0x000600F7 true (.bits 0x000F0FFF), ent 0x2810 1 1 (.octets 20480) .rw 0,
  ent 0x2811 1 1 (.upTo 1048576) .wo 0, ent 0x2812 1 2 (.uint 1) .rw 3 true (.range 1 16),
  ent 0x2812 3 3 (.uint 8) .rw 0x0000F00000000000 true,
  ent 0x2820 1 8 (.octets 8) .ro 0, ent 0x2821 1 8 (.octets 8) .rwc 0, ent 0x2822 1 1 (.octets 1024) .ro 0,
  ent 0x2823 1 1 (.octets 1024) .rwc 0, ent 0x2824 1 1 (.octets 8192) .ro 0, ent 0x2825 1 1 (.uint 8) .ro 0]

/-- R228. -/
def dict3000 : List Entry := [
  ent 0x3000 1 1 (.uint 1) .rw 1 true (.range 0 2), ent 0x3000 2 2 (.uint 4) .rw 10000 true (.range 1000 86400000),
  ent 0x3001 1 1 (.uint 1) .rw 70 true (.range 50 90), ent 0x3001 2 2 (.uint 2) .rw 1000 true (.step 200 10000 100),
  ent 0x3002 1 1 .bool .rw 1 true, ent 0x3002 2 2 (.uint 1) .rw 15 true (.range 10 40), ent 0x3002 3 3 (.uint 1) .rw 100 true (.range 60 100),
  ent 0x3002 4 4 (.uint 2) .rw 650 true (.step 650 800 5), ent 0x3002 5 5 (.uint 2) .rw 800 true (.step 650 800 5),
  ent 0x3002 6 6 (.uint 2) .ro 750, ent 0x3002 7 7 (.uint 2) .rw 750 true (.range 650 800),
  ent 0x3003 1 2 (.uint 4) .ro 0, ent 0x3003 3 3 (.sint 4) .ro 0, ent 0x3003 4 5 (.uint 1) .ro 0, ent 0x3004 1 1 (.octets 896) .ro 0,
  ent 0x3005 1 28 (.uint 1) .wo 0 false (.range 1 3), ent 0x3006 1 1 (.octets 64) .ro 0, ent 0x3007 1 1 (.octets 1024) .ro 0,
  ent 0x3008 1 1 (.octets 16) .ro 0]

/-- R279. -/
def dict3400 : List Entry := [
  ent 0x3400 1 2 (.octets 1048576) .rwl 0, ent 0x3401 1 1 (.upTo 1048576) .rwl 0, ent 0x3402 1 2 (.octets 786432) .ro 0,
  ent 0x3410 1 1 (.upTo 1048576) .rwl 0, ent 0x3410 2 2 (.octets 8) .ro 0xFFFFFFFF, ent 0x3411 1 1 (.upTo 65536) .ro 0,
  ent 0x3412 1 1 (.octets 32768) .ro 0, ent 0x3412 2 2 (.octets 256) .ro 0, ent 0x3412 3 3 (.octets 2048) .ro 0, ent 0x3412 4 4 (.octets 16) .ro 32768,
  ent 0x3420 1 1 (.upTo 2048) .ro 0 true, ent 0x3420 2 3 (.octets 97) .ro 0 true, ent 0x3420 4 4 (.octets 8) .ro 0 true,
  ent 0x3421 1 1 (.octets 32) .rwl 0, ent 0x3421 2 2 (.octets 261) .ro 0, ent 0x3421 3 3 (.octets 255) .rwl 0, ent 0x3421 4 4 (.octets 16) .ro 0,
  ent 0x3422 1 1 (.octets 201) .wo 0,
  ent 0x3430 1 1 (.octets 524288) .rwl 0, ent 0x3430 2 2 (.upTo 1048576) .rwl 0, ent 0x3431 1 1 (.octets 8192) .rwl 0, ent 0x3431 2 2 (.upTo 8704) .rwl 0,
  ent 0x3432 1 1 (.uint 4) .rw 2000 true (.range 200 10000000), ent 0x3432 2 2 (.uint 2) .rw 0 true (.range 0 32767),
  ent 0x3440 1 1 (.uint 4) .rw 0xF0000000 true (.range 1 0xFFFFFFFF), ent 0x3440 2 2 (.uint 8) .rw 0xF000000000000000 true,
  ent 0x3450 1 2 (.upTo 1048576) .rwl 0, ent 0x3450 3 4 (.uint 4) .ro 0, ent 0x3460 1 1 (.uint 1) .wo 0 false (.range 1 2), ent 0x3460 2 2 .bool .ro 0,
  ent 0x3470 1 1 (.uint 2) .ro 0, ent 0x3471 1 1 (.octets 72) .ro 0]

/-- The SA state records at 0x3600 to 0x36FF (R261, R279). -/
def dict3600 (idx : Nat) : Entry := ent idx 1 128 (.octets 48) .ro 0

/-- R306. -/
def dict3800 : List Entry := [
  ent 0x3800 1 8 (.octets 32768) .rw 0 true, ent 0x3801 1 1 (.upTo 1048576) .wo 0, ent 0x3802 1 32 (.uint 4) .rw 0 true, ent 0x3803 1 32 (.uint 4) .rw 0 true,
  ent 0x3804 1 32 (.uint 1) .rw 1 true (.range 0 2), ent 0x3805 1 32 (.uint 1) .rw 75 true (.range 10 95), ent 0x3806 1 32 (.uint 1) .rw 50 true (.range 5 90),
  ent 0x3807 1 32 (.uint 2) .rw 0xFFFF true (.range 0x100 0xFFFF), ent 0x3808 1 32 (.octets 6) .rw 0 true,
  ent 0x3810 1 8 (.octets 16384) .ro 0, ent 0x3811 1 8 (.octets 32768) .ro 0, ent 0x3812 1 32 (.octets 32) .ro 0, ent 0x3813 1 8 (.octets 48) .ro 0,
  ent 0x3814 1 1 (.octets 16) .ro 0]

/-- R341. -/
def dict4000 : List Entry := [
  ent 0x4000 1 1 .time .ro 0, ent 0x4000 2 2 (.uint 2) .ro 0, ent 0x4000 3 3 (.uint 1) .ro 0, ent 0x4000 4 4 (.octets 48) .ro 0, ent 0x4000 5 5 (.octets 64) .ro 0,
  ent 0x4001 1 1 .time .rwl 0, ent 0x4001 2 2 (.sint 8) .rwl 0,
  ent 0x4010 1 1 (.uint 1) .rw 0 true (.range 0 2), ent 0x4010 2 2 (.uint 1) .rw 0 true, ent 0x4010 3 3 (.uint 1) .rw 0 true (.range 0 63),
  ent 0x4010 4 4 (.octets 10) .rw 0, ent 0x4010 5 5 (.octets 10) .rw 0 true, ent 0x4010 6 6 (.uint 1) .rw 0 true (.range 0 1),
  ent 0x4010 7 7 (.octets 4) .rw 0 true, ent 0x4010 8 8 (.uint 4) .rw 0 true (.bits 0x1FFFF), ent 0x4010 9 9 (.sint 4) .rw 0xFFFFFFFD true (.range (-7) 4),
  ent 0x4010 10 10 (.uint 2) .rw 0xFFFF true, ent 0x4010 11 11 (.uint 8) .rw 0 true, ent 0x4010 12 12 .bool .rw 0 true,
  ent 0x4011 1 1 (.uint 4) .rw 32768 true, ent 0x4011 2 2 (.uint 4) .rw 1311 true, ent 0x4011 3 3 (.uint 4) .rw 100 true (.range 10 10000),
  ent 0x4011 4 4 (.uint 4) .rw 1000 true (.range 100 1000000000), ent 0x4011 5 5 (.uint 1) .rw 16 true (.range 4 64), ent 0x4011 6 6 (.uint 1) .rwl 1 true (.range 0 2),
  ent 0x4011 7 7 (.uint 8) .rwl 1000000 true, ent 0x4011 8 8 (.uint 2) .rw 500 true (.range 100 10000), ent 0x4011 9 9 (.uint 1) .rw 8 true (.range 1 64),
  ent 0x4011 10 10 (.uint 2) .rw 64 true (.range 1 3600), ent 0x4011 11 11 (.uint 1) .rwl 3 true (.bits 3),
  ent 0x4012 1 32 (.octets 16) .rw 0 true, ent 0x4020 1 16 (.octets 48) .rw 0, ent 0x4030 1 1 (.uint 4) .rw 1024 true (.range 64 8192),
  ent 0x4030 2 2 (.octets 32) .ro 0, ent 0x4030 3 3 (.uint 4) .ro 0]

/-- R342. -/
def dict6000 : List Entry := [
  ent 0x6000 1 4 (.uint 1) .rw 0 true (.range 0 4), ent 0x6001 1 4 (.uint 1) .rw 0 true (.bits 3), ent 0x6002 1 4 (.sint 4) .rw 0 true (.range (-100000) 100000),
  ent 0x6003 1 4 .time .ro 0, ent 0x6004 1 4 (.octets 192) .ro 0, ent 0x6005 1 4 (.octets 16) .ro 0]

/-- R373. -/
def dict4400 : List Entry := [
  ent 0x4400 1 1 (.uint 8) .ro 5368709120, ent 0x4400 2 2 (.uint 2) .ro 0, ent 0x4400 3 3 (.octets 128) .ro 0, ent 0x4401 1 1 (.uint 2) .rwc 0,
  ent 0x4402 1 1 (.uint 2) .rw 4 true (.range 1 168), ent 0x4403 1 1 (.octets 96) .ro 0, ent 0x4404 1 1 (.octets 16384) .ro 0, ent 0x4405 1 1 (.octets 2048) .ro 0,
  ent 0x4406 1 1 (.octets 32) .ro 0, ent 0x4410 1 1 (.octets 16) .rwl 0, ent 0x4420 1 1 (.uint 8) .rw 0, ent 0x4420 2 2 (.octets 64) .ro 0, ent 0x4420 3 3 (.uint 1) .ro 0]

/-- R392. -/
def dict4800 : List Entry := [
  ent 0x4800 1 1 (.uint 4) .ro 0x10, ent 0x4800 2 2 (.octets 8) .ro 0, ent 0x4801 1 1 (.octets 128) .ro 0, ent 0x4801 2 2 (.octets 64) .ro 0,
  ent 0x4802 1 1 (.uint 2) .rwl 81 true (.range 40 128), ent 0x4802 2 2 (.uint 2) .rwl 828 true (.range 780 1000),
  ent 0x4803 1 1 (.uint 2) .rw 100 true (.range 10 10000), ent 0x4803 2 2 (.uint 1) .rw 3 true (.range 1 16),
  ent 0x4804 1 1 (.uint 4) .rwl 65536 true (.range 1024 65536), ent 0x4804 2 2 (.uint 4) .rw 1024 true (.range 64 65536),
  ent 0x4804 3 3 (.uint 4) .rw 16384 true (.range 0 65536), ent 0x4804 4 4 (.uint 4) .ro 0,
  ent 0x4810 1 1 (.octets 128) .rw 0, ent 0x4810 2 2 (.octets 32) .ro 0, ent 0x4811 1 1 (.upTo 340) .rw 0, ent 0x4811 2 2 (.octets 64) .ro 0,
  ent 0x4812 1 1 (.uint 1) .rw 0xFF false (.rangeOr 0 7 0xFF), ent 0x4812 2 2 (.octets 131072) .ro 0, ent 0x4812 3 3 (.uint 1) .ro 0]

/-- Default sensor responses (R397): sensors 0 to 22. -/
def sensorDefault : List Nat := [3, 3, 0, 0, 3, 1, 1, 2, 1, 1, 2, 2, 1, 2, 1, 2, 0, 1, 0, 1, 1, 0, 2]

/-- R427. -/
def dict5000 : List Entry := [
  ent 0x5000 1 1 (.uint 2) .ro 0, ent 0x5001 1 1 (.uint 8) .ro 0, ent 0x5002 1 1 (.uint 8) .rwc 0, ent 0x5003 1 1 (.octets 8) .ro 0,
  entF 0x5010 1 23 (.uint 1) .rwl (fun s => sensorDefault.getD (s - 1) 0) true (.range 0 3),
  ent 0x5012 1 1 (.sint 2) .rwl 11000 true (.range 9000 12000), ent 0x5012 2 2 (.sint 2) .rwl 12500 true (.range 11000 13000),
  ent 0x5012 3 3 (.sint 2) .rwl 63036 true (.range (-5000) (-1000)), ent 0x5012 4 4 (.uint 2) .rwl 500 true (.range 100 2000),
  ent 0x5012 5 5 (.uint 2) .rwl 2000 true (.range 500 10000), ent 0x5012 6 6 (.uint 2) .rwl 2300 true (.range 2100 2800),
  ent 0x5013 1 1 (.uint 1) .rwl 0 true (.range 0 1), ent 0x5013 2 2 (.uint 1) .rw 0 true (.range 0 31),
  ent 0x5020 1 1 (.octets 32) .ro 0, ent 0x5020 2 2 (.octets 160) .wo 0, ent 0x5020 3 3 (.octets 16) .ro 0 true,
  ent 0x5030 1 1 (.octets 160) .wo 0, ent 0x5030 2 2 (.uint 1) .wo 0 false (.range 0 1),
  ent 0x5040 1 1 (.octets 40) .ro 0 true, ent 0x5040 2 2 (.octets 16) .ro 0, ent 0x5041 1 1 (.upTo 16548) .ro 0, ent 0x5041 2 2 (.octets 12) .wo 0,
  ent 0x5042 1 1 (.uint 2) .rw 384 true (.range 64 480), ent 0x5050 1 1 (.octets 256) .ro 0 true, ent 0x5050 2 2 (.octets 8) .rwl 0,
  ent 0x5060 1 1 (.octets 64) .ro 0 true, ent 0x5070 1 2 (.octets 32) .ro 0, ent 0x5070 3 3 (.uint 8) .ro 0]

/-- R499. -/
def dict5400 : List Entry := [
  ent 0x5400 1 1 (.uint 1) .wo 0 false (.range 1 2), ent 0x5400 2 2 (.uint 1) .ro 0, ent 0x5400 3 3 (.octets 40) .ro 0 true, ent 0x5400 4 4 (.octets 32) .ro 0,
  ent 0x5400 5 5 (.uint 1) .ro 0, ent 0x5401 1 80 (.uint 1) .rw 0xFF true (.rangeOr 0 1 0xFF), ent 0x5402 1 80 (.uint 1) .wo 0 false (.range 1 1),
  ent 0x5403 1 1 (.octets 1280) .ro 0, ent 0x5404 1 1 .bool .rw 0 true, ent 0x5404 2 2 (.uint 2) .rw 100 true (.range 10 10000), ent 0x5405 1 1 (.octets 16) .ro 0]

/-- R172. -/
def dict7000 : List Entry := [
  ent 0x7000 1 32 (.octets 192) .ro 0, ent 0x7001 1 32 (.octets 8) .ro 0, ent 0x7002 1 32 (.octets 40) .ro 0, ent 0x7003 1 1 (.octets 524288) .ro 0,
  ent 0x7004 1 2 (.octets 655360) .ro 0, ent 0x7005 1 32 (.octets 80) .ro 0, ent 0x7010 1 8 (.octets 192) .ro 0, ent 0x7011 1 1 (.octets 12288) .ro 0,
  ent 0x7100 1 1 (.octets 34816) .ro 0, ent 0x7101 1 1 (.octets 34816) .ro 0, ent 0x7102 1 1 (.octets 34816) .ro 0, ent 0x7110 1 32 (.octets 34816) .ro 0,
  ent 0x7120 1 2 (.octets 20) .rw 0 true]

/-- Every entry outside 0x3600 to 0x36FF. -/
def dictAll : List Entry :=
  dict1000 ++ dict1800 ++ dict2000 ++ dict2400 ++ dict2800 ++ dict3000 ++ dict3400 ++ dict3800 ++ dict4000 ++ dict4400 ++ dict4800 ++
  dict5000 ++ dict5400 ++ dict6000 ++ dict7000

/-- The highest subindex implemented at an index; 0 where there is none (R11). -/
def highestSub (idx : Nat) : Nat :=
  if 0x3600 ≤ idx ∧ idx ≤ 0x36FF then 128
  else (dictAll.filter (fun e => e.idx == idx)).foldl (fun m e => max m e.hi) 0

/-- The entry at an index and subindex (R11, R14); none does not exist. -/
def entryAt (idx sub : Nat) : Option Entry :=
  if sub = 0 then (if highestSub idx = 0 then none else some (ent idx 0 0 (.uint 1) .ro (highestSub idx)))
  else if 0x3600 ≤ idx ∧ idx ≤ 0x36FF then (if sub ≤ 128 then some (dict3600 idx) else none)
  else dictAll.find? (fun e => e.idx == idx && decide (e.lo ≤ sub) && decide (sub ≤ e.hi))

/-- The key under which an entry is staged and stored. -/
def odKey (idx sub : Nat) : Nat := idx * 256 + sub

/-- The length a value of the type has, or may have at most. -/
def Ty.size : Ty → Nat
  | .uint n => n
  | .sint n => n
  | .bool => 1
  | .time => 12
  | .octets n => n
  | .upTo n => n

/-- Whether an octet string has a length the type allows (R12, R436). -/
def Ty.fits (t : Ty) (b : Octets) : Bool :=
  match t with
  | .upTo n => decide (b.length ≤ n)
  | t => decide (b.length = t.size)

/-- The default of a subindex as octets. -/
def Entry.defaultOctets (e : Entry) (sub : Nat) : Octets :=
  match e.ty with
  | .upTo _ => []
  | t => leBytes t.size (e.dflt sub)

/-- The number a numeric value spells. -/
def Entry.number (e : Entry) (b : Octets) : Int :=
  match e.ty with
  | .sint n => signed (8 * n) (leNat b)
  | _ => leNat b

/-- A value is inside its range (R6, R12 for BOOL and TIME96). -/
def Entry.inRange (e : Entry) (b : Octets) : Bool :=
  (match e.ty with
   | .bool => decide (leNat b ≤ 1)
   | .time => time96Ok b
   | _ => true) &&
  (match e.within with
   | .any => true
   | .range lo hi => decide (lo ≤ e.number b) && decide (e.number b ≤ hi)
   | .step lo hi k => decide (lo ≤ e.number b) && decide (e.number b ≤ hi) && decide (e.number b % k = 0)
   | .rangeOr lo hi o => (decide (lo ≤ e.number b) && decide (e.number b ≤ hi)) || decide (e.number b = o)
   | .bits _ => true
   | .every _ => true)

/-- The value as it is kept: reserved bits ignored (R6). -/
def Entry.keep (e : Entry) (b : Octets) : Octets :=
  match e.within with
  | .bits m => leBytes b.length ((leNat b) &&& m)
  | .every m => b.zipIdx.map (fun q => q.1 &&& BitVec.ofNat 8 (m.getD (q.2 % m.length) 0))
  | _ => b

/-- Delta and command entries, whose successive writes are concatenated (R84, R126, R249, R429). -/
def concatenated (idx sub : Nat) : Bool :=
  [(0x2043, 1), (0x2411, 1), (0x2811, 1), (0x3401, 1), (0x3410, 1), (0x3430, 2), (0x3431, 2), (0x3450, 1), (0x3450, 2), (0x3801, 1)].contains (idx, sub)

/-- The pair of octet positions the delivery and injection ring tables are read at (R443): defaults disabled, vector r. -/
def ringDefault (r : Nat) : Octets := zeros 10 ++ leBytes 2 r ++ zeros 4

/-- Abort codes (R439). -/
def abMissing : Nat := 0x00010001
def abReadOnly : Nat := 0x00010002
def abLocked : Nat := 0x00010003
def abLength : Nat := 0x00010004
def abSegment : Nat := 0x00010005
def abRange : Nat := 0x00020001
def abMicrocode : Nat := 0x00020002
def abDangling : Nat := 0x00030001
def abDuplicate : Nat := 0x00030002
def abState : Nat := 0x00030003
def abCut : Nat := 0x00030004
def abGeneration : Nat := 0x00030005
def abPower : Nat := 0x00030006
def abCapacity : Nat := 0x00040001
def abStaging : Nat := 0x00040002
def abPin : Nat := 0x00040010
def abSlot : Nat := 0x00040011
def abRetention : Nat := 0x00040012
def abLane : Nat := 0x00040013
def abVector : Nat := 0x00040014
def abKey : Nat := 0x00050001
def abSignature : Nat := 0x00050002
def abPending : Nat := 0x00060001
def abClosed : Nat := 0x00060002
def abNotExecuted : Nat := 0x00060003
def abZeroized : Nat := 0x00070001
def abControl : Nat := 0x00070002

end Sys2Proof
end

