-- ==== Sys2Proof/Machine/Hash.lean ====
section
/-! DEFINITION. SHA-384 (FIPS 180-4), HMAC, and the SP 800-108 counter-mode KDF of R232. PRESUMED: the standards' own
text, log 8. -/
namespace Sys2Proof

/-- The first 80 primes. -/
def primes80 : List Nat :=
  [2, 3, 5, 7, 11, 13, 17, 19, 23, 29, 31, 37, 41, 43, 47, 53, 59, 61, 67, 71] ++
  [73, 79, 83, 89, 97, 101, 103, 107, 109, 113, 127, 131, 137, 139, 149, 151, 157, 163, 167, 173] ++
  [179, 181, 191, 193, 197, 199, 211, 223, 227, 229, 233, 239, 241, 251, 257, 263, 269, 271, 277, 281] ++
  [283, 293, 307, 311, 313, 317, 331, 337, 347, 349, 353, 359, 367, 373, 379, 383, 389, 397, 401, 409]

/-- Largest root with root^k at most `v`, by bits from `b` down. -/
def rootBits (k v : Nat) : Nat → Nat → Nat
  | 0, r => r
  | b + 1, r => if (r + 2 ^ b) ^ k ≤ v then rootBits k v b (r + 2 ^ b) else rootBits k v b r

/-- SHA-512 round constants: fractional parts of the cube roots of the first 80 primes. -/
def sha512K : List W64 := primes80.map (fun p => BitVec.ofNat 64 (rootBits 3 (p * 2 ^ 192) 72 0))

/-- SHA-384 initial value: fractional parts of the square roots of the ninth to sixteenth primes. -/
def sha384Init : List W64 := ((primes80.drop 8).take 8).map (fun p => BitVec.ofNat 64 (rootBits 2 (p * 2 ^ 128) 72 0))

/-- Message-schedule words, newest first. -/
def shaSchedule : Nat → List W64 → List W64
  | 0, w => w
  | k + 1, w =>
    let a := w.getD 1 0
    let b := w.getD 14 0
    let s1 := a.rotateRight 19 ^^^ a.rotateRight 61 ^^^ (a >>> 6)
    let s0 := b.rotateRight 1 ^^^ b.rotateRight 8 ^^^ (b >>> 7)
    shaSchedule k ((s1 + w.getD 6 0 + s0 + w.getD 15 0) :: w)

/-- One round. -/
def shaRound (v : List W64) (kw : W64 × W64) : List W64 :=
  match v with
  | [a, b, c, d, e, f, g, h] =>
    let t1 := h + (e.rotateRight 14 ^^^ e.rotateRight 18 ^^^ e.rotateRight 41) + ((e &&& f) ^^^ (~~~e &&& g)) + kw.1 + kw.2
    let t2 := (a.rotateRight 28 ^^^ a.rotateRight 34 ^^^ a.rotateRight 39) + ((a &&& b) ^^^ (a &&& c) ^^^ (b &&& c))
    [t1 + t2, a, b, c, d + t1, e, f, g]
  | x => x

/-- One 128-octet block. -/
def shaBlock (h : List W64) (m : Octets) : List W64 :=
  let w0 := (recordsOf 8 m).map (fun b => BitVec.ofNat 64 (beNat b))
  let w := (shaSchedule 64 w0.reverse).reverse
  List.zipWith (· + ·) h ((sha512K.zip w).foldl shaRound h)

/-- SHA-384, 48 octets. -/
def sha384 (m : Octets) : Octets :=
  let z := (239 - m.length % 128) % 128
  let p := m ++ [0x80] ++ zeros z ++ beBytes 16 (8 * m.length)
  (((recordsOf 128 p).foldl shaBlock sha384Init).map (fun w => beBytes 8 w.toNat)).flatten.take 48

/-- HMAC-SHA-384. -/
def hmac384 (key m : Octets) : Octets :=
  let k := padTo 128 (if key.length > 128 then sha384 key else key)
  sha384 (k.map (· ^^^ 0x5C) ++ sha384 (k.map (· ^^^ 0x36) ++ m))

/-- The counter-mode KDF of R232 with the PRF and the widths of a derive command (R249): the first `bitsL` bits. -/
def kdfWith (prf : Octets → Octets) (prfLen ctrOctets lenOctets : Nat) (label context : Octets) (bitsL : Nat) : Octets :=
  ((List.range (bitsL / 8 / prfLen + 1)).map (fun i =>
    prf (beBytes ctrOctets (i + 1) ++ label ++ [0] ++ context ++ beBytes lenOctets bitsL))).flatten.take (bitsL / 8)

/-- The internal KDF of R232: HMAC-SHA-384, 32-bit counter, 32-bit length. -/
def kdf (ki : Octets) (label : String) (context : Octets) (bitsL : Nat) : Octets :=
  kdfWith (hmac384 ki) 48 4 4 (ascii label) context bitsL

end Sys2Proof
end

