-- ==== Sys2Proof/Machine/State.lean ====
section
/-! DEFINITION. The state of the LLX3264 as plain data: every register, table, queue, buffer, counter and pin the spec
gives the part, the queue of waiting commands, and the state after reset. Each field's text gives its width, the rule
that names it and its value at reset. "log n" is the assumption log's row n. -/
namespace Sys2Proof.Machine

/-! ## Reasons a step stops -/

/-- Why the machine stops with a fault. No command of this part ends a step in one: the spec gives every command an
effect, and refusals of the part are abort codes in the state. -/
inductive Fault where
  /-- Raised by no command (log 1); safe. -/
  | unreachable
deriving DecidableEq, Repr

/-- Why a command has no meaning in the model. -/
inductive Refusal where
  /-- Raised by an arm of exec whose command has no meaning yet; safe, because the model stops. -/
  | notModelled (mnemonic : String)
deriving DecidableEq, Repr

/-! ## Outputs (the model's own record of what left the part, newest first; log 4) -/

/-- What a transmitter sends in place of frames: nothing, Local Fault or Remote Fault ordered sets (R91). -/
inductive Ordered where
  | none | localFault | remoteFault
deriving DecidableEq, Repr

/-- The overhead of a transmitted OTUCn and its timing (R130, R138). -/
structure OtuTx where
  /-- Transmitted SM TTI; 64 octets; R171; reset empty. -/
  tti : Octets := []
  /-- Frame timing from the OTUCn received on the other side; 1 bit; R130, R171; reset 0. -/
  through : Bool := false
  /-- FlexO RDI; 1 bit; R138; reset 0. -/
  rdi : Bool := false
  /-- SM BDI; 1 bit; R138; reset 0. -/
  smBdi : Bool := false
  /-- SM BIAE; 1 bit; R138; reset 0. -/
  biae : Bool := false
  /-- PM BDI; 1 bit; R138; reset 0. -/
  pmBdi : Bool := false
deriving DecidableEq, Repr

/-- One thing the part sent to the outside. -/
inductive Output where
  /-- A DMA write into host memory (R442). -/
  | dma (addr : Nat) (data : Octets)
  /-- An MSI-X vector signalled (R450). -/
  | msix (vector : Nat)
  /-- The electrical level an event pin is driven to (true high), or none for high impedance (R336). -/
  | pin (p : Nat) (drive : Option Bool)
  /-- A frame on the lanes of a port: the direction's egress side (R289); octets without FCS. -/
  | frame (pd : PD) (data : Octets)
  /-- An ODU frame remapped on the other side of a tributary (R147, R148): payload, overhead and JC octets. -/
  | odu (trib : Nat) (dir : Dir) (payload overhead jc : Octets)
  /-- What the overhead of the OTUCn sent on one side of a pair carries (R130, R138). -/
  | otuSet (pair : Nat) (side : Side) (x : OtuTx)
  /-- A MAC pause frame toward the system from port Pn (R300). -/
  | pause (port : Nat) (data : Octets)
  /-- Ordered sets on one side of a port begin, change or end (R91). -/
  | orderedSet (port : Nat) (side : Side) (kind : Ordered)
  /-- A response record of a transaction of a session (R435). -/
  | response (session : Nat) (data : Octets)
  /-- An AVSBus voltage write in mV (R503). -/
  | avsWrite (mv : Nat)
  /-- An AVSBus voltage read (R503). -/
  | avsRead
  /-- A configuration-flash write of image slot 0 or 1 (R437). -/
  | flash (slot : Nat) (data : Octets)
  /-- The completion of a direct-register-window read (R384). -/
  | window (data : Octets)
deriving DecidableEq, Repr

/-! ## Time unit (08) -/

/-- Servo states (R318, OD 0x4000.03). -/
inductive Servo where
  | unset | freeRun | acquiring | locked | holdover
deriving DecidableEq, Repr

/-- A scheduled-action slot record and its run-time state (R331, R333). -/
structure Slot where
  /-- Armed bit; 1 bit; R331; reset 0. -/
  armed : Bool := false
  /-- Periodic bit; 1 bit; R331; reset 0. -/
  periodic : Bool := false
  /-- Action; 8 bits; R331; reset 0. -/
  action : Nat := 0
  /-- Target; 8 bits; R331; reset 0. -/
  target : Nat := 0
  /-- Level; 1 bit; R331; reset 0. -/
  level : Bool := false
  /-- First time T; TIME96 in 2^-16 ns; R331; reset 0. -/
  first : Nat := 0
  /-- Period; 64 bits, ns; R331; reset 0. -/
  period : Nat := 0
  /-- Pulse width; 32 bits, ns; R331; reset 0. -/
  width : Nat := 0
  /-- Repeat count; 32 bits; R331; reset 0. -/
  repeats : Nat := 0
  /-- Fired count; 32 bits, saturates; R331; reset 0. -/
  fired : Nat := 0
  /-- Missed count; 32 bits, saturates; R331; reset 0. -/
  missed : Nat := 0
  /-- State; 0 Idle, 1 Armed, 2 Done, 3 Fault; R331; reset 0. -/
  state : Nat := 0
  /-- Next occurrence awaited; TIME96 in 2^-16 ns; R333; reset 0. -/
  next : Nat := 0
  /-- Occurrences reached or skipped since the record was written; R333; reset 0. -/
  seen : Nat := 0
  /-- Runs of occurrences of a periodic slot that were fired, first and last time of each, 2^-16 ns: none of them fires twice; R334; reset empty. -/
  ran : List (Nat × Nat) := []
  /-- Session holding an armed slot of action 0x03 (R476); none at reset. -/
  holder : Option Nat := none
  /-- Staging passed to the slot by a closed session (R433); none at reset. -/
  passed : Option (Tab Octets) := none
deriving DecidableEq, Repr

/-- An event pin EP0 to EP3 (R336, R337). -/
structure Pin where
  /-- Driven active by a slot or the lock output; 1 bit; R335; reset 0. -/
  active : Bool := false
  /-- Last capture; TIME96 in 2^-16 ns; R342; reset 0. -/
  last : Nat := 0
  /-- Capture FIFO, oldest first; up to 16 TIME96; R337; reset empty. -/
  fifo : List Nat := []
  /-- Captures; 64 bits; R342; reset 0. -/
  captures : W64 := 0
  /-- Overflows; 64 bits; R342; reset 0. -/
  overflows : W64 := 0
  /-- End of the pulse in progress, TIME96 in 2^-16 ns; R335; reset none. -/
  pulseEnd : Option Nat := none
  /-- Electrical level driven, true for high; none for high impedance; R336; reset none. -/
  drive : Option Bool := none
deriving DecidableEq, Repr

/-- A two-step Sync waiting for its Follow_Up, or the numbers of a one-step one (R316). -/
structure SyncWait where
  /-- sequenceId; 16 bits; R316. -/
  seqId : Nat
  /-- Ingress stamp t2; 2^-16 ns; R316. -/
  t2 : Int
  /-- correctionField; 2^-16 ns; R316. -/
  corr : Int
  /-- Cycle at which the Sync was consumed; R316. -/
  at_ : Nat
deriving DecidableEq, Repr

/-- A Delay_Req sent and not yet answered (R316). -/
structure DreqWait where
  /-- sequenceId; 16 bits; R315. -/
  seqId : Nat
  /-- Egress stamp t3; 2^-16 ns; R316. -/
  t3 : Int
  /-- Cycle at which it was sent; R316. -/
  at_ : Nat
deriving DecidableEq, Repr

/-- The time unit, PD74. -/
structure TimeUnit where
  /-- Edge-clock cycles since reset; R307 (each adds 0.64 ns (1 + y)); reset 0. -/
  cycles : Nat := 0
  /-- The TIME96 value, total in 2^-48 ns; 48 + 32 + 48 bits; R307; reset 0, loaded from the tool rest at power-on (R308). -/
  t48 : Nat := 0
  /-- Frequency adjustment y; 0.001 ppb, within 200 ppm; R307; reset 0 (log 6). -/
  y : Int := 0
  /-- Set flag; 1 bit; R308; reset 0. -/
  isSet : Bool := false
  /-- Servo state; R318; reset Unset. -/
  servo : Servo := .unset
  /-- Servo integral; 2^-32 ppb; R317; reset 0 (log 6). -/
  integ : Int := 0
  /-- Last offset sample theta; S64, 2^-16 ns; R341; reset 0. -/
  theta : Int := 0
  /-- Path delay d; S64, 2^-16 ns; R316; reset 0. -/
  dly : Int := 0
  /-- Last F path-delay values (ms + sm)/2, newest first; R316; reset empty. -/
  delays : List Int := []
  /-- Last slave-to-master value; 2^-16 ns; R316; reset none. -/
  sm : Option Int := none
  /-- Amount of the last step; S64, 2^-16 ns; R322; reset 0. -/
  lastStep : Int := 0
  /-- Instant of the last step; TIME96 in 2^-16 ns; R322; reset 0. -/
  stepAt : Nat := 0
  /-- Stepped since last read; R341; reset 0. -/
  stepped : Bool := false
  /-- Jump refused; R318; reset 0. -/
  jumpRefused : Bool := false
  /-- Unverified first set; R320; reset 0. -/
  unverified : Bool := false
  /-- Consecutive samples within the lock threshold; R318; reset 0. -/
  goodRun : Nat := 0
  /-- Consecutive samples outside the lock threshold; R318; reset 0. -/
  badRun : Nat := 0
  /-- Consecutive outliers, newest first, 2^-16 ns; R319; reset empty. -/
  outliers : List Int := []
  /-- Consecutive valid samples while Unset, newest first, 2^-16 ns; R318; reset empty. -/
  firstSet : List Int := []
  /-- Cycle of the last valid sample; R318; reset 0. -/
  lastSample : Nat := 0
  /-- Cycle at which Holdover began; R321; reset 0. -/
  holdoverAt : Nat := 0
  /-- Widened step threshold in use, in 2^-16 ns; R321; reset none. -/
  wide : Option Int := none
  /-- Cycle since which the servo has been Locked; R321; reset 0. -/
  lockedSince : Nat := 0
  /-- History of y as cycle and value, newest first; R321; reset empty. -/
  yHist : List (Nat × Int) := []
  /-- Two-step Syncs of the master waiting for their Follow_Ups, oldest first; R316; reset empty. -/
  syncs : List SyncWait := []
  /-- First Sync of the selected master consumed; R315; reset 0. -/
  syncSeen : Bool := false
  /-- Cycle at which the next Delay_Req is due; R315; reset none. -/
  dreqDue : Option Nat := none
  /-- Cycle at which the seconds were last written into the tool rest; R320; reset 0. -/
  restAt : Nat := 0
  /-- Delay_Reqs outstanding; R314, R316; reset empty. -/
  dreqs : List DreqWait := []
  /-- Next Delay_Req sequenceId; 16 bits; R315; reset 0. -/
  dreqSeq : W16 := 0
  /-- Own-clock counters, eight of 64 bits by position; R341; reset 0. -/
  counters : Tab W64 := []
  /-- Delay_Reqs counted as lost and Follow_Ups timed out; R316 names the counts without an entry; reset 0. -/
  lost : Tab W64 := []
  /-- Scheduled-action slots 0 to 15; R331; reset all Idle. -/
  slots : Tab Slot := []
  /-- Event pins 0 to 3; R336; reset Off. -/
  pins : Tab Pin := []
  /-- Own-clock frames taken off and not yet handled: port-direction, octets, ingress stamp, exception queue; R314; reset empty. -/
  inbox : List (PD × Octets × Nat × Nat) := []
  /-- Timed-launch counters held, late, holding full, moved by step; 64 bits each; R341; reset 0. -/
  launchCounters : Tab W64 := []
deriving DecidableEq, Repr

/-! ## Power, start-up and reset (14) -/

/-- Start-up states (R485). -/
inductive Start where
  | off | init | halted | training | restoring | memFailed | waitRandom | ready
deriving DecidableEq, Repr

/-- Phases of a service reset (R491). -/
inductive ServicePhase where
  | none | draining | resetting
deriving DecidableEq, Repr

/-- One power domain's status record (R499). -/
structure Domain where
  /-- 0 off, 1 on, 2 powering on, 3 in reset, 4 draining; R499; reset 0. -/
  state : Nat := 0
  /-- Last reset cause 0 none, 1 request, 2 internal fault, 3 service reset; R499; reset 0. -/
  cause : Nat := 0
  /-- Resets; 64 bits; R499; reset 0. -/
  resets : W64 := 0
deriving DecidableEq, Repr

/-- A drain in progress (R225, R499). -/
structure Drain where
  /-- Domains to restart after it; empty for a service reset. -/
  domains : List Nat
  /-- Ports draining. -/
  ports : List Nat
  /-- Cycle at which it started. -/
  at_ : Nat
  /-- Cause of the reset it is for (R499): 1 request, 2 internal fault, 3 service reset. -/
  cause : Nat
deriving DecidableEq, Repr

/-- Power, start-up, reset and the control pins. -/
structure Power where
  /-- Start-up state; R485; reset Off. -/
  start : Start := .off
  /-- PWRGOOD input; R485; reset deasserted (log 17). -/
  pwrgood : Bool := false
  /-- RESET_N input asserted; R489; reset 0 (log 6). -/
  resetN : Bool := false
  /-- Start-up reference, edge-clock cycle; R486; reset 0. -/
  ref : Nat := 0
  /-- Start-up record, six U32 times in us by position; R499; reset 0 (log 6). -/
  record : Tab Nat := []
  /-- HBM training attempts; 8 bits; R499; reset 0. -/
  attempts : Nat := 0
  /-- Stacks trained; R485; reset none. -/
  trained : List Nat := []
  /-- Stacks that have failed one training; R485; reset none. -/
  failedOnce : List Nat := []
  /-- Image restored, Locked at start, Zeroized at start; R499 byte 26; reset 0. -/
  startFlags : Nat := 0
  /-- Last reset cause 0 power-on, 1 pin, 2 cold; R499; reset 0 (log 6). -/
  lastCause : Nat := 0
  /-- Reset counts power-on, pin, cold, service, drain timeouts; 64 bits each, MRAM; R499; reset 0. -/
  resetCounts : Tab W64 := []
  /-- The 80 power domains; R41; reset off (log 17), but PD79, which is always on. -/
  domains : Tab Domain := [(79, { state := 1 })]
  /-- Drains in progress; R225; reset none. -/
  drains : List Drain := []
  /-- Service-reset phase; R491; reset none. -/
  service : ServicePhase := .none
  /-- Steps of a reset phase that have begun: 0 the domains, 1 chuck A, 2 chuck B, 3 the fail-over; R491; reset 0. -/
  serviceStep : Nat := 0
  /-- Cycle at which a committed cold reset takes effect; R490; reset none. -/
  coldAt : Option Nat := none
  /-- THERMTRIP_N asserted; R515; reset 0 (log 6). -/
  thermtrip : Bool := false
  /-- TX_DISABLE outputs, 16 of them (SG0-7 then LG0-7): 0 released, 1 deasserted, 2 asserted; R498; reset released. -/
  txDis : Tab Nat := []
  /-- Lane groups (SG0-7 then LG0-7) whose transmitters send (not at electrical idle); R497; reset none. -/
  txOn : List Nat := []
  /-- Lanes powered and sending: SL0 to SL31 as 0 to 31, LL0 to LL31 as 32 to 63; R127, R497; reset none. -/
  lanesOn : List Nat := []
  /-- Cycle since which the measured demand has been zero; R495; reset 0. -/
  zeroSince : Nat := 0
  /-- Parked (spindle parking in effect); R495; reset 0. -/
  parked : Bool := false
  /-- ZEROIZE_N input asserted; R278; reset deasserted. -/
  zeroizeN : Bool := false
  /-- PCIe link up; R452, R497; reset 0. -/
  pcieUp : Bool := false
deriving DecidableEq, Repr

/-! ## Sessions, staging and controllers (12) -/

/-- One of the 128 dictionary sessions (R428). -/
structure Session where
  /-- Staged writes by entry key (index * 256 + subindex); R429; reset empty. -/
  staged : Tab Octets := []
  /-- Unfinished segmented writes by entry key; R436; reset empty. -/
  partials : Tab Octets := []
  /-- Snapshot copies by entry key with the cycle at which each was taken; R436; reset empty. -/
  snaps : Tab (Octets × Nat) := []
  /-- Last commit result; 32 bits; R470; reset 0. -/
  last : Nat := 0
deriving DecidableEq, Repr

/-- Controller states (R464, OD 0x1F10.01). -/
inductive CtlState where
  | active | standby | starting | isolated | diagnosing | retired
deriving DecidableEq, Repr

/-- A commit whose trees are being compiled or that waits for a cut to become Free (R69, R70). -/
structure Job where
  /-- Session that commits; 0 to 127; R428. -/
  session : Nat
  /-- What it stages, by entry key; R431. -/
  staged : Tab Octets
  /-- Waiting for a fifth live cut (R70). -/
  waiting : Bool
  /-- Cycle at which the commit write reached the controller. -/
  at_ : Nat
  /-- Cut number being compiled. -/
  cut : Nat
  /-- Generation the commit expects, 0 for any (R431). -/
  expected : Nat
  /-- How its key commands fare with the chucks (the commit command's operand). -/
  chucks : ChuckRun
deriving DecidableEq, Repr

/-- A transaction whose commit has not finished, kept until its response is written (R432, R466). -/
structure Held where
  /-- Session of the transaction; 0 to 127; R432. -/
  session : Nat
  /-- It came through the session's mailbox ring. -/
  ring : Bool := false
  /-- The 24-octet request record of the commit it waits for; empty where it has not been taken up. -/
  header : Octets
  /-- On a mailbox ring: its response record is in `done` and waits for the completions before it (R444). -/
  ready : Bool := false
  /-- Of a Urzidun request: key, Np and Nc under which its Response is sent (R457). -/
  sealing : Octets × Octets × Octets := ([], [], [])
  /-- Of a Urzidun request: the records after it, the response records so far, and the frame it came in. -/
  rest : Octets := []
  /-- Response records so far; R457. -/
  done : Octets := []
  /-- Frame the request came in: port-direction and octets; R457. -/
  frame : Option (PD × Octets) := none
deriving DecidableEq, Repr

/-- The two controllers and the commit engine. -/
structure Control where
  /-- State of controller A; R464; reset Active. -/
  ctlA : CtlState := .active
  /-- State of controller B; R464; reset Standby. -/
  ctlB : CtlState := .standby
  /-- Consecutive diagnosis failures of A; R464; reset 0. -/
  failA : Nat := 0
  /-- Consecutive diagnosis failures of B; R464; reset 0. -/
  failB : Nat := 0
  /-- Fail-overs; 64 bits; R470; reset 0. -/
  failovers : W64 := 0
  /-- Cycle of the fault of the fail-over in progress; R465; reset 0. -/
  faultAt : Nat := 0
  /-- Dictionary generation; 64 bits; R431; reset 1. -/
  generation : W64 := 1
  /-- Last apply instant; TIME96 in 2^-16 ns; R470; reset 0. -/
  applyAt : Nat := 0
  /-- The 128 sessions; R428; reset empty. -/
  sessions : Tab Session := []
  /-- Commit in progress (compiling or waiting); R432; reset none. -/
  job : Option Job := none
  /-- Commits waiting behind it, oldest first; R432; reset empty. -/
  queue : List Job := []
  /-- Transactions whose commit is in progress or waits; R432; reset none. -/
  held : List Held := []
  /-- Transactions of the rows of their own that are held while a controller starts: session, request record, chucks; R466; reset none. -/
  intake : List (Nat × Octets × ChuckRun) := []
  /-- Commits that have ended and whose response is still to be written: session and result; R431; reset none. -/
  finished : List (Nat × Nat) := []
  /-- Applied values of RW and RWL entries that differ from their defaults, by entry key; R430; reset empty (R13). -/
  dict : Tab Octets := []
  /-- Image status; 8 bits; R470; reset 0. -/
  imageStatus : Nat := 0
  /-- What the active controller has recorded in its checkpoint, octets; R38, R466; reset none. -/
  recorded : Octets := []
  /-- Save count; 64 bits; R437; reset 0. -/
  saveCount : W64 := 0
  /-- The persistent images held in flash slots 0 and 1: save count, encrypted octets; R437; reset none (log 17). -/
  images : Tab (Nat × Octets) := []
  /-- Values waiting for the flash write of a save in progress: slot, count, octets; R437; reset none. -/
  saving : Option (Nat × Nat × Octets) := none
deriving DecidableEq, Repr

/-! ## PCIe rings and Urzidun (12) -/

/-- A ring's run-time state (R442, R443, R470). -/
structure Ring where
  /-- 0 off, 1 running, 2 error; R470; reset 0. -/
  state : Nat := 0
  /-- Error cause; R470; reset 0. -/
  cause : Nat := 0
  /-- The part's index: consumer on host-written rings, producer on event rings; R470; reset 0. -/
  part : Nat := 0
  /-- The host's index: slot after the last descriptor, or read index; R442; reset 0. -/
  host : Nat := 0
  /-- Phase bit of the present pass; R442; reset 1. -/
  phase : Bool := true
  /-- Descriptors posted and not consumed, with the data their DMA reads return; R442; reset empty. -/
  posted : List (Octets × Octets) := []
  /-- Completions gathered and not signalled; R443; reset 0. -/
  gathered : Nat := 0
  /-- Cycle at which the moderation time expires; R443; reset none. -/
  moderateAt : Option Nat := none
  /-- Events lost and not yet reported by a 0x1001 record; R451; reset 0. -/
  lostNow : Nat := 0
deriving DecidableEq, Repr

/-- The PCIe endpoint. -/
structure HostIf where
  /-- The 1,120 rings; R442; reset off. -/
  rings : Tab Ring := []
  /-- MSI-X table entries that differ from the PCIe default (masked, zero); 128 bits; R441; reset default (log 9). -/
  msix : Tab (BitVec 128) := []
  /-- MSI-X pending bits set; R441; reset none. -/
  pba : List Nat := []
  /-- Lost events per event queue; 64 bits; R470; reset 0. -/
  lost : Tab W64 := []
deriving DecidableEq, Repr

/-- An Urzidun session slot (R457, R458). -/
structure UrzSession where
  /-- Open; 1 bit; R457; reset 0. -/
  isOpen : Bool := false
  /-- Session number; 32 bits; R457; reset 0. -/
  number : Nat := 0
  /-- Console address; 16 bits; R469; reset 0. -/
  console : Nat := 0
  /-- Session nonce Nc; 16 octets; R456; reset empty. -/
  nc : Octets := []
  /-- Session nonce Np; 16 octets; R456; reset empty. -/
  np : Octets := []
  /-- Highest sequence accepted; 64 bits; R458; reset 0. -/
  highest : Nat := 0
  /-- MAC of the request last accepted; R458; reset empty. -/
  lastMac : Octets := []
  /-- Last Response sent (message octets); R458; reset empty. -/
  lastResp : Octets := []
  /-- Cycle of the last valid request; R457; reset 0. -/
  lastAt : Nat := 0
deriving DecidableEq, Repr

/-- A peer as seen on one port-direction (R461). -/
structure Peer where
  /-- Present; 1 bit; R461; reset 0. -/
  present : Bool := false
  /-- Last Domain Part ID heard; 16 bits; R469; reset 0. -/
  partId : Nat := 0
  /-- Cycle of the last valid heartbeat; R461; reset 0. -/
  lastAt : Nat := 0
deriving DecidableEq, Repr

/-- The Urzidun channel, PD77. -/
structure Urz where
  /-- Session slots 0 to 63 (sessions 64 to 127); R457; reset closed. -/
  sessions : Tab UrzSession := []
  /-- Peers by 2n + d; R469; reset absent. -/
  peers : Tab Peer := []
  /-- Sessions opened since power-up; 24 bits; R457; reset 0. -/
  opened : Nat := 0
  /-- Urzidun counters, eight of 64 bits; R469; reset 0. -/
  counters : Tab W64 := []
  /-- Notice message sequence last used; 64 bits; R462; reset 0. -/
  noticeSeq : Nat := 0
  /-- Heartbeat message sequence last used; 64 bits; R454; reset 0. -/
  beatSeq : Nat := 0
  /-- Cycle at which the next heartbeat is due, by 2n + d; R461; reset 0, at once. -/
  beatDue : Tab Nat := []
  /-- Frames refused in the present second by 2n + d; R448 type 0x1005; reset 0. -/
  refused : Tab Nat := []
  /-- Second in which a 0x1005 event was last posted, by 2n + d; R448; reset none. -/
  refusedAt : Tab Nat := []
  /-- Octets queued for the GCC bytes, framed and stuffed, by 2n + d of the port-direction they leave in; R463; reset empty. -/
  gccOut : Tab Octets := []
  /-- Octets received in the GCC bytes since the last flag, by 2n + d of the port-direction they arrive in; unlisted before a
  first flag; R463; reset none. -/
  gccIn : Tab Octets := []
  /-- Frames waiting at the Urzidun channel: port-direction and octets, oldest first; R453; reset empty. -/
  inbox : List (PD × Octets) := []
  /-- Messages whose checks have passed, waiting for the step of their type; R453; reset empty. -/
  accepted : List (PD × Octets) := []
deriving DecidableEq, Repr

/-! ## Random numbers (10) -/

/-- Source states (R378, OD 0x4800.02). -/
inductive SourceState where
  | off | starting | healthy | isolated | retired | capture
deriving DecidableEq, Repr

/-- A noise source and its conditioner (R374, R375, R378). -/
structure Source where
  /-- State; R378; reset Off. -/
  state : SourceState := .off
  /-- Consecutive failures; R378; reset 0. -/
  fails : Nat := 0
  /-- Cycle at which the present state was entered; R378; reset 0. -/
  since : Nat := 0
  /-- Conditioner state s255..s0; 256 bits; R375; reset 0 (log 6). -/
  cond : W256 := 0
  /-- Conditioned blocks delivered and unused, oldest first; R375; reset empty. -/
  blocks : List W256 := []
  /-- Cycle at which the last block came; R375; reset 0. -/
  blockAt : Nat := 0
  /-- Last raw bit and the length of the run of equal bits it ends, 0 before the first; R377; reset 0. -/
  lastBit : Bool := false
  /-- Length of that run; R377; reset 0. -/
  run : Nat := 0
  /-- Cycle since which it has been Healthy, raw captures and their restarts not counted as breaks (log 126); R378; reset none. -/
  healthyFrom : Option Nat := none
deriving DecidableEq, Repr

/-- A CTR_DRBG working state (R376). -/
structure Drbg where
  /-- Key; 256 bits; R376. -/
  key : W256
  /-- V; 128 bits; R376. -/
  v : BitVec 128
deriving DecidableEq, Repr

/-- Who waits for random output (R382, R383). -/
inductive Consumer where
  /-- Mask reseed of a Working spindle. -/
  | maskReseed (spindle : Nat)
  /-- Mask seed of a Starting spare. -/
  | spareSeed (spindle : Nat)
  /-- A host-buffer refill for a waiting RNG_DATA read, of 8 octets where `wide` (R384). -/
  | hostRead (wide : Bool)
  /-- The 16 memory keys (R368). -/
  | memoryKeys
  /-- The battery-backed KEK (R234). -/
  | bbk
  /-- The slot-check key (R231). -/
  | slotCheck
  /-- A new unlock challenge (R411). -/
  | challenge
  /-- The values of an enrollment session opened with a nonce Nk (R237). -/
  | enroll (nk : Octets)
deriving DecidableEq, Repr

/-- A waiting request. -/
structure RngReq where
  /-- Who waits (R382). -/
  who : Consumer
  /-- Class 1 to 3 (R382). -/
  cls : Nat
  /-- Cycle at which the request was made. -/
  at_ : Nat
deriving DecidableEq, Repr

/-- The generator: PD70 and PD71. -/
structure Rng where
  /-- Noise sources 0 to 7; R374; reset Off. -/
  sources : Tab Source := []
  /-- Expander of half 0; none while uninstantiated; R376; reset none. -/
  exp0 : Option Drbg := none
  /-- Expander of half 1; none while uninstantiated; R376; reset none. -/
  exp1 : Option Drbg := none
  /-- The serving half, 0 or 1; R387; reset 0. -/
  serving : Nat := 0
  /-- Halves in reset; R387; reset none. -/
  inReset : List Nat := []
  /-- Start-up known-answer tests passed and generator delivering; R386; reset 0. -/
  started : Bool := false
  /-- Requests since the last reseed of the serving expander; R379; reset 0. -/
  count : Nat := 0
  /-- Cycle of the last reseed; R379; reset 0. -/
  reseedAt : Nat := 0
  /-- A fifth source has become Healthy since the last reseed; R380; reset 0. -/
  fifth : Bool := false
  /-- Waiting requests, oldest first; R382; reset empty. -/
  queue : List RngReq := []
  /-- Host buffer, octets not yet read; 256 bits; R384; reset empty. -/
  hostBuf : Octets := []
  /-- RNG_STAT paired with the last RNG_DATA read; 32 bits; R385; reset 0 (log 6). -/
  lastStat : W32 := 0
  /-- Health counters: 2k repetition count failures, 2k+1 adaptive proportion failures; 64 bits; R392; reset 0. -/
  health : Tab W64 := []
  /-- Expander counters, eight of 64 bits; R392; reset 0. -/
  counters : Tab W64 := []
  /-- In a blocked interval (for its counter); R380; reset 0. -/
  wasBlocked : Bool := false
  /-- Conditioner test output; 32 octets; R389; reset zero. -/
  katCond : Octets := []
  /-- Expander test output; 64 octets; R390; reset zero. -/
  katExp : Octets := []
  /-- Raw capture data; 128 KiB; R392; reset zero. -/
  rawData : Octets := []
  /-- Raw capture status; 8 bits; R392; reset 0. -/
  rawStatus : Nat := 0
deriving DecidableEq, Repr

/-! ## Tool rest (11) -/

/-- Tamper states (R403). -/
inductive TamperState where
  | normal | locked | zeroized
deriving DecidableEq, Repr

/-- A sensor's filter (R398). -/
structure Sensor where
  /-- In alarm; R398; reset 0. -/
  alarm : Bool := false
  /-- Last samples, newest first, true where the condition showed; R398; reset empty. -/
  hist : List Bool := []
  /-- An excursion latched between samples; R398; reset 0. -/
  latch : Bool := false
  /-- Sub-sensor map last seen; 16 bits; R417; reset 0. -/
  sub : Nat := 0
  /-- Measured value last seen; S32; R417; reset 0. -/
  value : Int := 0
deriving DecidableEq, Repr

/-- A 64-octet log entry as kept in the ring, with its sequence (R414). -/
structure LogEntry where
  /-- Sequence; 48 bits; R414. -/
  seq : Nat
  /-- The entry; 64 octets; R414. -/
  data : Octets
deriving DecidableEq, Repr

/-- The owner record in MRAM (R235). -/
structure Owner where
  /-- Owned; R235; reset Unowned. -/
  owned : Bool := false
  /-- Owner public key; 97 octets; R235; reset zero. -/
  key : Octets := []
  /-- Sequence; 32 bits; R235; reset 0. -/
  seq : W32 := 0
  /-- AES-CMAC under the ownership key; 16 octets; R235; reset zero. -/
  mac : Octets := []
deriving DecidableEq, Repr

/-- The tool rest, PD79: SRAM, MRAM, sensors and the shavings log. -/
structure ToolRest where
  /-- BBK in SRAM; 256 bits; R395; reset none held (log 17). -/
  bbk : Option W256 := none
  /-- Seconds counter; 40 bits; R395; reset 0 (log 6). -/
  seconds : BitVec 40 := 0
  /-- Crystal count within the second; 15 bits; R395; reset 0 (log 6). -/
  crystal : Nat := 0
  /-- Seconds counter valid; R395; reset 0. -/
  secValid : Bool := false
  /-- Tool-rest seconds at its last synchronisation; R320; reset 0. -/
  syncedAt : Nat := 0
  /-- SRAM lost since it was last checked; R395; reset 0. -/
  sramLost : Bool := false
  /-- Samples taken in the present group of 125; R394; reset 0. -/
  sampleNo : Nat := 0
  /-- Cycle of the last sample on main power; R394; reset 0. -/
  sampleAt : Nat := 0
  /-- Tamper state; MRAM; R403; reset Normal (log 17). -/
  state : TamperState := .normal
  /-- Lock sequence; 32 bits; MRAM; R400; reset 0. -/
  lockSeq : W32 := 0
  /-- Latest lock entry sequence; 64 bits; MRAM; R427; reset 0. -/
  lockEntry : Nat := 0
  /-- Pending Alert map with the decision rank of each sensor; MRAM; R407; reset empty. -/
  pendingAlert : Tab Nat := []
  /-- Alert latch; 64 bits; R400; reset 0. -/
  alertLatch : W64 := 0
  /-- Sensors 0 to 22; R397; reset clear. -/
  sensors : Tab Sensor := []
  /-- Sensors of the open decision window with the cycle at which it opened; R402; reset none. -/
  window : Option (Nat × List Nat) := none
  /-- Sensors that went into alarm during a zeroize, to be decided after it; R402; reset empty. -/
  deferred : List Nat := []
  /-- A zeroize is in progress; R402; reset 0. -/
  zeroizing : Bool := false
  /-- Cycle until which sensors 11 to 15 are masked; R398; reset 0. -/
  maskUntil : Nat := 0
  /-- Mismatched shadow pairs: group and item; R399; reset none. -/
  shadowBad : List (Nat × Nat) := []
  /-- ZEROIZE_N samples on VBAT, newest first; R514; reset empty. -/
  pinHist : List Bool := []
  /-- A ZEROIZE_N assertion on VBAT already acted on; R278; reset 0. -/
  pinActed : Bool := false
  /-- Sequence of the last log entry; 48 bits; R416; reset 0, the factory genesis entry. -/
  headSeq : Nat := 0
  /-- Chain hash of the last log entry; 32 octets; R416; reset Factory (Config.factoryChainHash). -/
  headHash : Octets := Config.factoryChainHash
  /-- Chain hash of the entry before the oldest unexported one; 32 octets; R420; reset Factory. -/
  tailHash : Octets := Config.factoryChainHash
  /-- Unexported entries of the log ring, oldest first; 512 x 64 octets, MRAM; R419; reset empty (log 18). -/
  ring : List LogEntry := []
  /-- Entries not written since the last 0x00F1 entry; R419; reset 0. -/
  unwritten : Nat := 0
  /-- Entries not written on VBAT; MRAM; R409; reset 0. -/
  unwrittenVbat : Nat := 0
  /-- Entries written singly in the present second of tool-rest time; R418; reset 0. -/
  perSecond : Nat := 0
  /-- Entries held back in the present second, by type; R418; reset empty. -/
  heldBack : Tab Nat := []
  /-- Cycle at which a log-export event was last posted; R419; reset 0. -/
  exportAt : Nat := 0
  /-- The pending export segment: number, last sequence, octets; R420; reset none. -/
  segment : Option (Nat × Nat × Octets) := none
  /-- Number of the next segment; 16 bits; R420; reset 0. -/
  segNext : W16 := 0
  /-- Unlock challenge; 32 octets; R427; reset zero, drawn at power-up. -/
  challenge : Octets := []
  /-- Consecutive token refusals; R411; reset 0. -/
  refusals : Nat := 0
  /-- Token hold-off: the cycle at which it ends; R411; reset none. -/
  holdOff : Option Nat := none
  /-- Owner record; MRAM; R235; reset Unowned. -/
  owner : Owner := {}
  /-- Persistent KEK area: wrapped KEK by slot; MRAM; R241; reset empty. -/
  kekArea : Tab Octets := []
  /-- Monotonic counters 0 to 63; U32 each; MRAM; R422; reset 0. -/
  monotonic : Tab W32 := []
  /-- Tamper counters, eight of 64 bits; MRAM; R427; reset 0. -/
  counters : Tab W64 := []
  /-- Temperature readings by site, 0.01 C; R427; reset 0. -/
  temps : Tab Int := []
  /-- Supply readings by channel, mV; R427; reset 0. -/
  supplies : Tab Nat := []
  /-- Sub-sensor status; 8 octets; R427; reset 0. -/
  subStatus : Octets := []
  /-- Main power lost (running on VBAT); R393; reset on VBAT (log 17). -/
  onVbat : Bool := true
deriving DecidableEq, Repr

/-! ## Keys, associations and stores (06) -/

/-- Key-slot states (R255). -/
inductive SlotState where
  | free | filled | releasing | bad
deriving DecidableEq, Repr

/-- One chuck's copy of a slot (R254). -/
structure Copy where
  /-- Key; 16 or 32 octets; R254; reset empty. -/
  key : Octets := []
  /-- Usage; 8 bits; R245; reset 0. -/
  usage : Nat := 0
  /-- Suite; 8 bits; R243; reset 0. -/
  suite : Nat := 0
  /-- Flags; 8 bits; R243; reset 0. -/
  flags : Nat := 0
  /-- Key identifier; 64 bits; R254; reset 0. -/
  keyId : Nat := 0
  /-- Not-after; 48 bits; R254; reset 0. -/
  notAfter : Nat := 0
  /-- Slot check; 32 bits; R254; reset 0. -/
  check : W32 := 0
deriving DecidableEq, Repr

/-- A key slot with its two mirrors (R254, R255). -/
structure KeySlot where
  /-- State; R255; reset Free. -/
  state : SlotState := .free
  /-- One copy is bad ([7]): 0 none, 1 chuck A's, 2 chuck B's; R255; reset 0. -/
  copyBad : Nat := 0
  /-- Chuck A's copy; R254; reset empty. -/
  a : Copy := {}
  /-- Chuck B's copy; R254; reset empty. -/
  b : Copy := {}
  /-- References of dispatched frames; R257; reset 0. -/
  refs : Nat := 0
  /-- Past its not-after (R274); reset 0. -/
  expired : Bool := false
deriving DecidableEq, Repr

/-- An SA table record (R258). -/
structure Sa where
  /-- Byte 0 bit 0, Valid; 1 bit; R258; reset 0. -/
  valid : Bool := false
  /-- Byte 0 bit 1, Direction: receive; 1 bit; R258; reset 0. -/
  rx : Bool := false
  /-- Byte 0 bit 2, Tributary; 1 bit; R258; reset 0. -/
  trib : Bool := false
  /-- Byte 0 bit 3, Enabled; 1 bit; R258; reset 0. -/
  enabled : Bool := false
  /-- Byte 0 bit 4, Frozen; 1 bit; R258; reset 0. -/
  frozen : Bool := false
  /-- Byte 0 bit 5, Notice; 1 bit; R258; reset 0. -/
  notice : Bool := false
  /-- Byte 0 bit 6, Key bad; 1 bit; R258; reset 0. -/
  keyBad : Bool := false
  /-- Byte 0 bit 7, Retiring; 1 bit; R258; reset 0. -/
  retiring : Bool := false
  /-- Suite; 8 bits; R258; reset 0. -/
  suite : Nat := 0
  /-- Data slot; 16 bits; R258; reset 0. -/
  slot : Nat := 0
  /-- SSCI; 32 bits; R258; reset 0. -/
  ssci : Nat := 0
  /-- Salt; 12 octets, wire order; R258; reset zero. -/
  salt : Octets := []
  /-- Next PN N; 64 bits; R258; reset 0. -/
  n : Nat := 0
  /-- Lowest acceptable PN L; 64 bits; R258; reset 0. -/
  l : Nat := 0
  /-- Key identifier; 64 bits; R258; reset 0. -/
  keyId : Nat := 0
  /-- SA store index; 32 bits; R258; reset 0xFFFFFFFF. -/
  store : Nat := 0xFFFFFFFF
  /-- Successor SA store index; 32 bits; R258; reset 0xFFFFFFFF. -/
  succ : Nat := 0xFFFFFFFF
  /-- Freeze cause; 8 bits; R258; reset 0. -/
  cause : Nat := 0
  /-- Rollover time of the store entry it came from (R263: used only by chains); 2^-16 ns; reset 0. -/
  rollAt : Nat := 0
deriving DecidableEq, Repr

/-- A secure-channel record (R95). -/
structure Sc where
  /-- SCI; 8 octets, wire order; R95; reset zero. -/
  sci : Octets := []
  /-- Byte 8: replay protect, implicit, ES, include SCI, confidentiality, direction, valid; R95; reset 0. -/
  replay : Bool := false
  /-- Byte 8 bit 5, Implicit; 1 bit; R95; reset 0. -/
  implicit : Bool := false
  /-- Byte 8 bit 4, ES; 1 bit; R95; reset 0. -/
  es : Bool := false
  /-- Byte 8 bit 3, Include SCI; 1 bit; R95; reset 0. -/
  inclSci : Bool := false
  /-- Byte 8 bit 2, Confidentiality; 1 bit; R95; reset 0. -/
  conf : Bool := false
  /-- Byte 8 bit 1, Direction: receive; 1 bit; R95; reset 0. -/
  rx : Bool := false
  /-- Byte 8 bit 0, Valid; 1 bit; R95; reset 0. -/
  valid : Bool := false
  /-- Cipher suite; 8 bits; R95; reset 0. -/
  suite : Nat := 0
  /-- Port; 8 bits; R95; reset 0. -/
  port : Nat := 0
  /-- Confidentiality offset; 0, 30 or 50; R95; reset 0. -/
  offset : Nat := 0
  /-- Clear tags; 0 to 2; R95; reset 0. -/
  clearTags : Nat := 0
  /-- Transmit AN; 0 to 3; R95; reset 0. -/
  txAn : Nat := 0
  /-- SA index for AN 0; 16 bits; R95; reset 0. -/
  sa0 : Nat := 0
  /-- SA index for AN 1; 16 bits; R95; reset 0. -/
  sa1 : Nat := 0
  /-- SA index for AN 2; 16 bits; R95; reset 0. -/
  sa2 : Nat := 0
  /-- SA index for AN 3; 16 bits; R95; reset 0. -/
  sa3 : Nat := 0
  /-- Replay window; 32 bits; R95; reset 0. -/
  window : Nat := 0
deriving DecidableEq, Repr

/-- A rollover record and its run-time state (R265, R266). -/
structure Roll where
  /-- Armed bit; 1 bit; R265; reset 0. -/
  armed : Bool := false
  /-- Chain bit; 1 bit; R265; reset 0. -/
  chain : Bool := false
  /-- At-notice bit; 1 bit; R265; reset 0. -/
  atNotice : Bool := false
  /-- Incoming AN or KI; 0 to 3; R265; reset 0. -/
  incoming : Nat := 0
  /-- 0 Idle, 1 Armed, 2 Guard, 3 Loading, 4 Missed, 5 Chain failed; R265; reset 0. -/
  state : Nat := 0
  /-- Failure reason of a chain; 8 bits; R265; reset 0. -/
  reason : Nat := 0
  /-- Guard window; us; R265; reset 0. -/
  guardUs : Nat := 0
  /-- Rollover time T; TIME96 in 2^-16 ns; R265; reset 0. -/
  t : Nat := 0
  /-- Cycle at which the guard window ends; R267; reset 0. -/
  guardEnd : Nat := 0
  /-- Index of the outgoing SA; R266; reset 0xFFFF none. -/
  outgoing : Nat := 0xFFFF
  /-- Outgoing L2S SA of a tributary, whose record serves both directions (log 22); reset 0xFFFF none. -/
  outgoingRx : Nat := 0xFFFF
  /-- The guard of a receive tributary has been extended (R161); reset 0. -/
  extended : Bool := false
deriving DecidableEq, Repr

/-- An open enrollment session (R237, R240). -/
structure Enroll where
  /-- Session number; 32 bits; R237. -/
  number : Nat
  /-- Ephemeral private key dp; R237. -/
  dp : Nat
  /-- Ephemeral public key Qp; 97 octets; R237. -/
  qp : Octets
  /-- The part's nonce; 32 octets; R237. -/
  np : Octets
  /-- The key manager's nonce; 32 octets; R237. -/
  nk : Octets
  /-- Cycle at which the session opened; R240. -/
  at_ : Nat
deriving DecidableEq, Repr

/-- Chucks, slots, associations, rollovers and enrollment. -/
structure Keys where
  /-- Data slots 0 to 32,767; R254; reset Free. -/
  data : Tab KeySlot := []
  /-- KEK slots 0 to 255; R254; reset Free. -/
  kek : Tab KeySlot := []
  /-- Slot-check key; 64 bits; R231; reset 0, drawn at power-on reset. -/
  checkKey : W64 := 0
  /-- Storage root key; 256 bits; R233; reset none. -/
  srk : Option W256 := none
  /-- Chuck A isolated; R247; reset 0. -/
  isoA : Bool := false
  /-- Chuck B isolated; R247; reset 0. -/
  isoB : Bool := false
  /-- A chuck whose mirror is being rebuilt: 1 A, 2 B; R248; reset 0. -/
  rebuilding : Nat := 0
  /-- SA table; R258; reset all invalid. -/
  sa : Tab Sa := []
  /-- SC table; R95; reset all invalid. -/
  sc : Tab Sc := []
  /-- SC rollover records; R265; reset Idle. -/
  rollSc : Tab Roll := []
  /-- Tributary rollover records; R265; reset Idle. -/
  rollTrib : Tab Roll := []
  /-- Enrollment session; R240; reset none. -/
  enroll : Option Enroll := none
  /-- Enrollment offer; 261 octets; R238; reset zero. -/
  offer : Octets := []
  /-- Enrollment confirmation; 16 octets; R239; reset zero. -/
  confirm : Octets := []
  /-- Export results; R249; reset empty. -/
  exports : Octets := []
  /-- Last key-command failure: record number and reason; R279; reset 0xFFFFFFFF, 0. -/
  failRec : Nat := 0xFFFFFFFF
  /-- Reason of the last key-command failure; R279; reset 0. -/
  failReason : Nat := 0
  /-- SA store entries in use; R262; reset none. -/
  saUsed : List Nat := []
  /-- Blob store entries in use; R262; reset none. -/
  blobUsed : List Nat := []
  /-- Zeroized since power-up; R279; reset 0. -/
  zeroized : Bool := false
  /-- Key event status; 16 bits; R279; reset 0. -/
  events : W16 := 0
  /-- Key counters, nine of 64 bits; R279; reset 0. -/
  counters : Tab W64 := []
  /-- SA counters, 3i, 3i+1, 3i+2 for SA i; 64 bits; R261; reset 0. -/
  saCounters : Tab W64 := []
deriving DecidableEq, Repr

/-! ## Frames in retention (01, 05) -/

/-- Where a frame came from. -/
inductive Origin where
  | wire | host | urzidun | ownClock | odu
deriving DecidableEq, Repr

/-- How far a retained frame has come. -/
inductive Stage where
  /-- First 256 octets, or more, in retention; not yet accepted. -/
  | receiving
  /-- Accepted and sequenced; waiting for its walk. -/
  | accepted
  /-- Its walk waits for a rule-block fill (R62). -/
  | waitFill
  /-- Walked, with an action that polices; a frame accepted before it is not yet through its walk (R75). -/
  | policing
  /-- Classified; waiting for the headstock (R192). -/
  | classified
  /-- In the dispatch queue (R193). -/
  | queued
  /-- Assigned to a spindle (R195). -/
  | dispatched
  /-- Ready at the tailstock (R201). -/
  | ready
deriving DecidableEq, Repr

/-- Causes of a void entry, each with its own counter (R27). -/
inductive Cause where
  | fcs | microcode | malformed | defaultDrop | ruleDrop | policerRed | policerYellow | steering
  | exceptionFull | clusterFault | misdirected | lock | urzidun | zeroized | memoryLoss
  /-- An SA that cannot transmit: counted on the SA, where one is named (R258, R122). -/
  | frozen (sa : Option Nat)
  /-- Validation, counted on counter `i` of a port's receive SecY (R107, R122). -/
  | macsecPort (port i : Nat)
  /-- Validation, counted on counter `i` of a receive SC, and on its SA as not valid (R107, R122). -/
  | macsecSc (sc i : Nat) (sa : Option Nat)
deriving DecidableEq, Repr

/-- What classification, the headstock or the tailstock settled for a frame. -/
inductive Verdict where
  | pending
  /-- Void entry counted under a cause (R27). -/
  | drop (c : Cause)
  | bypass
  | protect
  /-- Delivered unchanged or stripped without spindle work (R107 steps 1 to 5). -/
  | strip
  /-- Taken off to an exception queue: queue, punt reason, source of R445. -/
  | punt (queue reason source : Nat)
  /-- Taken off to the Urzidun channel (R53). -/
  | toUrzidun
  /-- A protected tributary frame (R192). -/
  | odu
deriving DecidableEq, Repr

/-- Spindle modes (R174). -/
inductive Mode where
  | gcmEncrypt | gcmDecrypt | gmac | shareEncrypt | shareDecrypt | shareAuth
deriving DecidableEq, Repr

/-- The dispatch descriptor (R197) with the spindle's progress on the present attempt. -/
structure Desc where
  /-- Spindle mode; R174. -/
  mode : Mode := .gmac
  /-- Data slot whose key is used; 15 bits. -/
  slot : Nat := 0
  /-- SA index; 15 bits. -/
  sa : Nat := 0
  /-- SC index; 14 bits, 0xFFFF none. -/
  sc : Nat := 0xFFFF
  /-- AN, or KI of a tributary; 2 bits. -/
  an : Nat := 0
  /-- PN, XPN or block counter; 64 bits. -/
  pn : Nat := 0
  /-- The 12-octet IV. -/
  iv : Octets := []
  /-- Additional authenticated data. -/
  aad : Octets := []
  /-- SecTAG to insert at commit, from its EtherType on, and where (R98). -/
  tag : Octets := []
  /-- Octet at which the SecTAG goes in; R98. -/
  tagAt : Nat := 0
  /-- Octets of the frame's data before its first cipher block. -/
  lead : Nat := 0
  /-- Octets to encrypt or decrypt. -/
  body : Nat := 0
  /-- First cipher block's counter offset from J0 (R155), 0 meaning the first is inc32(J0). -/
  ctr0 : Nat := 0
  /-- GHASH takes the length block (R155, R104). -/
  lenBlock : Bool := true
  /-- E(J0) is computed (R174). -/
  ej0 : Bool := true
  /-- Block position of a tributary frame (R197). -/
  position : Nat := 0
  /-- Token count. -/
  tokens : Nat := 0
  /-- Tokens issued on the present attempt; R176. -/
  issued : Nat := 0
  /-- Tokens completed on the present attempt; R176. -/
  done : Nat := 0
  /-- Spindle number; none while waiting. -/
  spindle : Option Nat := none
  /-- Attempt number; 2 bits (R202). -/
  attempt : BitVec 2 := 0
  /-- Leading cipher blocks whose output is written (R178). -/
  watermark : Nat := 0
  /-- GHASH accumulator of the present attempt. -/
  y : BitVec 128 := 0
  /-- E(J0) result. -/
  mask : BitVec 128 := 0
  /-- Validation mode in force at step 1 of R107 (R472). -/
  valMode : Nat := 2
  /-- Received ICV of an L2S frame; 16 octets. -/
  icv : Octets := []
  /-- Replay protect of the SC record the frame was dispatched with; 1 bit; R124. -/
  replay : Bool := false
  /-- Replay window of the SC record the frame was dispatched with; 32 bits; R124. -/
  window : Nat := 0
deriving DecidableEq, Repr

/-- The tributary part of an ODU frame (R144, R150). -/
structure OduPart where
  /-- Tributary; 0 to 255; R141. -/
  trib : Nat
  /-- 64 octets: columns 1 to 16 of rows 1 to 4. -/
  overhead : Octets
  /-- BIP-8 of the OPU as received (R149). -/
  bipIn : Nat
  /-- Sent in place of a missing frame, or received as one (R151). -/
  substitute : Bool
  /-- The frame crosses unchanged (R150). -/
  unchanged : Bool
  /-- Made ODUk-AIS by the part (R162). -/
  ais : Bool := false
deriving DecidableEq, Repr

/-- A retention record: one frame from its first word to its commit. -/
structure Frm where
  /-- Port-direction; R10. -/
  pd : PD
  /-- Sequence number; 32 bits (R24). -/
  seq : W32 := 0
  /-- Frame octets without FCS; payload area of a tributary frame. -/
  data : Octets := []
  /-- Bad FCS flag; 1 bit; R89. -/
  fcsBad : Bool := false
  /-- Where the frame came from. -/
  origin : Origin := .wire
  /-- How far it has come. -/
  stage : Stage := .receiving
  /-- Ingress stamp; TIME96 in 2^-16 ns (R311). -/
  stamp : Nat := 0
  /-- Acceptance time; ns of the time unit (R75), and cycle. -/
  acceptNs : Nat := 0
  /-- Cycle of acceptance; R222. -/
  acceptCycle : Nat := 0
  /-- Gouge cluster and gouge parsing it. -/
  gouge : Option (Nat × Nat) := none
  /-- Gouge has executed END. -/
  parsed : Bool := false
  /-- Parsed once already after a parity failure (R79). -/
  reparsed : Bool := false
  /-- Octets of the whole frame without FCS, known from its parse on; R46. -/
  len : Nat := 0
  /-- Cut under which it is walked; R68. -/
  cut : Nat := 0
  /-- Key vector; 512 bits (R50). -/
  kv : BitVec 512 := 0
  /-- Action record; 128 bits (R66). -/
  action : BitVec 128 := 0
  /-- What was settled for it. -/
  verdict : Verdict := .pending
  /-- It takes a timed launch; R113. -/
  timed : Bool := false
  /-- Launch time; 2^-16 ns (R115). -/
  launch : Nat := 0
  /-- Residence budget at acceptance; ns (R115). -/
  budget : Nat := 0
  /-- Stamp treatment of R327. -/
  stamped : Bool := false
  /-- Egress queue the frame is committed to. -/
  queue : Nat := 0
  /-- Transmit report asked for: event queue and host tag (R329). -/
  report : Option (Nat × Nat) := none
  /-- SC named by an injection descriptor, or by the part itself (R112). -/
  injSc : Option Nat := none
  /-- Own-clock Delay_Req sequence (R330). -/
  dreq : Option Nat := none
  /-- Dispatch descriptor; R197. -/
  desc : Desc := {}
  /-- Tributary part of an ODU frame; R150. -/
  odu : Option OduPart := none
  /-- Receive SC index of an L2S frame, 0xFFFF none (R445). -/
  rxSc : Nat := 0xFFFF
  /-- Pool its space came from: 0 in-flight, 1 reserve, 2 shaping overflow, 3 timed launch (R480). -/
  pool : Nat := 0
  /-- Occupancy in octets (R37). -/
  occ : Nat := 0
deriving DecidableEq, Repr

/-! ## Classification (02) -/

/-- A rule (R57). -/
structure Rule where
  /-- Value; 192 bits; R57. -/
  value : BitVec 192
  /-- Mask; 192 bits; R57. -/
  mask : BitVec 192
  /-- Action record; 128 bits; R57, R63. -/
  action : BitVec 128
deriving DecidableEq, Repr

/-- Cut states (R69). -/
inductive CutState where
  | compiling | current | retiring
deriving DecidableEq, Repr

/-- A live cut (R68, R69). -/
structure Cut where
  /-- Number; 8 bits. -/
  number : Nat
  /-- State; R69. -/
  state : CutState
  /-- Root line of each table that has a tree. -/
  roots : Tab Nat := []
  /-- Rule tables of the cut: table number to rules by number. -/
  rules : Tab (Tab Rule) := []
  /-- Profile of each table, 32 octets (R55). -/
  profiles : Tab Octets := []
  /-- Start table of each port-direction 2n + d; R52, R68. -/
  starts : Tab Nat := []
  /-- Node and leaf lines, and rule lines, of the cut. -/
  nodes : List Nat := []
  /-- Rule lines of the cut; R58. -/
  ruleLines : List Nat := []
deriving DecidableEq, Repr

/-- A policer record and its buckets (R74, R85). -/
structure Policer where
  /-- Mode: 0 off, 1 srTCM, 2 trTCM; R85; reset 0. -/
  mode : Nat := 0
  /-- Colour-aware; 1 bit; R85; reset 0. -/
  aware : Bool := false
  /-- Yellow action: 0 pass, 1 drop; R85; reset 0. -/
  yellow : Nat := 0
  /-- Red action: 0 drop, 1 pass; R85; reset 0. -/
  red : Nat := 0
  /-- Length adjustment; octets; R85; reset 0. -/
  adjust : Int := 0
  /-- CIR; 32 bits, kb/s; R85; reset 0. -/
  cir : Nat := 0
  /-- PIR; 32 bits, kb/s; R85; reset 0. -/
  pir : Nat := 0
  /-- CBS; 32 bits, octets; R85; reset 0. -/
  cbs : Nat := 0
  /-- EBS or PBS; 32 bits, octets; R85; reset 0. -/
  ebs : Nat := 0
  /-- Committed bucket; 1/256 octet; R75; full when the record is written (log 19); reset 0. -/
  tc : Nat := 0
  /-- Peak or excess bucket; 1/256 octet; R75; full when the record is written (log 19); reset 0. -/
  tp : Nat := 0
  /-- Time of the last update, ns. -/
  last : Nat := 0
deriving DecidableEq, Repr

/-- Gouges, cuts and policers. -/
structure Classifier where
  /-- Active microcode bank; R72; reset 0. -/
  bank : Nat := 0
  /-- Images in the two microcode banks, 4,096 instructions of 64 bits each; none listed is the standard image; R44, R72; reset the standard image in both. -/
  banks : Tab Octets := []
  /-- Longest path of the active image; R83; reset 22. -/
  longest : Nat := 22
  /-- Live cuts, newest last; R73; reset cut 0 current, empty. -/
  cuts : List Cut := [{ number := 0, state := .current }]
  /-- Tree-store lines; 512 bits each; R58; reset empty. -/
  lines : Tab (BitVec 512) := []
  /-- Rule lines resident in the tree cache; R62; reset empty. -/
  resident : List Nat := []
  /-- Last compile result; 32 bits; R83; reset 0. -/
  result : Nat := 0
  /-- Policers 0 to 4,095 of S2L, then of L2S; R74; reset off. -/
  policers : Tab Policer := []
  /-- Policer counters, 3p, 3p+1, 3p+2; 64 bits; R82; reset 0. -/
  polCounters : Tab W64 := []
  /-- Drop counters, 10 (2n + d) + cause; 64 bits; R82; reset 0. -/
  drops : Tab W64 := []
  /-- Hit counters; 64 bits; R82; reset 0. -/
  hits : Tab W64 := []
  /-- Gouges out of service: 16 cluster + gouge; R79; reset none. -/
  outOfService : List Nat := []
  /-- Clusters in domain reset; R81; reset none. -/
  resetClusters : List Nat := []
deriving DecidableEq, Repr

/-! ## Spindles, headstock and tailstock (05) -/

/-- Spindle roles (R206, R229). -/
inductive Role where
  | working | spare | starting | draining | isolated | diagnosing | retired
deriving DecidableEq, Repr

/-- Why a spare was started, and what a Draining spindle drains for (R206). -/
inductive Why where
  | replacement | lag | rotation | testOnly | park
deriving DecidableEq, Repr

/-- One spindle SPn (R229). -/
structure Spindle where
  /-- Role; R229; reset Spare (log 17). -/
  role : Role := .spare
  /-- Last cause code; R229; reset 0. -/
  cause : Nat := 0
  /-- Lag flag; 1 bit; R229; reset 0. -/
  lag : Bool := false
  /-- Factory trim in use; 1 bit; R229; reset 0. -/
  factoryTrim : Bool := false
  /-- Consecutive diagnosis failures; R229; reset 0. -/
  fails : Nat := 0
  /-- Measured rate, 0.001 G tokens/s; R185; reset 0. -/
  measured : Nat := 0
  /-- Busy rate, 0.001 G tokens/s; R186; reset 0. -/
  busy : Nat := 0
  /-- Ring rate counted last, 0.001 G per second; R185; reset 0. -/
  ring : Nat := 0
  /-- Calibration factor: token rate over ring rate, in 2^-16 (log 23); R185; reset 0. -/
  calib : Nat := 0
  /-- Delay-trim settings; 64 bits (log 23); R208; reset 0 (log 17), loaded at each start. -/
  trim : W64 := 0
  /-- Repair map of the internal buffers; 256 bits (log 23); R208; reset 0 (log 17), loaded at each start. -/
  repairMap : W256 := 0
  /-- A checkpoint is to be written once the memory protection unit accepts requests; R208; reset 0. -/
  checkpointDue : Bool := false
  /-- Lifetime isolations; 16 bits, MRAM; R229; reset 0 (log 17). -/
  isolations : BitVec 16 := 0
  /-- Repairs; 16 bits, MRAM; R229; reset 0 (log 17). -/
  repairs : BitVec 16 := 0
  /-- Tokens completed; 64 bits; R229; reset 0. -/
  tokens : W64 := 0
  /-- Edge-clock cycles as Working before the present role; the record shows hours, 32 bits; R229; reset 0 (log 17). -/
  worked : Nat := 0
  /-- Cycle at which the present role began; R229; reset 0. -/
  since : Nat := 0
  /-- Why it was started or drains; R206; reset replacement (log 6). -/
  why : Why := .replacement
  /-- Cycle before which a start is not retried; R206; reset 0. -/
  retryAt : Nat := 0
  /-- Mask generator state; 256 bits; R181; reset 0. -/
  mask : W256 := 0
  /-- Tokens since the last reseed; 32 bits; R181; reset 0. -/
  maskCount : W32 := 0
  /-- The count has reached 2^32 without a reseed; R182; reset 0. -/
  maskFull : Bool := false
  /-- A mask reseed is asked for; R181; reset 0. -/
  reseedAsked : Bool := false
  /-- Free token credits; R194; reset 0. -/
  credits : Nat := 0
  /-- Tokens in flight, oldest first, by frame id and attempt number; R176, R202; reset empty. -/
  flight : List (Nat × BitVec 2) := []
  /-- Cycle since which it has held a token; R186; reset none. -/
  heldFrom : Option Nat := none
  /-- Tokens completed and cycles with a token held since the last lag evaluation; R186; reset 0. -/
  part : Nat × Nat := (0, 0)
  /-- The same for the evaluation intervals before it, newest first, up to 100; R186, R218; reset empty. -/
  parts : List (Nat × Nat) := []
  /-- An injected code violation waits for the next token; R230; reset 0. -/
  injected : Bool := false
deriving DecidableEq, Repr

/-- Fabric-wide state. -/
structure Fabric where
  /-- The 28 spindles; R206; reset Spare (log 17). -/
  spindles : Tab Spindle := []
  /-- Frames for replay, which go before the dispatch queue: frame ids, head first; R193; reset empty. -/
  replay : List Nat := []
  /-- The dispatch queue: frame ids, head first; R193; reset empty. -/
  dispatch : List Nat := []
  /-- Frames partly issued, by spindle; R195 (held in their descriptors); tokens queued in the present 100 us; R187; reset 0. -/
  offered : Nat := 0
  /-- Supply S; 0.001 G tokens/s; R228; reset 0. -/
  supply : Nat := 0
  /-- Demand D; 0.001 G tokens/s; R228; reset 0. -/
  demand : Nat := 0
  /-- Last acknowledged rail setpoint, mV; R228; reset 750. -/
  rail : Nat := 750
  /-- AVSBus writes not yet acknowledged, oldest first, mV; R190; reset none. -/
  avsPending : List Nat := []
  /-- Voltage last reported by the regulator, mV; R190; reset 0 (log 6). -/
  reported : Nat := 0
  /-- Loop frozen; R190; reset 0. -/
  frozen : Bool := false
  /-- Last command sent, mV; R190; reset 750. -/
  lastCmd : Nat := 750
  /-- Consecutive evaluations meeting the lowering condition; R188; reset 0. -/
  lowStreak : Nat := 0
  /-- Cycle at which the margin-low condition was last seen; R189; reset 0. -/
  marginAt : Nat := 0
  /-- Cycle at which the capacity-low condition was last seen; R189; reset 0. -/
  capacityAt : Nat := 0
  /-- Fabric event status; 8 bits; R228; reset 0. -/
  status : BitVec 8 := 0
  /-- Fabric counters, eight of 64 bits; R228; reset 0. -/
  counters : Tab W64 := []
  /-- Cycle at which the last rotation ended; R210; reset 0. -/
  rotatedAt : Nat := 0
  /-- Rotation in progress: incoming spindle and whether one replacement spare was already tried; R211; reset none. -/
  rotation : Option (Nat × Bool) := none
  /-- A fail-over in progress: replayed frames not yet complete; R217, R230; reset none. -/
  failover : List Nat := []
  /-- Retention bank in reset or rebuild; R199; reset none. -/
  rebuild : Option Nat := none
  /-- The fixed rail setting has been requested; R191; reset 0. -/
  fixedSent : Bool := false
deriving DecidableEq, Repr

/-! ## Egress (07) -/

/-- A committed frame waiting at egress. -/
structure Egr where
  /-- Port-direction; R10. -/
  pd : PD
  /-- Sequence number; 32 bits; R24. -/
  seq : W32
  /-- Octets without FCS. -/
  data : Octets
  /-- Egress queue; 0 to 1,023; R280. -/
  queue : Nat
  /-- It takes a timed launch; R119. -/
  timed : Bool
  /-- Launch time; 2^-16 ns; R119. -/
  launch : Nat
  /-- Transmit report asked for: event queue and host tag; R329. -/
  report : Option (Nat × Nat)
  /-- Held as shaping overflow in retention (R286). -/
  overflow : Bool
  /-- Written to the packet buffer (R285). -/
  spilled : Bool
  /-- Late (R120). -/
  late : Bool
  /-- Retention pool and octets still held (R479). -/
  pool : Nat
  /-- Octets still held in the pool; R479. -/
  occ : Nat
  /-- Own-clock Delay_Req sequence, for t3 (R330). -/
  dreq : Option Nat
  /-- In the egress buffer: instant at which its preamble begins, 2^-16 ns; none while a fault holds it back; R289, R301. -/
  startAt : Option Nat := none
  /-- Spilled: data-space addresses of its 64-octet lines in the packet buffer, its octets being zero here; R285, R38. -/
  place : List Nat := []
  /-- Held in retention as shaping overflow or for launch: its retention record (R286, R203). -/
  rid : Option Nat := none
deriving DecidableEq, Repr

/-- Queue states (R292). -/
inductive QState where
  | empty | committed | excess | waiting
deriving DecidableEq, Repr

/-- A queue record and its run-time state (R283, R291, R295). -/
structure Queue where
  /-- Enabled; 1 bit; R283; reset 1. -/
  enabled : Bool := true
  /-- Shaper on; 1 bit; R283; reset 0. -/
  shaper : Bool := false
  /-- Bound port; 0 to 31; R283; reset none, which reads as the default of R280. -/
  port : Option Nat := none
  /-- Level; 0 to 3; R283; reset 0. -/
  level : Nat := 0
  /-- Flow-control priority; 0 to 7; R283; reset 0. -/
  prio : Nat := 0
  /-- Quantum; 32 bits, octets; R283; reset 10,336. -/
  quantum : Nat := 10336
  /-- CIR; 32 bits, kb/s; R283; reset 0. -/
  cir : Nat := 0
  /-- PIR; 32 bits, kb/s; R283; reset 0. -/
  pir : Nat := 0
  /-- CBS; 32 bits, octets; R283; reset 0. -/
  cbs : Nat := 0
  /-- PBS; 32 bits, octets; R283; reset 10,336. -/
  pbs : Nat := 10336
  /-- Length overhead; 8 bits signed, octets; R283; reset 20. -/
  overhead : Int := 20
  /-- Queue limit; 32 bits, KiB; R283; reset 0. -/
  limit : Nat := 0
  /-- State; R292; reset Empty. -/
  state : QState := .empty
  /-- Committed frames, head first; R285; reset empty. -/
  items : List Egr := []
  /-- Timed frames of the queue held for launch: count and octets (R297). -/
  heldFrames : Nat := 0
  /-- Octets of the timed frames held for launch; R297; reset 0. -/
  heldOctets : Nat := 0
  /-- Buckets tc and tp, 1/256 octet, signed 48 bits (R291). -/
  tc : Int := 0
  /-- Peak bucket tp; 1/256 octet; R291; reset 0. -/
  tp : Int := 0
  /-- Time of the last bucket update; ns; R291; reset 0. -/
  last : Nat := 0
  /-- Committed and excess deficits, and their credited marks (R295). -/
  defC : Nat := 0
  /-- Excess deficit; octets; R295; reset 0. -/
  defE : Nat := 0
  /-- Committed deficit credited in this turn; 1 bit; R295; reset 0. -/
  credC : Bool := false
  /-- Excess deficit credited in this turn; 1 bit; R295; reset 0. -/
  credE : Bool := false
  /-- Calendar posting, ns of the time unit (R293). -/
  posted : Option Nat := none
  /-- Open packet-buffer block and its next line; R357, R363; reset none. -/
  open_ : Option (Nat × Nat) := none
  /-- Frames sent, octets sent, queue-full drops, timed frames launched (R306). -/
  sent : W64 := 0
  /-- Octets sent; 64 bits; R306; reset 0. -/
  octets : W64 := 0
  /-- Queue-full drops; 64 bits; R306; reset 0. -/
  fullDrops : W64 := 0
  /-- Timed frames launched; 64 bits; R306; reset 0. -/
  launched : W64 := 0
deriving DecidableEq, Repr

/-- What one port-direction keeps: sequence, commit pointer, lists, pause and fill. -/
structure PortDir where
  /-- Next sequence number to assign; 32 bits; R24; reset 0 (log 6). -/
  nextSeq : W32 := 0
  /-- Commit pointer; 32 bits; R201; reset 0 (log 6). -/
  commitPtr : W32 := 0
  /-- Headstock pointer: next sequence number to settle; R192; reset 0. -/
  settlePtr : W32 := 0
  /-- DRR lists: 4 levels committed, then 4 levels excess, queue numbers head first; R292; reset empty. -/
  lists : Tab (List Nat) := []
  /-- Egress buffer of the lane group, in sending order; R289; reset empty. -/
  buffer : List Egr := []
  /-- Launch list, ordered by launch time then sequence; R324; reset empty. -/
  launchList : List Egr := []
  /-- Fill in octets; R288; reset 0. -/
  fill : Nat := 0
  /-- XOFF in force toward the system; R306; reset 0. -/
  xoff : Bool := false
  /-- PFC priorities paused by the part; R306; reset 0. -/
  xoffPfc : BitVec 8 := 0
  /-- Cycle at which the pause frame is due again; R299; reset none. -/
  refreshAt : Option Nat := none
  /-- Pause frames waiting for a timed frame to go first; R300; reset empty. -/
  pauseWait : List Octets := []
  /-- Received PAUSE: cycle at which it ends; R301; reset none. -/
  pausedUntil : Option Nat := none
  /-- Received PFC by priority: cycle at which it ends; R301; reset none. -/
  pfcUntil : Tab Nat := []
  /-- Late timed frames, to be sent at the first opportunity, in order; R120, R298; reset empty. -/
  lateList : List Egr := []
  /-- Time at which the line falls idle after the frames in the egress buffer; 2^-16 ns of the time unit; R289, R296; reset 0. -/
  lineFree : Nat := 0
  /-- Instant until which the MAC is busy with frames that have left the egress buffer and with its own pause frames; 2^-16 ns; R289, R300; reset 0. -/
  macBusy : Nat := 0
  /-- Boundary of R296 for which line time held clear has been counted; 2^-16 ns; R306; reset 0. -/
  heldClear : Nat := 0
  /-- Commits held back for want of shaping-overflow space; R286; reset 0. -/
  heldBack : Bool := false
  /-- Misdirected drops; 64 bits; R281; reset 0. -/
  misdirected : W64 := 0
  /-- Port MAC record, twelve of 64 bits; R122; reset 0. -/
  mac : Tab W64 := []
  /-- PTP transit record, five of 64 bits; R122; reset 0. -/
  ptp : Tab W64 := []
  /-- Reset drops and drain-timeout drops (R225 names them without an entry); reset 0. -/
  resetDrops : W64 := 0
  /-- Not accepting frames (R225); reset 0. -/
  closed : Bool := false
  /-- Tributaries whose frame in progress when the port-direction closed may still complete; R225; reset none. -/
  finishing : List Nat := []
deriving DecidableEq, Repr

/-- One port's link (R91, R125). -/
structure Link where
  /-- Link status; 8 bits; R125; reset 0. -/
  status : BitVec 8 := 0
  /-- Receive fault on the system side; R91; reset 0. -/
  faultSys : Bool := false
  /-- Receive fault on the line side; R91; reset 0. -/
  faultLine : Bool := false
  /-- Transmit SecY OutPktsUntagged; 64 bits; R122; reset 0. -/
  txSecy : W64 := 0
  /-- Receive SecY record, five of 64 bits; R122; reset 0. -/
  rxSecy : Tab W64 := []
deriving DecidableEq, Repr

/-- A descriptor the part has consumed and whose frame it reads, or a frame of its own, waiting at the injection FIFO (R35). -/
structure Inject where
  /-- Port-direction; R112. -/
  pd : PD
  /-- Frame octets; R446. -/
  data : Octets
  /-- Who injects it (R35). -/
  origin : Origin
  /-- 0 Clear, 1 Protect, 2 Timed (R112). -/
  treatment : Nat
  /-- Stamp flag; 1 bit; R327. -/
  stamp : Bool
  /-- SC named by the descriptor, 0xFFFF none; R112. -/
  sc : Nat
  /-- Egress queue named by the descriptor; R446. -/
  queue : Option Nat
  /-- Ingress stamp of a PTP frame; 2^-16 ns; R112. -/
  ingress : Nat
  /-- Transmit report asked for: event queue and host tag; R329. -/
  report : Option (Nat × Nat)
  /-- Completion to write: ring and descriptor octets (R446). -/
  ring : Option (Nat × Octets)
  /-- Own-clock Delay_Req sequence; R330. -/
  dreq : Option Nat
deriving DecidableEq, Repr

/-- An edge FIFO (R20): its Gray-coded pointers, each as the three synchroniser stages of the other domain show it once settled. -/
structure Edge where
  /-- Write pointer, Gray-coded, one bit wider than the depth needs; R20; reset 0. -/
  wr : BitVec 16 := 0
  /-- Read pointer, Gray-coded; R20; reset 0. -/
  rd : BitVec 16 := 0
deriving DecidableEq, Repr

/-- The data path: retention, port-directions, egress. -/
structure Path where
  /-- Retention records by the model's frame id; R36; reset empty. -/
  frames : Tab Frm := []
  /-- Next frame id (the model's name of a record); reset 0. -/
  nextId : Nat := 0
  /-- Retention banks RB0 to RB3: by bank, then record, its words in order, of each the bank's six 16-bit symbols; R36, R198; reset empty. -/
  banks : Tab (Tab (List Nat)) := []
  /-- Edge FIFOs by the number R20's table gives them here: ingress of SG0 to SG7 0 to 7 and LG0 to LG7 8 to 15, egress 16 + 2q + d,
  stacks 24 and 25, injection 26, OTN into the core 27 + 2m + d and out of it 31 + 2m + d; R20; reset 0. -/
  edges : Tab Edge := []
  /-- Port-directions by 2n + d; R10; reset as PortDir. -/
  pds : Tab PortDir := []
  /-- Links by port; R125; reset 0. -/
  links : Tab Link := []
  /-- Egress queues by 1024 (2q + d) + i; R280; reset as R283. -/
  queues : Tab Queue := []
  /-- Scheduler counters, 6 (2q + d) + i; 64 bits; R306; reset 0. -/
  schedCounters : Tab W64 := []
  /-- Injection FIFO, oldest first; R35; reset empty. -/
  inject : List Inject := []
  /-- Bytes used in each retention pool: 0 in-flight, 1 reserve, 2 overflow, 3 timed; R479; reset 0. -/
  pools : Tab Nat := []
  /-- Peak occupancy since last read; R228; reset 0. -/
  peak : Nat := 0
  /-- Transmit SC records, 4 s + i; 64 bits; R122; reset 0. -/
  txSc : Tab W64 := []
  /-- Receive SC records, 10 s + i; 64 bits; R122; reset 0. -/
  rxSc : Tab W64 := []
deriving DecidableEq, Repr

/-! ## OTN (04) -/

/-- A frame aligner, of an OTUC slice or of a tributary (R136). -/
structure Aligner where
  /-- In frame (IF) and not in Hunt; 1 bit; R136; reset 0. -/
  inFrame : Bool := false
  /-- The FlexO instance of the slice is in AM lock; 1 bit; R132; reset 0. -/
  am : Bool := false
  /-- Valid markers in a row out of AM lock, invalid ones in it; R132; reset 0. -/
  amRun : Nat := 0
  /-- Offset of the frame alignment; R136; reset 0. -/
  offset : Nat := 0
  /-- Multiframe count; 8 bits; R136; reset 0. -/
  mfas : BitVec 8 := 0
  /-- Cycle at which the Hunt or IF timer started. -/
  timer : Nat := 0
  /-- Out of multiframe; 1 bit; R136; reset 0. -/
  oom : Bool := false
  /-- Cycle since which MFAS is wrong; R136; reset 0. -/
  oomAt : Nat := 0
  /-- FAS errors counted (R136). -/
  fasErrors : W64 := 0
  /-- dLOF or dLOFLOM declared; 1 bit; R136; reset 0. -/
  lof : Bool := false
  /-- dLOM declared; 1 bit; R138; reset 0. -/
  lom : Bool := false
deriving DecidableEq, Repr

/-- A committed tributary frame in its play-out buffer (R146). -/
structure PlayItem where
  /-- Sequence number; 32 bits; R24. -/
  seq : W32
  /-- Payload area; 15,232 octets; R32. -/
  payload : Octets
  /-- Columns 1 to 16 of rows 1 to 4; 64 octets; R144. -/
  overhead : Octets
  /-- Packet-buffer lines that hold its payload and overhead, zero here; empty where they wait on die (log 101); R146. -/
  place : List Nat := []
  /-- Its multiframe number; 8 bits; R134. -/
  mfas : BitVec 8 := 0
  /-- Cycle of acceptance. -/
  acceptAt : Nat
  /-- BIP-8 of the OPU as received; R149. -/
  bipIn : Nat
  /-- BIP-8 of the OPU as sent; R149. -/
  bipOut : Nat
  /-- Made ODUk-AIS by the part (R162). -/
  ais : Bool
  /-- LSO octets to write; none leaves the overhead as it is. -/
  lso : Option Octets
deriving DecidableEq, Repr

/-- One tributary's record and run-time state (R141, R159, R162). -/
structure Trib where
  /-- Valid; 1 bit; R141; reset 0. -/
  valid : Bool := false
  /-- Squelch on security defect; 1 bit; R141; reset 1. -/
  squelch : Bool := true
  /-- 0 bypass, 1 protect, 2 authenticate only. -/
  mode : Nat := 0
  /-- ODU type; 8 bits; R141; reset 0. -/
  kind : Nat := 0
  /-- Tributary slot count M; 8 bits; R141; reset 0. -/
  slots : Nat := 0
  /-- Expected PT; 8 bits; R141; reset 0. -/
  pt : Nat := 0
  /-- ODUflex nominal rate; 32 bits, kb/s; R141; reset 0. -/
  rate : Nat := 0
  /-- Tributary identifier; 16 bits; R141; reset 0. -/
  ident : Nat := 0
  /-- Transmit key index; 2 bits; R141; reset 0. -/
  txKi : Nat := 0
  /-- S2L SA index for KI 0 to 3, then L2S. -/
  sas : Tab Nat := []
  /-- System-side slot map; 160 bits; R141; reset 0. -/
  sysMap : BitVec 160 := 0
  /-- Line-side slot map; 160 bits; R141; reset 0. -/
  lineMap : BitVec 160 := 0
  /-- System-side tributary port number; 16 bits; R141; reset 0. -/
  sysPort : Nat := 0
  /-- Line-side tributary port number; 16 bits; R141; reset 0. -/
  linePort : Nat := 0
  /-- KI of the transmit block in progress; 2 bits; R159; reset 0. -/
  blkKi : Nat := 0
  /-- KCI of the transmit block in progress; 1 bit; R159; reset 0. -/
  blkKci : Bool := false
  /-- Block counter of the transmit block in progress; 48 bits; R157; reset 0. -/
  blkCtr : Nat := 0
  /-- A transmit block is in progress; 1 bit; R157; reset 0. -/
  blkOpen : Bool := false
  /-- Position of the last frame of the transmit block in progress. -/
  blkPos : Nat := 0
  /-- Key changes due, oldest first: target KI and time T in 2^-16 ns (R159). -/
  changes : List (Nat × Nat) := []
  /-- Transmit accumulator Y of the block being committed; 128 bits; R204; reset 0. -/
  txY : BitVec 128 := 0
  /-- E(J0) held for the transmit block being committed; 128 bits; R204; reset 0. -/
  txMask : BitVec 128 := 0
  /-- A position of the transmit block is missing; 1 bit; R151; reset 0. -/
  txMissing : Bool := false
  /-- Block counter and position of the last committed transmit frame. -/
  txCtr : Nat := 0
  /-- Position of the last committed transmit frame; 0 to 31; R204; reset 0. -/
  txPos : Nat := 0
  /-- Tag of the previous block, to be sent in positions 0 and 1. -/
  txTag : Octets := []
  /-- Receive state 0 Off, 1 Acquiring, 2 Tracking; R162; reset Off. -/
  rxState : Nat := 0
  /-- KI of the block being received; 0 to 3; R160; reset 0. -/
  rxKi : Nat := 0
  /-- Counter of the block being received; 48 bits; R160; reset 0. -/
  rxCtr : Nat := 0
  /-- KCI of the block being received; 1 bit; R160; reset 0. -/
  rxKci : Bool := false
  /-- A header has been read while Acquiring; the next block is tracked. -/
  rxSeen : Bool := false
  /-- Position of the last frame the headstock took. -/
  rxPos : Nat := 0
  /-- Every header position of this block so far has shown version 0b01. -/
  verOk : Bool := false
  /-- L0 read in position 2 while Acquiring; R162; reset 0. -/
  acqL0 : Nat := 0
  /-- Block counter read while Acquiring; R162; reset 0. -/
  acqCtr : Nat := 0
  /-- The block being committed: one is tracked, its last position, accumulator, mask, missing position, L0 received, SA and counter. -/
  cmtOn : Bool := false
  /-- Last position committed of the block; R204; reset 0. -/
  cmtPos : Nat := 0
  /-- Accumulator of the block being committed; 128 bits; R204; reset 0. -/
  rxY : BitVec 128 := 0
  /-- E(J0) of the block being committed; 128 bits; R204; reset 0. -/
  rxMask : BitVec 128 := 0
  /-- A position of the block being committed is missing; 1 bit; R204; reset 0. -/
  rxMissing : Bool := false
  /-- L0 received for the block being committed; R162; reset none. -/
  cmtL0 : Option Nat := none
  /-- SA of the block being committed; R204; reset 0. -/
  cmtSa : Nat := 0
  /-- Counter of the block being committed; R204; reset 0. -/
  cmtCtr : Nat := 0
  /-- Tag of the block once position 31 has committed. -/
  rxTag : Option Octets := none
  /-- A block whose tag is awaited: its SA, counter and computed tag; and the tag octets received so far. -/
  due : Option (Nat × Nat × Option Octets) := none
  /-- Tag octets received so far; R162; reset empty. -/
  rxGot : Octets := []
  /-- Consecutive failed blocks; R162; reset 0. -/
  fails : Nat := 0
  /-- Consecutive verified blocks; R162; reset 0. -/
  goods : Nat := 0
  /-- Consecutive headers of another version; R162; reset 0. -/
  badVersion : Nat := 0
  /-- Counter of the last verified block; R162; reset 0. -/
  lastVerified : Nat := 0
  /-- Play-out buffer S2L, oldest first; R146; reset empty. -/
  playS : List PlayItem := []
  /-- Play-out buffer L2S, oldest first; R146; reset empty. -/
  playL : List PlayItem := []
  /-- Open packet-buffer block of the S2L play-out buffer and its next line; R357, R363; reset none. -/
  openS : Option (Nat × Nat) := none
  /-- Open packet-buffer block of the L2S play-out buffer and its next line; R357, R363; reset none. -/
  openL : Option (Nat × Nat) := none
  /-- BIP-8 deltas of the two frames last sent S2L; R149; reset empty. -/
  bipS : List Nat := []
  /-- BIP-8 deltas of the two frames last sent L2S; R149; reset empty. -/
  bipL : List Nat := []
  /-- Last good Cm received, S2L; R148; reset 0. -/
  cmIn : Nat := 0
  /-- Last good Cm received, L2S; R148; reset 0. -/
  cmInL : Nat := 0
  /-- Last good sum of CnD received, S2L; R148; reset 0. -/
  cnIn : Nat := 0
  /-- Last good sum of CnD received, L2S; R148; reset 0. -/
  cnInL : Nat := 0
  /-- Last Cm sent, S2L; R148; reset 0. -/
  cmOut : Nat := 0
  /-- Last Cm sent, L2S; R148; reset 0. -/
  cmOutL : Nat := 0
  /-- Last sum of CnD sent, S2L; R148; reset 0. -/
  cnOut : Nat := 0
  /-- Last sum of CnD sent, L2S; R148; reset 0. -/
  cnOutL : Nat := 0
  /-- Cm errors; 64 bits; R148; reset 0. -/
  cmErrors : W64 := 0
  /-- MFAS of the next frame to be sent S2L, once one has been sent; R151; reset none. -/
  mfasS : Option (BitVec 8) := none
  /-- MFAS of the next frame to be sent L2S; R151; reset none. -/
  mfasL : Option (BitVec 8) := none
  /-- Tributary counters, six of 64 bits (R172). -/
  counters : Tab W64 := []
deriving DecidableEq, Repr

/-- A PM bin record (R168). -/
structure Bin where
  /-- Bin start seconds; 48 bits; R168; reset 0. -/
  start : Nat := 0
  /-- Complete; 1 bit; R168; reset 0. -/
  complete : Bool := false
  /-- Suspect; 1 bit; R168; reset 0. -/
  suspect : Bool := false
  /-- Entity unconfigured during part of the bin; 1 bit; R168; reset 0. -/
  unconf : Bool := false
  /-- ES; 32 bits; R168; reset 0. -/
  es : Nat := 0
  /-- SES; 32 bits; R168; reset 0. -/
  ses : Nat := 0
  /-- UAS; 32 bits; R168; reset 0. -/
  uas : Nat := 0
  /-- Far-end ES; 32 bits; R168; reset 0. -/
  fes : Nat := 0
  /-- Far-end SES; 32 bits; R168; reset 0. -/
  fses : Nat := 0
  /-- Far-end UAS; 32 bits; R168; reset 0. -/
  fuas : Nat := 0
  /-- AES; 32 bits; R168; reset 0. -/
  aes : Nat := 0
  /-- ASES; 32 bits; R168; reset 0. -/
  ases : Nat := 0
  /-- BBE; 64 bits; R168; reset 0. -/
  bbe : Nat := 0
  /-- Far-end BBE; 64 bits; R168; reset 0. -/
  fbbe : Nat := 0
  /-- Failed blocks; 64 bits; R168; reset 0. -/
  failed : Nat := 0
deriving DecidableEq, Repr

/-- What one second counted at one end, kept while availability is undecided (R166). -/
structure SecRec where
  /-- Which second; R166. -/
  second : Nat
  /-- Errored; R165. -/
  es : Bool
  /-- Severely errored; R165. -/
  ses : Bool
  /-- Background block errors; R165. -/
  bbe : Nat
  /-- Authentication errored; R165. -/
  aes : Bool
  /-- Severely authentication errored; R165. -/
  ases : Bool
deriving DecidableEq, Repr

/-- One monitored entity (R164). -/
structure PmEnt where
  /-- Current 15-minute bin; R167; reset empty. -/
  cur15 : Bin := {}
  /-- Current 24-hour bin; R167; reset empty. -/
  cur24 : Bin := {}
  /-- Previous 15-minute bins, newest first, up to 32; R167; reset empty. -/
  prev15 : List Bin := []
  /-- Previous 24-hour bin; R167; reset empty. -/
  prev24 : Bin := {}
  /-- Unavailable at the near end; 1 bit; R166; reset 0. -/
  unavail : Bool := false
  /-- Unavailable at the far end; 1 bit; R166; reset 0. -/
  funavail : Bool := false
  /-- Run of near-end seconds that may yet change availability, newest first; R166; reset empty. -/
  run : List SecRec := []
  /-- Run of far-end seconds that may yet change availability, newest first; R166; reset empty. -/
  frun : List SecRec := []
deriving DecidableEq, Repr

/-- OTN lane groups, tributaries and performance monitoring. -/
structure Otn where
  /-- OTUC aligners, 16 k + 8 side + slice; R136; reset Hunt. -/
  slices : Tab Aligner := []
  /-- Tributary aligners, 2 t + side; R136; reset Hunt. -/
  tribAl : Tab Aligner := []
  /-- Defects present on a side, 2 k + side: bit numbers of R171; reset none. -/
  side : Tab W32 := []
  /-- Latched side defects; 32 bits; R171; reset 0. -/
  sideLatched : Tab W32 := []
  /-- Tributary defects; 32 bits; R171; reset 0. -/
  trib : Tab W32 := []
  /-- Latched tributary defects; 32 bits; R171; reset 0. -/
  tribLatched : Tab W32 := []
  /-- Defects of a side whose detection condition holds, also those a lower layer keeps from being declared, 2 k + side; R140; reset none. -/
  sideRaw : Tab W32 := []
  /-- The same of a tributary; R140; reset none. -/
  tribRaw : Tab W32 := []
  /-- Overhead sent on a side, 2 k + side; R130, R138; reset none. -/
  sent : Tab OtuTx := []
  /-- Defects of a side present at some moment of this second, 2 k + side; R165; reset none. -/
  sideSeen : Tab W32 := []
  /-- The same of a tributary; R165; reset none. -/
  tribSeen : Tab W32 := []
  /-- dNOSEC, dAUTH or dKEY of a tributary present at every moment of this second; R165; reset none. -/
  secHeld : Tab Bool := []
  /-- Blocks verified and failed when this second began, by tributary; R165; reset 0. -/
  secBase : Tab (W64 × W64) := []
  /-- dAIS, dOCI, dLCK of the ODUC PM present, 2 k + side, bits 0 to 2; R138; reset 0. -/
  pmStat : Tab Nat := []
  /-- Alignment ambiguities; 64 bits; R171; reset 0. -/
  ambiguities : W64 := 0
  /-- Tributaries 0 to 255; R141; reset invalid. -/
  tribs : Tab Trib := []
  /-- Lane FEC records, 24 k + 3 lane + i; 64 bits; R172; reset 0. -/
  fec : Tab W64 := []
  /-- PM entities 0 to 543; R164; reset empty bins. -/
  pm : Tab PmEnt := []
deriving DecidableEq, Repr

/-! ## Memory protection (09) -/

/-- A split counter: a 64-bit major and 64 minors of 7 bits (R352). -/
structure Split where
  /-- Major counter; 64 bits; R352; reset 0. -/
  major : W64 := 0
  /-- Minor counters of the 64 children; 7 bits each; R352; reset 0. -/
  minors : Tab Nat := []
deriving DecidableEq, Repr

/-- A cached metadata line (R354). -/
structure CacheLine where
  /-- The line or node; R354. -/
  ctr : Split
  /-- Changed since it was read; R354. -/
  dirty : Bool
deriving DecidableEq, Repr

/-- The memory protection unit and the HBM. -/
structure Mpu where
  /-- HBM octets by physical address; R345; reset nothing written (log 7). -/
  hbm : List Host.Cell := []
  /-- The 16 memory keys; 256 bits; R368; reset none. -/
  keys : Tab W256 := []
  /-- Key major registers; 64 bits; R355; reset 0. -/
  majors : Tab W64 := []
  /-- Level-2 nodes of the on-die tree; R353; reset 0. -/
  level2 : Tab Split := []
  /-- Level-3 nodes of the on-die tree; R353; reset 0. -/
  level3 : Tab Split := []
  /-- Root of the tree; R353; reset 0. -/
  root : Split := {}
  /-- Metadata cache by metadata line number; R354; reset empty. -/
  cache : Tab CacheLine := []
  /-- Poison table: block to line map, 1,024 entries; R364; reset empty. -/
  poison : Tab W64 := []
  /-- Regions poisoned as a whole; R364; reset none. -/
  poisonRegions : List Nat := []
  /-- The poison table has overflowed; R364; reset 0. -/
  poisonFull : Bool := false
  /-- Re-fetch list: region and index, 256 entries; R365; reset empty. -/
  refetch : List (Nat × Nat) := []
  /-- Injected errors by physical line number: bits 0 to 511 flipped stored bits, bits 512 to 519 words made uncorrectable; R372; reset none. -/
  broken : Tab Nat := []
  /-- Key identifier under which a packet-buffer block was last allocated or written; R357; reset none. -/
  owner : Tab Nat := []
  /-- Poisoned blocks that have had their first write since (R364); reset none. -/
  renewed : List Nat := []
  /-- Poisoned tree-store and controller-checkpoint lines by line index, with the cycle by which the active controller has rewritten them; R362; reset none. -/
  rewrites : Tab Nat := []
  /-- Cycle until which the whole tree store waits to be rewritten after a zeroization; R369; reset none. -/
  treeLost : Option Nat := none
  /-- Parity accumulators of open packet-buffer blocks; 512 bits; R363; reset none. -/
  parity : Tab (BitVec 512) := []
  /-- Retired blocks; R358; reset none. -/
  retired : List Nat := []
  /-- Allocated packet-buffer blocks: lines that hold live data, and one more while the block is open; R357, R363; reset none. -/
  live : Tab Nat := []
  /-- Packet-buffer blocks whose counters are lost in both copies; R362, R364; reset none. -/
  lost : List Nat := []
  /-- Latched memory events; 16 bits; R373; reset 0. -/
  latched : W16 := 0
  /-- Memory counters, twelve of 64 bits; R373; reset 0. -/
  counters : Tab W64 := []
  /-- Metadata cache counters, four of 64 bits; R373; reset 0. -/
  cacheCounters : Tab W64 := []
  /-- Raw view line and status; 64 octets, 8 bits; R373; reset 0. -/
  rawLine : Octets := []
  /-- Raw view status; 8 bits; R373; reset 0. -/
  rawStatus : Nat := 0
  /-- Scrub pass in progress; R373; reset 0. -/
  scrubbing : Bool := false
  /-- Cycle before which the next scrub pass does not begin; R366; reset 0. -/
  scrubAt : Nat := 0
  /-- Answer of the last read request: the octets, or none for a bus error (R359, R364). -/
  lastRead : Option Octets := none
deriving DecidableEq, Repr

/-- The LLX3264. -/
structure State where
  /-- Time unit (08). -/
  time : TimeUnit := {}
  /-- Power, start-up, reset and control pins (14). -/
  power : Power := {}
  /-- Sessions, commits and the two controllers (12). -/
  ctl : Control := {}
  /-- PCIe rings and vectors (12). -/
  host : HostIf := {}
  /-- Urzidun channel (12). -/
  urz : Urz := {}
  /-- Random generator (10). -/
  rng : Rng := {}
  /-- Tool rest (11). -/
  rest : ToolRest := {}
  /-- Keys, associations and stores (06). -/
  keys : Keys := {}
  /-- Gouges, cuts and policers (02). -/
  cls : Classifier := {}
  /-- Spindles, headstock and tailstock (05). -/
  fab : Fabric := {}
  /-- Retention, port-directions and egress (01, 03, 07). -/
  path : Path := {}
  /-- OTN side (04). -/
  otn : Otn := {}
  /-- Memory protection unit and HBM (09). -/
  mpu : Mpu := {}
  /-- What left the part, newest first; the model's own record (log 4); reset empty. -/
  out : List Output := []
  /-- Counter of open values used; the model's own field (log 5); reset 0, DESIGN CHOICE. -/
  free : Nat := 0
  /-- Commands waiting, first in first out; reset empty. -/
  pending : List Instr := []
deriving DecidableEq, Repr

/-- The machine right after reset: before main power, everything at its stated reset value (R485 state Off). -/
def State.reset : State := {}

/-- The outcome of a step of this machine. -/
abbrev Out := Host.Outcome State Fault Refusal

end Sys2Proof.Machine
end

