-- ==== Sys2Proof/Machine/Drbg.lean ====
section
/-! DEFINITION. The AES-256 CTR_DRBG with derivation function of SP 800-90A (R376), and the conditioner (R375). The
DRBG is PRESUMED from the standard's own text, log 8. -/
namespace Sys2Proof.Machine

/-- BCC of SP 800-90A: chained encryption of whole blocks. -/
def drbgBcc (key data : Octets) : Octets :=
  (blocksOf data).foldl (fun c b => aesEnc key (xorB c b)) (zeros 16)

/-- The block-cipher derivation function, `n` octets out. -/
def drbgDf (input : Octets) (n : Nat) : Octets :=
  let s := beBytes 4 input.length ++ beBytes 4 n ++ input ++ [0x80]
  let s := padTo (16 * ((s.length + 15) / 16)) s
  let k0 := (List.range 32).map (BitVec.ofNat 8)
  let t := ((List.range 3).map (fun i => drbgBcc k0 (beBytes 4 i ++ zeros 12 ++ s))).flatten
  let key := t.take 32
  let x := slice t 32 16
  (((List.range ((n + 15) / 16)).foldl (fun (p : Octets × List Octets) _ =>
    let y := aesEnc key p.1
    (y, y :: p.2)) (x, [])).2.reverse).flatten.take n

/-- The key octets of a working state. -/
def Drbg.keyOctets (d : Drbg) : Octets := beBytes 32 d.key.toNat

/-- `n` successive output blocks and the counter after them. -/
def drbgBlocks (d : Drbg) (n : Nat) : Octets × BitVec 128 :=
  (((List.range n).map (fun i => aesEnc d.keyOctets (octetsOf (d.v + BitVec.ofNat 128 (i + 1))))).flatten,
   d.v + BitVec.ofNat 128 n)

/-- CTR_DRBG_Update with 48 octets. -/
def drbgUpdate (provided : Octets) (d : Drbg) : Drbg :=
  let t := xorB (drbgBlocks d 3).1 (padTo 48 provided)
  { key := BitVec.ofNat 256 (beNat (t.take 32)), v := blockOf (slice t 32 16) }

/-- Instantiation from entropy, nonce and personalisation. -/
def drbgInstantiate (entropy nonce pers : Octets) : Drbg :=
  drbgUpdate (drbgDf (entropy ++ nonce ++ pers) 48) { key := 0, v := 0 }

/-- Reseeding. -/
def drbgReseed (entropy additional : Octets) (d : Drbg) : Drbg :=
  drbgUpdate (drbgDf (entropy ++ additional) 48) d

/-- One generate call of `n` octets. -/
def drbgGenerate (additional : Octets) (n : Nat) (d : Drbg) : Octets × Drbg :=
  let add := if additional.isEmpty then zeros 48 else drbgDf additional 48
  let d1 := if additional.isEmpty then d else drbgUpdate add d
  let o := drbgBlocks d1 ((n + 15) / 16)
  (o.1.take n, drbgUpdate add { d1 with v := o.2 })

/-- One conditioner step on raw bit `r` (R375). -/
def condStep (s : W256) (r : Bool) : W256 :=
  let b (i : Nat) := s.getLsbD i
  let f := b 0 ^^ b 13 ^^ b 56 ^^ b 91 ^^ b 159 ^^ b 204 ^^ (b 3 && b 67) ^^ (b 11 && b 140) ^^ (b 48 && b 201 && b 233) ^^ r
  (s >>> 1) ||| (if f then (1 : W256) <<< 255 else 0)

/-- The bits of octets, first octet first and bit 7 first (R389). -/
def bitsMsb (b : Octets) : List Bool := (b.map (fun x => (List.range 8).map (fun i => x.getMsbD i))).flatten

/-- A conditioner run over raw octets. -/
def condRun (s : W256) (raw : Octets) : W256 := (bitsMsb raw).foldl condStep s

end Sys2Proof.Machine
end

