-- ==== Sys2Proof/Machine/Tick.lean ====
section
/-! DEFINITION. The passing of time: one edge-clock cycle of the time unit, and the running of the clock to an instant. -/
namespace Sys2Proof.Machine

/-- What one edge-clock cycle adds to the time, in 2^-48 ns: 0.64 ns (1 + y) with y in 0.001 ppb, rounded down to
the 2^-48 ns in which R307 holds the increment (rounding: log 14). -/
def tickAmount (y : Int) : Nat :=
  ((64 * 2 ^ 48 * (10 ^ 12 + y)) / (100 * 10 ^ 12)).toNat

/-- `n` edge-clock cycles of the time unit (R307). -/
def TimeUnit.run (u : TimeUnit) (n : Nat) : TimeUnit :=
  { u with cycles := u.cycles + n, t48 := u.t48 + n * tickAmount u.y }

/-- One edge-clock cycle of the part. -/
def tick (s : State) : State :=
  { s with time := s.time.run 1 }

/-- The time as a TIME96 total in 2^-16 ns (R309). -/
def TimeUnit.now (u : TimeUnit) : Nat := u.t48 / 2 ^ 32

/-- The total nanosecond count N of R310. -/
def TimeUnit.ns (u : TimeUnit) : Nat := u.t48 / 2 ^ 48

/-- The seconds of the TIME96. -/
def TimeUnit.secs (u : TimeUnit) : Nat := u.ns / 10 ^ 9

/-- Cycles still to pass until the time unit reads `t` (in 2^-16 ns); 0 when it has. -/
def TimeUnit.cyclesTo (u : TimeUnit) (t : Nat) : Nat :=
  if t ≤ u.now then 0 else (t * 2 ^ 32 - u.t48 + tickAmount u.y - 1) / tickAmount u.y

/-- Run the clock on until the time unit reads at least `t` (2^-16 ns). -/
def waitTime (t : Nat) (s : State) : State :=
  { s with time := s.time.run (s.time.cyclesTo t) }

/-- Run the clock on until cycle `c`. -/
def waitCycle (c : Nat) (s : State) : State :=
  { s with time := s.time.run (c - s.time.cycles) }

/-- Edge-clock cycles in a number of microseconds (1.5625 GHz, R2), rounded up. -/
def cyclesUs (us : Nat) : Nat := (us * 3125 + 1) / 2

/-- Nanoseconds that a number of edge-clock cycles lasts (0.64 ns each), rounded down. -/
def nsOfCycles (c : Nat) : Nat := c * 16 / 25

end Sys2Proof.Machine
end

