-- ==== Sys2Proof/Machine/Ops.lean ====
section
/-! DEFINITION. The operations every family shares: reading an applied dictionary value, counting, drawing an open value,
putting something out, MSI-X vectors, rings, event records (R441 to R451), power domains and random draws. -/
namespace Sys2Proof.Machine

/-- The applied value of an entry: what a commit or the image left there, else its default (R430, R13). -/
def State.od (s : State) (idx sub : Nat) : Octets :=
  match s.ctl.dict.find (odKey idx sub) with
  | some b => b
  | none => match entryAt idx sub with
    | some e => e.defaultOctets sub
    | none => []

/-- The applied value of a numeric entry. -/
def State.odNat (s : State) (idx sub : Nat) : Nat := leNat (s.od idx sub)

/-- The applied value of a signed numeric entry of `w` bits. -/
def State.odInt (s : State) (w idx sub : Nat) : Int := signed w (s.odNat idx sub)

/-- The applied octets of a table whose default is all zero; none listed means all zero. -/
def State.odRow (s : State) (idx sub row width : Nat) : Octets :=
  match s.ctl.dict.find (odKey idx sub) with
  | some b => padTo width (slice b (row * width) width)
  | none => zeros width

/-- Put something out of the part. -/
def emit (o : Output) (s : State) : State := { s with out := o :: s.out }

/-- Take the next open value (log 5). -/
def openValue (s : State) : Nat × State := (Config.freeWord s.free, { s with free := s.free + 1 })

/-- The first of `k` numbers from `n` on for which `p` holds. -/
def firstFrom (p : Nat → Bool) : Nat → Nat → Option Nat
  | 0, _ => none
  | k + 1, n => if p n then some n else firstFrom p k (n + 1)

/-! ## Tamper and power facts many rules ask -/

/-- Locked is set in the states Locked and Zeroized (R404); a shadow mismatch of group 1 reads as Locked set (R399). -/
def State.locked (s : State) : Bool := s.rest.state != .normal || s.rest.shadowBad.any (fun p => p.1 == 1)

/-- Part Owned (R235). -/
def State.owned (s : State) : Bool := s.rest.owner.owned

/-- Status record of a power domain. -/
def State.domain (s : State) (d : Nat) : Domain := s.power.domains.get d {}

/-- Domain PDd works: on, or draining before a reset (R499 states 1 and 4). -/
def State.domOn (s : State) (d : Nat) : Bool := (s.domain d).state == 1 || (s.domain d).state == 4

/-- Set the state of a domain. -/
def setDomain (d st : Nat) (s : State) : State :=
  { s with power := { s.power with domains := s.power.domains.upd d {} (fun r => { r with state := st }) } }

/-- Count a domain reset with its cause (R499). -/
def countDomainReset (d cause : Nat) (s : State) : State :=
  { s with power := { s.power with domains := s.power.domains.upd d {} (fun r => { r with cause := cause, resets := r.resets + 1 }) } }

/-- The dictionary is reachable: Ready, Memory failed or Waiting for random (R485, R488). -/
def State.reachable (s : State) : Bool :=
  s.power.start == .ready || s.power.start == .memFailed || s.power.start == .waitRandom

/-- Some controller is Active (R467). -/
def State.controlUp (s : State) : Bool := s.ctl.ctlA == .active || s.ctl.ctlB == .active

/-! ## Rings, vectors and events -/

/-- The kind a ring's configuration entry has, as its 16-octet record (R443). -/
def ringCfg (s : State) (r : Nat) : Octets :=
  if r < 64 then s.od 0x1800 (r + 1)
  else if r < 576 then (match s.ctl.dict.find (odKey 0x1801 1) with
    | some b => slice b (16 * (r - 64)) 16
    | none => ringDefault r)
  else if r < 1088 then (match s.ctl.dict.find (odKey 0x1802 1) with
    | some b => slice b (16 * (r - 576)) 16
    | none => ringDefault r)
  else s.od 0x1803 (r - 1087)

/-- Base address of a ring (R443). -/
def ringBase (s : State) (r : Nat) : Nat := leAt (ringCfg s r) 0 8
/-- Ring 0 before software has configured it: enabled, so that a host can reach the part (log 33). -/
def ringBoot (s : State) (r : Nat) : Bool := r == 0 && (s.ctl.dict.find (odKey 0x1800 1)).isNone
/-- Number of slots of a ring; of ring 0 before software has configured it, the most a ring may have (log 33). -/
def ringSlots (s : State) (r : Nat) : Nat := if ringBoot s r then 65536 else 2 ^ octet (ringCfg s r) 8
/-- The ring is enabled. -/
def ringEnabled (s : State) (r : Nat) : Bool := bitAt (octet (ringCfg s r) 9) 0 || ringBoot s r
/-- The vector a ring names. -/
def ringVector (s : State) (r : Nat) : Nat := leAt (ringCfg s r) 10 2

/-- Change a ring's run-time state. -/
def updRing (r : Nat) (f : Ring → Ring) (s : State) : State :=
  { s with host := { s.host with rings := s.host.rings.upd r {} f } }

/-- A ring's run-time state. -/
def State.ring (s : State) (r : Nat) : Ring := s.host.rings.get r {}

/-- MSI-X table entry: PCIe default masked, zero (log 9). -/
def msixEntry (s : State) (v : Nat) : BitVec 128 := s.host.msix.get v ((1 : BitVec 128) <<< 96)

/-- Signal a vector as its MSI-X table entry allows: masked vectors become pending (R441, R450). -/
def signalVector (v : Nat) (s : State) : State :=
  if (msixEntry s v).getLsbD 96 then
    (if s.host.pba.contains v then s else { s with host := { s.host with pba := v :: s.host.pba } })
  else emit (.msix v) s

/-- The two function vectors of OD 0x1804.01: 0 control plane, 1 function error. -/
def functionVector (s : State) (i : Nat) : Nat := leAt (s.od 0x1804 1) (2 * i) 2

/-- Gather one completion or record of ring `r` and signal by the moderation settings (R443, R450). -/
def gatherOne (r : Nat) (s : State) : State :=
  let c := ringCfg s r
  let g := (s.ring r).gathered + 1
  if leAt c 12 2 = 0 ∨ max 1 (leAt c 14 2) ≤ g then
    signalVector (ringVector s r) (updRing r (fun x => { x with gathered := 0, moderateAt := none }) s)
  else
    updRing r (fun x => { x with gathered := g, moderateAt := some (x.moderateAt.getD (s.time.cycles + cyclesUs (leAt c 12 2))) }) s

/-- Write 32 octets into slot `i` of a ring's host memory. -/
def ringWrite (r i : Nat) (data : Octets) (s : State) : State := emit (.dma (ringBase s r + 32 * i) data) s

/-- Write back a completion at the ring's consumer index and move on in ring order (R442). -/
def ringComplete (r : Nat) (data : Octets) (s : State) : State :=
  let i := (s.ring r).part
  gatherOne r (updRing r (fun x => { x with part := (i + 1) % ringSlots s r, posted := x.posted.drop 1 }) (ringWrite r i data s))

/-- Stop a ring in the error state and signal the function-error vector (R443). -/
def ringError (r cause : Nat) (s : State) : State :=
  signalVector (functionVector s 1) (updRing r (fun x => { x with state := 2, cause := cause }) s)

/-- An event (R447) before it is routed. -/
structure Event where
  type : Nat
  source : Nat
  a : Nat := 0
  b : Nat := 0
  c : Nat := 0
deriving DecidableEq, Repr

/-- The 32-octet event record of R447 at total nanosecond count `n`, without its phase bit. -/
def eventRecord (e : Event) (n : Nat) : Octets :=
  leBytes 2 e.type ++ leBytes 2 e.source ++ leBytes 4 n ++ [BitVec.ofNat 8 (n / 2 ^ 32 % 2)] ++ zeros 3 ++
  leBytes 4 e.a ++ leBytes 8 e.b ++ leBytes 4 e.c ++ zeros 4

/-- An event ring is full: one slot always stays empty between the indices. -/
def eventFull (s : State) (r : Nat) : Bool := ((s.ring r).part + 1) % ringSlots s r == (s.ring r).host

/-- Write one record into event ring `r` and move the producer index and phase (R442). -/
def eventWrite (r : Nat) (e : Event) (s : State) : State :=
  let x := s.ring r
  let rec31 := patch (eventRecord e s.time.ns) 31 [if x.phase then 1 else 0]
  let nxt := (x.part + 1) % ringSlots s r
  gatherOne r (updRing r (fun x => { x with part := nxt, phase := if nxt = 0 then !x.phase else x.phase }) (ringWrite r x.part rec31 s))

/-- Count an event of queue `k` as lost (R451, OD 0x1806). -/
def eventLost (k : Nat) (s : State) : State :=
  updRing (1088 + k) (fun x => { x with lostNow := x.lostNow + 1 })
    { s with host := { s.host with lost := s.host.lost.bump k 1 } }

/-- Where events have been lost and space has freed, write the type 0x1001 record with the count (R448, R451). -/
def flushLost (k : Nat) (s : State) : State :=
  let r := 1088 + k
  if (s.ring r).lostNow = 0 ∨ (s.ring r).state ≠ 1 ∨ eventFull s r then s
  else eventWrite r { type := 0x1001, source := r, a := (s.ring r).lostNow } (updRing r (fun x => { x with lostNow := 0 }) s)

/-- Post an event to queue `k`: never waits; lost where the ring is full, and where it is not running (R451; log 13). -/
def postTo (k : Nat) (e : Event) (s : State) : State :=
  let s := flushLost k s
  let r := 1088 + k
  if (s.ring r).state ≠ 1 ∨ eventFull s r then eventLost k s else eventWrite r e s

/-- Types whose source is a port-direction 2n + d (R448). -/
def pdTypes : List Nat := [0x1003, 0x1004, 0x1005, 0x2401]

/-- The event queue an event goes to (R449), slot events, transmit reports and tamper events apart. -/
def eventQueue (s : State) (e : Event) : Nat :=
  if e.type = 0x5001 then s.odNat 0x5013 2
  else if pdTypes.contains e.type then s.odNat 0x1840 (e.source / 2 + 1)
  else s.odNat 0x1841 1

/-- Post an event to the queue its type and source give (R448, R449). -/
def post (e : Event) (s : State) : State := postTo (eventQueue s e) e s

/-! ## Random draws (R376, R379, R380) -/

/-- The serving expander. -/
def Rng.live (g : Rng) : Option Drbg := if g.serving = 0 then g.exp0 else g.exp1
/-- The standby expander. -/
def Rng.standby (g : Rng) : Option Drbg := if g.serving = 0 then g.exp1 else g.exp0
/-- Replace the serving expander's state. -/
def Rng.setLive (d : Option Drbg) (g : Rng) : Rng :=
  if g.serving = 0 then { g with exp0 := d } else { g with exp1 := d }

/-- Noise source `k`. -/
def Rng.source (g : Rng) (k : Nat) : Source := g.sources.get k {}

/-- Number of Healthy sources. -/
def Rng.healthy (g : Rng) : Nat := ((List.range 8).filter (fun k => (g.source k).state == .healthy)).length

/-- The part is degraded while fewer than five sources are Healthy (R380). -/
def Rng.degraded (g : Rng) : Bool := decide (g.healthy < 5)

/-- The serving expander is blocked: its request counter has reached the reseed limit (R380). -/
def rngBlocked (s : State) : Bool := decide (s.odNat 0x4804 1 ≤ s.rng.count)

/-- The expander can serve a request now: started, instantiated and not blocked. -/
def rngCan (s : State) : Bool := s.rng.started && s.rng.live.isSome && !rngBlocked s

/-- One generate call of `n` octets on the serving expander; none where it cannot serve. -/
def rngDraw (n : Nat) (s : State) : Option (Octets × State) :=
  if rngCan s then
    match s.rng.live with
    | some d =>
      let o := drbgGenerate [] n d
      let g := s.rng.setLive (some o.2)
      let g := { g with count := g.count + 1, counters := g.counters.bump 2 1 }
      let blocked := decide (s.odNat 0x4804 1 ≤ g.count)
      let g := if blocked && !g.wasBlocked then { g with counters := g.counters.bump 6 1 } else g
      some (o.1, { s with rng := { g with wasBlocked := blocked } })
    | none => none
  else none

/-- Queue a request (R382). -/
def rngAsk (who : Consumer) (cls : Nat) (s : State) : State :=
  { s with rng := { s.rng with queue := s.rng.queue ++ [{ who := who, cls := cls, at_ := s.time.cycles }] } }

/-- Draw a new unlock challenge: at once where the generator can serve, else queued (R383, R411). -/
def newChallenge (s : State) : State :=
  match rngDraw 32 s with
  | some (o, s) => { s with rest := { s.rest with challenge := o } }
  | none => rngAsk .challenge 2 s

/-! ## Records read by several families -/

/-- A port-direction's record. -/
def State.pd (s : State) (p : PD) : PortDir := s.path.pds.get p.key {}
/-- Change a port-direction's record. -/
def updPd (p : PD) (f : PortDir → PortDir) (s : State) : State :=
  { s with path := { s.path with pds := s.path.pds.upd p.key {} f } }
/-- Item number of a slot, an SA, an SC and a tributary record in group 5 of R399 (log 32). -/
def slotItem (target : Nat) : Nat := if 0x8000 ≤ target then 32768 + target % 256 else target
/-- Item of SA `i`. -/
def saItem (i : Nat) : Nat := 33024 + i
/-- A pair of the shadow copies mismatches (R399). -/
def State.shadow (s : State) (group item : Nat) : Bool := s.rest.shadowBad.contains (group, item)
/-- Both copies of an item have been written again. -/
def shadowFix (group item : Nat) (s : State) : State := { s with rest := { s.rest with shadowBad := s.rest.shadowBad.erase (group, item) } }
/-- Data slot or KEK slot by the target of R249; taken as Bad while its state and its shadow mismatch (R399). -/
def State.slot (s : State) (target : Nat) : KeySlot :=
  let x := if 0x8000 ≤ target then s.keys.kek.get (target % 256) {} else s.keys.data.get target {}
  if s.shadow 5 (slotItem target) then { x with state := .bad } else x
/-- Change a slot named by a target of R249. -/
def updSlot (target : Nat) (f : KeySlot → KeySlot) (s : State) : State :=
  if 0x8000 ≤ target then { s with keys := { s.keys with kek := s.keys.kek.upd (target % 256) {} f } }
  else { s with keys := { s.keys with data := s.keys.data.upd target {} f } }
/-- SA record; taken as Frozen while its byte 0 and its shadow mismatch (R399). -/
def State.sa (s : State) (i : Nat) : Sa :=
  let a := s.keys.sa.get i {}
  if s.shadow 5 (saItem i) then { a with frozen := true } else a
/-- Change an SA record. -/
def updSa (i : Nat) (f : Sa → Sa) (s : State) : State := { s with keys := { s.keys with sa := s.keys.sa.upd i {} f } }
/-- SC record. -/
def State.sc (s : State) (i : Nat) : Sc := s.keys.sc.get i {}
/-- Change an SC record. -/
def updSc (i : Nat) (f : Sc → Sc) (s : State) : State := { s with keys := { s.keys with sc := s.keys.sc.upd i {} f } }
/-- Tributary record. -/
def State.tr (s : State) (t : Nat) : Trib := s.otn.tribs.get t {}
/-- Change a tributary record. -/
def updTr (t : Nat) (f : Trib → Trib) (s : State) : State := { s with otn := { s.otn with tribs := s.otn.tribs.upd t {} f } }
/-- Set bits of the key event status (R279). -/
def keyEvent (bit : Nat) (s : State) : State :=
  { s with keys := { s.keys with events := s.keys.events ||| ((1 : W16) <<< bit) } }
/-- Count on key counter `i` (R279). -/
def keyCount (i : Nat) (s : State) : State := { s with keys := { s.keys with counters := s.keys.counters.bump i 1 } }
/-- Count on tamper counter `i` (R427). -/
def tamperCount (i : Nat) (s : State) : State := { s with rest := { s.rest with counters := s.rest.counters.bump i 1 } }

/-- A transmit SA is frozen, or past its notice: bit `b` of each secure tributary that sends its blocks under it (R158, R171). -/
def saShow (i b : Nat) (s : State) : State :=
  let uses (r : Trib) : Bool := r.valid && r.mode != 0 && r.sas.get ((if r.blkOpen then r.blkKi else r.txKi) % 4) 0xFFFF == i
  let l := (s.otn.tribs.filter (fun q => uses q.2)).map Prod.fst
  let raise_ (t : Tab W32) : Tab W32 := l.foldl (fun t k => t.upd k 0 (· ||| ((1 : W32) <<< b))) t
  if l.isEmpty then s else { s with otn := { s.otn with trib := raise_ s.otn.trib, tribLatched := raise_ s.otn.tribLatched } }

/-- Freeze an SA with a cause, and post its event (R258, R272, R448). -/
def freezeSa (i cause : Nat) (s : State) : State :=
  if (s.keys.sa.get i {}).frozen then s
  else saShow i 20 <| keyEvent 4 (post { type := 0x3402, source := i, a := cause } (updSa i (fun a => { a with frozen := true, cause := cause }) s))

/-- Whether an SA freezes again is never asked: a Frozen SA never thaws (R272). Every listed SA that names a data slot. -/
def sasOfSlot (s : State) (slot : Nat) : List Nat :=
  (s.keys.sa.filter (fun p => p.2.valid && p.2.slot == slot)).map Prod.fst

end Sys2Proof.Machine
end

