-- ==== Sys2Proof/Machine/Edges.lean ====
section
/-! DEFINITION. The edge FIFOs (R20): their numbers, widths and depths, and what passes through them. A command carries a whole frame or
line across, so a FIFO is empty again when it ends, and its pointers show how far it has come. Log 102. -/
namespace Sys2Proof.Machine

/-- Width in octets of edge FIFO `k`: 512 bits toward the HBM controllers, 256 bits elsewhere. -/
def edgeOctets (k : Nat) : Nat := if k = 24 ∨ k = 25 then 64 else 32

/-- Depth in words of edge FIFO `k`: lane groups 64, egress 128, stacks 256, injection 32, OTN 128. -/
def edgeDepth (k : Nat) : Nat := if k < 16 then 64 else if k < 24 then 128 else if k < 26 then 256 else if k = 26 then 32 else 128

/-- Gray code of a pointer. -/
def grayOf (n : Nat) : Nat := n ^^^ (n / 2)
/-- The pointer that a Gray code of at most 16 bits stands for. -/
def ofGray (g : Nat) : Nat := (List.range 16).foldl (fun v i => v ^^^ (g / 2 ^ i)) 0

/-- A pointer of edge FIFO `k` moved on by `n` words; it counts modulo twice the depth. -/
def edgeMove (k n : Nat) (p : BitVec 16) : BitVec 16 := BitVec.ofNat 16 (grayOf ((ofGray p.toNat + n) % (2 * edgeDepth k)))

/-- Words of edge FIFO `k` that `n` octets take. -/
def edgeWords (k n : Nat) : Nat := (n + edgeOctets k - 1) / edgeOctets k

/-- Words an edge FIFO holds. -/
def edgeFill (k : Nat) (e : Edge) : Nat := (ofGray e.wr.toNat + 2 * edgeDepth k - ofGray e.rd.toNat) % (2 * edgeDepth k)

/-- `n` octets pass through edge FIFO `k`: written, then read, word by word. -/
def edgePass (k n : Nat) (s : State) : State :=
  let w := edgeWords k n
  { s with path := { s.path with edges := s.path.edges.upd k {} (fun e => { wr := edgeMove k w e.wr, rd := edgeMove k w e.rd }) } }

/-- The ingress FIFO of a port-direction's lane group: SG0 to SG7, then LG0 to LG7. -/
def edgeIn (p : PD) : Nat := match p.dir with | .s2l => p.port / 4 | .l2s => 8 + p.port / 4
/-- The FIFO from the tailstock to a port-direction's egress scheduler. -/
def edgeOut (p : PD) : Nat := 16 + 2 * (p.port / 8) + p.dir.num
/-- The FIFO toward the stack that holds a data-space address (R346). -/
def edgeStack (a : Nat) : Nat := 24 + a / 2048 % 2
/-- The injection FIFO. -/
def edgeInject : Nat := 26
/-- The FIFO of an OTN multiplexer into the core, and out of it, for pair `k`. -/
def edgeOtnIn (k : Nat) (d : Dir) : Nat := 27 + 2 * (k / 4) + d.num
def edgeOtnOut (k : Nat) (d : Dir) : Nat := 31 + 2 * (k / 4) + d.num

end Sys2Proof.Machine
end

