-- ==== Sys2Proof/Machine/Curve.lean ====
section
/-! DEFINITION. P-384: points, ECDH and ECDSA (FIPS 186-5). PRESUMED: the standard's own parameters, log 8. -/
namespace Sys2Proof

/-- The field prime. -/
def p384P : Nat := 2 ^ 384 - 2 ^ 128 - 2 ^ 96 + 2 ^ 32 - 1
/-- The order of the base point. -/
def p384N : Nat := 0xFFFFFFFFFFFFFFFFFFFFFFFFFFFFFFFFFFFFFFFFFFFFFFFFC7634D81F4372DDF581A0DB248B0A77AECEC196ACCC52973
def p384B : Nat := 0xB3312FA7E23EE7E4988E056BE3F82D19181D9C6EFE8141120314088F5013875AC656398D8A2ED19D2A85C8EDD3EC2AEF
def p384Gx : Nat := 0xAA87CA22BE8B05378EB1C71EF320AD746E1D3B628BA79B9859F741E082542A385502F25DBF55296C3A545E3872760AB7
def p384Gy : Nat := 0x3617DE4A96262C6F5D9E98BF9292DC29F8F41DBD289A147CE9DA3113B5F0B8C00A60B1CE1D7E819D7A431D7C90EA0E5F

/-- Power modulo `m`, by the bits of the exponent from the lowest, `n` of them. -/
def powModBits (m : Nat) : Nat → Nat → Nat → Nat → Nat
  | 0, _, _, r => r
  | n + 1, b, e, r => powModBits m n (b * b % m) (e / 2) (if e % 2 = 1 then r * b % m else r)

/-- The inverse modulo a prime of 384 bits. -/
def invMod (m a : Nat) : Nat := powModBits m 384 (a % m) (m - 2) 1

/-- A point: none is the point at infinity. -/
abbrev Point := Option (Nat × Nat)

/-- A point in Jacobian coordinates: x = X / Z^2, y = Y / Z^3; Z = 0 is the point at infinity. -/
structure Jac where
  x : Nat
  y : Nat
  z : Nat

def Jac.infinity : Jac := { x := 1, y := 1, z := 0 }

def Jac.ofPoint : Point → Jac
  | none => Jac.infinity
  | some (x, y) => { x := x, y := y, z := 1 }

def Jac.toPoint (a : Jac) : Point :=
  if a.z = 0 then none
  else
    let w := invMod p384P a.z
    let w2 := w * w % p384P
    some (a.x * w2 % p384P, a.y * w2 % p384P * w % p384P)

/-- Twice a point. -/
def Jac.double (a : Jac) : Jac :=
  let z2 := a.z * a.z % p384P
  let y2 := a.y * a.y % p384P
  let s := 4 * a.x * y2 % p384P
  let m := 3 * (a.x + p384P - z2) * (a.x + z2) % p384P
  let x := (m * m + 2 * p384P - 2 * s) % p384P
  { x := x, y := (m * (s + p384P - x) + p384P - 8 * y2 * y2 % p384P) % p384P, z := 2 * a.y * a.z % p384P }

/-- The sum of two points. -/
def Jac.add (a b : Jac) : Jac :=
  if a.z = 0 then b
  else if b.z = 0 then a
  else
    let za := a.z * a.z % p384P
    let zb := b.z * b.z % p384P
    let ua := a.x * zb % p384P
    let ub := b.x * za % p384P
    let sa := a.y * zb % p384P * b.z % p384P
    let sb := b.y * za % p384P * a.z % p384P
    if ua = ub then (if sa = sb then a.double else Jac.infinity)
    else
      let h := ub + p384P - ua
      let r := sb + p384P - sa
      let h2 := h * h % p384P
      let h3 := h2 * h % p384P
      let v := ua * h2 % p384P
      let x := (r * r + 3 * p384P - h3 - 2 * v) % p384P
      { x := x, y := (r * (v + p384P - x) + p384P - sa * h3 % p384P) % p384P, z := h * a.z % p384P * b.z % p384P }

/-- Addition on the curve. -/
def ptAdd (a b : Point) : Point := ((Jac.ofPoint a).add (Jac.ofPoint b)).toPoint

/-- Scalar multiplication by the bits of `k`, `n` of them from the lowest. -/
def ptMulBits : Nat → Nat → Jac → Jac → Jac
  | 0, _, _, r => r
  | n + 1, k, q, r => ptMulBits n (k / 2) q.double (if k % 2 = 1 then r.add q else r)

def ptMul (k : Nat) (q : Point) : Point := (ptMulBits 384 k (Jac.ofPoint q) Jac.infinity).toPoint

def p384G : Point := some (p384Gx, p384Gy)

/-- The SEC 1 uncompressed encoding, 97 octets. -/
def ptOctets : Point → Octets
  | none => zeros 97
  | some (x, y) => 4 :: (beBytes 48 x ++ beBytes 48 y)

/-- A valid uncompressed point: 0x04, X and Y below the prime, on the curve (R236 step 3, R240 step 4). -/
def ptOf (b : Octets) : Option (Nat × Nat) :=
  let x := beAt b 1 48
  let y := beAt b 49 48
  if b.length = 97 ∧ octet b 0 = 4 ∧ x < p384P ∧ y < p384P ∧ y * y % p384P = (x * x * x + (p384P - 3) * x + p384B) % p384P
  then some (x, y) else none

/-- ECDSA verification of `sig` = r and s, 96 octets, over SHA-384 of `msg`. -/
def ecdsaVerify (pub msg sig : Octets) : Bool :=
  match ptOf pub with
  | none => false
  | some q =>
    let r := beAt sig 0 48
    let s := beAt sig 48 48
    if r = 0 ∨ s = 0 ∨ p384N ≤ r ∨ p384N ≤ s then false
    else
      let w := invMod p384N s
      let e := beNat (sha384 msg)
      match ptAdd (ptMul (e * w % p384N) p384G) (ptMul (r * w % p384N) (some q)) with
      | none => false
      | some (x, _) => decide (x % p384N = r)

/-- ECDSA signature with the per-signature value `k` in 1 to n - 1. -/
def ecdsaSign (d k : Nat) (msg : Octets) : Octets :=
  match ptMul k p384G with
  | none => zeros 96
  | some (x, _) =>
    let r := x % p384N
    beBytes 48 r ++ beBytes 48 (invMod p384N k * (beNat (sha384 msg) + r * d) % p384N)

end Sys2Proof
end

