-- ==== Sys2Proof/Machine/Log.lean ====
section
/-! DEFINITION. The identity keys of R233, the shavings log (R414 to R419) and the raising of sensors (R397, R398, R402). -/
namespace Sys2Proof.Machine

/-- FRK octets. -/
def frk : Octets := beBytes 32 Config.fusedRootKey.toNat

/-- Identity private scalar d (R233). -/
def identityD : Nat := beNat (kdf frk "LLX ID" [] 448) % (p384N - 1) + 1

/-- Identity public key, OD 0x3420.02. -/
def identityPub : Octets := ptOctets (ptMul identityD p384G)

/-- Ownership key (R233). -/
def ownershipKey : Octets := kdf frk "LLX OWN" [] 256

/-- Part identifier: the first 16 octets of SHA-384 over OD 0x3420.02 (R410). -/
def partId : Octets := (sha384 identityPub).take 16

/-! ## Log entries -/

/-- Nanoseconds of a crystal count within its second (R415). -/
def crystalNs (c : Nat) : Nat := c * 10 ^ 9 / 32768

/-- Whether an entry is stamped with the time unit's time (R415). -/
def logUnitTime (s : State) : Bool := !s.rest.onVbat && s.time.isSet

/-- Octets 0 to 31 of a log entry (R414, R415). -/
def logHead (s : State) (type source : Nat) (detail : Octets) : Octets :=
  let u := logUnitTime s
  let sec := if u then s.time.secs else s.rest.seconds.toNat
  let ns := if u then s.time.ns % 10 ^ 9 else crystalNs s.rest.crystal
  beBytes 6 (s.rest.headSeq + 1) ++ beBytes 2 type ++ beBytes 6 sec ++ beBytes 4 ns ++
  [BitVec.ofNat 8 (bit (!u) + 2 * bit u + 4 * bit s.rest.onVbat + 8 * bit (type == 0x00F0)), BitVec.ofNat 8 source] ++ padTo 12 detail

/-- Chain hash of an entry (R416). -/
def chainHash (prev head : Octets) : Octets := (sha384 (prev ++ head)).take 32

/-- Write one entry into the ring and move the chain head (R416). -/
def logAppend (type source : Nat) (detail : Octets) (s : State) : State :=
  let h := logHead s type source detail
  let c := chainHash s.rest.headHash h
  let r := s.rest
  tamperCount 6 { s with rest := { r with headSeq := r.headSeq + 1, headHash := c, ring := r.ring ++ [{ seq := r.headSeq + 1, data := h ++ c }] } }

/-- Unexported entries. -/
def State.unexported (s : State) : Nat := s.rest.ring.length

/-- Where the ring stops taking entries: 496 on main power, 512 on VBAT (R409, R419). -/
def logLimit (s : State) : Nat := if s.rest.onVbat then 512 else 496

/-- A sensor goes into alarm on main power: it joins the open decision window, opens one, or waits for a zeroize in
progress (R402). -/
def raiseAlarm (n : Nat) (s : State) : State :=
  let r := s.rest
  if r.zeroizing then { s with rest := { r with deferred := r.deferred ++ [n] } }
  else match r.window with
    | none => { s with rest := { r with window := some (s.time.cycles, [n]) } }
    | some (c, l) => { s with rest := { r with window := some (c, l ++ [n]) } }

/-- Record what a sensor shows. -/
def noteSensor (n sub : Nat) (value : Int) (s : State) : State :=
  { s with rest := { s.rest with sensors := s.rest.sensors.upd n {} (fun x => { x with sub := sub, value := value }) } }

/-- An assertion of an event sensor 16 to 21: one alarm, cleared at once (R397). -/
def raiseEvent (n sub : Nat) (s : State) : State :=
  if s.rest.onVbat then s else raiseAlarm n (noteSensor n sub 0 s)

/-- Set a sensor's alarm state. -/
def setAlarm (n : Nat) (b : Bool) (s : State) : State :=
  { s with rest := { s.rest with sensors := s.rest.sensors.upd n {} (fun x => { x with alarm := b }) } }

/-- A sensor's record. -/
def State.sensor (s : State) (n : Nat) : Sensor := s.rest.sensors.get n {}

/-- On main power, at 496 unexported entries, the log stops and sensor 22 goes into alarm (R397, R419). -/
def logStops (s : State) : State :=
  if !s.rest.onVbat && decide (496 ≤ s.unexported) && !(s.sensor 22).alarm then raiseAlarm 22 (setAlarm 22 true s) else s

/-- Post a log-export event, and note when (R419). -/
def exportEvent (s : State) : State :=
  post { type := 0x5002, source := 0xFFFF, a := s.unexported } { s with rest := { s.rest with exportAt := s.time.cycles } }

/-- What follows an entry's writing: the export event at the threshold, and sensor 22 at 496 on main power (R419). -/
def logAfter (s : State) : State := logStops (if s.unexported = s.odNat 0x5042 1 then exportEvent s else s)

/-- Write an entry, or count it as unwritten where the ring has no room for it (R409, R419). -/
def logForce (type source : Nat) (detail : Octets) (s : State) : State :=
  if s.unexported < logLimit s then logAfter (logAppend type source detail s)
  else if s.rest.onVbat then { s with rest := { s.rest with unwrittenVbat := s.rest.unwrittenVbat + 1 } }
  else logStops { s with rest := { s.rest with unwritten := s.rest.unwritten + 1 } }

/-- Types always written singly (R418). -/
def logAlways : List Nat := [0x0010, 0x0020, 0x0021, 0x0030]

/-- Write a log entry, or hold it back under the limit of 1,000 a second (R416, R418). -/
def logEntry (type source : Nat) (detail : Octets) (s : State) : State :=
  if s.rest.perSecond < 1000 ∨ logAlways.contains type then
    logForce type source detail { s with rest := { s.rest with perSecond := s.rest.perSecond + 1 } }
  else { s with rest := { s.rest with heldBack := s.rest.heldBack.upd type 0 (· + 1) } }

/-- The 0x00F1 entries owed once space has freed: of main power, then of VBAT (R409, R419). -/
def logOwed (s : State) : State :=
  let s := if s.rest.unwritten = 0 ∨ logLimit s ≤ s.unexported then s
    else
      let n := s.rest.unwritten
      logAfter (logAppend 0x00F1 0xFF (zeros 4 ++ beBytes 4 n ++ [0]) { s with rest := { s.rest with unwritten := 0, perSecond := s.rest.perSecond + 1 } })
  if s.rest.unwrittenVbat = 0 ∨ logLimit s ≤ s.unexported then s
  else
    let n := s.rest.unwrittenVbat
    logAfter (logAppend 0x00F1 0xFF (zeros 4 ++ beBytes 4 n ++ [1]) { s with rest := { s.rest with unwrittenVbat := 0, perSecond := s.rest.perSecond + 1 } })

/-- Rank of a sensor's response; on a shadow mismatch the higher of the two copies (R399, R400). -/
def sensorRank (s : State) (n : Nat) : Nat :=
  let r := s.odNat 0x5010 (n + 1)
  if s.rest.shadowBad.contains (3, n) then max r (Config.shadowRank n % 4) else r

/-- A memory-integrity event: sensor 16 and a log entry (R362, R397). `kind` is log octet 28. -/
def memoryEvent (region block kind : Nat) (s : State) : State :=
  raiseEvent 16 0 (logEntry 0x00C0 0xFF ([BitVec.ofNat 8 region] ++ zeros 3 ++ beBytes 4 block ++ [BitVec.ofNat 8 kind]) s)

/-- A memory-integrity alarm: sensor 17 and a log entry (R343, R362, R364). -/
def memoryAlarm (region block kind : Nat) (s : State) : State :=
  raiseEvent 17 0 (logEntry 0x00C0 0xFF ([BitVec.ofNat 8 region] ++ zeros 3 ++ beBytes 4 block ++ [BitVec.ofNat 8 kind]) s)

end Sys2Proof.Machine
end

