-- ==== Sys2Proof/Machine/Rng.lean ====
section
/-! DEFINITION. The random number generator: noise sources, conditioners, expanders, consumers and host registers
(R374 to R392). -/
namespace Sys2Proof.Machine

/-- Change noise source `k`. -/
def updSource (k : Nat) (f : Source → Source) (s : State) : State :=
  { s with rng := { s.rng with sources := s.rng.sources.upd k {} f } }

/-- The octets of a conditioned block: the first holds s255 to s248 (R375). -/
def blockOctets (b : W256) : Octets := beBytes 32 b.toNat

/-- The Healthy sources that hold an unused block, in ascending number. -/
def Rng.ready (g : Rng) : List Nat :=
  (List.range 8).filter (fun k => (g.source k).state == .healthy && !(g.source k).blocks.isEmpty)

/-- Use the oldest block of source `k`. -/
def Rng.useBlock (k : Nat) (g : Rng) : Octets × Rng :=
  ((blockOctets ((g.source k).blocks.headD 0)), { g with sources := g.sources.upd k {} (fun x => { x with blocks := x.blocks.drop 1 }) })

/-- Five blocks, each of a different Healthy source, concatenated in ascending source number (R376); the five lowest
sources that hold one (log 20). -/
def Rng.entropy (g : Rng) : Option (Octets × Rng) :=
  if g.ready.length < 5 then none
  else some ((g.ready.take 5).foldl (fun p k => let o := p.2.useBlock k; (p.1 ++ o.1, o.2)) ([], g))

/-- A sixth block, of any Healthy source (R376); the lowest that holds one (log 20). -/
def Rng.nonce (g : Rng) : Option (Octets × Rng) :=
  match g.ready with
  | [] => none
  | k :: _ => some (g.useBlock k)

/-- The expander of half `h`. -/
def Rng.half (g : Rng) (h : Nat) : Option Drbg := if h = 0 then g.exp0 else g.exp1
/-- Set the expander of half `h`. -/
def Rng.setHalf (h : Nat) (d : Option Drbg) (g : Rng) : Rng := if h = 0 then { g with exp0 := d } else { g with exp1 := d }

/-- Instantiate or reseed the expander of half `h` from fresh blocks (R376, R379); unchanged where blocks are missing. -/
def Rng.seedHalf (h : Nat) (g : Rng) : Rng :=
  if g.inReset.contains h then g
  else match g.half h with
    | some d => match g.entropy with
      | some (e, g) => { (g.setHalf h (some (drbgReseed e [] d))) with counters := g.counters.bump 1 1 }
      | none => g
    | none => match g.entropy with
      | none => g
      | some (e, g') => match g'.nonce with
        | none => g
        | some (n, g') => { (g'.setHalf h (some (drbgInstantiate e n []))) with counters := g'.counters.bump 0 1 }

/-- Only one expander is instantiated (R385 SIMPLEX). -/
def Rng.simplex (g : Rng) : Bool := g.exp0.isSome != g.exp1.isSome

/-- RNG_LIVE (R384, R385): bits [1] and [31:16] are 0. -/
def rngLive (s : State) : Nat :=
  256 * ((List.range 8).foldl (fun m k => m + 2 ^ k * bit ((s.rng.source k).state == .healthy)) 0) +
  32 * bit s.rng.simplex + 16 * bit (!s.rng.started) + 8 * bit (rngBlocked s) + 4 * bit s.rng.degraded + bit (!s.rng.hostBuf.isEmpty)

/-- RNG_STAT of a read that waited `stall` units of 10 ns and did or did not get data (R385). -/
def rngStat (s : State) (stall : Nat) (valid : Bool) : Nat :=
  65536 * min stall 4000 + (rngLive s / 4 % 16384) * 4 + 2 * bit (decide (0 < stall)) + bit valid

/-- Complete an RNG_DATA read with data or without (R384, R385). -/
def rngAnswer (wide : Bool) (stall : Nat) (data : Option Octets) (s : State) : State :=
  let st := rngStat s stall data.isSome
  let d := (data.getD (zeros 4))
  let g := { s.rng with lastStat := BitVec.ofNat 32 st, counters := s.rng.counters.bump (if data.isSome then 3 else 4) 1 }
  emit (.window (if wide then d ++ leBytes 4 st else d)) { s with rng := g }

/-- Units of 10 ns that have passed since a cycle. -/
def stallSince (s : State) (c : Nat) : Nat := min 4000 (nsOfCycles (s.time.cycles - c) / 10)

/-- Refill the host buffer with one class-3 request where R381 lets a host read be served. -/
def rngRefill (s : State) : Option State :=
  if s.rng.degraded && decide (s.odNat 0x4804 1 - s.odNat 0x4804 3 ≤ s.rng.count) then none
  else match rngDraw 32 s with
    | some (o, s) => some { s with rng := { s.rng with hostBuf := o } }
    | none => none

/-- Take four octets of the host buffer for a read. -/
def rngTake (wide : Bool) (stall : Nat) (s : State) : State :=
  let d := s.rng.hostBuf.take 4
  rngAnswer wide stall (some d) { s with rng := { s.rng with hostBuf := s.rng.hostBuf.drop 4 } }

/-- A host read of RNG_DATA (R384): served from the buffer, after a refill, or left waiting (R383). -/
def rngDataRead (wide : Bool) (stall : Nat) (s : State) : State :=
  if !s.rng.hostBuf.isEmpty then rngTake wide 0 s
  else match rngRefill (waitCycle (s.time.cycles + (min stall 4000 * 125 + 7) / 8) s) with
    | some t => rngTake wide (min stall 4000) t
    | none => rngAsk (.hostRead wide) 3 s

/-- End every waiting host read without data (R383, R388). -/
def rngEndReads (s : State) : State :=
  s.rng.queue.foldl (fun s q => match q.who with
    | .hostRead w => rngAnswer w (stallSince s q.at_) none s
    | _ => s) { s with rng := { s.rng with queue := s.rng.queue.filter (fun q => match q.who with | .hostRead _ => false | _ => true) } }

/-! ## Sources -/

/-- Log the new state of a source (R417 type 0x00D0). -/
def logSource (k st : Nat) (s : State) : State := logEntry 0x00D0 k [BitVec.ofNat 8 st] s

/-- Retire an Isolated source whose consecutive failures have reached the limit (R378). -/
def sourceLimit (k : Nat) (s : State) : State :=
  let x := s.rng.source k
  if x.state == .isolated && decide (s.odNat 0x4803 2 ≤ x.fails) then
    let s := updSource k (fun x => { x with state := .retired, since := s.time.cycles }) s
    raiseEvent 19 0 (post { type := 0x4801, source := k, a := x.fails } (logSource k 4 s))
  else s

/-- A raw capture of source `k` ends without its data, where one is in progress. -/
def captureLost (k : Nat) (s : State) : State :=
  if (s.rng.source k).state == .capture then { s with rng := { s.rng with rawStatus := 0 } } else s

/-- Isolate a source with its count of consecutive failures; its undelivered blocks are discarded (R377, R378). -/
def sourceIsolate (k fails : Nat) (s : State) : State :=
  updSource k (fun x => { x with state := .isolated, fails := fails, since := s.time.cycles, blocks := [], run := 0, healthyFrom := none }) (captureLost k s)

/-- A Healthy source fails a continuous test (R377, R378); a source in Capture is isolated the same way, a Starting
one counts one more failure. -/
def sourceFail (k : Nat) (t : HealthTest) (s : State) : State :=
  let x := s.rng.source k
  let s := { s with rng := { s.rng with health := s.rng.health.bump (2 * k + match t with | .repetition => 0 | .proportion => 1) 1 } }
  match x.state with
  | .healthy | .capture => sourceLimit k (raiseEvent 18 0 (logSource k 3 (sourceIsolate k 1 s)))
  | .starting => sourceLimit k (sourceIsolate k (x.fails + 1) s)
  | _ => s

/-- The repetition count test over raw bits: whether a run reaches the cutoff, and the last bit and its run after them (R377; log 8). -/
def repetitionTest (cut : Nat) : List Bool → Bool → Nat → Bool × Bool × Nat
  | [], b, n => (false, b, n)
  | x :: t, b, n =>
    let m := if x == b then n + 1 else 1
    let r := repetitionTest cut t x m
    (decide (cut ≤ m) || r.1, r.2)

/-- The adaptive proportion test over one window: whether its first bit occurs as often as the cutoff (R377; log 8). -/
def proportionTest (cut : Nat) (bits : List Bool) : Bool := decide (cut ≤ bits.count (bits.headD false))

/-- Which continuous test 1,024 raw bits of a source fail, at the cutoffs in force (R377). -/
def testFailed (s : State) (x : Source) (raw : Octets) : Option HealthTest :=
  if (repetitionTest (s.odNat 0x4802 1) (bitsMsb raw) x.lastBit x.run).1 then some .repetition
  else if proportionTest (s.odNat 0x4802 2) (bitsMsb raw) then some .proportion
  else none

/-- The run of equal bits after raw bits. -/
def Source.ran (raw : Octets) (x : Source) : Source :=
  let r := (repetitionTest 0 (bitsMsb raw) x.lastBit x.run).2
  { x with lastBit := r.1, run := r.2 }

/-- Cycles that 1,024 raw bits take at 4 Mb/s (R374). -/
def blockTime : Nat := cyclesUs 256

/-- A conditioned block of a Healthy source is due: 1,024 raw bits since the last one, tested and compressed (R375, R377). -/
def blockReady (k : Nat) (raw : Octets) (s : State) : State :=
  let x := s.rng.source k
  if x.state != .healthy then s
  else
    let s := waitCycle (max x.since x.blockAt + blockTime) s
    match testFailed s x raw with
    | some t => sourceFail k t s
    | none => updSource k (fun x => let c := condRun x.cond raw; { x.ran raw with cond := c, blocks := x.blocks ++ [c], blockAt := s.time.cycles }) s

/-- A Starting source has given its 1,024 raw bits, which are tested and discarded (R378). -/
def sourceTested (k : Nat) (raw : Octets) (s : State) : State :=
  let x := s.rng.source k
  if x.state != .starting then s
  else
    let s := waitCycle (x.since + blockTime) s
    match testFailed s x raw with
    | some t => sourceFail k t s
    | none =>
      let low := s.rng.degraded
      let s := updSource k (fun x => { x.ran raw with state := .healthy, since := s.time.cycles, healthyFrom := some (x.healthyFrom.getD s.time.cycles) }) s
      { s with rng := { s.rng with fifth := s.rng.fifth || (low && !s.rng.degraded) } }

/-- Start the sources of a half (R378 Off to Starting). -/
def sourcesStart (h : Nat) (s : State) : State :=
  (List.range 4).foldl (fun s i => updSource (4 * h + i)
    (fun x => if x.state == .off then { x with state := .starting, since := s.time.cycles } else x) s) s

/-- Take the sources of a half to Off; blocks are discarded; a Retired source leaves that state at a power-on reset only (R378). -/
def sourcesOff (h : Nat) (s : State) : State :=
  (List.range 4).foldl (fun s i => updSource (4 * h + i)
    (fun x => if x.state == .retired then x else { x with state := .off, blocks := [], since := s.time.cycles, run := 0, healthyFrom := none }) (captureLost (4 * h + i) s)) s

/-- Put a half into reset: the other expander serves if this one did (R387). -/
def halfReset (h cause : Nat) (s : State) : State :=
  let other := 1 - h
  let wasServing := s.rng.serving == h
  let s := sourcesOff h (countDomainReset (70 + h) cause (setDomain (70 + h) 3 s))
  let g := { (s.rng.setHalf h none) with inReset := if s.rng.inReset.contains h then s.rng.inReset else h :: s.rng.inReset }
  let g := if wasServing then { g with serving := other, count := 0, counters := g.counters.bump 7 1 } else g
  { s with rng := g }

/-- Overwrite expander and conditioner states and end host reads (R388). -/
def rngZeroize (s : State) : State :=
  let s := rngEndReads s
  let src := (List.range 8).foldl (fun (t : Tab Source) k => t.upd k {} (fun x => { x with cond := 0, blocks := [] })) s.rng.sources
  { s with rng := { s.rng with exp0 := none, exp1 := none, sources := src } }

/-! ## Serving -/

/-- Requests in the order of service: class 1 first, oldest first (R382). -/
def rngHead (q : List RngReq) : Option RngReq :=
  match q.filter (fun r => r.cls == 1) with
  | r :: _ => some r
  | [] => match q.filter (fun r => r.cls == 2) with
    | r :: _ => some r
    | [] => q.head?

/-- Remove the first request equal to `r`. -/
def rngRemove (r : RngReq) (s : State) : State := { s with rng := { s.rng with queue := s.rng.queue.erase r } }

/-- Give a spindle its mask seed: count 0, generator reseeded (R181). -/
def maskSeed (sp : Nat) (w : W256) (s : State) : State :=
  { s with fab := { s.fab with spindles := s.fab.spindles.upd sp {} (fun x => { x with mask := w, maskCount := 0, maskFull := false, reseedAsked := false }) } }

/-- Open an enrollment session with drawn octets: session number, ephemeral scalar and Np, in this order (log 37); the offer is
signed with the identity key, whose per-signature value is open (log 5; R237, R238). -/
def enrollOffer (nk o : Octets) (s : State) : State :=
  let number := leAt o 0 4
  let dp := beAt o 4 48 % (p384N - 1) + 1
  let np := slice o 52 32
  let qp := ptOctets (ptMul dp p384G)
  let m := leBytes 4 number ++ qp ++ np ++ padTo 32 nk
  let k := openValue s
  let sig := ecdsaSign identityD (k.1 % (p384N - 1) + 1) m
  let s := k.2
  { s with keys := { s.keys with enroll := some { number := number, dp := dp, qp := qp, np := np, nk := padTo 32 nk, at_ := s.time.cycles }, offer := m ++ sig, events := s.keys.events ||| 0x0080 } }

/-- Octets a consumer asks for. -/
def Consumer.octets : Consumer → Nat
  | .maskReseed _ | .spareSeed _ | .hostRead _ | .bbk | .challenge => 32
  | .memoryKeys => 512
  | .slotCheck => 8
  | .enroll _ => 84

/-- The fields of a copy that its check covers, as octets (R254). -/
def Copy.octets (c : Copy) : Octets :=
  [BitVec.ofNat 8 c.key.length, BitVec.ofNat 8 c.usage, BitVec.ofNat 8 c.suite, BitVec.ofNat 8 c.flags] ++ beBytes 8 c.keyId ++ beBytes 6 c.notAfter ++ c.key

/-- The check a copy of slot `target` should carry. -/
def copyCheck (s : State) (target : Nat) (c : Copy) : W32 := Config.slotCheck s.keys.checkKey target c.octets

/-- Take a slot-check key into use: the KEKs restored before it was drawn are checked under it (R231, R241, R254). -/
def slotKeyTake (w : W64) (s : State) : State :=
  let s := { s with keys := { s.keys with checkKey := w } }
  let one (n : Nat) (c : Copy) : Copy := { c with check := copyCheck s (0x8000 + n) c }
  { s with keys := { s.keys with kek := s.keys.kek.mapAll (fun n x => if x.state == .filled then { x with a := one n x.a, b := one n x.b } else x) } }

/-- What a consumer does with the octets it is given. -/
def rngGive (who : Consumer) (o : Octets) (s : State) : State :=
  match who with
  | .maskReseed sp => let s := maskSeed sp (BitVec.ofNat 256 (beNat o)) s
    { s with rng := { s.rng with counters := s.rng.counters.bump 5 1 } }
  | .spareSeed sp => maskSeed sp (BitVec.ofNat 256 (beNat o)) s
  | .hostRead _ => s
  | .memoryKeys => { s with mpu := { s.mpu with keys := (List.range 16).map (fun i => (i, BitVec.ofNat 256 (beNat (slice o (32 * i) 32)))) } }
  | .bbk => { s with rest := { s.rest with bbk := some (BitVec.ofNat 256 (beNat o)) },
                     keys := { s.keys with srk := some (BitVec.ofNat 256 (beNat (kdf frk "LLX SRK" o 256))) } }
  | .slotCheck => slotKeyTake (BitVec.ofNat 64 (beNat o)) s
  | .challenge => { s with rest := { s.rest with challenge := o } }
  | .enroll nk => enrollOffer nk o s

/-- Serve one waiting request where the expander can (R381, R382). -/
def rngServe (r : RngReq) (s : State) : State :=
  match r.who with
  | .hostRead w => match rngRefill s with
    | some t => rngTake w (stallSince t r.at_) (rngRemove r t)
    | none => s
  | _ => match rngDraw r.who.octets s with
    | some (o, t) => rngGive r.who o (rngRemove r t)
    | none => s

/-- An expander is to be instantiated or reseeded now: the interval has passed in requests, a fifth source has become Healthy, or an
expander out of reset has no state (R379, R380, R388). -/
def reseedDue (s : State) : Bool :=
  s.rng.fifth || decide (s.odNat 0x4804 2 ≤ s.rng.count) ||
  (List.range 2).any (fun h => (s.rng.half h).isNone && !s.rng.inReset.contains h)

/-- Reseed or instantiate both expanders and clear the counters, 1 s after the last time where nothing asks for it before (R379, R380,
R388); needs five Healthy sources. -/
def rngReseed (s : State) : State :=
  if s.rng.degraded || !s.rng.started then s
  else
    let s := if reseedDue s then s else waitCycle (s.rng.reseedAt + cyclesUs 1000000) s
    let g := s.rng.seedHalf s.rng.serving
    let done := g.counters != s.rng.counters
    let g := g.seedHalf (1 - g.serving)
    { s with rng := if done then { g with count := 0, reseedAt := s.time.cycles, wasBlocked := false, fifth := false } else g }

/-! ## Test access (R389, R390) -/

/-- The conditioner known-answer test from the all-zero state. -/
def conditionerTest (input : Octets) : Octets := blockOctets (condRun 0 (padTo 128 input))

/-- The expander known-answer test of a vector laid out as R390. -/
def expanderTest (v : Octets) : Octets :=
  let e := octet v 1
  let p := octet v 2
  let a := octet v 3
  let re := bitAt (octet v 0) 0
  let o1 := 4 + e + 16
  let d := drbgInstantiate (slice v 4 e) (slice v (4 + e) 16) (slice v o1 p)
  let o2 := o1 + p
  let d := if re then drbgReseed (slice v o2 e) (slice v (o2 + e) a) d else d
  let o3 := if re then o2 + e + a else o2
  let g1 := drbgGenerate (slice v o3 a) 64 d
  (drbgGenerate (slice v (o3 + a) a) 64 g1.2).1

/-- A vector's lengths agree with R390. -/
def expanderVectorOk (v : Octets) : Bool :=
  let e := octet v 1
  let p := octet v 2
  let a := octet v 3
  v.isEmpty || (decide (4 ≤ v.length) && decide (32 ≤ e) && decide (e ≤ 64) && decide (p ≤ 48) && decide (a ≤ 48) &&
    decide (v.length = 4 + e + 16 + p + (if bitAt (octet v 0) 0 then e + a else 0) + 2 * a))

/-- Whether a raw capture of source `k` may start (R389). -/
def captureOk (s : State) (k : Nat) : Bool := (s.rng.source k).state == .healthy && decide (6 ≤ s.rng.healthy)

/-- Start a raw capture. -/
def captureStart (k : Nat) (s : State) : State :=
  let s := updSource k (fun x => { x with state := .capture, since := s.time.cycles, blocks := [] }) s
  { s with rng := { s.rng with rawStatus := 2 } }

/-! ## Commands -/

/-- R375. -/
def execConditionedBlockReady (source : Fin 8) (raw : Octets) (s : State) : Out := .next (blockReady source raw s)

/-- R377, R378. -/
def execSourceHealthFailure (source : Fin 8) (test : HealthTest) (s : State) : Out := .next (sourceFail source test s)

/-- R378. -/
def execSourceStartupComplete (source : Fin 8) (raw : Octets) (s : State) : Out := .next (sourceTested source raw s)

/-- R378: the retest delay (OD 0x4803.01) has passed, or the limit is reached. -/
def execSourceRetest (source : Fin 8) (s : State) : Out :=
  let x := s.rng.source source
  .next (if x.state == .isolated then
    (if x.fails < s.odNat 0x4803 2 then
      let s := waitCycle (x.since + cyclesUs (1000 * s.odNat 0x4803 1)) s
      updSource source (fun x => { x with state := .starting, since := s.time.cycles }) s
     else sourceLimit source s) else s)

/-- R378: consecutive failures cleared by 8 hours Healthy. -/
def execSourceFailuresCleared (source : Fin 8) (s : State) : Out :=
  let x := s.rng.source source
  .next (match x.healthyFrom with
    | some c => updSource source (fun x => { x with fails := 0 }) (waitCycle (c + cyclesUs 28800000000) s)
    | none => s)

/-- R379, R380, R388. -/
def execExpanderReseed (s : State) : Out := .next (rngReseed s)

/-- R387. -/
def execExpanderFault (half : Fin 2) (s : State) : Out := .next (halfReset half 2 s)

/-- R384, R385. -/
def execRngDataRead (wide : Bool) (stall : BitVec 16) (s : State) : Out := .next (rngDataRead wide stall.toNat s)

/-- R378, R389: captured bits never enter a conditioner. -/
def execRawCaptureComplete (data : Octets) (s : State) : Out :=
  .next (match (List.range 8).find? (fun k => (s.rng.source k).state == .capture) with
    | some k =>
      let s := waitCycle ((s.rng.source k).since + cyclesUs 262144) s
      let s := updSource k (fun x => { x with state := .starting, since := s.time.cycles, run := 0 }) s
      { s with rng := { s.rng with rawData := data, rawStatus := 1 } }
    | none => s)

end Sys2Proof.Machine
end

