-- ==== Sys2Proof/Machine/Mpu.lean ====
section
/-! DEFINITION. The memory protection unit: addresses and regions, encrypted lines, counters and the tree, metadata
copies, parity, poison, scrub, fault injection and the raw view (R343 to R373). -/
namespace Sys2Proof.Machine

/-! ## Regions and physical places (R343 to R346) -/

/-- A region of the data space: number (its row of R344, from 0), first and last address, key identifiers allowed. -/
structure Region where
  num : Nat
  lo : Nat
  hi : Nat
  keys : List Nat

/-- The mapped regions of R344. -/
def regions : List Region := [
  { num := 0, lo := 0x000000000, hi := 0x07FFFFFFF, keys := [0, 2, 4, 6] },
  { num := 1, lo := 0x080000000, hi := 0x0FFFFFFFF, keys := [1, 3, 5, 7] },
  { num := 2, lo := 0x100000000, hi := 0x11FFFFFFF, keys := [8] },
  { num := 3, lo := 0x120000000, hi := 0x12FFFFFFF, keys := [9] },
  { num := 4, lo := 0x130000000, hi := 0x1307FFFFF, keys := [10] },
  { num := 5, lo := 0x130800000, hi := 0x1308FFFFF, keys := [12] },
  { num := 7, lo := 0x134000000, hi := 0x137FFFFFF, keys := [11] }]

/-- The mapped region a data-space address lies in. -/
def regionOf (a : Nat) : Option Region := regions.find? (fun r => decide (r.lo ≤ a) && decide (a ≤ r.hi))

/-- The number of the region of a block, 255 outside every region. -/
def blockRegion (b : Nat) : Nat := match regionOf (b * 4096) with | some r => r.num | none => 255

/-- Key identifier and data-space address of an internal address the MPU accepts (R343). -/
def mpuAddress (addr : Nat) : Option (Nat × Nat) :=
  let k := addr / 2 ^ 44 % 16
  let a := addr % 2 ^ 36
  if addr / 2 ^ 36 % 256 ≠ 0 then none
  else match regionOf a with
    | some r => if r.keys.contains k then some (k, a) else none
    | none => none

/-- Physical address of a data line's tag (R345). -/
def tagAddr (a : Nat) : Nat := 0x140000000 + a / 64 * 8
/-- Physical address of metadata line `m`: a counter line, or a level-1 node from 1,310,720 on. -/
def metaAddr (m : Nat) : Nat := if m < 1310720 then 0x170000000 + 64 * m else 0x175000000 + 64 * (m - 1310720)
/-- Physical address of a metadata line's tag. -/
def metaTagAddr (m : Nat) : Nat := 0x176000000 + 8 * m
/-- The mirror of a primary metadata address. -/
def mirror (p : Nat) : Nat := p ^^^ 0x08000800
/-- Physical address of a block's parity line. -/
def parityAddr (b : Nat) : Nat := 0x180000000 + 64 * b

/-- The mapped physical ranges of R345. -/
def physMapped (p : Nat) : Bool :=
  decide (p ≤ 0x167FFFFFF) || (decide (0x170000000 ≤ p) && decide (p ≤ 0x17513FFFF)) ||
  (decide (0x176000000 ≤ p) && decide (p ≤ 0x176FFFFFF)) || (decide (0x178000000 ≤ p) && decide (p ≤ 0x17EFFFFFF)) ||
  (decide (0x180000000 ≤ p) && decide (p ≤ 0x183FFFFFF))

/-- The metadata line at a primary physical address, if it is one. -/
def metaAt (p : Nat) : Option Nat :=
  if 0x170000000 ≤ p ∧ p < 0x170000000 + 64 * 1310720 then some ((p - 0x170000000) / 64)
  else if 0x175000000 ≤ p ∧ p < 0x175000000 + 64 * 20480 then some (1310720 + (p - 0x175000000) / 64)
  else none

/-! ## The HBM as stored octets -/

/-- The canonical form of the HBM: addresses strictly rising. An unlisted address holds nothing the part has written (log 7). -/
def Memory.wf : List Host.Cell → Bool
  | [] => true
  | [_] => true
  | (a, _) :: (b, y) :: t => decide (a < b) && Memory.wf ((b, y) :: t)

/-- The octet stored at a physical address; its power-on contents where nothing has been written. -/
def Memory.byte (m : List Host.Cell) (a : Nat) : Byte := (Tab.find a m).getD (Config.hbmPowerOn a)

/-- Store one octet. -/
def Memory.store (a : Nat) (b : Byte) (m : List Host.Cell) : List Host.Cell := Tab.put a b m

/-- Store octets from an address on. -/
def Memory.storeAll : Nat → Octets → List Host.Cell → List Host.Cell
  | _, [], m => m
  | a, b :: t, m => Memory.storeAll (a + 1) t (Memory.store a b m)

/-- `n` stored octets from an address on. -/
def Memory.load (m : List Host.Cell) (a n : Nat) : Octets := (List.range n).map (fun i => Memory.byte m (a + i))

/-- Injected errors of the physical line that holds an address. -/
def errorsAt (s : State) (p : Nat) : Nat := s.mpu.broken.get (p / 64) 0

/-- Flipped bits of ECC word `w` of a line, word 0 holding its first 8 octets (R361, R352). -/
def wordFlips (m w : Nat) : Nat := m / 2 ^ (448 - 64 * w) % 2 ^ 64
/-- Number of bits set among the low 64. -/
def popcount (v : Nat) : Nat := (List.range 64).foldl (fun n i => n + bit (v.testBit i)) 0
/-- A word no longer correctable: made so, or with more than one bit flipped. -/
def wordBad (m w : Nat) : Bool := m.testBit (512 + w) || decide (2 ≤ popcount (wordFlips m w))
/-- Errors of a line with word `w` made good. -/
def wordClear (m w : Nat) : Nat :=
  let m := m - wordFlips m w * 2 ^ (448 - 64 * w)
  if m.testBit (512 + w) then m - 2 ^ (512 + w) else m

/-- Set the injected errors of a physical line. -/
def setErrors (line m : Nat) (s : State) : State :=
  { s with mpu := { s.mpu with broken := if m = 0 then s.mpu.broken.drop line else s.mpu.broken.put line m } }

/-- The ECC words that `n` octets from address `p` cover. -/
def wordsOf (p n : Nat) : List Nat := (List.range 8).filter (fun w => decide (p % 64 / 8 ≤ w) && decide (w * 8 < p % 64 + n))

/-- Store octets within one physical line; the words written are whole again. -/
def physWrite (p : Nat) (b : Octets) (s : State) : State :=
  let s := setErrors (p / 64) ((wordsOf p b.length).foldl wordClear (errorsAt s p)) s
  { s with mpu := { s.mpu with hbm := Memory.storeAll p b s.mpu.hbm } }

/-- Count on memory counter `i` (R373). -/
def memCount (i n : Nat) (s : State) : State := { s with mpu := { s.mpu with counters := s.mpu.counters.bump i n } }
/-- Count on metadata cache counter `i`. -/
def cacheCount (i : Nat) (s : State) : State := { s with mpu := { s.mpu with cacheCounters := s.mpu.cacheCounters.bump i 1 } }
/-- Latch memory event bit `i` (OD 0x4401). -/
def memLatch (i : Nat) (s : State) : State := { s with mpu := { s.mpu with latched := s.mpu.latched ||| ((1 : W16) <<< i) } }
/-- Memory-integrity event or alarm, latched and sent to the tamper monitor (R362). -/
def memReport (alarm : Bool) (region block : Nat) (s : State) : State :=
  if alarm then memLatch 1 (memoryAlarm region block 1 s) else memLatch 0 (memoryEvent region block 0 s)

/-- Read octets within one physical line: single-bit errors are corrected and counted; none on an uncorrectable word (R361). -/
def physRead (p n : Nat) (s : State) : Option Octets × State :=
  let m := errorsAt s p
  let ws := wordsOf p n
  if ws.any (wordBad m) then (none, memCount 1 1 s)
  else if ws.any (fun w => wordFlips m w ≠ 0) then
    (some (Memory.load s.mpu.hbm p n), memCount 0 1 (setErrors (p / 64) (ws.foldl wordClear m) s))
  else (some (Memory.load s.mpu.hbm p n), s)

/-- Stored octets of a line as they stand, with the flipped bits (R371). -/
def rawOctets (s : State) (p : Nat) : Octets :=
  beBytes 64 ((beNat (Memory.load s.mpu.hbm (p / 64 * 64) 64)) ^^^ (errorsAt s p % 2 ^ 512))

/-! ## Line protection (R347 to R349) -/

/-- Key of identifier `k` in octets. -/
def mpuKey (s : State) (k : Nat) : Octets := beBytes 32 (s.mpu.keys.get k 0).toNat

/-- Counter block of sub-block `sub` (R347). -/
def ctrBlock (line major minor sub : Nat) : Octets :=
  beBytes 16 ((line % 2 ^ 32) * 2 ^ 96 + (major % 2 ^ 64) * 2 ^ 32 + (minor % 128) * 2 ^ 25 + sub * 2 ^ 22)

/-- Encrypt or decrypt one line. -/
def lineCrypt (key : Octets) (line major minor : Nat) (d : Octets) : Octets :=
  xorB d ((List.range 4).map (fun i => aesEnc key (ctrBlock line major minor i))).flatten

/-- Tag of a line's stored octets (R348). -/
def lineTag (key : Octets) (line major minor : Nat) (c : Octets) : Octets :=
  let g := ghash (hashKey key) 0 ((blocksOf c).map blockOf ++ [0x200])
  (xorB (octetsOf g) (aesEnc key (ctrBlock line major minor 4))).take 8

/-- Minor counter of child `i`. -/
def Split.minor (c : Split) (i : Nat) : Nat := c.minors.get i 0
/-- The counter of child `i` is 0: never raised (R350). -/
def Split.zeroAt (c : Split) (i : Nat) : Bool := c.major == 0 && c.minor i == 0
/-- A split counter as its 64 octets (R352). -/
def Split.octets (c : Split) : Octets :=
  beBytes 64 (c.major.toNat * 2 ^ 448 + (List.range 64).foldl (fun v i => v + c.minor i * 2 ^ (441 - 7 * i)) 0)
/-- The split counter that 64 octets hold. -/
def Split.ofOctets (b : Octets) : Split :=
  let v := beNat b
  { major := BitVec.ofNat 64 (v / 2 ^ 448),
    minors := ((List.range 64).map (fun i => (i, v / 2 ^ (441 - 7 * i) % 128))).filter (fun p => p.2 ≠ 0) }
/-- Set the minor of child `i`. -/
def Split.setMinor (c : Split) (i n : Nat) : Split := { c with minors := if n = 0 then c.minors.drop i else c.minors.put i n }

/-! ## Poison (R364, R365) -/

/-- Whether a data line is poisoned. -/
def poisoned (s : State) (a : Nat) : Bool :=
  (s.mpu.poison.get (a / 4096) 0).getLsbD (a / 64 % 64) || s.mpu.poisonRegions.contains (blockRegion (a / 4096)) || s.mpu.lost.contains (a / 4096)

/-- Poison lines of a block: its table entry, or the whole region where the table is full (R364). Packet-buffer blocks
need no entry: their next allocation clears them (`Mpu.lost`). -/
def poisonLines (b : Nat) (map : W64) (s : State) : State :=
  let r := blockRegion b
  if r < 2 then s
  else
    let n := popcount (map &&& ~~~(s.mpu.poison.get b 0)).toNat
    match s.mpu.poison.find b with
    | some m => memCount 5 n { s with mpu := { s.mpu with poison := s.mpu.poison.put b (m ||| map), renewed := s.mpu.renewed.erase b } }
    | none =>
      if s.mpu.poison.length < 1024 then
        memCount 5 n { s with mpu := { s.mpu with poison := s.mpu.poison.put b map, renewed := s.mpu.renewed.erase b } }
      else
        memReport true r b { s with mpu := { s.mpu with poisonRegions := if s.mpu.poisonRegions.contains r then s.mpu.poisonRegions else r :: s.mpu.poisonRegions, poisonFull := true } }

/-- Ask the host for a store entry again (R362, R365): region 3 SA store, 4 blob store. -/
def storeRefetch (region index : Nat) (s : State) : State :=
  let e := (region - 3, index)
  if s.mpu.refetch.contains e then s
  else
    let s := { s with mpu := { s.mpu with refetch := if s.mpu.refetch.length < 256 then s.mpu.refetch ++ [e] else s.mpu.refetch } }
    memLatch 3 (memCount 9 1 (post { type := 0x4402, source := region, a := index } s))

/-- Cycles of the 20 ms within which the active controller rewrites a line (R362). -/
def rewriteTime : Nat := cyclesUs 20000

/-- What a lost data line outside the packet buffer comes to (R362). -/
def loseLine (a : Nat) (s : State) : State :=
  let b := a / 4096
  let r := blockRegion b
  let i := a / 64 % 64
  let s := memReport true r b s
  if r = 3 then storeRefetch 3 ((a - 0x120000000) / 256) (poisonLines b ((15 : W64) <<< (i / 4 * 4)) s)
  else if r = 4 then storeRefetch 4 ((a - 0x130000000) / 128) (poisonLines b ((3 : W64) <<< (i / 2 * 2)) s)
  else
    let s := poisonLines b ((1 : W64) <<< i) s
    if r = 2 ∨ r = 7 then { s with mpu := { s.mpu with rewrites := s.mpu.rewrites.put (a / 64) (s.time.cycles + rewriteTime) } } else s

/-! ## Metadata lines (R349, R354, R362) -/

/-- Level-3 node `k`, all zero where its counter in the root is 0 (R350). -/
def level3Of (s : State) (k : Nat) : Split := if s.mpu.root.zeroAt k then {} else s.mpu.level3.get k {}

/-- Level-2 node above level-1 node `j`, all zero where its counter in its parent is 0 (R350). -/
def level2Of (s : State) (j : Nat) : Split :=
  let n := j / 64
  if (level3Of s (n / 64)).zeroAt (n % 64) then {} else s.mpu.level2.get n {}

/-- Tag of a metadata line under its parent's counter (R349). -/
def metaTag (s : State) (m : Nat) (parent : Split) (slot : Nat) (c : Octets) : Octets :=
  lineTag (mpuKey s 15) m parent.major.toNat (parent.minor slot) c

/-- Write both copies of a metadata line with their tags. -/
def metaWrite (m : Nat) (c tag : Octets) (s : State) : State :=
  physWrite (mirror (metaTagAddr m)) tag (physWrite (mirror (metaAddr m)) c (physWrite (metaTagAddr m) tag (physWrite (metaAddr m) c s)))

/-- One copy of a metadata line, with whether it passes against either tag, and whether its own tag was at fault. -/
def metaCopy (m : Nat) (parent : Split) (slot : Nat) (line tag other : Nat) (s : State) : Option Octets × Bool × State :=
  let r := physRead line 64 s
  let t := physRead tag 8 r.2
  match r.1 with
  | none => (none, false, t.2)
  | some c =>
    let want := metaTag t.2 m parent slot c
    if t.1 == some want then (some c, false, t.2)
    else
      let o := physRead other 8 t.2
      if o.1 == some want then (some c, true, o.2)
      else (none, false, if t.1.isSome then memCount 2 1 o.2 else o.2)

/-- Fetch a metadata line from HBM under its parent's counter: primary, else mirror, repaired; none with both lost (R350, R362). -/
def metaFetch (m : Nat) (parent : Split) (slot block : Nat) (s : State) : Option Split × State :=
  if parent.zeroAt slot then (some {}, s)
  else
    let fix (c : Octets) (s : State) : State :=
      memCount 3 1 (memReport false (blockRegion block) block (metaWrite m c (metaTag s m parent slot c) s))
    let p := metaCopy m parent slot (metaAddr m) (metaTagAddr m) (mirror (metaTagAddr m)) s
    match p.1 with
    | some c => (some (Split.ofOctets c), if p.2.1 then fix c p.2.2 else p.2.2)
    | none =>
      let q := metaCopy m parent slot (mirror (metaAddr m)) (mirror (metaTagAddr m)) (metaTagAddr m) p.2.2
      match q.1 with
      | some c => (some (Split.ofOctets c), fix c q.2.2)
      | none => (none, q.2.2)

/-- Check both copies of a metadata line and repair the one that is lost (R362, R366); whether one passed. -/
def metaScrub (m : Nat) (parent : Split) (slot block : Nat) (s : State) : Bool × State :=
  if parent.zeroAt slot then (true, s)
  else
    let fix (c : Octets) (s : State) : State :=
      memCount 3 1 (memReport false (blockRegion block) block (metaWrite m c (metaTag s m parent slot c) s))
    let p := metaCopy m parent slot (metaAddr m) (metaTagAddr m) (mirror (metaTagAddr m)) s
    let q := metaCopy m parent slot (mirror (metaAddr m)) (mirror (metaTagAddr m)) (metaTagAddr m) p.2.2
    match p.1, q.1 with
    | some c, some _ => (true, if p.2.1 || q.2.1 then fix c q.2.2 else q.2.2)
    | some c, none => (true, fix c q.2.2)
    | none, some c => (true, fix c q.2.2)
    | none, none => (false, q.2.2)

/-- Put a metadata line in the cache. -/
def cachePut (m : Nat) (c : Split) (dirty : Bool) (s : State) : State :=
  { s with mpu := { s.mpu with cache := s.mpu.cache.put m { ctr := c, dirty := dirty } } }

/-- Every data line of block `b` is lost: poison it and report (R362). -/
def loseBlock (b : Nat) (s : State) : State :=
  let s := memReport true (blockRegion b) b s
  let s := poisonLines b (BitVec.allOnes 64) s
  match blockRegion b with
  | 3 => (List.range 16).foldl (fun s i => storeRefetch 3 ((b * 4096 - 0x120000000) / 256 + i) s) s
  | 4 => (List.range 32).foldl (fun s i => storeRefetch 4 ((b * 4096 - 0x130000000) / 128 + i) s) s
  | 2 | 7 => { s with mpu := { s.mpu with rewrites := (List.range 64).foldl (fun t i => Tab.put (b * 64 + i) (s.time.cycles + rewriteTime) t) s.mpu.rewrites } }
  | r => if r < 2 ∧ !s.mpu.lost.contains b then memCount 5 64 { s with mpu := { s.mpu with lost := b :: s.mpu.lost } } else s

/-- Level-1 node `j` through the cache; both copies lost poisons the 64 blocks it covers (R362). -/
def node1 (j : Nat) (s : State) : Split × State :=
  match s.mpu.cache.find (1310720 + j) with
  | some l => (l.ctr, cacheCount 0 s)
  | none =>
    let f := metaFetch (1310720 + j) (level2Of s j) (j % 64) (64 * j) (cacheCount 1 s)
    match f.1 with
    | some c => (c, cachePut (1310720 + j) c false f.2)
    | none => ({}, (List.range 64).foldl (fun s i => loseBlock (64 * j + i) s) (cachePut (1310720 + j) {} true f.2))

/-- Counter line of block `b` through the cache. -/
def counterLine (b : Nat) (s : State) : Split × State :=
  match s.mpu.cache.find b with
  | some l => (l.ctr, cacheCount 0 s)
  | none =>
    let n := node1 (b / 64) (cacheCount 1 s)
    let f := metaFetch b n.1 (b % 64) b n.2
    match f.1 with
    | some c => (c, cachePut b c false f.2)
    | none => ({}, loseBlock b (cachePut b {} true f.2))

/-- Tag anew all 64 children of a parent whose major has been raised (R354); a child never written becomes a zero line. -/
def retag (base : Nat) (old new : Split) (s : State) : State :=
  (List.range 64).foldl (fun s i =>
    let m := base + i
    let c := if old.zeroAt i then zeros 64 else
      (if (wordsOf (metaAddr m) 64).any (wordBad (errorsAt s (metaAddr m))) then Memory.load s.mpu.hbm (mirror (metaAddr m)) 64
       else Memory.load s.mpu.hbm (metaAddr m) 64)
    metaWrite m c (metaTag s m new i c) s) s

/-- Raise the counter of child `i` in a parent; a minor past 127 raises the major and clears every minor (R354). -/
def Split.raise (c : Split) (i : Nat) : Split × Bool :=
  if c.minor i < 127 then (c.setMinor i (c.minor i + 1), false) else ({ major := c.major + 1, minors := [] }, true)

/-- Level-2 node `n` takes a new value: the level-3 node counts it, and the root counts that node (R353; log 99). -/
def level2Put (n : Nat) (c : Split) (s : State) : State :=
  let up := ((level3Of s (n / 64)).raise (n % 64)).1
  { s with mpu := { s.mpu with level2 := s.mpu.level2.put n c, level3 := s.mpu.level3.put (n / 64) up, root := (s.mpu.root.raise (n / 64)).1 } }

/-- Write a dirty metadata line back (R354); a level-1 node's cached children go first (R367). -/
def writeBack (m : Nat) (s : State) : State :=
  match s.mpu.cache.find m with
  | none => s
  | some l =>
    if !l.dirty then s
    else if m < 1310720 then
      let n := node1 (m / 64) s
      let r := n.1.raise (m % 64)
      let s := cachePut (1310720 + m / 64) r.1 true n.2
      let s := if r.2 then cacheCount 3 (retag (m / 64 * 64) n.1 r.1 s) else s
      let c := l.ctr.octets
      cacheCount 2 (cachePut m l.ctr false (metaWrite m c (metaTag s m r.1 (m % 64) c) s))
    else
      let j := m - 1310720
      let p := level2Of s j
      let r := p.raise (j % 64)
      let s := level2Put (j / 64) r.1 s
      let s := if r.2 then cacheCount 3 (retag (1310720 + j / 64 * 64) p r.1 s) else s
      let c := l.ctr.octets
      cacheCount 2 (cachePut m l.ctr false (metaWrite m c (metaTag s m r.1 (j % 64) c) s))

/-- Write back what must go before metadata line `m`: the dirty counter lines of a level-1 node. -/
def writeBackChildren (m : Nat) (s : State) : State :=
  if m < 1310720 then s
  else (List.range 64).foldl (fun s i => writeBack (64 * (m - 1310720) + i) s) s

/-- Evict a metadata line. -/
def evict (m : Nat) (s : State) : State :=
  match s.mpu.cache.find m with
  | none => s
  | some _ =>
    let s := writeBack m (writeBackChildren m s)
    { s with mpu := { s.mpu with cache := s.mpu.cache.drop m } }

/-- Write back every dirty metadata line: counter lines, then level-1 nodes (R370). -/
def writeBackAll (s : State) : State :=
  let dirty := (s.mpu.cache.filter (fun p => p.2.dirty)).map Prod.fst
  let s := dirty.foldl (fun s m => if m < 1310720 then writeBack m s else s) s
  ((s.mpu.cache.filter (fun p => p.2.dirty && decide (1310720 ≤ p.1))).map Prod.fst).foldl (fun s m => writeBack m s) s

/-! ## Parity (R363) -/

/-- Parity of a packet-buffer block: its accumulator, else its parity line, else zero. -/
def parityOf (s : State) (b : Nat) : BitVec 512 :=
  match s.mpu.parity.find b with
  | some v => v
  | none => if (Tab.find (parityAddr b) s.mpu.hbm).isSome then BitVec.ofNat 512 (beNat (Memory.load s.mpu.hbm (parityAddr b) 64)) else 0

/-- Write a block's parity line and close its accumulator. -/
def closeParity (b : Nat) (s : State) : State :=
  match s.mpu.parity.find b with
  | none => s
  | some v =>
    let s := physWrite (parityAddr b) (beBytes 64 v.toNat) s
    { s with mpu := { s.mpu with parity := s.mpu.parity.drop b } }

/-- Fold a line's change into the parity of its packet-buffer block; a full block's parity line is written (R363). -/
def foldParity (b : Nat) (old new : Octets) (full : Bool) (s : State) : State :=
  if 2 ≤ blockRegion b then s
  else
    let v := parityOf s b ^^^ BitVec.ofNat 512 (beNat old) ^^^ BitVec.ofNat 512 (beNat new)
    let s := { s with mpu := { s.mpu with parity := s.mpu.parity.put b v } }
    if full then closeParity b s else s

/-! ## Reading and writing lines -/

/-- A data line that its stored copy or tag has lost: rebuilt from parity in the packet buffer, else settled as R362 gives. -/
def recover (key a : Nat) (c : Split) (s : State) : Option Octets × State :=
  let b := a / 4096
  let i := a / 64 % 64
  if blockRegion b < 2 then
    let others := (List.range 64).foldl (fun (v : BitVec 512) k =>
      if k = i ∨ c.minor k = 0 then v else v ^^^ BitVec.ofNat 512 (beNat (Memory.load s.mpu.hbm (b * 4096 + 64 * k) 64))) (parityOf s b)
    let ct := beBytes 64 others.toNat
    let tag := physRead (tagAddr a) 8 s
    let want := lineTag (mpuKey s key) (a / 64) c.major.toNat (c.minor i) ct
    if tag.1 == some want then
      (some (lineCrypt (mpuKey s key) (a / 64) c.major.toNat (c.minor i) ct), memCount 4 1 (memReport false (blockRegion b) b (physWrite a ct tag.2)))
    else (none, memReport true (blockRegion b) b tag.2)
  else (none, loseLine a s)

/-- Read one data line under a key (R359 to R364): its 64 octets, or none for a bus error. -/
def readLine (key a : Nat) (s : State) : Option Octets × State :=
  let a := a / 64 * 64
  if poisoned s a then (none, s)
  else
    let c := counterLine (a / 4096) s
    let minor := c.1.minor (a / 64 % 64)
    if poisoned c.2 a then (none, c.2)
    else if minor = 0 then (some (zeros 64), c.2)
    else
      let d := physRead a 64 c.2
      let t := physRead (tagAddr a) 8 d.2
      match d.1 with
      | none => recover key a c.1 t.2
      | some ct =>
        if t.1 == some (lineTag (mpuKey t.2 key) (a / 64) c.1.major.toNat minor ct) then
          (some (lineCrypt (mpuKey t.2 key) (a / 64) c.1.major.toNat minor ct), t.2)
        else recover key a c.1 (if t.1.isSome then memCount 2 1 t.2 else t.2)

/-- A block whose key register is at its end is retired (R358). -/
def retireBlock (b : Nat) (s : State) : State :=
  if s.mpu.retired.contains b then s
  else
    let s := memLatch 4 (memCount 7 1 { s with mpu := { s.mpu with retired := b :: s.mpu.retired } })
    if blockRegion b < 2 then s
    else post { type := 0x4401, source := blockRegion b, a := b } (poisonLines b (BitVec.allOnes 64) s)

/-- Take a new major counter under a key (R355); none at the register's end. -/
def newMajor (key : Nat) (s : State) : Option (W64 × State) :=
  let r := s.mpu.majors.get key 0
  if r = BitVec.allOnes 64 then none else some (r + 1, { s with mpu := { s.mpu with majors := s.mpu.majors.put key (r + 1) } })

/-- Write the stored octets of one line with its tag under a given counter. -/
def putLine (key a major minor : Nat) (data : Octets) (s : State) : State :=
  let ct := lineCrypt (mpuKey s key) (a / 64) major minor data
  physWrite (tagAddr a) (lineTag (mpuKey s key) (a / 64) major minor ct) (physWrite a ct s)

/-- Write a block again under a new major: every line with a minor that still reads, and the line being written, with
minor 1 (R356, R364). A packet-buffer line that does not read stays lost: its stored octets fail their tag under the new counter. -/
def reencrypt (key a : Nat) (data : Octets) (c : Split) (s : State) : State :=
  let b := a / 4096
  let i := a / 64 % 64
  match newMajor key s with
  | none => retireBlock b s
  | some (maj, s) =>
    let read := (List.range 64).foldl (fun (p : List (Nat × Octets) × State) k =>
      if k = i then (p.1 ++ [(k, data)], p.2)
      else if c.minor k = 0 then p
      else
        let r := readLine key (b * 4096 + 64 * k) p.2
        (match r.1 with | some d => p.1 ++ [(k, d)] | none => p.1, r.2)) ([], s)
    let pb := blockRegion b < 2
    let kept := if pb then (List.range 64).filter (fun k => k = i || c.minor k ≠ 0) else read.1.map Prod.fst
    let s := read.1.foldl (fun s p => putLine key (b * 4096 + 64 * p.1) maj.toNat 1 p.2 s) read.2
    let s := cachePut b { major := maj, minors := kept.map (fun k => (k, 1)) } true s
    if pb then
      { s with mpu := { s.mpu with parity := s.mpu.parity.put b (kept.foldl (fun v k =>
        v ^^^ BitVec.ofNat 512 (beNat (Memory.load s.mpu.hbm (b * 4096 + 64 * k) 64))) 0) } }
    else s

/-- A written line is poisoned no longer; the entry goes with its last line (R364). -/
def clearPoison (a : Nat) (s : State) : State :=
  let b := a / 4096
  match s.mpu.poison.find b with
  | none => s
  | some m =>
    if s.mpu.retired.contains b then s
    else
      let m := m &&& ~~~((1 : W64) <<< (a / 64 % 64))
      { s with mpu := { s.mpu with poison := if m = 0 then s.mpu.poison.drop b else s.mpu.poison.put b m,
                                   rewrites := s.mpu.rewrites.drop (a / 64) } }

/-- Write one whole data line under a key (R354, R356, R364). -/
def writeLine (key a : Nat) (data : Octets) (s : State) : State :=
  let a := a / 64 * 64
  let b := a / 4096
  let i := a / 64 % 64
  let c := counterLine b s
  let s := { c.2 with mpu := { c.2.mpu with owner := if blockRegion b < 2 then c.2.mpu.owner.put b key else c.2.mpu.owner } }
  if s.mpu.retired.contains b ∨ s.mpu.poisonRegions.contains (blockRegion b) then s
  else if (s.mpu.poison.find b).isSome && !s.mpu.renewed.contains b then
    clearPoison a { (reencrypt key a data c.1 s) with mpu := { (reencrypt key a data c.1 s).mpu with renewed := b :: s.mpu.renewed } }
  else if c.1.minor i < 127 then
    let n := c.1.minor i + 1
    let old := if n = 1 then zeros 64 else Memory.load s.mpu.hbm a 64
    let s := putLine key a c.1.major.toNat n data s
    let ctr := c.1.setMinor i n
    let s := cachePut b ctr true s
    clearPoison a (foldParity b old (Memory.load s.mpu.hbm a 64) (decide (ctr.minors.length = 64)) s)
  else memCount 6 1 (clearPoison a (reencrypt key a data c.1 s))

/-- A request the MPU refuses (R343): bus error, key-ID mismatch, memory-integrity alarm. -/
def refuseRequest (addr : Nat) (s : State) : State :=
  let s := { s with mpu := { s.mpu with lastRead := none } }
  memLatch 2 (memCount 10 1 (memReport true (blockRegion (addr % 2 ^ 36 / 4096)) (addr % 2 ^ 36 / 4096) s))

/-- Read `n` lines from an accepted address. -/
def readLines (key a : Nat) : Nat → State → Option Octets × State
  | 0, s => (some [], s)
  | n + 1, s =>
    let r := readLine key a s
    match r.1 with
    | none => (none, r.2)
    | some d =>
      let t := readLines key (a + 64) n r.2
      (t.1.map (d ++ ·), t.2)

/-- Write octets at an address within one line: a whole line, or a read, a merge and a write (R351). -/
def writeOctets (key a : Nat) (d : Octets) (s : State) : State :=
  let d := d.take (64 - a % 64)
  if d.length = 64 then writeLine key a d s
  else
    let r := readLine key a s
    match r.1 with
    | none => r.2
    | some old => writeLine key a (patch old (a % 64) d) r.2

/-- The 16 memory keys are in place (R368). -/
def mpuReady (s : State) : Bool := s.mpu.keys.length == 16

/-- Octets that pass the FIFO toward the stack of a data-space address, line by line (R20). -/
def stackPass (a : Nat) : Nat → State → State
  | 0, s => s
  | n + 1, s => stackPass (a + 64) n (edgePass (edgeStack a) 64 s)

/-- Write octets over whole lines from an aligned address. -/
def writeOver (key a : Nat) : List Octets → State → State
  | [], s => s
  | d :: t, s => writeOver key (a + 64) t (writeLine key a (padTo 64 d) (edgePass (edgeStack a) 64 s))

/-- Data-space address of a tree-store line (R58, R344). -/
def treeAt (line : Nat) : Nat := 0x100000000 + 64 * line

/-- Write tree-store lines to their backing copy (R38). -/
def treeWrite (l : List (Nat × BitVec 512)) (s : State) : State :=
  if mpuReady s then l.foldl (fun s q => writeOver 8 (treeAt q.1) [beBytes 64 q.2.toNat] s) s else s

/-- Write what the active controller has recorded to its checkpoint, in full (R38, R466; log 110). -/
def controlWrite (s : State) : State :=
  if mpuReady s then writeOver 11 0x134000000 (recordsOf 64 s.ctl.recorded) s else s

/-- The active controller rewrites the tree-store and checkpoint lines whose time has come: those it has lost (R362), and all of them after
a zeroization (R369). A line that no live cut uses is written as zeros. -/
def settleRewrites (s : State) : State :=
  if !mpuReady s then s
  else
    let due := s.mpu.rewrites.filter (fun p => decide (p.2 ≤ s.time.cycles))
    let lost := s.mpu.treeLost.any (fun c => decide (c ≤ s.time.cycles))
    let lines := (due.filter (fun p => blockRegion (p.1 / 64) == 2)).map (fun p => (p.1 - 0x4000000, s.cls.lines.get (p.1 - 0x4000000) 0))
    let s := { s with mpu := { s.mpu with rewrites := s.mpu.rewrites.filter (fun p => decide (s.time.cycles < p.2)), treeLost := if lost then none else s.mpu.treeLost } }
    let s := treeWrite (if lost then s.cls.lines else lines) s
    if lost || due.any (fun p => blockRegion (p.1 / 64) == 7) then controlWrite s else s

/-- Write one SA store entry (256 octets) or blob store entry (128) with a blob; the re-fetch entry goes (R262, R365). -/
def storeWrite (sa : Bool) (i : Nat) (blob : Octets) (s : State) : State :=
  let s := if sa then writeOver 9 (0x120000000 + 256 * i) (recordsOf 64 (padTo 256 blob)) s
           else writeOver 10 (0x130000000 + 128 * i) (recordsOf 64 (padTo 128 blob)) s
  { s with mpu := { s.mpu with refetch := s.mpu.refetch.erase (if sa then 0 else 1, i) } }

/-- Read a store entry: its octets, or none for a bus error. -/
def storeRead (sa : Bool) (i : Nat) (s : State) : Option Octets × State :=
  if sa then readLines 9 (0x120000000 + 256 * i) 4 (stackPass (0x120000000 + 256 * i) 4 s)
  else readLines 10 (0x130000000 + 128 * i) 2 (stackPass (0x130000000 + 128 * i) 2 s)

/-! ## The packet buffer (R285, R357, R363; log 101) -/

/-- Give a packet-buffer block to a key: a new major counter, every minor 0 (R355, R357); whether it could be given. -/
def allocate (key b : Nat) (s : State) : Bool × State :=
  match newMajor key s with
  | none => (false, retireBlock b s)
  | some (maj, s) =>
    let s := closeParity b s
    let s := cachePut b { major := maj } true (counterLine b s).2
    (true, { s with mpu := { s.mpu with parity := s.mpu.parity.put b 0, owner := s.mpu.owner.put b key, lost := s.mpu.lost.erase b } })

/-- The lowest block of a direction's half of the packet buffer that holds nothing live and is not retired (R358). -/
def freeBlock (s : State) (d : Dir) : Option Nat :=
  let free (b : Nat) : Bool := (s.mpu.live.find b).isNone && !s.mpu.retired.contains b
  firstFrom free (min 524288 (s.mpu.live.length + s.mpu.retired.length + 1)) (524288 * d.num)

/-- Change the live count of a block; a block that holds nothing more is freed, and its parity line written (R363). -/
def blockLive (b : Nat) (f : Nat → Nat) (s : State) : State :=
  let n := f (s.mpu.live.get b 0)
  if n = 0 then closeParity b { s with mpu := { s.mpu with live := s.mpu.live.drop b } }
  else { s with mpu := { s.mpu with live := s.mpu.live.put b n } }

/-- Address of the next line for an owner whose open block is `o`, the open block after it, and the state; none where no block can
be given. -/
def nextLine (key : Nat) (d : Dir) (o : Option (Nat × Nat)) (s : State) : Option (Nat × Option (Nat × Nat) × State) :=
  match o with
  | some (b, i) =>
    if 63 ≤ i then some (4096 * b + 64 * i, none, s) else some (4096 * b + 64 * i, some (b, i + 1), blockLive b (· + 1) s)
  | none =>
    match freeBlock s d with
    | none => none
    | some b =>
      let r := allocate key b s
      if r.1 then some (4096 * b, some (b, 1), blockLive b (fun _ => 2) r.2) else none

/-- Write lines one after another: their addresses, the open block after them, and the state (R285). -/
def pbWrite (key : Nat) (d : Dir) : Option (Nat × Nat) → List Octets → State → Option (List Nat × Option (Nat × Nat) × State)
  | o, [], s => some ([], o, s)
  | o, x :: t, s =>
    match nextLine key d o s with
    | none => none
    | some (a, o, s) => match pbWrite key d o t (writeLine key a (padTo 64 x) s) with
      | none => none
      | some (l, o, s) => some (a :: l, o, s)

/-- Read lines: their octets one after another, or none where one is lost (R362). -/
def pbRead (key : Nat) : List Nat → State → Option Octets × State
  | [], s => (some [], s)
  | a :: t, s =>
    let r := readLine key a s
    match r.1 with
    | none => (none, r.2)
    | some d =>
      let q := pbRead key t r.2
      (q.1.map (d ++ ·), q.2)

/-- The lines at these addresses hold nothing live any more. -/
def pbFree (l : List Nat) (s : State) : State := l.foldl (fun s a => blockLive (a / 4096) (· - 1) s) s

/-- Frames the packet buffer has lost (R363), counted in OD 0x4403. -/
def memoryLoss (n : Nat) (s : State) : State := memCount 8 n s

/-- Whether a tree-store line reads as invalid because it is poisoned, or waits to be rewritten after a zeroization (R350, R369). -/
def treeLineLost (s : State) (line : Nat) : Bool :=
  (poisoned s (treeAt line) && !((s.mpu.rewrites.get (0x4000000 + line) (s.time.cycles + 1)) ≤ s.time.cycles)) ||
  (match s.mpu.treeLost with | some c => decide (s.time.cycles < c) | none => false)

/-- Keys, majors, tree levels, cache, poison and parity as a power-on reset or a zeroization leaves them; the keys are then drawn (R368, R369). -/
def mpuClear (s : State) : State :=
  rngAsk .memoryKeys 2 { s with mpu := { s.mpu with keys := [], majors := [], level2 := [], level3 := [], root := {}, cache := [], poison := [], poisonRegions := [], poisonFull := false, refetch := [], parity := [], retired := [], live := [], lost := [], owner := [], renewed := [], rewrites := [], scrubbing := false, lastRead := none } }

/-! ## Fault injection and the raw view (R371, R372) -/

/-- A fault-injection record the part accepts. -/
def injectOk (r : Octets) : Bool :=
  let p := leAt r 0 8
  let k := octet r 8
  decide (r.length = 16) && decide (p % 64 = 0) && physMapped p && decide (1 ≤ k) && decide (k ≤ 4) &&
  (k != 1 || decide (leAt r 9 2 ≤ 511)) && (k != 4 || (metaAt p).isSome)

/-- Where the stored tag of the line at a physical address is, if it has one. -/
def tagOf (p : Nat) : Option Nat :=
  if p ≤ 0x13FFFFFFF then some (tagAddr p)
  else match metaAt p with
    | some m => some (metaTagAddr m)
    | none => match metaAt (mirror p) with
      | some m => some (mirror (metaTagAddr m))
      | none => none

/-- Make every word of a physical line uncorrectable. -/
def breakLine (p : Nat) (s : State) : State := setErrors (p / 64) (errorsAt s p % 2 ^ 512 + 255 * 2 ^ 512) s

/-- Carry out a fault-injection record. -/
def injectFault (r : Octets) (s : State) : State :=
  let p := leAt r 0 8
  match octet r 8 with
  | 1 => setErrors (p / 64) (errorsAt s p ^^^ 2 ^ (leAt r 9 2)) s
  | 2 => breakLine p s
  | 3 => match tagOf p with
    | some t => if (Tab.find t s.mpu.hbm).isSome then
        { s with mpu := { s.mpu with hbm := Memory.store t (~~~ Memory.byte s.mpu.hbm t) s.mpu.hbm } } else s
    | none => s
  | 4 => breakLine (mirror p) (breakLine p s)
  | _ => s

/-- Capture the stored octets of a physical line (R371). -/
def rawView (p : Nat) (s : State) : State :=
  { s with mpu := { s.mpu with rawLine := rawOctets s p, rawStatus := 1 + 2 * bit (errorsAt s p ≠ 0) } }

/-! ## Commands -/

/-- R359. Nothing is accepted until all 16 keys are in place (R368). -/
def execMpuRead (addr : BitVec 48) (lines : Fin 9) (s : State) : Out :=
  .next (if !mpuReady s then s
  else match mpuAddress addr.toNat with
    | none => refuseRequest addr.toNat s
    | some (k, a) =>
      let s := settleRewrites s
      if (mpuAddress (addr.toNat + 64 * (lines.val - 1))).isNone then refuseRequest addr.toNat s
      else
        let r := readLines k (a / 64 * 64) lines s
        { r.2 with mpu := { r.2.mpu with lastRead := r.1 } })

/-- R351, R354. -/
def execMpuWrite (addr : BitVec 48) (data : Octets) (s : State) : Out :=
  .next (if !mpuReady s then s
  else match mpuAddress addr.toNat with
    | none => refuseRequest addr.toNat s
    | some (k, a) => writeOctets k a data (settleRewrites s))

/-- R354. -/
def execMetadataEviction (line : Fin 1331200) (s : State) : Out := .next (if mpuReady s then evict line s else s)

/-- R357, R358. -/
def execBlockAllocate (key : BitVec 4) (block : Fin 1310720) (s : State) : Out :=
  let k := key.toNat
  let b := block.val
  .next (if !mpuReady s then s
  else if 2 ≤ blockRegion b ∨ !(match regionOf (b * 4096) with | some r => r.keys.contains k | none => false) then refuseRequest (b * 4096) s
  else if s.mpu.retired.contains b || (s.mpu.live.find b).isSome then s
  else (allocate k b s).2)

/-- The first line of a pass waits until the scrub period has passed since the pass before it began (R366). -/
def scrubStart (first : Bool) (s : State) : State :=
  if first then
    let s := waitCycle s.mpu.scrubAt s
    { s with mpu := { s.mpu with scrubAt := s.time.cycles + cyclesUs (3600000000 * s.odNat 0x4402 1) } }
  else s

/-- R366: the line is checked if written, and with a block's first line its counter line, level-1 node and parity. -/
def execPatrolScrub (line : Fin 83886080) (s : State) : Out :=
  let a := line.val * 64
  let b := line.val / 64
  .next (if !mpuReady s then s
  else
    let s := settleRewrites (scrubStart (line.val == 0) s)
    let s := match regionOf a with
      | none => s
      | some r => (readLine (if r.num < 2 then s.mpu.owner.get b (r.keys.headD 0) else r.keys.headD 0) a s).2
    let s := if line.val % 64 ≠ 0 then s
      else
        let n := node1 (b / 64) s
        let f := metaScrub b n.1 (b % 64) b n.2
        let s := if f.1 then f.2 else match f.2.mpu.cache.find b with
          | some l => cachePut b l.ctr true f.2
          | none => loseBlock b (cachePut b {} true f.2)
        let g := metaScrub (1310720 + b / 64) (level2Of s (b / 64)) (b / 64 % 64) b s
        let s := if g.1 then g.2 else cachePut (1310720 + b / 64) n.1 true g.2
        if blockRegion b < 2 then (physRead (parityAddr b) 64 s).2 else s
    let last := decide (line.val = 83886079)
    let s := { s with mpu := { s.mpu with scrubbing := !last } }
    if last then memCount 11 1 s else s)

end Sys2Proof.Machine
end

