-- ==== Sys2Proof/Machine/Frame.lean ====
section
/-! DEFINITION. Ports and their shapes, Ethernet headers, the gouge's instructions, the key vector, the standard image's
parse, and the correctionField and checksum of PTP frames (R10, R19, R44 to R51, R86, R97, R114, R116, R117, R525). -/
namespace Sys2Proof.Machine

/-! ## Ports -/

/-- Ethernet shape code of pair `k` (R86). -/
def ethShape (s : State) (k : Nat) : Nat := s.odNat 0x2400 (k + 1)

/-- Port Pn exists in Ethernet shape `shape` of its pair (R86). -/
def shapeHas (shape n : Nat) : Bool :=
  match shape with
  | 1 => true
  | 2 => n % 2 == 0
  | 3 | 4 => n % 4 == 0
  | _ => false

/-- Ethernet port Pn exists in the shape in force. -/
def ethPort (s : State) (n : Nat) : Bool := shapeHas (ethShape s (n / 4)) n

/-- Rate in Gb/s of a port of an Ethernet shape. -/
def shapeGbps : Nat → Nat
  | 1 => 100
  | 2 => 200
  | 3 => 400
  | 4 => 800
  | _ => 0

/-- Rate of port Pn in Gb/s, 0 where it does not exist. -/
def portGbps (s : State) (n : Nat) : Nat := if ethPort s n then shapeGbps (ethShape s (n / 4)) else 0

/-- OTN shape of pair `k`: the number of slices, 0 where the pair is not in OTN mode (R127). -/
def otnShape (s : State) (k : Nat) : Nat := s.odNat 0x2800 (k + 1)

/-- Port Pn is the port of an OTUCn (R10). -/
def otnPort (s : State) (n : Nat) : Bool := n % 4 == 0 && decide (0 < otnShape s (n / 4))

/-- The cluster of the frame with sequence number `q` on port Pn: of its group, the two of an 800GbE port taking its frames in turn as
they are accepted, and the partner of one in reset (R19, R81; log 104). -/
def clusterOf (s : State) (n : Nat) (q : W32) : Nat :=
  let k := n / 4
  let c := if ethShape s k = 4 then k + q.toNat % 2 else k
  if s.cls.resetClusters.contains c then (if c % 2 = 0 then c + 1 else c - 1) else c

/-- A cluster can parse: it is not in reset. -/
def clusterUp (s : State) (c : Nat) : Bool := !s.cls.resetClusters.contains c

/-- The 32-bit FCS of IEEE 802.3 and RFC 1662 over octets, as the four octets that follow them: the reflected CRC-32 register after
them, complemented (PRESUMED, log 105). -/
def crcStep (c : BitVec 32) (b : BitVec 8) : BitVec 32 :=
  (List.range 8).foldl (fun (c : BitVec 32) _ => if c.getLsbD 0 then (c >>> 1) ^^^ 0xEDB88320 else c >>> 1) (c ^^^ b.setWidth 32)
def fcs32 (d : Octets) : Octets := leBytes 4 (~~~ (d.foldl crcStep 0xFFFFFFFF)).toNat

/-! ## Header octets -/

/-- Big-endian 16-bit number at an offset. -/
def be16 (d : Octets) (o : Nat) : Nat := beAt d o 2

/-- TPIDs of a VLAN tag (R49). -/
def isTpid (tpid e : Nat) : Bool := e == 0x8100 || e == 0x88A8 || e == tpid

/-- Number of VLAN tags after the addresses, at most two. -/
def tagCount (tpid : Nat) (d : Octets) : Nat :=
  if isTpid tpid (be16 d 12) then (if isTpid tpid (be16 d 16) then 2 else 1) else 0

/-- The programmable TPID. -/
def State.tpid (s : State) : Nat := s.odNat 0x2002 1

/-! ## Key vector (R50) -/

/-- Field [hi:lo] of a key vector. -/
def kvGet (kv : BitVec 512) (hi lo : Nat) : Nat := bits kv.toNat hi lo

/-- Write field [hi:lo] of a key vector. -/
def kvSet (hi lo v : Nat) (kv : BitVec 512) : BitVec 512 :=
  let m := (2 ^ (hi + 1 - lo) - 1) * 2 ^ lo
  (kv &&& ~~~ (BitVec.ofNat 512 m)) ||| BitVec.ofNat 512 (v % 2 ^ (hi + 1 - lo) * 2 ^ lo)

/-- Parse flag `i` of R51. -/
def kvFlag (kv : BitVec 512) (i : Nat) : Bool := kv.getLsbD (482 + i)

/-- Set parse flag `i`. -/
def kvRaise (i : Nat) (kv : BitVec 512) : BitVec 512 := kv ||| BitVec.ofNat 512 (2 ^ (482 + i))

/-- Tag count of the key vector. -/
def kvTags (kv : BitVec 512) : Nat := kvGet kv 345 344

/-- EtherType after the tags. -/
def kvEtherType (kv : BitVec 512) : Nat := kvGet kv 343 328

/-- A key vector with the fields hardware writes at the start of a parse. -/
def kvStart (p : PD) (cut : Nat) : BitVec 512 := kvSet 511 507 p.port (kvSet 506 506 p.dir.num (kvSet 505 498 cut 0))

/-! ## SecTAG -/

/-- Offset of the octet after the MACsec EtherType, for `t` tags. -/
def secOff (t : Nat) : Nat := 14 + 4 * t

/-- TCI and AN octet. -/
def tci (d : Octets) (t : Nat) : Nat := octet d (secOff t)
/-- SC bit. -/
def tciSC (d : Octets) (t : Nat) : Bool := bitAt (tci d t) 5
/-- Octets of a SecTAG after its EtherType. -/
def secTagLen (d : Octets) (t : Nat) : Nat := if tciSC d t then 14 else 6
/-- Length of the secure data of a frame of `len` octets without FCS; none where it cannot hold SecTAG and ICV. -/
def secureLen (d : Octets) (t len : Nat) : Option Nat :=
  let h := secOff t + secTagLen d t
  if h + 16 ≤ len then some (len - h - 16) else none

/-- SecTAG malformed (R51 flag 9). -/
def secMalformed (d : Octets) (t len : Nat) : Bool :=
  let x := tci d t
  let sl := octet d (secOff t + 1)
  bitAt x 7 || (bitAt x 5 && (bitAt x 6 || bitAt x 4)) || (!bitAt x 3 && bitAt x 2) || decide (sl / 64 ≠ 0) ||
  (sl != 0 && (secureLen d t len != some sl))

/-- SCI of a frame's SecTAG, 0 for none (R97): of the SecTAG alone on S2L, derived on L2S. R97 has no row for SC = 0 with ES = 1 and
SCB = 1: the model uses SCI 0 (DESIGN CHOICE, log 114). -/
def sciOf (s : State) (p : PD) (d : Octets) (t : Nat) : Nat :=
  let x := tci d t
  let own := beAt d (secOff t + 6) 8
  match p.dir with
  | .s2l => if bitAt x 5 then own else 0
  | .l2s =>
    if bitAt x 5 then (if bitAt x 6 || bitAt x 4 then 0 else own)
    else if bitAt x 6 then (if bitAt x 4 then 0 else beAt d 6 6 * 65536 + 1)
    else match s.keys.sc.find? (fun q => q.2.valid && q.2.rx && q.2.implicit && q.2.port == p.port.val) with
      | some q => beNat q.2.sci
      | none => 0

/-! ## The standard image (R49, R50, R51, R525) -/

/-- IPv6 extension headers walked: hop-by-hop, routing, fragment, authentication, destination options (log 10). -/
def isExt (h : Nat) : Bool := [0, 43, 44, 51, 60].contains h

/-- Octets of an extension header. -/
def extLen (h : Nat) (d : Octets) (o : Nat) : Nat :=
  if h = 44 then 8 else if h = 51 then 4 * (octet d (o + 1) + 2) else 8 * (octet d (o + 1) + 1)

/-- What the walk of extension headers found: next header, offset, any, fragment, non-first. -/
structure ExtWalk where
  next : Nat
  off : Nat
  any : Bool := false
  frag : Bool := false
  nonFirst : Bool := false

/-- Walk extension headers inside the window. -/
def extWalk (d : Octets) : Nat → ExtWalk → ExtWalk
  | 0, w => w
  | n + 1, w =>
    if isExt w.next && decide (w.off < 256) then
      let fr := w.next == 44
      extWalk d n { next := octet d w.off, off := w.off + extLen w.next d w.off, any := true, frag := w.frag || fr, nonFirst := w.nonFirst || (fr && decide (be16 d (w.off + 2) / 8 ≠ 0)) }
    else w

/-- Ones' complement sum of 16-bit words. -/
def onesSum : Octets → Nat
  | a :: b :: t => a.toNat * 256 + b.toNat + onesSum t
  | [a] => a.toNat * 256
  | [] => 0

/-- Fold a sum to 16 bits with end-around carry. -/
def foldSum (v : Nat) : Nat := let a := v % 65536 + v / 65536; let a := a % 65536 + a / 65536; a % 65536 + a / 65536

/-- An IPv4 header over `n` octets at `o` has a good checksum. -/
def csumOk (d : Octets) (o n : Nat) : Bool := foldSum (onesSum (padTo n (slice d o n))) == 0xFFFF

/-- Set the Truncated and Window exceeded flags for an extraction up to octet `e` of a frame of `len` octets (R46). -/
def kvReach (e len : Nat) (kv : BitVec 512) : BitVec 512 :=
  let kv := if len + 4 < e then kvRaise 13 kv else kv
  if 256 < e then kvRaise 12 kv else kv

/-- Class and PTP flag of a first fragment's TCP or UDP header. R49 does not say which of the two ports is 319 or 320: the model tests the
destination port (DESIGN CHOICE, log 111). -/
def l4Class (base proto dport : Nat) (first : Bool) (kv : BitVec 512) : BitVec 512 :=
  if proto = 17 ∧ first ∧ (dport = 319 ∨ dport = 320) then kvRaise 2 (kvSet 481 474 9 kv)
  else kvSet 481 474 (if proto = 6 then base + 1 else if proto = 17 then base + 2 else base) kv

/-- IPv4 fields of a header at offset `o`. -/
def parseV4 (d : Octets) (o len : Nat) (kv : BitVec 512) : BitVec 512 :=
  let ihl := octet d o % 16
  let fr := be16 d (o + 6)
  let frag := decide (fr % 16384 ≠ 0)
  let nonFirst := decide (fr % 8192 ≠ 0)
  let proto := octet d (o + 9)
  let l4 := o + 4 * ihl
  let ports := (proto == 6 || proto == 17) && !nonFirst
  let kv := kvReach (o + max 20 (4 * ihl)) len kv
  let kv := if ports then kvReach (l4 + 4) len kv else kv
  let kv := if csumOk d o (4 * ihl) then kv else kvRaise 8 kv
  let kv := if 5 < ihl then kvRaise 7 kv else kv
  let kv := if frag then kvRaise 6 kv else kv
  let kv := if nonFirst then kvRaise 5 kv else kv
  let kv := if len < o + be16 d (o + 2) then kvRaise 3 kv else kv
  let kv := kvSet 255 224 (beAt d (o + 12) 4) (kvSet 223 192 (beAt d (o + 16) 4) (kvSet 191 184 proto kv))
  let kv := if ports then kvSet 183 168 (be16 d l4) (kvSet 167 152 (be16 d (l4 + 2)) kv) else kv
  l4Class 2 proto (if ports then be16 d (l4 + 2) else 0) (!nonFirst) kv

/-- IPv6 fields of a header at offset `o`. -/
def parseV6 (d : Octets) (o len : Nat) (kv : BitVec 512) : BitVec 512 :=
  let w := extWalk d 32 { next := octet d (o + 6), off := o + 40 }
  let ports := (w.next == 6 || w.next == 17) && !w.nonFirst
  let kv := kvReach (max (o + 40) w.off) len kv
  let kv := if ports then kvReach (w.off + 4) len kv else kv
  let kv := if w.frag then kvRaise 6 kv else kv
  let kv := if w.nonFirst then kvRaise 5 kv else kv
  let kv := if w.any then kvRaise 4 kv else kv
  let kv := if len < o + 40 + be16 d (o + 4) then kvRaise 3 kv else kv
  let kv := kvSet 255 128 (beAt d (o + 8) 16) (kvSet 127 0 (beAt d (o + 24) 16) (kvSet 319 312 w.next kv))
  let kv := if ports then kvSet 311 296 (be16 d w.off) (kvSet 295 280 (be16 d (w.off + 2)) kv) else kv
  l4Class 5 w.next (if ports then be16 d (w.off + 2) else 0) (!w.nonFirst) kv

/-- The standard image over the header window `d` (at most 256 octets) of a frame of `len` octets without FCS. -/
def parseStd (tpid : Nat) (d : Octets) (len : Nat) (kv : BitVec 512) : BitVec 512 :=
  let t := tagCount tpid d
  let o := 14 + 4 * t
  let e := be16 d (12 + 4 * t)
  let kv := kvReach o len kv
  let kv := kvSet 473 426 (beAt d 0 6) (kvSet 425 378 (beAt d 6 6) (kvSet 345 344 t (kvSet 343 328 e kv)))
  let kv := if 1 ≤ t then kvSet 377 362 (be16 d 14) kv else kv
  let kv := if t = 2 then kvSet 361 346 (be16 d 18) kv else kv
  let kv := if t = 2 ∧ isTpid tpid e then kvRaise 11 kv else kv
  if e < 0x600 then kv
  else if e = 0x88E5 then
    let kv := kvReach (o + secTagLen d t) len kv
    let kv := if secMalformed d t len then kvRaise 9 kv else kv
    kvRaise 10 (kvSet 481 474 8 (kvSet 327 320 (tci d t) kv))
  else if e = 0x0800 then parseV4 d o len kv
  else if e = 0x86DD then parseV6 d o len kv
  else if e = 0x88F7 then kvRaise 2 (kvSet 481 474 9 kv)
  else if e = 0x888E then kvRaise 0 (kvSet 481 474 0x0A kv)
  else if e = 0x88B5 then kvRaise 1 (kvSet 481 474 0x0B kv)
  else kvSet 481 474 1 kv

/-! ## Gouge instructions (R46, R47, R49) -/

/-- A gouge's registers while it runs. -/
structure Gouge where
  pc : Nat
  cursor : Nat := 0
  w : List Nat := [0, 0, 0, 0]
  kv : BitVec 512
  done : Bool := false

/-- Instruction at an address of an image. -/
def gougeInstr (image : Octets) (a : Nat) : Nat := leAt image (8 * a) 8

/-- A bit of the header window; 0 beyond the frame or the window. -/
def windowBit (d : Octets) (i : Nat) : Nat := octet d (i / 8) / 2 ^ (7 - i % 8) % 2

/-- The bits from bit `i`, most significant first, as a number. -/
def windowBits (d : Octets) (i n : Nat) : Nat := (List.range n).foldl (fun v j => 2 * v + windowBit d (i + j)) 0

/-- Work register `r`. -/
def Gouge.reg (g : Gouge) (r : Nat) : Nat := g.w.getD r 0

/-- One gouge instruction over the window `d` of a frame of `len` octets. -/
def gougeStep (d : Octets) (len : Nat) (i : Nat) (g : Gouge) : Gouge :=
  let next := { g with pc := g.pc + 1 }
  match bits i 63 58 with
  | 0x01 =>
    let n := bits i 37 33 + 1
    let b := 8 * (g.cursor + bits i 45 38) + bits i 32 30
    let v := windowBits (d.take 256) b n
    let kv := kvReach ((b + n + 7) / 8) len g.kv
    let kv := if bitAt i 20 then kvSet (bits i 29 21 + n - 1) (bits i 29 21) v kv else kv
    { next with kv := kv, w := if bitAt i 17 then g.w.set (bits i 19 18) v else g.w }
  | 0x02 => { next with cursor := min 256 (g.cursor + bits i 45 38 + (if bitAt i 35 then g.reg (bits i 37 36) * 2 ^ (bits i 34 33) else 0)) }
  | 0x03 =>
    let v := (g.reg (bits i 45 44) % 65536) &&& bits i 43 28
    let x := bits i 27 12
    let hit := match bits i 11 10 with
      | 0 => v == x
      | 1 => v != x
      | 2 => decide (v < x)
      | _ => decide (x ≤ v)
    if hit then { g with pc := bits i 57 46 } else next
  | 0x04 =>
    let f := bits i 45 30 % 2 ^ 14
    let kv := kvSet 497 482 (kvGet g.kv 497 482 ||| f) g.kv
    { next with kv := if bitAt i 21 then kvSet 481 474 (bits i 29 22) kv else kv }
  | 0x05 =>
    let n := 4 * g.reg 0
    let kv := if 256 < g.cursor + n then kvRaise 12 g.kv else g.kv
    { next with kv := if csumOk (d.take 256) g.cursor (min n 1024) then kv else kvRaise 8 kv }
  | 0x06 => { next with w := g.w.set (bits i 45 44) (bits i 43 12) }
  | 0x07 => { g with pc := bits i 57 46 }
  | _ => { g with done := true }

/-- Run a gouge for at most `n` instructions. -/
def gougeRun (image d : Octets) (len : Nat) : Nat → Gouge → Gouge
  | 0, g => g
  | n + 1, g => if g.done then g else gougeRun image d len n (gougeStep d len (gougeInstr image g.pc) g)

/-- Key-vector fields EXT may write, as lowest and highest bit (R50). -/
def extFields : List (Nat × Nat) :=
  [(426, 473), (378, 425), (362, 377), (346, 361), (344, 345), (328, 343), (320, 327), (256, 319), (128, 255), (0, 127)]

/-- One instruction passes the checks of R47 that look at it alone. -/
def gougeInstrOk (a i : Nat) : Bool :=
  match bits i 63 58 with
  | 0x01 => !bitAt i 20 || extFields.any (fun f => decide (f.1 ≤ bits i 29 21) && decide (bits i 29 21 + bits i 37 33 ≤ f.2))
  | 0x03 | 0x07 => decide (a < bits i 57 46)
  | 0x02 | 0x04 | 0x05 | 0x06 | 0x3F => true
  | _ => false

/-- Longest path in instructions from address `a` to END; 25 where it is longer than 24 or never reaches END. The depth
never exceeds 24, so `fuel` 25 is enough. -/
def gougePath (image : Octets) : Nat → Nat → Nat
  | 0, _ => 25
  | n + 1, a =>
    if 4096 ≤ a then 25
    else
      let i := gougeInstr image a
      match bits i 63 58 with
      | 0x3F => 1
      | 0x07 => min 25 (1 + gougePath image n (bits i 57 46))
      | 0x03 => min 25 (1 + max (gougePath image n (bits i 57 46)) (gougePath image n (a + 1)))
      | _ => min 25 (1 + gougePath image n (a + 1))

/-- The image passes R47 for the given start addresses. -/
def microcodeOk (image : Octets) (starts : List Nat) : Bool :=
  (List.range 4096).all (fun a => gougeInstrOk a (gougeInstr image a)) && starts.all (fun a => decide (gougePath image 25 a ≤ 24))

/-- Longest path of an image from its start addresses. -/
def microcodeLongest (image : Octets) (starts : List Nat) : Nat := starts.foldl (fun m a => max m (gougePath image 25 a)) 0

/-- The microcode image that OD 0x2000.01 holds (R49). -/
def microcode (s : State) : Octets := (s.ctl.dict.find (odKey 0x2000 1)).getD (padTo 32768 Config.standardImage)

/-- The image in the active microcode bank (R44, R72). -/
def bankImage (s : State) : Octets := s.cls.banks.get s.cls.bank (padTo 32768 Config.standardImage)

/-- The active bank holds the standard image and port Pn parses from its start (R49). -/
def standardParse (s : State) (n : Nat) : Bool := (s.cls.banks.find s.cls.bank).isNone && s.odNat 0x2001 (n + 1) == 0

/-- The octets a gouge can read of a frame of `len` octets without FCS whose first octets are `d`: its FCS too where all of it is there
(R8, R46). -/
def headerWindow (d : Octets) (len : Nat) : Octets := (if d.length = len ∧ len < 256 then d ++ fcs32 d else d).take 256

/-- The hardware's write of the SCI field (R50, R97). -/
def kvSci (s : State) (p : PD) (d : Octets) (kv : BitVec 512) : BitVec 512 :=
  if kvFlag kv 10 then kvSet 319 256 (sciOf s p d (kvTags kv)) kv else kv

/-- The key vector of a parse of a frame of `len` octets without FCS whose first octets are `d`, run from the bank now active (R44). -/
def parseFrame (s : State) (p : PD) (cut : Nat) (d : Octets) (len : Nat) : BitVec 512 :=
  let kv := kvStart p cut
  let w := headerWindow d len
  let kv := if standardParse s p.port then parseStd s.tpid w len kv
    else (gougeRun (bankImage s) w len 24 { pc := s.odNat 0x2001 (p.port + 1), kv := kv }).kv
  kvSci s p d kv

/-! ## PTP in transit (R114 to R117) -/

/-- Offsets of the PTP header and of a UDP checksum for EtherType `e` after `t` tags; none where the header has
extension headers or is no PTP (R114). -/
def ptpAt (d : Octets) (t e : Nat) (ext : Bool) : Option (Nat × Option Nat) :=
  let o := 14 + 4 * t
  if e = 0x88F7 then some (o, none)
  else if e = 0x0800 then let h := 4 * (octet d o % 16); some (o + h + 8, some (o + h + 6))
  else if e = 0x86DD then (if ext then none else some (o + 48, some (o + 46)))
  else none

/-- An event message (R116). -/
def ptpEvent (d : Octets) (h : Nat) : Bool := decide (octet d h % 16 ≤ 3) && decide (octet d (h + 1) % 16 = 2)

/-- Update a checksum incrementally for octets that changed from `old` to `new` at even offsets (R117, RFC 1624). -/
def csumUpdate (c : Nat) (old new : Octets) : Nat :=
  let v := 0xFFFF - foldSum (0xFFFF - c + onesSum (old.map (fun b => ~~~ b)) + onesSum new)
  if v = 0 then 0xFFFF else v

/-- Add `budget` nanoseconds to the correctionField at header offset `h` (R116, R117): the frame, and whether it saturated. -/
def ptpCorrect (udp : Option Nat) (update : Bool) (h budget : Nat) (d : Octets) : Octets × Bool :=
  let old := slice d (h + 8) 8
  let v := signed 64 (beNat old) + budget * 65536
  let sat := decide (0x7FFFFFFFFFFFFFFF < v)
  let new := beBytes 8 (unsign 64 (if sat then 0x7FFFFFFFFFFFFFFF else v))
  let d := patch d (h + 8) new
  match udp with
  | some u =>
    let c := be16 d u
    (if update && c != 0 then patch d u (beBytes 2 (csumUpdate c old new)) else d, sat)
  | none => (d, sat)

end Sys2Proof.Machine
end

