-- ==== Sys2Proof/Machine/Gcc.lean ====
section
/-! DEFINITION. Frames given to the Urzidun channel, and the GCC bytes that carry its frames on an OTN pair (R53, R463). -/
namespace Sys2Proof.Machine

/-- A frame given to the Urzidun channel (R53, R453). -/
def takeUrzidun (p : PD) (d : Octets) (s : State) : State := { s with urz := { s.urz with inbox := s.urz.inbox ++ [(p, d)] } }

/-- Count on Urzidun counter `i` (R469). -/
def urzCount (i : Nat) (s : State) : State := { s with urz := { s.urz with counters := s.urz.counters.bump i 1 } }

/-! ## GCC bytes (R463) -/

/-- Octet stuffing. -/
def stuff (d : Octets) : Octets := (d.map (fun b => if b = 0x7E ∨ b = 0x7D then [0x7D, b ^^^ 0x20] else [b])).flatten
def unstuff : Octets → Octets
  | [] => []
  | [_] => []
  | a :: b :: t => if a = 0x7D then (b ^^^ 0x20) :: unstuff t else a :: unstuff (b :: t)

/-- Undo stuffing of a whole frame; a trailing octet that is no escape stands for itself. -/
def unstuffAll (d : Octets) : Octets :=
  match d.reverse with
  | b :: t => if b = 0x7D ∨ t.head? = some 0x7D then unstuff (d ++ [0]) else unstuff d ++ [b]
  | [] => []

/-- Side on which a port-direction leaves. -/
def outSide (p : PD) : Side := match p.dir with | .s2l => .line | .l2s => .system

/-- Side on which a port-direction arrives. -/
def inSide (p : PD) : Side := match p.dir with | .s2l => .system | .l2s => .line

/-- The channel runs in the GCC bytes of a side of pair `k` (OD 0x1013). -/
def gccOn (s : State) (k : Nat) (sd : Side) : Bool := bitAt (s.odNat 0x1013 (k + 1)) (8 + sd.num)
/-- The tributary whose bytes carry it. -/
def gccTrib (s : State) (k : Nat) : Nat := s.odNat 0x1013 (k + 1) % 256

/-- Queue a frame for the GCC bytes of a side; up to 64 KiB are held. -/
def gccQueue (p : PD) (frame : Octets) (s : State) : State :=
  let q := s.urz.gccOut.get p.key []
  let b := [0x7E] ++ stuff (frame ++ fcs32 frame) ++ [0x7E]
  if 65536 < q.length + b.length then urzCount 7 s
  else { s with urz := { s.urz with gccOut := s.urz.gccOut.put p.key (q ++ b) } }

/-- The next four GCC octets of a side, flags when idle. -/
def gccTake (p : PD) (s : State) : Octets × State :=
  let q := s.urz.gccOut.get p.key []
  (q.take 4 ++ List.replicate (4 - q.length) 0x7E, if q.isEmpty then s else { s with urz := { s.urz with gccOut := s.urz.gccOut.put p.key (q.drop 4) } })

/-- One octet received in the GCC bytes: a flag ends a frame whose FCS is right. -/
def gccOctet (p : PD) (b : BitVec 8) (s : State) : State :=
  let put (q : Octets) (s : State) : State := { s with urz := { s.urz with gccIn := s.urz.gccIn.put p.key q } }
  match s.urz.gccIn.find p.key with
  | none => if b = 0x7E then put [] s else s
  | some q =>
    if b ≠ 0x7E then put (q ++ [b]) s
    else
      let f := unstuffAll q
      let d := f.take (f.length - 4)
      if f.length < 18 ∨ f.drop (f.length - 4) ≠ fcs32 d then put [] s
      else put [] (takeUrzidun p d s)

/-- The GCC octets of a received tributary frame, where the channel listens there. -/
def gccReceive (p : PD) (t : Nat) (overhead : Octets) (s : State) : State :=
  let k := p.port.val / 4
  if otnPort s p.port && gccOn s k (inSide p) && gccTrib s k == t && s.domOn 77 then (slice overhead 48 4).foldl (fun s b => gccOctet p b s) s else s

/-- The GCC octets of a tributary frame the part sends (R463): overwritten on an enabled side. -/
def gccSend (p : PD) (t : Nat) (overhead : Octets) (s : State) : Octets × State :=
  let k := p.port.val / 4
  if gccOn s k (outSide p) && gccTrib s k == t && s.domOn 77 then
    (let g := gccTake p s
     (patch overhead 48 g.1, g.2))
  else (overhead, s)

end Sys2Proof.Machine
end

