-- ==== Sys2Proof/Machine/Retention.lean ====
section
/-! DEFINITION. The retention banks (R36, R198, R199): each 32-octet word of a record as 24 symbols of one Reed-Solomon code, six in
each bank; reads with a bank erased or with symbol errors; the rewrite of a bank after its reset. Log 100. -/
namespace Sys2Proof.Machine

/-! ## The field of 2^16 elements -/

/-- Multiply by x modulo x^16 + x^12 + x^3 + x + 1. -/
def gf16Double (a : Nat) : Nat := if a < 32768 then 2 * a else (2 * a) ^^^ 0x1100B
/-- The sum of the multiples of `a` that the low `k` bits of `b` name. -/
def gf16Go (b : Nat) : Nat → Nat → Nat
  | 0, _ => 0
  | k + 1, a => (if b % 2 = 1 then a else 0) ^^^ gf16Go (b / 2) k (gf16Double a)
/-- Product of two field elements. -/
def gf16Mul (a b : Nat) : Nat := gf16Go b 16 a
/-- Inverse of a field element: its power 2^16 - 2. -/
def gf16Inv (a : Nat) : Nat := ((List.range 15).foldl (fun (p : Nat × Nat) _ => let q := gf16Mul p.1 p.1; (q, gf16Mul p.2 q)) (a, 1)).2

/-! ## The code -/

/-- The symbol at position `x` of the code word that holds the 16 symbols `l`, by position: the polynomial of degree below 16 through
them, at the field element `x`. -/
def retSymbol (l : List (Nat × Nat)) (x : Nat) : Nat :=
  l.foldl (fun v p =>
    let q := l.foldl (fun (n : Nat × Nat) k => if k.1 = p.1 then n else (gf16Mul n.1 (x ^^^ k.1), gf16Mul n.2 (p.1 ^^^ k.1))) (1, 1)
    v ^^^ gf16Mul p.2 (gf16Mul q.1 (gf16Inv q.2))) 0

/-- The coefficient with which data symbol `i` enters check symbol `j`: it depends on the sum of the two field elements alone. -/
def retCoefficients : List Nat := [49994, 32693, 38390, 21921, 44127, 29398, 51889, 27015, 29301, 11089, 54593, 59044, 57101, 36062, 51306, 61550]

/-- Check symbol `j`, 16 to 23, of 16 data symbols. -/
def retCheck (d : List Nat) (j : Nat) : Nat :=
  (d.zipIdx).foldl (fun v p => v ^^^ gf16Mul (retCoefficients.getD ((p.2 ^^^ j) - 16) 0) p.1) 0

/-- The 24 symbols of a word of 16 data symbols. -/
def retEncode (d : List Nat) : List Nat := d ++ (List.range 8).map (fun j => retCheck d (16 + j))

/-- Every way to leave `t` entries out of a list. -/
def leaveOut {α : Type} : Nat → List α → List (List α)
  | 0, l => [l]
  | _ + 1, [] => []
  | t + 1, x :: l => leaveOut t l ++ (leaveOut (t + 1) l).map (x :: ·)

/-- The 16 data symbols that the symbols `l` agree on, where they lie on one code word. -/
def retAgree (l : List (Nat × Nat)) : Option (List Nat) :=
  let base := l.take 16
  if (l.drop 16).all (fun p => retSymbol base p.1 == p.2) then
    some ((List.range 16).map (fun i => match l.find? (fun p => p.1 == i) with | some p => p.2 | none => retSymbol base i))
  else none

/-- Decode a word from the symbols present, by position: the code word nearest to them, at most half as many of them wrong as there
are more than 16 (four of 24, one of 18); none beyond that. -/
def retDecode (l : List (Nat × Nat)) : Option (List Nat) :=
  let d := (l.take 16).map Prod.snd
  if l.map Prod.fst = List.range 24 ∧ (l.drop 16).map Prod.snd = (List.range 8).map (fun j => retCheck d (16 + j)) then some d
  else (List.range ((l.length - 16) / 2 + 1)).findSome? (fun t => (leaveOut t l).findSome? retAgree)

/-! ## Words and banks -/

/-- The 16 data symbols of a 32-octet word. -/
def wordSymbols (w : Octets) : List Nat := (recordsOf 2 (padTo 32 w)).map beNat
/-- Positions of the six symbols that bank `b` holds: four data symbols and two check symbols. -/
def bankPositions (b : Nat) : List Nat := [4 * b, 4 * b + 1, 4 * b + 2, 4 * b + 3, 16 + 2 * b, 17 + 2 * b]
/-- The six symbols of a word in bank `b`, as one number, the first lowest. -/
def bankPack (b : Nat) (w : List Nat) : Nat := (bankPositions b).foldr (fun i n => w.getD i 0 + 65536 * n) 0
/-- The six symbols with their positions. -/
def bankUnpack (b v : Nat) : List (Nat × Nat) := (bankPositions b).zipIdx.map (fun p => (p.1, v / 65536 ^ p.2 % 65536))

/-- Bank `b` takes writes: it is neither in reset nor being rebuilt (R199). -/
def bankServes (s : State) (b : Nat) : Bool := s.fab.rebuild != some b

/-- Replace a bank. -/
def setBank (b : Nat) (f : Tab (List Nat) → Tab (List Nat)) (s : State) : State :=
  { s with path := { s.path with banks := s.path.banks.upd b [] f } }

/-- Write record `id`, striped across the banks that serve (R36, R198, R199). -/
def retWrite (id : Nat) (d : Octets) (s : State) : State :=
  let w := (recordsOf 32 d).map (fun x => retEncode (wordSymbols x))
  (List.range 4).foldl (fun s b => setBank b (fun t => if bankServes s b then t.put id (w.map (bankPack b)) else t.drop id) s) s

/-- Release record `id` in every bank (R203 step 5). -/
def retFree (id : Nat) (s : State) : State := (List.range 4).foldl (fun s b => setBank b (fun t => t.drop id) s) s

/-- The symbols of word `k` of record `id` that the banks give, in order of position. -/
def wordPresent (s : State) (id k : Nat) : List (Nat × Nat) :=
  let l := ((List.range 4).map (fun b => match (s.path.banks.get b []).find id with
    | some w => if bankServes s b then bankUnpack b (w.getD k 0) else []
    | none => [])).flatten
  l.filter (fun p => decide (p.1 < 16)) ++ l.filter (fun p => decide (16 ≤ p.1))

/-- Word `k` of record `id` as a read gives it (R198, R199). -/
def wordRead (s : State) (id k : Nat) : Octets :=
  let l := wordPresent s id k
  match retDecode l with
  | some d => (d.map (beBytes 2)).flatten
  | none => ((List.range 16).map (fun i => beBytes 2 (Config.retentionLost l i))).flatten

/-- The first `n` octets of record `id`, none where no bank holds it. -/
def retRead (s : State) (id n : Nat) : Option Octets :=
  if (List.range 4).any (fun b => bankServes s b && ((s.path.banks.get b []).find id).isSome) then
    some ((((List.range ((n + 31) / 32)).map (wordRead s id)).flatten).take n)
  else none

/-- A bank enters reset: what it holds is lost (R199). -/
def bankLost (b : Nat) (s : State) : State := setBank b (fun _ => []) s

/-- Every live word is rewritten into bank `b` from the other three (R199). -/
def bankRebuild (b : Nat) (s : State) : State :=
  let of (id : Nat) (w : List Nat) : List Nat := (List.range w.length).map (fun k => bankPack b (retEncode (wordSymbols (wordRead s id k))))
  setBank b (fun _ => (s.path.banks.get ((b + 1) % 4) []).map (fun p => (p.1, of p.1 p.2))) s

end Sys2Proof.Machine
end

