-- ==== Sys2Proof/Machine/Path.lean ====
section
/-! DEFINITION. The data path's edges: retention space (R37, R478 to R481), drops and their counters (R27, R82), delivery to
exception queues (R445), injection (R35, R446), gouges (R45, R79), acceptance (R22, R24, R89, R90, R145, R222) and received
pause frames (R301). -/
namespace Sys2Proof.Machine

/-! ## Retention space -/

/-- Pair `k` is configured, or is the partner of one (R478). -/
def pairUsed (s : State) (k : Nat) : Bool :=
  decide (0 < ethShape s k) || decide (0 < otnShape s k) ||
  (k % 2 == 1 && (ethShape s (k - 1) == 4 || decide (5 ≤ otnShape s (k - 1))))

/-- Quadrant `q` has an Ethernet port. -/
def quadrantEth (s : State) (q : Nat) : Bool := decide (0 < ethShape s (2 * q)) || decide (0 < ethShape s (2 * q + 1))

/-- The in-flight floor F, the timed share T and the shaping-overflow floor S in bytes (R478). -/
def floorF (s : State) : Nat := 1024 * 1408 * 2 * ((List.range 8).filter (pairUsed s)).length
def shareT (s : State) : Nat := 1024 * s.odNat 0x4030 1
def floorS (s : State) : Nat := 1024 * 512 * 2 * ((List.range 4).filter (quadrantEth s)).length

/-- Size of pool `i`: 0 in-flight, 1 common reserve, 2 shaping overflow, 3 timed launch (R479). -/
def poolSize (s : State) (i : Nat) : Nat :=
  match i with
  | 0 => floorF s
  | 1 => 1024 * 32768 - floorF s - shareT s - floorS s
  | 2 => floorS s
  | _ => shareT s

/-- Bytes a pool can still grant; nothing while its use is above its size (R482). -/
def poolFree (s : State) (i : Nat) : Nat := poolSize s i - s.path.pools.get i 0

/-- The first pool of the order that holds `n` bytes (R480). DESIGN CHOICE (log 106): one frame's space is granted from one pool, so a
frame that no single pool has room for is dropped as ingress-full though the pools together have it; R22 and R480 do not say. -/
def poolFor (s : State) (order : List Nat) (n : Nat) : Option Nat := order.find? (fun i => decide (n ≤ poolFree s i))

/-- Bytes in use in retention. -/
def State.inUse (s : State) : Nat := s.path.pools.foldl (fun a p => a + p.2) 0

/-- Take `n` bytes of pool `i`, and note the peak (R228). -/
def poolTake (i n : Nat) (s : State) : State :=
  let s := { s with path := { s.path with pools := s.path.pools.upd i 0 (· + n) } }
  { s with path := { s.path with peak := max s.path.peak s.inUse } }

/-- Return `n` bytes to pool `i` (R481). -/
def poolGive (i n : Nat) (s : State) : State := { s with path := { s.path with pools := s.path.pools.upd i 0 (· - n) } }

/-- Orders of the three claimants (R480). -/
def flightOrder : List Nat := [0, 1, 2, 3]
def timedOrder : List Nat := [3, 1, 2]
def overflowOrder : List Nat := [2, 1]

/-- Occupancy of a frame of `len` octets by R8 (R37). -/
def occupancy (len : Nat) : Nat := (len + 31) / 32 * 32 + 32

/-! ## Frames -/

/-- The retained frame with id `id`. -/
def State.frame? (s : State) (id : Nat) : Option Frm := s.path.frames.find id

/-- Change a retained frame. -/
def updFrm (id : Nat) (f : Frm → Frm) (s : State) : State :=
  match s.path.frames.find id with
  | some x => { s with path := { s.path with frames := s.path.frames.put id (f x) } }
  | none => s

/-- Forget a retained frame and return its space (R203 step 5). -/
def dropFrm (id : Nat) (s : State) : State :=
  match s.path.frames.find id with
  | some x => retFree id (poolGive x.pool x.occ { s with path := { s.path with frames := s.path.frames.drop id } })
  | none => s

/-- Give a retained frame's record other octets (R178). -/
def setData (id : Nat) (d : Octets) (s : State) : State := retWrite id d (updFrm id (fun f => { f with data := d }) s)

/-- The octets of a retained frame as the banks give them (R198, R199). -/
def frmData (s : State) (id : Nat) (f : Frm) : Octets := (retRead s id f.data.length).getD f.data

/-- Forget a retained frame whose space has passed to another holder. -/
def moveFrm (id : Nat) (s : State) : State := { s with path := { s.path with frames := s.path.frames.drop id } }

/-- Enter a new retained frame: its id and the state. -/
def newFrm (f : Frm) (s : State) : Nat × State :=
  (s.path.nextId, { s with path := { s.path with frames := s.path.frames.put s.path.nextId f, nextId := s.path.nextId + 1 } })

/-- The first retained frame for which `p` holds. -/
def findFrm (s : State) (p : Frm → Bool) : Option (Nat × Frm) := s.path.frames.find? (fun q => p q.2)

/-- Accepted frames keep their sequence number from acceptance on. -/
def Frm.sequenced (f : Frm) : Bool := f.stage != .receiving

/-- The frame of a port-direction that carries a sequence number. -/
def frameAt (s : State) (p : PD) (n : W32) : Option (Nat × Frm) := findFrm s (fun f => f.pd == p && f.sequenced && f.seq == n)

/-- Among the retained frames for which `q` holds, the one of port-direction `p` nearest its settle pointer (R200). -/
def nextFrm (s : State) (p : PD) (q : Frm → Bool) : Option (Nat × Frm) :=
  let base := (s.pd p).settlePtr
  (s.path.frames.filter (fun x => x.2.pd == p && x.2.sequenced && q x.2)).foldl
    (fun m x => match m with
      | none => some x
      | some y => if (x.2.seq - base).toNat < (y.2.seq - base).toNat then some x else some y) none

/-! ## Counters of the path -/

/-- Count on MAC counter `i` of a port-direction (R122). -/
def macCount (p : PD) (i n : Nat) (s : State) : State := updPd p (fun r => { r with mac := r.mac.bump i n }) s
/-- Count on PTP transit counter `i`. -/
def ptpCount (p : PD) (i : Nat) (s : State) : State := updPd p (fun r => { r with ptp := r.ptp.bump i 1 }) s
/-- Count on transmit SC counter `i` of SC `sc`. -/
def txScCount (sc i n : Nat) (s : State) : State := { s with path := { s.path with txSc := s.path.txSc.bump (4 * sc + i) n } }
/-- Count on receive SC counter `i` of SC `sc`. -/
def rxScCount (sc i n : Nat) (s : State) : State := { s with path := { s.path with rxSc := s.path.rxSc.bump (10 * sc + i) n } }
/-- Count on SA counter `i` of SA `a`. -/
def saCount (a i : Nat) (s : State) : State := { s with keys := { s.keys with saCounters := s.keys.saCounters.bump (3 * a + i) 1 } }
/-- Change a port's link record. -/
def updLink (n : Nat) (f : Link → Link) (s : State) : State := { s with path := { s.path with links := s.path.links.upd n {} f } }
/-- A port's link record. -/
def State.link (s : State) (n : Nat) : Link := s.path.links.get n {}
/-- Count on receive SecY counter `i` of port `n`. -/
def rxSecyCount (n i : Nat) (s : State) : State := updLink n (fun l => { l with rxSecy := l.rxSecy.bump i 1 }) s
/-- Count OutPktsUntagged of port `n`. -/
def untagged (n : Nat) (s : State) : State := updLink n (fun l => { l with txSecy := l.txSecy + 1 }) s

/-- The classification drop counter of a cause (R82 order), if it has one. -/
def Cause.column : Cause → Option Nat
  | .fcs => some 0
  | .microcode => some 1
  | .malformed => some 2
  | .defaultDrop => some 3
  | .ruleDrop => some 4
  | .policerRed => some 5
  | .policerYellow => some 6
  | .steering => some 7
  | .exceptionFull => some 8
  | .clusterFault => some 9
  | _ => none

/-- Count a void entry under its cause as it commits (R27, R82, R107, R122, R281, R405); Urzidun drops are the channel's, and no
counter is named for frames that a zeroization voids. -/
def countDrop (p : PD) (c : Cause) (s : State) : State :=
  match c.column with
  | some i => { s with cls := { s.cls with drops := s.cls.drops.bump (10 * p.key + i) 1 } }
  | none => match c with
    | .misdirected => updPd p (fun r => { r with misdirected := r.misdirected + 1 }) s
    | .lock => tamperCount 7 s
    | .frozen (some i) => saCount i 2 s
    | .macsecPort n i => rxSecyCount n i s
    | .macsecSc sc i (some a) => saCount a 2 (rxScCount sc i 1 s)
    | .macsecSc sc i none => rxScCount sc i 1 s
    | _ => s

/-! ## Exception queues (R54, R445) -/

/-- A frame taken off the path, as its completion describes it. -/
structure Taken where
  pd : PD
  data : Octets
  reason : Nat := 0
  decrypted : Bool := false
  source : Nat := 0
  stamp : Nat
  rxSc : Nat := 0xFFFF
  cut : Nat := 0
  cls : Nat := 0

/-- The completion of a delivered frame (R445). -/
def takenCompletion (t : Taken) : Octets :=
  let n := t.stamp / 65536
  leBytes 2 t.data.length ++ [BitVec.ofNat 8 t.pd.port, BitVec.ofNat 8 (t.pd.dir.num + 2 * t.reason + 16 * bit t.decrypted + 32 * t.source)] ++
  leBytes 4 n ++ leBytes 2 t.rxSc ++ [BitVec.ofNat 8 t.cut, BitVec.ofNat 8 t.cls] ++ zeros 19 ++ [BitVec.ofNat 8 (1 + 2 * (n / 2 ^ 32 % 2))]

/-- Deliver a frame to an exception queue; none where the queue is full or its buffer too small (R54, R445). -/
def deliver (queue : Nat) (t : Taken) (s : State) : Option State :=
  let r := 64 + queue
  let x := s.ring r
  match x.posted with
  | [] => none
  | (d, _) :: _ =>
    if x.state ≠ 1 ∨ leAt d 8 2 < t.data.length then none
    else some (ringComplete r (takenCompletion t) (emit (.dma (leAt d 0 8) t.data) s))

/-- Deliver, or count an exception-queue-full drop. -/
def deliverOrDrop (queue : Nat) (t : Taken) (s : State) : State :=
  match deliver queue t s with
  | some s => s
  | none => countDrop t.pd .exceptionFull s

/-! ## Gouges -/

/-- A gouge of a cluster is parsing a frame. -/
def gougeBusy (s : State) (c g : Nat) : Bool := s.path.frames.any (fun q => q.2.gouge == some (c, g) && !q.2.parsed)

/-- The lowest free gouge of a cluster that is in service. -/
def freeGouge (s : State) (c : Nat) : Option Nat :=
  (List.range 16).find? (fun g => !gougeBusy s c g && !s.cls.outOfService.contains (16 * c + g))

/-- Take a gouge out of service, with its log entry (R79). DESIGN CHOICE (log 107): R79 does not say for how long; it stays out, over
a reset of its cluster too, until power is next applied. -/
def gougeOut (c g : Nat) (s : State) : State :=
  let k := 16 * c + g
  let s := { s with cls := { s.cls with outOfService := if s.cls.outOfService.contains k then s.cls.outOfService else k :: s.cls.outOfService } }
  logEntry 0x00B0 0xFF [BitVec.ofNat 8 c, BitVec.ofNat 8 g] s

/-- The number of the current cut. -/
def State.currentCut (s : State) : Nat :=
  match s.cls.cuts.find? (fun c => c.state == .current) with
  | some c => c.number
  | none => 0

/-- The parse of a retained frame has ended: its gouge is free (R49 END). -/
def endParse (id : Nat) (s : State) : State := updFrm id (fun f => { f with parsed := true, gouge := none }) s

/-- A frame parsed now: under the current cut and from the bank now active (R44, R68), with the FCS error flag that its acceptance
has set (R51). -/
def Frm.parse (s : State) (f : Frm) : Frm :=
  let kv := parseFrame s f.pd s.currentCut f.data f.len
  { f with kv := if f.fcsBad then kvRaise 15 kv else kv, cut := s.currentCut }

/-- The frame of a port-direction that waits for a gouge: accepted and not parsed, or still being received after a failed parse or a
reset of its cluster. -/
def frmToParse (s : State) (p : PD) : Option (Nat × Frm) :=
  findFrm s (fun f => f.pd == p && f.origin == .wire && !f.parsed && f.gouge.isNone && (f.stage == .accepted || f.stage == .receiving))

/-- The first parse of frame `id` on gouge `g` has failed parity, which takes the gouge out of service: it goes to another gouge of the
cluster, or waits for one (R79). -/
def parityFailed (id c g : Nat) (s : State) : State :=
  let s := gougeOut c g s
  updFrm id (fun f => { (f.parse s) with gouge := (freeGouge s c).map (fun h => (c, h)), reparsed := true }) s

/-- A second parse of a frame has failed parity too: a Microcode fault (R79). -/
def parityFault (id : Nat) (s : State) : State :=
  let s := match s.frame? id with
    | some f => match f.gouge with | some g => gougeOut g.1 g.2 s | none => s
    | none => s
  endParse id (updFrm id (fun f => { f with kv := kvRaise 14 f.kv }) s)

/-- The frame gouge `g` of cluster `c` starts on: one that waits for its parse, else the one arriving at an open port; with whether it is
being parsed again. -/
def gougeTake (p : PD) (c g : Nat) (header : Octets) (len : Nat) (s : State) : Option (Nat × Bool × State) :=
  let start (f : Frm) : Frm := { (f.parse s) with gouge := some (c, g) }
  match frmToParse s p with
  | some q => some (q.1, q.2.reparsed, updFrm q.1 start s)
  | none => if (s.pd p).closed then none else some ((newFrm (start { pd := p, data := header, len := len }) s).1, false, (newFrm (start { pd := p, data := header, len := len }) s).2)

/-- The sequence number that decides the cluster of the next frame to be parsed at a port-direction (R19). -/
def gougeSeq (p : PD) (s : State) : W32 := match frmToParse s p with | some q => q.2.seq | none => (s.pd p).nextSeq

/-- A gouge that starts a frame has executed END on its last one. -/
def gougeEnded (c g : Nat) (s : State) : State :=
  match findFrm s (fun f => f.gouge == some (c, g) && !f.parsed) with
  | some q => endParse q.1 s
  | none => s

/-- R45: a free gouge of the port's cluster starts on a frame of an Ethernet port; its key vector is what it delivers at END. A parity
failure takes the gouge out of service and re-parses the frame on another; a second one gives a Microcode fault (R79). -/
def gougeStart (p : PD) (c g : Nat) (header : Octets) (len parityFails : Nat) (s : State) : State :=
  if !ethPort s p.port || clusterOf s p.port (gougeSeq p s) != c || !clusterUp s c || s.cls.outOfService.contains (16 * c + g) then s
  else
    match gougeTake p c g header len (gougeEnded c g s) with
    | none => gougeEnded c g s
    | some (id, again, s) =>
      if parityFails = 0 then s
      else if again then parityFault id s
      else if parityFails = 1 then parityFailed id c g s
      else parityFault id (parityFailed id c g s)

/-! ## The line of a port (R289, R296, R301) -/

/-- Port `n` is draining. -/
def draining (s : State) (n : Nat) : Bool := s.power.drains.any (fun d => d.ports.contains n)

/-- A queue's record with the default port of R280. -/
def State.queue (s : State) (p : PD) (i : Nat) : Queue := s.path.queues.get (1024 * (2 * (p.port / 8) + p.dir.num) + i) {}

/-- Frame length by R8 of octets without FCS. -/
def lenR8 (d : Octets) : Nat := d.length + 4
/-- Line time of `len` octets by R8 with preamble and gap, in 2^-16 ns. -/
def lineTime (s : State) (n len : Nat) : Nat := if portGbps s n = 0 then 0 else (len + 20) * 8 * 65536 / portGbps s n
/-- Preamble time, in 2^-16 ns. -/
def preambleTime (s : State) (n : Nat) : Nat := if portGbps s n = 0 then 0 else 64 * 65536 / portGbps s n
/-- Time of the minimum gap, in 2^-16 ns. -/
def gapTime (s : State) (n : Nat) : Nat := if portGbps s n = 0 then 0 else 96 * 65536 / portGbps s n

/-- Ingress compensation of the side a port-direction arrives on, in 2^-16 ns, rounded toward minus infinity (R312). -/
def ingressComp (s : State) (p : PD) : Int :=
  let o := match p.dir with | .s2l => 0 | .l2s => 8
  signed 32 (leAt (s.od 0x4012 (p.port + 1)) o 4) * 65536 / 1000

/-- Egress compensation of the side a port-direction leaves on. -/
def egressComp (s : State) (p : PD) : Int :=
  let o := match p.dir with | .s2l => 12 | .l2s => 4
  signed 32 (leAt (s.od 0x4012 (p.port + 1)) o 4) * 65536 / 1000

/-- Instant at which the message timestamp point of a held frame is to be sent, less the egress compensation (R119, R312). -/
def launchAt (s : State) (e : Egr) : Nat := ((e.launch : Int) - egressComp s e.pd).toNat

/-- The held frame of a port-direction that is to be launched first. -/
def nextLaunch (s : State) (p : PD) : Option Egr :=
  match (s.pd p).launchList with
  | [] => none
  | e :: t => some (t.foldl (fun m x => if launchAt s x < launchAt s m then x else m) e)

/-- The boundary s of R296 of a port-direction that holds a timed frame. -/
def boundary (s : State) (p : PD) : Option Nat := (nextLaunch s p).map (fun e => launchAt s e - preambleTime s p.port)

/-- A system port is paused by received PAUSE, or a queue by received PFC (R301, R302). -/
def pausedNow (s : State) (p : PD) : Bool :=
  !draining s p.port && (match p.dir, (s.pd p).pausedUntil with | .l2s, some c => decide (s.time.cycles < c) | _, _ => false)
def pfcPaused (s : State) (p : PD) (k : Nat) : Bool :=
  !draining s p.port && (match p.dir, (s.pd p).pfcUntil.find k with | .l2s, some c => decide (s.time.cycles < c) | _, _ => false)

/-- A side receives Remote Fault, which 802.3 answers with Idle: no frame is started there. -/
def remoteFault (s : State) (n : Nat) (sd : Side) : Bool := (s.link n).status.getLsbD (match sd with | .system => 4 | .line => 5)

/-- The instant, in 2^-16 ns, at which edge-clock cycle `c` comes. -/
def instantOf (s : State) (c : Nat) : Nat := s.time.now + (c - s.time.cycles) * tickAmount s.time.y / 2 ^ 32

/-- The instant until which received pause frames hold back a buffered frame (R301); none while Remote Fault does. -/
def heldUntil (s : State) (p : PD) (e : Egr) : Option Nat :=
  if remoteFault s p.port (outSide p) then none
  else
    let a := match pausedNow s p, (s.pd p).pausedUntil with | true, some c => instantOf s c | _, _ => 0
    let k := (s.queue p e.queue).prio
    let b := match pfcPaused s p k, (s.pd p).pfcUntil.find k with | true, some c => instantOf s c | _, _ => 0
    some (max a b)

/-- When a frame of `len` octets begins that could begin at `a`: after the timed frame that it would delay (R296). -/
def clearOf (s : State) (p : PD) (len a : Nat) : Nat :=
  match nextLaunch s p, boundary s p with
  | some e, some b => if a + lineTime s p.port len ≤ b then a else max a (b + lineTime s p.port (lenR8 e.data))
  | _, _ => a

/-- End of the frame in progress and of what the MAC sends of its own, at the earliest now. -/
def lineBusy (s : State) (p : PD) (started : List Egr) : Nat :=
  let e := match started.getLast? with | some e => e.startAt.getD 0 + lineTime s p.port (lenR8 e.data) | none => 0
  max s.time.now (max (s.pd p).macBusy e)

/-- The egress buffer's frames that have been started, and those that wait (R289). -/
def startedOf (s : State) (p : PD) : List Egr := (s.pd p).buffer.takeWhile (fun e => e.startAt.any (fun a => decide (a ≤ s.time.now)))
def waitingOf (s : State) (p : PD) : List Egr := (s.pd p).buffer.dropWhile (fun e => e.startAt.any (fun a => decide (a ≤ s.time.now)))

/-- Line up one more frame behind those of `q`, whose last ends at `q.2`. -/
def lineOne (s : State) (p : PD) (q : List Egr × Nat) (e : Egr) : List Egr × Nat :=
  match heldUntil s p e with
  | none => (q.1 ++ [{ e with startAt := none }], q.2)
  | some h => let a := clearOf s p (lenR8 e.data) (max q.2 h); (q.1 ++ [{ e with startAt := some a }], a + lineTime s p.port (lenR8 e.data))

/-- Line up the frames of the egress buffer: those waiting are sent back to back after those started (R289), none while received
pause holds it back (R301), none across the boundary of R296. Frames behind a held one wait with it (log 103). -/
def lineUp (p : PD) (started waiting : List Egr) (s : State) : State :=
  let q := waiting.foldl (lineOne s p) ([], lineBusy s p started)
  updPd p (fun r => { r with buffer := started ++ q.1, lineFree := q.2 }) s

/-- Line up a port's buffer again after what holds its frames back has changed. -/
def reline (p : PD) (s : State) : State := lineUp p (startedOf s p) (waitingOf s p) s

/-! ## Pause frames received on a system port (R90, R301, R302) -/

/-- Cycle at which a pause of `q` quanta of 512 bits that begins now ends. -/
def pauseEnd (s : State) (n q : Nat) : Nat := s.time.cycles + (q * 800 + portGbps s n - 1) / portGbps s n

/-- A PAUSE frame for port Pn: transmission toward the system stops for its time; 0 ends the pause. -/
def pauseFrame (n : Fin 32) (q : Nat) (s : State) : State :=
  if !ethPort s n || draining s n then s
  else reline ⟨n, .l2s⟩ (updPd ⟨n, .l2s⟩ (fun r => { r with pausedUntil := if q = 0 then none else some (pauseEnd s n q) }) s)

/-- A PFC frame for port Pn. -/
def pfcFrame (n : Fin 32) (enable : BitVec 8) (times : List Nat) (s : State) : State :=
  if !ethPort s n || draining s n then s
  else reline ⟨n, .l2s⟩ ((List.range 8).foldl (fun s k =>
    if enable.getLsbD k then
      let q := times.getD k 0
      updPd ⟨n, .l2s⟩ (fun r => { r with pfcUntil := if q = 0 then r.pfcUntil.drop k else r.pfcUntil.put k (pauseEnd s n q) }) s
    else s) s)

/-- A MAC control frame: counted; acted on where it arrived on the system side (R90). -/
def macControl (p : PD) (d : Octets) (s : State) : State :=
  let s := macCount p 5 1 s
  match p.dir with
  | .l2s => s
  | .s2l =>
    if be16 d 14 = 0x0001 then pauseFrame p.port (be16 d 16) s
    else if be16 d 14 = 0x0101 then pfcFrame p.port (BitVec.ofNat 8 (be16 d 16)) ((List.range 8).map (fun k => be16 d (18 + 2 * k))) s
    else s

/-! ## Acceptance -/

/-- The lane group that receives a port-direction is powered (R41). -/
def laneUp (s : State) (p : PD) : Bool :=
  match p.dir with
  | .s2l => s.domOn (36 + p.port / 4)
  | .l2s => s.domOn (28 + p.port / 4)

/-- Take the next sequence number of a port-direction (R24). -/
def takeSeq (p : PD) (s : State) : W32 × State :=
  ((s.pd p).nextSeq, updPd p (fun r => { r with nextSeq := r.nextSeq + 1 }) s)

/-- Residence budget of a port in ns. -/
def budgetOf (s : State) (n : Nat) : Nat := s.odNat 0x2406 (n + 1)

/-- Drop the frame being received on a port-direction. -/
def forgetReceiving (p : PD) (s : State) : State :=
  match findFrm s (fun f => f.pd == p && f.stage == .receiving) with
  | some q => moveFrm q.1 s
  | none => s

/-- Accept an Ethernet frame from the lanes (R222): the MAC's checks (R89, R90), retention space (R22), the sequence number. -/
def acceptEthernet (p : PD) (data : Octets) (fcsBad : Bool) (ago : Nat) (s : State) : State :=
  let len := data.length + 4
  let most := s.odNat 0x2402 (p.port + 1) + match p.dir with | .s2l => 0 | .l2s => 32
  let recv := findFrm s (fun f => f.pd == p && f.stage == .receiving)
  if !ethPort s p.port || !laneUp s p then s
  else if (s.pd p).closed && recv.isNone then updPd p (fun r => { r with resetDrops := r.resetDrops + 1 }) s
  else if len < 64 then macCount p 3 1 (forgetReceiving p s)
  else if most < len then macCount p 4 1 (forgetReceiving p s)
  else if !fcsBad && be16 data 12 == 0x8808 then macControl p data (forgetReceiving p s)
  else match poolFor s flightOrder (occupancy len) with
    | none => macCount p 6 1 (forgetReceiving p s)
    | some pool =>
      let s := edgePass (edgeIn p) data.length (poolTake pool (occupancy len) s)
      let s := if fcsBad then macCount p 2 1 s else macCount p 1 len (macCount p 0 1 s)
      let q := takeSeq p s
      let s := q.2
      let stamp := ((s.time.now : Int) - ago - ingressComp s p).toNat
      let base : Frm := match recv with
        | some r => r.2
        | none => { pd := p }
      let f : Frm := { base with data := data, len := data.length, fcsBad := fcsBad, seq := q.1, stage := .accepted, stamp := stamp, acceptNs := s.time.ns, acceptCycle := s.time.cycles, budget := budgetOf s p.port, pool := pool, occ := occupancy len, kv := if fcsBad then kvRaise 15 base.kv else base.kv }
      match recv with
      | some r => retWrite r.1 data (updFrm r.1 (fun _ => f) s)
      | none => let n := newFrm f s; retWrite n.1 data n.2

/-- BIP-8 over an octet string. -/
def bip8 (d : Octets) : Nat := (d.foldl (· ^^^ ·) 0).toNat

/-- PM STAT of a tributary's overhead (row 3, column 12). -/
def pmStatOf (overhead : Octets) : Nat := octet overhead 43 % 8

/-- The eight LSO octets of a tributary's overhead (R152). -/
def lsoOf (overhead : Octets) : Octets := slice overhead 16 2 ++ slice overhead 56 6

/-- A received L2S substitute frame (R151): PM STAT all ones, LSO all ones, and dAIS not declared. -/
def isSubstitute (s : State) (t : Nat) (overhead : Octets) : Bool :=
  pmStatOf overhead == 7 && (lsoOf overhead).all (fun b => b == 0xFF) && !((s.otn.trib.get t 0).getLsbD 9)

/-- The pair whose OTUCn carries tributary record `t`: its own, or the even pair of an OTUCn of two pairs (R141). -/
def tribPair (s : State) (t : Nat) : Nat :=
  let k := t / 32
  if k % 2 = 1 ∧ 5 ≤ otnShape s (k - 1) then k - 1 else k

/-- The JC octets received with a frame give Cm and the sum of CnD: the last good ones stand where the CRC fails, which is counted (R148). -/
def receiveCm (d : Dir) (t : Nat) (jc : Octets) (s : State) : State :=
  match Config.jcRead jc, d with
  | none, _ => updTr t (fun r => { r with cmErrors := r.cmErrors + 1 }) s
  | some c, .s2l => updTr t (fun r => { r with cmIn := c.1, cnIn := c.2 }) s
  | some c, .l2s => updTr t (fun r => { r with cmInL := c.1, cnInL := c.2 }) s

/-- Accept one tributary frame (R145): it goes straight to the headstock (R33). A frame with dAIS, dOCI or dLCK present, or
of a bypass tributary, crosses unchanged (R150), and so does a substitute frame (R151). -/
def acceptTributary (p : PD) (t : Nat) (payload overhead jc : Octets) (s : State) : State :=
  let r := s.tr t
  let k := tribPair s t
  if !r.valid || otnShape s k == 0 || p.port.val != 4 * k || !laneUp s p then s
  else if (s.pd p).closed && !(s.pd p).finishing.contains t then updPd p (fun r => { r with resetDrops := r.resetDrops + 1 }) s
  else
    let s := updPd p (fun r => { r with finishing := r.finishing.erase t }) s
    match poolFor s flightOrder (occupancy 15232) with
    | none =>
      macCount p 6 1 s
    | some pool =>
      let s := gccReceive p t overhead (receiveCm p.dir t jc (edgePass (edgeOtnIn k p.dir) payload.length (poolTake pool (occupancy 15232) s)))
      let q := takeSeq p s
      let s := q.2
      let defects := s.otn.trib.get t 0
      let base := match p.dir with | .s2l => 0 | .l2s => 8
      let sub := p.dir == .l2s && isSubstitute s t overhead
      let sick := defects.getLsbD (base + 1) || defects.getLsbD (base + 2) || defects.getLsbD (base + 3)
      let odu : OduPart := { trib := t, overhead := overhead, bipIn := bip8 payload, substitute := sub, unchanged := sub || sick || r.mode == 0 }
      let f : Frm := { pd := p, seq := q.1, data := payload, origin := .odu, stage := .classified, verdict := .odu, parsed := true, acceptNs := s.time.ns, acceptCycle := s.time.cycles, odu := some odu, pool := pool, occ := occupancy 15232 }
      let n := newFrm f s
      retWrite n.1 payload n.2

/-! ## Injection (R35, R446) -/

/-- Port a queue is bound to. -/
def Queue.portOf (x : Queue) (q i : Nat) : Nat := x.port.getD (8 * q + i / 128)
/-- Queue `i` of the port-direction's scheduler is active (R281). -/
def queueActive (s : State) (p : PD) (i : Nat) : Bool :=
  let x := s.queue p i
  x.enabled && ethPort s (x.portOf (p.port / 8) i)
/-- Default egress queue of a port-direction (R83). -/
def defaultQueue (s : State) (p : PD) : Nat := s.odNat (match p.dir with | .s2l => 0x2018 | .l2s => 0x2019) (p.port + 1)

/-- Give the part's own frame to the injection FIFO (R35). -/
def injectOwn (p : PD) (data : Octets) (origin : Origin) (treatment : Nat) (stamp : Bool) (sc : Nat) (dreq : Option Nat) (s : State) : State :=
  { s with path := { s.path with inject := s.path.inject ++ [{ pd := p, data := data, origin := origin, treatment := treatment, stamp := stamp, sc := sc, queue := none, ingress := 0, report := none, ring := none, dreq := dreq }] } }

/-- A valid transmit SC of port `n`. -/
def txScOk (s : State) (sc n : Nat) : Bool := let r := s.sc sc; decide (sc < 16384) && r.valid && !r.rx && r.port == n

/-- Status of an injection descriptor for a frame (R446): 0 where it can be accepted. -/
def injectStatus (s : State) (d frame : Octets) : Nat :=
  let len := leAt d 8 2
  let n := octet d 10
  let c := octet d 11
  let p : PD := ⟨Fin.ofNat 32 n, if bitAt c 0 then .l2s else .s2l⟩
  let treat := bits c 2 1
  if len < 60 ∨ 10236 < len ∨ frame.length ≠ len ∨ treat = 3 ∨ (treat = 1 ∧ bitAt c 0) ∨ (bitAt c 5 ∧ 1023 < leAt d 14 2) ∨ (bitAt c 4 ∧ 31 < octet d 20) then 1
  else if 32 ≤ n ∨ !ethPort s n ∨ (treat = 1 ∧ !txScOk s (leAt d 12 2) n) then 2
  else if !queueActive s p (if bitAt c 5 then leAt d 14 2 else defaultQueue s p) then 3
  else 0

/-- The completion of an injection descriptor with a status (R446): the host tag echoed. -/
def injectCompletion (d : Octets) (status : Nat) : Octets := zeros 24 ++ slice d 24 4 ++ zeros 2 ++ [BitVec.ofNat 8 status, 1]

/-- Resolve a 33-bit stamp against the present time: a total in 2^-16 ns (R310). -/
def resolveStamp (s : State) (s33 : Nat) : Nat :=
  let full := s.time.ns
  let delta := (s33 + 2 ^ 33 - full % 2 ^ 33) % 2 ^ 33
  let t := if 2 ^ 32 ≤ delta then full + delta - 2 ^ 33 else full + delta
  t * 65536

/-- The injection FIFO can take a frame: the words of those that wait there do not fill it (R20). -/
def injectRoom (s : State) : Bool := decide (s.path.inject.foldl (fun n i => n + edgeWords edgeInject i.data.length) 0 < edgeDepth edgeInject)

/-- Consume the next descriptor of an injection ring. -/
def injectNext (q : Nat) (frame : Octets) (s : State) : State :=
  let r := 576 + q
  match (s.ring r).posted with
  | [] => s
  | (d, _) :: _ =>
    if (s.ring r).state ≠ 1 || !injectRoom s then s
    else
      let st := injectStatus s d frame
      if st ≠ 0 then ringComplete r (injectCompletion d st) s
      else
        let c := octet d 11
        let p : PD := ⟨Fin.ofNat 32 (octet d 10), if bitAt c 0 then .l2s else .s2l⟩
        let i : Inject := { pd := p, data := frame, origin := .host, treatment := bits c 2 1, stamp := bitAt c 3, sc := leAt d 12 2, queue := if bitAt c 5 then some (leAt d 14 2) else none, ingress := resolveStamp s (leAt d 16 4 + bit (bitAt c 6) * 2 ^ 32), report := if bitAt c 4 then some (octet d 20, leAt d 24 4) else none, ring := some (r, d), dreq := none }
        let s := updRing r (fun x => { x with posted := x.posted.drop 1 }) s
        { s with path := { s.path with inject := s.path.inject ++ [i] } }

/-- Write the completion of an accepted injection: the descriptor was consumed when it entered the FIFO. -/
def injectDone (r : Nat) (d : Octets) (s : State) : State :=
  if (s.ring r).state ≠ 1 then s
  else
    let i := (s.ring r).part
    gatherOne r (updRing r (fun x => { x with part := (i + 1) % ringSlots s r }) (ringWrite r i (injectCompletion d 0) s))

/-- Accept the frame at the head of the injection FIFO (R35, R222): the next sequence number of its port-direction. -/
def injectAccept (s : State) : State :=
  match s.path.inject with
  | [] => s
  | i :: rest =>
    let len := i.data.length + 4
    match poolFor s flightOrder (occupancy len) with
    | none => s
    | some pool =>
      let s := { s with path := { s.path with inject := rest } }
      let s := edgePass edgeInject i.data.length (poolTake pool (occupancy len) s)
      let q := takeSeq i.pd s
      let s := q.2
      let timed := i.treatment == 2 || i.dreq.isSome
      let budget := budgetOf s i.pd.port
      let launch := (if i.stamp || i.dreq.isSome then s.time.now else i.ingress) + budget * 65536
      let f : Frm := { pd := i.pd, seq := q.1, data := i.data, origin := i.origin, stage := .classified, verdict := if i.treatment = 1 ∨ (i.dreq.isSome ∧ i.sc ≠ 0xFFFF) then .protect else .bypass, parsed := true, acceptNs := s.time.ns, acceptCycle := s.time.cycles, stamp := s.time.now, budget := budget, timed := timed, stamped := i.stamp || i.dreq.isSome, launch := launch, queue := i.queue.getD (defaultQueue s i.pd), report := i.report, injSc := if i.treatment = 1 ∨ (i.dreq.isSome ∧ i.sc ≠ 0xFFFF) then some i.sc else none, pool := pool, occ := occupancy len, dreq := i.dreq }
      let n := newFrm f s
      let s := retWrite n.1 i.data n.2
      let s := match i.dreq with
        | some q => { s with time := { s.time with dreqs := s.time.dreqs.map (fun w => if w.seqId = q then { w with t3 := launch } else w) } }
        | none => s
      match i.ring with
      | some (r, d) => injectDone r d s
      | none => s

/-! ## Commands -/

/-- R45, R79. -/
def execGougeParseStart (pd : PD) (cluster : Fin 8) (gouge : Fin 16) (header : Octets) (len : Nat) (parityFails : Fin 3) (s : State) : Out :=
  .next (gougeStart pd cluster gouge header len parityFails s)

/-- R79: a gouge that has not executed END within 100 ns is taken out of service and its frame re-parsed on another. -/
def execGougeParseTimeout (cluster : Fin 8) (gouge : Fin 16) (s : State) : Out :=
  .next (match findFrm s (fun f => f.gouge == some (cluster.val, gouge.val) && !f.parsed) with
    | none => s
    | some q =>
      parityFailed q.1 cluster gouge s)

/-- R222. -/
def execFrameAccepted (pd : PD) (rx : Received) (s : State) : Out :=
  .next (match rx with
    | .ethernet data fcsBad ago => acceptEthernet pd data fcsBad ago s
    | .tributary t payload overhead jc => acceptTributary pd t payload overhead jc s)

/-- R90, R301. -/
def execPauseReceived (port : Fin 32) (quanta : BitVec 16) (s : State) : Out :=
  .next (if ethPort s port then pauseFrame port quanta.toNat (macCount ⟨port, .s2l⟩ 5 1 s) else s)

/-- R90, R301. -/
def execPfcReceived (port : Fin 32) (enable : BitVec 8) (times : List (BitVec 16)) (s : State) : Out :=
  .next (if ethPort s port then pfcFrame port enable (times.map BitVec.toNat) (macCount ⟨port, .s2l⟩ 5 1 s) else s)

/-- R301: a pause time ends, of PAUSE (no priority) or of one PFC priority. -/
def execPauseTimeExpiry (port : Fin 32) (prio : Option (Fin 8)) (s : State) : Out :=
  let p : PD := ⟨port, .l2s⟩
  .next (match prio with
    | none => match (s.pd p).pausedUntil with
      | some c => updPd p (fun r => { r with pausedUntil := none }) (waitCycle c s)
      | none => s
    | some k => match (s.pd p).pfcUntil.find k.val with
      | some c => updPd p (fun r => { r with pfcUntil := r.pfcUntil.drop k.val }) (waitCycle c s)
      | none => s)

/-- R446. -/
def execInjectionDescriptor (ring : Fin 512) (frame : Octets) (s : State) : Out := .next (injectNext ring frame s)

/-- R35. -/
def execInjectedFrameAccepted (s : State) : Out := .next (injectAccept s)

end Sys2Proof.Machine
end

