-- ==== Sys2Proof/Machine/Classify.lean ====
section
/-! DEFINITION. Classification: fixed checks, malformed actions and steering (R52, R53), profiles and the tree walk (R55 to
R62), actions (R63, R64), policers (R74 to R78), rule-block fills and retiring cuts (R62, R69, R80). -/
namespace Sys2Proof.Machine

/-! ## Profiles and rules -/

/-- Pack a key vector by a profile's segments into `acc` of `used` bits (R55). -/
def packWord (kv : Nat) : List Octets → Nat → Nat → Nat
  | [], used, acc => acc * 2 ^ (192 - used)
  | g :: t, used, acc =>
    let w := octet g 3
    let m := leAt g 0 2 % 512
    if w = 0 then packWord kv t used acc else packWord kv t (used + w) (acc * 2 ^ w + bits kv m (m + 1 - w))

/-- The 192-bit compare word of a key vector (R55). -/
def compareWord (profile : Octets) (kv : BitVec 512) : Nat := packWord kv.toNat (recordsOf 4 (padTo 32 profile)) 0 0

/-- Total width of a profile's segments, and whether each stays above key-vector bit 0 (R56). -/
def profileOk (profile : Octets) : Bool :=
  let segs := (recordsOf 4 profile).filter (fun g => octet g 3 ≠ 0)
  decide (segs.foldl (fun a g => a + octet g 3) 0 ≤ 192) && segs.all (fun g => decide (octet g 3 ≤ leAt g 0 2 % 512 + 1) && decide (octet g 3 ≤ 192))

/-! ## Tree lines (R58) -/

/-- Windows of an internal node: most significant bit and width, window 0 first. -/
def nodeWindows (line : Nat) : List (Nat × Nat) := [507, 494, 481, 468].map (fun hi => (bits line hi (hi - 8), bits line (hi - 9) (hi - 12)))

/-- Child index of an internal node: its windows of the key vector, window 0 most significant. -/
def nodeIndex (line : Nat) (kv : BitVec 512) : Nat :=
  (nodeWindows line).foldl (fun acc q => if q.2 = 0 then acc else acc * 2 ^ q.2 + bits kv.toNat q.1 (q.1 + 1 - q.2)) 0

/-- What a walk comes to. -/
inductive Walk where
  /-- First match. -/
  | hit (action : BitVec 128)
  /-- No rule matches. -/
  | miss
  /-- A line of an invalid type (R58). -/
  | invalid (line : Nat)
  /-- The rule block is not resident. -/
  | fill (lines : List Nat)
deriving DecidableEq, Repr

/-- A tree-store line as a walk reads it; 0, an invalid line, where it is lost (R350, R369). -/
def treeLine (s : State) (line : Nat) : Nat := if treeLineLost s line then 0 else (s.cls.lines.get line 0).toNat

/-- Rules of all live cuts. -/
def State.liveRules (s : State) : Nat := s.cls.cuts.foldl (fun a c => a + c.rules.foldl (fun b t => b + t.2.length) 0) 0

/-- Every rule line is resident (R62, OD 0x2050.06). -/
def rulesResident (s : State) : Bool := decide (s.liveRules ≤ 131072)

/-- Compare the rules of a block in order. -/
def matchBlock (s : State) (word : Nat) : List Nat → Walk
  | [] => .miss
  | l :: t =>
    let r := treeLine s l
    let m := bits r 319 128
    if (word &&& m) = (bits r 511 320 &&& m) then .hit (BitVec.ofNat 128 (bits r 127 0)) else matchBlock s word t

/-- Walk from a line (R59); a tree has at most 12 internal levels above a leaf (R60). -/
def walkFrom (s : State) (filled : Bool) (profile : Octets) (kv : BitVec 512) : Nat → Nat → Walk
  | 0, line => .invalid line
  | n + 1, line =>
    let l := treeLine s line
    if bits l 511 510 = 1 then walkFrom s filled profile kv n (bits l 455 424 + nodeIndex l kv)
    else if bits l 511 510 = 2 then
      let block := (List.range (bits l 509 506)).map (fun i => bits l 505 474 + i)
      if block.any (fun b => treeLineLost s b) then .invalid line
      else if filled || rulesResident s || block.all (fun b => s.cls.resident.contains b) then matchBlock s (compareWord profile kv) block
      else .fill block
    else .invalid line

/-- A live cut by number. -/
def State.cut? (s : State) (n : Nat) : Option Cut := s.cls.cuts.find? (fun c => c.number == n && c.state != .compiling)

/-- Walk the start table of a frame's port-direction as its cut has it (R52, R68). A table with no tree has no rules. -/
def walkFrame (s : State) (filled : Bool) (f : Frm) : Walk :=
  match s.cut? f.cut with
  | none => .miss
  | some c =>
    let t := c.starts.get f.pd.key 0
    match c.roots.find t with
    | none => .miss
    | some root => walkFrom s filled (c.profiles.get t (zeros 32)) f.kv 13 root

/-! ## Policing (R74 to R78) -/

/-- Colours. -/
inductive Colour where
  | green | yellow | red
deriving DecidableEq, Repr

/-- 1/256 octets that `kbps` gives in `ns` nanoseconds. -/
def tokensIn (kbps ns : Nat) : Nat := kbps * ns * 32 / 1000000

/-- One policer update at time `now` for `len` octets, pre-coloured yellow or not (R75, R76, R78, RFC 2697, RFC 2698). -/
def policerUpdate (p : Policer) (now len : Nat) (pre : Bool) : Policer × Colour :=
  let dt := now - p.last
  let l := 256 * ((max 1 ((len : Int) + p.adjust)).toNat)
  let pre := pre && p.aware
  if p.mode = 1 then
    let got := p.tc + tokensIn p.cir dt
    let tc := min (256 * p.cbs) got
    let te := min (256 * p.ebs) (p.tp + (got - tc))
    let q := { p with last := now, tc := tc, tp := te }
    if !pre && decide (l ≤ tc) then ({ q with tc := tc - l }, .green)
    else if l ≤ te then ({ q with tp := te - l }, .yellow)
    else (q, .red)
  else
    let tc := min (256 * p.cbs) (p.tc + tokensIn p.cir dt)
    let tp := min (256 * p.ebs) (p.tp + tokensIn p.pir dt)
    let q := { p with last := now, tc := tc, tp := tp }
    if tp < l then (q, .red)
    else if pre || decide (tc < l) then ({ q with tp := tp - l }, .yellow)
    else ({ q with tp := tp - l, tc := tc - l }, .green)

/-- Police a frame by policer `i` of its direction: the state and whether the frame passes, or the cause of its drop. -/
def police (i : Nat) (f : Frm) (s : State) : Option Cause × State :=
  let k := 4096 * f.pd.dir.num + i
  let p := s.cls.policers.get k {}
  if p.mode = 0 then (none, s)
  else
    let pre := decide (1 ≤ kvTags f.kv) && bitAt (kvGet f.kv 377 362) 12
    let r := policerUpdate p f.acceptNs (f.data.length + 4) pre
    let col := match r.2 with | .green => 0 | .yellow => 1 | .red => 2
    let s := { s with cls := { s.cls with policers := s.cls.policers.put k r.1, polCounters := s.cls.polCounters.bump (3 * k + col) 1 } }
    match r.2 with
    | .green => (none, s)
    | .yellow => (if p.yellow = 1 then some .policerYellow else none, s)
    | .red => (if p.red = 1 then none else some .policerRed, s)

/-! ## Settling a frame -/

/-- Settle classification of a frame with a verdict. -/
def settleClass (id : Nat) (v : Verdict) (s : State) : State := updFrm id (fun f => { f with verdict := v, stage := .classified }) s

/-- PTP transit is on for a port-direction (OD 0x2405). -/
def transitOn (s : State) (p : PD) : Bool := bitAt (s.odNat 0x2405 (p.port + 1)) p.dir.num

/-- The verdict of a record's disposition (R64). -/
def actionVerdict (a : Nat) : Verdict :=
  if bits a 127 125 = 1 then .bypass else if bits a 127 125 = 2 then .protect else .punt (bits a 83 75) (bits a 74 72) 0

/-- A frame accepted before frame `f` in its direction, equal times by port, is not yet through its walk (R75). -/
def policeWaits (f : Frm) (s : State) : Bool :=
  s.path.frames.any (fun q => q.2.pd.dir == f.pd.dir && q.2.origin == .wire && (q.2.stage == .accepted || q.2.stage == .waitFill) &&
    (decide (q.2.acceptNs < f.acceptNs) || (q.2.acceptNs == f.acceptNs && decide (q.2.pd.port.val < f.pd.port.val))))

/-- The frame to police next: of those that wait, the first by acceptance time, then by port (R75). -/
def policeNext (s : State) : Option (Nat × Frm) :=
  (s.path.frames.filter (fun q => q.2.stage == .policing && !policeWaits q.2 s)).foldl (fun m q => match m with
    | none => some q
    | some r => if q.2.acceptNs < r.2.acceptNs ∨ (q.2.acceptNs = r.2.acceptNs ∧ q.2.pd.port.val < r.2.pd.port.val) then some q else some r) none

/-- Police, in order, every frame that no earlier one holds back (R75, R78). -/
def policeAll : Nat → State → State
  | 0, s => s
  | n + 1, s =>
    match policeNext s with
    | none => s
    | some q =>
      let a := q.2.action.toNat
      let r := police (bits a 123 112) q.2 s
      policeAll n (settleClass q.1 (match r.1 with | some c => .drop c | none => actionVerdict a) r.2)

/-- Police what can be policed now. -/
def policeSettle (s : State) : State := policeAll s.path.frames.length s

/-- Apply an action record (R63, R64, R66); the record of a default action counts its hit counter too (log 21). A frame to police takes
its turn (R75). -/
def applyAction (id : Nat) (f : Frm) (action : BitVec 128) (isDefault : Bool) (s : State) : State :=
  let a := action.toNat
  let disp := bits a 127 125
  let s := { s with cls := { s.cls with hits := s.cls.hits.bump (bits a 71 56) 1 } }
  let queue := if bitAt a 111 then bits a 110 101 else defaultQueue s f.pd
  let timed := transitOn s f.pd && kvFlag f.kv 2 && (disp == 1 || (disp == 2 && f.pd.dir == .s2l))
  let s := updFrm id (fun f => { f with action := action, queue := queue, timed := timed, launch := f.stamp + f.budget * 65536 }) s
  if disp = 0 ∨ 3 < disp then settleClass id (.drop (if isDefault then .defaultDrop else .ruleDrop)) s
  else if bitAt a 124 then updFrm id (fun f => { f with stage := .policing }) s
  else settleClass id (actionVerdict a) s

/-- The default action of a port-direction. -/
def defaultAction (s : State) (p : PD) : BitVec 128 :=
  BitVec.ofNat 128 (beNat (s.od (match p.dir with | .s2l => 0x2012 | .l2s => 0x2013) (p.port + 1)))

/-- Walk a frame and apply what it finds; an invalid line is met twice and then the default action applies, with a
memory-integrity event of the tree store (R80). -/
def walkApply (id : Nat) (f : Frm) (filled : Bool) (s : State) : State :=
  match walkFrame s filled f with
  | .hit a => applyAction id f a false s
  | .miss => applyAction id f (defaultAction s f.pd) true s
  | .invalid line => applyAction id f (defaultAction s f.pd) true (memReport false 2 ((0x100000000 + 64 * line) / 4096) s)
  | .fill _ => updFrm id (fun f => { f with stage := .waitFill }) s

/-- Malformed classes: flag and lowest bit of its action (R83). -/
def malformedClasses : List (Nat × Nat) := [(13, 10), (12, 8), (11, 6), (9, 4), (8, 2), (3, 0)]

/-- The malformed action that applies: drop over punt over bypass over classify (R52). -/
def malformedAction (s : State) (f : Frm) : Nat :=
  let w := s.odNat (match f.pd.dir with | .s2l => 0x2014 | .l2s => 0x2015) (f.pd.port + 1)
  let acts := (malformedClasses.filter (fun c => kvFlag f.kv c.1)).map (fun c => bits w (c.2 + 1) c.2)
  if acts.contains 1 then 1 else if acts.contains 2 then 2 else if acts.contains 3 then 3 else 0

/-- The fixed checks, malformed actions, steering and walk of R52. -/
def classify (id : Nat) (f : Frm) (s : State) : State :=
  let n := f.pd.port.val
  let st := s.odNat (match f.pd.dir with | .s2l => 0x2016 | .l2s => 0x2017) (n + 1)
  if kvFlag f.kv 15 then settleClass id (.drop .fcs) s
  else if kvFlag f.kv 14 then settleClass id (.drop .microcode) s
  else match malformedAction s f with
    | 1 => settleClass id (.drop .malformed) s
    | 2 => settleClass id (.punt (16 * n + 3) 0 3) s
    | 3 => settleClass id .bypass (updFrm id (fun f => { f with queue := defaultQueue s f.pd, timed := transitOn s f.pd && kvFlag f.kv 2, launch := f.stamp + f.budget * 65536 }) s)
    | _ =>
      let uz := if kvFlag f.kv 1 then bits st 1 0 else 0
      let ea := if kvFlag f.kv 0 then bits st 3 2 else 0
      if uz = 1 then settleClass id .toUrzidun s
      else if uz = 2 then settleClass id (.drop .steering) s
      else if ea = 1 then settleClass id (.punt (16 * n) 0 1) s
      else if ea = 2 then settleClass id (.drop .steering) s
      else walkApply id f false s

/-! ## Cuts (R69, R70) -/

/-- A frame still to be walked under cut `n`. -/
def cutInUse (s : State) (n : Nat) : Bool :=
  s.path.frames.any (fun q => q.2.cut == n && q.2.origin == .wire && (q.2.stage == .receiving || q.2.stage == .accepted || q.2.stage == .waitFill))

/-- Release a cut and the lines no other live cut shares. -/
def freeCut (n : Nat) (s : State) : State :=
  match s.cls.cuts.find? (fun c => c.number == n) with
  | none => s
  | some c =>
    let rest := s.cls.cuts.filter (fun x => x.number != n)
    let kept := (rest.map (fun x => x.nodes ++ x.ruleLines)).flatten
    let gone := (c.nodes ++ c.ruleLines).filter (fun l => !kept.contains l)
    let lines := gone.foldl (fun (t : Tab (BitVec 512)) l => t.drop l) s.cls.lines
    { s with cls := { s.cls with cuts := rest, lines := lines, resident := s.cls.resident.filter (fun l => !gone.contains l) } }

/-- Begin compiling for a commit: a new cut in state Compiling with the next number (R68, R69). -/
def startCompile (s : State) : State :=
  let n := (s.currentCut + 1) % 256
  { s with cls := { s.cls with cuts := s.cls.cuts ++ [{ number := n, state := .compiling }] }, ctl := { s.ctl with job := s.ctl.job.map (fun j => { j with waiting := false, cut := n }) } }

/-- Last walk of a Retiring cut has ended: it becomes Free, and a commit that waited for it compiles (R69, R70). -/
def cutRetire (n : Nat) (s : State) : State :=
  match s.cls.cuts.find? (fun c => c.number == n) with
  | some c =>
    if c.state != .retiring || cutInUse s n then s
    else
      let s := freeCut n s
      match s.ctl.job with
      | some j => if j.waiting && decide (s.cls.cuts.length < 4) then startCompile s else s
      | none => s
  | none => s

/-! ## Commands -/

/-- R52: the next accepted frame of the port-direction whose gouge has executed END. -/
def execClassifyFrame (pd : PD) (s : State) : Out :=
  .next (match nextFrm s pd (fun f => f.stage == .accepted && (f.parsed || f.gouge.isSome)) with
    | some q =>
      let s := endParse q.1 s
      policeSettle (classify q.1 { q.2 with parsed := true, gouge := none } s)
    | none => policeSettle s)

/-- Read rule lines from their backing copy: whether the memory protection unit delivers them all. -/
def fillRead : List Nat → State → Bool × State
  | [], s => (true, s)
  | l :: t, s =>
    let r := readLine 8 (treeAt l) (edgePass (edgeStack (treeAt l)) 64 s)
    let q := fillRead t r.2
    (r.1.isSome && q.1, q.2)

/-- The rule block a walk waits for is read; its lines become resident, the oldest leaving beyond 131,072 (R62). -/
def fillBlock (f : Frm) (s : State) : State :=
  match walkFrame s false f with
  | .fill ls =>
    let r := fillRead ls s
    if r.1 then
      let res := s.cls.resident ++ ls.filter (fun l => !s.cls.resident.contains l)
      { r.2 with cls := { r.2.cls with resident := res.drop (res.length - 131072) } }
    else r.2
  | _ => s

/-- R62: the rule block a walk waits for arrives, or is lost; the walk goes on. -/
def execRuleBlockFill (pd : PD) (s : State) : Out :=
  .next (match nextFrm s pd (fun f => f.stage == .waitFill) with
    | some q => policeSettle (walkApply q.1 q.2 true (fillBlock q.2 (settleRewrites s)))
    | none => policeSettle s)

/-- R69. -/
def execCutRetired (cut : BitVec 8) (s : State) : Out := .next (cutRetire cut.toNat s)

end Sys2Proof.Machine
end

