-- ==== Sys2Proof/Machine/Records.lean ====
section
/-! DEFINITION. The records of the dictionary's tables as octets: SA (R258), SC (R95), rollover (R265), tributary (R141), queue
(R283), policer (R85), slot (R331), and what a record that a commit writes does to the one it replaces. -/
namespace Sys2Proof.Machine

/-- One octet of a number. -/
def oct (n : Nat) : Octets := [BitVec.ofNat 8 n]

/-! ## SA -/

/-- Byte 0 of an SA record. -/
def Sa.byte0 (a : Sa) : Nat :=
  bit a.valid + 2 * bit a.rx + 4 * bit a.trib + 8 * bit a.enabled + 16 * bit a.frozen + 32 * bit a.notice + 64 * bit a.keyBad + 128 * bit a.retiring

/-- The 64 octets of an SA record (R258). -/
def Sa.octets (a : Sa) : Octets :=
  oct a.byte0 ++ oct a.suite ++ leBytes 2 a.slot ++ leBytes 4 a.ssci ++ padTo 12 a.salt ++ leBytes 8 a.n ++ leBytes 8 a.l ++ leBytes 8 a.keyId ++
  leBytes 4 a.store ++ leBytes 4 a.succ ++ oct a.cause ++ zeros 11

/-- The writable fields of an SA record. -/
def Sa.written (b : Octets) (a : Sa) : Sa :=
  let f := octet b 0
  { a with valid := bitAt f 0, rx := bitAt f 1, trib := bitAt f 2, enabled := bitAt f 3, suite := octet b 1, slot := leAt b 2 2, ssci := leAt b 4 4, salt := slice b 8 12, n := leAt b 20 8, l := leAt b 28 8, succ := leAt b 48 4 }

/-- The writable fields of a record's octets agree with the record (R526). -/
def Sa.same (a : Sa) (b : Octets) : Bool := { a with salt := padTo 12 a.salt } == a.written b

/-- An SA keeps its identity: nothing of what R259 calls a new key has changed. -/
def Sa.sameKey (a b : Sa) : Bool := a.rx == b.rx && a.trib == b.trib && a.suite == b.suite && a.slot == b.slot && a.ssci == b.ssci && padTo 12 a.salt == padTo 12 b.salt

/-- The record that a write leaves at an index: a new association starts with its read-only fields clear; an association made
Invalid keeps its fields while it is Retiring (R258, R260). `keyId` is the slot's. -/
def Sa.after (old : Sa) (b : Octets) (keyId : Nat) : Sa :=
  let w := old.written b
  if old.valid && !w.valid then { old with retiring := true }
  else if old.valid && old.sameKey w then w
  else { w with frozen := false, notice := false, keyBad := false, retiring := false, keyId := keyId, store := 0xFFFFFFFF, cause := 0, rollAt := 0 }

/-! ## SC -/

/-- The 32 octets of an SC record (R95). -/
def Sc.octets (r : Sc) : Octets :=
  padTo 8 r.sci ++ oct (bit r.valid + 2 * bit r.rx + 4 * bit r.conf + 8 * bit r.inclSci + 16 * bit r.es + 32 * bit r.implicit + 64 * bit r.replay) ++
  oct r.suite ++ oct r.port ++ oct r.offset ++ oct r.clearTags ++ oct r.txAn ++ zeros 2 ++ leBytes 2 r.sa0 ++ leBytes 2 r.sa1 ++ leBytes 2 r.sa2 ++ leBytes 2 r.sa3 ++
  leBytes 4 r.window ++ zeros 4

/-- An SC record from its octets. -/
def Sc.ofOctets (b : Octets) : Sc :=
  let f := octet b 8
  { sci := slice b 0 8, valid := bitAt f 0, rx := bitAt f 1, conf := bitAt f 2, inclSci := bitAt f 3, es := bitAt f 4, implicit := bitAt f 5, replay := bitAt f 6, suite := octet b 9, port := octet b 10, offset := octet b 11, clearTags := octet b 12, txAn := octet b 13, sa0 := leAt b 16 2, sa1 := leAt b 18 2, sa2 := leAt b 20 2, sa3 := leAt b 22 2, window := leAt b 24 4 }

/-! ## Rollover -/

/-- The 32 octets of a rollover record (R265). -/
def Roll.octets (r : Roll) : Octets :=
  oct (bit r.armed + 2 * bit r.chain + 4 * bit r.atNotice) ++ oct r.incoming ++ oct r.state ++ oct r.reason ++ leBytes 4 r.guardUs ++ time96 r.t ++ zeros 12

/-- The writable fields of a rollover record. -/
def Roll.written (b : Octets) (r : Roll) : Roll :=
  let f := octet b 0
  { r with armed := bitAt f 0, chain := bitAt f 1, atNotice := bitAt f 2, incoming := octet b 1 % 4, guardUs := leAt b 4 4, t := time96Of (slice b 8 12) }

/-- The writable fields of a record's octets agree with the record (R526). -/
def Roll.same (a : Roll) (b : Octets) : Bool := a == a.written b

/-- The record that a write leaves: Armed or Idle (R266). -/
def Roll.after (old : Roll) (b : Octets) : Roll :=
  let w := old.written b
  { w with state := if w.armed then 1 else 0, reason := 0, outgoing := 0xFFFF, outgoingRx := 0xFFFF, extended := false }

/-! ## Tributary -/

/-- The 80 octets of a tributary record (R141). -/
def Trib.octets (r : Trib) : Octets :=
  oct (bit r.valid + 4 * r.mode + 32 * bit r.squelch) ++ oct r.kind ++ oct r.slots ++ oct r.pt ++ leBytes 4 r.rate ++ leBytes 2 r.ident ++ oct r.txKi ++ oct 0 ++
  ((List.range 8).map (fun i => leBytes 2 (r.sas.get i 0xFFFF))).flatten ++ leBytes 20 r.sysMap.toNat ++ leBytes 20 r.lineMap.toNat ++
  leBytes 2 r.sysPort ++ leBytes 2 r.linePort ++ zeros 8

/-- The record's fields as octets give them. -/
def Trib.written (b : Octets) (r : Trib) : Trib :=
  let f := octet b 0
  { r with valid := bitAt f 0, mode := bits f 3 2, squelch := bitAt f 5, kind := octet b 1, slots := octet b 2, pt := octet b 3, rate := leAt b 4 4, ident := leAt b 8 2, txKi := octet b 10, sas := (List.range 8).map (fun i => (i, leAt b (12 + 2 * i) 2)), sysMap := BitVec.ofNat 160 (leAt b 28 20), lineMap := BitVec.ofNat 160 (leAt b 48 20), sysPort := leAt b 68 2, linePort := leAt b 70 2 }

/-! ## Queue -/

/-- The 32 octets of a queue record (R283); `dflt` is the port R280 binds it to. -/
def Queue.record (x : Queue) (dflt : Nat) : Octets :=
  oct (bit x.enabled + 2 * bit x.shaper) ++ oct (x.port.getD dflt) ++ oct x.level ++ oct x.prio ++ leBytes 4 x.quantum ++ leBytes 4 x.cir ++ leBytes 4 x.pir ++
  leBytes 4 x.cbs ++ leBytes 4 x.pbs ++ oct (unsign 8 x.overhead) ++ zeros 3 ++ leBytes 4 x.limit

/-- The record's fields as octets give them. -/
def Queue.written (b : Octets) (x : Queue) : Queue :=
  let f := octet b 0
  { x with enabled := bitAt f 0, shaper := bitAt f 1, port := some (octet b 1), level := octet b 2 % 4, prio := octet b 3 % 8, quantum := leAt b 4 4, cir := leAt b 8 4, pir := leAt b 12 4, cbs := leAt b 16 4, pbs := leAt b 20 4, overhead := signed 8 (octet b 24), limit := leAt b 28 4 }

/-! ## Policer -/

/-- The 32 octets of a policer record (R85). -/
def Policer.octets (p : Policer) : Octets :=
  oct p.mode ++ oct (bit p.aware) ++ oct p.yellow ++ oct p.red ++ leBytes 4 (unsign 32 p.adjust) ++ leBytes 4 p.cir ++ leBytes 4 p.pir ++ leBytes 4 p.cbs ++ leBytes 4 p.ebs ++ zeros 8

/-- A policer record from its octets, its buckets full (log 19). -/
def Policer.ofOctets (b : Octets) (now : Nat) : Policer :=
  { mode := octet b 0, aware := bitAt (octet b 1) 0, yellow := octet b 2, red := octet b 3, adjust := signed 32 (leAt b 4 4), cir := leAt b 8 4, pir := leAt b 12 4, cbs := leAt b 16 4, ebs := leAt b 20 4, tc := 256 * leAt b 16 4, tp := 256 * leAt b 20 4, last := now }

/-- The limits of R85. -/
def Policer.ok (p : Policer) : Bool :=
  decide (p.mode ≤ 2) && decide (p.yellow ≤ 1) && decide (p.red ≤ 1) && decide (-64 ≤ p.adjust) && decide (p.adjust ≤ 64) && decide (p.cbs ≤ 16777215) && decide (p.ebs ≤ 16777215)

/-! ## Slot -/

/-- The 48 octets of a slot record (R331). -/
def Slot.octets (r : Slot) : Octets :=
  oct (bit r.armed + 2 * bit r.periodic) ++ oct r.action ++ oct r.target ++ oct (bit r.level) ++ time96 r.first ++ leBytes 8 r.period ++ leBytes 4 r.width ++
  leBytes 4 r.repeats ++ leBytes 4 r.fired ++ leBytes 4 r.missed ++ oct r.state ++ zeros 7

/-- The record a commit by session `k` leaves: Armed or Idle, its counts at 0; a periodic slot begins at the first occurrence after
`now` (R331 to R333). -/
def Slot.ofOctets (b : Octets) (k now : Nat) : Slot :=
  let f := octet b 0
  let first := time96Of (slice b 4 12)
  let period := leAt b 16 8
  let next := if bitAt f 1 ∧ first ≤ now ∧ 0 < period then first + ((now - first) / (period * 65536) + 1) * (period * 65536) else first
  { armed := bitAt f 0, periodic := bitAt f 1, action := octet b 1, target := octet b 2, level := bitAt (octet b 3) 0, first := first, period := period, width := leAt b 24 4, repeats := leAt b 28 4, state := if bitAt f 0 then 1 else 0, next := next, holder := if bitAt f 0 ∧ octet b 1 = 3 then some k else none }

end Sys2Proof.Machine
end

