-- ==== Sys2Proof/Machine/Slots.lean ====
section
/-! DEFINITION. Key slots and their two mirrors (R254 to R257), SAs that retire (R260), the frame period of a tributary (R142)
and the taking of a rollover (R266, R267, R273). -/
namespace Sys2Proof.Machine

/-! ## Slot copies -/

/-- A copy passes its check. -/
def copyOk (s : State) (target : Nat) (c : Copy) : Bool := c.check == copyCheck s target c

/-- A filled slot with two equal mirrors. -/
def filledSlot (s : State) (target : Nat) (c : Copy) : KeySlot :=
  let c := { c with check := copyCheck s target c }
  { state := .filled, a := c, b := c }

/-- Overwrite both copies of a Releasing slot and leave it Free, or Bad where one copy is bad (R255). -/
def KeySlot.emptied (x : KeySlot) : KeySlot := { state := if x.copyBad = 0 then .free else .bad }

/-- Freeze every SA of a data slot with a cause (R255, R274). -/
def freezeSlotSas (target cause : Nat) (s : State) : State :=
  if 0x8000 ≤ target then s
  else (sasOfSlot s target).foldl (fun s i => freezeSa i cause (if cause = 2 then updSa i (fun a => { a with keyBad := true }) s else s)) s

/-- Both copies of a slot have failed (R255): Bad, its SA frozen, the event posted. -/
def slotBad (target : Nat) (s : State) : State :=
  let s := updSlot target (fun x => { x with state := .bad }) s
  freezeSlotSas target 2 (keyEvent 2 (keyCount 4 (post { type := 0x3404, source := target } s)))

/-- One copy of a Filled or Releasing slot fails its check (R255): `chuckB` says which. -/
def copyFails (target : Nat) (chuckB : Bool) (s : State) : State :=
  let x := s.slot target
  let me := if chuckB then 2 else 1
  if !(x.state == .filled || x.state == .releasing) || x.copyBad == me then s
  else
    let s := keyCount 3 s
    if x.copyBad ≠ 0 then slotBad target s
    else keyEvent 1 (post { type := 0x3403, source := target, a := bit chuckB } (updSlot target (fun x => { x with copyBad := me }) s))

/-- The copies of a slot in the order in which they are read: chuck A's first unless A is isolated (R256). -/
def copyOrder (s : State) : List Bool :=
  if s.keys.isoA then [true] else if s.keys.isoB then [false] else [false, true]

/-- Read a slot's key, verifying the check at each read (R254, R256); none where no copy passes. -/
def readSlot (target : Nat) (s : State) : Option Copy × State :=
  let x := s.slot target
  if !(x.state == .filled || x.state == .releasing) then (none, s)
  else
    (copyOrder s).foldl (fun (r : Option Copy × State) b =>
      match r.1 with
      | some c => (some c, r.2)
      | none =>
        let c := if b then x.b else x.a
        if copyOk r.2 target c && x.copyBad != (if b then 2 else 1) then (some c, r.2) else (none, copyFails target b r.2)) (none, s)

/-- Take a reference on a data slot for a frame (R196). -/
def slotRef (slot : Nat) (s : State) : State := updSlot slot (fun x => { x with refs := x.refs + 1 }) s

/-- The last reference of a Releasing slot has gone: it becomes Free, or Bad (R255). -/
def slotFree (target : Nat) (s : State) : State :=
  let x := s.slot target
  if x.state == .releasing && x.refs == 0 then updSlot target (fun x => x.emptied) s else s

/-- Give back a reference (R196, R255). -/
def slotUnref (slot : Nat) (s : State) : State := slotFree slot (updSlot slot (fun x => { x with refs := x.refs - 1 }) s)

/-- Delete or release a slot: Free at once where no frame holds it, also with one copy bad; else when the last reference goes (R255, R257). -/
def slotRelease (target : Nat) (s : State) : State :=
  let x := s.slot target
  if x.state == .filled then
    (if x.refs = 0 then updSlot target (fun _ => {}) s else updSlot target (fun x => { x with state := .releasing }) s)
  else s

/-! ## Associations -/

/-- SA index of an SC at an AN, 0xFFFF for none. -/
def Sc.saAt (r : Sc) (an : Nat) : Nat := match an % 4 with | 0 => r.sa0 | 1 => r.sa1 | 2 => r.sa2 | _ => r.sa3
/-- Put an SA index at an AN. -/
def Sc.setSa (r : Sc) (an i : Nat) : Sc := match an % 4 with | 0 => { r with sa0 := i } | 1 => { r with sa1 := i } | 2 => { r with sa2 := i } | _ => { r with sa3 := i }
/-- SA index of a tributary at a KI: S2L or L2S. -/
def Trib.saAt (r : Trib) (d : Dir) (ki : Nat) : Nat := r.sas.get (4 * d.num + ki % 4) 0xFFFF
/-- Put an SA index at a KI. -/
def Trib.setSa (r : Trib) (d : Dir) (ki i : Nat) : Trib := { r with sas := r.sas.put (4 * d.num + ki % 4) i }

/-- An SA that frames can be settled to: Valid and not Retiring. -/
def Sa.live (a : Sa) : Bool := a.valid && !a.retiring
/-- Enabled for use: Valid, Enabled, not Frozen (R107 step 4, R274). -/
def Sa.usable (a : Sa) : Bool := a.live && a.enabled && !a.frozen

/-- Frames still dispatched, or waiting for dispatch, under SA `i` (R260). -/
def saBusy (s : State) (i : Nat) : Bool :=
  s.path.frames.any (fun q => q.2.desc.tokens != 0 && q.2.desc.sa == i && (q.2.stage == .queued || q.2.stage == .dispatched || q.2.stage == .ready))

/-- Make an SA Retiring (R260). -/
def saRetire (i : Nat) (s : State) : State := if (s.sa i).valid then updSa i (fun a => { a with retiring := true }) s else s

/-- A Retiring SA with no frame left becomes Invalid; a slot it loaded from the SA store is released (R257, R260). -/
def saInvalid (i : Nat) (s : State) : State :=
  let a := s.sa i
  if a.retiring && !saBusy s i then
    let s := updSa i (fun a => { a with valid := false, retiring := false, enabled := false }) s
    if a.store ≠ 0xFFFFFFFF then slotRelease a.slot s else s
  else s

/-! ## Tributary rates (R142) -/

/-- Nominal rate in kb/s of a tributary. -/
def Trib.kbps (r : Trib) : Nat :=
  match r.kind with
  | 0 => 1244160
  | 1 => 2498775
  | 2 => 10037274
  | 3 => 10399525
  | 4 => 40319219
  | 5 => 104794446
  | _ => r.rate

/-- Secure block period in ns: 32 frame periods of 122,368 bits. -/
def Trib.blockNs (r : Trib) : Nat := if r.kbps = 0 then 0 else 32 * 122368 * 1000000 / r.kbps

/-! ## Rollover -/

/-- A rollover record by its user. -/
def State.roll (s : State) (u : RollUser) : Roll :=
  match u with
  | .sc i => s.keys.rollSc.get i {}
  | .tributary t => s.keys.rollTrib.get t {}

/-- Change a rollover record. -/
def updRoll (u : RollUser) (f : Roll → Roll) (s : State) : State :=
  match u with
  | .sc i => { s with keys := { s.keys with rollSc := s.keys.rollSc.upd i {} f } }
  | .tributary t => { s with keys := { s.keys with rollTrib := s.keys.rollTrib.upd t {} f } }

/-- Number of a rollover's SC or tributary. -/
def rollNum : RollUser → Nat
  | .sc i => i
  | .tributary t => t

/-- 0 for an SC and 1 for a tributary (R448). -/
def rollKind : RollUser → Nat
  | .sc _ => 0
  | .tributary _ => 1

/-- Guard window in us (R265). -/
def guardOf (s : State) (r : Roll) : Nat := if r.guardUs = 0 then s.odNat 0x3432 1 else r.guardUs

/-- The incoming SAs of a record: of an SC one, of a tributary one for each direction that names one (log 22). -/
def incomingSas (s : State) (u : RollUser) : List Nat :=
  let r := s.roll u
  match u with
  | .sc i => [(s.sc i).saAt r.incoming]
  | .tributary t => ([Dir.s2l, Dir.l2s].map (fun d => (s.tr t).saAt d r.incoming)).filter (· ≠ 0xFFFF)

/-- The record's SC or tributary is valid and its incoming SAs are Valid, Enabled and not frozen (R266, R274). -/
def rollReady (s : State) (u : RollUser) : Bool :=
  let user := match u with | .sc i => (s.sc i).valid | .tributary t => (s.tr t).valid
  let l := incomingSas s u
  user && !l.isEmpty && l.all (fun i => decide (i ≠ 0xFFFF) && (s.sa i).usable)

/-- Make a key change of a tributary due at time `t` (R159); where the block that starts at `t` or before has taken it already, nothing is left
to do. -/
def keyChangeDue (trib ki t : Nat) (s : State) : State :=
  updTr trib (fun r => if r.blkOpen && r.changes.isEmpty && r.blkKi == ki % 4 then { r with txKi := ki % 4 } else { r with txKi := ki % 4, changes := r.changes ++ [(ki % 4, t)] }) s

/-- Take the roll of an Armed record at time `t`: into Guard (R266). -/
def rollGuard (u : RollUser) (t : Nat) (s : State) : State :=
  let r := s.roll u
  let fin := s.time.cycles + cyclesUs (guardOf s r)
  let s := keyCount 7 s
  match u with
  | .sc i =>
    let c := s.sc i
    let out := if c.rx then c.saAt (r.incoming + 3) else c.saAt c.txAn
    let s := if c.rx then s else updSc i (fun c => { c with txAn := r.incoming }) s
    updRoll u (fun r => { r with state := 2, guardEnd := fin, outgoing := out, outgoingRx := 0xFFFF, extended := false }) s
  | .tributary k =>
    let x := s.tr k
    let tx := x.saAt .s2l r.incoming ≠ 0xFFFF
    let out := if tx then x.saAt .s2l x.txKi else 0xFFFF
    let outRx := if x.saAt .l2s r.incoming ≠ 0xFFFF then x.saAt .l2s (r.incoming + 3) else 0xFFFF
    let s := if tx then keyChangeDue k r.incoming t s else s
    updRoll u (fun r => { r with state := 2, guardEnd := fin, outgoing := out, outgoingRx := outRx, extended := false }) s

/-- A roll whose incoming SA is not usable is missed (R266). -/
def rollMissed (u : RollUser) (s : State) : State :=
  let r := s.roll u
  keyEvent 6 (keyCount 8 (post { type := 0x3406, source := rollNum u, a := r.reason, c := rollKind u } (updRoll u (fun r => { r with state := 4 }) s)))

/-- An Armed record falls due (R266, R267). -/
def rollDue (u : RollUser) (s : State) : State :=
  let r := s.roll u
  if r.state ≠ 1 then s
  else if rollReady s u then rollGuard u r.t s else rollMissed u s

/-- Roll at notice (R273): the transmit record of SC `i` or tributary whose outgoing SA has its Notice flag set rolls once the
incoming SA is Enabled. -/
def rollAtNotice (u : RollUser) (s : State) : State :=
  let r := s.roll u
  let out := match u with
    | .sc i => let c := s.sc i; if c.rx then 0xFFFF else c.saAt c.txAn
    | .tributary t => (s.tr t).saAt .s2l (s.tr t).txKi
  if r.state = 1 ∧ r.atNotice ∧ out ≠ 0xFFFF ∧ (s.sa out).notice ∧ rollReady s u then rollGuard u s.time.now s else s

end Sys2Proof.Machine
end

