-- ==== Sys2Proof/Machine/Headstock.lean ====
section
/-! DEFINITION. The headstock (R192, R196, R197): lock drops (R405), transmit and receive checks (R107 steps 1 to 5, R527), packet
numbers (R25, R105, R108, R271, R272), the protected frame's inputs (R98 to R104), secure-block inputs (R153 to R161), and the
PTP fields written before encryption (R116 to R118, R327). -/
namespace Sys2Proof.Machine

/-! ## PTP fields of a timed frame -/

/-- Write the fields of a timed frame (R116, R117, R327) and count it on its port-direction (R122): the octets and the state. The spec does
not speak of a PTP frame too short to hold its header: the model leaves it untouched and counts it as timed and as not corrected (DESIGN
CHOICE, log 115). -/
def timedWrite (p : PD) (f : Frm) (d : Octets) (t e : Nat) (ext : Bool) (s : State) : Octets × State :=
  match ptpAt d t e ext with
  | none => (d, ptpCount p 2 (ptpCount p 1 s))
  | some (h, udp) =>
    let upd := bitAt (s.odNat 0x2405 (p.port + 1)) 2
    if d.length < h + 34 then (d, ptpCount p 2 (ptpCount p 1 s))
    else if f.stamped then
      let ts := beBytes 6 (f.launch / 65536 / 10 ^ 9) ++ beBytes 4 (f.launch / 65536 % 10 ^ 9)
      let old := slice d (h + 8) 8 ++ slice d (h + 34) 10
      let v := signed 64 (beNat (slice d (h + 8) 8)) + (f.launch % 65536 : Nat)
      let sat := decide (0x7FFFFFFFFFFFFFFF < v)
      let cf := beBytes 8 (unsign 64 (if sat then 0x7FFFFFFFFFFFFFFF else v))
      let d1 := patch (patch d (h + 8) cf) (h + 34) ts
      let d2 := match udp with
        | some u => let c := be16 d1 u; if c = 0 then d1 else patch d1 u (beBytes 2 (csumUpdate c old (cf ++ ts)))
        | none => d1
      (d2, (if sat then ptpCount p 3 else id) (ptpCount p 0 s))
    else if ptpEvent d h then
      let r := ptpCorrect udp upd h f.budget d
      (r.1, (if r.2 then ptpCount p 3 else id) (ptpCount p 0 s))
    else (d, ptpCount p 1 s)

/-- Tags and EtherType of a frame: from its key vector where a gouge parsed it, else from its octets. -/
def frmTags (s : State) (f : Frm) : Nat := if f.origin == .wire then kvTags f.kv else tagCount s.tpid f.data
/-- EtherType after the tags. -/
def frmEther (s : State) (f : Frm) : Nat := if f.origin == .wire then kvEtherType f.kv else be16 f.data (12 + 4 * frmTags s f)

/-- IPv6 extension headers are present (R114): flag [4] of the key vector where a gouge parsed the frame, else by its octets. -/
def frmExt (s : State) (f : Frm) : Bool :=
  if f.origin == .wire then kvFlag f.kv 4 else frmEther s f == 0x86DD && isExt (octet f.data (20 + 4 * frmTags s f))

/-- Write the fields of a timed S2L frame before it is encrypted, or of a bypass frame (R118, R203 step 3). -/
def timedOwn (f : Frm) (s : State) : Octets × State :=
  if f.timed then timedWrite f.pd f f.data (frmTags s f) (frmEther s f) (frmExt s f) s else (f.data, s)

/-! ## Tokens -/

/-- 16-octet blocks that `n` octets take. -/
def blocksIn (n : Nat) : Nat := (n + 15) / 16

/-- Tokens of a MACsec frame (R106): two of the a + c + 1 GHASH inputs each. -/
def macsecTokens (aad body : Nat) : Nat := (blocksIn aad + blocksIn body + 2) / 2

/-- IV of a MACsec frame (R104). R96 ties the SC's suite and its SAs' by key length only: where they differ, the model takes the SA's suite
for the IV and the packet number's width (DESIGN CHOICE, log 114). -/
def macsecIv (suite : Nat) (sci : Octets) (a : Sa) (pn : Nat) : Octets :=
  if suite < 2 then padTo 8 sci ++ beBytes 4 pn else xorB (beBytes 4 a.ssci ++ beBytes 8 pn) (padTo 12 a.salt)

/-- Clear part of the secure data: all of it with E = 0, or up to the confidentiality offset (R103). -/
def clearPart (e : Bool) (offset secure : Nat) : Nat := if e then min offset secure else secure

/-! ## The queue of work -/

/-- A frame settled as a void entry, bypass or delivery: ready for its commit (R201). -/
def readyWith (id : Nat) (v : Verdict) (s : State) : State := updFrm id (fun f => { f with verdict := v, stage := .ready }) s

/-- A frame enters the dispatch queue, taking its slot reference (R193, R196); its tokens count as offered demand (R187). -/
def enqueue (id : Nat) (d : Desc) (s : State) : State :=
  let s := updFrm id (fun f => { f with desc := d, stage := .queued }) (slotRef d.slot s)
  { s with fab := { s.fab with dispatch := s.fab.dispatch ++ [id], offered := s.fab.offered + d.tokens } }

/-- Traffic is stopped: Zeroized, or Locked with the traffic policy stop (R405, R406). -/
def trafficStopped (s : State) : Bool := s.rest.state == .zeroized || (s.locked && s.odNat 0x5013 1 == 0)

/-- Frames that a lock still lets through (R405). -/
def lockPasses (f : Frm) : Bool :=
  match f.verdict with
  | .punt _ _ _ | .toUrzidun => true
  | _ => f.origin == .urzidun || (f.origin == .host && f.verdict == .bypass && !f.timed)

/-! ## S2L -/

/-- The last PN of a suite. -/
def lastPn (suite : Nat) : Nat := if suite < 2 then 0xFFFFFFFF else 0xFFFFFFFFFFFFFFFF

/-- Notice threshold of a suite (OD 0x3440). -/
def noticeAt (s : State) (suite : Nat) : Nat := if suite < 2 then s.odNat 0x3440 1 else s.odNat 0x3440 2

/-- Give the next PN of transmit SA `i` under SC `sc` (R25, R271 to R273): the PN and the state after it. -/
def givePn (sc : Fin 16384) (i : Nat) (s : State) : Nat × State :=
  let a := s.sa i
  let pn := a.n
  let s := if pn = lastPn a.suite then freezeSa i 1 s else updSa i (fun a => { a with n := a.n + 1 }) s
  if noticeAt s a.suite ≤ pn ∧ !a.notice then
    let s := keyEvent 3 (post { type := 0x3401, source := i, b := pn } (updSa i (fun a => { a with notice := true }) s))
    (pn, rollAtNotice (.sc sc) s)
  else (pn, s)

/-- TCI and AN octet, and whether the SCI is carried (R99, R101). -/
def secTci (r : Sc) (an : Nat) (d : Octets) : Nat × Bool :=
  let e := if r.conf then 0x0C else 0
  if r.inclSci then (0x20 + e + an, true)
  else if r.es then
    (if d.take 6 = [] ∨ slice d 6 6 ≠ r.sci.take 6 ∨ leNat (r.sci.drop 6) ≠ 0x0100 then (0x20 + e + an, true) else (0x40 + e + an, false))
  else (e + an, false)

/-- Settle an S2L protect frame under SC `sc` (R98 to R105, R527). -/
def settleTransmit (id : Nat) (f : Frm) (sc : Nat) (s : State) : State :=
  let r := s.sc sc
  if h : sc < 16384 then
    if !r.valid || r.rx || r.port != f.pd.port.val then readyWith id (.drop .misdirected) s
    else
      let i := r.saAt r.txAn
      let a := s.sa i
      if i = 0xFFFF ∨ !a.usable ∨ a.rx then readyWith id (.drop (.frozen (if i = 0xFFFF then none else some i))) s
      else
        let an := r.txAn
        let q := givePn ⟨sc, h⟩ i s
        let pn := q.1
        let w := timedOwn f q.2
        let d := w.1
        let s := setData id d w.2
        let at_ := 12 + 4 * min r.clearTags (frmTags s f)
        let secure := d.length - at_
        let x := secTci r an d
        let tag := [0x88, 0xE5, BitVec.ofNat 8 x.1, BitVec.ofNat 8 (if secure < 48 then secure else 0)] ++ beBytes 4 pn ++ (if x.2 then padTo 8 r.sci else [])
        let clear := clearPart r.conf r.offset secure
        let aad := d.take 12 ++ tag ++ slice d at_ clear
        let body := secure - clear
        enqueue id { mode := if r.conf then .gcmEncrypt else .gmac, slot := a.slot, sa := i, sc := sc, an := an, pn := pn, iv := macsecIv a.suite r.sci a pn, aad := aad, tag := tag, tagAt := at_, lead := at_ + clear, body := body, tokens := macsecTokens aad.length body } s
  else readyWith id (.drop .misdirected) s

/-! ## L2S -/

/-- Receive SC of a port by its SCI (R97): an SCI of 0 matches none. -/
def receiveSc (s : State) (n sci : Nat) : Option (Nat × Sc) :=
  if sci = 0 then none else s.keys.sc.find? (fun q => q.2.valid && q.2.rx && q.2.port == n && beNat q.2.sci == sci)

/-- Pad a stripped frame to 60 octets without its FCS (R110). -/
def padFrame (d : Octets) : Octets := if d.length < 60 then padTo 60 d else d

/-- Strip SecTAG and ICV; the secure data stands as it is (R107, R110). -/
def stripFrame (d : Octets) (t : Nat) (secure : Nat) : Octets :=
  padFrame (d.take (12 + 4 * t) ++ slice d (secOff t + secTagLen d t) secure)

/-- Recover the packet number of a received frame (R108); 2^64 and above marks a frame that is late without limit. -/
def recoverPn (suite pn32 l : Nat) : Nat :=
  if suite < 2 then pn32
  else if l % 2 ^ 32 ≤ pn32 then l / 2 ^ 32 * 2 ^ 32 + pn32
  else (l / 2 ^ 32 + 1) * 2 ^ 32 + pn32

/-- Deliver a frame stripped without spindle work (R107 steps 3 to 5). -/
def settleStrip (id : Nat) (f : Frm) (t secure : Nat) (s : State) : State :=
  readyWith id .strip (setData id (stripFrame f.data t secure) s)

/-- Settle an L2S protect frame: steps 1 to 5 of R107 under the validation mode in force (R472), then dispatch. -/
def settleReceive (id : Nat) (f : Frm) (s : State) : State :=
  let n := f.pd.port.val
  let vm := s.odNat 0x2401 (n + 1)
  let d := f.data
  let t := kvTags f.kv
  if !kvFlag f.kv 10 then
    (if vm = 2 then readyWith id (.drop (.macsecPort n 1)) s else readyWith id .bypass (rxSecyCount n 0 s))
  else
    let e := bitAt (tci d t) 3
    let sl := octet d (secOff t + 1)
    let pn32 := beAt d (secOff t + 2) 4
    let found := receiveSc s n (kvGet f.kv 319 256)
    let secure := (secureLen d t d.length).getD 0
    let pnBad := match found with | some q => decide (q.2.suite < 2) && pn32 == 0 | none => false
    if kvFlag f.kv 9 || pnBad || (sl == 0 && decide (secure < 48)) || decide (secure < 2) then readyWith id (.drop (.macsecPort n 2)) s
    else
      let hard := vm == 2 || e
      match found with
      | none => if hard then readyWith id (.drop (.macsecPort n 4)) s else settleStrip id f t secure (rxSecyCount n 3 s)
      | some (sc, r) =>
        let s := updFrm id (fun f => { f with rxSc := sc }) s
        let an := tci d t % 4
        let i := r.saAt an
        let a := s.sa i
        if i = 0xFFFF ∨ !a.usable ∨ !a.rx then
          (if hard then readyWith id (.drop (.macsecSc sc 6 none)) s else settleStrip id f t secure (rxScCount sc 7 1 s))
        else if vm = 0 then
          (if e then readyWith id (.drop (.macsecSc sc 2 (some i))) s else settleStrip id f t secure (rxScCount sc 3 1 s))
        else
          let pn := recoverPn a.suite pn32 a.l
          let h := secOff t + secTagLen d t
          let clear := clearPart e r.offset secure
          let aad := d.take 12 ++ slice d (12 + 4 * t) (2 + secTagLen d t) ++ slice d h clear
          enqueue id { mode := if e then .gcmDecrypt else .gmac, slot := a.slot, sa := i, sc := sc, an := an, pn := pn, iv := macsecIv a.suite r.sci a pn, aad := aad, tagAt := 12 + 4 * t, lead := h + clear, body := secure - clear, tokens := macsecTokens aad.length (secure - clear), valMode := vm, icv := slice d (h + secure) 16, replay := r.replay, window := r.window } s

/-! ## Tributary frames (R150 to R162) -/

/-- MFAS of a tributary's overhead, and its position in the secure block (R153). -/
def mfasOf (overhead : Octets) : Nat := octet overhead 6
/-- The L0 octet of a block (R153). -/
def lsoL0 (ki : Nat) (kci e : Bool) : Nat := 0x40 + 16 * ki + 8 * bit kci + 4 * bit e
/-- IV of a secure block (R155). -/
def blockIv (salt : Octets) (ident ctr : Nat) : Octets := xorB (padTo 12 salt) ([0, 0] ++ beBytes 2 ident ++ beBytes 6 ctr ++ [0, 0])
/-- AAD block of a secure block (R155). -/
def blockAad (ctr ident l0 pt : Nat) : Octets := beBytes 6 ctr ++ beBytes 2 ident ++ [BitVec.ofNat 8 l0, BitVec.ofNat 8 pt] ++ zeros 6
/-- LSO of header position `p` (R153). -/
def lsoHeader (p l0 ctr ident : Nat) : Octets :=
  BitVec.ofNat 8 l0 :: (if p = 2 then 0 :: beBytes 6 ctr else if p = 3 then beBytes 2 ident ++ zeros 5 else zeros 7)

/-- The dispatch descriptor of a tributary frame (R155, R156, R174). -/
def blockDesc (r : Trib) (a : Sa) (i ki ctr p l0 : Nat) (recv : Bool) : Desc :=
  let enc := bitAt l0 2
  { mode := if !enc then .shareAuth else if recv then .shareDecrypt else .shareEncrypt, slot := a.slot, sa := i, an := ki, pn := ctr, iv := blockIv a.salt r.ident ctr, aad := if p = 0 then blockAad ctr r.ident l0 r.pt else [], body := 15232, ctr0 := 952 * p, lenBlock := p == 31, ej0 := p == 0, position := p, tokens := if p = 0 ∨ p = 31 then 477 else 476 }

/-- A defect of a lower layer stands on the line side of tributary `t`: of its OTUCn, or of the tributary as received there. -/
def lineSick (s : State) (t : Nat) : Bool :=
  decide (bits (s.otn.side.get (2 * tribPair s t + 1) 0).toNat 18 0 ≠ 0) || decide (bits (s.otn.trib.get t 0).toNat 14 8 ≠ 0)

/-- A received tributary returns to Acquiring, with no header read (R162). -/
def acquire (t : Nat) (s : State) : State :=
  updTr t (fun x => { x with rxState := 1, rxSeen := false, acqL0 := 0, acqCtr := 0 }) s

/-- A received tributary in a secure mode leaves Tracking for Acquiring (R162). -/
def tribAcquire (t : Nat) (s : State) : State := if (s.tr t).rxState = 2 then acquire t s else s

/-- Count tributary counter `i` (R172). -/
def tribCount (t i : Nat) (s : State) : State := updTr t (fun x => { x with counters := x.counters.bump i 1 }) s

/-- The bits of a tributary's status that R140 can suppress: the defects of both sides and of security. -/
def tribSuppressed : W32 := 0x77F7F

/-- What a tributary's status shows of the conditions that hold: a defect of a side where its OTUCn has none there, a security defect where
the line side has none either (R140), and squelch (R163, R171). A defect once declared stays until its condition clears. -/
def tribShown (s : State) (t : Nat) : W32 :=
  let raw := s.otn.tribRaw.get t 0
  let sick (sd : Nat) : Bool := decide (bits (s.otn.side.get (2 * tribPair s t + sd) 0).toNat 18 0 ≠ 0)
  let v := s.otn.trib.get t 0 &&& (raw ||| ~~~tribSuppressed)
  let v := if sick 0 then v else v ||| (raw &&& 0x7F)
  let v := if sick 1 then v else v ||| (raw &&& 0x7F00)
  let v := if sick 1 || decide (v &&& 0x7F00 ≠ 0) then v else v ||| (raw &&& 0x70000)
  if (s.tr t).squelch && decide (v &&& 0x70000 ≠ 0) then v ||| 0x80000 else v &&& ~~~0x80000

/-- Bring a tributary's status in line with the conditions that hold, latching what is present (R171) and noting it for the second (R165); a
tributary that loses its line side returns to Acquiring (R162). -/
def tribShow (t : Nat) (s : State) : State :=
  let old := s.otn.trib.get t 0
  let v := tribShown s t
  let o := s.otn
  let o := { o with trib := o.trib.put t v, tribLatched := o.tribLatched.upd t 0 (· ||| v), tribSeen := o.tribSeen.upd t 0 (· ||| v), secHeld := if v &&& 0x70000 = 0 then o.secHeld.put t false else o.secHeld }
  let s := { s with otn := o }
  if v &&& ~~~old &&& 0xF00 ≠ 0 then tribAcquire t s else s

/-- Bit `b` of a tributary's status comes or goes: a condition R140 may suppress, or a mark of its own (R171). -/
def tribDefect (t b : Nat) (on : Bool) (s : State) : State :=
  let m : W32 := (1 : W32) <<< b
  let f : W32 → W32 := fun v => if on then v ||| m else v &&& ~~~m
  let o := s.otn
  tribShow t { s with otn := if tribSuppressed &&& m = 0 then { o with trib := o.trib.upd t 0 f } else { o with tribRaw := o.tribRaw.upd t 0 f } }

/-- A scheduled rollover of tributary `t` from KI `ki` to the next falls due before time `end_` (R159, R266). -/
def rollComes (t : Fin 256) (ki end_ : Nat) (s : State) : Bool :=
  let r := s.roll (.tributary t)
  r.state == 1 && decide (r.t < end_) && r.incoming == (ki + 1) % 4 && (s.tr t).saAt .s2l r.incoming != 0xFFFF && rollReady s (.tributary t)

/-- The state of a new transmit block: the key change of R159, due by a commit or by an Armed rollover record, the counter of R157 and its
notice and end (R158); a block with no usable SA takes a counter that no SA holds. -/
def openCounter (t p : Nat) (s : State) : State :=
  let r := s.tr t
  let step := r.blkOpen && r.blkKci
  let ki := if step then (r.blkKi + 1) % 4 else if r.blkOpen then r.blkKi else r.txKi
  let left := if r.blkOpen then r.changes else []
  let changes := if step && (left.head?.any (fun c => c.1 == ki)) then left.drop 1 else left
  let end_ := s.time.now + r.blockNs * 65536
  let due := (match changes with
    | c :: _ => decide (c.2 < end_)
    | [] => rollComes (Fin.ofNat 256 t) ki end_ s)
  let i := r.saAt .s2l ki
  let a := s.sa i
  let s := updTr t (fun x => { x with blkKi := ki, blkKci := due, changes := changes, blkOpen := true, blkPos := p, blkCtr := if i = 0xFFFF ∨ !a.usable then 0x1000000000000 else a.n }) s
  if i = 0xFFFF ∨ !a.usable then s
  else
    let s := if a.n = 0xFFFFFFFFFFFF then freezeSa i 1 s else updSa i (fun a => { a with n := a.n + 1 }) s
    if s.odNat 0x2812 3 ≤ a.n ∧ !a.notice then
      let s := saShow i 21 (post { type := 0x2801, source := t, b := a.n } (updSa i (fun a => { a with notice := true }) s))
      match (Fin.ofNat 256 t) with
      | k => rollAtNotice (.tributary k) s
    else s

/-- Show whether the SA a tributary sends its blocks under is frozen or past its notice (R158, R171). -/
def tribSaBits (t : Nat) (s : State) : State :=
  let r := s.tr t
  let i := r.saAt .s2l (if r.blkOpen then r.blkKi else r.txKi)
  let on (b : Bool) : Bool := r.valid && r.mode != 0 && decide (i ≠ 0xFFFF) && b
  tribDefect t 20 (on (s.sa i).frozen) (tribDefect t 21 (on (s.sa i).notice) s)

/-- Open a transmit block; its SA's marks show (R158, R171). -/
def openBlock (t p : Nat) (s : State) : State := tribSaBits t (openCounter t p s)

/-- Settle an S2L tributary frame (R150, R157, R192). -/
def settleOduTransmit (id : Nat) (o : OduPart) (s : State) : State :=
  let t := o.trib
  let r := s.tr t
  if o.unchanged || r.mode == 0 then readyWith id .odu s
  else
    let p := mfasOf o.overhead % 32
    let fresh := !r.blkOpen || p == 0 || decide (p ≤ r.blkPos)
    let s := if fresh then openBlock t p s else updTr t (fun x => { x with blkPos := p }) s
    let r := s.tr t
    let i := r.saAt .s2l r.blkKi
    let a := s.sa i
    -- a block whose SA froze on taking its last counter is still sent; otherwise a frozen SA voids the frame
    let ok := decide (i ≠ 0xFFFF) && a.live && a.enabled && (!a.frozen || (a.cause == 1 && r.blkCtr == a.n))
    if !ok then readyWith id (.drop (.frozen (if i = 0xFFFF then none else some i))) s
    else
      let l0 := lsoL0 r.blkKi r.blkKci (r.mode == 1)
      let d := blockDesc r a i r.blkKi r.blkCtr p l0 false
      enqueue id { d with tag := if 2 ≤ p then lsoHeader p l0 r.blkCtr r.ident else [] } s

/-- The condition of a security defect holds: it is declared unless a lower layer suppresses it (R140). -/
def secDeclare (t b : Nat) (s : State) : State := tribDefect t b true s

/-- An ODUk-AIS frame: payload and overhead all ones but for the frame alignment and MFAS (R139). -/
def aisOverhead (overhead : Octets) : Octets := slice overhead 0 7 ++ List.replicate 57 0xFF

/-- Send a received frame toward the system as ODUk-AIS (R162, R163). -/
def settleAis (id : Nat) (o : OduPart) (s : State) : State :=
  readyWith id .odu (updFrm id (fun f => { f with odu := some { o with overhead := aisOverhead o.overhead, unchanged := true, ais := true } }) (setData id (List.replicate 15232 0xFF) s))

/-- A block has failed (R162): the fail count, the SA's count, dAUTH at the set count (OD 0x2812.01). -/
def blockFailed (t i : Nat) (s : State) : State :=
  let s := updTr t (fun x => { x with fails := x.fails + 1, goods := 0 }) (saCount i 1 s)
  let s := tribCount t 3 s
  if s.odNat 0x2812 1 ≤ (s.tr t).fails then secDeclare t 17 s else s

/-- The version seen in header position `p`: dNOSEC after 8 in a row that are not 0b01, without dAIS; it clears after one block
with version 0b01 (R162). -/
def versionSeen (t p l0 : Nat) (s : State) : State :=
  if l0 / 64 = 1 then
    let s := updTr t (fun x => { x with badVersion := 0, verOk := p == 2 || x.verOk }) s
    if p = 31 ∧ (s.tr t).verOk then tribDefect t 16 false s else s
  else
    let s := updTr t (fun x => { x with badVersion := x.badVersion + 1, verOk := false }) s
    if 8 ≤ (s.tr t).badVersion then secDeclare t 16 s else s

/-- The start of a received block: the prediction of R160, or the first tracked block after acquisition. -/
def blockStart (t : Nat) (s : State) : State :=
  let r := s.tr t
  let ki := if r.rxKci then (r.rxKi + 1) % 4 else r.rxKi
  if r.rxState = 2 ∨ r.rxSeen then
    updTr t (fun x => { x with rxState := 2, rxSeen := false, rxKi := ki, rxCtr := r.rxCtr + 1, rxKci := false }) s
  else updTr t (fun x => { x with acqL0 := 0 }) s

/-- Read a header while Acquiring (R162): positions 2 and 3 of one block with version 0b01 and a KI that names a usable receive SA. What
position 2 read, with L0 not 0, lasts until position 3 or the next block. -/
def acquireHeader (t p : Nat) (lso : Octets) (s : State) : State :=
  let l0 := octet lso 0
  if p = 2 then updTr t (fun x => { x with acqL0 := l0, acqCtr := beNat (slice lso 2 6) }) s
  else
    let r := s.tr t
    let ki := bits l0 5 4
    let ok := decide (l0 / 64 = 1) && r.acqL0 == l0 && (s.sa (r.saAt .l2s ki)).usable && r.saAt .l2s ki != 0xFFFF
    updTr t (fun x => if ok then { x with rxSeen := true, rxKi := ki, rxCtr := x.acqCtr, rxKci := bitAt l0 3, acqL0 := 0 } else { x with acqL0 := 0 }) s

/-- The header of position 2 or 3 agrees with the prediction (R160). -/
def headerAgrees (r : Trib) (p : Nat) (lso : Octets) : Bool :=
  let l0 := octet lso 0
  decide (l0 / 64 = 1) && decide (bits l0 5 4 = r.rxKi) && (p != 2 || beNat (slice lso 2 6) == r.rxCtr) && (p != 3 || beNat (slice lso 1 2) == r.ident)

/-- The position of an L2S tributary frame in its block is taken; a new block starts where the position falls back (R156). -/
def oduPosition (o : OduPart) (s : State) : State :=
  let p := mfasOf o.overhead % 32
  let s := if p == 0 || decide (p ≤ (s.tr o.trib).rxPos) then blockStart o.trib s else s
  updTr o.trib (fun x => { x with rxPos := p }) s

/-- Settle an L2S tributary frame whose receiver tracks the blocks (R160, R162): under its SA, or as AIS. -/
def settleTracked (id : Nat) (o : OduPart) (s : State) : State :=
  let t := o.trib
  let p := mfasOf o.overhead % 32
  let lso := lsoOf o.overhead
  let r := s.tr t
  let i := r.saAt .l2s r.rxKi
  let a := s.sa i
  if i = 0xFFFF ∨ !a.usable then settleAis id o (acquire t (secDeclare t 18 (if i ≠ 0xFFFF ∧ !a.live then tribCount t 3 s else s)))
  else if (p = 2 ∨ p = 3) ∧ !headerAgrees r p lso then
    settleAis id o (if p = 2 then acquireHeader t p lso (acquire t (blockFailed t i s)) else acquire t (blockFailed t i s))
  else
    let s := if p = 2 ∨ p = 3 then updTr t (fun x => { x with rxKci := bitAt (octet lso 0) 3 }) s else s
    enqueue id (blockDesc r a i r.rxKi r.rxCtr p (lsoL0 r.rxKi false (r.mode == 1)) true) (tribDefect t 18 false s)

/-- Settle an L2S tributary frame of a protected tributary whose overhead arrived whole. -/
def settleShown (id : Nat) (o : OduPart) (s : State) : State :=
  let p := mfasOf o.overhead % 32
  let lso := lsoOf o.overhead
  let s := if 2 ≤ p then versionSeen o.trib p (octet lso 0) s else s
  if (s.tr o.trib).rxState = 2 then settleTracked id o s
  else settleAis id o (if p = 2 ∨ p = 3 then acquireHeader o.trib p lso s else s)

/-- Settle an L2S tributary frame (R150, R151, R160, R162). -/
def settleOduReceive (id : Nat) (o : OduPart) (s : State) : State :=
  if (s.tr o.trib).mode = 0 then readyWith id .odu s
  else if o.substitute then readyWith id .odu (oduPosition o s)
  else if o.unchanged then readyWith id .odu (acquire o.trib (oduPosition o s))
  else settleShown id o (oduPosition o s)

/-! ## Settling -/

/-- Settle one frame (R192). -/
def settle (id : Nat) (f : Frm) (s : State) : State :=
  if trafficStopped s && !lockPasses f then
    match f.verdict with
    | .drop c => readyWith id (.drop c) s
    | _ => readyWith id (.drop .lock) s
  else match f.verdict with
    | .drop c => readyWith id (.drop c) s
    | .punt q r w => readyWith id (.punt q r w) s
    | .toUrzidun => readyWith id .toUrzidun s
    | .bypass => readyWith id .bypass s
    | .strip => readyWith id .strip s
    | .pending => s
    | .protect =>
      match f.pd.dir with
      | .s2l => settleTransmit id f (f.injSc.getD (bits f.action.toNat 97 84)) s
      | .l2s => settleReceive id f s
    | .odu =>
      match f.odu with
      | none => s
      | some o => match f.pd.dir with
        | .s2l => settleOduTransmit id o s
        | .l2s => settleOduReceive id o s

/-- Take the next frame of a port-direction in sequence order, if it is classified (R192). -/
def headstockSettle (p : PD) (s : State) : State :=
  match frameAt s p (s.pd p).settlePtr with
  | some (id, f) =>
    if f.stage == .classified then settle id f (updPd p (fun r => { r with settlePtr := r.settlePtr + 1 }) s) else s
  | none => s

end Sys2Proof.Machine
end

