-- ==== Sys2Proof/Machine/Egress.lean ====
section
/-! DEFINITION. The egress schedulers: queues, buckets and the calendar wheel (R280 to R293), selection (R294, R295), timed frames
and the line (R296 to R298, R324 to R329), pause toward the system (R299, R300), link faults (R91, R92), and transmission (R289). -/
namespace Sys2Proof.Machine

/-! ## Links (R91, R92, R125) -/

/-- A receive fault on a side of a port. -/
def sideFault (s : State) (n : Nat) (sd : Side) : Bool := match sd with | .system => (s.link n).faultSys | .line => (s.link n).faultLine

/-- Local Fault is being sent on a side by propagation from the other side (R91). -/
def sendsLocal (s : State) (n : Nat) (sd : Side) : Bool := s.odNat 0x2403 (n + 1) == 1 && sideFault s n sd.other

/-- What the transmitter of a side sends: a propagated Local Fault, or the Remote Fault with which the reconciliation sublayer answers
its own receive fault (IEEE 802.3, log 25). -/
def setsSent (s : State) (n : Nat) (sd : Side) : Ordered :=
  if sendsLocal s n sd then .localFault else if sideFault s n sd then .remoteFault else .none

/-- The transmitter of a side sends fault ordered sets. -/
def faultTx (s : State) (n : Nat) (sd : Side) : Bool := setsSent s n sd != .none

/-- Count a link-down drop. -/
def linkDown (p : PD) (s : State) : State := macCount p 7 1 s

/-- Set or clear bit `i` of a port's link status. -/
def linkBit (n i : Nat) (on : Bool) (s : State) : State :=
  updLink n (fun l => { l with status := if on then l.status ||| ((1 : BitVec 8) <<< i) else l.status &&& ~~~((1 : BitVec 8) <<< i) }) s

/-- Bits 6 and 7 of the link status follow from the others (R125). -/
def linkSettle (n : Nat) (s : State) : State :=
  let l := (s.link n).status
  linkBit n 7 (l.getLsbD 0 && l.getLsbD 1 && !(s.link n).faultSys && !(s.link n).faultLine)
    (linkBit n 6 (sendsLocal s n .system || sendsLocal s n .line) s)

/-- Put out what each transmitter of a port sends where it is no longer what `s0` sent (R91). -/
def setsChange (s0 : State) (n : Nat) (s : State) : State :=
  let one (sd : Side) (s : State) : State := if setsSent s n sd != setsSent s0 n sd then emit (.orderedSet n sd (setsSent s n sd)) s else s
  one .line (one .system s)

/-- Link-fault propagation of port `n` has been written (OD 0x2403): what is sent and the link status follow at once (R91, R125). -/
def propagationTakes (s0 : State) (n : Nat) (s : State) : State := setsChange s0 n (linkSettle n s)

/-- A receive fault begins or ends on a side; what each transmitter sends changes with it (R91). -/
def receiveFault (n : Nat) (sd : Side) (on localFault : Bool) (s0 : State) : State :=
  let s := s0
  let s := match sd with
    | .system => updLink n (fun l => { l with faultSys := on }) s
    | .line => updLink n (fun l => { l with faultLine := on }) s
  let s := linkBit n sd.num (!on || localFault) s
  let s := linkBit n (2 + sd.num) (on && localFault) s
  setsChange s0 n (linkSettle n s)

/-! ## Queue records -/

/-- Key of queue `i` of a port-direction's scheduler. -/
def queueKey (p : PD) (i : Nat) : Nat := 1024 * (2 * (p.port / 8) + p.dir.num) + i
/-- Change a queue. -/
def updQueue (p : PD) (i : Nat) (f : Queue → Queue) (s : State) : State :=
  { s with path := { s.path with queues := s.path.queues.upd (queueKey p i) {} f } }
/-- Count on scheduler counter `i` (R306). -/
def schedCount (p : PD) (i n : Nat) (s : State) : State :=
  { s with path := { s.path with schedCounters := s.path.schedCounters.bump (6 * (2 * (p.port / 8) + p.dir.num) + i) n } }

/-- Charged length (R290). -/
def charged (x : Queue) (len : Nat) : Nat := (max 1 ((len : Int) + x.overhead)).toNat
/-- Fill of a queue: frames queued, and timed frames held (R288, R297). -/
def queueFill (x : Queue) : Nat := x.items.foldl (fun n e => n + lenR8 e.data) x.heldOctets
/-- Limit of a port-direction in bytes (R287). -/
def pdLimit (s : State) (p : PD) : Nat :=
  let v := s.odNat (match p.dir with | .s2l => 0x3802 | .l2s => 0x3803) (p.port + 1)
  if v = 0 then 500000 * portGbps s p.port else v

/-- What `dt` ns at a rate in kb/s add to a bucket, in 1/256 octet (R291; rounding: log 14). -/
def accrue (kbps dt : Nat) : Int := (tokensIn kbps dt : Nat)

/-- Bring the buckets up to date (R291). -/
def bucketUpdate (now : Nat) (x : Queue) : Queue :=
  if !x.shaper then x
  else
    let dt := now - x.last
    { x with last := now, tp := min (256 * x.pbs) (x.tp + accrue x.pir dt), tc := if 0 < x.cir then min (256 * x.cbs) (x.tc + accrue x.cir dt) else x.tc }

/-- The floor at which a bucket saturates: -2^39 bytes (R291). -/
def bucketFloor : Int := -(2 ^ 47 : Nat)

/-- Take a charged length from the buckets (R291). -/
def bucketTake (l : Nat) (x : Queue) : Queue :=
  if !x.shaper then x
  else { x with tp := max bucketFloor (x.tp - 256 * l), tc := if 0 < x.cir then max bucketFloor (x.tc - 256 * l) else x.tc }

/-- The state a non-empty queue's buckets give it (R292); every queue of a draining port is Committed (R302). -/
def bucketState (drain : Bool) (x : Queue) : QState :=
  if !x.shaper || drain then .committed
  else if x.tp < 0 then .waiting
  else if 0 < x.cir ∧ 0 ≤ x.tc then .committed
  else .excess

/-- Nanoseconds until a bucket below 0 reaches 0. -/
def untilZero (b : Int) (kbps : Nat) : Nat := if kbps = 0 then 0 else ((-b).toNat * 1000000 + 32 * kbps - 1) / (32 * kbps)

/-- Posting of a queue that awaits a change of state (R292, R293): the time the bucket reaches 0 as it stood at its last update,
rounded up to a 32 ns slot, at most the wheel's horizon. -/
def postingOf (now : Nat) (st : QState) (x : Queue) : Option Nat :=
  let slot (dt : Nat) := some (min ((max now (x.last + dt) + 31) / 32 * 32) (now / 32 * 32 + 32767 * 32))
  match st with
  | .waiting => slot (untilZero x.tp x.pir)
  | .excess => if 0 < x.cir then slot (untilZero x.tc x.cir) else none
  | _ => none

/-! ## DRR lists (R292, R295) -/

/-- Number of the list of a state at a level: 0 to 3 committed, 4 to 7 excess. -/
def listOf (st : QState) (level : Nat) : Option Nat :=
  match st with
  | .committed => some level
  | .excess => some (4 + level)
  | _ => none

/-- Take a queue out of every list of a port-direction. -/
def leaveLists (p : PD) (i : Nat) (s : State) : State :=
  updPd p (fun r => { r with lists := r.lists.mapAll (fun _ l => l.erase i) }) s

/-- Join the tail of a list. -/
def joinList (p : PD) (k i : Nat) (s : State) : State :=
  updPd p (fun r => { r with lists := r.lists.upd k [] (fun l => l.filter (· ≠ i) ++ [i]) }) s

/-- A queue is empty: the deficit of the list it leaves is set to 0 (R292, R295). -/
def Queue.emptied (x : Queue) : Queue :=
  { x with state := .empty, defC := if x.state == .committed then 0 else x.defC, defE := if x.state == .excess then 0 else x.defE, credC := false, credE := false, posted := none }

/-- A queue takes a state: it is posted for the next change, leaves its list with its deficit kept, and joins another's tail (R292). -/
def enterState (p : PD) (i : Nat) (st : QState) (s : State) : State :=
  let x := s.queue p i
  let s := updQueue p i (fun x => { x with state := st, posted := postingOf s.time.ns st x }) s
  if st = x.state then s
  else
    let s := updQueue p i (fun x => { x with credC := false, credE := false }) (leaveLists p i s)
    match listOf st x.level with
    | some k => joinList p k i s
    | none => s

/-- Settle a queue's state by its buckets as they stand: a posting has fallen due, its record has changed, or a drain begins or ends
(R292, R302). -/
def restate (p : PD) (i : Nat) (s : State) : State :=
  let x := s.queue p i
  if x.items.isEmpty || !queueActive s p i then leaveLists p i (updQueue p i Queue.emptied s)
  else enterState p i (bucketState (draining s p.port) x) s

/-- Settle a queue's state after a frame of it has been started: a queue in Excess leaves it only for Waiting, and one in Waiting stays
until its posting falls due (R292). -/
def afterStart (p : PD) (i : Nat) (s : State) : State :=
  let x := s.queue p i
  if x.items.isEmpty || !queueActive s p i then leaveLists p i (updQueue p i Queue.emptied s)
  else
    let st := bucketState (draining s p.port) x
    enterState p i (match x.state, st with
      | .excess, .committed => if draining s p.port then .committed else .excess
      | .waiting, _ => if draining s p.port then .committed else .waiting
      | _, _ => st) s

/-- Every queue of a port-direction. -/
def queuesOf (s : State) (p : PD) : List Nat :=
  ((s.path.queues.filter (fun q => q.1 / 1024 == 2 * (p.port / 8) + p.dir.num && q.2.portOf (p.port / 8) (q.1 % 1024) == p.port.val)).map (fun q => q.1 % 1024))

/-! ## Pause frames toward the system (R299, R300) -/

/-- A frame of `len` octets that starts as soon as the line is free ends by the boundary (R296). -/
def fitsLine (s : State) (p : PD) (len : Nat) : Bool :=
  match boundary s p with
  | none => true
  | some b => decide (max s.time.now (s.pd p).lineFree + lineTime s p.port len ≤ b)

/-- The octets of a PAUSE or PFC frame without FCS (R300). -/
def pauseOctets (s : State) (n : Nat) (opcode vec : Nat) (times : List Nat) : Octets :=
  padTo 60 (beBytes 6 0x0180C2000001 ++ padTo 6 (s.od 0x3808 (n + 1)) ++ beBytes 2 0x8808 ++ beBytes 2 opcode ++ beBytes 2 vec ++ (times.map (beBytes 2)).flatten)

/-- Send a pause frame on the system side of port `n`: after the frame in progress and before the frames that wait in the egress buffer,
or after the timed frame that holds the line (R300). -/
def sendPause (n : Fin 32) (d : Octets) (s : State) : State :=
  let out : PD := ⟨n, .l2s⟩
  let ends := lineBusy s out (startedOf s out) + lineTime s n 64
  if (boundary s out).all (fun b => decide (ends ≤ b)) then
    schedCount ⟨n, .s2l⟩ 4 1 (emit (.pause n d) (reline out (updPd out (fun r => { r with macBusy := ends }) s)))
  else updPd out (fun r => { r with pauseWait := r.pauseWait ++ [d] }) s

/-- Send the pause frames that waited for a timed frame. -/
def flushPause (n : Fin 32) (s : State) : State :=
  let w := (s.pd ⟨n, .l2s⟩).pauseWait
  w.foldl (fun s d => sendPause n d s) (updPd ⟨n, .l2s⟩ (fun r => { r with pauseWait := [] }) s)

/-- Half the pause time of a port, in cycles. -/
def halfPause (s : State) (n : Nat) : Nat := if portGbps s n = 0 then 0 else s.odNat 0x3807 (n + 1) * 400 / portGbps s n

/-- Fill and limit of PFC priority `k` of a port's S2L queues (R299); a queue never written is the port's by R280, with priority 0 and
limit 0. -/
def pfcFill (s : State) (p : PD) (k : Nat) : Nat × Nat :=
  let qs := (queuesOf s p).filter (fun i => (s.queue p i).prio == k)
  let fill := qs.foldl (fun n i => n + queueFill (s.queue p i)) 0
  let fresh := k == 0 && (List.range 128).any (fun j => (s.path.queues.find (queueKey p (p.port % 8 * 128 + j))).isNone)
  let lims := (if fresh then [0] else []) ++ qs.map (fun i => 1024 * (s.queue p i).limit)
  let sum := lims.foldl (· + ·) 0
  (fill, if lims.contains 0 ∨ pdLimit s p < sum then pdLimit s p else sum)

/-- PFC frame for the priorities of `named`, with the pause time for those of `paused`. -/
def pfcOctets (s : State) (n : Nat) (named paused : BitVec 8) : Octets :=
  pauseOctets s n 0x0101 named.toNat ((List.range 8).map (fun k => if paused.getLsbD k then s.odNat 0x3807 (n + 1) else 0))

/-- Bring the pause state of port `n` in line with its S2L fill (R299, R302). -/
def xoffCheck (n : Fin 32) (s : State) : State :=
  let p : PD := ⟨n, .s2l⟩
  let r := s.pd p
  let hi := s.odNat 0x3805 (n + 1)
  let lo := s.odNat 0x3806 (n + 1)
  let due := some (s.time.cycles + halfPause s n)
  match s.odNat 0x3804 (n + 1) with
  | 1 =>
    let lim := pdLimit s p
    if !r.xoff && !draining s n && decide (hi * lim ≤ 100 * r.fill) && decide (0 < lim) then
      sendPause n (pauseOctets s n 1 (s.odNat 0x3807 (n + 1)) []) (updPd p (fun r => { r with xoff := true, refreshAt := due }) s)
    else if r.xoff && decide (100 * r.fill < lo * lim) then
      sendPause n (pauseOctets s n 1 0 []) (updPd p (fun r => { r with xoff := false, refreshAt := none }) s)
    else s
  | 2 =>
    let next := (List.range 8).foldl (fun (v : BitVec 8) k =>
      let q := pfcFill s p k
      let on := if r.xoffPfc.getLsbD k then decide (lo * q.2 ≤ 100 * q.1) else !draining s n && decide (hi * q.2 ≤ 100 * q.1) && decide (0 < q.2)
      if on then v ||| ((1 : BitVec 8) <<< k) else v) 0
    if next = r.xoffPfc then s
    else sendPause n (pfcOctets s n ((next ^^^ r.xoffPfc) ||| next) next) (updPd p (fun r => { r with xoffPfc := next, refreshAt := if next = 0 then none else due }) s)
  | _ => if r.xoff || r.xoffPfc != 0 then updPd p (fun r => { r with xoff := false, xoffPfc := 0, refreshAt := none }) s else s

/-- A fill or a queue of a port-direction has changed: its pause state toward the system follows (R299). -/
def fillCheck (p : PD) (s : State) : State := match p.dir with | .s2l => xoffCheck p.port s | .l2s => s
/-- Change a port-direction's fill and check its pause state. -/
def addFill (p : PD) (n : Nat) (s : State) : State := fillCheck p (updPd p (fun r => { r with fill := r.fill + n }) s)
def subFill (p : PD) (n : Nat) (s : State) : State := fillCheck p (updPd p (fun r => { r with fill := r.fill - n }) s)

/-! ## Egress buffer and line -/

/-- Octets in the egress buffer of a port-direction's lane group (R289). -/
def groupBuffer (s : State) (p : PD) : Nat :=
  (List.range 4).foldl (fun n j => n + ((s.pd ⟨Fin.ofNat 32 (p.port / 4 * 4 + j), p.dir⟩).buffer.foldl (fun a e => a + lenR8 e.data) 0)) 0

/-- The egress buffer has room for `len` octets. -/
def bufferRoom (s : State) (p : PD) (len : Nat) : Bool := decide (groupBuffer s p + len ≤ 32768)

/-- Move a frame into the egress buffer, behind those that wait there; the port sends its buffer back to back (R289). -/
def startFrame (e : Egr) (s : State) : State := lineUp e.pd (startedOf s e.pd) (waitingOf s e.pd ++ [e]) s

/-- Move a timed frame into the egress buffer at its launch time, ahead of frames not yet started: its preamble begins so that its
message timestamp point crosses the pins on time (R119). -/
def startTimed (e : Egr) (s : State) : State :=
  lineUp e.pd (startedOf s e.pd ++ [{ e with startAt := some (launchAt s e - preambleTime s e.pd.port) }]) (waitingOf s e.pd) s

/-- Key of the packet buffer for the quadrant of port `n` in a direction (R344). -/
def pbKey (n : Nat) (d : Dir) : Nat := 2 * (n / 8) + d.num

/-- Give back what a frame waiting at egress holds: retention space and record, or lines of the packet buffer. -/
def egrFree (e : Egr) (s : State) : State :=
  let s := if e.occ = 0 then s else poolGive e.pool e.occ s
  let s := match e.rid with | some i => retFree i s | none => s
  if e.place.isEmpty then s else pbFree e.place s

/-- The octets of a frame waiting at egress, read back from retention or from the packet buffer; none where a line is lost (R363). -/
def egrRead (e : Egr) (s : State) : Option Octets × State :=
  match e.rid with
  | some i => (some ((retRead s i e.data.length).getD e.data), s)
  | none =>
    if e.place.isEmpty then (some e.data, s)
    else
      let s := e.place.foldl (fun s a => edgePass (edgeStack a) 64 s) s
      let r := pbRead (pbKey e.pd.port e.pd.dir) e.place s
      (r.1.map (·.take e.data.length), r.2)

/-- Write a frame of a queue to the packet buffer (R285): the frame with its lines, or none where no block can be given. -/
def egrSpill (e : Egr) (s : State) : Option (Egr × State) :=
  match pbWrite (pbKey e.pd.port e.pd.dir) e.pd.dir (s.queue e.pd e.queue).open_ (recordsOf 64 e.data) s with
  | none => none
  | some (l, o, s) =>
    let s := l.foldl (fun s a => edgePass (edgeStack a) 64 s) s
    some ({ e with spilled := true, overflow := false, data := zeros e.data.length, place := l, rid := none, pool := 0, occ := 0 }, updQueue e.pd e.queue (fun x => { x with open_ := o }) s)

/-- Discard a frame that the port-direction's fill counts: one of a queue or of the egress buffer (R92, R292, R304). -/
def discard (e : Egr) (s : State) : State := subFill e.pd (lenR8 e.data) (linkDown e.pd (egrFree e s))

/-- Discard a frame that the packet buffer has lost (R362, R363). -/
def discardLost (e : Egr) (s : State) : State := subFill e.pd (lenR8 e.data) (memoryLoss 1 (egrFree e s))

/-- Discard everything a queue holds. -/
def discardQueue (p : PD) (i : Nat) (s : State) : State :=
  let l := (s.queue p i).items
  restate p i (l.foldl (fun s e => discard e s) (updQueue p i (fun x => { x with items := [] }) s))

/-! ## Timed frames -/

/-- Enter a launch list in order of launch time, then sequence number (R324). -/
def launchInsert (base : W32) (e : Egr) : List Egr → List Egr
  | [] => [e]
  | x :: t =>
    if e.launch < x.launch ∨ (e.launch = x.launch ∧ (e.seq - base).toNat < (x.seq - base).toNat) then e :: x :: t else x :: launchInsert base e t

/-- Count on timed-launch counter `i` (OD 0x4030.02). -/
def launchCount (i : Nat) (s : State) : State := { s with time := { s.time with launchCounters := s.time.launchCounters.bump i 1 } }

/-- A late frame is sent (R120, R298): counted, and its event posted. -/
def lateLaunch (e : Egr) (s : State) : State :=
  let ns := (s.time.now - launchAt s e) / 65536
  post { type := 0x2401, source := e.pd.key, a := ns, b := e.launch / 65536 } (launchCount 1 (ptpCount e.pd 4 s))

/-- The buckets brought up to date and a frame's charged length taken from them; unchanged during a drain (R291, R302). -/
def Queue.charge (drain : Bool) (now len : Nat) (x : Queue) : Queue :=
  if drain then x else let x := bucketUpdate now x; bucketTake (charged x len) x

/-- Charge a timed frame's queue at its launch (R297); from then on the frame counts in its port-direction's fill (R287, log 65). Its
octets are read from retention. -/
def launchGo (e : Egr) (s : State) : Egr × State :=
  let l := lenR8 e.data
  let s := updQueue e.pd e.queue (fun x => (x.charge (draining s e.pd.port) s.time.ns l)) s
  let s := updQueue e.pd e.queue (fun x => { x with heldFrames := x.heldFrames - 1, heldOctets := x.heldOctets - l, launched := x.launched + 1 }) s
  let r := egrRead e s
  ({ e with data := r.1.getD e.data }, addFill e.pd l (afterStart e.pd e.queue r.2))

/-- Discard a timed frame (R298). -/
def launchLost (e : Egr) (s : State) : State :=
  let l := lenR8 e.data
  fillCheck e.pd (linkDown e.pd (egrFree e (updQueue e.pd e.queue (fun x => { x with heldFrames := x.heldFrames - 1, heldOctets := x.heldOctets - l }) s)))

/-- Pause frames that waited for a timed frame go out after it (R300). -/
def afterTimed (p : PD) (s : State) : State := match p.dir with | .l2s => flushPause p.port s | .s2l => s

/-- The egress scheduler of a port is in a state-preserving restart (R303). -/
def schedRestarting (s : State) (p : PD) : Bool := (s.domain (56 + p.port / 8)).state == 3

/-- The launch time of the head of a launch list arrives (R324, R298). -/
def timedLaunch (p : PD) (s : State) : State :=
  match (s.pd p).launchList with
  | [] => s
  | e :: t =>
    let s := waitTime (launchAt s e) s
    let s := updPd p (fun r => { r with launchList := t }) s
    let last := (startedOf s p).getLast?
    let until_ := max (s.pd p).macBusy (match last with | some x => x.startAt.getD 0 + lineTime s p.port (lenR8 x.data) | none => 0)
    let busy := decide (launchAt s e - preambleTime s p.port < until_)
    let behind := last.any (fun x => x.timed)
    if faultTx s p.port (outSide p) then afterTimed p (launchLost e s)
    else if busy || !bufferRoom s p (lenR8 e.data) || schedRestarting s p || pausedNow s p || pfcPaused s p (s.queue p e.queue).prio || remoteFault s p.port (outSide p) then
      updPd p (fun r => { r with lateList := r.lateList ++ [{ e with late := true }] }) (if busy && behind then schedCount p 3 1 s else s)
    else let r := launchGo e s; afterTimed p (startTimed r.1 r.2)

/-! ## Entering a queue -/

/-- A frame that the tailstock commits toward an egress queue. -/
structure ToQueue where
  /-- Its retention record. -/
  id : Nat
  pd : PD
  seq : W32
  data : Octets
  queue : Nat
  timed : Bool
  launch : Nat
  report : Option (Nat × Nat)
  pool : Nat
  occ : Nat
  dreq : Option Nat

/-- The record of a queued frame. -/
def ToQueue.egr (t : ToQueue) : Egr :=
  { pd := t.pd, seq := t.seq, data := t.data, queue := t.queue, timed := t.timed, launch := t.launch, report := t.report, overflow := false, spilled := false, late := false, pool := t.pool, occ := t.occ, dreq := t.dreq }

/-- Why a frame cannot enter its queue, if it cannot (R281, R288). -/
inductive QueueRefusal where
  | misdirected
  | full

/-- Whether a frame may enter its queue. -/
def queueRefuses (s : State) (t : ToQueue) : Option QueueRefusal :=
  let x := s.queue t.pd t.queue
  let l := lenR8 t.data
  if !queueActive s t.pd t.queue || x.portOf (t.pd.port / 8) t.queue != t.pd.port.val then some .misdirected
  else if (x.limit ≠ 0 ∧ 1024 * x.limit < queueFill x + charged x l) ∨ pdLimit s t.pd < (s.pd t.pd).fill + l then some .full
  else none

/-- Give a timed frame to timed-launch holding (R203, R324, R325, R480): late where it cannot be held, or where its launch time is less
than 0.25 us after its commit (R120). -/
def holdTimed (t : ToQueue) (s : State) : State :=
  let e := { t.egr with rid := some t.id }
  let l := lenR8 t.data
  let s := fillCheck t.pd (updQueue t.pd t.queue (fun x => { x with heldFrames := x.heldFrames + 1, heldOctets := x.heldOctets + l }) (retWrite t.id t.data s))
  let at_ := t.launch
  let late (s : State) : State := updPd t.pd (fun r => { r with lateList := r.lateList ++ [{ e with late := true }] }) s
  if at_ < s.time.now + 250 * 65536 then late s
  else if 256 ≤ (s.pd t.pd).launchList.length ∨ s.time.now + 100000 * 65536 < at_ then late (launchCount 2 s)
  else match poolFor s timedOrder t.occ with
    | none => late (launchCount 2 s)
    | some pool =>
      let s := launchCount 0 (poolGive t.pool t.occ (poolTake pool t.occ s))
      updPd t.pd (fun r => { r with launchList := launchInsert r.commitPtr { e with pool := pool } r.launchList }) s

/-- Enter a queue by the direct path (R285): the frame goes to the egress buffer at once. -/
def enterDirect (t : ToQueue) (s : State) : State :=
  let l := lenR8 t.data
  let s := updQueue t.pd t.queue (fun x => x.charge (draining s t.pd.port) s.time.ns l) (retFree t.id s)
  addFill t.pd l (schedCount t.pd 0 1 (startFrame { t.egr with pool := 0, occ := 0 } (poolGive t.pool t.occ s)))

/-- The conditions of the direct path (R285). -/
def directOk (s : State) (t : ToQueue) : Bool :=
  let x := bucketUpdate s.time.ns (s.queue t.pd t.queue)
  x.items.isEmpty && bucketState (draining s t.pd.port) x == .committed && bufferRoom s t.pd (lenR8 t.data) && fitsLine s t.pd (lenR8 t.data) &&
  (s.pd t.pd).lateList.isEmpty && !faultTx s t.pd.port (outSide t.pd) && !remoteFault s t.pd.port (outSide t.pd) && !pausedNow s t.pd && !pfcPaused s t.pd x.prio

/-- Append to a queue. An Empty queue takes the state its buckets give now, though they are updated only when a frame starts or a posting
falls due (R291, R292); the posting counts from their last update, so that no token is lost (R293). -/
def append (e : Egr) (s : State) : State :=
  let x := s.queue e.pd e.queue
  let s := addFill e.pd (lenR8 e.data) (updQueue e.pd e.queue (fun x => { x with items := x.items ++ [e] }) s)
  if x.state != .empty || !queueActive s e.pd e.queue then s
  else enterState e.pd e.queue (bucketState (draining s e.pd.port) (bucketUpdate s.time.ns x)) s

/-- Enter a queue by the spilled path, written to the packet buffer at once (R285); none where the write cannot start. -/
def enterSpilled (t : ToQueue) (s : State) : Option State :=
  (egrSpill t.egr s).map (fun q => append q.1 (schedCount t.pd 1 1 (poolGive t.pool t.occ (retFree t.id q.2))))

/-- Enter a queue as shaping overflow in pool `pool` (R286). -/
def enterOverflow (pool : Nat) (t : ToQueue) (s : State) : State :=
  append { t.egr with overflow := true, pool := pool, rid := some t.id } (retWrite t.id t.data (schedCount t.pd 2 1 (poolGive t.pool t.occ (poolTake pool t.occ s))))

/-- Start the packet-buffer write of the oldest frame of a queue held as shaping overflow (R286). -/
def spillStart (p : PD) (i : Nat) (s : State) : State :=
  match (s.queue p i).items.find? (fun e => e.overflow) with
  | none => s
  | some e =>
    if !mpuReady s then s
    else
      let d := egrRead e s
      match egrSpill { e with data := d.1.getD e.data } d.2 with
      | none => s
      | some q =>
        let w (x : Egr) : Egr := if x.seq = e.seq ∧ x.overflow then q.1 else x
        schedCount p 1 1 (egrFree { e with place := [] } (updQueue p i (fun x => { x with items := x.items.map w }) q.2))

/-! ## Selection (R294, R295) -/

/-- The head frame of a queue can be read: it is not held as shaping overflow. -/
def headReady (x : Queue) : Bool := match x.items with | e :: _ => !e.overflow | [] => false

/-- One queue's DRR turn on list kind `c` (committed) or excess: its deficit and credited mark. -/
def deficitOf (c : Bool) (x : Queue) : Nat × Bool := if c then (x.defC, x.credC) else (x.defE, x.credE)
def setDeficit (c : Bool) (d : Nat) (k : Bool) (x : Queue) : Queue := if c then { x with defC := d, credC := k } else { x with defE := d, credE := k }

/-- DRR over a list (R295): the queue chosen, the list's order, and the state with the turns taken. -/
def drr (p : PD) (c : Bool) : Nat → List Nat → State → Option Nat × List Nat × State
  | 0, l, s => (none, l, s)
  | _, [], s => (none, [], s)
  | k + 1, i :: t, s =>
    let x := s.queue p i
    match x.items with
    | [] => drr p c k t s
    | e :: _ =>
      let q := deficitOf c x
      let d := if q.2 then q.1 else q.1 + x.quantum
      if charged x (lenR8 e.data) ≤ d then (some i, i :: t, updQueue p i (setDeficit c d true) s)
      else drr p c k (t ++ [i]) (updQueue p i (setDeficit c d false) s)

/-- Put a reordered part of a list back among the entries left out. -/
def refill (keep : Nat → Bool) : List Nat → List Nat → List Nat
  | [], _ => []
  | i :: t, new => if keep i then (match new with | n :: ns => n :: refill keep t ns | [] => i :: refill keep t []) else i :: refill keep t new

/-- Start the head frame of the queue that DRR chose, read back from where it waits; a frame that the packet buffer has lost is
discarded (R285, R295, R363). -/
def startHead (p : PD) (c : Bool) (i : Nat) (s : State) : State :=
  let x := s.queue p i
  match x.items with
  | [] => s
  | e :: t =>
    let l := charged x (lenR8 e.data)
    let r := egrRead e s
    match r.1 with
    | none => afterStart p i (discardLost e (updQueue p i (fun x => { x with items := t }) r.2))
    | some d =>
      let s := egrFree e r.2
      let s := updQueue p i (fun x => { ((setDeficit c ((deficitOf c x).1 - l) true x).charge (draining s p.port) s.time.ns (lenR8 e.data)) with items := t }) s
      fillCheck p (afterStart p i (startFrame { e with data := d, place := [], rid := none, pool := 0, occ := 0 } s))

/-- Count line time that R296 holds clear from when the line falls idle, once per boundary. -/
def holdLine (p : PD) (s : State) : State :=
  match boundary s p with
  | none => s
  | some b =>
    if (s.pd p).heldClear = b then s
    else schedCount p 5 ((b - max s.time.now (s.pd p).lineFree) / 65536) (updPd p (fun r => { r with heldClear := b }) s)

/-- Run DRR over list `k`; none where the list holds no eligible queue. -/
def tryList (p : PD) (k : Nat) (s : State) : Option State :=
  let c := decide (k < 4)
  let l := (s.pd p).lists.get k []
  let ok (i : Nat) : Bool := headReady (s.queue p i) && !pfcPaused s p (s.queue p i).prio
  let el := l.filter ok
  if el.isEmpty then none
  else
    let r := drr p c (400 * el.length + 1) el s
    match r.1 with
    | none => none
    | some i =>
      let len := match (s.queue p i).items with | e :: _ => lenR8 e.data | [] => 0
      if !bufferRoom s p len then some s
      else if !fitsLine s p len then some (holdLine p s)
      else some (startHead p c i (updPd p (fun x => { x with lists := x.lists.put k (refill ok l r.2.1) }) r.2.2))

/-- The first list that yields a frame. -/
def tryLists (p : PD) : List Nat → State → State
  | [], s => s
  | k :: t, s => match tryList p k s with
    | some s => s
    | none => tryLists p t s

/-- While the transmitter sends fault ordered sets, everything committed to the port-direction is discarded (R92): the late timed frames
and all that its queues hold; timed frames still held are discarded at their launch times (R298). -/
def discardAll (p : PD) (s : State) : State :=
  let late := (s.pd p).lateList
  let s := late.foldl (fun s e => launchLost e s) (updPd p (fun r => { r with lateList := [] }) s)
  let s := (queuesOf s p).foldl (fun s i => if (s.queue p i).items.isEmpty then s else discardQueue p i s) s
  if late.isEmpty then s else afterTimed p s

/-- Choose the next frame of a port (R294): a late timed frame of a queue that is not paused, then the committed lists, then the
excess lists. -/
def egressSelect (p : PD) (s : State) : State :=
  if !ethPort s p.port then s
  else if faultTx s p.port (outSide p) then discardAll p s
  else if pausedNow s p || remoteFault s p.port (outSide p) || schedRestarting s p then s
  else match (s.pd p).lateList.find? (fun e => !pfcPaused s p (s.queue p e.queue).prio) with
    | some e =>
      if !bufferRoom s p (lenR8 e.data) then s
      else if !fitsLine s p (lenR8 e.data) then tryLists p (List.range 8) (holdLine p s)
      else
        let r := launchGo e (lateLaunch e (updPd p (fun r => { r with lateList := r.lateList.erase e }) s))
        afterTimed p (startFrame r.1 r.2)
    | none => tryLists p (List.range 8) s

/-- A posting falls due (R292, R293). -/
def postingDue (p : PD) (i : Nat) (s : State) : State :=
  match (s.queue p i).posted with
  | none => s
  | some te =>
    let s := waitTime (te * 65536) s
    restate p i (updQueue p i (fun x => bucketUpdate s.time.ns { x with posted := none }) s)

/-! ## Transmission -/

/-- The last octet of the frame at the head of a port's egress buffer leaves (R289, R324): no earlier than its start and length give. A
report carries a timed frame's launch time, and of any other frame the stamp measured at the pins (R329). -/
def transmitted (p : PD) (s : State) : State :=
  match (s.pd p).buffer with
  | [] => s
  | e :: t =>
    let l := lenR8 e.data
    if faultTx s p.port (outSide p) then discard e (updPd p (fun r => { r with buffer := t }) s)
    else match e.startAt with
    | none => s
    | some a =>
      let ends := a + lineTime s p.port l
      let s := waitTime (ends - gapTime s p.port) s
      let s := updPd p (fun r => { r with buffer := t, macBusy := max r.macBusy ends }) s
      let s := subFill p l (egrFree e s)
      let s := emit (.frame p e.data) (macCount p 9 l (macCount p 8 1 s))
      let s := updQueue p e.queue (fun x => { x with sent := x.sent + 1, octets := x.octets + BitVec.ofNat 64 l }) s
      match e.report with
      | some (q, tag) =>
        let at_ := if e.timed then e.launch else a + preambleTime s p.port
        postTo q { type := 0x4008, source := p.key, a := tag, b := at_ / 65536 } s
      | none => s

/-! ## Commands -/

/-- R294. -/
def execEgressSelect (pd : PD) (s : State) : Out := .next (egressSelect pd s)

/-- R293. -/
def execCalendarPostingDue (es : Fin 4) (dir : Dir) (queue : Fin 1024) (s : State) : Out :=
  let port := (s.queue ⟨Fin.ofNat 32 (8 * es.val), dir⟩ queue).portOf es queue
  .next (postingDue ⟨Fin.ofNat 32 port, dir⟩ queue s)

/-- R324. -/
def execTimedLaunch (pd : PD) (s : State) : Out := .next (timedLaunch pd s)

/-- R289. -/
def execFrameTransmitted (pd : PD) (s : State) : Out := .next (transmitted pd s)

/-- R299: half the pause time has passed. -/
def execPauseRefresh (port : Fin 32) (s : State) : Out :=
  let p : PD := ⟨port, .s2l⟩
  .next (match (s.pd p).refreshAt with
    | none => s
    | some c =>
      let s := waitCycle c s
      let r := s.pd p
      let s := updPd p (fun r => { r with refreshAt := some (s.time.cycles + halfPause s port) }) s
      let mode := s.odNat 0x3804 (port + 1)
      if mode ≠ 1 ∧ mode ≠ 2 then updPd p (fun r => { r with xoff := false, xoffPfc := 0, refreshAt := none }) s
      else if draining s port then s
      else if r.xoff then sendPause port (pauseOctets s port 1 (s.odNat 0x3807 (port + 1)) []) s
      else if r.xoffPfc ≠ 0 then sendPause port (pfcOctets s port r.xoffPfc r.xoffPfc) s
      else updPd p (fun r => { r with refreshAt := none }) s)

/-- R91: `localFault` says that Local Fault ordered sets are received; otherwise PCS alignment is lost. -/
def execLinkReceiveFault (port : Fin 32) (side : Side) (localFault : Bool) (s : State) : Out := .next (receiveFault port side true localFault s)

/-- R91. -/
def execLinkFaultCleared (port : Fin 32) (side : Side) (s : State) : Out := .next (receiveFault port side false false s)

/-- R91, R125. -/
def execRemoteFaultReceived (port : Fin 32) (side : Side) (present : Bool) (s : State) : Out :=
  .next (reline ⟨port, match side with | .system => .l2s | .line => .s2l⟩ (linkBit port (4 + side.num) present s))

end Sys2Proof.Machine
end

