-- ==== Sys2Proof/Machine/Fabric.lean ====
section
/-! DEFINITION. The spindles: dispatch and tokens (R173 to R179, R193 to R196), masks (R181, R182), adaptive voltage (R187 to R191),
roles, rotation and lag (R206 to R213, R218, R219), fail-over and replay (R214 to R217), the lockstep stages (R221), retention
rebuild (R199), and spindle parking (R495). -/
namespace Sys2Proof.Machine

/-! ## Spindle records -/

/-- Spindle `i`. -/
def State.spindle (s : State) (i : Nat) : Spindle := s.fab.spindles.get i {}
/-- Change spindle `i`. -/
def updSp (i : Nat) (f : Spindle → Spindle) (s : State) : State := { s with fab := { s.fab with spindles := s.fab.spindles.upd i {} f } }
/-- Count on fabric counter `i` (R228). -/
def fabCount (i n : Nat) (s : State) : State := { s with fab := { s.fab with counters := s.fab.counters.bump i n } }
/-- Set or clear bit `i` of the fabric event status (OD 0x3003.05). -/
def fabStatus (i : Nat) (on : Bool) (s : State) : State :=
  { s with fab := { s.fab with status := if on then s.fab.status ||| ((1 : BitVec 8) <<< i) else s.fab.status &&& ~~~((1 : BitVec 8) <<< i) } }
/-- Spindles in a role. -/
def inRole (s : State) (r : Role) : List Nat := (List.range 28).filter (fun i => (s.spindle i).role == r)
/-- Number of spindles in a role. -/
def roleCount (s : State) (r : Role) : Nat := (inRole s r).length

/-- Enter a role; time spent as Working is added up (R229). -/
def setRole (i : Nat) (r : Role) (s : State) : State :=
  updSp i (fun x => { x with role := r, worked := x.worked + (if x.role == .working then s.time.cycles - x.since else 0), since := s.time.cycles }) s

/-- Write a spindle log entry (R417 type 0x0090). -/
def logSpindle (i cause frames tokens : Nat) (s : State) : State :=
  logEntry 0x0090 i ([BitVec.ofNat 8 cause] ++ zeros 3 ++ beBytes 4 frames ++ beBytes 4 tokens) s

/-- A spindle holds work of the frame `f`. -/
def holds (i : Nat) (f : Frm) : Bool := f.stage == .dispatched && f.desc.spindle == some i
/-- A spindle has a partly issued frame (R195). -/
def partlyIssued (s : State) (i : Nat) : Bool := s.path.frames.any (fun q => holds i q.2 && decide (q.2.desc.issued < q.2.desc.tokens))

/-! ## Checkpoints (R208) -/

/-- Address of a spindle's checkpoint: 32 KiB for each spindle (R344), of which the first line is used (log 23). -/
def checkpointAt (i : Nat) : Nat := 0x130800000 + 32768 * i

/-- The checkpoint of a spindle: trim, calibration factor, service counters and repair map (its layout: DESIGN CHOICE, log 23). -/
def checkpointOf (x : Spindle) : Octets :=
  leBytes 8 x.trim.toNat ++ leBytes 4 x.calib ++ leBytes 2 x.isolations.toNat ++ leBytes 2 x.repairs.toNat ++ leBytes 8 x.tokens.toNat ++ leBytes 8 x.worked ++ leBytes 32 x.repairMap.toNat

/-- Write a spindle's checkpoint, at once or when the memory protection unit has its keys. -/
def checkpointWrite (i : Nat) (s : State) : State :=
  let s := updSp i (fun x => { x with checkpointDue := !mpuReady s }) s
  if mpuReady s then writeLine 12 (checkpointAt i) (checkpointOf (s.spindle i)) s else s

/-- Write the checkpoints that have waited for the memory protection unit. -/
def checkpointsOwed (s : State) : State :=
  ((List.range 28).filter (fun i => (s.spindle i).checkpointDue)).foldl (fun s i => checkpointWrite i s) s

/-- A spindle starts from factory trim. -/
def trimFactory (i : Nat) (s : State) : State :=
  updSp i (fun x => { x with factoryTrim := true, trim := BitVec.ofNat 64 (Config.spindleFactoryTrim i) }) s

/-- Load a spindle's checkpoint: its trim, calibration factor, service counters and repair map; one that fails its check, or was never
written, gives factory trim. -/
def checkpointLoad (i : Nat) (s : State) : State :=
  if mpuReady s && !(s.spindle i).checkpointDue then
    match readLine 12 (checkpointAt i) s with
    | (some d, s) => updSp i (fun x => { x with trim := BitVec.ofNat 64 (leAt d 0 8), calib := leAt d 8 4, isolations := BitVec.ofNat 16 (leAt d 12 2), repairs := BitVec.ofNat 16 (leAt d 14 2), tokens := BitVec.ofNat 64 (leAt d 16 8), worked := leAt d 24 8, repairMap := BitVec.ofNat 256 (leAt d 32 32), factoryTrim := false }) s
    | (none, s) => trimFactory i s
  else trimFactory i s

/-- Enter Spare: checkpoint written, domain off (R206). -/
def toSpare (i : Nat) (s : State) : State := setDomain i 0 (checkpointWrite i (setRole i .spare s))

/-! ## Starting spares -/

/-- The Spare spindle that has been Spare longest, ties to the lower number (R211), leaving out those that wait for a retry (R206). -/
def nextSpare (s : State) : Option Nat :=
  ((inRole s .spare).filter (fun i => decide ((s.spindle i).retryAt ≤ s.time.cycles))).foldl
    (fun m i => match m with
      | none => some i
      | some j => if (s.spindle i).since < (s.spindle j).since then some i else some j) none

/-- Start a spare: domain on, checkpoint loaded, mask seed requested (R206). -/
def startSpindle (i : Nat) (w : Why) (s : State) : State :=
  let s := updSp i (fun x => { x with why := w, retryAt := 0 }) (setDomain i 1 (setRole i .starting s))
  rngAsk (.spareSeed i) 1 (checkpointLoad i s)

/-- Spares already starting to become Working. -/
def startingWork (s : State) : Nat :=
  ((inRole s .starting).filter (fun i => (s.spindle i).why == .replacement || (s.spindle i).why == .lag)).length

/-- Working spindles wanted, beside those there: 24, and one more for each lagging spindle (R206, R219). -/
def wanted (s : State) : Nat :=
  if s.power.parked || s.power.start != .ready then 0
  else 24 + ((inRole s .working).filter (fun i => (s.spindle i).lag)).length - (roleCount s .working + startingWork s)

/-- Start spares until enough are Working or starting, or none is left (R211, R213, R219). -/
def fillSpares : Nat → State → State
  | 0, s => s
  | k + 1, s =>
    if wanted s = 0 then s
    else match nextSpare s with
      | none => s
      | some i => fillSpares k (startSpindle i (if roleCount s .working + startingWork s < 24 then .replacement else .lag) s)

/-- Fewer than 25 spindles are Working or Spare (R213): the no-spare event, once. A Starting spindle is neither (DEDUCED, log 24). -/
def spareCheck (s : State) : State :=
  let low := decide (roleCount s .working + roleCount s .spare < 25)
  let s := if low && !s.fab.status.getLsbD 3 then post { type := 0x3004, source := 0xFFFF } s else s
  fabStatus 3 low s

/-- After any change of roles: start what is wanted, and check the spares. -/
def settleRoles (s : State) : State := spareCheck (fillSpares 28 s)

/-- The rotation in progress has ended (R210, R211). -/
def rotationEnd (s : State) : State := { s with fab := { s.fab with rotation := none, rotatedAt := s.time.cycles } }

/-- The spare of a rotation becomes the replacement of a failed Working spindle; the rotation is abandoned (R211). -/
def rotationYield (s : State) : State :=
  match s.fab.rotation with
  | some (i, _) => if (s.spindle i).role == .starting then rotationEnd (updSp i (fun x => { x with why := .replacement }) s) else s
  | none => s

/-- A spare that was starting has failed (R206, R211): Diagnosing, and the requester's next choice. -/
def startFailed (i : Nat) (s : State) : State :=
  let w := (s.spindle i).why
  let s := logSpindle i 8 0 0 (updSp i (fun x => { x with cause := 8 }) (setDomain i 0 (setRole i .diagnosing s)))
  let s := { s with rng := { s.rng with queue := s.rng.queue.filter (fun r => r.who != .spareSeed i) } }
  if w == .rotation then
    match s.fab.rotation, nextSpare s with
    | some (_, false), some j => spareCheck (startSpindle j .rotation { s with fab := { s.fab with rotation := some (j, true) } })
    | _, _ => spareCheck (rotationEnd s)
  else settleRoles s

/-- Retire a spindle (R206). -/
def retireSpindle (i : Nat) (s : State) : State :=
  spareCheck (post { type := 0x3008, source := i } (logSpindle i (s.spindle i).cause 0 0 (setDomain i 0 (setRole i .retired s))))

/-- A spindle's calibration factor from the two rates of a test (R185), in 2^-16. -/
def calibOf (k : KatRun) : Nat := if k.ringRate = 0 then 0 else 65536 * k.tokenRate / k.ringRate

/-- A spindle that begins work: 64 credits, nothing in flight, nothing counted in the lag window. -/
def Spindle.fresh (x : Spindle) : Spindle := { x with credits := 64, flight := [], heldFrom := none, part := (0, 0), parts := [] }

/-- A spare has passed its known-answer test with calibration factor `calib` (R206). -/
def startPassed (i calib : Nat) (s : State) : State :=
  let w := (s.spindle i).why
  let s := updSp i (fun x => { x with calib := calib, lag := false }) s
  let work (s : State) : State := updSp i Spindle.fresh (setRole i .working s)
  match w with
  | .rotation =>
    if s.odNat 0x3000 1 = 2 then spareCheck (rotationEnd (fabCount 2 1 (toSpare i s)))
    else
      -- the Working spindle with the longest continuous service drains (ties to the lower number)
      let out := (inRole s .working).foldl (fun (m : Option Nat) j => match m with
        | none => some j
        | some k => if (s.spindle j).since < (s.spindle k).since then some j else some k) none
      let s := work s
      match out with
      | some j => spareCheck (updSp j (fun x => { x with why := .rotation }) (setRole j .draining s))
      | none => spareCheck (rotationEnd s)
  | _ =>
    let s := work s
    match (inRole s .working).find? (fun j => (s.spindle j).lag), decide (24 < roleCount s .working) with
    | some j, true => settleRoles (fabCount 1 1 (updSp j (fun x => { x with why := .lag }) (setRole j .draining s)))
    | _, _ => settleRoles s

/-! ## Fail-over -/

/-- Put a frame among those for replay, oldest acceptance first (R193). -/
def replayInsert (s : State) (id : Nat) : List Nat → List Nat
  | [] => [id]
  | j :: t =>
    let at_ (k : Nat) := match s.frame? k with | some f => f.acceptCycle | none => 0
    if at_ id < at_ j ∨ (at_ id = at_ j ∧ id < j) then id :: j :: t else j :: replayInsert s id t

/-- Replay a frame (R215): the next attempt number, its descriptor and watermark unchanged, at the head of the queue. -/
def replayFrame (id : Nat) (s : State) : State :=
  let s := updFrm id (fun f => { f with stage := .queued, desc := { f.desc with attempt := f.desc.attempt + 1, issued := 0, done := 0, y := 0, mask := 0, spindle := none } }) s
  { s with fab := { s.fab with replay := replayInsert s id s.fab.replay } }

/-- Tokens of the frames named. -/
def tokensOf (s : State) (ids : List Nat) : Nat := ids.foldl (fun n id => n + match s.frame? id with | some f => f.desc.tokens | none => 0) 0

/-- Replay frames and count them (R215, R228). -/
def replayAll (ids : List Nat) (s : State) : State :=
  let t := tokensOf s ids
  fabCount 5 t (fabCount 4 ids.length (ids.foldl (fun s id => replayFrame id s) s))

/-- A spindle fault, an isolate command or an injected fault (R214, R215). -/
def isolateSpindle (i cause : Nat) (s : State) : State :=
  let ids := (s.path.frames.filter (fun q => holds i q.2)).map Prod.fst
  let t := tokensOf s ids
  let wasWorking := (s.spindle i).role == .working
  let wasRotating := (s.spindle i).role == .draining && (s.spindle i).why == .rotation
  let s := setDomain i 0 (setRole i .isolated s)
  let s := updSp i (fun x => { x with cause := cause, credits := 0, flight := [], heldFrom := none, lag := false, injected := false, reseedAsked := false, isolations := x.isolations + 1 }) s
  let s := { s with rng := { s.rng with queue := s.rng.queue.filter (fun r => r.who != .maskReseed i) } }
  let s := fabCount 0 1 (replayAll ids s)
  let s := { s with fab := { s.fab with failover := s.fab.failover ++ ids.filter (fun k => !s.fab.failover.contains k) } }
  let s := post { type := 0x3006, source := i, a := ids.length, b := t } (logSpindle i cause ids.length t s)
  let s := if wasRotating then rotationEnd s else if wasWorking then rotationYield s else s
  settleRoles s

/-- A spindle that can show a fault. -/
def atWork (s : State) (i : Nat) : Bool := (s.spindle i).role == .working || (s.spindle i).role == .draining

/-- Cause code of a check (R229). -/
def checkCode : Check → Nat
  | .codeViolation => 1
  | .parity => 2
  | .counter => 3
  | .transfer => 4

/-! ## Dispatch -/

/-- The eligible spindle with the most free credits, ties to the lowest (R195). -/
def dispatchTo (s : State) : Option Nat :=
  ((inRole s .working).filter (fun i => !partlyIssued s i)).foldl
    (fun m i => match m with
      | none => some i
      | some j => if (s.spindle j).credits < (s.spindle i).credits then some i else some j) none

/-- A frame whose slot gives no key when it is dispatched (R255, R256): a replay is voided, counted as a frozen drop of its SA, and so is
an S2L frame; an L2S frame is settled as step 4 of R107. -/
def dispatchKeyless (id : Nat) (replayed : Bool) (f : Frm) (s : State) : State :=
  if replayed then readyWith id (.drop (.frozen (some f.desc.sa))) s
  else match f.odu, f.pd.dir with
  | some o, .l2s => settleAis id o (acquire o.trib (secDeclare o.trib 18 s))
  | _, .s2l => readyWith id (.drop (.frozen (some f.desc.sa))) s
  | none, .l2s =>
    let e := bitAt (tci f.data (kvTags f.kv)) 3
    if f.desc.valMode = 2 ∨ e then readyWith id (.drop (.macsecSc f.desc.sc 6 none)) s
    else
      let t := kvTags f.kv
      settleStrip id f t ((secureLen f.data t f.data.length).getD 0) (rxScCount f.desc.sc 7 1 s)

/-- Dispatch the frame at the head of the queue (R193, R195). -/
def dispatch (s : State) : State :=
  if s.rest.zeroizing || s.power.service == .resetting then s
  else match s.fab.replay, s.fab.dispatch with
    | [], [] => s
    | r, d =>
      let id := (r ++ d).headD 0
      match dispatchTo s, s.frame? id with
      | some i, some f =>
        let s := { s with fab := if r.isEmpty then { s.fab with dispatch := d.drop 1 } else { s.fab with replay := r.drop 1 } }
        match readSlot f.desc.slot s with
        | (none, s) => dispatchKeyless id (!r.isEmpty) f { s with fab := { s.fab with failover := s.fab.failover.erase id } }
        | (some _, s) => updFrm id (fun f => { f with stage := .dispatched, desc := { f.desc with spindle := some i } }) s
      | some _, none => { s with fab := if r.isEmpty then { s.fab with dispatch := d.drop 1 } else { s.fab with replay := r.drop 1 } }
      | none, _ => s

/-- The key a slot serves (R256). -/
def slotKey (s : State) (target : Nat) : Octets :=
  let x := s.slot target
  match (copyOrder s).find? (fun b => x.copyBad != (if b then 2 else 1)) with
  | some true => x.b.key
  | _ => x.a.key

/-- Issue the next token of a spindle's frame (R194, R195). -/
def issueToken (i : Nat) (s : State) : State :=
  let x := s.spindle i
  if !atWork s i || x.credits == 0 then s
  else match s.path.frames.find? (fun q => holds i q.2 && decide (q.2.desc.issued < q.2.desc.tokens)) with
    | none => s
    | some (id, f) =>
      updSp i (fun x => { x with credits := x.credits - 1, flight := x.flight ++ [(id, f.desc.attempt)], heldFrom := if x.heldFrom.isNone then some s.time.cycles else x.heldFrom })
        (updFrm id (fun f => { f with desc := { f.desc with issued := f.desc.issued + 1 } }) s)

/-! ## What a token does (R173 to R179) -/

/-- Payload octets of cipher block `j`, counted from 1, as they stand in retention. -/
def cipherBlock (f : Frm) (j : Nat) : Octets := slice f.data (f.desc.lead + 16 * (j - 1)) (min 16 (f.desc.body - 16 * (j - 1)))

/-- Cipher block `j` put through the keystream. -/
def cryptBlock (key : Octets) (f : Frm) (j : Nat) : Octets := xorB (cipherBlock f j) (keystream key f.desc.iv (f.desc.ctr0 + j))

/-- The mode encrypts, decrypts, or leaves the data as it is. -/
def Mode.encrypts : Mode → Bool
  | .gcmEncrypt | .shareEncrypt => true
  | _ => false
def Mode.decrypts : Mode → Bool
  | .gcmDecrypt | .shareDecrypt => true
  | _ => false

/-- The ciphertext of block `j`: below the watermark the output stands in place of the input (R178, R215). -/
def cipherText (key : Octets) (f : Frm) (j : Nat) : Octets :=
  let written := decide (j ≤ f.desc.watermark)
  if f.desc.mode.encrypts then (if written then cipherBlock f j else cryptBlock key f j)
  else if f.desc.mode.decrypts then (if written then cryptBlock key f j else cipherBlock f j)
  else cipherBlock f j

/-- The length block: of the frame, or of the whole secure block whose last share it ends (R104, R155). -/
def frameLengths (f : Frm) : BitVec 128 :=
  match f.odu with
  | none => lengthBlock f.desc.aad.length f.desc.body
  | some _ => if f.desc.mode == .shareAuth then lengthBlock (16 + 32 * 15232) 0 else lengthBlock 16 (32 * 15232)

/-- GHASH input `i`, counted from 1: AAD blocks, cipher blocks, the length block; none past the end. -/
def ghashInput (key : Octets) (f : Frm) (i : Nat) : Option (BitVec 128) :=
  let a := blocksIn f.desc.aad.length
  let c := blocksIn f.desc.body
  if i ≤ a then some (blockOf (slice f.desc.aad (16 * (i - 1)) 16))
  else if i ≤ a + c then some (blockOf (cipherText key f (i - a)))
  else if i = a + c + 1 ∧ f.desc.lenBlock then some (frameLengths f)
  else none

/-- Fold an input into the accumulator. -/
def foldInput (h y : BitVec 128) (x : Option (BitVec 128)) : BitVec 128 :=
  match x with
  | some x => ghashStep h y x
  | none => y

/-- Write cipher blocks up to `n` in place, and move the watermark (R175, R178). -/
def writeBlocks (key : Octets) : Nat → Nat → Frm → Frm
  | 0, _, f => f
  | k + 1, n, f =>
    let j := f.desc.watermark + 1
    if n < j then f
    else writeBlocks key k n { f with data := patch f.data (f.desc.lead + 16 * (j - 1)) (cryptBlock key f j), desc := { f.desc with watermark := j } }

/-- The frame after its next token has completed: GHASH inputs 2i − 1 and 2i, E(J0) with the first, output up to 2i − 1 blocks, or
2i where there is no E(J0). -/
def tokenStep (key : Octets) (f : Frm) : Frm :=
  let i := f.desc.done + 1
  let h := hashKey key
  let y := foldInput h (foldInput h f.desc.y (ghashInput key f (2 * i - 1))) (ghashInput key f (2 * i))
  let mask := if i = 1 ∧ f.desc.ej0 then blockOf (keystream key f.desc.iv 0) else f.desc.mask
  let n := min (blocksIn f.desc.body) (if f.desc.ej0 then 2 * i - 1 else 2 * i)
  let f := if f.desc.mode.encrypts || f.desc.mode.decrypts then writeBlocks key 3 n f else f
  { f with desc := { f.desc with y := y, mask := mask, done := i } }

/-- Run the next `n` tokens of a frame. -/
def runTokens (key : Octets) : Nat → Frm → Frm
  | 0, f => f
  | n + 1, f => runTokens key n (tokenStep key f)

/-- A spindle after one more token has left its pipeline: the credit returns (R194), the counts move, the token has drawn its mask bits
(R181), and the time with a token held ends where none is left (R186). -/
def Spindle.tokenLeaves (now : Nat) (x : Spindle) : Spindle :=
  let rest := x.flight.drop 1
  let held := if rest.isEmpty then now - x.heldFrom.getD now else 0
  { x with flight := rest, credits := x.credits + 1, tokens := x.tokens + 1, mask := Config.maskDraw x.mask, maskCount := x.maskCount + 1, maskFull := x.maskFull || x.maskCount == 0xFFFFFFFF, heldFrom := if rest.isEmpty then none else x.heldFrom, part := (x.part.1 + 1, x.part.2 + held) }

/-- A token leaves a spindle's pipeline (R176, R178, R194): its checks passed, unless a fault has been injected (R230). The result
counts only under the frame's current attempt number, and is discarded under any other (R202). -/
def completeToken (i : Nat) (s : State) : State :=
  let x := s.spindle i
  if !atWork s i then s
  else match x.flight with
    | [] => s
    | (id, a) :: _ =>
      if x.injected then isolateSpindle i 10 s
      else
        let s := updSp i (fun x => x.tokenLeaves s.time.cycles) s
        match s.frame? id with
        | none => s
        | some f =>
          if !holds i f || f.desc.attempt != a then s
          else
            -- the spindle reads the frame's words from retention and writes each output over its input
            let f0 := { f with data := frmData s id f }
            let f := tokenStep (slotKey s f.desc.slot) f0
            let s := if f.data = f0.data then s else retWrite id f.data s
            if f.desc.done = f.desc.tokens then
              { (updFrm id (fun _ => { f with stage := .ready, desc := { f.desc with spindle := none } }) s) with fab := { s.fab with failover := s.fab.failover.erase id } }
            else updFrm id (fun _ => f) s

/-! ## The known-answer test (R209) -/

/-- Key and frame of vector `n`: GCM-AES-128 encrypt and decrypt, GCM-AES-256 encrypt and decrypt, the XPN IV construction, GMAC,
and block shares with and without E(J0). The values are the start sequencer's. -/
def katFrame (n : Nat) : Octets × Frm :=
  let v := Config.katVector n
  let mode : Mode := match n with
    | 1 | 3 => .gcmDecrypt
    | 5 => .gmac
    | 6 | 7 => .shareEncrypt
    | _ => .gcmEncrypt
  let iv := if n = 4 then macsecIv 2 [] { ssci := beAt v 32 4, salt := slice v 36 12 } (beAt v 48 8) else slice v 32 12
  let aad := if n = 7 then [] else slice v 56 20
  let data := v.drop 76
  let body := if n = 5 then 0 else data.length
  let d : Desc := { mode := mode, iv := iv, aad := aad, body := body, lenBlock := n != 6 && n != 7, ej0 := n != 7, tokens := macsecTokens aad.length body }
  (slice v 0 (if n = 2 ∨ n = 3 then 32 else 16), { pd := ⟨0, .s2l⟩, data := data, desc := d })

/-- The right result of vector `n`: data, GHASH and E(J0). -/
def katResult (n : Nat) : Octets :=
  let q := katFrame n
  let f := runTokens q.1 q.2.desc.tokens q.2
  f.data ++ beBytes 16 f.desc.y.toNat ++ beBytes 16 f.desc.mask.toNat

/-- The right results of all vectors. -/
def katExpected : List Octets := (List.range 8).map katResult

/-- A known-answer test passes when every result and both detectors are right (R209). -/
def katPasses (k : KatRun) : Bool := k.outputs == katExpected && k.violation && k.parity

/-! ## Adaptive voltage (R187 to R191) -/

/-- Send a voltage command to the regulator (R503). -/
def avsSend (mv : Nat) (s : State) : State := emit (.avsWrite mv) { s with fab := { s.fab with avsPending := s.fab.avsPending ++ [mv], lastCmd := mv } }

/-- Freeze the loop (R190). -/
def avsFreeze (s : State) : State :=
  let s := fabStatus 2 true { s with fab := { s.fab with frozen := true, avsPending := [] } }
  let s := post { type := 0x3003, source := 0xFFFF, a := s.fab.lastCmd, c := s.fab.reported } s
  logEntry 0x00A0 0xFF (zeros 4 ++ beBytes 4 s.fab.lastCmd ++ beBytes 4 s.fab.reported) s

/-- The fixed rail setting is requested once while the loop is disabled (R191). -/
def fixedRail (s : State) : State :=
  if s.odNat 0x3002 1 = 1 then { s with fab := { s.fab with fixedSent := false } }
  else if s.fab.fixedSent then s
  else avsSend (s.odNat 0x3002 7) { s with fab := { s.fab with fixedSent := true } }

/-- Demand in 10^-4 of 0.001 G tokens/s (R187): what entered the dispatch queue in 100 us, or the floor. -/
def demandFine (s : State) : Nat :=
  max (100 * s.fab.offered) (s.odNat 0x3002 3 * 171875 * (2 * ((List.range 8).filter (pairUsed s)).length))

/-- Supply: the measured rates of the Working spindles (R188). -/
def supplyNow (s : State) : Nat := (inRole s .working).foldl (fun n i => n + (s.spindle i).measured) 0

/-- The ring rates counted over the last 100 us, each scaled by its spindle's calibration factor to the measured rate (R185). -/
def avsMeasure (rings : List Nat) (s : State) : State :=
  (List.range 28).foldl (fun s i => match rings[i]? with | some r => updSp i (fun x => { x with ring := r, measured := r * x.calib / 65536 }) s | none => s) s

/-- The margin-low and capacity-low conditions, each with its event as it begins (R189). -/
def avsEvents (margin capacity : Bool) (s : State) : State :=
  let s := if margin then
      (let s := if s.fab.status.getLsbD 0 then s else post { type := 0x3001, source := 0xFFFF } s
       fabStatus 0 true { s with fab := { s.fab with marginAt := s.time.cycles } }) else s
  if capacity then
    (let s := if s.fab.status.getLsbD 1 then s else post { type := 0x3002, source := 0xFFFF } s
     fabStatus 1 true { s with fab := { s.fab with capacityAt := s.time.cycles } }) else s

/-- The command of one evaluation, if any (R188, R191). -/
def avsSteer (short : Bool) (lo hi : Nat) (s : State) : State :=
  if s.odNat 0x3002 1 = 0 then fixedRail s
  else if s.fab.frozen then s
  else if short then (let v := max lo (min hi (s.fab.lastCmd + 10)); if v = s.fab.lastCmd then s else avsSend v s)
  else if 10 ≤ s.fab.lowStreak then
    (let v := max lo (min hi (s.fab.lastCmd - 5)); if v = s.fab.lastCmd then s else avsSend v s)
  else s

/-- One evaluation (R187 to R189), every 100 us; the rail is at its upper limit when the voltage last acknowledged is. -/
def avsEvaluate (rings : List Nat) (s : State) : State :=
  let s := avsMeasure rings s
  let d := demandFine s
  let sup := supplyNow s
  let h := s.odNat 0x3002 2
  let lo := s.odNat 0x3002 4
  let hi := s.odNat 0x3002 5
  let short := decide (1000000 * sup < (100 + h) * d)
  let ample := decide ((107 + h) * d ≤ 1000000 * sup)
  let busy := decide (0 < s.fab.offered)
  let s := { s with fab := { s.fab with supply := sup, demand := d / 10000, offered := 0, lowStreak := if ample then s.fab.lowStreak + 1 else 0 }, power := { s.power with zeroSince := if busy then s.time.cycles else s.power.zeroSince } }
  avsSteer short lo hi (avsEvents (short && decide (hi ≤ s.fab.rail)) (decide (10000 * sup < d)) s)

/-- 10 ms, in cycles. -/
def tenMs : Nat := cyclesUs 10000

/-- The margin-low and capacity-low conditions have been absent for 10 ms: the earlier of those showing (R189). -/
def marginClear (s : State) : State :=
  let due := (if s.fab.status.getLsbD 0 then [(0, s.fab.marginAt + tenMs)] else []) ++ (if s.fab.status.getLsbD 1 then [(1, s.fab.capacityAt + tenMs)] else [])
  match due with
  | [] => s
  | (_, c) :: t =>
    let c := t.foldl (fun m q => min m q.2) c
    let s := waitCycle c s
    due.foldl (fun s q => if q.2 ≤ s.time.cycles then fabStatus q.1 false s else s) s

/-! ## Lag and rotation -/

/-- The median of a list of rates; the mean of the two middle values of an even count (R218). -/
def median2 (l : List Nat) : Nat :=
  let l := sortBy (fun a b => decide (a ≤ b)) l
  let n := l.length
  if n = 0 then 0 else if n % 2 = 1 then 2 * l.getD (n / 2) 0 else l.getD (n / 2 - 1) 0 + l.getD (n / 2) 0

/-- A spindle with the interval of 100 us that ends at cycle `now` closed: what it holds goes on being held. -/
def Spindle.lagClose (now : Nat) (x : Spindle) : Spindle :=
  { x with heldFrom := x.heldFrom.map (fun _ => now), part := (0, 0), parts := ((x.part.1, x.part.2 + (now - x.heldFrom.getD now)) :: x.parts).take 100 }

/-- Tokens a spindle completed in a lag window of `w` us, and the cycles for which it held one (R186). -/
def Spindle.lagWindow (w : Nat) (x : Spindle) : Nat × Nat := (x.parts.take (w / 100)).foldl (fun a q => (a.1 + q.1, a.2 + q.2)) (0, 0)

/-- Busy rate in 0.001 G tokens/s of tokens completed in a number of cycles: a cycle is 0.64 ns. -/
def busyRate (q : Nat × Nat) : Nat := if q.2 = 0 then 0 else q.1 * 25000 / (16 * q.2)

/-- The instants of the lag evaluations are the multiples of 100 us of the cycle count (R218; the phase is a DESIGN CHOICE, log 124): the
next one, `elapsed` cycles from now or later. -/
def lagInstant (elapsed : Nat) (s : State) : State :=
  let p := cyclesUs 100
  waitCycle ((s.time.cycles + elapsed + (p - 1)) / p * p) s

/-- One lag evaluation, every 100 us: busy rates over the lag window, compared with their median (R186, R218, R219). -/
def lagEvaluate (s : State) : State :=
  let win := s.odNat 0x3001 2
  let s := (List.range 28).foldl (fun s i => updSp i (fun x => let x := x.lagClose s.time.cycles; { x with busy := busyRate (x.lagWindow win) }) s) s
  let w := inRole s .working
  let m := median2 (w.map (fun i => (s.spindle i).busy))
  let slow := w.filter (fun i => decide (10000 ≤ ((s.spindle i).lagWindow win).1) && decide (200 * (s.spindle i).busy < s.odNat 0x3001 1 * m) && !(s.spindle i).lag)
  settleRoles (slow.foldl (fun s i =>
    post { type := 0x3007, source := i } (logSpindle i 7 0 0 (updSp i (fun x => { x with lag := true, cause := 7 }) s))) s)

/-- A lag swap or a replacement is under way. -/
def swapping (s : State) : Bool :=
  decide (0 < startingWork s) || (inRole s .working).any (fun i => (s.spindle i).lag) || (inRole s .draining).any (fun i => (s.spindle i).why == .lag)

/-- Start a rotation (R210, R211, R213). -/
def rotate (s : State) : State :=
  if s.odNat 0x3000 1 = 0 ∨ s.power.start ≠ .ready ∨ s.power.parked ∨ s.fab.rotation.isSome ∨ s.fab.failover ≠ [] ∨ swapping s ∨ s.power.service ≠ .none ∨ s.fab.status.getLsbD 3 then s
  else
    let s := waitCycle (s.fab.rotatedAt + cyclesUs (1000 * s.odNat 0x3000 2)) s
    match nextSpare s with
    | none => s
    | some i => spareCheck (startSpindle i .rotation { s with fab := { s.fab with rotation := some (i, false) } })

/-! ## Lockstep restarts and retention rebuild -/

/-- Replay frames; tokens of their old attempts stay in flight, hold their credits until they complete, and count for nothing (R202, R221). -/
def takeBack (ids : List Nat) (s : State) : State := replayAll ids s

/-- The state-preserving restart of the headstock or the tailstock (R221). -/
def lockstepRestart (h : Half) (cause : Nat) (s : State) : State :=
  match h with
  | .headstock =>
    let ids := (s.path.frames.filter (fun q => q.2.desc.tokens != 0 && (q.2.stage == .dispatched || (q.2.stage == .ready && q.2.desc.done == q.2.desc.tokens)))).map Prod.fst
    countDomainReset 72 cause (takeBack ids s)
  | .tailstock =>
    let ids := (s.path.frames.filter (fun q => q.2.stage == .dispatched && q.2.desc.issued == q.2.desc.tokens)).map Prod.fst
    countDomainReset 73 cause (takeBack ids s)

/-- Retention bank `b` is reset under traffic: what it held is lost, and until it is rebuilt reads treat its symbols as erased and writes
go to the other three (R199). -/
def bankReset (b cause : Nat) (s : State) : State :=
  let s := bankLost b (countDomainReset (52 + b) cause (setDomain (52 + b) 3 s))
  post { type := 0x3005, source := b } (fabStatus 4 true { s with fab := { s.fab with rebuild := some b } })

/-- A retention bank has been rewritten (R199); in a service reset the next bank is then reset, one at a time (R36, R491). -/
def rebuildDone (b : Nat) (s : State) : State :=
  if s.fab.rebuild = some b then
    let s := bankRebuild b s
    let s := post { type := 0x3005, source := b, a := 1 } (fabStatus 4 false { s with fab := { s.fab with rebuild := none } })
    if s.power.service = .resetting ∧ b < 3 then bankReset (b + 1) 3 s else s
  else s

/-! ## Parking (R495) -/

/-- Drain every Working spindle to Spare. -/
def park (s : State) : State :=
  if s.odNat 0x5404 1 = 0 ∨ s.power.parked ∨ s.fab.offered ≠ 0 ∨ s.power.start ≠ .ready then s
  else
    let s := waitCycle (s.power.zeroSince + cyclesUs (1000 * s.odNat 0x5404 2)) s
    let s := { s with power := { s.power with parked := true } }
    (inRole s .working).foldl (fun s i => updSp i (fun x => { x with why := .park, lag := false }) (setRole i .draining s)) s

/-- The first frame in the dispatch queue ends parking: spares start as replacements. -/
def unpark (s : State) : State :=
  if s.power.parked && !(s.fab.dispatch.isEmpty && s.fab.replay.isEmpty) then settleRoles { s with power := { s.power with parked := false } } else s

/-! ## Spindle commands (R230) -/

/-- A spindle command names a role for which it is defined, and leaves enough spindles. -/
def spindleCmdOk (s : State) (i code : Nat) : Bool :=
  let r := (s.spindle i).role
  let enough := decide (24 < roleCount s .working) || (r == .draining && decide (24 ≤ roleCount s .working)) || decide (0 < roleCount s .spare)
  s.fab.failover.isEmpty &&
  (match code with
   | 1 => (r == .working || r == .draining) && enough
   | 2 => r == .retired
   | 3 => r == .working && enough
   | _ => false)

/-- Carry out a spindle command. -/
def spindleCommand (i code : Nat) (s : State) : State :=
  match code with
  | 1 => isolateSpindle i 9 s
  | 2 => setDomain i 1 (updSp i (fun x => { x with fails := 0, why := .testOnly }) (setRole i .diagnosing s))
  | 3 => updSp i (fun x => { x with injected := true }) s
  | _ => s

/-! ## Commands -/

/-- R192, R495. -/
def execHeadstockSettle (pd : PD) (s : State) : Out := .next (unpark (headstockSettle pd s))

/-- R193, R195. -/
def execDispatchFrame (s : State) : Out := .next (dispatch s)

/-- R177, R194. -/
def execTokenIssue (sp : Fin 28) (s : State) : Out := .next (issueToken sp s)

/-- R175, R178, R194. -/
def execTokenComplete (sp : Fin 28) (s : State) : Out := .next (completeToken sp s)

/-- R183, R214. -/
def execSpindleFault (sp : Fin 28) (check : Check) (s : State) : Out :=
  .next (if atWork s sp then isolateSpindle sp (if (s.spindle sp).injected && check == .codeViolation then 10 else checkCode check) s else s)

/-- R183. -/
def execTokenWatchdogExpiry (sp : Fin 28) (s : State) : Out :=
  .next (if atWork s sp && !(s.spindle sp).flight.isEmpty then isolateSpindle sp 5 s else s)

/-- R181. -/
def execMaskReseedRequest (sp : Fin 28) (s : State) : Out :=
  let x := s.spindle sp
  .next (if atWork s sp && !x.reseedAsked && (x.maskFull || decide (2 ^ 20 ≤ x.maskCount.toNat)) then
    rngAsk (.maskReseed sp) 1 (updSp sp (fun x => { x with reseedAsked := true }) s) else s)

/-- R181, R382. -/
def execMaskReseedServed (sp : Fin 28) (s : State) : Out :=
  .next (match s.rng.queue.find? (fun r => r.who == .maskReseed sp.val) with
    | some r => rngServe r s
    | none => s)

/-- R182. -/
def execMaskRatchet (sp : Fin 28) (s : State) : Out :=
  let x := s.spindle sp
  .next (if atWork s sp && x.reseedAsked && (x.maskFull || decide (2 ^ 21 ≤ x.maskCount.toNat)) then
    fabCount 6 1 (updSp sp (fun x => { x with mask := Config.maskRatchet x.mask }) s) else s)

/-- R182. -/
def execMaskStarvation (sp : Fin 28) (s : State) : Out :=
  .next (if atWork s sp && (s.spindle sp).maskFull then isolateSpindle sp 6 (fabCount 7 1 s) else s)

/-- R187 to R189. -/
def execAvsEvaluation (rings : List Nat) (s : State) : Out := .next (avsEvaluate rings s)

/-- R189. -/
def execMarginEventClear (s : State) : Out := .next (marginClear s)

/-- R190, R503: the acknowledge of a voltage write, or of a read with the voltage reported. -/
def execAvsCommandAck (read : Option (BitVec 12)) (s : State) : Out :=
  .next (match read, s.fab.avsPending with
    | some v, _ => { s with fab := { s.fab with reported := v.toNat } }
    | none, mv :: l => fabStatus 2 (s.fab.status.getLsbD 2 && !s.fab.frozen) { s with fab := { s.fab with rail := mv, avsPending := l, frozen := false } }
    | none, [] => s)

/-- R503. -/
def execAvsVoltageRead (s : State) : Out := .next (emit .avsRead s)

/-- R190. -/
def execAvsAckTimeout (s : State) : Out := .next (if !s.fab.avsPending.isEmpty then avsFreeze s else s)

/-- R190: reported and requested voltage differ by more than 15 mV. -/
def execAvsReadbackMismatch (s : State) : Out :=
  .next (if !s.fab.frozen && (decide (s.fab.lastCmd + 15 < s.fab.reported) || decide (s.fab.reported + 15 < s.fab.lastCmd)) then avsFreeze s else s)

/-- R190. -/
def execAvsRetry (s : State) : Out := .next (if s.fab.frozen then avsSend s.fab.lastCmd s else s)

/-- R218. -/
def execLagEvaluation (elapsed : Nat) (s : State) : Out := .next (lagEvaluate (lagInstant elapsed s))

/-- R210. -/
def execRotationStart (s : State) : Out := .next (rotate s)

/-- A start not done 1 ms after it began fails (R206). -/
def startLate (i : Nat) (s : State) : State := startFailed i (waitCycle ((s.spindle i).since + cyclesUs 1000) s)

/-- A Starting spindle's test ends at cycle `at_`, unless its start has failed before. -/
def katEnds (i : Nat) (kat : KatRun) (at_ : Nat) (s : State) : State :=
  if (s.spindle i).since + cyclesUs 1000 < at_ then startLate i s
  else
    let s := waitCycle at_ s
    if katPasses kat then startPassed i (calibOf kat) s else startFailed i (fabCount 3 1 s)

/-- R206, R209: the test ends `elapsed` cycles on; guarded on the mask seed having been served. -/
def execSpindleKatComplete (sp : Fin 28) (kat : KatRun) (elapsed : Nat) (s : State) : Out :=
  .next (if (s.spindle sp).role == .starting && !s.rng.queue.any (fun r => r.who == .spareSeed sp.val) then katEnds sp kat (s.time.cycles + elapsed) s else s)

/-- R206: a start not done within 1 ms. -/
def execSpindleStartTimeout (sp : Fin 28) (s : State) : Out :=
  .next (if (s.spindle sp).role == .starting then startLate sp s else s)

/-- A Starting spare's mask seed is not served within 40 us (R206, R383); the start is retried no sooner than 1 ms later. -/
def spareSeedLost (sp : Nat) (s : State) : State :=
  if (s.spindle sp).role == .starting && s.rng.queue.any (fun r => r.who == .spareSeed sp) then
    let s := waitCycle ((s.spindle sp).since + cyclesUs 40) s
    let s := { s with rng := { s.rng with queue := s.rng.queue.filter (fun r => r.who != .spareSeed sp) } }
    settleRoles (updSp sp (fun x => { x with retryAt := s.time.cycles + cyclesUs 1000 }) (toSpare sp s))
  else s

/-- R206, R383. -/
def execSpareSeedTimeout (sp : Fin 28) (s : State) : Out := .next (spareSeedLost sp s)

/-- R206: the start is retried, for the requester that asked for it. -/
def execSpareStartRetry (sp : Fin 28) (s : State) : Out :=
  .next (if (s.spindle sp).role == .spare && decide ((s.spindle sp).retryAt ≠ 0) then
    let s := updSp sp (fun x => { x with retryAt := 0 }) (waitCycle (s.spindle sp).retryAt s)
    if s.fab.rotation.any (fun q => q.1 == sp.val) then spareCheck (startSpindle sp .rotation s) else settleRoles s
  else s)

/-- R206: the last token of a Draining spindle has completed. -/
def execSpindleDrainComplete (sp : Fin 28) (s : State) : Out :=
  let x := s.spindle sp
  .next (if x.role == .draining && x.flight.isEmpty && !s.path.frames.any (fun q => holds sp q.2) then
    match x.why with
    | .lag => settleRoles (updSp sp (fun x => { x with lag := false }) (setDomain sp 0 (setRole sp .diagnosing s)))
    | .rotation => settleRoles (rotationEnd (fabCount 2 1 (toSpare sp s)))
    | _ => settleRoles (toSpare sp s)
  else s)

/-- R206: 10 ms after isolation; a spindle whose lifetime isolations have reached 16 is retired. -/
def execIsolationTimerExpiry (sp : Fin 28) (s : State) : Out :=
  .next (if (s.spindle sp).role == .isolated then
    let s := waitCycle ((s.spindle sp).since + tenMs) s
    let s := setRole sp .diagnosing s
    if 16 ≤ (s.spindle sp).isolations.toNat then retireSpindle sp s else spareCheck s
  else s)

/-- R206: power cycle, memory self-test and known-answer test. What the self-test finds to repair is open (log 5). -/
def execSpindleDiagnosisComplete (sp : Fin 28) (run : DiagnosisRun) (s : State) : Out :=
  let x := s.spindle sp
  .next (if x.role == .diagnosing then
    (if run.memory && katPasses run.kat then
      let v := openValue s
      settleRoles (toSpare sp (updSp sp (fun x => { x with repairs := x.repairs + 1, fails := 0, calib := calibOf run.kat, repairMap := BitVec.ofNat 256 v.1, retryAt := 0 }) v.2))
     else
      let s := fabCount 3 1 (updSp sp (fun x => { x with fails := x.fails + 1, cause := 8, retryAt := s.time.cycles + cyclesUs 1000000 }) s)
      if 3 ≤ x.fails + 1 then retireSpindle sp (updSp sp (fun x => { x with retryAt := 0 }) s) else s)
  else s)

/-- R206: one second after a failed diagnosis the test runs again. -/
def execDiagnosisRetryTimer (sp : Fin 28) (s : State) : Out :=
  .next (if (s.spindle sp).role == .diagnosing then updSp sp (fun x => { x with retryAt := 0 }) (waitCycle (s.spindle sp).retryAt s) else s)

/-- R221. -/
def execLockstepMismatchRestart (half : Half) (s : State) : Out := .next (lockstepRestart half 2 s)

/-- R495. -/
def execSpindlePark (s : State) : Out := .next (park s)

end Sys2Proof.Machine
end

