-- ==== Sys2Proof/Machine/Tailstock.lean ====
section
/-! DEFINITION. The tailstock (R201 to R204): commits in sequence order, MACsec results and replay state (R107 steps 6 to 8,
R109, R110), the post-verify inspection (R30, R314), egress paths (R285, R286, R288), and secure blocks (R155 to R162, R204). -/
namespace Sys2Proof.Machine

/-! ## Commits held back (R286) -/

/-- The port-directions of the same quadrant and direction as `p`. -/
def quadrantPds (p : PD) : List PD := (List.range 8).map (fun j => ⟨Fin.ofNat 32 (p.port / 8 * 8 + j), p.dir⟩)

/-- The ready frame at a port-direction's commit pointer, its octets as retention gives them. -/
def commitHead (s : State) (p : PD) : Option (Nat × Frm) :=
  match frameAt s p (s.pd p).commitPtr with
  | some (id, f) => if f.stage == .ready then some (id, { f with data := frmData s id f }) else none
  | none => none

/-- A frame of the quadrant-direction waits for shaping-overflow space that still cannot be granted. -/
def commitsHeld (s : State) (p : PD) : Bool :=
  (quadrantPds p).any (fun q => (s.pd q).heldBack && match commitHead s q with
    | some (_, f) => (poolFor s overflowOrder f.occ).isNone
    | none => false)

/-- Commits of the quadrant-direction go on. -/
def commitsResume (p : PD) (s : State) : State :=
  (quadrantPds p).foldl (fun s q => if (s.pd q).heldBack then updPd q (fun r => { r with heldBack := false }) s else s) s

/-! ## Into an egress queue -/

/-- Whether a packet-buffer write cannot start at once (R286): before the memory unit has its keys, and otherwise as refresh,
rebuilds and bandwidth shares fall, which the spec leaves open (log 26). -/
def spillBlocked (s : State) : Bool × State :=
  if mpuReady s then (let v := openValue s; (v.1 % 2 == 1, v.2)) else (true, s)

/-- Enter a queue as shaping overflow, where space can be granted for it (R286). -/
def overflowed (t : ToQueue) (s : State) : Option State := (poolFor s overflowOrder t.occ).map (fun pool => enterOverflow pool t s)

/-- Commit a frame toward an egress queue; none where its commit is held back for want of shaping-overflow space. A frame that is not
timed is discarded while the transmitter sends fault ordered sets (R92). -/
def toEgress (id : Nat) (t : ToQueue) (s : State) : Option State :=
  match queueRefuses s t with
  | some .misdirected => some (countDrop t.pd .misdirected (dropFrm id s))
  | some .full => some (updQueue t.pd t.queue (fun x => { x with fullDrops := x.fullDrops + 1 }) (dropFrm id s))
  | none =>
    let s := edgePass (edgeOut t.pd) t.data.length s
    if t.timed then some (holdTimed t (moveFrm id s))
    else if faultTx s t.pd.port (outSide t.pd) then some (linkDown t.pd (dropFrm id s))
    else if directOk s t then some (enterDirect t (moveFrm id s))
    else
      let b := spillBlocked s
      match (if b.1 then none else enterSpilled t (moveFrm id b.2)) with
      | some s => some s
      | none => overflowed t (moveFrm id b.2)

/-- The egress request of a retained frame with its final octets. -/
def Frm.toQueue (f : Frm) (id : Nat) (d : Octets) : ToQueue :=
  { id := id, pd := f.pd, seq := f.seq, data := d, queue := f.queue, timed := f.timed, launch := f.launch, report := f.report, pool := f.pool, occ := f.occ, dreq := f.dreq }

/-! ## Frames taken off the path -/

/-- A PTP frame with its header at `h` belongs to the part's own clock (R314). -/
def ownClock (s : State) (p : PD) (d : Octets) (h : Nat) : Bool :=
  decide (octet d (h + 4) = s.odNat 0x4010 2) && bitAt (s.odNat 0x4010 11) p.key

/-- A frame taken off by punt: to the time unit, or to its exception queue (R34, R54, R314). -/
def takePunt (f : Frm) (queue reason source : Nat) (s : State) : State :=
  let own := kvFlag f.kv 2 && match ptpAt f.data (frmTags s f) (frmEther s f) (frmExt s f) with
    | some (h, _) => ownClock s f.pd f.data h
    | none => false
  if own then { s with time := { s.time with inbox := s.time.inbox ++ [(f.pd, f.data, f.stamp, queue)] } }
  else deliverOrDrop queue { pd := f.pd, data := f.data, reason := reason, decrypted := false, source := source, stamp := f.stamp, rxSc := f.rxSc, cut := f.cut, cls := kvGet f.kv 481 474 } s

/-! ## MACsec -/

/-- The ICV or tag that a completed descriptor gives. -/
def Desc.icvOut (d : Desc) : Octets := octetsOf (d.y ^^^ d.mask)

/-- The frame an S2L protect descriptor gives: SecTAG in place, ICV at the end (R98, R203 step 4). -/
def protectedFrame (f : Frm) : Octets := f.data.take f.desc.tagAt ++ f.desc.tag ++ f.data.drop f.desc.tagAt ++ f.desc.icvOut

/-- Count a protected frame (R122). -/
def countProtected (f : Frm) (s : State) : State :=
  let e := f.desc.mode == .gcmEncrypt
  let n := f.data.length - f.desc.tagAt
  saCount f.desc.sa (if e then 1 else 0) (txScCount f.desc.sc (if e then 3 else 2) n (txScCount f.desc.sc (if e then 1 else 0) 1 s))

/-- Raise the next PN and the lowest acceptable PN of a receive SA (R109). -/
def raiseReplay (sa window pn : Nat) (s : State) : State :=
  updSa sa (fun a => let n := max a.n (pn + 1); { a with n := n, l := max a.l (n - window) }) s

/-- Steps 6 to 8 of R107 for a frame whose spindle has finished: whether it is delivered and whether it verified, and the state. Replay
protect and window are those the frame was dispatched with (R124). DESIGN CHOICE (log 108): a PN recovered past 2^64 - 1, where the
upper half of L is all ones, is used modulo 2^64 in the IV and raises neither N nor L, though its frame is delivered as Delayed. DESIGN
CHOICE (log 109): InOctetsValidated and InOctetsDecrypted count every frame whose ICV verifies, one then dropped as late too. -/
def verifyCommit (f : Frm) (secure : Nat) (s : State) : Bool × Bool × State :=
  let d := f.desc
  let e := d.mode == .gcmDecrypt
  if d.icvOut ≠ padTo 16 d.icv then
    if d.valMode = 2 ∨ e then (false, false, countDrop f.pd (.macsecSc d.sc 2 (some d.sa)) s)
    else (true, false, saCount d.sa 1 (rxScCount d.sc 1 1 s))
  else
    let s := rxScCount d.sc (if e then 9 else 8) secure s
    let late := decide (d.pn < (s.sa d.sa).l) || decide (2 ^ 64 ≤ d.pn)
    if late && d.replay then (false, true, rxScCount d.sc 5 1 s)
    else
      let s := if 2 ^ 64 ≤ d.pn then s else raiseReplay d.sa d.window d.pn s
      if late then (true, true, rxScCount d.sc 4 1 s) else (true, true, saCount d.sa 0 (rxScCount d.sc 0 1 s))

/-- The post-verify inspection of R30 and what follows for the frame: taken off, timed, or passed on. -/
def postVerify (id : Nat) (f : Frm) (d : Octets) (s : State) : Option State :=
  let t := tagCount s.tpid d
  let e := be16 d (12 + 4 * t)
  if e = 0x88B5 then some (takeUrzidun f.pd d (dropFrm id s))
  else if e = 0x88F7 ∧ ownClock s f.pd d (14 + 4 * t) then
    some (dropFrm id { s with time := { s.time with inbox := s.time.inbox ++ [(f.pd, d, f.stamp, 16 * f.pd.port.val + 1)] } })
  else if e = 0x88F7 ∧ transitOn s f.pd then
    let launch := f.stamp + f.budget * 65536
    let w := timedWrite f.pd { f with timed := true, launch := launch } d t e false s
    toEgress id { (f.toQueue id w.1) with timed := true, launch := launch } w.2
  else toEgress id (f.toQueue id d) s

/-- Commit an L2S protect frame. -/
def commitReceive (id : Nat) (f : Frm) (s : State) : Option State :=
  let t := kvTags f.kv
  let secure := (secureLen f.data t f.data.length).getD 0
  let r := verifyCommit f secure s
  let s := r.2.2
  if !r.1 then some (dropFrm id s)
  else
    let d := stripFrame f.data t secure
    if r.2.1 then postVerify id f d s else toEgress id (f.toQueue id d) s

/-! ## Secure blocks -/

/-- GHASH inputs in the share of position `p` (R204). -/
def shareInputs (p : Nat) : Nat := if p = 31 then 953 else 952

/-- Open packet-buffer block of a play-out buffer. -/
def Trib.openOf (r : Trib) (d : Dir) : Option (Nat × Nat) := match d with | .s2l => r.openS | .l2s => r.openL

/-- Write a play-out item's payload and overhead to the packet buffer (R146); it waits on die where the memory unit takes no request
or no block can be given (log 101). -/
def playStore (t : Nat) (d : Dir) (i : PlayItem) (s : State) : PlayItem × State :=
  if !mpuReady s then (i, s)
  else match pbWrite (pbKey (t / 32 * 4) d) d ((s.tr t).openOf d) (recordsOf 64 (i.payload ++ i.overhead)) s with
    | none => (i, s)
    | some (l, o, s) =>
      let s := l.foldl (fun s a => edgePass (edgeStack a) 64 s) s
      ({ i with payload := zeros i.payload.length, overhead := zeros i.overhead.length, place := l }, updTr t (fun x => match d with | .s2l => { x with openS := o } | .l2s => { x with openL := o }) s)

/-- Put a committed frame in its play-out buffer (R146). -/
def playPush (t : Nat) (d : Dir) (i : PlayItem) (s : State) : State :=
  let q := playStore t d i s
  updTr t (fun x => match d with | .s2l => { x with playS := x.playS ++ [q.1] } | .l2s => { x with playL := x.playL ++ [q.1] }) q.2

/-- Read a play-out item back and free its lines; none where the packet buffer has lost it (R147, R363). -/
def playFetch (t : Nat) (d : Dir) (i : PlayItem) (s : State) : Option PlayItem × State :=
  if i.place.isEmpty then (some i, s)
  else
    let s := i.place.foldl (fun s a => edgePass (edgeStack a) 64 s) s
    let r := pbRead (pbKey (t / 32 * 4) d) i.place s
    let n := i.payload.length
    (r.1.map (fun b => { i with payload := b.take n, overhead := slice b n i.overhead.length, place := [] }), pbFree i.place r.2)

/-- Empty a play-out buffer and free its lines. -/
def playClear (t : Nat) (d : Dir) (s : State) : State :=
  let l := match d with | .s2l => (s.tr t).playS | .l2s => (s.tr t).playL
  let s := l.foldl (fun s i => if i.place.isEmpty then s else pbFree i.place s) s
  updTr t (fun x => match d with | .s2l => { x with playS := [] } | .l2s => { x with playL := [] }) s

/-- The play-out item of a committed tributary frame; `lso` none leaves its overhead as it came. -/
def playItem (f : Frm) (o : OduPart) (lso : Option Octets) : PlayItem :=
  { seq := f.seq, mfas := BitVec.ofNat 8 (mfasOf o.overhead), payload := f.data, overhead := o.overhead, acceptAt := f.acceptCycle, bipIn := o.bipIn, bipOut := if lso.isSome then bip8 f.data else o.bipIn, ais := o.ais, lso := lso }

/-- Commit an S2L frame that a spindle has worked on (R151, R153, R156, R204). -/
def commitShareTransmit (f : Frm) (o : OduPart) (s : State) : State :=
  let t := o.trib
  let r := s.tr t
  let d := f.desc
  let p := d.position
  let h := hashKey (slotKey s d.slot)
  let fresh := p == 0 || d.pn != r.txCtr
  let prev := if fresh && r.txPos != 31 then zeros 16 else padTo 16 r.txTag
  let missing := if fresh then p != 0 else r.txMissing || p != r.txPos + 1
  let y := if fresh then d.y else gf128Mul r.txY (gf128Pow h (shareInputs p)) ^^^ d.y
  let mask := if p = 0 then d.mask else r.txMask
  let tag := if p = 31 then (if missing then zeros 16 else octetsOf (y ^^^ mask)) else prev
  let s := updTr t (fun x => { x with txY := y, txMask := mask, txMissing := missing, txCtr := d.pn, txPos := p, txTag := tag }) s
  let s := saCount d.sa 0 (tribCount t 0 s)
  let s := if p = 31 then saCount d.sa 1 (tribCount t 1 s) else s
  playPush t .s2l (playItem f o (some (if p < 2 then slice prev (8 * p) 8 else padTo 8 d.tag))) s

/-- A roll of tributary `t` whose guard is to be extended until a block under the new key has verified (R161). -/
def rollStretch (s : State) (t : Fin 256) : Bool :=
  let r := s.roll (.tributary t)
  decide (r.state = 2) && decide (guardOf s r * 1000 < 2 * (s.tr t).blockNs) && decide ((s.tr t).saAt .l2s r.incoming ≠ 0xFFFF)

/-- A block under SA `i` with counter `c` has verified (R161, R162). -/
def blockVerified (t i c : Nat) (s : State) : State :=
  let s := updTr t (fun x => { x with fails := 0, goods := x.goods + 1, lastVerified := c }) (tribCount t 2 (saCount i 0 s))
  let s := if s.odNat 0x2812 2 ≤ (s.tr t).goods then tribDefect t 17 false s else s
  let u : RollUser := .tributary (Fin.ofNat 256 t)
  let r := s.roll u
  if rollStretch s (Fin.ofNat 256 t) && !r.extended && (s.tr t).saAt .l2s r.incoming == i then
    updRoll u (fun x => { x with extended := true, guardEnd := s.time.cycles + (2 * (s.tr t).blockNs * 25 + 15) / 16 }) s
  else s

/-- Settle the block whose tag was awaited: `got` is the tag received. -/
def settleDue (t : Nat) (got : Option Octets) (s : State) : State :=
  match (s.tr t).due with
  | none => s
  | some (i, c, tag) =>
    let s := updTr t (fun x => { x with due := none, rxGot := [] }) s
    if tag.isSome && tag == got then blockVerified t i c s else blockFailed t i s

/-- The block being committed has ended: its tag is awaited, or it has none (R151, R158). -/
def closeBlock (t : Nat) (s : State) : State :=
  let r := s.tr t
  if !r.cmtOn then s
  else
    let s := settleDue t none s
    updTr t (fun x => { x with due := some (r.cmtSa, r.cmtCtr, if r.rxMissing ∨ r.cmtPos ≠ 31 ∨ 0xFFFFFFFFFFFF < r.cmtCtr then none else r.rxTag), rxGot := [], rxTag := none, cmtL0 := none }) s

/-- A tracked or substitute frame at position `p` opens a block where it does not follow on. -/
def openReceived (t p : Nat) (s : State) : State :=
  let r := s.tr t
  if p = 0 ∨ p ≤ r.cmtPos ∨ !r.cmtOn then updTr t (fun x => { x with cmtOn := true, rxMissing := p != 0, rxY := 0, cmtL0 := none, rxTag := none }) (closeBlock t s)
  else if p ≠ r.cmtPos + 1 then updTr t (fun x => { x with rxMissing := true }) s
  else s

/-- The block's tag after position 31: the accumulator as the spindles formed it with the predicted L0, corrected to the L0
received, which stands in the first of 30,466 GHASH inputs (R155, R160). -/
def receivedTag (h : BitVec 128) (r : Trib) (ki : Nat) : Octets :=
  let l0 := r.cmtL0.getD 0
  let delta : BitVec 128 := BitVec.ofNat 128 ((l0 ^^^ lsoL0 ki false (r.mode == 1)) * 2 ^ 56)
  octetsOf (r.rxY ^^^ gf128Mul delta (gf128Pow h 30466) ^^^ r.rxMask)

/-- Commit an L2S frame that a spindle has worked on (R151, R153, R155, R160, R162, R204). -/
def commitShareReceive (f : Frm) (o : OduPart) (s : State) : State :=
  let t := o.trib
  let d := f.desc
  let p := d.position
  let lso := lsoOf o.overhead
  let h := hashKey (slotKey s d.slot)
  let s := openReceived t p s
  let r := s.tr t
  let y := if p = 0 then d.y else gf128Mul r.rxY (gf128Pow h (shareInputs p)) ^^^ d.y
  let s := updTr t (fun x => { x with rxY := y, rxMask := if p = 0 then d.mask else x.rxMask, cmtPos := p, cmtSa := d.sa, cmtCtr := d.pn }) s
  let s :=
    if p = 0 then updTr t (fun x => { x with rxGot := lso }) s
    else if p = 1 then settleDue t (some ((s.tr t).rxGot ++ lso)) s
    else
      let l0 := octet lso 0
      let s := settleDue t none s
      updTr t (fun x => { x with cmtL0 := some (x.cmtL0.getD l0), rxMissing := x.rxMissing || x.cmtL0.getD l0 != l0 }) s
  let s := if p = 31 ∧ !(s.tr t).rxMissing then updTr t (fun x => { x with rxTag := some (receivedTag h x d.an) }) s else s
  playPush t .l2s (playItem f o (some (zeros 8))) s

/-- A substitute frame received in a block (R151): the block, and a tag it carried away, fail. -/
def commitSubstitute (f : Frm) (o : OduPart) (s : State) : State :=
  let t := o.trib
  let p := mfasOf o.overhead % 32
  let s := if (s.tr t).cmtOn then updTr t (fun x => { x with cmtPos := p, rxMissing := true }) (settleDue t none (openReceived t p s)) else s
  playPush t .l2s (playItem f o none) s

/-- Commit a tributary frame (R146, R150, R203). -/
def commitOdu (f : Frm) (o : OduPart) (s : State) : State :=
  match f.pd.dir with
  | .s2l => if f.desc.tokens = 0 then playPush o.trib .s2l (playItem f o none) s else commitShareTransmit f o s
  | .l2s =>
    if f.desc.tokens ≠ 0 ∧ !o.unchanged then commitShareReceive f o s
    else if o.substitute then commitSubstitute f o s
    else playPush o.trib .l2s (playItem f o none) (updTr o.trib (fun x => { x with cmtOn := false, due := none, rxGot := [] }) s)

/-! ## Commits -/

/-- What the verdict of a ready frame asks for (R203); none where the commit is held back. -/
def commitWork (id : Nat) (f : Frm) (s : State) : Option State :=
  match f.verdict with
  | .drop c => some (countDrop f.pd c (dropFrm id s))
  | .punt q r w => some (takePunt f q r w (dropFrm id s))
  | .toUrzidun => some (takeUrzidun f.pd f.data (dropFrm id s))
  | .bypass | .strip =>
    let s := match f.pd.dir with | .s2l => untagged f.pd.port s | .l2s => s
    let w := timedOwn f s
    toEgress id (f.toQueue id w.1) w.2
  | .odu => match f.odu with
    | some o => some (commitOdu f o (dropFrm id s))
    | none => some (dropFrm id s)
  | .protect | .pending => match f.odu, f.pd.dir with
    | some o, _ => some (commitOdu f o (dropFrm id s))
    | none, .s2l => toEgress id (f.toQueue id (protectedFrame f)) (countProtected f s)
    | none, .l2s => commitReceive id f s

/-- Commit one ready frame, and give back its slot reference (R196). -/
def commitFrame (id : Nat) (f : Frm) (s : State) : Option State :=
  (commitWork id f s).map (fun s => if f.desc.tokens = 0 then s else slotUnref f.desc.slot s)

/-- Commit the ready entries of a port-direction in sequence order (R201), up to `n` of them. -/
def commitRun (p : PD) : Nat → State → State
  | 0, s => s
  | n + 1, s =>
    match commitHead s p with
    | none => s
    | some (id, f) =>
      match commitFrame id f (updPd p (fun r => { r with commitPtr := r.commitPtr + 1 }) s) with
      | some s => commitRun p n s
      | none => updPd p (fun r => { r with heldBack := true }) { s with free := s.free + 1 }

/-- The tailstock's work at a port-direction; Ethernet commits wait while the egress scheduler restarts (R303). -/
def commitEntry (p : PD) (s : State) : State :=
  if commitsHeld s p || (ethPort s p.port && schedRestarting s p) then s else commitRun p s.path.frames.length (commitsResume p s)

/-! ## Commands -/

/-- R201 to R204, R107, R109, R30. -/
def execCommitEntry (pd : PD) (s : State) : Out := .next (commitEntry pd s)

/-- R286: the write starts, and commits held back for its space go on. -/
def execSpillWriteStart (pd : PD) (queue : Fin 1024) (s : State) : Out :=
  let held := (quadrantPds pd).filter (fun q => (s.pd q).heldBack)
  .next (held.foldl (fun s q => commitEntry q s) (spillStart pd queue s))

end Sys2Proof.Machine
end

