-- ==== Sys2Proof/Machine/Otn.lean ====
section
/-! DEFINITION. OTN ports: frame alignment (R132 to R137), defects and consequent actions (R138 to R140, R163), remapping and
play-out (R146 to R151, R154), and performance monitoring (R164 to R169). -/
namespace Sys2Proof.Machine

/-! ## Sides and their defects -/

/-- Key of a side of pair `k`. -/
def sideKey (k : Nat) (sd : Side) : Nat := 2 * k + sd.num
/-- Defects present on a side. -/
def sideDefects (s : State) (k : Nat) (sd : Side) : W32 := s.otn.side.get (sideKey k sd) 0
/-- Layer of a side defect's bit in the order of R138: lanes, FlexO, OTUC, OTUC SM, ODUC PM, OPUCn. -/
def layerOf (b : Nat) : Nat := if b = 0 then 0 else if b ≤ 5 then 1 else if b ≤ 7 then 2 else if b ≤ 12 then 3 else if b ≤ 16 then 4 else 5
/-- Defect control of a pair (OD 0x2805). -/
def defectControl (s : State) (k : Nat) : Nat := s.odNat 0x2805 (k + 1)
/-- Side defects whose consequent action is aSSF (R138); dTIM only while its action is on. -/
def ssfBits (s : State) (k : Nat) : List Nat := [0, 1, 2, 3, 4, 6, 7, 13, 17, 18] ++ (if bitAt (defectControl s k) 18 then [8, 14] else [])
/-- aSSF is applied from a side. -/
def sideSsf (s : State) (k : Nat) (sd : Side) : Bool := (ssfBits s k).any (fun b => (sideDefects s k sd).getLsbD b)

/-- The tributary records of the OTUCn of pair `k`. -/
def tribsOf (s : State) (k : Nat) : List Nat := (List.range 256).filter (fun t => tribPair s t == k && (s.tr t).valid)

/-! ## What is sent back (R130, R138) -/

/-- The overhead that the OTUCn sent on a side carries: its TTI and timing as configured, FlexO RDI for a defect of the lanes or of FlexO,
SM BDI for dLOF, dLOM or a trace mismatch whose action is on, BIAE for dIAE, and PM BDI likewise. -/
def otuTx (s : State) (k : Nat) (sd : Side) : OtuTx :=
  let v := (sideDefects s k sd).toNat
  let tim := bitAt (defectControl s k) 18
  { tti := s.od 0x2803 (2 * k + sd.num + 1), through := bitAt (s.odNat 0x2801 (k + 1)) (match sd with | .line => 0 | .system => 1), rdi := decide (bits v 4 0 ≠ 0), smBdi := decide (bits v 7 6 ≠ 0) || (v.testBit 8 && tim), biae := v.testBit 12, pmBdi := v.testBit 13 || (v.testBit 14 && tim) }

/-- Bring the overhead sent on a side in line (R139). -/
def otuSettle (k : Nat) (sd : Side) (s : State) : State :=
  let key := sideKey k sd
  if otnShape s k = 0 then { s with otn := { s.otn with sent := s.otn.sent.drop key } }
  else if s.otn.sent.get key {} = otuTx s k sd then s
  else emit (.otuSet k sd (otuTx s k sd)) { s with otn := { s.otn with sent := s.otn.sent.put key (otuTx s k sd) } }

/-! ## Defects of a side -/

/-- Defects a side shows of the conditions that hold: those declared stay, and a further one joins where no lower layer shows one (R140). -/
def sideShown (raw v : W32) : W32 :=
  (List.range 19).foldl (fun v b =>
    if raw.getLsbD b && !(List.range 19).any (fun c => v.getLsbD c && decide (layerOf c < layerOf b)) then v ||| ((1 : W32) <<< b) else v) (v &&& raw &&& 0x7FFFF)

/-- Bring a side in line with the conditions that hold there, with aSSF as it follows, latching what is present (R139, R171) and noting it
for the second (R165); its tributaries, and what is sent back, follow. -/
def sideShow (k : Nat) (sd : Side) (s : State) : State :=
  let key := sideKey k sd
  let old := sideDefects s k sd
  let v := sideShown (s.otn.sideRaw.get key 0) old
  let s := { s with otn := { s.otn with side := s.otn.side.put key v } }
  let ssf := sideSsf s k sd
  let w := if ssf then v ||| 0x80000 else v
  let o := s.otn
  let s := { s with otn := { o with side := o.side.put key w, sideLatched := o.sideLatched.upd key 0 (· ||| w), sideSeen := o.sideSeen.upd key 0 (· ||| w) } }
  let s := if ssf && !old.getLsbD 19 && sd == .line then (tribsOf s k).foldl (fun s t => tribAcquire t s) s else s
  otuSettle k sd ((tribsOf s k).foldl (fun s t => tribShow t s) s)

/-- The condition of side defect `b` holds: it is declared, unless a lower layer of the side suppresses it (R140). -/
def sideDeclare (k : Nat) (sd : Side) (b : Nat) (s : State) : State :=
  sideShow k sd { s with otn := { s.otn with sideRaw := s.otn.sideRaw.upd (sideKey k sd) 0 (· ||| ((1 : W32) <<< b)) } }

/-- The condition of side defect `b` no longer holds. -/
def sideClear (k : Nat) (sd : Side) (b : Nat) (s : State) : State :=
  sideShow k sd { s with otn := { s.otn with sideRaw := s.otn.sideRaw.upd (sideKey k sd) 0 (· &&& ~~~((1 : W32) <<< b)) } }

/-- Defect `b` of tributary `t` as received on a side. -/
def tribDeclare (t : Nat) (sd : Side) (b : Nat) (s : State) : State := tribDefect t (8 * sd.num + b) true s
def tribClear (t : Nat) (sd : Side) (b : Nat) (s : State) : State := tribDefect t (8 * sd.num + b) false s

/-! ## Aligners -/

/-- Record of an aligner. -/
def State.aligner (s : State) (a : AlignerId) : Aligner :=
  match a with
  | .slice k sd j => s.otn.slices.get (16 * k + 8 * sd.num + j) {}
  | .tributary t sd => s.otn.tribAl.get (2 * t + sd.num) {}

/-- Change an aligner. -/
def updAligner (a : AlignerId) (f : Aligner → Aligner) (s : State) : State :=
  match a with
  | .slice k sd j => { s with otn := { s.otn with slices := s.otn.slices.upd (16 * k + 8 * sd.num + j) {} f } }
  | .tributary t sd => { s with otn := { s.otn with tribAl := s.otn.tribAl.upd (2 * t + sd.num) {} f } }

/-- An alignment marker of a FlexO instance is seen, valid or not: AM lock is gained on 2 valid ones in a row and lost on 4 invalid ones (R132). -/
def amSee (x : Aligner) (ok : Bool) : Aligner :=
  if x.am = ok then { x with amRun := 0 }
  else if x.amRun + 1 = (if x.am then 4 else 2) then { x with am := ok, amRun := 0 }
  else { x with amRun := x.amRun + 1 }

/-- dLOL of a side comes or goes (R138): every instance of its OTUCn is out of AM lock, or in it. Which ones lost it the defect does not
say (DEDUCED, log 27). -/
def amAll (k : Fin 8) (sd : Side) (on : Bool) (s : State) : State :=
  (List.range (otnShape s k)).foldl (fun s j => updAligner (.slice k sd (Fin.ofNat 8 j)) (fun x => { x with am := on, amRun := 0 }) s) s

/-- A pair carries an OTUCn, and slice `j` is one of its slices. -/
def sliceOk (s : State) (k j : Nat) : Bool := decide (j < otnShape s k)

/-- Which of dAIS, dOCI and dLCK of the ODUC PM is present shows in one bit (R171). -/
def pmStatSet (k : Nat) (sd : Side) (w : Nat) (on : Bool) (s : State) : State :=
  let f : Nat → Nat := fun v => if on then v ||| 2 ^ w else if v.testBit w then v - 2 ^ w else v
  { s with otn := { s.otn with pmStat := s.otn.pmStat.upd (sideKey k sd) 0 f } }

/-- Declare a defect (R138, R139). -/
def declare (d : DefectId) (s : State) : State :=
  match d with
  | .side k sd b w =>
    if otnShape s k = 0 then s
    else if b.val = 13 then sideDeclare k sd 13 (pmStatSet k sd w true s)
    else if b.val = 1 then sideDeclare k sd 1 (amAll k sd false s)
    else sideDeclare k sd b s
  | .tributary t sd b => if (s.tr t).valid then tribDeclare t sd b s else s
  | .security t w => if (s.tr t).valid && (s.tr t).mode != 0 then secDeclare t (16 + w) s else s

/-- Clear a defect. -/
def undeclare (d : DefectId) (s : State) : State :=
  match d with
  | .side k sd b w =>
    if b.val = 13 then
      (let s := pmStatSet k sd w false s
       if s.otn.pmStat.get (sideKey k sd) 0 = 0 then sideClear k sd 13 s else s)
    else if b.val = 1 then sideClear k sd 1 (amAll k sd true s)
    else sideClear k sd b s
  | .tributary t sd b => tribClear t sd b s
  | .security t w => tribDefect t (16 + w) false s

/-! ## Alignment (R133 to R137) -/

/-- The aligner works: its slice is part of an OTUCn, or its tributary is valid. -/
def alignerOn (s : State) (a : AlignerId) : Bool :=
  match a with
  | .slice k _ j => sliceOk s k j
  | .tributary t _ => (s.tr t).valid

/-- Edge-clock cycles of 1,000 OTUC frames: 122,368 bits at 105,258,138 kb/s (R137's frames, from the rate of an OTUC). -/
def kiloOtucFrames : Nat := 122368 * 1562500 * 1000 / 105258138

/-- OTUC frames between two instants, to the nearest. -/
def framesBetween (a b : Nat) : Nat := ((b - a) * 1000 + kiloOtucFrames / 2) / kiloOtucFrames

/-- Two slices in frame carry equal MFAS values after deskew (R137). -/
def mfasEqual (x y : Aligner) : Bool :=
  if x.timer ≤ y.timer then y.mfas == x.mfas + BitVec.ofNat 8 (framesBetween x.timer y.timer)
  else x.mfas == y.mfas + BitVec.ofNat 8 (framesBetween y.timer x.timer)

/-- The slices of an OTUCn are in frame together (R137). -/
def slicesTogether (s : State) (k : Fin 8) (sd : Side) : Bool :=
  let l := (List.range (otnShape s k)).map (fun j => s.aligner (.slice k sd (Fin.ofNat 8 j)))
  l.all (fun x => x.inFrame) && match l with
    | x :: t => t.all (fun y => mfasEqual x y)
    | [] => false

/-- An aligner, with R137 for a slice, is in frame. -/
def framed (s : State) (a : AlignerId) : Bool :=
  match a with
  | .slice k sd _ => slicesTogether s k sd
  | .tributary _ _ => (s.aligner a).inFrame

/-- Restart the frame timers of the slices of an OTUCn; MFAS is carried forward to now, so that `timer` and `mfas` stay one instant. -/
def restartSlices (k : Fin 8) (sd : Side) (s : State) : State :=
  (List.range (otnShape s k)).foldl (fun s j => updAligner (.slice k sd (Fin.ofNat 8 j)) (fun x =>
    { x with mfas := x.mfas + BitVec.ofNat 8 (framesBetween x.timer s.time.cycles), timer := s.time.cycles }) s) s

/-- The candidate that wins R134: the one of most agreements, none on a tie. -/
def bestCandidate (l : List Candidate) : Option Candidate :=
  match l with
  | [c] => some c
  | _ =>
    let m := l.foldl (fun m c => max m c.agreements) 0
    match l.filter (fun c => c.agreements == m) with
    | [c] => some c
    | _ => none

/-- What the markers of a slice's FlexO instance come to: its AM lock, and the dLOL of its side, which is declared when an instance loses
lock and cleared when all are in lock (R132, R138). -/
def alignerMarkers (a : AlignerId) (markers : List Bool) (s : State) : State :=
  match a with
  | .tributary _ _ => s
  | .slice k sd _ =>
    if markers.isEmpty then s
    else
      let was := (s.aligner a).am
      let s := updAligner a (fun x => markers.foldl amSee x) s
      let all := (List.range (otnShape s k)).all (fun j => (s.aligner (.slice k sd (Fin.ofNat 8 j))).am)
      if was && !(s.aligner a).am then sideDeclare k sd 1 s
      else if all && (s.otn.sideRaw.get (sideKey k sd) 0).getLsbD 1 then sideClear k sd 1 s
      else s

/-- An aligner examines an offset (R132): any octet of a tributary; of a slice, 16-octet boundaries while its FlexO instance is in AM lock. -/
def examines (s : State) (a : AlignerId) (c : Candidate) : Bool :=
  match a with
  | .slice _ _ _ => (s.aligner a).am && c.offset % 16 == 0
  | .tributary _ _ => true

/-- Candidates have met R133 in one frame (R133 to R136). An aligner that is in frame but out of multiframe, and whose own offset
meets R133 again, is back in multiframe (DEDUCED, log 27). -/
def alignerOffers (a : AlignerId) (cands : List Candidate) (s : State) : State :=
  let x := s.aligner a
  if !alignerOn s a || cands.isEmpty then s
  else if x.inFrame then
    match cands.find? (fun c => c.offset == x.offset), x.oom with
    | some c, true => updAligner a (fun x => { x with oom := false, oomAt := s.time.cycles, mfas := c.mfas - BitVec.ofNat 8 (framesBetween x.timer s.time.cycles) }) s
    | _, _ => s
  else match bestCandidate cands with
    | none => { s with otn := { s.otn with ambiguities := s.otn.ambiguities + 1 } }
    | some c =>
      let s := updAligner a (fun x => { x with inFrame := true, offset := c.offset, mfas := c.mfas, timer := s.time.cycles, oom := false, oomAt := s.time.cycles }) s
      match a with
      | .slice k sd _ => if slicesTogether s k sd then restartSlices k sd s else s
      | .tributary _ _ => s

/-- The markers and the candidates that an aligner has met (R132 to R134). -/
def alignerLock (a : AlignerId) (markers : List Bool) (cands : List Candidate) (s : State) : State :=
  if !alignerOn s a then s
  else
    let s := alignerMarkers a markers s
    alignerOffers a (cands.filter (examines s a)) s

/-- An aligner falls out of frame: back to Hunt, the 3 ms timer starts (R135, R136, R137). -/
def alignerHunt (a : AlignerId) (s : State) : State :=
  let was := framed s a
  let s := updAligner a (fun x => { x with inFrame := false, oom := false, timer := s.time.cycles }) s
  match a with
  | .slice k sd _ => if was then restartSlices k sd s else s
  | .tributary _ _ => s

/-- 3 ms, in cycles. -/
def threeMs : Nat := cyclesUs 3000

/-- Show dLOF or dLOFLOM, and dLOM, as the aligners have declared them. -/
def alignerDefects (a : AlignerId) (s : State) : State :=
  match a with
  | .slice k sd _ =>
    let l := (List.range (otnShape s k)).map (fun j => s.aligner (.slice k sd (Fin.ofNat 8 j)))
    let lof := l.any (fun x => x.lof)
    let lom := l.any (fun x => x.lom)
    let s := if lof then sideDeclare k sd 6 s else sideClear k sd 6 s
    if lom then sideDeclare k sd 7 s else sideClear k sd 7 s
  | .tributary t sd => if (s.aligner a).lof then tribDeclare t sd 0 s else tribClear t sd 0 s

/-- The next instant at which a timer of the aligner settles something (R136). -/
def alignerDue (s : State) (a : AlignerId) : Option Nat :=
  let x := s.aligner a
  let f := if framed s a != x.lof then [] else [x.timer + threeMs]
  let m := if x.inFrame && x.oom != x.lom then [x.oomAt + threeMs] else []
  (f ++ m).foldl (fun o c => match o with | none => some c | some d => some (min c d)) none

/-- A 3 ms timer runs out (R136). -/
def alignerTimer (a : AlignerId) (s : State) : State :=
  match alignerDue s a with
  | none => s
  | some c =>
    let s := waitCycle c s
    let up := framed s a
    alignerDefects a (updAligner a (fun x =>
      let x := if x.timer + threeMs ≤ s.time.cycles then { x with lof := !up } else x
      if x.inFrame && decide (x.oomAt + threeMs ≤ s.time.cycles) then { x with lom := x.oom } else x) s)

/-- MFAS has been wrong in 5 consecutive frames (R136). -/
def outOfMulti (a : AlignerId) (s : State) : State :=
  if !(s.aligner a).inFrame then s
  else match a with
    | .slice _ _ _ => if (s.aligner a).oom then s else updAligner a (fun x => { x with oom := true, oomAt := s.time.cycles }) s
    | .tributary _ _ => alignerHunt a s

/-! ## Remapping -/

/-- The part sends what it would send of a tributary in a direction as ODUk-AIS (R138, R163, R405). -/
def tribAis (s : State) (t : Nat) (d : Dir) : Bool :=
  let r := s.tr t
  let v := s.otn.trib.get t 0
  let k := tribPair s t
  let from_ : Side := match d with | .s2l => .system | .l2s => .line
  let b := 8 * from_.num
  (sideDefects s k from_).getLsbD 19 || v.getLsbD b || (v.getLsbD (b + 4) && bitAt (defectControl s k) 19) ||
  (d == .l2s && v.getLsbD 19) || (trafficStopped s && r.mode != 0)

/-- Positions of the BIP-8 octets that cover the OPU in the 64 overhead octets: PM, then TCM1 to TCM6 (row 3, column 11 by R149;
the TCM places by G.709, log 28). -/
def bipPlaces : List Nat := [42, 39, 36, 33, 27, 24, 21]

/-- Put LSO octets in place (R152). -/
def putLso (overhead lso : Octets) : Octets := patch (patch overhead 16 (slice lso 0 2)) 56 (slice lso 2 6)

/-- Adjust every BIP-8 by a delta (R149). -/
def adjustBips (delta : Nat) (overhead : Octets) : Octets :=
  bipPlaces.foldl (fun o i => patch o i [BitVec.ofNat 8 (octet o i ^^^ delta)]) overhead

/-- The overhead of an ODUk-AIS frame the part generates: FAS, MFAS, and all ones (R139). -/
def freshAis (mfas : BitVec 8) : Octets := beBytes 6 0xF6F6F6282828 ++ [mfas] ++ List.replicate 57 0xFF

/-- Play-out buffer, expected MFAS and deltas of a direction. -/
def playOf (r : Trib) (d : Dir) : List PlayItem := match d with | .s2l => r.playS | .l2s => r.playL
def mfasNext (r : Trib) (d : Dir) : Option (BitVec 8) := match d with | .s2l => r.mfasS | .l2s => r.mfasL
def bipDeltas (r : Trib) (d : Dir) : List Nat := match d with | .s2l => r.bipS | .l2s => r.bipL

/-- Take note of a frame sent: the buffer left, the MFAS and the delta. -/
def playSent (t : Nat) (d : Dir) (rest : List PlayItem) (mfas : BitVec 8) (delta : Nat) (s : State) : State :=
  updTr t (fun r => match d with
    | .s2l => { r with playS := rest, mfasS := some (mfas + 1), bipS := delta :: r.bipS.take 1 }
    | .l2s => { r with playL := rest, mfasL := some (mfas + 1), bipL := delta :: r.bipL.take 1 }) s

/-- Fill of a play-out buffer in nanoseconds of the tributary: what R146 keeps at the cushion. -/
def playFill (r : Trib) (d : Dir) : Nat := (playOf r d).length * r.blockNs / 32

/-- Cm and the sum of CnD of the next GMP frame (R146, R148): the part's choice of octets, beside what the last one left over, in m-bit
entities of 16 M octets, of which M slots carry 952 (log 28). -/
def gmpNext (t : Nat) (d : Dir) (s : State) : Nat × Nat :=
  let r := s.tr t
  let m := 16 * r.slots
  let n := Config.gmpChoice t d.num (952 * m) (playFill r d) (1000 * s.odNat 0x2802 (tribPair s t + 1))
  let n := min (952 * m) (n + match d with | .s2l => r.cnOut | .l2s => r.cnOutL)
  (n / m, n % m)

/-- A tributary frame is remapped: Cm and the sum of CnD are chosen and held (R148, R171). -/
def gmpTake (t : Nat) (d : Dir) (s : State) : State :=
  let g := gmpNext t d s
  updTr t (fun r => match d with | .s2l => { r with cmOut := g.1, cnOut := g.2 } | .l2s => { r with cmOutL := g.1, cnOutL := g.2 }) s

/-- The JC octets that go with the frame being remapped (R148). -/
def jcOf (r : Trib) (d : Dir) : Octets := match d with | .s2l => Config.jcOctets r.cmOut r.cnOut | .l2s => Config.jcOctets r.cmOutL r.cnOutL

/-- Put a tributary frame out through the multiplexer's FIFO, with the GCC bytes of its side where the Urzidun channel runs there (R20,
R463). -/
def oduOut (t : Nat) (d : Dir) (payload overhead : Octets) (s : State) : State :=
  let k := tribPair s t
  let g := gccSend ⟨Fin.ofNat 32 (4 * k), d⟩ t overhead (edgePass (edgeOtnOut k d) payload.length s)
  emit (.odu t d payload g.1 (jcOf (s.tr t) d)) g.2

/-- Send a committed frame, or ODUk-AIS in its place. -/
def playSend (t : Nat) (d : Dir) (i : PlayItem) (rest : List PlayItem) (s : State) : State :=
  let r := s.tr t
  let m := i.mfas
  if tribAis s t d ∨ i.ais then
    oduOut t d (List.replicate 15232 0xFF) (freshAis m) (tribCount t 4 (playSent t d rest m 0 s))
  else match i.lso with
    | none => oduOut t d i.payload i.overhead (playSent t d rest m 0 s)
    | some l =>
      let o := putLso (adjustBips ((bipDeltas r d).getD 1 0) i.overhead) l
      oduOut t d i.payload o (playSent t d rest m (i.bipIn ^^^ i.bipOut) s)

/-- Send ODUk-AIS for a frame that is missing (R147, R151). -/
def playUnderrun (t : Nat) (d : Dir) (s : State) : State :=
  let m := (mfasNext (s.tr t) d).getD 0
  let s := tribDefect t (match d with | .s2l => 7 | .l2s => 15) true (tribCount t 5 (tribCount t 4 s))
  oduOut t d (List.replicate 15232 0xFF) (freshAis m) (playSent t d (playOf (s.tr t) d) m 0 s)

/-- A play-out buffer is left with `rest`. -/
def playTail (t : Nat) (d : Dir) (rest : List PlayItem) (s : State) : State :=
  updTr t (fun r => match d with | .s2l => { r with playS := rest } | .l2s => { r with playL := rest }) s

/-- A tributary frame is due for remap (R146 to R151). A committed frame that does not follow the last one sent stands for the frame
due only once its own cushion has passed (DEDUCED, log 29). -/
def remap (t : Nat) (d : Dir) (s : State) : State :=
  let r := s.tr t
  let k := tribPair s t
  if !r.valid || otnShape s k == 0 then s
  else
    let s := gmpTake t d s
    match playOf r d with
    | [] => playUnderrun t d s
    | i :: rest =>
      let at_ := i.acceptAt + cyclesUs (s.odNat 0x2802 (k + 1))
      let follows := match mfasNext r d with
        | some m => m == i.mfas
        | none => true
      if follows || decide (at_ ≤ s.time.cycles) then
        let q := playFetch t d i (waitCycle at_ s)
        match q.1 with
        | some i => playSend t d i rest q.2
        | none => playUnderrun t d (memoryLoss 1 (playTail t d rest q.2))
      else playUnderrun t d s

/-! ## Performance monitoring -/

/-- Entity `e` is configured (R164). -/
def entityOn (s : State) (e : Nat) : Bool := if e < 32 then decide (0 < otnShape s (e / 4)) else (s.tr ((e - 32) / 2)).valid

/-- A PM entity. -/
def State.pmEnt (s : State) (e : Nat) : PmEnt := s.otn.pm.get e {}
/-- Change a PM entity. -/
def updPm (e : Nat) (f : PmEnt → PmEnt) (s : State) : State := { s with otn := { s.otn with pm := s.otn.pm.upd e {} f } }

/-- Change the bins that hold a second: the 15-minute and the 24-hour bin. -/
def inBins (sec : Nat) (f : Bin → Bin) (x : PmEnt) : PmEnt :=
  let x := if x.cur15.start ≤ sec then { x with cur15 := f x.cur15 }
    else { x with prev15 := x.prev15.map (fun b => if b.start ≤ sec ∧ sec < b.start + 900 then f b else b) }
  if x.cur24.start ≤ sec then { x with cur24 := f x.cur24 } else { x with prev24 := f x.prev24 }

/-- Count a second of the near end as available, or take it back. -/
def nearSecond (add : Bool) (q : SecRec) (b : Bin) : Bin :=
  let g (on : Bool) (v : Nat) : Nat := if on then (if add then v + 1 else v - 1) else v
  { b with es := g q.es b.es, ses := g q.ses b.ses, aes := g q.aes b.aes, ases := g q.ases b.ases, bbe := if add then b.bbe + q.bbe else b.bbe - q.bbe }

/-- Count a second of the far end as available, or take it back. -/
def farSecond (add : Bool) (q : SecRec) (b : Bin) : Bin :=
  let g (on : Bool) (v : Nat) : Nat := if on then (if add then v + 1 else v - 1) else v
  { b with fes := g q.es b.fes, fses := g q.ses b.fses, fbbe := if add then b.fbbe + q.bbe else b.fbbe - q.bbe }

/-- Count unavailable seconds. -/
def nearUas (add : Bool) (b : Bin) : Bin := { b with uas := if add then b.uas + 1 else b.uas - 1 }
def farUas (add : Bool) (b : Bin) : Bin := { b with fuas := if add then b.fuas + 1 else b.fuas - 1 }

/-- One second of one end (R166): `count` counts an available second, `uas` an unavailable one; the run holds the seconds that may
yet change availability. Answers the entity, availability and run. -/
def availability (count : Bool → SecRec → Bin → Bin) (uas : Bool → Bin → Bin) (unavail : Bool) (run : List SecRec) (q : SecRec) (x : PmEnt) : PmEnt × Bool × List SecRec :=
  if unavail then
    let x := inBins q.second (uas true) x
    if q.ses then (x, true, [])
    else
      let run := q :: run
      if run.length < 10 then (x, true, run)
      else (run.foldl (fun x q => inBins q.second (fun b => count true q (uas false b)) x) x, false, [])
  else
    let x := inBins q.second (count true q) x
    if !q.ses then (x, false, [])
    else
      let run := q :: run
      if run.length < 10 then (x, false, run)
      else (run.foldl (fun x q => inBins q.second (fun b => uas true (count false q b)) x) x, true, [])

/-- At least 15 % of `n` are bad. -/
def fifteen (bad n : Nat) : Bool := decide (0 < n) && decide (15 * n ≤ 100 * bad)

/-- What the part's own state showed of an entity in a second (R165): a defect of it or its server, one of those listed for SES, a
far-end defect, and on the line side of a tributary its security defects and secure blocks. -/
structure Seen where
  near : Bool
  severe : Bool
  far : Bool
  /-- BIAE was present: BEI is ignored (R138). -/
  biae : Bool := false
  sec : Bool := false
  secThroughout : Bool := false
  secBlocks : Nat := 0
  secFailed : Nat := 0
deriving DecidableEq, Repr

/-- Side bits that count as a defect of the SM, the PM or a tributary's server, and those listed for SES; dRDI, dBDI and dBIAE speak of the
far end and dDEG of seconds past (DEDUCED, log 30). -/
def nearMask (layer : Nat) : W32 := if layer = 0 then 0x011DF else if layer = 1 then 0x071DF else 0x671DF
def severeMask (layer : Nat) : W32 := if layer = 0 then 0x001C7 else if layer = 1 then 0x061C7 else 0x661C7

/-- What this second has shown of entity `e` (R164, R165). -/
def seenOf (s : State) (e : Nat) : Seen :=
  if e < 32 then
    let v := s.otn.sideSeen.get (2 * (e / 4) + e % 2) 0
    let layer := e % 4 / 2
    { near := decide (v &&& nearMask layer ≠ 0), severe := decide (v &&& severeMask layer ≠ 0), far := v.getLsbD (if layer = 0 then 9 else 15), biae := layer == 0 && v.getLsbD 11 }
  else
    let t := (e - 32) / 2
    let side := s.otn.sideSeen.get (2 * tribPair s t + e % 2) 0
    let v := (s.otn.tribSeen.get t 0).toNat / 2 ^ (8 * (e % 2))
    let sec := (s.otn.tribSeen.get t 0).toNat
    let r := s.tr t
    let base := s.otn.secBase.get t (0, 0)
    let good := (r.counters.get 2 0 - base.1).toNat
    let bad := (r.counters.get 3 0 - base.2).toNat
    { near := decide (side &&& nearMask 2 ≠ 0) || decide (bits v 4 0 ≠ 0), severe := decide (side &&& severeMask 2 ≠ 0) || decide (bits v 4 0 ≠ 0), far := v.testBit 6, sec := decide (bits sec 18 16 ≠ 0), secThroughout := s.otn.secHeld.get t false, secBlocks := good + bad, secFailed := bad }

/-- The near-end and far-end classification of a second (R165). -/
def nearRec (sec : Nat) (w : Seen) (o : SecObs) : SecRec :=
  let ses := fifteen o.errored o.blocks || w.severe
  let line := decide (32 ≤ o.entity) && o.entity % 2 == 1
  { second := sec, es := decide (0 < o.errored) || w.near, ses := ses, bbe := if ses then 0 else o.errored, aes := line && (decide (0 < w.secFailed) || w.sec), ases := line && (fifteen w.secFailed w.secBlocks || w.secThroughout) }
def farRec (sec : Nat) (w : Seen) (o : SecObs) : SecRec :=
  let bad := if w.biae then 0 else o.farErrored
  let ses := fifteen bad o.farBlocks || w.far
  { second := sec, es := decide (0 < bad) || w.far, ses := ses, bbe := if ses then 0 else bad, aes := false, ases := false }

/-- One second of an entity. -/
def pmSecond (sec : Nat) (w : Seen) (o : SecObs) (x : PmEnt) : PmEnt :=
  let n := availability nearSecond nearUas x.unavail x.run (nearRec sec w o) x
  let x := { n.1 with unavail := n.2.1, run := n.2.2 }
  let f := availability farSecond farUas x.funavail x.frun (farRec sec w o) x
  let x := { f.1 with funavail := f.2.1, frun := f.2.2 }
  if 32 ≤ o.entity ∧ o.entity % 2 = 1 then inBins sec (fun b => { b with failed := b.failed + w.secFailed }) x else x

/-- Mark the current bins of an entity. -/
def markBins (f : Bin → Bin) (x : PmEnt) : PmEnt := { x with cur15 := f x.cur15, cur24 := f x.cur24 }

/-- Mark the current bins of an entity suspect (R167). -/
def suspect (e : Nat) (s : State) : State := updPm e (markBins (fun b => { b with suspect := true })) s

/-- The first bins of a power cycle start where the bins that hold the present second do (R167). -/
def binsBegin (s : State) : State :=
  let at_ (len : Nat) : Bin := { start := s.time.secs / len * len }
  if s.time.secs < 900 then s
  else { s with otn := { s.otn with pm := (List.range 544).map (fun e => (e, { cur15 := at_ 900, cur24 := at_ 86400 })) } }

/-- Mark every entity's current bins suspect. -/
def suspectAll (s : State) : State := (List.range 544).foldl (fun s e => suspect e s) s

/-- What the FEC of lanes and the aligners counted in a second (R122, R136, R172). -/
def secondCounts (obs : SecondObs) (s : State) : State :=
  let lane (s : State) (o : LaneObs) : State :=
    let key := 24 * o.pair.val + 3 * o.lane.val
    { s with otn := { s.otn with fec := ((s.otn.fec.bump key o.corrected).bump (key + 1) o.uncorrectable).bump (key + 2) o.symbols } }
  let s := (obs.lanes.filter (fun o => decide (0 < otnShape s o.pair))).foldl lane s
  let s := (obs.ports.filter (fun q => ethPort s q.1.port)).foldl (fun s q => macCount q.1 11 q.2.2 (macCount q.1 10 q.2.1 s)) s
  (obs.fas.filter (fun q => alignerOn s q.1 && (s.aligner q.1).inFrame)).foldl (fun s q => updAligner q.1 (fun x => { x with fasErrors := x.fasErrors + BitVec.ofNat 64 q.2 }) s) s

/-- A new second begins: what is present now has been present in it. -/
def seenReset (s : State) : State :=
  let o := s.otn
  let sec := o.trib.filter (fun q => decide (q.2 &&& 0x70000 ≠ 0))
  { s with otn := { o with sideSeen := o.side, tribSeen := o.trib, secHeld := sec.map (fun q => (q.1, true)), secBase := o.tribs.map (fun q => (q.1, (q.2.counters.get 2 0, q.2.counters.get 3 0))) } }

/-- What a second showed of the blocks of entity `e`; none where nothing was reported. -/
def blocksOf (obs : SecondObs) (e : Nat) : SecObs := (obs.entities.find? (fun o => o.entity == e)).getD { entity := e, blocks := 0, errored := 0, farBlocks := 0, farErrored := 0 }

/-- A second ends (R165 to R167). -/
def pmTick (obs : SecondObs) (s : State) : State :=
  let sec := s.time.secs - 1
  let s := secondCounts obs s
  let s := if s.time.isSet then s else suspectAll s
  let one (s : State) (e : Nat) : State :=
    if entityOn s e then updPm e (pmSecond sec (seenOf s e) (blocksOf obs e)) s else updPm e (markBins (fun b => { b with unconf := true })) s
  seenReset ((List.range 544).foldl one s)

/-- Thresholds reached by a bin, as the bits of R448: ES, SES, UAS, AES, BBE. -/
def crossings (th : Octets) (b : Bin) : Nat :=
  let c (i v : Nat) : Nat := let t := leAt th (4 * i) 4; if t ≠ 0 ∧ t ≤ v then 2 ^ i else 0
  c 0 b.es + c 1 b.ses + c 2 b.uas + c 3 b.aes + c 4 b.bbe

/-- A bin ends (R167, R169): the clock runs to the end of the current bin, if it has not come yet. -/
def pmBinEnd (day : Bool) (s : State) : State :=
  let len := if day then 86400 else 900
  let start := if day then (s.pmEnt 0).cur24.start else (s.pmEnt 0).cur15.start
  let s := if start < s.time.secs / len * len then s else waitTime ((s.time.secs / len + 1) * len * 10 ^ 9 * 65536) s
  let new := s.time.secs / len * len
  let th := s.od 0x7120 (if day then 2 else 1)
  (List.range 544).foldl (fun s e =>
    let b := if day then (s.pmEnt e).cur24 else (s.pmEnt e).cur15
    let c := crossings th b
    let s := if c = 0 then s else post { type := 0x2802, source := e, a := c, c := bit day } s
    updPm e (fun x => if day then { x with prev24 := x.cur24, cur24 := { start := new } } else { x with prev15 := (x.cur15 :: x.prev15).take 32, cur15 := { start := new } }) s) s

/-- The last bin becomes complete, 10 s after its end (R167). -/
def pmBinComplete (day : Bool) (s : State) : State :=
  let start := if day then (s.pmEnt 0).cur24.start else (s.pmEnt 0).cur15.start
  let s := waitTime ((start + 10) * 10 ^ 9 * 65536) s
  (List.range 544).foldl (fun s e => updPm e (fun x =>
    if day then { x with prev24 := { x.prev24 with complete := true } }
    else match x.prev15 with
      | b :: t => { x with prev15 := { b with complete := true } :: t }
      | [] => x) s) s

/-! ## Commands -/

/-- R132 to R134, R136. -/
def execAlignerLock (a : AlignerId) (view : LockView) (s : State) : Out := .next (alignerLock a view.markers view.cands s)

/-- R135, R136: the fifth mismatch in a row; the four before it were FAS errors. -/
def execAlignerOof (a : AlignerId) (s : State) : Out :=
  .next (if alignerOn s a && (s.aligner a).inFrame then alignerHunt a (updAligner a (fun x => { x with fasErrors := x.fasErrors + 4 }) s) else s)

/-- R136. -/
def execAlignmentTimerExpiry (a : AlignerId) (s : State) : Out := .next (if alignerOn s a then alignerTimer a s else s)

/-- R136. -/
def execOutOfMultiframe (a : AlignerId) (s : State) : Out := .next (if alignerOn s a then outOfMulti a s else s)

/-- R138, R139, R140, R162. -/
def execDefectDeclared (d : DefectId) (s : State) : Out := .next (declare d s)

/-- R138, R139. -/
def execDefectCleared (d : DefectId) (s : State) : Out := .next (undeclare d s)

/-- R146 to R151, R163. -/
def execTributaryRemapDue (t : Fin 256) (dir : Dir) (elapsed : Nat) (s : State) : Out := .next (remap t dir (waitCycle (s.time.cycles + elapsed) s))

/-- R122, R136, R165 to R167, R172. -/
def execPmSecondTick (obs : SecondObs) (s : State) : Out := .next (pmTick obs s)

/-- R167, R169. -/
def execPmBinEnd (day : Bool) (s : State) : Out := .next (pmBinEnd day s)

/-- R167. -/
def execPmBinComplete (day : Bool) (s : State) : Out := .next (pmBinComplete day s)

end Sys2Proof.Machine
end

