-- ==== Sys2Proof/Machine/Time.lean ====
section
/-! DEFINITION. The time unit: steps (R322, R328, R334), the servo (R317 to R321), the part's own clock (R313 to R316, R330),
scheduled-action slots (R331 to R335), event pins (R336 to R338), and what falls due with time in the key unit (R267, R274). -/
namespace Sys2Proof.Machine

/-! ## Keys and rollovers that fall due -/

/-- Every Filled slot whose not-after the seconds have passed is expired, and every SA that names it freezes, also one written since (R274). -/
def keyExpire (s : State) : State :=
  if !s.time.isSet then s
  else
    let past (q : Nat × KeySlot) : Bool := q.2.state == .filled && q.2.a.notAfter != 0 && decide (q.2.a.notAfter < s.time.secs)
    let one (base : Nat) (s : State) (q : Nat × KeySlot) : State := freezeSlotSas (base + q.1) 3 (updSlot (base + q.1) (fun x => { x with expired := true }) s)
    let d := s.keys.data.filter past
    let k := s.keys.kek.filter past
    k.foldl (one 0x8000) (d.foldl (one 0) s)

/-- Every Armed rollover whose time has passed is taken, once the time is Set (R267). -/
def rollsPassed (s : State) : State :=
  if !s.time.isSet then s
  else
    let due (q : Nat × Roll) : Bool := q.2.state == 1 && decide (q.2.t ≤ s.time.now)
    let c := (s.keys.rollSc.filter due).map (fun q => RollUser.sc (Fin.ofNat 16384 q.1))
    let t := (s.keys.rollTrib.filter due).map (fun q => RollUser.tributary (Fin.ofNat 256 q.1))
    (c ++ t).foldl (fun s u => rollDue u s) s

/-! ## Steps -/

/-- A time, in 2^-16 ns, moved by a step. -/
def movedBy (x : Int) (t : Nat) : Nat := ((t : Int) + x).toNat
/-- A time in ns moved by a step. -/
def movedNs (x : Int) (t : Nat) : Nat := ((t : Int) + x / 65536).toNat

/-- Occurrences of a slot from `a` to `b` that it has fired. -/
def Slot.ranIn (r : Slot) (a b : Nat) : Nat :=
  (r.ran.map (fun q => if max a q.1 ≤ min b q.2 then (min b q.2 - max a q.1) / (r.period * 65536) + 1 else 0)).sum

/-- Pass over occurrences that were fired before a backward step, which do not fire twice (R334). -/
def slotOver : Nat → Slot → Slot
  | 0, r => r
  | n + 1, r => match r.ran.find? (fun q => decide (q.1 ≤ r.next) && decide (r.next ≤ q.2)) with
    | some q => slotOver n { r with next := q.2 + r.period * 65536, seen := r.seen + (q.2 - r.next) / (r.period * 65536) + 1 }
    | none => r

/-- A periodic slot at its next occurrence that has not fired; Done where it has no repeats left (R333). -/
def slotOn (r : Slot) : Slot :=
  let r := slotOver r.ran.length r
  if r.repeats ≠ 0 ∧ r.repeats ≤ r.seen then { r with state := 2, holder := none } else r

/-- A periodic slot after a step to time `now` (R334): a forward step counts the occurrences it skips as missed, a backward one returns the
slot to its first occurrence after the new time, its repeats with it; none fires twice. -/
def slotStepped (now : Nat) (r : Slot) : Slot :=
  if r.state ≠ 1 ∨ !r.periodic ∨ r.period = 0 then r
  else if r.next ≤ now then
    let p := r.period * 65536
    let skip := (now - r.next) / p + 1
    let left := if r.repeats = 0 then skip else min skip (r.repeats - r.seen)
    slotOn { r with next := r.next + left * p, seen := r.seen + left, missed := min 0xFFFFFFFF (r.missed + (left - r.ranIn r.next (r.next + (left - 1) * p))) }
  else
    let back := min r.seen ((r.next - now - 1) / (r.period * 65536))
    slotOn { r with next := r.next - back * (r.period * 65536), seen := r.seen - back }

/-- Count on own-clock counter `i` (R341). -/
def clockCount (i : Nat) (s : State) : State := { s with time := { s.time with counters := s.time.counters.bump i 1 } }

/-- Move everything that is held against the time unit but depends on elapsed time alone (R308, R328). -/
def moveHeld (x : Int) (s : State) : State :=
  let n := s.path.pds.foldl (fun n q => n + q.2.launchList.length) 0
  let mv (e : Egr) : Egr := { e with launch := movedBy x e.launch }
  let mb (e : Egr) : Egr := { e with startAt := e.startAt.map (movedBy x) }
  let own := (s.path.pds.map (fun q => q.2.launchList.filterMap (fun e => e.dreq))).flatten
  let pds := s.path.pds.mapAll (fun _ r => { r with launchList := r.launchList.map mv, lateList := r.lateList.map mv, buffer := r.buffer.map mb, macBusy := movedBy x r.macBusy, lineFree := movedBy x r.lineFree, heldClear := movedBy x r.heldClear })
  let queues := s.path.queues.mapAll (fun _ q => { q with last := movedNs x q.last, posted := q.posted.map (movedNs x) })
  let frames := s.path.frames.mapAll (fun _ f => { f with acceptNs := movedNs x f.acceptNs })
  let pols := s.cls.policers.mapAll (fun _ q => { q with last := movedNs x q.last })
  let pins := s.time.pins.mapAll (fun _ q => { q with pulseEnd := q.pulseEnd.map (movedBy x) })
  let dreqs := s.time.dreqs.map (fun w => if own.contains w.seqId then { w with t3 := w.t3 + x } else w)
  { s with path := { s.path with pds := pds, queues := queues, frames := frames }, cls := { s.cls with policers := pols }, time := { s.time with pins := pins, dreqs := dreqs, launchCounters := s.time.launchCounters.bump 3 n } }

/-! ## Event pins -/

/-- Change pin `p`. -/
def updPin (p : Nat) (f : Pin → Pin) (s : State) : State := { s with time := { s.time with pins := s.time.pins.upd p {} f } }

/-- The electrical level of pin `p` (R336): a slot output and a lock output are driven, active low with OD 0x6001[0]. -/
def pinDrive (s : State) (p : Nat) : Option Bool :=
  let fn := s.odNat 0x6000 (p + 1)
  if fn = 3 ∨ fn = 4 then some ((s.time.pins.get p {}).active != bitAt (s.odNat 0x6001 (p + 1)) 0) else none

/-- Bring the level of pin `p` to what drives it. -/
def pinSettle (p : Nat) (s : State) : State :=
  let d := pinDrive s p
  if d = (s.time.pins.get p {}).drive then s else emit (.pin p d) (updPin p (fun q => { q with drive := d }) s)

/-- Change what drives pin `p`. -/
def setPin (p : Nat) (f : Pin → Pin) (s : State) : State := pinSettle p (updPin p f s)

/-! ## Scheduled-action slots -/

/-- Slot `i`. -/
def State.tslot (s : State) (i : Nat) : Slot := s.time.slots.get i {}
/-- Change slot `i`. -/
def updTslot (i : Nat) (f : Slot → Slot) (s : State) : State := { s with time := { s.time with slots := s.time.slots.upd i {} f } }

/-- Actions 0x01, 0x02 and 0x04 of a slot at its occurrence (R335). -/
def slotAct (i : Nat) (r : Slot) (s : State) : State :=
  match r.action with
  | 1 => setPin r.target (fun q => { q with active := true, pulseEnd := some (max r.next s.time.now + r.width * 65536) }) s
  | 2 => setPin r.target (fun q => { q with active := r.level, pulseEnd := none }) s
  | 4 => postTo r.target { type := 0x4006, source := i, b := r.next / 65536 } s
  | _ => s

/-- The runs of fired occurrences with the one at `t` added: the newest run grows by a period. -/
def ranWith (p t : Nat) : List (Nat × Nat) → List (Nat × Nat)
  | [] => [(t, t)]
  | q :: l => if q.2 + p = t then (q.1, t) :: l else (t, t) :: q :: l

/-- Move a slot past its occurrence (R333): `fired` says that the action was performed, `done_` the state of a non-periodic slot. -/
def slotPast (i : Nat) (fired : Bool) (done_ : Nat) (s : State) : State :=
  updTslot i (fun r =>
    let r := { r with seen := r.seen + 1, fired := if fired then min 0xFFFFFFFF (r.fired + 1) else r.fired, missed := if fired then r.missed else min 0xFFFFFFFF (r.missed + 1) }
    if r.periodic then slotOn { r with next := r.next + r.period * 65536, ran := if fired then ranWith (r.period * 65536) r.next r.ran else r.ran }
    else if fired then { r with state := done_, holder := none } else r) s

/-- A step past the time of non-periodic slot `i` fires it at once (R334), as does a step that sets Set for a slot that waits for it (R333);
a timed commit fires at its own occurrence command, which is then due (DESIGN CHOICE, log 116). -/
def slotPassed (s : State) (i : Nat) : State :=
  let r := s.tslot i
  if r.state = 1 ∧ !r.periodic ∧ r.action ≠ 3 ∧ s.time.isSet ∧ (s.domain 74).state ≠ 3 ∧ (0 < r.seen ∨ r.next ≤ s.time.now) then slotPast i true 2 (slotAct i r s) else s

/-- A step of the time unit by `x`, in 2^-16 ns (R322). -/
def timeStep (x : Int) (s : State) : State :=
  let s := moveHeld x { s with time := { s.time with t48 := ((s.time.t48 : Int) + x * 2 ^ 32).toNat } }
  let now := s.time.now
  let s := { s with time := { s.time with stepped := true, lastStep := x, stepAt := now, slots := s.time.slots.mapAll (fun _ r => slotStepped now r) } }
  let s := (List.range 16).foldl slotPassed s
  let s := post { type := 0x4001, source := 0xFFFF, b := unsign 64 x } (clockCount 6 s)
  let s := suspectAll (logEntry 0x00E0 0xFF (beBytes 8 (unsign 64 x)) s)
  keyExpire (rollsPassed s)

/-! ## Servo -/

/-- Clamp to plus or minus `m`. -/
def clamp (m v : Int) : Int := max (-m) (min m v)

/-- Lock threshold and step threshold, in 2^-16 ns. -/
def lockThr (s : State) : Int := s.odNat 0x4011 3 * 65536
def stepThr (s : State) : Int := s.odNat 0x4011 4 * 65536
/-- Confirm count. -/
def confirmN (s : State) : Nat := s.odNat 0x4011 5

/-- Pins of the lock output follow the servo (R336). -/
def lockPins (s : State) : State :=
  (List.range 4).foldl (fun s p => if s.odNat 0x6000 (p + 1) = 4 then setPin p (fun q => { q with active := s.time.servo == .locked }) s else s) s

/-- Enter a servo state. -/
def setServo (v : Servo) (s : State) : State := lockPins { s with time := { s.time with servo := v } }

/-- Consecutive counts start again. -/
def servoRestart (s : State) : State := { s with time := { s.time with goodRun := 0, badRun := 0, outliers := [], firstSet := [] } }

/-- The samples of a list lie within `thr` of one another. -/
def agree (thr : Int) (l : List Int) : Bool := l.all (fun a => l.all (fun b => decide (a - b ≤ thr)))

/-- The median of a list; the mean of the two middle values of an even count. -/
def medianInt (l : List Int) : Int :=
  let l := sortBy (fun a b => decide (a ≤ b)) l
  let n := l.length
  if n % 2 = 1 then l.getD (n / 2) 0 else (l.getD (n / 2 - 1) 0 + l.getD (n / 2) 0) / 2

/-- Step the servo's time and go to Acquiring. -/
def servoStep (x : Int) (s : State) : State := setServo .acquiring (servoRestart (timeStep x { s with time := { s.time with wide := none } }))

/-- The y of holdover (R321): the time-weighted mean over the averaging window if Locked throughout, else the last y. -/
def holdoverY (s : State) : Int :=
  let w := s.odNat 0x4011 10 * 1562500000
  let now := s.time.cycles
  if s.time.servo == .locked && decide (s.time.lockedSince + w ≤ now) && decide (0 < w) then
    let r := s.time.yHist.foldl (fun (r : Int × Nat) q => let from_ := max q.1 (now - w); (r.1 + q.2 * ((r.2 - from_ : Nat) : Int), min r.2 from_)) (0, now)
    (r.1 + s.time.y * (((r.2 - (now - w)) : Nat) : Int)) / w
  else s.time.y

/-- Enter Holdover (R318, R321). -/
def enterHoldover (s : State) : State :=
  let y := holdoverY s
  setServo .holdover (servoRestart { s with time := { s.time with y := y, holdoverAt := s.time.cycles, wide := none } })

/-- The first-set check of R320 for a master time in seconds: passes, and passes by [1]. -/
def firstSetCheck (s : State) (master : Int) : Bool × Bool :=
  let p := s.odNat 0x4011 11
  let tool : Int := s.rest.seconds.toNat
  let since : Int := tool - s.rest.syncedAt
  let by0 := bitAt p 0 && s.rest.secValid && decide (((master - tool).natAbs : Int) * 20000 ≤ 40000 + since)
  let by1 := bitAt p 1 && !s.rest.secValid
  (by0 || by1, by1)

/-- The loop of R317 on a sample inside the threshold, and the lock counts of R318. -/
def servoRun (theta : Int) (s : State) : State :=
  let u := s.time
  let integ := clamp (200000 * 2 ^ 32) (u.integ + s.odNat 0x4011 2 * theta)
  let c := clamp (100000 * 2 ^ 32) (integ + s.odNat 0x4011 1 * theta)
  let y := -(c * 1000) / 2 ^ 32
  let hist := (u.cycles, y) :: u.yHist.filter (fun q => decide (u.cycles ≤ q.1 + 3600 * 1562500000))
  let good := decide ((theta.natAbs : Int) ≤ lockThr s)
  let wide := if (theta.natAbs : Int) ≤ stepThr s then none else u.wide
  let s := { s with time := { u with integ := integ, y := y, yHist := hist, outliers := [], wide := wide, goodRun := if good then u.goodRun + 1 else 0, badRun := if good then 0 else u.badRun + 1 } }
  if s.time.servo == .acquiring && decide (16 ≤ s.time.goodRun) then
    post { type := 0x4002, source := 0xFFFF } (setServo .locked { s with time := { s.time with lockedSince := s.time.cycles, goodRun := 0, badRun := 0 } })
  else if s.time.servo == .locked && decide (16 ≤ s.time.badRun) then
    post { type := 0x4003, source := 0xFFFF } (setServo .acquiring { s with time := { s.time with goodRun := 0, badRun := 0 } })
  else s

/-- A confirmed jump by the median of its samples (R319). -/
def servoJump (m : Int) (s : State) : State :=
  let pol := s.odNat 0x4011 6
  if pol = 2 ∨ (pol = 1 ∧ (m.natAbs : Int) ≤ s.odNat 0x4011 7 * 65536) then servoStep (-m) s
  else
    let s := enterHoldover { s with time := { s.time with jumpRefused := true } }
    post { type := 0x4005, source := 0xFFFF, b := unsign 64 m } (clockCount 7 s)

/-- A sample in Acquiring or Locked (R317 to R319). -/
def servoTrack (theta : Int) (s : State) : State :=
  let thr := s.time.wide.getD (stepThr s)
  if (theta.natAbs : Int) ≤ thr then servoRun theta s
  else
    let l := (theta :: s.time.outliers).take (confirmN s)
    let s := clockCount 5 { s with time := { s.time with outliers := l, goodRun := 0, badRun := s.time.badRun + 1 } }
    if l.length = confirmN s ∧ agree thr l then servoJump (medianInt l) s
    else if s.time.servo == .locked && decide (16 ≤ s.time.badRun) then
      post { type := 0x4003, source := 0xFFFF } (setServo .acquiring { s with time := { s.time with goodRun := 0, badRun := 0 } })
    else s

/-- A sample while Unset (R318, R320). -/
def servoUnset (theta : Int) (s : State) : State :=
  let l := (theta :: s.time.firstSet).take (confirmN s)
  if l.length ≠ confirmN s ∨ !agree (stepThr s) l then { s with time := { s.time with firstSet := l } }
  else
    let r := firstSetCheck s ((((s.time.now : Nat) : Int) - theta) / 65536 / 1000000000)
    if r.1 then servoStep (-theta) { s with time := { s.time with isSet := true, unverified := r.2, firstSet := [] } }
    else post { type := 0x4004, source := 0xFFFF } { s with time := { s.time with firstSet := [] } }

/-- A valid sample of the source in force (R318). -/
def servoSample (theta : Int) (s : State) : State :=
  let s := clockCount 4 { s with time := { s.time with theta := theta, lastSample := s.time.cycles } }
  match s.time.servo with
  | .unset => if s.odNat 0x4010 1 = 1 then servoUnset theta s else s
  | .freeRun => servoTrack theta (setServo .acquiring (servoRestart s))
  | .acquiring | .locked => servoTrack theta s
  | .holdover =>
    if s.time.jumpRefused then s
    else
      let dur := s.time.cycles - s.time.holdoverAt
      let wide : Int := max (stepThr s) (((200 + nsOfCycles dur / 1000000) * 65536 : Nat) : Int)
      servoTrack theta (setServo .acquiring { s with time := { s.time with wide := some wide } })

/-- No valid sample for the sync timeout (R318, R321, R338). -/
def syncLost (s : State) : State :=
  let src := s.odNat 0x4010 1
  if src = 0 ∨ !(s.time.servo == .acquiring || s.time.servo == .locked) then s
  else
    let ms := if src = 2 then 3000 else s.odNat 0x4011 8
    enterHoldover (waitCycle (s.time.lastSample + cyclesUs (1000 * ms)) s)

/-- What a committed change of the time source does (R318). -/
def servoSource (src : Nat) (s : State) : State :=
  let s := servoRestart s
  if src = 0 ∧ s.time.servo ≠ .unset then setServo .freeRun { s with time := { s.time with jumpRefused := false, wide := none } } else s

/-- What a committed change of the master or the source port-direction does (R318). -/
def servoMaster (s : State) : State :=
  let s := servoRestart { s with time := { s.time with delays := [], sm := none, syncSeen := false, syncs := [], dreqDue := none, dreqs := [], jumpRefused := false } }
  if s.time.servo == .acquiring || s.time.servo == .locked || s.time.servo == .holdover then setServo .acquiring { s with time := { s.time with lastSample := s.time.cycles } } else s

/-- What a committed change of the step policy does (R318). -/
def servoPolicy (s : State) : State :=
  if s.time.servo == .holdover && s.time.jumpRefused then setServo .acquiring { s with time := { s.time with jumpRefused := false, lastSample := s.time.cycles } } else s

/-- A committed set-time or adjust: the step, the Set flag, and the servo (R318, R323). -/
def timeGiven (x : Int) (s : State) : State :=
  let was := s.time.servo
  let refused := s.time.jumpRefused
  let s := servoRestart (timeStep x { s with time := { s.time with isSet := true, jumpRefused := false } })
  let src := s.odNat 0x4010 1
  match was with
  | .unset => setServo (if src = 0 then .freeRun else .acquiring) { s with time := { s.time with lastSample := s.time.cycles } }
  | .holdover => if refused then setServo .acquiring { s with time := { s.time with lastSample := s.time.cycles } } else s
  | _ => s

/-- Set the time to a TIME96 total (R320: a set-time clears the unverified flag). -/
def setTimeTo (t : Nat) (s : State) : State := timeGiven ((t : Int) - s.time.now) { s with time := { s.time with unverified := false } }

/-! ## The own clock -/

/-- A PTP timestamp at offset `o`: a total in 2^-16 ns. -/
def ptpTime (d : Octets) (o : Nat) : Int := ((beAt d o 6 * 10 ^ 9 + beAt d (o + 6) 4) * 65536 : Nat)

/-- A Sync, alone or with its Follow_Up, gives a master-to-slave value (R316). -/
def syncValue (ms : Int) (s : State) : State :=
  match s.time.sm with
  | none => s
  | some v =>
    let l := (((ms + v) / 2) :: s.time.delays).take (s.odNat 0x4011 9)
    let d : Int := l.foldl (fun (a b : Int) => a + b) 0 / (l.length : Int)
    let s := { s with time := { s.time with delays := l, dly := d } }
    if s.odNat 0x4010 1 = 1 then servoSample (ms - d) s else s

/-- Header at `h` of a frame is of the selected master, on the source port-direction (R314). -/
def fromMaster (s : State) (p : PD) (d : Octets) (h : Nat) : Bool :=
  p.key == s.odNat 0x4010 3 && slice d (h + 20) 10 == padTo 10 (s.od 0x4010 4) && (s.od 0x4010 4).any (· != 0)

/-- Consume a PTP message of the master with header at `h`; none where the time unit does not consume it (R314, R316). -/
def ptpConsume (p : PD) (d : Octets) (h stamp : Nat) (s : State) : Option State :=
  let seq := beAt d (h + 30) 2
  let corr := signed 64 (beAt d (h + 8) 8)
  if !fromMaster s p d h then none
  else match octet d h % 16 with
    | 0 =>
      let s := clockCount 0 { s with time := { s.time with syncSeen := true, dreqDue := if s.time.syncSeen then s.time.dreqDue else some s.time.cycles } }
      if bitAt (octet d (h + 6)) 1 then some { s with time := { s.time with syncs := s.time.syncs ++ [{ seqId := seq, t2 := stamp, corr := corr, at_ := s.time.cycles }] } }
      else some (syncValue ((stamp : Int) - ptpTime d (h + 34) - corr) s)
    | 8 =>
      let s := clockCount 1 s
      match s.time.syncs.find? (fun w => w.seqId == seq) with
      | some w => some (syncValue (w.t2 - ptpTime d (h + 34) - (w.corr + corr)) { s with time := { s.time with syncs := s.time.syncs.erase w } })
      | none => some s
    | 9 =>
      if slice d (h + 44) 10 ≠ padTo 10 (s.od 0x4010 5) then none
      else match s.time.dreqs.find? (fun w => w.seqId == seq) with
        | none => none
        | some w => some (clockCount 3 { s with time := { s.time with sm := some (ptpTime d (h + 34) - w.t3 - corr), dreqs := s.time.dreqs.filter (fun x => x.seqId != seq) } })
    | _ => none

/-- Take the next frame given to the time unit (R314): consumed, forwarded, or both. -/
def ownClockFrame (s : State) : State :=
  match s.time.inbox with
  | [] => s
  | (p, d, stamp, queue) :: rest =>
    let s := { s with time := { s.time with inbox := rest } }
    let t := tagCount s.tpid d
    let fwd (s : State) : State := deliverOrDrop queue { pd := p, data := d, reason := 0, decrypted := p.dir == .l2s && queue == 16 * p.port.val + 1, source := 2, stamp := stamp, cls := 9 } s
    match ptpAt d t (be16 d (12 + 4 * t)) true with
    | none => fwd s
    | some (h, _) => match ptpConsume p d h stamp s with
      | some s => if s.odNat 0x4010 12 = 1 then fwd s else s
      | none => fwd s

/-- The octets of a Delay_Req message (R315). -/
def dreqMessage (s : State) (seq : Nat) : Octets :=
  [0x01, 0x12] ++ beBytes 2 44 ++ [BitVec.ofNat 8 (s.odNat 0x4010 2), 0] ++ zeros 2 ++ zeros 8 ++ zeros 4 ++ padTo 10 (s.od 0x4010 5) ++ beBytes 2 seq ++ [0x01, 0x7F] ++ zeros 10

/-- The Delay_Req frame on port `n` (R313, R315); its IPv4 header with TTL 1, no options and identification 0 (log 30). -/
def dreqFrame (s : State) (n seq : Nat) : Octets :=
  let udp := s.odNat 0x4010 6 == 1
  let vlan := s.odNat 0x4010 8
  let m := dreqMessage s seq
  let tag := if bitAt vlan 16 then [0x81, 0x00] ++ beBytes 2 (vlan % 65536) else []
  let src := padTo 6 (s.od 0x3808 (n + 1))
  if !udp then padFrame (beBytes 6 0x011B19000000 ++ src ++ tag ++ [0x88, 0xF7] ++ m)
  else
    let ips := padTo 4 (s.od 0x4010 7) ++ [224, 0, 1, 129]
    let ip0 (c : Octets) : Octets := [0x45, 0] ++ beBytes 2 72 ++ zeros 4 ++ [1, 17] ++ c ++ ips
    let ip := ip0 (beBytes 2 (0xFFFF - foldSum (onesSum (ip0 (zeros 2)))))
    let udp0 (c : Octets) : Octets := beBytes 2 319 ++ beBytes 2 319 ++ beBytes 2 52 ++ c ++ m
    let c := 0xFFFF - foldSum (onesSum (ips ++ [0, 17] ++ beBytes 2 52 ++ udp0 (zeros 2)))
    beBytes 6 0x01005E000181 ++ src ++ tag ++ [0x08, 0x00] ++ ip ++ udp0 (beBytes 2 (if c = 0 then 0xFFFF else c))

/-- The Delay_Req interval in edge-clock cycles: 2^v s for v of OD 0x4010.09, rounded down (R315). -/
def dreqCycles (s : State) : Nat :=
  let v := s.odInt 32 0x4010 9
  if 0 ≤ v then 1562500000 * 2 ^ v.toNat else 1562500000 / 2 ^ v.natAbs

/-- Send a Delay_Req toward the master when it is due, and set the next one's time (R315). -/
def sendDreq (s : State) : State :=
  let k := s.odNat 0x4010 3
  let p : PD := ⟨Fin.ofNat 32 (k / 2), if k % 2 = 0 then .l2s else .s2l⟩
  if s.odNat 0x4010 1 ≠ 1 ∨ !(s.od 0x4010 4).any (· != 0) ∨ !s.time.syncSeen ∨ !ethPort s p.port then s
  else
    let s := waitCycle (s.time.dreqDue.getD 0) s
    let s := { s with time := { s.time with dreqDue := some (s.time.cycles + dreqCycles s) } }
    let q := s.time.dreqSeq.toNat
    let s := clockCount 2 { s with time := { s.time with dreqSeq := s.time.dreqSeq + 1, dreqs := s.time.dreqs ++ [{ seqId := q, t3 := 0, at_ := s.time.cycles }] } }
    injectOwn p (dreqFrame s p.port q) .ownClock 2 true (s.odNat 0x4010 10) (some q) s

/-- Count what was lost: 0 Follow_Ups, 1 Delay_Resps (R316). -/
def lostCount (i : Nat) (s : State) : State := { s with time := { s.time with lost := s.time.lost.bump i 1 } }

/-! ## Pulses -/

/-- The end of a pin's pulse. -/
def pulseEnd (p : Nat) (s : State) : State :=
  match (s.time.pins.get p {}).pulseEnd with
  | none => s
  | some t => setPin p (fun q => { q with active := false, pulseEnd := none }) (waitTime t s)

/-! ## Captures -/

/-- An edge on an input pin, rising or falling: active by the polarity of OD 0x6001[0] (R336, R337). -/
def captureEdge (p : Nat) (rising : Bool) (s : State) : State :=
  let fn := s.odNat 0x6000 (p + 1)
  let active := rising != bitAt (s.odNat 0x6001 (p + 1)) 0
  if !((fn == 1 && active) || (fn == 2 && (active || bitAt (s.odNat 0x6001 (p + 1)) 1))) then s
  else
    let t := ((s.time.now : Int) - s.odInt 32 0x6002 (p + 1) * 65536).toNat
    let s := updPin p (fun q => { q with last := t, captures := q.captures + 1, overflows := if 16 ≤ q.fifo.length then q.overflows + 1 else q.overflows, fifo := (if 16 ≤ q.fifo.length then q.fifo.drop 1 else q.fifo) ++ [t] }) s
    let s := post { type := 0x6001, source := p, b := t / 65536 } s
    if fn = 1 ∧ s.odNat 0x4010 1 = 2 then
      let sec : Nat := 10 ^ 9 * 65536
      let f := t % sec
      servoSample (if 2 * f ≤ sec then (f : Int) else (f : Int) - sec) s
    else s

/-- The octets of a capture FIFO: stored entries, oldest first, then zeros (R337). -/
def fifoOctets (q : Pin) : Octets := padTo 192 (q.fifo.map time96).flatten

/-! ## Commands -/

/-- R314, R316 to R319. -/
def execPtpOwnClockFrame (s : State) : Out := .next (ownClockFrame s)

/-- R315. -/
def execDelayReqSend (s : State) : Out := .next (sendDreq s)

/-- R316: 250 ms without the Follow_Up. -/
def execFollowUpTimeout (s : State) : Out :=
  .next (match s.time.syncs with
    | w :: rest => let s := waitCycle (w.at_ + cyclesUs 250000) s; lostCount 0 { s with time := { s.time with syncs := rest } }
    | [] => s)

/-- R316: 1 s without the Delay_Resp. -/
def execDelayRespTimeout (s : State) : Out :=
  .next (match s.time.dreqs with
    | w :: rest => let s := waitCycle (w.at_ + cyclesUs 1000000) s; lostCount 1 { s with time := { s.time with dreqs := rest } }
    | [] => s)

/-- R318, R338. -/
def execSyncTimeout (s : State) : Out := .next (syncLost s)

/-- While Locked the time unit writes its seconds into the tool rest, 1,024 s after it was Locked and after the last write (R320). -/
def restSeconds (s : State) : State :=
  if s.time.servo == .locked then
    let s := waitCycle (max s.time.lockedSince s.time.restAt + 1024 * 1562500000) s
    { s with time := { s.time with restAt := s.time.cycles }, rest := { s.rest with seconds := BitVec.ofNat 40 s.time.secs, secValid := true, syncedAt := s.time.secs % 2 ^ 40 } } else s

/-- R320. -/
def execToolRestSecondsWrite (s : State) : Out := .next (restSeconds s)

/-- R335. -/
def execSlotPulseEnd (pin : Fin 4) (s : State) : Out := .next (pulseEnd pin s)

/-- R336, R337. -/
def execPinCaptureEdge (pin : Fin 4) (rising : Bool) (s : State) : Out := .next (captureEdge pin rising s)

/-- R274. -/
def execKeyExpiryCheck (s : State) : Out := .next (keyExpire s)

/-- R266, R267. -/
def execRolloverDue (user : RollUser) (s : State) : Out :=
  .next (if s.time.isSet && (s.roll user).state == 1 then rollDue user (waitTime (s.roll user).t s) else s)

end Sys2Proof.Machine
end

