-- ==== Sys2Proof/Machine/Channel.lean ====
section
/-! DEFINITION. The Urzidun channel's messages: layout and MAC (R454 to R456), keys (R459), the way a message leaves a port
(R35, R460), and Notices (R462). -/
namespace Sys2Proof.Machine

/-! ## Keys -/

/-- The KEK of a slot named by OD 0x1010.03 or .04: Filled, not expired, of Management usage (R245, R459). -/
def channelKey (s : State) (sub : Nat) : Option Octets :=
  let k := s.odNat 0x1010 sub
  if k = 0xFF then none
  else
    let x := s.slot (0x8000 + k)
    match readSlot (0x8000 + k) s with
    | (some c, _) => if !x.expired && bitAt c.usage 5 then some c.key else none
    | (none, _) => none

/-- The part key. -/
def partKey (s : State) : Option Octets := channelKey s 3
/-- The domain key. -/
def domainKey (s : State) : Option Octets := channelKey s 4

/-- Domain Part ID. -/
def domainPartId (s : State) : Nat := s.odNat 0x1010 1

/-! ## Messages -/

/-- A message's 24-octet header (R454). -/
def urzHeader (s : State) (type dest session seq len selector : Nat) (hop : Nat) : Octets :=
  [BitVec.ofNat 8 (0x10 + type), BitVec.ofNat 8 hop] ++ beBytes 2 (s.odNat 0x1010 2) ++ beBytes 2 dest ++ beBytes 2 (domainPartId s) ++
  beBytes 4 session ++ beBytes 8 seq ++ beBytes 2 len ++ [BitVec.ofNat 8 selector, 0]

/-- The MAC of a message without its MAC (R456): byte 1 taken as 0. -/
def urzMac (key np nc m : Octets) : Octets := cmac key (padTo 16 np ++ padTo 16 nc ++ patch m 1 [0])

/-- A whole message. -/
def urzMessage (key np nc header payload : Octets) : Octets := header ++ payload ++ urzMac key np nc (header ++ payload)

/-- Port MAC address. -/
def portMac (s : State) (n : Nat) : Octets := padTo 6 (s.od 0x3808 (n + 1))

/-- A frame that carries a message. -/
def urzFrame (dest src tags m : Octets) : Octets := padFrame (dest ++ src ++ tags ++ [0x88, 0xB5] ++ m)

/-! ## Sending -/

/-- Send a frame of the channel in a port-direction: injected on an Ethernet port, Protect under `sc` or Clear, or in the GCC bytes
of an OTN port. -/
def urzSend (p : PD) (frame : Octets) (sc : Nat) (s : State) : State :=
  if ethPort s p.port then injectOwn p frame .urzidun (if sc = 0xFFFF then 0 else 1) false sc none s
  else if otnPort s p.port && gccOn s (p.port / 4) (outSide p) then gccQueue p frame s
  else s

/-- The seconds and nanoseconds that heartbeats and Notices carry. -/
def urzTime (s : State) : Octets := beBytes 6 s.time.secs ++ beBytes 4 (s.time.ns % 10 ^ 9)

/-- Send a Notice (R462) while the part key is set and the part has an identifier. -/
def notice (kind source rank entry : Nat) (s : State) : State :=
  match partKey s with
  | none => s
  | some key =>
    if domainPartId s = 0xFFFF ∨ !s.domOn 77 then s
    else
      let seq := s.urz.noticeSeq + 1
      let payload := beBytes 2 kind ++ beBytes 2 source ++ urzTime s ++ [BitVec.ofNat 8 rank, 0] ++ beBytes 8 entry
      let m := urzMessage key [] [] (urzHeader s 7 (s.odNat 0x1010 7) 0 seq 24 0 (s.odNat 0x1010 6)) payload
      let s := { s with urz := { s.urz with noticeSeq := seq } }
      ((List.range 32).filter (fun n => bitAt (s.odNat 0x1011 (n + 1)) 3)).foldl
        (fun s n => urzSend ⟨Fin.ofNat 32 n, .l2s⟩ (urzFrame (padTo 6 (s.od 0x1010 5)) (portMac s n) [] m) 0xFFFF s) s

end Sys2Proof.Machine
end

