-- ==== Sys2Proof/Machine/Drain.lean ====
section
/-! DEFINITION. Domain resets, drains and service resets (R225, R370, R491 to R493), the chucks' isolation and rebuild (R248),
the controllers (R464, R465), and what the lanes show (R497, R498). -/
namespace Sys2Proof.Machine

/-! ## Lanes -/

/-- Power domain of lane group `g`: SG0 to SG7, then LG0 to LG7. -/
def groupDomain (g : Nat) : Nat := if g < 8 then 36 + g else 20 + g

/-- Lane group `g` is powered and configured while the part is Ready. -/
def groupLive (s : State) (g : Nat) : Bool := s.power.start == .ready && pairUsed s (g % 8)

/-- Lane group `g` sends a PCS or FlexO stream (R497). -/
def groupSends (s : State) (g : Nat) : Bool := groupLive s g && s.domOn (groupDomain g) && s.power.service != .resetting

/-- TX_DISABLE of lane group `g`: 0 released, 1 deasserted, 2 asserted (R497, R498). -/
def groupDisable (s : State) (g : Nat) : Nat :=
  if s.power.start == .off then 0
  else if groupSends s g || (groupLive s g && (s.power.service == .resetting || (s.domain (groupDomain g)).state == 3)) then 1 else 2

/-- Lanes of lane group pair `k` that its port or OTUCn uses: all four of an Ethernet shape, those of R127 of an OTUCn. The rest are
powered down and silent. -/
def lanesUsed (s : State) (k : Nat) : Nat :=
  let n := otnShape s k
  let m := if k % 2 = 1 then otnShape s (k - 1) else 0
  if 0 < n then min n 4 else if 5 ≤ m then m - 4 else if pairUsed s k then 4 else 0

/-- Lanes that send: SG0 to SG7 hold lanes 0 to 31, LG0 to LG7 lanes 32 to 63. -/
def lanesSending (s : State) : List Nat := (List.range 64).filter (fun i => groupSends s (i / 4) && decide (i % 4 < lanesUsed s (i / 4 % 8)))

/-- Bring the transmitters and TX_DISABLE outputs in line with the state. -/
def lanesSettle (s : State) : State :=
  { s with power := { s.power with txOn := (List.range 16).filter (groupSends s), lanesOn := lanesSending s, txDis := (List.range 16).map (fun g => (g, groupDisable s g)) } }

/-! ## Removing frames -/

/-- Forget a frame wherever the fabric holds it, and give back its key-slot reference; its tokens in flight complete for nothing (R194). -/
def purgeFrm (id : Nat) (s : State) : State :=
  match s.frame? id with
  | none => s
  | some f =>
    let s := if f.desc.tokens = 0 then s else slotUnref f.desc.slot s
    let s := { s with fab := { s.fab with replay := s.fab.replay.erase id, dispatch := s.fab.dispatch.erase id, failover := s.fab.failover.erase id } }
    dropFrm id s

/-- Both port-directions of the ports named. -/
def pdsOf (ports : List Nat) : List PD := (ports.map (fun n => [(⟨Fin.ofNat 32 n, .s2l⟩ : PD), ⟨Fin.ofNat 32 n, .l2s⟩])).flatten

/-- Frames of a port-direction that have been accepted and have not left: retained, queued, held for launch, or in the egress buffer. -/
def awaiting (s : State) (p : PD) : Nat :=
  (s.path.frames.filter (fun q => q.2.pd == p && q.2.sequenced)).length + (s.pd p).buffer.length + (s.pd p).launchList.length + (s.pd p).lateList.length +
  (queuesOf s p).foldl (fun n i => n + (s.queue p i).items.length) 0 +
  (if otnPort s p.port then (tribsOf s (p.port / 4)).foldl (fun n t => n + (playOf (s.tr t) p.dir).length) 0 else 0)

/-- Remove every frame of a port-direction, counting `n` drops (R225). -/
def clearPd (p : PD) (n : Nat) (s : State) : State :=
  let s := (s.path.frames.filter (fun q => q.2.pd == p)).foldl (fun s q => purgeFrm q.1 s) s
  let s := ((s.pd p).launchList ++ (s.pd p).lateList ++ (s.pd p).buffer).foldl (fun s e => egrFree e s) s
  let s := (queuesOf s p).foldl (fun s i =>
    let s := (s.queue p i).items.foldl (fun s e => egrFree e s) s
    restate p i (updQueue p i (fun x => { x with items := [], heldFrames := 0, heldOctets := 0 }) s)) s
  let s := if otnPort s p.port then (tribsOf s (p.port / 4)).foldl (fun s t => playClear t p.dir s) s else s
  updPd p (fun r => { r with finishing := [], commitPtr := r.nextSeq, settlePtr := r.nextSeq, buffer := [], launchList := [], lateList := [], fill := 0, heldBack := false, pauseWait := [], resetDrops := r.resetDrops + BitVec.ofNat 64 n }) s

/-! ## Chucks (R248) -/

/-- A chuck is isolated or its mirror is being rebuilt. -/
def chuckOut (s : State) (b : Bool) : Bool := if b then s.keys.isoB else s.keys.isoA

/-- Isolate a chuck: a domain reset of PD66 or PD67. With the other chuck out as well, every Filled slot fails both copies. -/
def chuckIsolate (b : Bool) (cause : Nat) (s : State) : State :=
  let d := 66 + bit b
  let both := chuckOut s (!b)
  let s := countDomainReset d cause (setDomain d 3 s)
  let s := keyEvent 0 { s with keys := if b then { s.keys with isoB := true } else { s.keys with isoA := true } }
  if both then
    let s := s.keys.data.foldl (fun s q => if q.2.state == .filled || q.2.state == .releasing then slotBad q.1 s else s) s
    s.keys.kek.foldl (fun s q => if q.2.state == .filled || q.2.state == .releasing then slotBad (0x8000 + q.1) s else s) s
  else s

/-- Copy the serving chuck's mirror into the other. -/
def KeySlot.rebuilt (b : Bool) (x : KeySlot) : KeySlot :=
  if b then { x with b := x.a, copyBad := if x.copyBad = 2 then 0 else x.copyBad } else { x with a := x.b, copyBad := if x.copyBad = 1 then 0 else x.copyBad }

/-- The reset of a chuck has ended: the rebuild of its mirror begins. -/
def chuckRestarted (b : Bool) (s : State) : State := { s with keys := { s.keys with rebuilding := if b then 2 else 1 } }

/-- The rebuild has ended: dual execution resumes, and the simplex bit clears. -/
def chuckRebuilt (b : Bool) (s : State) : State :=
  if s.keys.rebuilding ≠ (if b then 2 else 1) then s
  else
    let k := s.keys
    let k := { k with data := k.data.mapAll (fun _ x => x.rebuilt b), kek := k.kek.mapAll (fun _ x => x.rebuilt b), rebuilding := 0 }
    let k := if b then { k with isoB := false } else { k with isoA := false }
    { s with keys := { k with events := if k.isoA || k.isoB then k.events else k.events &&& ~~~(1 : W16) } }

/-! ## Controllers (R464, R465) -/

/-- State of controller A (false) or B (true). -/
def ctlOf (s : State) (b : Bool) : CtlState := if b then s.ctl.ctlB else s.ctl.ctlA
/-- Set the state of a controller. -/
def setCtl (b : Bool) (c : CtlState) (s : State) : State := { s with ctl := if b then { s.ctl with ctlB := c } else { s.ctl with ctlA := c } }
/-- The controller in a state, A first. -/
def ctlIn (s : State) (c : CtlState) : Option Bool := if s.ctl.ctlA == c then some false else if s.ctl.ctlB == c then some true else none

/-- The active controller faults: isolated, powered off for diagnosis; a Standby partner starts. -/
def failOver (s : State) : State :=
  match ctlIn s .active with
  | none => s
  | some b =>
    let s := setDomain (68 + bit b) 0 (setCtl b .isolated { s with ctl := { s.ctl with faultAt := s.time.cycles } })
    if ctlOf s (!b) == .standby then setDomain (68 + bit (!b)) 2 (setCtl (!b) .starting s) else s

/-- The shavings-log entry of a controller (R464; log 35): its domain is the source. -/
def logController (b : Bool) (s : State) : State := logEntry Config.controllerLogType (68 + bit b) [] s

/-- An Isolated controller whose domain has been powered off enters Diagnosing, with a log entry. -/
def toDiagnosis (b : Bool) (s : State) : State := if ctlOf s b == .isolated then logController b (setCtl b .diagnosing s) else s

/-- A controller becomes Active: the fail-over event and the control-plane vector. -/
def becomeActive (b : Bool) (s : State) : State :=
  let s := setDomain (68 + bit b) 1 (setCtl b .active s)
  let s := { s with ctl := { s.ctl with failovers := s.ctl.failovers + 1 } }
  signalVector (functionVector s 0) (post { type := 0x1002, source := bit b, a := nsOfCycles (s.time.cycles - s.ctl.faultAt) } (toDiagnosis (!b) s))

/-- The Starting controller has loaded its checkpoint, or has failed. -/
def startDone (ok : Bool) (s : State) : State :=
  match ctlIn s .starting with
  | none => s
  | some b => if ok then becomeActive b s else toDiagnosis (!b) (setDomain (68 + bit b) 0 (setCtl b .diagnosing s))

/-- A diagnosis of a controller ends (R464). -/
def ctlDiagnosed (b pass : Bool) (s : State) : State :=
  let s := toDiagnosis b s
  if ctlOf s b != .diagnosing then s
  else
    let fails (n : Nat) (s : State) : State := { s with ctl := if b then { s.ctl with failB := n } else { s.ctl with failA := n } }
    if pass then
      let s := fails 0 s
      if s.controlUp || (ctlIn s .starting).isSome then setDomain (68 + bit b) 0 (setCtl b .standby s) else becomeActive b s
    else
      let n := (if b then s.ctl.failB else s.ctl.failA) + 1
      let s := fails n s
      if 3 ≤ n then logController b (setCtl b .retired s) else s

/-! ## PCIe (R452) -/

/-- Session `k` closes (R433): its staging and unfinished transfers go, but for the staging an armed slot of action 0x03 needs, which
passes to that slot; a commit of it that waits behind another ends with the code for a closed session. -/
def closeStaging (k : Nat) (s : State) : State :=
  let st := (s.ctl.sessions.get k {}).staged
  let s := { s with time := { s.time with slots := s.time.slots.mapAll (fun _ r => if r.holder = some k && r.passed.isNone then { r with passed := some st } else r) } }
  let late := s.ctl.queue.any (fun j => j.session == k) && s.ctl.held.any (fun h => h.session == k)
  let c := { s.ctl with sessions := s.ctl.sessions.drop k, queue := s.ctl.queue.filter (fun j => j.session != k) }
  { s with ctl := if late then { c with finished := c.finished ++ [(k, abClosed)] } else c }

/-- A Function Level Reset, a reset of PD75 or the loss of the link: rings, mailbox sessions, MSI-X and ring configuration. -/
def flr (s : State) : State :=
  let s := (List.range 64).foldl (fun s k => closeStaging k s) s
  let keep (q : Nat × Octets) : Bool := !(decide (odKey 0x1800 0 ≤ q.1) && decide (q.1 < odKey 0x1804 0))
  let inj (i : Inject) : Bool := i.ring.isNone
  { s with ctl := { s.ctl with dict := s.ctl.dict.filter keep, held := s.ctl.held.filter (fun h => !h.ring) }, host := { s.host with rings := [], msix := [], pba := [] }, path := { s.path with inject := s.path.inject.filter inj } }

/-- Ring 0 is enabled again where the endpoint stays, so that a host can reach the part (log 33). -/
def ringZero (s : State) : State := updRing 0 (fun _ => { state := 1 }) s

/-! ## Domain resets -/

/-- A cluster reset (R81): frames being parsed or walked there are parsed again from retention. -/
def clusterReset (c : Nat) (s : State) : State :=
  let again (f : Frm) : Frm := { f with gouge := none, parsed := false, stage := if f.stage == .waitFill then .accepted else f.stage }
  let hit (f : Frm) : Bool := (f.gouge.map Prod.fst == some c && !f.parsed) || (f.stage == .waitFill && clusterOf s f.pd.port f.seq == c)
  let fs := s.path.frames.map (fun q => if hit q.2 then (q.1, again q.2) else q)
  { s with path := { s.path with frames := fs }, cls := { s.cls with resetClusters := if s.cls.resetClusters.contains c then s.cls.resetClusters else c :: s.cls.resetClusters } }

/-- What the reset of domain `d` does; `cause` as R499 counts it: 1 request, 2 internal fault, 3 service reset. A spindle's
own restart in a service reset leaves its role (log 34). -/
def domainReset (d cause : Nat) (s : State) : State :=
  let mark (s : State) : State := countDomainReset d cause (setDomain d 3 s)
  if d < 28 then
    (if cause = 3 then (if s.domOn d then mark s else s) else isolateSpindle d (if cause = 1 then 9 else 3) (countDomainReset d cause s))
  else if d < 44 then (if s.domOn d then mark s else s)
  else if d < 52 then (if s.domOn d then clusterReset (d - 44) (mark s) else s)
  else if d < 56 then bankReset (d - 52) cause s
  else if d < 60 then (if s.domOn d then mark s else s)
  else if d < 64 then writeBackAll (mark s)
  else if d < 66 then (if s.domOn d then mark s else s)
  else if d < 68 then chuckIsolate (d == 67) cause s
  else if d < 70 then
    let b := d == 69
    if ctlOf s b == .active then failOver (countDomainReset d cause s)
    else if ctlOf s b == .standby then countDomainReset d cause (setDomain d 2 (setCtl b .diagnosing s))
    else s
  else if d < 72 then (if s.domOn d then halfReset (d - 70) cause s else s)
  else if d = 72 then lockstepRestart .headstock cause s
  else if d = 73 then lockstepRestart .tailstock cause s
  else if d = 75 then ringZero (flr (mark s))
  else if d < 79 then (if s.domOn d then mark s else s)
  else s

/-- The restart of domain `d` ends (R492): drained pairs resume, a chuck's rebuild starts, a cluster takes its groups back. -/
def domainRestarted (d : Nat) (s : State) : State :=
  if (s.domain d).state ≠ 3 then s
  else
    let s := setDomain d 1 s
    let s := if 44 ≤ d ∧ d < 52 then { s with cls := { s.cls with resetClusters := s.cls.resetClusters.erase (d - 44) } } else s
    let s := if d = 66 ∨ d = 67 then chuckRestarted (d == 67) s else s
    lanesSettle s

/-! ## Drains (R225, R492) -/

/-- Ports that a drain-type reset of domain `d` drains. -/
def drainPorts (s : State) (d : Nat) : List Nat :=
  let all := List.range 32
  if d < 28 then []
  else if d < 44 then
    let k := (d - 28) % 8
    let wide (j : Nat) : Bool := ethShape s j == 4 || decide (5 ≤ otnShape s j)
    let ks := if k % 2 = 0 then (if wide k then [k, k + 1] else [k]) else (if wide (k - 1) then [k - 1, k] else [k])
    all.filter (fun n => ks.contains (n / 4))
  else if (60 ≤ d ∧ d ≤ 63) ∨ d = 74 then all
  else if d = 64 ∨ d = 65 then all.filter (fun n => otnPort s n && n / 16 == d - 64)
  else []

/-- The domains reset together with `d`: both groups of a pair (R492). -/
def drainDomains (d : Nat) : List Nat := if 28 ≤ d ∧ d < 44 then (let k := (d - 28) % 8; [28 + k, 36 + k]) else [d]

/-- A drain-type domain. -/
def drainType (d : Nat) : Bool := (28 ≤ d && d < 44) || (60 ≤ d && d ≤ 65) || d == 74

/-- Start a drain: the ports stop accepting, but each tributary's frame in progress still completes; shaping is lifted, pause is ignored
(R225, R302). -/
def drainStart (cause : Nat) (domains ports : List Nat) (s : State) : State :=
  let s := { s with power := { s.power with drains := s.power.drains ++ [{ domains := domains, ports := ports, at_ := s.time.cycles, cause := cause }] } }
  let s := domains.foldl (fun s d => if (s.domain d).state = 1 then setDomain d 4 s else s) s
  (pdsOf ports).foldl (fun s p =>
    let trail := if otnPort s p.port then tribsOf s (p.port / 4) else []
    let s := updPd p (fun r => { r with closed := true, finishing := trail, pausedUntil := none, pfcUntil := [] }) s
    reline p ((queuesOf s p).foldl (fun s i => restate p i s) s)) s

/-- The domains a service reset restarts first; PD71 follows when PD70 is back, and PD53 to PD55 one after the other as each bank before
them has been rewritten (R36, R387, R491). -/
def serviceDomains : List Nat := (List.range 79).filter (fun d => d != 74 && d != 75 && d != 66 && d != 67 && d != 68 && d != 69 && d != 71 && !(53 ≤ d && d ≤ 55))

/-- Steps 3 and 4 of a service reset (R491): once the banks and the generator are back, the chucks restart one after the other, each
rebuilt from the other, and then the active controller fails over. -/
def serviceGoes (s : State) : State :=
  let at_ (n : Nat) (s : State) : State := { s with power := { s.power with serviceStep := n } }
  if s.power.service != .resetting || !s.rng.inReset.isEmpty || s.fab.rebuild.isSome || s.keys.isoA || s.keys.isoB then s
  else match s.power.serviceStep with
    | 0 => chuckIsolate false 3 (at_ 1 s)
    | 1 => chuckIsolate true 3 (at_ 2 s)
    | 2 => failOver (at_ 3 s)
    | _ => s

/-- Frames on the ports of a drain. -/
def drainLeft (s : State) (dr : Drain) : Nat := (pdsOf dr.ports).foldl (fun n p => n + awaiting s p) 0

/-- Carry out the reset that a drain was for; a domain switched off meanwhile stays off (R41). -/
def drainReset (dr : Drain) (s : State) : State :=
  let s := { s with power := { s.power with drains := s.power.drains.erase dr } }
  let s := (pdsOf dr.ports).foldl (fun s p => clearPd p (awaiting s p) s) s
  if dr.domains.isEmpty then
    let s := { s with power := { s.power with service := .resetting, serviceStep := 0 } }
    let s := serviceDomains.foldl (fun s d => domainReset d 3 s) s
    lanesSettle s
  else
    let live := dr.domains.filter (fun d => (s.domain d).state != 0)
    lanesSettle (live.foldl (fun s d => countDomainReset d dr.cause (setDomain d 3 (if 60 ≤ d ∧ d ≤ 63 then writeBackAll s else s))) s)

/-- Open the ports again that no drain and no reset keeps closed. -/
def portsOpen (s : State) : State :=
  let shut (n : Nat) : Bool := draining s n || s.power.service != .none ||
    (List.range 80).any (fun d => drainType d && (s.domain d).state == 3 && (drainPorts s d).contains n)
  (pdsOf ((List.range 32).filter (fun n => !shut n))).foldl (fun s p => if (s.pd p).closed then updPd p (fun r => { r with closed := false, finishing := [] }) s else s) s

/-- Every accepted frame on the drained ports has left. -/
def drainComplete (s : State) : State :=
  match s.power.drains.find? (fun dr => drainLeft s dr == 0) with
  | some dr => drainReset dr s
  | none => s

/-- 5 ms after a drain starts: what is left is counted as drain-timeout drops and logged, in one entry with the count (R225; log 35). -/
def drainTimeout (s : State) : State :=
  match s.power.drains with
  | dr :: _ =>
    let s := waitCycle (dr.at_ + cyclesUs 5000) s
    let n := drainLeft s dr
    let s := { s with power := { s.power with resetCounts := s.power.resetCounts.bump 4 n } }
    drainReset dr (if n = 0 then s else logEntry Config.drainLogType 0xFF (zeros 4 ++ beBytes 4 n) s)
  | [] => s

/-! ## Commands -/

/-- R248. -/
def execChuckMirrorRebuildComplete (chuckB : Bool) (s : State) : Out := .next (serviceGoes (chuckRebuilt chuckB s))

/-- R199. -/
def execRetentionRebuildComplete (bank : Fin 4) (s : State) : Out := .next (serviceGoes (rebuildDone bank s))

/-- R387: the half restarts and its expander is instantiated afresh; in a service reset half 1 follows half 0 (R491). -/
def execRngHalfRestartComplete (half : Fin 2) (s : State) : Out :=
  .next (if s.rng.inReset.contains half.val then
    let s := sourcesStart half (setDomain (70 + half) 1 s)
    let s := { s with rng := Rng.seedHalf half { s.rng with inReset := s.rng.inReset.erase half.val } }
    serviceGoes (if half = 0 ∧ s.power.service = .resetting then halfReset 1 3 s else s)
  else s)

/-- R225. -/
def execDrainComplete (s : State) : Out := .next (drainComplete s)

/-- R225. -/
def execDrainTimeout (s : State) : Out := .next (drainTimeout s)

/-- R492. -/
def execDomainRestartComplete (domain : Fin 80) (s : State) : Out := .next (portsOpen (domainRestarted domain s))

end Sys2Proof.Machine
end

