-- ==== Sys2Proof/Machine/Zeroize.lean ====
section
/-! DEFINITION. Zeroization (R275 to R278, R369, R388, R433). -/
namespace Sys2Proof.Machine

/-! ## Keys -/

/-- A slot after zeroization: Free, or Bad where it was (R255, R276). -/
def KeySlot.zeroed (x : KeySlot) : KeySlot := if x.state == .bad then { state := .bad } else {}

/-- A Valid SA keeps its record and counters, frozen with cause 4 (R276); its salt is overwritten (R275). -/
def Sa.zeroed (a : Sa) : Sa :=
  if a.valid then { a with enabled := false, frozen := true, cause := 4, salt := zeros 12 } else { a with salt := zeros 12 }

/-- A rollover record after zeroization: Idle. -/
def Roll.zeroed (r : Roll) : Roll := { r with state := 0 }

/-- Data slots, SAs, rollover records and both stores (R276, R277). -/
def zeroizeKeys (s : State) : State :=
  let k := s.keys
  let k := { k with data := k.data.mapAll (fun _ x => x.zeroed), sa := k.sa.mapAll (fun _ a => a.zeroed) }
  let k := { k with rollSc := k.rollSc.mapAll (fun _ r => r.zeroed), rollTrib := k.rollTrib.mapAll (fun _ r => r.zeroed) }
  { s with keys := { k with saUsed := [], blobUsed := [], zeroized := true, events := k.events ||| 0x0200 } }

/-- KEK slots, the SRK, the enrollment session's ephemeral key, and the BBK (R275). -/
def zeroizeKeks (s : State) : State :=
  let k := s.keys
  let k := { k with kek := k.kek.mapAll (fun _ x => x.zeroed), srk := none, enroll := none, events := k.events &&& ~~~(0x0080 : W16) }
  { s with keys := k, rest := { s.rest with bbk := none } }

/-! ## Frames -/

/-- A retained frame voided by zeroization (R227): its record keeps its sequence number and its data is overwritten. -/
def Frm.voided (f : Frm) : Frm :=
  let settled := f.stage == .queued || f.stage == .dispatched || f.stage == .ready
  { f with verdict := .drop .zeroized, len := 0, stage := if settled then .ready else .classified, parsed := true, gouge := none, data := [], desc := {}, odu := none }

/-- Stop dispatch and force every spindle to the spacer: nothing is queued, in flight or to be replayed, and all credits are free. -/
def spindlesStop (s : State) : State :=
  let f := s.fab
  { s with fab := { f with replay := [], dispatch := [], failover := [], spindles := f.spindles.mapAll (fun _ x => { x with flight := [], credits := 64, heldFrom := none }) } }

/-- Void the retained frames for which `p` holds, wherever the fabric has them. -/
def voidFrames (p : Frm → Bool) (s : State) : State :=
  let ids := (s.path.frames.filter (fun q => p q.2)).map Prod.fst
  let keep (l : List Nat) : List Nat := l.filter (fun i => !ids.contains i)
  let f := s.fab
  let s := { s with fab := { f with replay := keep f.replay, dispatch := keep f.dispatch, failover := keep f.failover } }
  ids.foldl (fun s i => updFrm i Frm.voided s) s

/-- A queue without what retention and the packet buffer held of it. -/
def Queue.lost (x : Queue) : Queue := { x with items := x.items.filter (fun e => !e.overflow && !e.spilled), open_ := none, heldFrames := 0, heldOctets := 0 }

/-- Everything that waits at egress in retention or in the packet buffer is discarded; what HBM held counts as memory-loss drops (R369). -/
def egressLost (p : PD) (s : State) : State :=
  let held := (s.pd p).launchList ++ (s.pd p).lateList
  let s := held.foldl (fun s e => egrFree e s) s
  let s := updPd p (fun r => { r with launchList := [], lateList := [] }) s
  (queuesOf s p).foldl (fun s i =>
    let x := s.queue p i
    if x.items.isEmpty && x.heldFrames == 0 && x.open_.isNone then s
    else
      let gone := x.items.filter (fun e => e.overflow || e.spilled)
      let s := gone.foldl (fun s e => subFill p (lenR8 e.data) (egrFree e s)) s
      let s := memoryLoss (gone.filter (fun e => e.spilled)).length s
      restate p i (updQueue p i Queue.lost s)) s

/-- Play-out buffers are in HBM (R146): what they hold is lost. -/
def playLost (s : State) : State :=
  let n := s.otn.tribs.foldl (fun n q => n + q.2.playS.length + q.2.playL.length) 0
  let s := memoryLoss n s
  { s with otn := { s.otn with tribs := s.otn.tribs.mapAll (fun _ r => { r with playS := [], playL := [], openS := none, openL := none }) } }

/-! ## Sessions and the rest -/

/-- Staging emptied, Urzidun sessions closed, a commit in progress refused (R433). -/
def sessionsZeroized (s : State) : State :=
  let busy := (s.ctl.job.map (fun j => [j.session])).getD [] ++ s.ctl.queue.map Job.session
  let clear (k : Nat) (x : Session) : Session := { x with staged := [], partials := [], last := if busy.contains k then abZeroized else x.last }
  let c := s.ctl
  let c := { c with sessions := (c.sessions.mapAll clear).filter (fun q => decide (q.1 < 64)), job := none, queue := [], held := c.held.filter (fun h => h.session < 64) }
  let s := { s with ctl := { c with finished := c.finished ++ (busy.filter (fun k => decide (k < 64) && c.held.any (fun h => h.session == k))).map (fun k => (k, abZeroized)) } }
  let s := { s with urz := { s.urz with sessions := [], accepted := s.urz.accepted } }
  let s := { s with cls := { s.cls with cuts := s.cls.cuts.filter (fun c => c.state != CutState.compiling) } }
  { s with time := { s.time with slots := s.time.slots.mapAll (fun _ r => if r.passed.isSome || (r.holder.any (fun k => decide (64 ≤ k))) then { r with passed := some [] } else r) } }

/-- A rotation is abandoned and its spare goes back to Spare (R474). -/
def rotationStop (s : State) : State :=
  match s.fab.rotation with
  | none => s
  | some (i, _) =>
    let s := { s with rng := { s.rng with queue := s.rng.queue.filter (fun r => r.who != .spareSeed i) } }
    let s := if (s.spindle i).role == .starting then toSpare i s else s
    { s with fab := { s.fab with rotation := none } }

/-- Mask generators overwritten (R275). -/
def masksClear (s : State) : State :=
  { s with fab := { s.fab with spindles := s.fab.spindles.mapAll (fun _ x => { x with mask := 0, maskCount := 0, maskFull := false }) } }

/-- HBM memory keys and tree levels overwritten; new keys are asked for, and the controller rewrites the tree store (R369). -/
def memoryZeroized (s : State) : State :=
  let s := mpuClear s
  { s with mpu := { s.mpu with treeLost := some (s.time.cycles + rewriteTime) } }

/-- The whole part (R275): every row of its table, and what R276, R369, R388, R433, R474 and R496 add. -/
def zeroizeWhole (s : State) : State :=
  let s := rotationStop (spindlesStop s)
  let s := zeroizeKeks (zeroizeKeys s)
  let s := { s with path := { s.path with frames := s.path.frames.filter (fun q => q.2.stage != .receiving), banks := [] } }
  let s := voidFrames (fun _ => true) s
  let s := (pdsOf (List.range 32)).foldl (fun s p => egressLost p s) s
  let s := masksClear (rngZeroize (sessionsZeroized (playLost s)))
  let s := memoryZeroized s
  let s := s.power.drains.foldl (fun s d => drainReset d s) s
  { s with rest := { s.rest with zeroizing := true } }

/-- Code 0x01 (R277): the data slots, the SAs, the rollover records and both stores; frames that hold references on the slots are
voided (R257). Sessions, staging, KEKs, BBK and memory keys stay (log 31). -/
def zeroizeData (s : State) : State := voidFrames (fun f => f.desc.tokens != 0) (zeroizeKeys s)

/-- Write the zeroize entry (R403, R417). -/
def logZeroize (cause sensor : Nat) (s : State) : State := logEntry 0x0030 sensor [BitVec.ofNat 8 cause, BitVec.ofNat 8 sensor] s

/-! ## The tamper decision's Lock part, which a ZEROIZE_N decision shares -/

/-- PD78 off, with its entry (R413). -/
def debugOff (s : State) : State := if s.domOn 78 then logEntry 0x0070 0xFF [0] (setDomain 78 0 s) else s

/-- The Lock actions (R400, R403, R405): the state, the lock sequence, the lock entry and a new challenge; PD78 off. -/
def lockNow (next : TamperState) (s : State) : State :=
  let st := match s.rest.state, next with
    | .zeroized, _ => TamperState.zeroized
    | _, t => t
  let s := { s with rest := { s.rest with state := st, lockSeq := s.rest.lockSeq + 1 } }
  let n := s.unexported
  let s := logEntry 0x0020 0xFF (beBytes 4 s.rest.lockSeq.toNat) s
  let s := if s.unexported = n then s else { s with rest := { s.rest with lockEntry := s.rest.headSeq } }
  let s := debugOff (tamperCount 1 s)
  if s.rest.onVbat then s else newChallenge s

/-- ZEROIZE_N on main power, or found asserted at start-up: a Zeroize decision without a sensor (R278, R403). -/
def pinZeroize (s : State) : State :=
  let s := zeroizeWhole s
  lockNow .zeroized (logZeroize 0 0xFF s)

/-- All of R275's rows are done: sensors that waited are decided anew, and the rotation interval counts from here (R402, R474). -/
def zeroizeDone (s : State) : State :=
  if !s.rest.zeroizing then s
  else
    let l := s.rest.deferred
    let s := { s with rest := { s.rest with zeroizing := false, deferred := [] } }
    let s := { s with fab := { s.fab with rotatedAt := s.time.cycles } }
    if l.isEmpty then s else { s with rest := { s.rest with window := some (s.time.cycles, l) } }

/-! ## Commands -/

/-- R278: on VBAT the samples see the deassertion. -/
def execZeroizePinDeasserted (s : State) : Out :=
  .next { s with power := { s.power with zeroizeN := false }, rest := { s.rest with pinActed := s.rest.pinActed && s.rest.onVbat } }

/-- R402: at most 1 ms after the decision. -/
def execZeroizationComplete (s : State) : Out := .next (zeroizeDone s)

end Sys2Proof.Machine
end

