-- ==== Sys2Proof/Machine/ToolRest.lean ====
section
/-! DEFINITION. The tool rest: sampling and filters (R394, R398), decisions on main power and on VBAT (R400 to R409), shadow
copies (R399), tokens (R410 to R413), log export (R418 to R421), and the monotonic counters (R423, R424). -/
namespace Sys2Proof.Machine

/-- A list of numbers in rising order. -/
def sortNat (l : List Nat) : List Nat := sortBy (fun a b => decide (a ≤ b)) l

/-! ## Decisions -/

/-- Highest response rank among sensors. -/
def topRank (s : State) (l : List Nat) : Nat := l.foldl (fun m n => max m (sensorRank s n)) 0

/-- A measured value in 32 bits, two's complement. -/
def value32 (v : Int) : Octets := beBytes 4 (unsign 32 v)

/-- Write one alarm entry (R402, R417): the sequence it took, 0 where it was not written. -/
def logAlarm (n top : Nat) (s : State) : Nat × State :=
  let x := s.sensor n
  let k := s.unexported
  let s := tamperCount 0 (logEntry 0x0010 n ([BitVec.ofNat 8 (sensorRank s n), BitVec.ofNat 8 top] ++ beBytes 2 x.sub ++ value32 x.value) s)
  (if s.unexported = k then 0 else s.rest.headSeq, s)

/-- Alarm entries in ascending sensor number, with the sequence each took. -/
def logAlarms (top : Nat) : List Nat → State → List (Nat × Nat) × State
  | [], s => ([], s)
  | n :: t, s =>
    let a := logAlarm n top s
    let r := logAlarms top t a.2
    ((n, a.1) :: r.1, r.2)

/-- The Alert actions of one sensor (R400, R407): on main power the latch, the event and the Notice; on VBAT the pending map. -/
def alertNow (n top seq : Nat) (s : State) : State :=
  if s.rest.onVbat then { s with rest := { s.rest with pendingAlert := s.rest.pendingAlert.upd n 0 (max top) } }
  else
    let s := { s with rest := { s.rest with alertLatch := s.rest.alertLatch ||| ((1 : W64) <<< n) } }
    notice 1 n top seq (post { type := 0x5001, source := n, a := top } s)

/-- One decision of the sensors `l` (R400 to R403, R407): entries, then Zeroize, Lock and Alert actions. -/
def decide_ (l : List Nat) (s : State) : State :=
  if l.isEmpty then s
  else
    let l := sortNat l
    let top := topRank s l
    let cause := (l.find? (fun n => sensorRank s n == top)).getD 0
    let s := if top ≠ 3 then s else if s.rest.onVbat then { s with rest := { s.rest with bbk := none } } else zeroizeWhole s
    let a := logAlarms top l s
    let s := if top = 3 then tamperCount 4 (logZeroize 3 cause a.2) else a.2
    let s := if 2 ≤ top then lockNow (if top = 3 then .zeroized else .locked) s else s
    a.1.foldl (fun s q => if 1 ≤ sensorRank s q.1 then alertNow q.1 top q.2 s else s) s

/-- The decision window closes 2 us after it opened (R402). -/
def windowClose (s : State) : State :=
  match s.rest.window with
  | none => s
  | some (c, _) =>
    let s := waitCycle (c + cyclesUs 2) s
    decide_ (s.rest.window.elim [] (·.2)) { s with rest := { s.rest with window := none } }

/-- ZEROIZE_N on VBAT (R407, R514): no sensor, no alarm entry, no Alert. -/
def pinZeroizeVbat (s : State) : State :=
  lockNow .zeroized (logZeroize 0 0xFF { s with rest := { s.rest with bbk := none } })

/-! ## Samples -/

/-- Sensors with filter F (R397). -/
def filterF : List Nat := [2, 3, 4, 5, 6, 9, 10, 11, 12, 14]
/-- Sensors that latch excursions between samples (R398): rails, temperatures and reference clock. -/
def latching : List Nat := [4, 9, 10, 11, 12, 13, 14, 15]

/-- Nominal voltage of the tool rest's monitor channels of fixed rails, 1 to 14, in mV (R501). -/
def railNominal : List Nat := [0, 750, 850, 750, 750, 1200, 750, 1100, 1100, 400, 1800, 1800, 3300, 900, 1200]

/-- The items beyond their limit, of items with their reading and how far it lies beyond: their bit map, and the reading of the one that
lies farthest beyond, the lowest-numbered of several (R417). -/
def beyond (l : List (Nat × Int × Int)) : Option (Nat × Int) :=
  match l.filter (fun q => decide (0 < q.2.2)) with
  | [] => none
  | q :: t => some ((q :: t).foldl (fun m x => m + 2 ^ x.1) 0, (t.foldl (fun b x => if b.2.2 < x.2.2 then x else b) q).2.1)

/-- Temperature sites the tool rest reads: on VBAT site 15 alone (R397). -/
def sitesRead (s : State) : List Nat := if s.rest.onVbat then [15] else List.range 16

/-- Whether the readings show the condition of a temperature or supply sensor, with its sub-sensor map and measured value (R397, R417,
R427, R501). -/
def readingOf (s : State) (temps : List Int) (supplies : List Nat) (n : Nat) : Option (Nat × Int) :=
  let sites (f : Int → Int) := beyond ((sitesRead s).map (fun i => (i, temps.getD i 0, f (temps.getD i 0))))
  let mv (i : Nat) : Int := supplies.getD i 0
  let rails (f : Nat → Int → Int) := beyond ((List.range 15).map (fun i => (i, mv i, f i (mv i))))
  match n with
  | 4 => sites (fun v => s.odInt 16 0x5012 3 - v)
  | 5 => beyond [(15, mv 15, s.odNat 0x5012 6 - mv 15)]
  | 9 => sites (fun v => v - s.odInt 16 0x5012 1)
  | 10 => sites (fun v => v - s.odInt 16 0x5012 2)
  | 11 => rails (fun i v => 100 * v - (if i = 0 then 86000 else 108 * railNominal.getD i 0))
  | 12 => rails (fun i v => (if i = 0 then 100 * (s.fab.rail - 60 : Int) else 92 * railNominal.getD i 0) - 100 * v)
  | _ => none

/-- Sensors whose condition at a sample is that of the readings. -/
def readSensors : List (Fin 23) := [4, 5, 9, 10, 11, 12]

/-- What the sensors show at a sample: the readings decide for those that have them, beside excursions latched since the last sample. -/
def measured (s : State) (obs : List SensorObs) (temps : List Int) (supplies : List Nat) : List SensorObs :=
  obs.filter (fun o => !readSensors.contains o.sensor) ++ readSensors.filterMap (fun (n : Fin 23) =>
    let o := obs.find? (fun o => o.sensor == n)
    match readingOf s temps supplies n.val with
    | some (m, v) => some { sensor := n, now := true, latched := o.any (·.latched), sub := BitVec.ofNat 16 m, value := v }
    | none => o.map (fun o => { o with now := false }))

/-- A sensor is sampled now: 0 to 7 always, 9 to 15 on main power, 11 to 15 not while masked; 8 to clear (R397, R398). -/
def sampled (s : State) (n : Nat) : Bool :=
  decide (n < 8) || (!s.rest.onVbat && decide (n < 16) && (decide (n < 11) || decide (s.rest.maskUntil ≤ s.time.cycles)))

/-- What a sensor shows at a sample. -/
def shows (s : State) (obs : List SensorObs) (n : Nat) : Bool :=
  let x := s.sensor n
  (match obs.find? (fun o => o.sensor.val == n) with
   | some o => o.now || (o.latched && latching.contains n)
   | none => false) || (x.latch && latching.contains n) || (n == 7 && !s.rest.shadowBad.isEmpty)

/-- One sensor's sample: whether it goes into alarm, and whether it clears (R398). -/
def sampleOne (n : Nat) (show_ : Bool) (o : Option SensorObs) (x : Sensor) : Sensor × Bool × Bool :=
  let h := (show_ :: x.hist).take 4
  let hit := if filterF.contains n then decide (3 ≤ (h.filter id).length) else show_
  let clean := h.length == 4 && h.all (fun b => !b)
  let x := { x with hist := h, latch := false }
  let x := match o with | some o => if show_ then { x with sub := o.sub.toNat, value := o.value } else x | none => x
  if !x.alarm && hit then ({ x with alarm := true }, true, false)
  else if x.alarm && clean then ({ x with alarm := false }, false, true)
  else (x, false, false)

/-- The crystal's alarm clears the valid flag of the seconds counter (R395, R397). -/
def crystalAlarm (n : Nat) (s : State) : State := if n = 6 then { s with rest := { s.rest with secValid := false } } else s

/-- A sensor clears, with its entry; the crystal's clearance starts a new group of samples (R394, R398). -/
def sensorClears (n : Nat) (s : State) : State :=
  let s := if n = 6 then { s with rest := { s.rest with sampleNo := 0 } } else s
  logEntry 0x0011 n (zeros 2 ++ beBytes 2 (s.sensor n).sub) s

/-- Sample sensors `l`; the sensors that go into alarm are collected. -/
def sampleAll (obs : List SensorObs) : List Nat → State → List Nat × State
  | [], s => ([], s)
  | n :: t, s =>
    if !sampled s n then sampleAll obs t s
    else
      let r := sampleOne n (shows s obs n) (obs.find? (fun o => o.sensor.val == n)) (s.sensor n)
      let s := { s with rest := { s.rest with sensors := s.rest.sensors.put n r.1 } }
      let s := if r.2.2 then sensorClears n s else if r.2.1 then crystalAlarm n s else s
      let q := sampleAll obs t s
      (if r.2.1 then n :: q.1 else q.1, q.2)

/-- Crystal periods of sample `k` of a group of 125 (R394). -/
def samplePeriods (k : Nat) : Nat := (k + 1) * 4096 / 125 - k * 4096 / 125

/-- The crystal count and the seconds at a sample (R394, R395); the grid stands while the crystal is in alarm. -/
def crystalStep (s : State) : State :=
  let r := s.rest
  if (s.sensor 6).alarm then s
  else
    let c := r.crystal + samplePeriods r.sampleNo
    let n := (r.sampleNo + 1) % 125
    if 32768 ≤ c then { s with rest := { r with crystal := c - 32768, seconds := r.seconds + 1, sampleNo := n } }
    else { s with rest := { r with crystal := c, sampleNo := n } }

/-- Sub-sensor status (OD 0x5003.01): mesh, photodiodes, lids, temperature sites high and low. -/
def subOctets (obs : List SensorObs) : Octets :=
  let map (n : Nat) : Nat := match obs.find? (fun o => o.sensor.val == n && o.now) with | some o => o.sub.toNat | none => 0
  let open_ (n : Nat) : Nat := bit (obs.any (fun o => o.sensor.val == n && o.now))
  leBytes 2 (map 0) ++ leBytes 1 (map 1) ++ leBytes 1 (open_ 2 + 2 * open_ 3) ++ leBytes 2 (map 10) ++ leBytes 2 (map 4)

/-- ZEROIZE_N at a sample on VBAT (R278, R514). -/
def pinSample (s : State) : State :=
  if !s.rest.onVbat then s
  else
    let h := (s.power.zeroizeN :: s.rest.pinHist).take 4
    let s := { s with rest := { s.rest with pinHist := h } }
    if s.rest.pinActed then (if h.length = 4 ∧ h.all (fun b => !b) then { s with rest := { s.rest with pinActed := false } } else s)
    else if h.take 2 = [true, true] then pinZeroizeVbat { s with rest := { s.rest with pinActed := true } }
    else s

/-- On main power the next sample falls one sample period after the last: 32 or 33 crystal periods, or a nominal 0.992 ms while the
crystal is in alarm (R394). -/
def sampleDue (s : State) : State :=
  if s.rest.onVbat then s
  else
    let s := waitCycle (s.rest.sampleAt + (if (s.sensor 6).alarm then cyclesUs 992 else samplePeriods s.rest.sampleNo * 1562500000 / 32768)) s
    { s with rest := { s.rest with sampleAt := s.time.cycles } }

/-- One sample of the tool rest (R394, R398, R402, R407). -/
def toolRestSample (obs : List SensorObs) (temps : List Int) (supplies : List Nat) (s : State) : State :=
  let s := crystalStep (sampleDue s)
  let obs := measured s obs temps supplies
  let t := (List.range 16).map (fun i => (i, temps.getD i 0))
  let v := (List.range 16).map (fun i => (i, supplies.getD i 0))
  let s := { s with rest := { s.rest with temps := t, supplies := v, subStatus := subOctets obs } }
  let a := sampleAll obs (List.range 16) s
  let s := if a.2.rest.onVbat then decide_ a.1 a.2 else a.1.foldl (fun s n => raiseAlarm n s) a.2
  pinSample s

/-- A filter-I or event sensor on main power: in alarm within 2 us of its condition; a latching sensor with filter F keeps
the excursion for its next sample (R397, R398). -/
def alarmImmediate (o : SensorObs) (s : State) : State :=
  let n := o.sensor.val
  let x := s.sensor n
  if s.rest.onVbat ∨ !(o.now || o.latched) then s
  else if 16 ≤ n ∧ n ≤ 21 then raiseEvent n o.sub.toNat s
  else if filterF.contains n then
    (if latching.contains n then { s with rest := { s.rest with sensors := s.rest.sensors.put n { x with latch := true } } } else s)
  else if n = 8 ∨ n = 22 ∨ !sampled s n ∨ x.alarm then s
  else raiseAlarm n (setAlarm n true (noteSensor n o.sub.toNat o.value s))

/-! ## Shadow copies -/

/-- The shadow pairs the scan reaches: on VBAT those of the tool rest alone (R397, R399). -/
def scanned (s : State) (bad : List (Nat × Nat)) : List (Nat × Nat) :=
  if s.rest.onVbat then bad.filter (fun q => [1, 2, 3, 6].contains q.1) else bad

/-- The scan (R399): the mismatched pairs; each new one is logged and counted, and sensor 7 goes into alarm. -/
def shadowScan (bad : List (Nat × Nat)) (s : State) : State :=
  let bad := scanned s bad
  let fresh := bad.filter (fun q => !s.rest.shadowBad.contains q)
  let s := { s with rest := { s.rest with shadowBad := bad } }
  let s := fresh.foldl (fun s q => tamperCount 5 (logEntry 0x0012 7 ([BitVec.ofNat 8 q.1] ++ zeros 3 ++ beBytes 4 q.2) s)) s
  let s := if bad.any (fun q => q.1 == 7) then debugOff s else s
  if fresh.isEmpty || s.rest.onVbat || (s.sensor 7).alarm then s else raiseAlarm 7 (setAlarm 7 true (noteSensor 7 0 0 s))

/-! ## Tokens (R410 to R412) -/

/-- Some sensor is in alarm, or waits to be decided. -/
def anyAlarm (s : State) : Bool :=
  s.rest.sensors.any (fun q => q.2.alarm) || s.rest.window.isSome || !s.rest.deferred.isEmpty

/-- Step 1 of R411: operation, reserved fields, part identifier, challenge and sequences. -/
def tokenFields (s : State) (t : Octets) (debug : Bool) : Bool :=
  octet t 0 == (if debug then 3 else 1) && decide (octet t 1 ≤ (if debug then 0 else 1)) && slice t 2 2 == zeros 2 &&
  leAt t 4 4 == s.rest.lockSeq.toNat && slice t 8 16 == partId && slice t 24 32 == padTo 32 s.rest.challenge &&
  leAt t 56 8 == (if debug then 0 else s.rest.lockEntry)

/-- The hold-off after refused tokens is running (R411). -/
def State.holding (s : State) : Bool := s.rest.holdOff.any (fun c => decide (s.time.cycles < c))

/-- The check of a token: the step that refuses it with its abort code, or none (R411). -/
def tokenCheck (s : State) (t : Octets) (debug : Bool) : Option (Nat × Nat) :=
  if s.holding then some (0, abState)
  else if t.length ≠ 160 ∨ !tokenFields s t debug then some (1, abState)
  else if !s.owned then some (2, abState)
  else if !ecdsaVerify s.rest.owner.key (t.take 64) (t.drop 64) then some (3, abSignature)
  else if !debug && (s.rest.state == .normal || anyAlarm s) then some (4, abState)
  else if debug && s.locked then some (5, abState)
  else none

/-- A refused token (R411): the entry, sensor 21, and, except in the hold-off, a new challenge and the count. -/
def tokenRefused (step op : Nat) (s : State) : State :=
  let s := raiseEvent 21 0 (logEntry 0x0022 0xFF [BitVec.ofNat 8 step, BitVec.ofNat 8 op] (tamperCount 3 s))
  if step = 0 then s
  else
    let n := s.rest.refusals + 1
    newChallenge (if 16 ≤ n then { s with rest := { s.rest with refusals := 0, holdOff := some (s.time.cycles + cyclesUs 600000000) } }
      else { s with rest := { s.rest with refusals := n } })

/-- PD78 on, with its sensor and its entry (R413). -/
def debugOn (s : State) : State := if s.domOn 78 then s else raiseEvent 20 0 (logEntry 0x0070 0xFF [1] (setDomain 78 1 s))

/-- An accepted unlock token (R412). -/
def unlocked (t : Octets) (s : State) : State :=
  let r := s.rest
  let s := { s with rest := { r with state := .normal, refusals := 0, alertLatch := if bitAt (octet t 1) 0 then 0 else r.alertLatch, shadowBad := r.shadowBad.filter (fun q => q.1 != 1) } }
  newChallenge (tamperCount 2 (logEntry 0x0021 0xFF (beBytes 4 (leAt t 4 4) ++ slice t 1 1) s))

/-- A debug token accepted. -/
def debugAccepted (s : State) : State := newChallenge (debugOn { s with rest := { s.rest with refusals := 0 } })

/-- The hold-off ends (R411). -/
def holdOffEnd (s : State) : State :=
  match s.rest.holdOff with
  | some c => let s := waitCycle c s; { s with rest := { s.rest with holdOff := none, refusals := 0 } }
  | none => s

/-- The abort code of a debug power command (R413). -/
def debugPowerCheck (s : State) (v : Nat) : Option Nat := if v = 1 ∧ (s.owned ∨ s.locked) then some abState else none
/-- Carry out a debug power command. -/
def debugPower (v : Nat) (s : State) : State := if v = 1 then debugOn s else debugOff s

/-! ## Log export (R418 to R421) -/

/-- The end of a second of tool-rest time: one coalesced entry per type held back (R418). -/
def coalesce (s : State) : State :=
  let l := s.rest.heldBack
  let s := { s with rest := { s.rest with perSecond := 0, heldBack := [] } }
  l.foldl (fun s q => if q.2 = 0 then s else logForce 0x00F0 0xFF (beBytes 2 q.1 ++ zeros 2 ++ beBytes 4 q.2) s) s

/-- The reminder, 10 s after the last log-export event, while the threshold is met (R419). -/
def exportReminder (s : State) : State :=
  if s.odNat 0x5042 1 ≤ s.unexported then exportEvent (waitCycle (s.rest.exportAt + cyclesUs 10000000) s) else s

/-- Octets of a segment up to its signature (R420). -/
def segmentBody (number first last : Nat) (before : Octets) (entries : List LogEntry) : Octets :=
  [0x53, 0x48, 0x01, 0x00] ++ beBytes 2 entries.length ++ beBytes 2 number ++ partId ++ beBytes 6 first ++ beBytes 6 last ++ padTo 32 before ++
  (entries.map (fun e => padTo 64 e.data)).flatten

/-- Sign with the identity key; the nonce of the signature is an open value (log 5). -/
def identitySign (m : Octets) (s : State) : Octets × State :=
  let k := openValue s
  (ecdsaSign identityD (k.1 % (p384N - 1) + 1) m, k.2)

/-- Form a segment of the oldest unexported entries where none is pending (R420). -/
def segmentForm (s : State) : State :=
  match s.rest.segment, s.rest.ring with
  | none, e :: t =>
    let l := (e :: t).take 256
    let last := (l.getLast?.getD e).seq
    let n := s.rest.segNext.toNat
    let b := segmentBody n e.seq last s.rest.tailHash l
    let g := identitySign b s
    { g.2 with rest := { g.2.rest with segment := some (n, last, b ++ g.1), segNext := g.2.rest.segNext + 1 } }
  | _, _ => s

/-- What a read of OD 0x5041.01 returns: the pending segment, or one of no entries (R420). -/
def segmentRead (s : State) : Octets × State :=
  match s.rest.segment with
  | some (_, _, b) => (b, s)
  | none =>
    let b := segmentBody s.rest.segNext.toNat (s.rest.headSeq + 1) s.rest.headSeq s.rest.headHash []
    let g := identitySign b s
    (b ++ g.1, g.2)

/-- An acknowledgement names the pending segment and its last sequence (R421). -/
def ackOk (s : State) (v : Octets) : Bool :=
  match s.rest.segment with
  | some (n, last, _) => leAt v 0 2 == n && leAt v 4 8 == last
  | none => false

/-- Free the ring space of the acknowledged segment; the entries owed are written first, and sensor 22 clears below 496 (R419, R421). -/
def ackApply (s : State) : State :=
  match s.rest.segment with
  | none => s
  | some (_, last, _) =>
    let gone := s.rest.ring.filter (fun e => decide (e.seq ≤ last))
    let tail := match gone.getLast? with | some e => slice e.data 32 32 | none => s.rest.tailHash
    let s := { s with rest := { s.rest with segment := none, tailHash := tail, ring := s.rest.ring.filter (fun e => decide (last < e.seq)) } }
    let s := logOwed s
    if (s.sensor 22).alarm && decide (s.unexported < 496) then sensorClears 22 (setAlarm 22 false s) else s

/-! ## Monotonic counters (R422 to R424) -/

/-- A counter is saturated, or is taken as saturated while its copies mismatch. -/
def counterStuck (s : State) (n : Nat) : Bool := s.rest.monotonic.get n 0 == 0xFFFFFFFF || s.shadow 6 n

/-- The abort code of an advance (R423, R424); the copies' mismatch does not stop the advance that rewrites them. -/
def advanceCheck (s : State) (v : Octets) : Option Nat :=
  let n := octet v 0
  let x := leAt v 4 4
  let c := (s.rest.monotonic.get n 0).toNat
  if 63 < n then some abRange
  else if c = 0xFFFFFFFF ∧ x ≠ c then some abState
  else if x < c then some abState
  else none

/-- Advance a counter, with its entry; an equal value changes nothing. -/
def advanceApply (v : Octets) (s : State) : State :=
  let n := octet v 0
  let x := leAt v 4 4
  let s' := shadowFix 6 n s
  if x = (s.rest.monotonic.get n 0).toNat then s'
  else logEntry 0x0080 0xFF ([BitVec.ofNat 8 n] ++ zeros 3 ++ beBytes 4 x ++ [BitVec.ofNat 8 (bit (x == 0xFFFFFFFF))]) { s' with rest := { s'.rest with monotonic := s'.rest.monotonic.put n (BitVec.ofNat 32 x) } }

/-! ## Commands -/

/-- R394, R398. -/
def execToolRestSample (obs : List SensorObs) (temps : List Int) (supplies : List Nat) (s : State) : Out := .next (toolRestSample obs temps supplies s)

/-- R398. -/
def execSensorAlarmImmediate (obs : SensorObs) (s : State) : Out := .next (alarmImmediate obs s)

/-- R399. -/
def execShadowScan (bad : List (Fin 8 × BitVec 32)) (s : State) : Out := .next (shadowScan (bad.map (fun q => (q.1.val, q.2.toNat))) s)

/-- R493: the tool-rest logic restarts and keeps SRAM and MRAM; the filters start anew. -/
def execToolRestRestart (s : State) : Out :=
  let s := countDomainReset 79 2 s
  .next { s with rest := { s.rest with sensors := s.rest.sensors.mapAll (fun _ x => { x with hist := [], latch := false }) } }

/-- R411. -/
def execTokenHoldoffEnd (s : State) : Out := .next (holdOffEnd s)

/-- R418. -/
def execCoalesceSecondEnd (s : State) : Out := .next (coalesce s)

/-- R419. -/
def execLogExportReminder (s : State) : Out := .next (exportReminder s)

/-- R420. -/
def execExportSegmentFormed (s : State) : Out := .next (segmentForm s)

end Sys2Proof.Machine
end

