-- ==== Sys2Proof/Machine/Keys.lean ====
section
/-! DEFINITION. Key commands and the blob (R242 to R252), the protected stores (R262, R263), persistent KEKs (R241), ownership
(R235, R236) and enrollment (R237 to R240). -/
namespace Sys2Proof.Machine

/-! ## Attributes (R243, R245, R246, R250) -/

/-- The attributes of a key as a blob or a command gives them. -/
structure Attr where
  keyId : Nat
  keyLen : Nat
  usage : Nat
  suite : Nat
  flags : Nat
  nbf : Nat
  naf : Nat
deriving DecidableEq, Repr

/-- The attribute block of a key command, little-endian (R250). -/
def Attr.ofBlock (b : Octets) : Attr :=
  { keyId := leAt b 0 8, keyLen := octet b 8, usage := octet b 9, suite := octet b 10, flags := octet b 11, nbf := leAt b 12 6, naf := leAt b 18 6 }

/-- The attributes in a blob's plaintext, big-endian (R243). -/
def Attr.ofPlain (p : Octets) : Attr :=
  { keyId := beAt p 16 8, keyLen := octet p 24, usage := octet p 25, suite := octet p 26, flags := octet p 27, nbf := beAt p 28 6, naf := beAt p 34 6 }

/-- The slot copy that a key with these attributes fills. -/
def Attr.copy (a : Attr) (key : Octets) : Copy :=
  { key := key, usage := a.usage, suite := a.suite, flags := a.flags, keyId := a.keyId, notAfter := a.naf }

/-- Key length of a suite (R93); 0 for a reserved code. -/
def suiteKey (n : Nat) : Nat := if n = 0 ∨ n = 2 then 16 else if n = 1 ∨ n = 3 then 32 else 0

/-- A target names a KEK slot. -/
def isKek (target : Nat) : Bool := decide (0x8000 ≤ target)

/-- The slot a target names: [15] set names KEK slot [7:0], whatever [14:8] hold; else data slot [14:0] (R249). -/
def targetAt (r : Octets) (i : Nat) : Nat := let t := leAt r i 2; if isKek t then 0x8000 + t % 256 else t

/-- The Filled KEK slot that holds a key identifier. -/
def kekFind (s : State) (id : Nat) : Option Nat :=
  (s.keys.kek.find? (fun q => (s.slot (0x8000 + q.1)).state == .filled && q.2.a.keyId == id)).map Prod.fst

/-- A Filled KEK slot other than `target` holds a key identifier (R246). -/
def kekElsewhere (s : State) (target id : Nat) : Bool :=
  s.keys.kek.any (fun q => 0x8000 + q.1 != target && (s.slot (0x8000 + q.1)).state == .filled && q.2.a.keyId == id)

/-- Usage octets that R246 refuses, by target. -/
def usageOk (kek : Bool) (u : Nat) : Bool :=
  if kek then decide (u &&& 0x83 = 0) && decide (u &&& 0x7C ≠ 0) else decide (1 ≤ u) && decide (u ≤ 3)

/-- The checks of R246 and of R244 step 5 on a key for `target`; `code` where the suite must be a code (kind 0x03). 0 passes. -/
def attrReason (s : State) (target : Nat) (a : Attr) (code : Bool) : Nat :=
  if (a.keyLen ≠ 16 ∧ a.keyLen ≠ 32) ∨ 4 ≤ a.flags ∨ !usageOk (isKek target) a.usage then 6
  else if isKek target && kekElsewhere s target a.keyId then 6
  else if (a.suite = 0xFF ∧ code) ∨ (a.suite ≠ 0xFF ∧ suiteKey a.suite ≠ a.keyLen) then 6
  else if bitAt a.flags 1 && !(isKek target && decide (target % 0x8000 < 64)) then 0x0F
  else 0

/-! ## The run of a commit's key commands -/

/-- The commands of one commit so far: the state it would leave, the state that stays if it is refused, and what it has gathered. -/
structure KeyRun where
  s : State
  b : State
  /-- Record number and reason of the first failure. -/
  fail : Option (Nat × Nat) := none
  n : Nat := 0
  exports : Octets := []
  exported : Bool := false
  /-- Deletes, with their record numbers. -/
  deletes : List (Nat × Nat) := []
  fills : List Nat := []
  /-- SAs loaded. -/
  loaded : List Nat := []
  ck : ChuckRun
deriving DecidableEq, Repr

/-- What happens whether or not the commit applies. -/
def KeyRun.both (f : State → State) (k : KeyRun) : KeyRun := { k with s := f k.s, b := f k.b }

/-- Dual execution (R247): 0, or reason 0x0B. What the command says of the chucks holds for the first command they run, and not
while one chuck is out. -/
def KeyRun.chucks (k : KeyRun) : Nat × KeyRun :=
  if chuckOut k.s false || chuckOut k.s true then (0, k)
  else match k.ck with
    | .agree => (0, k)
    | .isolates c => (0, (({ k with ck := .agree } : KeyRun).both (keyCount 2)).both (chuckIsolate c 2))
    | .unresolved => (0x0B, ({ k with ck := .agree } : KeyRun).both (keyCount 2))

/-- Read the key of a slot; a copy that fails stays failed whatever becomes of the commit (R254). -/
def KeyRun.read (target : Nat) (k : KeyRun) : Option Copy × KeyRun :=
  let r := readSlot target k.s
  (r.1, { k with s := r.2, b := (readSlot target k.b).2 })

/-- Use the next open value, whatever becomes of the commit. -/
def KeyRun.openValue (k : KeyRun) : Nat × KeyRun :=
  let r := Machine.openValue k.s
  (r.1, { k with s := r.2, b := { k.b with free := r.2.free } })

/-- `n` octets that nothing constrains. -/
def KeyRun.openOctets : Nat → KeyRun → Octets × KeyRun
  | 0, k => ([], k)
  | n + 1, k => let r := k.openValue; let q := KeyRun.openOctets n r.2; (BitVec.ofNat 8 r.1 :: q.1, q.2)

/-- Draw octets; what the expander has given stays given. Where it cannot serve, the draw stalls, at most 40 us: whether the sources
let it be served meanwhile is open, and so are the octets then (R253, R383). -/
def KeyRun.draw (n : Nat) (k : KeyRun) : Option Octets × KeyRun :=
  match rngDraw n k.s with
  | some (o, t) => (some o, { k with s := t, b := { k.b with rng := t.rng } })
  | none =>
    let served := Config.stallServed k.s.free
    let r := k.openValue
    let stalled (u : Nat) : KeyRun := r.2.both (fun s => waitCycle (s.time.cycles + cyclesUs u) s)
    if served then let q := KeyRun.openOctets n (stalled (r.1 % 41)); (some q.1, q.2) else (none, stalled 40)

/-- Fill a slot (R247, R255): 0x09 unless it is Free. -/
def KeyRun.fill (target : Nat) (a : Attr) (key : Octets) (k : KeyRun) : Nat × KeyRun :=
  if (k.s.slot target).state != .free then (9, k)
  else
    let r := k.chucks
    if r.1 ≠ 0 then r
    else (0, { r.2 with s := updSlot target (fun _ => filledSlot r.2.s target (a.copy key)) r.2.s, fills := target :: r.2.fills })

/-! ## Blobs (R242 to R244) -/

/-- Wrapped length of a kind. -/
def wrappedLen (kind : Nat) : Nat := if kind = 3 then 136 else 88

/-- The outer layout (R244 step 1). -/
def blobOuter (b : Octets) : Bool :=
  decide (beAt b 0 2 = 0x4C42) && decide (octet b 2 = 1) && decide (1 ≤ octet b 3) && decide (octet b 3 ≤ 3) && decide (beAt b 12 2 = wrappedLen (octet b 3)) &&
  decide (beAt b 14 2 = 0) && decide (b.length = 16 + wrappedLen (octet b 3))

/-- Reserved fields of a plaintext are 0 (R243). -/
def plainClean (p : Octets) (kind : Nat) : Bool :=
  decide (beAt p 41 3 = 0) && (decide (octet p 24 ≠ 16) || decide (beAt p 64 16 = 0)) &&
  (decide (kind ≠ 3) || (decide (octet p 104 < 4) && decide (beAt p 105 3 = 0)))

/-- R244 step 6: the part's seconds lie within not-before and not-after. -/
def inTime (s : State) (a : Attr) : Bool :=
  (a.nbf == 0 && a.naf == 0) || (s.time.isSet && (a.nbf == 0 || decide (a.nbf ≤ s.time.secs)) && (a.naf == 0 || decide (s.time.secs ≤ a.naf)))

/-- R244 step 7: the anti-rollback counter named, if any, lets the generation through (R424). -/
def rollbackOk (s : State) (p : Octets) : Bool :=
  let n := octet p 40
  n == 0xFF || (decide (n < 64) && !counterStuck s n && decide ((s.rest.monotonic.get n 0).toNat ≤ beAt p 44 4))

/-- R244 step 8: what R259 says of the record an SA blob builds; its rollover time is a time (R12). -/
def blobSaOk (p : Octets) : Bool :=
  let rx := bitAt (octet p 104) 0
  let trib := bitAt (octet p 104) 1
  let suite := octet p 26
  let n := beAt p 96 8
  decide (beAt p 118 4 ≤ 999999999) && (!trib || decide (2 ≤ suite)) && (rx || decide (n ≠ 0)) && bitAt (octet p 25) (bit rx) &&
  (decide (2 ≤ suite) || decide (n ≤ if rx then 0x100000000 else 0xFFFFFFFF))

/-- Steps 3 to 8 of R244, with the key of the wrapping KEK: a reason, or 0 and the plaintext. -/
def blobInside (blob key : Octets) (target : Nat) (k : KeyRun) : Nat × Octets × KeyRun :=
  let kind := octet blob 3
  match aesKwpOpen key (blob.drop 16) with
  | none => (4, [], k.both (keyCount 1))
  | some p =>
    let a := Attr.ofPlain p
    if p.length ≠ (if kind = 3 then 124 else 80) then (4, [], k.both (keyCount 1))
    else if p.take 16 ≠ blob.take 16 then (5, [], k)
    else if !plainClean p kind then (6, [], k)
    else if attrReason k.s target a (kind == 3) ≠ 0 then (attrReason k.s target a (kind == 3), [], k)
    else if !inTime k.s a then (7, [], k)
    else if !rollbackOk k.s p then (8, [], k)
    else if kind == 3 && !blobSaOk p then (6, [], k)
    else (0, p, k)

/-- Check a blob for a target by R244; `chain` where the kind must be an SA record. An expired KEK fails with 0x07 (R274). -/
def blobCheck (blob : Octets) (sa : Bool) (target : Nat) (k : KeyRun) : Nat × Octets × KeyRun :=
  if !blobOuter blob then (1, [], k)
  else if octet blob 3 ≠ (if sa then 3 else if isKek target then 2 else 1) then (0x10, [], k)
  else match kekFind k.s (beAt blob 4 8) with
    | none => (2, [], k)
    | some n =>
      let x := k.s.slot (0x8000 + n)
      if x.expired then (7, [], k)
      else if !bitAt x.a.usage 2 then (3, [], k)
      else match k.read (0x8000 + n) with
        | (none, k) => (2, [], k)
        | (some c, k) => blobInside blob c.key target k

/-! ## Stores (R262, R263, R365) -/

/-- Read a store entry that is in use; none for an empty or poisoned one, or one beyond the store. -/
def KeyRun.entry (sa : Bool) (i : Nat) (k : KeyRun) : Option Octets × KeyRun :=
  let used (s : State) : Bool := (if sa then s.keys.saUsed else s.keys.blobUsed).contains i && mpuReady s
  if !used k.s then (none, k)
  else
    let r := storeRead sa i k.s
    let k := { k with s := r.2, b := if used k.b then (storeRead sa i k.b).2 else k.b }
    (r.1.map (fun o => o.take (if sa then 152 else 104)), k)

/-- The SA record that a loaded blob builds (R263). -/
def saOfPlain (p : Octets) (slot index : Nat) : Sa :=
  let a := Attr.ofPlain p
  { valid := true, enabled := true, rx := bitAt (octet p 104) 0, trib := bitAt (octet p 104) 1, suite := a.suite, slot := slot, ssci := beAt p 80 4, salt := slice p 84 12,
    n := beAt p 96 8, l := beAt p 96 8, keyId := a.keyId, store := index, succ := beAt p 108 4,
    rollAt := (beAt p 112 6 * 10 ^ 9 + beAt p 118 4) * 65536 + beAt p 122 2 }

/-- An SA index is neither Valid nor Retiring. -/
def saUnused (s : State) (i : Nat) : Bool := let a := s.sa i; !a.valid && !a.retiring

/-- Put a loaded SA at an index. -/
def putSa (i : Nat) (a : Sa) (s : State) : State := shadowFix 5 (saItem i) (updSa i (fun _ => a) s)

/-! ## Commands (R249) -/

/-- Load a blob into a slot. -/
def loadBlob (target : Nat) (blob : Octets) (k : KeyRun) : Nat × KeyRun :=
  match blobCheck blob false target k with
  | (0, p, k) => let a := Attr.ofPlain p; k.fill target a (slice p 48 a.keyLen)
  | (r, _, k) => (r, k)

/-- 0x01. -/
def cmdBlob (r : Octets) (k : KeyRun) : Nat × KeyRun :=
  loadBlob (targetAt r 4) (slice r 8 104) k

/-- 0x02. -/
def cmdBlobStore (r : Octets) (k : KeyRun) : Nat × KeyRun :=
  match k.entry false (leAt r 8 4) with
  | (some b, k) => loadBlob (targetAt r 4) b k
  | (none, k) => (0x0C, k)

/-- A KEK named by its slot number, for an operation whose usage bits are `need`: reason, or its copy. -/
def KeyRun.kekNamed (n need : Nat) (k : KeyRun) : Nat × Copy × KeyRun :=
  let x := k.s.slot (0x8000 + n)
  if x.state != .filled then (0x0A, {}, k)
  else if x.expired then (7, {}, k)
  else if x.a.usage &&& need ≠ need then (3, {}, k)
  else match k.read (0x8000 + n) with
    | (some c, k) => (0, c, k)
    | (none, k) => (0x0A, {}, k)

/-- 0x03. -/
def cmdDerive (r : Octets) (k : KeyRun) : Nat × KeyRun :=
  let target := targetAt r 4
  let src := leAt r 6 2
  let cw := octet r 9
  let lw := octet r 10
  let ll := octet r 11
  let cl := leAt r 12 2
  let a := Attr.ofBlock (slice r 16 24)
  if 255 < src ∨ 1 < octet r 8 ∨ (cw ≠ 8 ∧ cw ≠ 32) ∨ (lw ≠ 16 ∧ lw ≠ 32) ∨ ll = 0 ∨ 64 < ll ∨ 256 < cl ∨ beNat (r.drop (40 + ll + cl)) ≠ 0 then (1, k)
  else match k.kekNamed src 0x08 with
    | (0, c, k) =>
      if attrReason k.s target a false ≠ 0 then (attrReason k.s target a false, k)
      else
        let prf : Octets → Octets := if octet r 8 = 0 then hmac384 c.key else cmac c.key
        k.fill target a (kdfWith prf (if octet r 8 = 0 then 48 else 16) (cw / 8) (lw / 8) (slice r 40 ll) (slice r (40 + ll) cl) (8 * a.keyLen))
    | (e, _, k) => (e, k)

/-- 0x04. -/
def cmdGenerate (r : Octets) (k : KeyRun) : Nat × KeyRun :=
  let target := targetAt r 4
  let a := Attr.ofBlock (slice r 8 24)
  if attrReason k.s target a false ≠ 0 then (attrReason k.s target a false, k)
  else if (k.s.slot target).state != .free then (9, k)
  else match k.draw a.keyLen with
    | (some o, k) => k.fill target a o
    | (none, k) => (0x0E, k)

/-- The blob of an export (R249): not-before 0, no counter, generation 0. -/
def exportBlob (c w : Copy) (kek : Bool) : Octets :=
  let head := [0x4C, 0x42, 0x01] ++ oct (if kek then 2 else 1) ++ beBytes 8 w.keyId ++ beBytes 2 88 ++ zeros 2
  let p := head ++ beBytes 8 c.keyId ++ oct c.key.length ++ oct c.usage ++ oct c.suite ++ oct c.flags ++ zeros 6 ++ beBytes 6 c.notAfter ++ oct 0xFF ++ zeros 3 ++ zeros 4 ++ padTo 32 c.key
  head ++ aesKwp w.key p

/-- 0x05. -/
def cmdExport (r : Octets) (k : KeyRun) : Nat × KeyRun :=
  let src := targetAt r 4
  let w := leAt r 6 2
  let bare := octet r 8 == 1
  let x := k.s.slot src
  if 255 < w ∨ 1 < octet r 8 then (1, k)
  else if x.state != .filled ∨ !bitAt x.a.flags 0 ∨ (bare && isKek src) then (0x0A, k)
  else match k.kekNamed w (if bare then 0x50 else 0x10) with
    | (0, wc, k) =>
      if isKek src && x.expired then (7, k)
      else match k.read src with
        | (none, k) => (0x0A, k)
        | (some c, k) =>
          let q := k.chucks
          if q.1 ≠ 0 then q
          else
            let o := if bare then aesKw wc.key c.key else exportBlob c wc (isKek src)
            (0, { q.2 with exports := q.2.exports ++ leBytes 2 q.2.n ++ leBytes 2 o.length ++ o, exported := true })
    | (e, _, k) => (e, k)

/-- 0x06. -/
def cmdImport (r : Octets) (k : KeyRun) : Nat × KeyRun :=
  let target := leAt r 4 2
  let n := leAt r 6 2
  let a := Attr.ofBlock (slice r 8 24)
  let w := a.keyLen + 8
  if isKek target ∨ 255 < n then (1, k)
  else if attrReason k.s target a false ≠ 0 then (attrReason k.s target a false, k)
  else if beNat (slice r (32 + w) (40 - w)) ≠ 0 then (1, k)
  else match k.kekNamed n 0x44 with
    | (0, c, k) => match aesKwOpen c.key (slice r 32 w) with
      | some key => k.fill target a key
      | none => (4, k.both (keyCount 1))
    | (e, _, k) => (e, k)

/-- 0x07: carried out last (R251). -/
def cmdDelete (r : Octets) (k : KeyRun) : Nat × KeyRun :=
  (0, { k with deletes := k.deletes ++ [(k.n, targetAt r 4)] })

/-- 0x08 (R263). -/
def cmdLoadSa (r : Octets) (k : KeyRun) : Nat × KeyRun :=
  let index := leAt r 4 4
  let i := leAt r 8 2
  let slot := leAt r 10 2
  if 32767 < i ∨ 32767 < slot then (1, k)
  else match k.entry true index with
    | (none, k) => (0x0C, k)
    | (some b, k) => match blobCheck b true slot k with
      | (0, p, k) =>
        if !saUnused k.s i then (0x0D, k)
        else
          let a := Attr.ofPlain p
          match k.fill slot a (slice p 48 a.keyLen) with
          | (0, k) => (0, { k with s := putSa i (saOfPlain p slot index) k.s, loaded := i :: k.loaded })
          | r => r
      | (e, _, k) => (e, k)

/-- The length a record of an opcode has; 0 for a reserved opcode. -/
def keyRecordLen (r : Octets) : Nat :=
  match octet r 0 with
  | 1 => 112
  | 2 => 12
  | 3 => (40 + octet r 11 + leAt r 12 2 + 3) / 4 * 4
  | 4 => 32
  | 5 => 12
  | 6 => 72
  | 7 => 8
  | 8 => 12
  | _ => 0

/-- One record whose length is right. -/
def keyCommand (r : Octets) (k : KeyRun) : Nat × KeyRun :=
  match octet r 0 with
  | 1 => cmdBlob r k
  | 2 => cmdBlobStore r k
  | 3 => cmdDerive r k
  | 4 => cmdGenerate r k
  | 5 => cmdExport r k
  | 6 => cmdImport r k
  | 7 => cmdDelete r k
  | _ => cmdLoadSa r k

/-- The records in order; the first failure ends the run (R251). -/
def keyCommands : Nat → Octets → KeyRun → KeyRun
  | 0, _, k => k
  | fuel + 1, b, k =>
    if b.isEmpty then k
    else
      let n := leAt b 2 2
      if n < 8 ∨ b.length < n ∨ keyRecordLen (padTo (max n 16) (b.take n)) ≠ n then { k with fail := some (k.n, 1) }
      else match keyCommand (b.take n) k with
        | (0, k) => keyCommands fuel (b.drop n) { k with n := k.n + 1 }
        | (e, k) => { k with fail := some (k.n, e) }

/-- Deletes, after every check (R251, R257): a target not Filled, or already deleted, fails with 0x0A. -/
def deleteFail (s : State) : List Nat → List (Nat × Nat) → Option (Nat × Nat)
  | _, [] => none
  | seen, (n, t) :: l => if (s.slot t).state != .filled ∨ seen.contains t then some (n, 0x0A) else deleteFail s (t :: seen) l

/-- Some delete names a slot that a Valid SA uses (R257). -/
def deleteDangles (s : State) (l : List (Nat × Nat)) : Bool := l.any (fun q => !isKek q.2 && s.keys.sa.any (fun a => a.2.valid && !a.2.retiring && a.2.slot == q.2))

/-! ## Persistent KEKs (R241) -/

/-- A slot copy from the octets R241 wraps (log 36). -/
def Copy.ofOctets (b : Octets) : Copy :=
  { key := slice b 18 (octet b 0), usage := octet b 1, suite := octet b 2, flags := octet b 3, keyId := beAt b 4 8, notAfter := beAt b 12 6 }

/-- Keep the KEK of a slot in the MRAM area where it carries the persistent flag and an SRK is held. -/
def kekKeep (target : Nat) (s : State) : State :=
  let c := (s.slot target).a
  let n := target % 0x8000
  match s.keys.srk with
  | some k => if isKek target && decide (n < 64) && bitAt c.flags 1 then
      { s with rest := { s.rest with kekArea := s.rest.kekArea.put n (aesKwp (beBytes 32 k.toNat) c.octets) } } else s
  | none => s

/-- A persistent KEK is lost (R241). -/
def kekLost (n : Nat) (s : State) : State :=
  keyEvent 8 (post { type := 0x3407, source := 0xFFFF, a := n } { s with rest := { s.rest with kekArea := s.rest.kekArea.drop n } })

/-- Restore one KEK of the area. -/
def kekRestore (n : Nat) (w : Octets) (s : State) : State :=
  match s.keys.srk with
  | none => s
  | some k => match aesKwpOpen (beBytes 32 k.toNat) w with
    | none => kekLost n s
    | some b =>
      let c := Copy.ofOctets b
      let ok := usageOk true c.usage && (kekFind s c.keyId).isNone && (s.slot (0x8000 + n)).state == .free
      if ok then updSlot (0x8000 + n) (fun _ => filledSlot s (0x8000 + n) c) s else kekLost n s

/-- Restore the KEKs at start-up. -/
def keksRestore (s : State) : State := s.rest.kekArea.foldl (fun s q => kekRestore q.1 q.2 s) s

/-- Erase the area where no BBK was held (R234). -/
def kekAreaLost (s : State) : State :=
  let s' := { s with rest := { s.rest with kekArea := [] } }
  if s.rest.kekArea.isEmpty then s' else keyEvent 8 (post { type := 0x3407, source := 0xFFFF, a := 0xFFFFFFFF } s')

/-! ## What a commit's key commands leave -/

/-- Carry out the deletes. -/
def deletesApply (l : List (Nat × Nat)) (s : State) : State :=
  l.foldl (fun s q =>
    let s := slotRelease q.2 s
    if isKek q.2 then { s with rest := { s.rest with kekArea := s.rest.kekArea.drop (q.2 % 0x8000) } } else s) s

/-- The export results that OD 0x3411.01 holds: whole results in record order, as far as they fit its 64 KiB (R279; log 83). -/
def exportsKept : Nat → Nat → Octets → Octets
  | 0, _, _ => []
  | fuel + 1, room, b =>
    let n := 4 + leAt b 2 2
    if b.isEmpty ∨ room < n then [] else b.take n ++ exportsKept fuel (room - n) (b.drop n)

/-- A run that applies: the counter, the export results, the persistent KEKs, the deletes. -/
def keysApply (k : KeyRun) (s : State) : State :=
  let s := { s with keys := { s.keys with counters := s.keys.counters.bump 0 k.n } }
  let s := if k.exported then { s with keys := { s.keys with exports := exportsKept k.exports.length 65536 k.exports } } else s
  deletesApply k.deletes (k.fills.foldl (fun s t => kekKeep t s) s)

/-- A run that fails: the record and its reason (R251). -/
def keysRefused (n reason : Nat) (s : State) : State := { s with keys := { s.keys with failRec := n, failReason := reason } }

/-- Store writes of a commit, one store (R262): none where a record is ill-formed. -/
def storeRecords (sa : Bool) (b : Octets) : Option (List (Nat × Octets)) :=
  let n := if sa then 156 else 108
  let l := (recordsOf n b).map (fun r => (leAt r 0 4, r.drop 4))
  let good (q : Nat × Octets) : Bool :=
    decide (q.1 < if sa then 1048576 else 65536) && (decide (beAt q.2 0 2 = 0) || (blobOuter q.2 && (octet q.2 3 == 3) == sa))
  if b.length % n = 0 ∧ l.all good then some l else none

/-- Carry out store writes. -/
def storeApply (sa : Bool) (l : List (Nat × Octets)) (s : State) : State :=
  l.foldl (fun s q =>
    let used := (if sa then s.keys.saUsed else s.keys.blobUsed).filter (· ≠ q.1)
    let empty := beAt q.2 0 2 = 0
    let used := if empty then used else q.1 :: used
    let s := { s with keys := if sa then { s.keys with saUsed := used } else { s.keys with blobUsed := used } }
    storeWrite sa q.1 (if empty then [] else q.2) s) s

/-! ## Ownership (R235, R236) -/

/-- Log an ownership change (R417). -/
def logOwner (op seq : Nat) (s : State) : State := logEntry 0x0060 0xFF (oct op ++ zeros 3 ++ beBytes 4 seq) s

/-- A point is on the curve in SEC 1 uncompressed form. -/
def pointOk (b : Octets) : Bool := (ptOf b).isSome

/-- The first check of R236 that an ownership command fails, as its abort code. -/
def ownerCheck (s : State) (pcie : Bool) (c : Octets) : Option Nat :=
  let op := octet c 0
  let key := slice c 8 97
  if op = 0 ∨ 3 < op ∨ beAt c 1 3 ≠ 0 ∨ (op = 1 ∧ beNat (c.drop 105) ≠ 0) ∨ (op = 3 ∧ beNat key ≠ 0) then some abRange
  else if (op = 1 && (s.owned || !pcie)) || (op != 1 && !s.owned) then some abState
  else if op ≠ 3 ∧ !pointOk key then some abRange
  else if op = 1 ∧ leAt c 4 4 ≠ 0 then some abRange
  else if op ≠ 1 ∧ (!ecdsaVerify s.rest.owner.key (c.take 105) (c.drop 105) ∨ leAt c 4 4 ≠ s.rest.owner.seq.toNat) then some abSignature
  else none

/-- Draw the BBK at once, or ask for it. -/
def newBbk (s : State) : State :=
  match rngDraw 32 s with
  | some (o, s) => rngGive .bbk o s
  | none => rngAsk .bbk 2 s

/-- The owner record with its MAC. -/
def ownerRecord (key : Octets) (seq : Nat) : Owner :=
  { owned := true, key := key, seq := BitVec.ofNat 32 seq, mac := cmac ownershipKey (key ++ beBytes 4 (seq % 2 ^ 32)) }

/-- Carry out an ownership command. -/
def ownerApply (c : Octets) (s : State) : State :=
  let op := octet c 0
  let key := slice c 8 97
  let seq := s.rest.owner.seq.toNat
  match op with
  | 1 => logOwner 1 0 (newBbk { s with rest := { s.rest with owner := ownerRecord key 0, kekArea := [] } })
  | 2 =>
    let s := zeroizeWhole (logZeroize 4 0xFF s)
    let s := { s with rest := { s.rest with owner := ownerRecord key (seq + 1) } }
    logOwner 2 ((seq + 1) % 2 ^ 32) (newBbk s)
  | _ =>
    let s := zeroizeWhole (logZeroize 4 0xFF s)
    logOwner 3 0 { s with rest := { s.rest with owner := {} } }

/-! ## Enrollment (R237 to R240) -/

/-- Open a session; where the generator cannot serve now, the session opens when it can. -/
def enrollOpen (nk : Octets) (s : State) : State :=
  let s := { s with keys := { s.keys with enroll := none, events := s.keys.events &&& ~~~(0x0080 : W16) } }
  match rngDraw 84 s with
  | some (o, s) => enrollOffer nk o s
  | none => rngAsk (.enroll nk) 2 s

/-- Close the session and zeroize its ephemeral key. -/
def enrollClose (s : State) : State := { s with keys := { s.keys with enroll := none, events := s.keys.events &&& ~~~(0x0080 : W16) } }

/-- How a request ends: an abort code with the reason of a key-command failure, or the filled slot's values. Either way the session
closes (R240). -/
inductive EnrollResult where
  /-- Refused; the reason where the code is that of a key command. -/
  | refused (code reason : Nat)
  | installs (target : Nat) (a : Attr) (key confirm : Octets)
deriving DecidableEq, Repr

/-- Check a request and derive its KEK (R239, R240). -/
def enrollRun (s : State) (r : Octets) : EnrollResult :=
  let qk := slice r 4 97
  let t := leAt r 101 2
  let attr := slice r 103 24
  let a := Attr.ofBlock attr
  if !s.owned then .refused abSignature 0
  else match s.keys.enroll with
    | none => .refused abKey 0x11
    | some e =>
      if leAt r 0 4 ≠ e.number ∨ slice r 127 32 ≠ e.np then .refused abKey 0x11
      else if !ecdsaVerify s.rest.owner.key (r.take 159) (r.drop 159) then .refused abSignature 0
      else match ptOf qk with
        | none => .refused abKey 1
        | some q =>
          if 255 < t then .refused abKey 1
          else if (s.slot (0x8000 + t)).state != .free then .refused abKey 9
          else if attrReason s (0x8000 + t) a false ≠ 0 then .refused abKey (attrReason s (0x8000 + t) a false)
          else
            let z := match ptMul e.dp (some q) with | some (x, _) => beBytes 48 x | none => zeros 48
            let ctx := beBytes 4 e.number ++ e.qp ++ qk ++ e.np ++ e.nk ++ beBytes 2 t ++ attr
            let key := kdf z "LLX ENROLL" ctx (8 * a.keyLen)
            .installs (0x8000 + t) a key (cmac key (ascii "LLX CONFIRM" ++ e.np ++ e.nk))

/-! ## Commands -/

/-- The enrollment session closes 60 s after its offer (R240). -/
def execEnrollmentSessionTimeout (s : State) : Out :=
  .next (match s.keys.enroll with
    | some e => enrollClose (waitCycle (e.at_ + cyclesUs 60000000) s)
    | none => s)

/-- The background scrub of the slots (R254): the copies that fail. -/
def execSlotScrub (bad : List (BitVec 16 × Bool)) (s : State) : Out :=
  .next (bad.foldl (fun s q => copyFails q.1.toNat q.2 s) s)

/-- The last reference of a Releasing slot goes (R255, R257). -/
def execSlotReferenceReleased (target : BitVec 16) (s : State) : Out := .next (slotFree target.toNat s)

end Sys2Proof.Machine
end

