-- ==== Sys2Proof/Machine/Rollover.lean ====
section
/-! DEFINITION. The SA table and the rollover tables as a commit writes them (R258 to R261, R265, R270, R526), the end of a guard
window (R161, R266, R268), and chains (R269). -/
namespace Sys2Proof.Machine

/-! ## Records a commit writes (R126, R526) -/

/-- A record that a commit writes: its index, its octets and the entry that carries it. -/
structure Written where
  idx : Nat
  data : Octets
  /-- Entry key. -/
  key : Nat
deriving DecidableEq, Repr

/-- Records of a staged image that differ from the records as applied. -/
def imageWrites (idx sub first width : Nat) (same : Nat → Octets → Bool) (st : Tab Octets) : List Written :=
  match st.find (odKey idx sub) with
  | none => []
  | some b => ((recordsOf width b).zipIdx.filter (fun q => !same (first + q.2) q.1)).map (fun q => { idx := first + q.2, data := q.1, key := odKey idx sub })

/-- Records of a staged delta entry: index, then record. -/
def deltaWrites (idx sub width : Nat) (st : Tab Octets) : List Written :=
  match st.find (odKey idx sub) with
  | none => []
  | some b => (recordsOf (2 + width) b).map (fun r => { idx := leAt r 0 2, data := r.drop 2, key := odKey idx sub })

/-- A staged delta entry is a whole number of records, all with indices below `limit`. -/
def deltaOk (idx sub width limit : Nat) (st : Tab Octets) : Bool :=
  match st.find (odKey idx sub) with
  | none => true
  | some b => b.length % (2 + width) == 0 && (recordsOf (2 + width) b).all (fun r => decide (leAt r 0 2 < limit))

/-- The last write of each index, in order. -/
def lastWrites (l : List Written) : List Written := l.foldl (fun a w => a.filter (fun v => v.idx ≠ w.idx) ++ [w]) []

/-! ## SA table -/

/-- SA records that a commit writes. -/
def saWrites (s0 : State) (st : Tab Octets) : List Written :=
  let same (i : Nat) (b : Octets) : Bool := (s0.keys.sa.get i {}).same b
  imageWrites 0x3400 1 0 64 same st ++ imageWrites 0x3400 2 16384 64 same st ++ deltaWrites 0x3401 1 64 st

/-- Write SA records into the state a commit would leave. -/
def saWriteAll (l : List Written) (s : State) : State :=
  l.foldl (fun s w =>
    let slot := leAt w.data 2 2
    putSa w.idx ((s.keys.sa.get w.idx {}).after w.data (s.slot slot).a.keyId) s) s

/-- Every SA index that a valid SC names, with the SC and the AN. -/
def scNames (s : State) : List (Nat × Nat × Nat) :=
  (s.keys.sc.map (fun q => if q.2.valid then ((List.range 4).map (fun an => (q.2.saAt an, q.1, an))).filter (fun t => t.1 ≠ 0xFFFF) else [])).flatten

/-- Every SA index that a valid tributary names, with the tributary and the place (direction and KI). -/
def tribNames (s : State) : List (Nat × Nat × Nat) :=
  (s.otn.tribs.map (fun q => if q.2.valid then ((List.range 8).map (fun j => (q.2.sas.get j 0xFFFF, q.1, j))).filter (fun t => t.1 ≠ 0xFFFF) else [])).flatten

/-- An SA is named by an SC or a tributary. -/
def saNamed (s : State) (i : Nat) : Bool := (scNames s ++ tribNames s).any (fun t => t.1 == i)

/-- SA `i` is the transmit AN of an SC, or the transmit KI of a tributary. -/
def saTransmits (s : State) (i : Nat) : Bool :=
  s.keys.sc.any (fun q => q.2.valid && !q.2.rx && q.2.saAt q.2.txAn == i) || s.otn.tribs.any (fun q => q.2.valid && q.2.saAt .s2l q.2.txKi == i)

/-- The fields of an SA are in range. -/
def saFieldsOk (a : Sa) : Bool :=
  decide (a.suite ≤ 3) && (!a.trib || decide (2 ≤ a.suite)) && (a.rx || decide (a.n ≠ 0)) && (!a.rx || decide (a.l ≤ a.n)) &&
  (decide (2 ≤ a.suite) || (if a.rx then decide (a.n ≤ 0x100000000) && decide (a.l ≤ 0x100000000) else decide (a.n ≤ 0xFFFFFFFF)))

/-- A slot suits an SA: usage for its direction, key length and suite. -/
def saSlotOk (a : Sa) (c : Copy) : Bool := bitAt c.usage (bit a.rx) && c.key.length == suiteKey a.suite && (c.suite == a.suite || c.suite == 0xFF)

/-- The first rule of R259 that SA `i` breaks in the state a commit would leave, `s0` being the state before it. -/
def saRule (s0 s : State) (i : Nat) : Option Nat :=
  let a := s.sa i
  let old := s0.keys.sa.get i {}
  let x := s.slot a.slot
  if !a.live then none
  else if !saFieldsOk a then some abRange
  else if x.state != .filled then some abDangling
  else if !saSlotOk a x.a then some abRange
  else if saTransmits s i && !a.enabled then some abDangling
  else if old.live && !old.sameKey a && saNamed s i then some abState
  else if old.live && (decide (a.n < old.n) || (a.rx && decide (a.l < old.l))) then some abState
  else none

/-- The entry at which a failure of SA `i` is reported. -/
def saEntry (w : List Written) (i : Nat) : Nat :=
  if w.any (fun v => v.idx == i && v.key == odKey 0x3401 1) then odKey 0x3401 1 else odKey 0x3400 (1 + i / 16384)

/-- SAs that break a Duplicate identifier row of R259: two Valid SAs of one slot, or one SA named twice. -/
def saDuplicates (s : State) : List Nat :=
  let live := s.keys.sa.filter (fun q => q.2.live)
  let slots := (live.filter (fun q => live.any (fun r => r.1 ≠ q.1 && r.2.slot == q.2.slot))).map Prod.fst
  let names := (scNames s ++ tribNames s).map Prod.fst
  slots ++ names.filter (fun i => decide (2 ≤ names.count i))

/-- Failures of the SA table: `w` the SA records written, `loaded` the SAs key commands loaded, `named` the SAs that records the
commit wrote name. -/
def saFailures (s0 s : State) (w : List Written) (loaded named : List Nat) (st : Tab Octets) : List (Nat × Nat) :=
  let bad := if deltaOk 0x3401 1 64 32768 st then [] else [(odKey 0x3401 1, abRange)]
  let frozen := (w.filter (fun v => (s0.keys.sa.get v.idx {}).retiring)).map (fun v => (v.key, abState))
  let checked := (w.map Written.idx ++ loaded ++ named).dedup
  let rules := checked.filterMap (fun i => (saRule s0 s i).map (fun c => (saEntry w i, c)))
  bad ++ rules ++ (saDuplicates s).dedup.map (fun i => (saEntry w i, abDuplicate)) ++ frozen

/-! ## Rollover tables -/

/-- Rollover records of SCs that a commit writes. -/
def rollScWrites (s0 : State) (st : Tab Octets) : List Written :=
  imageWrites 0x3430 1 0 32 (fun i b => (s0.keys.rollSc.get i {}).same b) st ++ deltaWrites 0x3430 2 32 st

/-- Rollover records of tributaries that a commit writes. -/
def rollTribWrites (s0 : State) (st : Tab Octets) : List Written :=
  imageWrites 0x3431 1 0 32 (fun i b => (s0.keys.rollTrib.get i {}).same b) st ++ deltaWrites 0x3431 2 32 st

/-- The user of a record, by table. -/
def rollUser (trib : Bool) (i : Nat) : RollUser := if trib then .tributary (Fin.ofNat 256 i) else .sc (Fin.ofNat 16384 i)

/-- Write rollover records. -/
def rollWriteAll (trib : Bool) (l : List Written) (s : State) : State :=
  l.foldl (fun s w => updRoll (rollUser trib w.idx) (fun r => r.after w.data) s) s

/-- The user of a record is valid, and whether it transmits with its present AN or KI. -/
def rollTransmits (s : State) : RollUser → Bool × Option Nat
  | .sc i => let c := s.sc i; (c.valid, if c.rx then none else some c.txAn)
  | .tributary t => let r := s.tr t; (r.valid, if r.saAt .s2l r.txKi = 0xFFFF then none else some r.txKi)

/-- The rules of R270 that a written record breaks; `at_` is the apply instant. -/
def rollRule (s0 s : State) (trib : Bool) (at_ : Nat) (w : Written) : Option Nat :=
  let u := rollUser trib w.idx
  let r := Roll.written w.data {}
  let old := s0.roll u
  let q := rollTransmits s u
  if !time96Ok (slice w.data 8 12) ∨ (r.guardUs ≠ 0 ∧ (r.guardUs < 200 ∨ 10000000 < r.guardUs)) then some abRange
  else if r.armed && decide (r.t < at_ + 65536000000) then some abRange
  else if q.1 && q.2.any (fun an => r.incoming != (an + 1) % 4) then some abRange
  else if r.armed && !q.1 then some abDangling
  else if old.state = 2 ∨ old.state = 3 then some abState
  else none

/-- Users whose transmit AN or KI a commit changes while their record is Armed, in Guard or Loading and is not written. -/
def rollChanged (s0 s : State) (ws wt : List Written) : List RollUser :=
  let busy (r : Roll) : Bool := decide (1 ≤ r.state) && decide (r.state ≤ 3)
  let sc := (s0.keys.rollSc.filter (fun q => busy q.2 && !(s0.sc q.1).rx && (s0.sc q.1).txAn != (s.sc q.1).txAn && !ws.any (fun w => w.idx == q.1))).map (fun q => rollUser false q.1)
  let tr := (s0.keys.rollTrib.filter (fun q => busy q.2 && (s0.tr q.1).txKi != (s.tr q.1).txKi && !wt.any (fun w => w.idx == q.1))).map (fun q => rollUser true q.1)
  sc ++ tr

/-- Failures of the rollover tables. -/
def rollFailures (s0 s : State) (at_ : Nat) (st : Tab Octets) : List (Nat × Nat) :=
  let one (trib : Bool) (l : List Written) : List (Nat × Nat) := l.filterMap (fun w => (rollRule s0 s trib at_ w).map (fun c => (w.key, c)))
  (if deltaOk 0x3430 2 32 16384 st then [] else [(odKey 0x3430 2, abRange)]) ++ (if deltaOk 0x3431 2 32 256 st then [] else [(odKey 0x3431 2, abRange)]) ++
  one false (lastWrites (rollScWrites s0 st)) ++ one true (lastWrites (rollTribWrites s0 st))

/-! ## The end of a guard window (R161, R268) -/

/-- The last block under the outgoing KI has been committed, or the record does not transmit. -/
def rollDrained (s : State) : RollUser → Bool
  | .sc _ => true
  | .tributary t =>
    let r := s.roll (.tributary t)
    let x := s.tr t
    decide (r.outgoing = 0xFFFF) || (x.changes.isEmpty && x.blkKi == r.incoming && !saBusy s r.outgoing)

/-- The guard of a receive tributary waits for its extension. -/
def rollWaits (s : State) : RollUser → Bool
  | .sc _ => false
  | .tributary t => rollStretch s t && !(s.roll (.tributary t)).extended

/-- Take the outgoing SAs of a record from their places and retire them. -/
def retireOutgoing (u : RollUser) (s : State) : State :=
  let r := s.roll u
  let s := match u with
    | .sc i => updSc i (fun c => (List.range 4).foldl (fun c an => if c.saAt an = r.outgoing then c.setSa an 0xFFFF else c) c) s
    | .tributary t => updTr t (fun x => { x with sas := x.sas.mapAll (fun _ i => if i = r.outgoing ∨ i = r.outgoingRx then 0xFFFF else i) }) s
  ([r.outgoing, r.outgoingRx].filter (· ≠ 0xFFFF)).foldl (fun s i => saRetire i s) s

/-- The guard window of a record ends (R266). -/
def guardEnds (u : RollUser) (s : State) : State :=
  let r := s.roll u
  if r.state ≠ 2 ∨ rollWaits s u ∨ !rollDrained s u then s
  else
    let s := waitCycle r.guardEnd s
    updRoll u (fun r => { r with state := if r.chain then 3 else 0 }) (retireOutgoing u s)

/-! ## Chains (R269) -/

/-- The end of a record's guard window as a time, in 2^-16 ns. -/
def guardEndTime (s : State) (r : Roll) : Nat := s.time.now - (s.time.cycles - r.guardEnd) * tickAmount s.time.y / 2 ^ 32

/-- One load of a chain: the incoming SA, the outgoing SA (0xFFFF for none), and what the successor must be. -/
structure ChainPart where
  incoming : Nat
  outgoing : Nat
  rx : Bool
  /-- Suite of the SC; none for a tributary. -/
  suite : Option Nat
  /-- Direction of a tributary. -/
  dir : Dir
deriving DecidableEq, Repr

/-- The loads of a record: one of an SC, one for each direction of a tributary (log 22). -/
def chainParts (s : State) (u : RollUser) : List ChainPart :=
  let r := s.roll u
  match u with
  | .sc i => let c := s.sc i; [{ incoming := c.saAt r.incoming, outgoing := r.outgoing, rx := c.rx, suite := some c.suite, dir := if c.rx then .l2s else .s2l }]
  | .tributary t =>
    let x := s.tr t
    ([{ incoming := x.saAt .s2l r.incoming, outgoing := r.outgoing, rx := false, suite := none, dir := .s2l },
      { incoming := x.saAt .l2s r.incoming, outgoing := r.outgoingRx, rx := true, suite := none, dir := .l2s }] : List ChainPart).filter (fun p => p.incoming ≠ 0xFFFF)

/-- Put a loaded SA at the AN or KI after the incoming one. -/
def chainPlace (u : RollUser) (d : Dir) (i : Nat) (s : State) : State :=
  let k := (s.roll u).incoming + 1
  match u with
  | .sc n => updSc n (fun c => c.setSa k i) s
  | .tributary t => updTr t (fun x => x.setSa d k i) s

/-- Load one successor: a reason, or 0 and its rollover time. -/
def chainOne (u : RollUser) (p : ChainPart) (k : KeyRun) : Nat × Nat × KeyRun :=
  let a := k.s.sa p.incoming
  match (if a.succ = 0xFFFFFFFF then (none, k) else k.entry true a.succ) with
  | (none, k) => (0x0C, 0, k)
  | (some b, k) =>
    let base := k.s.odNat 0x3432 2
    match firstFrom (fun n => (k.s.slot n).state == .free) (32768 - base) base with
    | none => (9, 0, k)
    | some slot =>
      match (if p.outgoing = 0xFFFF then firstFrom (saUnused k.s) 32768 0 else some p.outgoing) with
      | none => (0x0D, 0, k)
      | some i => match blobCheck b true slot k with
        | (0, q, k) =>
          let w := saOfPlain q slot a.succ
          if w.rx != p.rx || w.trib != (p.suite.isNone) || p.suite.any (fun n => n != w.suite) then (6, 0, k)
          else if w.rollAt ≠ 0 ∧ w.rollAt < guardEndTime k.s (k.s.roll u) + 655360000000 then (6, 0, k)
          else if k.s.keys.sa.any (fun z => z.2.live && z.2.slot == slot) then (6, 0, k)
          else match k.fill slot (Attr.ofPlain q) (slice q 48 (Attr.ofPlain q).keyLen) with
            | (0, k) => (0, w.rollAt, { k with s := chainPlace u p.dir i (putSa i w k.s) })
            | (e, k) => (e, 0, k)
        | (e, _, k) => (e, 0, k)

/-- All loads of a record; the first failure ends them. The rollover time is the first load's. -/
def chainAll (u : RollUser) : List ChainPart → KeyRun → Nat × Nat × KeyRun
  | [], k => (0, 0, k)
  | p :: l, k => match chainOne u p k with
    | (0, t, k) => match chainAll u l k with
      | (0, _, k) => (0, t, k)
      | r => r
    | r => r

/-- A chain fails (R266). -/
def chainFailed (u : RollUser) (reason : Nat) (s : State) : State :=
  keyEvent 5 (keyCount 6 (post { type := 0x3405, source := rollNum u, a := reason, c := rollKind u } (updRoll u (fun r => { r with state := 5, reason := reason }) s)))

/-- The chain load of a record in Loading, once its outgoing SAs are Invalid. -/
def chainLoad (u : RollUser) (ck : ChuckRun) (s : State) : State :=
  let r := s.roll u
  if r.state ≠ 3 ∨ !([r.outgoing, r.outgoingRx].filter (· ≠ 0xFFFF)).all (saUnused s) then s
  else
    let l := chainParts s u
    if l.isEmpty then chainFailed u 0x0C s
    else match chainAll u l { s := s, b := s, ck := ck } with
      | (0, t, k) => keyCount 5 (updRoll u (fun r => { r with state := if t = 0 then 0 else 1, incoming := if t = 0 then r.incoming else (r.incoming + 1) % 4, t := if t = 0 then r.t else t, outgoing := 0xFFFF, outgoingRx := 0xFFFF }) k.s)
      | (e, _, k) => chainFailed u e k.b

/-! ## Commands -/

/-- R260. -/
def execSaRetireComplete (sa : Fin 32768) (s : State) : Out := .next (saInvalid sa s)

/-- R268. -/
def execGuardWindowEnd (user : RollUser) (s : State) : Out := .next (guardEnds user s)

/-- R269. -/
def execChainLoad (user : RollUser) (chucks : ChuckRun) (s : State) : Out := .next (chainLoad user chucks s)

end Sys2Proof.Machine
end

