-- ==== Sys2Proof/Machine/Read.lean ====
section
/-! DEFINITION. What a read of each dictionary entry returns (R83, R125, R171, R172, R228, R229, R279, R306, R341, R342, R373,
R392, R427, R469, R470, R499), and what a read of a since-last-read field clears. -/
namespace Sys2Proof.Machine

/-- The records 0 to n − 1 of a table. -/
def rows (n : Nat) (f : Nat → Octets) : Octets := ((List.range n).map f).flatten

/-- Counters `base` to `base + n − 1` of a table as U64. -/
def u64s (t : Tab W64) (base n : Nat) : Octets := rows n (fun i => leBytes 8 (t.get (base + i) 0).toNat)

/-- Edge-clock cycles in a second. -/
def secCycles : Nat := 1562500000

/-- Milliseconds since a cycle. -/
def msSince (s : State) (c : Nat) : Nat := nsOfCycles (s.time.cycles - c) / 1000000

/-! ## 0x1000 to 0x1FFF -/

/-- Octets staged in a session, unfinished transfers apart. -/
def Session.size (x : Session) : Nat := x.staged.foldl (fun n q => n + q.2.length) 0

/-- A session's state. -/
def State.session (s : State) (k : Nat) : Session := s.ctl.sessions.get k {}

/-- Urzidun session record (OD 0x1014.01). -/
def urzSessionRow (s : State) (i : Nat) : Octets :=
  let u := s.urz.sessions.get i {}
  if u.isOpen then
    leBytes 4 u.number ++ leBytes 2 u.console ++ zeros 2 ++ leBytes 8 u.highest ++ leBytes 4 (msSince s u.lastAt) ++ leBytes 4 (s.session (64 + i)).size ++ zeros 8
  else zeros 32

/-- Peer record (OD 0x1014.02). -/
def peerRow (s : State) (i : Nat) : Octets :=
  let p := s.urz.peers.get i {}
  if p.present then leBytes 2 1 ++ leBytes 2 p.partId ++ leBytes 4 (msSince s p.lastAt) ++ zeros 8 else zeros 2 ++ leBytes 2 p.partId ++ zeros 12

/-- Ring status record (OD 0x1805.01). -/
def ringRow (s : State) (r : Nat) : Octets := let x := s.ring r; leBytes 4 x.part ++ oct x.state ++ oct x.cause ++ zeros 2

/-- Code of a controller state (OD 0x1F10.01). -/
def CtlState.code : CtlState → Nat
  | .active => 0
  | .standby => 1
  | .starting => 2
  | .isolated => 3
  | .diagnosing => 4
  | .retired => 5

/-- R469, R470. -/
def read1000 (s : State) (k idx sub : Nat) : Octets :=
  match idx with
  | 0x1000 => match sub with
    | 1 => leBytes 2 Config.vendorId
    | 2 => padTo 32 (ascii "Yilnor Devices")
    | 3 => padTo 32 (ascii "Lelerus LLX3264")
    | 4 => leBytes 2 Config.stepping
    | 5 => padTo 16 Config.serialNumber
    | 6 => partId
    | _ => leBytes 4 Config.firmwareVersion
  | 0x1014 => if sub = 1 then rows 64 (urzSessionRow s) else rows 64 (peerRow s)
  | 0x1015 => u64s s.urz.counters 0 8
  | 0x1805 => rows 1120 (ringRow s)
  | 0x1806 => u64s s.host.lost 0 32
  | 0x1F00 => match sub with
    | 3 => leBytes 4 (s.session k).last
    | 4 => leBytes 8 s.ctl.generation.toNat
    | 5 => time96 s.ctl.applyAt
    | _ => leBytes 4 (s.session k).size
  | 0x1F01 => if sub = 2 then oct s.ctl.imageStatus else leBytes 8 s.ctl.saveCount.toNat
  | _ => if sub = 1 then oct s.ctl.ctlA.code ++ oct s.ctl.ctlB.code else leBytes 8 s.ctl.failovers.toNat

/-! ## 0x2000 to 0x2FFF -/

/-- A rule as its 64 octets (R83). -/
def Rule.octets (r : Rule) : Octets := beBytes 24 r.value.toNat ++ beBytes 24 r.mask.toNat ++ beBytes 16 r.action.toNat

/-- The Current cut. -/
def State.cutNow (s : State) : Cut := (s.cls.cuts.find? (fun c => c.state == .current)).getD { number := 0, state := .current }

/-- One quarter of a rule table of the Current cut (OD 0x2042). -/
def ruleQuarter (s : State) (sub : Nat) : Octets :=
  let t := s.cutNow.rules.get ((sub - 1) / 4) []
  rows 16384 (fun i => match t.find (16384 * ((sub - 1) % 4) + i) with | some r => r.octets | none => List.replicate 64 0xFF)

/-- Valid SCs of a direction. -/
def scCount (s : State) (rx : Bool) : Nat := (s.keys.sc.filter (fun q => q.2.valid && q.2.rx == rx)).length

/-- Tributary security state record (R171). -/
def tribState (s : State) (t : Nat) : Octets :=
  let r := s.tr t
  let sa := s.sa (r.saAt .s2l r.txKi)
  let next := if r.saAt .s2l r.txKi = 0xFFFF then 0 else sa.n
  oct (r.txKi % 4 + 4 * bit (!r.changes.isEmpty)) ++ oct (r.rxKi % 4) ++ oct r.rxState ++ zeros 1 ++ leBytes 8 next ++ leBytes 8 r.lastVerified ++
  leBytes 2 r.cmIn ++ leBytes 2 r.cmOut ++ zeros 8

/-- R83. -/
def read2000 (s : State) (idx sub : Nat) : Octets :=
  match idx with
  | 0x2000 => if sub = 1 then microcode s else if sub = 2 then oct s.cls.bank else oct s.cls.longest
  | 0x2042 => ruleQuarter s sub
  | 0x2050 => match sub with
    | 1 => oct s.currentCut
    | 2 => oct s.cls.cuts.length
    | 3 => leBytes 4 ((s.cls.cuts.map Cut.nodes).flatten.dedup.length)
    | 4 => leBytes 4 (s.cutNow.rules.foldl (fun n t => n + t.2.length) 0)
    | 5 => leBytes 4 s.cls.result
    | _ => oct (bit (rulesResident s))
  | 0x2060 => rows 4096 (fun i => (s.cls.policers.get (4096 * (sub - 1) + i) {}).octets)
  | 0x2061 => u64s s.cls.polCounters (12288 * (sub - 1)) 12288
  | 0x2070 => rows 32 (fun n => u64s s.cls.drops (10 * (2 * n + (sub - 1))) 10)
  | 0x2071 => u64s s.cls.hits 0 65536
  | _ => s.od idx sub

/-- R125. -/
def read2400 (s : State) (idx sub : Nat) : Octets :=
  match idx with
  | 0x2404 => leBytes 1 (s.link (sub - 1)).status.toNat
  | 0x2410 => rows 16384 (fun i => (s.sc i).octets)
  | 0x2412 => leBytes 2 (scCount s (sub == 2))
  | _ => s.od idx sub

/-- R171. -/
def read2800 (s : State) (idx sub : Nat) : Octets :=
  let sides (t : Tab W32) : Octets := leBytes 4 (t.get (2 * (sub - 1)) 0).toNat ++ leBytes 4 (t.get (2 * (sub - 1) + 1) 0).toNat
  let tribs (t : Tab W32) : Octets := rows 256 (fun i => leBytes 4 (t.get i 0).toNat)
  match idx with
  | 0x2810 => rows 256 (fun i => (s.tr i).octets)
  | 0x2820 => sides s.otn.side
  | 0x2821 => sides s.otn.sideLatched
  | 0x2822 => tribs s.otn.trib
  | 0x2823 => tribs s.otn.tribLatched
  | 0x2824 => rows 256 (tribState s)
  | 0x2825 => leBytes 8 s.otn.ambiguities.toNat
  | _ => s.od idx sub

/-! ## 0x3000 to 0x3FFF -/

/-- Code of a role (R229). -/
def Role.code : Role → Nat
  | .working => 0
  | .spare => 1
  | .starting => 2
  | .draining => 3
  | .isolated => 4
  | .diagnosing => 5
  | .retired => 6

/-- A spindle status record (R229). -/
def spindleRow (s : State) (i : Nat) : Octets :=
  let x := s.spindle i
  let now := s.time.cycles - x.since
  let worked := x.worked + if x.role == .working then now else 0
  oct x.role.code ++ oct x.cause ++ oct (bit x.lag + 2 * bit x.factoryTrim) ++ oct x.fails ++ leBytes 4 x.measured ++ leBytes 4 x.busy ++ leBytes 2 x.isolations.toNat ++
  leBytes 2 x.repairs.toNat ++ leBytes 8 x.tokens.toNat ++ leBytes 4 (now / secCycles) ++ leBytes 4 (worked / (secCycles * 3600))

/-- Margin (S ÷ D − 1) in units of 0.1 % (OD 0x3003.03). -/
def marginOf (s : State) : Int := if s.fab.demand = 0 then 0x7FFFFFFF else (s.fab.supply * 1000 / s.fab.demand : Nat) - (1000 : Int)

/-- Port-direction number `i` = 2n + d. -/
def pdOf (i : Nat) : PD := ⟨Fin.ofNat 32 (i / 2), if i % 2 = 0 then .s2l else .l2s⟩

/-- Commit state record (OD 0x3007.01). -/
def commitRow (s : State) (i : Nat) : Octets :=
  let p := pdOf i
  let l := s.path.frames.filter (fun q => q.2.pd == p && q.2.sequenced)
  let age := match nextFrm s p (fun _ => true) with | some q => nsOfCycles (s.time.cycles - q.2.acceptCycle) | none => 0
  leBytes 4 (s.pd p).commitPtr.toNat ++ leBytes 4 l.length ++ leBytes 4 age ++ zeros 4

/-- R228. -/
def read3000 (s : State) (idx sub : Nat) : Octets :=
  match idx with
  | 0x3002 => if sub = 6 then leBytes 2 s.fab.rail else s.od idx sub
  | 0x3003 => match sub with
    | 1 => leBytes 4 s.fab.supply
    | 2 => leBytes 4 s.fab.demand
    | 3 => leBytes 4 (unsign 32 (marginOf s))
    | 4 => oct (roleCount s .working + roleCount s .draining + roleCount s .starting + roleCount s .spare)
    | _ => leBytes 1 s.fab.status.toNat
  | 0x3004 => rows 28 (spindleRow s)
  | 0x3006 => u64s s.fab.counters 0 8
  | 0x3007 => rows 64 (commitRow s)
  | 0x3008 => leBytes 8 s.inUse ++ leBytes 8 s.path.peak
  | _ => s.od idx sub

/-- AN or KI by which an SA is named, and the naming SC or tributary (R261). -/
def saNaming (s : State) (i : Nat) : Nat × Nat :=
  match (scNames s).find? (fun t => t.1 == i) with
  | some t => (t.2.2, t.2.1)
  | none => match (tribNames s).find? (fun t => t.1 == i) with
    | some t => (t.2.2 % 4, t.2.1)
    | none => (0xFF, 0xFFFF)

/-- SA state record (R261). -/
def saState (s : State) (i : Nat) : Octets :=
  let a := s.sa i
  let n := saNaming s i
  leBytes 8 a.n ++ leBytes 8 a.l ++ oct a.byte0 ++ oct n.1 ++ leBytes 2 n.2 ++ zeros 4 ++ u64s s.keys.saCounters (3 * i) 3

/-- A slot's state octet (R255). -/
def slotOctet (s : State) (target : Nat) : Octets :=
  let x := s.slot target
  oct ((match x.state with | .free => 0 | .filled => 1 | .releasing => 2 | .bad => 3) + if x.copyBad = 0 then 0 else 0x80)

/-- Data slots in a state. -/
def dataSlots (s : State) (st : SlotState) : Nat := (s.keys.data.filter (fun q => (s.slot q.1).state == st)).length

/-- An RWL command entry of 0x3400 to 0x37FF reads back what the session has staged (R279). -/
def stagedRead (idx sub : Nat) : Bool :=
  [(0x3401, 1), (0x3410, 1), (0x3421, 1), (0x3421, 3), (0x3430, 2), (0x3431, 2), (0x3450, 1), (0x3450, 2)].contains (idx, sub)

/-- R279. -/
def read3400 (s : State) (idx sub : Nat) : Octets :=
  let k := s.keys
  match idx with
  | 0x3400 => rows 16384 (fun i => (s.sa (16384 * (sub - 1) + i)).octets)
  | 0x3402 => rows 16384 (fun i => saState s (16384 * (sub - 1) + i))
  | 0x3410 => leBytes 4 k.failRec ++ leBytes 4 k.failReason
  | 0x3411 => k.exports
  | 0x3412 => match sub with
    | 1 => rows 32768 (slotOctet s)
    | 2 => rows 256 (fun i => slotOctet s (0x8000 + i))
    | 3 => rows 256 (fun i => let x := s.slot (0x8000 + i); leBytes 8 (if x.state == .filled || x.state == .releasing then x.a.keyId else 0))
    | _ =>
      let f := dataSlots s .filled
      let r := dataSlots s .releasing
      let b := dataSlots s .bad
      leBytes 4 (32768 - f - r - b) ++ leBytes 4 f ++ leBytes 4 r ++ leBytes 4 b
  | 0x3420 => match sub with
    | 1 => Config.identityCertificate
    | 2 => identityPub
    | 3 => padTo 97 s.rest.owner.key
    | _ => oct (bit s.owned) ++ zeros 3 ++ leBytes 4 s.rest.owner.seq.toNat
  | 0x3421 => if sub = 2 then padTo 261 k.offer else padTo 16 k.confirm
  | 0x3430 => rows 16384 (fun i => (k.rollSc.get i {}).octets)
  | 0x3431 => rows 256 (fun i => (k.rollTrib.get i {}).octets)
  | 0x3450 => leBytes 4 (if sub = 3 then k.saUsed.length else k.blobUsed.length)
  | 0x3460 => oct (bit k.zeroized)
  | 0x3470 => leBytes 2 (k.events ||| (if s.power.zeroizeN then 0x0200 else 0)).toNat
  | 0x3471 => u64s k.counters 0 9
  | _ => if 0x3600 ≤ idx ∧ idx ≤ 0x36FF then saState s (128 * (idx - 0x3600) + (sub - 1)) else s.od idx sub

/-- A port-direction of scheduler `g` = 2q + d, for reading its queues. -/
def schedPd (g : Nat) : PD := ⟨Fin.ofNat 32 (8 * (g / 2)), if g % 2 = 0 then .s2l else .l2s⟩

/-- The port-direction a queue of scheduler `g` is bound to. -/
def queuePd (s : State) (g i : Nat) : PD := { (schedPd g) with port := Fin.ofNat 32 ((s.queue (schedPd g) i).portOf (g / 2) i) }

/-- Queue status record (R306). -/
def queueRow (s : State) (g i : Nat) : Octets :=
  let p := schedPd g
  let x := s.queue p i
  let st := if !queueActive s p i then 4 else match x.state with | .empty => 0 | .committed => 1 | .excess => 2 | .waiting => 3
  leBytes 4 (queueFill x) ++ leBytes 4 (x.items.length + x.heldFrames) ++ oct st ++ oct (bit (pfcPaused s (queuePd s g i) x.prio) + 2 * bit x.posted.isSome) ++ zeros 2 ++
  leBytes 4 (unsign 32 (max (-2147483648) (x.tp / 256)))

/-- Port-direction buffer state (R306). -/
def bufferRow (s : State) (n : Nat) : Octets :=
  let a := s.pd ⟨Fin.ofNat 32 n, .s2l⟩
  let b := s.pd ⟨Fin.ofNat 32 n, .l2s⟩
  let pfc := (List.range 8).foldl (fun m k => m + 2 ^ k * bit (pfcPaused s ⟨Fin.ofNat 32 n, .l2s⟩ k)) 0
  leBytes 8 a.fill ++ leBytes 8 b.fill ++ oct (bit a.xoff + 2 * bit (pausedNow s ⟨Fin.ofNat 32 n, .l2s⟩) + 4 * bit (draining s n)) ++ leBytes 1 a.xoffPfc.toNat ++ oct pfc ++ zeros 1 ++
  leBytes 8 (a.misdirected + b.misdirected).toNat ++ zeros 4

/-- Bytes of the packet buffer that a direction's queues hold. -/
def packetBuffer (s : State) (d : Nat) : Nat :=
  s.path.queues.foldl (fun n q => if q.1 / 1024 % 2 = d then n + (q.2.items.filter (fun e => e.spilled)).foldl (fun m e => m + lenR8 e.data) 0 else n) 0

/-- R306. -/
def read3800 (s : State) (idx sub : Nat) : Octets :=
  let g := sub - 1
  match idx with
  | 0x3800 => rows 1024 (fun i => (s.queue (schedPd g) i).record (8 * (g / 2) + i / 128))
  | 0x3810 => rows 1024 (queueRow s g)
  | 0x3811 => rows 1024 (fun i => let x := s.queue (schedPd g) i; leBytes 8 x.sent.toNat ++ leBytes 8 x.octets.toNat ++ leBytes 8 x.fullDrops.toNat ++ leBytes 8 x.launched.toNat)
  | 0x3812 => bufferRow s g
  | 0x3813 => u64s s.path.schedCounters (6 * g) 6
  | 0x3814 => leBytes 8 (packetBuffer s 0) ++ leBytes 8 (packetBuffer s 1)
  | _ => s.od idx sub

/-! ## 0x4000 to 0x4FFF and 0x6000 -/

/-- Code of a servo state (OD 0x4000.03). -/
def Servo.code : Servo → Nat
  | .unset => 0
  | .freeRun => 1
  | .acquiring => 2
  | .locked => 3
  | .holdover => 4

/-- R341. -/
def read4000 (s : State) (idx sub : Nat) : Octets :=
  let u := s.time
  match idx with
  | 0x4000 => match sub with
    | 1 => time96 u.now
    | 2 => leBytes 2 (bit u.isSet + 2 * bit (u.servo == .locked) + 4 * bit (u.servo == .holdover) + 8 * bit u.stepped + 16 * bit u.jumpRefused + 32 * bit u.unverified + 64 * bit s.rest.secValid)
    | 3 => oct u.servo.code
    | 4 => leBytes 8 (unsign 64 u.theta) ++ leBytes 8 (unsign 64 u.dly) ++ leBytes 8 (unsign 64 u.y) ++ leBytes 8 (unsign 64 u.lastStep) ++ time96 u.stepAt ++ zeros 4
    | _ => u64s u.counters 0 8
  | 0x4020 => (s.tslot (sub - 1)).octets
  | 0x4030 => if sub = 1 then s.od idx sub else if sub = 2 then u64s u.launchCounters 0 4 else leBytes 4 (s.path.pools.get 3 0)
  | _ => s.od idx sub

/-- R342. -/
def read6000 (s : State) (idx sub : Nat) : Octets :=
  let q := s.time.pins.get (sub - 1) {}
  match idx with
  | 0x6003 => time96 q.last
  | 0x6004 => fifoOctets q
  | 0x6005 => leBytes 8 q.captures.toNat ++ leBytes 8 q.overflows.toNat
  | _ => s.od idx sub

/-- R373. -/
def read4400 (s : State) (idx sub : Nat) : Octets :=
  let m := s.mpu
  match idx with
  | 0x4400 => match sub with
    | 1 => leBytes 8 5368709120
    | 2 => leBytes 2 (bit (mpuReady s) + 2 * bit (mpuReady s) + 8 * bit (!m.poison.isEmpty || !m.poisonRegions.isEmpty || !m.lost.isEmpty) + 16 * bit m.poisonFull + 32 * bit m.scrubbing + 64 * bit (s.domOn 78))
    | _ => u64s m.majors 0 16
  | 0x4401 => leBytes 2 m.latched.toNat
  | 0x4403 => u64s m.counters 0 12
  | 0x4404 => (m.poison.map (fun q => leBytes 4 q.1 ++ zeros 4 ++ leBytes 8 q.2.toNat)).flatten ++ rows (1024 - m.poison.length) (fun _ => leBytes 4 0xFFFFFFFF ++ zeros 12)
  | 0x4405 => (m.refetch.map (fun q => oct q.1 ++ zeros 3 ++ leBytes 4 q.2)).flatten ++ List.replicate (8 * (256 - m.refetch.length)) 0xFF
  | 0x4406 => u64s m.cacheCounters 0 4
  | 0x4420 => if sub = 1 then s.od idx sub else if sub = 2 then padTo 64 m.rawLine else oct m.rawStatus
  | _ => s.od idx sub

/-- Code of a source state (OD 0x4800.02). -/
def SourceState.code : SourceState → Nat
  | .off => 0
  | .starting => 1
  | .healthy => 2
  | .isolated => 3
  | .retired => 4
  | .capture => 5

/-- R392. -/
def read4800 (s : State) (idx sub : Nat) : Octets :=
  let g := s.rng
  match idx with
  | 0x4800 => if sub = 1 then leBytes 4 (rngLive s) else rows 8 (fun k => oct (g.source k).state.code)
  | 0x4801 => if sub = 1 then u64s g.health 0 16 else u64s g.counters 0 8
  | 0x4804 => if sub = 4 then leBytes 4 g.count else s.od idx sub
  | 0x4810 => if sub = 2 then padTo 32 g.katCond else s.od idx sub
  | 0x4811 => if sub = 2 then padTo 64 g.katExp else s.od idx sub
  | 0x4812 => if sub = 2 then padTo 131072 g.rawData else if sub = 3 then oct g.rawStatus else s.od idx sub
  | _ => s.od idx sub

/-! ## 0x5000 to 0x5FFF -/

/-- Code of the tamper state (OD 0x5000.01). -/
def TamperState.code : TamperState → Nat
  | .normal => 0
  | .locked => 1
  | .zeroized => 2

/-- R427, the export segment apart. -/
def read5000 (s : State) (idx sub : Nat) : Octets :=
  let r := s.rest
  match idx with
  | 0x5000 => leBytes 2 (r.state.code + 4 * bit s.locked + 8 * bit (r.alertLatch != 0) + 16 * bit (s.domOn 78) + 32 * bit (decide (s.odNat 0x5042 1 ≤ s.unexported)) +
      64 * bit (decide (logLimit s ≤ s.unexported)) + 128 * bit r.secValid + 256 * bit s.holding)
  | 0x5001 => leBytes 8 ((List.range 23).foldl (fun m n => m + 2 ^ n * bit (s.sensor n).alarm) 0)
  | 0x5002 => leBytes 8 r.alertLatch.toNat
  | 0x5003 => padTo 8 r.subStatus
  | 0x5020 => if sub = 1 then padTo 32 r.challenge else leBytes 4 r.lockSeq.toNat ++ zeros 4 ++ leBytes 8 r.lockEntry
  | 0x5040 => if sub = 1 then leBytes 8 r.headSeq ++ padTo 32 r.headHash
    else leBytes 8 ((r.ring.head?.map LogEntry.seq).getD 0) ++ leBytes 4 s.unexported ++ leBytes 4 (r.unwritten + r.unwrittenVbat)
  | 0x5041 => (segmentRead s).1
  | 0x5050 => if sub = 1 then rows 64 (fun i => leBytes 4 (r.monotonic.get i 0).toNat) else s.od idx sub
  | 0x5060 => u64s r.counters 0 8
  | 0x5070 => match sub with
    | 1 => rows 16 (fun i => leBytes 2 (unsign 16 (r.temps.get i 0)))
    | 2 => rows 16 (fun i => leBytes 2 (r.supplies.get i 0))
    | _ => leBytes 8 r.seconds.toNat
  | _ => s.od idx sub

/-- Start-up state as OD 0x5400.05 shows it. -/
def Start.code : Start → Nat
  | .memFailed => 1
  | .waitRandom => 2
  | _ => 0

/-- Class of a power domain (R493): 0 fixed, 1 automatic, 2 requestable, 3 internal. -/
def domainClass (d : Nat) : Nat :=
  if d = 71 ∨ d = 75 ∨ d = 77 then 2
  else if d = 78 ∨ d = 79 then 3
  else if d < 52 ∨ (56 ≤ d ∧ d < 60) ∨ d = 64 ∨ d = 65 ∨ d = 68 ∨ d = 69 then 1
  else 0

/-- Domain status record (R499). -/
def domainRow (s : State) (d : Nat) : Octets := let x := s.domain d; oct x.state ++ oct (domainClass d) ++ oct x.cause ++ zeros 5 ++ leBytes 8 x.resets.toNat

/-- Drain state (OD 0x5405.01). -/
def drainOctets (s : State) : Octets :=
  match s.power.drains with
  | [] => zeros 16
  | dr :: _ =>
    let ports := (List.range 32).filter (draining s)
    oct 1 ++ zeros 3 ++ leBytes 4 (ports.foldl (fun m n => m + 2 ^ n) 0) ++ leBytes 4 (s.power.drains.foldl (fun n d => n + drainLeft s d) 0) ++
    leBytes 4 (nsOfCycles (s.time.cycles - dr.at_) / 1000)

/-- R499. -/
def read5400 (s : State) (idx sub : Nat) : Octets :=
  let p := s.power
  match idx with
  | 0x5400 => match sub with
    | 2 => oct p.lastCause
    | 3 => u64s p.resetCounts 0 5
    | 4 => rows 6 (fun i => leBytes 4 (p.record.get i 0)) ++ oct p.start.code ++ oct p.attempts ++ oct p.startFlags ++ zeros 5
    | _ => oct p.start.code
  | 0x5403 => rows 80 (domainRow s)
  | 0x5405 => drainOctets s
  | _ => s.od idx sub

/-! ## 0x7000 -/

/-- A bin record (R168). -/
def Bin.octets (b : Bin) : Octets :=
  leBytes 6 b.start ++ oct (bit b.complete + 2 * bit b.suspect + 4 * bit b.unconf) ++ zeros 1 ++ leBytes 4 b.es ++ leBytes 4 b.ses ++ leBytes 4 b.uas ++ leBytes 4 b.fes ++
  leBytes 4 b.fses ++ leBytes 4 b.fuas ++ leBytes 4 b.aes ++ leBytes 4 b.ases ++ leBytes 8 b.bbe ++ leBytes 8 b.fbbe ++ leBytes 8 b.failed

/-- R172. -/
def read7000 (s : State) (idx sub : Nat) : Octets :=
  let n := sub - 1
  let a := s.pd ⟨Fin.ofNat 32 n, .s2l⟩
  let b := s.pd ⟨Fin.ofNat 32 n, .l2s⟩
  match idx with
  | 0x7000 => u64s a.mac 0 12 ++ u64s b.mac 0 12
  | 0x7001 => leBytes 8 (s.link n).txSecy.toNat
  | 0x7002 => u64s (s.link n).rxSecy 0 5
  | 0x7003 => u64s s.path.txSc 0 65536
  | 0x7004 => u64s s.path.rxSc (81920 * n) 81920
  | 0x7005 => u64s a.ptp 0 5 ++ u64s b.ptp 0 5
  | 0x7010 => u64s s.otn.fec (24 * n) 24
  | 0x7011 => rows 256 (fun t => u64s (s.tr t).counters 0 6)
  | 0x7100 => rows 544 (fun e => (s.pmEnt e).cur15.octets)
  | 0x7101 => rows 544 (fun e => (s.pmEnt e).cur24.octets)
  | 0x7102 => rows 544 (fun e => (s.pmEnt e).prev24.octets)
  | 0x7110 => rows 544 (fun e => ((s.pmEnt e).prev15.getD n {}).octets)
  | _ => s.od idx sub

/-! ## Any entry -/

/-- The value of an existing entry for session `k`, as applied in the part (R430); subindex 0 is the highest subindex (R11). -/
def readValue (s : State) (k idx sub : Nat) : Octets :=
  if sub = 0 then leBytes 1 (highestSub idx)
  else if stagedRead idx sub then (s.session k).staged.get (odKey idx sub) []
  else if idx < 0x1800 ∧ idx ≠ 0x1000 ∧ idx ≠ 0x1014 ∧ idx ≠ 0x1015 then s.od idx sub
  else if 0x1800 ≤ idx ∧ idx < 0x1805 then
    (if idx = 0x1801 then rows 512 (fun i => ringCfg s (64 + i)) else if idx = 0x1802 then rows 512 (fun i => ringCfg s (576 + i)) else s.od idx sub)
  else if 0x1840 ≤ idx ∧ idx ≤ 0x1841 then s.od idx sub
  else if idx < 0x2000 then read1000 s k idx sub
  else if idx < 0x2400 then read2000 s idx sub
  else if idx < 0x2800 then read2400 s idx sub
  else if idx < 0x3000 then read2800 s idx sub
  else if idx < 0x3400 then read3000 s idx sub
  else if idx < 0x3800 then read3400 s idx sub
  else if idx < 0x4000 then read3800 s idx sub
  else if idx < 0x4400 then read4000 s idx sub
  else if idx < 0x4800 then read4400 s idx sub
  else if idx < 0x5000 then read4800 s idx sub
  else if idx < 0x5400 then read5000 s idx sub
  else if idx < 0x6000 then read5400 s idx sub
  else if idx < 0x7000 then read6000 s idx sub
  else read7000 s idx sub

/-- What the read of an entry clears or uses up: the "since last read" fields (R171, R228, R341), the capture FIFO (R337), the
signature value of a segment without entries. -/
def readClears (idx sub : Nat) (s : State) : State :=
  match idx, sub with
  | 0x4000, 2 => { s with time := { s.time with stepped := false } }
  | 0x3008, 1 => { s with path := { s.path with peak := s.inUse } }
  | 0x2822, 1 => { s with otn := { s.otn with trib := s.otn.trib.mapAll (fun _ w => w &&& ~~~(0x8080 : W32)) } }
  | 0x6004, p => { s with time := { s.time with pins := s.time.pins.mapAll (fun i q => if i + 1 = p then { q with fifo := [] } else q) } }
  | 0x5041, 1 => (segmentRead s).2
  | _, _ => s

end Sys2Proof.Machine
end

