-- ==== Sys2Proof/Machine/Staged.lean ====
section
/-! DEFINITION. What a commit's staging would leave: the plain entries, the rule tables, and the records of the SC, tributary, queue,
policer and slot tables that it writes (R84, R126, R430, R431, R526). -/
namespace Sys2Proof.Machine

/-! ## Entries -/

/-- The staged value of an entry. -/
def stagedAt (st : Tab Octets) (idx sub : Nat) : Option Octets := st.find (odKey idx sub)
/-- An entry is staged. -/
def isStaged (st : Tab Octets) (idx sub : Nat) : Bool := (stagedAt st idx sub).isSome
/-- Some entry with an index from `lo` up to but not including `hi` is staged. -/
def stagedIn (st : Tab Octets) (lo hi : Nat) : Bool := st.any (fun q => decide (lo ≤ q.1 / 256) && decide (q.1 / 256 < hi))
/-- The staged number of an entry. -/
def stagedNat (st : Tab Octets) (idx sub : Nat) : Option Nat := (stagedAt st idx sub).map leNat
/-- The lowest staged entry key with an index from `lo` up to but not including `hi`. -/
def lowestStaged (st : Tab Octets) (lo hi : Nat) : Nat :=
  ((st.filter (fun q => decide (lo ≤ q.1 / 256) && decide (q.1 / 256 < hi))).head?.map Prod.fst).getD (odKey lo 1)

/-- Indices of the RW and RWL entries whose values are kept in their own tables, and of the commands that leave no value. -/
def tableIdx : List Nat :=
  [0x2042, 0x2043, 0x2060, 0x2410, 0x2411, 0x2810, 0x2811, 0x3400, 0x3401, 0x3410, 0x3421, 0x3422, 0x3430, 0x3431, 0x3450, 0x3460, 0x3800, 0x3801, 0x4020]

/-- An entry whose value is kept as written. -/
def plainEntry (idx : Nat) (e : Entry) : Bool := (e.acc == .rw || e.acc == .rwl) && !tableIdx.contains idx

/-- The value an entry has before anything is applied. -/
def plainDefault (idx sub : Nat) (e : Entry) : Octets := if idx = 0x2000 then padTo 32768 Config.standardImage else e.defaultOctets sub

/-- Put one applied value; a value equal to the default is not listed, except in the ring configurations (log 33). -/
def putPlain (key : Nat) (b : Octets) (s : State) : State :=
  let idx := key / 256
  let sub := key % 256
  match entryAt idx sub with
  | none => s
  | some e =>
    if !plainEntry idx e then s
    else
      let v := e.keep b
      let plain := v == plainDefault idx sub e && !(decide (0x1800 ≤ idx) && decide (idx ≤ 0x1803))
      { s with ctl := { s.ctl with dict := if plain then s.ctl.dict.drop key else s.ctl.dict.put key v } }

/-- Put every plain entry of a staging. -/
def putPlains (st : Tab Octets) (s : State) : State := st.foldl (fun s q => putPlain q.1 q.2 s) s

/-! ## Tables (R126, R526) -/

/-- SC records that a commit writes. -/
def scWrites (s0 : State) (st : Tab Octets) : List Written :=
  imageWrites 0x2410 1 0 32 (fun i b => Sc.ofOctets b == Sc.ofOctets (s0.sc i).octets) st ++ deltaWrites 0x2411 1 32 st

/-- Write SC records. -/
def scWriteAll (l : List Written) (s : State) : State := l.foldl (fun s w => updSc w.idx (fun _ => Sc.ofOctets w.data) s) s

/-- Tributary records that a commit writes. -/
def tribWrites (s0 : State) (st : Tab Octets) : List Written :=
  imageWrites 0x2810 1 0 80 (fun t b => ((s0.tr t).written b).octets == (s0.tr t).octets) st ++ deltaWrites 0x2811 1 80 st

/-- Write tributary records. -/
def tribWriteAll (l : List Written) (s : State) : State := l.foldl (fun s w => updTr w.idx (fun r => r.written w.data) s) s

/-- Port that R280 binds queue key `k` to, by default. -/
def queueDefaultPort (k : Nat) : Nat := 8 * (k / 2048) + k % 1024 / 128

/-- Queue records that a commit writes, by queue key. -/
def queueWrites (s0 : State) (st : Tab Octets) : List Written :=
  let same (k : Nat) (b : Octets) : Bool := let x : Queue := s0.path.queues.get k {}; (x.written b).record (queueDefaultPort k) == x.record (queueDefaultPort k)
  let images := ((List.range 8).map (fun g => imageWrites 0x3800 (g + 1) (1024 * g) 32 same st)).flatten
  let one (r : Octets) : Written := { idx := 1024 * (2 * octet r 0 + octet r 1) + leAt r 2 2, data := r.drop 4, key := odKey 0x3801 1 }
  images ++ ((stagedAt st 0x3801 1).map (fun b => (recordsOf 36 b).map one)).getD []

/-- A staged queue delta is a whole number of records that name queues. -/
def queueDeltaOk (st : Tab Octets) : Bool :=
  match stagedAt st 0x3801 1 with
  | none => true
  | some b => b.length % 36 == 0 && (recordsOf 36 b).all (fun r => decide (octet r 0 ≤ 3) && decide (octet r 1 ≤ 1) && decide (leAt r 2 2 ≤ 1023))

/-- Write queue records. -/
def queueWriteAll (l : List Written) (s : State) : State :=
  l.foldl (fun s w => { s with path := { s.path with queues := s.path.queues.upd w.idx {} (fun x => x.written w.data) } }) s

/-- Policer records that a commit writes. R526 does not name policer records: the model takes a record of a staged image that equals the
applied one as not written, so that its buckets stay (DESIGN CHOICE, log 113). -/
def policerWrites (s0 : State) (st : Tab Octets) : List Written :=
  let same (i : Nat) (b : Octets) : Bool := (s0.cls.policers.get i {}).octets == (Policer.ofOctets b 0).octets
  imageWrites 0x2060 1 0 32 same st ++ imageWrites 0x2060 2 4096 32 same st

/-- Write policer records. -/
def policerWriteAll (l : List Written) (s : State) : State :=
  l.foldl (fun s w => { s with cls := { s.cls with policers := s.cls.policers.put w.idx (Policer.ofOctets w.data s.time.ns) } }) s

/-- Slots whose records a staging holds. -/
def slotsStaged (st : Tab Octets) : List Nat := (List.range 16).filter (fun i => isStaged st 0x4020 (i + 1))

/-- Write slot records for session `k`; `now` is the time unit's time before the commit. -/
def slotWriteAll (k now : Nat) (st : Tab Octets) (s : State) : State :=
  (slotsStaged st).foldl (fun s i => updTslot i (fun _ => Slot.ofOctets ((stagedAt st 0x4020 (i + 1)).getD []) k now) s) s

/-! ## Rules (R57, R84) -/

/-- A rule from 64 octets. -/
def Rule.ofOctets (b : Octets) : Rule :=
  { value := BitVec.ofNat 192 (beAt b 0 24), mask := BitVec.ofNat 192 (beAt b 24 24), action := BitVec.ofNat 128 (beAt b 48 16 &&& beNat (actionOctets.map (BitVec.ofNat 8 ·))) }

/-- Replace one quarter of the rule tables. -/
def ruleImage (sub : Nat) (b : Octets) (rules : Tab (Tab Rule)) : Tab (Tab Rule) :=
  let base := 16384 * ((sub - 1) % 4)
  let kept (t : Tab Rule) : Tab Rule := t.filter (fun q => decide (q.1 < base) || decide (base + 16384 ≤ q.1))
  let new := ((recordsOf 64 b).zipIdx.filter (fun q => q.1.any (· != 0xFF))).map (fun q => (base + q.2, Rule.ofOctets q.1))
  rules.upd ((sub - 1) / 4) [] (fun t => new.foldl (fun t q => t.put q.1 q.2) (kept t))

/-- Apply one delta record. -/
def ruleDelta (r : Octets) (rules : Tab (Tab Rule)) : Tab (Tab Rule) :=
  let n := leAt r 2 2
  rules.upd (octet r 0) [] (fun t => if octet r 1 = 1 then t.put n (Rule.ofOctets (r.drop 4)) else t.drop n)

/-- A staged rule delta is a whole number of records with defined operations. The spec is silent on a total that is not a multiple of 68
octets: the model refuses it as a value out of range at the commit (DESIGN CHOICE, log 112). -/
def ruleDeltaOk (st : Tab Octets) : Bool :=
  match stagedAt st 0x2043 1 with
  | none => true
  | some b => b.length % 68 == 0 && (recordsOf 68 b).all (fun r => decide (octet r 0 ≤ 15) && (octet r 1 == 1 || octet r 1 == 2))

/-- The rule tables a commit would leave: images first, then deltas in order. -/
def rulesAfter (s0 : State) (st : Tab Octets) : Tab (Tab Rule) :=
  let r := (List.range 64).foldl (fun r i => match stagedAt st 0x2042 (i + 1) with | some b => ruleImage (i + 1) b r | none => r) s0.cutNow.rules
  ((stagedAt st 0x2043 1).map (recordsOf 68)).getD [] |>.foldl (fun r d => ruleDelta d r) r

/-- A staging holds classification entries, so that the commit makes a new cut (R68, R432). -/
def classifies (st : Tab Octets) : Bool := stagedIn st 0x2000 0x2400

/-! ## The candidate state -/

/-- The state that the staging `st` of session `k` would leave, the key range apart. -/
def candidate (k : Nat) (st : Tab Octets) (s : State) : State :=
  let c := putPlains st s
  let c := tribWriteAll (tribWrites s st) (scWriteAll (scWrites s st) c)
  let c := policerWriteAll (policerWrites s st) (queueWriteAll (queueWrites s st) c)
  slotWriteAll k s.time.now st c

end Sys2Proof.Machine
end

