-- ==== Sys2Proof/Machine/Check.lean ====
section
/-! DEFINITION. The checks of R431 step 3, those of the key range and of tokens apart: value ranges, the rules of each chapter, and the resources of
R475, each failure with the entry it is reported at. `s` is the state before the commit, `c` the state it would leave. -/
namespace Sys2Proof.Machine

/-- A failure reported at an entry, if `bad`. -/
def refuse (idx sub code : Nat) (bad : Bool) : List (Nat × Nat) := if bad then [(odKey idx sub, code)] else []

/-- Failures at subindices 1 to `n` of an index. -/
def refuseEach (idx n code : Nat) (bad : Nat → Bool) : List (Nat × Nat) := ((List.range n).map (fun i => refuse idx (i + 1) code (bad i))).flatten

/-- Lock and range of each staged entry (R6, R404, R474). -/
def entryFailures (s : State) (st : Tab Octets) : List (Nat × Nat) :=
  st.filterMap (fun q => match entryAt (q.1 / 256) (q.1 % 256) with
    | none => none
    | some e =>
      if e.acc == .rwl && s.locked then some (q.1, abLocked)
      else if e.inRange q.2 then none else some (q.1, abRange))

/-! ## Identity, rings and vectors (R443, R450, R459, R474) -/

/-- A key slot named for the Urzidun channel holds a Management key. -/
def channelSlotOk (c : State) (v : Nat) : Bool := v == 0xFF || (let x := c.slot (0x8000 + v); x.state == .filled && bitAt x.a.usage 5)

/-- The tributary named for a pair's GCC is valid on that pair, where a side is enabled. -/
def gccTribOk (c : State) (k : Nat) : Bool := !(gccOn c k .system || gccOn c k .line) || ((c.tr (gccTrib c k)).valid && tribPair c (gccTrib c k) == k)

/-- Entry key of a ring's configuration. -/
def ringKey (r : Nat) : Nat := if r < 64 then odKey 0x1800 (r + 1) else if r < 576 then odKey 0x1801 1 else if r < 1088 then odKey 0x1802 1 else odKey 0x1803 (r - 1087)

/-- A ring configuration record is in range; the size of a disabled ring may be 0. -/
def ringRecordOk (b : Octets) : Bool :=
  let size := octet b 8
  leAt b 0 8 % 64 == 0 && ((decide (4 ≤ size) && decide (size ≤ 16)) || (size == 0 && !bitAt (octet b 9) 0)) && decide (leAt b 10 2 ≤ 2047)

/-- Failures of the ring configurations. -/
def ringFailures (s c : State) : List (Nat × Nat) :=
  (List.range 1120).filterMap (fun r =>
    let a := ringCfg s r
    let b := ringCfg c r
    if s.ctl.dict.find (ringKey r) = c.ctl.dict.find (ringKey r) ∨ a = b then none
    else if !ringRecordOk b then some (ringKey r, abRange)
    else if bitAt (octet a 9) 0 ∧ b.take 9 ≠ a.take 9 then some (ringKey r, abState)
    else none)

/-- The enabled rings. The rings of a table that was never written are all disabled. -/
def ringsEnabled (c : State) : List Nat :=
  let table (sub first : Nat) : List Nat := if (c.ctl.dict.find (odKey sub 1)).isNone then [] else ((List.range 512).map (first + ·)).filter (ringEnabled c)
  (List.range 64).filter (ringEnabled c) ++ table 0x1801 64 ++ table 0x1802 576 ++ ((List.range 32).map (1088 + ·)).filter (ringEnabled c)

/-- Vectors that enabled sources name, with the entry of each source. -/
def vectorsNamed (c : State) : List (Nat × Nat) :=
  (ringsEnabled c).map (fun r => (ringVector c r, ringKey r)) ++ [(functionVector c 0, odKey 0x1804 1), (functionVector c 1, odKey 0x1804 1)]

/-- Two enabled sources name one vector: reported at the lowest entry involved (R475). -/
def vectorFailures (c : State) : List (Nat × Nat) :=
  let l := vectorsNamed c
  let names := l.map Prod.fst
  ((l.filter (fun q => decide (2 ≤ names.count q.1))).map (fun q => (q.2, abVector))).take 1

def hostFailures (s c : State) (st : Tab Octets) : List (Nat × Nat) :=
  let slotBad (i : Nat) : Bool := (stagedNat st 0x1010 i).any (fun v => !channelSlotOk c v)
  refuse 0x1010 3 abDangling (slotBad 3) ++ refuse 0x1010 4 abDangling (slotBad 4) ++ refuseEach 0x1013 8 abDangling (fun k => !gccTribOk c k) ++
  ringFailures s c ++ refuse 0x1804 1 abRange (decide (2047 < functionVector c 0) || decide (2047 < functionVector c 1)) ++ vectorFailures c

/-! ## Classification (R47, R56, R65, R83 to R85) -/

/-- The parse start addresses. -/
def parseStarts (c : State) : List Nat := (List.range 32).map (fun n => c.odNat 0x2001 (n + 1))

/-- The microcode that a commit would leave passes R47; the standard image from its start address does. -/
def microcodeFits (c : State) : Bool :=
  ((c.ctl.dict.find (odKey 0x2000 1)).isNone && (parseStarts c).all (· == 0)) || microcodeOk (microcode c) (parseStarts c).dedup

/-- Directions in which a table is the start table of some port: S2L, L2S. -/
def tableDirs (c : State) (t : Nat) : Bool × Bool :=
  ((List.range 32).any (fun n => c.odNat 0x2010 (n + 1) == t), (List.range 32).any (fun n => c.odNat 0x2011 (n + 1) == t))

/-- An action record names something reserved, off or absent, in the directions in which it can apply (R65). -/
def actionBad (c : State) (dirs : Bool × Bool) (action : Nat) : Bool :=
  let disp := bits action 127 125
  let p := bits action 123 112
  let off (d : Nat) : Bool := (c.cls.policers.get (4096 * d + p) {}).mode == 0
  decide (3 < disp) || (bitAt action 124 && ((dirs.1 && off 0) || (dirs.2 && off 1))) || (dirs.1 && disp == 2 && !(c.sc (bits action 97 84)).valid)

/-- Failures of the classification range; `rules` are the rule tables of the cut. -/
def classFailures (s c : State) (st : Tab Octets) (rules : Tab (Tab Rule)) : List (Nat × Nat) :=
  if !classifies st then []
  else
    let code := stagedIn st 0x2000 0x2002
    let steering (idx : Nat) : List (Nat × Nat) := refuseEach idx 32 abRange (fun n => (stagedNat st idx (n + 1)).any (fun v => v % 4 == 3 || v / 4 % 4 == 3))
    let deflt (idx : Nat) (dirs : Bool × Bool) : List (Nat × Nat) := refuseEach idx 32 abDangling (fun n => actionBad c dirs (beNat (c.od idx (n + 1))))
    let profile (t : Nat) : Bool := (stagedAt st 0x2020 (t + 1)).any (fun b => !profileOk b)
    let policers (sub : Nat) : Bool := (stagedAt st 0x2060 sub).any (fun b => (recordsOf 32 b).any (fun r => !(Policer.ofOctets r 0).ok))
    let lost := s.power.start == .memFailed || s.power.start == .waitRandom
    let stores := ((st.filter (fun q => decide (0x2020 ≤ q.1 / 256) && decide (q.1 / 256 ≤ 0x2043))).map (fun q => (q.1, abState)))
    (if code && !microcodeFits c then [(lowestStaged st 0x2000 0x2002, abMicrocode)] else []) ++
    deflt 0x2012 (true, false) ++ deflt 0x2013 (false, true) ++ steering 0x2016 ++ steering 0x2017 ++ refuseEach 0x2020 16 abRange profile ++
    refuse 0x2043 1 abRange (!ruleDeltaOk st) ++ refuse 0x2043 1 abDangling (rules.any (fun t => t.2.any (fun r => actionBad c (tableDirs c t.1) r.2.action.toNat))) ++
    refuse 0x2060 1 abRange (policers 1) ++ refuse 0x2060 2 abRange (policers 2) ++ (if lost then stores else [])

/-! ## Shapes (R87, R128, R474, R488) -/

/-- Failures of the Ethernet and OTN shapes. -/
def shapeFailures (s c : State) : List (Nat × Nat) :=
  let e (k : Nat) : Nat := ethShape c k
  let o (k : Nat) : Nat := otnShape c k
  let lane (k : Nat) : Bool := (0 < e k && 0 < o k) || (k % 2 == 0 && ((e k == 4 && 0 < o (k + 1)) || (5 ≤ o k && 0 < e (k + 1))))
  let closed := s.power.start == .memFailed || s.power.start == .waitRandom
  refuseEach 0x2400 8 abRange (fun k => e k == 4 && (k % 2 == 1 || 0 < e (k + 1))) ++
  refuseEach 0x2400 8 abState (fun k => closed && decide (0 < e k)) ++ refuseEach 0x2400 8 abLane lane ++
  refuseEach 0x2800 8 abRange (fun k => 5 ≤ o k && (k % 2 == 1 || 0 < o (k + 1))) ++
  refuseEach 0x2800 8 abState (fun k => closed && decide (0 < o k))

/-! ## Secure channels (R96) -/

/-- Valid SCs. -/
def scsValid (c : State) : List (Nat × Sc) := c.keys.sc.filter (fun q => q.2.valid)

/-- SA indices that an SC names. -/
def Sc.sasNamed (r : Sc) : List Nat := [r.sa0, r.sa1, r.sa2, r.sa3].filter (· ≠ 0xFFFF)

/-- The rows of R96 in order, each with its code. -/
def scRules (c : State) (r : Sc) : List (Bool × Nat) := [
  (3 < r.suite || !([0, 30, 50].contains r.offset) || 2 < r.clearTags || 3 < r.txAn, abRange),
  (if r.rx then r.inclSci || r.es || r.conf else r.implicit, abRange),
  (2 ≤ r.suite && 2 ^ 30 < r.window, abRange),
  (31 < r.port || !ethPort c r.port, abDangling),
  ((!r.rx && r.saAt r.txAn == 0xFFFF) || r.sasNamed.any (fun i => 32767 < i || !(c.sa i).live), abDangling),
  (r.sasNamed.any (fun i => suiteKey (c.sa i).suite != suiteKey r.suite), abRange)]

/-- Two receive SCs of one port share an SCI, or are both implicit. -/
def scsCollide (c : State) : Bool :=
  let l := (scsValid c).filter (fun q => q.2.rx)
  l.any (fun q => l.any (fun r => q.1 != r.1 && q.2.port == r.2.port && (padTo 8 q.2.sci == padTo 8 r.2.sci || (q.2.implicit && r.2.implicit))))

/-- The first row of R96 that some valid SC breaks. -/
def scFailure (c : State) : Option Nat :=
  let l := (scsValid c).map (fun q => scRules c q.2)
  match (List.range 6).find? (fun i => l.any (fun rows => (rows.getD i (false, 0)).1)) with
  | some i => some ([abRange, abRange, abRange, abDangling, abDangling, abRange].getD i abRange)
  | none => if scsCollide c then some abDuplicate else none


/-! ## Tributaries (R142, R143, R171) -/

/-- Slots that a tributary needs (R142). -/
def tribSlots (r : Trib) : Nat :=
  match r.kind with
  | 0 => 1
  | 1 => 1
  | 2 => 2
  | 3 => 2
  | 4 => 8
  | 5 => 20
  | _ => (r.rate + 5240885) / 5240886

/-- Valid tributaries. -/
def tribsValid (c : State) : List (Nat × Trib) := c.otn.tribs.filter (fun q => q.2.valid)

/-- A side's slot map and tributary port number. -/
def Trib.mapOf (r : Trib) (sd : Side) : BitVec 160 := match sd with | .system => r.sysMap | .line => r.lineMap
def Trib.portOf (r : Trib) (sd : Side) : Nat := match sd with | .system => r.sysPort | .line => r.linePort

/-- Bits set in a slot map. -/
def slotCount (m : BitVec 160) : Nat := (List.range 160).foldl (fun n i => n + bit (m.getLsbD i)) 0

/-- Both sides. -/
def sides : List Side := [.system, .line]

/-- Slots in use on one side of an OTUCn. -/
def slotsUsed (c : State) (k : Nat) (sd : Side) : Nat :=
  (tribsValid c).foldl (fun n q => if tribPair c q.1 = k then n + slotCount (q.2.mapOf sd) else n) 0

/-- The rows of R143 that concern one record, in order, each with its code; the duplicate rows follow. -/
def tribRules (c : State) (t : Nat) (r : Trib) : List (Bool × Nat) :=
  let k := tribPair c t
  let n := otnShape c k
  let map (sd : Side) : Bool := decide (2 ^ (20 * n) ≤ (r.mapOf sd).toNat) || slotCount (r.mapOf sd) != r.slots || r.portOf sd == 0 || decide (10 * n < r.portOf sd)
  let full (sd : Side) : Bool := decide ((if n ≤ 4 then 76 else 152) < slotsUsed c k sd)
  let named := (List.range 8).filterMap (fun j => let i := r.sas.get j 0xFFFF; if i = 0xFFFF then none else some i)
  let twin (f : Trib → Trib → Bool) : Bool := (tribsValid c).any (fun q => q.1 != t && tribPair c q.1 == k && f r q.2)
  let names := (scNames c ++ tribNames c).map Prod.fst
  [ (r.mode == 3 || 6 < r.kind || 3 < r.txKi || r.slots != tribSlots r || (r.kind == 6 && (r.rate < 1000000 || 796000000 < r.rate)), abRange),
    (0 < n && sides.any map, abRange),
    (0 < n && sides.any full, abRange),
    (twin (fun a b => sides.any (fun sd => a.mapOf sd &&& b.mapOf sd != 0 || a.portOf sd == b.portOf sd)), abDuplicate),
    (twin (fun a b => a.ident == b.ident), abDuplicate),
    (n == 0, abDangling),
    (r.mode != 0 && r.saAt .s2l r.txKi == 0xFFFF, abDangling),
    (named.any (fun i => 32767 < i || !(c.sa i).live), abDangling),
    (named.any (fun i => (c.sa i).suite < 2), abRange),
    (named.any (fun i => 2 ≤ names.count i), abDuplicate)]

/-- The first row of R143 that some valid tributary breaks. -/
def tribFailure (c : State) : Option Nat :=
  let l := (tribsValid c).map (fun q => tribRules c q.1 q.2)
  ((List.range 10).find? (fun i => l.any (fun rows => (rows.getD i (false, 0)).1))).map (fun i =>
    [abRange, abRange, abRange, abDuplicate, abDuplicate, abDangling, abDangling, abDangling, abRange, abDuplicate].getD i abRange)

/-- Defect control in range (R171). -/
def defectControlOk (v : Nat) : Bool := decide (2 ≤ v % 16) && decide (v % 16 ≤ 10) && decide (1 ≤ bits v 11 4) && decide (bits v 11 4 ≤ 100)

/-- Failures of the SC and tributary tables, which R251 step 5 checks with the key range. -/
def tableFailures (c : State) : List (Nat × Nat) :=
  ((scFailure c).map (fun n => (odKey 0x2410 1, n))).toList ++ ((tribFailure c).map (fun n => (odKey 0x2810 1, n))).toList

/-- Failures of the OTN range, shapes and the tributary table apart. -/
def otnFailures (st : Tab Octets) : List (Nat × Nat) :=
  refuseEach 0x2805 8 abRange (fun k => (stagedNat st 0x2805 (k + 1)).any (fun v => !defectControlOk v)) ++
  refuse 0x2811 1 abRange (!deltaOk 0x2811 1 80 256 st)

/-! ## Cipher fabric (R228, R230) -/

/-- Staged spindle commands, each checked against the state that the ones before it leave. -/
def spindleFailures (st : Tab Octets) : List Nat → State → List (Nat × Nat)
  | [], _ => []
  | i :: l, s => match stagedNat st 0x3005 (i + 1) with
    | none => spindleFailures st l s
    | some v => if spindleCmdOk s i v then spindleFailures st l (spindleCommand i v s) else (odKey 0x3005 (i + 1), abState) :: spindleFailures st l s

/-- Failures of the cipher-fabric range. -/
def fabricFailures (s c : State) (st : Tab Octets) : List (Nat × Nat) :=
  let lo := c.odNat 0x3002 4
  let hi := c.odNat 0x3002 5
  let fixed := c.odNat 0x3002 7
  refuse 0x3002 5 abRange (decide (hi < lo)) ++ refuse 0x3002 7 abRange (decide (fixed < lo) || decide (hi < fixed)) ++ spindleFailures st (List.range 28) s

/-! ## Queues (R283, R284) -/

/-- A queue record's own fields are in range. -/
def queueFieldsOk (x : Queue) : Bool :=
  decide (64 ≤ x.quantum) && decide (x.quantum ≤ 16777215) && decide (x.cir ≤ x.pir) && decide (x.pir ≤ 800000000) && (!x.shaper || decide (1000 ≤ x.pir)) &&
  (if 0 < x.cir then decide (10336 ≤ x.cbs) && decide (x.cbs ≤ 16777215) else x.cbs == 0) && decide (10336 ≤ x.pbs) && decide (x.pbs ≤ 16777215) &&
  decide (-64 ≤ x.overhead) && decide (x.overhead ≤ 64) && (x.limit == 0 || (decide (16 ≤ x.limit) && decide (x.limit ≤ 2097152)))

/-- A queue record as the commit leaves it: the code it is refused with. -/
def queueRule (s c : State) (w : Written) : Option Nat :=
  let x : Queue := c.path.queues.get w.idx {}
  let old : Queue := s.path.queues.get w.idx {}
  let port := x.port.getD (queueDefaultPort w.idx)
  if x.enabled && !queueFieldsOk x then some abRange
  else if port / 8 ≠ w.idx / 2048 then some abRange
  else if port ≠ old.port.getD (queueDefaultPort w.idx) ∧ (!old.items.isEmpty ∨ old.heldFrames ≠ 0) then some abState
  else none

/-- Failures of the scheduling range. -/
def queueFailures (s c : State) (st : Tab Octets) : List (Nat × Nat) :=
  let above (idx n : Nat) : Bool := ethPort c n && decide (562500 * portGbps c n < c.odNat idx (n + 1))
  (queueWrites s st).filterMap (fun w => (queueRule s c w).map (fun e => (w.key, e))) ++ refuse 0x3801 1 abRange (!queueDeltaOk st) ++
  refuseEach 0x3802 32 abRange (above 0x3802) ++ refuseEach 0x3803 32 abRange (above 0x3803) ++
  refuseEach 0x3806 32 abRange (fun n => decide (c.odNat 0x3805 (n + 1) ≤ c.odNat 0x3806 (n + 1)))

/-! ## Time, slots and pins (R323, R332, R341, R342, R474 to R478) -/

/-- Failures of the time entries. -/
def timeFailures (s c : State) (st : Tab Octets) : List (Nat × Nat) :=
  let src := c.odNat 0x4010 1
  let pd := c.odNat 0x4010 3
  let busy := s.odNat 0x4010 1 == 1 && s.time.servo == .locked
  let pin1 := (List.range 4).any (fun p => c.odNat 0x6000 (p + 1) == 1)
  let sc := c.odNat 0x4010 10
  refuse 0x4001 1 abState (busy && isStaged st 0x4001 1) ++ refuse 0x4001 2 abState (busy && isStaged st 0x4001 2) ++
  refuse 0x4010 1 abDangling (src == 2 && !pin1) ++ refuse 0x4010 3 abRange (src == 1 && !bitAt (c.odNat 0x4010 11) pd) ++
  refuse 0x4010 3 abDangling (src == 1 && !ethPort c (pd / 2)) ++ refuse 0x4010 5 abRange (src == 1 && (c.od 0x4010 5).all (· == 0)) ++
  refuse 0x4010 10 abDangling (sc != 0xFFFF && !txScOk c sc (pd / 2)) ++ refuse 0x4011 4 abRange (decide (c.odNat 0x4011 4 < c.odNat 0x4011 3)) ++
  refuse 0x4011 6 abRange ((stagedNat st 0x4011 6).any (fun v => 2 < v)) ++
  refuseEach 0x4012 32 abRange (fun n => [0, 4, 8, 12].any (fun o => decide (100000 < (signed 32 (leAt (c.od 0x4012 (n + 1)) o 4)).natAbs)))

/-- A slot is armed. -/
def Slot.isArmed (r : Slot) : Bool := r.state == 1
/-- A slot drives pin `p`. -/
def Slot.drives (r : Slot) (p : Nat) : Bool := r.isArmed && (r.action == 1 || r.action == 2) && r.target == p

/-- A record that arms a slot has its fields in range; `now` is the time before the commit. -/
def slotFieldsOk (r : Slot) (b : Octets) (now : Nat) : Bool :=
  decide (1 ≤ r.action) && decide (r.action ≤ 4) && decide (r.target ≤ if r.action = 3 then 0 else if r.action = 4 then 31 else 3) && time96Ok (slice b 4 12) &&
  (!r.periodic || (decide (100000 ≤ r.period) && decide (r.period ≤ 86400000000000))) &&
  (r.action != 1 || (decide (10 ≤ r.width) && decide (r.width ≤ 999999999) && (!r.periodic || decide (r.width < r.period)))) &&
  (r.periodic || decide (now + 655360000 ≤ r.first))

/-- The first time and the action of a slot record, which are held to R6 and R12 whether or not the record arms its slot; action 0 is a
cleared record's. -/
def slotValuesOk (r : Slot) (b : Octets) : Bool := time96Ok (slice b 4 12) && decide (r.action ≤ 4)

/-- The code a written slot record is refused with. -/
def slotRule (s c : State) (k : Nat) (st : Tab Octets) (i : Nat) : Option Nat :=
  let r := c.tslot i
  let old := s.tslot i
  if !slotValuesOk r ((stagedAt st 0x4020 (i + 1)).getD []) then some abRange
  else if r.isArmed && !slotFieldsOk r ((stagedAt st 0x4020 (i + 1)).getD []) s.time.now then some abRange
  else if r.isArmed && (r.action == 1 || r.action == 2) && c.odNat 0x6000 (r.target + 1) != 3 then some abDangling
  else if (old.isArmed && old.holder.any (· != k)) || (r.isArmed && r.action == 3 && r.periodic) then some abSlot
  else none

/-- The lowest slot that shares its pin with another armed slot. -/
def pinShared (c : State) : Option Nat :=
  (List.range 16).find? (fun i => (c.tslot i).isArmed && (List.range 16).any (fun j => i != j && (List.range 4).any (fun p => (c.tslot i).drives p && (c.tslot j).drives p)))

/-- The lowest slot whose session holds two armed slots of action 0x03. -/
def slotShared (c : State) : Option Nat :=
  let timed (i : Nat) : Bool := (c.tslot i).isArmed && (c.tslot i).action == 3
  (List.range 16).find? (fun i => timed i && (List.range 16).any (fun j => i != j && timed j && (c.tslot i).holder == (c.tslot j).holder))

/-- Failures of slots, pins and the retention claim. -/
def slotFailures (s c : State) (k : Nat) (st : Tab Octets) : List (Nat × Nat) :=
  let ones := (List.range 4).filter (fun p => c.odNat 0x6000 (p + 1) == 1)
  let moved (p : Nat) : Bool := s.odNat 0x6000 (p + 1) != c.odNat 0x6000 (p + 1) && (List.range 16).any (fun i => (s.tslot i).drives p)
  (slotsStaged st).filterMap (fun i => (slotRule s c k st i).map (fun e => (odKey 0x4020 (i + 1), e))) ++
  ((pinShared c).map (fun i => (odKey 0x4020 (i + 1), abPin))).toList ++ ((slotShared c).map (fun i => (odKey 0x4020 (i + 1), abSlot))).toList ++
  refuse 0x4030 1 abRetention (decide (1024 * 32768 < floorF c + shareT c + floorS c)) ++
  (if 2 ≤ ones.length then refuse 0x6000 (ones.headD 0 + 1) abRange true else []) ++ refuseEach 0x6000 4 abState moved

/-! ## Memory, random numbers, tool rest (R372, R373, R389, R392, R411, R413, R421, R423, R427) -/

/-- Failures of these ranges, tokens apart. -/
def testFailures (s c : State) (st : Tab Octets) : List (Nat × Nat) :=
  let raw (v : Nat) : Bool := v % 64 != 0 || !physMapped v
  refuse 0x4410 1 abRange ((stagedAt st 0x4410 1).any (fun b => !injectOk b)) ++ refuse 0x4420 1 abRange ((stagedNat st 0x4420 1).any raw) ++
  refuse 0x4804 2 abRange (decide (c.odNat 0x4804 1 < c.odNat 0x4804 2)) ++ refuse 0x4804 3 abRange (decide (c.odNat 0x4804 1 < c.odNat 0x4804 3)) ++
  refuse 0x4811 1 abRange ((stagedAt st 0x4811 1).any (fun b => !expanderVectorOk b)) ++ refuse 0x4811 1 abState (isStaged st 0x4811 1 && s.rng.simplex) ++
  refuse 0x4812 1 abState ((stagedNat st 0x4812 1).any (fun k => k != 0xFF && !captureOk s k)) ++
  refuse 0x5012 2 abRange (decide (c.odInt 16 0x5012 2 ≤ c.odInt 16 0x5012 1)) ++
  refuse 0x5030 2 abState ((stagedNat st 0x5030 2).any (fun v => (debugPowerCheck s v).isSome)) ++
  refuse 0x5041 2 abRange ((stagedAt st 0x5041 2).any (fun v => !ackOk s v)) ++
  (((stagedAt st 0x5050 2).bind (advanceCheck s)).map (fun e => (odKey 0x5050 2, e))).toList

/-! ## Power and resets (R41, R42, R474, R493, R494, R496) -/

/-- A configured pair, or a domain that is on, needs domain `d` (R41). -/
def domainNeeded (c : State) (d : Nat) : Bool :=
  let any := (List.range 8).any (pairUsed c)
  if d < 28 then false
  else if d < 44 then pairUsed c ((d - 28) % 8)
  else if d < 52 then (List.range 8).any (fun k => decide (0 < ethShape c k))
  else if d < 56 then true
  else if d < 60 then pairUsed c (2 * (d - 56)) || pairUsed c (2 * (d - 56) + 1)
  else if d < 64 then true
  else if d = 70 then c.odNat 0x5401 72 == 0
  else if d = 72 ∨ d = 73 ∨ d = 76 then true
  else d == 74 && any

/-- The code that a power request for domain `d` is refused with. -/
def powerRule (s c : State) (d v : Nat) : Option Nat :=
  let off (x : Nat) : Bool := c.odNat 0x5401 (x + 1) == 0
  let part := c.odNat 0x1010 3 != 0xFF && (c.slot (0x8000 + c.odNat 0x1010 3)).state == .filled
  if v = 0xFF then none
  else if v = 0 ∧ domainNeeded c d then some abPower
  else if domainClass d ≠ 2 then some abState
  else if v = 1 ∧ d = 77 ∧ !s.domOn 72 then some abPower
  else if v = 0 ∧ d = 75 ∧ (off 77 ∨ !part) then some abState
  else if v = 0 ∧ d = 77 ∧ off 75 then some abState
  else none

/-- A service reset, or a drain-type reset, is in progress (R494). -/
def resetBusy (s : State) : Bool :=
  s.power.service != .none || !s.power.drains.isEmpty || (List.range 80).any (fun d => drainType d && (s.domain d).state == 3)

/-- A domain accepts a reset request (R493). -/
def resetOk (s : State) (d : Nat) : Bool :=
  if resetBusy s then false
  else if d < 28 then spindleCmdOk s d 1
  else if 52 ≤ d ∧ d < 56 then s.fab.rebuild.isNone
  else if d = 66 ∨ d = 67 then s.domOn d && !chuckOut s (d == 66)
  else if d = 68 ∨ d = 69 then
    (match ctlOf s (d == 69) with
     | .active => ctlOf s (d == 68) == .standby
     | .standby => true
     | _ => false)
  else if d = 70 then s.domOn 70 && s.domOn 71
  else if d = 79 then false
  else s.domOn d

/-- Domains whose reset a staging asks for. -/
def resetsStaged (st : Tab Octets) : List Nat := (List.range 80).filter (fun d => isStaged st 0x5402 (d + 1))

/-- Failures of the power and reset range. -/
def powerFailures (s c : State) (st : Tab Octets) : List (Nat × Nat) :=
  let cmd := stagedNat st 0x5400 1
  let soon := (List.range 16).any (fun i => let r := s.tslot i; r.isArmed && r.action == 3 && decide (r.next ≤ s.time.now + 100000000 * 65536))
  let drains := (resetsStaged st).filter drainType
  let clash (d : Nat) : Bool := cmd == some 1 || (drainType d && drains.head? != some d)
  refuse 0x5400 1 abState (cmd == some 1 && (soon || s.power.service != .none)) ++
  ((List.range 80).filterMap (fun d => ((stagedNat st 0x5401 (d + 1)).bind (powerRule s c d)).map (fun e => (odKey 0x5401 (d + 1), e)))) ++
  ((resetsStaged st).filterMap (fun d => if resetOk s d && !clash d then none else some (odKey 0x5402 (d + 1), abState)))

/-! ## All of them -/

/-- Every failure outside the key range and its tables, tokens apart. Within one entry, an earlier failure of the list counts. -/
def checkFailures (s c : State) (k : Nat) (st : Tab Octets) (rules : Tab (Tab Rule)) : List (Nat × Nat) :=
  entryFailures s st ++ hostFailures s c st ++ classFailures s c st rules ++ shapeFailures s c ++ refuse 0x2411 1 abRange (!deltaOk 0x2411 1 32 16384 st) ++ otnFailures st ++ fabricFailures s c st ++
  queueFailures s c st ++ timeFailures s c st ++ slotFailures s c k st ++ testFailures s c st ++ powerFailures s c st

/-- The first failure in ascending index order (R431 step 4). -/
def firstFailure : List (Nat × Nat) → Option (Nat × Nat)
  | [] => none
  | q :: l => match firstFailure l with
    | none => some q
    | some r => if q.1 ≤ r.1 then some q else some r

end Sys2Proof.Machine
end

