-- ==== Sys2Proof/Machine/KeyRange.lean ====
section
/-! DEFINITION. The key range of a commit in the order of R251: stores, key commands, tables, rollovers, checks and deletes, with the
refusal of R278; enrollment (R240), ownership (R236) and tokens (R411), whose failures leave something behind. -/
namespace Sys2Proof.Machine

/-- What the checks of a commit have come to. -/
structure Checked where
  fails : List (Nat × Nat) := []
  /-- The state that stays if the commit is refused. -/
  base : State
  /-- The state that it would leave. -/
  cand : State
  run : KeyRun
deriving DecidableEq, Repr

/-- Add failures. -/
def Checked.refused (l : List (Nat × Nat)) (h : Checked) : Checked := { h with fails := h.fails ++ l }

/-- What R278 refuses while ZEROIZE_N is asserted. -/
def pinRefusals (s : State) (st : Tab Octets) : List (Nat × Nat) :=
  if !s.power.zeroizeN then []
  else
    let one (idx sub : Nat) : List (Nat × Nat) := refuse idx sub abState (isStaged st idx sub)
    let rolls := (rollScWrites s st ++ rollTribWrites s st).filter (fun w => bitAt (octet w.data 0) 0)
    one 0x3410 1 ++ one 0x3421 3 ++ one 0x3422 1 ++ one 0x3450 1 ++ one 0x3450 2 ++ rolls.map (fun w => (w.key, abState))

/-- Failures of the store writes (R262, R488). -/
def storeFailures (s : State) (st : Tab Octets) : List (Nat × Nat) :=
  let one (sa : Bool) (sub : Nat) : List (Nat × Nat) := match stagedAt st 0x3450 sub with
    | none => []
    | some b => refuse 0x3450 sub abRange (storeRecords sa b).isNone ++ refuse 0x3450 sub abState (!mpuReady s || s.power.start != .ready)
  one true 1 ++ one false 2

/-- Carry out the store writes in the state the commit would leave. -/
def storesPut (st : Tab Octets) (s : State) : State :=
  let one (sa : Bool) (sub : Nat) (s : State) : State := match (stagedAt st 0x3450 sub).bind (storeRecords sa) with
    | some l => storeApply sa l s
    | none => s
  one false 2 (one true 1 s)

/-- SA and rollover tables, images before deltas. -/
def keyTablesPut (s0 : State) (st : Tab Octets) (s : State) : State :=
  let s := saWriteAll (saWrites s0 st) s
  rollWriteAll true (rollTribWrites s0 st) (rollWriteAll false (rollScWrites s0 st) s)

/-- SAs that written SC and tributary records name. -/
def writtenNames (s0 s : State) (st : Tab Octets) : List Nat :=
  let sc := ((scWrites s0 st).map (fun w => (s.sc w.idx).sasNamed)).flatten
  let tr := ((tribWrites s0 st).map (fun w => ((s.tr w.idx).sas.map Prod.snd).filter (· ≠ 0xFFFF))).flatten
  (sc ++ tr).dedup

/-- The lowest entry among writes of record `i` that changed a field from what it was. -/
def changingEntry (l : List Written) (i : Nat) (changed : Octets → Bool) (other : Nat) : Nat :=
  match (l.filter (fun w => w.idx == i && changed w.data)).map Written.key with
  | [] => other
  | k :: ks => ks.foldl min k

/-- Changes of a transmit AN or KI behind an unwritten rollover record, at the lowest entry that changed it (R270). -/
def changeFailures (s0 s : State) (st : Tab Octets) : List (Nat × Nat) :=
  (rollChanged s0 s (rollScWrites s0 st) (rollTribWrites s0 st)).map (fun u => match u with
    | .sc i => (changingEntry (scWrites s0 st) i (fun b => (Sc.ofOctets b).txAn != (s0.sc i).txAn) (odKey 0x2410 1), abState)
    | .tributary t => (changingEntry (tribWrites s0 st) t (fun b => (Trib.written b {}).txKi != (s0.tr t).txKi) (odKey 0x2810 1), abState))

/-- Failures of R251 step 5. -/
def keyFailures (s0 s : State) (loaded : List Nat) (st : Tab Octets) : List (Nat × Nat) :=
  tableFailures s ++ changeFailures s0 s st ++ saFailures s0 s (saWrites s0 st) loaded (writtenNames s0 s st) st ++ rollFailures s0 s s0.time.now st

/-- A key command has failed: its record and reason are kept, whatever becomes of the commit. -/
def commandFailed (n reason : Nat) (k : KeyRun) : Checked :=
  { fails := [(odKey 0x3410 1, abKey)], base := keysRefused n reason k.b, cand := k.s, run := k }

/-- The key range of a commit whose other entries would leave `c`. What R278 refuses goes before everything else. A failure ends it;
under Lock it is not carried out. -/
def keyRange (s0 c : State) (st : Tab Octets) (ck : ChuckRun) : Checked :=
  let k : KeyRun := { s := c, b := s0, ck := ck }
  let stop (l : List (Nat × Nat)) (k : KeyRun) : Checked := { fails := l, base := k.b, cand := k.s, run := k }
  let early := pinRefusals s0 st
  let stores := storeFailures s0 st
  if !early.isEmpty then stop early k
  else if s0.locked then stop (tableFailures c) k
  else if !stores.isEmpty then stop stores k
  else
    let b := (stagedAt st 0x3410 1).getD []
    let k := keyCommands (b.length + 1) b { k with s := storesPut st k.s }
    match k.fail with
    | some (n, r) => commandFailed n r k
    | none =>
      let k := { k with s := keyTablesPut s0 st k.s }
      let l := keyFailures s0 k.s k.loaded st
      if !l.isEmpty then stop l k
      else match deleteFail k.s [] k.deletes with
        | some (n, r) => commandFailed n r k
        | none => stop (refuse 0x3410 1 abDangling (deleteDangles k.s k.deletes)) k

/-! ## Enrollment and ownership -/

/-- A refused request: its code, and its reason where it is a key-command failure; the session closes (R240). -/
def requestRefused (code reason : Nat) (h : Checked) : Checked :=
  let b := enrollClose h.base
  { h.refused [(odKey 0x3421 3, code)] with base := if code = abKey then keysRefused 0xFFFFFFFF reason b else b }

/-- Open a session and process a request, in this order. -/
def enrollChecked (st : Tab Octets) (h : Checked) : Checked :=
  let h := match stagedAt st 0x3421 1 with
    | some nk => { h with cand := enrollOpen nk h.cand }
    | none => h
  match stagedAt st 0x3421 3 with
  | none => h
  | some r =>
    if h.cand.locked || h.cand.power.zeroizeN then h
    else match enrollRun h.cand r with
      | .refused code reason => requestRefused code reason h
      | .installs target a key confirm =>
        let q := ({ h.run with s := h.cand, b := h.base } : KeyRun).fill target a key
        if q.1 ≠ 0 then requestRefused abKey q.1 { h with base := q.2.b }
        else
          let s := enrollClose { q.2.s with keys := { q.2.s.keys with confirm := confirm } }
          { h with cand := kekKeep target s, base := q.2.b }

/-- An ownership command of session `k`. -/
def ownerChecked (k : Nat) (st : Tab Octets) (s0 : State) (h : Checked) : Checked :=
  match stagedAt st 0x3422 1 with
  | none => h
  | some c => match ownerCheck s0 (decide (k < 64)) c with
    | some e => h.refused [(odKey 0x3422 1, e)]
    | none => h

/-! ## Tokens -/

/-- One token (R411): a refusal is acted on whatever becomes of the commit. -/
def tokenChecked (idx sub : Nat) (debug : Bool) (st : Tab Octets) (s0 : State) (h : Checked) : Checked :=
  match stagedAt st idx sub with
  | none => h
  | some t => match tokenCheck s0 t debug with
    | none => h
    | some (step, code) => { h.refused [(odKey idx sub, code)] with base := tokenRefused step (octet t 0) h.base }

/-! ## All checks of a commit -/

/-- Check the staging `st` of session `k` against state `s`; `extra` are failures found elsewhere. -/
def checkCommit (k : Nat) (st : Tab Octets) (ck : ChuckRun) (extra : List (Nat × Nat)) (s : State) : Checked :=
  let h := keyRange s (candidate k st s) st ck
  let h := ownerChecked k st s (enrollChecked st h)
  let h := tokenChecked 0x5030 1 true st s (tokenChecked 0x5020 2 false st s h)
  h.refused (checkFailures s h.cand k st (rulesAfter s st) ++ extra)

end Sys2Proof.Machine
end

