-- ==== Sys2Proof/Machine/Trees.lean ====
section
/-! DEFINITION. Cuts that a compile leaves: the trees it must have built (R55, R57 to R60, R69), what they take of the tree store (R61), and
the switch (R68, R72). -/
namespace Sys2Proof.Machine

/-! ## Bits of the key vector that a rule or a path fixes -/

/-- Key-vector bits that are fixed, and their values. -/
structure Fixed where
  mask : Nat := 0
  value : Nat := 0
deriving DecidableEq, Repr

/-- Some key vector has both. -/
def Fixed.meets (a b : Fixed) : Bool := (a.value ^^^ b.value) &&& a.mask &&& b.mask == 0
/-- Both at once. -/
def Fixed.both (a b : Fixed) : Fixed := { mask := a.mask ||| b.mask, value := a.value ||| b.value }
/-- Every key vector of `a` is one of `b`. -/
def Fixed.within (a b : Fixed) : Bool := (b.mask &&& a.mask) == b.mask && a.meets b

/-- A compare word laid back over the key vector, segment by segment (R55). -/
def spreadWord (word : Nat) : List Octets → Nat → Nat
  | [], _ => 0
  | g :: t, used =>
    let w := octet g 3
    let m := leAt g 0 2 % 512
    if w = 0 then spreadWord word t used else (bits word (191 - used) (192 - used - w) <<< (m + 1 - w)) ||| spreadWord word t (used + w)

/-- What a rule fixes of the key vector under a profile (R57). -/
def ruleFixed (profile : Octets) (r : Rule) : Fixed :=
  let segs := recordsOf 4 (padTo 32 profile)
  { mask := spreadWord r.mask.toNat segs 0, value := spreadWord (r.value &&& r.mask).toNat segs 0 }

/-- A rule's line (R58). -/
def ruleLine (r : Rule) : BitVec 512 := r.value ++ r.mask ++ r.action

/-- What child `i` of a node fixes beside its path; none where no key vector leads there. -/
def childFixed (windows : List (Nat × Nat)) (path : Fixed) (i : Nat) : Option Fixed :=
  (windows.reverse.foldl (fun (p : Option Fixed × Nat) q =>
    let here : Fixed := { mask := (2 ^ q.2 - 1) <<< (q.1 + 1 - q.2), value := (p.2 % 2 ^ q.2) <<< (q.1 + 1 - q.2) }
    (p.1.bind (fun a => if a.meets here then some (a.both here) else none), p.2 / 2 ^ q.2)) (some path, i)).1

/-! ## A tree that stands for its rules -/

/-- The block of a leaf holds, in ascending rule number, every rule that its path can meet, but for a rule that an earlier one of the
block covers there (R55, R57, R58). -/
def leafHolds (path : Fixed) : List (BitVec 512 × Fixed) → List (BitVec 512) → List Fixed → Bool
  | [], block, _ => block.isEmpty
  | r :: t, block, seen =>
    if block.head? = some r.1 then leafHolds path t block.tail (r.2 :: seen)
    else (!path.meets r.2 || seen.any (fun e => (path.both r.2).within e)) && leafHolds path t block seen

/-- A subtree stands for the rules on its path: node and leaf lines of R58, at most `n - 1` internal levels and 8 rules a leaf (R60). -/
def subtreeHolds (lines : Tab (BitVec 512)) (rules : List (BitVec 512 × Fixed)) : Nat → Nat → Fixed → Bool
  | 0, _, _ => false
  | n + 1, line, path =>
    let l := (lines.get line 0).toNat
    if bits l 511 510 = 1 then
      let ws := nodeWindows l
      let w : Nat := (ws.map Prod.snd).sum
      decide (1 ≤ w) && decide (w ≤ 12) && ws.all (fun q => decide (q.2 ≤ q.1 + 1)) &&
      (List.range (2 ^ w)).all (fun i => (childFixed ws path i).all (fun f => subtreeHolds lines rules n (bits l 455 424 + i) f))
    else if bits l 511 510 = 2 then
      decide (bits l 509 506 ≤ 8) && leafHolds path rules ((List.range (bits l 509 506)).map (fun i => lines.get (bits l 505 474 + i) 0)) []
    else false

/-- Every table of a cut with rules has a tree that stands for them. -/
def treesHold (c : Cut) (lines : Tab (BitVec 512)) : Bool :=
  (List.range 16).all (fun t =>
    let rules := c.rules.get t []
    match c.roots.find t with
    | none => rules.isEmpty
    | some root => subtreeHolds lines (rules.map (fun q => (ruleLine q.2, ruleFixed (c.profiles.get t (zeros 32)) q.2))) 13 root {})

/-- The lines of a compile are lines of the tree store, each once, and none that a live cut uses (R69). -/
def linesUnused (s : State) (tree : Compiled) : Bool :=
  let used := (s.cls.cuts.map (fun c => c.nodes ++ c.ruleLines)).flatten
  let new := tree.lines.map Prod.fst
  decide new.Nodup && new.all (fun l => decide (l < 8388608) && !used.contains l)

/-! ## Cuts (R58, R61, R69, R72) -/

/-- Lines reached from a line of a tree, within `n` levels: nodes and leaves, and rule lines. -/
def treeReach (lines : Tab (BitVec 512)) : Nat → Nat → List Nat × List Nat
  | 0, _ => ([], [])
  | n + 1, line =>
    let l := (lines.get line 0).toNat
    if bits l 511 510 = 1 then
      let w : Nat := ((nodeWindows l).map Prod.snd).sum
      let below := (List.range (2 ^ w)).map (fun i => treeReach lines n (bits l 455 424 + i))
      (line :: (below.map Prod.fst).flatten, (below.map Prod.snd).flatten)
    else if bits l 511 510 = 2 then ([line], (List.range (bits l 509 506)).map (fun i => bits l 505 474 + i))
    else ([line], [])

/-- The cut that a compile leaves, with its start tables: unchanged tables keep their tree. -/
def newCut (s0 s : State) (number : Nat) (rules : Tab (Tab Rule)) (tree : Compiled) : Cut × Tab (BitVec 512) :=
  let old := s0.cutNow
  let profile (t : Nat) : Octets := s.od 0x2020 (t + 1)
  let kept (t : Nat) : Bool := old.rules.get t [] == rules.get t [] && old.profiles.get t (zeros 32) == profile t
  let root (t : Nat) : Option (Nat × Nat) := if kept t then (old.roots.find t).map (fun r => (t, r)) else (tree.roots.find? (fun q => q.1 == t))
  let roots := (List.range 16).filterMap root
  let lines := tree.lines.foldl (fun t q => t.put q.1 q.2) s0.cls.lines
  let reach := roots.map (fun q => treeReach lines 13 q.2)
  let starts := (List.range 64).map (fun k => (k, s.odNat (if k % 2 = 0 then 0x2010 else 0x2011) (k / 2 + 1)))
  ({ number := number, state := .current, roots := roots, rules := rules, profiles := (List.range 16).map (fun t => (t, profile t)), starts := starts, nodes := (reach.map Prod.fst).flatten.dedup, ruleLines := (reach.map Prod.snd).flatten.dedup }, lines)

/-- Node and leaf lines of the cuts that would be live exceed the pinned share of the tree cache (R61). -/
def cutTooLarge (s : State) (c : Cut) : Bool := decide (262144 < (c.nodes ++ (s.cls.cuts.map Cut.nodes).flatten).dedup.length)

/-- A compile has come to trees that hold its tables within the depth and the leaves of R60 and the lines of R61. -/
def compiledOk (s : State) (tree : Compiled) (c : Cut × Tab (BitVec 512)) : Bool :=
  tree.fits && linesUnused s tree && treesHold c.1 c.2 && !cutTooLarge s c.1

/-- The longest path of the microcode image in force (OD 0x2000.03). -/
def longestPath (s : State) : Nat :=
  if (s.ctl.dict.find (odKey 0x2000 1)).isNone && (parseStarts s).all (· == 0) then 22 else microcodeLongest (microcode s) (parseStarts s).dedup

/-- The switch instant: the new cut is Current, the one before it Retiring, its lines have their backing copy (R38), and a new image is in
the other bank. -/
def switchCut (st : Tab Octets) (c : Cut × Tab (BitVec 512)) (s : State) : State :=
  let rest := s.cls.cuts.filter (fun x => x.number != c.1.number)
  let old := rest.map (fun x => if x.state == .current then { x with state := CutState.retiring } else x)
  let s := treeWrite (c.2.filter (fun q => s.cls.lines.find q.1 != some q.2)) s
  let s := { s with cls := { s.cls with cuts := old ++ [c.1], lines := c.2 } }
  let s := if isStaged st 0x2000 1 then { s with cls := { s.cls with bank := 1 - s.cls.bank, banks := s.cls.banks.put (1 - s.cls.bank) (microcode s) } } else s
  if stagedIn st 0x2000 0x2002 then { s with cls := { s.cls with longest := longestPath s } } else s

end Sys2Proof.Machine
end

