-- ==== Sys2Proof/Machine/Apply.lean ====
section
/-! DEFINITION. What a commit does at its apply instant beyond the values it leaves: cuts (R69, R72), shapes (R124, R170, R304), tributaries
(R159, R162), queues (R291, R292, R304), rings (R443), time (R318, R323), the test commands, power and resets (R490 to R494), the persistent
image (R437) and the log (R417). In every function `s0` is the state before the commit. -/
namespace Sys2Proof.Machine

/-- The applied value of an entry differs. -/
def odChanged (s0 s : State) (idx sub : Nat) : Bool := s0.od idx sub != s.od idx sub

/-! ## Tributaries -/

/-- A monitored entity was unconfigured in part of its current bins (R168). -/
def unconfigured (e : Nat) (s : State) : State := updPm e (markBins (fun b => { b with unconf := true })) s

/-- The aligners of a tributary start to hunt now, with their 3 ms before them (R132, R136). -/
def tribAligners (t : Nat) (s : State) : State :=
  let fresh : Aligner := { timer := s.time.cycles }
  { s with otn := { s.otn with tribAl := (s.otn.tribAl.put (2 * t) fresh).put (2 * t + 1) fresh } }

/-- A written tributary record takes effect (R159, R162), its defects and marks follow (R171), and its bins become suspect (R167). -/
def tribTakes (s0 : State) (t : Nat) (s : State) : State :=
  let a := s0.tr t
  let b := s.tr t
  let on (r : Trib) : Bool := r.valid && r.mode != 0
  let s := suspect (32 + 2 * t) (suspect (33 + 2 * t) s)
  let s := if a.valid == b.valid then s else unconfigured (32 + 2 * t) (unconfigured (33 + 2 * t) s)
  let s := if b.valid then (if a.valid then s else tribAligners t s)
    else let s := playClear t .l2s (playClear t .s2l s); { s with otn := { s.otn with trib := s.otn.trib.drop t, tribRaw := s.otn.tribRaw.drop t, tribAl := (s.otn.tribAl.drop (2 * t)).drop (2 * t + 1) } }
  if !on b then tribSaBits t (tribDefect t 16 false (tribDefect t 17 false (tribDefect t 18 false (updTr t (fun r => { r with rxState := 0, rxSeen := false, cmtOn := false, due := none, changes := [], blkOpen := false }) s))))
  else if !on a then tribSaBits t (acquire t (updTr t (fun r => { r with changes := [], blkOpen := false, blkKi := b.txKi }) s))
  else tribSaBits t (if a.txKi ≠ b.txKi then keyChangeDue t b.txKi s.time.now s else s)

/-! ## Shapes and their domains -/

/-- The automatic domains follow the configuration (R41, R493). -/
def domainsSettle (s : State) : State :=
  let eth := (List.range 8).any (fun k => decide (0 < ethShape s k))
  let want (d : Nat) : Option Bool :=
    if 28 ≤ d ∧ d < 44 then some (pairUsed s ((d - 28) % 8))
    else if 44 ≤ d ∧ d < 52 then some eth
    else if 56 ≤ d ∧ d < 60 then some (pairUsed s (2 * (d - 56)) || pairUsed s (2 * (d - 56) + 1))
    else if d = 64 ∨ d = 65 then some ((List.range 4).any (fun j => decide (0 < otnShape s (4 * (d - 64) + j))))
    else none
  let one (s : State) (d : Nat) : State := match want d with
    | some true => if (s.domain d).state = 0 then setDomain d 1 s else s
    | some false => if (s.domain d).state ≠ 0 then setDomain d 0 s else s
    | none => s
  lanesSettle ((List.range 80).foldl one s)

/-- Ports of a pair lose their links and what waits at egress, as link-down drops (R124, R304). -/
def portRestarts (n : Nat) (s : State) : State :=
  let s := updLink n (fun l => { l with status := 0, faultSys := false, faultLine := false }) s
  (pdsOf [n]).foldl (fun s p =>
    let late := (s.pd p).launchList ++ (s.pd p).lateList
    let s := late.foldl (fun s e => launchLost e s) s
    let s := (s.pd p).buffer.foldl (fun s e => discard e s) s
    let s := updPd p (fun r => { r with launchList := [], lateList := [], buffer := [], lineFree := 0, macBusy := 0, pausedUntil := none, pfcUntil := [], pauseWait := [], refreshAt := none, xoff := false, xoffPfc := 0 }) s
    (queuesOf s p).foldl (fun s i => discardQueue p i s) s) s

/-- The OTUCn of a pair starts anew: its aligners hunt, its defects clear, its tributaries acquire (R132, R138, R162). -/
def otucRestarts (k : Nat) (s : State) : State :=
  let o := s.otn
  let both (t : Tab W32) : Tab W32 := (t.drop (2 * k)).drop (2 * k + 1)
  let fresh : Aligner := { timer := s.time.cycles }
  let kept := o.slices.filter (fun q => decide (q.1 / 16 ≠ k))
  let slices := (List.range (otnShape s k)).foldl (fun (t : Tab Aligner) j => (t.put (16 * k + j) fresh).put (16 * k + 8 + j) fresh) kept
  let s := { s with otn := { o with slices := slices, side := both o.side, sideRaw := both o.sideRaw, pmStat := (o.pmStat.drop (2 * k)).drop (2 * k + 1) } }
  let s := otuSettle k .line (otuSettle k .system s)
  let s := (List.range 4).foldl (fun s j => unconfigured (4 * k + j) (suspect (4 * k + j) s)) s
  ((List.range 256).filter (fun t => t / 32 == k && (s.tr t).valid)).foldl (fun s t =>
    let s := tribShow t (tribAligners t s)
    tribAcquire t (playClear t .l2s (playClear t .s2l s))) s

/-- Transmit timing, traces and defect control of a pair change (R130, R138): what is sent back follows, and the bins of the pair's
entities become suspect (R167); the defect control is a matter of its tributaries too (DEDUCED, log 30). -/
def otnTakes (s0 s : State) : State :=
  let one (s : State) (k : Nat) : State :=
    let both (idx : Nat) : Bool := odChanged s0 s idx (2 * k + 1) || odChanged s0 s idx (2 * k + 2)
    let all := odChanged s0 s 0x2805 (k + 1)
    let s := if all || odChanged s0 s 0x2801 (k + 1) || both 0x2803 || both 0x2804 then (List.range 4).foldl (fun s j => suspect (4 * k + j) s) s else s
    let s := if all then (tribsOf s k).foldl (fun s t => suspect (32 + 2 * t) (suspect (33 + 2 * t) s)) s else s
    if otnShape s k = 0 then s else sideShow k .line (sideShow k .system s)
  ((List.range 8).filter (fun k => odChanged s0 s 0x2801 (k + 1) || odChanged s0 s 0x2805 (k + 1) || odChanged s0 s 0x2803 (2 * k + 1) || odChanged s0 s 0x2803 (2 * k + 2) || odChanged s0 s 0x2804 (2 * k + 1) || odChanged s0 s 0x2804 (2 * k + 2))).foldl one s

/-- Every pair whose shape changes (R124, R170). -/
def shapesTake (s0 s : State) : State :=
  let eth (k : Nat) : Bool := ethShape s0 k != ethShape s k
  let otn (k : Nat) : Bool := otnShape s0 k != otnShape s k
  let pairs := (List.range 8).filter (fun k => eth k || otn k)
  if pairs.isEmpty then s
  else
    let s := pairs.foldl (fun s k => (List.range 4).foldl (fun s j => portRestarts (4 * k + j) s) s) s
    let s := (pairs.filter otn).foldl (fun s k => otucRestarts k s) s
    domainsSettle s

/-! ## Queues (R291, R292, R304) -/

/-- A written queue record takes effect: a queue that is enabled, whose shaper is switched, or whose level or port changes takes its
state anew; a new rate, burst or quantum leaves it where it is (R291, R304). -/
def queueTakes (s0 : State) (key : Nat) (s : State) : State :=
  let a : Queue := s0.path.queues.get key {}
  let b : Queue := s.path.queues.get key {}
  let fresh := (b.enabled && !a.enabled) || (b.shaper && !a.shaper)
  let fill (x : Queue) : Queue :=
    if fresh then { x with tc := 256 * x.cbs, tp := 256 * x.pbs, last := s.time.ns }
    else { x with tc := min x.tc (256 * x.cbs), tp := min x.tp (256 * x.pbs) }
  let p : PD := ⟨Fin.ofNat 32 (b.port.getD (queueDefaultPort key)), if key / 1024 % 2 = 0 then .s2l else .l2s⟩
  let i := key % 1024
  let stays := b.enabled && a.enabled && a.shaper == b.shaper && a.level == b.level && a.port == b.port
  if stays then { s with path := { s.path with queues := s.path.queues.upd key {} fill } }
  else
  let s := leaveLists p i { s with path := { s.path with queues := s.path.queues.upd key {} fill } }
  let s := updQueue p i (fun x => { x with state := .empty }) s
  if b.enabled then restate p i s else discardQueue p i s

/-! ## Links and flow control (R91, R125, R299) -/

/-- Link-fault propagation entries take effect. -/
def linksTake (s0 s : State) : State :=
  (List.range 32).foldl (fun s n => if odChanged s0 s 0x2403 (n + 1) then propagationTakes s0 n s else s) s

/-- Limits, thresholds and flow-control modes take effect: a port whose mode changes starts with nothing paused, and its fill is held
against what now applies. -/
def flowTakes (s0 s : State) : State :=
  (List.range 32).foldl (fun s n =>
    let moved := odChanged s0 s 0x3804 (n + 1)
    let s := if moved then updPd ⟨Fin.ofNat 32 n, .s2l⟩ (fun r => { r with xoff := false, xoffPfc := 0, refreshAt := none }) s else s
    if moved || odChanged s0 s 0x3802 (n + 1) || odChanged s0 s 0x3805 (n + 1) || odChanged s0 s 0x3806 (n + 1) then xoffCheck (Fin.ofNat 32 n) s else s) s

/-! ## Rings (R443, R452) -/

/-- Transactions of a mailbox ring that wait for completion are forgotten with its indices. -/
def ringForget (r : Nat) (s : State) : State := { s with ctl := { s.ctl with held := s.ctl.held.filter (fun h => !(h.ring && h.session == r)) } }

/-- A ring's configuration takes effect: enabling restarts it from index 0, disabling closes a mailbox session. -/
def ringTakes (s0 : State) (st : Tab Octets) (s : State) (r : Nat) : State :=
  if (st.find (ringKey r)).isNone then s
  else
    let was := bitAt (octet (ringCfg s0 r) 9) 0
    let on := bitAt (octet (ringCfg s r) 9) 0
    if on && (!was || (s.ring r).state != 1) then
      let lost := (s.ring r).lostNow
      let s := ringForget r (updRing r (fun _ => { state := 1, lostNow := lost }) s)
      if 1088 ≤ r then flushLost (r - 1088) s else s
    else if !on && (was || ringBoot s0 r) then
      let lost := (s.ring r).lostNow
      let s := ringForget r (updRing r (fun _ => { lostNow := lost }) s)
      if r < 64 then closeStaging r s else s
    else s

/-- Every ring that the staging configures. -/
def ringsTake (s0 : State) (st : Tab Octets) (s : State) : State :=
  if stagedIn st 0x1800 0x1804 then (List.range 1120).foldl (ringTakes s0 st) s else s

/-! ## Urzidun sessions -/

/-- Close Urzidun session slot `i` (R433, R457). -/
def urzClose (i : Nat) (s : State) : State :=
  if (s.urz.sessions.get i {}).isOpen then { (closeStaging (64 + i) s) with urz := { s.urz with sessions := s.urz.sessions.drop i } } else s

/-- A change of the part key slot closes every Urzidun session (R457). -/
def channelTakes (s0 s : State) : State := if odChanged s0 s 0x1010 3 then (List.range 64).foldl (fun s i => urzClose i s) s else s

/-! ## Time and pins (R318, R323, R336) -/

/-- The slot that drove output pin `p` is rewritten by the commit, so that the pin is inactive until its new record acts (R336; DEDUCED, log 116). -/
def pinFreed (s0 : State) (st : Tab Octets) (s : State) (p : Nat) : Bool :=
  let names (r : Slot) : Bool := (r.action == 1 || r.action == 2) && r.target == p
  (slotsStaged st).any (fun i => names (s0.tslot i)) && !(List.range 16).any (fun i => !(slotsStaged st).contains i && (s.tslot i).state == 1 && names (s.tslot i))

/-- The time entries take effect. -/
def timeTakes (s0 : State) (st : Tab Octets) (s : State) : State :=
  let s := if odChanged s0 s 0x4010 1 then servoSource (s.odNat 0x4010 1) s else s
  let s := if odChanged s0 s 0x4010 3 || odChanged s0 s 0x4010 4 then servoMaster s else s
  let s := if odChanged s0 s 0x4011 6 then servoPolicy s else s
  let s := match stagedAt st 0x4001 1 with | some b => setTimeTo (time96Of b) s | none => s
  let s := match stagedNat st 0x4001 2 with | some v => timeGiven (signed 64 v) s | none => s
  let off (s : State) (p : Nat) : State :=
    if odChanged s0 s 0x6000 (p + 1) || pinFreed s0 st s p then updPin p (fun q => { q with active := false, pulseEnd := none }) s else s
  (List.range 4).foldl (fun s p => pinSettle p s) (lockPins ((List.range 4).foldl off s))

/-- Rollovers whose notice has come and whose incoming SA the commit enables (R273). -/
def noticesTake (s : State) : State :=
  let c := (s.keys.rollSc.filter (fun q => q.2.state == 1 && q.2.atNotice)).map (fun q => rollUser false q.1)
  let t := (s.keys.rollTrib.filter (fun q => q.2.state == 1 && q.2.atNotice)).map (fun q => rollUser true q.1)
  (c ++ t).foldl (fun s u => rollAtNotice u s) s

/-! ## Fabric (R191, R230, R495) -/

/-- The cipher-fabric entries take effect. -/
def fabricTakes (st : Tab Octets) (s : State) : State :=
  let s := if stagedIn st 0x3002 0x3003 then fixedRail { s with fab := { s.fab with fixedSent := s.fab.fixedSent && !(isStaged st 0x3002 7) } } else s
  let s := (List.range 28).foldl (fun s i => match stagedNat st 0x3005 (i + 1) with | some v => spindleCommand i v s | none => s) s
  if s.power.parked && s.odNat 0x5404 1 = 0 then settleRoles { s with power := { s.power with parked := false } } else s

/-! ## Memory, random numbers and tool rest -/

/-- The test entries take effect (R371, R372, R389). -/
def testsTake (st : Tab Octets) (s : State) : State :=
  let s := match stagedAt st 0x4410 1 with | some b => injectFault b s | none => s
  let s := match stagedNat st 0x4420 1 with | some p => rawView p s | none => s
  let s := match stagedAt st 0x4810 1 with | some b => { s with rng := { s.rng with katCond := conditionerTest b } } | none => s
  let s := match stagedAt st 0x4811 1 with | some b => if b.isEmpty then s else { s with rng := { s.rng with katExp := expanderTest b } } | none => s
  match stagedNat st 0x4812 1 with | some k => if k = 0xFF then s else captureStart k s | none => s

/-- Tokens, debug power, acknowledgements and advances take effect (R412, R413, R421, R423). -/
def restTakes (st : Tab Octets) (s : State) : State :=
  let s := match stagedAt st 0x5020 2 with | some t => unlocked t s | none => s
  let s := match stagedAt st 0x5030 1 with | some _ => debugAccepted s | none => s
  let s := match stagedNat st 0x5030 2 with | some v => debugPower v s | none => s
  let s := match stagedAt st 0x5041 2 with | some _ => ackApply s | none => s
  match stagedAt st 0x5050 2 with | some v => advanceApply v s | none => s

/-! ## Power and resets -/

/-- Switch a requestable domain (R493). PD75 takes the link down once the commit's response is written (R494). -/
def powerSwitch (d : Nat) (on : Bool) (s : State) : State :=
  if on then
    (if (s.domain d).state ≠ 0 then s
     else
      let s := setDomain d 1 s
      if d = 71 then (let s := sourcesStart 1 s; { s with rng := Rng.seedHalf 1 s.rng }) else s)
  else if (s.domain d).state = 0 then s
  else
    let s := if d = 71 then setDomain 71 0 (sourcesOff 1 s) else setDomain d 0 s
    if d ≠ 71 then s
    else
      let g := s.rng.setHalf 1 none
      { s with rng := if s.rng.serving = 1 then { g with serving := 0, count := 0 } else g }

/-- The link goes down with PD75, and comes up with it (R452, R494). -/
def pcieSettle (s : State) : State :=
  if s.power.pcieUp && (s.domain 75).state = 0 then { (flr s) with power := { s.power with pcieUp := false } }
  else if !s.power.pcieUp && (s.domain 75).state = 1 && s.reachable then { (ringZero s) with power := { s.power with pcieUp := true } }
  else s

/-- Requests of OD 0x5401. -/
def powerTakes (st : Tab Octets) (s : State) : State :=
  ([71, 75, 77] : List Nat).foldl (fun s d => match stagedNat st 0x5401 (d + 1) with | some v => powerSwitch d (v != 0) s | none => s) s

/-- Resets of OD 0x5402, and the reset commands of OD 0x5400.01 (R490 to R492). -/
def resetsTake (st : Tab Octets) (s : State) : State :=
  let s := (resetsStaged st).foldl (fun s d => if drainType d then drainStart 1 (drainDomains d) (drainPorts s d) s else domainReset d 1 s) s
  match stagedNat st 0x5400 1 with
  | some 1 => drainStart 3 [] (List.range 32) { s with power := { s.power with service := .draining, resetCounts := s.power.resetCounts.bump 3 1 } }
  | some 2 => { s with power := { s.power with coldAt := some (s.time.cycles + cyclesUs 1000) } }
  | _ => s

/-! ## The persistent image (R437, R438) -/

/-- Entries that the tool rest keeps in MRAM (R401) are not part of an image. -/
def inToolRest (idx sub : Nat) : Bool := idx == 0x5010 || idx == 0x5012 || (idx == 0x5013 && sub == 1)

/-- One entry of an image: index, subindex, length, value. -/
def imageEntry (key : Nat) (b : Octets) : Octets := beBytes 3 key ++ beBytes 4 b.length ++ b

/-- The queue records that differ from their defaults, as the octets of a queue delta. -/
def queueImage (s : State) : Octets :=
  let dflt (k : Nat) : Octets := Queue.record {} (queueDefaultPort k)
  let one (q : Nat × Queue) : Octets := let r := q.2.record (queueDefaultPort q.1); if r = dflt q.1 then [] else oct (q.1 / 2048) ++ oct (q.1 / 1024 % 2) ++ leBytes 2 (q.1 % 1024) ++ r
  (s.path.queues.map one).flatten

/-- The values an image holds: every persistent RW and RWL entry that differs from its default (layout: log 38). -/
def imageBody (s : State) : Octets :=
  let keep (q : Nat × Octets) : Bool := ((entryAt (q.1 / 256) (q.1 % 256)).any (fun e => e.pers)) && !inToolRest (q.1 / 256) (q.1 % 256)
  ((s.ctl.dict.filter keep).map (fun q => imageEntry q.1 q.2)).flatten ++ imageEntry (odKey 0x3801 1) (queueImage s)

/-- The key of the images. -/
def imageKey : Octets := kdf frk "LLX CFG" [] 256

/-- The octets of an image of save count `n`. -/
def imageSeal (n : Nat) (body : Octets) : Octets :=
  let iv := beBytes 12 n
  let c := gcmCrypt imageKey iv body
  beBytes 8 n ++ c ++ gcmTag imageKey iv (beBytes 8 n) c

/-- The values of an image body, as a staging. -/
def imageValues : Nat → Octets → Tab Octets
  | 0, _ => []
  | k + 1, b => if b.length < 7 then [] else let n := beAt b 3 4; (imageValues k (b.drop (7 + n))).put (beAt b 0 3) (slice b 7 n)

/-- Open an image: its save count and its values; none where it does not authenticate. -/
def imageOpen (b : Octets) : Option (Nat × Tab Octets) :=
  let n := beAt b 0 8
  let iv := beBytes 12 n
  let c := (b.drop 8).take (b.length - 24)
  if b.length < 24 ∨ gcmTag imageKey iv (beBytes 8 n) c ≠ b.drop (b.length - 16) then none
  else some (n, imageValues c.length (gcmCrypt imageKey iv c))

/-- The slot of the newest valid image with its save count and values. -/
def newestImage (s : State) : Option (Nat × Nat × Tab Octets) :=
  let l := s.ctl.images.filterMap (fun q => (imageOpen q.2.2).map (fun v => (q.1, v.1, v.2)))
  l.foldl (fun a q => match a with | some r => if r.2.1 < q.2.1 then some q else a | none => some q) none

/-- Begin a save, to the slot that does not hold the newest valid image. -/
def saveStart (s : State) : State :=
  let slot := match newestImage s with | some q => 1 - q.1 | none => 0
  let n := s.ctl.saveCount.toNat + 1
  { s with ctl := { s.ctl with saving := some (slot, n, imageSeal n (imageBody s)), imageStatus := (s.ctl.imageStatus &&& 0x06) ||| 1 } }

/-- The flash write of a save ends. -/
def saveEnd (ok : Bool) (s : State) : State :=
  match s.ctl.saving with
  | none => s
  | some (slot, n, b) =>
    let c := { s.ctl with saving := none, imageStatus := (s.ctl.imageStatus &&& 0x06) ||| (if ok then 0 else 8) }
    if ok then emit (.flash slot b) { s with ctl := { c with images := c.images.put slot (n, b), saveCount := BitVec.ofNat 64 n } } else { s with ctl := c }

/-! ## The log (R417) -/

/-- One entry per RWL entry that the commit changes; tables and commands count as changed where staged. -/
def logConfig (s0 : State) (st : Tab Octets) (s : State) : State :=
  st.foldl (fun s q =>
    let idx := q.1 / 256
    let sub := q.1 % 256
    match entryAt idx sub with
    | some e => if e.acc == .rwl && (!plainEntry idx e || odChanged s0 s idx sub) then logEntry 0x0050 0xFF (beBytes 2 idx ++ oct sub) s else s
    | none => s) s

/-! ## All of it -/

/-- Ownership and zeroize commands, which come last (R235, R277). -/
def lastTakes (st : Tab Octets) (s : State) : State :=
  let s := match stagedAt st 0x3422 1 with | some c => ownerApply c s | none => s
  match stagedNat st 0x3460 1 with
  | some 1 => zeroizeData (logZeroize 1 0xFF s)
  | some 2 => zeroizeWhole (logZeroize 2 0xFF s)
  | _ => s

/-- Apply a commit that passed its checks: `h` is what they came to, `cut` the cut it makes. -/
def applyCommit (s0 : State) (st : Tab Octets) (h : Checked) (cut : Option (Cut × Tab (BitVec 512))) : State :=
  let s := { h.cand with ctl := { h.cand.ctl with generation := h.cand.ctl.generation + 1, applyAt := s0.time.now } }
  let s := keysApply h.run s
  let s := match cut with | some c => switchCut st c s | none => s
  let s := otnTakes s0 (shapesTake s0 s)
  let s := ((tribWrites s0 st).map Written.idx).dedup.foldl (fun s t => tribTakes s0 t s) s
  let s := ((queueWrites s0 st).map Written.idx).dedup.foldl (fun s k => queueTakes s0 k s) s
  let s := channelTakes s0 (ringsTake s0 st (flowTakes s0 (linksTake s0 s)))
  let s := noticesTake (timeTakes s0 st s)
  let s := restTakes st (testsTake st (fabricTakes st s))
  let s := logConfig s0 st s
  let s := if isStaged st 0x1F01 1 then saveStart s else s
  lastTakes st (resetsTake st (powerTakes st s))

end Sys2Proof.Machine
end

