-- ==== Sys2Proof/Machine/Commit.lean ====
section
/-! DEFINITION. Commits one at a time (R431, R432): a commit write is turned away, waits, compiles (R69, R70), or is checked and applied or
refused; and the timed commit and other actions of a scheduled-action slot (R333 to R335). -/
namespace Sys2Proof.Machine

/-! ## One commit -/

/-- A transaction waits while a controller starts or a service reset restarts the part (R466, R491). -/
def controlWaits (s : State) : Bool := (ctlIn s .starting).isSome || s.power.service == .resetting

/-- A transaction is served now. -/
def controlServes (s : State) : Bool := s.controlUp && !controlWaits s

/-- Session `k` exists: a mailbox session while its ring is enabled, or an open Urzidun session (R428). -/
def sessionOpen (s : State) (k : Nat) : Bool := if k < 64 then ringEnabled s k else (s.urz.sessions.get (k - 64) {}).isOpen

/-- A commit of session `k` is in progress (R432). -/
def commitBusy (s : State) (k : Nat) : Bool := s.ctl.job.any (fun j => j.session == k) || s.ctl.queue.any (fun j => j.session == k)

/-- Change the state of session `k`. -/
def updSession (k : Nat) (f : Session → Session) (s : State) : State := { s with ctl := { s.ctl with sessions := s.ctl.sessions.upd k {} f } }

/-- The result of a classification commit (OD 0x2050.05, R69). Where a check outside 0x2000 to 0x23FF refuses the commit, the spec does not
say what the entry then holds: the model has it hold 0, as no build failed (DESIGN CHOICE, log 112). -/
def classResult (st : Tab Octets) (fails : List (Nat × Nat)) (s : State) : State :=
  if !classifies st then s
  else
    let own := fails.filter (fun q => decide (odKey 0x2000 0 ≤ q.1) && decide (q.1 < odKey 0x2400 0))
    { s with cls := { s.cls with result := ((firstFailure own).map Prod.snd).getD 0 } }

/-- Steps 3 to 5 of R431: check the staging `st` of session `k` and apply it, or refuse it whole; the code of the result. -/
def runCommit (k : Nat) (st : Tab Octets) (ck : ChuckRun) (extra : List (Nat × Nat)) (cut : Option (Cut × Tab (BitVec 512))) (s : State) : Nat × State :=
  let h := checkCommit k st ck extra s
  match firstFailure h.fails with
  | some q => (q.2, classResult st h.fails h.base)
  | none => (0, classResult st [] (applyCommit s st h cut))

/-- The result of a session's last commit (OD 0x1F00.03), while the session exists. -/
def setLast (k code : Nat) (s : State) : State :=
  if (s.ctl.sessions.find k).isSome then updSession k (fun x => { x with last := code }) s else s

/-- Steps 2 to 6 of R431 for a commit whose staging is frozen. -/
def endCommit (j : Job) (extra : List (Nat × Nat)) (cut : Option (Cut × Tab (BitVec 512))) (s : State) : Nat × State :=
  let q := if j.expected ≠ 0 ∧ j.expected ≠ s.ctl.generation.toNat then (abGeneration, s) else runCommit j.session j.staged j.chucks extra cut s
  (q.1, setLast j.session q.1 q.2)

/-- Live cuts (R70). -/
def cutsLive (s : State) : Nat := s.cls.cuts.length

/-- Take up a commit: it compiles or waits for a cut (no code yet), or ends at once. -/
def takeUp (j : Job) (s : State) : Option Nat × State :=
  let now (extra : List (Nat × Nat)) : Option Nat × State := let q := endCommit j extra none s; (some q.1, q.2)
  if !classifies j.staged || (j.expected ≠ 0 && j.expected != s.ctl.generation.toNat) then now []
  else if isStaged j.staged 0x2000 1 && s.cls.cuts.any (fun c => c.state == .retiring) then now [(odKey 0x2000 1, abCut)]
  else
    let s := { s with ctl := { s.ctl with job := some { j with waiting := true } } }
    (none, if cutsLive s < 4 then startCompile s else s)

/-- Note the end of a commit for the transaction that waits for it. -/
def finish (k code : Nat) (s : State) : State :=
  if s.ctl.held.any (fun h => h.session == k) then { s with ctl := { s.ctl with finished := s.ctl.finished ++ [(k, code)] } } else s

/-- Take up the commits that wait, oldest first, until one compiles. -/
def serveQueue : Nat → State → State
  | 0, s => s
  | n + 1, s =>
    match s.ctl.job, s.ctl.queue with
    | none, j :: rest =>
      if controlServes s then
        let q := takeUp j { s with ctl := { s.ctl with queue := rest } }
        match q.1 with
        | some code => serveQueue n (finish j.session code q.2)
        | none => q.2
      else s
    | _, _ => s

/-- A commit write reaches the controller with its staging frozen: its result, or none while it is in progress. -/
def commitArrive (j : Job) (s : State) : Option Nat × State :=
  if commitBusy s j.session then (some abPending, s)
  else if s.ctl.job.isSome || !s.ctl.queue.isEmpty || controlWaits s then (none, { s with ctl := { s.ctl with queue := s.ctl.queue ++ [j] } })
  else if s.controlUp then takeUp j s
  else (some abControl, s)

/-- The job of a commit write. -/
def jobOf (k : Nat) (st : Tab Octets) (expected : Nat) (ck : ChuckRun) (s : State) : Job :=
  { session := k, staged := st, waiting := false, at_ := s.time.cycles, cut := 0, expected := expected, chucks := ck }

/-- A write to OD 0x1F00.01 (R431 step 1): the session's staging is frozen unless the write is turned away. -/
def commitWrite (k expected : Nat) (ck : ChuckRun) (s : State) : Option Nat × State :=
  let j := jobOf k (s.session k).staged expected ck s
  if commitBusy s k || (!controlWaits s && !s.controlUp) then commitArrive j s
  else commitArrive j (updSession k (fun x => { x with staged := [] }) s)

/-! ## The end of a compile (R69, R70) -/

/-- The commit in progress leaves the engine, and its Compiling cut is Free. -/
def jobOut (s : State) : State :=
  { s with ctl := { s.ctl with job := none }, cls := { s.cls with cuts := s.cls.cuts.filter (fun c => c.state != CutState.compiling) } }

/-- Where a failure of the cut as a whole is reported: the lowest staged entry of the trees. -/
def cutFailure (st : Tab Octets) (code : Nat) : List (Nat × Nat) := [(lowestStaged st 0x2000 0x2400, code)]

/-- The compiler is done. -/
def compileEnd (tree : Compiled) (s : State) : State :=
  match s.ctl.job with
  | none => s
  | some j =>
    if j.waiting || !controlServes s then s
    else
      let s := jobOut s
      let cut := newCut s (candidate j.session j.staged s) j.cut (rulesAfter s j.staged) tree
      let q := endCommit j (if compiledOk s tree cut then [] else cutFailure j.staged abCapacity) (some cut) s
      serveQueue (q.2.ctl.queue.length + 1) (finish j.session q.1 q.2)

/-- No cut has become Free for 1 ms. -/
def cutWaitEnd (s : State) : State :=
  match s.ctl.job with
  | none => s
  | some j =>
    if !j.waiting then s
    else
      let s := jobOut (waitCycle (j.at_ + cyclesUs 1000) s)
      let q := endCommit j (cutFailure j.staged abCut) none s
      serveQueue (q.2.ctl.queue.length + 1) (finish j.session q.1 q.2)

/-! ## Slots (R333 to R335, R432) -/

/-- Entries that a timed commit may not hold (R432). -/
def timedHolds (st : Tab Octets) : Bool :=
  stagedIn st 0x2000 0x2400 || (List.range 8).any (fun k => isStaged st 0x2400 (k + 1) || isStaged st 0x2800 (k + 1))

/-- The staging that slot `i` applies at T: its session's, or the one that passed to it at the close. -/
def slotStaging (r : Slot) (s : State) : Tab Octets :=
  match r.passed, r.holder with
  | some st, _ => st
  | none, some k => (s.session k).staged
  | none, none => []

/-- The timed commit of slot `i`, whose record was `r`: the slot is Done, and in Fault with its event where the commit is refused. Its apply
instant is T (R335), reached within one clock cycle; a slot that fires after its T (R333, R334) applies when it fires. -/
def slotCommit (i : Nat) (r : Slot) (s : State) : State :=
  let st := slotStaging r s
  let k := r.holder.getD 0
  let s := updTslot i (fun x => { x with passed := none }) (slotPast i true 2 s)
  let s := if r.passed.isNone then updSession k (fun x => { x with staged := [] }) s else s
  let q := if timedHolds st then (abState, s) else if s.controlUp || controlWaits s then runCommit k st .agree [] none s else (abControl, s)
  let s := if r.passed.isNone then setLast k q.1 q.2 else q.2
  if q.1 = 0 then (if s.time.now ≤ r.next + 41944 then { s with ctl := { s.ctl with applyAt := r.next } } else s)
  else post { type := 0x4007, source := i, a := q.1 } (updTslot i (fun x => { x with state := 3, fired := r.fired }) s)

/-- The slot that acts at the occurrence of slot `i`: of the slots due at the same instant the lowest (R334). -/
def slotFirst (i : Nat) (s : State) : Nat :=
  let acts (r : Slot) : Bool := r.periodic || ((s.domain 74).state != 3 && (s.time.isSet || r.seen == 0))
  ((List.range i).find? (fun j => (s.tslot j).state == 1 && (s.tslot j).next == (s.tslot i).next && (s.tslot i).state == 1 && acts (s.tslot j))).getD i

/-- The time unit reaches the occurrence of slot `i`, or its Set flag is set after a missed one of a non-periodic slot. While PD74
restarts, a periodic slot misses its occurrence and a non-periodic one waits (R326). -/
def slotDue (i : Nat) (s : State) : State :=
  let r := s.tslot i
  if r.state ≠ 1 then s
  else
    let s := waitTime r.next s
    if (s.domain 74).state = 3 then (if r.periodic then slotPast i false 2 s else s)
    else if !s.time.isSet then (if !r.periodic && decide (0 < r.seen) then s else slotPast i false 2 s)
    else if r.action = 3 then slotCommit i r s
    else slotPast i true 2 (slotAct i r s)

end Sys2Proof.Machine
end

