-- ==== Sys2Proof/Machine/Transact.lean ====
section
/-! DEFINITION. Transactions: the request and response records (R434, R435), segments and snapshots (R436), the rights of entries (R13), what is
staged and what acts at once (R429, R433), and the limits of staging (R429). -/
namespace Sys2Proof.Machine

/-! ## Records -/

/-- A request record's fields (R434). -/
structure Request where
  op : Nat
  flags : Nat
  idx : Nat
  sub : Nat
  tag : Nat
  off : Nat
  len : Nat
  data : Octets
deriving DecidableEq, Repr

/-- Read a request record. -/
def requestOf (b : Octets) : Request :=
  let n := leAt b 16 2
  { op := octet b 0, flags := octet b 1, idx := leAt b 2 2, sub := octet b 4, tag := leAt b 8 4, off := leAt b 12 4, len := n, data := (b.drop 24).take n }

/-- Write a request record. -/
def requestRecord (op flags idx sub off len : Nat) (data : Octets) : Octets :=
  oct op ++ oct flags ++ leBytes 2 idx ++ oct sub ++ zeros 3 ++ zeros 4 ++ leBytes 4 off ++ leBytes 2 len ++ zeros 6 ++ data

/-- Octets padded with zeros to a multiple of 4. -/
def pad4 (b : Octets) : Octets := b ++ zeros ((4 - b.length % 4) % 4)

/-- A response record (R435). -/
def responseOf (q : Request) (code : Nat) (more : Bool) (data : Octets) (size : Nat) : Octets :=
  oct (q.op ||| 0x80) ++ oct (bit more) ++ leBytes 2 q.idx ++ oct q.sub ++ zeros 3 ++ leBytes 4 q.tag ++ leBytes 4 code ++ leBytes 2 data.length ++
  zeros 2 ++ leBytes 4 size ++ pad4 data

/-- Present size of an entry. -/
def entrySize (s : State) (k idx sub : Nat) (e : Entry) : Nat :=
  match e.ty with
  | .upTo _ => if e.acc == .wo then 0 else (readValue s k idx sub).length
  | t => t.size

/-! ## Reads -/

/-- Cycles for which a snapshot lasts. -/
def snapshotCycles : Nat := 10 * secCycles

/-- A session's live snapshot of an entry. -/
def snapshotOf (s : State) (k key : Nat) : Option Octets :=
  ((s.session k).snaps.find key).bind (fun q => if s.time.cycles < q.2 + snapshotCycles then some q.1 else none)

/-- The value a read is served from, and what serving it changes. -/
def readServed (k : Nat) (q : Request) (e : Entry) (s : State) : Octets × State :=
  let key := odKey q.idx q.sub
  let v := if e.acc == .wo then zeros (entrySize s k q.idx q.sub e) else readValue s k q.idx q.sub
  if bitAt q.flags 2 then (v, readClears q.idx q.sub (updSession k (fun x => { x with snaps := x.snaps.put key (v, s.time.cycles) }) s))
  else match snapshotOf s k key with
    | some c => (c, s)
    | none => (v, readClears q.idx q.sub s)

/-- Execute a read. -/
def readRecord (k : Nat) (q : Request) (e : Entry) (s : State) : Octets × State :=
  if bitAt q.flags 2 && q.off != 0 then (responseOf q abSegment false [] (entrySize s k q.idx q.sub e), s)
  else
    let r := readServed k q e s
    (responseOf q 0 (decide (q.off + q.len < r.1.length)) (slice r.1 q.off q.len) r.1.length, r.2)

/-! ## Writes -/

/-- Octets a session has staged, with what of it is frozen (R429, R431). -/
def stagedBytes (s : State) (k : Nat) : Nat :=
  let frozen := (s.ctl.job.toList ++ s.ctl.queue).filter (fun j => j.session == k)
  (s.session k).size + frozen.foldl (fun n j => n + j.staged.foldl (fun n q => n + q.2.length) 0) 0

/-- Octets all sessions have staged. -/
def stagedTotal (s : State) : Nat := (List.range 128).foldl (fun n k => n + stagedBytes s k) 0

/-- Stage a whole value (R429): replaced, or concatenated where the entry is a delta or a command. -/
def stageValue (k idx sub : Nat) (e : Entry) (v : Octets) (s : State) : Nat × State :=
  let key := odKey idx sub
  let old := (s.session k).staged.get key []
  let new := if concatenated idx sub then old ++ v else v
  if e.ty.size < new.length ∨ 16777216 < stagedBytes s k + new.length - old.length ∨ 50331648 < stagedTotal s + new.length - old.length then (abStaging, s)
  else (0, updSession k (fun x => { x with staged := x.staged.put key new }) s)

/-- Clear the bits written as 1 of an RWC entry (R13). -/
def clearBits (idx sub : Nat) (v : Octets) (s : State) : State :=
  let w32 (i : Nat) (x : W32) : W32 := x &&& ~~~(BitVec.ofNat 32 (leAt v (4 * i) 4))
  let o := s.otn
  match idx with
  | 0x2821 => { s with otn := { o with sideLatched := o.sideLatched.mapAll (fun i x => if i / 2 + 1 = sub then w32 (i % 2) x else x) } }
  | 0x2823 => { s with otn := { o with tribLatched := o.tribLatched.mapAll w32 } }
  | 0x4401 => { s with mpu := { s.mpu with latched := s.mpu.latched &&& ~~~(BitVec.ofNat 16 (leNat v)) } }
  | 0x5002 => { s with rest := { s.rest with alertLatch := s.rest.alertLatch &&& ~~~(BitVec.ofNat 64 (leNat v)) } }
  | _ => s

/-- A whole value written to an entry: its code, or none while a commit is in progress. -/
def writeWhole (k : Nat) (ck : ChuckRun) (q : Request) (e : Entry) (v : Octets) (s : State) : Option Nat × State :=
  if !concatenated q.idx q.sub && !e.ty.fits v then (some abLength, s)
  else if q.idx = 0x1F00 ∧ q.sub = 1 then commitWrite k (leNat v) ck s
  else if q.idx = 0x1F00 ∧ q.sub = 2 then
    (if leNat v = 1 then (some 0, updSession k (fun x => { x with staged := [] }) s) else (some abRange, s))
  else if e.acc = .rwc then (some 0, clearBits q.idx q.sub v s)
  else
    let r := stageValue k q.idx q.sub e v s
    (some r.1, r.2)

/-- One segment of a write (R436). -/
def writeSegment (k : Nat) (ck : ChuckRun) (q : Request) (e : Entry) (s : State) : Option Nat × State :=
  let key := odKey q.idx q.sub
  let without (s : State) : State := if ((s.session k).partials.find key).isSome then updSession k (fun x => { x with partials := x.partials.drop key }) s else s
  match (if bitAt q.flags 0 then some [] else (s.session k).partials.find key) with
  | none => (some abSegment, s)
  | some b =>
    let v := b ++ q.data
    if q.off ≠ b.length then (some abSegment, without s)
    else if e.ty.size < v.length then (some (if concatenated q.idx q.sub then abStaging else abLength), without s)
    else if bitAt q.flags 1 then writeWhole k ck q e v (without s)
    else (some 0, updSession k (fun x => { x with partials := x.partials.put key v }) s)

/-- Execute a write. -/
def writeRecord (k : Nat) (ck : ChuckRun) (q : Request) (e : Entry) (s : State) : Option Nat × State :=
  if e.acc = .ro then (some abReadOnly, s)
  else if e.acc = .rwl ∧ s.locked then (some abLocked, s)
  else if q.data.length ≠ q.len then (some abLength, s)
  else writeSegment k ck q e s

/-! ## One transaction -/

/-- Execute one request record of session `k`: its response record, or none while its commit is in progress. -/
def runRecord (k : Nat) (b : Octets) (ck : ChuckRun) (s : State) : Option Octets × State :=
  let q := requestOf b
  let abort (code size : Nat) : Option Octets × State := (some (responseOf q code false [] size), s)
  if !sessionOpen s k then abort abClosed 0
  else if !s.controlUp then abort abControl 0
  else match entryAt q.idx q.sub with
    | none => abort abMissing 0
    | some e =>
      if q.op ≠ 1 ∧ q.op ≠ 2 then abort abRange (entrySize s k q.idx q.sub e)
      else if q.len = 0 ∨ 4096 < q.len then abort abLength (entrySize s k q.idx q.sub e)
      else if q.op = 1 then (let r := readRecord k q e s; (some r.1, r.2))
      else
        let r := writeRecord k ck q e s
        (r.1.map (fun code => responseOf q code false [] (entrySize r.2 k q.idx q.sub e)), r.2)

/-- The abort code of a response record. -/
def responseCode (b : Octets) : Nat := leAt b 12 4

/-- The response of a commit that has ended, to its request record. -/
def commitResponse (header : Octets) (code : Nat) : Octets := responseOf (requestOf header) code false [] 8

/-- A transaction of the rows of their own: executed, or held while a controller starts (R466). -/
def transact (k : Nat) (b : Octets) (ck : ChuckRun) (s : State) : State :=
  if !s.reachable then s
  else if controlWaits s then { s with ctl := { s.ctl with intake := s.ctl.intake ++ [(k, b, ck)] } }
  else
    let r := runRecord k b ck s
    match r.1 with
    | some x => emit (.response k x) r.2
    | none => { r.2 with ctl := { r.2.ctl with held := r.2.ctl.held ++ [{ session := k, header := b.take 24 }] } }

end Sys2Proof.Machine
end

