-- ==== Sys2Proof/Machine/Urzidun.lean ====
section
/-! DEFINITION. The Urzidun channel, PD77: what it accepts and forwards (R453, R460), its sessions and requests (R457, R458), heartbeats and peers
(R461). -/
namespace Sys2Proof.Machine

/-! ## Received messages -/

/-- The other direction of the same port. -/
def backPd (p : PD) : PD := { p with dir := match p.dir with | .s2l => .l2s | .l2s => .s2l }

/-- Octets between the addresses and the EtherType: the VLAN tags. -/
def urzTags (s : State) (d : Octets) : Octets := slice d 12 (4 * tagCount s.tpid d)

/-- The message of a frame of the channel. -/
def urzBody (s : State) (d : Octets) : Octets := d.drop (14 + 4 * tagCount s.tpid d)

/-- Message type, session number, sequence, payload and MAC. -/
def urzType (m : Octets) : Nat := octet m 0 % 16
def urzNumber (m : Octets) : Nat := beAt m 8 4
def urzSeq (m : Octets) : Nat := beAt m 12 8
def urzPayload (m : Octets) : Octets := slice m 24 (beAt m 20 2)
def urzTag (m : Octets) : Octets := slice m (24 + beAt m 20 2) 16

/-- Version and lengths are right: what follows the MAC can only be the padding of a shortest frame (R453). -/
def urzFormOk (s : State) (d : Octets) : Bool :=
  let m := urzBody s d
  let n := 40 + beAt m 20 2
  be16 d (12 + 4 * tagCount s.tpid d) == 0x88B5 && octet m 0 / 16 == 1 && decide (beAt m 20 2 ≤ 8704) && beAt m 6 2 != 0xFFFF &&
  (m.length == n || (decide (n < m.length) && d.length == 60))

/-- The session slot that a number names, where it is open. -/
def urzSlotOf (s : State) (number : Nat) : Option Nat :=
  let i := number % 256
  let x := s.urz.sessions.get i {}
  if i < 64 ∧ x.isOpen ∧ x.number = number then some i else none

/-- Key and nonces of a message for this part, by its type (R455, R456); none where no key or session verifies it. -/
def urzSealing (s : State) (m : Octets) : Option (Octets × Octets × Octets) :=
  let sel := octet m 22
  match urzType m with
  | 1 => if sel = 0 then (partKey s).map (fun k => (k, [], [])) else none
  | 3 | 5 => if sel = 0 then (match partKey s, urzSlotOf s (urzNumber m) with | some k, some i => some (k, (s.urz.sessions.get i {}).np, (s.urz.sessions.get i {}).nc) | _, _ => none) else none
  | 6 => if sel = 1 then (domainKey s).map (fun k => (k, [], [])) else none
  | _ => none

/-- A frame dropped and counted: event 0x1005 at most once a second (R448, R453). -/
def urzRefuse (p : PD) (s : State) : State :=
  let n := s.urz.refused.get p.key 0 + 1
  let sec := s.time.cycles / secCycles + 1
  if s.urz.refusedAt.get p.key 0 = sec then { s with urz := { s.urz with refused := s.urz.refused.put p.key n } }
  else post { type := 0x1005, source := p.key, a := n } { s with urz := { s.urz with refused := s.urz.refused.put p.key 0, refusedAt := s.urz.refusedAt.put p.key sec } }

/-- Forward a message that is not for this part, or drop it at the end of its hops (R460). -/
def urzForward (p : PD) (d : Octets) (s : State) : State :=
  let o := 14 + 4 * tagCount s.tpid d
  let hop := octet d (o + 1)
  let sc := match p.dir with | .s2l => s.odNat 0x1012 (p.port + 1) | .l2s => 0xFFFF
  if 2 ≤ hop then urzCount 5 (urzSend p (patch d (o + 1) [BitVec.ofNat 8 (hop - 1)]) sc s) else urzCount 6 s

/-- A message for this part has a payload of the length of its type (R455; DEDUCED, log 54). -/
def urzPayloadOk (m : Octets) : Bool :=
  let n := beAt m 20 2
  match urzType m with
  | 1 => n == 16
  | 3 => decide (n ≤ 8192)
  | 5 => n == 0
  | 6 => n == 24
  | _ => true

/-- A message is for this part (R460). -/
def urzForUs (s : State) (m : Octets) : Bool :=
  domainPartId s != 0xFFFF && (urzType m == 6 || (beAt m 2 2 == s.odNat 0x1010 2 && beAt m 4 2 == domainPartId s))

/-- What the channel does with a received frame: a message for this part whose MAC verifies waits for the step of its type. -/
def urzTake (p : PD) (d : Octets) (s : State) : State :=
  let m := urzBody s d
  let dirOn := bitAt (s.odNat 0x1011 (p.port + 1)) p.dir.num
  if !s.reachable || !s.domOn 77 || !dirOn then s
  else if !urzFormOk s d then urzRefuse p s
  else if !urzForUs s m then urzForward p d s
  else if !urzPayloadOk m then urzRefuse p s
  else match urzSealing s m with
    | none => urzRefuse p (if urzType m = 3 ∨ urzType m = 5 then urzCount 2 s else s)
    | some (key, np, nc) =>
      if urzMac key np nc (m.take (24 + beAt m 20 2)) = urzTag m then { s with urz := { s.urz with accepted := s.urz.accepted ++ [(p, d)] } }
      else urzRefuse p (urzCount 2 s)

/-- Take the front message where it has one of the types. -/
def urzFront (types : List Nat) (s : State) : Option (PD × Octets × State) :=
  match s.urz.accepted with
  | (p, d) :: rest => if types.contains (urzType (urzBody s d)) then some (p, d, { s with urz := { s.urz with accepted := rest } }) else none
  | [] => none

/-! ## Replies (R460) -/

/-- Send a reply to the frame it answers; the message octets and the state. -/
def urzReply (p : PD) (d : Octets) (sealing : Octets × Octets × Octets) (type number : Nat) (payload : Octets) (s : State) : Octets × State :=
  let m := urzBody s d
  let h := urzHeader s type (beAt m 6 2) number (urzSeq m) payload.length 0 (s.odNat 0x1010 6)
  let r := urzMessage sealing.1 sealing.2.1 sealing.2.2 h payload
  (r, urzSend (backPd p) (urzFrame (slice d 6 6) (portMac s p.port) (urzTags s d) r) 0xFFFF s)

/-- Send the Response to a request or a Close, and keep it for a retransmission (R458). -/
def urzRespond (p : PD) (d : Octets) (sealing : Octets × Octets × Octets) (payload : Octets) (s : State) : State :=
  let n := urzNumber (urzBody s d)
  let r := urzReply p d sealing 4 n payload s
  let s := urzCount 1 r.2
  match urzSlotOf s n with
  | some i => { s with urz := { s.urz with sessions := s.urz.sessions.upd i {} (fun x => { x with lastResp := r.1 }) } }
  | none => s

/-! ## Requests (R455, R458) -/

/-- Length of the first request record of a payload. -/
def recordLen (b : Octets) : Nat := 24 + (if octet b 0 = 2 then (leAt b 16 2 + 3) / 4 * 4 else 0)

/-- Answers to the records that are no longer executed, as far as the payload holds them. -/
def notExecuted : Nat → Octets → Octets → Octets
  | 0, _, out => out
  | n + 1, b, out =>
    if b.length < 24 ∨ 8704 < out.length + 24 then out
    else notExecuted n (b.drop (recordLen b)) (out ++ responseOf (requestOf (b.take 24)) abNotExecuted false [] 0)

/-- Execute the records of a request in order: the Response's payload, or none while a commit among them is in progress. -/
def runRecords : Nat → Held → State → Option Octets × State
  | 0, h, s => (some h.done, s)
  | n + 1, h, s =>
    if h.rest.length < 24 then (some h.done, s)
    else
      let b := h.rest.take (recordLen h.rest)
      let rest := h.rest.drop (recordLen h.rest)
      let r := runRecord h.session b .agree s
      match r.1 with
      | some x => if 8704 < h.done.length + x.length then (some (notExecuted (n + 1) h.rest h.done), s) else runRecords n { h with header := [], rest := rest, done := h.done ++ x } r.2
      | none =>
        if 8704 < h.done.length + 24 then (some (notExecuted (n + 1) h.rest h.done), s)
        else (none, { r.2 with ctl := { r.2.ctl with held := r.2.ctl.held ++ [{ h with header := b.take 24, rest := rest }] } })

/-- Carry a request on to its Response. -/
def urzRun (h : Held) (s : State) : State :=
  let r := runRecords (h.rest.length + 1) h s
  match r.1, h.frame with
  | some b, some (p, d) => urzRespond p d h.sealing b r.2
  | _, _ => r.2

/-- A request whose MAC has verified: executed once, answered again, or dropped as a replay. -/
def urzRequested (p : PD) (d : Octets) (s : State) : State :=
  let m := urzBody s d
  match urzSlotOf s (urzNumber m), partKey s with
  | some i, some key =>
    let x := s.urz.sessions.get i {}
    let put (y : UrzSession) (s : State) : State := { s with urz := { s.urz with sessions := s.urz.sessions.put i y } }
    if urzSeq m = x.highest + 1 then
      let s := urzCount 0 (put { x with highest := urzSeq m, lastMac := urzTag m, lastResp := [], lastAt := s.time.cycles } s)
      let h : Held := { session := 64 + i, header := [], sealing := (key, x.np, x.nc), rest := urzPayload m, frame := some (p, d) }
      if controlWaits s then { s with ctl := { s.ctl with held := s.ctl.held ++ [h] } } else urzRun h s
    else if urzSeq m = x.highest ∧ urzTag m = x.lastMac then
      let s := put { x with lastAt := s.time.cycles } s
      if x.lastResp.isEmpty then s else urzCount 4 (urzSend (backPd p) (urzFrame (slice d 6 6) (portMac s p.port) (urzTags s d) x.lastResp) 0xFFFF s)
    else urzCount 3 s
  | _, _ => urzRefuse p s

/-! ## Opening and closing (R457) -/

/-- The free session slot, or the one idle longest. -/
def urzSlotNext (s : State) : Nat :=
  let x (i : Nat) : UrzSession := s.urz.sessions.get i {}
  match (List.range 64).find? (fun i => !(x i).isOpen) with
  | some i => i
  | none => (List.range 64).foldl (fun a i => if (x i).lastAt < (x a).lastAt then i else a) 0

/-- A valid Open: a session with a drawn Np; it waits while the generator cannot serve. -/
def urzOpened (s : State) : State :=
  match urzFront [1] s with
  | none => s
  | some (p, d, t) =>
    match partKey t, rngDraw 16 t with
    | some key, some (np, t) =>
      let i := urzSlotNext t
      let t := urzClose i t
      let c := (t.urz.opened + 1) % 2 ^ 24
      let m := urzBody t d
      let nc := padTo 16 (urzPayload m)
      let x : UrzSession := { isOpen := true, number := 256 * c + i, console := beAt m 6 2, nc := nc, np := np, lastAt := t.time.cycles }
      let t := { t with urz := { t.urz with opened := c, sessions := t.urz.sessions.put i x } }
      (urzReply p d (key, np, nc) 2 x.number (beBytes 4 x.number ++ np) t).2
    | none, _ => t
    | some _, none => s

/-- A Close: answered with an empty Response. -/
def urzClosed (s : State) : State :=
  match urzFront [5] s with
  | none => s
  | some (p, d, t) =>
    match urzSlotOf t (urzNumber (urzBody t d)), partKey t with
    | some i, some key =>
      let x := t.urz.sessions.get i {}
      urzClose i (urzRespond p d (key, x.np, x.nc) [] t)
    | _, _ => urzRefuse p t

/-- 300 s without a valid request. -/
def urzIdle (i : Nat) (s : State) : State :=
  let x := s.urz.sessions.get i {}
  if x.isOpen then urzClose i (waitCycle (x.lastAt + 300 * secCycles) s) else s

/-! ## Heartbeats (R461) -/

/-- The heartbeat's payload. -/
def beatPayload (p : PD) (s : State) : Octets :=
  urzTime s ++ oct s.rest.state.code ++ oct (bit s.time.isSet + 2 * bit s.controlUp + 4 * bit s.locked) ++ beBytes 2 p.port.val ++ zeros 2 ++ beBytes 8 s.rest.headSeq

/-- Send the heartbeat of a port-direction, 1 s after the one before it. -/
def beatSend (p : PD) (s : State) : State :=
  match domainKey s with
  | none => s
  | some key =>
    if s.power.start != .ready || !s.domOn 77 || domainPartId s == 0xFFFF || !bitAt (s.odNat 0x1011 (p.port + 1)) 2 then s
    else
      let s := waitCycle (s.urz.beatDue.get p.key 0) s
      let seq := s.urz.beatSeq + 1
      let m := urzMessage key [] [] (urzHeader s 6 0xFFFF 0 seq 24 1 1) (beatPayload p s)
      urzSend p (urzFrame (padTo 6 (s.od 0x1010 5)) (portMac s p.port) [] m) 0xFFFF
        { s with urz := { s.urz with beatSeq := seq, beatDue := s.urz.beatDue.put p.key (s.time.cycles + secCycles) } }

/-- While both parts' time is Set, a heartbeat's seconds agree within 10 s. -/
def beatTimeOk (b : Octets) (s : State) : Bool :=
  let own := s.time.secs
  let its := beAt b 0 6
  !(s.time.isSet && bitAt (octet b 11) 0) || (decide (own ≤ its + 10) && decide (its ≤ own + 10))

/-- A heartbeat whose MAC has verified. -/
def beatHeard (s : State) : State :=
  match urzFront [6] s with
  | none => s
  | some (p, d, t) =>
    let m := urzBody t d
    let b := urzPayload m
    if b.length ≠ 24 ∨ !beatTimeOk b t then urzRefuse p t
    else
      let old := t.urz.peers.get p.key {}
      let id := beAt m 6 2
      let t := { t with urz := { t.urz with peers := t.urz.peers.put p.key { present := true, partId := id, lastAt := t.time.cycles } } }
      if old.present ∧ old.partId = id then t else notice 3 p.key 0 0 (post { type := 0x1004, source := p.key, a := id } t)

/-- No valid heartbeat for 3.5 s. -/
def peerLost (p : PD) (s : State) : State :=
  let x := s.urz.peers.get p.key {}
  if !x.present then s
  else
    let s := waitCycle (x.lastAt + 7 * secCycles / 2) s
    notice 2 p.key 0 0 (post { type := 0x1003, source := p.key, a := x.partId } { s with urz := { s.urz with peers := s.urz.peers.put p.key { x with present := false } } })

end Sys2Proof.Machine
end

