-- ==== Sys2Proof/Machine/Host.lean ====
section
/-! DEFINITION. The PCIe endpoint's rings (R442 to R446), the end of held transactions (R431, R432, R466, R467), and the commands of the host
interface, the controllers and those after which a held transaction can end. -/
namespace Sys2Proof.Machine

/-! ## Mailbox rings (R444) -/

/-- A response cut to the response buffer, with flag [0] set. -/
def cutResponse (n : Nat) (b : Octets) : Octets :=
  if b.length ≤ n then b else patch (patch (b.take n) 1 [BitVec.ofNat 8 (octet b 1 ||| 1)]) 16 (leBytes 2 (n - 24))

/-- Write a response into the buffer of a descriptor; the completion of its slot. -/
def mailboxAnswer (desc b : Octets) (s : State) : Octets × State :=
  let n := leAt desc 18 2
  let fits := decide (24 ≤ n) && decide (n ≤ 4120)
  let r := cutResponse n b
  let done (len : Nat) : Octets := leBytes 4 (responseCode b) ++ leBytes 2 len ++ zeros 2 ++ leBytes 8 s.ctl.generation.toNat ++ zeros 4 ++ slice desc 20 4 ++ zeros 7 ++ oct 1
  if fits then (done r.length, emit (.dma (leAt desc 8 8) r) s) else (done 0, s)

/-- Transactions of a mailbox ring that are executed and not completed. -/
def ringHeld (s : State) (r : Nat) : List Held := s.ctl.held.filter (fun h => h.ring && h.session == r)

/-- Complete in ring order what is ready. -/
def ringFlush : Nat → Nat → State → State
  | 0, _, s => s
  | n + 1, r, s =>
    match ringHeld s r, (s.ring r).posted with
    | h :: _, (desc, _) :: _ =>
      if !h.ready then s
      else
        let a := mailboxAnswer desc h.done s
        ringFlush n r (ringComplete r a.1 { a.2 with ctl := { a.2.ctl with held := a.2.ctl.held.erase h } })
    | _, _ => s

/-- Execute the transaction of one descriptor behind `e` that are not completed. A commit that reconfigures its own ring completes in
the slot its descriptor came from. -/
def mailboxOne (r e : Nat) (desc data : Octets) (s : State) : State :=
  let x := s.ring r
  let b := data.take (leAt desc 16 2)
  let ok := decide (24 ≤ leAt desc 16 2) && decide (leAt desc 16 2 ≤ 4120) && decide (24 ≤ leAt desc 18 2) && decide (leAt desc 18 2 ≤ 4120)
  let q := if ok then runRecord r b .agree s else (some (responseOf (requestOf b) abLength false [] 0), s)
  let t := q.2
  let hold (h : Held) : State := { t with ctl := { t.ctl with held := t.ctl.held ++ [h] } }
  if (t.ring r).posted.length < x.posted.length then
    match q.1 with
    | some a =>
      let a := mailboxAnswer desc a t
      gatherOne r (emit (.dma (ringBase s r + 32 * ((x.part + e) % ringSlots s r)) a.1) a.2)
    | none => t
  else match q.1 with
    | some a => if e = 0 then (let a := mailboxAnswer desc a t; ringComplete r a.1 a.2) else hold { session := r, ring := true, header := [], ready := true, done := a }
    | none => hold { session := r, ring := true, header := b.take 24 }

/-- Consume the descriptors of a mailbox ring. -/
def ringServe : Nat → Nat → State → State
  | 0, _, s => s
  | n + 1, r, s =>
    if (s.ring r).state ≠ 1 ∨ !s.reachable ∨ controlWaits s then s
    else
      let e := (ringHeld s r).length
      match (s.ring r).posted.drop e with
      | [] => s
      | (desc, data) :: _ => ringServe n r (mailboxOne r e desc data s)

/-- Every mailbox ring. -/
def ringsServe (s : State) : State := (List.range 64).foldl (fun s r => ringServe (s.ring r).posted.length r s) s

/-! ## The end of held transactions -/

/-- Answer the transaction that waited for a commit of session `k`. -/
def answer (k code : Nat) (s : State) : State :=
  match s.ctl.held.find? (fun h => h.session == k && !h.ready && !h.header.isEmpty) with
  | none => s
  | some h =>
    let b := commitResponse h.header code
    let out : State := { s with ctl := { s.ctl with held := s.ctl.held.erase h } }
    if h.ring then
      let mark (g : Held) : Held := if g = h then { g with ready := true, done := b } else g
      ringFlush s.ctl.held.length k { s with ctl := { s.ctl with held := s.ctl.held.map mark } }
    else match h.frame with
      | none => emit (.response k b) out
      | some _ => urzRun { h with header := [], done := h.done ++ b } out

/-- Answer every commit that has ended. -/
def serveFinished : Nat → State → State
  | 0, s => s
  | n + 1, s =>
    match s.ctl.finished with
    | [] => s
    | (k, code) :: rest => serveFinished n (answer k code { s with ctl := { s.ctl with finished := rest } })

/-- No controller is Active and none starts: the commits in progress end with the code for it (R467). -/
def commitsFail (s : State) : State :=
  let l := s.ctl.job.toList ++ s.ctl.queue
  let s := { (jobOut s) with ctl := { (jobOut s).ctl with queue := [] } }
  l.foldl (fun s j => finish j.session abControl (setLast j.session abControl s)) s

/-- Serve what waited for a controller: commits, transactions of the rows, and Urzidun requests (R466). -/
def resume (s : State) : State :=
  if !s.reachable || controlWaits s then s
  else
    let s := if s.controlUp then serveQueue (s.ctl.queue.length + 1) s else commitsFail s
    let rows := s.ctl.intake
    let s := if rows.isEmpty then s else rows.foldl (fun s q => transact q.1 q.2.1 q.2.2 s) { s with ctl := { s.ctl with intake := [] } }
    let urz := s.ctl.held.filter (fun h => h.header.isEmpty && h.frame.isSome)
    if urz.isEmpty then s else urz.foldl (fun s h => urzRun h { s with ctl := { s.ctl with held := s.ctl.held.erase h } }) s

/-- What the active controller records: the generation, the applied values and what each session has staged (layout: log 110). -/
def controlRecord (s : State) : Octets :=
  let values (t : Tab Octets) : Octets := (t.map (fun q => imageEntry q.1 q.2)).flatten
  let dict := values s.ctl.dict ++ imageEntry (odKey 0x3801 1) (queueImage s)
  leBytes 8 s.ctl.generation.toNat ++ leBytes 4 dict.length ++ dict ++
  (s.ctl.sessions.map (fun q => if q.2.staged.isEmpty then [] else leBytes 2 q.1 ++ leBytes 4 (values q.2.staged).length ++ values q.2.staged)).flatten

/-- The active controller records what a transaction has changed in its checkpoint, before the response is released (R38, R466). -/
def controlCheckpoint (s : State) : State :=
  if s.controlUp && mpuReady s && s.ctl.recorded != controlRecord s then controlWrite { s with ctl := { s.ctl with recorded := controlRecord s } }
  else s

/-- What follows every command of the dictionary: waiting transactions, answers, and a link that PD75 takes down or up. -/
def dictServe (s : State) : State :=
  let s := resume s
  let s := serveFinished (s.ctl.held.length + s.ctl.finished.length + 1) s
  pcieSettle (ringsServe s)

/-- The dictionary is served, and the active controller's checkpoint follows it. -/
def dictSettle (s : State) : State := controlCheckpoint (dictServe s)

/-- Read every line of the controller's checkpoint: whether it passes its check, where the memory protection unit serves (R464). -/
def controlLoad (s : State) : Bool × State :=
  if mpuReady s then (let r := readLines 11 0x134000000 ((s.ctl.recorded.length + 63) / 64) (settleRewrites s); (r.1.any (fun d => d.take s.ctl.recorded.length == s.ctl.recorded), r.2)) else (true, s)

/-- The Starting controller has powered up and loads its checkpoint: it starts, unless it or the checkpoint fails (R464). -/
def controlStart (ok : Bool) (s : State) : State :=
  if (ctlIn s .starting).isNone then s else let r := controlLoad s; startDone (ok && r.1) r.2

/-! ## Doorbells (R442, R443) -/

/-- A doorbell of a ring the host writes: the descriptors up to an index, with what their DMA reads return. -/
def doorbellPosts (r index : Nat) (dma : List (Octets × Octets)) (s : State) : State :=
  let x := s.ring r
  let n := ringSlots s r
  let new := (index + n - x.host % n) % n
  if n ≤ index ∨ n < x.posted.length + new then ringError r 1 s
  else updRing r (fun x => { x with host := index, posted := x.posted ++ (List.range new).map (fun i => dma.getD i (zeros 32, [])) }) s

/-- A doorbell of an event ring: the read index. -/
def doorbellReads (r index : Nat) (s : State) : State :=
  let x := s.ring r
  let n := ringSlots s r
  if n ≤ index ∨ (x.part + n - x.host % n) % n < (index + n - x.host % n) % n then ringError r 1 s
  else flushLost (r - 1088) (updRing r (fun x => { x with host := index }) s)

/-- A doorbell write; a ring that is off or in error does not act on it. -/
def doorbell (r index : Nat) (dma : List (Octets × Octets)) (s : State) : State :=
  if !s.power.pcieUp || (s.ring r).state != 1 then s else if r < 1088 then doorbellPosts r index dma s else doorbellReads r index s

/-- The moderation time of a ring has passed (R443). -/
def moderationEnd (r : Nat) (s : State) : State :=
  match (s.ring r).moderateAt with
  | none => s
  | some c => signalVector (ringVector s r) (updRing r (fun x => { x with gathered := 0, moderateAt := none }) (waitCycle c s))

/-- A waiting request of the generator that ends after 40 us (R383): a host read, or a spare's seed. -/
def requestEnd (s : State) : State :=
  let ends (r : RngReq) : Bool := match r.who with | .hostRead _ => true | .spareSeed _ => true | _ => false
  match s.rng.queue.find? ends with
  | none => s
  | some r =>
    let s := waitCycle (r.at_ + cyclesUs 40) s
    match r.who with
    | .hostRead w => rngAnswer w (stallSince s r.at_) none (rngRemove r s)
    | .spareSeed sp => spareSeedLost sp s
    | _ => s

/-! ## Commands: classification and slots -/

/-- R69. -/
def execCutCompileComplete (tree : Compiled) (s : State) : Out := .next (dictSettle (compileEnd tree s))
/-- R70. -/
def execCutLimitWaitExpiry (s : State) : Out := .next (dictSettle (cutWaitEnd s))
/-- R333, R335. -/
def execSlotOccurrence (slot : Fin 16) (s : State) : Out := .next (dictSettle (slotDue (slotFirst slot s) s))

/-! ## Commands: transactions -/

/-- R429, R436. -/
def execDictionaryWrite (ses : Fin 128) (flags : BitVec 8) (index : BitVec 16) (sub : BitVec 8) (offset : BitVec 32) (data : Octets) (s : State) : Out :=
  .next (dictSettle (transact ses (requestRecord 2 flags.toNat index.toNat sub.toNat offset.toNat data.length data) .agree s))
/-- R436. -/
def execSnapshotRead (ses : Fin 128) (index : BitVec 16) (sub : BitVec 8) (len : BitVec 16) (s : State) : Out :=
  .next (dictSettle (transact ses (requestRecord 1 7 index.toNat sub.toNat 0 len.toNat []) .agree s))
/-- R431. -/
def execCommit (ses : Fin 128) (generation : BitVec 64) (chucks : ChuckRun) (s : State) : Out :=
  .next (dictSettle (transact ses (requestRecord 2 3 0x1F00 1 0 8 (leBytes 8 generation.toNat)) chucks s))
/-- R433. -/
def execDiscardStaging (ses : Fin 128) (s : State) : Out := .next (dictSettle (transact ses (requestRecord 2 3 0x1F00 2 0 1 [1]) .agree s))
/-- R13. -/
def execRwcBitClearWrite (ses : Fin 128) (index : BitVec 16) (sub : BitVec 8) (data : Octets) (s : State) : Out :=
  .next (dictSettle (transact ses (requestRecord 2 3 index.toNat sub.toNat 0 data.length data) .agree s))
/-- A read of an entry with a since-last-read field (R171, R228, R341). -/
def execSinceLastReadStatusRead (ses : Fin 128) (index : BitVec 16) (sub : BitVec 8) (s : State) : Out :=
  .next (dictSettle (transact ses (requestRecord 1 3 index.toNat sub.toNat 0 4096 []) .agree s))
/-- R337: the FIFO's entries are returned oldest first, and it is emptied. -/
def execCaptureFifoRead (ses : Fin 128) (pin : Fin 4) (s : State) : Out :=
  .next (dictSettle (transact ses (requestRecord 1 3 0x6004 (pin + 1) 0 4096 []) .agree s))

/-- R436: the copy is no longer served 10 s after it was taken. -/
def execSnapshotExpiry (ses : Fin 128) (index : BitVec 16) (sub : BitVec 8) (s : State) : Out :=
  let key := odKey index.toNat sub.toNat
  .next (match (s.session ses).snaps.find key with
    | some q => updSession ses (fun x => { x with snaps := x.snaps.drop key }) (waitCycle (q.2 + snapshotCycles) s)
    | none => s)

/-! ## Commands: the endpoint -/

/-- R442, R443. -/
def execDoorbellWrite (ring : Fin 1120) (index : BitVec 32) (dma : List (Octets × Octets)) (s : State) : Out := .next (dictSettle (doorbell ring index.toNat dma s))
/-- R443. -/
def execModerationTimerExpiry (ring : Fin 1120) (s : State) : Out := .next (moderationEnd ring s)
/-- R452. -/
def execFunctionLevelReset (s : State) : Out := .next (dictSettle (if s.power.pcieUp then ringZero (flr s) else s))
/-- R383. -/
def execRngRequestTimeout (s : State) : Out := .next (requestEnd s)

/-! ## Commands: the Urzidun channel -/

/-- R453, R460. -/
def execUrzidunFrameReceived (s : State) : Out :=
  .next (match s.urz.inbox with
    | (p, d) :: rest => urzTake p d { s with urz := { s.urz with inbox := rest } }
    | [] => s)
/-- R457. -/
def execUrzidunOpen (s : State) : Out := .next (dictSettle (urzOpened s))
/-- R458. -/
def execUrzidunRequest (s : State) : Out :=
  .next (dictSettle (match urzFront [3] s with
    | some (p, d, t) => urzRequested p d t
    | none => s))
/-- R457. -/
def execUrzidunClose (s : State) : Out := .next (dictSettle (urzClosed s))
/-- R457. -/
def execUrzidunSessionTimeout (slot : Fin 64) (s : State) : Out := .next (dictSettle (urzIdle slot s))
/-- R461. -/
def execHeartbeatSend (pd : PD) (s : State) : Out := .next (beatSend pd s)
/-- R461. -/
def execHeartbeatReceived (s : State) : Out := .next (beatHeard s)
/-- R461. -/
def execPeerAbsentTimeout (pd : PD) (s : State) : Out := .next (peerLost pd s)

/-! ## Commands: controllers -/

/-- R464. -/
def execControllerFault (s : State) : Out := .next (dictSettle (match ctlIn s .starting with | some _ => startDone false s | none => failOver s))
/-- R464: 5 us without a progress mark. -/
def execProgressMarkTimeout (s : State) : Out := .next (dictSettle (failOver s))
/-- R464, R466. -/
def execControllerStartComplete (ok : Bool) (s : State) : Out := .next (dictSettle (controlStart ok s))
/-- R464. -/
def execControllerDiagnosisComplete (ctlB : Bool) (pass : Bool) (s : State) : Out := .next (dictSettle (ctlDiagnosed ctlB pass s))

/-! ## Commands: the tool rest -/

/-- R278, R403: a zeroization on main power; on VBAT the samples decide (R514). -/
def execZeroizePinAsserted (s : State) : Out :=
  let t := { s with power := { s.power with zeroizeN := true } }
  let u := { t with rest := { t.rest with pinActed := true } }
  .next (if s.power.zeroizeN then s else if s.rest.onVbat then t else dictSettle (pinZeroize u))
/-- R402. -/
def execDecisionWindowClose (s : State) : Out := .next (dictSettle (windowClose s))

end Sys2Proof.Machine
end

