-- ==== Sys2Proof/Machine/Commands.lean ====
section
/-! DEFINITION. The rows "a committed X": one commit of a single entry by a session, checked and applied as R431 gives (log 3); its other
staging is not touched. -/
namespace Sys2Proof.Machine

/-- Session `k` commits the value `v` of one entry. A value of a length the entry cannot have was never staged (R436). -/
def commitSingle (k idx sub : Nat) (v : Octets) (ck : ChuckRun) (s : State) : State :=
  match entryAt idx sub with
  | none => s
  | some e =>
    if !s.reachable || !sessionOpen s k || (if concatenated idx sub then decide (e.ty.size < v.length) else !e.ty.fits v) then s
    else dictSettle (commitArrive (jobOf k [(odKey idx sub, v)] 0 ck s) (updSession k (fun x => x) s)).2

/-- A key-command record: opcode, length, operands (R249). -/
def keyRecord (op : Nat) (operands : Octets) : Octets := oct op ++ oct 0 ++ leBytes 2 (4 + operands.length) ++ operands

/-- A session commits one key command. -/
def keyRow (k op : Nat) (operands : Octets) (ck : ChuckRun) (s : State) : Out := .next (commitSingle k 0x3410 1 (keyRecord op operands) ck s)

/-! ## Spindles (R230) -/

/-- R230. -/
def execSpindleIsolate (ses : Fin 128) (sp : Fin 28) (s : State) : Out := .next (commitSingle ses 0x3005 (sp + 1) [1] .agree s)
/-- R230. -/
def execSpindleReturn (ses : Fin 128) (sp : Fin 28) (s : State) : Out := .next (commitSingle ses 0x3005 (sp + 1) [2] .agree s)
/-- R230. -/
def execSpindleInjectFault (ses : Fin 128) (sp : Fin 28) (s : State) : Out := .next (commitSingle ses 0x3005 (sp + 1) [3] .agree s)

/-! ## Key commands (R249) -/

/-- R244. -/
def execKeyLoadBlob (ses : Fin 128) (target : BitVec 16) (blob : Octets) (chucks : ChuckRun) (s : State) : Out :=
  keyRow ses 1 (leBytes 2 target.toNat ++ zeros 2 ++ blob) chucks s
/-- R244. -/
def execKeyLoadBlobStore (ses : Fin 128) (target : BitVec 16) (index : BitVec 32) (chucks : ChuckRun) (s : State) : Out :=
  keyRow ses 2 (leBytes 2 target.toNat ++ zeros 2 ++ leBytes 4 index.toNat) chucks s
/-- R232, R249. -/
def execKeyDerive (ses : Fin 128) (target source : BitVec 16) (prf ctrWidth lenWidth : BitVec 8) (label context attr : Octets) (chucks : ChuckRun) (s : State) : Out :=
  keyRow ses 3 (pad4 (leBytes 2 target.toNat ++ leBytes 2 source.toNat ++ [prf, ctrWidth, lenWidth] ++ oct label.length ++ leBytes 2 context.length ++ zeros 2 ++ padTo 24 attr ++ label ++ context)) chucks s
/-- R249. -/
def execKeyGenerate (ses : Fin 128) (target : BitVec 16) (attr : Octets) (chucks : ChuckRun) (s : State) : Out :=
  keyRow ses 4 (leBytes 2 target.toNat ++ zeros 2 ++ padTo 24 attr) chucks s
/-- R249. -/
def execKeyExport (ses : Fin 128) (source wrapping : BitVec 16) (format : BitVec 8) (chucks : ChuckRun) (s : State) : Out :=
  keyRow ses 5 (leBytes 2 source.toNat ++ leBytes 2 wrapping.toNat ++ [format] ++ zeros 3) chucks s
/-- R249. -/
def execKeyImportBare (ses : Fin 128) (target kek : BitVec 16) (attr wrapped : Octets) (chucks : ChuckRun) (s : State) : Out :=
  keyRow ses 6 (leBytes 2 target.toNat ++ leBytes 2 kek.toNat ++ padTo 24 attr ++ padTo 40 wrapped) chucks s
/-- R249, R257. -/
def execKeyDelete (ses : Fin 128) (target : BitVec 16) (s : State) : Out := keyRow ses 7 (leBytes 2 target.toNat ++ zeros 2) .agree s
/-- R262. -/
def execKeyLoadSa (ses : Fin 128) (store : BitVec 32) (sa slot : BitVec 16) (chucks : ChuckRun) (s : State) : Out :=
  keyRow ses 8 (leBytes 4 store.toNat ++ leBytes 2 sa.toNat ++ leBytes 2 slot.toNat) chucks s

/-! ## Ownership, enrollment, zeroization (R235 to R240, R277) -/

/-- R235, R236. -/
def execOwnershipTake (ses : Fin 128) (command : Octets) (s : State) : Out := .next (commitSingle ses 0x3422 1 command .agree s)
/-- R235, R236. -/
def execOwnershipTransfer (ses : Fin 128) (command : Octets) (s : State) : Out := .next (commitSingle ses 0x3422 1 command .agree s)
/-- R235, R236. -/
def execOwnershipRelease (ses : Fin 128) (command : Octets) (s : State) : Out := .next (commitSingle ses 0x3422 1 command .agree s)
/-- R237. -/
def execEnrollmentOpen (ses : Fin 128) (nk : Octets) (s : State) : Out := .next (commitSingle ses 0x3421 1 nk .agree s)
/-- R240. -/
def execEnrollmentRequest (ses : Fin 128) (request : Octets) (chucks : ChuckRun) (s : State) : Out := .next (commitSingle ses 0x3421 3 request chucks s)
/-- R277, code 0x01. -/
def execZeroizeDataKeys (ses : Fin 128) (s : State) : Out := .next (commitSingle ses 0x3460 1 [1] .agree s)
/-- R277, code 0x02. -/
def execZeroizeWholePart (ses : Fin 128) (s : State) : Out := .next (commitSingle ses 0x3460 1 [2] .agree s)

/-! ## Time (R323) -/

/-- R323. -/
def execSetTime (ses : Fin 128) (time96 : Octets) (s : State) : Out := .next (commitSingle ses 0x4001 1 time96 .agree s)
/-- R323. -/
def execAdjustTime (ses : Fin 128) (amount : BitVec 64) (s : State) : Out := .next (commitSingle ses 0x4001 2 (leBytes 8 amount.toNat) .agree s)

/-! ## Memory and generator tests (R371, R372, R389, R390) -/

/-- R371. -/
def execFaultInjection (ses : Fin 128) (record : Octets) (s : State) : Out := .next (commitSingle ses 0x4410 1 record .agree s)
/-- R372. -/
def execRawViewRead (ses : Fin 128) (addr : BitVec 64) (s : State) : Out := .next (commitSingle ses 0x4420 1 (leBytes 8 addr.toNat) .agree s)
/-- R390. -/
def execConditionerKat (ses : Fin 128) (input : Octets) (s : State) : Out := .next (commitSingle ses 0x4810 1 input .agree s)
/-- R390. -/
def execExpanderKat (ses : Fin 128) (vector : Octets) (s : State) : Out := .next (commitSingle ses 0x4811 1 vector .agree s)
/-- R389. -/
def execRawCapture (ses : Fin 128) (source : Fin 8) (s : State) : Out := .next (commitSingle ses 0x4812 1 (oct source) .agree s)

/-! ## Tool rest (R411 to R413, R421, R423) -/

/-- R411, R412. -/
def execUnlockToken (ses : Fin 128) (token : Octets) (s : State) : Out := .next (commitSingle ses 0x5020 2 token .agree s)
/-- R411, R413. -/
def execDebugToken (ses : Fin 128) (token : Octets) (s : State) : Out := .next (commitSingle ses 0x5030 1 token .agree s)
/-- R413. -/
def execDebugPowerOn (ses : Fin 128) (s : State) : Out := .next (commitSingle ses 0x5030 2 [1] .agree s)
/-- R413. -/
def execDebugPowerOff (ses : Fin 128) (s : State) : Out := .next (commitSingle ses 0x5030 2 [0] .agree s)
/-- R421. -/
def execExportAcknowledge (ses : Fin 128) (segment : BitVec 16) (last : BitVec 64) (s : State) : Out :=
  .next (commitSingle ses 0x5041 2 (leBytes 2 segment.toNat ++ zeros 2 ++ leBytes 8 last.toNat) .agree s)
/-- R423. -/
def execCounterAdvance (ses : Fin 128) (counter : BitVec 8) (value : BitVec 32) (s : State) : Out :=
  .next (commitSingle ses 0x5050 2 ([counter] ++ zeros 3 ++ leBytes 4 value.toNat) .agree s)

/-! ## The persistent image (R437) -/

/-- R437. -/
def execSavePersistentImage (ses : Fin 128) (s : State) : Out := .next (commitSingle ses 0x1F01 1 [1] .agree s)
/-- R437: the flash write ends. -/
def execImageSaveComplete (ok : Bool) (s : State) : Out := .next (saveEnd ok s)

/-! ## Power and resets (R490 to R494) -/

/-- R493. -/
def execDomainPowerRequest (ses : Fin 128) (domain : Fin 80) (value : BitVec 8) (s : State) : Out := .next (commitSingle ses 0x5401 (domain + 1) [value] .agree s)
/-- R493: by a request, or by an internal fault. -/
def execDomainReset (ses : Option (Fin 128)) (domain : Fin 80) (s : State) : Out :=
  .next (match ses with
    | some k => commitSingle k 0x5402 (domain + 1) [1] .agree s
    | none => dictSettle (if !drainType domain then domainReset domain 2 s else if (s.domain domain).state = 1 then drainStart 2 (drainDomains domain) (drainPorts s domain) s else s))
/-- R491. -/
def execServiceReset (ses : Fin 128) (s : State) : Out := .next (commitSingle ses 0x5400 1 [1] .agree s)
/-- R490. -/
def execColdReset (ses : Fin 128) (s : State) : Out := .next (commitSingle ses 0x5400 1 [2] .agree s)

end Sys2Proof.Machine
end

