-- ==== Sys2Proof/Machine/Startup.lean ====
section
/-! DEFINITION. Start-up from Off to Ready (R485 to R488), pin and cold resets and the loss of power (R226, R483, R489, R490), the end of a service
reset (R491), and the controls of R515. -/
namespace Sys2Proof.Machine

/-! ## Off (R226, R483, R484) -/

/-- What the tool rest keeps over a power-on reset: SRAM and MRAM, the sensors it samples, and not what the part shows of itself. -/
def ToolRest.kept (r : ToolRest) : ToolRest :=
  { r with challenge := [], alertLatch := 0, zeroizing := false, refusals := 0, holdOff := none, segment := none, segNext := 0, unwritten := 0, perSecond := 0, heldBack := [], temps := [], supplies := [], subStatus := [], maskUntil := 0, shadowBad := r.shadowBad.filter (fun q => [1, 2, 3, 6].contains q.1) }

/-- What MRAM keeps of a spindle: role, counters and service time (R206). -/
def Spindle.kept (x : Spindle) (now : Nat) : Spindle :=
  { role := x.role, cause := x.cause, fails := x.fails, isolations := x.isolations, repairs := x.repairs, tokens := x.tokens, worked := x.worked + (if x.role == .working then now - x.since else 0), since := now }

/-- Images in flash: a slot whose write is broken off holds no valid image (R437). -/
def imagesKept (c : Control) : Tab (Nat × Octets) := match c.saving with | some q => c.images.drop q.1 | none => c.images

/-- The part loses everything but the tool rest, MRAM, flash and the model's own fields; a Bad slot stays Bad where it fails the memory
self-test of the next power-on (R255). A controller that is not Retired runs at the
next start, A first (R464). -/
def partOff (s : State) : State :=
  let s := zeroizeDone s
  let inRest (q : Nat × Octets) : Bool := inToolRest (q.1 / 256) (q.1 % 256)
  let aOut := s.ctl.ctlA == .retired
  let bOut := s.ctl.ctlB == .retired
  let ctl : Control := { dict := s.ctl.dict.filter inRest, images := imagesKept s.ctl, ctlA := if aOut then .diagnosing else .active, ctlB := if bOut then .diagnosing else if aOut then .active else .standby }
  let p := s.power
  let power : Power := { pwrgood := p.pwrgood, resetN := p.resetN, lastCause := p.lastCause, resetCounts := p.resetCounts, thermtrip := p.thermtrip, zeroizeN := p.zeroizeN }
  let bad (base : Nat) (q : Nat × KeySlot) : Option (Nat × KeySlot) :=
    if q.2.state == .bad && !Config.slotSelfTest (s.power.resetCounts.get 0 0).toNat (base + q.1) then some (q.1, { state := .bad }) else none
  let keys : Keys := { data := s.keys.data.filterMap (bad 0), kek := s.keys.kek.filterMap (bad 0x8000) }
  let spindles := (List.range 28).map (fun i => (i, (s.spindle i).kept s.time.cycles))
  { time := { cycles := s.time.cycles }, power := power, ctl := ctl, rest := s.rest.kept, keys := keys, fab := { spindles := spindles }, out := s.out, free := s.free, pending := s.pending }

/-- Main power goes: the tool rest runs from VBAT, and its main-power sensors lapse (R393, R398). -/
def toVbat (s : State) : State :=
  let r := s.rest
  { s with power := { s.power with pwrgood := false, thermtrip := false, lastCause := 0 }, rest := { r with onVbat := true, sensors := r.sensors.filter (fun q => decide (q.1 < 8)), pinHist := [], pinActed := s.power.zeroizeN } }

/-- PWRGOOD falls, or RESET_N asserts (R489). -/
def resetTaken (pwrgoodFell : Bool) (s : State) : State :=
  if pwrgoodFell then (if s.power.pwrgood then toVbat (partOff s) else s)
  else if s.power.resetN then s
  else
    let s := { s with power := { s.power with resetN := true } }
    if s.power.pwrgood then { (partOff s) with power := { (partOff s).power with lastCause := 1 } } else s

/-- A core supply falls below its threshold while PWRGOOD stays: the part is absent (R226). -/
def supplyLost (s : State) : State := if s.power.pwrgood && s.power.start != .off then partOff s else s

/-- A committed cold reset acts: as RESET_N held for 1 ms (R490). -/
def coldTaken (s : State) : State :=
  match s.power.coldAt with
  | none => s
  | some c =>
    if s.power.start == .off then s
    else
      let s := partOff (waitCycle c s)
      { s with power := { s.power with resetN := true, lastCause := 2, coldAt := some (s.time.cycles + cyclesUs 1000) } }

/-! ## From Off to Init (R393, R395, R403, R408) -/

/-- Microseconds since the start-up reference. -/
def sinceRef (s : State) : Nat := nsOfCycles (s.time.cycles - s.power.ref) / 1000

/-- Note a time in the start-up record (R499). -/
def startNote (i : Nat) (s : State) : State := { s with power := { s.power with record := s.power.record.put i (sinceRef s) } }

/-- The tool rest moves to the main supply and checks its SRAM (R393, R395, R398). What a lost seconds counter holds is open. -/
def toMain (intact : Bool) (s : State) : State :=
  let s := { s with rest := { s.rest with onVbat := false, maskUntil := s.time.cycles + cyclesUs 10000, sramLost := !intact } }
  if intact then s
  else
    let k := openValue s
    let c := openValue k.2
    let s := { c.2 with rest := { c.2.rest with bbk := none, secValid := false, seconds := BitVec.ofNat 40 k.1, crystal := c.1 % 32768 } }
    raiseAlarm 8 (setAlarm 8 true s)

/-- An Unowned part that is Locked or Zeroized is Normal after a power-on reset (R403). -/
def unownedUnlock (s : State) : State :=
  if s.rest.owner.owned || s.rest.state == .normal then s
  else tamperCount 2 (logEntry 0x0021 0xFF [] { s with rest := { s.rest with state := .normal, shadowBad := s.rest.shadowBad.filter (fun q => q.1 != 1) } })

/-- Pending Alerts of VBAT enter the latch, one event each in ascending sensor number (R408). -/
def alertsShow (s : State) : State :=
  let l := (List.range 23).filterMap (fun n => (s.rest.pendingAlert.find n).map (fun rank => (n, rank)))
  let s := { s with rest := { s.rest with pendingAlert := [], alertLatch := l.foldl (fun (w : W64) q => w ||| ((1 : W64) <<< q.1)) 0 } }
  l.foldl (fun s q => post { type := 0x5001, source := q.1, a := q.2 } s) s

/-- BBK and persistent KEKs (R233, R234, R241). -/
def keksStart (s : State) : State :=
  match s.rest.bbk with
  | none => rngAsk .bbk 2 (kekAreaLost s)
  | some b => keksRestore { s with keys := { s.keys with srk := some (BitVec.ofNat 256 (beNat (kdf frk "LLX SRK" (beBytes 32 b.toNat) 256))) } }

/-- Start-up begins: PWRGOOD asserted and RESET_N deasserted. -/
def startBegin (s : State) : State :=
  let s := partOff s
  let p := { s.power with start := .init, ref := s.time.cycles, resetCounts := s.power.resetCounts.bump s.power.lastCause 1 }
  let s := binsBegin { s with power := p, time := { s.time with t48 := s.rest.seconds.toNat * 10 ^ 9 * 2 ^ 48 } }
  let s := logEntry 0x0040 0xFF [BitVec.ofNat 8 s.rest.state.code, BitVec.ofNat 8 (bit s.rest.sramLost + 2 * bit (!s.rest.pendingAlert.isEmpty))] s
  let s := alertsShow (unownedUnlock s)
  let s := if s.power.zeroizeN && !s.rest.pinActed then pinZeroize { s with rest := { s.rest with pinActed := true } } else newChallenge s
  let flags := 2 * bit s.locked + 4 * bit (s.rest.state == .zeroized)
  keksStart (rngAsk .slotCheck 2 { s with power := { s.power with startFlags := flags } })

/-- PWRGOOD rises, or RESET_N deasserts. -/
def powerGood (byResetN intact : Bool) (s : State) : State :=
  if byResetN then
    if !s.power.resetN then s
    else
      let s := match s.power.coldAt with | some c => waitCycle c s | none => s
      let s := { s with power := { s.power with resetN := false } }
      if s.power.pwrgood then startBegin { s with rest := { s.rest with sramLost := false } } else s
  else if s.power.pwrgood then s
  else
    let s := toMain intact { s with power := { s.power with pwrgood := true } }
    if s.power.resetN then s else startBegin s

/-! ## Init and Training (R386, R485, R488) -/

/-- Domains that Init powers, beside the controller that runs (R41, R485). -/
def initDomains : List Nat := [52, 53, 54, 55, 60, 61, 62, 63, 66, 67, 70, 71, 72, 73, 74, 75, 76, 77]

/-- Init ends. -/
def initEnd (ok : Bool) (s : State) : State :=
  if s.power.start != .init then s
  else if !ok then { s with power := { s.power with start := .halted } }
  else
    let s := startNote 0 { s with power := { s.power with start := .training, attempts := 1, pcieUp := true } }
    let s := initDomains.foldl (fun s d => setDomain d 1 s) s
    let s := match ctlIn s .active with | some b => setDomain (68 + bit b) 1 s | none => s
    ringZero (lanesSettle (sourcesStart 1 (sourcesStart 0 s)))

/-- The part is in Training, or waits for random data with the dictionary reachable. -/
def inTraining (s : State) : Bool := s.power.start == .training || s.power.start == .waitRandom

/-- Training, generator and KEKs are done: the memory keys are drawn (R368, R485). -/
def toRestoring (s : State) : State :=
  if inTraining s && s.power.trained.length == 2 && s.rng.started && s.rest.bbk.isSome then
    let s := if (s.power.record.find 2).isNone then startNote 2 s else s
    let s := { s with power := { s.power with start := .restoring }, mpu := { s.mpu with keys := [] } }
    rngAsk .memoryKeys 2 { s with rng := { s.rng with queue := s.rng.queue.filter (fun r => r.who != .memoryKeys) } }
  else s

/-- Training of a stack ends. -/
def stackTrained (stack : Nat) (pass : Bool) (s : State) : State :=
  let p := s.power
  if !inTraining s || p.trained.contains stack then s
  else if pass then
    let s := { s with power := { p with trained := stack :: p.trained } }
    toRestoring (if s.power.trained.length = 2 then startNote 3 s else s)
  else if p.failedOnce.contains stack then lanesSettle (startNote 5 { s with power := { p with start := .memFailed } })
  else { s with power := { p with failedOnce := stack :: p.failedOnce, attempts := 2 } }

/-- Lifetime service hours of a spindle. -/
def Spindle.hours (x : Spindle) : Nat := x.worked / (3600 * secCycles)

/-- Insert a spindle into a list ordered by service hours, ties to the lower number. -/
def hoursInsert (s : State) (i : Nat) : List Nat → List Nat
  | [] => [i]
  | j :: l => if (s.spindle i).hours < (s.spindle j).hours then i :: j :: l else j :: hoursInsert s i l

/-- The role that a spindle's test gives it: one of the Working, a spare, or Diagnosing (R212); a Working one is seeded. -/
def roleSet (calib : Nat) (ok work : Bool) (i : Nat) (s : State) : State :=
  let s := trimFactory i (updSp i (fun x => { x with calib := calib, since := s.time.cycles }) s)
  if work then
    let s := updSp i Spindle.fresh (setDomain i 1 (setRole i .working s))
    match rngDraw 32 s with
    | some (o, s) => maskSeed i (BitVec.ofNat 256 (beNat o)) s
    | none => rngAsk (.maskReseed i) 1 s
  else if ok then toSpare i s
  else logSpindle i 8 0 0 (fabCount 3 1 (updSp i (fun x => { x with cause := 8 }) (setRole i .diagnosing s)))

/-- The power-up known-answer tests set the roles (R212): factory trim, since HBM holds no checkpoint. -/
def rolesSet (kat : List KatRun) (s : State) : State :=
  let live := (List.range 28).filter (fun i => (s.spindle i).role != .retired)
  let ok := live.filter (fun i => katPasses (kat.getD i {}))
  let work := (ok.foldl (fun l i => hoursInsert s i l) []).take 24
  spareCheck (live.foldl (fun s i => roleSet (calibOf (kat.getD i {})) (ok.contains i) (work.contains i) i s) s)

/-- The generator delivers: both expanders instantiated from five Healthy sources (R386); the spindles are tested (R212). -/
def generatorStarts (kat : List KatRun) (s : State) : State :=
  if !inTraining s || s.rng.started then s
  else
    let g := Rng.seedHalf 1 (Rng.seedHalf 0 s.rng)
    if g.exp0.isNone || g.exp1.isNone then s
    else toRestoring (rolesSet kat (startNote 1 { s with rng := { g with started := true, reseedAt := s.time.cycles } }))

/-- The generator is not ready 200 ms after the reference (R485, R488). -/
def randomWait (s : State) : State :=
  if s.power.start != .training || s.rng.started then s
  else
    let s := waitCycle (s.power.ref + cyclesUs 200000) s
    startNote 5 { s with power := { s.power with start := .waitRandom } }

/-! ## The persistent image (R438) -/

/-- Check an image's values against the state: an entry that does not pass keeps its default. Lock refuses none of them. -/
def imageChecked (s : State) : Nat → Tab Octets → Tab Octets
  | 0, st => st
  | n + 1, st =>
    let fails := (checkFailures s (candidate 128 st s) 128 st (rulesAfter s st)).filter (fun q => q.2 != abLocked)
    match firstFailure fails with
    | none => st
    | some q =>
      if (st.find q.1).isSome then imageChecked s n (st.drop q.1)
      else imageChecked s n ((st.filter (fun e => e.1 / 256 != q.1 / 256)).drop ((st.head?.map Prod.fst).getD 0))

/-- What takes effect of the restored values. -/
def imageTakes (s0 : State) (st : Tab Octets) (s : State) : State :=
  let s := shapesTake s0 s
  let s := ((queueWrites s0 st).map Written.idx).dedup.foldl (fun s k => queueTakes s0 k s) s
  let s := fabricTakes st (timeTakes s0 st s)
  domainsSettle (powerTakes st { s with cls := { s.cls with longest := longestPath s, banks := if isStaged st 0x2000 1 then s.cls.banks.put s.cls.bank (microcode s) else s.cls.banks } })

/-- The image is applied at one instant, and the part is Ready. -/
def imageApply (s : State) : State :=
  let s := { s with power := { s.power with start := .ready, zeroSince := s.time.cycles }, fab := { s.fab with rotatedAt := s.time.cycles } }
  let flag (n : Nat) (s : State) : State := { s with ctl := { s.ctl with imageStatus := s.ctl.imageStatus ||| n } }
  match newestImage s with
  | none => flag 2 (domainsSettle s)
  | some (_, n, vals) =>
    let st := imageChecked s (vals.length + 1) vals
    let t := imageTakes s st (candidate 128 st s)
    let t := { t with ctl := { t.ctl with saveCount := BitVec.ofNat 64 n }, power := { t.power with startFlags := t.power.startFlags ||| 1 } }
    if st.length < vals.length then flag 4 t else t

/-- Restoring ends once the memory protection unit has its keys. -/
def restoreEnd (s : State) : State :=
  let s := toRestoring s
  if s.power.start != .restoring || !mpuReady s then s
  else
    let s := startNote 4 (imageApply (checkpointsOwed s))
    settleRoles (lanesSettle (if (s.power.record.find 5).isNone then startNote 5 s else s))

/-! ## The end of a service reset (R491) -/

/-- Every restart is done, the chucks' and the fail-over after them. -/
def serviceEnd (s : State) : State :=
  if s.power.service != .resetting || s.power.serviceStep != 3 || (ctlIn s .starting).isSome then s
  else
    let s := (List.range 80).foldl (fun s d => if (s.domain d).state = 3 then setDomain d 1 s else s) s
    lanesSettle (portsOpen { s with cls := { s.cls with resetClusters := [] }, power := { s.power with service := .none } })

/-! ## Commands -/

/-- R485, R393, R408. -/
def execPowerGoodAsserted (byResetN : Bool) (sramIntact : Bool) (s : State) : Out := .next (powerGood byResetN sramIntact s)
/-- R226, R489. -/
def execResetAsserted (pwrgoodFell : Bool) (s : State) : Out := .next (resetTaken pwrgoodFell s)
/-- R485. -/
def execInitComplete (ok : Bool) (s : State) : Out := .next (initEnd ok s)
/-- R485. -/
def execHbmTrainingComplete (stack : Fin 2) (pass : Bool) (s : State) : Out := .next (dictSettle (stackTrained stack pass s))
/-- R386, R212. -/
def execGeneratorReady (kat : List KatRun) (s : State) : Out := .next (generatorStarts kat s)
/-- R382; with the BBK drawn the KEKs are in place, and Training can lead to Restoring (R234, R485). -/
def execRngRequestServed (s : State) : Out :=
  .next (match rngHead s.rng.queue with
    | some r => if r.who == .bbk then toRestoring (rngServe r s) else rngServe r s
    | none => s)
/-- R488. -/
def execRandomWaitTimeout (s : State) : Out := .next (dictSettle (randomWait s))
/-- R438. -/
def execImageRestore (s : State) : Out := .next (dictSettle (restoreEnd s))
/-- R490. -/
def execColdResetDelayExpiry (s : State) : Out := .next (coldTaken s)
/-- R226. -/
def execCoreSupplyUnderVoltage (s : State) : Out := .next (supplyLost s)
/-- R515. -/
def execThermtripAssert (s : State) : Out := .next (if s.power.pwrgood then { s with power := { s.power with thermtrip := true } } else s)
/-- R491. -/
def execServiceResetComplete (s : State) : Out := .next (dictSettle (serviceEnd s))

end Sys2Proof.Machine
end

