-- ==== Sys2Proof/Machine/Dispatch.lean ====
section
/-! DEFINITION. One arm per command: the direct call of its meaning, or rejected by name. -/
namespace Sys2Proof.Machine

/-- The effect of one command on everything but the queue of waiting commands. -/
def exec (i : Instr) (s : State) : Host.Outcome State Fault Refusal :=
  match i with
  | .gougeParseStart pd cluster gouge header len parityFails => Sys2Proof.Machine.execGougeParseStart pd cluster gouge header len parityFails s
  | .gougeParseTimeout cluster gouge => Sys2Proof.Machine.execGougeParseTimeout cluster gouge s
  | .frameAccepted pd rx => Sys2Proof.Machine.execFrameAccepted pd rx s
  | .pauseReceived port quanta => Sys2Proof.Machine.execPauseReceived port quanta s
  | .pfcReceived port enable times => Sys2Proof.Machine.execPfcReceived port enable times s
  | .pauseTimeExpiry port prio => Sys2Proof.Machine.execPauseTimeExpiry port prio s
  | .classifyFrame pd => Sys2Proof.Machine.execClassifyFrame pd s
  | .ruleBlockFill pd => Sys2Proof.Machine.execRuleBlockFill pd s
  | .cutCompileComplete tree => Sys2Proof.Machine.execCutCompileComplete tree s
  | .cutRetired cut => Sys2Proof.Machine.execCutRetired cut s
  | .cutLimitWaitExpiry => Sys2Proof.Machine.execCutLimitWaitExpiry s
  | .headstockSettle pd => Sys2Proof.Machine.execHeadstockSettle pd s
  | .dispatchFrame => Sys2Proof.Machine.execDispatchFrame s
  | .tokenIssue sp => Sys2Proof.Machine.execTokenIssue sp s
  | .tokenComplete sp => Sys2Proof.Machine.execTokenComplete sp s
  | .spindleFault sp check => Sys2Proof.Machine.execSpindleFault sp check s
  | .tokenWatchdogExpiry sp => Sys2Proof.Machine.execTokenWatchdogExpiry sp s
  | .maskReseedRequest sp => Sys2Proof.Machine.execMaskReseedRequest sp s
  | .maskReseedServed sp => Sys2Proof.Machine.execMaskReseedServed sp s
  | .maskRatchet sp => Sys2Proof.Machine.execMaskRatchet sp s
  | .maskStarvation sp => Sys2Proof.Machine.execMaskStarvation sp s
  | .commitEntry pd => Sys2Proof.Machine.execCommitEntry pd s
  | .pauseRefresh port => Sys2Proof.Machine.execPauseRefresh port s
  | .injectionDescriptor ring frame => Sys2Proof.Machine.execInjectionDescriptor ring frame s
  | .injectedFrameAccepted => Sys2Proof.Machine.execInjectedFrameAccepted s
  | .spillWriteStart pd queue => Sys2Proof.Machine.execSpillWriteStart pd queue s
  | .egressSelect pd => Sys2Proof.Machine.execEgressSelect pd s
  | .calendarPostingDue es dir queue => Sys2Proof.Machine.execCalendarPostingDue es dir queue s
  | .timedLaunch pd => Sys2Proof.Machine.execTimedLaunch pd s
  | .frameTransmitted pd => Sys2Proof.Machine.execFrameTransmitted pd s
  | .linkReceiveFault port side localFault => Sys2Proof.Machine.execLinkReceiveFault port side localFault s
  | .linkFaultCleared port side => Sys2Proof.Machine.execLinkFaultCleared port side s
  | .avsEvaluation rings => Sys2Proof.Machine.execAvsEvaluation rings s
  | .marginEventClear => Sys2Proof.Machine.execMarginEventClear s
  | .avsCommandAck read => Sys2Proof.Machine.execAvsCommandAck read s
  | .avsVoltageRead => Sys2Proof.Machine.execAvsVoltageRead s
  | .avsAckTimeout => Sys2Proof.Machine.execAvsAckTimeout s
  | .avsReadbackMismatch => Sys2Proof.Machine.execAvsReadbackMismatch s
  | .avsRetry => Sys2Proof.Machine.execAvsRetry s
  | .lagEvaluation elapsed => Sys2Proof.Machine.execLagEvaluation elapsed s
  | .rotationStart => Sys2Proof.Machine.execRotationStart s
  | .spindleKatComplete sp kat elapsed => Sys2Proof.Machine.execSpindleKatComplete sp kat elapsed s
  | .spindleStartTimeout sp => Sys2Proof.Machine.execSpindleStartTimeout sp s
  | .spareSeedTimeout sp => Sys2Proof.Machine.execSpareSeedTimeout sp s
  | .spareStartRetry sp => Sys2Proof.Machine.execSpareStartRetry sp s
  | .spindleDrainComplete sp => Sys2Proof.Machine.execSpindleDrainComplete sp s
  | .isolationTimerExpiry sp => Sys2Proof.Machine.execIsolationTimerExpiry sp s
  | .spindleDiagnosisComplete sp run => Sys2Proof.Machine.execSpindleDiagnosisComplete sp run s
  | .diagnosisRetryTimer sp => Sys2Proof.Machine.execDiagnosisRetryTimer sp s
  | .spindleIsolate ses sp => Sys2Proof.Machine.execSpindleIsolate ses sp s
  | .spindleReturn ses sp => Sys2Proof.Machine.execSpindleReturn ses sp s
  | .spindleInjectFault ses sp => Sys2Proof.Machine.execSpindleInjectFault ses sp s
  | .lockstepMismatchRestart half => Sys2Proof.Machine.execLockstepMismatchRestart half s
  | .retentionRebuildComplete bank => Sys2Proof.Machine.execRetentionRebuildComplete bank s
  | .spindlePark => Sys2Proof.Machine.execSpindlePark s
  | .alignerLock a view => Sys2Proof.Machine.execAlignerLock a view s
  | .alignerOof a => Sys2Proof.Machine.execAlignerOof a s
  | .alignmentTimerExpiry a => Sys2Proof.Machine.execAlignmentTimerExpiry a s
  | .defectDeclared d => Sys2Proof.Machine.execDefectDeclared d s
  | .defectCleared d => Sys2Proof.Machine.execDefectCleared d s
  | .tributaryRemapDue t dir elapsed => Sys2Proof.Machine.execTributaryRemapDue t dir elapsed s
  | .pmSecondTick obs => Sys2Proof.Machine.execPmSecondTick obs s
  | .pmBinEnd day => Sys2Proof.Machine.execPmBinEnd day s
  | .pmBinComplete day => Sys2Proof.Machine.execPmBinComplete day s
  | .keyLoadBlob ses target blob chucks => Sys2Proof.Machine.execKeyLoadBlob ses target blob chucks s
  | .keyLoadBlobStore ses target index chucks => Sys2Proof.Machine.execKeyLoadBlobStore ses target index chucks s
  | .keyDerive ses target source prf ctrWidth lenWidth label context attr chucks => Sys2Proof.Machine.execKeyDerive ses target source prf ctrWidth lenWidth label context attr chucks s
  | .keyGenerate ses target attr chucks => Sys2Proof.Machine.execKeyGenerate ses target attr chucks s
  | .keyExport ses source wrapping format chucks => Sys2Proof.Machine.execKeyExport ses source wrapping format chucks s
  | .keyImportBare ses target kek attr wrapped chucks => Sys2Proof.Machine.execKeyImportBare ses target kek attr wrapped chucks s
  | .keyDelete ses target => Sys2Proof.Machine.execKeyDelete ses target s
  | .keyLoadSa ses store sa slot chucks => Sys2Proof.Machine.execKeyLoadSa ses store sa slot chucks s
  | .chuckMirrorRebuildComplete chuckB => Sys2Proof.Machine.execChuckMirrorRebuildComplete chuckB s
  | .ownershipTake ses command => Sys2Proof.Machine.execOwnershipTake ses command s
  | .ownershipTransfer ses command => Sys2Proof.Machine.execOwnershipTransfer ses command s
  | .ownershipRelease ses command => Sys2Proof.Machine.execOwnershipRelease ses command s
  | .enrollmentOpen ses nk => Sys2Proof.Machine.execEnrollmentOpen ses nk s
  | .enrollmentRequest ses request chucks => Sys2Proof.Machine.execEnrollmentRequest ses request chucks s
  | .enrollmentSessionTimeout => Sys2Proof.Machine.execEnrollmentSessionTimeout s
  | .slotScrub bad => Sys2Proof.Machine.execSlotScrub bad s
  | .slotReferenceReleased target => Sys2Proof.Machine.execSlotReferenceReleased target s
  | .saRetireComplete sa => Sys2Proof.Machine.execSaRetireComplete sa s
  | .rolloverDue user => Sys2Proof.Machine.execRolloverDue user s
  | .guardWindowEnd user => Sys2Proof.Machine.execGuardWindowEnd user s
  | .chainLoad user chucks => Sys2Proof.Machine.execChainLoad user chucks s
  | .keyExpiryCheck => Sys2Proof.Machine.execKeyExpiryCheck s
  | .zeroizePinAsserted => Sys2Proof.Machine.execZeroizePinAsserted s
  | .zeroizePinDeasserted => Sys2Proof.Machine.execZeroizePinDeasserted s
  | .zeroizeDataKeys ses => Sys2Proof.Machine.execZeroizeDataKeys ses s
  | .zeroizeWholePart ses => Sys2Proof.Machine.execZeroizeWholePart ses s
  | .ptpOwnClockFrame => Sys2Proof.Machine.execPtpOwnClockFrame s
  | .delayReqSend => Sys2Proof.Machine.execDelayReqSend s
  | .followUpTimeout => Sys2Proof.Machine.execFollowUpTimeout s
  | .delayRespTimeout => Sys2Proof.Machine.execDelayRespTimeout s
  | .syncTimeout => Sys2Proof.Machine.execSyncTimeout s
  | .setTime ses time96 => Sys2Proof.Machine.execSetTime ses time96 s
  | .adjustTime ses amount => Sys2Proof.Machine.execAdjustTime ses amount s
  | .toolRestSecondsWrite => Sys2Proof.Machine.execToolRestSecondsWrite s
  | .slotOccurrence slot => Sys2Proof.Machine.execSlotOccurrence slot s
  | .slotPulseEnd pin => Sys2Proof.Machine.execSlotPulseEnd pin s
  | .pinCaptureEdge pin rising => Sys2Proof.Machine.execPinCaptureEdge pin rising s
  | .captureFifoRead ses pin => Sys2Proof.Machine.execCaptureFifoRead ses pin s
  | .mpuRead addr lines => Sys2Proof.Machine.execMpuRead addr lines s
  | .mpuWrite addr data => Sys2Proof.Machine.execMpuWrite addr data s
  | .metadataEviction line => Sys2Proof.Machine.execMetadataEviction line s
  | .blockAllocate key block => Sys2Proof.Machine.execBlockAllocate key block s
  | .patrolScrub line => Sys2Proof.Machine.execPatrolScrub line s
  | .faultInjection ses record => Sys2Proof.Machine.execFaultInjection ses record s
  | .rawViewRead ses addr => Sys2Proof.Machine.execRawViewRead ses addr s
  | .conditionedBlockReady source raw => Sys2Proof.Machine.execConditionedBlockReady source raw s
  | .sourceHealthFailure source test => Sys2Proof.Machine.execSourceHealthFailure source test s
  | .sourceStartupComplete source raw => Sys2Proof.Machine.execSourceStartupComplete source raw s
  | .sourceRetest source => Sys2Proof.Machine.execSourceRetest source s
  | .sourceFailuresCleared source => Sys2Proof.Machine.execSourceFailuresCleared source s
  | .expanderReseed => Sys2Proof.Machine.execExpanderReseed s
  | .rngRequestServed => Sys2Proof.Machine.execRngRequestServed s
  | .rngRequestTimeout => Sys2Proof.Machine.execRngRequestTimeout s
  | .expanderFault half => Sys2Proof.Machine.execExpanderFault half s
  | .rngHalfRestartComplete half => Sys2Proof.Machine.execRngHalfRestartComplete half s
  | .rngDataRead wide stall => Sys2Proof.Machine.execRngDataRead wide stall s
  | .conditionerKat ses input => Sys2Proof.Machine.execConditionerKat ses input s
  | .expanderKat ses vector => Sys2Proof.Machine.execExpanderKat ses vector s
  | .rawCapture ses source => Sys2Proof.Machine.execRawCapture ses source s
  | .rawCaptureComplete data => Sys2Proof.Machine.execRawCaptureComplete data s
  | .toolRestSample obs temps supplies => Sys2Proof.Machine.execToolRestSample obs temps supplies s
  | .sensorAlarmImmediate obs => Sys2Proof.Machine.execSensorAlarmImmediate obs s
  | .decisionWindowClose => Sys2Proof.Machine.execDecisionWindowClose s
  | .shadowScan bad => Sys2Proof.Machine.execShadowScan bad s
  | .toolRestRestart => Sys2Proof.Machine.execToolRestRestart s
  | .unlockToken ses token => Sys2Proof.Machine.execUnlockToken ses token s
  | .debugToken ses token => Sys2Proof.Machine.execDebugToken ses token s
  | .tokenHoldoffEnd => Sys2Proof.Machine.execTokenHoldoffEnd s
  | .debugPowerOn ses => Sys2Proof.Machine.execDebugPowerOn ses s
  | .debugPowerOff ses => Sys2Proof.Machine.execDebugPowerOff ses s
  | .coalesceSecondEnd => Sys2Proof.Machine.execCoalesceSecondEnd s
  | .logExportReminder => Sys2Proof.Machine.execLogExportReminder s
  | .exportSegmentFormed => Sys2Proof.Machine.execExportSegmentFormed s
  | .exportAcknowledge ses segment last => Sys2Proof.Machine.execExportAcknowledge ses segment last s
  | .counterAdvance ses counter value => Sys2Proof.Machine.execCounterAdvance ses counter value s
  | .dictionaryWrite ses flags index sub offset data => Sys2Proof.Machine.execDictionaryWrite ses flags index sub offset data s
  | .snapshotRead ses index sub len => Sys2Proof.Machine.execSnapshotRead ses index sub len s
  | .snapshotExpiry ses index sub => Sys2Proof.Machine.execSnapshotExpiry ses index sub s
  | .commit ses generation chucks => Sys2Proof.Machine.execCommit ses generation chucks s
  | .discardStaging ses => Sys2Proof.Machine.execDiscardStaging ses s
  | .savePersistentImage ses => Sys2Proof.Machine.execSavePersistentImage ses s
  | .imageSaveComplete ok => Sys2Proof.Machine.execImageSaveComplete ok s
  | .doorbellWrite ring index dma => Sys2Proof.Machine.execDoorbellWrite ring index dma s
  | .moderationTimerExpiry ring => Sys2Proof.Machine.execModerationTimerExpiry ring s
  | .functionLevelReset => Sys2Proof.Machine.execFunctionLevelReset s
  | .urzidunFrameReceived => Sys2Proof.Machine.execUrzidunFrameReceived s
  | .urzidunOpen => Sys2Proof.Machine.execUrzidunOpen s
  | .urzidunRequest => Sys2Proof.Machine.execUrzidunRequest s
  | .urzidunClose => Sys2Proof.Machine.execUrzidunClose s
  | .urzidunSessionTimeout slot => Sys2Proof.Machine.execUrzidunSessionTimeout slot s
  | .heartbeatSend pd => Sys2Proof.Machine.execHeartbeatSend pd s
  | .heartbeatReceived => Sys2Proof.Machine.execHeartbeatReceived s
  | .peerAbsentTimeout pd => Sys2Proof.Machine.execPeerAbsentTimeout pd s
  | .controllerFault => Sys2Proof.Machine.execControllerFault s
  | .progressMarkTimeout => Sys2Proof.Machine.execProgressMarkTimeout s
  | .controllerStartComplete ok => Sys2Proof.Machine.execControllerStartComplete ok s
  | .controllerDiagnosisComplete ctlB pass => Sys2Proof.Machine.execControllerDiagnosisComplete ctlB pass s
  | .powerGoodAsserted byResetN sramIntact => Sys2Proof.Machine.execPowerGoodAsserted byResetN sramIntact s
  | .resetAsserted pwrgoodFell => Sys2Proof.Machine.execResetAsserted pwrgoodFell s
  | .initComplete ok => Sys2Proof.Machine.execInitComplete ok s
  | .hbmTrainingComplete stack pass => Sys2Proof.Machine.execHbmTrainingComplete stack pass s
  | .generatorReady kat => Sys2Proof.Machine.execGeneratorReady kat s
  | .randomWaitTimeout => Sys2Proof.Machine.execRandomWaitTimeout s
  | .imageRestore => Sys2Proof.Machine.execImageRestore s
  | .serviceReset ses => Sys2Proof.Machine.execServiceReset ses s
  | .coldReset ses => Sys2Proof.Machine.execColdReset ses s
  | .coldResetDelayExpiry => Sys2Proof.Machine.execColdResetDelayExpiry s
  | .drainComplete => Sys2Proof.Machine.execDrainComplete s
  | .drainTimeout => Sys2Proof.Machine.execDrainTimeout s
  | .domainPowerRequest ses domain value => Sys2Proof.Machine.execDomainPowerRequest ses domain value s
  | .domainReset ses domain => Sys2Proof.Machine.execDomainReset ses domain s
  | .thermtripAssert => Sys2Proof.Machine.execThermtripAssert s
  | .outOfMultiframe a => Sys2Proof.Machine.execOutOfMultiframe a s
  | .remoteFaultReceived port side present => Sys2Proof.Machine.execRemoteFaultReceived port side present s
  | .rwcBitClearWrite ses index sub data => Sys2Proof.Machine.execRwcBitClearWrite ses index sub data s
  | .sinceLastReadStatusRead ses index sub => Sys2Proof.Machine.execSinceLastReadStatusRead ses index sub s
  | .domainRestartComplete domain => Sys2Proof.Machine.execDomainRestartComplete domain s
  | .serviceResetComplete => Sys2Proof.Machine.execServiceResetComplete s
  | .zeroizationComplete => Sys2Proof.Machine.execZeroizationComplete s
  | .coreSupplyUnderVoltage => Sys2Proof.Machine.execCoreSupplyUnderVoltage s

end Sys2Proof.Machine
end

