-- ==== Sys2Proof/Laws/Tab.lean ====
section
/-! SUPPORT. Sparse tables: reading after writing, and the canonical form (indices strictly rising) that every write keeps. -/
namespace Sys2Proof

variable {α : Type}

@[simp] theorem Tab.find_put_same (k : Nat) (x : α) (t : Tab α) : (t.put k x).find k = some x := by
  induction t with
  | nil => simp [Tab.put, Tab.find]
  | cons p t ih => obtain ⟨i, y⟩ := p; unfold Tab.put; (repeat' split) <;> simp_all [Tab.find]; omega

theorem Tab.find_put_other {k j : Nat} (h : j ≠ k) (x : α) (t : Tab α) : (t.put k x).find j = t.find j := by
  induction t with
  | nil => simp [Tab.put, Tab.find, Ne.symm h]
  | cons p t ih => obtain ⟨i, y⟩ := p; unfold Tab.put; (repeat' split) <;> simp_all [Tab.find, Ne.symm h]; rw [if_neg (Ne.symm h), if_neg (Ne.symm h)]

theorem Tab.find_put (k j : Nat) (x : α) (t : Tab α) : (t.put k x).find j = if j = k then some x else t.find j := by
  split
  · subst j; simp
  · exact Tab.find_put_other ‹_› x t

@[simp] theorem Tab.get_put_same (k : Nat) (x d : α) (t : Tab α) : (t.put k x).get k d = x := by simp [Tab.get]

theorem Tab.get_put (k j : Nat) (x d : α) (t : Tab α) : (t.put k x).get j d = if j = k then x else t.get j d := by
  unfold Tab.get; rw [Tab.find_put]; split <;> rfl

@[simp] theorem Tab.get_upd_same (k : Nat) (d : α) (f : α → α) (t : Tab α) : (t.upd k d f).get k d = f (t.get k d) := by simp [Tab.upd]

theorem Tab.get_upd (k j : Nat) (d e : α) (f : α → α) (t : Tab α) : (t.upd k d f).get j e = if j = k then f (t.get k d) else t.get j e := by
  unfold Tab.upd; rw [Tab.get_put]

theorem Tab.get_upd_other {k j : Nat} (h : j ≠ k) (d e : α) (f : α → α) (t : Tab α) : (t.upd k d f).get j e = t.get j e := by rw [Tab.get_upd, if_neg h]

theorem Tab.get_bump (t : Tab W64) (k j n : Nat) : (t.bump k n).get j 0 = if j = k then t.get k 0 + BitVec.ofNat 64 n else t.get j 0 := by
  unfold Tab.bump; rw [Tab.get_put]

@[simp] theorem Tab.get_bump_same (t : Tab W64) (k n : Nat) : (t.bump k n).get k 0 = t.get k 0 + BitVec.ofNat 64 n := by rw [Tab.get_bump, if_pos rfl]

/-- The same with the zero as simplification writes it. -/
theorem Tab.get_bump_lit (t : Tab W64) (k j n : Nat) : (t.bump k n).get j 0#64 = if j = k then t.get k 0#64 + BitVec.ofNat 64 n else t.get j 0#64 := Tab.get_bump t k j n

@[simp] theorem Tab.get_bump_lit_same (t : Tab W64) (k n : Nat) : (t.bump k n).get k 0#64 = t.get k 0#64 + BitVec.ofNat 64 n := Tab.get_bump_same t k n

theorem Tab.find_drop_other {k j : Nat} (h : j ≠ k) (t : Tab α) : (t.drop k).find j = t.find j := by
  induction t with
  | nil => rfl
  | cons p t ih => obtain ⟨i, y⟩ := p; unfold Tab.drop; split <;> simp_all [Tab.find, Ne.symm h]

/-- A table in canonical form: indices strictly rising. -/
abbrev Tab.Rising (t : Tab α) : Prop := t.Pairwise (fun p q => p.1 < q.1)

theorem Tab.mem_put {k : Nat} {x : α} {t : Tab α} {p : Nat × α} (h : p ∈ t.put k x) : p = (k, x) ∨ p ∈ t := by
  induction t with
  | nil => simpa [Tab.put] using h
  | cons q t ih => obtain ⟨i, y⟩ := q; unfold Tab.put at h; (repeat' split at h) <;> simp_all <;> tauto

theorem Tab.put_rising {t : Tab α} (h : t.Rising) (k : Nat) (x : α) : (t.put k x).Rising := by
  induction t with
  | nil => simp [Tab.put]
  | cons q t ih =>
    obtain ⟨i, y⟩ := q
    replace h := List.pairwise_cons.mp h
    unfold Tab.put; split
    · rename_i hk
      refine List.Pairwise.cons ?_ (List.pairwise_cons.mpr h)
      intro p hp; rcases List.mem_cons.mp hp with rfl | hp
      · exact hk
      · exact lt_trans hk (h.1 p hp)
    · split
      · rename_i hk; subst hk; exact List.Pairwise.cons h.1 h.2
      · refine List.Pairwise.cons ?_ (ih h.2)
        intro p hp; rcases Tab.mem_put hp with rfl | hp
        · show i < k; omega
        · exact h.1 p hp

theorem Tab.mem_drop {k : Nat} {t : Tab α} {p : Nat × α} (h : p ∈ t.drop k) : p ∈ t := by
  induction t with
  | nil => exact h
  | cons q t ih => obtain ⟨i, y⟩ := q; unfold Tab.drop at h; split at h <;> simp_all; tauto

theorem Tab.drop_rising {t : Tab α} (h : t.Rising) (k : Nat) : (t.drop k).Rising := by
  induction t with
  | nil => exact h
  | cons q t ih =>
    obtain ⟨i, y⟩ := q
    replace h := List.pairwise_cons.mp h
    unfold Tab.drop; split
    · exact h.2
    · exact List.Pairwise.cons (fun p hp => h.1 p (Tab.mem_drop hp)) (ih h.2)

theorem Tab.find_none {k : Nat} {t : Tab α} (h : ∀ p ∈ t, p.1 ≠ k) : t.find k = none := by
  induction t with
  | nil => rfl
  | cons q t ih => obtain ⟨i, y⟩ := q; simp_all [Tab.find]

/-- Unlisting an index of a table in canonical form leaves it unlisted. -/
theorem Tab.find_drop_same {t : Tab α} (h : t.Rising) (k : Nat) : (t.drop k).find k = none := by
  induction t with
  | nil => rfl
  | cons q t ih =>
    obtain ⟨i, y⟩ := q
    replace h := List.pairwise_cons.mp h
    unfold Tab.drop; split
    · rename_i hi; subst hi; exact Tab.find_none (fun p hp => Nat.ne_of_gt (h.1 p hp))
    · simp [Tab.find, ih h.2, *]

theorem Tab.find_of_mem_find? {t : Tab α} {q : Nat × α} {p : Nat × α → Bool} (h : t.find? p = some q) : (t.find q.1).isSome := by
  have hm := List.mem_of_find?_eq_some h
  clear h
  induction t with
  | nil => simp at hm
  | cons r t ih => obtain ⟨i, y⟩ := r; unfold Tab.find; split; (· rfl); (· rcases List.mem_cons.mp hm with rfl | hm; (· simp_all); (· exact ih hm))

end Sys2Proof
end

