-- ==== Sys2Proof/Safety.lean ====
section
/-! DEFINITION. What counts as a safe run of the part, and the conditions that the statements put on a state: what a command may
change at all, and when nothing of the dictionary waits, so that a transaction is served at once. -/
namespace Sys2Proof

/-- A step that answers a next state. -/
def Safe (s : Machine.State) : Prop := ∃ t, Machine.step s = .next t

/-- A run of `k` steps that stays safe. -/
def SafeRun : Nat → Machine.State → Prop
  | 0, _ => True
  | k + 1, s => ∃ t, Machine.step s = .next t ∧ SafeRun k t

namespace Machine

/-- No commit is in progress or waits, no transaction is held, and no mailbox ring holds a descriptor (R432, R444, R466). -/
def Idle (s : State) : Prop :=
  s.ctl.job = none ∧ s.ctl.queue = [] ∧ s.ctl.held = [] ∧ s.ctl.intake = [] ∧ s.ctl.finished = [] ∧ ∀ r < 64, (s.ring r).posted = []

/-- The dictionary is reachable and served, nothing of it waits, and the link agrees with PD75. -/
def Quiet (s : State) : Prop :=
  s.reachable = true ∧ controlServes s = true ∧ pcieSettle s = s ∧ Idle s

/-- Every check of R431 step 3 passes for a commit of session `k` of the staging `st`; the session has a record. -/
def Passes (k : Nat) (st : Tab Octets) (ck : ChuckRun) (s : State) : Prop :=
  firstFailure (checkCommit k st ck [] (updSession k (fun x => x) s)).fails = none

/-- A value has a length that the entry can have (R436). -/
def Fits (idx sub : Nat) (v : Octets) : Prop :=
  (entryAt idx sub).any (fun e => if concatenated idx sub then decide (v.length ≤ e.ty.size) else e.ty.fits v) = true

/-- A session's commit of one entry is taken up at once and passes its checks. -/
def Commits (k idx sub : Nat) (v : Octets) (ck : ChuckRun) (s : State) : Prop :=
  Quiet s ∧ sessionOpen s k = true ∧ Fits idx sub v ∧ Passes k [(odKey idx sub, v)] ck s

/-- What a commit of one entry leaves in every case: the next generation, the apply instant, the session's staging as it was and, where the
session has a record, its last result 0. -/
def Committed (k : Nat) (s t : State) : Prop :=
  t.ctl.generation = s.ctl.generation + 1 ∧ t.ctl.applyAt = s.time.now ∧ (t.session k).staged = (s.session k).staged ∧ (t.session k).last = 0

/-- A frame of an egress buffer without the instant at which it begins, which changes as the buffer is lined up again. -/
def Egr.unlined (e : Egr) : Egr := { e with startAt := none }

/-! ## Frames -/

/-- The parts of the state, one for each field of `State`. -/
inductive Component where
  | time | power | ctl | host | urz | rng | rest | keys | cls | fab | path | otn | mpu | out | free | pending
deriving DecidableEq, Repr

/-- The two states agree on a part. -/
def Component.same (s t : State) : Component → Prop
  | .time => t.time = s.time
  | .power => t.power = s.power
  | .ctl => t.ctl = s.ctl
  | .host => t.host = s.host
  | .urz => t.urz = s.urz
  | .rng => t.rng = s.rng
  | .rest => t.rest = s.rest
  | .keys => t.keys = s.keys
  | .cls => t.cls = s.cls
  | .fab => t.fab = s.fab
  | .path => t.path = s.path
  | .otn => t.otn = s.otn
  | .mpu => t.mpu = s.mpu
  | .out => t.out = s.out
  | .free => t.free = s.free
  | .pending => t.pending = s.pending

/-- The parts of the state that a command can change at all, as the rules give its effects; every other part it leaves alone. A
dictionary transaction can end a commit of any entry, and so can change every part but the queue. -/
def changes : Instr → List Component
  | .gougeParseStart .. | .gougeParseTimeout .. => [.host, .rest, .cls, .path, .out]
  | .frameAccepted .. => [.urz, .path, .otn]
  | .pauseReceived .. | .pfcReceived .. | .remoteFaultReceived .. => [.path]
  | .pauseTimeExpiry .. | .calendarPostingDue .. | .delayReqSend => [.time, .path]
  | .classifyFrame .. | .ruleBlockFill .. => [.host, .rest, .cls, .path, .mpu, .out]
  | .cutCompileComplete .. | .cutLimitWaitExpiry | .spindleIsolate .. | .spindleReturn .. | .spindleInjectFault .. | .keyLoadBlob ..
  | .keyLoadBlobStore .. | .keyDerive .. | .keyGenerate .. | .keyExport .. | .keyImportBare .. | .keyDelete .. | .keyLoadSa .. | .ownershipTake ..
  | .ownershipTransfer .. | .ownershipRelease .. | .enrollmentOpen .. | .enrollmentRequest .. | .zeroizePinAsserted | .zeroizeDataKeys ..
  | .zeroizeWholePart .. | .setTime .. | .adjustTime .. | .slotOccurrence .. | .captureFifoRead .. | .faultInjection .. | .rawViewRead ..
  | .conditionerKat .. | .expanderKat .. | .rawCapture .. | .decisionWindowClose | .unlockToken .. | .debugToken .. | .debugPowerOn ..
  | .debugPowerOff .. | .exportAcknowledge .. | .counterAdvance .. | .dictionaryWrite .. | .snapshotRead .. | .commit .. | .discardStaging ..
  | .savePersistentImage .. | .doorbellWrite .. | .functionLevelReset | .urzidunOpen | .urzidunRequest | .urzidunClose | .urzidunSessionTimeout ..
  | .controllerFault | .progressMarkTimeout | .controllerStartComplete .. | .controllerDiagnosisComplete .. | .powerGoodAsserted .. | .resetAsserted ..
  | .hbmTrainingComplete .. | .randomWaitTimeout | .imageRestore | .serviceReset .. | .coldReset .. | .coldResetDelayExpiry | .domainPowerRequest ..
  | .domainReset .. | .rwcBitClearWrite .. | .sinceLastReadStatusRead .. | .serviceResetComplete
  | .coreSupplyUnderVoltage => [.time, .power, .ctl, .host, .urz, .rng, .rest, .keys, .cls, .fab, .path, .otn, .mpu, .out, .free]
  | .cutRetired .. => [.ctl, .rest, .cls]
  | .headstockSettle .. => [.power, .host, .rng, .rest, .keys, .fab, .path, .otn, .mpu, .out]
  | .dispatchFrame => [.host, .keys, .fab, .path, .otn, .out]
  | .tokenIssue .. => [.fab, .path]
  | .tokenComplete .. | .spindleFault .. | .tokenWatchdogExpiry .. | .maskStarvation .. => [.power, .host, .rng, .rest, .fab, .path, .mpu, .out]
  | .maskReseedRequest .. => [.rng, .fab]
  | .maskReseedServed .. => [.rng, .rest, .keys, .fab, .mpu, .out, .free]
  | .maskRatchet .. | .avsCommandAck .. => [.fab]
  | .commitEntry .. | .spillWriteStart .. => [.time, .host, .urz, .rest, .keys, .cls, .path, .otn, .mpu, .out, .free]
  | .pauseRefresh .. => [.time, .path, .out]
  | .injectionDescriptor .. => [.host, .path, .out]
  | .injectedFrameAccepted => [.time, .host, .path, .out]
  | .egressSelect .. | .timedLaunch .. => [.time, .host, .rest, .path, .mpu, .out]
  | .frameTransmitted .. => [.time, .host, .path, .mpu, .out]
  | .linkReceiveFault .. | .linkFaultCleared .. => [.path, .out]
  | .avsEvaluation .. => [.power, .host, .fab, .out]
  | .marginEventClear | .diagnosisRetryTimer .. => [.time, .fab]
  | .avsVoltageRead => [.out]
  | .avsAckTimeout | .avsReadbackMismatch => [.host, .rest, .fab, .out]
  | .avsRetry => [.fab, .out]
  | .lagEvaluation .. | .spindleKatComplete .. | .spindleDrainComplete .. => [.power, .host, .rng, .rest, .fab, .mpu, .out]
  | .rotationStart | .spindleStartTimeout .. | .spareSeedTimeout .. | .spareStartRetry ..
  | .rngRequestTimeout => [.time, .power, .host, .rng, .rest, .fab, .mpu, .out]
  | .isolationTimerExpiry .. => [.time, .power, .host, .rest, .fab, .out]
  | .spindleDiagnosisComplete .. => [.power, .host, .rng, .rest, .fab, .mpu, .out, .free]
  | .lockstepMismatchRestart .. => [.power, .fab, .path]
  | .retentionRebuildComplete .. => [.power, .host, .fab, .path, .out]
  | .spindlePark => [.time, .power, .fab]
  | .alignerLock .. | .defectDeclared .. | .defectCleared .. => [.otn, .out]
  | .alignerOof .. | .outOfMultiframe .. => [.otn]
  | .alignmentTimerExpiry .. => [.time, .otn, .out]
  | .tributaryRemapDue .. => [.time, .host, .urz, .rest, .path, .otn, .mpu, .out]
  | .pmSecondTick .. => [.path, .otn]
  | .pmBinEnd .. => [.time, .host, .otn, .out]
  | .pmBinComplete .. => [.time, .otn]
  | .chuckMirrorRebuildComplete .. | .slotReferenceReleased .. | .saRetireComplete .. => [.keys]
  | .enrollmentSessionTimeout => [.time, .keys]
  | .slotScrub .. | .keyExpiryCheck => [.host, .keys, .otn, .out]
  | .rolloverDue .. => [.time, .host, .keys, .otn, .out]
  | .guardWindowEnd .. => [.time, .keys, .otn]
  | .chainLoad .. => [.power, .host, .rng, .rest, .keys, .path, .otn, .mpu, .out]
  | .zeroizePinDeasserted | .toolRestRestart => [.power, .rest]
  | .ptpOwnClockFrame | .pinCaptureEdge .. => [.time, .host, .rest, .keys, .cls, .path, .otn, .out]
  | .followUpTimeout | .delayRespTimeout => [.time]
  | .syncTimeout | .slotPulseEnd .. => [.time, .out]
  | .toolRestSecondsWrite | .tokenHoldoffEnd => [.time, .rest]
  | .mpuRead .. | .mpuWrite .. | .patrolScrub .. => [.host, .rest, .path, .mpu, .out]
  | .metadataEviction .. | .blockAllocate .. => [.host, .rest, .mpu, .out]
  | .conditionedBlockReady .. | .sourceFailuresCleared .. | .expanderReseed | .rawCaptureComplete .. => [.rng]
  | .sourceHealthFailure .. | .sourceStartupComplete .. => [.host, .rng, .rest, .out]
  | .sourceRetest .. => [.time, .host, .rng, .rest, .out]
  | .rngRequestServed => [.power, .rng, .rest, .keys, .fab, .mpu, .out, .free]
  | .expanderFault .. | .rngHalfRestartComplete .. => [.power, .rng]
  | .rngDataRead .. => [.time, .rng, .out]
  | .toolRestSample .. => [.time, .power, .ctl, .host, .urz, .rng, .rest, .keys, .cls, .fab, .path, .otn, .mpu, .out]
  | .sensorAlarmImmediate .. => [.rest]
  | .shadowScan .. => [.power, .host, .rest, .out]
  | .coalesceSecondEnd => [.host, .rest, .out]
  | .logExportReminder => [.host, .out]
  | .exportSegmentFormed => [.rest, .free]
  | .snapshotExpiry .. => [.time, .ctl]
  | .imageSaveComplete .. => [.ctl, .out]
  | .moderationTimerExpiry .. => [.time, .host, .out]
  | .urzidunFrameReceived | .heartbeatSend .. | .heartbeatReceived => [.host, .urz, .keys, .path, .otn, .out]
  | .peerAbsentTimeout .. => [.time, .host, .urz, .keys, .path, .otn, .out]
  | .initComplete .. => [.power, .host, .rng]
  | .generatorReady .. => [.power, .host, .rng, .rest, .keys, .fab, .mpu, .out]
  | .drainComplete | .drainTimeout => [.time, .power, .ctl, .host, .rng, .rest, .keys, .cls, .fab, .path, .otn, .mpu, .out]
  | .thermtripAssert => [.power]
  | .domainRestartComplete .. => [.power, .keys, .cls, .path]
  | .zeroizationComplete => [.rest, .fab]

/-- The commands that commit one command entry of the dictionary and nothing else, with their session, the entry and the value; the
commands that can change other sessions, or entries beside their own, are left out. -/
def single : Instr → Option (Fin 128 × Nat × Nat × Octets)
  | .spindleIsolate k i => some (k, 0x3005, i + 1, [1])
  | .spindleReturn k i => some (k, 0x3005, i + 1, [2])
  | .spindleInjectFault k i => some (k, 0x3005, i + 1, [3])
  | .zeroizeDataKeys k => some (k, 0x3460, 1, [1])
  | .setTime k v => some (k, 0x4001, 1, v)
  | .adjustTime k v => some (k, 0x4001, 2, leBytes 8 v.toNat)
  | .faultInjection k v => some (k, 0x4410, 1, v)
  | .rawViewRead k v => some (k, 0x4420, 1, leBytes 8 v.toNat)
  | .conditionerKat k v => some (k, 0x4810, 1, v)
  | .expanderKat k v => some (k, 0x4811, 1, v)
  | .rawCapture k i => some (k, 0x4812, 1, oct i)
  | .unlockToken k v => some (k, 0x5020, 2, v)
  | .debugToken k v => some (k, 0x5030, 1, v)
  | .debugPowerOn k => some (k, 0x5030, 2, [1])
  | .debugPowerOff k => some (k, 0x5030, 2, [0])
  | .exportAcknowledge k n v => some (k, 0x5041, 2, leBytes 2 n.toNat ++ zeros 2 ++ leBytes 8 v.toNat)
  | .counterAdvance k n v => some (k, 0x5050, 2, [n] ++ zeros 3 ++ leBytes 4 v.toNat)
  | .savePersistentImage k => some (k, 0x1F01, 1, [1])
  | .serviceReset k => some (k, 0x5400, 1, [1])
  | .coldReset k => some (k, 0x5400, 1, [2])
  | _ => none

end Machine
end Sys2Proof
end

