-- ==== Sys2Proof/Certificates/Slice0/Obligations.lean ====
section
/-! DEFINITION. The statements for the provers.  Each formalises the rules of spec/ that its docstring cites.
Where a clause rests on a convention that the model fixes and the spec does not state, the docstring names the row of the assumption log. -/

open Sys2Proof Sys2Proof.Machine

/-- O1. GOUGE_PARSE_START parses a frame on the gouge; GOUGE_PARSE_TIMEOUT takes the gouge out of service and re-parses the frame.
A gouge in service that parses nothing, of the cluster that serves the next frame of an Ethernet port and that is not in reset, starts: on an arriving
frame of a port-direction that is not closed and of which nothing waits for a parse, the next state differs only by one new retention record, which
holds the port-direction, the header, the length, the gouge, the current cut and the key vector of the parse; on a frame that waits for its parse,
that frame is parsed and holds the gouge. A gouge that times out on a frame leaves service, and the frame is parsed again, marked re-parsed, on a free
gouge of the cluster, if any.
Rules: R45, R79. -/
def Obligations.GougeParsesFrame : Prop :=
  (∀ (pd : PD) (c : Fin 8) (g : Fin 16) (header : Octets) (len : Nat) (s : State),
    ethPort s pd.port = true → clusterOf s pd.port (s.pd pd).nextSeq = c.val → clusterUp s c = true → s.cls.outOfService.contains (16 * c.val + g.val) = false →
    (s.pd pd).closed = false → findFrm s (fun f => f.gouge == some (c.val, g.val) && !f.parsed) = none → frmToParse s pd = none →
    exec (.gougeParseStart pd c g header len 0) s =
      .next { s with path := { s.path with nextId := s.path.nextId + 1, frames := s.path.frames.put s.path.nextId { pd := pd, data := header, len := len, gouge := some (c.val, g.val), cut := s.currentCut, kv := parseFrame s pd s.currentCut header len } } }) ∧
  (∀ (pd : PD) (c : Fin 8) (g : Fin 16) (header : Octets) (len id : Nat) (f : Machine.Frm) (s : State),
    ethPort s pd.port = true → frmToParse s pd = some (id, f) → s.path.frames.find id = some f → clusterOf s pd.port f.seq = c.val → clusterUp s c = true →
    s.cls.outOfService.contains (16 * c.val + g.val) = false → findFrm s (fun f => f.gouge == some (c.val, g.val) && !f.parsed) = none →
    exec (.gougeParseStart pd c g header len 0) s = .next { s with path := { s.path with frames := s.path.frames.put id { (f.parse s) with gouge := some (c.val, g.val) } } }) ∧
  (∀ (c : Fin 8) (g : Fin 16) (id : Nat) (f f' : Machine.Frm) (s : State),
    findFrm s (fun f => f.gouge == some (c.val, g.val) && !f.parsed) = some (id, f) → s.path.frames.find id = some f' →
    ∃ t, exec (.gougeParseTimeout c g) s = .next t ∧ t.cls.outOfService.contains (16 * c.val + g.val) = true ∧
      t.path = { s.path with frames := s.path.frames.put id { (f'.parse (gougeOut c g s)) with gouge := (freeGouge (gougeOut c g s) c).map (fun h => (c.val, h)), reparsed := true } })

/-- O2. FRAME_ACCEPTED, INJECTION_DESCRIPTOR and INJECTED_FRAME_ACCEPTED enter a frame with the next sequence number of its port-direction.
An Ethernet frame with a good FCS, of an admissible length, not of MAC control, on a port that exists and is powered and not closed, of which nothing
is retained yet and for which a pool of retention has room, is entered with its octets under the next sequence number of its port-direction, which
advances by one; the pool is charged the frame's occupancy and the counters of frames and octets received count it. So is a tributary frame of a valid
tributary on the port of its OTUCn. While the injection FIFO has room, a valid injection descriptor of a running ring leaves the ring and its frame
joins the injection FIFO; the frame at the head of the FIFO leaves it and is entered in the same way once a pool has room. Model conventions in it,
not rules of the spec: assumption log 90, 106.
Rules: R22, R24, R35, R37, R145, R222, R446. -/
def Obligations.FramesAreAcceptedInSequence : Prop :=
  (∀ (p : PD) (data : Octets) (ago pool : Nat) (s : State),
    ethPort s p.port = true → laneUp s p = true → (s.pd p).closed = false → findFrm s (fun f => f.pd == p && f.stage == .receiving) = none →
    60 ≤ data.length → data.length + 4 ≤ s.odNat 0x2402 (p.port + 1) → be16 data 12 ≠ 0x8808 → poolFor s flightOrder (occupancy (data.length + 4)) = some pool →
    ∃ t f, exec (.frameAccepted p (.ethernet data false ago)) s = .next t ∧ t.frame? s.path.nextId = some f ∧
      f.pd = p ∧ f.data = data ∧ f.seq = (s.pd p).nextSeq ∧ f.stage = .accepted ∧ f.pool = pool ∧ f.occ = occupancy (data.length + 4) ∧
      (t.pd p).nextSeq = (s.pd p).nextSeq + 1 ∧ t.path.pools.get pool 0 = s.path.pools.get pool 0 + occupancy (data.length + 4) ∧
      (t.pd p).mac.get 0 0 = (s.pd p).mac.get 0 0 + 1 ∧ (t.pd p).mac.get 1 0 = (s.pd p).mac.get 1 0 + BitVec.ofNat 64 (data.length + 4)) ∧
  (∀ (p : PD) (i : Fin 256) (payload overhead : Octets) (jc : Octets) (pool : Nat) (s : State),
    (s.tr i).valid = true → otnShape s (tribPair s i) ≠ 0 → p.port.val = 4 * tribPair s i → laneUp s p = true → (s.pd p).closed = false →
    poolFor s flightOrder (occupancy 15232) = some pool →
    ∃ t f, exec (.frameAccepted p (.tributary i payload overhead jc)) s = .next t ∧ t.frame? s.path.nextId = some f ∧
      f.pd = p ∧ f.data = payload ∧ f.seq = (s.pd p).nextSeq ∧ f.stage = .classified ∧ f.odu.map OduPart.overhead = some overhead ∧
      (t.pd p).nextSeq = (s.pd p).nextSeq + 1 ∧ t.path.pools.get pool 0 = s.path.pools.get pool 0 + occupancy 15232) ∧
  (∀ (q : Fin 512) (frame d x : Octets) (rest : List (Octets × Octets)) (s : State),
    (s.ring (576 + q)).posted = (d, x) :: rest → (s.ring (576 + q)).state = 1 → injectRoom s = true → injectStatus s d frame = 0 →
    ∃ t i, exec (.injectionDescriptor q frame) s = .next t ∧ t.path.inject = s.path.inject ++ [i] ∧ i.data = frame ∧ i.ring = some (576 + q.val, d) ∧
      (t.ring (576 + q)).posted = rest) ∧
  (∀ (i : Inject) (rest : List Inject) (pool : Nat) (s : State),
    s.path.inject = i :: rest → poolFor s flightOrder (occupancy (i.data.length + 4)) = some pool →
    ∃ t f, exec .injectedFrameAccepted s = .next t ∧ t.path.inject = rest ∧ t.frame? s.path.nextId = some f ∧ f.pd = i.pd ∧ f.data = i.data ∧
      f.seq = (s.pd i.pd).nextSeq ∧ (t.pd i.pd).nextSeq = (s.pd i.pd).nextSeq + 1 ∧ t.path.pools.get pool 0 = s.path.pools.get pool 0 + occupancy (i.data.length + 4))

/-- O3. PAUSE_RECEIVED and PFC_RECEIVED stop a system port or a priority for the time named, and PAUSE_TIME_EXPIRY ends it.
On an Ethernet port that is not draining, a received PAUSE of q quanta is counted as a MAC control frame and holds the port's frames toward the system
until q x 512 bit times have passed; q = 0 ends the pause. A received PFC frame does the same for each priority it enables, with that priority's time,
and leaves the others as they were. The frames of the port's egress buffer keep their order, those waiting beginning at other instants. The expiry of
a pause or of a priority's pause, at its instant, ends that pause and no other. Nothing else of the part changes. Model conventions in it, not rules
of the spec: assumption log 1, 103.
Rules: R90, R301, R302. -/
def Obligations.ReceivedPauseHoldsTheSystemPort : Prop :=
  (∀ (n : Fin 32) (q : BitVec 16) (s : State), ethPort s n = true → draining s n = false →
    ∃ t, exec (.pauseReceived n q) s = .next t ∧ t.pd ⟨n, .s2l⟩ = { s.pd ⟨n, .s2l⟩ with mac := (s.pd ⟨n, .s2l⟩).mac.bump 5 1 } ∧
      t.pd ⟨n, .l2s⟩ = { s.pd ⟨n, .l2s⟩ with pausedUntil := if q.toNat = 0 then none else some (s.time.cycles + (q.toNat * 800 + portGbps s n - 1) / portGbps s n), buffer := (t.pd ⟨n, .l2s⟩).buffer, lineFree := (t.pd ⟨n, .l2s⟩).lineFree } ∧
      (t.pd ⟨n, .l2s⟩).buffer.map (fun e => { e with startAt := none }) = (s.pd ⟨n, .l2s⟩).buffer.map (fun e => { e with startAt := none }) ∧
      (∀ p : PD, p.key ≠ PD.key ⟨n, .s2l⟩ → p.key ≠ PD.key ⟨n, .l2s⟩ → t.pd p = s.pd p) ∧ ({ t with path := s.path } : State) = s) ∧
  (∀ (n : Fin 32) (en : BitVec 8) (times : List (BitVec 16)) (s : State), ethPort s n = true → draining s n = false →
    ∃ t, exec (.pfcReceived n en times) s = .next t ∧ (t.pd ⟨n, .s2l⟩).mac.get 5 0 = (s.pd ⟨n, .s2l⟩).mac.get 5 0 + 1 ∧
      (∀ k < 8, en.getLsbD k = true → 0 < (times.map BitVec.toNat).getD k 0 → (t.pd ⟨n, .l2s⟩).pfcUntil.find k = some (pauseEnd s n ((times.map BitVec.toNat).getD k 0))) ∧
      (∀ k < 8, en.getLsbD k = false → (t.pd ⟨n, .l2s⟩).pfcUntil.find k = (s.pd ⟨n, .l2s⟩).pfcUntil.find k) ∧
      (t.pd ⟨n, .l2s⟩).pausedUntil = (s.pd ⟨n, .l2s⟩).pausedUntil ∧ (t.pd ⟨n, .l2s⟩).buffer.map (fun e => { e with startAt := none }) = (s.pd ⟨n, .l2s⟩).buffer.map (fun e => { e with startAt := none }) ∧ ({ t with path := s.path } : State) = s) ∧
  (∀ (n : Fin 32) (c : Nat) (s : State), (s.pd ⟨n, .l2s⟩).pausedUntil = some c →
    ∃ t, exec (.pauseTimeExpiry n none) s = .next t ∧ c ≤ t.time.cycles ∧ t.pd ⟨n, .l2s⟩ = { s.pd ⟨n, .l2s⟩ with pausedUntil := none }) ∧
  (∀ (n : Fin 32) (k : Fin 8) (c : Nat) (s : State), (s.pd ⟨n, .l2s⟩).pfcUntil.find k = some c →
    ∃ t, exec (.pauseTimeExpiry n (some k)) s = .next t ∧ c ≤ t.time.cycles ∧ t.pd ⟨n, .l2s⟩ = { s.pd ⟨n, .l2s⟩ with pfcUntil := (s.pd ⟨n, .l2s⟩).pfcUntil.drop k })

/-- O4. LINK_RECEIVE_FAULT, LINK_FAULT_CLEARED, REMOTE_FAULT_RECEIVED and PAUSE_REFRESH change what a port sends.
With link-fault propagation on and no fault present, a receive fault on either side of a port is recorded and makes both transmitters send fault
ordered sets (Local Fault on the other side; on the side itself the Remote Fault with which IEEE 802.3 answers, which is the model's reading, log 25);
when it clears, both stop. Received Remote Fault sets or clears its status bit alone, and the buffered frames toward that side are lined up again.
While XOFF by PAUSE is in force on a port whose pause mode is not off, that is not draining and whose line no timed frame holds, the refresh sends the
PAUSE frame again, counts it, and is due again half a pause time later; with the mode off the refresh ends and nothing is sent. Nothing else changes.
Model conventions in it, not rules of the spec: assumption log 25.
Rules: R91, R92, R125, R299, R300. -/
def Obligations.LinkFaultsPropagate : Prop :=
  (∀ (n : Fin 32) (sd : Side) (loc : Bool) (s : State), s.odNat 0x2403 (n + 1) = 1 → (s.link n).faultSys = false → (s.link n).faultLine = false →
    ∃ t, exec (.linkReceiveFault n sd loc) s = .next t ∧ sideFault t n sd = true ∧ sideFault t n sd.other = false ∧
      (t.link n).status.getLsbD (2 + sd.num) = loc ∧ (t.link n).status.getLsbD sd.num = loc ∧ (t.link n).status.getLsbD 6 = true ∧ (t.link n).status.getLsbD 7 = false ∧
      t.out = .orderedSet n .line (if sd = .line then .remoteFault else .localFault) :: .orderedSet n .system (if sd = .system then .remoteFault else .localFault) :: s.out ∧
      (∀ m, m ≠ n.val → t.link m = s.link m) ∧ ({ t with path := { t.path with links := s.path.links }, out := s.out } : State) = s) ∧
  (∀ (n : Fin 32) (sd : Side) (s : State), s.odNat 0x2403 (n + 1) = 1 → sideFault s n sd = true → sideFault s n sd.other = false →
    ∃ t, exec (.linkFaultCleared n sd) s = .next t ∧ (t.link n).faultSys = false ∧ (t.link n).faultLine = false ∧
      (t.link n).status.getLsbD (2 + sd.num) = false ∧ (t.link n).status.getLsbD 6 = false ∧
      t.out = .orderedSet n .line .none :: .orderedSet n .system .none :: s.out ∧
      (∀ m, m ≠ n.val → t.link m = s.link m) ∧ ({ t with path := { t.path with links := s.path.links }, out := s.out } : State) = s) ∧
  (∀ (n : Fin 32) (sd : Side) (on : Bool) (s : State),
    ∃ t, exec (.remoteFaultReceived n sd on) s = .next t ∧
      (∀ i < 8, (t.link n).status.getLsbD i = if i = 4 + sd.num then on else (s.link n).status.getLsbD i) ∧
      t.link n = { s.link n with status := (t.link n).status } ∧ (∀ m, m ≠ n.val → t.link m = s.link m) ∧ (∀ p : PD, p.key ≠ PD.key ⟨n, match sd with | .system => .l2s | .line => .s2l⟩ → t.pd p = s.pd p) ∧
      ({ t with path := { t.path with links := s.path.links, pds := s.path.pds } } : State) = s) ∧
  (∀ (n : Fin 32) (c : Nat) (s : State), (s.pd ⟨n, .s2l⟩).refreshAt = some c → (s.pd ⟨n, .s2l⟩).xoff = true → s.odNat 0x3804 (n + 1) = 1 ∨ s.odNat 0x3804 (n + 1) = 2 → draining s n = false → (s.pd ⟨n, .l2s⟩).launchList = [] →
    ∃ t, exec (.pauseRefresh n) s = .next t ∧ c ≤ t.time.cycles ∧ (t.pd ⟨n, .s2l⟩).refreshAt = some (t.time.cycles + halfPause s n) ∧ (t.pd ⟨n, .s2l⟩).xoff = true ∧
      t.out = .pause n (pauseOctets s n 1 (s.odNat 0x3807 (n + 1)) []) :: s.out) ∧
  (∀ (n : Fin 32) (c : Nat) (s : State), (s.pd ⟨n, .s2l⟩).refreshAt = some c → s.odNat 0x3804 (n + 1) ≠ 1 → s.odNat 0x3804 (n + 1) ≠ 2 →
    ∃ t, exec (.pauseRefresh n) s = .next t ∧ (t.pd ⟨n, .s2l⟩).refreshAt = none ∧ (t.pd ⟨n, .s2l⟩).xoff = false ∧ (t.pd ⟨n, .s2l⟩).xoffPfc = 0 ∧ t.out = s.out)

/-- O5. CLASSIFY_FRAME and RULE_BLOCK_FILL settle a frame by the fixed checks or by the first rule that matches.
The next accepted frame of a port-direction with a bad FCS is settled as a void entry under the FCS cause. One with no FCS, microcode, malformed,
Urzidun or EAPOL flag whose walk comes to a rule without a policer takes that rule's action record and disposition (bypass or protect), the rule's
queue or the default queue, and counts the rule's hit counter. With a policer in the rule the frame waits for its turn to be policed. A frame whose
walk waits for a rule block is settled by the same rule once the block has been read, and the block's lines are then resident as far as the tree cache
holds them. Then each waiting frame that no earlier accepted one holds back is policed, in the order of acceptance: the policer drops it or the rule's
disposition settles it. The gouge is freed, and the frame's octets and sequence number stay. Model conventions in it, not rules of the spec:
assumption log 70.
Rules: R52, R59, R62, R63, R64, R66, R75. -/
def Obligations.ClassificationSettlesFrames : Prop :=
  (∀ (p : PD) (id : Nat) (f : Machine.Frm) (s : State),
    nextFrm s p (fun f => f.stage == .accepted && (f.parsed || f.gouge.isSome)) = some (id, f) → s.path.frames.find id = some f → kvFlag f.kv 15 = true →
    exec (.classifyFrame p) s = .next (policeSettle { s with path := { s.path with frames := s.path.frames.put id { f with parsed := true, gouge := none, verdict := .drop .fcs, stage := .classified } } })) ∧
  (∀ (p : PD) (id : Nat) (f : Machine.Frm) (a : BitVec 128) (s : State),
    nextFrm s p (fun f => f.stage == .accepted && (f.parsed || f.gouge.isSome)) = some (id, f) → s.path.frames.find id = some f →
    kvFlag f.kv 15 = false → kvFlag f.kv 14 = false → malformedAction s f = 0 → kvFlag f.kv 1 = false → kvFlag f.kv 0 = false →
    walkFrame s false f = .hit a → bitAt a.toNat 124 = false → (bits a.toNat 127 125 = 1 ∨ bits a.toNat 127 125 = 2) →
    ∃ t g, exec (.classifyFrame p) s = .next (policeSettle t) ∧ t.frame? id = some g ∧ g.verdict = (if bits a.toNat 127 125 = 1 then .bypass else .protect) ∧ g.stage = .classified ∧
      g.action = a ∧ g.queue = (if bitAt a.toNat 111 then bits a.toNat 110 101 else defaultQueue s f.pd) ∧ g.gouge = none ∧ g.seq = f.seq ∧ g.data = f.data ∧
      t.cls.hits.get (bits a.toNat 71 56) 0 = s.cls.hits.get (bits a.toNat 71 56) 0 + 1 ∧ ({ t with path := s.path, cls := { t.cls with hits := s.cls.hits } } : State) = s) ∧
  (∀ (p : PD) (id : Nat) (f : Machine.Frm) (a : BitVec 128) (s : State),
    nextFrm s p (fun f => f.stage == .accepted && (f.parsed || f.gouge.isSome)) = some (id, f) → s.path.frames.find id = some f →
    kvFlag f.kv 15 = false → kvFlag f.kv 14 = false → malformedAction s f = 0 → kvFlag f.kv 1 = false → kvFlag f.kv 0 = false →
    walkFrame s false f = .hit a → bitAt a.toNat 124 = true → (bits a.toNat 127 125 = 1 ∨ bits a.toNat 127 125 = 2) →
    ∃ t g, exec (.classifyFrame p) s = .next (policeSettle t) ∧ t.frame? id = some g ∧ g.stage = .policing ∧ g.action = a ∧ g.seq = f.seq ∧ g.data = f.data ∧
      t.cls.hits.get (bits a.toNat 71 56) 0 = s.cls.hits.get (bits a.toNat 71 56) 0 + 1 ∧ ({ t with path := s.path, cls := { t.cls with hits := s.cls.hits } } : State) = s) ∧
  (∀ (p : PD) (id : Nat) (f : Machine.Frm) (ls : List Nat) (a : BitVec 128) (s : State),
    nextFrm s p (fun f => f.stage == .waitFill) = some (id, f) → s.path.frames.find id = some f → walkFrame (settleRewrites s) false f = .fill ls →
    walkFrame (fillBlock f (settleRewrites s)) true f = .hit a → bitAt a.toNat 124 = false → (bits a.toNat 127 125 = 1 ∨ bits a.toNat 127 125 = 2) →
    ∃ t g, exec (.ruleBlockFill p) s = .next (policeSettle t) ∧ t.frame? id = some g ∧ g.verdict = (if bits a.toNat 127 125 = 1 then .bypass else .protect) ∧ g.stage = .classified ∧ g.action = a ∧
      g.seq = f.seq ∧ g.data = f.data ∧
      ((fillRead ls (settleRewrites s)).1 = true → s.cls.resident.length + ls.length ≤ 131072 → ∀ l ∈ ls, l ∈ t.cls.resident) ∧
      ({ t with path := (fillBlock f (settleRewrites s)).path, cls := { t.cls with hits := s.cls.hits } } : State) = fillBlock f (settleRewrites s)) ∧
  (∀ (p : PD) (s : State), nextFrm s p (fun f => f.stage == .accepted && (f.parsed || f.gouge.isSome)) = none → exec (.classifyFrame p) s = .next (policeSettle s)) ∧
  (∀ (id : Nat) (f : Machine.Frm) (s : State), policeNext s = some (id, f) → policeNext (settleClass id (match (police (bits f.action.toNat 123 112) f s).1 with | some c => .drop c | none => actionVerdict f.action.toNat) (police (bits f.action.toNat 123 112) f s).2) = none →
    policeSettle s = settleClass id (match (police (bits f.action.toNat 123 112) f s).1 with | some c => .drop c | none => actionVerdict f.action.toNat) (police (bits f.action.toNat 123 112) f s).2) ∧
  (∀ s : State, policeNext s = none → policeSettle s = s)

/-- O6. CUT_COMPILE_COMPLETE switches to the new cut, CUT_RETIRED frees an old one, CUT_LIMIT_WAIT_EXPIRY refuses the commit.
When the compiler is done for a commit that stages classification entries alone, whose trees stand for its rules within the limits of depth, leaves
and lines and whose checks pass, the commit applies: its cut is Current, the cut that was Current is Retiring, the generation advances by one, the
last compile result is 0 and no commit is in progress. A Retiring cut that no retained frame is still to be walked under, while no commit waits,
leaves the live cuts and nothing else does. A commit that has waited 1 ms for a cut is refused with the cut-limit code at the lowest staged entry of
the trees: the generation, the cuts and the values stay. Model conventions in it, not rules of the spec: assumption log 11, 41.
Rules: R68, R69, R70, R431. -/
def Obligations.CutsSwitchWhole : Prop :=
  (∀ (j : Job) (tree : Compiled) (s : State), s.ctl.job = some j → j.waiting = false → Quiet (jobOut s) → (j.expected = 0 ∨ j.expected = s.ctl.generation.toNat) →
    (∀ q ∈ j.staged, odKey 0x2000 0 ≤ q.1 ∧ q.1 < odKey 0x2400 0) → j.staged ≠ [] → j.cut ≠ s.currentCut → (∀ c ∈ (jobOut s).cls.cuts, c.number ≠ j.cut) →
    compiledOk (jobOut s) tree (newCut (jobOut s) (candidate j.session j.staged (jobOut s)) j.cut (rulesAfter (jobOut s) j.staged) tree) = true →
    Passes j.session j.staged j.chucks (jobOut s) →
    ∃ t, exec (.cutCompileComplete tree) s = .next t ∧ t.ctl.job = none ∧ t.ctl.generation = s.ctl.generation + 1 ∧ t.currentCut = j.cut ∧ t.cls.result = 0 ∧
      (∀ c ∈ s.cls.cuts, c.state = .current → ({ c with state := .retiring } : Cut) ∈ t.cls.cuts)) ∧
  (∀ (n : BitVec 8) (c : Cut) (s : State), s.cls.cuts.find? (fun x => x.number == n.toNat) = some c → c.state = .retiring → cutInUse s n.toNat = false → s.ctl.job = none →
    ∃ t, exec (.cutRetired n) s = .next t ∧ t.cls.cuts = s.cls.cuts.filter (fun x => x.number != n.toNat) ∧
      ({ t with cls := { t.cls with cuts := s.cls.cuts, lines := s.cls.lines, resident := s.cls.resident } } : State) = s) ∧
  (∀ (j : Job) (x : Nat) (s : State), s.ctl.job = some j → j.waiting = true → Quiet (jobOut (waitCycle (j.at_ + cyclesUs 1000) s)) → (j.expected = 0 ∨ j.expected = s.ctl.generation.toNat) →
    (∀ q ∈ j.staged, odKey 0x2000 0 ≤ q.1 ∧ q.1 < odKey 0x2400 0) → j.staged ≠ [] →
    firstFailure (checkCommit j.session j.staged j.chucks (cutFailure j.staged abCut) (jobOut (waitCycle (j.at_ + cyclesUs 1000) s))).fails = some (x, abCut) →
    ∃ t, exec .cutLimitWaitExpiry s = .next t ∧ j.at_ + cyclesUs 1000 ≤ t.time.cycles ∧ t.ctl.job = none ∧ t.ctl.generation = s.ctl.generation ∧ t.ctl.dict = s.ctl.dict ∧
      t.cls.cuts = s.cls.cuts.filter (fun c => c.state != .compiling))

/-- O7. HEADSTOCK_SETTLE takes frames in sequence order and gives an S2L protect frame the next packet number; DISPATCH_FRAME gives it a spindle.
The frame that carries a port-direction's settle pointer, once classified, is settled and the pointer advances by one. A bypass frame is ready as it
stands. While traffic is stopped, a frame that a lock does not let through is a void entry under the lock cause. An S2L protect frame of a valid
transmit SC of its port whose SA is usable, below its last packet number and notice threshold, takes that SA's next PN, which advances by one, joins
the tail of the dispatch queue with a descriptor that names the PN, the SA, its key slot and the IV of R104, and takes a reference on the slot. The
frame at the head of the dispatch queue, with no frame to replay, goes to the eligible spindle with most credits when a copy of its slot passes its
check. Model conventions in it, not rules of the spec: assumption log 86.
Rules: R192, R193, R195, R196, R197, R25, R104, R405. -/
def Obligations.HeadstockSettlesInOrder : Prop :=
  (∀ (p : PD) (id : Nat) (f : Machine.Frm) (s : State), frameAt s p (s.pd p).settlePtr = some (id, f) → s.path.frames.find id = some f → f.stage = .classified → s.power.parked = false →
    f.verdict = .bypass → trafficStopped s = false →
    ∃ t, exec (.headstockSettle p) s = .next t ∧ t.frame? id = some { f with stage := .ready } ∧ t.pd p = { s.pd p with settlePtr := (s.pd p).settlePtr + 1 } ∧
      (∀ j, j ≠ id → t.frame? j = s.frame? j) ∧ ({ t with path := { t.path with frames := s.path.frames, pds := s.path.pds } } : State) = s) ∧
  (∀ (p : PD) (id : Nat) (f : Machine.Frm) (s : State), frameAt s p (s.pd p).settlePtr = some (id, f) → s.path.frames.find id = some f → f.stage = .classified → s.power.parked = false →
    (∀ c, f.verdict ≠ .drop c) → trafficStopped s = true → lockPasses f = false →
    ∃ t, exec (.headstockSettle p) s = .next t ∧ t.frame? id = some { f with stage := .ready, verdict := .drop .lock } ∧ (t.pd p).settlePtr = (s.pd p).settlePtr + 1) ∧
  (∀ (p : PD) (id sc : Nat) (f : Machine.Frm) (s : State), frameAt s p (s.pd p).settlePtr = some (id, f) → s.path.frames.find id = some f → f.stage = .classified → s.power.parked = false →
    f.verdict = .protect → p.dir = .s2l → trafficStopped s = false → f.injSc.getD (bits f.action.toNat 97 84) = sc → sc < 16384 → f.timed = false →
    (s.sc sc).valid = true → (s.sc sc).rx = false → (s.sc sc).port = p.port.val → (s.sc sc).saAt (s.sc sc).txAn ≠ 0xFFFF →
    (s.sa ((s.sc sc).saAt (s.sc sc).txAn)).usable = true → (s.sa ((s.sc sc).saAt (s.sc sc).txAn)).rx = false → (s.sa ((s.sc sc).saAt (s.sc sc).txAn)).slot < 32768 →
    (s.sa ((s.sc sc).saAt (s.sc sc).txAn)).n ≠ lastPn (s.sa ((s.sc sc).saAt (s.sc sc).txAn)).suite →
    (s.sa ((s.sc sc).saAt (s.sc sc).txAn)).n < noticeAt s (s.sa ((s.sc sc).saAt (s.sc sc).txAn)).suite →
    ∃ t g, exec (.headstockSettle p) s = .next t ∧ t.frame? id = some g ∧ g.stage = .queued ∧ g.data = f.data ∧ g.seq = f.seq ∧
      g.desc.pn = (s.sa ((s.sc sc).saAt (s.sc sc).txAn)).n ∧ g.desc.sa = (s.sc sc).saAt (s.sc sc).txAn ∧ g.desc.sc = sc ∧ g.desc.slot = (s.sa ((s.sc sc).saAt (s.sc sc).txAn)).slot ∧
      g.desc.iv = macsecIv (s.sa ((s.sc sc).saAt (s.sc sc).txAn)).suite (s.sc sc).sci (s.sa ((s.sc sc).saAt (s.sc sc).txAn)) (s.sa ((s.sc sc).saAt (s.sc sc).txAn)).n ∧
      (t.sa ((s.sc sc).saAt (s.sc sc).txAn)).n = (s.sa ((s.sc sc).saAt (s.sc sc).txAn)).n + 1 ∧ t.fab.dispatch = s.fab.dispatch ++ [id] ∧
      (t.keys.data.get g.desc.slot {}).refs = (s.keys.data.get g.desc.slot {}).refs + 1 ∧ (t.pd p).settlePtr = (s.pd p).settlePtr + 1) ∧
  (∀ (id i : Nat) (f : Machine.Frm) (rest : List Nat) (s : State), s.rest.zeroizing = false → s.power.service ≠ .resetting → s.fab.replay = [] → s.fab.dispatch = id :: rest →
    dispatchTo s = some i → s.path.frames.find id = some f → s.keys.isoA = false → (s.slot f.desc.slot).state = .filled → (s.slot f.desc.slot).copyBad = 0 →
    copyOk s f.desc.slot (s.slot f.desc.slot).a = true →
    exec .dispatchFrame s = .next { s with fab := { s.fab with dispatch := rest }, path := { s.path with frames := s.path.frames.put id { f with stage := .dispatched, desc := { f.desc with spindle := some i } } } })

/-- O8. TOKEN_ISSUE and TOKEN_COMPLETE take a frame's tokens through a spindle; the mask rows keep its generator seeded.
A spindle at work with a free credit issues the next token of its partly issued frame: one credit less, the token last in flight under the frame's
attempt number, nothing else changed but the instant since which it holds one. The oldest token in flight completes in order: the credit returns, the
token has drawn its mask bits, the token and mask counts advance, and the frame takes the token's GHASH inputs and output; with its last token the
frame is ready and leaves its spindle. A token issued under an earlier attempt number only leaves the pipeline. A mask reseed is asked for once at a
count of 2^20; at 2^21 with the request waiting, the generator ratchets its seed and the event is counted. Serving the reseed by a generator that can
answer draws 32 octets as the new seed, sets the count to 0, removes the request and counts the reseed. Model conventions in it, not rules of the
spec: assumption log 87.
Rules: R174, R176, R178, R181, R182, R194, R202. -/
def Obligations.SpindlesRunTokens : Prop :=
  (∀ (i : Fin 28) (id : Nat) (f : Machine.Frm) (s : State), atWork s i = true → (s.spindle i).credits ≠ 0 →
    s.path.frames.find? (fun q => holds i q.2 && decide (q.2.desc.issued < q.2.desc.tokens)) = some (id, f) → s.path.frames.find id = some f →
    exec (.tokenIssue i) s = .next { s with
      path := { s.path with frames := s.path.frames.put id { f with desc := { f.desc with issued := f.desc.issued + 1 } } },
      fab := { s.fab with spindles := s.fab.spindles.put i { s.spindle i with credits := (s.spindle i).credits - 1, flight := (s.spindle i).flight ++ [(id, f.desc.attempt)], heldFrom := if (s.spindle i).heldFrom.isNone then some s.time.cycles else (s.spindle i).heldFrom } } }) ∧
  (∀ (i : Fin 28) (id : Nat) (rest : List (Nat × BitVec 2)) (f : Machine.Frm) (s : State), atWork s i = true → (s.spindle i).flight = (id, f.desc.attempt) :: rest → (s.spindle i).injected = false →
    s.path.frames.find id = some f → holds i f = true →
    ∃ t g, exec (.tokenComplete i) s = .next t ∧ t.frame? id = some g ∧ g.desc.done = f.desc.done + 1 ∧ g.seq = f.seq ∧ g.pd = f.pd ∧
      g.desc.y = foldInput (hashKey (slotKey s f.desc.slot)) (foldInput (hashKey (slotKey s f.desc.slot)) f.desc.y (ghashInput (slotKey s f.desc.slot) { f with data := frmData s id f } (2 * f.desc.done + 1))) (ghashInput (slotKey s f.desc.slot) { f with data := frmData s id f } (2 * f.desc.done + 2)) ∧
      g.stage = (if f.desc.done + 1 = f.desc.tokens then .ready else f.stage) ∧ g.desc.spindle = (if f.desc.done + 1 = f.desc.tokens then none else f.desc.spindle) ∧
      (t.spindle i).flight = rest ∧ (t.spindle i).credits = (s.spindle i).credits + 1 ∧ (t.spindle i).tokens = (s.spindle i).tokens + 1 ∧ (t.spindle i).maskCount = (s.spindle i).maskCount + 1 ∧
      (t.spindle i).mask = Config.maskDraw (s.spindle i).mask ∧ t.spindle i = (s.spindle i).tokenLeaves s.time.cycles ∧
      (∀ j, j ≠ id → t.frame? j = s.frame? j) ∧ ({ t with path := { t.path with frames := s.path.frames, banks := s.path.banks }, fab := { t.fab with spindles := s.fab.spindles, failover := s.fab.failover } } : State) = s) ∧
  (∀ (i : Fin 28) (id : Nat) (a : BitVec 2) (rest : List (Nat × BitVec 2)) (f : Machine.Frm) (s : State), atWork s i = true → (s.spindle i).flight = (id, a) :: rest → (s.spindle i).injected = false →
    s.path.frames.find id = some f → f.desc.attempt ≠ a →
    exec (.tokenComplete i) s = .next { s with fab := { s.fab with spindles := s.fab.spindles.put i ((s.spindle i).tokenLeaves s.time.cycles) } }) ∧
  (∀ (i : Fin 28) (s : State), atWork s i = true → (s.spindle i).reseedAsked = false → 2 ^ 20 ≤ (s.spindle i).maskCount.toNat →
    exec (.maskReseedRequest i) s = .next { s with
      fab := { s.fab with spindles := s.fab.spindles.put i { s.spindle i with reseedAsked := true } },
      rng := { s.rng with queue := s.rng.queue ++ [{ who := .maskReseed i, cls := 1, at_ := s.time.cycles }] } }) ∧
  (∀ (i : Fin 28) (s : State), atWork s i = true → (s.spindle i).reseedAsked = true → 2 ^ 21 ≤ (s.spindle i).maskCount.toNat →
    exec (.maskRatchet i) s = .next { s with fab := { s.fab with
      spindles := s.fab.spindles.put i { s.spindle i with mask := Config.maskRatchet (s.spindle i).mask }, counters := s.fab.counters.bump 6 1 } }) ∧
  (∀ (i : Fin 28) (r : RngReq) (d : Drbg) (s : State), s.rng.queue.find? (fun r => r.who == .maskReseed i.val) = some r → rngCan s = true → s.rng.live = some d →
    ∃ t, exec (.maskReseedServed i) s = .next t ∧ t.spindle i = { s.spindle i with mask := BitVec.ofNat 256 (beNat (drbgGenerate [] 32 d).1), maskCount := 0, maskFull := false, reseedAsked := false } ∧
      t.rng.queue = s.rng.queue.erase r ∧ t.rng.live = some (drbgGenerate [] 32 d).2 ∧ t.rng.count = s.rng.count + 1 ∧ t.rng.counters.get 5 0 = s.rng.counters.get 5 0 + 1 ∧
      (∀ j, j ≠ i.val → t.spindle j = s.spindle j) ∧ ({ t with rng := s.rng, fab := s.fab } : State) = s)

/-- O9. SPINDLE_FAULT, TOKEN_WATCHDOG_EXPIRY and MASK_STARVATION isolate a spindle and replay its frames.
A fault shown by a check of a spindle at work (with no fault injected), the expiry of its token watchdog with a token in flight, and 2^32 tokens
without a reseed each isolate the spindle with that cause's code: its domain is off, it holds no credits and no tokens, its lifetime isolations
advance by one, and every frame it held is queued for replay with no spindle; a frame that it alone held replays under the next attempt number with
its descriptor's PN, IV and watermark unchanged. Model conventions in it, not rules of the spec: assumption log 64.
Rules: R183, R214, R215, R182, R229. -/
def Obligations.FaultsIsolateSpindles : Prop :=
  ∀ (i : Fin 28) (s : State), atWork s i = true → ∀ (c : Instr) (cause : Nat),
    ((∃ k, c = .spindleFault i k ∧ cause = checkCode k ∧ (s.spindle i).injected = false) ∨
      (c = .tokenWatchdogExpiry i ∧ cause = 5 ∧ (s.spindle i).flight ≠ []) ∨ (c = .maskStarvation i ∧ cause = 6 ∧ (s.spindle i).maskFull = true)) →
    ∃ t, exec c s = .next t ∧ (t.spindle i).role = .isolated ∧ (t.spindle i).cause = cause ∧ (t.domain i).state = 0 ∧ (t.spindle i).flight = [] ∧ (t.spindle i).credits = 0 ∧
      (t.spindle i).isolations = (s.spindle i).isolations + 1 ∧
      (∀ id f, (id, f) ∈ s.path.frames → holds i f = true → id ∈ t.fab.replay ∧ ∃ g, t.frame? id = some g ∧ g.stage = .queued ∧ g.desc.spindle = none) ∧
      (∀ id f, s.path.frames.filter (fun q => holds i q.2) = [(id, f)] → s.path.frames.find id = some f →
        t.frame? id = some { f with stage := .queued, desc := { f.desc with attempt := f.desc.attempt + 1, issued := 0, done := 0, y := 0, mask := 0, spindle := none } })

/-- O10. COMMIT_ENTRY commits the ready frame at the commit pointer; SPILL_WRITE_START moves a frame held as shaping overflow to the packet buffer.
With no commit of the quadrant held back and no entry at the next sequence number, the ready entry at a port-direction's commit pointer is committed:
the pointer advances by one and the frame leaves retention. A void entry of a classification cause returns its space and counts that cause's drop
counter of the port-direction. A bypass frame of S2L that may take the direct path goes to the tail of the egress buffer with its octets; an S2L
protect frame goes there with its SecTAG in place and its ICV at the end. A spill write that starts marks the oldest frame of the queue held as
shaping overflow as written to the packet buffer and returns its space to its pool. Model conventions in it, not rules of the spec: assumption log 15.
Rules: R27, R201, R203, R285, R286, R98, R196. -/
def Obligations.TailstockCommitsInOrder : Prop :=
  (∀ (p : PD) (id i : Nat) (c : Cause) (f : Machine.Frm) (d : Octets) (s : State), commitHead s p = some (id, { f with data := d }) → s.path.frames.find id = some f → frameAt s p ((s.pd p).commitPtr + 1) = none →
    commitsHeld s p = false → schedRestarting s p = false → f.verdict = .drop c → c.column = some i → f.desc.tokens = 0 →
    ∃ t, exec (.commitEntry p) s = .next t ∧ (t.pd p).commitPtr = (s.pd p).commitPtr + 1 ∧ t.path.frames = s.path.frames.drop id ∧
      t.path.pools.get f.pool 0 = s.path.pools.get f.pool 0 - f.occ ∧ t.cls.drops.get (10 * p.key + i) 0 = s.cls.drops.get (10 * p.key + i) 0 + 1) ∧
  (∀ (p : PD) (id : Nat) (f : Machine.Frm) (d : Octets) (s : State), commitHead s p = some (id, { f with data := d }) → s.path.frames.find id = some f → frameAt s p ((s.pd p).commitPtr + 1) = none →
    commitsHeld s p = false → schedRestarting s p = false → f.verdict = .bypass → p.dir = .s2l → f.timed = false → f.desc.tokens = 0 → queueRefuses s (f.toQueue id d) = none → directOk s (f.toQueue id d) = true →
    ∃ t e, exec (.commitEntry p) s = .next t ∧ (t.pd p).commitPtr = (s.pd p).commitPtr + 1 ∧ t.path.frames = s.path.frames.drop id ∧
      (t.pd p).buffer.map Egr.unlined = (s.pd p).buffer.map Egr.unlined ++ [e] ∧ e.data = d ∧ e.seq = f.seq ∧ e.queue = f.queue) ∧
  (∀ (p : PD) (id : Nat) (f g : Machine.Frm) (d : Octets) (s : State), g = { f with data := d } → commitHead s p = some (id, g) → s.path.frames.find id = some f → frameAt s p ((s.pd p).commitPtr + 1) = none →
    commitsHeld s p = false → schedRestarting s p = false → f.verdict = .protect → f.odu = none → p.dir = .s2l → f.timed = false → queueRefuses s (f.toQueue id (protectedFrame g)) = none →
    directOk s (f.toQueue id (protectedFrame g)) = true →
    ∃ t e, exec (.commitEntry p) s = .next t ∧ (t.pd p).commitPtr = (s.pd p).commitPtr + 1 ∧ t.path.frames = s.path.frames.drop id ∧
      (t.pd p).buffer.map Egr.unlined = (s.pd p).buffer.map Egr.unlined ++ [e] ∧ e.data = d.take f.desc.tagAt ++ f.desc.tag ++ d.drop f.desc.tagAt ++ octetsOf (f.desc.y ^^^ f.desc.mask)) ∧
  (∀ (p : PD) (i : Fin 1024) (e : Egr) (s : State), (s.queue p i).items.find? (fun e => e.overflow) = some e → mpuReady s = true → e.pd = p → e.queue = i → (∀ q ∈ quadrantPds p, (s.pd q).heldBack = false) →
    (egrSpill { e with data := (egrRead e s).1.getD e.data } (egrRead e s).2).isSome = true →
    ∃ t, exec (.spillWriteStart p i) s = .next t ∧ t.path.pools.get e.pool 0 = s.path.pools.get e.pool 0 - e.occ ∧
      (∀ x ∈ (t.queue p i).items, x.seq = e.seq → x.overflow = false) ∧ (t.queue p i).items.map (fun x => x.data.length) = (s.queue p i).items.map (fun x => if x.seq = e.seq ∧ x.overflow = true then ((egrRead e s).1.getD e.data).length else x.data.length) ∧
      t.path.frames = s.path.frames ∧ t.path.pds = s.path.pds ∧ t.path.links = s.path.links)

/-- O11. EGRESS_SELECT, CALENDAR_POSTING_DUE, TIMED_LAUNCH and FRAME_TRANSMITTED send queued and timed frames.
On an Ethernet port that is neither paused nor in fault nor holds late timed frames, the one queue of the first list, when its head frame may be read,
its deficit covers the charged length, the egress buffer has room and the frame ends by the next timed boundary, has its head frame moved to the tail
of the egress buffer. A calendar posting, at its time, settles the queue in the state its buckets then give. The head of the launch list, at its
launch time with the line free, goes to the tail of the egress buffer. The frame at the head of the egress buffer leaves the part: it is put out with
its octets, the MAC counters of frames and octets sent count it, and its queue counts it. Model conventions in it, not rules of the spec: assumption
log 90, 101.
Rules: R289, R292, R293, R294, R295, R296, R324. -/
def Obligations.EgressSendsFrames : Prop :=
  (∀ (p : PD) (i : Nat) (e : Egr) (rest : List Egr) (d : Octets) (s : State), ethPort s p.port = true → pausedNow s p = false → remoteFault s p.port (outSide p) = false → faultTx s p.port (outSide p) = false → schedRestarting s p = false →
    (s.pd p).lateList = [] → (s.pd p).lists.get 0 [] = [i] → (s.queue p i).items = e :: rest → e.pd = p → e.overflow = false → pfcPaused s p (s.queue p i).prio = false → (egrRead e s).1 = some d →
    charged (s.queue p i) (lenR8 e.data) ≤ (if (s.queue p i).credC then (s.queue p i).defC else (s.queue p i).defC + (s.queue p i).quantum) →
    bufferRoom s p (lenR8 e.data) = true → fitsLine s p (lenR8 e.data) = true →
    ∃ t, exec (.egressSelect p) s = .next t ∧ (t.pd p).buffer.map Egr.unlined = (s.pd p).buffer.map Egr.unlined ++ [({ e with data := d, place := [], rid := none, pool := 0, occ := 0 } : Egr).unlined] ∧
      (t.queue p i).items = rest ∧ (∀ j, j ≠ i → i < 1024 → j < 1024 → (t.queue p j).items = (s.queue p j).items)) ∧
  (∀ (p : PD) (es : Fin 4) (i : Fin 1024) (te : Nat) (s : State), es.val = p.port.val / 8 → (s.queue p i).portOf (p.port / 8) i = p.port.val → (s.queue p i).posted = some te → 0 < tickAmount s.time.y →
    (s.queue p i).items ≠ [] → queueActive s p i = true →
    ∃ t, exec (.calendarPostingDue es p.dir i) s = .next t ∧ te * 65536 ≤ t.time.now ∧ (t.queue p i).state = bucketState (draining s p.port) (bucketUpdate t.time.ns (s.queue p i)) ∧
      (t.queue p i).items = (s.queue p i).items) ∧
  (∀ (p : PD) (e : Egr) (rest : List Egr) (s : State), (s.pd p).launchList = e :: rest → e.pd = p → 0 < tickAmount s.time.y → faultTx s p.port (outSide p) = false → remoteFault s p.port (outSide p) = false →
    (s.pd p).pausedUntil = none → (s.pd p).pfcUntil = [] → schedRestarting s p = false → bufferRoom s p (lenR8 e.data) = true → (s.pd p).macBusy ≤ launchAt s e - preambleTime s p.port →
    (∀ x ∈ (s.pd p).buffer, ∀ a, x.startAt = some a → a + lineTime s p.port (lenR8 x.data) ≤ launchAt s e - preambleTime s p.port) →
    ∃ t, exec (.timedLaunch p) s = .next t ∧ launchAt s e ≤ t.time.now ∧ (t.pd p).launchList = rest ∧ (t.pd p).buffer.length = (s.pd p).buffer.length + 1 ∧
      (∃ x ∈ (t.pd p).buffer, x.seq = e.seq ∧ x.startAt = some (launchAt s e - preambleTime s p.port)) ∧ (t.queue p e.queue).launched = (s.queue p e.queue).launched + 1) ∧
  (∀ (p : PD) (e : Egr) (rest : List Egr) (a : Nat) (s : State), (s.pd p).buffer = e :: rest → faultTx s p.port (outSide p) = false → e.startAt = some a → e.report = none →
    ∃ t, exec (.frameTransmitted p) s = .next t ∧ t.out.head? = some (.frame p e.data) ∧ (t.pd p).buffer.map Egr.unlined = rest.map Egr.unlined ∧ (t.pd p).mac.get 8 0 = (s.pd p).mac.get 8 0 + 1 ∧
      (t.pd p).mac.get 9 0 = (s.pd p).mac.get 9 0 + BitVec.ofNat 64 (e.data.length + 4) ∧ (t.queue p e.queue).sent = (s.queue p e.queue).sent + 1)

/-- O12. The adaptive-voltage rows: evaluation, acknowledge, reads, freezing and retry of the rail loop.
An evaluation scales the 28 ring rates by the spindles' calibration factors to their measured rates, and with the loop enabled and not frozen raises
the rail by 10 mV within the limits when supply is below demand with its headroom; otherwise it counts an evaluation in a row in which supply allows
lowering. The acknowledge of the oldest write waiting makes that voltage the rail and ends a freeze; that of a read records the voltage reported. A
read is put out. A write not acknowledged in time, and a reported voltage more than 15 mV away, freeze the loop: its status bit is set, nothing is
pending, and the event is posted. A frozen loop's retry sends its last command again. Margin-low and capacity-low clear 10 ms after they were last
seen.
Rules: R185, R187, R188, R190, R503. -/
def Obligations.VoltageLoopSteersTheRail : Prop :=
  (∀ (rates : List Nat) (s : State), rates.length = 28 → s.odNat 0x3002 1 = 1 → s.fab.frozen = false →
    1000000 * supplyNow (avsMeasure rates s) < (100 + s.odNat 0x3002 2) * demandFine s → s.fab.lastCmd + 10 ≤ s.odNat 0x3002 5 → s.odNat 0x3002 4 ≤ s.fab.lastCmd →
    ∃ t, exec (.avsEvaluation rates) s = .next t ∧ t.fab.lastCmd = s.fab.lastCmd + 10 ∧ t.fab.avsPending = s.fab.avsPending ++ [s.fab.lastCmd + 10] ∧ t.out.head? = some (.avsWrite (s.fab.lastCmd + 10)) ∧
      t.fab.offered = 0 ∧ t.fab.lowStreak = 0 ∧ (∀ i : Fin 28, (t.spindle i).ring = rates.getD i 0 ∧ (t.spindle i).measured = rates.getD i 0 * (s.spindle i).calib / 65536)) ∧
  (∀ (rates : List Nat) (s : State), s.odNat 0x3002 1 = 1 → s.fab.frozen = false → (107 + s.odNat 0x3002 2) * demandFine s ≤ 1000000 * supplyNow (avsMeasure rates s) → s.fab.lowStreak + 1 < 10 → 0 < demandFine s →
    ∃ t, exec (.avsEvaluation rates) s = .next t ∧ t.fab.lowStreak = s.fab.lowStreak + 1 ∧ t.fab.lastCmd = s.fab.lastCmd ∧ t.fab.supply = supplyNow (avsMeasure rates s) ∧ t.out = s.out) ∧
  (∀ (mv : Nat) (l : List Nat) (s : State), s.fab.avsPending = mv :: l →
    ∃ t, exec (.avsCommandAck none) s = .next t ∧ t.fab.rail = mv ∧ t.fab.avsPending = l ∧ t.fab.frozen = false ∧ (s.fab.frozen = true → t.fab.status.getLsbD 2 = false) ∧ t.fab.lastCmd = s.fab.lastCmd ∧
      ({ t with fab := s.fab } : State) = s) ∧
  (∀ (v : BitVec 12) (s : State), exec (.avsCommandAck (some v)) s = .next { s with fab := { s.fab with reported := v.toNat } }) ∧
  (∀ s : State, exec .avsVoltageRead s = .next { s with out := .avsRead :: s.out }) ∧
  (∀ s : State, s.fab.avsPending ≠ [] →
    ∃ t, exec .avsAckTimeout s = .next t ∧ t.fab.frozen = true ∧ t.fab.avsPending = [] ∧ t.fab.status.getLsbD 2 = true ∧ t.fab.rail = s.fab.rail ∧ t.fab.lastCmd = s.fab.lastCmd) ∧
  (∀ s : State, s.fab.frozen = false → (s.fab.lastCmd + 15 < s.fab.reported ∨ s.fab.reported + 15 < s.fab.lastCmd) →
    ∃ t, exec .avsReadbackMismatch s = .next t ∧ t.fab.frozen = true ∧ t.fab.avsPending = [] ∧ t.fab.status.getLsbD 2 = true ∧ t.fab.rail = s.fab.rail) ∧
  (∀ s : State, s.fab.frozen = true → exec .avsRetry s = .next { s with fab := { s.fab with avsPending := s.fab.avsPending ++ [s.fab.lastCmd] }, out := .avsWrite s.fab.lastCmd :: s.out }) ∧
  (∀ s : State, s.fab.status.getLsbD 0 = true → s.fab.status.getLsbD 1 = true → s.fab.marginAt ≤ s.fab.capacityAt →
    ∃ t, exec .marginEventClear s = .next t ∧ s.fab.marginAt + tenMs ≤ t.time.cycles ∧ t.fab.status.getLsbD 0 = false ∧
      t.fab.status.getLsbD 1 = decide (t.time.cycles < s.fab.capacityAt + tenMs) ∧ ({ t with time := s.time, fab := { t.fab with status := s.fab.status } } : State) = s)

/-- O13. The rows that start, qualify, refuse and retry a spare, and that begin a rotation or a lag swap.
A Starting spindle whose mask seed has been served becomes Working with 64 credits, nothing in flight and its measured calibration factor when its
known-answer test passes within 1 ms of its start (unless it starts for a rotation), and Diagnosing with its domain off, cause 8 and the failure
counted when it fails; one whose start takes longer becomes Diagnosing too, whether its test would have passed or not. A Starting spare whose seed is
not served in 40 us is Spare again, its request withdrawn, with a retry no sooner than 1 ms later; at the retry a spare that a rotation chose starts.
A lag evaluation comes at the next of the instants 100 us apart (their phase is the model's choice), closes the interval, records for every spindle
the rate of tokens completed over the cycles with a token held in the lag window, and marks as lagging, with cause 7, every Working spindle with
10,000 tokens whose rate is below the set percentage of the median. A rotation that may start puts the spare it chooses into Starting with its domain
on and its seed asked for. Model conventions in it, not rules of the spec: assumption log 61, 124.
Rules: R206, R209, R210, R211, R218, R219, R383. -/
def Obligations.SparesReplaceSpindles : Prop :=
  (∀ (i : Fin 28) (kat : KatRun) (e : Nat) (s : State), katPasses kat = true → (s.spindle i).role = .starting → (s.spindle i).why ≠ .rotation → s.rng.queue.any (fun r => r.who == .spareSeed i.val) = false →
    s.time.cycles + e ≤ (s.spindle i).since + cyclesUs 1000 →
    ∃ t, exec (.spindleKatComplete i kat e) s = .next t ∧ t.time.cycles = s.time.cycles + e ∧ (t.spindle i).role = .working ∧ (t.spindle i).credits = 64 ∧ (t.spindle i).flight = [] ∧ (t.spindle i).calib = calibOf kat ∧ (t.spindle i).lag = false) ∧
  (∀ (i : Fin 28) (kat : KatRun) (e : Nat) (s : State), (s.spindle i).role = .starting → s.rng.queue.any (fun r => r.who == .spareSeed i.val) = false → (s.spindle i).since + cyclesUs 1000 < s.time.cycles + e →
    ∃ t, exec (.spindleKatComplete i kat e) s = .next t ∧ (t.spindle i).role = .diagnosing ∧ (t.spindle i).cause = 8 ∧ (t.domain i).state = 0) ∧
  (∀ (i : Fin 28) (kat : KatRun) (e : Nat) (s : State), katPasses kat = false → (s.spindle i).role = .starting → s.rng.queue.any (fun r => r.who == .spareSeed i.val) = false → s.time.cycles + e ≤ (s.spindle i).since + cyclesUs 1000 →
    ∃ t, exec (.spindleKatComplete i kat e) s = .next t ∧ (t.spindle i).role = .diagnosing ∧ (t.spindle i).cause = 8 ∧ (t.domain i).state = 0 ∧ t.fab.counters.get 3 0 = s.fab.counters.get 3 0 + 1) ∧
  (∀ (i : Fin 28) (s : State), (s.spindle i).role = .starting →
    ∃ t, exec (.spindleStartTimeout i) s = .next t ∧ (s.spindle i).since + cyclesUs 1000 ≤ t.time.cycles ∧ (t.spindle i).role = .diagnosing ∧ (t.spindle i).cause = 8 ∧ (t.domain i).state = 0) ∧
  (∀ (i : Fin 28) (s : State), (s.spindle i).role = .starting → s.rng.queue.any (fun r => r.who == .spareSeed i.val) = true →
    ∃ t, exec (.spareSeedTimeout i) s = .next t ∧ (s.spindle i).since + cyclesUs 40 ≤ t.time.cycles ∧ (t.spindle i).role = .spare ∧ (t.domain i).state = 0 ∧
      (t.spindle i).retryAt = t.time.cycles + cyclesUs 1000 ∧ ∀ r ∈ t.rng.queue, r.who ≠ .spareSeed i) ∧
  (∀ (i : Fin 28) (b : Bool) (s : State), (s.spindle i).role = .spare → (s.spindle i).retryAt ≠ 0 → s.fab.rotation = some (i.val, b) →
    ∃ t, exec (.spareStartRetry i) s = .next t ∧ (s.spindle i).retryAt ≤ t.time.cycles ∧ (t.spindle i).role = .starting ∧ (t.spindle i).why = .rotation ∧ (t.domain i).state = 1 ∧
      ∃ r ∈ t.rng.queue, r.who = .spareSeed i) ∧
  (∀ (e : Nat) (s : State), ∃ t, exec (.lagEvaluation e) s = .next t ∧ s.time.cycles + e ≤ t.time.cycles ∧ t.time.cycles < s.time.cycles + e + cyclesUs 100 ∧ t.time.cycles % cyclesUs 100 = 0 ∧
      (∀ i : Fin 28, (t.spindle i).busy = busyRate (((s.spindle i).lagClose t.time.cycles).lagWindow (s.odNat 0x3001 2)) ∧ (t.spindle i).parts = ((s.spindle i).lagClose t.time.cycles).parts) ∧
      (∀ i : Fin 28, (s.spindle i).role = .working → 10000 ≤ (((s.spindle i).lagClose t.time.cycles).lagWindow (s.odNat 0x3001 2)).1 →
        200 * (t.spindle i).busy < s.odNat 0x3001 1 * median2 ((inRole s .working).map (fun j => (t.spindle j).busy)) → (s.spindle i).lag = false →
        (t.spindle i).lag = true ∧ (t.spindle i).cause = 7 ∧ (t.spindle i).role = .working)) ∧
  (∀ (i : Nat) (s : State), s.odNat 0x3000 1 ≠ 0 → s.power.start = .ready → s.power.parked = false → s.fab.rotation = none → s.fab.failover = [] → swapping s = false → s.power.service = .none →
    s.fab.status.getLsbD 3 = false → nextSpare (waitCycle (s.fab.rotatedAt + cyclesUs (1000 * s.odNat 0x3000 2)) s) = some i →
    ∃ t, exec .rotationStart s = .next t ∧ s.fab.rotatedAt + cyclesUs (1000 * s.odNat 0x3000 2) ≤ t.time.cycles ∧ t.fab.rotation = some (i, false) ∧ (t.spindle i).role = .starting ∧ (t.spindle i).why = .rotation ∧
      (t.domain i).state = 1 ∧ ∃ r ∈ t.rng.queue, r.who = .spareSeed i)

/-- O14. The rows that end a drain, an isolation or a diagnosis, park the spindles, restart a lockstep stage and end a retention rebuild.
A Draining spindle that holds no work goes to Diagnosing after a lag swap, and otherwise, where no further Working spindle is wanted, to Spare, with
its domain off; a rotation ends with it and is counted. Ten ms after its isolation a spindle is Diagnosing, or Retired once its lifetime isolations
have reached 16. A diagnosis that passes makes it Spare where none is wanted, counting the repair; one that fails counts the failure, and the third in
a row retires it; the retry timer readies the next run. Parking drains every Working spindle. A lockstep restart of the headstock replays every
dispatched frame, one of the tailstock every frame whose tokens are all issued, and counts the domain reset. The end of a retention rebuild, the bank
rewritten from the other three, clears its status bit; in a service reset the next bank is then reset, until the last. Model conventions in it, not
rules of the spec: assumption log 64.
Rules: R206, R199, R221, R495, R491, R229. -/
def Obligations.SpindlesLeaveService : Prop :=
  (∀ (i : Fin 28) (s : State), (s.spindle i).role = .draining → (s.spindle i).flight = [] → s.path.frames.any (fun q => holds i q.2) = false → ((s.spindle i).why = .lag ∨ wanted s = 0) →
    ∃ t, exec (.spindleDrainComplete i) s = .next t ∧ (t.spindle i).role = (if (s.spindle i).why = .lag then .diagnosing else .spare) ∧ (t.domain i).state = 0 ∧
      ((s.spindle i).why = .rotation → t.fab.rotation = none ∧ t.fab.counters.get 2 0 = s.fab.counters.get 2 0 + 1)) ∧
  (∀ (i : Fin 28) (s : State), (s.spindle i).role = .isolated →
    ∃ t, exec (.isolationTimerExpiry i) s = .next t ∧ (s.spindle i).since + tenMs ≤ t.time.cycles ∧
      (t.spindle i).role = (if 16 ≤ (s.spindle i).isolations.toNat then .retired else .diagnosing)) ∧
  (∀ (i : Fin 28) (run : DiagnosisRun) (s : State), (run.memory && katPasses run.kat) = true → (s.spindle i).role = .diagnosing → wanted s = 0 →
    ∃ t, exec (.spindleDiagnosisComplete i run) s = .next t ∧ (t.spindle i).role = .spare ∧ (t.spindle i).calib = calibOf run.kat ∧ (t.spindle i).repairs = (s.spindle i).repairs + 1 ∧ (t.spindle i).fails = 0 ∧ (t.domain i).state = 0) ∧
  (∀ (i : Fin 28) (run : DiagnosisRun) (s : State), (run.memory && katPasses run.kat) = false → (s.spindle i).role = .diagnosing →
    ∃ t, exec (.spindleDiagnosisComplete i run) s = .next t ∧ (t.spindle i).fails = (s.spindle i).fails + 1 ∧ (t.spindle i).cause = 8 ∧ t.fab.counters.get 3 0 = s.fab.counters.get 3 0 + 1 ∧
      (t.spindle i).role = (if 3 ≤ (s.spindle i).fails + 1 then .retired else .diagnosing)) ∧
  (∀ (i : Fin 28) (s : State), (s.spindle i).role = .diagnosing →
    ∃ t, exec (.diagnosisRetryTimer i) s = .next t ∧ (s.spindle i).retryAt ≤ t.time.cycles ∧ t.spindle i = { s.spindle i with retryAt := 0 } ∧ ({ t with time := s.time, fab := s.fab } : State) = s) ∧
  (∀ s : State, s.odNat 0x5404 1 ≠ 0 → s.power.parked = false → s.fab.offered = 0 → s.power.start = .ready →
    ∃ t, exec .spindlePark s = .next t ∧ t.power.parked = true ∧ s.power.zeroSince + cyclesUs (1000 * s.odNat 0x5404 2) ≤ t.time.cycles ∧
      ∀ i : Fin 28, (s.spindle i).role = .working → (t.spindle i).role = .draining ∧ (t.spindle i).why = .park) ∧
  (∀ s : State, ∃ t, exec (.lockstepMismatchRestart .headstock) s = .next t ∧ (t.domain 72).resets = (s.domain 72).resets + 1 ∧ (t.domain 72).cause = 2 ∧
    ∀ id f, (id, f) ∈ s.path.frames → f.desc.tokens ≠ 0 → f.stage = .dispatched → id ∈ t.fab.replay ∧ ∃ g, t.frame? id = some g ∧ g.stage = .queued) ∧
  (∀ s : State, ∃ t, exec (.lockstepMismatchRestart .tailstock) s = .next t ∧ (t.domain 73).resets = (s.domain 73).resets + 1 ∧ (t.domain 73).cause = 2 ∧
    ∀ id f, (id, f) ∈ s.path.frames → f.desc.issued = f.desc.tokens → f.stage = .dispatched → id ∈ t.fab.replay ∧ ∃ g, t.frame? id = some g ∧ g.stage = .queued) ∧
  (∀ (b : Fin 4) (s : State), s.fab.rebuild = some b.val → (s.power.service ≠ .resetting ∨ b.val = 3) →
    ∃ t, exec (.retentionRebuildComplete b) s = .next t ∧ t.fab.rebuild = none ∧ t.fab.status.getLsbD 4 = false ∧ t.path = { s.path with banks := (bankRebuild b s).path.banks }) ∧
  (∀ (b : Fin 4) (s : State), s.fab.rebuild = some b.val → s.power.service = .resetting → b.val < 3 →
    ∃ t, exec (.retentionRebuildComplete b) s = .next t ∧ t.fab.rebuild = some (b.val + 1) ∧ t.fab.status.getLsbD 4 = true ∧ (t.domain (53 + b)).state = 3)

/-- O15. What is written to retention is read back from the four banks, and a record released is gone.
With every bank in service, octets written to a retention record are read back as they were written, whatever their number: each 32-octet word goes
through the Reed-Solomon code, its 24 symbols six to each bank. Other records read as before. A released record is in no bank. Model conventions in
it, not rules of the spec: assumption log 100.
Rules: R36, R198, R203. -/
def Obligations.RetentionHoldsFrames : Prop :=
  (∀ (id : Nat) (d : Octets) (s : State), s.fab.rebuild = none → retRead (retWrite id d s) id d.length = some d) ∧
  (∀ (id j n : Nat) (d : Octets) (s : State), s.fab.rebuild = none → j ≠ id → retRead (retWrite id d s) j n = retRead s j n ∧ retRead (retFree id s) j n = retRead s j n) ∧
  (∀ (id n : Nat) (s : State), (∀ b, b < 4 → (s.path.banks.get b []).Rising) → retRead (retFree id s) id n = none)

/-- O16. Alignment-marker lock, locking, losing and timing of a frame aligner, of an OTUC slice and of a tributary.
A FlexO instance gains alignment-marker lock on two valid markers in a row, and loses it on four invalid ones, which raises dLOL. A hunting aligner of
a configured slice or valid tributary that is given one candidate at an offset it examines (any octet of a tributary; a 16-octet boundary of a slice,
in marker lock) is in frame at the candidate's offset with its MFAS, in multiframe, its timer started; two candidates of equal agreements lock none
and count an ambiguity. The fifth mismatch of an aligner in frame puts it back to Hunt, the four before it counted as FAS errors, its timer started at
the present cycle. Where an aligner hunts without its defect, the timer's expiry comes 3 ms after its timer and declares the aligner's dLOF, which
shows on the tributary as dLOFLOM unless a defect of its side is present. Out of multiframe starts the dLOM timer of a slice and puts a tributary
aligner back to Hunt. Model conventions in it, not rules of the spec: assumption log 27, 28.
Rules: R132, R134, R135, R136. -/
def Obligations.AlignersFollowTheirStates : Prop :=
  (∀ (k : Fin 8) (sd : Side) (j : Fin 8) (s : State), alignerOn s (.slice k sd j) = true → (s.aligner (.slice k sd j)).am = false → (s.aligner (.slice k sd j)).amRun = 0 →
    ∃ t, exec (.alignerLock (.slice k sd j) { markers := [true, true] }) s = .next t ∧ (t.aligner (.slice k sd j)).am = true) ∧
  (∀ (k : Fin 8) (sd : Side) (j : Fin 8) (s : State), alignerOn s (.slice k sd j) = true → (s.aligner (.slice k sd j)).am = true → (s.aligner (.slice k sd j)).amRun = 0 →
    ∃ t, exec (.alignerLock (.slice k sd j) { markers := [false, false, false, false] }) s = .next t ∧ (t.aligner (.slice k sd j)).am = false ∧ (t.otn.sideRaw.get (sideKey k sd) 0).getLsbD 1 = true) ∧
  (∀ (a : AlignerId) (c : Candidate) (s : State), alignerOn s a = true → (s.aligner a).inFrame = false → examines s a c = true →
    ∃ t, exec (.alignerLock a { cands := [c] }) s = .next t ∧ (t.aligner a).inFrame = true ∧ (t.aligner a).offset = c.offset ∧ (t.aligner a).mfas = c.mfas ∧ (t.aligner a).oom = false ∧ (t.aligner a).timer = s.time.cycles) ∧
  (∀ (a : AlignerId) (c d : Candidate) (s : State), alignerOn s a = true → (s.aligner a).inFrame = false → c.agreements = d.agreements → examines s a c = true → examines s a d = true →
    exec (.alignerLock a { cands := [c, d] }) s = .next { s with otn := { s.otn with ambiguities := s.otn.ambiguities + 1 } }) ∧
  (∀ (a : AlignerId) (s : State), alignerOn s a = true → (s.aligner a).inFrame = true →
    ∃ t, exec (.alignerOof a) s = .next t ∧ (t.aligner a).inFrame = false ∧ (t.aligner a).fasErrors = (s.aligner a).fasErrors + 4 ∧ (t.aligner a).timer = s.time.cycles) ∧
  (∀ (a : AlignerId) (s : State), alignerOn s a = true → (s.aligner a).inFrame = false → (s.aligner a).lof = false →
    ∃ t, exec (.alignmentTimerExpiry a) s = .next t ∧ (s.aligner a).timer + cyclesUs 3000 ≤ t.time.cycles ∧ (t.aligner a).lof = true ∧
      ∀ (i : Fin 256) (sd : Side), a = .tributary i sd → bits (sideDefects s (tribPair s i) sd).toNat 18 0 = 0 → (t.otn.trib.get i 0).getLsbD (8 * sd.num) = true) ∧
  (∀ (k : Fin 8) (sd : Side) (j : Fin 8) (s : State), alignerOn s (.slice k sd j) = true → (s.aligner (.slice k sd j)).inFrame = true → (s.aligner (.slice k sd j)).oom = false →
    ∃ t, exec (.outOfMultiframe (.slice k sd j)) s = .next t ∧ (t.aligner (.slice k sd j)).inFrame = true ∧ (t.aligner (.slice k sd j)).oom = true ∧ (t.aligner (.slice k sd j)).oomAt = s.time.cycles) ∧
  (∀ (i : Fin 256) (sd : Side) (s : State), (s.tr i).valid = true → (s.aligner (.tributary i sd)).inFrame = true →
    ∃ t, exec (.outOfMultiframe (.tributary i sd)) s = .next t ∧ (t.aligner (.tributary i sd)).inFrame = false ∧ (t.aligner (.tributary i sd)).timer = s.time.cycles)

/-- O17. Declaring and clearing defects of a side, of a tributary and of security.
A side defect of a configured OTUCn is present and latched once its condition holds where no condition of a lower layer of the side holds; where a
lower layer shows a defect it stays as it was, its condition kept; the side's aSSF bit then shows whether any defect present calls for it. A tributary
defect is present once declared where its side has no defect. A security defect of a valid secure tributary is present once declared where neither the
line side's OTUCn nor the tributary as received there shows a defect, and squelches the tributary where its squelch is on. A defect cleared is absent.
Model conventions in it, not rules of the spec: assumption log 74.
Rules: R138, R140, R171. -/
def Obligations.DefectsSettleByLayer : Prop :=
  (∀ (k : Fin 8) (sd : Side) (b : Fin 19) (w : Fin 3) (s : State), otnShape s k ≠ 0 → (∀ c < 19, layerOf c < layerOf b → (s.otn.sideRaw.get (sideKey k sd) 0).getLsbD c = false) →
    ∃ t, exec (.defectDeclared (.side k sd b w)) s = .next t ∧ (sideDefects t k sd).getLsbD b = true ∧ (t.otn.sideLatched.get (sideKey k sd) 0).getLsbD b = true ∧
      (sideDefects t k sd).getLsbD 19 = sideSsf t k sd) ∧
  (∀ (k : Fin 8) (sd : Side) (b : Fin 19) (w : Fin 3) (c : Nat) (s : State), otnShape s k ≠ 0 → c < 19 → layerOf c < layerOf b → (sideDefects s k sd).getLsbD c = true → (s.otn.sideRaw.get (sideKey k sd) 0).getLsbD c = true →
    ∃ t, exec (.defectDeclared (.side k sd b w)) s = .next t ∧ (sideDefects t k sd).getLsbD b = (sideDefects s k sd).getLsbD b ∧ (t.otn.sideRaw.get (sideKey k sd) 0).getLsbD b = true) ∧
  (∀ (i : Fin 256) (sd : Side) (b : Fin 7) (s : State), (s.tr i).valid = true → bits (sideDefects s (tribPair s i) sd).toNat 18 0 = 0 →
    ∃ t, exec (.defectDeclared (.tributary i sd b)) s = .next t ∧ (t.otn.trib.get i 0).getLsbD (8 * sd.num + b) = true) ∧
  (∀ (i : Fin 256) (w : Fin 3) (s : State), (s.tr i).valid = true → (s.tr i).mode ≠ 0 → bits (sideDefects s (tribPair s i) .line).toNat 18 0 = 0 → s.otn.tribRaw.get i 0 &&& 0x7F00 = 0 →
    ∃ t, exec (.defectDeclared (.security i w)) s = .next t ∧ (t.otn.trib.get i 0).getLsbD (16 + w) = true ∧ (t.otn.trib.get i 0).getLsbD 19 = (s.tr i).squelch) ∧
  (∀ (k : Fin 8) (sd : Side) (b : Fin 19) (w : Fin 3) (s : State), b.val ≠ 13 →
    ∃ t, exec (.defectCleared (.side k sd b w)) s = .next t ∧ (sideDefects t k sd).getLsbD b = false ∧ (sideDefects t k sd).getLsbD 19 = sideSsf t k sd) ∧
  (∀ (i : Fin 256) (sd : Side) (b : Fin 7) (s : State), ∃ t, exec (.defectCleared (.tributary i sd b)) s = .next t ∧ (t.otn.trib.get i 0).getLsbD (8 * sd.num + b) = false) ∧
  (∀ (i : Fin 256) (w : Fin 3) (s : State), ∃ t, exec (.defectCleared (.security i w)) s = .next t ∧ (t.otn.trib.get i 0).getLsbD (16 + w) = false)

/-- O18. A tributary frame due for remap is sent once, no earlier than its cushion, or replaced by ODUk-AIS.
Where the frame at the head of a valid tributary's play-out buffer follows the one sent last, a remap sends it no earlier than the play-out cushion
after its acceptance, as ODUk-AIS where the tributary's consequent action or the frame itself calls for it and with the frame's own payload otherwise,
with the JC octets of the Cm and CnD chosen for it, and takes it out of the buffer. Where the buffer is empty, the remap sends one ODUk-AIS frame of
the next MFAS, counts a play-out underrun and shows it. Model conventions in it, not rules of the spec: assumption log 1, 29.
Rules: R146, R147, R148, R151, R163. -/
def Obligations.TributariesAreRemappedOnce : Prop :=
  (∀ (i : Fin 256) (d : Dir) (e : Nat) (x : PlayItem) (rest : List PlayItem) (s : State), (s.tr i).valid = true → otnShape s (tribPair s i) ≠ 0 → playOf (s.tr i) d = x :: rest → x.place = [] →
    (∀ m, mfasNext (s.tr i) d = some m → m = x.mfas) →
    ∃ t o, exec (.tributaryRemapDue i d e) s = .next t ∧ s.time.cycles + e ≤ t.time.cycles ∧ x.acceptAt + cyclesUs (s.odNat 0x2802 (tribPair s i + 1)) ≤ t.time.cycles ∧ playOf (t.tr i) d = rest ∧
      mfasNext (t.tr i) d = some (x.mfas + 1) ∧
      t.out = .odu i d (if tribAis s i d = true ∨ x.ais = true then List.replicate 15232 0xFF else x.payload) o (Config.jcOctets (gmpNext i d s).1 (gmpNext i d s).2) :: s.out) ∧
  (∀ (i : Fin 256) (d : Dir) (e : Nat) (s : State), (s.tr i).valid = true → otnShape s (tribPair s i) ≠ 0 → playOf (s.tr i) d = [] →
    ∃ t o, exec (.tributaryRemapDue i d e) s = .next t ∧ t.time.cycles = s.time.cycles + e ∧ playOf (t.tr i) d = [] ∧ (t.tr i).counters.get 5 0 = (s.tr i).counters.get 5 0 + 1 ∧
      (t.otn.trib.get i 0).getLsbD (match d with | .s2l => 7 | .l2s => 15) = true ∧
      t.out = .odu i d (List.replicate 15232 0xFF) o (Config.jcOctets (gmpNext i d s).1 (gmpNext i d s).2) :: s.out ∧ o.take 7 = beBytes 6 0xF6F6F6282828 ++ [(mfasNext (s.tr i) d).getD 0])

/-- O19. Seconds are counted into FEC counters and performance bins, and bins end and become complete.
A second that is not severely errored, of a configured entity that is available at its near end, adds one errored second to the current 15-minute bin
exactly where it had an errored block or a defect was present, and its errored blocks to the background block errors. A second adds what the FEC of an
OTN lane and of an Ethernet port counted to their counters, marks the current bins of every unconfigured entity, and every current bin suspect while
the time unit is not set. At the end of a bin every entity's current bin becomes its latest previous one, of which 32 of 15 minutes and one of 24
hours are kept, and a new bin starts at a multiple of its length. The latest previous bin becomes complete.
Rules: R122, R165, R166, R167, R172. -/
def Obligations.MonitoringKeepsItsBins : Prop :=
  (∀ (o : SecObs) (s : State), o.entity < 544 → entityOn s o.entity = true → (s.pmEnt o.entity).unavail = false → (nearRec (s.time.secs - 1) (seenOf s o.entity) o).ses = false → (s.pmEnt o.entity).cur15.start ≤ s.time.secs - 1 →
    (s.pmEnt o.entity).funavail = false → (farRec (s.time.secs - 1) (seenOf s o.entity) o).ses = false →
    ∃ t, exec (.pmSecondTick { entities := [o] }) s = .next t ∧ (t.pmEnt o.entity).cur15.es = (s.pmEnt o.entity).cur15.es + (if 0 < o.errored ∨ (seenOf s o.entity).near = true then 1 else 0) ∧
      (t.pmEnt o.entity).cur15.bbe = (s.pmEnt o.entity).cur15.bbe + o.errored ∧ (t.pmEnt o.entity).unavail = false) ∧
  (∀ (l : LaneObs) (s : State), 0 < otnShape s l.pair → ∃ t, exec (.pmSecondTick { lanes := [l] }) s = .next t ∧
    t.otn.fec.get (24 * l.pair.val + 3 * l.lane.val) 0 = s.otn.fec.get (24 * l.pair.val + 3 * l.lane.val) 0 + BitVec.ofNat 64 l.corrected ∧
    t.otn.fec.get (24 * l.pair.val + 3 * l.lane.val + 1) 0 = s.otn.fec.get (24 * l.pair.val + 3 * l.lane.val + 1) 0 + BitVec.ofNat 64 l.uncorrectable ∧
    t.otn.fec.get (24 * l.pair.val + 3 * l.lane.val + 2) 0 = s.otn.fec.get (24 * l.pair.val + 3 * l.lane.val + 2) 0 + BitVec.ofNat 64 l.symbols) ∧
  (∀ (p : PD) (m n : Nat) (s : State), ethPort s p.port = true → ∃ t, exec (.pmSecondTick { ports := [(p, m, n)] }) s = .next t ∧
    (t.pd p).mac.get 10 0 = (s.pd p).mac.get 10 0 + BitVec.ofNat 64 m ∧ (t.pd p).mac.get 11 0 = (s.pd p).mac.get 11 0 + BitVec.ofNat 64 n) ∧
  (∀ s : State, ∃ t, exec (.pmSecondTick {}) s = .next t ∧ (∀ e < 544, entityOn s e = false → (t.pmEnt e).cur15.unconf = true ∧ (t.pmEnt e).cur24.unconf = true) ∧
    (s.time.isSet = false → ∀ e < 544, (t.pmEnt e).cur15.suspect = true ∧ (t.pmEnt e).cur24.suspect = true)) ∧
  (∀ s : State, ∃ t, exec (.pmBinEnd false) s = .next t ∧ ∀ e < 544, (t.pmEnt e).cur15 = { start := t.time.secs / 900 * 900 } ∧ (t.pmEnt e).prev15 = ((s.pmEnt e).cur15 :: (s.pmEnt e).prev15).take 32 ∧
    (t.pmEnt e).cur24 = (s.pmEnt e).cur24) ∧
  (∀ s : State, ∃ t, exec (.pmBinEnd true) s = .next t ∧ ∀ e < 544, (t.pmEnt e).cur24 = { start := t.time.secs / 86400 * 86400 } ∧ (t.pmEnt e).prev24 = (s.pmEnt e).cur24 ∧ (t.pmEnt e).cur15 = (s.pmEnt e).cur15) ∧
  (∀ s : State, ∃ t, exec (.pmBinComplete true) s = .next t ∧ ∀ e < 544, (t.pmEnt e).prev24 = { (s.pmEnt e).prev24 with complete := true }) ∧
  (∀ s : State, ∃ t, exec (.pmBinComplete false) s = .next t ∧ ∀ e < 544, ∀ b l, (s.pmEnt e).prev15 = b :: l → (t.pmEnt e).prev15 = { b with complete := true } :: l)

/-- O20. A committed load, derivation, generation or bare import of a key fills its target slot with two equal copies.
A commit of one such key command that is taken up at once and passes its checks ends with result 0, advances the generation and the count of key
commands, and leaves the target slot Filled with two equal copies: with the attributes of the command for a derived, generated or imported key, and
with the attributes and key of the plaintext that the key of a Filled KEK slot unwraps from the blob for a loaded blob. Model conventions in it, not
rules of the spec: assumption log 3, 85, 86.
Rules: R249, R247, R254, R255, R244, R246, R250. -/
def Obligations.KeyCommandsFillSlots : Prop :=
  (∀ (ses : Fin 128) (target : BitVec 16) (attr : Octets) (ck : ChuckRun) (s : State), Commits ses 0x3410 1 (keyRecord 4 (leBytes 2 target.toNat ++ zeros 2 ++ padTo 24 attr)) ck s →
    ∃ t, exec (.keyGenerate ses target attr ck) s = .next t ∧ Committed ses s t ∧ (t.slot target.toNat).state = .filled ∧ (t.slot target.toNat).b = (t.slot target.toNat).a ∧
      (t.slot target.toNat).a.usage = (Attr.ofBlock (padTo 24 attr)).usage ∧ (t.slot target.toNat).a.keyId = (Attr.ofBlock (padTo 24 attr)).keyId ∧ t.keys.counters.get 0 0 = s.keys.counters.get 0 0 + 1) ∧
  (∀ (ses : Fin 128) (target source : BitVec 16) (prf cw lw : BitVec 8) (label context attr : Octets) (ck : ChuckRun) (s : State), label.length ≤ 64 → context.length ≤ 256 →
    Commits ses 0x3410 1 (keyRecord 3 (pad4 (leBytes 2 target.toNat ++ leBytes 2 source.toNat ++ [prf, cw, lw] ++ oct label.length ++ leBytes 2 context.length ++ zeros 2 ++ padTo 24 attr ++ label ++ context))) ck s →
    ∃ t, exec (.keyDerive ses target source prf cw lw label context attr ck) s = .next t ∧ Committed ses s t ∧ (t.slot target.toNat).state = .filled ∧ (t.slot target.toNat).b = (t.slot target.toNat).a ∧
      (t.slot target.toNat).a.usage = (Attr.ofBlock (padTo 24 attr)).usage ∧ (t.slot target.toNat).a.keyId = (Attr.ofBlock (padTo 24 attr)).keyId ∧ t.keys.counters.get 0 0 = s.keys.counters.get 0 0 + 1) ∧
  (∀ (ses : Fin 128) (target kek : BitVec 16) (attr wrapped : Octets) (ck : ChuckRun) (s : State), Commits ses 0x3410 1 (keyRecord 6 (leBytes 2 target.toNat ++ leBytes 2 kek.toNat ++ padTo 24 attr ++ padTo 40 wrapped)) ck s →
    ∃ t, exec (.keyImportBare ses target kek attr wrapped ck) s = .next t ∧ Committed ses s t ∧ (t.slot target.toNat).state = .filled ∧ (t.slot target.toNat).b = (t.slot target.toNat).a ∧
      (t.slot target.toNat).a.usage = (Attr.ofBlock (padTo 24 attr)).usage ∧ (t.slot target.toNat).a.keyId = (Attr.ofBlock (padTo 24 attr)).keyId ∧ t.keys.counters.get 0 0 = s.keys.counters.get 0 0 + 1 ∧
      ∃ w, (w = (s.slot (0x8000 + kek.toNat)).a.key ∨ w = (s.slot (0x8000 + kek.toNat)).b.key) ∧ aesKwOpen w ((padTo 40 wrapped).take ((Attr.ofBlock (padTo 24 attr)).keyLen + 8)) = some (t.slot target.toNat).a.key) ∧
  (∀ (ses : Fin 128) (target : BitVec 16) (blob : Octets) (ck : ChuckRun) (s : State), blob.length = 104 → Commits ses 0x3410 1 (keyRecord 1 (leBytes 2 target.toNat ++ zeros 2 ++ blob)) ck s →
    ∃ t, exec (.keyLoadBlob ses target blob ck) s = .next t ∧ Committed ses s t ∧ (t.slot target.toNat).state = .filled ∧ (t.slot target.toNat).b = (t.slot target.toNat).a ∧ t.keys.counters.get 0 0 = s.keys.counters.get 0 0 + 1 ∧
      ∃ n w p, (s.slot (0x8000 + n)).state = .filled ∧ (w = (s.slot (0x8000 + n)).a.key ∨ w = (s.slot (0x8000 + n)).b.key) ∧ aesKwpOpen w (blob.drop 16) = some p ∧
        (t.slot target.toNat).a.key = slice p 48 (Attr.ofPlain p).keyLen ∧ (t.slot target.toNat).a.usage = (Attr.ofPlain p).usage ∧ (t.slot target.toNat).a.keyId = (Attr.ofPlain p).keyId) ∧
  (∀ (ses : Fin 128) (target : BitVec 16) (index : BitVec 32) (ck : ChuckRun) (s : State), Commits ses 0x3410 1 (keyRecord 2 (leBytes 2 target.toNat ++ zeros 2 ++ leBytes 4 index.toNat)) ck s →
    ∃ t, exec (.keyLoadBlobStore ses target index ck) s = .next t ∧ Committed ses s t ∧ (t.slot target.toNat).state = .filled ∧ (t.slot target.toNat).b = (t.slot target.toNat).a ∧ t.keys.counters.get 0 0 = s.keys.counters.get 0 0 + 1)

/-- O21. A committed export leaves the wrapped key, a delete frees its slot, a load from the SA store makes a Valid association.
A commit of one such key command that is taken up at once and passes its checks ends with result 0 and advances the generation. An export leaves one
result, of the source key wrapped by the wrapping KEK, bare by AES-KW or as a blob. A delete makes the slot Free where no frame holds a reference on
it and Releasing where one does, and takes a KEK out of the persistent area. A load from the SA store leaves the SA Valid and Enabled with its slot
and store index, and the slot Filled. Model conventions in it, not rules of the spec: assumption log 3, 83, 85, 86.
Rules: R249, R251, R257, R262, R263. -/
def Obligations.KeysAreExportedDeletedAndLoadedAsAssociations : Prop :=
  (∀ (ses : Fin 128) (source wrapping : BitVec 16) (format : BitVec 8) (ck : ChuckRun) (s : State), Commits ses 0x3410 1 (keyRecord 5 (leBytes 2 source.toNat ++ leBytes 2 wrapping.toNat ++ [format] ++ zeros 3)) ck s → (s.slot source.toNat).a.key.length ≤ 32 → (s.slot source.toNat).b.key.length ≤ 32 →
    ∃ t o w c, exec (.keyExport ses source wrapping format ck) s = .next t ∧ Committed ses s t ∧ t.keys.exports = leBytes 2 0 ++ leBytes 2 o.length ++ o ∧
      (w = (s.slot (0x8000 + wrapping.toNat)).a ∨ w = (s.slot (0x8000 + wrapping.toNat)).b) ∧ (c = (s.slot source.toNat).a ∨ c = (s.slot source.toNat).b) ∧
      o = (if format = 1 then aesKw w.key c.key else exportBlob c w (isKek source.toNat))) ∧
  (∀ (ses : Fin 128) (target : BitVec 16) (s : State), Commits ses 0x3410 1 (keyRecord 7 (leBytes 2 target.toNat ++ zeros 2)) .agree s → (s.slot target.toNat).copyBad = 0 →
    ∃ t, exec (.keyDelete ses target) s = .next t ∧ Committed ses s t ∧ (t.slot target.toNat).state = (if (s.slot target.toNat).refs = 0 then .free else .releasing) ∧
      (isKek target.toNat = true → t.rest.kekArea = s.rest.kekArea.drop (target.toNat % 256))) ∧
  (∀ (ses : Fin 128) (store : BitVec 32) (sa slot : BitVec 16) (ck : ChuckRun) (s : State), Commits ses 0x3410 1 (keyRecord 8 (leBytes 4 store.toNat ++ leBytes 2 sa.toNat ++ leBytes 2 slot.toNat)) ck s →
    ∃ t, exec (.keyLoadSa ses store sa slot ck) s = .next t ∧ Committed ses s t ∧ (t.sa sa.toNat).valid = true ∧ (t.sa sa.toNat).enabled = true ∧ (t.sa sa.toNat).slot = slot.toNat ∧
      (t.sa sa.toNat).store = store.toNat ∧ (t.slot slot.toNat).state = .filled)

/-- O22. Committed ownership commands, and the zeroization that a transfer and a release bring.
A committed take writes the owner record of the named key with sequence 0 and empties the persistent KEK area. A transfer writes that of the new key
with the next sequence, a release clears it; both zeroize the part: every data and KEK slot is Free or Bad, every Valid association is frozen, the
enrollment session is gone, and both expanders are overwritten. Each advances the generation. Model conventions in it, not rules of the spec:
assumption log 3, 75, 98.
Rules: R235, R236, R234, R275, R276. -/
def Obligations.OwnershipChangesHands : Prop :=
  (∀ (ses : Fin 128) (command : Octets) (s : State), octet command 0 = 1 → Commits ses 0x3422 1 command .agree s →
    ∃ t, exec (.ownershipTake ses command) s = .next t ∧ Committed ses s t ∧ t.rest.owner = ownerRecord (slice command 8 97) 0 ∧ t.rest.kekArea = []) ∧
  (∀ (ses : Fin 128) (command : Octets) (s : State), octet command 0 = 2 → Commits ses 0x3422 1 command .agree s →
    ∃ t, exec (.ownershipTransfer ses command) s = .next t ∧ t.ctl.generation = s.ctl.generation + 1 ∧ t.rest.owner = ownerRecord (slice command 8 97) (s.rest.owner.seq.toNat + 1) ∧
      (∀ q ∈ t.keys.data, q.2.state = .free ∨ q.2.state = .bad) ∧ (∀ q ∈ t.keys.kek, q.2.state = .free ∨ q.2.state = .bad) ∧ (∀ q ∈ t.keys.sa, q.2.valid = true → q.2.frozen = true) ∧ t.keys.enroll = none ∧ t.rng.exp0 = none ∧ t.rng.exp1 = none) ∧
  (∀ (ses : Fin 128) (command : Octets) (s : State), octet command 0 = 3 → Commits ses 0x3422 1 command .agree s →
    ∃ t, exec (.ownershipRelease ses command) s = .next t ∧ t.ctl.generation = s.ctl.generation + 1 ∧ t.rest.owner.owned = false ∧
      (∀ q ∈ t.keys.data, q.2.state = .free ∨ q.2.state = .bad) ∧ (∀ q ∈ t.keys.kek, q.2.state = .free ∨ q.2.state = .bad) ∧ (∀ q ∈ t.keys.sa, q.2.valid = true → q.2.frozen = true) ∧ t.keys.enroll = none ∧ t.rng.exp0 = none ∧ t.rng.exp1 = none)

/-- O23. A committed enrollment open makes an offer, a request fills its KEK slot and closes the session, and 60 s close it.
A committed open with a generator that can serve replaces the session by a new one of the given nonce at the present cycle. A committed request that
passes its checks fills the KEK slot that it names with two equal copies, sets the confirmation and closes the session. Sixty seconds after its offer
the session closes. Model conventions in it, not rules of the spec: assumption log 3, 37.
Rules: R237, R238, R240. -/
def Obligations.EnrollmentInstallsAKey : Prop :=
  (∀ (ses : Fin 128) (nk : Octets) (s : State), rngCan s = true → Commits ses 0x3421 1 nk .agree s →
    ∃ t e, exec (.enrollmentOpen ses nk) s = .next t ∧ Committed ses s t ∧ t.keys.enroll = some e ∧ e.nk = padTo 32 nk ∧ e.at_ = s.time.cycles ∧ t.keys.events.getLsbD 7 = true) ∧
  (∀ (ses : Fin 128) (request : Octets) (ck : ChuckRun) (s : State), Commits ses 0x3421 3 request ck s →
    ∃ t, exec (.enrollmentRequest ses request ck) s = .next t ∧ Committed ses s t ∧ t.keys.enroll = none ∧ (t.slot (0x8000 + leAt request 101 2)).state = .filled ∧
      (t.slot (0x8000 + leAt request 101 2)).b = (t.slot (0x8000 + leAt request 101 2)).a ∧ (t.slot (0x8000 + leAt request 101 2)).a.usage = (Attr.ofBlock (slice request 103 24)).usage) ∧
  (∀ (e : Enroll) (s : State), s.keys.enroll = some e →
    ∃ t, exec .enrollmentSessionTimeout s = .next t ∧ t.keys.enroll = none ∧ e.at_ + cyclesUs 60000000 ≤ t.time.cycles ∧ t.keys.events.getLsbD 7 = false)

/-- O24. Committed zeroize commands, the ZEROIZE_N pin, and the end of a zeroization.
Code 0x01 leaves every data slot Free or Bad, every Valid association frozen and both stores empty. Code 0x02, and the pin's assertion on main power
where it was deasserted, also clear the KEK slots, the enrollment session, both expanders and every session's staging; the pin leaves the part
Zeroized. On VBAT the assertion only shows on the input. A deassertion on main power shows, and readies the pin for its next action. The end of a
zeroization opens a decision window for the sensors that waited. Model conventions in it, not rules of the spec: assumption log 3, 31, 75.
Rules: R275, R276, R277, R278, R402, R388. -/
def Obligations.ZeroizationLeavesNoKey : Prop :=
  (∀ (ses : Fin 128) (s : State), Commits ses 0x3460 1 [1] .agree s →
    ∃ t, exec (.zeroizeDataKeys ses) s = .next t ∧ Committed ses s t ∧ (∀ q ∈ t.keys.data, q.2.state = .free ∨ q.2.state = .bad) ∧ (∀ q ∈ t.keys.sa, q.2.valid = true → q.2.frozen = true) ∧
      t.keys.saUsed = [] ∧ t.keys.blobUsed = []) ∧
  (∀ (ses : Fin 128) (s : State), Commits ses 0x3460 1 [2] .agree s →
    ∃ t, exec (.zeroizeWholePart ses) s = .next t ∧ t.ctl.generation = s.ctl.generation + 1 ∧ (∀ q ∈ t.keys.data, q.2.state = .free ∨ q.2.state = .bad) ∧ (∀ q ∈ t.keys.kek, q.2.state = .free ∨ q.2.state = .bad) ∧
      (∀ q ∈ t.keys.sa, q.2.valid = true → q.2.frozen = true) ∧ t.keys.enroll = none ∧ t.rng.exp0 = none ∧ t.rng.exp1 = none ∧ (∀ k, (t.session k).staged = []) ∧ t.rest.zeroizing = true) ∧
  (∀ s : State, Quiet s → s.power.zeroizeN = false → s.rest.onVbat = false →
    ∃ t, exec .zeroizePinAsserted s = .next t ∧ t.power.zeroizeN = true ∧ t.rest.state = .zeroized ∧ (∀ q ∈ t.keys.data, q.2.state = .free ∨ q.2.state = .bad) ∧
      (∀ q ∈ t.keys.kek, q.2.state = .free ∨ q.2.state = .bad) ∧ t.rng.exp0 = none ∧ t.rng.exp1 = none ∧ (∀ k, (t.session k).staged = []) ∧ t.rest.zeroizing = true) ∧
  (∀ s : State, s.power.zeroizeN = false → s.rest.onVbat = true →
    ∃ t, exec .zeroizePinAsserted s = .next t ∧ t.power.zeroizeN = true ∧ t.keys = s.keys ∧ t.rest.state = s.rest.state) ∧
  (∀ s : State, s.rest.onVbat = false → ∃ t, exec .zeroizePinDeasserted s = .next t ∧ t.power.zeroizeN = false ∧ t.rest.pinActed = false ∧ t.rest.state = s.rest.state ∧ t.keys = s.keys) ∧
  (∀ (n : Nat) (l : List Nat) (s : State), s.rest.zeroizing = true → s.rest.deferred = n :: l →
    ∃ t, exec .zeroizationComplete s = .next t ∧ t.rest.zeroizing = false ∧ t.rest.deferred = [] ∧ t.rest.window = some (s.time.cycles, n :: l) ∧ t.fab.rotatedAt = s.time.cycles)

/-- O25. Failed copies, references and mirrors of key slots, the expiry of keys and the end of a retired association.
The first copy of a Filled slot that fails its check shows as bad and is counted; the second leaves the slot Bad and freezes every Valid association
of it. A Releasing slot without references becomes Free, or Bad where a copy was. The end of a mirror's rebuild outside a service reset leaves every
slot with two equal copies and the chuck in; in a service reset whose banks and generator are back, that of chuck A puts chuck B out for its restart,
and that of chuck B isolates the Active controller. A Filled slot past its not-after expires once the time is set, and its associations freeze. A
Retiring association that no frame uses becomes Invalid, and releases the slot that it loaded from the store. Model conventions in it, not rules of
the spec: assumption log 34, 77, 82, 86.
Rules: R248, R254, R255, R257, R260, R274, R491. -/
def Obligations.SlotCopiesFailAndAreRebuilt : Prop :=
  (∀ (target : BitVec 16) (b : Bool) (s : State), (s.slot target.toNat).state = .filled → (s.slot target.toNat).copyBad = 0 →
    ∃ t, exec (.slotScrub [(target, b)]) s = .next t ∧ t.slot target.toNat = { s.slot target.toNat with copyBad := if b then 2 else 1 } ∧ t.keys.counters.get 3 0 = s.keys.counters.get 3 0 + 1 ∧ t.keys.events.getLsbD 1 = true) ∧
  (∀ (target : BitVec 16) (b : Bool) (s : State), (s.slot target.toNat).state = .filled → (s.slot target.toNat).copyBad = (if b then 1 else 2) →
    ∃ t, exec (.slotScrub [(target, b)]) s = .next t ∧ (t.slot target.toNat).state = .bad ∧ t.keys.counters.get 4 0 = s.keys.counters.get 4 0 + 1 ∧
      (target.toNat < 0x8000 → ∀ i ∈ sasOfSlot s target.toNat, (t.sa i).frozen = true)) ∧
  (∀ (target : BitVec 16) (s : State), (s.slot target.toNat).state = .releasing → (s.slot target.toNat).refs = 0 →
    ∃ t, exec (.slotReferenceReleased target) s = .next t ∧ t.slot target.toNat = { state := if (s.slot target.toNat).copyBad = 0 then .free else .bad }) ∧
  (∀ (b : Bool) (s : State), s.keys.rebuilding = (if b then 2 else 1) → s.power.service ≠ .resetting →
    ∃ t, exec (.chuckMirrorRebuildComplete b) s = .next t ∧ t.keys.rebuilding = 0 ∧ chuckOut t b = false ∧ (∀ q ∈ t.keys.data, q.2.b = q.2.a) ∧ (∀ q ∈ t.keys.kek, q.2.b = q.2.a)) ∧
  (∀ s : State, s.keys.rebuilding = 1 → s.keys.isoB = false → s.power.service = .resetting → s.power.serviceStep = 1 → s.rng.inReset = [] → s.fab.rebuild = none →
    ∃ t, exec (.chuckMirrorRebuildComplete false) s = .next t ∧ t.keys.isoA = false ∧ t.keys.isoB = true ∧ (t.domain 67).state = 3 ∧ (t.domain 67).cause = 3 ∧ t.power.serviceStep = 2 ∧ (∀ q ∈ t.keys.data, q.2.b = q.2.a)) ∧
  (∀ (c : Bool) (s : State), s.keys.rebuilding = 2 → s.keys.isoA = false → s.power.service = .resetting → s.power.serviceStep = 2 → s.rng.inReset = [] → s.fab.rebuild = none → ctlIn s .active = some c →
    ∃ t, exec (.chuckMirrorRebuildComplete true) s = .next t ∧ t.keys.isoA = false ∧ t.keys.isoB = false ∧ ctlOf t c = .isolated ∧ (t.domain (68 + bit c)).state = 0 ∧ t.power.serviceStep = 3) ∧
  (∀ s : State, s.time.isSet = true →
    ∃ t, exec .keyExpiryCheck s = .next t ∧
      (∀ i x, (i, x) ∈ s.keys.data → i < 0x8000 → x.state = .filled → x.a.notAfter ≠ 0 → x.a.notAfter < s.time.secs →
        (t.keys.data.get i {}).expired = true ∧ ∀ a ∈ sasOfSlot s i, (t.sa a).frozen = true) ∧
      (∀ i x, (i, x) ∈ s.keys.kek → i < 256 → x.state = .filled → x.a.notAfter ≠ 0 → x.a.notAfter < s.time.secs → (t.keys.kek.get i {}).expired = true)) ∧
  (∀ (i : Fin 32768) (s : State), (s.sa i).retiring = true → saBusy s i = false →
    ∃ t, exec (.saRetireComplete i) s = .next t ∧ (t.sa i).valid = false ∧ (t.sa i).retiring = false ∧ (t.sa i).enabled = false ∧
      ((s.sa i).store ≠ 0xFFFFFFFF → (s.slot (s.sa i).slot).state = .filled → (s.slot (s.sa i).slot).refs = 0 → (t.slot (s.sa i).slot).state = .free))

/-- O26. An Armed rollover falls due, its guard window ends, and its chain loads the successor.
An Armed record of a set time whose incoming associations are usable goes to Guard for its window: a transmit SC switches to the incoming AN, and a
transmit tributary to the incoming KI with a key change at the record's time unless the block under way already carries that KI; where one is not
usable the record is Missed and counted. At the end of the window the record is Loading where it chains and Idle where not, and its outgoing
associations are Retiring. A chain whose loads pass leaves the record Armed at the successor's time and the next AN or KI, or Idle without a time,
with an SC's successor Valid and Enabled there in a Filled slot; one whose loads fail leaves it in Chain failed with the reason. Model conventions in
it, not rules of the spec: assumption log 22, 79.
Rules: R266, R267, R268, R269, R159. -/
def Obligations.RolloversAreTaken : Prop :=
  (∀ (i : Fin 16384) (s : State), s.time.isSet = true → (s.roll (.sc i)).state = 1 → rollReady s (.sc i) = true →
    ∃ t, exec (.rolloverDue (.sc i)) s = .next t ∧ (t.roll (.sc i)).state = 2 ∧ (t.roll (.sc i)).guardEnd = t.time.cycles + cyclesUs (guardOf s (s.roll (.sc i))) ∧
      ((s.sc i).rx = false → (t.sc i).txAn = (s.roll (.sc i)).incoming ∧ (t.roll (.sc i)).outgoing = (s.sc i).saAt (s.sc i).txAn) ∧ t.keys.counters.get 7 0 = s.keys.counters.get 7 0 + 1) ∧
  (∀ (i : Fin 256) (s : State), s.time.isSet = true → (s.roll (.tributary i)).state = 1 → rollReady s (.tributary i) = true →
    ∃ t, exec (.rolloverDue (.tributary i)) s = .next t ∧ (t.roll (.tributary i)).state = 2 ∧ (t.roll (.tributary i)).guardEnd = t.time.cycles + cyclesUs (guardOf s (s.roll (.tributary i))) ∧
      ((s.tr i).saAt .s2l (s.roll (.tributary i)).incoming ≠ 0xFFFF → (t.tr i).txKi = (s.roll (.tributary i)).incoming % 4 ∧
        ((s.tr i).blkOpen = false ∨ (s.tr i).changes ≠ [] ∨ (s.tr i).blkKi ≠ (s.roll (.tributary i)).incoming % 4 → (t.tr i).changes = (s.tr i).changes ++ [((s.roll (.tributary i)).incoming % 4, (s.roll (.tributary i)).t)]))) ∧
  (∀ (u : RollUser) (s : State), s.time.isSet = true → (s.roll u).state = 1 → rollReady s u = false →
    ∃ t, exec (.rolloverDue u) s = .next t ∧ (t.roll u).state = 4 ∧ t.keys.counters.get 8 0 = s.keys.counters.get 8 0 + 1 ∧ t.keys.events.getLsbD 6 = true) ∧
  (∀ (u : RollUser) (s : State), (s.roll u).state = 2 → rollWaits s u = false → rollDrained s u = true →
    ∃ t, exec (.guardWindowEnd u) s = .next t ∧ (s.roll u).guardEnd ≤ t.time.cycles ∧ (t.roll u).state = (if (s.roll u).chain then 3 else 0) ∧
      ∀ i ∈ [(s.roll u).outgoing, (s.roll u).outgoingRx], i ≠ 0xFFFF → (s.sa i).valid = true → (t.sa i).retiring = true) ∧
  (∀ (u : RollUser) (ck : ChuckRun) (T : Nat) (k : KeyRun) (s : State), (s.roll u).state = 3 → (∀ i ∈ [(s.roll u).outgoing, (s.roll u).outgoingRx], i ≠ 0xFFFF → saUnused s i = true) →
    chainParts s u ≠ [] → chainAll u (chainParts s u) { s := s, b := s, ck := ck } = (0, T, k) →
    ∃ t, exec (.chainLoad u ck) s = .next t ∧ (t.roll u).state = (if T = 0 then 0 else 1) ∧ (t.roll u).incoming = (if T = 0 then (s.roll u).incoming else ((s.roll u).incoming + 1) % 4) ∧ (T ≠ 0 → (t.roll u).t = T) ∧
      t.keys.counters.get 5 0 = s.keys.counters.get 5 0 + 1 ∧
      ∀ i : Fin 16384, u = .sc i → (s.roll u).outgoing ≠ 0xFFFF → (t.sc i).saAt ((s.roll u).incoming + 1) = (s.roll u).outgoing ∧ (t.sa (s.roll u).outgoing).valid = true ∧
        (t.sa (s.roll u).outgoing).enabled = true ∧ (t.slot (t.sa (s.roll u).outgoing).slot).state = .filled) ∧
  (∀ (u : RollUser) (ck : ChuckRun) (e T : Nat) (k : KeyRun) (s : State), (s.roll u).state = 3 → (∀ i ∈ [(s.roll u).outgoing, (s.roll u).outgoingRx], i ≠ 0xFFFF → saUnused s i = true) →
    e ≠ 0 → chainAll u (chainParts s u) { s := s, b := s, ck := ck } = (e, T, k) →
    ∃ t, exec (.chainLoad u ck) s = .next t ∧ (t.roll u).state = 5 ∧ (t.roll u).reason = e ∧ t.keys.events.getLsbD 5 = true)

/-- O27. The master's messages, the part's Delay_Req, and the timeouts of the exchange.
A two-step Sync of the selected master waits for its Follow_Up with its sequence, stamp and correction; a one-step Sync, once a slave-to-master value
is known, and the Follow_Up that a Sync waits for, update the path delay as the mean of its last values and take the offset sample. A Delay_Resp for
an outstanding Delay_Req gives the slave-to-master value. A Delay_Req goes out once a Sync of the master has been consumed and its interval has
passed, with the next sequence, opposite to the source, and sets when the next is due. The Follow_Up, Delay_Resp and sync timeouts come no earlier
than 250 ms, 1 s and the sync timeout: they discard the Sync, count the Delay_Req as lost, and take a servo at work to Holdover, which keeps y where
it was not Locked. Model conventions in it, not rules of the spec: assumption log 76.
Rules: R314, R315, R316, R321, R318. -/
def Obligations.TheOwnClockFollowsItsMaster : Prop :=
  (∀ (p : PD) (d : Octets) (stamp q h : Nat) (u : Option Nat) (rest : List (PD × Octets × Nat × Nat)) (s : State), s.time.inbox = (p, d, stamp, q) :: rest →
    ptpAt d (tagCount s.tpid d) (be16 d (12 + 4 * tagCount s.tpid d)) true = some (h, u) → fromMaster s p d h = true → s.odNat 0x4010 12 ≠ 1 →
    (octet d h % 16 = 0 → bitAt (octet d (h + 6)) 1 = true →
      ∃ t, exec .ptpOwnClockFrame s = .next t ∧ t.time.inbox = rest ∧ t.time.syncs = s.time.syncs ++ [{ seqId := beAt d (h + 30) 2, t2 := stamp, corr := signed 64 (beAt d (h + 8) 8), at_ := s.time.cycles }] ∧
        t.time.syncSeen = true ∧ t.time.counters.get 0 0 = s.time.counters.get 0 0 + 1) ∧
    (∀ v : Int, octet d h % 16 = 0 → bitAt (octet d (h + 6)) 1 = false → s.time.sm = some v → s.odNat 0x4010 1 = 1 →
      ∃ t, exec .ptpOwnClockFrame s = .next t ∧ t.time.inbox = rest ∧
        t.time.delays = (((stamp : Int) - ptpTime d (h + 34) - signed 64 (beAt d (h + 8) 8) + v) / 2 :: s.time.delays).take (s.odNat 0x4011 9) ∧
        t.time.theta = (stamp : Int) - ptpTime d (h + 34) - signed 64 (beAt d (h + 8) 8) - t.time.dly ∧ t.time.counters.get 4 0 = s.time.counters.get 4 0 + 1) ∧
    (∀ (w : SyncWait) (v : Int), octet d h % 16 = 8 → s.time.syncs.find? (fun x => x.seqId == beAt d (h + 30) 2) = some w → s.time.sm = some v → s.odNat 0x4010 1 = 1 →
      ∃ t, exec .ptpOwnClockFrame s = .next t ∧ t.time.inbox = rest ∧ t.time.syncs = s.time.syncs.erase w ∧
        t.time.theta = w.t2 - ptpTime d (h + 34) - (w.corr + signed 64 (beAt d (h + 8) 8)) - t.time.dly ∧ t.time.counters.get 1 0 = s.time.counters.get 1 0 + 1) ∧
    (∀ w : DreqWait, octet d h % 16 = 9 → slice d (h + 44) 10 = padTo 10 (s.od 0x4010 5) → s.time.dreqs.find? (fun x => x.seqId == beAt d (h + 30) 2) = some w →
      ∃ t, exec .ptpOwnClockFrame s = .next t ∧ t.time.inbox = rest ∧ t.time.sm = some (ptpTime d (h + 34) - w.t3 - signed 64 (beAt d (h + 8) 8)) ∧
        (∀ x ∈ t.time.dreqs, x.seqId ≠ w.seqId) ∧ t.time.counters.get 3 0 = s.time.counters.get 3 0 + 1)) ∧
  (∀ s : State, s.odNat 0x4010 1 = 1 → (s.od 0x4010 4).any (· != 0) = true → s.time.syncSeen = true → ethPort s (s.odNat 0x4010 3 / 2) = true → s.odNat 0x4010 3 < 64 →
    ∃ t i, exec .delayReqSend s = .next t ∧ t.time.dreqSeq = s.time.dreqSeq + 1 ∧ t.path.inject = s.path.inject ++ [i] ∧ i.data = dreqFrame s (s.odNat 0x4010 3 / 2) s.time.dreqSeq.toNat ∧
      i.pd = ⟨Fin.ofNat 32 (s.odNat 0x4010 3 / 2), if s.odNat 0x4010 3 % 2 = 0 then .l2s else .s2l⟩ ∧ i.sc = s.odNat 0x4010 10 ∧
      t.time.dreqs = s.time.dreqs ++ [{ seqId := s.time.dreqSeq.toNat, t3 := 0, at_ := t.time.cycles }] ∧ s.time.dreqDue.getD 0 ≤ t.time.cycles ∧ t.time.dreqDue = some (t.time.cycles + dreqCycles s) ∧ t.time.counters.get 2 0 = s.time.counters.get 2 0 + 1) ∧
  (∀ (w : SyncWait) (rest : List SyncWait) (s : State), s.time.syncs = w :: rest →
    ∃ t, exec .followUpTimeout s = .next t ∧ w.at_ + cyclesUs 250000 ≤ t.time.cycles ∧ t.time.syncs = rest ∧ t.time.lost.get 0 0 = s.time.lost.get 0 0 + 1) ∧
  (∀ (w : DreqWait) (rest : List DreqWait) (s : State), s.time.dreqs = w :: rest →
    ∃ t, exec .delayRespTimeout s = .next t ∧ w.at_ + cyclesUs 1000000 ≤ t.time.cycles ∧ t.time.dreqs = rest ∧ t.time.lost.get 1 0 = s.time.lost.get 1 0 + 1) ∧
  (∀ s : State, s.odNat 0x4010 1 = 1 ∨ s.odNat 0x4010 1 = 2 → s.time.servo = .acquiring ∨ s.time.servo = .locked →
    ∃ t, exec .syncTimeout s = .next t ∧ t.time.servo = .holdover ∧ s.time.lastSample + cyclesUs (1000 * (if s.odNat 0x4010 1 = 2 then 3000 else s.odNat 0x4011 8)) ≤ t.time.cycles ∧
      t.time.holdoverAt = t.time.cycles ∧ (s.time.servo = .acquiring → t.time.y = s.time.y))

/-- O28. Committed steps of the time, the seconds written to the tool rest, and what scheduled-action slots and event pins do.
A committed set-time makes the time unit read its TIME96 and clears the unverified flag, a committed adjust moves the time by its amount where the
result is not before 0; both set the Set and Stepped flags. While Locked, 1,024 s after it was Locked and after the last write, the tool rest takes
the time unit's seconds and is valid. At the occurrence of an Armed slot of a set time, the lowest of those due then, action 0x01 drives its pin
active until the pulse's end, action 0x02 sets its level; the fired count advances and a non-periodic slot is Done; while the time is not set, a
periodic slot counts the occurrence as missed. A pin of function 0x03 is driven with the polarity of its mode. The pulse's end drives the pin
inactive. An edge that is active by the polarity, or any edge where both are taken, on a capture pin stores the delay-corrected time, drops the oldest
of a full FIFO and counts an overflow; a read of the FIFO answers its entries oldest first and empties it. Model conventions in it, not rules of the
spec: assumption log 3, 49.
Rules: R320, R322, R323, R333, R335, R336, R337. -/
def Obligations.TheTimeIsSetAndSlotsAct : Prop :=
  (∀ (ses : Fin 128) (v : Octets) (s : State), Commits ses 0x4001 1 v .agree s →
    ∃ t, exec (.setTime ses v) s = .next t ∧ Committed ses s t ∧ t.time.now = time96Of v ∧ t.time.isSet = true ∧ t.time.stepped = true ∧ t.time.unverified = false) ∧
  (∀ (ses : Fin 128) (x : BitVec 64) (s : State), Commits ses 0x4001 2 (leBytes 8 x.toNat) .agree s → 0 ≤ (s.time.now : Int) + x.toInt →
    ∃ t, exec (.adjustTime ses x) s = .next t ∧ Committed ses s t ∧ (t.time.now : Int) = s.time.now + x.toInt ∧ t.time.isSet = true ∧ t.time.stepped = true) ∧
  (∀ s : State, s.time.servo = .locked →
    ∃ t, exec .toolRestSecondsWrite s = .next t ∧ max s.time.lockedSince s.time.restAt + 1024 * 1562500000 ≤ t.time.cycles ∧ t.time.restAt = t.time.cycles ∧
      t.rest = { s.rest with seconds := BitVec.ofNat 40 t.time.secs, secValid := true, syncedAt := t.time.secs % 2 ^ 40 }) ∧
  (∀ (i : Fin 16) (s : State), Quiet s → (s.tslot i).state = 1 → (s.tslot i).action = 1 ∨ (s.tslot i).action = 2 → s.time.isSet = true → (s.domain 74).state ≠ 3 → slotFirst i s = i.val →
    ∃ t, exec (.slotOccurrence i) s = .next t ∧ (t.time.pins.get (s.tslot i).target {}).active = (if (s.tslot i).action = 1 then true else (s.tslot i).level) ∧
      (t.time.pins.get (s.tslot i).target {}).pulseEnd = (if (s.tslot i).action = 1 then some (max (s.tslot i).next t.time.now + (s.tslot i).width * 65536) else none) ∧
      (s.odNat 0x6000 ((s.tslot i).target + 1) = 3 → (t.time.pins.get (s.tslot i).target {}).drive = some ((t.time.pins.get (s.tslot i).target {}).active != bitAt (s.odNat 0x6001 ((s.tslot i).target + 1)) 0)) ∧
      (t.tslot i).fired = min 0xFFFFFFFF ((s.tslot i).fired + 1) ∧ ((s.tslot i).periodic = false → (t.tslot i).state = 2) ∧ ((s.tslot i).periodic = true → (s.tslot i).ran = [] → (t.tslot i).next = (s.tslot i).next + (s.tslot i).period * 65536)) ∧
  (∀ (i : Fin 16) (s : State), Quiet s → (s.tslot i).state = 1 → (s.tslot i).periodic = true → s.time.isSet = false → (s.domain 74).state ≠ 3 → slotFirst i s = i.val →
    ∃ t, exec (.slotOccurrence i) s = .next t ∧ (t.tslot i).missed = min 0xFFFFFFFF ((s.tslot i).missed + 1) ∧ (t.tslot i).fired = (s.tslot i).fired ∧ t.time.pins = s.time.pins) ∧
  (∀ (p : Fin 4) (T : Nat) (s : State), (s.time.pins.get p.val {}).pulseEnd = some T →
    ∃ t, exec (.slotPulseEnd p) s = .next t ∧ (t.time.pins.get p.val {}).active = false ∧ (t.time.pins.get p.val {}).pulseEnd = none ∧
      (s.odNat 0x6000 (p + 1) = 3 → (t.time.pins.get p.val {}).drive = some (bitAt (s.odNat 0x6001 (p + 1)) 0)) ∧ ({ t with time := s.time, out := s.out } : State) = s) ∧
  (∀ (p : Fin 4) (b : Bool) (s : State), s.odNat 0x6000 (p + 1) = 2 → (b != bitAt (s.odNat 0x6001 (p + 1)) 0) = true ∨ bitAt (s.odNat 0x6001 (p + 1)) 1 = true →
    ∃ t, exec (.pinCaptureEdge p b) s = .next t ∧ (t.time.pins.get p.val {}).last = ((s.time.now : Int) - s.odInt 32 0x6002 (p + 1) * 65536).toNat ∧
      (t.time.pins.get p.val {}).captures = (s.time.pins.get p.val {}).captures + 1 ∧
      (t.time.pins.get p.val {}).fifo = (if 16 ≤ (s.time.pins.get p.val {}).fifo.length then (s.time.pins.get p.val {}).fifo.drop 1 else (s.time.pins.get p.val {}).fifo) ++ [(t.time.pins.get p.val {}).last] ∧
      (t.time.pins.get p.val {}).overflows = (s.time.pins.get p.val {}).overflows + (if 16 ≤ (s.time.pins.get p.val {}).fifo.length then 1 else 0)) ∧
  (∀ (ses : Fin 128) (p : Fin 4) (s : State), Quiet s → sessionOpen s ses = true → (s.session ses).snaps.find (odKey 0x6004 (p + 1)) = none →
    ∃ t q, exec (.captureFifoRead ses p) s = .next (controlCheckpoint t) ∧ t.out = .response ses (responseOf q 0 false (fifoOctets (s.time.pins.get p.val {})) 192) :: s.out ∧ q.idx = 0x6004 ∧ q.sub = p + 1 ∧
      (t.time.pins.get p.val {}).fifo = [])

/-- O29. Committed spindle commands isolate, return and inject.
A spindle command committed alone, taken up at once and passing its checks ends with result 0 and advances the generation. Isolate leaves the spindle
Isolated with cause 9, its domain off and nothing in flight; return leaves it Diagnosing, its failures 0 and its domain on; inject leaves its next
token to show a code violation. Model conventions in it, not rules of the spec: assumption log 3.
Rules: R230, R214, R206. -/
def Obligations.SpindleCommandsTakeEffect : Prop :=
  (∀ (ses : Fin 128) (i : Fin 28) (s : State), Commits ses 0x3005 (i + 1) [1] .agree s →
    ∃ t, exec (.spindleIsolate ses i) s = .next t ∧ Committed ses s t ∧ (t.spindle i).role = .isolated ∧ (t.spindle i).cause = 9 ∧ (t.domain i).state = 0 ∧ (t.spindle i).flight = [] ∧ (t.spindle i).credits = 0) ∧
  (∀ (ses : Fin 128) (i : Fin 28) (s : State), Commits ses 0x3005 (i + 1) [2] .agree s →
    ∃ t, exec (.spindleReturn ses i) s = .next t ∧ Committed ses s t ∧ (t.spindle i).role = .diagnosing ∧ (t.spindle i).fails = 0 ∧ (t.domain i).state = 1) ∧
  (∀ (ses : Fin 128) (i : Fin 28) (s : State), Commits ses 0x3005 (i + 1) [3] .agree s →
    ∃ t, exec (.spindleInjectFault ses i) s = .next t ∧ Committed ses s t ∧ (t.spindle i).injected = true ∧ (t.spindle i).role = (s.spindle i).role)

/-- O30. Committed memory and generator tests.
A test committed alone, taken up at once and passing its checks ends with result 0 and advances the generation. Fault injection of kind 1 flips its
bit of a line without injected errors and kind 2 makes every word of its line uncorrectable. A raw view captures the stored octets of its line with
its status. The conditioner and the expander known-answer tests leave what the conditioner makes of the input from its all-zero state and the second
output of the vector. A raw capture puts its source into Capture and shows as running. Model conventions in it, not rules of the spec: assumption log
3, 66.
Rules: R371, R372, R389, R390. -/
def Obligations.TestCommandsTakeEffect : Prop :=
  (∀ (ses : Fin 128) (r : Octets) (s : State), s.power.parked = false → Commits ses 0x4410 1 r .agree s →
    ∃ t, exec (.faultInjection ses r) s = .next t ∧ Committed ses s t ∧ (octet r 8 = 1 → errorsAt s (leAt r 0 8) = 0 → errorsAt t (leAt r 0 8) = 2 ^ leAt r 9 2) ∧
      (octet r 8 = 2 → errorsAt t (leAt r 0 8) = errorsAt s (leAt r 0 8) % 2 ^ 512 + 255 * 2 ^ 512)) ∧
  (∀ (ses : Fin 128) (addr : BitVec 64) (s : State), s.power.parked = false → Commits ses 0x4420 1 (leBytes 8 addr.toNat) .agree s →
    ∃ t, exec (.rawViewRead ses addr) s = .next t ∧ Committed ses s t ∧ t.mpu.rawLine = rawOctets s addr.toNat ∧ t.mpu.rawStatus = 1 + 2 * bit (errorsAt s addr.toNat ≠ 0)) ∧
  (∀ (ses : Fin 128) (v : Octets) (s : State), Commits ses 0x4810 1 v .agree s →
    ∃ t, exec (.conditionerKat ses v) s = .next t ∧ Committed ses s t ∧ t.rng.katCond = blockOctets (condRun 0 (padTo 128 v))) ∧
  (∀ (ses : Fin 128) (v : Octets) (s : State), v ≠ [] → Commits ses 0x4811 1 v .agree s →
    ∃ t, exec (.expanderKat ses v) s = .next t ∧ Committed ses s t ∧ t.rng.katExp = expanderTest v) ∧
  (∀ (ses : Fin 128) (k : Fin 8) (s : State), Commits ses 0x4812 1 (oct k) .agree s →
    ∃ t, exec (.rawCapture ses k) s = .next t ∧ Committed ses s t ∧ (t.rng.source k).state = .capture ∧ (t.rng.source k).blocks = [] ∧ t.rng.rawStatus = 2)

/-- O31. Committed tokens, debug power, acknowledgements and counter advances.
Each of these committed alone, taken up at once and passing its checks ends with result 0 and advances the generation. An unlock token leaves the part
Normal, no refusals, and the Alert latch cleared where it says so. A debug token, and a debug power-on, leave PD78 on; a power-off leaves it off. An
acknowledgement forgets the pending segment and the ring's entries up to its last, keeping the rest in order. An advance leaves the counter at its
value. Model conventions in it, not rules of the spec: assumption log 3, 89.
Rules: R411, R412, R413, R421, R423. -/
def Obligations.TokensAndCountersTakeEffect : Prop :=
  (∀ (ses : Fin 128) (v : Octets) (s : State), Commits ses 0x5020 2 v .agree s →
    ∃ t, exec (.unlockToken ses v) s = .next t ∧ Committed ses s t ∧ t.rest.state = .normal ∧ t.rest.refusals = 0 ∧ t.rest.alertLatch = (if bitAt (octet v 1) 0 then 0 else s.rest.alertLatch)) ∧
  (∀ (ses : Fin 128) (v : Octets) (s : State), Commits ses 0x5030 1 v .agree s →
    ∃ t, exec (.debugToken ses v) s = .next t ∧ Committed ses s t ∧ t.domOn 78 = true ∧ t.rest.refusals = 0) ∧
  (∀ (ses : Fin 128) (s : State), Commits ses 0x5030 2 [1] .agree s → ∃ t, exec (.debugPowerOn ses) s = .next t ∧ Committed ses s t ∧ t.domOn 78 = true) ∧
  (∀ (ses : Fin 128) (s : State), Commits ses 0x5030 2 [0] .agree s → ∃ t, exec (.debugPowerOff ses) s = .next t ∧ Committed ses s t ∧ t.domOn 78 = false) ∧
  (∀ (ses : Fin 128) (n : BitVec 16) (last : BitVec 64) (s : State), Commits ses 0x5041 2 (leBytes 2 n.toNat ++ zeros 2 ++ leBytes 8 last.toNat) .agree s →
    ∃ t, exec (.exportAcknowledge ses n last) s = .next t ∧ Committed ses s t ∧ t.rest.segment = none ∧ (s.rest.ring.filter (fun e => decide (last.toNat < e.seq))) <+: t.rest.ring) ∧
  (∀ (ses : Fin 128) (c : BitVec 8) (v : BitVec 32) (s : State), Commits ses 0x5050 2 ([c] ++ zeros 3 ++ leBytes 4 v.toNat) .agree s →
    ∃ t, exec (.counterAdvance ses c v) s = .next t ∧ Committed ses s t ∧ t.rest.monotonic.get c.toNat 0 = v)

/-- O32. Committed saves, power requests and resets, the end of a flash write, and a cluster's internal fault.
Each of these committed alone, taken up at once and passing its checks advances the generation. A save seals an image under the next save count for a
flash slot and shows as running; a flash write that ends well is put out to its slot with its count, one that fails shows it and leaves the images. A
power request switches PD71 or PD77 off or on, and takes the PCIe link down with PD75. A reset request makes a drain-type domain that is on drain, and
puts another that is on into reset, counted with its cause, as an internal fault of a cluster does. A service reset drains every port and is counted;
a cold reset acts after 1 ms. Model conventions in it, not rules of the spec: assumption log 3, 38, 45.
Rules: R437, R490, R491, R492, R493, R494. -/
def Obligations.SavesAndPowerCommandsTakeEffect : Prop :=
  (∀ (ses : Fin 128) (s : State), Commits ses 0x1F01 1 [1] .agree s →
    ∃ t n b, exec (.savePersistentImage ses) s = .next t ∧ Committed ses s t ∧ n < 2 ∧ t.ctl.saving = some (n, s.ctl.saveCount.toNat + 1, b) ∧ t.ctl.imageStatus % 2 = 1) ∧
  (∀ (n c : Nat) (b : Octets) (s : State), s.ctl.saving = some (n, c, b) →
    ∃ t, exec (.imageSaveComplete true) s = .next t ∧ t.ctl.saving = none ∧ t.ctl.images.find n = some (c, b) ∧ t.ctl.saveCount = BitVec.ofNat 64 c ∧ t.out = .flash n b :: s.out) ∧
  (∀ (n c : Nat) (b : Octets) (s : State), s.ctl.saving = some (n, c, b) →
    ∃ t, exec (.imageSaveComplete false) s = .next t ∧ t.ctl.saving = none ∧ t.ctl.images = s.ctl.images ∧ t.ctl.imageStatus.testBit 3 = true ∧ t.out = s.out) ∧
  (∀ (ses : Fin 128) (d : Fin 80) (v : BitVec 8) (s : State), Commits ses 0x5401 (d + 1) [v] .agree s →
    ∃ t, exec (.domainPowerRequest ses d v) s = .next t ∧ t.ctl.generation = s.ctl.generation + 1 ∧ (d.val = 71 ∨ d.val = 75 ∨ d.val = 77 → v = 0 → (t.domain d).state = 0) ∧
      (d.val = 71 ∨ d.val = 75 ∨ d.val = 77 → v ≠ 0 → (t.domain d).state ≠ 0) ∧ (d.val = 75 → v = 0 → t.power.pcieUp = false)) ∧
  (∀ (ses : Fin 128) (d : Fin 80) (s : State), Commits ses 0x5402 (d + 1) [1] .agree s → (s.domain d).state = 1 → drainType d = true ∨ (44 ≤ d.val ∧ d.val < 52) ∨ (76 ≤ d.val ∧ d.val < 79) →
    ∃ t, exec (.domainReset (some ses) d) s = .next t ∧ Committed ses s t ∧ (if drainType d then (t.domain d).state = 4 else (t.domain d).state = 3 ∧ (t.domain d).cause = 1 ∧ (t.domain d).resets = (s.domain d).resets + 1)) ∧
  (∀ (d : Fin 80) (s : State), Quiet s → (s.domain d).state = 1 → 44 ≤ d.val → d.val < 52 →
    ∃ t, exec (.domainReset none d) s = .next t ∧ (t.domain d).state = 3 ∧ (t.domain d).cause = 2 ∧ (t.domain d).resets = (s.domain d).resets + 1 ∧ t.cls.resetClusters.contains (d.val - 44) = true) ∧
  (∀ (ses : Fin 128) (s : State), Commits ses 0x5400 1 [1] .agree s →
    ∃ t, exec (.serviceReset ses) s = .next t ∧ Committed ses s t ∧ t.power.service = .draining ∧ t.power.resetCounts.get 3 0 = s.power.resetCounts.get 3 0 + 1 ∧ ∀ p : PD, (t.pd p).closed = true) ∧
  (∀ (ses : Fin 128) (s : State), Commits ses 0x5400 1 [2] .agree s → ∃ t, exec (.coldReset ses) s = .next t ∧ Committed ses s t ∧ t.power.coldAt = some (s.time.cycles + cyclesUs 1000))

/-- O33. A whole line written through the memory protection unit is read back, and changes no other octet of the HBM but its tag and parity.
With the 16 keys in place, no injected error, nothing poisoned or retired, and no line waiting to be rewritten, writing 64 octets at an aligned
accepted address whose block's counter line is cached with a minor below 127 answers a state in which a read of that line under the same address
returns exactly those octets; and every octet of the HBM outside the line, its tag and its block's parity line reads as before. Model conventions in
it, not rules of the spec: assumption log 7, 26.
Rules: R343, R346, R347, R348, R351, R354, R363. -/
def Obligations.MemoryReadsBackWhatIsWritten : Prop :=
  ∀ (addr : BitVec 48) (data : Octets) (k a : Nat) (l : CacheLine) (s : State), mpuReady s = true → s.mpu.broken = [] → s.mpu.poison = [] → s.mpu.poisonRegions = [] → s.mpu.retired = [] → s.mpu.rewrites = [] → s.mpu.treeLost = none →
    mpuAddress addr.toNat = some (k, a) → a % 64 = 0 → data.length = 64 → s.mpu.cache.find (a / 4096) = some l → l.ctr.minor (a / 64 % 64) < 127 →
    ∃ t u, exec (.mpuWrite addr data) s = .next t ∧ exec (.mpuRead addr 1) t = .next u ∧ u.mpu.lastRead = some data ∧
      ∀ p : Nat, (p < a ∨ a + 64 ≤ p) → (p < tagAddr a ∨ tagAddr a + 8 ≤ p) → (p < parityAddr (a / 4096) ∨ parityAddr (a / 4096) + 64 ≤ p) → Memory.byte t.mpu.hbm p = Memory.byte s.mpu.hbm p

/-- O34. Reads of lines never written, refused requests, evictions, allocations and the patrol scrub.
A line whose minor counter is 0 reads as 64 zero octets with the HBM untouched. A request outside the mapped regions or under a key they do not allow
returns a bus error, counts a key-ID mismatch and latches its event, for a read and for a write. Evicting a clean counter line takes it out of the
cache and changes nothing else. Allocating a packet-buffer block under an allowed key takes the key's next major for it, with every minor 0 and no
parity. The scrub shows a pass in progress until its last line, which counts the pass; it corrects and counts a single flipped bit in a written line
whose counter line is cached. Model conventions in it, not rules of the spec: assumption log 7.
Rules: R343, R350, R354, R357, R361, R366, R373. -/
def Obligations.MemoryCommandsAnswer : Prop :=
  (∀ (addr : BitVec 48) (k a : Nat) (l : CacheLine) (s : State), mpuReady s = true → s.mpu.poison = [] → s.mpu.poisonRegions = [] → s.mpu.rewrites = [] → s.mpu.treeLost = none → mpuAddress addr.toNat = some (k, a) →
    s.mpu.cache.find (a / 4096) = some l → l.ctr.minor (a / 64 % 64) = 0 →
    ∃ t, exec (.mpuRead addr 1) s = .next t ∧ t.mpu.lastRead = some (zeros 64) ∧ t.mpu.hbm = s.mpu.hbm) ∧
  (∀ (addr : BitVec 48) (n : Fin 9) (s : State), mpuReady s = true → mpuAddress addr.toNat = none →
    ∃ t, exec (.mpuRead addr n) s = .next t ∧ t.mpu.lastRead = none ∧ t.mpu.counters.get 10 0 = s.mpu.counters.get 10 0 + 1 ∧ t.mpu.latched.getLsbD 2 = true ∧ t.mpu.hbm = s.mpu.hbm) ∧
  (∀ (addr : BitVec 48) (d : Octets) (s : State), mpuReady s = true → mpuAddress addr.toNat = none →
    ∃ t, exec (.mpuWrite addr d) s = .next t ∧ t.mpu.counters.get 10 0 = s.mpu.counters.get 10 0 + 1 ∧ t.mpu.latched.getLsbD 2 = true ∧ t.mpu.hbm = s.mpu.hbm) ∧
  (∀ (m : Fin 1331200) (l : CacheLine) (s : State), mpuReady s = true → m.val < 1310720 → s.mpu.cache.find m = some l → l.dirty = false →
    exec (.metadataEviction m) s = .next { s with mpu := { s.mpu with cache := s.mpu.cache.drop m } }) ∧
  (∀ (k : BitVec 4) (b : Fin 1310720) (r : Region) (s : State), mpuReady s = true → regionOf (b * 4096) = some r → r.num < 2 → r.keys.contains k.toNat = true → s.mpu.retired.contains b.val = false → s.mpu.live.find b = none →
    s.mpu.majors.get k.toNat 0 ≠ BitVec.allOnes 64 →
    ∃ t, exec (.blockAllocate k b) s = .next t ∧ t.mpu.majors.get k.toNat 0 = s.mpu.majors.get k.toNat 0 + 1 ∧ t.mpu.cache.find b = some { ctr := { major := s.mpu.majors.get k.toNat 0 + 1 }, dirty := true } ∧
      t.mpu.owner.get b 16 = k.toNat ∧ t.mpu.parity.get b 1 = 0) ∧
  (∀ (line : Fin 83886080) (s : State), mpuReady s = true →
    ∃ t, exec (.patrolScrub line) s = .next t ∧ t.mpu.scrubbing = decide (line.val ≠ 83886079) ∧ t.mpu.counters.get 11 0 = s.mpu.counters.get 11 0 + (if line.val = 83886079 then 1 else 0)) ∧
  (∀ (line : Fin 83886080) (k : Nat) (r : Region) (l : CacheLine) (s : State), mpuReady s = true → s.mpu.poison = [] → s.mpu.poisonRegions = [] → s.mpu.rewrites = [] → s.mpu.treeLost = none → line.val % 64 ≠ 0 → regionOf (line * 64) = some r →
    s.mpu.cache.find (line / 64) = some l → l.ctr.minor (line % 64) ≠ 0 → k < 512 → s.mpu.broken = [(line.val, 2 ^ k)] →
    ∃ t, exec (.patrolScrub line) s = .next t ∧ t.mpu.broken = [] ∧ t.mpu.counters.get 0 0 = s.mpu.counters.get 0 0 + 1)

/-- O35. Conditioned blocks, health failures, start-up tests, retests and raw captures of the noise sources.
A conditioned block of a Healthy source, whose raw bits pass both tests at the cutoffs in force, comes 256 us after the one before and adds the
conditioner's state after its raw bits to the source's blocks. A Healthy source that fails a continuous test, on those bits or as reported, is
Isolated with one consecutive failure and no blocks, or Retired where the retest limit is 1 or less; a start-up test that passes makes a Starting
source Healthy, one that fails counts one more failure. A retest starts an Isolated source below the limit, no sooner than the retest delay after its
isolation. A start-up test takes 256 us. Eight hours Healthy clear its failures. The end of a raw capture, after 262.144 ms, keeps the data and starts
its source again. Model conventions in it, not rules of the spec: assumption log 68, 126, 127.
Rules: R375, R377, R378, R389. -/
def Obligations.SourcesFollowTheirStates : Prop :=
  (∀ (k : Fin 8) (raw : Octets) (s : State), (s.rng.source k).state = .healthy → testFailed s (s.rng.source k) raw = none →
    ∃ t, exec (.conditionedBlockReady k raw) s = .next t ∧
      t.rng.source k = { (s.rng.source k).ran raw with cond := condRun (s.rng.source k).cond raw, blocks := (s.rng.source k).blocks ++ [condRun (s.rng.source k).cond raw], blockAt := t.time.cycles } ∧
      max (s.rng.source k).since (s.rng.source k).blockAt + cyclesUs 256 ≤ t.time.cycles ∧ (∀ j, j ≠ k.val → t.rng.source j = s.rng.source j) ∧ ({ t with rng := s.rng, time := s.time } : State) = s) ∧
  (∀ (k : Fin 8) (raw : Octets) (s : State), (s.rng.source k).state = .healthy → (testFailed s (s.rng.source k) raw).isSome = true →
    ∃ t, exec (.conditionedBlockReady k raw) s = .next t ∧ (t.rng.source k).state = (if s.odNat 0x4803 2 ≤ 1 then .retired else .isolated) ∧ (t.rng.source k).fails = 1 ∧ (t.rng.source k).blocks = []) ∧
  (∀ (k : Fin 8) (test : HealthTest) (s : State), (s.rng.source k).state = .healthy →
    ∃ t, exec (.sourceHealthFailure k test) s = .next t ∧ (t.rng.source k).state = (if s.odNat 0x4803 2 ≤ 1 then .retired else .isolated) ∧ (t.rng.source k).fails = 1 ∧ (t.rng.source k).blocks = []) ∧
  (∀ (k : Fin 8) (raw : Octets) (s : State), (s.rng.source k).state = .starting → testFailed s (s.rng.source k) raw = none →
    ∃ t, exec (.sourceStartupComplete k raw) s = .next t ∧ (t.rng.source k).state = .healthy ∧ (t.rng.source k).fails = (s.rng.source k).fails ∧ (t.rng.source k).cond = (s.rng.source k).cond ∧
      (t.rng.source k).blocks = (s.rng.source k).blocks ∧ (t.rng.source k).since = t.time.cycles ∧ (s.rng.source k).since + cyclesUs 256 ≤ t.time.cycles ∧ ({ t with rng := s.rng, time := s.time } : State) = s) ∧
  (∀ (k : Fin 8) (raw : Octets) (s : State), (s.rng.source k).state = .starting → (testFailed s (s.rng.source k) raw).isSome = true →
    ∃ t, exec (.sourceStartupComplete k raw) s = .next t ∧ (t.rng.source k).state = (if s.odNat 0x4803 2 ≤ (s.rng.source k).fails + 1 then .retired else .isolated) ∧ (t.rng.source k).fails = (s.rng.source k).fails + 1) ∧
  (∀ (k : Fin 8) (s : State), (s.rng.source k).state = .isolated → (s.rng.source k).fails < s.odNat 0x4803 2 →
    ∃ t, exec (.sourceRetest k) s = .next t ∧ (t.rng.source k).state = .starting ∧ (s.rng.source k).since + cyclesUs (1000 * s.odNat 0x4803 1) ≤ t.time.cycles ∧ (t.rng.source k).fails = (s.rng.source k).fails) ∧
  (∀ (k : Fin 8) (c : Nat) (s : State), (s.rng.source k).healthyFrom = some c →
    ∃ t, exec (.sourceFailuresCleared k) s = .next t ∧ t.rng.source k = { s.rng.source k with fails := 0 } ∧ c + cyclesUs 28800000000 ≤ t.time.cycles ∧ ({ t with rng := s.rng, time := s.time } : State) = s) ∧
  (∀ (data : Octets) (k : Nat) (s : State), (List.range 8).find? (fun k => (s.rng.source k).state == .capture) = some k →
    ∃ t, exec (.rawCaptureComplete data) s = .next t ∧ t.rng.rawData = data ∧ t.rng.rawStatus = 1 ∧ (t.rng.source k).state = .starting ∧ (t.rng.source k).blocks = (s.rng.source k).blocks ∧ (s.rng.source k).since + cyclesUs 262144 ≤ t.time.cycles)

/-- O36. Reseeds, requests in class order, host reads, the 40 us rule, and the change of halves.
With five Healthy sources and their blocks, a reseed mixes the five blocks into the serving expander and sets its request count to 0, at once where
one is due and else 1 s after the last. The request served is of class 1 where one waits; serving it draws its octets in one generate call, counts it,
and gives a challenge its data; the BBK drawn leads a trained part to Restoring. A host read takes four octets of the buffer, or of a refill by one
generate call where the buffer is empty and the read may be served; one that is still waiting after 40 us ends without data. A fault of the serving
expander's half makes the other serve with a count of 0 and puts the half into reset without its expander; the end of the reset puts its domain on and
starts its sources. Model conventions in it, not rules of the spec: assumption log 20, 97.
Rules: R376, R379, R382, R383, R384, R385, R387. -/
def Obligations.TheExpanderServesItsConsumers : Prop :=
  (∀ (d : Drbg) (e : Octets) (g : Rng) (s : State), s.rng.started = true → s.rng.degraded = false → s.rng.serving < 2 → s.rng.live = some d → s.rng.inReset.contains s.rng.serving = false → s.rng.entropy = some (e, g) →
    ∃ t, exec .expanderReseed s = .next t ∧ t.rng.live = some (drbgReseed e [] d) ∧ t.rng.count = 0 ∧ t.rng.reseedAt = t.time.cycles ∧
      (reseedDue s = false → s.rng.reseedAt + cyclesUs 1000000 ≤ t.time.cycles) ∧ (reseedDue s = true → t.time = s.time) ∧ ({ t with rng := s.rng, time := s.time } : State) = s) ∧
  (∀ (r : RngReq) (q : List RngReq), rngHead q = some r → r ∈ q ∧ ((∃ x ∈ q, x.cls = 1) → r.cls = 1) ∧ ((∃ x ∈ q, x.cls = 1 ∨ x.cls = 2) → r.cls ≤ 2)) ∧
  (∀ (r : RngReq) (d : Drbg) (s : State), rngHead s.rng.queue = some r → (∀ w, r.who ≠ .hostRead w) → r.who ≠ .bbk → rngCan s = true → s.rng.live = some d →
    ∃ t, exec .rngRequestServed s = .next t ∧ t.rng.queue = s.rng.queue.erase r ∧ t.rng.count = s.rng.count + 1 ∧ t.rng.live = some (drbgGenerate [] r.who.octets d).2 ∧
      (r.who = .challenge → t.rest.challenge = (drbgGenerate [] 32 d).1) ∧ t.power = s.power) ∧
  (∀ (r : RngReq) (d : Drbg) (s : State), rngHead s.rng.queue = some r → r.who = .bbk → rngCan s = true → s.rng.live = some d →
    ∃ t, exec .rngRequestServed s = .next t ∧ t.rng.count = s.rng.count + 1 ∧ t.rng.live = some (drbgGenerate [] 32 d).2 ∧ t.rest.bbk = some (BitVec.ofNat 256 (beNat (drbgGenerate [] 32 d).1)) ∧
      (inTraining s = true → s.power.trained.length = 2 → t.power.start = .restoring)) ∧
  (∀ (wide : Bool) (stall : BitVec 16) (s : State), s.rng.hostBuf ≠ [] →
    ∃ t x, exec (.rngDataRead wide stall) s = .next t ∧ t.rng.hostBuf = s.rng.hostBuf.drop 4 ∧ t.out = .window x :: s.out ∧ s.rng.hostBuf.take 4 <+: x ∧
      t.rng.lastStat.getLsbD 0 = true ∧ t.rng.counters.get 3 0 = s.rng.counters.get 3 0 + 1) ∧
  (∀ (wide : Bool) (stall : BitVec 16) (d : Drbg) (s : State), s.rng.hostBuf = [] → rngCan s = true → s.rng.live = some d → s.rng.degraded = false →
    ∃ t x, exec (.rngDataRead wide stall) s = .next t ∧ t.rng.hostBuf = (drbgGenerate [] 32 d).1.drop 4 ∧ t.out = .window x :: s.out ∧ t.rng.count = s.rng.count + 1 ∧ t.rng.lastStat.getLsbD 0 = true) ∧
  (∀ (r : RngReq) (w : Bool) (rest : List RngReq) (s : State), s.rng.queue = r :: rest → r.who = .hostRead w →
    ∃ t x, exec .rngRequestTimeout s = .next t ∧ r.at_ + cyclesUs 40 ≤ t.time.cycles ∧ t.rng.queue = rest ∧ t.out = .window x :: s.out ∧ x.take 4 = zeros 4 ∧ t.rng.lastStat.getLsbD 0 = false ∧
      t.rng.counters.get 4 0 = s.rng.counters.get 4 0 + 1) ∧
  (∀ (h : Fin 2) (s : State), s.rng.serving = h.val →
    ∃ t, exec (.expanderFault h) s = .next t ∧ t.rng.serving = 1 - h.val ∧ t.rng.count = 0 ∧ t.rng.half h = none ∧ t.rng.half (1 - h) = s.rng.half (1 - h) ∧ t.rng.inReset.contains h.val = true ∧
      (t.domain (70 + h)).state = 3 ∧ (t.domain (70 + h)).resets = (s.domain (70 + h)).resets + 1 ∧ t.rng.counters.get 7 0 = s.rng.counters.get 7 0 + 1) ∧
  (∀ (h : Fin 2) (s : State), s.rng.inReset.contains h.val = true → s.power.service ≠ .resetting →
    ∃ t, exec (.rngHalfRestartComplete h) s = .next t ∧ (t.domain (70 + h)).state = 1 ∧ t.rng.inReset = s.rng.inReset.erase h.val ∧
      ∀ i < 4, (s.rng.source (4 * h + i)).state = .off → (t.rng.source (4 * h + i)).state = .starting)

/-- O37. Samples of the tool rest: the crystal grid, the filters, decisions on VBAT and the decision window.
Samples follow the crystal by 32 or 33 periods, 4,096 for 125 samples. A sample comes a sample period after the last, moves the crystal count and the
seconds while sensor 6 is clear, and gives each sensor that is sampled its next filter state, of what it shows; every other sensor stays. The
temperature sensors and VBAT low show their condition where a reading lies beyond the threshold in force. On main power a sensor that goes into alarm
joins the decision window; on VBAT one of rank Zeroize leaves no BBK and the state Zeroized. A condition at a filter-I sensor on main power puts it
into alarm at once and into the window; one at a latching filter-F sensor is latched for its next sample; on VBAT nothing happens before the next
sample. Model conventions in it, not rules of the spec: assumption log 16, 78.
Rules: R394, R395, R397, R398, R402, R407. -/
def Obligations.SensorsAreSampled : Prop :=
  ((∀ k, samplePeriods k = 32 ∨ samplePeriods k = 33) ∧ ∀ k, ((List.range 125).map (fun i => samplePeriods (k + i))).sum = 4096) ∧
  (∀ (obs : List SensorObs) (temps : List Int) (supplies : List Nat) (s : State),
    ∃ t, exec (.toolRestSample obs temps supplies) s = .next t ∧
      (s.rest.onVbat = false → s.rest.sampleAt + (if (s.sensor 6).alarm then cyclesUs 992 else samplePeriods s.rest.sampleNo * 1562500000 / 32768) ≤ t.time.cycles) ∧
      (∀ n < 16, t.sensor n = (if sampled (sampleDue s) n then
        (sampleOne n (shows s (measured s obs temps supplies) n) ((measured s obs temps supplies).find? (fun o => o.sensor.val == n)) (s.sensor n)).1 else s.sensor n)) ∧
      ((s.sensor 6).alarm = false → s.rest.crystal < 32768 → t.rest.crystal = (s.rest.crystal + samplePeriods s.rest.sampleNo) % 32768 ∧
        t.rest.seconds = s.rest.seconds + (if 32768 ≤ s.rest.crystal + samplePeriods s.rest.sampleNo then 1 else 0)) ∧
      ((s.sensor 6).alarm = true → t.rest.crystal = s.rest.crystal ∧ t.rest.seconds = s.rest.seconds) ∧
      (s.rest.onVbat = false → s.rest.zeroizing = false → ∀ n < 16, (s.sensor n).alarm = false → (t.sensor n).alarm = true → ∃ c l, t.rest.window = some (c, l) ∧ n ∈ l) ∧
      (s.rest.onVbat = true → (∀ m, sensorRank s m ≤ 3) → ∀ n < 16, (s.sensor n).alarm = false → (t.sensor n).alarm = true → sensorRank s n = 3 → t.rest.bbk = none ∧ t.rest.state = .zeroized)) ∧
  (∀ (temps : List Int) (supplies : List Nat) (s : State), s.rest.onVbat = false →
    ((readingOf s temps supplies 9).isSome = true ↔ ∃ i < 16, s.odInt 16 0x5012 1 < temps.getD i 0) ∧
    ((readingOf s temps supplies 10).isSome = true ↔ ∃ i < 16, s.odInt 16 0x5012 2 < temps.getD i 0) ∧
    ((readingOf s temps supplies 4).isSome = true ↔ ∃ i < 16, temps.getD i 0 < s.odInt 16 0x5012 3) ∧
    ((readingOf s temps supplies 5).isSome = true ↔ supplies.getD 15 0 < s.odNat 0x5012 6)) ∧
  (∀ (n : Nat) (o : Option SensorObs) (x : Sensor), x.hist.length = 4 →
    ((sampleOne n true o x).1.alarm = (x.alarm || !filterF.contains n || decide (2 ≤ ((x.hist.take 3).filter id).length))) ∧
    ((sampleOne n false o x).1.alarm = ((x.alarm && (x.hist.take 3).any id) || (!x.alarm && filterF.contains n && decide (3 ≤ ((x.hist.take 3).filter id).length))))) ∧
  (∀ (o : SensorObs) (s : State), s.rest.onVbat = true → exec (.sensorAlarmImmediate o) s = .next s) ∧
  (∀ (o : SensorObs) (s : State), s.rest.onVbat = false → o.now = true ∨ o.latched = true → o.sensor.val ∈ [0, 1, 7, 13, 15] → sampled s o.sensor.val = true → (s.sensor o.sensor.val).alarm = false →
    ∃ t, exec (.sensorAlarmImmediate o) s = .next t ∧ t.sensor o.sensor = { s.sensor o.sensor with alarm := true, sub := o.sub.toNat, value := o.value } ∧
      (if s.rest.zeroizing then o.sensor.val ∈ t.rest.deferred else ∃ c l, t.rest.window = some (c, l) ∧ o.sensor.val ∈ l) ∧ ({ t with rest := s.rest } : State) = s) ∧
  (∀ (o : SensorObs) (s : State), s.rest.onVbat = false → o.now = true ∨ o.latched = true → o.sensor.val ∈ [4, 9, 10, 11, 12, 14] →
    ∃ t, exec (.sensorAlarmImmediate o) s = .next t ∧ t.sensor o.sensor = { s.sensor o.sensor with latch := true } ∧ ({ t with rest := s.rest } : State) = s)

/-- O38. The decision of a window, and the scan of the shadow copies.
Two microseconds after a window opened its sensors are decided. Where their highest rank is Lock or Zeroize the lock sequence is one more, and the
part is Locked, or Zeroized where it was or where the rank is Zeroize; every sensor of rank Alert or more sets its bit of the Alert latch. A rank of
Zeroize leaves no key in any slot. Where the scan finds a pair that is new, it is remembered, and on main power sensor 7 is in alarm; a mismatched
debug-enable state leaves PD78 off. Model conventions in it, not rules of the spec: assumption log 75.
Rules: R399, R400, R402, R403, R405. -/
def Obligations.DecisionsAreTaken : Prop :=
  (∀ (c : Nat) (l : List Nat) (s : State), Quiet s → s.rest.onVbat = false → s.rest.window = some (c, l) → l ≠ [] → topRank s l ≤ 3 → (∀ n ∈ l, n < 23) →
    ∃ t, exec .decisionWindowClose s = .next t ∧ c + cyclesUs 2 ≤ t.time.cycles ∧
      (2 ≤ topRank s l → t.rest.lockSeq = s.rest.lockSeq + 1) ∧ (topRank s l < 2 → t.rest.lockSeq = s.rest.lockSeq ∧ t.rest.state = s.rest.state) ∧
      (topRank s l = 2 → t.rest.state = (if s.rest.state = .zeroized then .zeroized else .locked)) ∧
      (topRank s l = 3 → t.rest.state = .zeroized ∧ t.rest.zeroizing = true ∧ t.rest.bbk = none ∧ (∀ q ∈ t.keys.data, q.2.state = .free ∨ q.2.state = .bad) ∧ (∀ q ∈ t.keys.kek, q.2.state = .free ∨ q.2.state = .bad)) ∧
      (∀ n ∈ l, 1 ≤ sensorRank s n → t.rest.alertLatch.getLsbD n = true)) ∧
  (∀ (bad : List (Fin 8 × BitVec 32)) (s : State),
    ∃ t, exec (.shadowScan bad) s = .next t ∧ t.rest.shadowBad = (bad.map (fun q => (q.1.val, q.2.toNat))).filter (fun q => !s.rest.onVbat || [1, 2, 3, 6].contains q.1) ∧
      (s.rest.onVbat = false → (∃ q ∈ bad, s.rest.shadowBad.contains (q.1.val, q.2.toNat) = false) → (t.sensor 7).alarm = true) ∧
      (s.rest.onVbat = false → (∃ q ∈ bad, q.1 = 7) → t.domOn 78 = false) ∧
      ((∀ q ∈ bad, s.rest.shadowBad.contains (q.1.val, q.2.toNat) = true) → (∀ q ∈ bad, q.1 ≠ 7) → ({ t with rest := s.rest } : State) = s))

/-- O39. Coalesced entries, reminders, segments, the restart of the tool rest and the end of the hold-off.
At the end of a second the types held back each give one coalesced entry with the type and the count, in the ring's order after what it holds where
there is room, and nothing is held back. The reminder posts the log-export event while the threshold is met, 10 s after the last one, and does nothing
else. Where no segment is pending and entries are unexported, a segment of the oldest, up to 256, is formed under the next number, and no entry leaves
the ring; one that is pending stays. The restart of the tool rest clears the filters, counts its reset, and keeps the rest. The hold-off's end clears
the refusals, no sooner than its time. Model conventions in it, not rules of the spec: assumption log 78.
Rules: R411, R418, R419, R420, R493, R499. -/
def Obligations.TheLogIsKeptAndSigned : Prop :=
  (∀ s : State, s.unexported + s.rest.heldBack.length ≤ logLimit s →
    ∃ t es, exec .coalesceSecondEnd s = .next t ∧ t.rest.perSecond = 0 ∧ t.rest.heldBack = [] ∧ t.rest.ring = s.rest.ring ++ es ∧
      es.map (fun e => (slice e.data 6 2, slice e.data 20 8)) = (s.rest.heldBack.filter (fun q => q.2 ≠ 0)).map (fun q => ([0, 0xF0], beBytes 2 q.1 ++ zeros 2 ++ beBytes 4 q.2)) ∧
      (∀ e ∈ es, bitAt (octet e.data 18) 3 = true) ∧ t.rest.headSeq = s.rest.headSeq + es.length) ∧
  (∀ s : State, s.unexported < s.odNat 0x5042 1 → exec .logExportReminder s = .next s) ∧
  (∀ s : State, s.odNat 0x5042 1 ≤ s.unexported → ∃ t, exec .logExportReminder s = .next t ∧ s.rest.exportAt + cyclesUs 10000000 ≤ t.time.cycles ∧
    t.rest = { s.rest with exportAt := t.time.cycles } ∧
    ∃ u : State, u.host = s.host ∧ u.out = s.out ∧ t = post { type := 0x5002, source := 0xFFFF, a := s.unexported } u ∧ ({ u with time := s.time, rest := s.rest } : State) = s) ∧
  (∀ (e : LogEntry) (l : List LogEntry) (s : State), s.rest.segment = none → s.rest.ring = e :: l →
    ∃ t last g, exec .exportSegmentFormed s = .next t ∧ ((e :: l).take 256).getLast? = some last ∧
      t.rest.segment = some (s.rest.segNext.toNat, last.seq, segmentBody s.rest.segNext.toNat e.seq last.seq s.rest.tailHash ((e :: l).take 256) ++ g) ∧
      t.rest.segNext = s.rest.segNext + 1 ∧ t.rest.ring = s.rest.ring ∧ t.rest.headHash = s.rest.headHash) ∧
  (∀ s : State, s.rest.segment ≠ none ∨ s.rest.ring = [] → exec .exportSegmentFormed s = .next s) ∧
  (∀ s : State, ∃ t, exec .toolRestRestart s = .next t ∧ (∀ n, (t.sensor n).hist = [] ∧ (t.sensor n).latch = false ∧ (t.sensor n).alarm = (s.sensor n).alarm) ∧
    (t.domain 79).resets = (s.domain 79).resets + 1 ∧ (t.domain 79).cause = 2 ∧ ({ t.rest with sensors := s.rest.sensors } : ToolRest) = s.rest ∧ ({ t with rest := s.rest, power := s.power } : State) = s) ∧
  (∀ (c : Nat) (s : State), s.rest.holdOff = some c → ∃ t, exec .tokenHoldoffEnd s = .next t ∧ t.rest.holdOff = none ∧ t.rest.refusals = 0 ∧ c ≤ t.time.cycles ∧ t.rest.challenge = s.rest.challenge)

/-- O40. Writes are staged or turned away, snapshots are kept, RWC bits clear, and since-last-read fields start anew.
With nothing waiting, a whole write of fitting length to an entry that stages, with room, is answered 0, is the session's staged value, and no other
session changes; a write to a read-only entry, to an RWL entry while Locked, or to no entry is answered by its abort code and changes nothing. A
snapshot read keeps the value with its time, returns its first octets with code 0, and expires after ten seconds. A discard empties the staging. Bits
written as 1 to an RWC entry clear. A read of a since-last-read field with no live snapshot starts it anew; one that a live snapshot serves changes
nothing. Model conventions in it, not rules of the spec: assumption log 33, 50, 96.
Rules: R13, R171, R341, R429, R433, R436. -/
def Obligations.TransactionsStageReadAndClear : Prop :=
  (∀ (ses : Fin 128) (fl : BitVec 8) (idx : BitVec 16) (sub : BitVec 8) (v : Octets) (e : Entry) (s : State), Quiet s → sessionOpen s ses = true → entryAt idx.toNat sub.toNat = some e → e.acc ≠ .ro → e.acc ≠ .rwc → (e.acc = .rwl → s.locked = false) →
    idx ≠ 0x1F00 → concatenated idx.toNat sub.toNat = false → e.ty.fits v = true → 0 < v.length → v.length ≤ 4096 → v.length ≤ e.ty.size → fl.getLsbD 0 = true → fl.getLsbD 1 = true →
    stagedBytes s ses + v.length ≤ 16777216 → stagedTotal s + v.length ≤ 50331648 →
    ∃ t x, exec (.dictionaryWrite ses fl idx sub 0 v) s = .next (controlCheckpoint t) ∧ t.out = .response ses x :: s.out ∧ responseCode x = 0 ∧ (t.session ses).staged.find (odKey idx.toNat sub.toNat) = some v ∧
      (∀ k, k ≠ ses.val → t.session k = s.session k) ∧ ({ t with ctl := { t.ctl with sessions := s.ctl.sessions }, out := s.out } : State) = s) ∧
  (∀ (ses : Fin 128) (fl : BitVec 8) (idx : BitVec 16) (sub : BitVec 8) (off : BitVec 32) (v : Octets) (s : State), Quiet s → sessionOpen s ses = true → 0 < v.length → v.length ≤ 4096 →
    (∀ e, entryAt idx.toNat sub.toNat = some e → e.acc = .ro → ∃ t x, exec (.dictionaryWrite ses fl idx sub off v) s = .next (controlCheckpoint t) ∧ t.out = .response ses x :: s.out ∧ responseCode x = abReadOnly ∧ ({ t with out := s.out } : State) = s) ∧
    (∀ e, entryAt idx.toNat sub.toNat = some e → e.acc = .rwl → s.locked = true → ∃ t x, exec (.dictionaryWrite ses fl idx sub off v) s = .next (controlCheckpoint t) ∧ t.out = .response ses x :: s.out ∧ responseCode x = abLocked ∧ ({ t with out := s.out } : State) = s) ∧
    (entryAt idx.toNat sub.toNat = none → ∃ t x, exec (.dictionaryWrite ses fl idx sub off v) s = .next (controlCheckpoint t) ∧ t.out = .response ses x :: s.out ∧ responseCode x = abMissing ∧ ({ t with out := s.out } : State) = s)) ∧
  (∀ (ses : Fin 128) (idx : BitVec 16) (sub : BitVec 8) (n : BitVec 16) (e : Entry) (s : State), Quiet s → sessionOpen s ses = true → entryAt idx.toNat sub.toNat = some e → e.acc ≠ .wo → 0 < n.toNat → n.toNat ≤ 4096 →
    ∃ t x, exec (.snapshotRead ses idx sub n) s = .next (controlCheckpoint t) ∧ t.out = .response ses x :: s.out ∧ responseCode x = 0 ∧ (readValue s ses idx.toNat sub.toNat).take n.toNat <+: x.drop 24 ∧
      (t.session ses).snaps.find (odKey idx.toNat sub.toNat) = some (readValue s ses idx.toNat sub.toNat, s.time.cycles)) ∧
  (∀ (ses : Fin 128) (idx : BitVec 16) (sub : BitVec 8) (v : Octets) (c : Nat) (s : State), (s.session ses).snaps.find (odKey idx.toNat sub.toNat) = some (v, c) →
    ∃ t, exec (.snapshotExpiry ses idx sub) s = .next t ∧ c + 10 * secCycles ≤ t.time.cycles ∧ (t.session ses).snaps = (s.session ses).snaps.drop (odKey idx.toNat sub.toNat) ∧ (t.session ses).staged = (s.session ses).staged) ∧
  (∀ (ses : Fin 128) (s : State), Quiet s → sessionOpen s ses = true →
    ∃ t x, exec (.discardStaging ses) s = .next (controlCheckpoint t) ∧ t.out = .response ses x :: s.out ∧ responseCode x = 0 ∧ (t.session ses).staged = [] ∧ (∀ k, k ≠ ses.val → t.session k = s.session k) ∧
      ({ t with ctl := { t.ctl with sessions := s.ctl.sessions }, out := s.out } : State) = s) ∧
  (∀ (ses : Fin 128) (v : Octets) (s : State), Quiet s → sessionOpen s ses = true → v.length = 8 →
    ∃ t, exec (.rwcBitClearWrite ses 0x5002 1 v) s = .next (controlCheckpoint t) ∧ t.rest.alertLatch = s.rest.alertLatch &&& ~~~(BitVec.ofNat 64 (leNat v)) ∧ t.time = s.time ∧ t.otn = s.otn ∧ t.mpu = s.mpu) ∧
  (∀ (ses : Fin 128) (v : Octets) (s : State), Quiet s → sessionOpen s ses = true → v.length = 2 →
    ∃ t, exec (.rwcBitClearWrite ses 0x4401 1 v) s = .next (controlCheckpoint t) ∧ t.mpu.latched = s.mpu.latched &&& ~~~(BitVec.ofNat 16 (leNat v)) ∧ t.rest = s.rest ∧ t.otn = s.otn ∧ t.mpu.hbm = s.mpu.hbm) ∧
  (∀ (ses : Fin 128) (v : Octets) (s : State), Quiet s → sessionOpen s ses = true → v.length = 1024 →
    ∃ t, exec (.rwcBitClearWrite ses 0x2823 1 v) s = .next (controlCheckpoint t) ∧ ∀ i, t.otn.tribLatched.get i 0 = s.otn.tribLatched.get i 0 &&& ~~~(BitVec.ofNat 32 (leAt v (4 * i) 4))) ∧
  (∀ (ses : Fin 128) (sub : BitVec 8) (v : Octets) (s : State), Quiet s → sessionOpen s ses = true → 1 ≤ sub.toNat → sub.toNat ≤ 8 → v.length = 8 →
    ∃ t, exec (.rwcBitClearWrite ses 0x2821 sub v) s = .next (controlCheckpoint t) ∧
      ∀ i, t.otn.sideLatched.get i 0 = (if i / 2 + 1 = sub.toNat then s.otn.sideLatched.get i 0 &&& ~~~(BitVec.ofNat 32 (leAt v (4 * (i % 2)) 4)) else s.otn.sideLatched.get i 0)) ∧
  (∀ (ses : Fin 128) (idx : BitVec 16) (sub : BitVec 8) (s : State), Quiet s → sessionOpen s ses = true → snapshotOf s ses (odKey idx.toNat sub.toNat) = none →
    ∃ t, exec (.sinceLastReadStatusRead ses idx sub) s = .next (controlCheckpoint t) ∧ (idx = 0x4000 → sub = 2 → t.time.stepped = false) ∧ (idx = 0x3008 → sub = 1 → t.path.peak = s.inUse) ∧
      (idx = 0x2822 → sub = 1 → ∀ i, t.otn.trib.get i 0 = s.otn.trib.get i 0 &&& ~~~(0x8080 : W32))) ∧
  (∀ (ses : Fin 128) (idx : BitVec 16) (sub : BitVec 8) (e : Entry) (c : Octets) (s : State), Quiet s → sessionOpen s ses = true → entryAt idx.toNat sub.toNat = some e → snapshotOf s ses (odKey idx.toNat sub.toNat) = some c →
    ∃ t x, exec (.sinceLastReadStatusRead ses idx sub) s = .next (controlCheckpoint t) ∧ t.out = .response ses x :: s.out ∧ c.take 4096 <+: x.drop 24 ∧ ({ t with out := s.out } : State) = s)

/-- O41. A commit of a session's staging is applied whole, refused whole, or turned away for its generation, and the controller's checkpoint follows.
With nothing waiting and no unfinished commit write, a commit of a staging without classification entries whose generation is 0 or the present one and
whose checks all pass is answered 0, makes the next generation at this instant, and leaves an empty staging and the last result 0. Where a check fails
the commit is answered by the code of the first failure, which is the last result; the generation stays, and the staging is gone. A commit that names
another generation is answered by the code for it and changes nothing but the session's staging and last result. With a controller up and the memory
unit keyed, the checkpoint that follows leaves as its record the present one of generation, applied values and staging; where the record has not
changed nothing is written; it changes no entry, session, key, queue or frame. Model conventions in it, not rules of the spec: assumption log 39, 48,
110.
Rules: R431, R432, R38, R344, R466. -/
def Obligations.CommitsAreCheckedThenApplied : Prop :=
  (∀ (ses : Fin 128) (g : BitVec 64) (ck : ChuckRun) (s : State), Quiet s → s.ctl.sessions.Rising → sessionOpen s ses = true → classifies (s.session ses).staged = false → (s.session ses).partials.find (odKey 0x1F00 1) = none → g = 0 ∨ g.toNat = s.ctl.generation.toNat →
    firstFailure (checkCommit ses (s.session ses).staged ck [] (updSession ses (fun x => { x with staged := [] }) s)).fails = none →
    ∃ t x, exec (.commit ses g ck) s = .next (controlCheckpoint t) ∧ .response ses x ∈ t.out ∧ responseCode x = 0 ∧ t.ctl.generation = s.ctl.generation + 1 ∧ t.ctl.applyAt = s.time.now ∧ (t.session ses).staged = [] ∧ (t.session ses).last = 0) ∧
  (∀ (ses : Fin 128) (g : BitVec 64) (ck : ChuckRun) (q : Nat × Nat) (s : State), Quiet s → sessionOpen s ses = true → classifies (s.session ses).staged = false → (s.session ses).partials.find (odKey 0x1F00 1) = none → g = 0 ∨ g.toNat = s.ctl.generation.toNat → q.2 < 2 ^ 32 →
    firstFailure (checkCommit ses (s.session ses).staged ck [] (updSession ses (fun x => { x with staged := [] }) s)).fails = some q →
    ∃ t x, exec (.commit ses g ck) s = .next (controlCheckpoint t) ∧ .response ses x ∈ t.out ∧ responseCode x = q.2 ∧ t.ctl.generation = s.ctl.generation ∧ t.ctl.dict = s.ctl.dict ∧ (t.session ses).staged = [] ∧ (t.session ses).last = q.2) ∧
  (∀ (ses : Fin 128) (g : BitVec 64) (ck : ChuckRun) (s : State), Quiet s → sessionOpen s ses = true → g ≠ 0 → g.toNat ≠ s.ctl.generation.toNat →
    ∃ t x, exec (.commit ses g ck) s = .next (controlCheckpoint t) ∧ t.out = .response ses x :: s.out ∧ responseCode x = abGeneration ∧ (t.session ses).staged = [] ∧ (t.session ses).last = abGeneration ∧ (∀ k, k ≠ ses.val → t.session k = s.session k) ∧
      ({ t with ctl := { t.ctl with sessions := s.ctl.sessions }, out := s.out } : State) = s) ∧
  (∀ s : State, s.controlUp = true → mpuReady s = true → (controlCheckpoint s).ctl.recorded = controlRecord s) ∧
  (∀ s : State, s.ctl.recorded = controlRecord s → controlCheckpoint s = s) ∧
  (∀ s : State, ∃ t, t = controlCheckpoint s ∧ ({ t.ctl with recorded := s.ctl.recorded } : Control) = s.ctl ∧ t.keys = s.keys ∧ t.cls = s.cls ∧ t.fab = s.fab ∧ t.otn = s.otn ∧ t.rng = s.rng ∧ t.urz = s.urz ∧ t.time = s.time ∧ t.power = s.power ∧
    ({ t.path with edges := s.path.edges } : Path) = s.path ∧ t.pending = s.pending ∧ t.free = s.free)

/-- O42. Doorbells, mailbox transactions, moderation timers and the Function Level Reset.
With nothing waiting, a doorbell of a running ring that is not a mailbox ring posts its descriptors behind those that wait, and one of an event ring
moves its read index; an index beyond the ring stops it in error with cause 1. A read posted in a mailbox ring is answered at its response address
with code 0, consumed and the consumer index moved one slot. A doorbell of a ring that does not run, or without a link, does nothing. The end of the
moderation time signals the ring's vector, or makes it pending where masked, and the gathering starts anew. A Function Level Reset with the link up
leaves ring 0 alone running, no MSI-X entry, no pending vector and no mailbox session. Model conventions in it, not rules of the spec: assumption log
9, 33, 51.
Rules: R442, R443, R444, R450, R452. -/
def Obligations.RingsAreServedInOrder : Prop :=
  (∀ (r : Fin 1120) (i : BitVec 32) (dma : List (Octets × Octets)) (s : State), Quiet s → s.power.pcieUp = true → (s.ring r).state = 1 → 64 ≤ r.val → r.val < 1088 → i.toNat < ringSlots s r →
    (s.ring r).posted.length + (i.toNat + ringSlots s r - (s.ring r).host % ringSlots s r) % ringSlots s r ≤ ringSlots s r →
    ∃ t new, exec (.doorbellWrite r i dma) s = .next (controlCheckpoint t) ∧ t.ring r = { s.ring r with host := i.toNat, posted := (s.ring r).posted ++ new } ∧ new.length = (i.toNat + ringSlots s r - (s.ring r).host % ringSlots s r) % ringSlots s r ∧
      (∀ n < new.length, n < dma.length → new[n]? = dma[n]?) ∧ (∀ j, j ≠ r.val → t.ring j = s.ring j)) ∧
  (∀ (r : Fin 1120) (i : BitVec 32) (dma : List (Octets × Octets)) (s : State), Quiet s → s.power.pcieUp = true → (s.ring r).state = 1 → ringSlots s r ≤ i.toNat →
    ∃ t, exec (.doorbellWrite r i dma) s = .next (controlCheckpoint t) ∧ t.ring r = { s.ring r with state := 2, cause := 1 } ∧ (∀ j, j ≠ r.val → t.ring j = s.ring j)) ∧
  (∀ (r : Fin 1120) (i : BitVec 32) (dma : List (Octets × Octets)) (s : State), Quiet s → s.power.pcieUp = true → (s.ring r).state = 1 → 1088 ≤ r.val → i.toNat < ringSlots s r →
    (i.toNat + ringSlots s r - (s.ring r).host % ringSlots s r) % ringSlots s r ≤ ((s.ring r).part + ringSlots s r - (s.ring r).host % ringSlots s r) % ringSlots s r →
    ∃ t, exec (.doorbellWrite r i dma) s = .next (controlCheckpoint t) ∧ (t.ring r).host = i.toNat ∧ (t.ring r).state = 1) ∧
  (∀ (r : Fin 1120) (i : BitVec 32) (desc data : Octets) (q : Request) (e : Entry) (s : State), Quiet s → s.power.pcieUp = true → (s.ring r).state = 1 → r.val < 64 → i.toNat < ringSlots s r →
    (i.toNat + ringSlots s r - (s.ring r).host % ringSlots s r) % ringSlots s r = 1 → 24 ≤ leAt desc 16 2 → leAt desc 16 2 ≤ 4120 → 24 ≤ leAt desc 18 2 → leAt desc 18 2 ≤ 4120 →
    q = requestOf (data.take (leAt desc 16 2)) → q.op = 1 → q.len ≠ 0 → q.len ≤ 4096 → (bitAt q.flags 2 = true → q.off = 0) → entryAt q.idx q.sub = some e →
    ∃ t x, exec (.doorbellWrite r i [(desc, data)]) s = .next (controlCheckpoint t) ∧ .dma (leAt desc 8 8) x ∈ t.out ∧ responseCode x = 0 ∧ leAt x 8 4 = q.tag ∧ (t.ring r).posted = [] ∧ (t.ring r).host = i.toNat ∧
      (t.ring r).part = ((s.ring r).part + 1) % ringSlots s r) ∧
  (∀ (r : Fin 1120) (i : BitVec 32) (dma : List (Octets × Octets)) (s : State), Quiet s → s.power.pcieUp = false ∨ (s.ring r).state ≠ 1 → exec (.doorbellWrite r i dma) s = .next (controlCheckpoint s)) ∧
  (∀ (r : Fin 1120) (c : Nat) (s : State), (s.ring r).moderateAt = some c →
    ∃ t, exec (.moderationTimerExpiry r) s = .next t ∧ c ≤ t.time.cycles ∧ t.ring r = { s.ring r with gathered := 0, moderateAt := none } ∧
      (if (msixEntry s (ringVector s r)).getLsbD 96 then t.host.pba.contains (ringVector s r) = true ∧ t.out = s.out else t.out = .msix (ringVector s r) :: s.out)) ∧
  (∀ (r : Fin 1120) (s : State), (s.ring r).moderateAt = none → exec (.moderationTimerExpiry r) s = .next s) ∧
  (∀ s : State, Quiet s → s.ctl.sessions.Rising → s.power.pcieUp = true →
    ∃ t, exec .functionLevelReset s = .next (controlCheckpoint t) ∧ t.ring 0 = { state := 1 } ∧ (∀ r, r ≠ 0 → t.ring r = {}) ∧ t.host.msix = [] ∧ t.host.pba = [] ∧ (∀ k < 64, t.session k = {}) ∧ (∀ k, 64 ≤ k → t.session k = s.session k)) ∧
  (∀ s : State, Quiet s → s.power.pcieUp = false → exec .functionLevelReset s = .next (controlCheckpoint s))

/-- O43. What the channel does with a received frame.
With the channel reachable, on and enabled for the direction, the front frame leaves the inbox. A well-formed message for this part whose MAC verifies
under the key its type names waits to be acted on; where the MAC differs the failure is counted and nothing waits. A message for another part is sent
on with its hop count one less where that was two or more, and is counted as at its hop limit otherwise. With an empty inbox nothing happens. Model
conventions in it, not rules of the spec: assumption log 54.
Rules: R453, R455, R456, R460. -/
def Obligations.MessagesAreVerifiedOrForwarded : Prop :=
  (∀ (p : PD) (d : Octets) (l : List (PD × Octets)) (key np nc : Octets) (s : State), s.urz.inbox = (p, d) :: l → s.reachable = true → s.domOn 77 = true → bitAt (s.odNat 0x1011 (p.port + 1)) p.dir.num = true →
    urzFormOk s d = true → urzForUs s (urzBody s d) = true → urzSealing s (urzBody s d) = some (key, np, nc) → urzMac key np nc ((urzBody s d).take (24 + beAt (urzBody s d) 20 2)) = urzTag (urzBody s d) →
    exec .urzidunFrameReceived s = .next { s with urz := { s.urz with inbox := l, accepted := s.urz.accepted ++ [(p, d)] } }) ∧
  (∀ (p : PD) (d : Octets) (l : List (PD × Octets)) (key np nc : Octets) (s : State), s.urz.inbox = (p, d) :: l → s.reachable = true → s.domOn 77 = true → bitAt (s.odNat 0x1011 (p.port + 1)) p.dir.num = true →
    urzFormOk s d = true → urzForUs s (urzBody s d) = true → urzSealing s (urzBody s d) = some (key, np, nc) → urzMac key np nc ((urzBody s d).take (24 + beAt (urzBody s d) 20 2)) ≠ urzTag (urzBody s d) →
    ∃ t, exec .urzidunFrameReceived s = .next t ∧ t.urz.inbox = l ∧ t.urz.accepted = s.urz.accepted ∧ t.urz.counters.get 2 0 = s.urz.counters.get 2 0 + 1 ∧ t.urz.sessions = s.urz.sessions ∧ t.ctl = s.ctl) ∧
  (∀ (p : PD) (d : Octets) (l : List (PD × Octets)) (s : State), s.urz.inbox = (p, d) :: l → s.reachable = true → s.domOn 77 = true → bitAt (s.odNat 0x1011 (p.port + 1)) p.dir.num = true →
    urzFormOk s d = true → urzForUs s (urzBody s d) = false → 2 ≤ octet d (15 + 4 * tagCount s.tpid d) →
    ∃ t, exec .urzidunFrameReceived s = .next t ∧ t.urz.inbox = l ∧ t.urz.accepted = s.urz.accepted ∧ t.urz.counters.get 5 0 = s.urz.counters.get 5 0 + 1 ∧ t.urz.counters.get 6 0 = s.urz.counters.get 6 0 ∧
      (ethPort s p.port = true → ∃ x, t.path.inject = s.path.inject ++ [x] ∧ x.pd = p ∧ x.data = patch d (15 + 4 * tagCount s.tpid d) [BitVec.ofNat 8 (octet d (15 + 4 * tagCount s.tpid d) - 1)])) ∧
  (∀ (p : PD) (d : Octets) (l : List (PD × Octets)) (s : State), s.urz.inbox = (p, d) :: l → s.reachable = true → s.domOn 77 = true → bitAt (s.odNat 0x1011 (p.port + 1)) p.dir.num = true →
    urzFormOk s d = true → urzForUs s (urzBody s d) = false → octet d (15 + 4 * tagCount s.tpid d) < 2 →
    exec .urzidunFrameReceived s = .next { s with urz := { s.urz with inbox := l, counters := s.urz.counters.bump 6 1 } }) ∧
  (∀ s : State, s.urz.inbox = [] → exec .urzidunFrameReceived s = .next s)

/-- O44. Opening, requests, replays, closing and the idle time of Urzidun sessions.
With nothing waiting, an accepted Open with a part key and a generator that serves opens the next slot with the console's nonce, a drawn one and
highest sequence 0; one that the generator cannot serve waits. A request of the next sequence with one read is executed once, counted, and its
Response kept; one of the last sequence with the same MAC is answered by the kept Response again; any other is counted as a replay, and no session
changes. A Close is answered, and closes its session; so do 300 s without a valid request. Model conventions in it, not rules of the spec: assumption
log 53.
Rules: R457, R458. -/
def Obligations.SessionsOpenRunAndClose : Prop :=
  (∀ (p : PD) (d key np : Octets) (u v s : State), Quiet s → urzFront [1] s = some (p, d, u) → partKey u = some key → rngDraw 16 u = some (np, v) →
    ∃ t x, exec .urzidunOpen s = .next (controlCheckpoint t) ∧ t.urz.sessions.get (urzSlotNext v) {} = x ∧ x.isOpen = true ∧ x.nc = padTo 16 (urzPayload (urzBody u d)) ∧ x.np = np ∧ x.highest = 0 ∧ x.console = beAt (urzBody u d) 6 2 ∧
      x.number % 256 = urzSlotNext v ∧ t.urz.accepted = u.urz.accepted ∧ t.urz.opened = (s.urz.opened + 1) % 2 ^ 24) ∧
  (∀ (p : PD) (d key : Octets) (u s : State), Quiet s → urzFront [1] s = some (p, d, u) → partKey u = some key → rngDraw 16 u = none → exec .urzidunOpen s = .next (controlCheckpoint s)) ∧
  (∀ (p : PD) (d key : Octets) (i : Nat) (q : Request) (e : Entry) (u s : State), Quiet s → urzFront [3] s = some (p, d, u) → partKey u = some key → urzSlotOf u (urzNumber (urzBody u d)) = some i → i < 64 →
    urzSeq (urzBody u d) = (u.urz.sessions.get i {}).highest + 1 → (urzPayload (urzBody u d)).length = 24 → q = requestOf (urzPayload (urzBody u d)) → q.op = 1 → q.len ≠ 0 → q.len ≤ 4096 → (bitAt q.flags 2 = true → q.off = 0) →
    entryAt q.idx q.sub = some e →
    ∃ t x, exec .urzidunRequest s = .next (controlCheckpoint t) ∧ t.urz.sessions.get i {} = x ∧ x.highest = urzSeq (urzBody u d) ∧ x.lastMac = urzTag (urzBody u d) ∧ x.lastAt = s.time.cycles ∧ octet x.lastResp 0 = 0x14 ∧ leAt (x.lastResp.drop 24) 12 4 = 0 ∧
      t.urz.counters.get 0 0 = s.urz.counters.get 0 0 + 1 ∧ t.urz.counters.get 1 0 = s.urz.counters.get 1 0 + 1 ∧ t.urz.accepted = u.urz.accepted) ∧
  (∀ (p : PD) (d key : Octets) (i : Nat) (u s : State), Quiet s → urzFront [3] s = some (p, d, u) → partKey u = some key → urzSlotOf u (urzNumber (urzBody u d)) = some i →
    urzSeq (urzBody u d) = (u.urz.sessions.get i {}).highest → urzTag (urzBody u d) = (u.urz.sessions.get i {}).lastMac → (u.urz.sessions.get i {}).lastResp ≠ [] →
    ∃ t, exec .urzidunRequest s = .next (controlCheckpoint t) ∧ t.urz.sessions.get i {} = { u.urz.sessions.get i {} with lastAt := s.time.cycles } ∧ t.urz.counters.get 4 0 = s.urz.counters.get 4 0 + 1 ∧ t.urz.counters.get 0 0 = s.urz.counters.get 0 0 ∧ t.ctl = s.ctl) ∧
  (∀ (p : PD) (d key : Octets) (i : Nat) (u s : State), Quiet s → urzFront [3] s = some (p, d, u) → partKey u = some key → urzSlotOf u (urzNumber (urzBody u d)) = some i →
    urzSeq (urzBody u d) ≠ (u.urz.sessions.get i {}).highest + 1 → (urzSeq (urzBody u d) ≠ (u.urz.sessions.get i {}).highest ∨ urzTag (urzBody u d) ≠ (u.urz.sessions.get i {}).lastMac) →
    exec .urzidunRequest s = .next (controlCheckpoint { u with urz := { u.urz with counters := u.urz.counters.bump 3 1 } }) ∧ u.urz.sessions = s.urz.sessions) ∧
  (∀ (p : PD) (d key : Octets) (i : Nat) (u s : State), Quiet s → s.urz.sessions.Rising → urzFront [5] s = some (p, d, u) → partKey u = some key → urzSlotOf u (urzNumber (urzBody u d)) = some i →
    ∃ t, exec .urzidunClose s = .next (controlCheckpoint t) ∧ t.urz.sessions.get i {} = {} ∧ t.urz.counters.get 1 0 = s.urz.counters.get 1 0 + 1 ∧ t.urz.accepted = u.urz.accepted) ∧
  (∀ (i : Fin 64) (s : State), Quiet s → s.urz.sessions.Rising → (s.urz.sessions.get i {}).isOpen = true →
    ∃ t, exec (.urzidunSessionTimeout i) s = .next (controlCheckpoint t) ∧ t.urz.sessions.get i {} = {} ∧ (s.urz.sessions.get i {}).lastAt + 300 * secCycles ≤ t.time.cycles ∧ ∀ j, j ≠ i.val → t.urz.sessions.get j {} = s.urz.sessions.get j {}) ∧
  (∀ (i : Fin 64) (s : State), Quiet s → (s.urz.sessions.get i {}).isOpen = false → exec (.urzidunSessionTimeout i) s = .next (controlCheckpoint s))

/-- O45. Heartbeats sent and heard, and a peer that falls silent.
A ready part with PD77 on, a domain key, an identifier and heartbeats enabled in the port-direction sends a message of type 6 to every part, of one
hop, under the next heartbeat sequence, with its port and its log sequence, once the instant is come at which the next heartbeat of the port-direction
is due, and the one after it is due 1 s later. A heard heartbeat of 24 octets whose time agrees makes its port-direction's peer present with its
identifier at this cycle; one whose time does not agree leaves the peers as they were. A present peer is absent once 3.5 s have passed since it was
heard; one that is not present stays so. Model conventions in it, not rules of the spec: assumption log 54.
Rules: R454, R461. -/
def Obligations.HeartbeatsTellOfPeers : Prop :=
  (∀ (p : PD) (key : Octets) (u s : State), u = waitCycle (s.urz.beatDue.get p.key 0) s → domainKey s = some key → s.power.start = .ready → s.domOn 77 = true → domainPartId s ≠ 0xFFFF → bitAt (s.odNat 0x1011 (p.port + 1)) 2 = true →
    ∃ m, exec (.heartbeatSend p) s = .next (urzSend p (urzFrame (padTo 6 (s.od 0x1010 5)) (portMac s p.port) [] m) 0xFFFF { u with urz := { s.urz with beatSeq := s.urz.beatSeq + 1, beatDue := s.urz.beatDue.put p.key (u.time.cycles + secCycles) } }) ∧
      s.urz.beatDue.get p.key 0 ≤ u.time.cycles ∧
      octet m 0 = 0x16 ∧ octet m 1 = 1 ∧ beAt m 4 2 = 0xFFFF ∧ beAt m 6 2 = domainPartId s % 2 ^ 16 ∧ beAt m 12 8 = (s.urz.beatSeq + 1) % 2 ^ 64 ∧ beAt m 20 2 = 24 ∧ beAt m 36 2 = p.port.val ∧ beAt m 40 8 = s.rest.headSeq % 2 ^ 64 ∧
      urzTag m = urzMac key [] [] (m.take 48)) ∧
  (∀ (p : PD) (d : Octets) (u s : State), urzFront [6] s = some (p, d, u) → (urzPayload (urzBody u d)).length = 24 → beatTimeOk (urzPayload (urzBody u d)) u = true →
    ∃ t, exec .heartbeatReceived s = .next t ∧ t.urz.peers.get p.key {} = { present := true, partId := beAt (urzBody u d) 6 2, lastAt := s.time.cycles } ∧ (∀ k, k ≠ p.key → t.urz.peers.get k {} = s.urz.peers.get k {}) ∧ t.urz.accepted = u.urz.accepted) ∧
  (∀ (p : PD) (d : Octets) (u s : State), urzFront [6] s = some (p, d, u) → beatTimeOk (urzPayload (urzBody u d)) u = false → ∃ t, exec .heartbeatReceived s = .next t ∧ t.urz.peers = s.urz.peers ∧ t.urz.accepted = u.urz.accepted) ∧
  (∀ (p : PD) (s : State), (s.urz.peers.get p.key {}).present = true →
    ∃ t, exec (.peerAbsentTimeout p) s = .next t ∧ t.urz.peers.get p.key {} = { s.urz.peers.get p.key {} with present := false } ∧ (s.urz.peers.get p.key {}).lastAt + 7 * secCycles / 2 ≤ t.time.cycles) ∧
  (∀ (p : PD) (s : State), (s.urz.peers.get p.key {}).present = false → exec (.peerAbsentTimeout p) s = .next s)

/-- O46. Controller faults, the start of the Standby, and diagnoses.
With nothing waiting, a fault of the Active controller, shown or by 5 us without a progress mark, isolates it and powers it off, and a Standby partner
starts; a fault of a Starting controller leaves it Diagnosing and powered off. A start that ends well, with the controller's checkpoint passing its
check, makes the controller Active, counts a fail-over and powers its domain; a start that ends otherwise leaves it Diagnosing. A diagnosis that
passes clears the failures and makes the controller Standby, or Active where no controller runs or starts; one that fails counts, and the third
failure in a row retires it. Model conventions in it, not rules of the spec: assumption log 35, 48, 60, 110.
Rules: R464. -/
def Obligations.ControllersFailOver : Prop :=
  (∀ (b : Bool) (s : State), Idle s → ctlIn s .active = some b → ctlIn s .starting = none → ctlOf s (!b) = .standby → ∀ c, c = .controllerFault ∨ c = .progressMarkTimeout →
    ∃ t, exec c s = .next t ∧ ctlOf t b = .isolated ∧ ctlOf t (!b) = .starting ∧ (t.domain (68 + bit b)).state = 0 ∧ (t.domain (68 + bit (!b))).state = 2 ∧ t.ctl.faultAt = s.time.cycles) ∧
  (∀ (b : Bool) (s : State), Idle s → ctlIn s .active = some b → ctlIn s .starting = none → ctlOf s (!b) ≠ .standby → ∀ c, c = .controllerFault ∨ c = .progressMarkTimeout →
    ∃ t, exec c s = .next t ∧ ctlOf t b = .isolated ∧ ctlOf t (!b) = ctlOf s (!b) ∧ (t.domain (68 + bit b)).state = 0) ∧
  (∀ (b : Bool) (s : State), Idle s → ctlIn s .starting = some b → ∃ t, exec .controllerFault s = .next t ∧ ctlOf t b = .diagnosing ∧ (t.domain (68 + bit b)).state = 0) ∧
  (∀ (b : Bool) (s : State), Idle s → ctlIn s .starting = some b → (controlLoad s).1 = true →
    ∃ t, exec (.controllerStartComplete true) s = .next t ∧ ctlOf t b = .active ∧ t.ctl.failovers = s.ctl.failovers + 1 ∧ (t.domain (68 + bit b)).state = 1 ∧ (ctlOf s (!b) = .isolated → ctlOf t (!b) = .diagnosing)) ∧
  (∀ (b ok : Bool) (s : State), Idle s → ctlIn s .starting = some b → (ok && (controlLoad s).1) = false → ∃ t, exec (.controllerStartComplete ok) s = .next t ∧ ctlOf t b = .diagnosing ∧ (t.domain (68 + bit b)).state = 0) ∧
  (∀ (b : Bool) (s : State), Idle s → ctlOf s b = .isolated ∨ ctlOf s b = .diagnosing → s.controlUp = true ∨ (ctlIn s .starting).isSome = true →
    ∃ t, exec (.controllerDiagnosisComplete b true) s = .next t ∧ ctlOf t b = .standby ∧ (if b then t.ctl.failB else t.ctl.failA) = 0 ∧ ctlOf t (!b) = ctlOf s (!b)) ∧
  (∀ (b : Bool) (s : State), Idle s → ctlOf s b = .isolated ∨ ctlOf s b = .diagnosing → s.controlUp = false → (ctlIn s .starting).isSome = false →
    ∃ t, exec (.controllerDiagnosisComplete b true) s = .next t ∧ ctlOf t b = .active ∧ (if b then t.ctl.failB else t.ctl.failA) = 0) ∧
  (∀ (b : Bool) (s : State), Idle s → ctlOf s b = .isolated ∨ ctlOf s b = .diagnosing →
    ∃ t, exec (.controllerDiagnosisComplete b false) s = .next t ∧ (if b then t.ctl.failB else t.ctl.failA) = (if b then s.ctl.failB else s.ctl.failA) + 1 ∧
      ctlOf t b = (if 3 ≤ (if b then s.ctl.failB else s.ctl.failA) + 1 then .retired else .diagnosing))

/-- O47. Power good, resets, and the loss of supplies.
Power good with RESET_N deasserted moves the tool rest to the main supply and starts Init with the reference at this cycle; with the pin ZEROIZE_N
deasserted the frame path, the OTN side but for its performance bins, classification and memory protection start from their reset values. SRAM found
lost leaves no BBK, no valid seconds counter, and sensor 8 in alarm. RESET_N's deassertion starts the part where power is good. A fall of power good
leaves the part Off on VBAT, an assertion of RESET_N leaves it Off with cause 1, a core supply's loss leaves it Off, and a cold reset whose delay has
passed leaves it Off with RESET_N held for 1 ms; the MRAM state, the log, the lock sequence and the counters stay, and of the keys nothing but that a
slot is Bad. THERMTRIP asserts on main power. Each does nothing where what it reports has already happened. Model conventions in it, not rules of the
spec: assumption log 56, 57, 58, 90, 121.
Rules: R226, R393, R395, R408, R483, R489, R490, R515. -/
def Obligations.ThePartPowersUpAndDown : Prop :=
  (∀ s : State, s.power.pwrgood = false → s.power.resetN = false →
    ∃ t, exec (.powerGoodAsserted false true) s = .next t ∧ t.power.pwrgood = true ∧ t.power.start = .init ∧ t.power.ref = s.time.cycles ∧ t.rest.onVbat = false ∧ (s.rest.seconds = t.rest.seconds) ∧
      (s.power.zeroizeN = false → t.path = {} ∧ ({ t.otn with pm := [] } : Otn) = {} ∧ t.cls = {} ∧ t.mpu = {} ∧ t.rest.bbk = s.rest.bbk)) ∧
  (∀ s : State, s.power.pwrgood = false → s.power.resetN = true → s.rest.zeroizing = false →
    ∃ t, exec (.powerGoodAsserted false false) s = .next t ∧ t.power = { s.power with pwrgood := true } ∧ t.rest.onVbat = false ∧ t.rest.bbk = none ∧ t.rest.secValid = false ∧ (t.sensor 8).alarm = true ∧ (∃ c l, t.rest.window = some (c, l) ∧ 8 ∈ l)) ∧
  (∀ (i : Bool) (s : State), s.power.resetN = true → s.power.pwrgood = true →
    ∃ t, exec (.powerGoodAsserted true i) s = .next t ∧ t.power.resetN = false ∧ t.power.start = .init ∧ t.power.ref = t.time.cycles ∧ (∀ c, s.power.coldAt = some c → c ≤ t.time.cycles)) ∧
  (∀ (i : Bool) (s : State), (s.power.resetN = false → exec (.powerGoodAsserted true i) s = .next s) ∧ (s.power.pwrgood = true → exec (.powerGoodAsserted false i) s = .next s)) ∧
  (∀ s : State, s.power.pwrgood = true →
    ∃ t, exec (.resetAsserted true) s = .next t ∧ t.power.pwrgood = false ∧ t.power.start = .off ∧ t.rest.onVbat = true ∧ (∀ n, 8 ≤ n → t.sensor n = {}) ∧ (∀ n < 8, t.sensor n = s.sensor n) ∧
      t.rest.state = s.rest.state ∧ t.rest.ring = s.rest.ring ∧ t.rest.lockSeq = s.rest.lockSeq ∧ t.rest.monotonic = s.rest.monotonic ∧ t.path = {} ∧ t.mpu = {} ∧ ({ t.keys with data := [], kek := [] } : Keys) = {} ∧ (∀ n, t.slot n ≠ {} → t.slot n = { state := .bad }) ∧
      ((∀ q ∈ s.keys.data ++ s.keys.kek, q.2.state ≠ .bad) → t.keys = {})) ∧
  (∀ s : State, s.power.resetN = false → s.power.pwrgood = true →
    ∃ t, exec (.resetAsserted false) s = .next t ∧ t.power.resetN = true ∧ t.power.start = .off ∧ t.power.lastCause = 1 ∧ t.rest.onVbat = s.rest.onVbat ∧
      t.rest.state = s.rest.state ∧ t.rest.ring = s.rest.ring ∧ t.rest.lockSeq = s.rest.lockSeq ∧ t.rest.monotonic = s.rest.monotonic ∧ t.path = {} ∧ t.mpu = {} ∧ ({ t.keys with data := [], kek := [] } : Keys) = {} ∧ (∀ n, t.slot n ≠ {} → t.slot n = { state := .bad }) ∧
      ((∀ q ∈ s.keys.data ++ s.keys.kek, q.2.state ≠ .bad) → t.keys = {})) ∧
  (∀ s : State, (s.power.pwrgood = false → exec (.resetAsserted true) s = .next s) ∧ (s.power.resetN = true → exec (.resetAsserted false) s = .next s)) ∧
  (∀ s : State, s.power.pwrgood = true → s.power.start ≠ .off →
    ∃ t, exec .coreSupplyUnderVoltage s = .next t ∧ t.power.pwrgood = true ∧ t.power.start = .off ∧ t.rest.state = s.rest.state ∧ t.rest.ring = s.rest.ring ∧ t.path = {} ∧ t.mpu = {} ∧ ({ t.keys with data := [], kek := [] } : Keys) = {} ∧ (∀ n, t.slot n ≠ {} → t.slot n = { state := .bad }) ∧
      ((∀ q ∈ s.keys.data ++ s.keys.kek, q.2.state ≠ .bad) → t.keys = {})) ∧
  (∀ s : State, s.power.pwrgood = false ∨ s.power.start = .off → exec .coreSupplyUnderVoltage s = .next s) ∧
  (∀ (c : Nat) (s : State), s.power.coldAt = some c → s.power.start ≠ .off →
    ∃ t, exec .coldResetDelayExpiry s = .next t ∧ c ≤ t.time.cycles ∧ t.power.start = .off ∧ t.power.resetN = true ∧ t.power.lastCause = 2 ∧ t.power.coldAt = some (t.time.cycles + cyclesUs 1000) ∧ t.rest.ring = s.rest.ring) ∧
  (∀ s : State, s.power.coldAt = none ∨ s.power.start = .off → exec .coldResetDelayExpiry s = .next s) ∧
  (∀ s : State, exec .thermtripAssert s = .next (if s.power.pwrgood then { s with power := { s.power with thermtrip := true } } else s))

/-- O48. Init, training, the generator, the wait for random data, and the restore.
An Init that succeeds leads to Training with the link up, ring 0 running, the domains it names on and the sources started; one that fails halts the
part. A stack that trains is remembered; its first failure leads to a second attempt and its second leaves the part without memory. Once both
expanders can be instantiated the generator delivers, at most 24 spindles work, and a spindle that fails its test, and is not retired, is Diagnosing.
Where the generator is not ready 200 ms after the reference the part waits for it. Restoring with the memory keys drawn leads to Ready: without an
image the status says so, with one its save count is taken over. Model conventions in it, not rules of the spec: assumption log 61, 62, 63, 122.
Rules: R212, R386, R438, R485, R488. -/
def Obligations.StartUpReachesReady : Prop :=
  (∀ s : State, s.power.start = .init → ∃ t, exec (.initComplete true) s = .next t ∧ t.power.start = .training ∧ t.power.attempts = 1 ∧ t.power.pcieUp = true ∧ (t.ring 0).state = 1 ∧ (∀ d ∈ initDomains, (t.domain d).state = 1) ∧
    (∀ k < 8, (s.rng.source k).state = .off → (t.rng.source k).state = .starting) ∧ (∀ b, ctlIn s .active = some b → (t.domain (68 + bit b)).state = 1)) ∧
  (∀ s : State, s.power.start = .init → exec (.initComplete false) s = .next { s with power := { s.power with start := .halted } }) ∧
  (∀ (ok : Bool) (s : State), s.power.start ≠ .init → exec (.initComplete ok) s = .next s) ∧
  (∀ (k : Fin 2) (s : State), Idle s → inTraining s = true → s.power.trained.contains k.val = false →
    ∃ t, exec (.hbmTrainingComplete k true) s = .next t ∧ t.power.trained = k.val :: s.power.trained ∧ (s.power.trained.length = 1 → s.rng.started = true → s.rest.bbk ≠ none → t.power.start = .restoring ∧ t.mpu.keys = []) ∧
      (s.power.trained.length ≠ 1 ∨ s.rng.started = false ∨ s.rest.bbk = none → t.power.start = s.power.start)) ∧
  (∀ (k : Fin 2) (s : State), Idle s → inTraining s = true → s.power.trained.contains k.val = false →
    ∃ t, exec (.hbmTrainingComplete k false) s = .next t ∧ t.power.trained = s.power.trained ∧
      (if s.power.failedOnce.contains k.val then t.power.start = .memFailed else t.power.start = s.power.start ∧ t.power.failedOnce = k.val :: s.power.failedOnce ∧ t.power.attempts = 2)) ∧
  (∀ (kat : List KatRun) (d0 d1 : Drbg) (s : State), inTraining s = true → s.rng.started = false → (Rng.seedHalf 1 (Rng.seedHalf 0 s.rng)).exp0 = some d0 → (Rng.seedHalf 1 (Rng.seedHalf 0 s.rng)).exp1 = some d1 →
    ∃ t, exec (.generatorReady kat) s = .next t ∧ t.rng.started = true ∧ t.rng.reseedAt = s.time.cycles ∧ ((List.range 28).filter (fun i => (t.spindle i).role == .working && (s.spindle i).role != .retired)).length ≤ 24 ∧
      (∀ i < 28, (s.spindle i).role = .retired → (t.spindle i).role = .retired) ∧ (∀ i < 28, (s.spindle i).role ≠ .retired → katPasses (kat.getD i {}) = false → (t.spindle i).role = .diagnosing)) ∧
  (∀ s : State, Idle s → s.power.start = .training → s.rng.started = false →
    ∃ t, exec .randomWaitTimeout s = .next t ∧ t.power.start = .waitRandom ∧ s.power.ref + cyclesUs 200000 ≤ t.time.cycles ∧ t.reachable = true) ∧
  (∀ s : State, Quiet s → s.power.start ≠ .training ∨ s.rng.started = true → exec .randomWaitTimeout s = .next (controlCheckpoint s)) ∧
  (∀ s : State, Idle s → s.power.start = .restoring → mpuReady s = true →
    ∃ t, exec .imageRestore s = .next t ∧ t.power.start = .ready ∧ t.reachable = true ∧ (newestImage s = none → t.ctl.imageStatus.testBit 1 = true) ∧ ∀ i n v, newestImage s = some (i, n, v) → t.ctl.saveCount = BitVec.ofNat 64 n)

/-- O49. The ends of drains, of domain restarts and of a service reset.
A drain whose ports hold nothing more, and the oldest drain 5 ms after it began, ends: where it was for domains, its port-directions hold no frame in
their buffers and launch lists, and its domains that have not been switched off are in reset with its cause; where it was for a service reset, the
part restarts; after 5 ms what was left is counted. With no such drain nothing happens. The end of a restart puts its domain on; a cluster leaves the
reset clusters, and a chuck's mirror is rebuilt. The end of a service reset, once the chucks have restarted and the controllers have failed over, puts
every restarting domain on, ends the service reset, and opens every port that no drain holds. Model conventions in it, not rules of the spec:
assumption log 34, 35, 58.
Rules: R225, R370, R491, R492. -/
def Obligations.DrainsAndRestartsEnd : Prop :=
  (∀ (dr : Drain) (s : State), s.power.drains.find? (fun dr => drainLeft s dr == 0) = some dr →
    ∃ t, exec .drainComplete s = .next t ∧ t.power.drains = s.power.drains.erase dr ∧ (dr.domains ≠ [] → ∀ p ∈ pdsOf dr.ports, (t.pd p).buffer = [] ∧ (t.pd p).launchList = [] ∧ (t.pd p).lateList = []) ∧
      (if dr.domains = [] then t.power.service = .resetting else ∀ d ∈ dr.domains, (s.domain d).state ≠ 0 → (t.domain d).state = 3 ∧ (t.domain d).cause = dr.cause)) ∧
  (∀ s : State, s.power.drains.find? (fun dr => drainLeft s dr == 0) = none → exec .drainComplete s = .next s) ∧
  (∀ (dr : Drain) (l : List Drain) (s : State), s.power.drains = dr :: l →
    ∃ t, exec .drainTimeout s = .next t ∧ t.power.drains = l ∧ dr.at_ + cyclesUs 5000 ≤ t.time.cycles ∧ t.power.resetCounts.get 4 0 = s.power.resetCounts.get 4 0 + BitVec.ofNat 64 (drainLeft s dr) ∧
      (dr.domains ≠ [] → ∀ p ∈ pdsOf dr.ports, (t.pd p).buffer = [] ∧ (t.pd p).launchList = [] ∧ (t.pd p).lateList = []) ∧
      (if dr.domains = [] then t.power.service = .resetting else ∀ d ∈ dr.domains, (s.domain d).state ≠ 0 → (t.domain d).state = 3 ∧ (t.domain d).cause = dr.cause)) ∧
  (∀ s : State, s.power.drains = [] → exec .drainTimeout s = .next s) ∧
  (∀ (d : Fin 80) (s : State), (s.domain d).state = 3 →
    ∃ t, exec (.domainRestartComplete d) s = .next t ∧ (t.domain d).state = 1 ∧ (∀ j, j ≠ d.val → t.domain j = s.domain j) ∧ (44 ≤ d.val ∧ d.val < 52 → t.cls.resetClusters = s.cls.resetClusters.erase (d - 44)) ∧
      (d = 66 → t.keys.rebuilding = 1) ∧ (d = 67 → t.keys.rebuilding = 2) ∧ (d ≠ 66 → d ≠ 67 → t.keys = s.keys)) ∧
  (∀ (d : Fin 80) (s : State), (s.domain d).state ≠ 3 → exec (.domainRestartComplete d) s = .next (portsOpen s)) ∧
  (∀ s : State, Idle s → s.power.service = .resetting → s.power.serviceStep = 3 → ctlIn s .starting = none →
    ∃ t, exec .serviceResetComplete s = .next t ∧ t.power.service = .none ∧ t.cls.resetClusters = [] ∧ (∀ d < 80, (t.domain d).state = (if (s.domain d).state = 3 then 1 else (s.domain d).state)) ∧
      ∀ p : PD, draining s p.port = false → (t.pd p).closed = false) ∧
  (∀ s : State, Quiet s → s.power.service ≠ .resetting ∨ s.power.serviceStep ≠ 3 ∨ ctlIn s .starting ≠ none → exec .serviceResetComplete s = .next (controlCheckpoint s))

/-- O50. A step takes the command at the front of the queue and runs it; an idle part lets one cycle pass.
With the command c at the front of the queue, a step is exec of c on the same state with the queue's rest. On an empty queue a step is one edge-clock
cycle (the model's choice, assumption log 2). Model conventions in it, not rules of the spec: assumption log 2, 17.
Rules: 12_parameter_dictionary_and_host.md. -/
def Obligations.StepRunsTheCommand : Prop :=
  (∀ (c : Instr) (l : List Instr) (s : State), s.pending = c :: l → step s = exec c { s with pending := l }) ∧
  (∀ s : State, s.pending = [] → step s = .next { s with time := s.time.run 1 })

/-- O51. The table gives its rows no bits, so no word spells a command.
For every number of bits and every word the decoder answers no command, and placing a word in front of the queue leaves the state as it is.
Rules: opcode_table.json. -/
def Obligations.NoWordSpellsACommand : Prop :=
  ∀ (n w : Nat) (s : State), decodeTableWord n w = none ∧ s.withFetchWord n w = s

/-- O52. What the state after reset holds where the spec gives it.
After reset the part is Off and its queue is empty; no frame is retained; every ring is disabled; every key slot is Free and no association is Valid;
every noise source is Off; the tamper state is Normal and not Locked; every monotonic counter and every major register is 0; nothing is staged, the
dictionary is not reachable, and its generation is 1. Model conventions in it, not rules of the spec: assumption log 6.
Rules: R255, R355, R378, R403, R422, R431, R484, R485. -/
def Obligations.ResetLeavesThePartOff : Prop :=
  State.reset.power.start = .off ∧ State.reset.pending = [] ∧ State.reset.path.frames = [] ∧ (∀ r, (State.reset.ring r).state = 0) ∧ (∀ n, (State.reset.slot n).state = .free) ∧ (∀ q ∈ State.reset.keys.sa, q.2.valid = false) ∧
  (∀ k, (State.reset.rng.source k).state = .off) ∧ State.reset.rest.state = .normal ∧ State.reset.locked = false ∧ (∀ n, State.reset.rest.monotonic.get n 0 = 0) ∧ (∀ n, State.reset.mpu.majors.get n 0 = 0) ∧
  (∀ k, (State.reset.session k).staged = []) ∧ State.reset.reachable = false ∧ State.reset.ctl.generation = 1

/-- O53. Every command, in every state, is answered by a next state that keeps the queue.
For every command and every state exec answers a next state, with no fault and no refusal, whose queue is the queue it was given; a step therefore
always answers a next state, and takes exactly the front of the queue. Model conventions in it, not rules of the spec: assumption log 1.
Rules: 12_parameter_dictionary_and_host.md. -/
def Obligations.EveryCommandIsAnswered : Prop :=
  (∀ (c : Instr) (s : State), ∃ t, exec c s = .next t ∧ t.pending = s.pending) ∧ (∀ s : State, ∃ t, step s = .next t ∧ t.pending = s.pending.tail)

/-- O54. Every command leaves alone every part of the state that is not among those it can change.
For every command, a table names the parts of the state that it can change. Where exec answers a next state, every other part is as it was: the time
unit, power, the control plane, the host interface, the Urzidun channel, the generator, the tool rest, the keys, the classifier, the fabric, the frame
path, the OTN side, the protected memory with every byte of the HBM, what has left the part, the counter of open values, and the queue. Model
conventions in it, not rules of the spec: assumption log 1.
Rules: R27, R226, R308, R371, R393, R447. -/
def Obligations.CommandsKeepWhatIsNotTheirs : Prop :=
  ∀ (c : Instr) (s t : State), exec c s = .next t → ∀ k, k ∉ changes c → Component.same s t k

/-- O55. A committed command leaves every other entry of the dictionary and every other session as it was.
For each of the twenty commands that commit one command entry and nothing else: taken up at once and passing its checks, it ends with result 0 and the
next generation, and leaves the applied value of every other entry, every other session, the images and the controllers as they were. Model
conventions in it, not rules of the spec: assumption log 3.
Rules: R429, R430, R431. -/
def Obligations.SingleCommitsLeaveOtherEntries : Prop :=
  ∀ (c : Instr) (k : Fin 128) (idx sub : Nat) (v : Octets) (s : State), single c = some (k, idx, sub, v) → Commits k idx sub v .agree s →
    ∃ t, exec c s = .next t ∧ Committed k s t ∧ (∀ key, key ≠ odKey idx sub → t.ctl.dict.find key = s.ctl.dict.find key) ∧ (∀ j, j ≠ k.val → t.session j = s.session j) ∧
      t.ctl.images = s.ctl.images ∧ t.ctl.ctlA = s.ctl.ctlA ∧ t.ctl.ctlB = s.ctl.ctlB

/-- O56. Every step keeps the HBM in its canonical form.
For every state whose memory lists its addresses strictly rising, a step that answers a next state leaves such a memory. Two equal memories are then
equal data. Model conventions in it, not rules of the spec: assumption log 7.
Rules: R342, R344. -/
def Obligations.StoredMemoryKeepsItsForm : Prop :=
  ∀ s t : State, Memory.wf s.mpu.hbm = true → step s = .next t → Memory.wf t.mpu.hbm = true

/-- O57. The HBM after reset has its canonical form.
The memory of the state after reset lists no byte and is in its canonical form. Model conventions in it, not rules of the spec: assumption log 7.
Rules: R342, R344. -/
def Obligations.ResetMemoryHasItsForm : Prop := State.reset.mpu.hbm = [] ∧ Memory.wf State.reset.mpu.hbm = true

/-- O58. The stamp of a log entry.
An entry written is the last of the ring. On main power with the time unit Set its seconds and nanoseconds are the time unit's and its flag [1] is set
and [0] clear. Otherwise its seconds are the 40-bit tool-rest counter's value, its nanoseconds the crystal count within the second times
30,517.578125, rounded down, and its flag [0] is set and [1] clear.
Rules: R415. -/
def Obligations.LogEntriesAreStamped : Prop :=
  ∀ (type source : Nat) (detail : Octets) (s : State), s.unexported < logLimit s →
    ∃ e, (logForce type source detail s).rest.ring = s.rest.ring ++ [e] ∧
      (s.rest.onVbat = false ∧ s.time.isSet = true → beAt e.data 8 6 = s.time.secs % 2 ^ 48 ∧ beAt e.data 14 4 = s.time.ns % 10 ^ 9 ∧ bitAt (octet e.data 18) 1 = true ∧ bitAt (octet e.data 18) 0 = false) ∧
      (¬ (s.rest.onVbat = false ∧ s.time.isSet = true) → s.rest.crystal < 32768 → beAt e.data 8 6 = s.rest.seconds.toNat ∧ beAt e.data 14 4 = s.rest.crystal * 30517578125 / 1000000 ∧ bitAt (octet e.data 18) 0 = true ∧ bitAt (octet e.data 18) 1 = false)

/-- O59. The layout of counter lines and tree nodes.
A split counter's 64 octets, read with the first octet most significant, hold its major counter at [511:448] and the minor of child i at [447 - 7i :
441 - 7i]; reading the octets back gives the major counter and every minor.
Rules: R352. -/
def Obligations.SplitCountersAreLaidOut : Prop :=
  ∀ c : Split, (∀ i < 64, c.minor i < 128) → c.octets.length = 64 ∧ beNat c.octets / 2 ^ 448 = c.major.toNat ∧ (∀ i < 64, beNat c.octets / 2 ^ (441 - 7 * i) % 2 ^ 7 = c.minor i) ∧
    (Split.ofOctets c.octets).major = c.major ∧ ∀ i < 64, (Split.ofOctets c.octets).minor i = c.minor i

/-- O60. A read of the current time returns the time unit's value.
With nothing waiting and no live snapshot of it, a read of OD 0x4000.01 is answered with code 0 and twelve octets that spell, as a TIME96, the time
unit's value at this instant with all 16 bits of the fraction.
Rules: R309. -/
def Obligations.TheCurrentTimeIsRead : Prop :=
  ∀ (ses : Fin 128) (s : State), Quiet s → sessionOpen s ses = true → snapshotOf s ses (odKey 0x4000 1) = none → s.time.now < 2 ^ 48 * 10 ^ 9 * 2 ^ 16 →
    ∃ t x, exec (.sinceLastReadStatusRead ses 0x4000 1) s = .next (controlCheckpoint t) ∧ t.out = .response ses x :: s.out ∧ responseCode x = 0 ∧ leAt x 16 2 = 12 ∧ time96Of (slice x 24 12) = s.time.now ∧
      leAt x 24 2 = s.time.now % 2 ^ 16 ∧ ({ t with out := s.out } : State) = s
end

