-- ==== Sys2Proof/Laws/Commit.lean ====
section
/-! SUPPORT. What a commit of one entry comes to where nothing of the dictionary waits: the state that its application leaves (R431), and
settling, which then only follows PD75. -/
namespace Sys2Proof.Machine

/-- A fold of changes that each leave the state leaves it. -/
theorem foldl_same {α : Type} (f : State → α → State) (l : List α) (s : State) (h : ∀ a ∈ l, f s a = s) : l.foldl f s = s := by
  induction l with
  | nil => rfl
  | cons a l ih => rw [List.foldl_cons, h a (by simp)]; exact ih (fun b hb => h b (by simp [hb]))

theorem ringsServe_idle {s : State} (h : ∀ r < 64, (s.ring r).posted = []) : ringsServe s = s := by
  unfold ringsServe
  refine foldl_same _ _ s (fun r hr => ?_)
  rw [h r (by simpa using hr)]; rfl

/-- Where nothing of the dictionary waits, and a controller serves or transactions would wait, serving it only follows PD75. -/
theorem dictServe_idle {s : State} (h : Idle s) (hc : s.reachable = false ∨ controlWaits s = true ∨ s.controlUp = true) : dictServe s = pcieSettle s := by
  obtain ⟨h1, h2, h3, h4, h5, h6⟩ := h
  have hr : resume s = s := by
    unfold resume
    rcases hc with hc | hc | hc
    · simp [hc]
    · simp [hc]
    · simp [hc, h2, h3, h4, serveQueue]
  unfold dictServe
  rw [hr]
  simp only [h3, h5, List.length_nil]
  rw [show serveFinished (0 + 0 + 1) s = s by simp [serveFinished, h5]]
  exact congrArg pcieSettle (ringsServe_idle h6)

theorem dictServe_quiet {s : State} (h : Quiet s) : dictServe s = s := by
  obtain ⟨h1, h2, h3, h4⟩ := h
  rw [dictServe_idle h4 (Or.inr (Or.inr (by revert h2; unfold controlServes; simp; tauto))), h3]

/-- In a quiet state settling only brings the controller's checkpoint up to date. -/
theorem dictSettle_quiet {s : State} (h : Quiet s) : dictSettle s = controlCheckpoint s := by
  unfold dictSettle; rw [dictServe_quiet h]

theorem takeUp_now {j : Job} {s : State} (h : classifies j.staged = false) : takeUp j s = ((some (endCommit j [] none s).1), (endCommit j [] none s).2) := by
  unfold takeUp; simp [h]

theorem commitArrive_now {j : Job} {s : State} (h1 : s.ctl.job = none) (h2 : s.ctl.queue = []) (h3 : controlServes s = true) : commitArrive j s = takeUp j s := by
  have h : controlWaits s = false ∧ s.controlUp = true := by revert h3; unfold controlServes; simp; tauto
  unfold commitArrive commitBusy
  simp [h1, h2, h.1, h.2]

theorem runCommit_passes {k : Nat} {st : Tab Octets} {ck : ChuckRun} {s : State} (h : firstFailure (checkCommit k st ck [] s).fails = none) (hc : classifies st = false) :
    runCommit k st ck [] none s = (0, applyCommit s st (checkCommit k st ck [] s) none) := by
  unfold runCommit
  simp only [h]
  simp only [classResult, hc, Bool.not_false, if_true]

theorem endCommit_any {j : Job} {extra : List (Nat × Nat)} {cut : Option (Cut × Tab (BitVec 512))} {s : State} (h : j.expected = 0) :
    endCommit j extra cut s = ((runCommit j.session j.staged j.chucks extra cut s).1, setLast j.session (runCommit j.session j.staged j.chucks extra cut s).1 (runCommit j.session j.staged j.chucks extra cut s).2) := by
  unfold endCommit; simp only [h, ne_eq, not_true_eq_false, false_and, if_false]

/-- A commit of one entry that is taken up and passes its checks leaves what its application leaves. -/
theorem commitSingle_commits {k idx sub : Nat} {v : Octets} {ck : ChuckRun} {s : State} (h : Commits k idx sub v ck s) (hc : classifies [(odKey idx sub, v)] = false) :
    commitSingle k idx sub v ck s = dictSettle (setLast k 0 (applyCommit (updSession k (fun x => x) s) [(odKey idx sub, v)] (checkCommit k [(odKey idx sub, v)] ck [] (updSession k (fun x => x) s)) none)) := by
  obtain ⟨⟨h1, h2, h3, h4, h5, h6, h7, h8, h9⟩, ho, hf, hp⟩ := h
  unfold Fits at hf; unfold Passes at hp
  cases he : entryAt idx sub with
  | none => rw [he] at hf; simp at hf
  | some e =>
    rw [he] at hf; simp only [Option.any_some] at hf
    have hg : (!s.reachable || !sessionOpen s k || (if concatenated idx sub then decide (e.ty.size < v.length) else !e.ty.fits v)) = false := by
      rw [h1, ho]; simp only [Bool.not_true, Bool.or_self, Bool.false_or]
      split at hf <;> simp_all
    unfold commitSingle; simp only [he, hg, Bool.false_eq_true, if_false]
    rw [commitArrive_now (s := updSession k (fun x => x) s) h4 h5 h2, takeUp_now hc, endCommit_any rfl]
    have := runCommit_passes hp hc
    simp only [jobOf]
    rw [this]

end Sys2Proof.Machine
end

