-- ==== Sys2Proof/Laws/KeepTick.lean ====
section
/-! SUPPORT. What the operations and meanings of Machine/Tick.lean leave alone: `f_keep` says that whatever is read from
the state without looking at the components `f` may change is the same after `f`. -/
set_option linter.all false
namespace Sys2Proof.Machine

theorem keep {α β : Type} {P : State → β} {g : State → α → State} {l : List α} {s : State} (h : ∀ s x, P (g s x) = P s) : P (l.foldl g s) = P s := by
  induction l generalizing s with
  | nil => rfl
  | cons a l ih => rw [List.foldl_cons, ih, h]
theorem keep2 {α β γ : Type} {P : State → β} {g : γ × State → α → γ × State} {l : List α} {p : γ × State} (h : ∀ p x, P (g p x).2 = P p.2) : P (l.foldl g p).2 = P p.2 := by
  induction l generalizing p with
  | nil => rfl
  | cons a l ih => rw [List.foldl_cons, ih, h]

theorem tick_keep {β : Type} (P : State → β) (hP : ∀ s x0, P { s with time := x0 } = P s) (s : State) : P (tick s) = P s := by
  unfold tick; (repeat' split) <;> simp only [hP]
/-- What `tick` leaves alone. -/
@[simp] theorem tick_frame (s : State) : (tick s).power = s.power ∧ (tick s).ctl = s.ctl ∧ (tick s).host = s.host ∧ (tick s).urz = s.urz ∧ (tick s).rng = s.rng ∧ (tick s).rest = s.rest ∧ (tick s).keys = s.keys ∧ (tick s).cls = s.cls ∧ (tick s).fab = s.fab ∧ (tick s).path = s.path ∧ (tick s).otn = s.otn ∧ (tick s).mpu = s.mpu ∧ (tick s).out = s.out ∧ (tick s).free = s.free ∧ (tick s).pending = s.pending :=
  ⟨tick_keep State.power (fun _ _ => rfl) s, tick_keep State.ctl (fun _ _ => rfl) s, tick_keep State.host (fun _ _ => rfl) s, tick_keep State.urz (fun _ _ => rfl) s, tick_keep State.rng (fun _ _ => rfl) s, tick_keep State.rest (fun _ _ => rfl) s, tick_keep State.keys (fun _ _ => rfl) s, tick_keep State.cls (fun _ _ => rfl) s, tick_keep State.fab (fun _ _ => rfl) s, tick_keep State.path (fun _ _ => rfl) s, tick_keep State.otn (fun _ _ => rfl) s, tick_keep State.mpu (fun _ _ => rfl) s, tick_keep State.out (fun _ _ => rfl) s, tick_keep State.free (fun _ _ => rfl) s, tick_keep State.pending (fun _ _ => rfl) s⟩

theorem waitTime_keep {β : Type} (P : State → β) (hP : ∀ s x0, P { s with time := x0 } = P s) (t : Nat) (s : State) : P (waitTime t s) = P s := by
  unfold waitTime; (repeat' split) <;> simp only [hP]
/-- What `waitTime` leaves alone. -/
@[simp] theorem waitTime_frame (t : Nat) (s : State) : (waitTime t s).power = s.power ∧ (waitTime t s).ctl = s.ctl ∧ (waitTime t s).host = s.host ∧ (waitTime t s).urz = s.urz ∧ (waitTime t s).rng = s.rng ∧ (waitTime t s).rest = s.rest ∧ (waitTime t s).keys = s.keys ∧ (waitTime t s).cls = s.cls ∧ (waitTime t s).fab = s.fab ∧ (waitTime t s).path = s.path ∧ (waitTime t s).otn = s.otn ∧ (waitTime t s).mpu = s.mpu ∧ (waitTime t s).out = s.out ∧ (waitTime t s).free = s.free ∧ (waitTime t s).pending = s.pending :=
  ⟨waitTime_keep State.power (fun _ _ => rfl) t s, waitTime_keep State.ctl (fun _ _ => rfl) t s, waitTime_keep State.host (fun _ _ => rfl) t s, waitTime_keep State.urz (fun _ _ => rfl) t s, waitTime_keep State.rng (fun _ _ => rfl) t s, waitTime_keep State.rest (fun _ _ => rfl) t s, waitTime_keep State.keys (fun _ _ => rfl) t s, waitTime_keep State.cls (fun _ _ => rfl) t s, waitTime_keep State.fab (fun _ _ => rfl) t s, waitTime_keep State.path (fun _ _ => rfl) t s, waitTime_keep State.otn (fun _ _ => rfl) t s, waitTime_keep State.mpu (fun _ _ => rfl) t s, waitTime_keep State.out (fun _ _ => rfl) t s, waitTime_keep State.free (fun _ _ => rfl) t s, waitTime_keep State.pending (fun _ _ => rfl) t s⟩

theorem waitCycle_keep {β : Type} (P : State → β) (hP : ∀ s x0, P { s with time := x0 } = P s) (c : Nat) (s : State) : P (waitCycle c s) = P s := by
  unfold waitCycle; (repeat' split) <;> simp only [hP]
/-- What `waitCycle` leaves alone. -/
@[simp] theorem waitCycle_frame (c : Nat) (s : State) : (waitCycle c s).power = s.power ∧ (waitCycle c s).ctl = s.ctl ∧ (waitCycle c s).host = s.host ∧ (waitCycle c s).urz = s.urz ∧ (waitCycle c s).rng = s.rng ∧ (waitCycle c s).rest = s.rest ∧ (waitCycle c s).keys = s.keys ∧ (waitCycle c s).cls = s.cls ∧ (waitCycle c s).fab = s.fab ∧ (waitCycle c s).path = s.path ∧ (waitCycle c s).otn = s.otn ∧ (waitCycle c s).mpu = s.mpu ∧ (waitCycle c s).out = s.out ∧ (waitCycle c s).free = s.free ∧ (waitCycle c s).pending = s.pending :=
  ⟨waitCycle_keep State.power (fun _ _ => rfl) c s, waitCycle_keep State.ctl (fun _ _ => rfl) c s, waitCycle_keep State.host (fun _ _ => rfl) c s, waitCycle_keep State.urz (fun _ _ => rfl) c s, waitCycle_keep State.rng (fun _ _ => rfl) c s, waitCycle_keep State.rest (fun _ _ => rfl) c s, waitCycle_keep State.keys (fun _ _ => rfl) c s, waitCycle_keep State.cls (fun _ _ => rfl) c s, waitCycle_keep State.fab (fun _ _ => rfl) c s, waitCycle_keep State.path (fun _ _ => rfl) c s, waitCycle_keep State.otn (fun _ _ => rfl) c s, waitCycle_keep State.mpu (fun _ _ => rfl) c s, waitCycle_keep State.out (fun _ _ => rfl) c s, waitCycle_keep State.free (fun _ _ => rfl) c s, waitCycle_keep State.pending (fun _ _ => rfl) c s⟩

end Sys2Proof.Machine
end

