-- ==== Sys2Proof/Laws/KeepOps.lean ====
section
/-! SUPPORT. What the operations and meanings of Machine/Ops.lean leave alone: `f_keep` says that whatever is read from
the state without looking at the components `f` may change is the same after `f`. -/
set_option linter.all false
namespace Sys2Proof.Machine

theorem emit_keep {β : Type} (P : State → β) (hP : ∀ s x0, P { s with out := x0 } = P s) (o : Output) (s : State) : P (emit o s) = P s := by
  unfold emit; (repeat' split) <;> simp only [hP]
/-- What `emit` leaves alone. -/
@[simp] theorem emit_frame (o : Output) (s : State) : (emit o s).time = s.time ∧ (emit o s).power = s.power ∧ (emit o s).ctl = s.ctl ∧ (emit o s).host = s.host ∧ (emit o s).urz = s.urz ∧ (emit o s).rng = s.rng ∧ (emit o s).rest = s.rest ∧ (emit o s).keys = s.keys ∧ (emit o s).cls = s.cls ∧ (emit o s).fab = s.fab ∧ (emit o s).path = s.path ∧ (emit o s).otn = s.otn ∧ (emit o s).mpu = s.mpu ∧ (emit o s).free = s.free ∧ (emit o s).pending = s.pending :=
  ⟨emit_keep State.time (fun _ _ => rfl) o s, emit_keep State.power (fun _ _ => rfl) o s, emit_keep State.ctl (fun _ _ => rfl) o s, emit_keep State.host (fun _ _ => rfl) o s, emit_keep State.urz (fun _ _ => rfl) o s, emit_keep State.rng (fun _ _ => rfl) o s, emit_keep State.rest (fun _ _ => rfl) o s, emit_keep State.keys (fun _ _ => rfl) o s, emit_keep State.cls (fun _ _ => rfl) o s, emit_keep State.fab (fun _ _ => rfl) o s, emit_keep State.path (fun _ _ => rfl) o s, emit_keep State.otn (fun _ _ => rfl) o s, emit_keep State.mpu (fun _ _ => rfl) o s, emit_keep State.free (fun _ _ => rfl) o s, emit_keep State.pending (fun _ _ => rfl) o s⟩

theorem openValue_keep {β : Type} (P : State → β) (hP : ∀ s x0, P { s with free := x0 } = P s) (s : State) : P (openValue s).2 = P s := by
  unfold openValue; (repeat' split) <;> simp only [hP]
/-- What `openValue` leaves alone. -/
@[simp] theorem openValue_frame (s : State) : (openValue s).2.time = s.time ∧ (openValue s).2.power = s.power ∧ (openValue s).2.ctl = s.ctl ∧ (openValue s).2.host = s.host ∧ (openValue s).2.urz = s.urz ∧ (openValue s).2.rng = s.rng ∧ (openValue s).2.rest = s.rest ∧ (openValue s).2.keys = s.keys ∧ (openValue s).2.cls = s.cls ∧ (openValue s).2.fab = s.fab ∧ (openValue s).2.path = s.path ∧ (openValue s).2.otn = s.otn ∧ (openValue s).2.mpu = s.mpu ∧ (openValue s).2.out = s.out ∧ (openValue s).2.pending = s.pending :=
  ⟨openValue_keep State.time (fun _ _ => rfl) s, openValue_keep State.power (fun _ _ => rfl) s, openValue_keep State.ctl (fun _ _ => rfl) s, openValue_keep State.host (fun _ _ => rfl) s, openValue_keep State.urz (fun _ _ => rfl) s, openValue_keep State.rng (fun _ _ => rfl) s, openValue_keep State.rest (fun _ _ => rfl) s, openValue_keep State.keys (fun _ _ => rfl) s, openValue_keep State.cls (fun _ _ => rfl) s, openValue_keep State.fab (fun _ _ => rfl) s, openValue_keep State.path (fun _ _ => rfl) s, openValue_keep State.otn (fun _ _ => rfl) s, openValue_keep State.mpu (fun _ _ => rfl) s, openValue_keep State.out (fun _ _ => rfl) s, openValue_keep State.pending (fun _ _ => rfl) s⟩

theorem setDomain_keep {β : Type} (P : State → β) (hP : ∀ s x0, P { s with power := x0 } = P s) (d st : Nat) (s : State) : P (setDomain d st s) = P s := by
  unfold setDomain; (repeat' split) <;> simp only [hP]
/-- What `setDomain` leaves alone. -/
@[simp] theorem setDomain_frame (d st : Nat) (s : State) : (setDomain d st s).time = s.time ∧ (setDomain d st s).ctl = s.ctl ∧ (setDomain d st s).host = s.host ∧ (setDomain d st s).urz = s.urz ∧ (setDomain d st s).rng = s.rng ∧ (setDomain d st s).rest = s.rest ∧ (setDomain d st s).keys = s.keys ∧ (setDomain d st s).cls = s.cls ∧ (setDomain d st s).fab = s.fab ∧ (setDomain d st s).path = s.path ∧ (setDomain d st s).otn = s.otn ∧ (setDomain d st s).mpu = s.mpu ∧ (setDomain d st s).out = s.out ∧ (setDomain d st s).free = s.free ∧ (setDomain d st s).pending = s.pending :=
  ⟨setDomain_keep State.time (fun _ _ => rfl) d st s, setDomain_keep State.ctl (fun _ _ => rfl) d st s, setDomain_keep State.host (fun _ _ => rfl) d st s, setDomain_keep State.urz (fun _ _ => rfl) d st s, setDomain_keep State.rng (fun _ _ => rfl) d st s, setDomain_keep State.rest (fun _ _ => rfl) d st s, setDomain_keep State.keys (fun _ _ => rfl) d st s, setDomain_keep State.cls (fun _ _ => rfl) d st s, setDomain_keep State.fab (fun _ _ => rfl) d st s, setDomain_keep State.path (fun _ _ => rfl) d st s, setDomain_keep State.otn (fun _ _ => rfl) d st s, setDomain_keep State.mpu (fun _ _ => rfl) d st s, setDomain_keep State.out (fun _ _ => rfl) d st s, setDomain_keep State.free (fun _ _ => rfl) d st s, setDomain_keep State.pending (fun _ _ => rfl) d st s⟩

theorem countDomainReset_keep {β : Type} (P : State → β) (hP : ∀ s x0, P { s with power := x0 } = P s) (d cause : Nat) (s : State) : P (countDomainReset d cause s) = P s := by
  unfold countDomainReset; (repeat' split) <;> simp only [hP]
/-- What `countDomainReset` leaves alone. -/
@[simp] theorem countDomainReset_frame (d cause : Nat) (s : State) : (countDomainReset d cause s).time = s.time ∧ (countDomainReset d cause s).ctl = s.ctl ∧ (countDomainReset d cause s).host = s.host ∧ (countDomainReset d cause s).urz = s.urz ∧ (countDomainReset d cause s).rng = s.rng ∧ (countDomainReset d cause s).rest = s.rest ∧ (countDomainReset d cause s).keys = s.keys ∧ (countDomainReset d cause s).cls = s.cls ∧ (countDomainReset d cause s).fab = s.fab ∧ (countDomainReset d cause s).path = s.path ∧ (countDomainReset d cause s).otn = s.otn ∧ (countDomainReset d cause s).mpu = s.mpu ∧ (countDomainReset d cause s).out = s.out ∧ (countDomainReset d cause s).free = s.free ∧ (countDomainReset d cause s).pending = s.pending :=
  ⟨countDomainReset_keep State.time (fun _ _ => rfl) d cause s, countDomainReset_keep State.ctl (fun _ _ => rfl) d cause s, countDomainReset_keep State.host (fun _ _ => rfl) d cause s, countDomainReset_keep State.urz (fun _ _ => rfl) d cause s, countDomainReset_keep State.rng (fun _ _ => rfl) d cause s, countDomainReset_keep State.rest (fun _ _ => rfl) d cause s, countDomainReset_keep State.keys (fun _ _ => rfl) d cause s, countDomainReset_keep State.cls (fun _ _ => rfl) d cause s, countDomainReset_keep State.fab (fun _ _ => rfl) d cause s, countDomainReset_keep State.path (fun _ _ => rfl) d cause s, countDomainReset_keep State.otn (fun _ _ => rfl) d cause s, countDomainReset_keep State.mpu (fun _ _ => rfl) d cause s, countDomainReset_keep State.out (fun _ _ => rfl) d cause s, countDomainReset_keep State.free (fun _ _ => rfl) d cause s, countDomainReset_keep State.pending (fun _ _ => rfl) d cause s⟩

theorem updRing_keep {β : Type} (P : State → β) (hP : ∀ s x0, P { s with host := x0 } = P s) (r : Nat) (f : Ring → Ring) (s : State) : P (updRing r f s) = P s := by
  unfold updRing; (repeat' split) <;> simp only [hP]
/-- What `updRing` leaves alone. -/
@[simp] theorem updRing_frame (r : Nat) (f : Ring → Ring) (s : State) : (updRing r f s).time = s.time ∧ (updRing r f s).power = s.power ∧ (updRing r f s).ctl = s.ctl ∧ (updRing r f s).urz = s.urz ∧ (updRing r f s).rng = s.rng ∧ (updRing r f s).rest = s.rest ∧ (updRing r f s).keys = s.keys ∧ (updRing r f s).cls = s.cls ∧ (updRing r f s).fab = s.fab ∧ (updRing r f s).path = s.path ∧ (updRing r f s).otn = s.otn ∧ (updRing r f s).mpu = s.mpu ∧ (updRing r f s).out = s.out ∧ (updRing r f s).free = s.free ∧ (updRing r f s).pending = s.pending :=
  ⟨updRing_keep State.time (fun _ _ => rfl) r f s, updRing_keep State.power (fun _ _ => rfl) r f s, updRing_keep State.ctl (fun _ _ => rfl) r f s, updRing_keep State.urz (fun _ _ => rfl) r f s, updRing_keep State.rng (fun _ _ => rfl) r f s, updRing_keep State.rest (fun _ _ => rfl) r f s, updRing_keep State.keys (fun _ _ => rfl) r f s, updRing_keep State.cls (fun _ _ => rfl) r f s, updRing_keep State.fab (fun _ _ => rfl) r f s, updRing_keep State.path (fun _ _ => rfl) r f s, updRing_keep State.otn (fun _ _ => rfl) r f s, updRing_keep State.mpu (fun _ _ => rfl) r f s, updRing_keep State.out (fun _ _ => rfl) r f s, updRing_keep State.free (fun _ _ => rfl) r f s, updRing_keep State.pending (fun _ _ => rfl) r f s⟩

theorem signalVector_keep {β : Type} (P : State → β) (hP : ∀ s x0 x1, P { s with host := x0, out := x1 } = P s) (v : Nat) (s : State) : P (signalVector v s) = P s := by
  unfold signalVector; (repeat' split) <;> simp only [emit_keep P (fun s x0 => hP s s.host x0), hP]
/-- What `signalVector` leaves alone. -/
@[simp] theorem signalVector_frame (v : Nat) (s : State) : (signalVector v s).time = s.time ∧ (signalVector v s).power = s.power ∧ (signalVector v s).ctl = s.ctl ∧ (signalVector v s).urz = s.urz ∧ (signalVector v s).rng = s.rng ∧ (signalVector v s).rest = s.rest ∧ (signalVector v s).keys = s.keys ∧ (signalVector v s).cls = s.cls ∧ (signalVector v s).fab = s.fab ∧ (signalVector v s).path = s.path ∧ (signalVector v s).otn = s.otn ∧ (signalVector v s).mpu = s.mpu ∧ (signalVector v s).free = s.free ∧ (signalVector v s).pending = s.pending :=
  ⟨signalVector_keep State.time (fun _ _ _ => rfl) v s, signalVector_keep State.power (fun _ _ _ => rfl) v s, signalVector_keep State.ctl (fun _ _ _ => rfl) v s, signalVector_keep State.urz (fun _ _ _ => rfl) v s, signalVector_keep State.rng (fun _ _ _ => rfl) v s, signalVector_keep State.rest (fun _ _ _ => rfl) v s, signalVector_keep State.keys (fun _ _ _ => rfl) v s, signalVector_keep State.cls (fun _ _ _ => rfl) v s, signalVector_keep State.fab (fun _ _ _ => rfl) v s, signalVector_keep State.path (fun _ _ _ => rfl) v s, signalVector_keep State.otn (fun _ _ _ => rfl) v s, signalVector_keep State.mpu (fun _ _ _ => rfl) v s, signalVector_keep State.free (fun _ _ _ => rfl) v s, signalVector_keep State.pending (fun _ _ _ => rfl) v s⟩

theorem gatherOne_keep {β : Type} (P : State → β) (hP : ∀ s x0 x1, P { s with host := x0, out := x1 } = P s) (r : Nat) (s : State) : P (gatherOne r s) = P s := by
  unfold gatherOne; dsimp only; (repeat' split) <;> simp only [signalVector_keep P hP, updRing_keep P (fun s x0 => hP s x0 s.out), hP]
/-- What `gatherOne` leaves alone. -/
@[simp] theorem gatherOne_frame (r : Nat) (s : State) : (gatherOne r s).time = s.time ∧ (gatherOne r s).power = s.power ∧ (gatherOne r s).ctl = s.ctl ∧ (gatherOne r s).urz = s.urz ∧ (gatherOne r s).rng = s.rng ∧ (gatherOne r s).rest = s.rest ∧ (gatherOne r s).keys = s.keys ∧ (gatherOne r s).cls = s.cls ∧ (gatherOne r s).fab = s.fab ∧ (gatherOne r s).path = s.path ∧ (gatherOne r s).otn = s.otn ∧ (gatherOne r s).mpu = s.mpu ∧ (gatherOne r s).free = s.free ∧ (gatherOne r s).pending = s.pending :=
  ⟨gatherOne_keep State.time (fun _ _ _ => rfl) r s, gatherOne_keep State.power (fun _ _ _ => rfl) r s, gatherOne_keep State.ctl (fun _ _ _ => rfl) r s, gatherOne_keep State.urz (fun _ _ _ => rfl) r s, gatherOne_keep State.rng (fun _ _ _ => rfl) r s, gatherOne_keep State.rest (fun _ _ _ => rfl) r s, gatherOne_keep State.keys (fun _ _ _ => rfl) r s, gatherOne_keep State.cls (fun _ _ _ => rfl) r s, gatherOne_keep State.fab (fun _ _ _ => rfl) r s, gatherOne_keep State.path (fun _ _ _ => rfl) r s, gatherOne_keep State.otn (fun _ _ _ => rfl) r s, gatherOne_keep State.mpu (fun _ _ _ => rfl) r s, gatherOne_keep State.free (fun _ _ _ => rfl) r s, gatherOne_keep State.pending (fun _ _ _ => rfl) r s⟩

theorem ringWrite_keep {β : Type} (P : State → β) (hP : ∀ s x0, P { s with out := x0 } = P s) (r i : Nat) (data : Octets) (s : State) : P (ringWrite r i data s) = P s := by
  unfold ringWrite; (repeat' split) <;> simp only [emit_keep P hP, hP]
/-- What `ringWrite` leaves alone. -/
@[simp] theorem ringWrite_frame (r i : Nat) (data : Octets) (s : State) : (ringWrite r i data s).time = s.time ∧ (ringWrite r i data s).power = s.power ∧ (ringWrite r i data s).ctl = s.ctl ∧ (ringWrite r i data s).host = s.host ∧ (ringWrite r i data s).urz = s.urz ∧ (ringWrite r i data s).rng = s.rng ∧ (ringWrite r i data s).rest = s.rest ∧ (ringWrite r i data s).keys = s.keys ∧ (ringWrite r i data s).cls = s.cls ∧ (ringWrite r i data s).fab = s.fab ∧ (ringWrite r i data s).path = s.path ∧ (ringWrite r i data s).otn = s.otn ∧ (ringWrite r i data s).mpu = s.mpu ∧ (ringWrite r i data s).free = s.free ∧ (ringWrite r i data s).pending = s.pending :=
  ⟨ringWrite_keep State.time (fun _ _ => rfl) r i data s, ringWrite_keep State.power (fun _ _ => rfl) r i data s, ringWrite_keep State.ctl (fun _ _ => rfl) r i data s, ringWrite_keep State.host (fun _ _ => rfl) r i data s, ringWrite_keep State.urz (fun _ _ => rfl) r i data s, ringWrite_keep State.rng (fun _ _ => rfl) r i data s, ringWrite_keep State.rest (fun _ _ => rfl) r i data s, ringWrite_keep State.keys (fun _ _ => rfl) r i data s, ringWrite_keep State.cls (fun _ _ => rfl) r i data s, ringWrite_keep State.fab (fun _ _ => rfl) r i data s, ringWrite_keep State.path (fun _ _ => rfl) r i data s, ringWrite_keep State.otn (fun _ _ => rfl) r i data s, ringWrite_keep State.mpu (fun _ _ => rfl) r i data s, ringWrite_keep State.free (fun _ _ => rfl) r i data s, ringWrite_keep State.pending (fun _ _ => rfl) r i data s⟩

theorem ringComplete_keep {β : Type} (P : State → β) (hP : ∀ s x0 x1, P { s with host := x0, out := x1 } = P s) (r : Nat) (data : Octets) (s : State) : P (ringComplete r data s) = P s := by
  unfold ringComplete; (repeat' split) <;> simp only [gatherOne_keep P hP, ringWrite_keep P (fun s x0 => hP s s.host x0), updRing_keep P (fun s x0 => hP s x0 s.out), hP]
/-- What `ringComplete` leaves alone. -/
@[simp] theorem ringComplete_frame (r : Nat) (data : Octets) (s : State) : (ringComplete r data s).time = s.time ∧ (ringComplete r data s).power = s.power ∧ (ringComplete r data s).ctl = s.ctl ∧ (ringComplete r data s).urz = s.urz ∧ (ringComplete r data s).rng = s.rng ∧ (ringComplete r data s).rest = s.rest ∧ (ringComplete r data s).keys = s.keys ∧ (ringComplete r data s).cls = s.cls ∧ (ringComplete r data s).fab = s.fab ∧ (ringComplete r data s).path = s.path ∧ (ringComplete r data s).otn = s.otn ∧ (ringComplete r data s).mpu = s.mpu ∧ (ringComplete r data s).free = s.free ∧ (ringComplete r data s).pending = s.pending :=
  ⟨ringComplete_keep State.time (fun _ _ _ => rfl) r data s, ringComplete_keep State.power (fun _ _ _ => rfl) r data s, ringComplete_keep State.ctl (fun _ _ _ => rfl) r data s, ringComplete_keep State.urz (fun _ _ _ => rfl) r data s, ringComplete_keep State.rng (fun _ _ _ => rfl) r data s, ringComplete_keep State.rest (fun _ _ _ => rfl) r data s, ringComplete_keep State.keys (fun _ _ _ => rfl) r data s, ringComplete_keep State.cls (fun _ _ _ => rfl) r data s, ringComplete_keep State.fab (fun _ _ _ => rfl) r data s, ringComplete_keep State.path (fun _ _ _ => rfl) r data s, ringComplete_keep State.otn (fun _ _ _ => rfl) r data s, ringComplete_keep State.mpu (fun _ _ _ => rfl) r data s, ringComplete_keep State.free (fun _ _ _ => rfl) r data s, ringComplete_keep State.pending (fun _ _ _ => rfl) r data s⟩

theorem ringError_keep {β : Type} (P : State → β) (hP : ∀ s x0 x1, P { s with host := x0, out := x1 } = P s) (r cause : Nat) (s : State) : P (ringError r cause s) = P s := by
  unfold ringError; (repeat' split) <;> simp only [signalVector_keep P hP, updRing_keep P (fun s x0 => hP s x0 s.out), hP]
/-- What `ringError` leaves alone. -/
@[simp] theorem ringError_frame (r cause : Nat) (s : State) : (ringError r cause s).time = s.time ∧ (ringError r cause s).power = s.power ∧ (ringError r cause s).ctl = s.ctl ∧ (ringError r cause s).urz = s.urz ∧ (ringError r cause s).rng = s.rng ∧ (ringError r cause s).rest = s.rest ∧ (ringError r cause s).keys = s.keys ∧ (ringError r cause s).cls = s.cls ∧ (ringError r cause s).fab = s.fab ∧ (ringError r cause s).path = s.path ∧ (ringError r cause s).otn = s.otn ∧ (ringError r cause s).mpu = s.mpu ∧ (ringError r cause s).free = s.free ∧ (ringError r cause s).pending = s.pending :=
  ⟨ringError_keep State.time (fun _ _ _ => rfl) r cause s, ringError_keep State.power (fun _ _ _ => rfl) r cause s, ringError_keep State.ctl (fun _ _ _ => rfl) r cause s, ringError_keep State.urz (fun _ _ _ => rfl) r cause s, ringError_keep State.rng (fun _ _ _ => rfl) r cause s, ringError_keep State.rest (fun _ _ _ => rfl) r cause s, ringError_keep State.keys (fun _ _ _ => rfl) r cause s, ringError_keep State.cls (fun _ _ _ => rfl) r cause s, ringError_keep State.fab (fun _ _ _ => rfl) r cause s, ringError_keep State.path (fun _ _ _ => rfl) r cause s, ringError_keep State.otn (fun _ _ _ => rfl) r cause s, ringError_keep State.mpu (fun _ _ _ => rfl) r cause s, ringError_keep State.free (fun _ _ _ => rfl) r cause s, ringError_keep State.pending (fun _ _ _ => rfl) r cause s⟩

theorem eventWrite_keep {β : Type} (P : State → β) (hP : ∀ s x0 x1, P { s with host := x0, out := x1 } = P s) (r : Nat) (e : Event) (s : State) : P (eventWrite r e s) = P s := by
  unfold eventWrite; (repeat' split) <;> simp only [gatherOne_keep P hP, ringWrite_keep P (fun s x0 => hP s s.host x0), updRing_keep P (fun s x0 => hP s x0 s.out), hP]
/-- What `eventWrite` leaves alone. -/
@[simp] theorem eventWrite_frame (r : Nat) (e : Event) (s : State) : (eventWrite r e s).time = s.time ∧ (eventWrite r e s).power = s.power ∧ (eventWrite r e s).ctl = s.ctl ∧ (eventWrite r e s).urz = s.urz ∧ (eventWrite r e s).rng = s.rng ∧ (eventWrite r e s).rest = s.rest ∧ (eventWrite r e s).keys = s.keys ∧ (eventWrite r e s).cls = s.cls ∧ (eventWrite r e s).fab = s.fab ∧ (eventWrite r e s).path = s.path ∧ (eventWrite r e s).otn = s.otn ∧ (eventWrite r e s).mpu = s.mpu ∧ (eventWrite r e s).free = s.free ∧ (eventWrite r e s).pending = s.pending :=
  ⟨eventWrite_keep State.time (fun _ _ _ => rfl) r e s, eventWrite_keep State.power (fun _ _ _ => rfl) r e s, eventWrite_keep State.ctl (fun _ _ _ => rfl) r e s, eventWrite_keep State.urz (fun _ _ _ => rfl) r e s, eventWrite_keep State.rng (fun _ _ _ => rfl) r e s, eventWrite_keep State.rest (fun _ _ _ => rfl) r e s, eventWrite_keep State.keys (fun _ _ _ => rfl) r e s, eventWrite_keep State.cls (fun _ _ _ => rfl) r e s, eventWrite_keep State.fab (fun _ _ _ => rfl) r e s, eventWrite_keep State.path (fun _ _ _ => rfl) r e s, eventWrite_keep State.otn (fun _ _ _ => rfl) r e s, eventWrite_keep State.mpu (fun _ _ _ => rfl) r e s, eventWrite_keep State.free (fun _ _ _ => rfl) r e s, eventWrite_keep State.pending (fun _ _ _ => rfl) r e s⟩

theorem eventLost_keep {β : Type} (P : State → β) (hP : ∀ s x0, P { s with host := x0 } = P s) (k : Nat) (s : State) : P (eventLost k s) = P s := by
  unfold eventLost; (repeat' split) <;> simp only [updRing_keep P hP, hP]
/-- What `eventLost` leaves alone. -/
@[simp] theorem eventLost_frame (k : Nat) (s : State) : (eventLost k s).time = s.time ∧ (eventLost k s).power = s.power ∧ (eventLost k s).ctl = s.ctl ∧ (eventLost k s).urz = s.urz ∧ (eventLost k s).rng = s.rng ∧ (eventLost k s).rest = s.rest ∧ (eventLost k s).keys = s.keys ∧ (eventLost k s).cls = s.cls ∧ (eventLost k s).fab = s.fab ∧ (eventLost k s).path = s.path ∧ (eventLost k s).otn = s.otn ∧ (eventLost k s).mpu = s.mpu ∧ (eventLost k s).out = s.out ∧ (eventLost k s).free = s.free ∧ (eventLost k s).pending = s.pending :=
  ⟨eventLost_keep State.time (fun _ _ => rfl) k s, eventLost_keep State.power (fun _ _ => rfl) k s, eventLost_keep State.ctl (fun _ _ => rfl) k s, eventLost_keep State.urz (fun _ _ => rfl) k s, eventLost_keep State.rng (fun _ _ => rfl) k s, eventLost_keep State.rest (fun _ _ => rfl) k s, eventLost_keep State.keys (fun _ _ => rfl) k s, eventLost_keep State.cls (fun _ _ => rfl) k s, eventLost_keep State.fab (fun _ _ => rfl) k s, eventLost_keep State.path (fun _ _ => rfl) k s, eventLost_keep State.otn (fun _ _ => rfl) k s, eventLost_keep State.mpu (fun _ _ => rfl) k s, eventLost_keep State.out (fun _ _ => rfl) k s, eventLost_keep State.free (fun _ _ => rfl) k s, eventLost_keep State.pending (fun _ _ => rfl) k s⟩

theorem flushLost_keep {β : Type} (P : State → β) (hP : ∀ s x0 x1, P { s with host := x0, out := x1 } = P s) (k : Nat) (s : State) : P (flushLost k s) = P s := by
  unfold flushLost; dsimp only; (repeat' split) <;> simp only [eventWrite_keep P hP, updRing_keep P (fun s x0 => hP s x0 s.out), hP]
/-- What `flushLost` leaves alone. -/
@[simp] theorem flushLost_frame (k : Nat) (s : State) : (flushLost k s).time = s.time ∧ (flushLost k s).power = s.power ∧ (flushLost k s).ctl = s.ctl ∧ (flushLost k s).urz = s.urz ∧ (flushLost k s).rng = s.rng ∧ (flushLost k s).rest = s.rest ∧ (flushLost k s).keys = s.keys ∧ (flushLost k s).cls = s.cls ∧ (flushLost k s).fab = s.fab ∧ (flushLost k s).path = s.path ∧ (flushLost k s).otn = s.otn ∧ (flushLost k s).mpu = s.mpu ∧ (flushLost k s).free = s.free ∧ (flushLost k s).pending = s.pending :=
  ⟨flushLost_keep State.time (fun _ _ _ => rfl) k s, flushLost_keep State.power (fun _ _ _ => rfl) k s, flushLost_keep State.ctl (fun _ _ _ => rfl) k s, flushLost_keep State.urz (fun _ _ _ => rfl) k s, flushLost_keep State.rng (fun _ _ _ => rfl) k s, flushLost_keep State.rest (fun _ _ _ => rfl) k s, flushLost_keep State.keys (fun _ _ _ => rfl) k s, flushLost_keep State.cls (fun _ _ _ => rfl) k s, flushLost_keep State.fab (fun _ _ _ => rfl) k s, flushLost_keep State.path (fun _ _ _ => rfl) k s, flushLost_keep State.otn (fun _ _ _ => rfl) k s, flushLost_keep State.mpu (fun _ _ _ => rfl) k s, flushLost_keep State.free (fun _ _ _ => rfl) k s, flushLost_keep State.pending (fun _ _ _ => rfl) k s⟩

theorem postTo_keep {β : Type} (P : State → β) (hP : ∀ s x0 x1, P { s with host := x0, out := x1 } = P s) (k : Nat) (e : Event) (s : State) : P (postTo k e s) = P s := by
  unfold postTo; dsimp only; (repeat' split) <;> simp only [eventLost_keep P (fun s x0 => hP s x0 s.out), eventWrite_keep P hP, flushLost_keep P hP, hP]
/-- What `postTo` leaves alone. -/
@[simp] theorem postTo_frame (k : Nat) (e : Event) (s : State) : (postTo k e s).time = s.time ∧ (postTo k e s).power = s.power ∧ (postTo k e s).ctl = s.ctl ∧ (postTo k e s).urz = s.urz ∧ (postTo k e s).rng = s.rng ∧ (postTo k e s).rest = s.rest ∧ (postTo k e s).keys = s.keys ∧ (postTo k e s).cls = s.cls ∧ (postTo k e s).fab = s.fab ∧ (postTo k e s).path = s.path ∧ (postTo k e s).otn = s.otn ∧ (postTo k e s).mpu = s.mpu ∧ (postTo k e s).free = s.free ∧ (postTo k e s).pending = s.pending :=
  ⟨postTo_keep State.time (fun _ _ _ => rfl) k e s, postTo_keep State.power (fun _ _ _ => rfl) k e s, postTo_keep State.ctl (fun _ _ _ => rfl) k e s, postTo_keep State.urz (fun _ _ _ => rfl) k e s, postTo_keep State.rng (fun _ _ _ => rfl) k e s, postTo_keep State.rest (fun _ _ _ => rfl) k e s, postTo_keep State.keys (fun _ _ _ => rfl) k e s, postTo_keep State.cls (fun _ _ _ => rfl) k e s, postTo_keep State.fab (fun _ _ _ => rfl) k e s, postTo_keep State.path (fun _ _ _ => rfl) k e s, postTo_keep State.otn (fun _ _ _ => rfl) k e s, postTo_keep State.mpu (fun _ _ _ => rfl) k e s, postTo_keep State.free (fun _ _ _ => rfl) k e s, postTo_keep State.pending (fun _ _ _ => rfl) k e s⟩

theorem post_keep {β : Type} (P : State → β) (hP : ∀ s x0 x1, P { s with host := x0, out := x1 } = P s) (e : Event) (s : State) : P (post e s) = P s := by
  unfold post; (repeat' split) <;> simp only [postTo_keep P hP, hP]
/-- What `post` leaves alone. -/
@[simp] theorem post_frame (e : Event) (s : State) : (post e s).time = s.time ∧ (post e s).power = s.power ∧ (post e s).ctl = s.ctl ∧ (post e s).urz = s.urz ∧ (post e s).rng = s.rng ∧ (post e s).rest = s.rest ∧ (post e s).keys = s.keys ∧ (post e s).cls = s.cls ∧ (post e s).fab = s.fab ∧ (post e s).path = s.path ∧ (post e s).otn = s.otn ∧ (post e s).mpu = s.mpu ∧ (post e s).free = s.free ∧ (post e s).pending = s.pending :=
  ⟨post_keep State.time (fun _ _ _ => rfl) e s, post_keep State.power (fun _ _ _ => rfl) e s, post_keep State.ctl (fun _ _ _ => rfl) e s, post_keep State.urz (fun _ _ _ => rfl) e s, post_keep State.rng (fun _ _ _ => rfl) e s, post_keep State.rest (fun _ _ _ => rfl) e s, post_keep State.keys (fun _ _ _ => rfl) e s, post_keep State.cls (fun _ _ _ => rfl) e s, post_keep State.fab (fun _ _ _ => rfl) e s, post_keep State.path (fun _ _ _ => rfl) e s, post_keep State.otn (fun _ _ _ => rfl) e s, post_keep State.mpu (fun _ _ _ => rfl) e s, post_keep State.free (fun _ _ _ => rfl) e s, post_keep State.pending (fun _ _ _ => rfl) e s⟩

theorem rngAsk_keep {β : Type} (P : State → β) (hP : ∀ s x0, P { s with rng := x0 } = P s) (who : Consumer) (cls : Nat) (s : State) : P (rngAsk who cls s) = P s := by
  unfold rngAsk; (repeat' split) <;> simp only [hP]
/-- What `rngAsk` leaves alone. -/
@[simp] theorem rngAsk_frame (who : Consumer) (cls : Nat) (s : State) : (rngAsk who cls s).time = s.time ∧ (rngAsk who cls s).power = s.power ∧ (rngAsk who cls s).ctl = s.ctl ∧ (rngAsk who cls s).host = s.host ∧ (rngAsk who cls s).urz = s.urz ∧ (rngAsk who cls s).rest = s.rest ∧ (rngAsk who cls s).keys = s.keys ∧ (rngAsk who cls s).cls = s.cls ∧ (rngAsk who cls s).fab = s.fab ∧ (rngAsk who cls s).path = s.path ∧ (rngAsk who cls s).otn = s.otn ∧ (rngAsk who cls s).mpu = s.mpu ∧ (rngAsk who cls s).out = s.out ∧ (rngAsk who cls s).free = s.free ∧ (rngAsk who cls s).pending = s.pending :=
  ⟨rngAsk_keep State.time (fun _ _ => rfl) who cls s, rngAsk_keep State.power (fun _ _ => rfl) who cls s, rngAsk_keep State.ctl (fun _ _ => rfl) who cls s, rngAsk_keep State.host (fun _ _ => rfl) who cls s, rngAsk_keep State.urz (fun _ _ => rfl) who cls s, rngAsk_keep State.rest (fun _ _ => rfl) who cls s, rngAsk_keep State.keys (fun _ _ => rfl) who cls s, rngAsk_keep State.cls (fun _ _ => rfl) who cls s, rngAsk_keep State.fab (fun _ _ => rfl) who cls s, rngAsk_keep State.path (fun _ _ => rfl) who cls s, rngAsk_keep State.otn (fun _ _ => rfl) who cls s, rngAsk_keep State.mpu (fun _ _ => rfl) who cls s, rngAsk_keep State.out (fun _ _ => rfl) who cls s, rngAsk_keep State.free (fun _ _ => rfl) who cls s, rngAsk_keep State.pending (fun _ _ => rfl) who cls s⟩

theorem rngDraw_keep {β : Type} (P : State → β) (hP : ∀ s x0, P { s with rng := x0 } = P s) (n : Nat) (s : State) (q : Octets × State) (e : rngDraw n s = some q) : P q.2 = P s := by
  unfold rngDraw at e; (repeat' split at e) <;> simp at e; subst e; simp only [hP]

theorem newChallenge_keep {β : Type} (P : State → β) (hP : ∀ s x0 x1, P { s with rng := x0, rest := x1 } = P s) (s : State) : P (newChallenge s) = P s := by
  unfold newChallenge; split; (· have f := rngDraw_keep P (fun s x0 => hP s x0 s.rest) _ _ _ ‹_›; simp only [rngAsk_keep P (fun s x0 => hP s x0 s.rest), hP]; exact f); (· simp only [rngAsk_keep P (fun s x0 => hP s x0 s.rest), hP])
/-- What `newChallenge` leaves alone. -/
@[simp] theorem newChallenge_frame (s : State) : (newChallenge s).time = s.time ∧ (newChallenge s).power = s.power ∧ (newChallenge s).ctl = s.ctl ∧ (newChallenge s).host = s.host ∧ (newChallenge s).urz = s.urz ∧ (newChallenge s).keys = s.keys ∧ (newChallenge s).cls = s.cls ∧ (newChallenge s).fab = s.fab ∧ (newChallenge s).path = s.path ∧ (newChallenge s).otn = s.otn ∧ (newChallenge s).mpu = s.mpu ∧ (newChallenge s).out = s.out ∧ (newChallenge s).free = s.free ∧ (newChallenge s).pending = s.pending :=
  ⟨newChallenge_keep State.time (fun _ _ _ => rfl) s, newChallenge_keep State.power (fun _ _ _ => rfl) s, newChallenge_keep State.ctl (fun _ _ _ => rfl) s, newChallenge_keep State.host (fun _ _ _ => rfl) s, newChallenge_keep State.urz (fun _ _ _ => rfl) s, newChallenge_keep State.keys (fun _ _ _ => rfl) s, newChallenge_keep State.cls (fun _ _ _ => rfl) s, newChallenge_keep State.fab (fun _ _ _ => rfl) s, newChallenge_keep State.path (fun _ _ _ => rfl) s, newChallenge_keep State.otn (fun _ _ _ => rfl) s, newChallenge_keep State.mpu (fun _ _ _ => rfl) s, newChallenge_keep State.out (fun _ _ _ => rfl) s, newChallenge_keep State.free (fun _ _ _ => rfl) s, newChallenge_keep State.pending (fun _ _ _ => rfl) s⟩

theorem updPd_keep {β : Type} (P : State → β) (hP : ∀ s x0, P { s with path := x0 } = P s) (p : PD) (f : PortDir → PortDir) (s : State) : P (updPd p f s) = P s := by
  unfold updPd; (repeat' split) <;> simp only [hP]
/-- What `updPd` leaves alone. -/
@[simp] theorem updPd_frame (p : PD) (f : PortDir → PortDir) (s : State) : (updPd p f s).time = s.time ∧ (updPd p f s).power = s.power ∧ (updPd p f s).ctl = s.ctl ∧ (updPd p f s).host = s.host ∧ (updPd p f s).urz = s.urz ∧ (updPd p f s).rng = s.rng ∧ (updPd p f s).rest = s.rest ∧ (updPd p f s).keys = s.keys ∧ (updPd p f s).cls = s.cls ∧ (updPd p f s).fab = s.fab ∧ (updPd p f s).otn = s.otn ∧ (updPd p f s).mpu = s.mpu ∧ (updPd p f s).out = s.out ∧ (updPd p f s).free = s.free ∧ (updPd p f s).pending = s.pending :=
  ⟨updPd_keep State.time (fun _ _ => rfl) p f s, updPd_keep State.power (fun _ _ => rfl) p f s, updPd_keep State.ctl (fun _ _ => rfl) p f s, updPd_keep State.host (fun _ _ => rfl) p f s, updPd_keep State.urz (fun _ _ => rfl) p f s, updPd_keep State.rng (fun _ _ => rfl) p f s, updPd_keep State.rest (fun _ _ => rfl) p f s, updPd_keep State.keys (fun _ _ => rfl) p f s, updPd_keep State.cls (fun _ _ => rfl) p f s, updPd_keep State.fab (fun _ _ => rfl) p f s, updPd_keep State.otn (fun _ _ => rfl) p f s, updPd_keep State.mpu (fun _ _ => rfl) p f s, updPd_keep State.out (fun _ _ => rfl) p f s, updPd_keep State.free (fun _ _ => rfl) p f s, updPd_keep State.pending (fun _ _ => rfl) p f s⟩

theorem shadowFix_keep {β : Type} (P : State → β) (hP : ∀ s x0, P { s with rest := x0 } = P s) (group item : Nat) (s : State) : P (shadowFix group item s) = P s := by
  unfold shadowFix; (repeat' split) <;> simp only [hP]
/-- What `shadowFix` leaves alone. -/
@[simp] theorem shadowFix_frame (group item : Nat) (s : State) : (shadowFix group item s).time = s.time ∧ (shadowFix group item s).power = s.power ∧ (shadowFix group item s).ctl = s.ctl ∧ (shadowFix group item s).host = s.host ∧ (shadowFix group item s).urz = s.urz ∧ (shadowFix group item s).rng = s.rng ∧ (shadowFix group item s).keys = s.keys ∧ (shadowFix group item s).cls = s.cls ∧ (shadowFix group item s).fab = s.fab ∧ (shadowFix group item s).path = s.path ∧ (shadowFix group item s).otn = s.otn ∧ (shadowFix group item s).mpu = s.mpu ∧ (shadowFix group item s).out = s.out ∧ (shadowFix group item s).free = s.free ∧ (shadowFix group item s).pending = s.pending :=
  ⟨shadowFix_keep State.time (fun _ _ => rfl) group item s, shadowFix_keep State.power (fun _ _ => rfl) group item s, shadowFix_keep State.ctl (fun _ _ => rfl) group item s, shadowFix_keep State.host (fun _ _ => rfl) group item s, shadowFix_keep State.urz (fun _ _ => rfl) group item s, shadowFix_keep State.rng (fun _ _ => rfl) group item s, shadowFix_keep State.keys (fun _ _ => rfl) group item s, shadowFix_keep State.cls (fun _ _ => rfl) group item s, shadowFix_keep State.fab (fun _ _ => rfl) group item s, shadowFix_keep State.path (fun _ _ => rfl) group item s, shadowFix_keep State.otn (fun _ _ => rfl) group item s, shadowFix_keep State.mpu (fun _ _ => rfl) group item s, shadowFix_keep State.out (fun _ _ => rfl) group item s, shadowFix_keep State.free (fun _ _ => rfl) group item s, shadowFix_keep State.pending (fun _ _ => rfl) group item s⟩

theorem updSlot_keep {β : Type} (P : State → β) (hP : ∀ s x0, P { s with keys := x0 } = P s) (target : Nat) (f : KeySlot → KeySlot) (s : State) : P (updSlot target f s) = P s := by
  unfold updSlot; (repeat' split) <;> simp only [hP]
/-- What `updSlot` leaves alone. -/
@[simp] theorem updSlot_frame (target : Nat) (f : KeySlot → KeySlot) (s : State) : (updSlot target f s).time = s.time ∧ (updSlot target f s).power = s.power ∧ (updSlot target f s).ctl = s.ctl ∧ (updSlot target f s).host = s.host ∧ (updSlot target f s).urz = s.urz ∧ (updSlot target f s).rng = s.rng ∧ (updSlot target f s).rest = s.rest ∧ (updSlot target f s).cls = s.cls ∧ (updSlot target f s).fab = s.fab ∧ (updSlot target f s).path = s.path ∧ (updSlot target f s).otn = s.otn ∧ (updSlot target f s).mpu = s.mpu ∧ (updSlot target f s).out = s.out ∧ (updSlot target f s).free = s.free ∧ (updSlot target f s).pending = s.pending :=
  ⟨updSlot_keep State.time (fun _ _ => rfl) target f s, updSlot_keep State.power (fun _ _ => rfl) target f s, updSlot_keep State.ctl (fun _ _ => rfl) target f s, updSlot_keep State.host (fun _ _ => rfl) target f s, updSlot_keep State.urz (fun _ _ => rfl) target f s, updSlot_keep State.rng (fun _ _ => rfl) target f s, updSlot_keep State.rest (fun _ _ => rfl) target f s, updSlot_keep State.cls (fun _ _ => rfl) target f s, updSlot_keep State.fab (fun _ _ => rfl) target f s, updSlot_keep State.path (fun _ _ => rfl) target f s, updSlot_keep State.otn (fun _ _ => rfl) target f s, updSlot_keep State.mpu (fun _ _ => rfl) target f s, updSlot_keep State.out (fun _ _ => rfl) target f s, updSlot_keep State.free (fun _ _ => rfl) target f s, updSlot_keep State.pending (fun _ _ => rfl) target f s⟩

theorem updSa_keep {β : Type} (P : State → β) (hP : ∀ s x0, P { s with keys := x0 } = P s) (i : Nat) (f : Sa → Sa) (s : State) : P (updSa i f s) = P s := by
  unfold updSa; (repeat' split) <;> simp only [hP]
/-- What `updSa` leaves alone. -/
@[simp] theorem updSa_frame (i : Nat) (f : Sa → Sa) (s : State) : (updSa i f s).time = s.time ∧ (updSa i f s).power = s.power ∧ (updSa i f s).ctl = s.ctl ∧ (updSa i f s).host = s.host ∧ (updSa i f s).urz = s.urz ∧ (updSa i f s).rng = s.rng ∧ (updSa i f s).rest = s.rest ∧ (updSa i f s).cls = s.cls ∧ (updSa i f s).fab = s.fab ∧ (updSa i f s).path = s.path ∧ (updSa i f s).otn = s.otn ∧ (updSa i f s).mpu = s.mpu ∧ (updSa i f s).out = s.out ∧ (updSa i f s).free = s.free ∧ (updSa i f s).pending = s.pending :=
  ⟨updSa_keep State.time (fun _ _ => rfl) i f s, updSa_keep State.power (fun _ _ => rfl) i f s, updSa_keep State.ctl (fun _ _ => rfl) i f s, updSa_keep State.host (fun _ _ => rfl) i f s, updSa_keep State.urz (fun _ _ => rfl) i f s, updSa_keep State.rng (fun _ _ => rfl) i f s, updSa_keep State.rest (fun _ _ => rfl) i f s, updSa_keep State.cls (fun _ _ => rfl) i f s, updSa_keep State.fab (fun _ _ => rfl) i f s, updSa_keep State.path (fun _ _ => rfl) i f s, updSa_keep State.otn (fun _ _ => rfl) i f s, updSa_keep State.mpu (fun _ _ => rfl) i f s, updSa_keep State.out (fun _ _ => rfl) i f s, updSa_keep State.free (fun _ _ => rfl) i f s, updSa_keep State.pending (fun _ _ => rfl) i f s⟩

theorem updSc_keep {β : Type} (P : State → β) (hP : ∀ s x0, P { s with keys := x0 } = P s) (i : Nat) (f : Sc → Sc) (s : State) : P (updSc i f s) = P s := by
  unfold updSc; (repeat' split) <;> simp only [hP]
/-- What `updSc` leaves alone. -/
@[simp] theorem updSc_frame (i : Nat) (f : Sc → Sc) (s : State) : (updSc i f s).time = s.time ∧ (updSc i f s).power = s.power ∧ (updSc i f s).ctl = s.ctl ∧ (updSc i f s).host = s.host ∧ (updSc i f s).urz = s.urz ∧ (updSc i f s).rng = s.rng ∧ (updSc i f s).rest = s.rest ∧ (updSc i f s).cls = s.cls ∧ (updSc i f s).fab = s.fab ∧ (updSc i f s).path = s.path ∧ (updSc i f s).otn = s.otn ∧ (updSc i f s).mpu = s.mpu ∧ (updSc i f s).out = s.out ∧ (updSc i f s).free = s.free ∧ (updSc i f s).pending = s.pending :=
  ⟨updSc_keep State.time (fun _ _ => rfl) i f s, updSc_keep State.power (fun _ _ => rfl) i f s, updSc_keep State.ctl (fun _ _ => rfl) i f s, updSc_keep State.host (fun _ _ => rfl) i f s, updSc_keep State.urz (fun _ _ => rfl) i f s, updSc_keep State.rng (fun _ _ => rfl) i f s, updSc_keep State.rest (fun _ _ => rfl) i f s, updSc_keep State.cls (fun _ _ => rfl) i f s, updSc_keep State.fab (fun _ _ => rfl) i f s, updSc_keep State.path (fun _ _ => rfl) i f s, updSc_keep State.otn (fun _ _ => rfl) i f s, updSc_keep State.mpu (fun _ _ => rfl) i f s, updSc_keep State.out (fun _ _ => rfl) i f s, updSc_keep State.free (fun _ _ => rfl) i f s, updSc_keep State.pending (fun _ _ => rfl) i f s⟩

theorem updTr_keep {β : Type} (P : State → β) (hP : ∀ s x0, P { s with otn := x0 } = P s) (t : Nat) (f : Trib → Trib) (s : State) : P (updTr t f s) = P s := by
  unfold updTr; (repeat' split) <;> simp only [hP]
/-- What `updTr` leaves alone. -/
@[simp] theorem updTr_frame (t : Nat) (f : Trib → Trib) (s : State) : (updTr t f s).time = s.time ∧ (updTr t f s).power = s.power ∧ (updTr t f s).ctl = s.ctl ∧ (updTr t f s).host = s.host ∧ (updTr t f s).urz = s.urz ∧ (updTr t f s).rng = s.rng ∧ (updTr t f s).rest = s.rest ∧ (updTr t f s).keys = s.keys ∧ (updTr t f s).cls = s.cls ∧ (updTr t f s).fab = s.fab ∧ (updTr t f s).path = s.path ∧ (updTr t f s).mpu = s.mpu ∧ (updTr t f s).out = s.out ∧ (updTr t f s).free = s.free ∧ (updTr t f s).pending = s.pending :=
  ⟨updTr_keep State.time (fun _ _ => rfl) t f s, updTr_keep State.power (fun _ _ => rfl) t f s, updTr_keep State.ctl (fun _ _ => rfl) t f s, updTr_keep State.host (fun _ _ => rfl) t f s, updTr_keep State.urz (fun _ _ => rfl) t f s, updTr_keep State.rng (fun _ _ => rfl) t f s, updTr_keep State.rest (fun _ _ => rfl) t f s, updTr_keep State.keys (fun _ _ => rfl) t f s, updTr_keep State.cls (fun _ _ => rfl) t f s, updTr_keep State.fab (fun _ _ => rfl) t f s, updTr_keep State.path (fun _ _ => rfl) t f s, updTr_keep State.mpu (fun _ _ => rfl) t f s, updTr_keep State.out (fun _ _ => rfl) t f s, updTr_keep State.free (fun _ _ => rfl) t f s, updTr_keep State.pending (fun _ _ => rfl) t f s⟩

theorem keyEvent_keep {β : Type} (P : State → β) (hP : ∀ s x0, P { s with keys := x0 } = P s) (bit : Nat) (s : State) : P (keyEvent bit s) = P s := by
  unfold keyEvent; (repeat' split) <;> simp only [hP]
/-- What `keyEvent` leaves alone. -/
@[simp] theorem keyEvent_frame (bit : Nat) (s : State) : (keyEvent bit s).time = s.time ∧ (keyEvent bit s).power = s.power ∧ (keyEvent bit s).ctl = s.ctl ∧ (keyEvent bit s).host = s.host ∧ (keyEvent bit s).urz = s.urz ∧ (keyEvent bit s).rng = s.rng ∧ (keyEvent bit s).rest = s.rest ∧ (keyEvent bit s).cls = s.cls ∧ (keyEvent bit s).fab = s.fab ∧ (keyEvent bit s).path = s.path ∧ (keyEvent bit s).otn = s.otn ∧ (keyEvent bit s).mpu = s.mpu ∧ (keyEvent bit s).out = s.out ∧ (keyEvent bit s).free = s.free ∧ (keyEvent bit s).pending = s.pending :=
  ⟨keyEvent_keep State.time (fun _ _ => rfl) bit s, keyEvent_keep State.power (fun _ _ => rfl) bit s, keyEvent_keep State.ctl (fun _ _ => rfl) bit s, keyEvent_keep State.host (fun _ _ => rfl) bit s, keyEvent_keep State.urz (fun _ _ => rfl) bit s, keyEvent_keep State.rng (fun _ _ => rfl) bit s, keyEvent_keep State.rest (fun _ _ => rfl) bit s, keyEvent_keep State.cls (fun _ _ => rfl) bit s, keyEvent_keep State.fab (fun _ _ => rfl) bit s, keyEvent_keep State.path (fun _ _ => rfl) bit s, keyEvent_keep State.otn (fun _ _ => rfl) bit s, keyEvent_keep State.mpu (fun _ _ => rfl) bit s, keyEvent_keep State.out (fun _ _ => rfl) bit s, keyEvent_keep State.free (fun _ _ => rfl) bit s, keyEvent_keep State.pending (fun _ _ => rfl) bit s⟩

theorem keyCount_keep {β : Type} (P : State → β) (hP : ∀ s x0, P { s with keys := x0 } = P s) (i : Nat) (s : State) : P (keyCount i s) = P s := by
  unfold keyCount; (repeat' split) <;> simp only [hP]
/-- What `keyCount` leaves alone. -/
@[simp] theorem keyCount_frame (i : Nat) (s : State) : (keyCount i s).time = s.time ∧ (keyCount i s).power = s.power ∧ (keyCount i s).ctl = s.ctl ∧ (keyCount i s).host = s.host ∧ (keyCount i s).urz = s.urz ∧ (keyCount i s).rng = s.rng ∧ (keyCount i s).rest = s.rest ∧ (keyCount i s).cls = s.cls ∧ (keyCount i s).fab = s.fab ∧ (keyCount i s).path = s.path ∧ (keyCount i s).otn = s.otn ∧ (keyCount i s).mpu = s.mpu ∧ (keyCount i s).out = s.out ∧ (keyCount i s).free = s.free ∧ (keyCount i s).pending = s.pending :=
  ⟨keyCount_keep State.time (fun _ _ => rfl) i s, keyCount_keep State.power (fun _ _ => rfl) i s, keyCount_keep State.ctl (fun _ _ => rfl) i s, keyCount_keep State.host (fun _ _ => rfl) i s, keyCount_keep State.urz (fun _ _ => rfl) i s, keyCount_keep State.rng (fun _ _ => rfl) i s, keyCount_keep State.rest (fun _ _ => rfl) i s, keyCount_keep State.cls (fun _ _ => rfl) i s, keyCount_keep State.fab (fun _ _ => rfl) i s, keyCount_keep State.path (fun _ _ => rfl) i s, keyCount_keep State.otn (fun _ _ => rfl) i s, keyCount_keep State.mpu (fun _ _ => rfl) i s, keyCount_keep State.out (fun _ _ => rfl) i s, keyCount_keep State.free (fun _ _ => rfl) i s, keyCount_keep State.pending (fun _ _ => rfl) i s⟩

theorem tamperCount_keep {β : Type} (P : State → β) (hP : ∀ s x0, P { s with rest := x0 } = P s) (i : Nat) (s : State) : P (tamperCount i s) = P s := by
  unfold tamperCount; (repeat' split) <;> simp only [hP]
/-- What `tamperCount` leaves alone. -/
@[simp] theorem tamperCount_frame (i : Nat) (s : State) : (tamperCount i s).time = s.time ∧ (tamperCount i s).power = s.power ∧ (tamperCount i s).ctl = s.ctl ∧ (tamperCount i s).host = s.host ∧ (tamperCount i s).urz = s.urz ∧ (tamperCount i s).rng = s.rng ∧ (tamperCount i s).keys = s.keys ∧ (tamperCount i s).cls = s.cls ∧ (tamperCount i s).fab = s.fab ∧ (tamperCount i s).path = s.path ∧ (tamperCount i s).otn = s.otn ∧ (tamperCount i s).mpu = s.mpu ∧ (tamperCount i s).out = s.out ∧ (tamperCount i s).free = s.free ∧ (tamperCount i s).pending = s.pending :=
  ⟨tamperCount_keep State.time (fun _ _ => rfl) i s, tamperCount_keep State.power (fun _ _ => rfl) i s, tamperCount_keep State.ctl (fun _ _ => rfl) i s, tamperCount_keep State.host (fun _ _ => rfl) i s, tamperCount_keep State.urz (fun _ _ => rfl) i s, tamperCount_keep State.rng (fun _ _ => rfl) i s, tamperCount_keep State.keys (fun _ _ => rfl) i s, tamperCount_keep State.cls (fun _ _ => rfl) i s, tamperCount_keep State.fab (fun _ _ => rfl) i s, tamperCount_keep State.path (fun _ _ => rfl) i s, tamperCount_keep State.otn (fun _ _ => rfl) i s, tamperCount_keep State.mpu (fun _ _ => rfl) i s, tamperCount_keep State.out (fun _ _ => rfl) i s, tamperCount_keep State.free (fun _ _ => rfl) i s, tamperCount_keep State.pending (fun _ _ => rfl) i s⟩

theorem saShow_keep {β : Type} (P : State → β) (hP : ∀ s x0, P { s with otn := x0 } = P s) (i b : Nat) (s : State) : P (saShow i b s) = P s := by
  unfold saShow; dsimp only; (repeat' split) <;> simp only [hP]
/-- What `saShow` leaves alone. -/
@[simp] theorem saShow_frame (i b : Nat) (s : State) : (saShow i b s).time = s.time ∧ (saShow i b s).power = s.power ∧ (saShow i b s).ctl = s.ctl ∧ (saShow i b s).host = s.host ∧ (saShow i b s).urz = s.urz ∧ (saShow i b s).rng = s.rng ∧ (saShow i b s).rest = s.rest ∧ (saShow i b s).keys = s.keys ∧ (saShow i b s).cls = s.cls ∧ (saShow i b s).fab = s.fab ∧ (saShow i b s).path = s.path ∧ (saShow i b s).mpu = s.mpu ∧ (saShow i b s).out = s.out ∧ (saShow i b s).free = s.free ∧ (saShow i b s).pending = s.pending :=
  ⟨saShow_keep State.time (fun _ _ => rfl) i b s, saShow_keep State.power (fun _ _ => rfl) i b s, saShow_keep State.ctl (fun _ _ => rfl) i b s, saShow_keep State.host (fun _ _ => rfl) i b s, saShow_keep State.urz (fun _ _ => rfl) i b s, saShow_keep State.rng (fun _ _ => rfl) i b s, saShow_keep State.rest (fun _ _ => rfl) i b s, saShow_keep State.keys (fun _ _ => rfl) i b s, saShow_keep State.cls (fun _ _ => rfl) i b s, saShow_keep State.fab (fun _ _ => rfl) i b s, saShow_keep State.path (fun _ _ => rfl) i b s, saShow_keep State.mpu (fun _ _ => rfl) i b s, saShow_keep State.out (fun _ _ => rfl) i b s, saShow_keep State.free (fun _ _ => rfl) i b s, saShow_keep State.pending (fun _ _ => rfl) i b s⟩

theorem freezeSa_keep {β : Type} (P : State → β) (hP : ∀ s x0 x1 x2 x3, P { s with host := x0, keys := x1, otn := x2, out := x3 } = P s) (i cause : Nat) (s : State) : P (freezeSa i cause s) = P s := by
  unfold freezeSa; (repeat' split) <;> simp only [keyEvent_keep P (fun s x0 => hP s s.host x0 s.otn s.out), post_keep P (fun s x0 x1 => hP s x0 s.keys s.otn x1), saShow_keep P (fun s x0 => hP s s.host s.keys x0 s.out), updSa_keep P (fun s x0 => hP s s.host x0 s.otn s.out), hP]
/-- What `freezeSa` leaves alone. -/
@[simp] theorem freezeSa_frame (i cause : Nat) (s : State) : (freezeSa i cause s).time = s.time ∧ (freezeSa i cause s).power = s.power ∧ (freezeSa i cause s).ctl = s.ctl ∧ (freezeSa i cause s).urz = s.urz ∧ (freezeSa i cause s).rng = s.rng ∧ (freezeSa i cause s).rest = s.rest ∧ (freezeSa i cause s).cls = s.cls ∧ (freezeSa i cause s).fab = s.fab ∧ (freezeSa i cause s).path = s.path ∧ (freezeSa i cause s).mpu = s.mpu ∧ (freezeSa i cause s).free = s.free ∧ (freezeSa i cause s).pending = s.pending :=
  ⟨freezeSa_keep State.time (fun _ _ _ _ _ => rfl) i cause s, freezeSa_keep State.power (fun _ _ _ _ _ => rfl) i cause s, freezeSa_keep State.ctl (fun _ _ _ _ _ => rfl) i cause s, freezeSa_keep State.urz (fun _ _ _ _ _ => rfl) i cause s, freezeSa_keep State.rng (fun _ _ _ _ _ => rfl) i cause s, freezeSa_keep State.rest (fun _ _ _ _ _ => rfl) i cause s, freezeSa_keep State.cls (fun _ _ _ _ _ => rfl) i cause s, freezeSa_keep State.fab (fun _ _ _ _ _ => rfl) i cause s, freezeSa_keep State.path (fun _ _ _ _ _ => rfl) i cause s, freezeSa_keep State.mpu (fun _ _ _ _ _ => rfl) i cause s, freezeSa_keep State.free (fun _ _ _ _ _ => rfl) i cause s, freezeSa_keep State.pending (fun _ _ _ _ _ => rfl) i cause s⟩

end Sys2Proof.Machine
end

