-- ==== Sys2Proof/Laws/KeepEdges.lean ====
section
/-! SUPPORT. What the operations and meanings of Machine/Edges.lean leave alone: `f_keep` says that whatever is read from
the state without looking at the components `f` may change is the same after `f`. -/
set_option linter.all false
namespace Sys2Proof.Machine

theorem edgePass_keep {β : Type} (P : State → β) (hP : ∀ s x0, P { s with path := x0 } = P s) (k n : Nat) (s : State) : P (edgePass k n s) = P s := by
  unfold edgePass; (repeat' split) <;> simp only [hP]

end Sys2Proof.Machine
end

