-- ==== Sys2Proof/Laws/KeepRetention.lean ====
section
/-! SUPPORT. What the operations and meanings of Machine/Retention.lean leave alone: `f_keep` says that whatever is read from
the state without looking at the components `f` may change is the same after `f`. -/
set_option linter.all false
namespace Sys2Proof.Machine

theorem setBank_keep {β : Type} (P : State → β) (hP : ∀ s x0, P { s with path := x0 } = P s) (b : Nat) (f : Tab (List Nat) → Tab (List Nat)) (s : State) : P (setBank b f s) = P s := by
  unfold setBank; (repeat' split) <;> simp only [hP]

theorem retWrite_keep {β : Type} (P : State → β) (hP : ∀ s x0, P { s with path := x0 } = P s) (id : Nat) (d : Octets) (s : State) : P (retWrite id d s) = P s := by
  unfold retWrite; repeat' (first | with_reducible rfl | split | simp only [setBank_keep P hP, hP] | (with_reducible refine (keep (fun _ _ => by (repeat' (first | with_reducible rfl | split | simp only [setBank_keep P hP, hP])))).trans ?_) | (with_reducible refine (keep2 (fun _ _ => by (repeat' (first | with_reducible rfl | split | simp only [setBank_keep P hP, hP])))).trans ?_))

theorem retFree_keep {β : Type} (P : State → β) (hP : ∀ s x0, P { s with path := x0 } = P s) (id : Nat) (s : State) : P (retFree id s) = P s := by
  unfold retFree; repeat' (first | with_reducible rfl | split | simp only [setBank_keep P hP, hP] | (with_reducible refine (keep (fun _ _ => by (repeat' (first | with_reducible rfl | split | simp only [setBank_keep P hP, hP])))).trans ?_) | (with_reducible refine (keep2 (fun _ _ => by (repeat' (first | with_reducible rfl | split | simp only [setBank_keep P hP, hP])))).trans ?_))

theorem bankLost_keep {β : Type} (P : State → β) (hP : ∀ s x0, P { s with path := x0 } = P s) (b : Nat) (s : State) : P (bankLost b s) = P s := by
  unfold bankLost; (repeat' split) <;> simp only [setBank_keep P hP, hP]

theorem bankRebuild_keep {β : Type} (P : State → β) (hP : ∀ s x0, P { s with path := x0 } = P s) (b : Nat) (s : State) : P (bankRebuild b s) = P s := by
  unfold bankRebuild; (repeat' split) <;> simp only [setBank_keep P hP, hP, id]

end Sys2Proof.Machine
end

