-- ==== Sys2Proof/Laws/KeepLog.lean ====
section
/-! SUPPORT. What the operations and meanings of Machine/Log.lean leave alone: `f_keep` says that whatever is read from
the state without looking at the components `f` may change is the same after `f`. -/
set_option linter.all false
namespace Sys2Proof.Machine

theorem logAppend_keep {β : Type} (P : State → β) (hP : ∀ s x0, P { s with rest := x0 } = P s) (type source : Nat) (detail : Octets) (s : State) : P (logAppend type source detail s) = P s := by
  unfold logAppend; (repeat' split) <;> simp only [tamperCount_keep P hP, hP]
/-- What `logAppend` leaves alone. -/
@[simp] theorem logAppend_frame (type source : Nat) (detail : Octets) (s : State) : (logAppend type source detail s).time = s.time ∧ (logAppend type source detail s).power = s.power ∧ (logAppend type source detail s).ctl = s.ctl ∧ (logAppend type source detail s).host = s.host ∧ (logAppend type source detail s).urz = s.urz ∧ (logAppend type source detail s).rng = s.rng ∧ (logAppend type source detail s).keys = s.keys ∧ (logAppend type source detail s).cls = s.cls ∧ (logAppend type source detail s).fab = s.fab ∧ (logAppend type source detail s).path = s.path ∧ (logAppend type source detail s).otn = s.otn ∧ (logAppend type source detail s).mpu = s.mpu ∧ (logAppend type source detail s).out = s.out ∧ (logAppend type source detail s).free = s.free ∧ (logAppend type source detail s).pending = s.pending :=
  ⟨logAppend_keep State.time (fun _ _ => rfl) type source detail s, logAppend_keep State.power (fun _ _ => rfl) type source detail s, logAppend_keep State.ctl (fun _ _ => rfl) type source detail s, logAppend_keep State.host (fun _ _ => rfl) type source detail s, logAppend_keep State.urz (fun _ _ => rfl) type source detail s, logAppend_keep State.rng (fun _ _ => rfl) type source detail s, logAppend_keep State.keys (fun _ _ => rfl) type source detail s, logAppend_keep State.cls (fun _ _ => rfl) type source detail s, logAppend_keep State.fab (fun _ _ => rfl) type source detail s, logAppend_keep State.path (fun _ _ => rfl) type source detail s, logAppend_keep State.otn (fun _ _ => rfl) type source detail s, logAppend_keep State.mpu (fun _ _ => rfl) type source detail s, logAppend_keep State.out (fun _ _ => rfl) type source detail s, logAppend_keep State.free (fun _ _ => rfl) type source detail s, logAppend_keep State.pending (fun _ _ => rfl) type source detail s⟩

theorem raiseAlarm_keep {β : Type} (P : State → β) (hP : ∀ s x0, P { s with rest := x0 } = P s) (n : Nat) (s : State) : P (raiseAlarm n s) = P s := by
  unfold raiseAlarm; dsimp only; (repeat' split) <;> simp only [hP]
/-- What `raiseAlarm` leaves alone. -/
@[simp] theorem raiseAlarm_frame (n : Nat) (s : State) : (raiseAlarm n s).time = s.time ∧ (raiseAlarm n s).power = s.power ∧ (raiseAlarm n s).ctl = s.ctl ∧ (raiseAlarm n s).host = s.host ∧ (raiseAlarm n s).urz = s.urz ∧ (raiseAlarm n s).rng = s.rng ∧ (raiseAlarm n s).keys = s.keys ∧ (raiseAlarm n s).cls = s.cls ∧ (raiseAlarm n s).fab = s.fab ∧ (raiseAlarm n s).path = s.path ∧ (raiseAlarm n s).otn = s.otn ∧ (raiseAlarm n s).mpu = s.mpu ∧ (raiseAlarm n s).out = s.out ∧ (raiseAlarm n s).free = s.free ∧ (raiseAlarm n s).pending = s.pending :=
  ⟨raiseAlarm_keep State.time (fun _ _ => rfl) n s, raiseAlarm_keep State.power (fun _ _ => rfl) n s, raiseAlarm_keep State.ctl (fun _ _ => rfl) n s, raiseAlarm_keep State.host (fun _ _ => rfl) n s, raiseAlarm_keep State.urz (fun _ _ => rfl) n s, raiseAlarm_keep State.rng (fun _ _ => rfl) n s, raiseAlarm_keep State.keys (fun _ _ => rfl) n s, raiseAlarm_keep State.cls (fun _ _ => rfl) n s, raiseAlarm_keep State.fab (fun _ _ => rfl) n s, raiseAlarm_keep State.path (fun _ _ => rfl) n s, raiseAlarm_keep State.otn (fun _ _ => rfl) n s, raiseAlarm_keep State.mpu (fun _ _ => rfl) n s, raiseAlarm_keep State.out (fun _ _ => rfl) n s, raiseAlarm_keep State.free (fun _ _ => rfl) n s, raiseAlarm_keep State.pending (fun _ _ => rfl) n s⟩

theorem noteSensor_keep {β : Type} (P : State → β) (hP : ∀ s x0, P { s with rest := x0 } = P s) (n sub : Nat) (value : Int) (s : State) : P (noteSensor n sub value s) = P s := by
  unfold noteSensor; (repeat' split) <;> simp only [hP]
/-- What `noteSensor` leaves alone. -/
@[simp] theorem noteSensor_frame (n sub : Nat) (value : Int) (s : State) : (noteSensor n sub value s).time = s.time ∧ (noteSensor n sub value s).power = s.power ∧ (noteSensor n sub value s).ctl = s.ctl ∧ (noteSensor n sub value s).host = s.host ∧ (noteSensor n sub value s).urz = s.urz ∧ (noteSensor n sub value s).rng = s.rng ∧ (noteSensor n sub value s).keys = s.keys ∧ (noteSensor n sub value s).cls = s.cls ∧ (noteSensor n sub value s).fab = s.fab ∧ (noteSensor n sub value s).path = s.path ∧ (noteSensor n sub value s).otn = s.otn ∧ (noteSensor n sub value s).mpu = s.mpu ∧ (noteSensor n sub value s).out = s.out ∧ (noteSensor n sub value s).free = s.free ∧ (noteSensor n sub value s).pending = s.pending :=
  ⟨noteSensor_keep State.time (fun _ _ => rfl) n sub value s, noteSensor_keep State.power (fun _ _ => rfl) n sub value s, noteSensor_keep State.ctl (fun _ _ => rfl) n sub value s, noteSensor_keep State.host (fun _ _ => rfl) n sub value s, noteSensor_keep State.urz (fun _ _ => rfl) n sub value s, noteSensor_keep State.rng (fun _ _ => rfl) n sub value s, noteSensor_keep State.keys (fun _ _ => rfl) n sub value s, noteSensor_keep State.cls (fun _ _ => rfl) n sub value s, noteSensor_keep State.fab (fun _ _ => rfl) n sub value s, noteSensor_keep State.path (fun _ _ => rfl) n sub value s, noteSensor_keep State.otn (fun _ _ => rfl) n sub value s, noteSensor_keep State.mpu (fun _ _ => rfl) n sub value s, noteSensor_keep State.out (fun _ _ => rfl) n sub value s, noteSensor_keep State.free (fun _ _ => rfl) n sub value s, noteSensor_keep State.pending (fun _ _ => rfl) n sub value s⟩

theorem raiseEvent_keep {β : Type} (P : State → β) (hP : ∀ s x0, P { s with rest := x0 } = P s) (n sub : Nat) (s : State) : P (raiseEvent n sub s) = P s := by
  unfold raiseEvent; (repeat' split) <;> simp only [noteSensor_keep P hP, raiseAlarm_keep P hP, hP]
/-- What `raiseEvent` leaves alone. -/
@[simp] theorem raiseEvent_frame (n sub : Nat) (s : State) : (raiseEvent n sub s).time = s.time ∧ (raiseEvent n sub s).power = s.power ∧ (raiseEvent n sub s).ctl = s.ctl ∧ (raiseEvent n sub s).host = s.host ∧ (raiseEvent n sub s).urz = s.urz ∧ (raiseEvent n sub s).rng = s.rng ∧ (raiseEvent n sub s).keys = s.keys ∧ (raiseEvent n sub s).cls = s.cls ∧ (raiseEvent n sub s).fab = s.fab ∧ (raiseEvent n sub s).path = s.path ∧ (raiseEvent n sub s).otn = s.otn ∧ (raiseEvent n sub s).mpu = s.mpu ∧ (raiseEvent n sub s).out = s.out ∧ (raiseEvent n sub s).free = s.free ∧ (raiseEvent n sub s).pending = s.pending :=
  ⟨raiseEvent_keep State.time (fun _ _ => rfl) n sub s, raiseEvent_keep State.power (fun _ _ => rfl) n sub s, raiseEvent_keep State.ctl (fun _ _ => rfl) n sub s, raiseEvent_keep State.host (fun _ _ => rfl) n sub s, raiseEvent_keep State.urz (fun _ _ => rfl) n sub s, raiseEvent_keep State.rng (fun _ _ => rfl) n sub s, raiseEvent_keep State.keys (fun _ _ => rfl) n sub s, raiseEvent_keep State.cls (fun _ _ => rfl) n sub s, raiseEvent_keep State.fab (fun _ _ => rfl) n sub s, raiseEvent_keep State.path (fun _ _ => rfl) n sub s, raiseEvent_keep State.otn (fun _ _ => rfl) n sub s, raiseEvent_keep State.mpu (fun _ _ => rfl) n sub s, raiseEvent_keep State.out (fun _ _ => rfl) n sub s, raiseEvent_keep State.free (fun _ _ => rfl) n sub s, raiseEvent_keep State.pending (fun _ _ => rfl) n sub s⟩

theorem setAlarm_keep {β : Type} (P : State → β) (hP : ∀ s x0, P { s with rest := x0 } = P s) (n : Nat) (b : Bool) (s : State) : P (setAlarm n b s) = P s := by
  unfold setAlarm; (repeat' split) <;> simp only [hP]
/-- What `setAlarm` leaves alone. -/
@[simp] theorem setAlarm_frame (n : Nat) (b : Bool) (s : State) : (setAlarm n b s).time = s.time ∧ (setAlarm n b s).power = s.power ∧ (setAlarm n b s).ctl = s.ctl ∧ (setAlarm n b s).host = s.host ∧ (setAlarm n b s).urz = s.urz ∧ (setAlarm n b s).rng = s.rng ∧ (setAlarm n b s).keys = s.keys ∧ (setAlarm n b s).cls = s.cls ∧ (setAlarm n b s).fab = s.fab ∧ (setAlarm n b s).path = s.path ∧ (setAlarm n b s).otn = s.otn ∧ (setAlarm n b s).mpu = s.mpu ∧ (setAlarm n b s).out = s.out ∧ (setAlarm n b s).free = s.free ∧ (setAlarm n b s).pending = s.pending :=
  ⟨setAlarm_keep State.time (fun _ _ => rfl) n b s, setAlarm_keep State.power (fun _ _ => rfl) n b s, setAlarm_keep State.ctl (fun _ _ => rfl) n b s, setAlarm_keep State.host (fun _ _ => rfl) n b s, setAlarm_keep State.urz (fun _ _ => rfl) n b s, setAlarm_keep State.rng (fun _ _ => rfl) n b s, setAlarm_keep State.keys (fun _ _ => rfl) n b s, setAlarm_keep State.cls (fun _ _ => rfl) n b s, setAlarm_keep State.fab (fun _ _ => rfl) n b s, setAlarm_keep State.path (fun _ _ => rfl) n b s, setAlarm_keep State.otn (fun _ _ => rfl) n b s, setAlarm_keep State.mpu (fun _ _ => rfl) n b s, setAlarm_keep State.out (fun _ _ => rfl) n b s, setAlarm_keep State.free (fun _ _ => rfl) n b s, setAlarm_keep State.pending (fun _ _ => rfl) n b s⟩

theorem logStops_keep {β : Type} (P : State → β) (hP : ∀ s x0, P { s with rest := x0 } = P s) (s : State) : P (logStops s) = P s := by
  unfold logStops; (repeat' split) <;> simp only [raiseAlarm_keep P hP, setAlarm_keep P hP, hP]
/-- What `logStops` leaves alone. -/
@[simp] theorem logStops_frame (s : State) : (logStops s).time = s.time ∧ (logStops s).power = s.power ∧ (logStops s).ctl = s.ctl ∧ (logStops s).host = s.host ∧ (logStops s).urz = s.urz ∧ (logStops s).rng = s.rng ∧ (logStops s).keys = s.keys ∧ (logStops s).cls = s.cls ∧ (logStops s).fab = s.fab ∧ (logStops s).path = s.path ∧ (logStops s).otn = s.otn ∧ (logStops s).mpu = s.mpu ∧ (logStops s).out = s.out ∧ (logStops s).free = s.free ∧ (logStops s).pending = s.pending :=
  ⟨logStops_keep State.time (fun _ _ => rfl) s, logStops_keep State.power (fun _ _ => rfl) s, logStops_keep State.ctl (fun _ _ => rfl) s, logStops_keep State.host (fun _ _ => rfl) s, logStops_keep State.urz (fun _ _ => rfl) s, logStops_keep State.rng (fun _ _ => rfl) s, logStops_keep State.keys (fun _ _ => rfl) s, logStops_keep State.cls (fun _ _ => rfl) s, logStops_keep State.fab (fun _ _ => rfl) s, logStops_keep State.path (fun _ _ => rfl) s, logStops_keep State.otn (fun _ _ => rfl) s, logStops_keep State.mpu (fun _ _ => rfl) s, logStops_keep State.out (fun _ _ => rfl) s, logStops_keep State.free (fun _ _ => rfl) s, logStops_keep State.pending (fun _ _ => rfl) s⟩

theorem exportEvent_keep {β : Type} (P : State → β) (hP : ∀ s x0 x1 x2, P { s with host := x0, rest := x1, out := x2 } = P s) (s : State) : P (exportEvent s) = P s := by
  unfold exportEvent; (repeat' split) <;> simp only [post_keep P (fun s x0 x1 => hP s x0 s.rest x1), hP]
/-- What `exportEvent` leaves alone. -/
@[simp] theorem exportEvent_frame (s : State) : (exportEvent s).time = s.time ∧ (exportEvent s).power = s.power ∧ (exportEvent s).ctl = s.ctl ∧ (exportEvent s).urz = s.urz ∧ (exportEvent s).rng = s.rng ∧ (exportEvent s).keys = s.keys ∧ (exportEvent s).cls = s.cls ∧ (exportEvent s).fab = s.fab ∧ (exportEvent s).path = s.path ∧ (exportEvent s).otn = s.otn ∧ (exportEvent s).mpu = s.mpu ∧ (exportEvent s).free = s.free ∧ (exportEvent s).pending = s.pending :=
  ⟨exportEvent_keep State.time (fun _ _ _ _ => rfl) s, exportEvent_keep State.power (fun _ _ _ _ => rfl) s, exportEvent_keep State.ctl (fun _ _ _ _ => rfl) s, exportEvent_keep State.urz (fun _ _ _ _ => rfl) s, exportEvent_keep State.rng (fun _ _ _ _ => rfl) s, exportEvent_keep State.keys (fun _ _ _ _ => rfl) s, exportEvent_keep State.cls (fun _ _ _ _ => rfl) s, exportEvent_keep State.fab (fun _ _ _ _ => rfl) s, exportEvent_keep State.path (fun _ _ _ _ => rfl) s, exportEvent_keep State.otn (fun _ _ _ _ => rfl) s, exportEvent_keep State.mpu (fun _ _ _ _ => rfl) s, exportEvent_keep State.free (fun _ _ _ _ => rfl) s, exportEvent_keep State.pending (fun _ _ _ _ => rfl) s⟩

theorem logAfter_keep {β : Type} (P : State → β) (hP : ∀ s x0 x1 x2, P { s with host := x0, rest := x1, out := x2 } = P s) (s : State) : P (logAfter s) = P s := by
  unfold logAfter; (repeat' split) <;> simp only [exportEvent_keep P hP, logStops_keep P (fun s x0 => hP s s.host x0 s.out), hP]
/-- What `logAfter` leaves alone. -/
@[simp] theorem logAfter_frame (s : State) : (logAfter s).time = s.time ∧ (logAfter s).power = s.power ∧ (logAfter s).ctl = s.ctl ∧ (logAfter s).urz = s.urz ∧ (logAfter s).rng = s.rng ∧ (logAfter s).keys = s.keys ∧ (logAfter s).cls = s.cls ∧ (logAfter s).fab = s.fab ∧ (logAfter s).path = s.path ∧ (logAfter s).otn = s.otn ∧ (logAfter s).mpu = s.mpu ∧ (logAfter s).free = s.free ∧ (logAfter s).pending = s.pending :=
  ⟨logAfter_keep State.time (fun _ _ _ _ => rfl) s, logAfter_keep State.power (fun _ _ _ _ => rfl) s, logAfter_keep State.ctl (fun _ _ _ _ => rfl) s, logAfter_keep State.urz (fun _ _ _ _ => rfl) s, logAfter_keep State.rng (fun _ _ _ _ => rfl) s, logAfter_keep State.keys (fun _ _ _ _ => rfl) s, logAfter_keep State.cls (fun _ _ _ _ => rfl) s, logAfter_keep State.fab (fun _ _ _ _ => rfl) s, logAfter_keep State.path (fun _ _ _ _ => rfl) s, logAfter_keep State.otn (fun _ _ _ _ => rfl) s, logAfter_keep State.mpu (fun _ _ _ _ => rfl) s, logAfter_keep State.free (fun _ _ _ _ => rfl) s, logAfter_keep State.pending (fun _ _ _ _ => rfl) s⟩

theorem logForce_keep {β : Type} (P : State → β) (hP : ∀ s x0 x1 x2, P { s with host := x0, rest := x1, out := x2 } = P s) (type source : Nat) (detail : Octets) (s : State) : P (logForce type source detail s) = P s := by
  unfold logForce; (repeat' split) <;> simp only [logAfter_keep P hP, logAppend_keep P (fun s x0 => hP s s.host x0 s.out), logStops_keep P (fun s x0 => hP s s.host x0 s.out), hP]
/-- What `logForce` leaves alone. -/
@[simp] theorem logForce_frame (type source : Nat) (detail : Octets) (s : State) : (logForce type source detail s).time = s.time ∧ (logForce type source detail s).power = s.power ∧ (logForce type source detail s).ctl = s.ctl ∧ (logForce type source detail s).urz = s.urz ∧ (logForce type source detail s).rng = s.rng ∧ (logForce type source detail s).keys = s.keys ∧ (logForce type source detail s).cls = s.cls ∧ (logForce type source detail s).fab = s.fab ∧ (logForce type source detail s).path = s.path ∧ (logForce type source detail s).otn = s.otn ∧ (logForce type source detail s).mpu = s.mpu ∧ (logForce type source detail s).free = s.free ∧ (logForce type source detail s).pending = s.pending :=
  ⟨logForce_keep State.time (fun _ _ _ _ => rfl) type source detail s, logForce_keep State.power (fun _ _ _ _ => rfl) type source detail s, logForce_keep State.ctl (fun _ _ _ _ => rfl) type source detail s, logForce_keep State.urz (fun _ _ _ _ => rfl) type source detail s, logForce_keep State.rng (fun _ _ _ _ => rfl) type source detail s, logForce_keep State.keys (fun _ _ _ _ => rfl) type source detail s, logForce_keep State.cls (fun _ _ _ _ => rfl) type source detail s, logForce_keep State.fab (fun _ _ _ _ => rfl) type source detail s, logForce_keep State.path (fun _ _ _ _ => rfl) type source detail s, logForce_keep State.otn (fun _ _ _ _ => rfl) type source detail s, logForce_keep State.mpu (fun _ _ _ _ => rfl) type source detail s, logForce_keep State.free (fun _ _ _ _ => rfl) type source detail s, logForce_keep State.pending (fun _ _ _ _ => rfl) type source detail s⟩

theorem logEntry_keep {β : Type} (P : State → β) (hP : ∀ s x0 x1 x2, P { s with host := x0, rest := x1, out := x2 } = P s) (type source : Nat) (detail : Octets) (s : State) : P (logEntry type source detail s) = P s := by
  unfold logEntry; (repeat' split) <;> simp only [logForce_keep P hP, hP]
/-- What `logEntry` leaves alone. -/
@[simp] theorem logEntry_frame (type source : Nat) (detail : Octets) (s : State) : (logEntry type source detail s).time = s.time ∧ (logEntry type source detail s).power = s.power ∧ (logEntry type source detail s).ctl = s.ctl ∧ (logEntry type source detail s).urz = s.urz ∧ (logEntry type source detail s).rng = s.rng ∧ (logEntry type source detail s).keys = s.keys ∧ (logEntry type source detail s).cls = s.cls ∧ (logEntry type source detail s).fab = s.fab ∧ (logEntry type source detail s).path = s.path ∧ (logEntry type source detail s).otn = s.otn ∧ (logEntry type source detail s).mpu = s.mpu ∧ (logEntry type source detail s).free = s.free ∧ (logEntry type source detail s).pending = s.pending :=
  ⟨logEntry_keep State.time (fun _ _ _ _ => rfl) type source detail s, logEntry_keep State.power (fun _ _ _ _ => rfl) type source detail s, logEntry_keep State.ctl (fun _ _ _ _ => rfl) type source detail s, logEntry_keep State.urz (fun _ _ _ _ => rfl) type source detail s, logEntry_keep State.rng (fun _ _ _ _ => rfl) type source detail s, logEntry_keep State.keys (fun _ _ _ _ => rfl) type source detail s, logEntry_keep State.cls (fun _ _ _ _ => rfl) type source detail s, logEntry_keep State.fab (fun _ _ _ _ => rfl) type source detail s, logEntry_keep State.path (fun _ _ _ _ => rfl) type source detail s, logEntry_keep State.otn (fun _ _ _ _ => rfl) type source detail s, logEntry_keep State.mpu (fun _ _ _ _ => rfl) type source detail s, logEntry_keep State.free (fun _ _ _ _ => rfl) type source detail s, logEntry_keep State.pending (fun _ _ _ _ => rfl) type source detail s⟩

theorem logOwed_keep {β : Type} (P : State → β) (hP : ∀ s x0 x1 x2, P { s with host := x0, rest := x1, out := x2 } = P s) (s : State) : P (logOwed s) = P s := by
  unfold logOwed; dsimp only; (repeat' split) <;> simp only [logAfter_keep P hP, logAppend_keep P (fun s x0 => hP s s.host x0 s.out), hP]
/-- What `logOwed` leaves alone. -/
@[simp] theorem logOwed_frame (s : State) : (logOwed s).time = s.time ∧ (logOwed s).power = s.power ∧ (logOwed s).ctl = s.ctl ∧ (logOwed s).urz = s.urz ∧ (logOwed s).rng = s.rng ∧ (logOwed s).keys = s.keys ∧ (logOwed s).cls = s.cls ∧ (logOwed s).fab = s.fab ∧ (logOwed s).path = s.path ∧ (logOwed s).otn = s.otn ∧ (logOwed s).mpu = s.mpu ∧ (logOwed s).free = s.free ∧ (logOwed s).pending = s.pending :=
  ⟨logOwed_keep State.time (fun _ _ _ _ => rfl) s, logOwed_keep State.power (fun _ _ _ _ => rfl) s, logOwed_keep State.ctl (fun _ _ _ _ => rfl) s, logOwed_keep State.urz (fun _ _ _ _ => rfl) s, logOwed_keep State.rng (fun _ _ _ _ => rfl) s, logOwed_keep State.keys (fun _ _ _ _ => rfl) s, logOwed_keep State.cls (fun _ _ _ _ => rfl) s, logOwed_keep State.fab (fun _ _ _ _ => rfl) s, logOwed_keep State.path (fun _ _ _ _ => rfl) s, logOwed_keep State.otn (fun _ _ _ _ => rfl) s, logOwed_keep State.mpu (fun _ _ _ _ => rfl) s, logOwed_keep State.free (fun _ _ _ _ => rfl) s, logOwed_keep State.pending (fun _ _ _ _ => rfl) s⟩

theorem memoryEvent_keep {β : Type} (P : State → β) (hP : ∀ s x0 x1 x2, P { s with host := x0, rest := x1, out := x2 } = P s) (region block kind : Nat) (s : State) : P (memoryEvent region block kind s) = P s := by
  unfold memoryEvent; (repeat' split) <;> simp only [logEntry_keep P hP, raiseEvent_keep P (fun s x0 => hP s s.host x0 s.out), hP]
/-- What `memoryEvent` leaves alone. -/
@[simp] theorem memoryEvent_frame (region block kind : Nat) (s : State) : (memoryEvent region block kind s).time = s.time ∧ (memoryEvent region block kind s).power = s.power ∧ (memoryEvent region block kind s).ctl = s.ctl ∧ (memoryEvent region block kind s).urz = s.urz ∧ (memoryEvent region block kind s).rng = s.rng ∧ (memoryEvent region block kind s).keys = s.keys ∧ (memoryEvent region block kind s).cls = s.cls ∧ (memoryEvent region block kind s).fab = s.fab ∧ (memoryEvent region block kind s).path = s.path ∧ (memoryEvent region block kind s).otn = s.otn ∧ (memoryEvent region block kind s).mpu = s.mpu ∧ (memoryEvent region block kind s).free = s.free ∧ (memoryEvent region block kind s).pending = s.pending :=
  ⟨memoryEvent_keep State.time (fun _ _ _ _ => rfl) region block kind s, memoryEvent_keep State.power (fun _ _ _ _ => rfl) region block kind s, memoryEvent_keep State.ctl (fun _ _ _ _ => rfl) region block kind s, memoryEvent_keep State.urz (fun _ _ _ _ => rfl) region block kind s, memoryEvent_keep State.rng (fun _ _ _ _ => rfl) region block kind s, memoryEvent_keep State.keys (fun _ _ _ _ => rfl) region block kind s, memoryEvent_keep State.cls (fun _ _ _ _ => rfl) region block kind s, memoryEvent_keep State.fab (fun _ _ _ _ => rfl) region block kind s, memoryEvent_keep State.path (fun _ _ _ _ => rfl) region block kind s, memoryEvent_keep State.otn (fun _ _ _ _ => rfl) region block kind s, memoryEvent_keep State.mpu (fun _ _ _ _ => rfl) region block kind s, memoryEvent_keep State.free (fun _ _ _ _ => rfl) region block kind s, memoryEvent_keep State.pending (fun _ _ _ _ => rfl) region block kind s⟩

theorem memoryAlarm_keep {β : Type} (P : State → β) (hP : ∀ s x0 x1 x2, P { s with host := x0, rest := x1, out := x2 } = P s) (region block kind : Nat) (s : State) : P (memoryAlarm region block kind s) = P s := by
  unfold memoryAlarm; (repeat' split) <;> simp only [logEntry_keep P hP, raiseEvent_keep P (fun s x0 => hP s s.host x0 s.out), hP]
/-- What `memoryAlarm` leaves alone. -/
@[simp] theorem memoryAlarm_frame (region block kind : Nat) (s : State) : (memoryAlarm region block kind s).time = s.time ∧ (memoryAlarm region block kind s).power = s.power ∧ (memoryAlarm region block kind s).ctl = s.ctl ∧ (memoryAlarm region block kind s).urz = s.urz ∧ (memoryAlarm region block kind s).rng = s.rng ∧ (memoryAlarm region block kind s).keys = s.keys ∧ (memoryAlarm region block kind s).cls = s.cls ∧ (memoryAlarm region block kind s).fab = s.fab ∧ (memoryAlarm region block kind s).path = s.path ∧ (memoryAlarm region block kind s).otn = s.otn ∧ (memoryAlarm region block kind s).mpu = s.mpu ∧ (memoryAlarm region block kind s).free = s.free ∧ (memoryAlarm region block kind s).pending = s.pending :=
  ⟨memoryAlarm_keep State.time (fun _ _ _ _ => rfl) region block kind s, memoryAlarm_keep State.power (fun _ _ _ _ => rfl) region block kind s, memoryAlarm_keep State.ctl (fun _ _ _ _ => rfl) region block kind s, memoryAlarm_keep State.urz (fun _ _ _ _ => rfl) region block kind s, memoryAlarm_keep State.rng (fun _ _ _ _ => rfl) region block kind s, memoryAlarm_keep State.keys (fun _ _ _ _ => rfl) region block kind s, memoryAlarm_keep State.cls (fun _ _ _ _ => rfl) region block kind s, memoryAlarm_keep State.fab (fun _ _ _ _ => rfl) region block kind s, memoryAlarm_keep State.path (fun _ _ _ _ => rfl) region block kind s, memoryAlarm_keep State.otn (fun _ _ _ _ => rfl) region block kind s, memoryAlarm_keep State.mpu (fun _ _ _ _ => rfl) region block kind s, memoryAlarm_keep State.free (fun _ _ _ _ => rfl) region block kind s, memoryAlarm_keep State.pending (fun _ _ _ _ => rfl) region block kind s⟩

end Sys2Proof.Machine
end

