-- ==== Sys2Proof/Laws/Memory.lean ====
section
/-! SUPPORT. The HBM as stored octets: reading after storing, and the canonical form that every store keeps. -/
namespace Sys2Proof.Machine

@[simp] theorem Memory.byte_store_same (a : Nat) (b : Byte) (m : List Host.Cell) : Memory.byte (Memory.store a b m) a = b := by
  unfold Memory.byte Memory.store; rw [Tab.find_put_same]; rfl

theorem Memory.byte_store_other {a c : Nat} (h : c ≠ a) (b : Byte) (m : List Host.Cell) : Memory.byte (Memory.store a b m) c = Memory.byte m c := by
  unfold Memory.byte Memory.store; rw [Tab.find_put_other h]

/-- An octet outside the stored ones reads as before. -/
theorem Memory.byte_storeAll_other {a c : Nat} (d : Octets) (m : List Host.Cell) (h : c < a ∨ a + d.length ≤ c) : Memory.byte (Memory.storeAll a d m) c = Memory.byte m c := by
  induction d generalizing a m with
  | nil => rfl
  | cons b t ih =>
    simp only [List.length_cons] at h
    unfold Memory.storeAll
    rw [ih _ (by omega), Memory.byte_store_other (by omega)]

/-- A stored octet reads back. -/
theorem Memory.byte_storeAll_same {a i : Nat} (d : Octets) (m : List Host.Cell) (h : i < d.length) : Memory.byte (Memory.storeAll a d m) (a + i) = d[i] := by
  induction d generalizing a m i with
  | nil => simp at h
  | cons b t ih =>
    unfold Memory.storeAll
    cases i with
    | zero => rw [Memory.byte_storeAll_other _ _ (by omega)]; simp
    | succ i =>
      simp only [List.length_cons] at h
      have := ih (a := a + 1) (Memory.store a b m) (i := i) (by omega)
      rw [show a + (i + 1) = a + 1 + i by omega, this]; rfl

/-- What has been stored loads back whole. -/
theorem Memory.load_storeAll (a : Nat) (d : Octets) (m : List Host.Cell) : Memory.load (Memory.storeAll a d m) a d.length = d := by
  unfold Memory.load
  apply List.ext_getElem
  · simp
  · intro i h1 h2
    simp [Memory.byte_storeAll_same d m h2]

/-- Storing an octet keeps the canonical form, and makes none that was not there. -/
theorem Memory.wf_store (a : Nat) (b : Byte) (m : List Host.Cell) : Memory.wf (Memory.store a b m) = Memory.wf m := by
  unfold Memory.store
  induction m with
  | nil => rfl
  | cons p t ih =>
    obtain ⟨i, x⟩ := p
    unfold Tab.put
    split
    · rename_i h; simp [Memory.wf, h]
    · split
      · rename_i h; subst h; cases t <;> rfl
      · rename_i h1 h2
        cases t with
        | nil => simp [Tab.put, Memory.wf]; omega
        | cons q t =>
          obtain ⟨j, y⟩ := q
          unfold Tab.put at ih ⊢
          split at ih
          · rename_i h3
            have : i < j := by omega
            have : i < a := by omega
            simp_all [Memory.wf]
          · split at ih
            · simp_all [Memory.wf]
            · rename_i h3 h4
              rw [if_neg h3, if_neg h4]; show (decide (i < j) && _) = _; rw [ih]; rfl
/-- So does storing several. -/
theorem Memory.wf_storeAll (a : Nat) (d : Octets) (m : List Host.Cell) : Memory.wf (Memory.storeAll a d m) = Memory.wf m := by
  induction d generalizing a m with
  | nil => rfl
  | cons b t ih => unfold Memory.storeAll; rw [ih, Memory.wf_store]

end Sys2Proof.Machine
end

