-- ==== Sys2Proof/Laws/KeepRng.lean ====
section
/-! SUPPORT. What the operations and meanings of Machine/Rng.lean leave alone: `f_keep` says that whatever is read from
the state without looking at the components `f` may change is the same after `f`. -/
set_option linter.all false
namespace Sys2Proof.Machine

theorem updSource_keep {β : Type} (P : State → β) (hP : ∀ s x0, P { s with rng := x0 } = P s) (k : Nat) (f : Source → Source) (s : State) : P (updSource k f s) = P s := by
  unfold updSource; (repeat' split) <;> simp only [hP]

theorem rngAnswer_keep {β : Type} (P : State → β) (hP : ∀ s x0 x1, P { s with rng := x0, out := x1 } = P s) (wide : Bool) (stall : Nat) (data : Option Octets) (s : State) : P (rngAnswer wide stall data s) = P s := by
  unfold rngAnswer; (repeat' split) <;> simp only [emit_keep P (fun s x0 => hP s s.rng x0), hP]

theorem rngTake_keep {β : Type} (P : State → β) (hP : ∀ s x0 x1, P { s with rng := x0, out := x1 } = P s) (wide : Bool) (stall : Nat) (s : State) : P (rngTake wide stall s) = P s := by
  unfold rngTake; (repeat' split) <;> simp only [rngAnswer_keep P hP, hP]

theorem rngRefill_keep {β : Type} (P : State → β) (hP : ∀ s x0, P { s with rng := x0 } = P s) (s q : State) (e : rngRefill s = some q) : P q = P s := by
  unfold rngRefill at e; (repeat' split at e) <;> simp at e; have f := rngDraw_keep P hP _ _ _ ‹_›; subst e; simp only [hP]; exact f

theorem rngDataRead_keep {β : Type} (P : State → β) (hP : ∀ s x0 x1 x2, P { s with time := x0, rng := x1, out := x2 } = P s) (wide : Bool) (stall : Nat) (s : State) : P (rngDataRead wide stall s) = P s := by
  unfold rngDataRead; (repeat' split); (· simp only [rngAsk_keep P (fun s x0 => hP s s.time x0 s.out), rngTake_keep P (fun s x0 x1 => hP s s.time x0 x1), waitCycle_keep P (fun s x0 => hP s x0 s.rng s.out), hP]); (· have f := rngRefill_keep P (fun s x0 => hP s s.time x0 s.out) _ _ ‹_›; simp only [rngAsk_keep P (fun s x0 => hP s s.time x0 s.out), rngTake_keep P (fun s x0 x1 => hP s s.time x0 x1), waitCycle_keep P (fun s x0 => hP s x0 s.rng s.out), hP] at f ⊢; exact f); (· simp only [rngAsk_keep P (fun s x0 => hP s s.time x0 s.out), rngTake_keep P (fun s x0 x1 => hP s s.time x0 x1), waitCycle_keep P (fun s x0 => hP s x0 s.rng s.out), hP])

theorem rngEndReads_keep {β : Type} (P : State → β) (hP : ∀ s x0 x1, P { s with rng := x0, out := x1 } = P s) (s : State) : P (rngEndReads s) = P s := by
  unfold rngEndReads; repeat' (first | with_reducible rfl | split | simp only [rngAnswer_keep P hP, hP] | (with_reducible refine (keep (fun _ _ => by (repeat' (first | with_reducible rfl | split | simp only [rngAnswer_keep P hP, hP])))).trans ?_) | (with_reducible refine (keep2 (fun _ _ => by (repeat' (first | with_reducible rfl | split | simp only [rngAnswer_keep P hP, hP])))).trans ?_))

theorem logSource_keep {β : Type} (P : State → β) (hP : ∀ s x0 x1 x2, P { s with host := x0, rest := x1, out := x2 } = P s) (k st : Nat) (s : State) : P (logSource k st s) = P s := by
  unfold logSource; (repeat' split) <;> simp only [logEntry_keep P hP, hP]

theorem sourceLimit_keep {β : Type} (P : State → β) (hP : ∀ s x0 x1 x2 x3, P { s with host := x0, rng := x1, rest := x2, out := x3 } = P s) (k : Nat) (s : State) : P (sourceLimit k s) = P s := by
  unfold sourceLimit; dsimp only; (repeat' split) <;> simp only [logSource_keep P (fun s x0 x1 x2 => hP s x0 s.rng x1 x2), post_keep P (fun s x0 x1 => hP s x0 s.rng s.rest x1), raiseEvent_keep P (fun s x0 => hP s s.host s.rng x0 s.out), updSource_keep P (fun s x0 => hP s s.host x0 s.rest s.out), hP]

theorem captureLost_keep {β : Type} (P : State → β) (hP : ∀ s x0, P { s with rng := x0 } = P s) (k : Nat) (s : State) : P (captureLost k s) = P s := by
  unfold captureLost; (repeat' split) <;> simp only [hP]

theorem sourceIsolate_keep {β : Type} (P : State → β) (hP : ∀ s x0, P { s with rng := x0 } = P s) (k fails : Nat) (s : State) : P (sourceIsolate k fails s) = P s := by
  unfold sourceIsolate; (repeat' split) <;> simp only [captureLost_keep P hP, updSource_keep P hP, hP]

theorem sourceFail_keep {β : Type} (P : State → β) (hP : ∀ s x0 x1 x2 x3, P { s with host := x0, rng := x1, rest := x2, out := x3 } = P s) (k : Nat) (t : HealthTest) (s : State) : P (sourceFail k t s) = P s := by
  unfold sourceFail; dsimp only; (repeat' split) <;> simp only [logSource_keep P (fun s x0 x1 x2 => hP s x0 s.rng x1 x2), raiseEvent_keep P (fun s x0 => hP s s.host s.rng x0 s.out), sourceIsolate_keep P (fun s x0 => hP s s.host x0 s.rest s.out), sourceLimit_keep P hP, hP]

theorem blockReady_keep {β : Type} (P : State → β) (hP : ∀ s x0 x1 x2 x3 x4, P { s with time := x0, host := x1, rng := x2, rest := x3, out := x4 } = P s) (k : Nat) (raw : Octets) (s : State) : P (blockReady k raw s) = P s := by
  unfold blockReady; dsimp only; (repeat' split) <;> simp only [sourceFail_keep P (fun s x0 x1 x2 x3 => hP s s.time x0 x1 x2 x3), updSource_keep P (fun s x0 => hP s s.time s.host x0 s.rest s.out), waitCycle_keep P (fun s x0 => hP s x0 s.host s.rng s.rest s.out), hP]

theorem sourceTested_keep {β : Type} (P : State → β) (hP : ∀ s x0 x1 x2 x3 x4, P { s with time := x0, host := x1, rng := x2, rest := x3, out := x4 } = P s) (k : Nat) (raw : Octets) (s : State) : P (sourceTested k raw s) = P s := by
  unfold sourceTested; dsimp only; (repeat' split) <;> simp only [sourceFail_keep P (fun s x0 x1 x2 x3 => hP s s.time x0 x1 x2 x3), updSource_keep P (fun s x0 => hP s s.time s.host x0 s.rest s.out), waitCycle_keep P (fun s x0 => hP s x0 s.host s.rng s.rest s.out), hP]

theorem sourcesStart_keep {β : Type} (P : State → β) (hP : ∀ s x0, P { s with rng := x0 } = P s) (h : Nat) (s : State) : P (sourcesStart h s) = P s := by
  unfold sourcesStart; repeat' (first | with_reducible rfl | split | simp only [updSource_keep P hP, hP] | (with_reducible refine (keep (fun _ _ => by (repeat' (first | with_reducible rfl | split | simp only [updSource_keep P hP, hP])))).trans ?_) | (with_reducible refine (keep2 (fun _ _ => by (repeat' (first | with_reducible rfl | split | simp only [updSource_keep P hP, hP])))).trans ?_))

theorem sourcesOff_keep {β : Type} (P : State → β) (hP : ∀ s x0, P { s with rng := x0 } = P s) (h : Nat) (s : State) : P (sourcesOff h s) = P s := by
  unfold sourcesOff; repeat' (first | with_reducible rfl | split | simp only [captureLost_keep P hP, updSource_keep P hP, hP] | (with_reducible refine (keep (fun _ _ => by (repeat' (first | with_reducible rfl | split | simp only [captureLost_keep P hP, updSource_keep P hP, hP])))).trans ?_) | (with_reducible refine (keep2 (fun _ _ => by (repeat' (first | with_reducible rfl | split | simp only [captureLost_keep P hP, updSource_keep P hP, hP])))).trans ?_))

theorem halfReset_keep {β : Type} (P : State → β) (hP : ∀ s x0 x1, P { s with power := x0, rng := x1 } = P s) (h cause : Nat) (s : State) : P (halfReset h cause s) = P s := by
  unfold halfReset; (repeat' split) <;> simp only [countDomainReset_keep P (fun s x0 => hP s x0 s.rng), setDomain_keep P (fun s x0 => hP s x0 s.rng), sourcesOff_keep P (fun s x0 => hP s s.power x0), hP]

theorem rngZeroize_keep {β : Type} (P : State → β) (hP : ∀ s x0 x1, P { s with rng := x0, out := x1 } = P s) (s : State) : P (rngZeroize s) = P s := by
  unfold rngZeroize; (repeat' split) <;> simp only [rngEndReads_keep P hP, hP]

theorem rngRemove_keep {β : Type} (P : State → β) (hP : ∀ s x0, P { s with rng := x0 } = P s) (r : RngReq) (s : State) : P (rngRemove r s) = P s := by
  unfold rngRemove; (repeat' split) <;> simp only [hP]

theorem maskSeed_keep {β : Type} (P : State → β) (hP : ∀ s x0, P { s with fab := x0 } = P s) (sp : Nat) (w : W256) (s : State) : P (maskSeed sp w s) = P s := by
  unfold maskSeed; (repeat' split) <;> simp only [hP]

theorem enrollOffer_keep {β : Type} (P : State → β) (hP : ∀ s x0 x1, P { s with keys := x0, free := x1 } = P s) (nk o : Octets) (s : State) : P (enrollOffer nk o s) = P s := by
  unfold enrollOffer; (repeat' split) <;> simp only [openValue_keep P (fun s x0 => hP s s.keys x0), hP]

theorem slotKeyTake_keep {β : Type} (P : State → β) (hP : ∀ s x0, P { s with keys := x0 } = P s) (w : W64) (s : State) : P (slotKeyTake w s) = P s := by
  unfold slotKeyTake; (repeat' split) <;> simp only [hP]

theorem rngGive_keep {β : Type} (P : State → β) (hP : ∀ s x0 x1 x2 x3 x4 x5, Memory.wf x4.hbm = Memory.wf s.mpu.hbm → P { s with rng := x0, rest := x1, keys := x2, fab := x3, mpu := x4, free := x5 } = P s) (who : Consumer) (o : Octets) (s : State) : P (rngGive who o s) = P s := by
  unfold rngGive; (repeat' split) <;> simp only [enrollOffer_keep P (fun s x0 x1 => hP s s.rng s.rest x0 s.fab s.mpu x1 rfl), maskSeed_keep P (fun s x0 => hP s s.rng s.rest s.keys x0 s.mpu s.free rfl), slotKeyTake_keep P (fun s x0 => hP s s.rng s.rest x0 s.fab s.mpu s.free rfl), hP]

theorem rngServe_keep {β : Type} (P : State → β) (hP : ∀ s x0 x1 x2 x3 x4 x5 x6, Memory.wf x4.hbm = Memory.wf s.mpu.hbm → P { s with rng := x0, rest := x1, keys := x2, fab := x3, mpu := x4, out := x5, free := x6 } = P s) (r : RngReq) (s : State) : P (rngServe r s) = P s := by
  unfold rngServe; (repeat' split) <;> (try have f := rngRefill_keep P (fun s x0 => hP s x0 s.rest s.keys s.fab s.mpu s.out s.free rfl) _ _ ‹_›) <;> (try have f := rngDraw_keep P (fun s x0 => hP s x0 s.rest s.keys s.fab s.mpu s.out s.free rfl) _ _ _ ‹_›) <;> (try simp only [rngGive_keep P (fun s x0 x1 x2 x3 x4 x5 h => hP s x0 x1 x2 x3 x4 s.out x5 h), rngRemove_keep P (fun s x0 => hP s x0 s.rest s.keys s.fab s.mpu s.out s.free rfl), rngTake_keep P (fun s x0 x1 => hP s x0 s.rest s.keys s.fab s.mpu x1 s.free rfl), hP]) <;> assumption

theorem rngReseed_keep {β : Type} (P : State → β) (hP : ∀ s x0 x1, P { s with time := x0, rng := x1 } = P s) (s : State) : P (rngReseed s) = P s := by
  unfold rngReseed; (repeat' split) <;> simp only [waitCycle_keep P (fun s x0 => hP s x0 s.rng), hP]

theorem captureStart_keep {β : Type} (P : State → β) (hP : ∀ s x0, P { s with rng := x0 } = P s) (k : Nat) (s : State) : P (captureStart k s) = P s := by
  unfold captureStart; (repeat' split) <;> simp only [updSource_keep P hP, hP]

end Sys2Proof.Machine
end

