-- ==== Sys2Proof/Laws/KeepMpu.lean ====
section
/-! SUPPORT. What the operations and meanings of Machine/Mpu.lean leave alone: `f_keep` says that whatever is read from
the state without looking at the components `f` may change is the same after `f`. -/
set_option linter.all false
set_option exponentiation.threshold 600
namespace Sys2Proof.Machine

theorem setErrors_keep {β : Type} (P : State → β) (hP : ∀ s x0, Memory.wf x0.hbm = Memory.wf s.mpu.hbm → P { s with mpu := x0 } = P s) (line m : Nat) (s : State) : P (setErrors line m s) = P s := by
  unfold setErrors; (repeat' split) <;> simp only [hP]

theorem physWrite_keep {β : Type} (P : State → β) (hP : ∀ s x0, Memory.wf x0.hbm = Memory.wf s.mpu.hbm → P { s with mpu := x0 } = P s) (p : Nat) (b : Octets) (s : State) : P (physWrite p b s) = P s := by
  unfold physWrite; (repeat' split) <;> simp only [setErrors_keep P hP, hP, Memory.wf_store, Memory.wf_storeAll]

theorem memCount_keep {β : Type} (P : State → β) (hP : ∀ s x0, Memory.wf x0.hbm = Memory.wf s.mpu.hbm → P { s with mpu := x0 } = P s) (i n : Nat) (s : State) : P (memCount i n s) = P s := by
  unfold memCount; (repeat' split) <;> simp only [hP]

theorem cacheCount_keep {β : Type} (P : State → β) (hP : ∀ s x0, Memory.wf x0.hbm = Memory.wf s.mpu.hbm → P { s with mpu := x0 } = P s) (i : Nat) (s : State) : P (cacheCount i s) = P s := by
  unfold cacheCount; (repeat' split) <;> simp only [hP]

theorem memLatch_keep {β : Type} (P : State → β) (hP : ∀ s x0, Memory.wf x0.hbm = Memory.wf s.mpu.hbm → P { s with mpu := x0 } = P s) (i : Nat) (s : State) : P (memLatch i s) = P s := by
  unfold memLatch; (repeat' split) <;> simp only [hP]

theorem memReport_keep {β : Type} (P : State → β) (hP : ∀ s x0 x1 x2 x3, Memory.wf x2.hbm = Memory.wf s.mpu.hbm → P { s with host := x0, rest := x1, mpu := x2, out := x3 } = P s) (alarm : Bool) (region block : Nat) (s : State) : P (memReport alarm region block s) = P s := by
  unfold memReport; (repeat' split) <;> simp only [memLatch_keep P (fun s x0 h => hP s s.host s.rest x0 s.out h), memoryAlarm_keep P (fun s x0 x1 x2 => hP s x0 x1 s.mpu x2 rfl), memoryEvent_keep P (fun s x0 x1 x2 => hP s x0 x1 s.mpu x2 rfl), hP]

theorem physRead_keep {β : Type} (P : State → β) (hP : ∀ s x0, Memory.wf x0.hbm = Memory.wf s.mpu.hbm → P { s with mpu := x0 } = P s) (p n : Nat) (s : State) : P (physRead p n s).2 = P s := by
  unfold physRead; dsimp only; (repeat' split) <;> simp only [memCount_keep P hP, setErrors_keep P hP, hP]

theorem poisonLines_keep {β : Type} (P : State → β) (hP : ∀ s x0 x1 x2 x3, Memory.wf x2.hbm = Memory.wf s.mpu.hbm → P { s with host := x0, rest := x1, mpu := x2, out := x3 } = P s) (b : Nat) (map : W64) (s : State) : P (poisonLines b map s) = P s := by
  unfold poisonLines; dsimp only; (repeat' split) <;> simp only [memCount_keep P (fun s x0 h => hP s s.host s.rest x0 s.out h), memReport_keep P hP, hP]

theorem storeRefetch_keep {β : Type} (P : State → β) (hP : ∀ s x0 x1 x2, Memory.wf x1.hbm = Memory.wf s.mpu.hbm → P { s with host := x0, mpu := x1, out := x2 } = P s) (region index : Nat) (s : State) : P (storeRefetch region index s) = P s := by
  unfold storeRefetch; dsimp only; (repeat' split) <;> simp only [memCount_keep P (fun s x0 h => hP s s.host x0 s.out h), memLatch_keep P (fun s x0 h => hP s s.host x0 s.out h), post_keep P (fun s x0 x1 => hP s x0 s.mpu x1 rfl), hP]

theorem loseLine_keep {β : Type} (P : State → β) (hP : ∀ s x0 x1 x2 x3, Memory.wf x2.hbm = Memory.wf s.mpu.hbm → P { s with host := x0, rest := x1, mpu := x2, out := x3 } = P s) (a : Nat) (s : State) : P (loseLine a s) = P s := by
  unfold loseLine; dsimp only; (repeat' split) <;> simp only [memReport_keep P hP, poisonLines_keep P hP, storeRefetch_keep P (fun s x0 x1 x2 h => hP s x0 s.rest x1 x2 h), hP]

theorem metaWrite_keep {β : Type} (P : State → β) (hP : ∀ s x0, Memory.wf x0.hbm = Memory.wf s.mpu.hbm → P { s with mpu := x0 } = P s) (m : Nat) (c tag : Octets) (s : State) : P (metaWrite m c tag s) = P s := by
  unfold metaWrite; (repeat' split) <;> simp only [physWrite_keep P hP, hP]

theorem metaCopy_keep {β : Type} (P : State → β) (hP : ∀ s x0, Memory.wf x0.hbm = Memory.wf s.mpu.hbm → P { s with mpu := x0 } = P s) (m : Nat) (parent : Split) (slot : Nat) (line tag other : Nat) (s : State) : P (metaCopy m parent slot line tag other s).2.2 = P s := by
  unfold metaCopy; dsimp only; (repeat' split) <;> simp only [memCount_keep P hP, physRead_keep P hP, hP]

theorem metaFetch_keep {β : Type} (P : State → β) (hP : ∀ s x0 x1 x2 x3, Memory.wf x2.hbm = Memory.wf s.mpu.hbm → P { s with host := x0, rest := x1, mpu := x2, out := x3 } = P s) (m : Nat) (parent : Split) (slot block : Nat) (s : State) : P (metaFetch m parent slot block s).2 = P s := by
  unfold metaFetch; dsimp only; (repeat' split) <;> simp only [memCount_keep P (fun s x0 h => hP s s.host s.rest x0 s.out h), memReport_keep P hP, metaCopy_keep P (fun s x0 h => hP s s.host s.rest x0 s.out h), metaWrite_keep P (fun s x0 h => hP s s.host s.rest x0 s.out h), hP]

theorem metaScrub_keep {β : Type} (P : State → β) (hP : ∀ s x0 x1 x2 x3, Memory.wf x2.hbm = Memory.wf s.mpu.hbm → P { s with host := x0, rest := x1, mpu := x2, out := x3 } = P s) (m : Nat) (parent : Split) (slot block : Nat) (s : State) : P (metaScrub m parent slot block s).2 = P s := by
  unfold metaScrub; dsimp only; (repeat' split) <;> simp only [memCount_keep P (fun s x0 h => hP s s.host s.rest x0 s.out h), memReport_keep P hP, metaCopy_keep P (fun s x0 h => hP s s.host s.rest x0 s.out h), metaWrite_keep P (fun s x0 h => hP s s.host s.rest x0 s.out h), hP]

theorem cachePut_keep {β : Type} (P : State → β) (hP : ∀ s x0, Memory.wf x0.hbm = Memory.wf s.mpu.hbm → P { s with mpu := x0 } = P s) (m : Nat) (c : Split) (dirty : Bool) (s : State) : P (cachePut m c dirty s) = P s := by
  unfold cachePut; (repeat' split) <;> simp only [hP]

theorem loseBlock_keep {β : Type} (P : State → β) (hP : ∀ s x0 x1 x2 x3, Memory.wf x2.hbm = Memory.wf s.mpu.hbm → P { s with host := x0, rest := x1, mpu := x2, out := x3 } = P s) (b : Nat) (s : State) : P (loseBlock b s) = P s := by
  unfold loseBlock; repeat' (first | with_reducible rfl | split | simp only [memCount_keep P (fun s x0 h => hP s s.host s.rest x0 s.out h), memReport_keep P hP, poisonLines_keep P hP, storeRefetch_keep P (fun s x0 x1 x2 h => hP s x0 s.rest x1 x2 h), hP] | (with_reducible refine (keep (fun _ _ => by (repeat' (first | with_reducible rfl | split | simp only [memCount_keep P (fun s x0 h => hP s s.host s.rest x0 s.out h), memReport_keep P hP, poisonLines_keep P hP, storeRefetch_keep P (fun s x0 x1 x2 h => hP s x0 s.rest x1 x2 h), hP])))).trans ?_) | (with_reducible refine (keep2 (fun _ _ => by (repeat' (first | with_reducible rfl | split | simp only [memCount_keep P (fun s x0 h => hP s s.host s.rest x0 s.out h), memReport_keep P hP, poisonLines_keep P hP, storeRefetch_keep P (fun s x0 x1 x2 h => hP s x0 s.rest x1 x2 h), hP])))).trans ?_))

theorem node1_keep {β : Type} (P : State → β) (hP : ∀ s x0 x1 x2 x3, Memory.wf x2.hbm = Memory.wf s.mpu.hbm → P { s with host := x0, rest := x1, mpu := x2, out := x3 } = P s) (j : Nat) (s : State) : P (node1 j s).2 = P s := by
  unfold node1; repeat' (first | with_reducible rfl | split | simp only [cacheCount_keep P (fun s x0 h => hP s s.host s.rest x0 s.out h), cachePut_keep P (fun s x0 h => hP s s.host s.rest x0 s.out h), loseBlock_keep P hP, metaFetch_keep P hP, hP] | (with_reducible refine (keep (fun _ _ => by (repeat' (first | with_reducible rfl | split | simp only [cacheCount_keep P (fun s x0 h => hP s s.host s.rest x0 s.out h), cachePut_keep P (fun s x0 h => hP s s.host s.rest x0 s.out h), loseBlock_keep P hP, metaFetch_keep P hP, hP])))).trans ?_) | (with_reducible refine (keep2 (fun _ _ => by (repeat' (first | with_reducible rfl | split | simp only [cacheCount_keep P (fun s x0 h => hP s s.host s.rest x0 s.out h), cachePut_keep P (fun s x0 h => hP s s.host s.rest x0 s.out h), loseBlock_keep P hP, metaFetch_keep P hP, hP])))).trans ?_))

theorem counterLine_keep {β : Type} (P : State → β) (hP : ∀ s x0 x1 x2 x3, Memory.wf x2.hbm = Memory.wf s.mpu.hbm → P { s with host := x0, rest := x1, mpu := x2, out := x3 } = P s) (b : Nat) (s : State) : P (counterLine b s).2 = P s := by
  unfold counterLine; repeat' (first | with_reducible rfl | split | simp only [cacheCount_keep P (fun s x0 h => hP s s.host s.rest x0 s.out h), cachePut_keep P (fun s x0 h => hP s s.host s.rest x0 s.out h), loseBlock_keep P hP, metaFetch_keep P hP, node1_keep P hP, hP] | (with_reducible refine (keep (fun _ _ => by (repeat' (first | with_reducible rfl | split | simp only [cacheCount_keep P (fun s x0 h => hP s s.host s.rest x0 s.out h), cachePut_keep P (fun s x0 h => hP s s.host s.rest x0 s.out h), loseBlock_keep P hP, metaFetch_keep P hP, node1_keep P hP, hP])))).trans ?_) | (with_reducible refine (keep2 (fun _ _ => by (repeat' (first | with_reducible rfl | split | simp only [cacheCount_keep P (fun s x0 h => hP s s.host s.rest x0 s.out h), cachePut_keep P (fun s x0 h => hP s s.host s.rest x0 s.out h), loseBlock_keep P hP, metaFetch_keep P hP, node1_keep P hP, hP])))).trans ?_))

theorem retag_keep {β : Type} (P : State → β) (hP : ∀ s x0, Memory.wf x0.hbm = Memory.wf s.mpu.hbm → P { s with mpu := x0 } = P s) (base : Nat) (old new : Split) (s : State) : P (retag base old new s) = P s := by
  unfold retag; repeat' (first | with_reducible rfl | split | simp only [metaWrite_keep P hP, hP] | (with_reducible refine (keep (fun _ _ => by (repeat' (first | with_reducible rfl | split | simp only [metaWrite_keep P hP, hP])))).trans ?_) | (with_reducible refine (keep2 (fun _ _ => by (repeat' (first | with_reducible rfl | split | simp only [metaWrite_keep P hP, hP])))).trans ?_))

theorem level2Put_keep {β : Type} (P : State → β) (hP : ∀ s x0, Memory.wf x0.hbm = Memory.wf s.mpu.hbm → P { s with mpu := x0 } = P s) (n : Nat) (c : Split) (s : State) : P (level2Put n c s) = P s := by
  unfold level2Put; (repeat' split) <;> simp only [hP]

theorem writeBack_keep {β : Type} (P : State → β) (hP : ∀ s x0 x1 x2 x3, Memory.wf x2.hbm = Memory.wf s.mpu.hbm → P { s with host := x0, rest := x1, mpu := x2, out := x3 } = P s) (m : Nat) (s : State) : P (writeBack m s) = P s := by
  unfold writeBack; dsimp only; (repeat' split) <;> simp only [cacheCount_keep P (fun s x0 h => hP s s.host s.rest x0 s.out h), cachePut_keep P (fun s x0 h => hP s s.host s.rest x0 s.out h), level2Put_keep P (fun s x0 h => hP s s.host s.rest x0 s.out h), metaWrite_keep P (fun s x0 h => hP s s.host s.rest x0 s.out h), node1_keep P hP, retag_keep P (fun s x0 h => hP s s.host s.rest x0 s.out h), hP]

theorem writeBackChildren_keep {β : Type} (P : State → β) (hP : ∀ s x0 x1 x2 x3, Memory.wf x2.hbm = Memory.wf s.mpu.hbm → P { s with host := x0, rest := x1, mpu := x2, out := x3 } = P s) (m : Nat) (s : State) : P (writeBackChildren m s) = P s := by
  unfold writeBackChildren; repeat' (first | with_reducible rfl | split | simp only [writeBack_keep P hP, hP] | (with_reducible refine (keep (fun _ _ => by (repeat' (first | with_reducible rfl | split | simp only [writeBack_keep P hP, hP])))).trans ?_) | (with_reducible refine (keep2 (fun _ _ => by (repeat' (first | with_reducible rfl | split | simp only [writeBack_keep P hP, hP])))).trans ?_))

theorem evict_keep {β : Type} (P : State → β) (hP : ∀ s x0 x1 x2 x3, Memory.wf x2.hbm = Memory.wf s.mpu.hbm → P { s with host := x0, rest := x1, mpu := x2, out := x3 } = P s) (m : Nat) (s : State) : P (evict m s) = P s := by
  unfold evict; (repeat' split) <;> simp only [writeBack_keep P hP, writeBackChildren_keep P hP, hP]

theorem writeBackAll_keep {β : Type} (P : State → β) (hP : ∀ s x0 x1 x2 x3, Memory.wf x2.hbm = Memory.wf s.mpu.hbm → P { s with host := x0, rest := x1, mpu := x2, out := x3 } = P s) (s : State) : P (writeBackAll s) = P s := by
  unfold writeBackAll; repeat' (first | with_reducible rfl | split | simp only [writeBack_keep P hP, hP] | (with_reducible refine (keep (fun _ _ => by (repeat' (first | with_reducible rfl | split | simp only [writeBack_keep P hP, hP])))).trans ?_) | (with_reducible refine (keep2 (fun _ _ => by (repeat' (first | with_reducible rfl | split | simp only [writeBack_keep P hP, hP])))).trans ?_))

theorem closeParity_keep {β : Type} (P : State → β) (hP : ∀ s x0, Memory.wf x0.hbm = Memory.wf s.mpu.hbm → P { s with mpu := x0 } = P s) (b : Nat) (s : State) : P (closeParity b s) = P s := by
  unfold closeParity; (repeat' split) <;> simp only [physWrite_keep P hP, hP]

theorem foldParity_keep {β : Type} (P : State → β) (hP : ∀ s x0, Memory.wf x0.hbm = Memory.wf s.mpu.hbm → P { s with mpu := x0 } = P s) (b : Nat) (old new : Octets) (full : Bool) (s : State) : P (foldParity b old new full s) = P s := by
  unfold foldParity; (repeat' split) <;> simp only [closeParity_keep P hP, hP]

theorem recover_keep {β : Type} (P : State → β) (hP : ∀ s x0 x1 x2 x3, Memory.wf x2.hbm = Memory.wf s.mpu.hbm → P { s with host := x0, rest := x1, mpu := x2, out := x3 } = P s) (key a : Nat) (c : Split) (s : State) : P (recover key a c s).2 = P s := by
  unfold recover; dsimp only; (repeat' split) <;> simp only [loseLine_keep P hP, memCount_keep P (fun s x0 h => hP s s.host s.rest x0 s.out h), memReport_keep P hP, physRead_keep P (fun s x0 h => hP s s.host s.rest x0 s.out h), physWrite_keep P (fun s x0 h => hP s s.host s.rest x0 s.out h), hP]

theorem readLine_keep {β : Type} (P : State → β) (hP : ∀ s x0 x1 x2 x3, Memory.wf x2.hbm = Memory.wf s.mpu.hbm → P { s with host := x0, rest := x1, mpu := x2, out := x3 } = P s) (key a : Nat) (s : State) : P (readLine key a s).2 = P s := by
  unfold readLine; dsimp only; (repeat' split) <;> simp only [counterLine_keep P hP, memCount_keep P (fun s x0 h => hP s s.host s.rest x0 s.out h), physRead_keep P (fun s x0 h => hP s s.host s.rest x0 s.out h), recover_keep P hP, hP]

theorem retireBlock_keep {β : Type} (P : State → β) (hP : ∀ s x0 x1 x2 x3, Memory.wf x2.hbm = Memory.wf s.mpu.hbm → P { s with host := x0, rest := x1, mpu := x2, out := x3 } = P s) (b : Nat) (s : State) : P (retireBlock b s) = P s := by
  unfold retireBlock; (repeat' split) <;> simp only [memCount_keep P (fun s x0 h => hP s s.host s.rest x0 s.out h), memLatch_keep P (fun s x0 h => hP s s.host s.rest x0 s.out h), poisonLines_keep P hP, post_keep P (fun s x0 x1 => hP s x0 s.rest s.mpu x1 rfl), hP]

theorem putLine_keep {β : Type} (P : State → β) (hP : ∀ s x0, Memory.wf x0.hbm = Memory.wf s.mpu.hbm → P { s with mpu := x0 } = P s) (key a major minor : Nat) (data : Octets) (s : State) : P (putLine key a major minor data s) = P s := by
  unfold putLine; (repeat' split) <;> simp only [physWrite_keep P hP, hP]

theorem newMajor_keep {β : Type} (P : State → β) (hP : ∀ s x0, Memory.wf x0.hbm = Memory.wf s.mpu.hbm → P { s with mpu := x0 } = P s) (key : Nat) (s : State) (q : W64 × State) (e : newMajor key s = some q) : P q.2 = P s := by
  unfold newMajor at e; dsimp only at e; split at e <;> simp at e; subst e; simp only [hP]

theorem reencrypt_keep {β : Type} (P : State → β) (hP : ∀ s x0 x1 x2 x3, Memory.wf x2.hbm = Memory.wf s.mpu.hbm → P { s with host := x0, rest := x1, mpu := x2, out := x3 } = P s) (key a : Nat) (data : Octets) (c : Split) (s : State) : P (reencrypt key a data c s) = P s := by
  unfold reencrypt; dsimp only; split; (· simp only [cachePut_keep P (fun s x0 h => hP s s.host s.rest x0 s.out h), putLine_keep P (fun s x0 h => hP s s.host s.rest x0 s.out h), readLine_keep P hP, retireBlock_keep P hP, hP]); have f := newMajor_keep P (fun s x0 h => hP s s.host s.rest x0 s.out h) _ _ _ ‹_›; rw [← f]; dsimp only; (repeat' (first | with_reducible rfl | split | simp only [cachePut_keep P (fun s x0 h => hP s s.host s.rest x0 s.out h), putLine_keep P (fun s x0 h => hP s s.host s.rest x0 s.out h), readLine_keep P hP, retireBlock_keep P hP, hP] | (refine (keep (fun _ _ => by (repeat' (first | with_reducible rfl | split | simp only [cachePut_keep P (fun s x0 h => hP s s.host s.rest x0 s.out h), putLine_keep P (fun s x0 h => hP s s.host s.rest x0 s.out h), readLine_keep P hP, retireBlock_keep P hP, hP])))).trans ?_) | (refine (keep2 (fun _ _ => by (repeat' (first | with_reducible rfl | split | simp only [cachePut_keep P (fun s x0 h => hP s s.host s.rest x0 s.out h), putLine_keep P (fun s x0 h => hP s s.host s.rest x0 s.out h), readLine_keep P hP, retireBlock_keep P hP, hP])))).trans ?_)))

theorem clearPoison_keep {β : Type} (P : State → β) (hP : ∀ s x0, Memory.wf x0.hbm = Memory.wf s.mpu.hbm → P { s with mpu := x0 } = P s) (a : Nat) (s : State) : P (clearPoison a s) = P s := by
  unfold clearPoison; dsimp only; (repeat' split) <;> simp only [hP]

theorem writeLine_keep {β : Type} (P : State → β) (hP : ∀ s x0 x1 x2 x3, Memory.wf x2.hbm = Memory.wf s.mpu.hbm → P { s with host := x0, rest := x1, mpu := x2, out := x3 } = P s) (key a : Nat) (data : Octets) (s : State) : P (writeLine key a data s) = P s := by
  unfold writeLine; repeat' (first | with_reducible rfl | split | simp only [cachePut_keep P (fun s x0 h => hP s s.host s.rest x0 s.out h), clearPoison_keep P (fun s x0 h => hP s s.host s.rest x0 s.out h), counterLine_keep P hP, foldParity_keep P (fun s x0 h => hP s s.host s.rest x0 s.out h), memCount_keep P (fun s x0 h => hP s s.host s.rest x0 s.out h), putLine_keep P (fun s x0 h => hP s s.host s.rest x0 s.out h), reencrypt_keep P hP, hP] | (with_reducible refine (keep (fun _ _ => by (repeat' (first | with_reducible rfl | split | simp only [cachePut_keep P (fun s x0 h => hP s s.host s.rest x0 s.out h), clearPoison_keep P (fun s x0 h => hP s s.host s.rest x0 s.out h), counterLine_keep P hP, foldParity_keep P (fun s x0 h => hP s s.host s.rest x0 s.out h), memCount_keep P (fun s x0 h => hP s s.host s.rest x0 s.out h), putLine_keep P (fun s x0 h => hP s s.host s.rest x0 s.out h), reencrypt_keep P hP, hP])))).trans ?_) | (with_reducible refine (keep2 (fun _ _ => by (repeat' (first | with_reducible rfl | split | simp only [cachePut_keep P (fun s x0 h => hP s s.host s.rest x0 s.out h), clearPoison_keep P (fun s x0 h => hP s s.host s.rest x0 s.out h), counterLine_keep P hP, foldParity_keep P (fun s x0 h => hP s s.host s.rest x0 s.out h), memCount_keep P (fun s x0 h => hP s s.host s.rest x0 s.out h), putLine_keep P (fun s x0 h => hP s s.host s.rest x0 s.out h), reencrypt_keep P hP, hP])))).trans ?_))

theorem refuseRequest_keep {β : Type} (P : State → β) (hP : ∀ s x0 x1 x2 x3, Memory.wf x2.hbm = Memory.wf s.mpu.hbm → P { s with host := x0, rest := x1, mpu := x2, out := x3 } = P s) (addr : Nat) (s : State) : P (refuseRequest addr s) = P s := by
  unfold refuseRequest; (repeat' split) <;> simp only [memCount_keep P (fun s x0 h => hP s s.host s.rest x0 s.out h), memLatch_keep P (fun s x0 h => hP s s.host s.rest x0 s.out h), memReport_keep P hP, hP]

theorem readLines_keep {β : Type} (P : State → β) (hP : ∀ s x0 x1 x2 x3, Memory.wf x2.hbm = Memory.wf s.mpu.hbm → P { s with host := x0, rest := x1, mpu := x2, out := x3 } = P s) (key a : Nat) (a0 : Nat) (a1 : State) : P (readLines key a a0 a1).2 = P a1 := by
  induction a0 generalizing a a1 with
  | zero => rfl
  | succ n ih => unfold readLines; repeat' (first | with_reducible rfl | split | simp only [ih, readLine_keep P hP, hP])

theorem writeOctets_keep {β : Type} (P : State → β) (hP : ∀ s x0 x1 x2 x3, Memory.wf x2.hbm = Memory.wf s.mpu.hbm → P { s with host := x0, rest := x1, mpu := x2, out := x3 } = P s) (key a : Nat) (d : Octets) (s : State) : P (writeOctets key a d s) = P s := by
  unfold writeOctets; dsimp only; (repeat' split) <;> simp only [readLine_keep P hP, writeLine_keep P hP, hP]

theorem stackPass_keep {β : Type} (P : State → β) (hP : ∀ s x0, P { s with path := x0 } = P s) (a : Nat) (a0 : Nat) (a1 : State) : P (stackPass a a0 a1) = P a1 := by
  induction a0 generalizing a a1 with
  | zero => rfl
  | succ n ih => unfold stackPass; rw [ih, edgePass_keep P hP]

theorem writeOver_keep {β : Type} (P : State → β) (hP : ∀ s x0 x1 x2 x3 x4, Memory.wf x3.hbm = Memory.wf s.mpu.hbm → P { s with host := x0, rest := x1, path := x2, mpu := x3, out := x4 } = P s) (key a : Nat) (a0 : List Octets) (a1 : State) : P (writeOver key a a0 a1) = P a1 := by
  induction a0 generalizing a a1 with
  | nil => rfl
  | cons d t ih => unfold writeOver; rw [ih, writeLine_keep P (fun s x0 x1 x2 x3 h => hP s x0 x1 s.path x2 x3 h), edgePass_keep P (fun s x0 => hP s s.host s.rest x0 s.mpu s.out rfl)]

theorem treeWrite_keep {β : Type} (P : State → β) (hP : ∀ s x0 x1 x2 x3 x4, Memory.wf x3.hbm = Memory.wf s.mpu.hbm → P { s with host := x0, rest := x1, path := x2, mpu := x3, out := x4 } = P s) (l : List (Nat × BitVec 512)) (s : State) : P (treeWrite l s) = P s := by
  unfold treeWrite; repeat' (first | with_reducible rfl | split | simp only [writeOver_keep P hP, hP] | (with_reducible refine (keep (fun _ _ => by (repeat' (first | with_reducible rfl | split | simp only [writeOver_keep P hP, hP])))).trans ?_) | (with_reducible refine (keep2 (fun _ _ => by (repeat' (first | with_reducible rfl | split | simp only [writeOver_keep P hP, hP])))).trans ?_))

theorem controlWrite_keep {β : Type} (P : State → β) (hP : ∀ s x0 x1 x2 x3 x4, Memory.wf x3.hbm = Memory.wf s.mpu.hbm → P { s with host := x0, rest := x1, path := x2, mpu := x3, out := x4 } = P s) (s : State) : P (controlWrite s) = P s := by
  unfold controlWrite; (repeat' split) <;> simp only [writeOver_keep P hP, hP]

theorem settleRewrites_keep {β : Type} (P : State → β) (hP : ∀ s x0 x1 x2 x3 x4, Memory.wf x3.hbm = Memory.wf s.mpu.hbm → P { s with host := x0, rest := x1, path := x2, mpu := x3, out := x4 } = P s) (s : State) : P (settleRewrites s) = P s := by
  unfold settleRewrites; dsimp only; (repeat' split) <;> simp only [controlWrite_keep P hP, treeWrite_keep P hP, hP]

theorem storeWrite_keep {β : Type} (P : State → β) (hP : ∀ s x0 x1 x2 x3 x4, Memory.wf x3.hbm = Memory.wf s.mpu.hbm → P { s with host := x0, rest := x1, path := x2, mpu := x3, out := x4 } = P s) (sa : Bool) (i : Nat) (blob : Octets) (s : State) : P (storeWrite sa i blob s) = P s := by
  unfold storeWrite; (repeat' split) <;> simp only [writeOver_keep P hP, hP]

theorem storeRead_keep {β : Type} (P : State → β) (hP : ∀ s x0 x1 x2 x3 x4, Memory.wf x3.hbm = Memory.wf s.mpu.hbm → P { s with host := x0, rest := x1, path := x2, mpu := x3, out := x4 } = P s) (sa : Bool) (i : Nat) (s : State) : P (storeRead sa i s).2 = P s := by
  unfold storeRead; (repeat' split) <;> simp only [readLines_keep P (fun s x0 x1 x2 x3 h => hP s x0 x1 s.path x2 x3 h), stackPass_keep P (fun s x0 => hP s s.host s.rest x0 s.mpu s.out rfl), hP]

theorem allocate_keep {β : Type} (P : State → β) (hP : ∀ s x0 x1 x2 x3, Memory.wf x2.hbm = Memory.wf s.mpu.hbm → P { s with host := x0, rest := x1, mpu := x2, out := x3 } = P s) (key b : Nat) (s : State) : P (allocate key b s).2 = P s := by
  unfold allocate; split; (· simp only [cachePut_keep P (fun s x0 h => hP s s.host s.rest x0 s.out h), closeParity_keep P (fun s x0 h => hP s s.host s.rest x0 s.out h), counterLine_keep P hP, retireBlock_keep P hP, hP]); have f := newMajor_keep P (fun s x0 h => hP s s.host s.rest x0 s.out h) _ _ _ ‹_›; simp only [cachePut_keep P (fun s x0 h => hP s s.host s.rest x0 s.out h), closeParity_keep P (fun s x0 h => hP s s.host s.rest x0 s.out h), counterLine_keep P hP, retireBlock_keep P hP, hP] at f ⊢; exact f

theorem blockLive_keep {β : Type} (P : State → β) (hP : ∀ s x0, Memory.wf x0.hbm = Memory.wf s.mpu.hbm → P { s with mpu := x0 } = P s) (b : Nat) (f : Nat → Nat) (s : State) : P (blockLive b f s) = P s := by
  unfold blockLive; dsimp only; (repeat' split) <;> simp only [closeParity_keep P hP, hP]

theorem nextLine_keep {β : Type} (P : State → β) (hP : ∀ s x0 x1 x2 x3, Memory.wf x2.hbm = Memory.wf s.mpu.hbm → P { s with host := x0, rest := x1, mpu := x2, out := x3 } = P s) (key : Nat) (d : Dir) (o : Option (Nat × Nat)) (s : State) (q : Nat × Option (Nat × Nat) × State) (e : nextLine key d o s = some q) : P q.2.2 = P s := by
  unfold nextLine at e; dsimp only at e; (repeat' split at e) <;> (first | (simp at e; done) | (simp only [Option.some.injEq] at e; subst e; simp only [allocate_keep P hP, blockLive_keep P (fun s x0 h => hP s s.host s.rest x0 s.out h), hP]))

theorem pbWrite_keep {β : Type} (P : State → β) (hP : ∀ s x0 x1 x2 x3, Memory.wf x2.hbm = Memory.wf s.mpu.hbm → P { s with host := x0, rest := x1, mpu := x2, out := x3 } = P s) (key : Nat) (d : Dir) (o : Option (Nat × Nat)) (l : List Octets) (s : State) (q : List Nat × Option (Nat × Nat) × State) (e : pbWrite key d o l s = some q) : P q.2.2 = P s := by
  induction l generalizing o s q with
  | nil => unfold pbWrite at e; simp only [Option.some.injEq] at e; subst e; rfl
  | cons x t ih => unfold pbWrite at e; split at e; (· simp at e); split at e; (· simp at e); (have f := nextLine_keep P hP _ _ _ _ _ ‹_›; have g := ih _ _ _ ‹_›; simp only [Option.some.injEq] at e; subst e; simp only [writeLine_keep P hP, hP] at f g ⊢; exact g.trans f)

theorem pbRead_keep {β : Type} (P : State → β) (hP : ∀ s x0 x1 x2 x3, Memory.wf x2.hbm = Memory.wf s.mpu.hbm → P { s with host := x0, rest := x1, mpu := x2, out := x3 } = P s) (key : Nat) (a0 : List Nat) (a1 : State) : P (pbRead key a0 a1).2 = P a1 := by
  induction a0 generalizing a1 with
  | nil => rfl
  | cons d t ih => unfold pbRead; dsimp only; split; (· simp only [readLine_keep P hP, hP]); (· simp only [ih, readLine_keep P hP, hP])

theorem pbFree_keep {β : Type} (P : State → β) (hP : ∀ s x0, Memory.wf x0.hbm = Memory.wf s.mpu.hbm → P { s with mpu := x0 } = P s) (l : List Nat) (s : State) : P (pbFree l s) = P s := by
  unfold pbFree; repeat' (first | with_reducible rfl | split | simp only [blockLive_keep P hP, hP] | (with_reducible refine (keep (fun _ _ => by (repeat' (first | with_reducible rfl | split | simp only [blockLive_keep P hP, hP])))).trans ?_) | (with_reducible refine (keep2 (fun _ _ => by (repeat' (first | with_reducible rfl | split | simp only [blockLive_keep P hP, hP])))).trans ?_))

theorem memoryLoss_keep {β : Type} (P : State → β) (hP : ∀ s x0, Memory.wf x0.hbm = Memory.wf s.mpu.hbm → P { s with mpu := x0 } = P s) (n : Nat) (s : State) : P (memoryLoss n s) = P s := by
  unfold memoryLoss; (repeat' split) <;> simp only [memCount_keep P hP, hP]

theorem mpuClear_keep {β : Type} (P : State → β) (hP : ∀ s x0 x1 x2, Memory.wf x2.hbm = Memory.wf s.mpu.hbm → P { s with rng := x0, keys := x1, mpu := x2 } = P s) (s : State) : P (mpuClear s) = P s := by
  unfold mpuClear; (repeat' split) <;> simp only [rngAsk_keep P (fun s x0 => hP s x0 s.keys s.mpu rfl), hP]

theorem breakLine_keep {β : Type} (P : State → β) (hP : ∀ s x0, Memory.wf x0.hbm = Memory.wf s.mpu.hbm → P { s with mpu := x0 } = P s) (p : Nat) (s : State) : P (breakLine p s) = P s := by
  unfold breakLine; (repeat' split) <;> simp only [setErrors_keep P hP, hP]

theorem injectFault_keep {β : Type} (P : State → β) (hP : ∀ s x0, Memory.wf x0.hbm = Memory.wf s.mpu.hbm → P { s with mpu := x0 } = P s) (r : Octets) (s : State) : P (injectFault r s) = P s := by
  unfold injectFault; dsimp only; (repeat' split) <;> simp only [breakLine_keep P hP, setErrors_keep P hP, hP, Memory.wf_store, Memory.wf_storeAll]

theorem rawView_keep {β : Type} (P : State → β) (hP : ∀ s x0, Memory.wf x0.hbm = Memory.wf s.mpu.hbm → P { s with mpu := x0 } = P s) (p : Nat) (s : State) : P (rawView p s) = P s := by
  unfold rawView; (repeat' split) <;> simp only [hP]

theorem scrubStart_keep {β : Type} (P : State → β) (hP : ∀ s x0 x1, Memory.wf x1.hbm = Memory.wf s.mpu.hbm → P { s with time := x0, mpu := x1 } = P s) (first : Bool) (s : State) : P (scrubStart first s) = P s := by
  unfold scrubStart; (repeat' split) <;> simp only [waitCycle_keep P (fun s x0 => hP s x0 s.mpu rfl), hP]

end Sys2Proof.Machine
end

