-- ==== Sys2Proof/Laws/KeepGcc.lean ====
section
/-! SUPPORT. What the operations and meanings of Machine/Gcc.lean leave alone: `f_keep` says that whatever is read from
the state without looking at the components `f` may change is the same after `f`. -/
set_option linter.all false
namespace Sys2Proof.Machine

theorem takeUrzidun_keep {β : Type} (P : State → β) (hP : ∀ s x0, P { s with urz := x0 } = P s) (p : PD) (d : Octets) (s : State) : P (takeUrzidun p d s) = P s := by
  unfold takeUrzidun; (repeat' split) <;> simp only [hP]

theorem urzCount_keep {β : Type} (P : State → β) (hP : ∀ s x0, P { s with urz := x0 } = P s) (i : Nat) (s : State) : P (urzCount i s) = P s := by
  unfold urzCount; (repeat' split) <;> simp only [hP]

theorem gccQueue_keep {β : Type} (P : State → β) (hP : ∀ s x0, P { s with urz := x0 } = P s) (p : PD) (frame : Octets) (s : State) : P (gccQueue p frame s) = P s := by
  unfold gccQueue; dsimp only; (repeat' split) <;> simp only [urzCount_keep P hP, hP]

theorem gccTake_keep {β : Type} (P : State → β) (hP : ∀ s x0, P { s with urz := x0 } = P s) (p : PD) (s : State) : P (gccTake p s).2 = P s := by
  unfold gccTake; dsimp only; (repeat' split) <;> simp only [hP]

theorem gccOctet_keep {β : Type} (P : State → β) (hP : ∀ s x0, P { s with urz := x0 } = P s) (p : PD) (b : BitVec 8) (s : State) : P (gccOctet p b s) = P s := by
  unfold gccOctet; dsimp only; (repeat' split) <;> simp only [takeUrzidun_keep P hP, hP]

theorem gccReceive_keep {β : Type} (P : State → β) (hP : ∀ s x0, P { s with urz := x0 } = P s) (p : PD) (t : Nat) (overhead : Octets) (s : State) : P (gccReceive p t overhead s) = P s := by
  unfold gccReceive; repeat' (first | with_reducible rfl | split | simp only [gccOctet_keep P hP, hP] | (with_reducible refine (keep (fun _ _ => by (repeat' (first | with_reducible rfl | split | simp only [gccOctet_keep P hP, hP])))).trans ?_) | (with_reducible refine (keep2 (fun _ _ => by (repeat' (first | with_reducible rfl | split | simp only [gccOctet_keep P hP, hP])))).trans ?_))

theorem gccSend_keep {β : Type} (P : State → β) (hP : ∀ s x0, P { s with urz := x0 } = P s) (p : PD) (t : Nat) (overhead : Octets) (s : State) : P (gccSend p t overhead s).2 = P s := by
  unfold gccSend; dsimp only; (repeat' split) <;> simp only [gccTake_keep P hP, hP]

end Sys2Proof.Machine
end

