-- ==== Sys2Proof/Laws/KeepPath.lean ====
section
/-! SUPPORT. What the operations and meanings of Machine/Path.lean leave alone: `f_keep` says that whatever is read from
the state without looking at the components `f` may change is the same after `f`. -/
set_option linter.all false
namespace Sys2Proof.Machine

theorem poolTake_keep {β : Type} (P : State → β) (hP : ∀ s x0, P { s with path := x0 } = P s) (i n : Nat) (s : State) : P (poolTake i n s) = P s := by
  unfold poolTake; (repeat' split) <;> simp only [hP]

theorem poolGive_keep {β : Type} (P : State → β) (hP : ∀ s x0, P { s with path := x0 } = P s) (i n : Nat) (s : State) : P (poolGive i n s) = P s := by
  unfold poolGive; (repeat' split) <;> simp only [hP]

theorem updFrm_keep {β : Type} (P : State → β) (hP : ∀ s x0, P { s with path := x0 } = P s) (id : Nat) (f : Frm → Frm) (s : State) : P (updFrm id f s) = P s := by
  unfold updFrm; (repeat' split) <;> simp only [hP]

theorem dropFrm_keep {β : Type} (P : State → β) (hP : ∀ s x0, P { s with path := x0 } = P s) (id : Nat) (s : State) : P (dropFrm id s) = P s := by
  unfold dropFrm; (repeat' split) <;> simp only [poolGive_keep P hP, retFree_keep P hP, hP]

theorem setData_keep {β : Type} (P : State → β) (hP : ∀ s x0, P { s with path := x0 } = P s) (id : Nat) (d : Octets) (s : State) : P (setData id d s) = P s := by
  unfold setData; (repeat' split) <;> simp only [retWrite_keep P hP, updFrm_keep P hP, hP]

theorem moveFrm_keep {β : Type} (P : State → β) (hP : ∀ s x0, P { s with path := x0 } = P s) (id : Nat) (s : State) : P (moveFrm id s) = P s := by
  unfold moveFrm; (repeat' split) <;> simp only [hP]

theorem newFrm_keep {β : Type} (P : State → β) (hP : ∀ s x0, P { s with path := x0 } = P s) (f : Frm) (s : State) : P (newFrm f s).2 = P s := by
  unfold newFrm; (repeat' split) <;> simp only [hP]

theorem macCount_keep {β : Type} (P : State → β) (hP : ∀ s x0, P { s with path := x0 } = P s) (p : PD) (i n : Nat) (s : State) : P (macCount p i n s) = P s := by
  unfold macCount; (repeat' split) <;> simp only [updPd_keep P hP, hP]

theorem ptpCount_keep {β : Type} (P : State → β) (hP : ∀ s x0, P { s with path := x0 } = P s) (p : PD) (i : Nat) (s : State) : P (ptpCount p i s) = P s := by
  unfold ptpCount; (repeat' split) <;> simp only [updPd_keep P hP, hP]

theorem txScCount_keep {β : Type} (P : State → β) (hP : ∀ s x0, P { s with path := x0 } = P s) (sc i n : Nat) (s : State) : P (txScCount sc i n s) = P s := by
  unfold txScCount; (repeat' split) <;> simp only [hP]

theorem rxScCount_keep {β : Type} (P : State → β) (hP : ∀ s x0, P { s with path := x0 } = P s) (sc i n : Nat) (s : State) : P (rxScCount sc i n s) = P s := by
  unfold rxScCount; (repeat' split) <;> simp only [hP]

theorem saCount_keep {β : Type} (P : State → β) (hP : ∀ s x0, P { s with keys := x0 } = P s) (a i : Nat) (s : State) : P (saCount a i s) = P s := by
  unfold saCount; (repeat' split) <;> simp only [hP]

theorem updLink_keep {β : Type} (P : State → β) (hP : ∀ s x0, P { s with path := x0 } = P s) (n : Nat) (f : Link → Link) (s : State) : P (updLink n f s) = P s := by
  unfold updLink; (repeat' split) <;> simp only [hP]

theorem rxSecyCount_keep {β : Type} (P : State → β) (hP : ∀ s x0, P { s with path := x0 } = P s) (n i : Nat) (s : State) : P (rxSecyCount n i s) = P s := by
  unfold rxSecyCount; (repeat' split) <;> simp only [updLink_keep P hP, hP]

theorem untagged_keep {β : Type} (P : State → β) (hP : ∀ s x0, P { s with path := x0 } = P s) (n : Nat) (s : State) : P (untagged n s) = P s := by
  unfold untagged; (repeat' split) <;> simp only [updLink_keep P hP, hP]

theorem countDrop_keep {β : Type} (P : State → β) (hP : ∀ s x0 x1 x2 x3, P { s with rest := x0, keys := x1, cls := x2, path := x3 } = P s) (p : PD) (c : Cause) (s : State) : P (countDrop p c s) = P s := by
  unfold countDrop; (repeat' split) <;> simp only [rxScCount_keep P (fun s x0 => hP s s.rest s.keys s.cls x0), rxSecyCount_keep P (fun s x0 => hP s s.rest s.keys s.cls x0), saCount_keep P (fun s x0 => hP s s.rest x0 s.cls s.path), tamperCount_keep P (fun s x0 => hP s x0 s.keys s.cls s.path), updPd_keep P (fun s x0 => hP s s.rest s.keys s.cls x0), hP]

theorem deliver_keep {β : Type} (P : State → β) (hP : ∀ s x0 x1, P { s with host := x0, out := x1 } = P s) (queue : Nat) (t : Taken) (s q : State) (e : deliver queue t s = some q) : P q = P s := by
  unfold deliver at e; dsimp only at e; (repeat' split at e) <;> simp at e; subst e; simp only [emit_keep P (fun s x0 => hP s s.host x0), ringComplete_keep P hP, hP]

theorem deliverOrDrop_keep {β : Type} (P : State → β) (hP : ∀ s x0 x1 x2 x3 x4 x5, P { s with host := x0, rest := x1, keys := x2, cls := x3, path := x4, out := x5 } = P s) (queue : Nat) (t : Taken) (s : State) : P (deliverOrDrop queue t s) = P s := by
  unfold deliverOrDrop; split; (· exact deliver_keep P (fun s x0 x1 => hP s x0 s.rest s.keys s.cls s.path x1) _ _ _ _ ‹_›); (· simp only [countDrop_keep P (fun s x0 x1 x2 x3 => hP s s.host x0 x1 x2 x3 s.out), hP])

theorem gougeOut_keep {β : Type} (P : State → β) (hP : ∀ s x0 x1 x2 x3, P { s with host := x0, rest := x1, cls := x2, out := x3 } = P s) (c g : Nat) (s : State) : P (gougeOut c g s) = P s := by
  unfold gougeOut; (repeat' split) <;> simp only [logEntry_keep P (fun s x0 x1 x2 => hP s x0 x1 s.cls x2), hP]

theorem endParse_keep {β : Type} (P : State → β) (hP : ∀ s x0, P { s with path := x0 } = P s) (id : Nat) (s : State) : P (endParse id s) = P s := by
  unfold endParse; (repeat' split) <;> simp only [updFrm_keep P hP, hP]

theorem parityFailed_keep {β : Type} (P : State → β) (hP : ∀ s x0 x1 x2 x3 x4, P { s with host := x0, rest := x1, cls := x2, path := x3, out := x4 } = P s) (id c g : Nat) (s : State) : P (parityFailed id c g s) = P s := by
  unfold parityFailed; (repeat' split) <;> simp only [gougeOut_keep P (fun s x0 x1 x2 x3 => hP s x0 x1 x2 s.path x3), updFrm_keep P (fun s x0 => hP s s.host s.rest s.cls x0 s.out), hP]

theorem parityFault_keep {β : Type} (P : State → β) (hP : ∀ s x0 x1 x2 x3 x4, P { s with host := x0, rest := x1, cls := x2, path := x3, out := x4 } = P s) (id : Nat) (s : State) : P (parityFault id s) = P s := by
  unfold parityFault; (repeat' split) <;> simp only [endParse_keep P (fun s x0 => hP s s.host s.rest s.cls x0 s.out), gougeOut_keep P (fun s x0 x1 x2 x3 => hP s x0 x1 x2 s.path x3), updFrm_keep P (fun s x0 => hP s s.host s.rest s.cls x0 s.out), hP]

theorem gougeEnded_keep {β : Type} (P : State → β) (hP : ∀ s x0, P { s with path := x0 } = P s) (c g : Nat) (s : State) : P (gougeEnded c g s) = P s := by
  unfold gougeEnded; (repeat' split) <;> simp only [endParse_keep P hP, hP]

theorem gougeTake_keep {β : Type} (P : State → β) (hP : ∀ s x0, P { s with path := x0 } = P s) (p : PD) (c g : Nat) (header : Octets) (len : Nat) (s : State) (q : Nat × Bool × State) (e : gougeTake p c g header len s = some q) : P q.2.2 = P s := by
  unfold gougeTake at e; dsimp only at e; (repeat' split at e) <;> (first | (simp at e; done) | (simp only [Option.some.injEq] at e; subst e; simp only [newFrm_keep P hP, updFrm_keep P hP, hP]))

theorem gougeStart_keep {β : Type} (P : State → β) (hP : ∀ s x0 x1 x2 x3 x4, P { s with host := x0, rest := x1, cls := x2, path := x3, out := x4 } = P s) (p : PD) (c g : Nat) (header : Octets) (len parityFails : Nat) (s : State) : P (gougeStart p c g header len parityFails s) = P s := by
  unfold gougeStart; split; (· rfl); split; (· simp only [gougeEnded_keep P (fun s x0 => hP s s.host s.rest s.cls x0 s.out), parityFailed_keep P hP, parityFault_keep P hP, hP, id]); (have f := gougeTake_keep P (fun s x0 => hP s s.host s.rest s.cls x0 s.out) _ _ _ _ _ _ _ ‹_›; (repeat' split) <;> (simp only [gougeEnded_keep P (fun s x0 => hP s s.host s.rest s.cls x0 s.out), parityFailed_keep P hP, parityFault_keep P hP, hP, id] at f ⊢; exact f))

theorem lineUp_keep {β : Type} (P : State → β) (hP : ∀ s x0, P { s with path := x0 } = P s) (p : PD) (started waiting : List Egr) (s : State) : P (lineUp p started waiting s) = P s := by
  unfold lineUp; (repeat' split) <;> simp only [updPd_keep P hP, hP]

theorem reline_keep {β : Type} (P : State → β) (hP : ∀ s x0, P { s with path := x0 } = P s) (p : PD) (s : State) : P (reline p s) = P s := by
  unfold reline; (repeat' split) <;> simp only [lineUp_keep P hP, hP]

theorem pauseFrame_keep {β : Type} (P : State → β) (hP : ∀ s x0, P { s with path := x0 } = P s) (n : Fin 32) (q : Nat) (s : State) : P (pauseFrame n q s) = P s := by
  unfold pauseFrame; (repeat' split) <;> simp only [reline_keep P hP, updPd_keep P hP, hP]

theorem pfcFrame_keep {β : Type} (P : State → β) (hP : ∀ s x0, P { s with path := x0 } = P s) (n : Fin 32) (enable : BitVec 8) (times : List Nat) (s : State) : P (pfcFrame n enable times s) = P s := by
  unfold pfcFrame; repeat' (first | with_reducible rfl | split | simp only [reline_keep P hP, updPd_keep P hP, hP] | (with_reducible refine (keep (fun _ _ => by (repeat' (first | with_reducible rfl | split | simp only [reline_keep P hP, updPd_keep P hP, hP])))).trans ?_) | (with_reducible refine (keep2 (fun _ _ => by (repeat' (first | with_reducible rfl | split | simp only [reline_keep P hP, updPd_keep P hP, hP])))).trans ?_))

theorem macControl_keep {β : Type} (P : State → β) (hP : ∀ s x0, P { s with path := x0 } = P s) (p : PD) (d : Octets) (s : State) : P (macControl p d s) = P s := by
  unfold macControl; (repeat' split) <;> simp only [macCount_keep P hP, pauseFrame_keep P hP, pfcFrame_keep P hP, hP]

theorem takeSeq_keep {β : Type} (P : State → β) (hP : ∀ s x0, P { s with path := x0 } = P s) (p : PD) (s : State) : P (takeSeq p s).2 = P s := by
  unfold takeSeq; (repeat' split) <;> simp only [updPd_keep P hP, hP]

theorem forgetReceiving_keep {β : Type} (P : State → β) (hP : ∀ s x0, P { s with path := x0 } = P s) (p : PD) (s : State) : P (forgetReceiving p s) = P s := by
  unfold forgetReceiving; (repeat' split) <;> simp only [moveFrm_keep P hP, hP]

theorem acceptEthernet_keep {β : Type} (P : State → β) (hP : ∀ s x0, P { s with path := x0 } = P s) (p : PD) (data : Octets) (fcsBad : Bool) (ago : Nat) (s : State) : P (acceptEthernet p data fcsBad ago s) = P s := by
  unfold acceptEthernet; dsimp only; (repeat' split) <;> simp only [edgePass_keep P hP, forgetReceiving_keep P hP, macControl_keep P hP, macCount_keep P hP, newFrm_keep P hP, poolTake_keep P hP, retWrite_keep P hP, takeSeq_keep P hP, updFrm_keep P hP, updPd_keep P hP, hP]

theorem receiveCm_keep {β : Type} (P : State → β) (hP : ∀ s x0, P { s with otn := x0 } = P s) (d : Dir) (t : Nat) (jc : Octets) (s : State) : P (receiveCm d t jc s) = P s := by
  unfold receiveCm; (repeat' split) <;> simp only [updTr_keep P hP, hP]

theorem acceptTributary_keep {β : Type} (P : State → β) (hP : ∀ s x0 x1 x2, P { s with urz := x0, path := x1, otn := x2 } = P s) (p : PD) (t : Nat) (payload overhead jc : Octets) (s : State) : P (acceptTributary p t payload overhead jc s) = P s := by
  unfold acceptTributary; dsimp only; (repeat' split) <;> simp only [edgePass_keep P (fun s x0 => hP s s.urz x0 s.otn), gccReceive_keep P (fun s x0 => hP s x0 s.path s.otn), macCount_keep P (fun s x0 => hP s s.urz x0 s.otn), newFrm_keep P (fun s x0 => hP s s.urz x0 s.otn), poolTake_keep P (fun s x0 => hP s s.urz x0 s.otn), receiveCm_keep P (fun s x0 => hP s s.urz s.path x0), retWrite_keep P (fun s x0 => hP s s.urz x0 s.otn), takeSeq_keep P (fun s x0 => hP s s.urz x0 s.otn), updPd_keep P (fun s x0 => hP s s.urz x0 s.otn), hP]

theorem injectOwn_keep {β : Type} (P : State → β) (hP : ∀ s x0, P { s with path := x0 } = P s) (p : PD) (data : Octets) (origin : Origin) (treatment : Nat) (stamp : Bool) (sc : Nat) (dreq : Option Nat) (s : State) : P (injectOwn p data origin treatment stamp sc dreq s) = P s := by
  unfold injectOwn; (repeat' split) <;> simp only [hP]

theorem injectNext_keep {β : Type} (P : State → β) (hP : ∀ s x0 x1 x2, P { s with host := x0, path := x1, out := x2 } = P s) (q : Nat) (frame : Octets) (s : State) : P (injectNext q frame s) = P s := by
  unfold injectNext; dsimp only; (repeat' split) <;> simp only [ringComplete_keep P (fun s x0 x1 => hP s x0 s.path x1), updRing_keep P (fun s x0 => hP s x0 s.path s.out), hP]

theorem injectDone_keep {β : Type} (P : State → β) (hP : ∀ s x0 x1, P { s with host := x0, out := x1 } = P s) (r : Nat) (d : Octets) (s : State) : P (injectDone r d s) = P s := by
  unfold injectDone; (repeat' split) <;> simp only [gatherOne_keep P hP, ringWrite_keep P (fun s x0 => hP s s.host x0), updRing_keep P (fun s x0 => hP s x0 s.out), hP]

theorem injectAccept_keep {β : Type} (P : State → β) (hP : ∀ s x0 x1 x2 x3, P { s with time := x0, host := x1, path := x2, out := x3 } = P s) (s : State) : P (injectAccept s) = P s := by
  unfold injectAccept; dsimp only; (repeat' split) <;> simp only [edgePass_keep P (fun s x0 => hP s s.time s.host x0 s.out), injectDone_keep P (fun s x0 x1 => hP s s.time x0 s.path x1), newFrm_keep P (fun s x0 => hP s s.time s.host x0 s.out), poolTake_keep P (fun s x0 => hP s s.time s.host x0 s.out), retWrite_keep P (fun s x0 => hP s s.time s.host x0 s.out), takeSeq_keep P (fun s x0 => hP s s.time s.host x0 s.out), hP]

end Sys2Proof.Machine
end

