-- ==== Sys2Proof/Laws/KeepClassify.lean ====
section
/-! SUPPORT. What the operations and meanings of Machine/Classify.lean leave alone: `f_keep` says that whatever is read from
the state without looking at the components `f` may change is the same after `f`. -/
set_option linter.all false
namespace Sys2Proof.Machine

theorem police_keep {β : Type} (P : State → β) (hP : ∀ s x0, P { s with cls := x0 } = P s) (i : Nat) (f : Frm) (s : State) : P (police i f s).2 = P s := by
  unfold police; dsimp only; (repeat' split) <;> simp only [hP]

theorem settleClass_keep {β : Type} (P : State → β) (hP : ∀ s x0, P { s with path := x0 } = P s) (id : Nat) (v : Verdict) (s : State) : P (settleClass id v s) = P s := by
  unfold settleClass; (repeat' split) <;> simp only [updFrm_keep P hP, hP]

theorem policeAll_keep {β : Type} (P : State → β) (hP : ∀ s x0 x1, P { s with cls := x0, path := x1 } = P s)  (a0 : Nat) (a1 : State) : P (policeAll a0 a1) = P a1 := by
  induction a0 generalizing a1 with
  | zero => rfl
  | succ n ih => unfold policeAll; repeat' (first | with_reducible rfl | split | simp only [ih, police_keep P (fun s x0 => hP s x0 s.path), settleClass_keep P (fun s x0 => hP s s.cls x0), hP])

theorem policeSettle_keep {β : Type} (P : State → β) (hP : ∀ s x0 x1, P { s with cls := x0, path := x1 } = P s) (s : State) : P (policeSettle s) = P s := by
  unfold policeSettle; (repeat' split) <;> simp only [policeAll_keep P hP, hP]

theorem applyAction_keep {β : Type} (P : State → β) (hP : ∀ s x0 x1, P { s with cls := x0, path := x1 } = P s) (id : Nat) (f : Frm) (action : BitVec 128) (isDefault : Bool) (s : State) : P (applyAction id f action isDefault s) = P s := by
  unfold applyAction; dsimp only; (repeat' split) <;> simp only [settleClass_keep P (fun s x0 => hP s s.cls x0), updFrm_keep P (fun s x0 => hP s s.cls x0), hP]

theorem walkApply_keep {β : Type} (P : State → β) (hP : ∀ s x0 x1 x2 x3 x4 x5, Memory.wf x4.hbm = Memory.wf s.mpu.hbm → P { s with host := x0, rest := x1, cls := x2, path := x3, mpu := x4, out := x5 } = P s) (id : Nat) (f : Frm) (filled : Bool) (s : State) : P (walkApply id f filled s) = P s := by
  unfold walkApply; (repeat' split) <;> simp only [applyAction_keep P (fun s x0 x1 => hP s s.host s.rest x0 x1 s.mpu s.out rfl), memReport_keep P (fun s x0 x1 x2 x3 h => hP s x0 x1 s.cls s.path x2 x3 h), updFrm_keep P (fun s x0 => hP s s.host s.rest s.cls x0 s.mpu s.out rfl), hP]

theorem classify_keep {β : Type} (P : State → β) (hP : ∀ s x0 x1 x2 x3 x4 x5, Memory.wf x4.hbm = Memory.wf s.mpu.hbm → P { s with host := x0, rest := x1, cls := x2, path := x3, mpu := x4, out := x5 } = P s) (id : Nat) (f : Frm) (s : State) : P (classify id f s) = P s := by
  unfold classify; dsimp only; (repeat' split) <;> simp only [settleClass_keep P (fun s x0 => hP s s.host s.rest s.cls x0 s.mpu s.out rfl), updFrm_keep P (fun s x0 => hP s s.host s.rest s.cls x0 s.mpu s.out rfl), walkApply_keep P hP, hP]

theorem freeCut_keep {β : Type} (P : State → β) (hP : ∀ s x0 x1, P { s with rest := x0, cls := x1 } = P s) (n : Nat) (s : State) : P (freeCut n s) = P s := by
  unfold freeCut; (repeat' split) <;> simp only [hP]

theorem startCompile_keep {β : Type} (P : State → β) (hP : ∀ s x0 x1, P { s with ctl := x0, cls := x1 } = P s) (s : State) : P (startCompile s) = P s := by
  unfold startCompile; (repeat' split) <;> simp only [hP]

theorem cutRetire_keep {β : Type} (P : State → β) (hP : ∀ s x0 x1 x2, P { s with ctl := x0, rest := x1, cls := x2 } = P s) (n : Nat) (s : State) : P (cutRetire n s) = P s := by
  unfold cutRetire; dsimp only; (repeat' split) <;> simp only [freeCut_keep P (fun s x0 x1 => hP s s.ctl x0 x1), startCompile_keep P (fun s x0 x1 => hP s x0 s.rest x1), hP]

theorem fillRead_keep {β : Type} (P : State → β) (hP : ∀ s x0 x1 x2 x3 x4, Memory.wf x3.hbm = Memory.wf s.mpu.hbm → P { s with host := x0, rest := x1, path := x2, mpu := x3, out := x4 } = P s)  (a0 : List Nat) (a1 : State) : P (fillRead a0 a1).2 = P a1 := by
  induction a0 generalizing a1 with
  | nil => rfl
  | cons n t ih => unfold fillRead; dsimp only; simp only [ih, edgePass_keep P (fun s x0 => hP s s.host s.rest x0 s.mpu s.out rfl), readLine_keep P (fun s x0 x1 x2 x3 h => hP s x0 x1 s.path x2 x3 h), hP]

theorem fillBlock_keep {β : Type} (P : State → β) (hP : ∀ s x0 x1 x2 x3 x4 x5, Memory.wf x4.hbm = Memory.wf s.mpu.hbm → P { s with host := x0, rest := x1, cls := x2, path := x3, mpu := x4, out := x5 } = P s) (f : Frm) (s : State) : P (fillBlock f s) = P s := by
  unfold fillBlock; dsimp only; (repeat' split) <;> simp only [fillRead_keep P (fun s x0 x1 x2 x3 x4 h => hP s x0 x1 s.cls x2 x3 x4 h), hP]

end Sys2Proof.Machine
end

