-- ==== Sys2Proof/Laws/KeepSlots.lean ====
section
/-! SUPPORT. What the operations and meanings of Machine/Slots.lean leave alone: `f_keep` says that whatever is read from
the state without looking at the components `f` may change is the same after `f`. -/
set_option linter.all false
namespace Sys2Proof.Machine

theorem freezeSlotSas_keep {β : Type} (P : State → β) (hP : ∀ s x0 x1 x2 x3, P { s with host := x0, keys := x1, otn := x2, out := x3 } = P s) (target cause : Nat) (s : State) : P (freezeSlotSas target cause s) = P s := by
  unfold freezeSlotSas; repeat' (first | with_reducible rfl | split | simp only [freezeSa_keep P hP, updSa_keep P (fun s x0 => hP s s.host x0 s.otn s.out), hP] | (with_reducible refine (keep (fun _ _ => by (repeat' (first | with_reducible rfl | split | simp only [freezeSa_keep P hP, updSa_keep P (fun s x0 => hP s s.host x0 s.otn s.out), hP])))).trans ?_) | (with_reducible refine (keep2 (fun _ _ => by (repeat' (first | with_reducible rfl | split | simp only [freezeSa_keep P hP, updSa_keep P (fun s x0 => hP s s.host x0 s.otn s.out), hP])))).trans ?_))

theorem slotBad_keep {β : Type} (P : State → β) (hP : ∀ s x0 x1 x2 x3, P { s with host := x0, keys := x1, otn := x2, out := x3 } = P s) (target : Nat) (s : State) : P (slotBad target s) = P s := by
  unfold slotBad; (repeat' split) <;> simp only [freezeSlotSas_keep P hP, keyCount_keep P (fun s x0 => hP s s.host x0 s.otn s.out), keyEvent_keep P (fun s x0 => hP s s.host x0 s.otn s.out), post_keep P (fun s x0 x1 => hP s x0 s.keys s.otn x1), updSlot_keep P (fun s x0 => hP s s.host x0 s.otn s.out), hP]

theorem copyFails_keep {β : Type} (P : State → β) (hP : ∀ s x0 x1 x2 x3, P { s with host := x0, keys := x1, otn := x2, out := x3 } = P s) (target : Nat) (chuckB : Bool) (s : State) : P (copyFails target chuckB s) = P s := by
  unfold copyFails; dsimp only; (repeat' split) <;> simp only [keyCount_keep P (fun s x0 => hP s s.host x0 s.otn s.out), keyEvent_keep P (fun s x0 => hP s s.host x0 s.otn s.out), post_keep P (fun s x0 x1 => hP s x0 s.keys s.otn x1), slotBad_keep P hP, updSlot_keep P (fun s x0 => hP s s.host x0 s.otn s.out), hP]

theorem readSlot_keep {β : Type} (P : State → β) (hP : ∀ s x0 x1 x2 x3, P { s with host := x0, keys := x1, otn := x2, out := x3 } = P s) (target : Nat) (s : State) : P (readSlot target s).2 = P s := by
  unfold readSlot; repeat' (first | with_reducible rfl | split | simp only [copyFails_keep P hP, hP] | (with_reducible refine (keep (fun _ _ => by (repeat' (first | with_reducible rfl | split | simp only [copyFails_keep P hP, hP])))).trans ?_) | (with_reducible refine (keep2 (fun _ _ => by (repeat' (first | with_reducible rfl | split | simp only [copyFails_keep P hP, hP])))).trans ?_))

theorem slotRef_keep {β : Type} (P : State → β) (hP : ∀ s x0, P { s with keys := x0 } = P s) (slot : Nat) (s : State) : P (slotRef slot s) = P s := by
  unfold slotRef; (repeat' split) <;> simp only [updSlot_keep P hP, hP]

theorem slotFree_keep {β : Type} (P : State → β) (hP : ∀ s x0, P { s with keys := x0 } = P s) (target : Nat) (s : State) : P (slotFree target s) = P s := by
  unfold slotFree; dsimp only; (repeat' split) <;> simp only [updSlot_keep P hP, hP]

theorem slotUnref_keep {β : Type} (P : State → β) (hP : ∀ s x0, P { s with keys := x0 } = P s) (slot : Nat) (s : State) : P (slotUnref slot s) = P s := by
  unfold slotUnref; (repeat' split) <;> simp only [slotFree_keep P hP, updSlot_keep P hP, hP]

theorem slotRelease_keep {β : Type} (P : State → β) (hP : ∀ s x0, P { s with keys := x0 } = P s) (target : Nat) (s : State) : P (slotRelease target s) = P s := by
  unfold slotRelease; dsimp only; (repeat' split) <;> simp only [updSlot_keep P hP, hP]

theorem saRetire_keep {β : Type} (P : State → β) (hP : ∀ s x0, P { s with keys := x0 } = P s) (i : Nat) (s : State) : P (saRetire i s) = P s := by
  unfold saRetire; (repeat' split) <;> simp only [updSa_keep P hP, hP]

theorem saInvalid_keep {β : Type} (P : State → β) (hP : ∀ s x0, P { s with keys := x0 } = P s) (i : Nat) (s : State) : P (saInvalid i s) = P s := by
  unfold saInvalid; dsimp only; (repeat' split) <;> simp only [slotRelease_keep P hP, updSa_keep P hP, hP]

theorem updRoll_keep {β : Type} (P : State → β) (hP : ∀ s x0, P { s with keys := x0 } = P s) (u : RollUser) (f : Roll → Roll) (s : State) : P (updRoll u f s) = P s := by
  unfold updRoll; (repeat' split) <;> simp only [hP]

theorem keyChangeDue_keep {β : Type} (P : State → β) (hP : ∀ s x0, P { s with otn := x0 } = P s) (trib ki t : Nat) (s : State) : P (keyChangeDue trib ki t s) = P s := by
  unfold keyChangeDue; (repeat' split) <;> simp only [updTr_keep P hP, hP]

theorem rollGuard_keep {β : Type} (P : State → β) (hP : ∀ s x0 x1 x2, P { s with keys := x0, otn := x1, out := x2 } = P s) (u : RollUser) (t : Nat) (s : State) : P (rollGuard u t s) = P s := by
  unfold rollGuard; dsimp only; (repeat' split) <;> simp only [keyChangeDue_keep P (fun s x0 => hP s s.keys x0 s.out), keyCount_keep P (fun s x0 => hP s x0 s.otn s.out), updRoll_keep P (fun s x0 => hP s x0 s.otn s.out), updSc_keep P (fun s x0 => hP s x0 s.otn s.out), hP]

theorem rollMissed_keep {β : Type} (P : State → β) (hP : ∀ s x0 x1 x2, P { s with host := x0, keys := x1, out := x2 } = P s) (u : RollUser) (s : State) : P (rollMissed u s) = P s := by
  unfold rollMissed; (repeat' split) <;> simp only [keyCount_keep P (fun s x0 => hP s s.host x0 s.out), keyEvent_keep P (fun s x0 => hP s s.host x0 s.out), post_keep P (fun s x0 x1 => hP s x0 s.keys x1), updRoll_keep P (fun s x0 => hP s s.host x0 s.out), hP]

theorem rollDue_keep {β : Type} (P : State → β) (hP : ∀ s x0 x1 x2 x3, P { s with host := x0, keys := x1, otn := x2, out := x3 } = P s) (u : RollUser) (s : State) : P (rollDue u s) = P s := by
  unfold rollDue; dsimp only; (repeat' split) <;> simp only [rollGuard_keep P (fun s x0 x1 x2 => hP s s.host x0 x1 x2), rollMissed_keep P (fun s x0 x1 x2 => hP s x0 x1 s.otn x2), hP]

theorem rollAtNotice_keep {β : Type} (P : State → β) (hP : ∀ s x0 x1 x2, P { s with keys := x0, otn := x1, out := x2 } = P s) (u : RollUser) (s : State) : P (rollAtNotice u s) = P s := by
  unfold rollAtNotice; dsimp only; (repeat' split) <;> simp only [rollGuard_keep P hP, hP]

end Sys2Proof.Machine
end

