-- ==== Sys2Proof/Laws/KeepHeadstock.lean ====
section
/-! SUPPORT. What the operations and meanings of Machine/Headstock.lean leave alone: `f_keep` says that whatever is read from
the state without looking at the components `f` may change is the same after `f`. -/
set_option linter.all false
namespace Sys2Proof.Machine

theorem timedWrite_keep {β : Type} (P : State → β) (hP : ∀ s x0, P { s with path := x0 } = P s) (p : PD) (f : Frm) (d : Octets) (t e : Nat) (ext : Bool) (s : State) : P (timedWrite p f d t e ext s).2 = P s := by
  unfold timedWrite; dsimp only; (repeat' split) <;> simp only [ptpCount_keep P hP, hP, id]

theorem timedOwn_keep {β : Type} (P : State → β) (hP : ∀ s x0, P { s with path := x0 } = P s) (f : Frm) (s : State) : P (timedOwn f s).2 = P s := by
  unfold timedOwn; (repeat' split) <;> simp only [timedWrite_keep P hP, hP]

theorem readyWith_keep {β : Type} (P : State → β) (hP : ∀ s x0, P { s with path := x0 } = P s) (id : Nat) (v : Verdict) (s : State) : P (readyWith id v s) = P s := by
  unfold readyWith; (repeat' split) <;> simp only [updFrm_keep P hP, hP]

theorem enqueue_keep {β : Type} (P : State → β) (hP : ∀ s x0 x1 x2, P { s with keys := x0, fab := x1, path := x2 } = P s) (id : Nat) (d : Desc) (s : State) : P (enqueue id d s) = P s := by
  unfold enqueue; (repeat' split) <;> simp only [slotRef_keep P (fun s x0 => hP s x0 s.fab s.path), updFrm_keep P (fun s x0 => hP s s.keys s.fab x0), hP]

theorem givePn_keep {β : Type} (P : State → β) (hP : ∀ s x0 x1 x2 x3, P { s with host := x0, keys := x1, otn := x2, out := x3 } = P s) (sc : Fin 16384) (i : Nat) (s : State) : P (givePn sc i s).2 = P s := by
  unfold givePn; dsimp only; (repeat' split) <;> simp only [freezeSa_keep P hP, keyEvent_keep P (fun s x0 => hP s s.host x0 s.otn s.out), post_keep P (fun s x0 x1 => hP s x0 s.keys s.otn x1), rollAtNotice_keep P (fun s x0 x1 x2 => hP s s.host x0 x1 x2), updSa_keep P (fun s x0 => hP s s.host x0 s.otn s.out), hP]

theorem settleTransmit_keep {β : Type} (P : State → β) (hP : ∀ s x0 x1 x2 x3 x4 x5, P { s with host := x0, keys := x1, fab := x2, path := x3, otn := x4, out := x5 } = P s) (id : Nat) (f : Frm) (sc : Nat) (s : State) : P (settleTransmit id f sc s) = P s := by
  unfold settleTransmit; dsimp only; (repeat' split) <;> simp only [enqueue_keep P (fun s x0 x1 x2 => hP s s.host x0 x1 x2 s.otn s.out), givePn_keep P (fun s x0 x1 x2 x3 => hP s x0 x1 s.fab s.path x2 x3), readyWith_keep P (fun s x0 => hP s s.host s.keys s.fab x0 s.otn s.out), setData_keep P (fun s x0 => hP s s.host s.keys s.fab x0 s.otn s.out), timedOwn_keep P (fun s x0 => hP s s.host s.keys s.fab x0 s.otn s.out), hP]

theorem settleStrip_keep {β : Type} (P : State → β) (hP : ∀ s x0, P { s with path := x0 } = P s) (id : Nat) (f : Frm) (t secure : Nat) (s : State) : P (settleStrip id f t secure s) = P s := by
  unfold settleStrip; (repeat' split) <;> simp only [readyWith_keep P hP, setData_keep P hP, hP]

theorem settleReceive_keep {β : Type} (P : State → β) (hP : ∀ s x0 x1 x2, P { s with keys := x0, fab := x1, path := x2 } = P s) (id : Nat) (f : Frm) (s : State) : P (settleReceive id f s) = P s := by
  unfold settleReceive; dsimp only; (repeat' split) <;> simp only [enqueue_keep P hP, readyWith_keep P (fun s x0 => hP s s.keys s.fab x0), rxScCount_keep P (fun s x0 => hP s s.keys s.fab x0), rxSecyCount_keep P (fun s x0 => hP s s.keys s.fab x0), settleStrip_keep P (fun s x0 => hP s s.keys s.fab x0), updFrm_keep P (fun s x0 => hP s s.keys s.fab x0), hP]

theorem acquire_keep {β : Type} (P : State → β) (hP : ∀ s x0, P { s with otn := x0 } = P s) (t : Nat) (s : State) : P (acquire t s) = P s := by
  unfold acquire; (repeat' split) <;> simp only [updTr_keep P hP, hP]

theorem tribAcquire_keep {β : Type} (P : State → β) (hP : ∀ s x0, P { s with otn := x0 } = P s) (t : Nat) (s : State) : P (tribAcquire t s) = P s := by
  unfold tribAcquire; (repeat' split) <;> simp only [acquire_keep P hP, hP]

theorem tribCount_keep {β : Type} (P : State → β) (hP : ∀ s x0, P { s with otn := x0 } = P s) (t i : Nat) (s : State) : P (tribCount t i s) = P s := by
  unfold tribCount; (repeat' split) <;> simp only [updTr_keep P hP, hP]

theorem tribShow_keep {β : Type} (P : State → β) (hP : ∀ s x0, P { s with otn := x0 } = P s) (t : Nat) (s : State) : P (tribShow t s) = P s := by
  unfold tribShow; dsimp only; (repeat' split) <;> simp only [tribAcquire_keep P hP, hP]

theorem tribDefect_keep {β : Type} (P : State → β) (hP : ∀ s x0, P { s with otn := x0 } = P s) (t b : Nat) (on : Bool) (s : State) : P (tribDefect t b on s) = P s := by
  unfold tribDefect; (repeat' split) <;> simp only [tribShow_keep P hP, hP]

theorem openCounter_keep {β : Type} (P : State → β) (hP : ∀ s x0 x1 x2 x3, P { s with host := x0, keys := x1, otn := x2, out := x3 } = P s) (t p : Nat) (s : State) : P (openCounter t p s) = P s := by
  unfold openCounter; dsimp only; (repeat' split) <;> simp only [freezeSa_keep P hP, post_keep P (fun s x0 x1 => hP s x0 s.keys s.otn x1), rollAtNotice_keep P (fun s x0 x1 x2 => hP s s.host x0 x1 x2), saShow_keep P (fun s x0 => hP s s.host s.keys x0 s.out), updSa_keep P (fun s x0 => hP s s.host x0 s.otn s.out), updTr_keep P (fun s x0 => hP s s.host s.keys x0 s.out), hP]

theorem tribSaBits_keep {β : Type} (P : State → β) (hP : ∀ s x0, P { s with otn := x0 } = P s) (t : Nat) (s : State) : P (tribSaBits t s) = P s := by
  unfold tribSaBits; (repeat' split) <;> simp only [tribDefect_keep P hP, hP]

theorem openBlock_keep {β : Type} (P : State → β) (hP : ∀ s x0 x1 x2 x3, P { s with host := x0, keys := x1, otn := x2, out := x3 } = P s) (t p : Nat) (s : State) : P (openBlock t p s) = P s := by
  unfold openBlock; (repeat' split) <;> simp only [openCounter_keep P hP, tribSaBits_keep P (fun s x0 => hP s s.host s.keys x0 s.out), hP]

theorem settleOduTransmit_keep {β : Type} (P : State → β) (hP : ∀ s x0 x1 x2 x3 x4 x5, P { s with host := x0, keys := x1, fab := x2, path := x3, otn := x4, out := x5 } = P s) (id : Nat) (o : OduPart) (s : State) : P (settleOduTransmit id o s) = P s := by
  unfold settleOduTransmit; dsimp only; (repeat' split) <;> simp only [enqueue_keep P (fun s x0 x1 x2 => hP s s.host x0 x1 x2 s.otn s.out), openBlock_keep P (fun s x0 x1 x2 x3 => hP s x0 x1 s.fab s.path x2 x3), readyWith_keep P (fun s x0 => hP s s.host s.keys s.fab x0 s.otn s.out), updTr_keep P (fun s x0 => hP s s.host s.keys s.fab s.path x0 s.out), hP]

theorem secDeclare_keep {β : Type} (P : State → β) (hP : ∀ s x0, P { s with otn := x0 } = P s) (t b : Nat) (s : State) : P (secDeclare t b s) = P s := by
  unfold secDeclare; (repeat' split) <;> simp only [tribDefect_keep P hP, hP]

theorem settleAis_keep {β : Type} (P : State → β) (hP : ∀ s x0, P { s with path := x0 } = P s) (id : Nat) (o : OduPart) (s : State) : P (settleAis id o s) = P s := by
  unfold settleAis; (repeat' split) <;> simp only [readyWith_keep P hP, setData_keep P hP, updFrm_keep P hP, hP]

theorem blockFailed_keep {β : Type} (P : State → β) (hP : ∀ s x0 x1, P { s with keys := x0, otn := x1 } = P s) (t i : Nat) (s : State) : P (blockFailed t i s) = P s := by
  unfold blockFailed; dsimp only; (repeat' split) <;> simp only [saCount_keep P (fun s x0 => hP s x0 s.otn), secDeclare_keep P (fun s x0 => hP s s.keys x0), tribCount_keep P (fun s x0 => hP s s.keys x0), updTr_keep P (fun s x0 => hP s s.keys x0), hP]

theorem versionSeen_keep {β : Type} (P : State → β) (hP : ∀ s x0, P { s with otn := x0 } = P s) (t p l0 : Nat) (s : State) : P (versionSeen t p l0 s) = P s := by
  unfold versionSeen; dsimp only; (repeat' split) <;> simp only [secDeclare_keep P hP, tribDefect_keep P hP, updTr_keep P hP, hP]

theorem blockStart_keep {β : Type} (P : State → β) (hP : ∀ s x0, P { s with otn := x0 } = P s) (t : Nat) (s : State) : P (blockStart t s) = P s := by
  unfold blockStart; dsimp only; (repeat' split) <;> simp only [updTr_keep P hP, hP]

theorem acquireHeader_keep {β : Type} (P : State → β) (hP : ∀ s x0, P { s with otn := x0 } = P s) (t p : Nat) (lso : Octets) (s : State) : P (acquireHeader t p lso s) = P s := by
  unfold acquireHeader; dsimp only; (repeat' split) <;> simp only [updTr_keep P hP, hP]

theorem oduPosition_keep {β : Type} (P : State → β) (hP : ∀ s x0, P { s with otn := x0 } = P s) (o : OduPart) (s : State) : P (oduPosition o s) = P s := by
  unfold oduPosition; dsimp only; (repeat' split) <;> simp only [blockStart_keep P hP, updTr_keep P hP, hP]

theorem settleTracked_keep {β : Type} (P : State → β) (hP : ∀ s x0 x1 x2 x3, P { s with keys := x0, fab := x1, path := x2, otn := x3 } = P s) (id : Nat) (o : OduPart) (s : State) : P (settleTracked id o s) = P s := by
  unfold settleTracked; dsimp only; (repeat' split) <;> simp only [acquire_keep P (fun s x0 => hP s s.keys s.fab s.path x0), acquireHeader_keep P (fun s x0 => hP s s.keys s.fab s.path x0), blockFailed_keep P (fun s x0 x1 => hP s x0 s.fab s.path x1), enqueue_keep P (fun s x0 x1 x2 => hP s x0 x1 x2 s.otn), secDeclare_keep P (fun s x0 => hP s s.keys s.fab s.path x0), settleAis_keep P (fun s x0 => hP s s.keys s.fab x0 s.otn), tribCount_keep P (fun s x0 => hP s s.keys s.fab s.path x0), tribDefect_keep P (fun s x0 => hP s s.keys s.fab s.path x0), updTr_keep P (fun s x0 => hP s s.keys s.fab s.path x0), hP]

theorem settleShown_keep {β : Type} (P : State → β) (hP : ∀ s x0 x1 x2 x3, P { s with keys := x0, fab := x1, path := x2, otn := x3 } = P s) (id : Nat) (o : OduPart) (s : State) : P (settleShown id o s) = P s := by
  unfold settleShown; dsimp only; (repeat' split) <;> simp only [acquireHeader_keep P (fun s x0 => hP s s.keys s.fab s.path x0), settleAis_keep P (fun s x0 => hP s s.keys s.fab x0 s.otn), settleTracked_keep P hP, versionSeen_keep P (fun s x0 => hP s s.keys s.fab s.path x0), hP]

theorem settleOduReceive_keep {β : Type} (P : State → β) (hP : ∀ s x0 x1 x2 x3, P { s with keys := x0, fab := x1, path := x2, otn := x3 } = P s) (id : Nat) (o : OduPart) (s : State) : P (settleOduReceive id o s) = P s := by
  unfold settleOduReceive; (repeat' split) <;> simp only [acquire_keep P (fun s x0 => hP s s.keys s.fab s.path x0), oduPosition_keep P (fun s x0 => hP s s.keys s.fab s.path x0), readyWith_keep P (fun s x0 => hP s s.keys s.fab x0 s.otn), settleShown_keep P hP, hP]

theorem settle_keep {β : Type} (P : State → β) (hP : ∀ s x0 x1 x2 x3 x4 x5, P { s with host := x0, keys := x1, fab := x2, path := x3, otn := x4, out := x5 } = P s) (id : Nat) (f : Frm) (s : State) : P (settle id f s) = P s := by
  unfold settle; (repeat' split) <;> (first | rfl | simp only [readyWith_keep P (fun s x0 => hP s s.host s.keys s.fab x0 s.otn s.out), settleOduReceive_keep P (fun s x0 x1 x2 x3 => hP s s.host x0 x1 x2 x3 s.out), settleOduTransmit_keep P hP, settleReceive_keep P (fun s x0 x1 x2 => hP s s.host x0 x1 x2 s.otn s.out), settleTransmit_keep P hP, hP])

theorem headstockSettle_keep {β : Type} (P : State → β) (hP : ∀ s x0 x1 x2 x3 x4 x5, P { s with host := x0, keys := x1, fab := x2, path := x3, otn := x4, out := x5 } = P s) (p : PD) (s : State) : P (headstockSettle p s) = P s := by
  unfold headstockSettle; (repeat' split) <;> simp only [settle_keep P hP, updPd_keep P (fun s x0 => hP s s.host s.keys s.fab x0 s.otn s.out), hP, id]

end Sys2Proof.Machine
end

