-- ==== Sys2Proof/Laws/KeepFabric.lean ====
section
/-! SUPPORT. What the operations and meanings of Machine/Fabric.lean leave alone: `f_keep` says that whatever is read from
the state without looking at the components `f` may change is the same after `f`. -/
set_option linter.all false
namespace Sys2Proof.Machine

theorem updSp_keep {β : Type} (P : State → β) (hP : ∀ s x0, P { s with fab := x0 } = P s) (i : Nat) (f : Spindle → Spindle) (s : State) : P (updSp i f s) = P s := by
  unfold updSp; (repeat' split) <;> simp only [hP]

theorem fabCount_keep {β : Type} (P : State → β) (hP : ∀ s x0, P { s with fab := x0 } = P s) (i n : Nat) (s : State) : P (fabCount i n s) = P s := by
  unfold fabCount; (repeat' split) <;> simp only [hP]

theorem fabStatus_keep {β : Type} (P : State → β) (hP : ∀ s x0, P { s with fab := x0 } = P s) (i : Nat) (on : Bool) (s : State) : P (fabStatus i on s) = P s := by
  unfold fabStatus; (repeat' split) <;> simp only [hP]

theorem setRole_keep {β : Type} (P : State → β) (hP : ∀ s x0, P { s with fab := x0 } = P s) (i : Nat) (r : Role) (s : State) : P (setRole i r s) = P s := by
  unfold setRole; (repeat' split) <;> simp only [updSp_keep P hP, hP]

theorem logSpindle_keep {β : Type} (P : State → β) (hP : ∀ s x0 x1 x2, P { s with host := x0, rest := x1, out := x2 } = P s) (i cause frames tokens : Nat) (s : State) : P (logSpindle i cause frames tokens s) = P s := by
  unfold logSpindle; (repeat' split) <;> simp only [logEntry_keep P hP, hP]

theorem checkpointWrite_keep {β : Type} (P : State → β) (hP : ∀ s x0 x1 x2 x3 x4, Memory.wf x3.hbm = Memory.wf s.mpu.hbm → P { s with host := x0, rest := x1, fab := x2, mpu := x3, out := x4 } = P s) (i : Nat) (s : State) : P (checkpointWrite i s) = P s := by
  unfold checkpointWrite; dsimp only; (repeat' split) <;> simp only [updSp_keep P (fun s x0 => hP s s.host s.rest x0 s.mpu s.out rfl), writeLine_keep P (fun s x0 x1 x2 x3 h => hP s x0 x1 s.fab x2 x3 h), hP]

theorem checkpointsOwed_keep {β : Type} (P : State → β) (hP : ∀ s x0 x1 x2 x3 x4, Memory.wf x3.hbm = Memory.wf s.mpu.hbm → P { s with host := x0, rest := x1, fab := x2, mpu := x3, out := x4 } = P s) (s : State) : P (checkpointsOwed s) = P s := by
  unfold checkpointsOwed; repeat' (first | with_reducible rfl | split | simp only [checkpointWrite_keep P hP, hP] | (with_reducible refine (keep (fun _ _ => by (repeat' (first | with_reducible rfl | split | simp only [checkpointWrite_keep P hP, hP])))).trans ?_) | (with_reducible refine (keep2 (fun _ _ => by (repeat' (first | with_reducible rfl | split | simp only [checkpointWrite_keep P hP, hP])))).trans ?_))

theorem trimFactory_keep {β : Type} (P : State → β) (hP : ∀ s x0, P { s with fab := x0 } = P s) (i : Nat) (s : State) : P (trimFactory i s) = P s := by
  unfold trimFactory; (repeat' split) <;> simp only [updSp_keep P hP, hP]

theorem checkpointLoad_keep {β : Type} (P : State → β) (hP : ∀ s x0 x1 x2 x3 x4, Memory.wf x3.hbm = Memory.wf s.mpu.hbm → P { s with host := x0, rest := x1, fab := x2, mpu := x3, out := x4 } = P s) (i : Nat) (s : State) : P (checkpointLoad i s) = P s := by
  unfold checkpointLoad; split; (· split <;> (have f := readLine_keep P (fun s x0 x1 x2 x3 h => hP s x0 x1 s.fab x2 x3 h) 12 (checkpointAt i) s; rw [‹readLine _ _ _ = _›] at f; simp only [readLine_keep P (fun s x0 x1 x2 x3 h => hP s x0 x1 s.fab x2 x3 h), trimFactory_keep P (fun s x0 => hP s s.host s.rest x0 s.mpu s.out rfl), updSp_keep P (fun s x0 => hP s s.host s.rest x0 s.mpu s.out rfl), hP]; exact f)); (· simp only [readLine_keep P (fun s x0 x1 x2 x3 h => hP s x0 x1 s.fab x2 x3 h), trimFactory_keep P (fun s x0 => hP s s.host s.rest x0 s.mpu s.out rfl), updSp_keep P (fun s x0 => hP s s.host s.rest x0 s.mpu s.out rfl), hP])

theorem toSpare_keep {β : Type} (P : State → β) (hP : ∀ s x0 x1 x2 x3 x4 x5, Memory.wf x4.hbm = Memory.wf s.mpu.hbm → P { s with power := x0, host := x1, rest := x2, fab := x3, mpu := x4, out := x5 } = P s) (i : Nat) (s : State) : P (toSpare i s) = P s := by
  unfold toSpare; (repeat' split) <;> simp only [checkpointWrite_keep P (fun s x0 x1 x2 x3 x4 h => hP s s.power x0 x1 x2 x3 x4 h), setDomain_keep P (fun s x0 => hP s x0 s.host s.rest s.fab s.mpu s.out rfl), setRole_keep P (fun s x0 => hP s s.power s.host s.rest x0 s.mpu s.out rfl), hP]

theorem startSpindle_keep {β : Type} (P : State → β) (hP : ∀ s x0 x1 x2 x3 x4 x5 x6, Memory.wf x5.hbm = Memory.wf s.mpu.hbm → P { s with power := x0, host := x1, rng := x2, rest := x3, fab := x4, mpu := x5, out := x6 } = P s) (i : Nat) (w : Why) (s : State) : P (startSpindle i w s) = P s := by
  unfold startSpindle; (repeat' split) <;> simp only [checkpointLoad_keep P (fun s x0 x1 x2 x3 x4 h => hP s s.power x0 s.rng x1 x2 x3 x4 h), rngAsk_keep P (fun s x0 => hP s s.power s.host x0 s.rest s.fab s.mpu s.out rfl), setDomain_keep P (fun s x0 => hP s x0 s.host s.rng s.rest s.fab s.mpu s.out rfl), setRole_keep P (fun s x0 => hP s s.power s.host s.rng s.rest x0 s.mpu s.out rfl), updSp_keep P (fun s x0 => hP s s.power s.host s.rng s.rest x0 s.mpu s.out rfl), hP]

theorem fillSpares_keep {β : Type} (P : State → β) (hP : ∀ s x0 x1 x2 x3 x4 x5 x6, Memory.wf x5.hbm = Memory.wf s.mpu.hbm → P { s with power := x0, host := x1, rng := x2, rest := x3, fab := x4, mpu := x5, out := x6 } = P s)  (a0 : Nat) (a1 : State) : P (fillSpares a0 a1) = P a1 := by
  induction a0 generalizing a1 with
  | zero => rfl
  | succ n ih => unfold fillSpares; repeat' (first | with_reducible rfl | split | simp only [ih, startSpindle_keep P hP, hP])

theorem spareCheck_keep {β : Type} (P : State → β) (hP : ∀ s x0 x1 x2, P { s with host := x0, fab := x1, out := x2 } = P s) (s : State) : P (spareCheck s) = P s := by
  unfold spareCheck; dsimp only; (repeat' split) <;> simp only [fabStatus_keep P (fun s x0 => hP s s.host x0 s.out), post_keep P (fun s x0 x1 => hP s x0 s.fab x1), hP]

theorem settleRoles_keep {β : Type} (P : State → β) (hP : ∀ s x0 x1 x2 x3 x4 x5 x6, Memory.wf x5.hbm = Memory.wf s.mpu.hbm → P { s with power := x0, host := x1, rng := x2, rest := x3, fab := x4, mpu := x5, out := x6 } = P s) (s : State) : P (settleRoles s) = P s := by
  unfold settleRoles; (repeat' split) <;> simp only [fillSpares_keep P hP, spareCheck_keep P (fun s x0 x1 x2 => hP s s.power x0 s.rng s.rest x1 s.mpu x2 rfl), hP]

theorem rotationEnd_keep {β : Type} (P : State → β) (hP : ∀ s x0, P { s with fab := x0 } = P s) (s : State) : P (rotationEnd s) = P s := by
  unfold rotationEnd; (repeat' split) <;> simp only [hP]

theorem rotationYield_keep {β : Type} (P : State → β) (hP : ∀ s x0, P { s with fab := x0 } = P s) (s : State) : P (rotationYield s) = P s := by
  unfold rotationYield; (repeat' split) <;> simp only [rotationEnd_keep P hP, updSp_keep P hP, hP]

theorem startFailed_keep {β : Type} (P : State → β) (hP : ∀ s x0 x1 x2 x3 x4 x5 x6, Memory.wf x5.hbm = Memory.wf s.mpu.hbm → P { s with power := x0, host := x1, rng := x2, rest := x3, fab := x4, mpu := x5, out := x6 } = P s) (i : Nat) (s : State) : P (startFailed i s) = P s := by
  unfold startFailed; dsimp only; (repeat' split) <;> simp only [logSpindle_keep P (fun s x0 x1 x2 => hP s s.power x0 s.rng x1 s.fab s.mpu x2 rfl), rotationEnd_keep P (fun s x0 => hP s s.power s.host s.rng s.rest x0 s.mpu s.out rfl), setDomain_keep P (fun s x0 => hP s x0 s.host s.rng s.rest s.fab s.mpu s.out rfl), setRole_keep P (fun s x0 => hP s s.power s.host s.rng s.rest x0 s.mpu s.out rfl), settleRoles_keep P hP, spareCheck_keep P (fun s x0 x1 x2 => hP s s.power x0 s.rng s.rest x1 s.mpu x2 rfl), startSpindle_keep P hP, updSp_keep P (fun s x0 => hP s s.power s.host s.rng s.rest x0 s.mpu s.out rfl), hP]

theorem retireSpindle_keep {β : Type} (P : State → β) (hP : ∀ s x0 x1 x2 x3 x4, P { s with power := x0, host := x1, rest := x2, fab := x3, out := x4 } = P s) (i : Nat) (s : State) : P (retireSpindle i s) = P s := by
  unfold retireSpindle; (repeat' split) <;> simp only [logSpindle_keep P (fun s x0 x1 x2 => hP s s.power x0 x1 s.fab x2), post_keep P (fun s x0 x1 => hP s s.power x0 s.rest s.fab x1), setDomain_keep P (fun s x0 => hP s x0 s.host s.rest s.fab s.out), setRole_keep P (fun s x0 => hP s s.power s.host s.rest x0 s.out), spareCheck_keep P (fun s x0 x1 x2 => hP s s.power x0 s.rest x1 x2), hP]

theorem startPassed_keep {β : Type} (P : State → β) (hP : ∀ s x0 x1 x2 x3 x4 x5 x6, Memory.wf x5.hbm = Memory.wf s.mpu.hbm → P { s with power := x0, host := x1, rng := x2, rest := x3, fab := x4, mpu := x5, out := x6 } = P s) (i calib : Nat) (s : State) : P (startPassed i calib s) = P s := by
  unfold startPassed; dsimp only; (repeat' split) <;> simp only [fabCount_keep P (fun s x0 => hP s s.power s.host s.rng s.rest x0 s.mpu s.out rfl), rotationEnd_keep P (fun s x0 => hP s s.power s.host s.rng s.rest x0 s.mpu s.out rfl), setRole_keep P (fun s x0 => hP s s.power s.host s.rng s.rest x0 s.mpu s.out rfl), settleRoles_keep P hP, spareCheck_keep P (fun s x0 x1 x2 => hP s s.power x0 s.rng s.rest x1 s.mpu x2 rfl), toSpare_keep P (fun s x0 x1 x2 x3 x4 x5 h => hP s x0 x1 s.rng x2 x3 x4 x5 h), updSp_keep P (fun s x0 => hP s s.power s.host s.rng s.rest x0 s.mpu s.out rfl), hP]

theorem replayFrame_keep {β : Type} (P : State → β) (hP : ∀ s x0 x1, P { s with fab := x0, path := x1 } = P s) (id : Nat) (s : State) : P (replayFrame id s) = P s := by
  unfold replayFrame; (repeat' split) <;> simp only [updFrm_keep P (fun s x0 => hP s s.fab x0), hP]

theorem replayAll_keep {β : Type} (P : State → β) (hP : ∀ s x0 x1, P { s with fab := x0, path := x1 } = P s) (ids : List Nat) (s : State) : P (replayAll ids s) = P s := by
  unfold replayAll; repeat' (first | with_reducible rfl | split | simp only [fabCount_keep P (fun s x0 => hP s x0 s.path), replayFrame_keep P hP, hP, id] | (with_reducible refine (keep (fun _ _ => by (repeat' (first | with_reducible rfl | split | simp only [fabCount_keep P (fun s x0 => hP s x0 s.path), replayFrame_keep P hP, hP, id])))).trans ?_) | (with_reducible refine (keep2 (fun _ _ => by (repeat' (first | with_reducible rfl | split | simp only [fabCount_keep P (fun s x0 => hP s x0 s.path), replayFrame_keep P hP, hP, id])))).trans ?_))

theorem isolateSpindle_keep {β : Type} (P : State → β) (hP : ∀ s x0 x1 x2 x3 x4 x5 x6 x7, Memory.wf x6.hbm = Memory.wf s.mpu.hbm → P { s with power := x0, host := x1, rng := x2, rest := x3, fab := x4, path := x5, mpu := x6, out := x7 } = P s) (i cause : Nat) (s : State) : P (isolateSpindle i cause s) = P s := by
  unfold isolateSpindle; dsimp only; (repeat' split) <;> simp only [fabCount_keep P (fun s x0 => hP s s.power s.host s.rng s.rest x0 s.path s.mpu s.out rfl), logSpindle_keep P (fun s x0 x1 x2 => hP s s.power x0 s.rng x1 s.fab s.path s.mpu x2 rfl), post_keep P (fun s x0 x1 => hP s s.power x0 s.rng s.rest s.fab s.path s.mpu x1 rfl), replayAll_keep P (fun s x0 x1 => hP s s.power s.host s.rng s.rest x0 x1 s.mpu s.out rfl), rotationEnd_keep P (fun s x0 => hP s s.power s.host s.rng s.rest x0 s.path s.mpu s.out rfl), rotationYield_keep P (fun s x0 => hP s s.power s.host s.rng s.rest x0 s.path s.mpu s.out rfl), setDomain_keep P (fun s x0 => hP s x0 s.host s.rng s.rest s.fab s.path s.mpu s.out rfl), setRole_keep P (fun s x0 => hP s s.power s.host s.rng s.rest x0 s.path s.mpu s.out rfl), settleRoles_keep P (fun s x0 x1 x2 x3 x4 x5 x6 h => hP s x0 x1 x2 x3 x4 s.path x5 x6 h), updSp_keep P (fun s x0 => hP s s.power s.host s.rng s.rest x0 s.path s.mpu s.out rfl), hP]

theorem dispatchKeyless_keep {β : Type} (P : State → β) (hP : ∀ s x0 x1, P { s with path := x0, otn := x1 } = P s) (id : Nat) (replayed : Bool) (f : Frm) (s : State) : P (dispatchKeyless id replayed f s) = P s := by
  unfold dispatchKeyless; dsimp only; (repeat' split) <;> simp only [acquire_keep P (fun s x0 => hP s s.path x0), readyWith_keep P (fun s x0 => hP s x0 s.otn), rxScCount_keep P (fun s x0 => hP s x0 s.otn), secDeclare_keep P (fun s x0 => hP s s.path x0), settleAis_keep P (fun s x0 => hP s x0 s.otn), settleStrip_keep P (fun s x0 => hP s x0 s.otn), hP]

theorem dispatch_keep {β : Type} (P : State → β) (hP : ∀ s x0 x1 x2 x3 x4 x5, P { s with host := x0, keys := x1, fab := x2, path := x3, otn := x4, out := x5 } = P s) (s : State) : P (dispatch s) = P s := by
  unfold dispatch; dsimp only; split; (· rfl); split; (· rfl); split; (· split <;> (have f := congrArg (fun q => P q.2) ‹readSlot _ _ = _›; simp only [dispatchKeyless_keep P (fun s x0 x1 => hP s s.host s.keys s.fab x0 x1 s.out), readSlot_keep P (fun s x0 x1 x2 x3 => hP s x0 x1 s.fab s.path x2 x3), updFrm_keep P (fun s x0 => hP s s.host s.keys s.fab x0 s.otn s.out), hP, id] at f ⊢; exact f.symm)); (· simp only [dispatchKeyless_keep P (fun s x0 x1 => hP s s.host s.keys s.fab x0 x1 s.out), readSlot_keep P (fun s x0 x1 x2 x3 => hP s x0 x1 s.fab s.path x2 x3), updFrm_keep P (fun s x0 => hP s s.host s.keys s.fab x0 s.otn s.out), hP, id]); (· rfl)

theorem issueToken_keep {β : Type} (P : State → β) (hP : ∀ s x0 x1, P { s with fab := x0, path := x1 } = P s) (i : Nat) (s : State) : P (issueToken i s) = P s := by
  unfold issueToken; dsimp only; (repeat' split) <;> simp only [updFrm_keep P (fun s x0 => hP s s.fab x0), updSp_keep P (fun s x0 => hP s x0 s.path), hP, id]

theorem completeToken_keep {β : Type} (P : State → β) (hP : ∀ s x0 x1 x2 x3 x4 x5 x6 x7, Memory.wf x6.hbm = Memory.wf s.mpu.hbm → P { s with power := x0, host := x1, rng := x2, rest := x3, fab := x4, path := x5, mpu := x6, out := x7 } = P s) (i : Nat) (s : State) : P (completeToken i s) = P s := by
  unfold completeToken; dsimp only; (repeat' split) <;> simp only [isolateSpindle_keep P hP, retWrite_keep P (fun s x0 => hP s s.power s.host s.rng s.rest s.fab x0 s.mpu s.out rfl), updFrm_keep P (fun s x0 => hP s s.power s.host s.rng s.rest s.fab x0 s.mpu s.out rfl), updSp_keep P (fun s x0 => hP s s.power s.host s.rng s.rest x0 s.path s.mpu s.out rfl), hP, id]

theorem avsSend_keep {β : Type} (P : State → β) (hP : ∀ s x0 x1, P { s with fab := x0, out := x1 } = P s) (mv : Nat) (s : State) : P (avsSend mv s) = P s := by
  unfold avsSend; (repeat' split) <;> simp only [emit_keep P (fun s x0 => hP s s.fab x0), hP]

theorem avsFreeze_keep {β : Type} (P : State → β) (hP : ∀ s x0 x1 x2 x3, P { s with host := x0, rest := x1, fab := x2, out := x3 } = P s) (s : State) : P (avsFreeze s) = P s := by
  unfold avsFreeze; (repeat' split) <;> simp only [fabStatus_keep P (fun s x0 => hP s s.host s.rest x0 s.out), logEntry_keep P (fun s x0 x1 x2 => hP s x0 x1 s.fab x2), post_keep P (fun s x0 x1 => hP s x0 s.rest s.fab x1), hP]

theorem fixedRail_keep {β : Type} (P : State → β) (hP : ∀ s x0 x1, P { s with fab := x0, out := x1 } = P s) (s : State) : P (fixedRail s) = P s := by
  unfold fixedRail; (repeat' split) <;> simp only [avsSend_keep P hP, hP]

theorem avsMeasure_keep {β : Type} (P : State → β) (hP : ∀ s x0, P { s with fab := x0 } = P s) (rings : List Nat) (s : State) : P (avsMeasure rings s) = P s := by
  unfold avsMeasure; repeat' (first | with_reducible rfl | split | simp only [updSp_keep P hP, hP] | (with_reducible refine (keep (fun _ _ => by (repeat' (first | with_reducible rfl | split | simp only [updSp_keep P hP, hP])))).trans ?_) | (with_reducible refine (keep2 (fun _ _ => by (repeat' (first | with_reducible rfl | split | simp only [updSp_keep P hP, hP])))).trans ?_))

theorem avsEvents_keep {β : Type} (P : State → β) (hP : ∀ s x0 x1 x2, P { s with host := x0, fab := x1, out := x2 } = P s) (margin capacity : Bool) (s : State) : P (avsEvents margin capacity s) = P s := by
  unfold avsEvents; dsimp only; (repeat' split) <;> simp only [fabStatus_keep P (fun s x0 => hP s s.host x0 s.out), post_keep P (fun s x0 x1 => hP s x0 s.fab x1), hP]

theorem avsSteer_keep {β : Type} (P : State → β) (hP : ∀ s x0 x1, P { s with fab := x0, out := x1 } = P s) (short : Bool) (lo hi : Nat) (s : State) : P (avsSteer short lo hi s) = P s := by
  unfold avsSteer; dsimp only; (repeat' split) <;> simp only [avsSend_keep P hP, fixedRail_keep P hP, hP]

theorem avsEvaluate_keep {β : Type} (P : State → β) (hP : ∀ s x0 x1 x2 x3, P { s with power := x0, host := x1, fab := x2, out := x3 } = P s) (rings : List Nat) (s : State) : P (avsEvaluate rings s) = P s := by
  unfold avsEvaluate; repeat' (first | with_reducible rfl | split | simp only [avsEvents_keep P (fun s x0 x1 x2 => hP s s.power x0 x1 x2), avsMeasure_keep P (fun s x0 => hP s s.power s.host x0 s.out), avsSteer_keep P (fun s x0 x1 => hP s s.power s.host x0 x1), hP] | (with_reducible refine (keep (fun _ _ => by (repeat' (first | with_reducible rfl | split | simp only [avsEvents_keep P (fun s x0 x1 x2 => hP s s.power x0 x1 x2), avsMeasure_keep P (fun s x0 => hP s s.power s.host x0 s.out), avsSteer_keep P (fun s x0 x1 => hP s s.power s.host x0 x1), hP] | (with_reducible refine (keep (fun _ _ => by (repeat' (first | with_reducible rfl | split | simp only [avsEvents_keep P (fun s x0 x1 x2 => hP s s.power x0 x1 x2), avsMeasure_keep P (fun s x0 => hP s s.power s.host x0 s.out), avsSteer_keep P (fun s x0 x1 => hP s s.power s.host x0 x1), hP])))).trans ?_) | (with_reducible refine (keep2 (fun _ _ => by (repeat' (first | with_reducible rfl | split | simp only [avsEvents_keep P (fun s x0 x1 x2 => hP s s.power x0 x1 x2), avsMeasure_keep P (fun s x0 => hP s s.power s.host x0 s.out), avsSteer_keep P (fun s x0 x1 => hP s s.power s.host x0 x1), hP])))).trans ?_))))).trans ?_) | (with_reducible refine (keep2 (fun _ _ => by (repeat' (first | with_reducible rfl | split | simp only [avsEvents_keep P (fun s x0 x1 x2 => hP s s.power x0 x1 x2), avsMeasure_keep P (fun s x0 => hP s s.power s.host x0 s.out), avsSteer_keep P (fun s x0 x1 => hP s s.power s.host x0 x1), hP] | (with_reducible refine (keep (fun _ _ => by (repeat' (first | with_reducible rfl | split | simp only [avsEvents_keep P (fun s x0 x1 x2 => hP s s.power x0 x1 x2), avsMeasure_keep P (fun s x0 => hP s s.power s.host x0 s.out), avsSteer_keep P (fun s x0 x1 => hP s s.power s.host x0 x1), hP])))).trans ?_) | (with_reducible refine (keep2 (fun _ _ => by (repeat' (first | with_reducible rfl | split | simp only [avsEvents_keep P (fun s x0 x1 x2 => hP s s.power x0 x1 x2), avsMeasure_keep P (fun s x0 => hP s s.power s.host x0 s.out), avsSteer_keep P (fun s x0 x1 => hP s s.power s.host x0 x1), hP])))).trans ?_))))).trans ?_))

theorem marginClear_keep {β : Type} (P : State → β) (hP : ∀ s x0 x1, P { s with time := x0, fab := x1 } = P s) (s : State) : P (marginClear s) = P s := by
  unfold marginClear; repeat' (first | with_reducible rfl | split | simp only [fabStatus_keep P (fun s x0 => hP s s.time x0), waitCycle_keep P (fun s x0 => hP s x0 s.fab), hP] | (with_reducible refine (keep (fun _ _ => by (repeat' (first | with_reducible rfl | split | simp only [fabStatus_keep P (fun s x0 => hP s s.time x0), waitCycle_keep P (fun s x0 => hP s x0 s.fab), hP])))).trans ?_) | (with_reducible refine (keep2 (fun _ _ => by (repeat' (first | with_reducible rfl | split | simp only [fabStatus_keep P (fun s x0 => hP s s.time x0), waitCycle_keep P (fun s x0 => hP s x0 s.fab), hP])))).trans ?_))

theorem lagInstant_keep {β : Type} (P : State → β) (hP : ∀ s x0, P { s with time := x0 } = P s) (elapsed : Nat) (s : State) : P (lagInstant elapsed s) = P s := by
  unfold lagInstant; (repeat' split) <;> simp only [waitCycle_keep P hP, hP]

theorem lagEvaluate_keep {β : Type} (P : State → β) (hP : ∀ s x0 x1 x2 x3 x4 x5 x6, Memory.wf x5.hbm = Memory.wf s.mpu.hbm → P { s with power := x0, host := x1, rng := x2, rest := x3, fab := x4, mpu := x5, out := x6 } = P s) (s : State) : P (lagEvaluate s) = P s := by
  unfold lagEvaluate; repeat' (first | with_reducible rfl | split | simp only [logSpindle_keep P (fun s x0 x1 x2 => hP s s.power x0 s.rng x1 s.fab s.mpu x2 rfl), post_keep P (fun s x0 x1 => hP s s.power x0 s.rng s.rest s.fab s.mpu x1 rfl), settleRoles_keep P hP, updSp_keep P (fun s x0 => hP s s.power s.host s.rng s.rest x0 s.mpu s.out rfl), hP] | (with_reducible refine (keep (fun _ _ => by (repeat' (first | with_reducible rfl | split | simp only [logSpindle_keep P (fun s x0 x1 x2 => hP s s.power x0 s.rng x1 s.fab s.mpu x2 rfl), post_keep P (fun s x0 x1 => hP s s.power x0 s.rng s.rest s.fab s.mpu x1 rfl), settleRoles_keep P hP, updSp_keep P (fun s x0 => hP s s.power s.host s.rng s.rest x0 s.mpu s.out rfl), hP])))).trans ?_) | (with_reducible refine (keep2 (fun _ _ => by (repeat' (first | with_reducible rfl | split | simp only [logSpindle_keep P (fun s x0 x1 x2 => hP s s.power x0 s.rng x1 s.fab s.mpu x2 rfl), post_keep P (fun s x0 x1 => hP s s.power x0 s.rng s.rest s.fab s.mpu x1 rfl), settleRoles_keep P hP, updSp_keep P (fun s x0 => hP s s.power s.host s.rng s.rest x0 s.mpu s.out rfl), hP])))).trans ?_))

theorem rotate_keep {β : Type} (P : State → β) (hP : ∀ s x0 x1 x2 x3 x4 x5 x6 x7, Memory.wf x6.hbm = Memory.wf s.mpu.hbm → P { s with time := x0, power := x1, host := x2, rng := x3, rest := x4, fab := x5, mpu := x6, out := x7 } = P s) (s : State) : P (rotate s) = P s := by
  unfold rotate; dsimp only; (repeat' split) <;> simp only [spareCheck_keep P (fun s x0 x1 x2 => hP s s.time s.power x0 s.rng s.rest x1 s.mpu x2 rfl), startSpindle_keep P (fun s x0 x1 x2 x3 x4 x5 x6 h => hP s s.time x0 x1 x2 x3 x4 x5 x6 h), waitCycle_keep P (fun s x0 => hP s x0 s.power s.host s.rng s.rest s.fab s.mpu s.out rfl), hP]

theorem takeBack_keep {β : Type} (P : State → β) (hP : ∀ s x0 x1, P { s with fab := x0, path := x1 } = P s) (ids : List Nat) (s : State) : P (takeBack ids s) = P s := by
  unfold takeBack; repeat' (first | with_reducible rfl | split | simp only [replayAll_keep P hP, hP] | (with_reducible refine (keep (fun _ _ => by (repeat' (first | with_reducible rfl | split | simp only [replayAll_keep P hP, hP])))).trans ?_) | (with_reducible refine (keep2 (fun _ _ => by (repeat' (first | with_reducible rfl | split | simp only [replayAll_keep P hP, hP])))).trans ?_))

theorem lockstepRestart_keep {β : Type} (P : State → β) (hP : ∀ s x0 x1 x2, P { s with power := x0, fab := x1, path := x2 } = P s) (h : Half) (cause : Nat) (s : State) : P (lockstepRestart h cause s) = P s := by
  unfold lockstepRestart; (repeat' split) <;> simp only [countDomainReset_keep P (fun s x0 => hP s x0 s.fab s.path), takeBack_keep P (fun s x0 x1 => hP s s.power x0 x1), hP]

theorem bankReset_keep {β : Type} (P : State → β) (hP : ∀ s x0 x1 x2 x3 x4, P { s with power := x0, host := x1, fab := x2, path := x3, out := x4 } = P s) (b cause : Nat) (s : State) : P (bankReset b cause s) = P s := by
  unfold bankReset; (repeat' split) <;> simp only [bankLost_keep P (fun s x0 => hP s s.power s.host s.fab x0 s.out), countDomainReset_keep P (fun s x0 => hP s x0 s.host s.fab s.path s.out), fabStatus_keep P (fun s x0 => hP s s.power s.host x0 s.path s.out), post_keep P (fun s x0 x1 => hP s s.power x0 s.fab s.path x1), setDomain_keep P (fun s x0 => hP s x0 s.host s.fab s.path s.out), hP]

theorem rebuildDone_keep {β : Type} (P : State → β) (hP : ∀ s x0 x1 x2 x3 x4, P { s with power := x0, host := x1, fab := x2, path := x3, out := x4 } = P s) (b : Nat) (s : State) : P (rebuildDone b s) = P s := by
  unfold rebuildDone; dsimp only; (repeat' split) <;> simp only [bankRebuild_keep P (fun s x0 => hP s s.power s.host s.fab x0 s.out), bankReset_keep P hP, fabStatus_keep P (fun s x0 => hP s s.power s.host x0 s.path s.out), post_keep P (fun s x0 x1 => hP s s.power x0 s.fab s.path x1), hP]

theorem park_keep {β : Type} (P : State → β) (hP : ∀ s x0 x1 x2, P { s with time := x0, power := x1, fab := x2 } = P s) (s : State) : P (park s) = P s := by
  unfold park; repeat' (first | with_reducible rfl | split | simp only [setRole_keep P (fun s x0 => hP s s.time s.power x0), updSp_keep P (fun s x0 => hP s s.time s.power x0), waitCycle_keep P (fun s x0 => hP s x0 s.power s.fab), hP] | (with_reducible refine (keep (fun _ _ => by (repeat' (first | with_reducible rfl | split | simp only [setRole_keep P (fun s x0 => hP s s.time s.power x0), updSp_keep P (fun s x0 => hP s s.time s.power x0), waitCycle_keep P (fun s x0 => hP s x0 s.power s.fab), hP])))).trans ?_) | (with_reducible refine (keep2 (fun _ _ => by (repeat' (first | with_reducible rfl | split | simp only [setRole_keep P (fun s x0 => hP s s.time s.power x0), updSp_keep P (fun s x0 => hP s s.time s.power x0), waitCycle_keep P (fun s x0 => hP s x0 s.power s.fab), hP])))).trans ?_))

theorem unpark_keep {β : Type} (P : State → β) (hP : ∀ s x0 x1 x2 x3 x4 x5 x6 x7 x8 x9, Memory.wf x8.hbm = Memory.wf s.mpu.hbm → P { s with power := x0, host := x1, rng := x2, rest := x3, keys := x4, fab := x5, path := x6, otn := x7, mpu := x8, out := x9 } = P s) (s : State) : P (unpark s) = P s := by
  unfold unpark; (repeat' split) <;> simp only [dispatch_keep P (fun s x0 x1 x2 x3 x4 x5 => hP s s.power x0 s.rng s.rest x1 x2 x3 x4 s.mpu x5 rfl), settleRoles_keep P (fun s x0 x1 x2 x3 x4 x5 x6 h => hP s x0 x1 x2 x3 s.keys x4 s.path s.otn x5 x6 h), hP]

theorem spindleCommand_keep {β : Type} (P : State → β) (hP : ∀ s x0 x1 x2 x3 x4 x5 x6 x7, Memory.wf x6.hbm = Memory.wf s.mpu.hbm → P { s with power := x0, host := x1, rng := x2, rest := x3, fab := x4, path := x5, mpu := x6, out := x7 } = P s) (i code : Nat) (s : State) : P (spindleCommand i code s) = P s := by
  unfold spindleCommand; (repeat' split) <;> simp only [isolateSpindle_keep P hP, setDomain_keep P (fun s x0 => hP s x0 s.host s.rng s.rest s.fab s.path s.mpu s.out rfl), setRole_keep P (fun s x0 => hP s s.power s.host s.rng s.rest x0 s.path s.mpu s.out rfl), updSp_keep P (fun s x0 => hP s s.power s.host s.rng s.rest x0 s.path s.mpu s.out rfl), hP]

theorem startLate_keep {β : Type} (P : State → β) (hP : ∀ s x0 x1 x2 x3 x4 x5 x6 x7, Memory.wf x6.hbm = Memory.wf s.mpu.hbm → P { s with time := x0, power := x1, host := x2, rng := x3, rest := x4, fab := x5, mpu := x6, out := x7 } = P s) (i : Nat) (s : State) : P (startLate i s) = P s := by
  unfold startLate; (repeat' split) <;> simp only [startFailed_keep P (fun s x0 x1 x2 x3 x4 x5 x6 h => hP s s.time x0 x1 x2 x3 x4 x5 x6 h), waitCycle_keep P (fun s x0 => hP s x0 s.power s.host s.rng s.rest s.fab s.mpu s.out rfl), hP]

theorem katEnds_keep {β : Type} (P : State → β) (hP : ∀ s x0 x1 x2 x3 x4 x5 x6 x7, Memory.wf x6.hbm = Memory.wf s.mpu.hbm → P { s with time := x0, power := x1, host := x2, rng := x3, rest := x4, fab := x5, mpu := x6, out := x7 } = P s) (i : Nat) (kat : KatRun) (at_ : Nat) (s : State) : P (katEnds i kat at_ s) = P s := by
  unfold katEnds; (repeat' split) <;> simp only [fabCount_keep P (fun s x0 => hP s s.time s.power s.host s.rng s.rest x0 s.mpu s.out rfl), startFailed_keep P (fun s x0 x1 x2 x3 x4 x5 x6 h => hP s s.time x0 x1 x2 x3 x4 x5 x6 h), startLate_keep P hP, startPassed_keep P (fun s x0 x1 x2 x3 x4 x5 x6 h => hP s s.time x0 x1 x2 x3 x4 x5 x6 h), waitCycle_keep P (fun s x0 => hP s x0 s.power s.host s.rng s.rest s.fab s.mpu s.out rfl), hP]

theorem spareSeedLost_keep {β : Type} (P : State → β) (hP : ∀ s x0 x1 x2 x3 x4 x5 x6 x7, Memory.wf x6.hbm = Memory.wf s.mpu.hbm → P { s with time := x0, power := x1, host := x2, rng := x3, rest := x4, fab := x5, mpu := x6, out := x7 } = P s) (sp : Nat) (s : State) : P (spareSeedLost sp s) = P s := by
  unfold spareSeedLost; (repeat' split) <;> simp only [settleRoles_keep P (fun s x0 x1 x2 x3 x4 x5 x6 h => hP s s.time x0 x1 x2 x3 x4 x5 x6 h), toSpare_keep P (fun s x0 x1 x2 x3 x4 x5 h => hP s s.time x0 x1 s.rng x2 x3 x4 x5 h), updSp_keep P (fun s x0 => hP s s.time s.power s.host s.rng s.rest x0 s.mpu s.out rfl), waitCycle_keep P (fun s x0 => hP s x0 s.power s.host s.rng s.rest s.fab s.mpu s.out rfl), hP]

end Sys2Proof.Machine
end

