-- ==== Sys2Proof/Laws/KeepEgress.lean ====
section
/-! SUPPORT. What the operations and meanings of Machine/Egress.lean leave alone: `f_keep` says that whatever is read from
the state without looking at the components `f` may change is the same after `f`. -/
set_option linter.all false
namespace Sys2Proof.Machine

theorem linkDown_keep {β : Type} (P : State → β) (hP : ∀ s x0, P { s with path := x0 } = P s) (p : PD) (s : State) : P (linkDown p s) = P s := by
  unfold linkDown; (repeat' split) <;> simp only [macCount_keep P hP, hP]

theorem linkBit_keep {β : Type} (P : State → β) (hP : ∀ s x0, P { s with path := x0 } = P s) (n i : Nat) (on : Bool) (s : State) : P (linkBit n i on s) = P s := by
  unfold linkBit; (repeat' split) <;> simp only [updLink_keep P hP, hP]

theorem linkSettle_keep {β : Type} (P : State → β) (hP : ∀ s x0, P { s with path := x0 } = P s) (n : Nat) (s : State) : P (linkSettle n s) = P s := by
  unfold linkSettle; (repeat' split) <;> simp only [linkBit_keep P hP, hP]

theorem setsChange_keep {β : Type} (P : State → β) (hP : ∀ s x0, P { s with out := x0 } = P s) (s0 : State) (n : Nat) (s : State) : P (setsChange s0 n s) = P s := by
  unfold setsChange; dsimp only; (repeat' split) <;> simp only [emit_keep P hP, hP]

theorem propagationTakes_keep {β : Type} (P : State → β) (hP : ∀ s x0 x1, P { s with path := x0, out := x1 } = P s) (s0 : State) (n : Nat) (s : State) : P (propagationTakes s0 n s) = P s := by
  unfold propagationTakes; (repeat' split) <;> simp only [linkSettle_keep P (fun s x0 => hP s x0 s.out), setsChange_keep P (fun s x0 => hP s s.path x0), hP]

theorem receiveFault_keep {β : Type} (P : State → β) (hP : ∀ s x0 x1, P { s with path := x0, out := x1 } = P s) (n : Nat) (sd : Side) (on localFault : Bool) (s0 : State) : P (receiveFault n sd on localFault s0) = P s0 := by
  unfold receiveFault; dsimp only; (repeat' split) <;> simp only [linkBit_keep P (fun s x0 => hP s x0 s.out), linkSettle_keep P (fun s x0 => hP s x0 s.out), setsChange_keep P (fun s x0 => hP s s.path x0), updLink_keep P (fun s x0 => hP s x0 s.out), hP]

theorem updQueue_keep {β : Type} (P : State → β) (hP : ∀ s x0, P { s with path := x0 } = P s) (p : PD) (i : Nat) (f : Queue → Queue) (s : State) : P (updQueue p i f s) = P s := by
  unfold updQueue; (repeat' split) <;> simp only [hP]

theorem schedCount_keep {β : Type} (P : State → β) (hP : ∀ s x0, P { s with path := x0 } = P s) (p : PD) (i n : Nat) (s : State) : P (schedCount p i n s) = P s := by
  unfold schedCount; (repeat' split) <;> simp only [hP]

theorem leaveLists_keep {β : Type} (P : State → β) (hP : ∀ s x0, P { s with path := x0 } = P s) (p : PD) (i : Nat) (s : State) : P (leaveLists p i s) = P s := by
  unfold leaveLists; (repeat' split) <;> simp only [updPd_keep P hP, hP]

theorem joinList_keep {β : Type} (P : State → β) (hP : ∀ s x0, P { s with path := x0 } = P s) (p : PD) (k i : Nat) (s : State) : P (joinList p k i s) = P s := by
  unfold joinList; (repeat' split) <;> simp only [updPd_keep P hP, hP]

theorem enterState_keep {β : Type} (P : State → β) (hP : ∀ s x0, P { s with path := x0 } = P s) (p : PD) (i : Nat) (st : QState) (s : State) : P (enterState p i st s) = P s := by
  unfold enterState; dsimp only; (repeat' split) <;> simp only [joinList_keep P hP, leaveLists_keep P hP, updQueue_keep P hP, hP]

theorem restate_keep {β : Type} (P : State → β) (hP : ∀ s x0, P { s with path := x0 } = P s) (p : PD) (i : Nat) (s : State) : P (restate p i s) = P s := by
  unfold restate; dsimp only; (repeat' split) <;> simp only [enterState_keep P hP, leaveLists_keep P hP, updQueue_keep P hP, hP]

theorem afterStart_keep {β : Type} (P : State → β) (hP : ∀ s x0, P { s with path := x0 } = P s) (p : PD) (i : Nat) (s : State) : P (afterStart p i s) = P s := by
  unfold afterStart; dsimp only; (repeat' split) <;> simp only [enterState_keep P hP, leaveLists_keep P hP, updQueue_keep P hP, hP]

theorem sendPause_keep {β : Type} (P : State → β) (hP : ∀ s x0 x1, P { s with path := x0, out := x1 } = P s) (n : Fin 32) (d : Octets) (s : State) : P (sendPause n d s) = P s := by
  unfold sendPause; dsimp only; (repeat' split) <;> simp only [emit_keep P (fun s x0 => hP s s.path x0), reline_keep P (fun s x0 => hP s x0 s.out), schedCount_keep P (fun s x0 => hP s x0 s.out), updPd_keep P (fun s x0 => hP s x0 s.out), hP]

theorem flushPause_keep {β : Type} (P : State → β) (hP : ∀ s x0 x1, P { s with path := x0, out := x1 } = P s) (n : Fin 32) (s : State) : P (flushPause n s) = P s := by
  unfold flushPause; repeat' (first | with_reducible rfl | split | simp only [sendPause_keep P hP, updPd_keep P (fun s x0 => hP s x0 s.out), hP] | (with_reducible refine (keep (fun _ _ => by (repeat' (first | with_reducible rfl | split | simp only [sendPause_keep P hP, updPd_keep P (fun s x0 => hP s x0 s.out), hP])))).trans ?_) | (with_reducible refine (keep2 (fun _ _ => by (repeat' (first | with_reducible rfl | split | simp only [sendPause_keep P hP, updPd_keep P (fun s x0 => hP s x0 s.out), hP])))).trans ?_))

theorem xoffCheck_keep {β : Type} (P : State → β) (hP : ∀ s x0 x1, P { s with path := x0, out := x1 } = P s) (n : Fin 32) (s : State) : P (xoffCheck n s) = P s := by
  unfold xoffCheck; dsimp only; (repeat' split) <;> simp only [sendPause_keep P hP, updPd_keep P (fun s x0 => hP s x0 s.out), hP]

theorem fillCheck_keep {β : Type} (P : State → β) (hP : ∀ s x0 x1, P { s with path := x0, out := x1 } = P s) (p : PD) (s : State) : P (fillCheck p s) = P s := by
  unfold fillCheck; (repeat' split) <;> simp only [xoffCheck_keep P hP, hP]

theorem addFill_keep {β : Type} (P : State → β) (hP : ∀ s x0 x1, P { s with path := x0, out := x1 } = P s) (p : PD) (n : Nat) (s : State) : P (addFill p n s) = P s := by
  unfold addFill; (repeat' split) <;> simp only [fillCheck_keep P hP, updPd_keep P (fun s x0 => hP s x0 s.out), hP]

theorem subFill_keep {β : Type} (P : State → β) (hP : ∀ s x0 x1, P { s with path := x0, out := x1 } = P s) (p : PD) (n : Nat) (s : State) : P (subFill p n s) = P s := by
  unfold subFill; (repeat' split) <;> simp only [fillCheck_keep P hP, updPd_keep P (fun s x0 => hP s x0 s.out), hP]

theorem startFrame_keep {β : Type} (P : State → β) (hP : ∀ s x0, P { s with path := x0 } = P s) (e : Egr) (s : State) : P (startFrame e s) = P s := by
  unfold startFrame; (repeat' split) <;> simp only [lineUp_keep P hP, hP]

theorem startTimed_keep {β : Type} (P : State → β) (hP : ∀ s x0, P { s with path := x0 } = P s) (e : Egr) (s : State) : P (startTimed e s) = P s := by
  unfold startTimed; (repeat' split) <;> simp only [lineUp_keep P hP, hP]

theorem egrFree_keep {β : Type} (P : State → β) (hP : ∀ s x0 x1, Memory.wf x1.hbm = Memory.wf s.mpu.hbm → P { s with path := x0, mpu := x1 } = P s) (e : Egr) (s : State) : P (egrFree e s) = P s := by
  unfold egrFree; (repeat' split) <;> simp only [pbFree_keep P (fun s x0 h => hP s s.path x0 h), poolGive_keep P (fun s x0 => hP s x0 s.mpu rfl), retFree_keep P (fun s x0 => hP s x0 s.mpu rfl), hP]

theorem egrRead_keep {β : Type} (P : State → β) (hP : ∀ s x0 x1 x2 x3 x4, Memory.wf x3.hbm = Memory.wf s.mpu.hbm → P { s with host := x0, rest := x1, path := x2, mpu := x3, out := x4 } = P s) (e : Egr) (s : State) : P (egrRead e s).2 = P s := by
  unfold egrRead; repeat' (first | with_reducible rfl | split | simp only [edgePass_keep P (fun s x0 => hP s s.host s.rest x0 s.mpu s.out rfl), pbRead_keep P (fun s x0 x1 x2 x3 h => hP s x0 x1 s.path x2 x3 h), hP] | (with_reducible refine (keep (fun _ _ => by (repeat' (first | with_reducible rfl | split | simp only [edgePass_keep P (fun s x0 => hP s s.host s.rest x0 s.mpu s.out rfl), pbRead_keep P (fun s x0 x1 x2 x3 h => hP s x0 x1 s.path x2 x3 h), hP])))).trans ?_) | (with_reducible refine (keep2 (fun _ _ => by (repeat' (first | with_reducible rfl | split | simp only [edgePass_keep P (fun s x0 => hP s s.host s.rest x0 s.mpu s.out rfl), pbRead_keep P (fun s x0 x1 x2 x3 h => hP s x0 x1 s.path x2 x3 h), hP])))).trans ?_))

theorem egrSpill_keep {β : Type} (P : State → β) (hP : ∀ s x0 x1 x2 x3 x4, Memory.wf x3.hbm = Memory.wf s.mpu.hbm → P { s with host := x0, rest := x1, path := x2, mpu := x3, out := x4 } = P s) (x : Egr) (s : State) (q : Egr × State) (e : egrSpill x s = some q) : P q.2 = P s := by
  unfold egrSpill at e; split at e; (· simp at e); (have f := pbWrite_keep P (fun s x0 x1 x2 x3 h => hP s x0 x1 s.path x2 x3 h) _ _ _ _ _ _ ‹_›; simp only [Option.some.injEq] at e; subst e; refine Eq.trans ?_ f; repeat' (first | with_reducible rfl | simp only [edgePass_keep P (fun s x0 => hP s s.host s.rest x0 s.mpu s.out rfl), updQueue_keep P (fun s x0 => hP s s.host s.rest x0 s.mpu s.out rfl), hP] | (refine (keep (fun _ _ => by simp only [edgePass_keep P (fun s x0 => hP s s.host s.rest x0 s.mpu s.out rfl), updQueue_keep P (fun s x0 => hP s s.host s.rest x0 s.mpu s.out rfl), hP])).trans ?_)))

theorem discard_keep {β : Type} (P : State → β) (hP : ∀ s x0 x1 x2, Memory.wf x1.hbm = Memory.wf s.mpu.hbm → P { s with path := x0, mpu := x1, out := x2 } = P s) (e : Egr) (s : State) : P (discard e s) = P s := by
  unfold discard; (repeat' split) <;> simp only [egrFree_keep P (fun s x0 x1 h => hP s x0 x1 s.out h), linkDown_keep P (fun s x0 => hP s x0 s.mpu s.out rfl), subFill_keep P (fun s x0 x1 => hP s x0 s.mpu x1 rfl), hP]

theorem discardLost_keep {β : Type} (P : State → β) (hP : ∀ s x0 x1 x2, Memory.wf x1.hbm = Memory.wf s.mpu.hbm → P { s with path := x0, mpu := x1, out := x2 } = P s) (e : Egr) (s : State) : P (discardLost e s) = P s := by
  unfold discardLost; (repeat' split) <;> simp only [egrFree_keep P (fun s x0 x1 h => hP s x0 x1 s.out h), memoryLoss_keep P (fun s x0 h => hP s s.path x0 s.out h), subFill_keep P (fun s x0 x1 => hP s x0 s.mpu x1 rfl), hP]

theorem discardQueue_keep {β : Type} (P : State → β) (hP : ∀ s x0 x1 x2, Memory.wf x1.hbm = Memory.wf s.mpu.hbm → P { s with path := x0, mpu := x1, out := x2 } = P s) (p : PD) (i : Nat) (s : State) : P (discardQueue p i s) = P s := by
  unfold discardQueue; repeat' (first | with_reducible rfl | split | simp only [discard_keep P hP, restate_keep P (fun s x0 => hP s x0 s.mpu s.out rfl), updQueue_keep P (fun s x0 => hP s x0 s.mpu s.out rfl), hP] | (with_reducible refine (keep (fun _ _ => by (repeat' (first | with_reducible rfl | split | simp only [discard_keep P hP, restate_keep P (fun s x0 => hP s x0 s.mpu s.out rfl), updQueue_keep P (fun s x0 => hP s x0 s.mpu s.out rfl), hP])))).trans ?_) | (with_reducible refine (keep2 (fun _ _ => by (repeat' (first | with_reducible rfl | split | simp only [discard_keep P hP, restate_keep P (fun s x0 => hP s x0 s.mpu s.out rfl), updQueue_keep P (fun s x0 => hP s x0 s.mpu s.out rfl), hP])))).trans ?_))

theorem launchCount_keep {β : Type} (P : State → β) (hP : ∀ s x0, P { s with time := x0 } = P s) (i : Nat) (s : State) : P (launchCount i s) = P s := by
  unfold launchCount; (repeat' split) <;> simp only [hP]

theorem lateLaunch_keep {β : Type} (P : State → β) (hP : ∀ s x0 x1 x2 x3, P { s with time := x0, host := x1, path := x2, out := x3 } = P s) (e : Egr) (s : State) : P (lateLaunch e s) = P s := by
  unfold lateLaunch; (repeat' split) <;> simp only [launchCount_keep P (fun s x0 => hP s x0 s.host s.path s.out), post_keep P (fun s x0 x1 => hP s s.time x0 s.path x1), ptpCount_keep P (fun s x0 => hP s s.time s.host x0 s.out), hP]

theorem launchGo_keep {β : Type} (P : State → β) (hP : ∀ s x0 x1 x2 x3 x4, Memory.wf x3.hbm = Memory.wf s.mpu.hbm → P { s with host := x0, rest := x1, path := x2, mpu := x3, out := x4 } = P s) (e : Egr) (s : State) : P (launchGo e s).2 = P s := by
  unfold launchGo; (repeat' split) <;> simp only [addFill_keep P (fun s x0 x1 => hP s s.host s.rest x0 s.mpu x1 rfl), afterStart_keep P (fun s x0 => hP s s.host s.rest x0 s.mpu s.out rfl), egrRead_keep P hP, updQueue_keep P (fun s x0 => hP s s.host s.rest x0 s.mpu s.out rfl), hP]

theorem launchLost_keep {β : Type} (P : State → β) (hP : ∀ s x0 x1 x2, Memory.wf x1.hbm = Memory.wf s.mpu.hbm → P { s with path := x0, mpu := x1, out := x2 } = P s) (e : Egr) (s : State) : P (launchLost e s) = P s := by
  unfold launchLost; (repeat' split) <;> simp only [egrFree_keep P (fun s x0 x1 h => hP s x0 x1 s.out h), fillCheck_keep P (fun s x0 x1 => hP s x0 s.mpu x1 rfl), linkDown_keep P (fun s x0 => hP s x0 s.mpu s.out rfl), updQueue_keep P (fun s x0 => hP s x0 s.mpu s.out rfl), hP]

theorem afterTimed_keep {β : Type} (P : State → β) (hP : ∀ s x0 x1, P { s with path := x0, out := x1 } = P s) (p : PD) (s : State) : P (afterTimed p s) = P s := by
  unfold afterTimed; (repeat' split) <;> simp only [flushPause_keep P hP, hP]

theorem timedLaunch_keep {β : Type} (P : State → β) (hP : ∀ s x0 x1 x2 x3 x4 x5, Memory.wf x4.hbm = Memory.wf s.mpu.hbm → P { s with time := x0, host := x1, rest := x2, path := x3, mpu := x4, out := x5 } = P s) (p : PD) (s : State) : P (timedLaunch p s) = P s := by
  unfold timedLaunch; dsimp only; (repeat' split) <;> simp only [afterTimed_keep P (fun s x0 x1 => hP s s.time s.host s.rest x0 s.mpu x1 rfl), launchGo_keep P (fun s x0 x1 x2 x3 x4 h => hP s s.time x0 x1 x2 x3 x4 h), launchLost_keep P (fun s x0 x1 x2 h => hP s s.time s.host s.rest x0 x1 x2 h), schedCount_keep P (fun s x0 => hP s s.time s.host s.rest x0 s.mpu s.out rfl), startTimed_keep P (fun s x0 => hP s s.time s.host s.rest x0 s.mpu s.out rfl), updPd_keep P (fun s x0 => hP s s.time s.host s.rest x0 s.mpu s.out rfl), waitTime_keep P (fun s x0 => hP s x0 s.host s.rest s.path s.mpu s.out rfl), hP]

theorem holdTimed_keep {β : Type} (P : State → β) (hP : ∀ s x0 x1 x2, P { s with time := x0, path := x1, out := x2 } = P s) (t : ToQueue) (s : State) : P (holdTimed t s) = P s := by
  unfold holdTimed; dsimp only; (repeat' split) <;> simp only [fillCheck_keep P (fun s x0 x1 => hP s s.time x0 x1), launchCount_keep P (fun s x0 => hP s x0 s.path s.out), poolGive_keep P (fun s x0 => hP s s.time x0 s.out), poolTake_keep P (fun s x0 => hP s s.time x0 s.out), retWrite_keep P (fun s x0 => hP s s.time x0 s.out), updPd_keep P (fun s x0 => hP s s.time x0 s.out), updQueue_keep P (fun s x0 => hP s s.time x0 s.out), hP, id]

theorem enterDirect_keep {β : Type} (P : State → β) (hP : ∀ s x0 x1, P { s with path := x0, out := x1 } = P s) (t : ToQueue) (s : State) : P (enterDirect t s) = P s := by
  unfold enterDirect; (repeat' split) <;> simp only [addFill_keep P hP, poolGive_keep P (fun s x0 => hP s x0 s.out), retFree_keep P (fun s x0 => hP s x0 s.out), schedCount_keep P (fun s x0 => hP s x0 s.out), startFrame_keep P (fun s x0 => hP s x0 s.out), updQueue_keep P (fun s x0 => hP s x0 s.out), hP, id]

theorem append_keep {β : Type} (P : State → β) (hP : ∀ s x0 x1, P { s with path := x0, out := x1 } = P s) (e : Egr) (s : State) : P (append e s) = P s := by
  unfold append; dsimp only; (repeat' split) <;> simp only [addFill_keep P hP, enterState_keep P (fun s x0 => hP s x0 s.out), updQueue_keep P (fun s x0 => hP s x0 s.out), hP]

theorem enterOverflow_keep {β : Type} (P : State → β) (hP : ∀ s x0 x1, P { s with path := x0, out := x1 } = P s) (pool : Nat) (t : ToQueue) (s : State) : P (enterOverflow pool t s) = P s := by
  unfold enterOverflow; (repeat' split) <;> simp only [append_keep P hP, poolGive_keep P (fun s x0 => hP s x0 s.out), poolTake_keep P (fun s x0 => hP s x0 s.out), retWrite_keep P (fun s x0 => hP s x0 s.out), schedCount_keep P (fun s x0 => hP s x0 s.out), hP, id]

theorem enterSpilled_keep {β : Type} (P : State → β) (hP : ∀ s x0 x1 x2 x3 x4, Memory.wf x3.hbm = Memory.wf s.mpu.hbm → P { s with host := x0, rest := x1, path := x2, mpu := x3, out := x4 } = P s) (t : ToQueue) (s q : State) (e : enterSpilled t s = some q) : P q = P s := by
  unfold enterSpilled at e; simp only [Option.map_eq_some_iff] at e; obtain ⟨w, hw, rfl⟩ := e; simp only [append_keep P (fun s x0 x1 => hP s s.host s.rest x0 s.mpu x1 rfl), poolGive_keep P (fun s x0 => hP s s.host s.rest x0 s.mpu s.out rfl), retFree_keep P (fun s x0 => hP s s.host s.rest x0 s.mpu s.out rfl), schedCount_keep P (fun s x0 => hP s s.host s.rest x0 s.mpu s.out rfl), hP, id]; exact egrSpill_keep P hP _ _ _ hw

theorem spillStart_keep {β : Type} (P : State → β) (hP : ∀ s x0 x1 x2 x3 x4, Memory.wf x3.hbm = Memory.wf s.mpu.hbm → P { s with host := x0, rest := x1, path := x2, mpu := x3, out := x4 } = P s) (p : PD) (i : Nat) (s : State) : P (spillStart p i s) = P s := by
  unfold spillStart; dsimp only; (repeat' split) <;> (try rfl); (first | (simp only [egrFree_keep P (fun s x0 x1 h => hP s s.host s.rest x0 x1 s.out h), egrRead_keep P hP, schedCount_keep P (fun s x0 => hP s s.host s.rest x0 s.mpu s.out rfl), updQueue_keep P (fun s x0 => hP s s.host s.rest x0 s.mpu s.out rfl), hP]; done) | (have f := egrSpill_keep P hP _ _ _ ‹_›; simp only [egrFree_keep P (fun s x0 x1 h => hP s s.host s.rest x0 x1 s.out h), egrRead_keep P hP, schedCount_keep P (fun s x0 => hP s s.host s.rest x0 s.mpu s.out rfl), updQueue_keep P (fun s x0 => hP s s.host s.rest x0 s.mpu s.out rfl), hP] at f ⊢; exact f))

theorem drr_keep {β : Type} (P : State → β) (hP : ∀ s x0, P { s with path := x0 } = P s) (p : PD) (c : Bool) (a0 : Nat) (a1 : List Nat) (a2 : State) : P (drr p c a0 a1 a2).2.2 = P a2 := by
  induction a0 generalizing a1 a2 with
  | zero => rfl
  | succ n ih => cases a1 with
    | nil => rfl
    | cons i t => unfold drr; dsimp only; split; (· exact ih _ _); (repeat' split) <;> (first | (rw [ih]; simp only [updQueue_keep P hP, hP]) | simp only [updQueue_keep P hP, hP])

theorem startHead_keep {β : Type} (P : State → β) (hP : ∀ s x0 x1 x2 x3 x4, Memory.wf x3.hbm = Memory.wf s.mpu.hbm → P { s with host := x0, rest := x1, path := x2, mpu := x3, out := x4 } = P s) (p : PD) (c : Bool) (i : Nat) (s : State) : P (startHead p c i s) = P s := by
  unfold startHead; dsimp only; (repeat' split) <;> simp only [afterStart_keep P (fun s x0 => hP s s.host s.rest x0 s.mpu s.out rfl), discardLost_keep P (fun s x0 x1 x2 h => hP s s.host s.rest x0 x1 x2 h), egrFree_keep P (fun s x0 x1 h => hP s s.host s.rest x0 x1 s.out h), egrRead_keep P hP, fillCheck_keep P (fun s x0 x1 => hP s s.host s.rest x0 s.mpu x1 rfl), startFrame_keep P (fun s x0 => hP s s.host s.rest x0 s.mpu s.out rfl), updQueue_keep P (fun s x0 => hP s s.host s.rest x0 s.mpu s.out rfl), hP]

theorem holdLine_keep {β : Type} (P : State → β) (hP : ∀ s x0, P { s with path := x0 } = P s) (p : PD) (s : State) : P (holdLine p s) = P s := by
  unfold holdLine; (repeat' split) <;> simp only [schedCount_keep P hP, updPd_keep P hP, hP]

theorem tryList_keep {β : Type} (P : State → β) (hP : ∀ s x0 x1 x2 x3 x4, Memory.wf x3.hbm = Memory.wf s.mpu.hbm → P { s with host := x0, rest := x1, path := x2, mpu := x3, out := x4 } = P s) (p : PD) (k : Nat) (s q : State) (e : tryList p k s = some q) : P q = P s := by
  unfold tryList at e; dsimp only at e; (repeat' split at e) <;> (first | (simp at e; done) | (simp only [Option.some.injEq] at e; subst e; simp only [drr_keep P (fun s x0 => hP s s.host s.rest x0 s.mpu s.out rfl), holdLine_keep P (fun s x0 => hP s s.host s.rest x0 s.mpu s.out rfl), startHead_keep P hP, updPd_keep P (fun s x0 => hP s s.host s.rest x0 s.mpu s.out rfl), hP]) | (simp only [Option.some.injEq] at e; subst e; rfl))

theorem tryLists_keep {β : Type} (P : State → β) (hP : ∀ s x0 x1 x2 x3 x4, Memory.wf x3.hbm = Memory.wf s.mpu.hbm → P { s with host := x0, rest := x1, path := x2, mpu := x3, out := x4 } = P s) (p : PD) (a0 : List Nat) (a1 : State) : P (tryLists p a0 a1) = P a1 := by
  induction a0 generalizing a1 with
  | nil => rfl
  | cons k t ih => unfold tryLists; split; (· exact tryList_keep P hP _ _ _ _ ‹_›); (· exact ih _)

theorem discardAll_keep {β : Type} (P : State → β) (hP : ∀ s x0 x1 x2, Memory.wf x1.hbm = Memory.wf s.mpu.hbm → P { s with path := x0, mpu := x1, out := x2 } = P s) (p : PD) (s : State) : P (discardAll p s) = P s := by
  unfold discardAll; repeat' (first | with_reducible rfl | split | simp only [afterTimed_keep P (fun s x0 x1 => hP s x0 s.mpu x1 rfl), discardQueue_keep P hP, launchLost_keep P hP, updPd_keep P (fun s x0 => hP s x0 s.mpu s.out rfl), hP] | (with_reducible refine (keep (fun _ _ => by (repeat' (first | with_reducible rfl | split | simp only [afterTimed_keep P (fun s x0 x1 => hP s x0 s.mpu x1 rfl), discardQueue_keep P hP, launchLost_keep P hP, updPd_keep P (fun s x0 => hP s x0 s.mpu s.out rfl), hP])))).trans ?_) | (with_reducible refine (keep2 (fun _ _ => by (repeat' (first | with_reducible rfl | split | simp only [afterTimed_keep P (fun s x0 x1 => hP s x0 s.mpu x1 rfl), discardQueue_keep P hP, launchLost_keep P hP, updPd_keep P (fun s x0 => hP s x0 s.mpu s.out rfl), hP])))).trans ?_))

theorem egressSelect_keep {β : Type} (P : State → β) (hP : ∀ s x0 x1 x2 x3 x4 x5, Memory.wf x4.hbm = Memory.wf s.mpu.hbm → P { s with time := x0, host := x1, rest := x2, path := x3, mpu := x4, out := x5 } = P s) (p : PD) (s : State) : P (egressSelect p s) = P s := by
  unfold egressSelect; (repeat' split) <;> simp only [afterTimed_keep P (fun s x0 x1 => hP s s.time s.host s.rest x0 s.mpu x1 rfl), discardAll_keep P (fun s x0 x1 x2 h => hP s s.time s.host s.rest x0 x1 x2 h), holdLine_keep P (fun s x0 => hP s s.time s.host s.rest x0 s.mpu s.out rfl), lateLaunch_keep P (fun s x0 x1 x2 x3 => hP s x0 x1 s.rest x2 s.mpu x3 rfl), launchGo_keep P (fun s x0 x1 x2 x3 x4 h => hP s s.time x0 x1 x2 x3 x4 h), startFrame_keep P (fun s x0 => hP s s.time s.host s.rest x0 s.mpu s.out rfl), tryLists_keep P (fun s x0 x1 x2 x3 x4 h => hP s s.time x0 x1 x2 x3 x4 h), updPd_keep P (fun s x0 => hP s s.time s.host s.rest x0 s.mpu s.out rfl), hP]

theorem postingDue_keep {β : Type} (P : State → β) (hP : ∀ s x0 x1, P { s with time := x0, path := x1 } = P s) (p : PD) (i : Nat) (s : State) : P (postingDue p i s) = P s := by
  unfold postingDue; (repeat' split) <;> simp only [restate_keep P (fun s x0 => hP s s.time x0), updQueue_keep P (fun s x0 => hP s s.time x0), waitTime_keep P (fun s x0 => hP s x0 s.path), hP]

theorem transmitted_keep {β : Type} (P : State → β) (hP : ∀ s x0 x1 x2 x3 x4, Memory.wf x3.hbm = Memory.wf s.mpu.hbm → P { s with time := x0, host := x1, path := x2, mpu := x3, out := x4 } = P s) (p : PD) (s : State) : P (transmitted p s) = P s := by
  unfold transmitted; dsimp only; (repeat' split) <;> simp only [discard_keep P (fun s x0 x1 x2 h => hP s s.time s.host x0 x1 x2 h), egrFree_keep P (fun s x0 x1 h => hP s s.time s.host x0 x1 s.out h), emit_keep P (fun s x0 => hP s s.time s.host s.path s.mpu x0 rfl), macCount_keep P (fun s x0 => hP s s.time s.host x0 s.mpu s.out rfl), postTo_keep P (fun s x0 x1 => hP s s.time x0 s.path s.mpu x1 rfl), subFill_keep P (fun s x0 x1 => hP s s.time s.host x0 s.mpu x1 rfl), updPd_keep P (fun s x0 => hP s s.time s.host x0 s.mpu s.out rfl), updQueue_keep P (fun s x0 => hP s s.time s.host x0 s.mpu s.out rfl), waitTime_keep P (fun s x0 => hP s x0 s.host s.path s.mpu s.out rfl), hP]

end Sys2Proof.Machine
end

