-- ==== Sys2Proof/Laws/KeepTailstock.lean ====
section
/-! SUPPORT. What the operations and meanings of Machine/Tailstock.lean leave alone: `f_keep` says that whatever is read from
the state without looking at the components `f` may change is the same after `f`. -/
set_option linter.all false
set_option exponentiation.threshold 600
namespace Sys2Proof.Machine

theorem commitsResume_keep {β : Type} (P : State → β) (hP : ∀ s x0, P { s with path := x0 } = P s) (p : PD) (s : State) : P (commitsResume p s) = P s := by
  unfold commitsResume; repeat' (first | with_reducible rfl | split | simp only [updPd_keep P hP, hP] | (with_reducible refine (keep (fun _ _ => by (repeat' (first | with_reducible rfl | split | simp only [updPd_keep P hP, hP])))).trans ?_) | (with_reducible refine (keep2 (fun _ _ => by (repeat' (first | with_reducible rfl | split | simp only [updPd_keep P hP, hP])))).trans ?_))

theorem spillBlocked_keep {β : Type} (P : State → β) (hP : ∀ s x0, P { s with free := x0 } = P s) (s : State) : P (spillBlocked s).2 = P s := by
  unfold spillBlocked; (repeat' split) <;> simp only [openValue_keep P hP, hP]

theorem takePunt_keep {β : Type} (P : State → β) (hP : ∀ s x0 x1 x2 x3 x4 x5 x6, P { s with time := x0, host := x1, rest := x2, keys := x3, cls := x4, path := x5, out := x6 } = P s) (f : Frm) (queue reason source : Nat) (s : State) : P (takePunt f queue reason source s) = P s := by
  unfold takePunt; dsimp only; (repeat' split) <;> simp only [deliverOrDrop_keep P (fun s x0 x1 x2 x3 x4 x5 => hP s s.time x0 x1 x2 x3 x4 x5), hP]

theorem countProtected_keep {β : Type} (P : State → β) (hP : ∀ s x0 x1, P { s with keys := x0, path := x1 } = P s) (f : Frm) (s : State) : P (countProtected f s) = P s := by
  unfold countProtected; (repeat' split) <;> simp only [saCount_keep P (fun s x0 => hP s x0 s.path), txScCount_keep P (fun s x0 => hP s s.keys x0), hP]

theorem raiseReplay_keep {β : Type} (P : State → β) (hP : ∀ s x0, P { s with keys := x0 } = P s) (sa window pn : Nat) (s : State) : P (raiseReplay sa window pn s) = P s := by
  unfold raiseReplay; (repeat' split) <;> simp only [updSa_keep P hP, hP]

theorem verifyCommit_keep {β : Type} (P : State → β) (hP : ∀ s x0 x1 x2 x3, P { s with rest := x0, keys := x1, cls := x2, path := x3 } = P s) (f : Frm) (secure : Nat) (s : State) : P (verifyCommit f secure s).2.2 = P s := by
  unfold verifyCommit; dsimp only; (repeat' split) <;> simp only [countDrop_keep P hP, raiseReplay_keep P (fun s x0 => hP s s.rest x0 s.cls s.path), rxScCount_keep P (fun s x0 => hP s s.rest s.keys s.cls x0), saCount_keep P (fun s x0 => hP s s.rest x0 s.cls s.path), hP]

theorem playStore_keep {β : Type} (P : State → β) (hP : ∀ s x0 x1 x2 x3 x4 x5, Memory.wf x4.hbm = Memory.wf s.mpu.hbm → P { s with host := x0, rest := x1, path := x2, otn := x3, mpu := x4, out := x5 } = P s) (t : Nat) (d : Dir) (i : PlayItem) (s : State) : P (playStore t d i s).2 = P s := by
  unfold playStore; split; (· rfl); split; (· rfl); (have f := pbWrite_keep P (fun s x0 x1 x2 x3 h => hP s x0 x1 s.path s.otn x2 x3 h) _ _ _ _ _ _ ‹_›; dsimp only; refine Eq.trans ?_ f; repeat' (first | with_reducible rfl | simp only [edgePass_keep P (fun s x0 => hP s s.host s.rest x0 s.otn s.mpu s.out rfl), updTr_keep P (fun s x0 => hP s s.host s.rest s.path x0 s.mpu s.out rfl), hP] | (refine (keep (fun _ _ => by simp only [edgePass_keep P (fun s x0 => hP s s.host s.rest x0 s.otn s.mpu s.out rfl), updTr_keep P (fun s x0 => hP s s.host s.rest s.path x0 s.mpu s.out rfl), hP])).trans ?_)))

theorem playPush_keep {β : Type} (P : State → β) (hP : ∀ s x0 x1 x2 x3 x4 x5, Memory.wf x4.hbm = Memory.wf s.mpu.hbm → P { s with host := x0, rest := x1, path := x2, otn := x3, mpu := x4, out := x5 } = P s) (t : Nat) (d : Dir) (i : PlayItem) (s : State) : P (playPush t d i s) = P s := by
  unfold playPush; (repeat' split) <;> simp only [playStore_keep P hP, updTr_keep P (fun s x0 => hP s s.host s.rest s.path x0 s.mpu s.out rfl), hP]

theorem playFetch_keep {β : Type} (P : State → β) (hP : ∀ s x0 x1 x2 x3 x4, Memory.wf x3.hbm = Memory.wf s.mpu.hbm → P { s with host := x0, rest := x1, path := x2, mpu := x3, out := x4 } = P s) (t : Nat) (d : Dir) (i : PlayItem) (s : State) : P (playFetch t d i s).2 = P s := by
  unfold playFetch; repeat' (first | with_reducible rfl | split | simp only [edgePass_keep P (fun s x0 => hP s s.host s.rest x0 s.mpu s.out rfl), pbFree_keep P (fun s x0 h => hP s s.host s.rest s.path x0 s.out h), pbRead_keep P (fun s x0 x1 x2 x3 h => hP s x0 x1 s.path x2 x3 h), hP] | (with_reducible refine (keep (fun _ _ => by (repeat' (first | with_reducible rfl | split | simp only [edgePass_keep P (fun s x0 => hP s s.host s.rest x0 s.mpu s.out rfl), pbFree_keep P (fun s x0 h => hP s s.host s.rest s.path x0 s.out h), pbRead_keep P (fun s x0 x1 x2 x3 h => hP s x0 x1 s.path x2 x3 h), hP])))).trans ?_) | (with_reducible refine (keep2 (fun _ _ => by (repeat' (first | with_reducible rfl | split | simp only [edgePass_keep P (fun s x0 => hP s s.host s.rest x0 s.mpu s.out rfl), pbFree_keep P (fun s x0 h => hP s s.host s.rest s.path x0 s.out h), pbRead_keep P (fun s x0 x1 x2 x3 h => hP s x0 x1 s.path x2 x3 h), hP])))).trans ?_))

theorem playClear_keep {β : Type} (P : State → β) (hP : ∀ s x0 x1, Memory.wf x1.hbm = Memory.wf s.mpu.hbm → P { s with otn := x0, mpu := x1 } = P s) (t : Nat) (d : Dir) (s : State) : P (playClear t d s) = P s := by
  unfold playClear; repeat' (first | with_reducible rfl | split | simp only [pbFree_keep P (fun s x0 h => hP s s.otn x0 h), updTr_keep P (fun s x0 => hP s x0 s.mpu rfl), hP] | (with_reducible refine (keep (fun _ _ => by (repeat' (first | with_reducible rfl | split | simp only [pbFree_keep P (fun s x0 h => hP s s.otn x0 h), updTr_keep P (fun s x0 => hP s x0 s.mpu rfl), hP])))).trans ?_) | (with_reducible refine (keep2 (fun _ _ => by (repeat' (first | with_reducible rfl | split | simp only [pbFree_keep P (fun s x0 h => hP s s.otn x0 h), updTr_keep P (fun s x0 => hP s x0 s.mpu rfl), hP])))).trans ?_))

theorem commitShareTransmit_keep {β : Type} (P : State → β) (hP : ∀ s x0 x1 x2 x3 x4 x5 x6, Memory.wf x5.hbm = Memory.wf s.mpu.hbm → P { s with host := x0, rest := x1, keys := x2, path := x3, otn := x4, mpu := x5, out := x6 } = P s) (f : Frm) (o : OduPart) (s : State) : P (commitShareTransmit f o s) = P s := by
  unfold commitShareTransmit; dsimp only; (repeat' split) <;> simp only [playPush_keep P (fun s x0 x1 x2 x3 x4 x5 h => hP s x0 x1 s.keys x2 x3 x4 x5 h), saCount_keep P (fun s x0 => hP s s.host s.rest x0 s.path s.otn s.mpu s.out rfl), tribCount_keep P (fun s x0 => hP s s.host s.rest s.keys s.path x0 s.mpu s.out rfl), updTr_keep P (fun s x0 => hP s s.host s.rest s.keys s.path x0 s.mpu s.out rfl), hP]

theorem blockVerified_keep {β : Type} (P : State → β) (hP : ∀ s x0 x1, P { s with keys := x0, otn := x1 } = P s) (t i c : Nat) (s : State) : P (blockVerified t i c s) = P s := by
  unfold blockVerified; dsimp only; (repeat' split) <;> simp only [saCount_keep P (fun s x0 => hP s x0 s.otn), tribCount_keep P (fun s x0 => hP s s.keys x0), tribDefect_keep P (fun s x0 => hP s s.keys x0), updRoll_keep P (fun s x0 => hP s x0 s.otn), updTr_keep P (fun s x0 => hP s s.keys x0), hP]

theorem settleDue_keep {β : Type} (P : State → β) (hP : ∀ s x0 x1, P { s with keys := x0, otn := x1 } = P s) (t : Nat) (got : Option Octets) (s : State) : P (settleDue t got s) = P s := by
  unfold settleDue; (repeat' split) <;> simp only [blockFailed_keep P hP, blockVerified_keep P hP, updTr_keep P (fun s x0 => hP s s.keys x0), hP]

theorem closeBlock_keep {β : Type} (P : State → β) (hP : ∀ s x0 x1, P { s with keys := x0, otn := x1 } = P s) (t : Nat) (s : State) : P (closeBlock t s) = P s := by
  unfold closeBlock; dsimp only; (repeat' split) <;> simp only [settleDue_keep P hP, updTr_keep P (fun s x0 => hP s s.keys x0), hP]

theorem openReceived_keep {β : Type} (P : State → β) (hP : ∀ s x0 x1, P { s with keys := x0, otn := x1 } = P s) (t p : Nat) (s : State) : P (openReceived t p s) = P s := by
  unfold openReceived; dsimp only; (repeat' split) <;> simp only [closeBlock_keep P hP, updTr_keep P (fun s x0 => hP s s.keys x0), hP]

theorem commitShareReceive_keep {β : Type} (P : State → β) (hP : ∀ s x0 x1 x2 x3 x4 x5 x6, Memory.wf x5.hbm = Memory.wf s.mpu.hbm → P { s with host := x0, rest := x1, keys := x2, path := x3, otn := x4, mpu := x5, out := x6 } = P s) (f : Frm) (o : OduPart) (s : State) : P (commitShareReceive f o s) = P s := by
  unfold commitShareReceive; dsimp only; (repeat' split) <;> simp only [openReceived_keep P (fun s x0 x1 => hP s s.host s.rest x0 s.path x1 s.mpu s.out rfl), playPush_keep P (fun s x0 x1 x2 x3 x4 x5 h => hP s x0 x1 s.keys x2 x3 x4 x5 h), settleDue_keep P (fun s x0 x1 => hP s s.host s.rest x0 s.path x1 s.mpu s.out rfl), updTr_keep P (fun s x0 => hP s s.host s.rest s.keys s.path x0 s.mpu s.out rfl), hP]

theorem commitSubstitute_keep {β : Type} (P : State → β) (hP : ∀ s x0 x1 x2 x3 x4 x5 x6, Memory.wf x5.hbm = Memory.wf s.mpu.hbm → P { s with host := x0, rest := x1, keys := x2, path := x3, otn := x4, mpu := x5, out := x6 } = P s) (f : Frm) (o : OduPart) (s : State) : P (commitSubstitute f o s) = P s := by
  unfold commitSubstitute; dsimp only; (repeat' split) <;> simp only [openReceived_keep P (fun s x0 x1 => hP s s.host s.rest x0 s.path x1 s.mpu s.out rfl), playPush_keep P (fun s x0 x1 x2 x3 x4 x5 h => hP s x0 x1 s.keys x2 x3 x4 x5 h), settleDue_keep P (fun s x0 x1 => hP s s.host s.rest x0 s.path x1 s.mpu s.out rfl), updTr_keep P (fun s x0 => hP s s.host s.rest s.keys s.path x0 s.mpu s.out rfl), hP]

theorem commitOdu_keep {β : Type} (P : State → β) (hP : ∀ s x0 x1 x2 x3 x4 x5 x6, Memory.wf x5.hbm = Memory.wf s.mpu.hbm → P { s with host := x0, rest := x1, keys := x2, path := x3, otn := x4, mpu := x5, out := x6 } = P s) (f : Frm) (o : OduPart) (s : State) : P (commitOdu f o s) = P s := by
  unfold commitOdu; (repeat' split) <;> simp only [commitShareReceive_keep P hP, commitShareTransmit_keep P hP, commitSubstitute_keep P hP, playPush_keep P (fun s x0 x1 x2 x3 x4 x5 h => hP s x0 x1 s.keys x2 x3 x4 x5 h), updTr_keep P (fun s x0 => hP s s.host s.rest s.keys s.path x0 s.mpu s.out rfl), hP]

theorem overflowed_keep {β : Type} (P : State → β) (hP : ∀ s x0 x1, P { s with path := x0, out := x1 } = P s) (t : ToQueue) (s q : State) (e : overflowed t s = some q) : P q = P s := by
  unfold overflowed at e; simp only [Option.map_eq_some_iff] at e; obtain ⟨w, hw, rfl⟩ := e; simp only [enterOverflow_keep P hP, hP]

theorem toEgress_keep {β : Type} (P : State → β) (hP : ∀ s x0 x1 x2 x3 x4 x5 x6 x7 x8, Memory.wf x6.hbm = Memory.wf s.mpu.hbm → P { s with time := x0, host := x1, rest := x2, keys := x3, cls := x4, path := x5, mpu := x6, out := x7, free := x8 } = P s) (id : Nat) (t : ToQueue) (s q : State) (e : toEgress id t s = some q) : P q = P s := by
  unfold toEgress at e; dsimp only at e; (repeat' split at e) <;> (first | (simp at e; done) | (simp only [Option.some.injEq] at e; subst e; simp only [countDrop_keep P (fun s x0 x1 x2 x3 => hP s s.time s.host x0 x1 x2 x3 s.mpu s.out s.free rfl), dropFrm_keep P (fun s x0 => hP s s.time s.host s.rest s.keys s.cls x0 s.mpu s.out s.free rfl), edgePass_keep P (fun s x0 => hP s s.time s.host s.rest s.keys s.cls x0 s.mpu s.out s.free rfl), enterDirect_keep P (fun s x0 x1 => hP s s.time s.host s.rest s.keys s.cls x0 s.mpu x1 s.free rfl), holdTimed_keep P (fun s x0 x1 x2 => hP s x0 s.host s.rest s.keys s.cls x1 s.mpu x2 s.free rfl), linkDown_keep P (fun s x0 => hP s s.time s.host s.rest s.keys s.cls x0 s.mpu s.out s.free rfl), moveFrm_keep P (fun s x0 => hP s s.time s.host s.rest s.keys s.cls x0 s.mpu s.out s.free rfl), spillBlocked_keep P (fun s x0 => hP s s.time s.host s.rest s.keys s.cls s.path s.mpu s.out x0 rfl), updQueue_keep P (fun s x0 => hP s s.time s.host s.rest s.keys s.cls x0 s.mpu s.out s.free rfl), hP]) | (simp only [Option.some.injEq] at e; subst e; rfl) | (have g := overflowed_keep P (fun s x0 x1 => hP s s.time s.host s.rest s.keys s.cls x0 s.mpu x1 s.free rfl) _ _ _ e; simp only [countDrop_keep P (fun s x0 x1 x2 x3 => hP s s.time s.host x0 x1 x2 x3 s.mpu s.out s.free rfl), dropFrm_keep P (fun s x0 => hP s s.time s.host s.rest s.keys s.cls x0 s.mpu s.out s.free rfl), edgePass_keep P (fun s x0 => hP s s.time s.host s.rest s.keys s.cls x0 s.mpu s.out s.free rfl), enterDirect_keep P (fun s x0 x1 => hP s s.time s.host s.rest s.keys s.cls x0 s.mpu x1 s.free rfl), holdTimed_keep P (fun s x0 x1 x2 => hP s x0 s.host s.rest s.keys s.cls x1 s.mpu x2 s.free rfl), linkDown_keep P (fun s x0 => hP s s.time s.host s.rest s.keys s.cls x0 s.mpu s.out s.free rfl), moveFrm_keep P (fun s x0 => hP s s.time s.host s.rest s.keys s.cls x0 s.mpu s.out s.free rfl), spillBlocked_keep P (fun s x0 => hP s s.time s.host s.rest s.keys s.cls s.path s.mpu s.out x0 rfl), updQueue_keep P (fun s x0 => hP s s.time s.host s.rest s.keys s.cls x0 s.mpu s.out s.free rfl), hP] at g; exact g) | (simp only [Option.some.injEq] at e; subst e; rename_i he; split at he; (· simp at he); (have g := enterSpilled_keep P (fun s x0 x1 x2 x3 x4 h => hP s s.time x0 x1 s.keys s.cls x2 x3 x4 s.free h) _ _ _ he; simp only [countDrop_keep P (fun s x0 x1 x2 x3 => hP s s.time s.host x0 x1 x2 x3 s.mpu s.out s.free rfl), dropFrm_keep P (fun s x0 => hP s s.time s.host s.rest s.keys s.cls x0 s.mpu s.out s.free rfl), edgePass_keep P (fun s x0 => hP s s.time s.host s.rest s.keys s.cls x0 s.mpu s.out s.free rfl), enterDirect_keep P (fun s x0 x1 => hP s s.time s.host s.rest s.keys s.cls x0 s.mpu x1 s.free rfl), holdTimed_keep P (fun s x0 x1 x2 => hP s x0 s.host s.rest s.keys s.cls x1 s.mpu x2 s.free rfl), linkDown_keep P (fun s x0 => hP s s.time s.host s.rest s.keys s.cls x0 s.mpu s.out s.free rfl), moveFrm_keep P (fun s x0 => hP s s.time s.host s.rest s.keys s.cls x0 s.mpu s.out s.free rfl), spillBlocked_keep P (fun s x0 => hP s s.time s.host s.rest s.keys s.cls s.path s.mpu s.out x0 rfl), updQueue_keep P (fun s x0 => hP s s.time s.host s.rest s.keys s.cls x0 s.mpu s.out s.free rfl), hP] at g; exact g)))

theorem postVerify_keep {β : Type} (P : State → β) (hP : ∀ s x0 x1 x2 x3 x4 x5 x6 x7 x8 x9, Memory.wf x7.hbm = Memory.wf s.mpu.hbm → P { s with time := x0, host := x1, urz := x2, rest := x3, keys := x4, cls := x5, path := x6, mpu := x7, out := x8, free := x9 } = P s) (id : Nat) (f : Frm) (d : Octets) (s q : State) (e : postVerify id f d s = some q) : P q = P s := by
  unfold postVerify at e; dsimp only at e; (repeat' split at e) <;> (first | (simp only [Option.some.injEq] at e; subst e; simp only [dropFrm_keep P (fun s x0 => hP s s.time s.host s.urz s.rest s.keys s.cls x0 s.mpu s.out s.free rfl), takeUrzidun_keep P (fun s x0 => hP s s.time s.host x0 s.rest s.keys s.cls s.path s.mpu s.out s.free rfl), timedWrite_keep P (fun s x0 => hP s s.time s.host s.urz s.rest s.keys s.cls x0 s.mpu s.out s.free rfl), hP]) | exact (toEgress_keep P (fun s x0 x1 x2 x3 x4 x5 x6 x7 x8 h => hP s x0 x1 s.urz x2 x3 x4 x5 x6 x7 x8 h) _ _ _ _ e).trans (by simp only [dropFrm_keep P (fun s x0 => hP s s.time s.host s.urz s.rest s.keys s.cls x0 s.mpu s.out s.free rfl), takeUrzidun_keep P (fun s x0 => hP s s.time s.host x0 s.rest s.keys s.cls s.path s.mpu s.out s.free rfl), timedWrite_keep P (fun s x0 => hP s s.time s.host s.urz s.rest s.keys s.cls x0 s.mpu s.out s.free rfl), hP]) | exact (toEgress_keep P (fun s x0 x1 x2 x3 x4 x5 x6 x7 x8 h => hP s x0 x1 s.urz x2 x3 x4 x5 x6 x7 x8 h) _ _ _ _ e))

theorem commitReceive_keep {β : Type} (P : State → β) (hP : ∀ s x0 x1 x2 x3 x4 x5 x6 x7 x8 x9, Memory.wf x7.hbm = Memory.wf s.mpu.hbm → P { s with time := x0, host := x1, urz := x2, rest := x3, keys := x4, cls := x5, path := x6, mpu := x7, out := x8, free := x9 } = P s) (id : Nat) (f : Frm) (s q : State) (e : commitReceive id f s = some q) : P q = P s := by
  unfold commitReceive at e; dsimp only at e; (repeat' split at e) <;> (first | (simp only [Option.some.injEq] at e; subst e; simp only [dropFrm_keep P (fun s x0 => hP s s.time s.host s.urz s.rest s.keys s.cls x0 s.mpu s.out s.free rfl), verifyCommit_keep P (fun s x0 x1 x2 x3 => hP s s.time s.host s.urz x0 x1 x2 x3 s.mpu s.out s.free rfl), hP]) | exact (postVerify_keep P hP _ _ _ _ _ e).trans (by simp only [dropFrm_keep P (fun s x0 => hP s s.time s.host s.urz s.rest s.keys s.cls x0 s.mpu s.out s.free rfl), verifyCommit_keep P (fun s x0 x1 x2 x3 => hP s s.time s.host s.urz x0 x1 x2 x3 s.mpu s.out s.free rfl), hP]) | exact (toEgress_keep P (fun s x0 x1 x2 x3 x4 x5 x6 x7 x8 h => hP s x0 x1 s.urz x2 x3 x4 x5 x6 x7 x8 h) _ _ _ _ e).trans (by simp only [dropFrm_keep P (fun s x0 => hP s s.time s.host s.urz s.rest s.keys s.cls x0 s.mpu s.out s.free rfl), verifyCommit_keep P (fun s x0 x1 x2 x3 => hP s s.time s.host s.urz x0 x1 x2 x3 s.mpu s.out s.free rfl), hP]))

theorem commitWork_keep {β : Type} (P : State → β) (hP : ∀ s x0 x1 x2 x3 x4 x5 x6 x7 x8 x9 x10, Memory.wf x8.hbm = Memory.wf s.mpu.hbm → P { s with time := x0, host := x1, urz := x2, rest := x3, keys := x4, cls := x5, path := x6, otn := x7, mpu := x8, out := x9, free := x10 } = P s) (id : Nat) (f : Frm) (s q : State) (e : commitWork id f s = some q) : P q = P s := by
  unfold commitWork at e; dsimp only at e; (repeat' split at e) <;> (first | (simp only [Option.some.injEq] at e; subst e; simp only [commitOdu_keep P (fun s x0 x1 x2 x3 x4 x5 x6 h => hP s s.time x0 s.urz x1 x2 s.cls x3 x4 x5 x6 s.free h), countDrop_keep P (fun s x0 x1 x2 x3 => hP s s.time s.host s.urz x0 x1 x2 x3 s.otn s.mpu s.out s.free rfl), countProtected_keep P (fun s x0 x1 => hP s s.time s.host s.urz s.rest x0 s.cls x1 s.otn s.mpu s.out s.free rfl), dropFrm_keep P (fun s x0 => hP s s.time s.host s.urz s.rest s.keys s.cls x0 s.otn s.mpu s.out s.free rfl), takePunt_keep P (fun s x0 x1 x2 x3 x4 x5 x6 => hP s x0 x1 s.urz x2 x3 x4 x5 s.otn s.mpu x6 s.free rfl), takeUrzidun_keep P (fun s x0 => hP s s.time s.host x0 s.rest s.keys s.cls s.path s.otn s.mpu s.out s.free rfl), timedOwn_keep P (fun s x0 => hP s s.time s.host s.urz s.rest s.keys s.cls x0 s.otn s.mpu s.out s.free rfl), untagged_keep P (fun s x0 => hP s s.time s.host s.urz s.rest s.keys s.cls x0 s.otn s.mpu s.out s.free rfl), hP]) | exact (toEgress_keep P (fun s x0 x1 x2 x3 x4 x5 x6 x7 x8 h => hP s x0 x1 s.urz x2 x3 x4 x5 s.otn x6 x7 x8 h) _ _ _ _ e).trans (by simp only [commitOdu_keep P (fun s x0 x1 x2 x3 x4 x5 x6 h => hP s s.time x0 s.urz x1 x2 s.cls x3 x4 x5 x6 s.free h), countDrop_keep P (fun s x0 x1 x2 x3 => hP s s.time s.host s.urz x0 x1 x2 x3 s.otn s.mpu s.out s.free rfl), countProtected_keep P (fun s x0 x1 => hP s s.time s.host s.urz s.rest x0 s.cls x1 s.otn s.mpu s.out s.free rfl), dropFrm_keep P (fun s x0 => hP s s.time s.host s.urz s.rest s.keys s.cls x0 s.otn s.mpu s.out s.free rfl), takePunt_keep P (fun s x0 x1 x2 x3 x4 x5 x6 => hP s x0 x1 s.urz x2 x3 x4 x5 s.otn s.mpu x6 s.free rfl), takeUrzidun_keep P (fun s x0 => hP s s.time s.host x0 s.rest s.keys s.cls s.path s.otn s.mpu s.out s.free rfl), timedOwn_keep P (fun s x0 => hP s s.time s.host s.urz s.rest s.keys s.cls x0 s.otn s.mpu s.out s.free rfl), untagged_keep P (fun s x0 => hP s s.time s.host s.urz s.rest s.keys s.cls x0 s.otn s.mpu s.out s.free rfl), hP]) | exact (commitReceive_keep P (fun s x0 x1 x2 x3 x4 x5 x6 x7 x8 x9 h => hP s x0 x1 x2 x3 x4 x5 x6 s.otn x7 x8 x9 h) _ _ _ _ e))

theorem commitFrame_keep {β : Type} (P : State → β) (hP : ∀ s x0 x1 x2 x3 x4 x5 x6 x7 x8 x9 x10, Memory.wf x8.hbm = Memory.wf s.mpu.hbm → P { s with time := x0, host := x1, urz := x2, rest := x3, keys := x4, cls := x5, path := x6, otn := x7, mpu := x8, out := x9, free := x10 } = P s) (id : Nat) (f : Frm) (s q : State) (e : commitFrame id f s = some q) : P q = P s := by
  unfold commitFrame at e; cases hw : commitWork id f s with
  | none => rw [hw] at e; simp at e
  | some w => rw [hw] at e; have g := commitWork_keep P hP _ _ _ _ hw; simp only [Option.map_some, Option.some.injEq] at e; subst e; split <;> simp only [slotUnref_keep P (fun s x0 => hP s s.time s.host s.urz s.rest x0 s.cls s.path s.otn s.mpu s.out s.free rfl), hP, g]

theorem commitRun_keep {β : Type} (P : State → β) (hP : ∀ s x0 x1 x2 x3 x4 x5 x6 x7 x8 x9 x10, Memory.wf x8.hbm = Memory.wf s.mpu.hbm → P { s with time := x0, host := x1, urz := x2, rest := x3, keys := x4, cls := x5, path := x6, otn := x7, mpu := x8, out := x9, free := x10 } = P s) (p : PD) (a0 : Nat) (a1 : State) : P (commitRun p a0 a1) = P a1 := by
  induction a0 generalizing a1 with
  | zero => rfl
  | succ n ih => unfold commitRun; split; (· rfl); split; (· rw [ih, commitFrame_keep P hP _ _ _ _ ‹_›]; simp only [updPd_keep P (fun s x0 => hP s s.time s.host s.urz s.rest s.keys s.cls x0 s.otn s.mpu s.out s.free rfl), hP, id]); (· simp only [updPd_keep P (fun s x0 => hP s s.time s.host s.urz s.rest s.keys s.cls x0 s.otn s.mpu s.out s.free rfl), hP, id])

theorem commitEntry_keep {β : Type} (P : State → β) (hP : ∀ s x0 x1 x2 x3 x4 x5 x6 x7 x8 x9 x10, Memory.wf x8.hbm = Memory.wf s.mpu.hbm → P { s with time := x0, host := x1, urz := x2, rest := x3, keys := x4, cls := x5, path := x6, otn := x7, mpu := x8, out := x9, free := x10 } = P s) (p : PD) (s : State) : P (commitEntry p s) = P s := by
  unfold commitEntry; (repeat' split) <;> simp only [commitRun_keep P hP, commitsResume_keep P (fun s x0 => hP s s.time s.host s.urz s.rest s.keys s.cls x0 s.otn s.mpu s.out s.free rfl), hP]

end Sys2Proof.Machine
end

