-- ==== Sys2Proof/Laws/KeepOtn.lean ====
section
/-! SUPPORT. What the operations and meanings of Machine/Otn.lean leave alone: `f_keep` says that whatever is read from
the state without looking at the components `f` may change is the same after `f`. -/
set_option linter.all false
namespace Sys2Proof.Machine

theorem otuSettle_keep {β : Type} (P : State → β) (hP : ∀ s x0 x1, P { s with otn := x0, out := x1 } = P s) (k : Nat) (sd : Side) (s : State) : P (otuSettle k sd s) = P s := by
  unfold otuSettle; dsimp only; (repeat' split) <;> simp only [emit_keep P (fun s x0 => hP s s.otn x0), hP]

theorem sideShow_keep {β : Type} (P : State → β) (hP : ∀ s x0 x1, P { s with otn := x0, out := x1 } = P s) (k : Nat) (sd : Side) (s : State) : P (sideShow k sd s) = P s := by
  unfold sideShow; repeat' (first | with_reducible rfl | split | simp only [otuSettle_keep P hP, tribAcquire_keep P (fun s x0 => hP s x0 s.out), tribShow_keep P (fun s x0 => hP s x0 s.out), hP] | (with_reducible refine (keep (fun _ _ => by (repeat' (first | with_reducible rfl | split | simp only [otuSettle_keep P hP, tribAcquire_keep P (fun s x0 => hP s x0 s.out), tribShow_keep P (fun s x0 => hP s x0 s.out), hP])))).trans ?_) | (with_reducible refine (keep2 (fun _ _ => by (repeat' (first | with_reducible rfl | split | simp only [otuSettle_keep P hP, tribAcquire_keep P (fun s x0 => hP s x0 s.out), tribShow_keep P (fun s x0 => hP s x0 s.out), hP])))).trans ?_))

theorem sideDeclare_keep {β : Type} (P : State → β) (hP : ∀ s x0 x1, P { s with otn := x0, out := x1 } = P s) (k : Nat) (sd : Side) (b : Nat) (s : State) : P (sideDeclare k sd b s) = P s := by
  unfold sideDeclare; dsimp only; (repeat' split) <;> simp only [sideShow_keep P hP, hP]

theorem sideClear_keep {β : Type} (P : State → β) (hP : ∀ s x0 x1, P { s with otn := x0, out := x1 } = P s) (k : Nat) (sd : Side) (b : Nat) (s : State) : P (sideClear k sd b s) = P s := by
  unfold sideClear; (repeat' split) <;> simp only [sideShow_keep P hP, hP]

theorem tribDeclare_keep {β : Type} (P : State → β) (hP : ∀ s x0, P { s with otn := x0 } = P s) (t : Nat) (sd : Side) (b : Nat) (s : State) : P (tribDeclare t sd b s) = P s := by
  unfold tribDeclare; (repeat' split) <;> simp only [tribDefect_keep P hP, hP]

theorem tribClear_keep {β : Type} (P : State → β) (hP : ∀ s x0, P { s with otn := x0 } = P s) (t : Nat) (sd : Side) (b : Nat) (s : State) : P (tribClear t sd b s) = P s := by
  unfold tribClear; (repeat' split) <;> simp only [tribDefect_keep P hP, hP]

theorem updAligner_keep {β : Type} (P : State → β) (hP : ∀ s x0, P { s with otn := x0 } = P s) (a : AlignerId) (f : Aligner → Aligner) (s : State) : P (updAligner a f s) = P s := by
  unfold updAligner; (repeat' split) <;> simp only [hP]

theorem amAll_keep {β : Type} (P : State → β) (hP : ∀ s x0, P { s with otn := x0 } = P s) (k : Fin 8) (sd : Side) (on : Bool) (s : State) : P (amAll k sd on s) = P s := by
  unfold amAll; repeat' (first | with_reducible rfl | split | simp only [updAligner_keep P hP, hP] | (with_reducible refine (keep (fun _ _ => by (repeat' (first | with_reducible rfl | split | simp only [updAligner_keep P hP, hP])))).trans ?_) | (with_reducible refine (keep2 (fun _ _ => by (repeat' (first | with_reducible rfl | split | simp only [updAligner_keep P hP, hP])))).trans ?_))

theorem pmStatSet_keep {β : Type} (P : State → β) (hP : ∀ s x0, P { s with otn := x0 } = P s) (k : Nat) (sd : Side) (w : Nat) (on : Bool) (s : State) : P (pmStatSet k sd w on s) = P s := by
  unfold pmStatSet; (repeat' split) <;> simp only [hP]

theorem declare_keep {β : Type} (P : State → β) (hP : ∀ s x0 x1, P { s with otn := x0, out := x1 } = P s) (d : DefectId) (s : State) : P (declare d s) = P s := by
  unfold declare; repeat' (first | with_reducible rfl | split | simp only [amAll_keep P (fun s x0 => hP s x0 s.out), pmStatSet_keep P (fun s x0 => hP s x0 s.out), secDeclare_keep P (fun s x0 => hP s x0 s.out), sideDeclare_keep P hP, tribDeclare_keep P (fun s x0 => hP s x0 s.out), hP] | (with_reducible refine (keep (fun _ _ => by (repeat' (first | with_reducible rfl | split | simp only [amAll_keep P (fun s x0 => hP s x0 s.out), pmStatSet_keep P (fun s x0 => hP s x0 s.out), secDeclare_keep P (fun s x0 => hP s x0 s.out), sideDeclare_keep P hP, tribDeclare_keep P (fun s x0 => hP s x0 s.out), hP])))).trans ?_) | (with_reducible refine (keep2 (fun _ _ => by (repeat' (first | with_reducible rfl | split | simp only [amAll_keep P (fun s x0 => hP s x0 s.out), pmStatSet_keep P (fun s x0 => hP s x0 s.out), secDeclare_keep P (fun s x0 => hP s x0 s.out), sideDeclare_keep P hP, tribDeclare_keep P (fun s x0 => hP s x0 s.out), hP])))).trans ?_))

theorem undeclare_keep {β : Type} (P : State → β) (hP : ∀ s x0 x1, P { s with otn := x0, out := x1 } = P s) (d : DefectId) (s : State) : P (undeclare d s) = P s := by
  unfold undeclare; dsimp only; (repeat' split) <;> simp only [amAll_keep P (fun s x0 => hP s x0 s.out), pmStatSet_keep P (fun s x0 => hP s x0 s.out), sideClear_keep P hP, tribClear_keep P (fun s x0 => hP s x0 s.out), tribDefect_keep P (fun s x0 => hP s x0 s.out), hP]

theorem restartSlices_keep {β : Type} (P : State → β) (hP : ∀ s x0, P { s with otn := x0 } = P s) (k : Fin 8) (sd : Side) (s : State) : P (restartSlices k sd s) = P s := by
  unfold restartSlices; repeat' (first | with_reducible rfl | split | simp only [updAligner_keep P hP, hP] | (with_reducible refine (keep (fun _ _ => by (repeat' (first | with_reducible rfl | split | simp only [updAligner_keep P hP, hP])))).trans ?_) | (with_reducible refine (keep2 (fun _ _ => by (repeat' (first | with_reducible rfl | split | simp only [updAligner_keep P hP, hP])))).trans ?_))

theorem alignerMarkers_keep {β : Type} (P : State → β) (hP : ∀ s x0 x1, P { s with otn := x0, out := x1 } = P s) (a : AlignerId) (markers : List Bool) (s : State) : P (alignerMarkers a markers s) = P s := by
  unfold alignerMarkers; dsimp only; (repeat' split) <;> simp only [sideClear_keep P hP, sideDeclare_keep P hP, updAligner_keep P (fun s x0 => hP s x0 s.out), hP]

theorem alignerOffers_keep {β : Type} (P : State → β) (hP : ∀ s x0, P { s with otn := x0 } = P s) (a : AlignerId) (cands : List Candidate) (s : State) : P (alignerOffers a cands s) = P s := by
  unfold alignerOffers; dsimp only; (repeat' split) <;> simp only [restartSlices_keep P hP, updAligner_keep P hP, hP]

theorem alignerLock_keep {β : Type} (P : State → β) (hP : ∀ s x0 x1, P { s with otn := x0, out := x1 } = P s) (a : AlignerId) (markers : List Bool) (cands : List Candidate) (s : State) : P (alignerLock a markers cands s) = P s := by
  unfold alignerLock; dsimp only; (repeat' split) <;> simp only [alignerMarkers_keep P hP, alignerOffers_keep P (fun s x0 => hP s x0 s.out), hP]

theorem alignerHunt_keep {β : Type} (P : State → β) (hP : ∀ s x0, P { s with otn := x0 } = P s) (a : AlignerId) (s : State) : P (alignerHunt a s) = P s := by
  unfold alignerHunt; dsimp only; (repeat' split) <;> simp only [restartSlices_keep P hP, updAligner_keep P hP, hP]

theorem alignerDefects_keep {β : Type} (P : State → β) (hP : ∀ s x0 x1, P { s with otn := x0, out := x1 } = P s) (a : AlignerId) (s : State) : P (alignerDefects a s) = P s := by
  unfold alignerDefects; dsimp only; (repeat' split) <;> simp only [sideClear_keep P hP, sideDeclare_keep P hP, tribClear_keep P (fun s x0 => hP s x0 s.out), tribDeclare_keep P (fun s x0 => hP s x0 s.out), hP]

theorem alignerTimer_keep {β : Type} (P : State → β) (hP : ∀ s x0 x1 x2, P { s with time := x0, otn := x1, out := x2 } = P s) (a : AlignerId) (s : State) : P (alignerTimer a s) = P s := by
  unfold alignerTimer; (repeat' split) <;> simp only [alignerDefects_keep P (fun s x0 x1 => hP s s.time x0 x1), updAligner_keep P (fun s x0 => hP s s.time x0 s.out), waitCycle_keep P (fun s x0 => hP s x0 s.otn s.out), hP]

theorem outOfMulti_keep {β : Type} (P : State → β) (hP : ∀ s x0, P { s with otn := x0 } = P s) (a : AlignerId) (s : State) : P (outOfMulti a s) = P s := by
  unfold outOfMulti; (repeat' split) <;> simp only [alignerHunt_keep P hP, updAligner_keep P hP, hP]

theorem playSent_keep {β : Type} (P : State → β) (hP : ∀ s x0, P { s with otn := x0 } = P s) (t : Nat) (d : Dir) (rest : List PlayItem) (mfas : BitVec 8) (delta : Nat) (s : State) : P (playSent t d rest mfas delta s) = P s := by
  unfold playSent; (repeat' split) <;> simp only [updTr_keep P hP, hP]

theorem gmpTake_keep {β : Type} (P : State → β) (hP : ∀ s x0, P { s with otn := x0 } = P s) (t : Nat) (d : Dir) (s : State) : P (gmpTake t d s) = P s := by
  unfold gmpTake; (repeat' split) <;> simp only [updTr_keep P hP, hP]

theorem oduOut_keep {β : Type} (P : State → β) (hP : ∀ s x0 x1 x2, P { s with urz := x0, path := x1, out := x2 } = P s) (t : Nat) (d : Dir) (payload overhead : Octets) (s : State) : P (oduOut t d payload overhead s) = P s := by
  unfold oduOut; (repeat' split) <;> simp only [edgePass_keep P (fun s x0 => hP s s.urz x0 s.out), emit_keep P (fun s x0 => hP s s.urz s.path x0), gccSend_keep P (fun s x0 => hP s x0 s.path s.out), hP]

theorem playSend_keep {β : Type} (P : State → β) (hP : ∀ s x0 x1 x2 x3, P { s with urz := x0, path := x1, otn := x2, out := x3 } = P s) (t : Nat) (d : Dir) (i : PlayItem) (rest : List PlayItem) (s : State) : P (playSend t d i rest s) = P s := by
  unfold playSend; (repeat' split) <;> simp only [oduOut_keep P (fun s x0 x1 x2 => hP s x0 x1 s.otn x2), playSent_keep P (fun s x0 => hP s s.urz s.path x0 s.out), tribCount_keep P (fun s x0 => hP s s.urz s.path x0 s.out), hP]

theorem playUnderrun_keep {β : Type} (P : State → β) (hP : ∀ s x0 x1 x2 x3, P { s with urz := x0, path := x1, otn := x2, out := x3 } = P s) (t : Nat) (d : Dir) (s : State) : P (playUnderrun t d s) = P s := by
  unfold playUnderrun; (repeat' split) <;> simp only [oduOut_keep P (fun s x0 x1 x2 => hP s x0 x1 s.otn x2), playSent_keep P (fun s x0 => hP s s.urz s.path x0 s.out), tribCount_keep P (fun s x0 => hP s s.urz s.path x0 s.out), tribDefect_keep P (fun s x0 => hP s s.urz s.path x0 s.out), hP]

theorem playTail_keep {β : Type} (P : State → β) (hP : ∀ s x0, P { s with otn := x0 } = P s) (t : Nat) (d : Dir) (rest : List PlayItem) (s : State) : P (playTail t d rest s) = P s := by
  unfold playTail; (repeat' split) <;> simp only [updTr_keep P hP, hP]

theorem remap_keep {β : Type} (P : State → β) (hP : ∀ s x0 x1 x2 x3 x4 x5 x6 x7, Memory.wf x6.hbm = Memory.wf s.mpu.hbm → P { s with time := x0, host := x1, urz := x2, rest := x3, path := x4, otn := x5, mpu := x6, out := x7 } = P s) (t : Nat) (d : Dir) (s : State) : P (remap t d s) = P s := by
  unfold remap; dsimp only; (repeat' split) <;> simp only [gmpTake_keep P (fun s x0 => hP s s.time s.host s.urz s.rest s.path x0 s.mpu s.out rfl), memoryLoss_keep P (fun s x0 h => hP s s.time s.host s.urz s.rest s.path s.otn x0 s.out h), playFetch_keep P (fun s x0 x1 x2 x3 x4 h => hP s s.time x0 s.urz x1 x2 s.otn x3 x4 h), playSend_keep P (fun s x0 x1 x2 x3 => hP s s.time s.host x0 s.rest x1 x2 s.mpu x3 rfl), playTail_keep P (fun s x0 => hP s s.time s.host s.urz s.rest s.path x0 s.mpu s.out rfl), playUnderrun_keep P (fun s x0 x1 x2 x3 => hP s s.time s.host x0 s.rest x1 x2 s.mpu x3 rfl), waitCycle_keep P (fun s x0 => hP s x0 s.host s.urz s.rest s.path s.otn s.mpu s.out rfl), hP]

theorem updPm_keep {β : Type} (P : State → β) (hP : ∀ s x0, P { s with otn := x0 } = P s) (e : Nat) (f : PmEnt → PmEnt) (s : State) : P (updPm e f s) = P s := by
  unfold updPm; (repeat' split) <;> simp only [hP]

theorem suspect_keep {β : Type} (P : State → β) (hP : ∀ s x0, P { s with otn := x0 } = P s) (e : Nat) (s : State) : P (suspect e s) = P s := by
  unfold suspect; (repeat' split) <;> simp only [updPm_keep P hP, hP]

theorem binsBegin_keep {β : Type} (P : State → β) (hP : ∀ s x0, P { s with otn := x0 } = P s) (s : State) : P (binsBegin s) = P s := by
  unfold binsBegin; (repeat' split) <;> simp only [hP]

theorem suspectAll_keep {β : Type} (P : State → β) (hP : ∀ s x0, P { s with otn := x0 } = P s) (s : State) : P (suspectAll s) = P s := by
  unfold suspectAll; repeat' (first | with_reducible rfl | split | simp only [suspect_keep P hP, hP] | (with_reducible refine (keep (fun _ _ => by (repeat' (first | with_reducible rfl | split | simp only [suspect_keep P hP, hP])))).trans ?_) | (with_reducible refine (keep2 (fun _ _ => by (repeat' (first | with_reducible rfl | split | simp only [suspect_keep P hP, hP])))).trans ?_))

theorem secondCounts_keep {β : Type} (P : State → β) (hP : ∀ s x0 x1, P { s with path := x0, otn := x1 } = P s) (obs : SecondObs) (s : State) : P (secondCounts obs s) = P s := by
  unfold secondCounts; repeat' (first | with_reducible rfl | split | simp only [macCount_keep P (fun s x0 => hP s x0 s.otn), updAligner_keep P (fun s x0 => hP s s.path x0), hP] | (with_reducible refine (keep (fun _ _ => by (repeat' (first | with_reducible rfl | split | simp only [macCount_keep P (fun s x0 => hP s x0 s.otn), updAligner_keep P (fun s x0 => hP s s.path x0), hP])))).trans ?_) | (with_reducible refine (keep2 (fun _ _ => by (repeat' (first | with_reducible rfl | split | simp only [macCount_keep P (fun s x0 => hP s x0 s.otn), updAligner_keep P (fun s x0 => hP s s.path x0), hP])))).trans ?_))

theorem seenReset_keep {β : Type} (P : State → β) (hP : ∀ s x0, P { s with otn := x0 } = P s) (s : State) : P (seenReset s) = P s := by
  unfold seenReset; (repeat' split) <;> simp only [hP]

theorem pmTick_keep {β : Type} (P : State → β) (hP : ∀ s x0 x1, P { s with path := x0, otn := x1 } = P s) (obs : SecondObs) (s : State) : P (pmTick obs s) = P s := by
  unfold pmTick; repeat' (first | with_reducible rfl | split | simp only [secondCounts_keep P hP, seenReset_keep P (fun s x0 => hP s s.path x0), suspectAll_keep P (fun s x0 => hP s s.path x0), updPm_keep P (fun s x0 => hP s s.path x0), hP] | (with_reducible refine (keep (fun _ _ => by (repeat' (first | with_reducible rfl | split | simp only [secondCounts_keep P hP, seenReset_keep P (fun s x0 => hP s s.path x0), suspectAll_keep P (fun s x0 => hP s s.path x0), updPm_keep P (fun s x0 => hP s s.path x0), hP])))).trans ?_) | (with_reducible refine (keep2 (fun _ _ => by (repeat' (first | with_reducible rfl | split | simp only [secondCounts_keep P hP, seenReset_keep P (fun s x0 => hP s s.path x0), suspectAll_keep P (fun s x0 => hP s s.path x0), updPm_keep P (fun s x0 => hP s s.path x0), hP])))).trans ?_))

theorem pmBinEnd_keep {β : Type} (P : State → β) (hP : ∀ s x0 x1 x2 x3, P { s with time := x0, host := x1, otn := x2, out := x3 } = P s) (day : Bool) (s : State) : P (pmBinEnd day s) = P s := by
  unfold pmBinEnd; repeat' (first | with_reducible rfl | split | simp only [post_keep P (fun s x0 x1 => hP s s.time x0 s.otn x1), updPm_keep P (fun s x0 => hP s s.time s.host x0 s.out), waitTime_keep P (fun s x0 => hP s x0 s.host s.otn s.out), hP] | (with_reducible refine (keep (fun _ _ => by (repeat' (first | with_reducible rfl | split | simp only [post_keep P (fun s x0 x1 => hP s s.time x0 s.otn x1), updPm_keep P (fun s x0 => hP s s.time s.host x0 s.out), waitTime_keep P (fun s x0 => hP s x0 s.host s.otn s.out), hP])))).trans ?_) | (with_reducible refine (keep2 (fun _ _ => by (repeat' (first | with_reducible rfl | split | simp only [post_keep P (fun s x0 x1 => hP s s.time x0 s.otn x1), updPm_keep P (fun s x0 => hP s s.time s.host x0 s.out), waitTime_keep P (fun s x0 => hP s x0 s.host s.otn s.out), hP])))).trans ?_))

theorem pmBinComplete_keep {β : Type} (P : State → β) (hP : ∀ s x0 x1, P { s with time := x0, otn := x1 } = P s) (day : Bool) (s : State) : P (pmBinComplete day s) = P s := by
  unfold pmBinComplete; repeat' (first | with_reducible rfl | split | simp only [updPm_keep P (fun s x0 => hP s s.time x0), waitTime_keep P (fun s x0 => hP s x0 s.otn), hP] | (with_reducible refine (keep (fun _ _ => by (repeat' (first | with_reducible rfl | split | simp only [updPm_keep P (fun s x0 => hP s s.time x0), waitTime_keep P (fun s x0 => hP s x0 s.otn), hP])))).trans ?_) | (with_reducible refine (keep2 (fun _ _ => by (repeat' (first | with_reducible rfl | split | simp only [updPm_keep P (fun s x0 => hP s s.time x0), waitTime_keep P (fun s x0 => hP s x0 s.otn), hP])))).trans ?_))

end Sys2Proof.Machine
end

