-- ==== Sys2Proof/Laws/KeepTime.lean ====
section
/-! SUPPORT. What the operations and meanings of Machine/Time.lean leave alone: `f_keep` says that whatever is read from
the state without looking at the components `f` may change is the same after `f`. -/
set_option linter.all false
namespace Sys2Proof.Machine

theorem keyExpire_keep {β : Type} (P : State → β) (hP : ∀ s x0 x1 x2 x3, P { s with host := x0, keys := x1, otn := x2, out := x3 } = P s) (s : State) : P (keyExpire s) = P s := by
  unfold keyExpire; repeat' (first | with_reducible rfl | split | simp only [freezeSlotSas_keep P hP, updSlot_keep P (fun s x0 => hP s s.host x0 s.otn s.out), hP] | (with_reducible refine (keep (fun _ _ => by (repeat' (first | with_reducible rfl | split | simp only [freezeSlotSas_keep P hP, updSlot_keep P (fun s x0 => hP s s.host x0 s.otn s.out), hP])))).trans ?_) | (with_reducible refine (keep2 (fun _ _ => by (repeat' (first | with_reducible rfl | split | simp only [freezeSlotSas_keep P hP, updSlot_keep P (fun s x0 => hP s s.host x0 s.otn s.out), hP])))).trans ?_))

theorem rollsPassed_keep {β : Type} (P : State → β) (hP : ∀ s x0 x1 x2 x3, P { s with host := x0, keys := x1, otn := x2, out := x3 } = P s) (s : State) : P (rollsPassed s) = P s := by
  unfold rollsPassed; repeat' (first | with_reducible rfl | split | simp only [rollDue_keep P hP, hP] | (with_reducible refine (keep (fun _ _ => by (repeat' (first | with_reducible rfl | split | simp only [rollDue_keep P hP, hP])))).trans ?_) | (with_reducible refine (keep2 (fun _ _ => by (repeat' (first | with_reducible rfl | split | simp only [rollDue_keep P hP, hP])))).trans ?_))

theorem clockCount_keep {β : Type} (P : State → β) (hP : ∀ s x0, P { s with time := x0 } = P s) (i : Nat) (s : State) : P (clockCount i s) = P s := by
  unfold clockCount; (repeat' split) <;> simp only [hP]

theorem moveHeld_keep {β : Type} (P : State → β) (hP : ∀ s x0 x1 x2, P { s with time := x0, cls := x1, path := x2 } = P s) (x : Int) (s : State) : P (moveHeld x s) = P s := by
  unfold moveHeld; (repeat' split) <;> simp only [hP]

theorem updPin_keep {β : Type} (P : State → β) (hP : ∀ s x0, P { s with time := x0 } = P s) (p : Nat) (f : Pin → Pin) (s : State) : P (updPin p f s) = P s := by
  unfold updPin; (repeat' split) <;> simp only [hP]

theorem pinSettle_keep {β : Type} (P : State → β) (hP : ∀ s x0 x1, P { s with time := x0, out := x1 } = P s) (p : Nat) (s : State) : P (pinSettle p s) = P s := by
  unfold pinSettle; dsimp only; (repeat' split) <;> simp only [emit_keep P (fun s x0 => hP s s.time x0), updPin_keep P (fun s x0 => hP s x0 s.out), hP]

theorem setPin_keep {β : Type} (P : State → β) (hP : ∀ s x0 x1, P { s with time := x0, out := x1 } = P s) (p : Nat) (f : Pin → Pin) (s : State) : P (setPin p f s) = P s := by
  unfold setPin; (repeat' split) <;> simp only [pinSettle_keep P hP, updPin_keep P (fun s x0 => hP s x0 s.out), hP]

theorem updTslot_keep {β : Type} (P : State → β) (hP : ∀ s x0, P { s with time := x0 } = P s) (i : Nat) (f : Slot → Slot) (s : State) : P (updTslot i f s) = P s := by
  unfold updTslot; (repeat' split) <;> simp only [hP]

theorem slotAct_keep {β : Type} (P : State → β) (hP : ∀ s x0 x1 x2, P { s with time := x0, host := x1, out := x2 } = P s) (i : Nat) (r : Slot) (s : State) : P (slotAct i r s) = P s := by
  unfold slotAct; (repeat' split) <;> simp only [postTo_keep P (fun s x0 x1 => hP s s.time x0 x1), setPin_keep P (fun s x0 x1 => hP s x0 s.host x1), hP]

theorem slotPast_keep {β : Type} (P : State → β) (hP : ∀ s x0, P { s with time := x0 } = P s) (i : Nat) (fired : Bool) (done_ : Nat) (s : State) : P (slotPast i fired done_ s) = P s := by
  unfold slotPast; (repeat' split) <;> simp only [updTslot_keep P hP, hP]

theorem slotPassed_keep {β : Type} (P : State → β) (hP : ∀ s x0 x1 x2, P { s with time := x0, host := x1, out := x2 } = P s) (s : State) (i : Nat) : P (slotPassed s i) = P s := by
  unfold slotPassed; dsimp only; (repeat' split) <;> simp only [slotAct_keep P hP, slotPast_keep P (fun s x0 => hP s x0 s.host s.out), hP]

theorem timeStep_keep {β : Type} (P : State → β) (hP : ∀ s x0 x1 x2 x3 x4 x5 x6 x7, P { s with time := x0, host := x1, rest := x2, keys := x3, cls := x4, path := x5, otn := x6, out := x7 } = P s) (x : Int) (s : State) : P (timeStep x s) = P s := by
  unfold timeStep; repeat' (first | with_reducible rfl | split | simp only [clockCount_keep P (fun s x0 => hP s x0 s.host s.rest s.keys s.cls s.path s.otn s.out), keyExpire_keep P (fun s x0 x1 x2 x3 => hP s s.time x0 s.rest x1 s.cls s.path x2 x3), logEntry_keep P (fun s x0 x1 x2 => hP s s.time x0 x1 s.keys s.cls s.path s.otn x2), moveHeld_keep P (fun s x0 x1 x2 => hP s x0 s.host s.rest s.keys x1 x2 s.otn s.out), post_keep P (fun s x0 x1 => hP s s.time x0 s.rest s.keys s.cls s.path s.otn x1), rollsPassed_keep P (fun s x0 x1 x2 x3 => hP s s.time x0 s.rest x1 s.cls s.path x2 x3), slotPassed_keep P (fun s x0 x1 x2 => hP s x0 x1 s.rest s.keys s.cls s.path s.otn x2), suspectAll_keep P (fun s x0 => hP s s.time s.host s.rest s.keys s.cls s.path x0 s.out), hP] | (with_reducible refine (keep (fun _ _ => by (repeat' (first | with_reducible rfl | split | simp only [clockCount_keep P (fun s x0 => hP s x0 s.host s.rest s.keys s.cls s.path s.otn s.out), keyExpire_keep P (fun s x0 x1 x2 x3 => hP s s.time x0 s.rest x1 s.cls s.path x2 x3), logEntry_keep P (fun s x0 x1 x2 => hP s s.time x0 x1 s.keys s.cls s.path s.otn x2), moveHeld_keep P (fun s x0 x1 x2 => hP s x0 s.host s.rest s.keys x1 x2 s.otn s.out), post_keep P (fun s x0 x1 => hP s s.time x0 s.rest s.keys s.cls s.path s.otn x1), rollsPassed_keep P (fun s x0 x1 x2 x3 => hP s s.time x0 s.rest x1 s.cls s.path x2 x3), slotPassed_keep P (fun s x0 x1 x2 => hP s x0 x1 s.rest s.keys s.cls s.path s.otn x2), suspectAll_keep P (fun s x0 => hP s s.time s.host s.rest s.keys s.cls s.path x0 s.out), hP])))).trans ?_) | (with_reducible refine (keep2 (fun _ _ => by (repeat' (first | with_reducible rfl | split | simp only [clockCount_keep P (fun s x0 => hP s x0 s.host s.rest s.keys s.cls s.path s.otn s.out), keyExpire_keep P (fun s x0 x1 x2 x3 => hP s s.time x0 s.rest x1 s.cls s.path x2 x3), logEntry_keep P (fun s x0 x1 x2 => hP s s.time x0 x1 s.keys s.cls s.path s.otn x2), moveHeld_keep P (fun s x0 x1 x2 => hP s x0 s.host s.rest s.keys x1 x2 s.otn s.out), post_keep P (fun s x0 x1 => hP s s.time x0 s.rest s.keys s.cls s.path s.otn x1), rollsPassed_keep P (fun s x0 x1 x2 x3 => hP s s.time x0 s.rest x1 s.cls s.path x2 x3), slotPassed_keep P (fun s x0 x1 x2 => hP s x0 x1 s.rest s.keys s.cls s.path s.otn x2), suspectAll_keep P (fun s x0 => hP s s.time s.host s.rest s.keys s.cls s.path x0 s.out), hP])))).trans ?_))

theorem lockPins_keep {β : Type} (P : State → β) (hP : ∀ s x0 x1, P { s with time := x0, out := x1 } = P s) (s : State) : P (lockPins s) = P s := by
  unfold lockPins; repeat' (first | with_reducible rfl | split | simp only [setPin_keep P hP, hP] | (with_reducible refine (keep (fun _ _ => by (repeat' (first | with_reducible rfl | split | simp only [setPin_keep P hP, hP])))).trans ?_) | (with_reducible refine (keep2 (fun _ _ => by (repeat' (first | with_reducible rfl | split | simp only [setPin_keep P hP, hP])))).trans ?_))

theorem setServo_keep {β : Type} (P : State → β) (hP : ∀ s x0 x1, P { s with time := x0, out := x1 } = P s) (v : Servo) (s : State) : P (setServo v s) = P s := by
  unfold setServo; (repeat' split) <;> simp only [lockPins_keep P hP, hP]

theorem servoRestart_keep {β : Type} (P : State → β) (hP : ∀ s x0, P { s with time := x0 } = P s) (s : State) : P (servoRestart s) = P s := by
  unfold servoRestart; (repeat' split) <;> simp only [hP]

theorem servoStep_keep {β : Type} (P : State → β) (hP : ∀ s x0 x1 x2 x3 x4 x5 x6 x7, P { s with time := x0, host := x1, rest := x2, keys := x3, cls := x4, path := x5, otn := x6, out := x7 } = P s) (x : Int) (s : State) : P (servoStep x s) = P s := by
  unfold servoStep; (repeat' split) <;> simp only [servoRestart_keep P (fun s x0 => hP s x0 s.host s.rest s.keys s.cls s.path s.otn s.out), setServo_keep P (fun s x0 x1 => hP s x0 s.host s.rest s.keys s.cls s.path s.otn x1), timeStep_keep P hP, hP]

theorem enterHoldover_keep {β : Type} (P : State → β) (hP : ∀ s x0 x1, P { s with time := x0, out := x1 } = P s) (s : State) : P (enterHoldover s) = P s := by
  unfold enterHoldover; (repeat' split) <;> simp only [servoRestart_keep P (fun s x0 => hP s x0 s.out), setServo_keep P hP, hP]

theorem servoRun_keep {β : Type} (P : State → β) (hP : ∀ s x0 x1 x2, P { s with time := x0, host := x1, out := x2 } = P s) (theta : Int) (s : State) : P (servoRun theta s) = P s := by
  unfold servoRun; dsimp only; (repeat' split) <;> simp only [post_keep P (fun s x0 x1 => hP s s.time x0 x1), setServo_keep P (fun s x0 x1 => hP s x0 s.host x1), hP]

theorem servoJump_keep {β : Type} (P : State → β) (hP : ∀ s x0 x1 x2 x3 x4 x5 x6 x7, P { s with time := x0, host := x1, rest := x2, keys := x3, cls := x4, path := x5, otn := x6, out := x7 } = P s) (m : Int) (s : State) : P (servoJump m s) = P s := by
  unfold servoJump; dsimp only; (repeat' split) <;> simp only [clockCount_keep P (fun s x0 => hP s x0 s.host s.rest s.keys s.cls s.path s.otn s.out), enterHoldover_keep P (fun s x0 x1 => hP s x0 s.host s.rest s.keys s.cls s.path s.otn x1), post_keep P (fun s x0 x1 => hP s s.time x0 s.rest s.keys s.cls s.path s.otn x1), servoStep_keep P hP, hP]

theorem servoTrack_keep {β : Type} (P : State → β) (hP : ∀ s x0 x1 x2 x3 x4 x5 x6 x7, P { s with time := x0, host := x1, rest := x2, keys := x3, cls := x4, path := x5, otn := x6, out := x7 } = P s) (theta : Int) (s : State) : P (servoTrack theta s) = P s := by
  unfold servoTrack; dsimp only; (repeat' split) <;> simp only [clockCount_keep P (fun s x0 => hP s x0 s.host s.rest s.keys s.cls s.path s.otn s.out), post_keep P (fun s x0 x1 => hP s s.time x0 s.rest s.keys s.cls s.path s.otn x1), servoJump_keep P hP, servoRun_keep P (fun s x0 x1 x2 => hP s x0 x1 s.rest s.keys s.cls s.path s.otn x2), setServo_keep P (fun s x0 x1 => hP s x0 s.host s.rest s.keys s.cls s.path s.otn x1), hP]

theorem servoUnset_keep {β : Type} (P : State → β) (hP : ∀ s x0 x1 x2 x3 x4 x5 x6 x7, P { s with time := x0, host := x1, rest := x2, keys := x3, cls := x4, path := x5, otn := x6, out := x7 } = P s) (theta : Int) (s : State) : P (servoUnset theta s) = P s := by
  unfold servoUnset; dsimp only; (repeat' split) <;> simp only [post_keep P (fun s x0 x1 => hP s s.time x0 s.rest s.keys s.cls s.path s.otn x1), servoStep_keep P hP, hP]

theorem servoSample_keep {β : Type} (P : State → β) (hP : ∀ s x0 x1 x2 x3 x4 x5 x6 x7, P { s with time := x0, host := x1, rest := x2, keys := x3, cls := x4, path := x5, otn := x6, out := x7 } = P s) (theta : Int) (s : State) : P (servoSample theta s) = P s := by
  unfold servoSample; dsimp only; (repeat' split) <;> simp only [clockCount_keep P (fun s x0 => hP s x0 s.host s.rest s.keys s.cls s.path s.otn s.out), servoRestart_keep P (fun s x0 => hP s x0 s.host s.rest s.keys s.cls s.path s.otn s.out), servoTrack_keep P hP, servoUnset_keep P hP, setServo_keep P (fun s x0 x1 => hP s x0 s.host s.rest s.keys s.cls s.path s.otn x1), hP]

theorem syncLost_keep {β : Type} (P : State → β) (hP : ∀ s x0 x1, P { s with time := x0, out := x1 } = P s) (s : State) : P (syncLost s) = P s := by
  unfold syncLost; dsimp only; (repeat' split) <;> simp only [enterHoldover_keep P hP, waitCycle_keep P (fun s x0 => hP s x0 s.out), hP]

theorem servoSource_keep {β : Type} (P : State → β) (hP : ∀ s x0 x1, P { s with time := x0, out := x1 } = P s) (src : Nat) (s : State) : P (servoSource src s) = P s := by
  unfold servoSource; dsimp only; (repeat' split) <;> simp only [servoRestart_keep P (fun s x0 => hP s x0 s.out), setServo_keep P hP, hP]

theorem servoMaster_keep {β : Type} (P : State → β) (hP : ∀ s x0 x1, P { s with time := x0, out := x1 } = P s) (s : State) : P (servoMaster s) = P s := by
  unfold servoMaster; dsimp only; (repeat' split) <;> simp only [servoRestart_keep P (fun s x0 => hP s x0 s.out), setServo_keep P hP, hP]

theorem servoPolicy_keep {β : Type} (P : State → β) (hP : ∀ s x0 x1, P { s with time := x0, out := x1 } = P s) (s : State) : P (servoPolicy s) = P s := by
  unfold servoPolicy; (repeat' split) <;> simp only [setServo_keep P hP, hP]

theorem timeGiven_keep {β : Type} (P : State → β) (hP : ∀ s x0 x1 x2 x3 x4 x5 x6 x7, P { s with time := x0, host := x1, rest := x2, keys := x3, cls := x4, path := x5, otn := x6, out := x7 } = P s) (x : Int) (s : State) : P (timeGiven x s) = P s := by
  unfold timeGiven; dsimp only; (repeat' split) <;> simp only [servoRestart_keep P (fun s x0 => hP s x0 s.host s.rest s.keys s.cls s.path s.otn s.out), setServo_keep P (fun s x0 x1 => hP s x0 s.host s.rest s.keys s.cls s.path s.otn x1), timeStep_keep P hP, hP]

theorem setTimeTo_keep {β : Type} (P : State → β) (hP : ∀ s x0 x1 x2 x3 x4 x5 x6 x7, P { s with time := x0, host := x1, rest := x2, keys := x3, cls := x4, path := x5, otn := x6, out := x7 } = P s) (t : Nat) (s : State) : P (setTimeTo t s) = P s := by
  unfold setTimeTo; (repeat' split) <;> simp only [timeGiven_keep P hP, hP]

theorem syncValue_keep {β : Type} (P : State → β) (hP : ∀ s x0 x1 x2 x3 x4 x5 x6 x7, P { s with time := x0, host := x1, rest := x2, keys := x3, cls := x4, path := x5, otn := x6, out := x7 } = P s) (ms : Int) (s : State) : P (syncValue ms s) = P s := by
  unfold syncValue; dsimp only; (repeat' split) <;> simp only [servoSample_keep P hP, hP]

theorem ptpConsume_keep {β : Type} (P : State → β) (hP : ∀ s x0 x1 x2 x3 x4 x5 x6 x7, P { s with time := x0, host := x1, rest := x2, keys := x3, cls := x4, path := x5, otn := x6, out := x7 } = P s) (p : PD) (d : Octets) (h stamp : Nat) (s q : State) (e : ptpConsume p d h stamp s = some q) : P q = P s := by
  unfold ptpConsume at e; dsimp only at e; (repeat' split at e) <;> (first | (simp at e; done) | (simp only [Option.some.injEq] at e; subst e; simp only [clockCount_keep P (fun s x0 => hP s x0 s.host s.rest s.keys s.cls s.path s.otn s.out), syncValue_keep P hP, hP]))

theorem ownClockFrame_keep {β : Type} (P : State → β) (hP : ∀ s x0 x1 x2 x3 x4 x5 x6 x7, P { s with time := x0, host := x1, rest := x2, keys := x3, cls := x4, path := x5, otn := x6, out := x7 } = P s) (s : State) : P (ownClockFrame s) = P s := by
  unfold ownClockFrame; dsimp only; (repeat' split) <;> (first | rfl | (have f := ptpConsume_keep P hP _ _ _ _ _ _ ‹ptpConsume _ _ _ _ _ = _›; simp only [deliverOrDrop_keep P (fun s x0 x1 x2 x3 x4 x5 => hP s s.time x0 x1 x2 x3 x4 s.otn x5), hP] at f ⊢; exact f) | simp only [deliverOrDrop_keep P (fun s x0 x1 x2 x3 x4 x5 => hP s s.time x0 x1 x2 x3 x4 s.otn x5), hP])

theorem sendDreq_keep {β : Type} (P : State → β) (hP : ∀ s x0 x1, P { s with time := x0, path := x1 } = P s) (s : State) : P (sendDreq s) = P s := by
  unfold sendDreq; dsimp only; (repeat' split) <;> simp only [clockCount_keep P (fun s x0 => hP s x0 s.path), injectOwn_keep P (fun s x0 => hP s s.time x0), waitCycle_keep P (fun s x0 => hP s x0 s.path), hP]

theorem lostCount_keep {β : Type} (P : State → β) (hP : ∀ s x0, P { s with time := x0 } = P s) (i : Nat) (s : State) : P (lostCount i s) = P s := by
  unfold lostCount; (repeat' split) <;> simp only [hP]

theorem pulseEnd_keep {β : Type} (P : State → β) (hP : ∀ s x0 x1, P { s with time := x0, out := x1 } = P s) (p : Nat) (s : State) : P (pulseEnd p s) = P s := by
  unfold pulseEnd; (repeat' split) <;> simp only [setPin_keep P hP, waitTime_keep P (fun s x0 => hP s x0 s.out), hP]

theorem captureEdge_keep {β : Type} (P : State → β) (hP : ∀ s x0 x1 x2 x3 x4 x5 x6 x7, P { s with time := x0, host := x1, rest := x2, keys := x3, cls := x4, path := x5, otn := x6, out := x7 } = P s) (p : Nat) (rising : Bool) (s : State) : P (captureEdge p rising s) = P s := by
  unfold captureEdge; dsimp only; (repeat' split) <;> simp only [post_keep P (fun s x0 x1 => hP s s.time x0 s.rest s.keys s.cls s.path s.otn x1), servoSample_keep P hP, updPin_keep P (fun s x0 => hP s x0 s.host s.rest s.keys s.cls s.path s.otn s.out), hP]

theorem restSeconds_keep {β : Type} (P : State → β) (hP : ∀ s x0 x1, P { s with time := x0, rest := x1 } = P s) (s : State) : P (restSeconds s) = P s := by
  unfold restSeconds; (repeat' split) <;> simp only [waitCycle_keep P (fun s x0 => hP s x0 s.rest), hP]

end Sys2Proof.Machine
end

