-- ==== Sys2Proof/Laws/KeepChannel.lean ====
section
/-! SUPPORT. What the operations and meanings of Machine/Channel.lean leave alone: `f_keep` says that whatever is read from
the state without looking at the components `f` may change is the same after `f`. -/
set_option linter.all false
namespace Sys2Proof.Machine

theorem urzSend_keep {β : Type} (P : State → β) (hP : ∀ s x0 x1, P { s with urz := x0, path := x1 } = P s) (p : PD) (frame : Octets) (sc : Nat) (s : State) : P (urzSend p frame sc s) = P s := by
  unfold urzSend; (repeat' split) <;> simp only [gccQueue_keep P (fun s x0 => hP s x0 s.path), injectOwn_keep P (fun s x0 => hP s s.urz x0), hP]

theorem notice_keep {β : Type} (P : State → β) (hP : ∀ s x0 x1 x2 x3 x4 x5, P { s with host := x0, urz := x1, keys := x2, path := x3, otn := x4, out := x5 } = P s) (kind source rank entry : Nat) (s : State) : P (notice kind source rank entry s) = P s := by
  unfold notice; repeat' (first | with_reducible rfl | split | simp only [urzSend_keep P (fun s x0 x1 => hP s s.host x0 s.keys x1 s.otn s.out), hP] | (with_reducible refine (keep (fun _ _ => by (repeat' (first | with_reducible rfl | split | simp only [urzSend_keep P (fun s x0 x1 => hP s s.host x0 s.keys x1 s.otn s.out), hP])))).trans ?_) | (with_reducible refine (keep2 (fun _ _ => by (repeat' (first | with_reducible rfl | split | simp only [urzSend_keep P (fun s x0 x1 => hP s s.host x0 s.keys x1 s.otn s.out), hP])))).trans ?_))

end Sys2Proof.Machine
end

