-- ==== Sys2Proof/Laws/KeepDrain.lean ====
section
/-! SUPPORT. What the operations and meanings of Machine/Drain.lean leave alone: `f_keep` says that whatever is read from
the state without looking at the components `f` may change is the same after `f`. -/
set_option linter.all false
namespace Sys2Proof.Machine

theorem lanesSettle_keep {β : Type} (P : State → β) (hP : ∀ s x0, P { s with power := x0 } = P s) (s : State) : P (lanesSettle s) = P s := by
  unfold lanesSettle; (repeat' split) <;> simp only [hP]

theorem purgeFrm_keep {β : Type} (P : State → β) (hP : ∀ s x0 x1 x2 x3 x4 x5, P { s with host := x0, keys := x1, fab := x2, path := x3, otn := x4, out := x5 } = P s) (id : Nat) (s : State) : P (purgeFrm id s) = P s := by
  unfold purgeFrm; repeat' (first | with_reducible rfl | split | simp only [dispatch_keep P hP, dropFrm_keep P (fun s x0 => hP s s.host s.keys s.fab x0 s.otn s.out), slotUnref_keep P (fun s x0 => hP s s.host x0 s.fab s.path s.otn s.out), hP] | (with_reducible refine (keep (fun _ _ => by (repeat' (first | with_reducible rfl | split | simp only [dispatch_keep P hP, dropFrm_keep P (fun s x0 => hP s s.host s.keys s.fab x0 s.otn s.out), slotUnref_keep P (fun s x0 => hP s s.host x0 s.fab s.path s.otn s.out), hP])))).trans ?_) | (with_reducible refine (keep2 (fun _ _ => by (repeat' (first | with_reducible rfl | split | simp only [dispatch_keep P hP, dropFrm_keep P (fun s x0 => hP s s.host s.keys s.fab x0 s.otn s.out), slotUnref_keep P (fun s x0 => hP s s.host x0 s.fab s.path s.otn s.out), hP])))).trans ?_))

theorem clearPd_keep {β : Type} (P : State → β) (hP : ∀ s x0 x1 x2 x3 x4 x5 x6, Memory.wf x5.hbm = Memory.wf s.mpu.hbm → P { s with host := x0, keys := x1, fab := x2, path := x3, otn := x4, mpu := x5, out := x6 } = P s) (p : PD) (n : Nat) (s : State) : P (clearPd p n s) = P s := by
  unfold clearPd; repeat' (first | with_reducible rfl | split | simp only [egrFree_keep P (fun s x0 x1 h => hP s s.host s.keys s.fab x0 s.otn x1 s.out h), playClear_keep P (fun s x0 x1 h => hP s s.host s.keys s.fab s.path x0 x1 s.out h), purgeFrm_keep P (fun s x0 x1 x2 x3 x4 x5 => hP s x0 x1 x2 x3 x4 s.mpu x5 rfl), restate_keep P (fun s x0 => hP s s.host s.keys s.fab x0 s.otn s.mpu s.out rfl), updPd_keep P (fun s x0 => hP s s.host s.keys s.fab x0 s.otn s.mpu s.out rfl), updQueue_keep P (fun s x0 => hP s s.host s.keys s.fab x0 s.otn s.mpu s.out rfl), hP] | (with_reducible refine (keep (fun _ _ => by (repeat' (first | with_reducible rfl | split | simp only [egrFree_keep P (fun s x0 x1 h => hP s s.host s.keys s.fab x0 s.otn x1 s.out h), playClear_keep P (fun s x0 x1 h => hP s s.host s.keys s.fab s.path x0 x1 s.out h), purgeFrm_keep P (fun s x0 x1 x2 x3 x4 x5 => hP s x0 x1 x2 x3 x4 s.mpu x5 rfl), restate_keep P (fun s x0 => hP s s.host s.keys s.fab x0 s.otn s.mpu s.out rfl), updPd_keep P (fun s x0 => hP s s.host s.keys s.fab x0 s.otn s.mpu s.out rfl), updQueue_keep P (fun s x0 => hP s s.host s.keys s.fab x0 s.otn s.mpu s.out rfl), hP] | (with_reducible refine (keep (fun _ _ => by (repeat' (first | with_reducible rfl | split | simp only [egrFree_keep P (fun s x0 x1 h => hP s s.host s.keys s.fab x0 s.otn x1 s.out h), playClear_keep P (fun s x0 x1 h => hP s s.host s.keys s.fab s.path x0 x1 s.out h), purgeFrm_keep P (fun s x0 x1 x2 x3 x4 x5 => hP s x0 x1 x2 x3 x4 s.mpu x5 rfl), restate_keep P (fun s x0 => hP s s.host s.keys s.fab x0 s.otn s.mpu s.out rfl), updPd_keep P (fun s x0 => hP s s.host s.keys s.fab x0 s.otn s.mpu s.out rfl), updQueue_keep P (fun s x0 => hP s s.host s.keys s.fab x0 s.otn s.mpu s.out rfl), hP])))).trans ?_) | (with_reducible refine (keep2 (fun _ _ => by (repeat' (first | with_reducible rfl | split | simp only [egrFree_keep P (fun s x0 x1 h => hP s s.host s.keys s.fab x0 s.otn x1 s.out h), playClear_keep P (fun s x0 x1 h => hP s s.host s.keys s.fab s.path x0 x1 s.out h), purgeFrm_keep P (fun s x0 x1 x2 x3 x4 x5 => hP s x0 x1 x2 x3 x4 s.mpu x5 rfl), restate_keep P (fun s x0 => hP s s.host s.keys s.fab x0 s.otn s.mpu s.out rfl), updPd_keep P (fun s x0 => hP s s.host s.keys s.fab x0 s.otn s.mpu s.out rfl), updQueue_keep P (fun s x0 => hP s s.host s.keys s.fab x0 s.otn s.mpu s.out rfl), hP])))).trans ?_))))).trans ?_) | (with_reducible refine (keep2 (fun _ _ => by (repeat' (first | with_reducible rfl | split | simp only [egrFree_keep P (fun s x0 x1 h => hP s s.host s.keys s.fab x0 s.otn x1 s.out h), playClear_keep P (fun s x0 x1 h => hP s s.host s.keys s.fab s.path x0 x1 s.out h), purgeFrm_keep P (fun s x0 x1 x2 x3 x4 x5 => hP s x0 x1 x2 x3 x4 s.mpu x5 rfl), restate_keep P (fun s x0 => hP s s.host s.keys s.fab x0 s.otn s.mpu s.out rfl), updPd_keep P (fun s x0 => hP s s.host s.keys s.fab x0 s.otn s.mpu s.out rfl), updQueue_keep P (fun s x0 => hP s s.host s.keys s.fab x0 s.otn s.mpu s.out rfl), hP] | (with_reducible refine (keep (fun _ _ => by (repeat' (first | with_reducible rfl | split | simp only [egrFree_keep P (fun s x0 x1 h => hP s s.host s.keys s.fab x0 s.otn x1 s.out h), playClear_keep P (fun s x0 x1 h => hP s s.host s.keys s.fab s.path x0 x1 s.out h), purgeFrm_keep P (fun s x0 x1 x2 x3 x4 x5 => hP s x0 x1 x2 x3 x4 s.mpu x5 rfl), restate_keep P (fun s x0 => hP s s.host s.keys s.fab x0 s.otn s.mpu s.out rfl), updPd_keep P (fun s x0 => hP s s.host s.keys s.fab x0 s.otn s.mpu s.out rfl), updQueue_keep P (fun s x0 => hP s s.host s.keys s.fab x0 s.otn s.mpu s.out rfl), hP])))).trans ?_) | (with_reducible refine (keep2 (fun _ _ => by (repeat' (first | with_reducible rfl | split | simp only [egrFree_keep P (fun s x0 x1 h => hP s s.host s.keys s.fab x0 s.otn x1 s.out h), playClear_keep P (fun s x0 x1 h => hP s s.host s.keys s.fab s.path x0 x1 s.out h), purgeFrm_keep P (fun s x0 x1 x2 x3 x4 x5 => hP s x0 x1 x2 x3 x4 s.mpu x5 rfl), restate_keep P (fun s x0 => hP s s.host s.keys s.fab x0 s.otn s.mpu s.out rfl), updPd_keep P (fun s x0 => hP s s.host s.keys s.fab x0 s.otn s.mpu s.out rfl), updQueue_keep P (fun s x0 => hP s s.host s.keys s.fab x0 s.otn s.mpu s.out rfl), hP])))).trans ?_))))).trans ?_))

theorem chuckIsolate_keep {β : Type} (P : State → β) (hP : ∀ s x0 x1 x2 x3 x4, P { s with power := x0, host := x1, keys := x2, otn := x3, out := x4 } = P s) (b : Bool) (cause : Nat) (s : State) : P (chuckIsolate b cause s) = P s := by
  unfold chuckIsolate; repeat' (first | with_reducible rfl | split | simp only [countDomainReset_keep P (fun s x0 => hP s x0 s.host s.keys s.otn s.out), keyEvent_keep P (fun s x0 => hP s s.power s.host x0 s.otn s.out), setDomain_keep P (fun s x0 => hP s x0 s.host s.keys s.otn s.out), slotBad_keep P (fun s x0 x1 x2 x3 => hP s s.power x0 x1 x2 x3), hP] | (with_reducible refine (keep (fun _ _ => by (repeat' (first | with_reducible rfl | split | simp only [countDomainReset_keep P (fun s x0 => hP s x0 s.host s.keys s.otn s.out), keyEvent_keep P (fun s x0 => hP s s.power s.host x0 s.otn s.out), setDomain_keep P (fun s x0 => hP s x0 s.host s.keys s.otn s.out), slotBad_keep P (fun s x0 x1 x2 x3 => hP s s.power x0 x1 x2 x3), hP])))).trans ?_) | (with_reducible refine (keep2 (fun _ _ => by (repeat' (first | with_reducible rfl | split | simp only [countDomainReset_keep P (fun s x0 => hP s x0 s.host s.keys s.otn s.out), keyEvent_keep P (fun s x0 => hP s s.power s.host x0 s.otn s.out), setDomain_keep P (fun s x0 => hP s x0 s.host s.keys s.otn s.out), slotBad_keep P (fun s x0 x1 x2 x3 => hP s s.power x0 x1 x2 x3), hP])))).trans ?_))

theorem chuckRestarted_keep {β : Type} (P : State → β) (hP : ∀ s x0, P { s with keys := x0 } = P s) (b : Bool) (s : State) : P (chuckRestarted b s) = P s := by
  unfold chuckRestarted; (repeat' split) <;> simp only [hP]

theorem chuckRebuilt_keep {β : Type} (P : State → β) (hP : ∀ s x0, P { s with keys := x0 } = P s) (b : Bool) (s : State) : P (chuckRebuilt b s) = P s := by
  unfold chuckRebuilt; (repeat' split) <;> simp only [hP]

theorem setCtl_keep {β : Type} (P : State → β) (hP : ∀ s x0, P { s with ctl := x0 } = P s) (b : Bool) (c : CtlState) (s : State) : P (setCtl b c s) = P s := by
  unfold setCtl; (repeat' split) <;> simp only [hP]

theorem failOver_keep {β : Type} (P : State → β) (hP : ∀ s x0 x1, P { s with power := x0, ctl := x1 } = P s) (s : State) : P (failOver s) = P s := by
  unfold failOver; dsimp only; (repeat' split) <;> simp only [setCtl_keep P (fun s x0 => hP s s.power x0), setDomain_keep P (fun s x0 => hP s x0 s.ctl), hP]

theorem logController_keep {β : Type} (P : State → β) (hP : ∀ s x0 x1 x2, P { s with host := x0, rest := x1, out := x2 } = P s) (b : Bool) (s : State) : P (logController b s) = P s := by
  unfold logController; (repeat' split) <;> simp only [logEntry_keep P hP, hP]

theorem toDiagnosis_keep {β : Type} (P : State → β) (hP : ∀ s x0 x1 x2 x3, P { s with ctl := x0, host := x1, rest := x2, out := x3 } = P s) (b : Bool) (s : State) : P (toDiagnosis b s) = P s := by
  unfold toDiagnosis; (repeat' split) <;> simp only [logController_keep P (fun s x0 x1 x2 => hP s s.ctl x0 x1 x2), setCtl_keep P (fun s x0 => hP s x0 s.host s.rest s.out), hP]

theorem becomeActive_keep {β : Type} (P : State → β) (hP : ∀ s x0 x1 x2 x3 x4, P { s with power := x0, ctl := x1, host := x2, rest := x3, out := x4 } = P s) (b : Bool) (s : State) : P (becomeActive b s) = P s := by
  unfold becomeActive; (repeat' split) <;> simp only [post_keep P (fun s x0 x1 => hP s s.power s.ctl x0 s.rest x1), setCtl_keep P (fun s x0 => hP s s.power x0 s.host s.rest s.out), setDomain_keep P (fun s x0 => hP s x0 s.ctl s.host s.rest s.out), signalVector_keep P (fun s x0 x1 => hP s s.power s.ctl x0 s.rest x1), toDiagnosis_keep P (fun s x0 x1 x2 x3 => hP s s.power x0 x1 x2 x3), hP]

theorem startDone_keep {β : Type} (P : State → β) (hP : ∀ s x0 x1 x2 x3 x4, P { s with power := x0, ctl := x1, host := x2, rest := x3, out := x4 } = P s) (ok : Bool) (s : State) : P (startDone ok s) = P s := by
  unfold startDone; (repeat' split) <;> simp only [becomeActive_keep P hP, setCtl_keep P (fun s x0 => hP s s.power x0 s.host s.rest s.out), setDomain_keep P (fun s x0 => hP s x0 s.ctl s.host s.rest s.out), toDiagnosis_keep P (fun s x0 x1 x2 x3 => hP s s.power x0 x1 x2 x3), hP]

theorem ctlDiagnosed_keep {β : Type} (P : State → β) (hP : ∀ s x0 x1 x2 x3 x4, P { s with power := x0, ctl := x1, host := x2, rest := x3, out := x4 } = P s) (b pass : Bool) (s : State) : P (ctlDiagnosed b pass s) = P s := by
  unfold ctlDiagnosed; dsimp only; (repeat' split) <;> simp only [becomeActive_keep P hP, logController_keep P (fun s x0 x1 x2 => hP s s.power s.ctl x0 x1 x2), setCtl_keep P (fun s x0 => hP s s.power x0 s.host s.rest s.out), setDomain_keep P (fun s x0 => hP s x0 s.ctl s.host s.rest s.out), toDiagnosis_keep P (fun s x0 x1 x2 x3 => hP s s.power x0 x1 x2 x3), hP]

theorem closeStaging_keep {β : Type} (P : State → β) (hP : ∀ s x0 x1, P { s with time := x0, ctl := x1 } = P s) (k : Nat) (s : State) : P (closeStaging k s) = P s := by
  unfold closeStaging; (repeat' split) <;> simp only [hP]

theorem flr_keep {β : Type} (P : State → β) (hP : ∀ s x0 x1 x2 x3, P { s with time := x0, ctl := x1, host := x2, path := x3 } = P s) (s : State) : P (flr s) = P s := by
  unfold flr; repeat' (first | with_reducible rfl | split | simp only [closeStaging_keep P (fun s x0 x1 => hP s x0 x1 s.host s.path), hP] | (with_reducible refine (keep (fun _ _ => by (repeat' (first | with_reducible rfl | split | simp only [closeStaging_keep P (fun s x0 x1 => hP s x0 x1 s.host s.path), hP])))).trans ?_) | (with_reducible refine (keep2 (fun _ _ => by (repeat' (first | with_reducible rfl | split | simp only [closeStaging_keep P (fun s x0 x1 => hP s x0 x1 s.host s.path), hP])))).trans ?_))

theorem ringZero_keep {β : Type} (P : State → β) (hP : ∀ s x0, P { s with host := x0 } = P s) (s : State) : P (ringZero s) = P s := by
  unfold ringZero; (repeat' split) <;> simp only [updRing_keep P hP, hP]

theorem clusterReset_keep {β : Type} (P : State → β) (hP : ∀ s x0 x1, P { s with cls := x0, path := x1 } = P s) (c : Nat) (s : State) : P (clusterReset c s) = P s := by
  unfold clusterReset; (repeat' split) <;> simp only [hP]

theorem domainReset_keep {β : Type} (P : State → β) (hP : ∀ s x0 x1 x2 x3 x4 x5 x6 x7 x8 x9 x10 x11 x12, Memory.wf x11.hbm = Memory.wf s.mpu.hbm → P { s with time := x0, power := x1, ctl := x2, host := x3, rng := x4, rest := x5, keys := x6, cls := x7, fab := x8, path := x9, otn := x10, mpu := x11, out := x12 } = P s) (d cause : Nat) (s : State) : P (domainReset d cause s) = P s := by
  unfold domainReset; simp only [apply_ite P, bankReset_keep P (fun s x0 x1 x2 x3 x4 => hP s s.time x0 s.ctl x1 s.rng s.rest s.keys s.cls x2 x3 s.otn s.mpu x4 rfl), chuckIsolate_keep P (fun s x0 x1 x2 x3 x4 => hP s s.time x0 s.ctl x1 s.rng s.rest x2 s.cls s.fab s.path x3 s.mpu x4 rfl), clusterReset_keep P (fun s x0 x1 => hP s s.time s.power s.ctl s.host s.rng s.rest s.keys x0 s.fab x1 s.otn s.mpu s.out rfl), countDomainReset_keep P (fun s x0 => hP s s.time x0 s.ctl s.host s.rng s.rest s.keys s.cls s.fab s.path s.otn s.mpu s.out rfl), failOver_keep P (fun s x0 x1 => hP s s.time x0 x1 s.host s.rng s.rest s.keys s.cls s.fab s.path s.otn s.mpu s.out rfl), flr_keep P (fun s x0 x1 x2 x3 => hP s x0 s.power x1 x2 s.rng s.rest s.keys s.cls s.fab x3 s.otn s.mpu s.out rfl), halfReset_keep P (fun s x0 x1 => hP s s.time x0 s.ctl s.host x1 s.rest s.keys s.cls s.fab s.path s.otn s.mpu s.out rfl), isolateSpindle_keep P (fun s x0 x1 x2 x3 x4 x5 x6 x7 h => hP s s.time x0 s.ctl x1 x2 x3 s.keys s.cls x4 x5 s.otn x6 x7 h), lockstepRestart_keep P (fun s x0 x1 x2 => hP s s.time x0 s.ctl s.host s.rng s.rest s.keys s.cls x1 x2 s.otn s.mpu s.out rfl), ringZero_keep P (fun s x0 => hP s s.time s.power s.ctl x0 s.rng s.rest s.keys s.cls s.fab s.path s.otn s.mpu s.out rfl), setCtl_keep P (fun s x0 => hP s s.time s.power x0 s.host s.rng s.rest s.keys s.cls s.fab s.path s.otn s.mpu s.out rfl), setDomain_keep P (fun s x0 => hP s s.time x0 s.ctl s.host s.rng s.rest s.keys s.cls s.fab s.path s.otn s.mpu s.out rfl), writeBackAll_keep P (fun s x0 x1 x2 x3 h => hP s s.time s.power s.ctl x0 s.rng x1 s.keys s.cls s.fab s.path s.otn x2 x3 h), hP, ite_self]

theorem domainRestarted_keep {β : Type} (P : State → β) (hP : ∀ s x0 x1 x2, P { s with power := x0, keys := x1, cls := x2 } = P s) (d : Nat) (s : State) : P (domainRestarted d s) = P s := by
  unfold domainRestarted; (repeat' split) <;> simp only [chuckRestarted_keep P (fun s x0 => hP s s.power x0 s.cls), lanesSettle_keep P (fun s x0 => hP s x0 s.keys s.cls), setDomain_keep P (fun s x0 => hP s x0 s.keys s.cls), hP]

theorem drainStart_keep {β : Type} (P : State → β) (hP : ∀ s x0 x1, P { s with power := x0, path := x1 } = P s) (cause : Nat) (domains ports : List Nat) (s : State) : P (drainStart cause domains ports s) = P s := by
  unfold drainStart; repeat' (first | with_reducible rfl | split | simp only [reline_keep P (fun s x0 => hP s s.power x0), restate_keep P (fun s x0 => hP s s.power x0), setDomain_keep P (fun s x0 => hP s x0 s.path), updPd_keep P (fun s x0 => hP s s.power x0), hP] | (with_reducible refine (keep (fun _ _ => by (repeat' (first | with_reducible rfl | split | simp only [reline_keep P (fun s x0 => hP s s.power x0), restate_keep P (fun s x0 => hP s s.power x0), setDomain_keep P (fun s x0 => hP s x0 s.path), updPd_keep P (fun s x0 => hP s s.power x0), hP] | (with_reducible refine (keep (fun _ _ => by (repeat' (first | with_reducible rfl | split | simp only [reline_keep P (fun s x0 => hP s s.power x0), restate_keep P (fun s x0 => hP s s.power x0), setDomain_keep P (fun s x0 => hP s x0 s.path), updPd_keep P (fun s x0 => hP s s.power x0), hP])))).trans ?_) | (with_reducible refine (keep2 (fun _ _ => by (repeat' (first | with_reducible rfl | split | simp only [reline_keep P (fun s x0 => hP s s.power x0), restate_keep P (fun s x0 => hP s s.power x0), setDomain_keep P (fun s x0 => hP s x0 s.path), updPd_keep P (fun s x0 => hP s s.power x0), hP])))).trans ?_))))).trans ?_) | (with_reducible refine (keep2 (fun _ _ => by (repeat' (first | with_reducible rfl | split | simp only [reline_keep P (fun s x0 => hP s s.power x0), restate_keep P (fun s x0 => hP s s.power x0), setDomain_keep P (fun s x0 => hP s x0 s.path), updPd_keep P (fun s x0 => hP s s.power x0), hP] | (with_reducible refine (keep (fun _ _ => by (repeat' (first | with_reducible rfl | split | simp only [reline_keep P (fun s x0 => hP s s.power x0), restate_keep P (fun s x0 => hP s s.power x0), setDomain_keep P (fun s x0 => hP s x0 s.path), updPd_keep P (fun s x0 => hP s s.power x0), hP])))).trans ?_) | (with_reducible refine (keep2 (fun _ _ => by (repeat' (first | with_reducible rfl | split | simp only [reline_keep P (fun s x0 => hP s s.power x0), restate_keep P (fun s x0 => hP s s.power x0), setDomain_keep P (fun s x0 => hP s x0 s.path), updPd_keep P (fun s x0 => hP s s.power x0), hP])))).trans ?_))))).trans ?_))

theorem serviceGoes_keep {β : Type} (P : State → β) (hP : ∀ s x0 x1 x2 x3 x4 x5, P { s with power := x0, ctl := x1, host := x2, keys := x3, otn := x4, out := x5 } = P s) (s : State) : P (serviceGoes s) = P s := by
  unfold serviceGoes; (repeat' split) <;> simp only [chuckIsolate_keep P (fun s x0 x1 x2 x3 x4 => hP s x0 s.ctl x1 x2 x3 x4), failOver_keep P (fun s x0 x1 => hP s x0 x1 s.host s.keys s.otn s.out), hP]

theorem drainReset_keep {β : Type} (P : State → β) (hP : ∀ s x0 x1 x2 x3 x4 x5 x6 x7 x8 x9 x10 x11 x12, Memory.wf x11.hbm = Memory.wf s.mpu.hbm → P { s with time := x0, power := x1, ctl := x2, host := x3, rng := x4, rest := x5, keys := x6, cls := x7, fab := x8, path := x9, otn := x10, mpu := x11, out := x12 } = P s) (dr : Drain) (s : State) : P (drainReset dr s) = P s := by
  unfold drainReset; repeat' (first | with_reducible rfl | split | simp only [clearPd_keep P (fun s x0 x1 x2 x3 x4 x5 x6 h => hP s s.time s.power s.ctl x0 s.rng s.rest x1 s.cls x2 x3 x4 x5 x6 h), countDomainReset_keep P (fun s x0 => hP s s.time x0 s.ctl s.host s.rng s.rest s.keys s.cls s.fab s.path s.otn s.mpu s.out rfl), domainReset_keep P hP, lanesSettle_keep P (fun s x0 => hP s s.time x0 s.ctl s.host s.rng s.rest s.keys s.cls s.fab s.path s.otn s.mpu s.out rfl), setDomain_keep P (fun s x0 => hP s s.time x0 s.ctl s.host s.rng s.rest s.keys s.cls s.fab s.path s.otn s.mpu s.out rfl), writeBackAll_keep P (fun s x0 x1 x2 x3 h => hP s s.time s.power s.ctl x0 s.rng x1 s.keys s.cls s.fab s.path s.otn x2 x3 h), hP] | (with_reducible refine (keep (fun _ _ => by (repeat' (first | with_reducible rfl | split | simp only [clearPd_keep P (fun s x0 x1 x2 x3 x4 x5 x6 h => hP s s.time s.power s.ctl x0 s.rng s.rest x1 s.cls x2 x3 x4 x5 x6 h), countDomainReset_keep P (fun s x0 => hP s s.time x0 s.ctl s.host s.rng s.rest s.keys s.cls s.fab s.path s.otn s.mpu s.out rfl), domainReset_keep P hP, lanesSettle_keep P (fun s x0 => hP s s.time x0 s.ctl s.host s.rng s.rest s.keys s.cls s.fab s.path s.otn s.mpu s.out rfl), setDomain_keep P (fun s x0 => hP s s.time x0 s.ctl s.host s.rng s.rest s.keys s.cls s.fab s.path s.otn s.mpu s.out rfl), writeBackAll_keep P (fun s x0 x1 x2 x3 h => hP s s.time s.power s.ctl x0 s.rng x1 s.keys s.cls s.fab s.path s.otn x2 x3 h), hP])))).trans ?_) | (with_reducible refine (keep2 (fun _ _ => by (repeat' (first | with_reducible rfl | split | simp only [clearPd_keep P (fun s x0 x1 x2 x3 x4 x5 x6 h => hP s s.time s.power s.ctl x0 s.rng s.rest x1 s.cls x2 x3 x4 x5 x6 h), countDomainReset_keep P (fun s x0 => hP s s.time x0 s.ctl s.host s.rng s.rest s.keys s.cls s.fab s.path s.otn s.mpu s.out rfl), domainReset_keep P hP, lanesSettle_keep P (fun s x0 => hP s s.time x0 s.ctl s.host s.rng s.rest s.keys s.cls s.fab s.path s.otn s.mpu s.out rfl), setDomain_keep P (fun s x0 => hP s s.time x0 s.ctl s.host s.rng s.rest s.keys s.cls s.fab s.path s.otn s.mpu s.out rfl), writeBackAll_keep P (fun s x0 x1 x2 x3 h => hP s s.time s.power s.ctl x0 s.rng x1 s.keys s.cls s.fab s.path s.otn x2 x3 h), hP])))).trans ?_))

theorem portsOpen_keep {β : Type} (P : State → β) (hP : ∀ s x0, P { s with path := x0 } = P s) (s : State) : P (portsOpen s) = P s := by
  unfold portsOpen; repeat' (first | with_reducible rfl | split | simp only [updPd_keep P hP, hP] | (with_reducible refine (keep (fun _ _ => by (repeat' (first | with_reducible rfl | split | simp only [updPd_keep P hP, hP])))).trans ?_) | (with_reducible refine (keep2 (fun _ _ => by (repeat' (first | with_reducible rfl | split | simp only [updPd_keep P hP, hP])))).trans ?_))

theorem drainComplete_keep {β : Type} (P : State → β) (hP : ∀ s x0 x1 x2 x3 x4 x5 x6 x7 x8 x9 x10 x11 x12, Memory.wf x11.hbm = Memory.wf s.mpu.hbm → P { s with time := x0, power := x1, ctl := x2, host := x3, rng := x4, rest := x5, keys := x6, cls := x7, fab := x8, path := x9, otn := x10, mpu := x11, out := x12 } = P s) (s : State) : P (drainComplete s) = P s := by
  unfold drainComplete; (repeat' split) <;> simp only [drainReset_keep P hP, hP]

theorem drainTimeout_keep {β : Type} (P : State → β) (hP : ∀ s x0 x1 x2 x3 x4 x5 x6 x7 x8 x9 x10 x11 x12, Memory.wf x11.hbm = Memory.wf s.mpu.hbm → P { s with time := x0, power := x1, ctl := x2, host := x3, rng := x4, rest := x5, keys := x6, cls := x7, fab := x8, path := x9, otn := x10, mpu := x11, out := x12 } = P s) (s : State) : P (drainTimeout s) = P s := by
  unfold drainTimeout; dsimp only; (repeat' split) <;> simp only [drainReset_keep P hP, logEntry_keep P (fun s x0 x1 x2 => hP s s.time s.power s.ctl x0 s.rng x1 s.keys s.cls s.fab s.path s.otn s.mpu x2 rfl), waitCycle_keep P (fun s x0 => hP s x0 s.power s.ctl s.host s.rng s.rest s.keys s.cls s.fab s.path s.otn s.mpu s.out rfl), hP]

end Sys2Proof.Machine
end

