-- ==== Sys2Proof/Laws/KeepZeroize.lean ====
section
/-! SUPPORT. What the operations and meanings of Machine/Zeroize.lean leave alone: `f_keep` says that whatever is read from
the state without looking at the components `f` may change is the same after `f`. -/
set_option linter.all false
namespace Sys2Proof.Machine

theorem zeroizeKeys_keep {β : Type} (P : State → β) (hP : ∀ s x0, P { s with keys := x0 } = P s) (s : State) : P (zeroizeKeys s) = P s := by
  unfold zeroizeKeys; (repeat' split) <;> simp only [hP]

theorem zeroizeKeks_keep {β : Type} (P : State → β) (hP : ∀ s x0 x1, P { s with rest := x0, keys := x1 } = P s) (s : State) : P (zeroizeKeks s) = P s := by
  unfold zeroizeKeks; (repeat' split) <;> simp only [hP]

theorem spindlesStop_keep {β : Type} (P : State → β) (hP : ∀ s x0 x1 x2 x3 x4 x5, P { s with host := x0, keys := x1, fab := x2, path := x3, otn := x4, out := x5 } = P s) (s : State) : P (spindlesStop s) = P s := by
  unfold spindlesStop; (repeat' split) <;> simp only [dispatch_keep P hP, hP]

theorem voidFrames_keep {β : Type} (P : State → β) (hP : ∀ s x0 x1 x2 x3 x4 x5, P { s with host := x0, keys := x1, fab := x2, path := x3, otn := x4, out := x5 } = P s) (p : Frm → Bool) (s : State) : P (voidFrames p s) = P s := by
  unfold voidFrames; repeat' (first | with_reducible rfl | split | simp only [dispatch_keep P hP, updFrm_keep P (fun s x0 => hP s s.host s.keys s.fab x0 s.otn s.out), hP] | (with_reducible refine (keep (fun _ _ => by (repeat' (first | with_reducible rfl | split | simp only [dispatch_keep P hP, updFrm_keep P (fun s x0 => hP s s.host s.keys s.fab x0 s.otn s.out), hP])))).trans ?_) | (with_reducible refine (keep2 (fun _ _ => by (repeat' (first | with_reducible rfl | split | simp only [dispatch_keep P hP, updFrm_keep P (fun s x0 => hP s s.host s.keys s.fab x0 s.otn s.out), hP])))).trans ?_))

theorem egressLost_keep {β : Type} (P : State → β) (hP : ∀ s x0 x1 x2, Memory.wf x1.hbm = Memory.wf s.mpu.hbm → P { s with path := x0, mpu := x1, out := x2 } = P s) (p : PD) (s : State) : P (egressLost p s) = P s := by
  unfold egressLost; repeat' (first | with_reducible rfl | split | simp only [egrFree_keep P (fun s x0 x1 h => hP s x0 x1 s.out h), memoryLoss_keep P (fun s x0 h => hP s s.path x0 s.out h), restate_keep P (fun s x0 => hP s x0 s.mpu s.out rfl), subFill_keep P (fun s x0 x1 => hP s x0 s.mpu x1 rfl), updPd_keep P (fun s x0 => hP s x0 s.mpu s.out rfl), updQueue_keep P (fun s x0 => hP s x0 s.mpu s.out rfl), hP] | (with_reducible refine (keep (fun _ _ => by (repeat' (first | with_reducible rfl | split | simp only [egrFree_keep P (fun s x0 x1 h => hP s x0 x1 s.out h), memoryLoss_keep P (fun s x0 h => hP s s.path x0 s.out h), restate_keep P (fun s x0 => hP s x0 s.mpu s.out rfl), subFill_keep P (fun s x0 x1 => hP s x0 s.mpu x1 rfl), updPd_keep P (fun s x0 => hP s x0 s.mpu s.out rfl), updQueue_keep P (fun s x0 => hP s x0 s.mpu s.out rfl), hP] | (with_reducible refine (keep (fun _ _ => by (repeat' (first | with_reducible rfl | split | simp only [egrFree_keep P (fun s x0 x1 h => hP s x0 x1 s.out h), memoryLoss_keep P (fun s x0 h => hP s s.path x0 s.out h), restate_keep P (fun s x0 => hP s x0 s.mpu s.out rfl), subFill_keep P (fun s x0 x1 => hP s x0 s.mpu x1 rfl), updPd_keep P (fun s x0 => hP s x0 s.mpu s.out rfl), updQueue_keep P (fun s x0 => hP s x0 s.mpu s.out rfl), hP])))).trans ?_) | (with_reducible refine (keep2 (fun _ _ => by (repeat' (first | with_reducible rfl | split | simp only [egrFree_keep P (fun s x0 x1 h => hP s x0 x1 s.out h), memoryLoss_keep P (fun s x0 h => hP s s.path x0 s.out h), restate_keep P (fun s x0 => hP s x0 s.mpu s.out rfl), subFill_keep P (fun s x0 x1 => hP s x0 s.mpu x1 rfl), updPd_keep P (fun s x0 => hP s x0 s.mpu s.out rfl), updQueue_keep P (fun s x0 => hP s x0 s.mpu s.out rfl), hP])))).trans ?_))))).trans ?_) | (with_reducible refine (keep2 (fun _ _ => by (repeat' (first | with_reducible rfl | split | simp only [egrFree_keep P (fun s x0 x1 h => hP s x0 x1 s.out h), memoryLoss_keep P (fun s x0 h => hP s s.path x0 s.out h), restate_keep P (fun s x0 => hP s x0 s.mpu s.out rfl), subFill_keep P (fun s x0 x1 => hP s x0 s.mpu x1 rfl), updPd_keep P (fun s x0 => hP s x0 s.mpu s.out rfl), updQueue_keep P (fun s x0 => hP s x0 s.mpu s.out rfl), hP] | (with_reducible refine (keep (fun _ _ => by (repeat' (first | with_reducible rfl | split | simp only [egrFree_keep P (fun s x0 x1 h => hP s x0 x1 s.out h), memoryLoss_keep P (fun s x0 h => hP s s.path x0 s.out h), restate_keep P (fun s x0 => hP s x0 s.mpu s.out rfl), subFill_keep P (fun s x0 x1 => hP s x0 s.mpu x1 rfl), updPd_keep P (fun s x0 => hP s x0 s.mpu s.out rfl), updQueue_keep P (fun s x0 => hP s x0 s.mpu s.out rfl), hP])))).trans ?_) | (with_reducible refine (keep2 (fun _ _ => by (repeat' (first | with_reducible rfl | split | simp only [egrFree_keep P (fun s x0 x1 h => hP s x0 x1 s.out h), memoryLoss_keep P (fun s x0 h => hP s s.path x0 s.out h), restate_keep P (fun s x0 => hP s x0 s.mpu s.out rfl), subFill_keep P (fun s x0 x1 => hP s x0 s.mpu x1 rfl), updPd_keep P (fun s x0 => hP s x0 s.mpu s.out rfl), updQueue_keep P (fun s x0 => hP s x0 s.mpu s.out rfl), hP])))).trans ?_))))).trans ?_))

theorem playLost_keep {β : Type} (P : State → β) (hP : ∀ s x0 x1, Memory.wf x1.hbm = Memory.wf s.mpu.hbm → P { s with otn := x0, mpu := x1 } = P s) (s : State) : P (playLost s) = P s := by
  unfold playLost; (repeat' split) <;> simp only [memoryLoss_keep P (fun s x0 h => hP s s.otn x0 h), hP]

theorem sessionsZeroized_keep {β : Type} (P : State → β) (hP : ∀ s x0 x1 x2 x3, P { s with time := x0, ctl := x1, urz := x2, cls := x3 } = P s) (s : State) : P (sessionsZeroized s) = P s := by
  unfold sessionsZeroized; (repeat' split) <;> simp only [hP]

theorem rotationStop_keep {β : Type} (P : State → β) (hP : ∀ s x0 x1 x2 x3 x4 x5 x6, Memory.wf x5.hbm = Memory.wf s.mpu.hbm → P { s with power := x0, host := x1, rng := x2, rest := x3, fab := x4, mpu := x5, out := x6 } = P s) (s : State) : P (rotationStop s) = P s := by
  unfold rotationStop; dsimp only; (repeat' split) <;> simp only [toSpare_keep P (fun s x0 x1 x2 x3 x4 x5 h => hP s x0 x1 s.rng x2 x3 x4 x5 h), hP]

theorem masksClear_keep {β : Type} (P : State → β) (hP : ∀ s x0, P { s with fab := x0 } = P s) (s : State) : P (masksClear s) = P s := by
  unfold masksClear; (repeat' split) <;> simp only [hP]

theorem memoryZeroized_keep {β : Type} (P : State → β) (hP : ∀ s x0 x1 x2, Memory.wf x2.hbm = Memory.wf s.mpu.hbm → P { s with rng := x0, keys := x1, mpu := x2 } = P s) (s : State) : P (memoryZeroized s) = P s := by
  unfold memoryZeroized; (repeat' split) <;> simp only [mpuClear_keep P hP, hP]

theorem zeroizeWhole_keep {β : Type} (P : State → β) (hP : ∀ s x0 x1 x2 x3 x4 x5 x6 x7 x8 x9 x10 x11 x12 x13, Memory.wf x12.hbm = Memory.wf s.mpu.hbm → P { s with time := x0, power := x1, ctl := x2, host := x3, urz := x4, rng := x5, rest := x6, keys := x7, cls := x8, fab := x9, path := x10, otn := x11, mpu := x12, out := x13 } = P s) (s : State) : P (zeroizeWhole s) = P s := by
  unfold zeroizeWhole; repeat' (first | with_reducible rfl | split | simp only [drainReset_keep P (fun s x0 x1 x2 x3 x4 x5 x6 x7 x8 x9 x10 x11 x12 h => hP s x0 x1 x2 x3 s.urz x4 x5 x6 x7 x8 x9 x10 x11 x12 h), egressLost_keep P (fun s x0 x1 x2 h => hP s s.time s.power s.ctl s.host s.urz s.rng s.rest s.keys s.cls s.fab x0 s.otn x1 x2 h), masksClear_keep P (fun s x0 => hP s s.time s.power s.ctl s.host s.urz s.rng s.rest s.keys s.cls x0 s.path s.otn s.mpu s.out rfl), memoryZeroized_keep P (fun s x0 x1 x2 h => hP s s.time s.power s.ctl s.host s.urz x0 s.rest x1 s.cls s.fab s.path s.otn x2 s.out h), playLost_keep P (fun s x0 x1 h => hP s s.time s.power s.ctl s.host s.urz s.rng s.rest s.keys s.cls s.fab s.path x0 x1 s.out h), rngZeroize_keep P (fun s x0 x1 => hP s s.time s.power s.ctl s.host s.urz x0 s.rest s.keys s.cls s.fab s.path s.otn s.mpu x1 rfl), rotationStop_keep P (fun s x0 x1 x2 x3 x4 x5 x6 h => hP s s.time x0 s.ctl x1 s.urz x2 x3 s.keys s.cls x4 s.path s.otn x5 x6 h), sessionsZeroized_keep P (fun s x0 x1 x2 x3 => hP s x0 s.power x1 s.host x2 s.rng s.rest s.keys x3 s.fab s.path s.otn s.mpu s.out rfl), spindlesStop_keep P (fun s x0 x1 x2 x3 x4 x5 => hP s s.time s.power s.ctl x0 s.urz s.rng s.rest x1 s.cls x2 x3 x4 s.mpu x5 rfl), voidFrames_keep P (fun s x0 x1 x2 x3 x4 x5 => hP s s.time s.power s.ctl x0 s.urz s.rng s.rest x1 s.cls x2 x3 x4 s.mpu x5 rfl), zeroizeKeks_keep P (fun s x0 x1 => hP s s.time s.power s.ctl s.host s.urz s.rng x0 x1 s.cls s.fab s.path s.otn s.mpu s.out rfl), zeroizeKeys_keep P (fun s x0 => hP s s.time s.power s.ctl s.host s.urz s.rng s.rest x0 s.cls s.fab s.path s.otn s.mpu s.out rfl), hP] | (with_reducible refine (keep (fun _ _ => by (repeat' (first | with_reducible rfl | split | simp only [drainReset_keep P (fun s x0 x1 x2 x3 x4 x5 x6 x7 x8 x9 x10 x11 x12 h => hP s x0 x1 x2 x3 s.urz x4 x5 x6 x7 x8 x9 x10 x11 x12 h), egressLost_keep P (fun s x0 x1 x2 h => hP s s.time s.power s.ctl s.host s.urz s.rng s.rest s.keys s.cls s.fab x0 s.otn x1 x2 h), masksClear_keep P (fun s x0 => hP s s.time s.power s.ctl s.host s.urz s.rng s.rest s.keys s.cls x0 s.path s.otn s.mpu s.out rfl), memoryZeroized_keep P (fun s x0 x1 x2 h => hP s s.time s.power s.ctl s.host s.urz x0 s.rest x1 s.cls s.fab s.path s.otn x2 s.out h), playLost_keep P (fun s x0 x1 h => hP s s.time s.power s.ctl s.host s.urz s.rng s.rest s.keys s.cls s.fab s.path x0 x1 s.out h), rngZeroize_keep P (fun s x0 x1 => hP s s.time s.power s.ctl s.host s.urz x0 s.rest s.keys s.cls s.fab s.path s.otn s.mpu x1 rfl), rotationStop_keep P (fun s x0 x1 x2 x3 x4 x5 x6 h => hP s s.time x0 s.ctl x1 s.urz x2 x3 s.keys s.cls x4 s.path s.otn x5 x6 h), sessionsZeroized_keep P (fun s x0 x1 x2 x3 => hP s x0 s.power x1 s.host x2 s.rng s.rest s.keys x3 s.fab s.path s.otn s.mpu s.out rfl), spindlesStop_keep P (fun s x0 x1 x2 x3 x4 x5 => hP s s.time s.power s.ctl x0 s.urz s.rng s.rest x1 s.cls x2 x3 x4 s.mpu x5 rfl), voidFrames_keep P (fun s x0 x1 x2 x3 x4 x5 => hP s s.time s.power s.ctl x0 s.urz s.rng s.rest x1 s.cls x2 x3 x4 s.mpu x5 rfl), zeroizeKeks_keep P (fun s x0 x1 => hP s s.time s.power s.ctl s.host s.urz s.rng x0 x1 s.cls s.fab s.path s.otn s.mpu s.out rfl), zeroizeKeys_keep P (fun s x0 => hP s s.time s.power s.ctl s.host s.urz s.rng s.rest x0 s.cls s.fab s.path s.otn s.mpu s.out rfl), hP])))).trans ?_) | (with_reducible refine (keep2 (fun _ _ => by (repeat' (first | with_reducible rfl | split | simp only [drainReset_keep P (fun s x0 x1 x2 x3 x4 x5 x6 x7 x8 x9 x10 x11 x12 h => hP s x0 x1 x2 x3 s.urz x4 x5 x6 x7 x8 x9 x10 x11 x12 h), egressLost_keep P (fun s x0 x1 x2 h => hP s s.time s.power s.ctl s.host s.urz s.rng s.rest s.keys s.cls s.fab x0 s.otn x1 x2 h), masksClear_keep P (fun s x0 => hP s s.time s.power s.ctl s.host s.urz s.rng s.rest s.keys s.cls x0 s.path s.otn s.mpu s.out rfl), memoryZeroized_keep P (fun s x0 x1 x2 h => hP s s.time s.power s.ctl s.host s.urz x0 s.rest x1 s.cls s.fab s.path s.otn x2 s.out h), playLost_keep P (fun s x0 x1 h => hP s s.time s.power s.ctl s.host s.urz s.rng s.rest s.keys s.cls s.fab s.path x0 x1 s.out h), rngZeroize_keep P (fun s x0 x1 => hP s s.time s.power s.ctl s.host s.urz x0 s.rest s.keys s.cls s.fab s.path s.otn s.mpu x1 rfl), rotationStop_keep P (fun s x0 x1 x2 x3 x4 x5 x6 h => hP s s.time x0 s.ctl x1 s.urz x2 x3 s.keys s.cls x4 s.path s.otn x5 x6 h), sessionsZeroized_keep P (fun s x0 x1 x2 x3 => hP s x0 s.power x1 s.host x2 s.rng s.rest s.keys x3 s.fab s.path s.otn s.mpu s.out rfl), spindlesStop_keep P (fun s x0 x1 x2 x3 x4 x5 => hP s s.time s.power s.ctl x0 s.urz s.rng s.rest x1 s.cls x2 x3 x4 s.mpu x5 rfl), voidFrames_keep P (fun s x0 x1 x2 x3 x4 x5 => hP s s.time s.power s.ctl x0 s.urz s.rng s.rest x1 s.cls x2 x3 x4 s.mpu x5 rfl), zeroizeKeks_keep P (fun s x0 x1 => hP s s.time s.power s.ctl s.host s.urz s.rng x0 x1 s.cls s.fab s.path s.otn s.mpu s.out rfl), zeroizeKeys_keep P (fun s x0 => hP s s.time s.power s.ctl s.host s.urz s.rng s.rest x0 s.cls s.fab s.path s.otn s.mpu s.out rfl), hP])))).trans ?_))

theorem zeroizeData_keep {β : Type} (P : State → β) (hP : ∀ s x0 x1 x2 x3 x4 x5, P { s with host := x0, keys := x1, fab := x2, path := x3, otn := x4, out := x5 } = P s) (s : State) : P (zeroizeData s) = P s := by
  unfold zeroizeData; (repeat' split) <;> simp only [voidFrames_keep P hP, zeroizeKeys_keep P (fun s x0 => hP s s.host x0 s.fab s.path s.otn s.out), hP]

theorem logZeroize_keep {β : Type} (P : State → β) (hP : ∀ s x0 x1 x2, P { s with host := x0, rest := x1, out := x2 } = P s) (cause sensor : Nat) (s : State) : P (logZeroize cause sensor s) = P s := by
  unfold logZeroize; (repeat' split) <;> simp only [logEntry_keep P hP, hP]

theorem debugOff_keep {β : Type} (P : State → β) (hP : ∀ s x0 x1 x2 x3, P { s with power := x0, host := x1, rest := x2, out := x3 } = P s) (s : State) : P (debugOff s) = P s := by
  unfold debugOff; (repeat' split) <;> simp only [logEntry_keep P (fun s x0 x1 x2 => hP s s.power x0 x1 x2), setDomain_keep P (fun s x0 => hP s x0 s.host s.rest s.out), hP]

theorem lockNow_keep {β : Type} (P : State → β) (hP : ∀ s x0 x1 x2 x3 x4, P { s with power := x0, host := x1, rng := x2, rest := x3, out := x4 } = P s) (next : TamperState) (s : State) : P (lockNow next s) = P s := by
  unfold lockNow; dsimp only; (repeat' split) <;> simp only [debugOff_keep P (fun s x0 x1 x2 x3 => hP s x0 x1 s.rng x2 x3), logEntry_keep P (fun s x0 x1 x2 => hP s s.power x0 s.rng x1 x2), newChallenge_keep P (fun s x0 x1 => hP s s.power s.host x0 x1 s.out), tamperCount_keep P (fun s x0 => hP s s.power s.host s.rng x0 s.out), hP]

theorem pinZeroize_keep {β : Type} (P : State → β) (hP : ∀ s x0 x1 x2 x3 x4 x5 x6 x7 x8 x9 x10 x11 x12 x13, Memory.wf x12.hbm = Memory.wf s.mpu.hbm → P { s with time := x0, power := x1, ctl := x2, host := x3, urz := x4, rng := x5, rest := x6, keys := x7, cls := x8, fab := x9, path := x10, otn := x11, mpu := x12, out := x13 } = P s) (s : State) : P (pinZeroize s) = P s := by
  unfold pinZeroize; (repeat' split) <;> simp only [lockNow_keep P (fun s x0 x1 x2 x3 x4 => hP s s.time x0 s.ctl x1 s.urz x2 x3 s.keys s.cls s.fab s.path s.otn s.mpu x4 rfl), logZeroize_keep P (fun s x0 x1 x2 => hP s s.time s.power s.ctl x0 s.urz s.rng x1 s.keys s.cls s.fab s.path s.otn s.mpu x2 rfl), zeroizeWhole_keep P hP, hP]

theorem zeroizeDone_keep {β : Type} (P : State → β) (hP : ∀ s x0 x1, P { s with rest := x0, fab := x1 } = P s) (s : State) : P (zeroizeDone s) = P s := by
  unfold zeroizeDone; dsimp only; (repeat' split) <;> simp only [hP]

end Sys2Proof.Machine
end

