-- ==== Sys2Proof/Laws/KeepToolRest.lean ====
section
/-! SUPPORT. What the operations and meanings of Machine/ToolRest.lean leave alone: `f_keep` says that whatever is read from
the state without looking at the components `f` may change is the same after `f`. -/
set_option linter.all false
namespace Sys2Proof.Machine

theorem logAlarm_keep {β : Type} (P : State → β) (hP : ∀ s x0 x1 x2, P { s with host := x0, rest := x1, out := x2 } = P s) (n top : Nat) (s : State) : P (logAlarm n top s).2 = P s := by
  unfold logAlarm; (repeat' split) <;> simp only [logEntry_keep P hP, tamperCount_keep P (fun s x0 => hP s s.host x0 s.out), hP]

theorem logAlarms_keep {β : Type} (P : State → β) (hP : ∀ s x0 x1 x2, P { s with host := x0, rest := x1, out := x2 } = P s) (top : Nat) (a0 : List Nat) (a1 : State) : P (logAlarms top a0 a1).2 = P a1 := by
  induction a0 generalizing a1 with
  | nil => rfl
  | cons n t ih => unfold logAlarms; simp only [ih, logAlarm_keep P hP, hP]

theorem alertNow_keep {β : Type} (P : State → β) (hP : ∀ s x0 x1 x2 x3 x4 x5 x6, P { s with host := x0, urz := x1, rest := x2, keys := x3, path := x4, otn := x5, out := x6 } = P s) (n top seq : Nat) (s : State) : P (alertNow n top seq s) = P s := by
  unfold alertNow; (repeat' split) <;> simp only [notice_keep P (fun s x0 x1 x2 x3 x4 x5 => hP s x0 x1 s.rest x2 x3 x4 x5), post_keep P (fun s x0 x1 => hP s x0 s.urz s.rest s.keys s.path s.otn x1), hP]

theorem decide__keep {β : Type} (P : State → β) (hP : ∀ s x0 x1 x2 x3 x4 x5 x6 x7 x8 x9 x10 x11 x12 x13, Memory.wf x12.hbm = Memory.wf s.mpu.hbm → P { s with time := x0, power := x1, ctl := x2, host := x3, urz := x4, rng := x5, rest := x6, keys := x7, cls := x8, fab := x9, path := x10, otn := x11, mpu := x12, out := x13 } = P s) (l : List Nat) (s : State) : P (decide_ l s) = P s := by
  unfold decide_; repeat' (first | with_reducible rfl | split | simp only [alertNow_keep P (fun s x0 x1 x2 x3 x4 x5 x6 => hP s s.time s.power s.ctl x0 x1 s.rng x2 x3 s.cls s.fab x4 x5 s.mpu x6 rfl), lockNow_keep P (fun s x0 x1 x2 x3 x4 => hP s s.time x0 s.ctl x1 s.urz x2 x3 s.keys s.cls s.fab s.path s.otn s.mpu x4 rfl), logAlarms_keep P (fun s x0 x1 x2 => hP s s.time s.power s.ctl x0 s.urz s.rng x1 s.keys s.cls s.fab s.path s.otn s.mpu x2 rfl), logZeroize_keep P (fun s x0 x1 x2 => hP s s.time s.power s.ctl x0 s.urz s.rng x1 s.keys s.cls s.fab s.path s.otn s.mpu x2 rfl), tamperCount_keep P (fun s x0 => hP s s.time s.power s.ctl s.host s.urz s.rng x0 s.keys s.cls s.fab s.path s.otn s.mpu s.out rfl), zeroizeWhole_keep P hP, hP] | (with_reducible refine (keep (fun _ _ => by (repeat' (first | with_reducible rfl | split | simp only [alertNow_keep P (fun s x0 x1 x2 x3 x4 x5 x6 => hP s s.time s.power s.ctl x0 x1 s.rng x2 x3 s.cls s.fab x4 x5 s.mpu x6 rfl), lockNow_keep P (fun s x0 x1 x2 x3 x4 => hP s s.time x0 s.ctl x1 s.urz x2 x3 s.keys s.cls s.fab s.path s.otn s.mpu x4 rfl), logAlarms_keep P (fun s x0 x1 x2 => hP s s.time s.power s.ctl x0 s.urz s.rng x1 s.keys s.cls s.fab s.path s.otn s.mpu x2 rfl), logZeroize_keep P (fun s x0 x1 x2 => hP s s.time s.power s.ctl x0 s.urz s.rng x1 s.keys s.cls s.fab s.path s.otn s.mpu x2 rfl), tamperCount_keep P (fun s x0 => hP s s.time s.power s.ctl s.host s.urz s.rng x0 s.keys s.cls s.fab s.path s.otn s.mpu s.out rfl), zeroizeWhole_keep P hP, hP])))).trans ?_) | (with_reducible refine (keep2 (fun _ _ => by (repeat' (first | with_reducible rfl | split | simp only [alertNow_keep P (fun s x0 x1 x2 x3 x4 x5 x6 => hP s s.time s.power s.ctl x0 x1 s.rng x2 x3 s.cls s.fab x4 x5 s.mpu x6 rfl), lockNow_keep P (fun s x0 x1 x2 x3 x4 => hP s s.time x0 s.ctl x1 s.urz x2 x3 s.keys s.cls s.fab s.path s.otn s.mpu x4 rfl), logAlarms_keep P (fun s x0 x1 x2 => hP s s.time s.power s.ctl x0 s.urz s.rng x1 s.keys s.cls s.fab s.path s.otn s.mpu x2 rfl), logZeroize_keep P (fun s x0 x1 x2 => hP s s.time s.power s.ctl x0 s.urz s.rng x1 s.keys s.cls s.fab s.path s.otn s.mpu x2 rfl), tamperCount_keep P (fun s x0 => hP s s.time s.power s.ctl s.host s.urz s.rng x0 s.keys s.cls s.fab s.path s.otn s.mpu s.out rfl), zeroizeWhole_keep P hP, hP])))).trans ?_))

theorem windowClose_keep {β : Type} (P : State → β) (hP : ∀ s x0 x1 x2 x3 x4 x5 x6 x7 x8 x9 x10 x11 x12 x13, Memory.wf x12.hbm = Memory.wf s.mpu.hbm → P { s with time := x0, power := x1, ctl := x2, host := x3, urz := x4, rng := x5, rest := x6, keys := x7, cls := x8, fab := x9, path := x10, otn := x11, mpu := x12, out := x13 } = P s) (s : State) : P (windowClose s) = P s := by
  unfold windowClose; (repeat' split) <;> simp only [decide__keep P hP, waitCycle_keep P (fun s x0 => hP s x0 s.power s.ctl s.host s.urz s.rng s.rest s.keys s.cls s.fab s.path s.otn s.mpu s.out rfl), hP]

theorem pinZeroizeVbat_keep {β : Type} (P : State → β) (hP : ∀ s x0 x1 x2 x3 x4, P { s with power := x0, host := x1, rng := x2, rest := x3, out := x4 } = P s) (s : State) : P (pinZeroizeVbat s) = P s := by
  unfold pinZeroizeVbat; (repeat' split) <;> simp only [lockNow_keep P hP, logZeroize_keep P (fun s x0 x1 x2 => hP s s.power x0 s.rng x1 x2), hP]

theorem crystalAlarm_keep {β : Type} (P : State → β) (hP : ∀ s x0, P { s with rest := x0 } = P s) (n : Nat) (s : State) : P (crystalAlarm n s) = P s := by
  unfold crystalAlarm; (repeat' split) <;> simp only [hP]

theorem sensorClears_keep {β : Type} (P : State → β) (hP : ∀ s x0 x1 x2, P { s with host := x0, rest := x1, out := x2 } = P s) (n : Nat) (s : State) : P (sensorClears n s) = P s := by
  unfold sensorClears; (repeat' split) <;> simp only [logEntry_keep P hP, hP]

theorem sampleAll_keep {β : Type} (P : State → β) (hP : ∀ s x0 x1 x2, P { s with host := x0, rest := x1, out := x2 } = P s) (obs : List SensorObs) (a0 : List Nat) (a1 : State) : P (sampleAll obs a0 a1).2 = P a1 := by
  induction a0 generalizing a1 with
  | nil => rfl
  | cons n t ih => unfold sampleAll; dsimp only; (repeat' split) <;> (first | (simp only [ih, crystalAlarm_keep P (fun s x0 => hP s s.host x0 s.out), sensorClears_keep P hP, hP]; done) | exact ih _)

theorem crystalStep_keep {β : Type} (P : State → β) (hP : ∀ s x0, P { s with rest := x0 } = P s) (s : State) : P (crystalStep s) = P s := by
  unfold crystalStep; dsimp only; (repeat' split) <;> simp only [hP]

theorem pinSample_keep {β : Type} (P : State → β) (hP : ∀ s x0 x1 x2 x3 x4, P { s with power := x0, host := x1, rng := x2, rest := x3, out := x4 } = P s) (s : State) : P (pinSample s) = P s := by
  unfold pinSample; dsimp only; (repeat' split) <;> simp only [pinZeroizeVbat_keep P hP, hP]

theorem sampleDue_keep {β : Type} (P : State → β) (hP : ∀ s x0 x1, P { s with time := x0, rest := x1 } = P s) (s : State) : P (sampleDue s) = P s := by
  unfold sampleDue; (repeat' split) <;> simp only [waitCycle_keep P (fun s x0 => hP s x0 s.rest), hP]

theorem toolRestSample_keep {β : Type} (P : State → β) (hP : ∀ s x0 x1 x2 x3 x4 x5 x6 x7 x8 x9 x10 x11 x12 x13, Memory.wf x12.hbm = Memory.wf s.mpu.hbm → P { s with time := x0, power := x1, ctl := x2, host := x3, urz := x4, rng := x5, rest := x6, keys := x7, cls := x8, fab := x9, path := x10, otn := x11, mpu := x12, out := x13 } = P s) (obs : List SensorObs) (temps : List Int) (supplies : List Nat) (s : State) : P (toolRestSample obs temps supplies s) = P s := by
  unfold toolRestSample; repeat' (first | with_reducible rfl | split | simp only [crystalStep_keep P (fun s x0 => hP s s.time s.power s.ctl s.host s.urz s.rng x0 s.keys s.cls s.fab s.path s.otn s.mpu s.out rfl), decide__keep P hP, pinSample_keep P (fun s x0 x1 x2 x3 x4 => hP s s.time x0 s.ctl x1 s.urz x2 x3 s.keys s.cls s.fab s.path s.otn s.mpu x4 rfl), raiseAlarm_keep P (fun s x0 => hP s s.time s.power s.ctl s.host s.urz s.rng x0 s.keys s.cls s.fab s.path s.otn s.mpu s.out rfl), sampleAll_keep P (fun s x0 x1 x2 => hP s s.time s.power s.ctl x0 s.urz s.rng x1 s.keys s.cls s.fab s.path s.otn s.mpu x2 rfl), sampleDue_keep P (fun s x0 x1 => hP s x0 s.power s.ctl s.host s.urz s.rng x1 s.keys s.cls s.fab s.path s.otn s.mpu s.out rfl), hP] | (with_reducible refine (keep (fun _ _ => by (repeat' (first | with_reducible rfl | split | simp only [crystalStep_keep P (fun s x0 => hP s s.time s.power s.ctl s.host s.urz s.rng x0 s.keys s.cls s.fab s.path s.otn s.mpu s.out rfl), decide__keep P hP, pinSample_keep P (fun s x0 x1 x2 x3 x4 => hP s s.time x0 s.ctl x1 s.urz x2 x3 s.keys s.cls s.fab s.path s.otn s.mpu x4 rfl), raiseAlarm_keep P (fun s x0 => hP s s.time s.power s.ctl s.host s.urz s.rng x0 s.keys s.cls s.fab s.path s.otn s.mpu s.out rfl), sampleAll_keep P (fun s x0 x1 x2 => hP s s.time s.power s.ctl x0 s.urz s.rng x1 s.keys s.cls s.fab s.path s.otn s.mpu x2 rfl), sampleDue_keep P (fun s x0 x1 => hP s x0 s.power s.ctl s.host s.urz s.rng x1 s.keys s.cls s.fab s.path s.otn s.mpu s.out rfl), hP])))).trans ?_) | (with_reducible refine (keep2 (fun _ _ => by (repeat' (first | with_reducible rfl | split | simp only [crystalStep_keep P (fun s x0 => hP s s.time s.power s.ctl s.host s.urz s.rng x0 s.keys s.cls s.fab s.path s.otn s.mpu s.out rfl), decide__keep P hP, pinSample_keep P (fun s x0 x1 x2 x3 x4 => hP s s.time x0 s.ctl x1 s.urz x2 x3 s.keys s.cls s.fab s.path s.otn s.mpu x4 rfl), raiseAlarm_keep P (fun s x0 => hP s s.time s.power s.ctl s.host s.urz s.rng x0 s.keys s.cls s.fab s.path s.otn s.mpu s.out rfl), sampleAll_keep P (fun s x0 x1 x2 => hP s s.time s.power s.ctl x0 s.urz s.rng x1 s.keys s.cls s.fab s.path s.otn s.mpu x2 rfl), sampleDue_keep P (fun s x0 x1 => hP s x0 s.power s.ctl s.host s.urz s.rng x1 s.keys s.cls s.fab s.path s.otn s.mpu s.out rfl), hP])))).trans ?_))

theorem alarmImmediate_keep {β : Type} (P : State → β) (hP : ∀ s x0, P { s with rest := x0 } = P s) (o : SensorObs) (s : State) : P (alarmImmediate o s) = P s := by
  unfold alarmImmediate; dsimp only; (repeat' split) <;> simp only [noteSensor_keep P hP, raiseAlarm_keep P hP, raiseEvent_keep P hP, setAlarm_keep P hP, hP]

theorem shadowScan_keep {β : Type} (P : State → β) (hP : ∀ s x0 x1 x2 x3, P { s with power := x0, host := x1, rest := x2, out := x3 } = P s) (bad : List (Nat × Nat)) (s : State) : P (shadowScan bad s) = P s := by
  unfold shadowScan; repeat' (first | with_reducible rfl | split | simp only [debugOff_keep P hP, logEntry_keep P (fun s x0 x1 x2 => hP s s.power x0 x1 x2), noteSensor_keep P (fun s x0 => hP s s.power s.host x0 s.out), raiseAlarm_keep P (fun s x0 => hP s s.power s.host x0 s.out), setAlarm_keep P (fun s x0 => hP s s.power s.host x0 s.out), tamperCount_keep P (fun s x0 => hP s s.power s.host x0 s.out), hP] | (with_reducible refine (keep (fun _ _ => by (repeat' (first | with_reducible rfl | split | simp only [debugOff_keep P hP, logEntry_keep P (fun s x0 x1 x2 => hP s s.power x0 x1 x2), noteSensor_keep P (fun s x0 => hP s s.power s.host x0 s.out), raiseAlarm_keep P (fun s x0 => hP s s.power s.host x0 s.out), setAlarm_keep P (fun s x0 => hP s s.power s.host x0 s.out), tamperCount_keep P (fun s x0 => hP s s.power s.host x0 s.out), hP])))).trans ?_) | (with_reducible refine (keep2 (fun _ _ => by (repeat' (first | with_reducible rfl | split | simp only [debugOff_keep P hP, logEntry_keep P (fun s x0 x1 x2 => hP s s.power x0 x1 x2), noteSensor_keep P (fun s x0 => hP s s.power s.host x0 s.out), raiseAlarm_keep P (fun s x0 => hP s s.power s.host x0 s.out), setAlarm_keep P (fun s x0 => hP s s.power s.host x0 s.out), tamperCount_keep P (fun s x0 => hP s s.power s.host x0 s.out), hP])))).trans ?_))

theorem tokenRefused_keep {β : Type} (P : State → β) (hP : ∀ s x0 x1 x2 x3, P { s with host := x0, rng := x1, rest := x2, out := x3 } = P s) (step op : Nat) (s : State) : P (tokenRefused step op s) = P s := by
  unfold tokenRefused; dsimp only; (repeat' split) <;> simp only [logEntry_keep P (fun s x0 x1 x2 => hP s x0 s.rng x1 x2), newChallenge_keep P (fun s x0 x1 => hP s s.host x0 x1 s.out), raiseEvent_keep P (fun s x0 => hP s s.host s.rng x0 s.out), tamperCount_keep P (fun s x0 => hP s s.host s.rng x0 s.out), hP]

theorem debugOn_keep {β : Type} (P : State → β) (hP : ∀ s x0 x1 x2 x3, P { s with power := x0, host := x1, rest := x2, out := x3 } = P s) (s : State) : P (debugOn s) = P s := by
  unfold debugOn; (repeat' split) <;> simp only [logEntry_keep P (fun s x0 x1 x2 => hP s s.power x0 x1 x2), raiseEvent_keep P (fun s x0 => hP s s.power s.host x0 s.out), setDomain_keep P (fun s x0 => hP s x0 s.host s.rest s.out), hP]

theorem unlocked_keep {β : Type} (P : State → β) (hP : ∀ s x0 x1 x2 x3, P { s with host := x0, rng := x1, rest := x2, out := x3 } = P s) (t : Octets) (s : State) : P (unlocked t s) = P s := by
  unfold unlocked; (repeat' split) <;> simp only [logEntry_keep P (fun s x0 x1 x2 => hP s x0 s.rng x1 x2), newChallenge_keep P (fun s x0 x1 => hP s s.host x0 x1 s.out), tamperCount_keep P (fun s x0 => hP s s.host s.rng x0 s.out), hP]

theorem debugAccepted_keep {β : Type} (P : State → β) (hP : ∀ s x0 x1 x2 x3 x4, P { s with power := x0, host := x1, rng := x2, rest := x3, out := x4 } = P s) (s : State) : P (debugAccepted s) = P s := by
  unfold debugAccepted; (repeat' split) <;> simp only [debugOn_keep P (fun s x0 x1 x2 x3 => hP s x0 x1 s.rng x2 x3), newChallenge_keep P (fun s x0 x1 => hP s s.power s.host x0 x1 s.out), hP]

theorem holdOffEnd_keep {β : Type} (P : State → β) (hP : ∀ s x0 x1, P { s with time := x0, rest := x1 } = P s) (s : State) : P (holdOffEnd s) = P s := by
  unfold holdOffEnd; (repeat' split) <;> simp only [waitCycle_keep P (fun s x0 => hP s x0 s.rest), hP]

theorem debugPower_keep {β : Type} (P : State → β) (hP : ∀ s x0 x1 x2 x3, P { s with power := x0, host := x1, rest := x2, out := x3 } = P s) (v : Nat) (s : State) : P (debugPower v s) = P s := by
  unfold debugPower; (repeat' split) <;> simp only [debugOff_keep P hP, debugOn_keep P hP, hP]

theorem coalesce_keep {β : Type} (P : State → β) (hP : ∀ s x0 x1 x2, P { s with host := x0, rest := x1, out := x2 } = P s) (s : State) : P (coalesce s) = P s := by
  unfold coalesce; repeat' (first | with_reducible rfl | split | simp only [logForce_keep P hP, hP] | (with_reducible refine (keep (fun _ _ => by (repeat' (first | with_reducible rfl | split | simp only [logForce_keep P hP, hP])))).trans ?_) | (with_reducible refine (keep2 (fun _ _ => by (repeat' (first | with_reducible rfl | split | simp only [logForce_keep P hP, hP])))).trans ?_))

theorem exportReminder_keep {β : Type} (P : State → β) (hP : ∀ s x0 x1 x2 x3, P { s with time := x0, host := x1, rest := x2, out := x3 } = P s) (s : State) : P (exportReminder s) = P s := by
  unfold exportReminder; (repeat' split) <;> simp only [exportEvent_keep P (fun s x0 x1 x2 => hP s s.time x0 x1 x2), waitCycle_keep P (fun s x0 => hP s x0 s.host s.rest s.out), hP]

theorem identitySign_keep {β : Type} (P : State → β) (hP : ∀ s x0, P { s with free := x0 } = P s) (m : Octets) (s : State) : P (identitySign m s).2 = P s := by
  unfold identitySign; (repeat' split) <;> simp only [openValue_keep P hP, hP]

theorem segmentForm_keep {β : Type} (P : State → β) (hP : ∀ s x0 x1, P { s with rest := x0, free := x1 } = P s) (s : State) : P (segmentForm s) = P s := by
  unfold segmentForm; (repeat' split) <;> simp only [identitySign_keep P (fun s x0 => hP s s.rest x0), hP]

theorem segmentRead_keep {β : Type} (P : State → β) (hP : ∀ s x0, P { s with free := x0 } = P s) (s : State) : P (segmentRead s).2 = P s := by
  unfold segmentRead; (repeat' split) <;> simp only [identitySign_keep P hP, hP]

theorem ackApply_keep {β : Type} (P : State → β) (hP : ∀ s x0 x1 x2, P { s with host := x0, rest := x1, out := x2 } = P s) (s : State) : P (ackApply s) = P s := by
  unfold ackApply; dsimp only; (repeat' split) <;> simp only [logOwed_keep P hP, sensorClears_keep P hP, setAlarm_keep P (fun s x0 => hP s s.host x0 s.out), hP]

theorem advanceApply_keep {β : Type} (P : State → β) (hP : ∀ s x0 x1 x2, P { s with host := x0, rest := x1, out := x2 } = P s) (v : Octets) (s : State) : P (advanceApply v s) = P s := by
  unfold advanceApply; dsimp only; (repeat' split) <;> simp only [logEntry_keep P hP, shadowFix_keep P (fun s x0 => hP s s.host x0 s.out), hP]

end Sys2Proof.Machine
end

