-- ==== Sys2Proof/Laws/KeepKeys.lean ====
section
/-! SUPPORT. What the operations and meanings of Machine/Keys.lean leave alone: `f_keep` says that whatever is read from
the state without looking at the components `f` may change is the same after `f`. -/
set_option linter.all false
namespace Sys2Proof.Machine

theorem putSa_keep {β : Type} (P : State → β) (hP : ∀ s x0 x1, P { s with rest := x0, keys := x1 } = P s) (i : Nat) (a : Sa) (s : State) : P (putSa i a s) = P s := by
  unfold putSa; (repeat' split) <;> simp only [shadowFix_keep P (fun s x0 => hP s x0 s.keys), updSa_keep P (fun s x0 => hP s s.rest x0), hP]

theorem kekKeep_keep {β : Type} (P : State → β) (hP : ∀ s x0, P { s with rest := x0 } = P s) (target : Nat) (s : State) : P (kekKeep target s) = P s := by
  unfold kekKeep; dsimp only; (repeat' split) <;> simp only [hP]

theorem kekLost_keep {β : Type} (P : State → β) (hP : ∀ s x0 x1 x2 x3, P { s with host := x0, rest := x1, keys := x2, out := x3 } = P s) (n : Nat) (s : State) : P (kekLost n s) = P s := by
  unfold kekLost; (repeat' split) <;> simp only [keyEvent_keep P (fun s x0 => hP s s.host s.rest x0 s.out), post_keep P (fun s x0 x1 => hP s x0 s.rest s.keys x1), hP]

theorem kekRestore_keep {β : Type} (P : State → β) (hP : ∀ s x0 x1 x2 x3, P { s with host := x0, rest := x1, keys := x2, out := x3 } = P s) (n : Nat) (w : Octets) (s : State) : P (kekRestore n w s) = P s := by
  unfold kekRestore; dsimp only; (repeat' split) <;> simp only [kekLost_keep P hP, updSlot_keep P (fun s x0 => hP s s.host s.rest x0 s.out), hP]

theorem keksRestore_keep {β : Type} (P : State → β) (hP : ∀ s x0 x1 x2 x3, P { s with host := x0, rest := x1, keys := x2, out := x3 } = P s) (s : State) : P (keksRestore s) = P s := by
  unfold keksRestore; repeat' (first | with_reducible rfl | split | simp only [kekRestore_keep P hP, hP] | (with_reducible refine (keep (fun _ _ => by (repeat' (first | with_reducible rfl | split | simp only [kekRestore_keep P hP, hP])))).trans ?_) | (with_reducible refine (keep2 (fun _ _ => by (repeat' (first | with_reducible rfl | split | simp only [kekRestore_keep P hP, hP])))).trans ?_))

theorem kekAreaLost_keep {β : Type} (P : State → β) (hP : ∀ s x0 x1 x2 x3, P { s with host := x0, rest := x1, keys := x2, out := x3 } = P s) (s : State) : P (kekAreaLost s) = P s := by
  unfold kekAreaLost; (repeat' split) <;> simp only [keyEvent_keep P (fun s x0 => hP s s.host s.rest x0 s.out), post_keep P (fun s x0 x1 => hP s x0 s.rest s.keys x1), hP]

theorem deletesApply_keep {β : Type} (P : State → β) (hP : ∀ s x0 x1, P { s with rest := x0, keys := x1 } = P s) (l : List (Nat × Nat)) (s : State) : P (deletesApply l s) = P s := by
  unfold deletesApply; repeat' (first | with_reducible rfl | split | simp only [slotRelease_keep P (fun s x0 => hP s s.rest x0), hP] | (with_reducible refine (keep (fun _ _ => by (repeat' (first | with_reducible rfl | split | simp only [slotRelease_keep P (fun s x0 => hP s s.rest x0), hP])))).trans ?_) | (with_reducible refine (keep2 (fun _ _ => by (repeat' (first | with_reducible rfl | split | simp only [slotRelease_keep P (fun s x0 => hP s s.rest x0), hP])))).trans ?_))

theorem keysApply_keep {β : Type} (P : State → β) (hP : ∀ s x0 x1, P { s with rest := x0, keys := x1 } = P s) (k : KeyRun) (s : State) : P (keysApply k s) = P s := by
  unfold keysApply; repeat' (first | with_reducible rfl | split | simp only [deletesApply_keep P hP, kekKeep_keep P (fun s x0 => hP s x0 s.keys), hP] | (with_reducible refine (keep (fun _ _ => by (repeat' (first | with_reducible rfl | split | simp only [deletesApply_keep P hP, kekKeep_keep P (fun s x0 => hP s x0 s.keys), hP])))).trans ?_) | (with_reducible refine (keep2 (fun _ _ => by (repeat' (first | with_reducible rfl | split | simp only [deletesApply_keep P hP, kekKeep_keep P (fun s x0 => hP s x0 s.keys), hP])))).trans ?_))

theorem keysRefused_keep {β : Type} (P : State → β) (hP : ∀ s x0, P { s with keys := x0 } = P s) (n reason : Nat) (s : State) : P (keysRefused n reason s) = P s := by
  unfold keysRefused; (repeat' split) <;> simp only [hP]

theorem storeApply_keep {β : Type} (P : State → β) (hP : ∀ s x0 x1 x2 x3 x4 x5, Memory.wf x4.hbm = Memory.wf s.mpu.hbm → P { s with host := x0, rest := x1, keys := x2, path := x3, mpu := x4, out := x5 } = P s) (sa : Bool) (l : List (Nat × Octets)) (s : State) : P (storeApply sa l s) = P s := by
  unfold storeApply; repeat' (first | with_reducible rfl | split | simp only [storeWrite_keep P (fun s x0 x1 x2 x3 x4 h => hP s x0 x1 s.keys x2 x3 x4 h), hP] | (with_reducible refine (keep (fun _ _ => by (repeat' (first | with_reducible rfl | split | simp only [storeWrite_keep P (fun s x0 x1 x2 x3 x4 h => hP s x0 x1 s.keys x2 x3 x4 h), hP])))).trans ?_) | (with_reducible refine (keep2 (fun _ _ => by (repeat' (first | with_reducible rfl | split | simp only [storeWrite_keep P (fun s x0 x1 x2 x3 x4 h => hP s x0 x1 s.keys x2 x3 x4 h), hP])))).trans ?_))

theorem logOwner_keep {β : Type} (P : State → β) (hP : ∀ s x0 x1 x2, P { s with host := x0, rest := x1, out := x2 } = P s) (op seq : Nat) (s : State) : P (logOwner op seq s) = P s := by
  unfold logOwner; (repeat' split) <;> simp only [logEntry_keep P hP, hP]

theorem newBbk_keep {β : Type} (P : State → β) (hP : ∀ s x0 x1 x2 x3 x4 x5, Memory.wf x4.hbm = Memory.wf s.mpu.hbm → P { s with rng := x0, rest := x1, keys := x2, fab := x3, mpu := x4, free := x5 } = P s) (s : State) : P (newBbk s) = P s := by
  unfold newBbk; (try dsimp only); (repeat' split) <;> (first | (have f := rngDraw_keep P (fun s x0 => hP s x0 s.rest s.keys s.fab s.mpu s.free rfl) _ _ _ ‹rngDraw _ _ = _›; simp only [rngAsk_keep P (fun s x0 => hP s x0 s.rest s.keys s.fab s.mpu s.free rfl), rngGive_keep P hP, hP] at f ⊢; exact f) | simp only [rngAsk_keep P (fun s x0 => hP s x0 s.rest s.keys s.fab s.mpu s.free rfl), rngGive_keep P hP, hP])

theorem ownerApply_keep {β : Type} (P : State → β) (hP : ∀ s x0 x1 x2 x3 x4 x5 x6 x7 x8 x9 x10 x11 x12 x13 x14, Memory.wf x12.hbm = Memory.wf s.mpu.hbm → P { s with time := x0, power := x1, ctl := x2, host := x3, urz := x4, rng := x5, rest := x6, keys := x7, cls := x8, fab := x9, path := x10, otn := x11, mpu := x12, out := x13, free := x14 } = P s) (c : Octets) (s : State) : P (ownerApply c s) = P s := by
  unfold ownerApply; dsimp only; (repeat' split) <;> simp only [logOwner_keep P (fun s x0 x1 x2 => hP s s.time s.power s.ctl x0 s.urz s.rng x1 s.keys s.cls s.fab s.path s.otn s.mpu x2 s.free rfl), logZeroize_keep P (fun s x0 x1 x2 => hP s s.time s.power s.ctl x0 s.urz s.rng x1 s.keys s.cls s.fab s.path s.otn s.mpu x2 s.free rfl), newBbk_keep P (fun s x0 x1 x2 x3 x4 x5 h => hP s s.time s.power s.ctl s.host s.urz x0 x1 x2 s.cls x3 s.path s.otn x4 s.out x5 h), zeroizeWhole_keep P (fun s x0 x1 x2 x3 x4 x5 x6 x7 x8 x9 x10 x11 x12 x13 h => hP s x0 x1 x2 x3 x4 x5 x6 x7 x8 x9 x10 x11 x12 x13 s.free h), hP]

theorem enrollOpen_keep {β : Type} (P : State → β) (hP : ∀ s x0 x1 x2, P { s with rng := x0, keys := x1, free := x2 } = P s) (nk : Octets) (s : State) : P (enrollOpen nk s) = P s := by
  unfold enrollOpen; (try dsimp only); (repeat' split) <;> (first | (have f := rngDraw_keep P (fun s x0 => hP s x0 s.keys s.free) _ _ _ ‹rngDraw _ _ = _›; simp only [enrollOffer_keep P (fun s x0 x1 => hP s s.rng x0 x1), rngAsk_keep P (fun s x0 => hP s x0 s.keys s.free), hP] at f ⊢; exact f) | simp only [enrollOffer_keep P (fun s x0 x1 => hP s s.rng x0 x1), rngAsk_keep P (fun s x0 => hP s x0 s.keys s.free), hP])

theorem enrollClose_keep {β : Type} (P : State → β) (hP : ∀ s x0, P { s with keys := x0 } = P s) (s : State) : P (enrollClose s) = P s := by
  unfold enrollClose; (repeat' split) <;> simp only [hP]

end Sys2Proof.Machine
end

