-- ==== Sys2Proof/Laws/KeepRollover.lean ====
section
/-! SUPPORT. What the operations and meanings of Machine/Rollover.lean leave alone: `f_keep` says that whatever is read from
the state without looking at the components `f` may change is the same after `f`. -/
set_option linter.all false
namespace Sys2Proof.Machine

section
variable {β : Type} (P : State → β) (hP : ∀ s x0 x1 x2 x3 x4 x5 x6 x7 x8, Memory.wf x7.hbm = Memory.wf s.mpu.hbm → P { s with power := x0, host := x1, rng := x2, rest := x3, keys := x4, path := x5, otn := x6, mpu := x7, out := x8 } = P s)
include hP

theorem keyCount_run (i : Nat) (s : State) : P (keyCount i s) = P s := keyCount_keep P (fun s x0 => hP s s.power s.host s.rng s.rest x0 s.path s.otn s.mpu s.out rfl) i s
theorem chucks_run (k : KeyRun) : P k.chucks.2.s = P k.s ∧ P k.chucks.2.b = P k.b := by
  have hc := fun b c s => chuckIsolate_keep P (fun s x0 x1 x2 x3 x4 => hP s x0 x1 s.rng s.rest x2 s.path x3 s.mpu x4 rfl) b c s
  unfold KeyRun.chucks KeyRun.both; (repeat' split) <;> simp only [keyCount_run P hP, hc, and_self]
theorem read_run (t : Nat) (k : KeyRun) : P (k.read t).2.s = P k.s ∧ P (k.read t).2.b = P k.b := by
  have hr := fun t s => readSlot_keep P (fun s x0 x1 x2 x3 => hP s s.power x0 s.rng s.rest x1 s.path x2 s.mpu x3 rfl) t s
  unfold KeyRun.read; simp only [hr, and_self]
theorem read_eq {t : Nat} {k k' : KeyRun} {c : Option Copy} (h : k.read t = (c, k')) : P k'.s = P k.s ∧ P k'.b = P k.b := by
  have f := read_run P hP t k; rw [h] at f; exact f
theorem fill_run (t : Nat) (a : Attr) (key : Octets) (k : KeyRun) : P (k.fill t a key).2.s = P k.s ∧ P (k.fill t a key).2.b = P k.b := by
  have hu := fun t f s => updSlot_keep P (fun s x0 => hP s s.power s.host s.rng s.rest x0 s.path s.otn s.mpu s.out rfl) t f s
  have hc := chucks_run P hP k
  unfold KeyRun.fill; dsimp only; (repeat' split) <;> simp only [hu, hc, and_self]
theorem entry_run (sa : Bool) (i : Nat) (k : KeyRun) : P (k.entry sa i).2.s = P k.s ∧ P (k.entry sa i).2.b = P k.b := by
  have hr := fun sa i s => storeRead_keep P (fun s x0 x1 x2 x3 x4 h => hP s s.power x0 s.rng x1 s.keys x2 s.otn x3 x4 h) sa i s
  unfold KeyRun.entry; dsimp only; (repeat' (first | split | simp only [apply_ite P, hr, ite_self, and_self]))
theorem inside_run (blob key : Octets) (t : Nat) (k : KeyRun) : P (blobInside blob key t k).2.2.s = P k.s ∧ P (blobInside blob key t k).2.2.b = P k.b := by
  unfold blobInside KeyRun.both; dsimp only; (repeat' split) <;> simp only [keyCount_run P hP, and_self]
theorem blobCheck_run (blob : Octets) (sa : Bool) (t : Nat) (k : KeyRun) : P (blobCheck blob sa t k).2.2.s = P k.s ∧ P (blobCheck blob sa t k).2.2.b = P k.b := by
  unfold blobCheck; dsimp only; (repeat' split) <;> try simp only [and_self]
  all_goals
    have f := read_eq P hP ‹KeyRun.read _ k = _›
    simpa only [inside_run P hP] using f
theorem kekNamed_run (n need : Nat) (k : KeyRun) : P (k.kekNamed n need).2.2.s = P k.s ∧ P (k.kekNamed n need).2.2.b = P k.b := by
  unfold KeyRun.kekNamed; dsimp only; (repeat' split) <;> try simp only [and_self]
  all_goals
    have f := read_run P hP (32768 + n) k
    rw [‹KeyRun.read _ k = _›] at f
    exact f
theorem loadBlob_run (t : Nat) (blob : Octets) (k : KeyRun) : P (loadBlob t blob k).2.s = P k.s ∧ P (loadBlob t blob k).2.b = P k.b := by
  have f := blobCheck_run P hP blob false t k
  unfold loadBlob; split <;> (rw [‹blobCheck _ _ _ _ = _›] at f; simpa only [fill_run P hP] using f)
theorem cmdBlobStore_run (r : Octets) (k : KeyRun) : P (cmdBlobStore r k).2.s = P k.s ∧ P (cmdBlobStore r k).2.b = P k.b := by
  have f := entry_run P hP false (leAt r 8 4) k
  unfold cmdBlobStore; split <;> (rw [‹KeyRun.entry _ _ _ = _›] at f; simpa only [loadBlob_run P hP] using f)
theorem cmdDerive_run (r : Octets) (k : KeyRun) : P (cmdDerive r k).2.s = P k.s ∧ P (cmdDerive r k).2.b = P k.b := by
  have f := kekNamed_run P hP (leAt r 6 2) 8 k
  unfold cmdDerive; dsimp only; split; (· exact ⟨rfl, rfl⟩)
  split <;> (rw [‹KeyRun.kekNamed _ _ _ = _›] at f; (repeat' split) <;> simpa only [fill_run P hP] using f)
theorem cmdExport_run (r : Octets) (k : KeyRun) : P (cmdExport r k).2.s = P k.s ∧ P (cmdExport r k).2.b = P k.b := by
  have f := kekNamed_run P hP (leAt r 6 2) (if (octet r 8 == 1) = true then 80 else 16) k
  unfold cmdExport; dsimp only; split; (· exact ⟨rfl, rfl⟩); split; (· exact ⟨rfl, rfl⟩)
  split
  · rename_i wc k' heq
    rw [heq] at f
    have g := read_run P hP (targetAt r 4) k'
    split; (· exact f)
    split <;> (rw [‹KeyRun.read _ _ = _›] at g; (repeat' split) <;> (simp only [chucks_run P hP]; exact ⟨g.1.trans f.1, g.2.trans f.2⟩))
  · rw [‹KeyRun.kekNamed _ _ _ = _›] at f; exact f
theorem cmdImport_run (r : Octets) (k : KeyRun) : P (cmdImport r k).2.s = P k.s ∧ P (cmdImport r k).2.b = P k.b := by
  have f := kekNamed_run P hP (leAt r 6 2) 68 k
  unfold cmdImport KeyRun.both; dsimp only; split; (· exact ⟨rfl, rfl⟩); split; (· exact ⟨rfl, rfl⟩); split; (· exact ⟨rfl, rfl⟩)
  split <;> (rw [‹KeyRun.kekNamed _ _ _ = _›] at f; (repeat' split) <;> simpa only [fill_run P hP, keyCount_run P hP] using f)
theorem cmdLoadSa_run (r : Octets) (k : KeyRun) : P (cmdLoadSa r k).2.s = P k.s ∧ P (cmdLoadSa r k).2.b = P k.b := by
  have hp := fun i a s => putSa_keep P (fun s x0 x1 => hP s s.power s.host s.rng x0 x1 s.path s.otn s.mpu s.out rfl) i a s
  have f := entry_run P hP true (leAt r 4 4) k
  unfold cmdLoadSa; dsimp only; split; (· exact ⟨rfl, rfl⟩)
  split
  · rw [‹KeyRun.entry _ _ _ = _›] at f; exact f
  · rename_i b k' heq
    rw [heq] at f
    have g := blobCheck_run P hP b true (leAt r 10 2) k'
    split
    · rename_i p k'' heq'
      rw [heq'] at g
      have w := fill_run P hP (leAt r 10 2) (Attr.ofPlain p) (slice p 48 (Attr.ofPlain p).keyLen) k''
      split; (· exact ⟨g.1.trans f.1, g.2.trans f.2⟩)
      split
      · rename_i k3 heq3
        rw [heq3] at w; simp only [hp]
        exact ⟨w.1.trans (g.1.trans f.1), w.2.trans (g.2.trans f.2)⟩
      · exact ⟨w.1.trans (g.1.trans f.1), w.2.trans (g.2.trans f.2)⟩
    · rw [‹blobCheck _ _ _ _ = _›] at g; exact ⟨g.1.trans f.1, g.2.trans f.2⟩
end

section
variable {β : Type} (P : State → β) (hP : ∀ s x0 x1 x2 x3 x4 x5 x6 x7 x8 x9 x10, Memory.wf x8.hbm = Memory.wf s.mpu.hbm → P { s with time := x0, power := x1, host := x2, rng := x3, rest := x4, keys := x5, path := x6, otn := x7, mpu := x8, out := x9, free := x10 } = P s)
include hP

theorem openValue_run (k : KeyRun) : P k.openValue.2.s = P k.s ∧ P k.openValue.2.b = P k.b := by
  unfold KeyRun.openValue; exact ⟨openValue_keep P (fun s x0 => hP s s.time s.power s.host s.rng s.rest s.keys s.path s.otn s.mpu s.out x0 rfl) _, hP _ _ _ _ _ _ _ _ _ _ _ _ rfl⟩
theorem openOctets_run (n : Nat) (k : KeyRun) : P (KeyRun.openOctets n k).2.s = P k.s ∧ P (KeyRun.openOctets n k).2.b = P k.b := by
  induction n generalizing k with
  | zero => exact ⟨rfl, rfl⟩
  | succ n ih => unfold KeyRun.openOctets; dsimp only; exact ⟨(ih _).1.trans (openValue_run P hP k).1, (ih _).2.trans (openValue_run P hP k).2⟩
theorem draw_run (n : Nat) (k : KeyRun) : P (k.draw n).2.s = P k.s ∧ P (k.draw n).2.b = P k.b := by
  have hw := fun u s => waitCycle_keep P (fun s x0 => hP s x0 s.power s.host s.rng s.rest s.keys s.path s.otn s.mpu s.out s.free rfl) u s
  have ho := openValue_run P hP k
  unfold KeyRun.draw KeyRun.both; dsimp only; split
  · have f := rngDraw_keep P (fun s x0 => hP s s.time s.power s.host x0 s.rest s.keys s.path s.otn s.mpu s.out s.free rfl) _ _ _ ‹_›
    exact ⟨f, hP _ _ _ _ _ _ _ _ _ _ _ _ rfl⟩
  · split <;> simp only [openOctets_run P hP, hw, ho, and_self]
theorem cmdGenerate_run (r : Octets) (k : KeyRun) : P (cmdGenerate r k).2.s = P k.s ∧ P (cmdGenerate r k).2.b = P k.b := by
  have f := draw_run P hP (Attr.ofBlock (slice r 8 24)).keyLen k
  unfold cmdGenerate; dsimp only; (repeat' split) <;> try simp only [and_self]
  all_goals
    rw [‹KeyRun.draw _ _ = _›] at f
    first | exact f | simpa only [fill_run P (fun s x0 x1 x2 x3 x4 x5 x6 x7 x8 h => hP s s.time x0 x1 x2 x3 x4 x5 x6 x7 x8 s.free h)] using f
theorem keyCommand_run (r : Octets) (k : KeyRun) : P (keyCommand r k).2.s = P k.s ∧ P (keyCommand r k).2.b = P k.b := by
  unfold keyCommand
  split
  · unfold cmdBlob; exact loadBlob_run P (fun s x0 x1 x2 x3 x4 x5 x6 x7 x8 h => hP s s.time x0 x1 x2 x3 x4 x5 x6 x7 x8 s.free h) _ _ _
  · exact cmdBlobStore_run P (fun s x0 x1 x2 x3 x4 x5 x6 x7 x8 h => hP s s.time x0 x1 x2 x3 x4 x5 x6 x7 x8 s.free h) _ _
  · exact cmdDerive_run P (fun s x0 x1 x2 x3 x4 x5 x6 x7 x8 h => hP s s.time x0 x1 x2 x3 x4 x5 x6 x7 x8 s.free h) _ _
  · exact cmdGenerate_run P hP _ _
  · exact cmdExport_run P (fun s x0 x1 x2 x3 x4 x5 x6 x7 x8 h => hP s s.time x0 x1 x2 x3 x4 x5 x6 x7 x8 s.free h) _ _
  · exact cmdImport_run P (fun s x0 x1 x2 x3 x4 x5 x6 x7 x8 h => hP s s.time x0 x1 x2 x3 x4 x5 x6 x7 x8 s.free h) _ _
  · unfold cmdDelete; exact ⟨rfl, rfl⟩
  · exact cmdLoadSa_run P (fun s x0 x1 x2 x3 x4 x5 x6 x7 x8 h => hP s s.time x0 x1 x2 x3 x4 x5 x6 x7 x8 s.free h) _ _
/-- What a commit's key commands leave alone, in the state they would leave and in the one that stays if they are refused. -/
theorem keyCommands_run (n : Nat) (b : Octets) (k : KeyRun) : P (keyCommands n b k).s = P k.s ∧ P (keyCommands n b k).b = P k.b := by
  induction n generalizing b k with
  | zero => exact ⟨rfl, rfl⟩
  | succ n ih =>
    unfold keyCommands; dsimp only; split; (· exact ⟨rfl, rfl⟩); split; (· exact ⟨rfl, rfl⟩)
    have f := keyCommand_run P hP (b.take (leAt b 2 2)) k
    split <;> (rw [‹keyCommand _ _ = _›] at f; simpa only [ih] using f)
end

theorem saWriteAll_keep {β : Type} (P : State → β) (hP : ∀ s x0 x1, P { s with rest := x0, keys := x1 } = P s) (l : List Written) (s : State) : P (saWriteAll l s) = P s := by
  unfold saWriteAll; repeat' (first | with_reducible rfl | split | simp only [putSa_keep P hP, hP] | (with_reducible refine (keep (fun _ _ => by (repeat' (first | with_reducible rfl | split | simp only [putSa_keep P hP, hP])))).trans ?_) | (with_reducible refine (keep2 (fun _ _ => by (repeat' (first | with_reducible rfl | split | simp only [putSa_keep P hP, hP])))).trans ?_))

theorem rollWriteAll_keep {β : Type} (P : State → β) (hP : ∀ s x0, P { s with keys := x0 } = P s) (trib : Bool) (l : List Written) (s : State) : P (rollWriteAll trib l s) = P s := by
  unfold rollWriteAll; repeat' (first | with_reducible rfl | split | simp only [updRoll_keep P hP, hP] | (with_reducible refine (keep (fun _ _ => by (repeat' (first | with_reducible rfl | split | simp only [updRoll_keep P hP, hP])))).trans ?_) | (with_reducible refine (keep2 (fun _ _ => by (repeat' (first | with_reducible rfl | split | simp only [updRoll_keep P hP, hP])))).trans ?_))

theorem retireOutgoing_keep {β : Type} (P : State → β) (hP : ∀ s x0 x1, P { s with keys := x0, otn := x1 } = P s) (u : RollUser) (s : State) : P (retireOutgoing u s) = P s := by
  unfold retireOutgoing; repeat' (first | with_reducible rfl | split | simp only [saRetire_keep P (fun s x0 => hP s x0 s.otn), updSc_keep P (fun s x0 => hP s x0 s.otn), updTr_keep P (fun s x0 => hP s s.keys x0), hP] | (with_reducible refine (keep (fun _ _ => by (repeat' (first | with_reducible rfl | split | simp only [saRetire_keep P (fun s x0 => hP s x0 s.otn), updSc_keep P (fun s x0 => hP s x0 s.otn), updTr_keep P (fun s x0 => hP s s.keys x0), hP])))).trans ?_) | (with_reducible refine (keep2 (fun _ _ => by (repeat' (first | with_reducible rfl | split | simp only [saRetire_keep P (fun s x0 => hP s x0 s.otn), updSc_keep P (fun s x0 => hP s x0 s.otn), updTr_keep P (fun s x0 => hP s s.keys x0), hP])))).trans ?_))

theorem guardEnds_keep {β : Type} (P : State → β) (hP : ∀ s x0 x1 x2, P { s with time := x0, keys := x1, otn := x2 } = P s) (u : RollUser) (s : State) : P (guardEnds u s) = P s := by
  unfold guardEnds; dsimp only; (repeat' split) <;> simp only [retireOutgoing_keep P (fun s x0 x1 => hP s s.time x0 x1), updRoll_keep P (fun s x0 => hP s s.time x0 s.otn), waitCycle_keep P (fun s x0 => hP s x0 s.keys s.otn), hP]

theorem chainPlace_keep {β : Type} (P : State → β) (hP : ∀ s x0 x1, P { s with keys := x0, otn := x1 } = P s) (u : RollUser) (d : Dir) (i : Nat) (s : State) : P (chainPlace u d i s) = P s := by
  unfold chainPlace; (repeat' split) <;> simp only [updSc_keep P (fun s x0 => hP s x0 s.otn), updTr_keep P (fun s x0 => hP s s.keys x0), hP]

theorem chainFailed_keep {β : Type} (P : State → β) (hP : ∀ s x0 x1 x2, P { s with host := x0, keys := x1, out := x2 } = P s) (u : RollUser) (reason : Nat) (s : State) : P (chainFailed u reason s) = P s := by
  unfold chainFailed; (repeat' split) <;> simp only [keyCount_keep P (fun s x0 => hP s s.host x0 s.out), keyEvent_keep P (fun s x0 => hP s s.host x0 s.out), post_keep P (fun s x0 x1 => hP s x0 s.keys x1), updRoll_keep P (fun s x0 => hP s s.host x0 s.out), hP]

section
variable {β : Type} (P : State → β) (hP : ∀ s x0 x1 x2 x3 x4 x5 x6 x7 x8, Memory.wf x7.hbm = Memory.wf s.mpu.hbm → P { s with power := x0, host := x1, rng := x2, rest := x3, keys := x4, path := x5, otn := x6, mpu := x7, out := x8 } = P s)
include hP

theorem chainOne_run (u : RollUser) (p : ChainPart) (k : KeyRun) : P (chainOne u p k).2.2.s = P k.s ∧ P (chainOne u p k).2.2.b = P k.b := by
  have hp := fun i a s => putSa_keep P (fun s x0 x1 => hP s s.power s.host s.rng x0 x1 s.path s.otn s.mpu s.out rfl) i a s
  have hc := fun u d i s => chainPlace_keep P (fun s x0 x1 => hP s s.power s.host s.rng s.rest x0 s.path x1 s.mpu s.out rfl) u d i s
  have f : P (if (k.s.sa p.incoming).succ = 4294967295 then ((none : Option Octets), k) else k.entry true (k.s.sa p.incoming).succ).2.s = P k.s ∧ P (if (k.s.sa p.incoming).succ = 4294967295 then ((none : Option Octets), k) else k.entry true (k.s.sa p.incoming).succ).2.b = P k.b := by
    split
    · exact ⟨rfl, rfl⟩
    · exact entry_run P hP _ _ _
  unfold chainOne; dsimp only
  split
  · rename_i k1 heq1; rw [heq1] at f; exact f
  · rename_i b k' heq1; rw [heq1] at f
    split; (· exact f)
    rename_i slot _
    split; (· exact f)
    rename_i i _
    have g := blobCheck_run P hP b true slot k'
    split
    · rename_i q k'' _
      rw [‹blobCheck _ _ _ _ = _›] at g
      have fg := And.intro (g.1.trans f.1) (g.2.trans f.2)
      split; (· exact fg)
      split; (· exact fg)
      split; (· exact fg)
      have w := fill_run P hP slot (Attr.ofPlain q) (slice q 48 (Attr.ofPlain q).keyLen) k''
      split <;> (rw [‹KeyRun.fill _ _ _ _ = _›] at w; simp only [hp, hc]; exact ⟨w.1.trans fg.1, w.2.trans fg.2⟩)
    · rw [‹blobCheck _ _ _ _ = _›] at g; exact ⟨g.1.trans f.1, g.2.trans f.2⟩
theorem chainAll_run (u : RollUser) (l : List ChainPart) (k : KeyRun) : P (chainAll u l k).2.2.s = P k.s ∧ P (chainAll u l k).2.2.b = P k.b := by
  induction l generalizing k with
  | nil => exact ⟨rfl, rfl⟩
  | cons p l ih =>
    have f := chainOne_run P hP u p k
    unfold chainAll; split
    · rename_i t k' heq
      rw [heq] at f
      have g := ih k'
      split
      · rw [‹chainAll _ _ _ = _›] at g; exact ⟨g.1.trans f.1, g.2.trans f.2⟩
      · exact ⟨g.1.trans f.1, g.2.trans f.2⟩
    · exact f
end

theorem chainLoad_keep {β : Type} (P : State → β) (hP : ∀ s x0 x1 x2 x3 x4 x5 x6 x7 x8, Memory.wf x7.hbm = Memory.wf s.mpu.hbm → P { s with power := x0, host := x1, rng := x2, rest := x3, keys := x4, path := x5, otn := x6, mpu := x7, out := x8 } = P s) (u : RollUser) (ck : ChuckRun) (s : State) : P (chainLoad u ck s) = P s := by
  unfold chainLoad; dsimp only; split; (· rfl); split; (· simp only [chainFailed_keep P (fun s x0 x1 x2 => hP s s.power x0 s.rng s.rest x1 s.path s.otn s.mpu x2 rfl), keyCount_keep P (fun s x0 => hP s s.power s.host s.rng s.rest x0 s.path s.otn s.mpu s.out rfl), updRoll_keep P (fun s x0 => hP s s.power s.host s.rng s.rest x0 s.path s.otn s.mpu s.out rfl), hP]); (· have f := chainAll_run P hP u (chainParts s u) { s := s, b := s, ck := ck }; split <;> (rw [‹chainAll _ _ _ = _›] at f; simp only [chainFailed_keep P (fun s x0 x1 x2 => hP s s.power x0 s.rng s.rest x1 s.path s.otn s.mpu x2 rfl), keyCount_keep P (fun s x0 => hP s s.power s.host s.rng s.rest x0 s.path s.otn s.mpu s.out rfl), updRoll_keep P (fun s x0 => hP s s.power s.host s.rng s.rest x0 s.path s.otn s.mpu s.out rfl), hP]; first | exact f.1 | exact f.2))

end Sys2Proof.Machine
end

