-- ==== Sys2Proof/Laws/KeepRead.lean ====
section
/-! SUPPORT. What the operations and meanings of Machine/Read.lean leave alone: `f_keep` says that whatever is read from
the state without looking at the components `f` may change is the same after `f`. -/
set_option linter.all false
namespace Sys2Proof.Machine

theorem readClears_keep {β : Type} (P : State → β) (hP : ∀ s x0 x1 x2 x3, P { s with time := x0, path := x1, otn := x2, free := x3 } = P s) (idx sub : Nat) (s : State) : P (readClears idx sub s) = P s := by
  unfold readClears; (repeat' split) <;> simp only [segmentRead_keep P (fun s x0 => hP s s.time s.path s.otn x0), hP]

end Sys2Proof.Machine
end

