-- ==== Sys2Proof/Laws/KeepStaged.lean ====
section
/-! SUPPORT. What the operations and meanings of Machine/Staged.lean leave alone: `f_keep` says that whatever is read from
the state without looking at the components `f` may change is the same after `f`. -/
set_option linter.all false
namespace Sys2Proof.Machine

theorem putPlain_keep {β : Type} (P : State → β) (hP : ∀ s x0, P { s with ctl := x0 } = P s) (key : Nat) (b : Octets) (s : State) : P (putPlain key b s) = P s := by
  unfold putPlain; dsimp only; (repeat' split) <;> simp only [hP]

theorem putPlains_keep {β : Type} (P : State → β) (hP : ∀ s x0, P { s with ctl := x0 } = P s) (st : Tab Octets) (s : State) : P (putPlains st s) = P s := by
  unfold putPlains; repeat' (first | with_reducible rfl | split | simp only [putPlain_keep P hP, hP] | (with_reducible refine (keep (fun _ _ => by (repeat' (first | with_reducible rfl | split | simp only [putPlain_keep P hP, hP])))).trans ?_) | (with_reducible refine (keep2 (fun _ _ => by (repeat' (first | with_reducible rfl | split | simp only [putPlain_keep P hP, hP])))).trans ?_))

theorem scWriteAll_keep {β : Type} (P : State → β) (hP : ∀ s x0, P { s with keys := x0 } = P s) (l : List Written) (s : State) : P (scWriteAll l s) = P s := by
  unfold scWriteAll; repeat' (first | with_reducible rfl | split | simp only [updSc_keep P hP, hP] | (with_reducible refine (keep (fun _ _ => by (repeat' (first | with_reducible rfl | split | simp only [updSc_keep P hP, hP])))).trans ?_) | (with_reducible refine (keep2 (fun _ _ => by (repeat' (first | with_reducible rfl | split | simp only [updSc_keep P hP, hP])))).trans ?_))

theorem tribWriteAll_keep {β : Type} (P : State → β) (hP : ∀ s x0, P { s with otn := x0 } = P s) (l : List Written) (s : State) : P (tribWriteAll l s) = P s := by
  unfold tribWriteAll; repeat' (first | with_reducible rfl | split | simp only [updTr_keep P hP, hP] | (with_reducible refine (keep (fun _ _ => by (repeat' (first | with_reducible rfl | split | simp only [updTr_keep P hP, hP])))).trans ?_) | (with_reducible refine (keep2 (fun _ _ => by (repeat' (first | with_reducible rfl | split | simp only [updTr_keep P hP, hP])))).trans ?_))

theorem queueWriteAll_keep {β : Type} (P : State → β) (hP : ∀ s x0, P { s with path := x0 } = P s) (l : List Written) (s : State) : P (queueWriteAll l s) = P s := by
  unfold queueWriteAll; repeat' (first | with_reducible rfl | split | simp only [hP] | (with_reducible refine (keep (fun _ _ => by (repeat' (first | with_reducible rfl | split | simp only [hP])))).trans ?_) | (with_reducible refine (keep2 (fun _ _ => by (repeat' (first | with_reducible rfl | split | simp only [hP])))).trans ?_))

theorem policerWriteAll_keep {β : Type} (P : State → β) (hP : ∀ s x0, P { s with cls := x0 } = P s) (l : List Written) (s : State) : P (policerWriteAll l s) = P s := by
  unfold policerWriteAll; repeat' (first | with_reducible rfl | split | simp only [hP] | (with_reducible refine (keep (fun _ _ => by (repeat' (first | with_reducible rfl | split | simp only [hP])))).trans ?_) | (with_reducible refine (keep2 (fun _ _ => by (repeat' (first | with_reducible rfl | split | simp only [hP])))).trans ?_))

theorem slotWriteAll_keep {β : Type} (P : State → β) (hP : ∀ s x0, P { s with time := x0 } = P s) (k now : Nat) (st : Tab Octets) (s : State) : P (slotWriteAll k now st s) = P s := by
  unfold slotWriteAll; repeat' (first | with_reducible rfl | split | simp only [updTslot_keep P hP, hP] | (with_reducible refine (keep (fun _ _ => by (repeat' (first | with_reducible rfl | split | simp only [updTslot_keep P hP, hP])))).trans ?_) | (with_reducible refine (keep2 (fun _ _ => by (repeat' (first | with_reducible rfl | split | simp only [updTslot_keep P hP, hP])))).trans ?_))

theorem candidate_keep {β : Type} (P : State → β) (hP : ∀ s x0 x1 x2 x3 x4 x5, P { s with time := x0, ctl := x1, keys := x2, cls := x3, path := x4, otn := x5 } = P s) (k : Nat) (st : Tab Octets) (s : State) : P (candidate k st s) = P s := by
  unfold candidate; (repeat' split) <;> simp only [policerWriteAll_keep P (fun s x0 => hP s s.time s.ctl s.keys x0 s.path s.otn), putPlains_keep P (fun s x0 => hP s s.time x0 s.keys s.cls s.path s.otn), queueWriteAll_keep P (fun s x0 => hP s s.time s.ctl s.keys s.cls x0 s.otn), scWriteAll_keep P (fun s x0 => hP s s.time s.ctl x0 s.cls s.path s.otn), slotWriteAll_keep P (fun s x0 => hP s x0 s.ctl s.keys s.cls s.path s.otn), tribWriteAll_keep P (fun s x0 => hP s s.time s.ctl s.keys s.cls s.path x0), hP]

end Sys2Proof.Machine
end

