-- ==== Sys2Proof/Laws/KeepTrees.lean ====
section
/-! SUPPORT. What the operations and meanings of Machine/Trees.lean leave alone: `f_keep` says that whatever is read from
the state without looking at the components `f` may change is the same after `f`. -/
set_option linter.all false
namespace Sys2Proof.Machine

theorem switchCut_keep {β : Type} (P : State → β) (hP : ∀ s x0 x1 x2 x3 x4 x5, Memory.wf x4.hbm = Memory.wf s.mpu.hbm → P { s with host := x0, rest := x1, cls := x2, path := x3, mpu := x4, out := x5 } = P s) (st : Tab Octets) (c : Cut × Tab (BitVec 512)) (s : State) : P (switchCut st c s) = P s := by
  unfold switchCut; (repeat' split) <;> simp only [treeWrite_keep P (fun s x0 x1 x2 x3 x4 h => hP s x0 x1 s.cls x2 x3 x4 h), hP]

end Sys2Proof.Machine
end

