-- ==== Sys2Proof/Laws/KeepKeyRange.lean ====
section
/-! SUPPORT. What the operations and meanings of Machine/KeyRange.lean leave alone: `f_keep` says that whatever is read from
the state without looking at the components `f` may change is the same after `f`. -/
set_option linter.all false
namespace Sys2Proof.Machine

theorem storesPut_keep {β : Type} (P : State → β) (hP : ∀ s x0 x1 x2 x3 x4 x5, Memory.wf x4.hbm = Memory.wf s.mpu.hbm → P { s with host := x0, rest := x1, keys := x2, path := x3, mpu := x4, out := x5 } = P s) (st : Tab Octets) (s : State) : P (storesPut st s) = P s := by
  unfold storesPut; dsimp only; (repeat' split) <;> simp only [storeApply_keep P hP, hP]

theorem keyTablesPut_keep {β : Type} (P : State → β) (hP : ∀ s x0 x1, P { s with rest := x0, keys := x1 } = P s) (s0 : State) (st : Tab Octets) (s : State) : P (keyTablesPut s0 st s) = P s := by
  unfold keyTablesPut; (repeat' split) <;> simp only [rollWriteAll_keep P (fun s x0 => hP s s.rest x0), saWriteAll_keep P hP, hP]

end Sys2Proof.Machine
end

