-- ==== Sys2Proof/Laws/KeepApply.lean ====
section
/-! SUPPORT. What the operations and meanings of Machine/Apply.lean leave alone: `f_keep` says that whatever is read from
the state without looking at the components `f` may change is the same after `f`. -/
set_option linter.all false
namespace Sys2Proof.Machine

section
variable {β : Type} (P : State → β) (hP : ∀ s x0 x1 x2 x3 x4 x5 x6 x7 x8 x9 x10 x11 x12 x13, Memory.wf x11.hbm = Memory.wf s.mpu.hbm → P { s with time := x0, power := x1, ctl := x2, host := x3, rng := x4, rest := x5, keys := x6, cls := x7, fab := x8, path := x9, otn := x10, mpu := x11, out := x12, free := x13 } = P s)
include hP

theorem keyRange_run (s0 c : State) (st : Tab Octets) (ck : ChuckRun) : P (keyRange s0 c st ck).base = P s0 ∧ P (keyRange s0 c st ck).cand = P c := by
  have hs := fun st s => storesPut_keep P (fun s x0 x1 x2 x3 x4 x5 h => hP s s.time s.power s.ctl x0 s.rng x1 x2 s.cls s.fab x3 s.otn x4 x5 s.free h) st s
  have ht := fun s0 st s => keyTablesPut_keep P (fun s x0 x1 => hP s s.time s.power s.ctl s.host s.rng x0 x1 s.cls s.fab s.path s.otn s.mpu s.out s.free rfl) s0 st s
  have hr := fun n r s => keysRefused_keep P (fun s x0 => hP s s.time s.power s.ctl s.host s.rng s.rest x0 s.cls s.fab s.path s.otn s.mpu s.out s.free rfl) n r s
  have hk := fun n b k => keyCommands_run P (fun s x0 x1 x2 x3 x4 x5 x6 x7 x8 x9 x10 h => hP s x0 x1 s.ctl x2 x3 x4 x5 s.cls s.fab x6 x7 x8 x9 x10 h) n b k
  unfold keyRange commandFailed; dsimp only
  repeat' (first | split | simp only [hs, ht, hr, hk, and_self])

theorem enrollChecked_run (st : Tab Octets) (h : Checked) : P (enrollChecked st h).base = P h.base ∧ P (enrollChecked st h).cand = P h.cand := by
  have ho := fun nk s => enrollOpen_keep P (fun s x0 x1 x2 => hP s s.time s.power s.ctl s.host x0 s.rest x1 s.cls s.fab s.path s.otn s.mpu s.out x2 rfl) nk s
  have hc := fun s => enrollClose_keep P (fun s x0 => hP s s.time s.power s.ctl s.host s.rng s.rest x0 s.cls s.fab s.path s.otn s.mpu s.out s.free rfl) s
  have hr := fun n r s => keysRefused_keep P (fun s x0 => hP s s.time s.power s.ctl s.host s.rng s.rest x0 s.cls s.fab s.path s.otn s.mpu s.out s.free rfl) n r s
  have hk := fun t s => kekKeep_keep P (fun s x0 => hP s s.time s.power s.ctl s.host s.rng x0 s.keys s.cls s.fab s.path s.otn s.mpu s.out s.free rfl) t s
  have hf := fun t a key k => fill_run P (fun s x0 x1 x2 x3 x4 x5 x6 x7 x8 h => hP s s.time x0 s.ctl x1 x2 x3 x4 s.cls s.fab x5 x6 x7 x8 s.free h) t a key k
  unfold enrollChecked requestRefused Checked.refused; dsimp only
  repeat' (first | split | simp only [ho, hc, hr, hk, hf, hP, and_self, apply_ite P, ite_self])

theorem ownerChecked_run (k : Nat) (st : Tab Octets) (s0 : State) (h : Checked) : P (ownerChecked k st s0 h).base = P h.base ∧ P (ownerChecked k st s0 h).cand = P h.cand := by
  unfold ownerChecked Checked.refused; (repeat' split) <;> exact ⟨rfl, rfl⟩

theorem tokenChecked_run (i j : Nat) (d : Bool) (st : Tab Octets) (s0 : State) (h : Checked) : P (tokenChecked i j d st s0 h).base = P h.base ∧ P (tokenChecked i j d st s0 h).cand = P h.cand := by
  have ht := fun a b s => tokenRefused_keep P (fun s x0 x1 x2 x3 => hP s s.time s.power s.ctl x0 x1 x2 s.keys s.cls s.fab s.path s.otn s.mpu x3 s.free rfl) a b s
  unfold tokenChecked Checked.refused; (repeat' split) <;> simp only [ht, and_self]

/-- What the checks of a commit leave alone, in the state that stays and in the one it would leave. -/
theorem checkCommit_run (k : Nat) (st : Tab Octets) (ck : ChuckRun) (extra : List (Nat × Nat)) (s : State) : P (checkCommit k st ck extra s).base = P s ∧ P (checkCommit k st ck extra s).cand = P s := by
  have hc := fun k st s => candidate_keep P (fun s x0 x1 x2 x3 x4 x5 => hP s x0 s.power x1 s.host s.rng s.rest x2 x3 s.fab x4 x5 s.mpu s.out s.free rfl) k st s
  have hk := keyRange_run P hP
  have he := enrollChecked_run P hP
  have ho := ownerChecked_run P hP
  have ht := tokenChecked_run P hP
  unfold checkCommit Checked.refused; simp only [ht, ho, he, hk, hc, and_self]
end

theorem unconfigured_keep {β : Type} (P : State → β) (hP : ∀ s x0, P { s with otn := x0 } = P s) (e : Nat) (s : State) : P (unconfigured e s) = P s := by
  unfold unconfigured; (repeat' split) <;> simp only [updPm_keep P hP, hP]

theorem tribAligners_keep {β : Type} (P : State → β) (hP : ∀ s x0, P { s with otn := x0 } = P s) (t : Nat) (s : State) : P (tribAligners t s) = P s := by
  unfold tribAligners; (repeat' split) <;> simp only [hP]

theorem tribTakes_keep {β : Type} (P : State → β) (hP : ∀ s x0 x1, Memory.wf x1.hbm = Memory.wf s.mpu.hbm → P { s with otn := x0, mpu := x1 } = P s) (s0 : State) (t : Nat) (s : State) : P (tribTakes s0 t s) = P s := by
  unfold tribTakes; dsimp only; (repeat' split) <;> simp only [acquire_keep P (fun s x0 => hP s x0 s.mpu rfl), keyChangeDue_keep P (fun s x0 => hP s x0 s.mpu rfl), playClear_keep P hP, suspect_keep P (fun s x0 => hP s x0 s.mpu rfl), tribAligners_keep P (fun s x0 => hP s x0 s.mpu rfl), tribDefect_keep P (fun s x0 => hP s x0 s.mpu rfl), tribSaBits_keep P (fun s x0 => hP s x0 s.mpu rfl), unconfigured_keep P (fun s x0 => hP s x0 s.mpu rfl), updTr_keep P (fun s x0 => hP s x0 s.mpu rfl), hP]

theorem domainsSettle_keep {β : Type} (P : State → β) (hP : ∀ s x0, P { s with power := x0 } = P s) (s : State) : P (domainsSettle s) = P s := by
  unfold domainsSettle; repeat' (first | with_reducible rfl | split | simp only [lanesSettle_keep P hP, setDomain_keep P hP, hP] | (with_reducible refine (keep (fun _ _ => by (repeat' (first | with_reducible rfl | split | simp only [lanesSettle_keep P hP, setDomain_keep P hP, hP])))).trans ?_) | (with_reducible refine (keep2 (fun _ _ => by (repeat' (first | with_reducible rfl | split | simp only [lanesSettle_keep P hP, setDomain_keep P hP, hP])))).trans ?_))

theorem portRestarts_keep {β : Type} (P : State → β) (hP : ∀ s x0 x1 x2, Memory.wf x1.hbm = Memory.wf s.mpu.hbm → P { s with path := x0, mpu := x1, out := x2 } = P s) (n : Nat) (s : State) : P (portRestarts n s) = P s := by
  unfold portRestarts; repeat' (first | with_reducible rfl | split | simp only [discard_keep P hP, discardQueue_keep P hP, launchLost_keep P hP, updLink_keep P (fun s x0 => hP s x0 s.mpu s.out rfl), updPd_keep P (fun s x0 => hP s x0 s.mpu s.out rfl), hP] | (with_reducible refine (keep (fun _ _ => by (repeat' (first | with_reducible rfl | split | simp only [discard_keep P hP, discardQueue_keep P hP, launchLost_keep P hP, updLink_keep P (fun s x0 => hP s x0 s.mpu s.out rfl), updPd_keep P (fun s x0 => hP s x0 s.mpu s.out rfl), hP] | (with_reducible refine (keep (fun _ _ => by (repeat' (first | with_reducible rfl | split | simp only [discard_keep P hP, discardQueue_keep P hP, launchLost_keep P hP, updLink_keep P (fun s x0 => hP s x0 s.mpu s.out rfl), updPd_keep P (fun s x0 => hP s x0 s.mpu s.out rfl), hP])))).trans ?_) | (with_reducible refine (keep2 (fun _ _ => by (repeat' (first | with_reducible rfl | split | simp only [discard_keep P hP, discardQueue_keep P hP, launchLost_keep P hP, updLink_keep P (fun s x0 => hP s x0 s.mpu s.out rfl), updPd_keep P (fun s x0 => hP s x0 s.mpu s.out rfl), hP])))).trans ?_))))).trans ?_) | (with_reducible refine (keep2 (fun _ _ => by (repeat' (first | with_reducible rfl | split | simp only [discard_keep P hP, discardQueue_keep P hP, launchLost_keep P hP, updLink_keep P (fun s x0 => hP s x0 s.mpu s.out rfl), updPd_keep P (fun s x0 => hP s x0 s.mpu s.out rfl), hP] | (with_reducible refine (keep (fun _ _ => by (repeat' (first | with_reducible rfl | split | simp only [discard_keep P hP, discardQueue_keep P hP, launchLost_keep P hP, updLink_keep P (fun s x0 => hP s x0 s.mpu s.out rfl), updPd_keep P (fun s x0 => hP s x0 s.mpu s.out rfl), hP])))).trans ?_) | (with_reducible refine (keep2 (fun _ _ => by (repeat' (first | with_reducible rfl | split | simp only [discard_keep P hP, discardQueue_keep P hP, launchLost_keep P hP, updLink_keep P (fun s x0 => hP s x0 s.mpu s.out rfl), updPd_keep P (fun s x0 => hP s x0 s.mpu s.out rfl), hP])))).trans ?_))))).trans ?_))

theorem otucRestarts_keep {β : Type} (P : State → β) (hP : ∀ s x0 x1 x2, Memory.wf x1.hbm = Memory.wf s.mpu.hbm → P { s with otn := x0, mpu := x1, out := x2 } = P s) (k : Nat) (s : State) : P (otucRestarts k s) = P s := by
  unfold otucRestarts; repeat' (first | with_reducible rfl | split | simp only [otuSettle_keep P (fun s x0 x1 => hP s x0 s.mpu x1 rfl), playClear_keep P (fun s x0 x1 h => hP s x0 x1 s.out h), suspect_keep P (fun s x0 => hP s x0 s.mpu s.out rfl), tribAcquire_keep P (fun s x0 => hP s x0 s.mpu s.out rfl), tribAligners_keep P (fun s x0 => hP s x0 s.mpu s.out rfl), tribShow_keep P (fun s x0 => hP s x0 s.mpu s.out rfl), unconfigured_keep P (fun s x0 => hP s x0 s.mpu s.out rfl), hP] | (with_reducible refine (keep (fun _ _ => by (repeat' (first | with_reducible rfl | split | simp only [otuSettle_keep P (fun s x0 x1 => hP s x0 s.mpu x1 rfl), playClear_keep P (fun s x0 x1 h => hP s x0 x1 s.out h), suspect_keep P (fun s x0 => hP s x0 s.mpu s.out rfl), tribAcquire_keep P (fun s x0 => hP s x0 s.mpu s.out rfl), tribAligners_keep P (fun s x0 => hP s x0 s.mpu s.out rfl), tribShow_keep P (fun s x0 => hP s x0 s.mpu s.out rfl), unconfigured_keep P (fun s x0 => hP s x0 s.mpu s.out rfl), hP])))).trans ?_) | (with_reducible refine (keep2 (fun _ _ => by (repeat' (first | with_reducible rfl | split | simp only [otuSettle_keep P (fun s x0 x1 => hP s x0 s.mpu x1 rfl), playClear_keep P (fun s x0 x1 h => hP s x0 x1 s.out h), suspect_keep P (fun s x0 => hP s x0 s.mpu s.out rfl), tribAcquire_keep P (fun s x0 => hP s x0 s.mpu s.out rfl), tribAligners_keep P (fun s x0 => hP s x0 s.mpu s.out rfl), tribShow_keep P (fun s x0 => hP s x0 s.mpu s.out rfl), unconfigured_keep P (fun s x0 => hP s x0 s.mpu s.out rfl), hP])))).trans ?_))

theorem otnTakes_keep {β : Type} (P : State → β) (hP : ∀ s x0 x1, P { s with otn := x0, out := x1 } = P s) (s0 s : State) : P (otnTakes s0 s) = P s := by
  unfold otnTakes; repeat' (first | with_reducible rfl | split | simp only [sideShow_keep P hP, suspect_keep P (fun s x0 => hP s x0 s.out), hP] | (with_reducible refine (keep (fun _ _ => by (repeat' (first | with_reducible rfl | split | simp only [sideShow_keep P hP, suspect_keep P (fun s x0 => hP s x0 s.out), hP] | (with_reducible refine (keep (fun _ _ => by (repeat' (first | with_reducible rfl | split | simp only [sideShow_keep P hP, suspect_keep P (fun s x0 => hP s x0 s.out), hP])))).trans ?_) | (with_reducible refine (keep2 (fun _ _ => by (repeat' (first | with_reducible rfl | split | simp only [sideShow_keep P hP, suspect_keep P (fun s x0 => hP s x0 s.out), hP])))).trans ?_))))).trans ?_) | (with_reducible refine (keep2 (fun _ _ => by (repeat' (first | with_reducible rfl | split | simp only [sideShow_keep P hP, suspect_keep P (fun s x0 => hP s x0 s.out), hP] | (with_reducible refine (keep (fun _ _ => by (repeat' (first | with_reducible rfl | split | simp only [sideShow_keep P hP, suspect_keep P (fun s x0 => hP s x0 s.out), hP])))).trans ?_) | (with_reducible refine (keep2 (fun _ _ => by (repeat' (first | with_reducible rfl | split | simp only [sideShow_keep P hP, suspect_keep P (fun s x0 => hP s x0 s.out), hP])))).trans ?_))))).trans ?_))

theorem shapesTake_keep {β : Type} (P : State → β) (hP : ∀ s x0 x1 x2 x3 x4, Memory.wf x3.hbm = Memory.wf s.mpu.hbm → P { s with power := x0, path := x1, otn := x2, mpu := x3, out := x4 } = P s) (s0 s : State) : P (shapesTake s0 s) = P s := by
  unfold shapesTake; repeat' (first | with_reducible rfl | split | simp only [domainsSettle_keep P (fun s x0 => hP s x0 s.path s.otn s.mpu s.out rfl), otucRestarts_keep P (fun s x0 x1 x2 h => hP s s.power s.path x0 x1 x2 h), portRestarts_keep P (fun s x0 x1 x2 h => hP s s.power x0 s.otn x1 x2 h), hP] | (with_reducible refine (keep (fun _ _ => by (repeat' (first | with_reducible rfl | split | simp only [domainsSettle_keep P (fun s x0 => hP s x0 s.path s.otn s.mpu s.out rfl), otucRestarts_keep P (fun s x0 x1 x2 h => hP s s.power s.path x0 x1 x2 h), portRestarts_keep P (fun s x0 x1 x2 h => hP s s.power x0 s.otn x1 x2 h), hP] | (with_reducible refine (keep (fun _ _ => by (repeat' (first | with_reducible rfl | split | simp only [domainsSettle_keep P (fun s x0 => hP s x0 s.path s.otn s.mpu s.out rfl), otucRestarts_keep P (fun s x0 x1 x2 h => hP s s.power s.path x0 x1 x2 h), portRestarts_keep P (fun s x0 x1 x2 h => hP s s.power x0 s.otn x1 x2 h), hP])))).trans ?_) | (with_reducible refine (keep2 (fun _ _ => by (repeat' (first | with_reducible rfl | split | simp only [domainsSettle_keep P (fun s x0 => hP s x0 s.path s.otn s.mpu s.out rfl), otucRestarts_keep P (fun s x0 x1 x2 h => hP s s.power s.path x0 x1 x2 h), portRestarts_keep P (fun s x0 x1 x2 h => hP s s.power x0 s.otn x1 x2 h), hP])))).trans ?_))))).trans ?_) | (with_reducible refine (keep2 (fun _ _ => by (repeat' (first | with_reducible rfl | split | simp only [domainsSettle_keep P (fun s x0 => hP s x0 s.path s.otn s.mpu s.out rfl), otucRestarts_keep P (fun s x0 x1 x2 h => hP s s.power s.path x0 x1 x2 h), portRestarts_keep P (fun s x0 x1 x2 h => hP s s.power x0 s.otn x1 x2 h), hP] | (with_reducible refine (keep (fun _ _ => by (repeat' (first | with_reducible rfl | split | simp only [domainsSettle_keep P (fun s x0 => hP s x0 s.path s.otn s.mpu s.out rfl), otucRestarts_keep P (fun s x0 x1 x2 h => hP s s.power s.path x0 x1 x2 h), portRestarts_keep P (fun s x0 x1 x2 h => hP s s.power x0 s.otn x1 x2 h), hP])))).trans ?_) | (with_reducible refine (keep2 (fun _ _ => by (repeat' (first | with_reducible rfl | split | simp only [domainsSettle_keep P (fun s x0 => hP s x0 s.path s.otn s.mpu s.out rfl), otucRestarts_keep P (fun s x0 x1 x2 h => hP s s.power s.path x0 x1 x2 h), portRestarts_keep P (fun s x0 x1 x2 h => hP s s.power x0 s.otn x1 x2 h), hP])))).trans ?_))))).trans ?_))

theorem queueTakes_keep {β : Type} (P : State → β) (hP : ∀ s x0 x1 x2 x3 x4 x5 x6, Memory.wf x5.hbm = Memory.wf s.mpu.hbm → P { s with power := x0, host := x1, keys := x2, path := x3, otn := x4, mpu := x5, out := x6 } = P s) (s0 : State) (key : Nat) (s : State) : P (queueTakes s0 key s) = P s := by
  unfold queueTakes; dsimp only; (repeat' split) <;> simp only [discardQueue_keep P (fun s x0 x1 x2 h => hP s s.power s.host s.keys x0 s.otn x1 x2 h), leaveLists_keep P (fun s x0 => hP s s.power s.host s.keys x0 s.otn s.mpu s.out rfl), restate_keep P (fun s x0 => hP s s.power s.host s.keys x0 s.otn s.mpu s.out rfl), updQueue_keep P (fun s x0 => hP s s.power s.host s.keys x0 s.otn s.mpu s.out rfl), hP]

theorem linksTake_keep {β : Type} (P : State → β) (hP : ∀ s x0 x1, P { s with path := x0, out := x1 } = P s) (s0 s : State) : P (linksTake s0 s) = P s := by
  unfold linksTake; repeat' (first | with_reducible rfl | split | simp only [propagationTakes_keep P hP, hP] | (with_reducible refine (keep (fun _ _ => by (repeat' (first | with_reducible rfl | split | simp only [propagationTakes_keep P hP, hP])))).trans ?_) | (with_reducible refine (keep2 (fun _ _ => by (repeat' (first | with_reducible rfl | split | simp only [propagationTakes_keep P hP, hP])))).trans ?_))

theorem flowTakes_keep {β : Type} (P : State → β) (hP : ∀ s x0 x1, P { s with path := x0, out := x1 } = P s) (s0 s : State) : P (flowTakes s0 s) = P s := by
  unfold flowTakes; repeat' (first | with_reducible rfl | split | simp only [updPd_keep P (fun s x0 => hP s x0 s.out), xoffCheck_keep P hP, hP] | (with_reducible refine (keep (fun _ _ => by (repeat' (first | with_reducible rfl | split | simp only [updPd_keep P (fun s x0 => hP s x0 s.out), xoffCheck_keep P hP, hP])))).trans ?_) | (with_reducible refine (keep2 (fun _ _ => by (repeat' (first | with_reducible rfl | split | simp only [updPd_keep P (fun s x0 => hP s x0 s.out), xoffCheck_keep P hP, hP])))).trans ?_))

theorem ringForget_keep {β : Type} (P : State → β) (hP : ∀ s x0, P { s with ctl := x0 } = P s) (r : Nat) (s : State) : P (ringForget r s) = P s := by
  unfold ringForget; (repeat' split) <;> simp only [hP]

theorem ringTakes_keep {β : Type} (P : State → β) (hP : ∀ s x0 x1 x2 x3, P { s with time := x0, ctl := x1, host := x2, out := x3 } = P s) (s0 : State) (st : Tab Octets) (s : State) (r : Nat) : P (ringTakes s0 st s r) = P s := by
  unfold ringTakes; dsimp only; (repeat' split) <;> simp only [closeStaging_keep P (fun s x0 x1 => hP s x0 x1 s.host s.out), flushLost_keep P (fun s x0 x1 => hP s s.time s.ctl x0 x1), ringForget_keep P (fun s x0 => hP s s.time x0 s.host s.out), updRing_keep P (fun s x0 => hP s s.time s.ctl x0 s.out), hP]

theorem ringsTake_keep {β : Type} (P : State → β) (hP : ∀ s x0 x1 x2 x3, P { s with time := x0, ctl := x1, host := x2, out := x3 } = P s) (s0 : State) (st : Tab Octets) (s : State) : P (ringsTake s0 st s) = P s := by
  unfold ringsTake; repeat' (first | with_reducible rfl | split | simp only [ringTakes_keep P hP, hP] | (with_reducible refine (keep (fun _ _ => by (repeat' (first | with_reducible rfl | split | simp only [ringTakes_keep P hP, hP])))).trans ?_) | (with_reducible refine (keep2 (fun _ _ => by (repeat' (first | with_reducible rfl | split | simp only [ringTakes_keep P hP, hP])))).trans ?_))

theorem urzClose_keep {β : Type} (P : State → β) (hP : ∀ s x0 x1 x2, P { s with time := x0, ctl := x1, urz := x2 } = P s) (i : Nat) (s : State) : P (urzClose i s) = P s := by
  unfold urzClose; (repeat' split) <;> simp only [closeStaging_keep P (fun s x0 x1 => hP s x0 x1 s.urz), hP]

theorem channelTakes_keep {β : Type} (P : State → β) (hP : ∀ s x0 x1 x2, P { s with time := x0, ctl := x1, urz := x2 } = P s) (s0 s : State) : P (channelTakes s0 s) = P s := by
  unfold channelTakes; repeat' (first | with_reducible rfl | split | simp only [urzClose_keep P hP, hP] | (with_reducible refine (keep (fun _ _ => by (repeat' (first | with_reducible rfl | split | simp only [urzClose_keep P hP, hP])))).trans ?_) | (with_reducible refine (keep2 (fun _ _ => by (repeat' (first | with_reducible rfl | split | simp only [urzClose_keep P hP, hP])))).trans ?_))

theorem timeTakes_keep {β : Type} (P : State → β) (hP : ∀ s x0 x1 x2 x3 x4 x5 x6 x7, P { s with time := x0, host := x1, rest := x2, keys := x3, cls := x4, path := x5, otn := x6, out := x7 } = P s) (s0 : State) (st : Tab Octets) (s : State) : P (timeTakes s0 st s) = P s := by
  unfold timeTakes; repeat' (first | with_reducible rfl | split | simp only [lockPins_keep P (fun s x0 x1 => hP s x0 s.host s.rest s.keys s.cls s.path s.otn x1), pinSettle_keep P (fun s x0 x1 => hP s x0 s.host s.rest s.keys s.cls s.path s.otn x1), pulseEnd_keep P (fun s x0 x1 => hP s x0 s.host s.rest s.keys s.cls s.path s.otn x1), servoMaster_keep P (fun s x0 x1 => hP s x0 s.host s.rest s.keys s.cls s.path s.otn x1), servoPolicy_keep P (fun s x0 x1 => hP s x0 s.host s.rest s.keys s.cls s.path s.otn x1), servoSource_keep P (fun s x0 x1 => hP s x0 s.host s.rest s.keys s.cls s.path s.otn x1), setTimeTo_keep P hP, timeGiven_keep P hP, updPin_keep P (fun s x0 => hP s x0 s.host s.rest s.keys s.cls s.path s.otn s.out), hP] | (with_reducible refine (keep (fun _ _ => by (repeat' (first | with_reducible rfl | split | simp only [lockPins_keep P (fun s x0 x1 => hP s x0 s.host s.rest s.keys s.cls s.path s.otn x1), pinSettle_keep P (fun s x0 x1 => hP s x0 s.host s.rest s.keys s.cls s.path s.otn x1), pulseEnd_keep P (fun s x0 x1 => hP s x0 s.host s.rest s.keys s.cls s.path s.otn x1), servoMaster_keep P (fun s x0 x1 => hP s x0 s.host s.rest s.keys s.cls s.path s.otn x1), servoPolicy_keep P (fun s x0 x1 => hP s x0 s.host s.rest s.keys s.cls s.path s.otn x1), servoSource_keep P (fun s x0 x1 => hP s x0 s.host s.rest s.keys s.cls s.path s.otn x1), setTimeTo_keep P hP, timeGiven_keep P hP, updPin_keep P (fun s x0 => hP s x0 s.host s.rest s.keys s.cls s.path s.otn s.out), hP])))).trans ?_) | (with_reducible refine (keep2 (fun _ _ => by (repeat' (first | with_reducible rfl | split | simp only [lockPins_keep P (fun s x0 x1 => hP s x0 s.host s.rest s.keys s.cls s.path s.otn x1), pinSettle_keep P (fun s x0 x1 => hP s x0 s.host s.rest s.keys s.cls s.path s.otn x1), pulseEnd_keep P (fun s x0 x1 => hP s x0 s.host s.rest s.keys s.cls s.path s.otn x1), servoMaster_keep P (fun s x0 x1 => hP s x0 s.host s.rest s.keys s.cls s.path s.otn x1), servoPolicy_keep P (fun s x0 x1 => hP s x0 s.host s.rest s.keys s.cls s.path s.otn x1), servoSource_keep P (fun s x0 x1 => hP s x0 s.host s.rest s.keys s.cls s.path s.otn x1), setTimeTo_keep P hP, timeGiven_keep P hP, updPin_keep P (fun s x0 => hP s x0 s.host s.rest s.keys s.cls s.path s.otn s.out), hP])))).trans ?_))

theorem noticesTake_keep {β : Type} (P : State → β) (hP : ∀ s x0 x1 x2, P { s with keys := x0, otn := x1, out := x2 } = P s) (s : State) : P (noticesTake s) = P s := by
  unfold noticesTake; repeat' (first | with_reducible rfl | split | simp only [rollAtNotice_keep P hP, hP] | (with_reducible refine (keep (fun _ _ => by (repeat' (first | with_reducible rfl | split | simp only [rollAtNotice_keep P hP, hP])))).trans ?_) | (with_reducible refine (keep2 (fun _ _ => by (repeat' (first | with_reducible rfl | split | simp only [rollAtNotice_keep P hP, hP])))).trans ?_))

theorem fabricTakes_keep {β : Type} (P : State → β) (hP : ∀ s x0 x1 x2 x3 x4 x5 x6 x7, Memory.wf x6.hbm = Memory.wf s.mpu.hbm → P { s with power := x0, host := x1, rng := x2, rest := x3, fab := x4, path := x5, mpu := x6, out := x7 } = P s) (st : Tab Octets) (s : State) : P (fabricTakes st s) = P s := by
  unfold fabricTakes; repeat' (first | with_reducible rfl | split | simp only [fixedRail_keep P (fun s x0 x1 => hP s s.power s.host s.rng s.rest x0 s.path s.mpu x1 rfl), settleRoles_keep P (fun s x0 x1 x2 x3 x4 x5 x6 h => hP s x0 x1 x2 x3 x4 s.path x5 x6 h), spindleCommand_keep P hP, hP] | (with_reducible refine (keep (fun _ _ => by (repeat' (first | with_reducible rfl | split | simp only [fixedRail_keep P (fun s x0 x1 => hP s s.power s.host s.rng s.rest x0 s.path s.mpu x1 rfl), settleRoles_keep P (fun s x0 x1 x2 x3 x4 x5 x6 h => hP s x0 x1 x2 x3 x4 s.path x5 x6 h), spindleCommand_keep P hP, hP])))).trans ?_) | (with_reducible refine (keep2 (fun _ _ => by (repeat' (first | with_reducible rfl | split | simp only [fixedRail_keep P (fun s x0 x1 => hP s s.power s.host s.rng s.rest x0 s.path s.mpu x1 rfl), settleRoles_keep P (fun s x0 x1 x2 x3 x4 x5 x6 h => hP s x0 x1 x2 x3 x4 s.path x5 x6 h), spindleCommand_keep P hP, hP])))).trans ?_))

theorem testsTake_keep {β : Type} (P : State → β) (hP : ∀ s x0 x1, Memory.wf x1.hbm = Memory.wf s.mpu.hbm → P { s with rng := x0, mpu := x1 } = P s) (st : Tab Octets) (s : State) : P (testsTake st s) = P s := by
  unfold testsTake; (repeat' split) <;> simp only [captureStart_keep P (fun s x0 => hP s x0 s.mpu rfl), injectFault_keep P (fun s x0 h => hP s s.rng x0 h), rawView_keep P (fun s x0 h => hP s s.rng x0 h), hP]

theorem restTakes_keep {β : Type} (P : State → β) (hP : ∀ s x0 x1 x2 x3 x4, P { s with power := x0, host := x1, rng := x2, rest := x3, out := x4 } = P s) (st : Tab Octets) (s : State) : P (restTakes st s) = P s := by
  unfold restTakes; (repeat' split) <;> simp only [ackApply_keep P (fun s x0 x1 x2 => hP s s.power x0 s.rng x1 x2), advanceApply_keep P (fun s x0 x1 x2 => hP s s.power x0 s.rng x1 x2), debugAccepted_keep P hP, debugPower_keep P (fun s x0 x1 x2 x3 => hP s x0 x1 s.rng x2 x3), unlocked_keep P (fun s x0 x1 x2 x3 => hP s s.power x0 x1 x2 x3), hP]

theorem powerSwitch_keep {β : Type} (P : State → β) (hP : ∀ s x0 x1, P { s with power := x0, rng := x1 } = P s) (d : Nat) (on : Bool) (s : State) : P (powerSwitch d on s) = P s := by
  unfold powerSwitch; (repeat' split) <;> simp only [setDomain_keep P (fun s x0 => hP s x0 s.rng), sourcesOff_keep P (fun s x0 => hP s s.power x0), sourcesStart_keep P (fun s x0 => hP s s.power x0), hP]

theorem pcieSettle_keep {β : Type} (P : State → β) (hP : ∀ s x0 x1 x2 x3 x4, P { s with time := x0, power := x1, ctl := x2, host := x3, path := x4 } = P s) (s : State) : P (pcieSettle s) = P s := by
  unfold pcieSettle; (repeat' split) <;> simp only [flr_keep P (fun s x0 x1 x2 x3 => hP s x0 s.power x1 x2 x3), ringZero_keep P (fun s x0 => hP s s.time s.power s.ctl x0 s.path), hP]

theorem powerTakes_keep {β : Type} (P : State → β) (hP : ∀ s x0 x1, P { s with power := x0, rng := x1 } = P s) (st : Tab Octets) (s : State) : P (powerTakes st s) = P s := by
  unfold powerTakes; repeat' (first | with_reducible rfl | split | simp only [powerSwitch_keep P hP, hP] | (with_reducible refine (keep (fun _ _ => by (repeat' (first | with_reducible rfl | split | simp only [powerSwitch_keep P hP, hP])))).trans ?_) | (with_reducible refine (keep2 (fun _ _ => by (repeat' (first | with_reducible rfl | split | simp only [powerSwitch_keep P hP, hP])))).trans ?_))

theorem resetsTake_keep {β : Type} (P : State → β) (hP : ∀ s x0 x1 x2 x3 x4 x5 x6 x7 x8 x9 x10 x11 x12, Memory.wf x11.hbm = Memory.wf s.mpu.hbm → P { s with time := x0, power := x1, ctl := x2, host := x3, rng := x4, rest := x5, keys := x6, cls := x7, fab := x8, path := x9, otn := x10, mpu := x11, out := x12 } = P s) (st : Tab Octets) (s : State) : P (resetsTake st s) = P s := by
  unfold resetsTake; repeat' (first | with_reducible rfl | split | simp only [domainReset_keep P hP, drainStart_keep P (fun s x0 x1 => hP s s.time x0 s.ctl s.host s.rng s.rest s.keys s.cls s.fab x1 s.otn s.mpu s.out rfl), hP] | (with_reducible refine (keep (fun _ _ => by (repeat' (first | with_reducible rfl | split | simp only [domainReset_keep P hP, drainStart_keep P (fun s x0 x1 => hP s s.time x0 s.ctl s.host s.rng s.rest s.keys s.cls s.fab x1 s.otn s.mpu s.out rfl), hP])))).trans ?_) | (with_reducible refine (keep2 (fun _ _ => by (repeat' (first | with_reducible rfl | split | simp only [domainReset_keep P hP, drainStart_keep P (fun s x0 x1 => hP s s.time x0 s.ctl s.host s.rng s.rest s.keys s.cls s.fab x1 s.otn s.mpu s.out rfl), hP])))).trans ?_))

theorem saveStart_keep {β : Type} (P : State → β) (hP : ∀ s x0, P { s with ctl := x0 } = P s) (s : State) : P (saveStart s) = P s := by
  unfold saveStart; (repeat' split) <;> simp only [hP]

theorem saveEnd_keep {β : Type} (P : State → β) (hP : ∀ s x0 x1, P { s with ctl := x0, out := x1 } = P s) (ok : Bool) (s : State) : P (saveEnd ok s) = P s := by
  unfold saveEnd; (repeat' split) <;> simp only [emit_keep P (fun s x0 => hP s s.ctl x0), hP]

theorem logConfig_keep {β : Type} (P : State → β) (hP : ∀ s x0 x1 x2, P { s with host := x0, rest := x1, out := x2 } = P s) (s0 : State) (st : Tab Octets) (s : State) : P (logConfig s0 st s) = P s := by
  unfold logConfig; repeat' (first | with_reducible rfl | split | simp only [logEntry_keep P hP, hP] | (with_reducible refine (keep (fun _ _ => by (repeat' (first | with_reducible rfl | split | simp only [logEntry_keep P hP, hP])))).trans ?_) | (with_reducible refine (keep2 (fun _ _ => by (repeat' (first | with_reducible rfl | split | simp only [logEntry_keep P hP, hP])))).trans ?_))

theorem lastTakes_keep {β : Type} (P : State → β) (hP : ∀ s x0 x1 x2 x3 x4 x5 x6 x7 x8 x9 x10 x11 x12 x13 x14, Memory.wf x12.hbm = Memory.wf s.mpu.hbm → P { s with time := x0, power := x1, ctl := x2, host := x3, urz := x4, rng := x5, rest := x6, keys := x7, cls := x8, fab := x9, path := x10, otn := x11, mpu := x12, out := x13, free := x14 } = P s) (st : Tab Octets) (s : State) : P (lastTakes st s) = P s := by
  unfold lastTakes; (repeat' split) <;> simp only [logZeroize_keep P (fun s x0 x1 x2 => hP s s.time s.power s.ctl x0 s.urz s.rng x1 s.keys s.cls s.fab s.path s.otn s.mpu x2 s.free rfl), ownerApply_keep P hP, zeroizeData_keep P (fun s x0 x1 x2 x3 x4 x5 => hP s s.time s.power s.ctl x0 s.urz s.rng s.rest x1 s.cls x2 x3 x4 s.mpu x5 s.free rfl), zeroizeWhole_keep P (fun s x0 x1 x2 x3 x4 x5 x6 x7 x8 x9 x10 x11 x12 x13 h => hP s x0 x1 x2 x3 x4 x5 x6 x7 x8 x9 x10 x11 x12 x13 s.free h), hP]

theorem applyCommit_keep {β : Type} (P : State → β) (hP : ∀ s x0 x1 x2 x3 x4 x5 x6 x7 x8 x9 x10 x11 x12 x13 x14, Memory.wf x12.hbm = Memory.wf s.mpu.hbm → P { s with time := x0, power := x1, ctl := x2, host := x3, urz := x4, rng := x5, rest := x6, keys := x7, cls := x8, fab := x9, path := x10, otn := x11, mpu := x12, out := x13, free := x14 } = P s) (s0 : State) (st : Tab Octets) (h : Checked) (cut : Option (Cut × Tab (BitVec 512))) : P (applyCommit s0 st h cut) = P h.cand := by
  unfold applyCommit; repeat' (first | with_reducible rfl | split | simp only [channelTakes_keep P (fun s x0 x1 x2 => hP s x0 s.power x1 s.host x2 s.rng s.rest s.keys s.cls s.fab s.path s.otn s.mpu s.out s.free rfl), fabricTakes_keep P (fun s x0 x1 x2 x3 x4 x5 x6 x7 h => hP s s.time x0 s.ctl x1 s.urz x2 x3 s.keys s.cls x4 x5 s.otn x6 x7 s.free h), flowTakes_keep P (fun s x0 x1 => hP s s.time s.power s.ctl s.host s.urz s.rng s.rest s.keys s.cls s.fab x0 s.otn s.mpu x1 s.free rfl), keysApply_keep P (fun s x0 x1 => hP s s.time s.power s.ctl s.host s.urz s.rng x0 x1 s.cls s.fab s.path s.otn s.mpu s.out s.free rfl), lastTakes_keep P hP, linksTake_keep P (fun s x0 x1 => hP s s.time s.power s.ctl s.host s.urz s.rng s.rest s.keys s.cls s.fab x0 s.otn s.mpu x1 s.free rfl), logConfig_keep P (fun s x0 x1 x2 => hP s s.time s.power s.ctl x0 s.urz s.rng x1 s.keys s.cls s.fab s.path s.otn s.mpu x2 s.free rfl), noticesTake_keep P (fun s x0 x1 x2 => hP s s.time s.power s.ctl s.host s.urz s.rng s.rest x0 s.cls s.fab s.path x1 s.mpu x2 s.free rfl), otnTakes_keep P (fun s x0 x1 => hP s s.time s.power s.ctl s.host s.urz s.rng s.rest s.keys s.cls s.fab s.path x0 s.mpu x1 s.free rfl), powerTakes_keep P (fun s x0 x1 => hP s s.time x0 s.ctl s.host s.urz x1 s.rest s.keys s.cls s.fab s.path s.otn s.mpu s.out s.free rfl), queueTakes_keep P (fun s x0 x1 x2 x3 x4 x5 x6 h => hP s s.time x0 s.ctl x1 s.urz s.rng s.rest x2 s.cls s.fab x3 x4 x5 x6 s.free h), resetsTake_keep P (fun s x0 x1 x2 x3 x4 x5 x6 x7 x8 x9 x10 x11 x12 h => hP s x0 x1 x2 x3 s.urz x4 x5 x6 x7 x8 x9 x10 x11 x12 s.free h), restTakes_keep P (fun s x0 x1 x2 x3 x4 => hP s s.time x0 s.ctl x1 s.urz x2 x3 s.keys s.cls s.fab s.path s.otn s.mpu x4 s.free rfl), ringsTake_keep P (fun s x0 x1 x2 x3 => hP s x0 s.power x1 x2 s.urz s.rng s.rest s.keys s.cls s.fab s.path s.otn s.mpu x3 s.free rfl), saveStart_keep P (fun s x0 => hP s s.time s.power x0 s.host s.urz s.rng s.rest s.keys s.cls s.fab s.path s.otn s.mpu s.out s.free rfl), shapesTake_keep P (fun s x0 x1 x2 x3 x4 h => hP s s.time x0 s.ctl s.host s.urz s.rng s.rest s.keys s.cls s.fab x1 x2 x3 x4 s.free h), switchCut_keep P (fun s x0 x1 x2 x3 x4 x5 h => hP s s.time s.power s.ctl x0 s.urz s.rng x1 s.keys x2 s.fab x3 s.otn x4 x5 s.free h), testsTake_keep P (fun s x0 x1 h => hP s s.time s.power s.ctl s.host s.urz x0 s.rest s.keys s.cls s.fab s.path s.otn x1 s.out s.free h), timeTakes_keep P (fun s x0 x1 x2 x3 x4 x5 x6 x7 => hP s x0 s.power s.ctl x1 s.urz s.rng x2 x3 x4 s.fab x5 x6 s.mpu x7 s.free rfl), tribTakes_keep P (fun s x0 x1 h => hP s s.time s.power s.ctl s.host s.urz s.rng s.rest s.keys s.cls s.fab s.path x0 x1 s.out s.free h), hP] | (with_reducible refine (keep (fun _ _ => by (repeat' (first | with_reducible rfl | split | simp only [channelTakes_keep P (fun s x0 x1 x2 => hP s x0 s.power x1 s.host x2 s.rng s.rest s.keys s.cls s.fab s.path s.otn s.mpu s.out s.free rfl), fabricTakes_keep P (fun s x0 x1 x2 x3 x4 x5 x6 x7 h => hP s s.time x0 s.ctl x1 s.urz x2 x3 s.keys s.cls x4 x5 s.otn x6 x7 s.free h), flowTakes_keep P (fun s x0 x1 => hP s s.time s.power s.ctl s.host s.urz s.rng s.rest s.keys s.cls s.fab x0 s.otn s.mpu x1 s.free rfl), keysApply_keep P (fun s x0 x1 => hP s s.time s.power s.ctl s.host s.urz s.rng x0 x1 s.cls s.fab s.path s.otn s.mpu s.out s.free rfl), lastTakes_keep P hP, linksTake_keep P (fun s x0 x1 => hP s s.time s.power s.ctl s.host s.urz s.rng s.rest s.keys s.cls s.fab x0 s.otn s.mpu x1 s.free rfl), logConfig_keep P (fun s x0 x1 x2 => hP s s.time s.power s.ctl x0 s.urz s.rng x1 s.keys s.cls s.fab s.path s.otn s.mpu x2 s.free rfl), noticesTake_keep P (fun s x0 x1 x2 => hP s s.time s.power s.ctl s.host s.urz s.rng s.rest x0 s.cls s.fab s.path x1 s.mpu x2 s.free rfl), otnTakes_keep P (fun s x0 x1 => hP s s.time s.power s.ctl s.host s.urz s.rng s.rest s.keys s.cls s.fab s.path x0 s.mpu x1 s.free rfl), powerTakes_keep P (fun s x0 x1 => hP s s.time x0 s.ctl s.host s.urz x1 s.rest s.keys s.cls s.fab s.path s.otn s.mpu s.out s.free rfl), queueTakes_keep P (fun s x0 x1 x2 x3 x4 x5 x6 h => hP s s.time x0 s.ctl x1 s.urz s.rng s.rest x2 s.cls s.fab x3 x4 x5 x6 s.free h), resetsTake_keep P (fun s x0 x1 x2 x3 x4 x5 x6 x7 x8 x9 x10 x11 x12 h => hP s x0 x1 x2 x3 s.urz x4 x5 x6 x7 x8 x9 x10 x11 x12 s.free h), restTakes_keep P (fun s x0 x1 x2 x3 x4 => hP s s.time x0 s.ctl x1 s.urz x2 x3 s.keys s.cls s.fab s.path s.otn s.mpu x4 s.free rfl), ringsTake_keep P (fun s x0 x1 x2 x3 => hP s x0 s.power x1 x2 s.urz s.rng s.rest s.keys s.cls s.fab s.path s.otn s.mpu x3 s.free rfl), saveStart_keep P (fun s x0 => hP s s.time s.power x0 s.host s.urz s.rng s.rest s.keys s.cls s.fab s.path s.otn s.mpu s.out s.free rfl), shapesTake_keep P (fun s x0 x1 x2 x3 x4 h => hP s s.time x0 s.ctl s.host s.urz s.rng s.rest s.keys s.cls s.fab x1 x2 x3 x4 s.free h), switchCut_keep P (fun s x0 x1 x2 x3 x4 x5 h => hP s s.time s.power s.ctl x0 s.urz s.rng x1 s.keys x2 s.fab x3 s.otn x4 x5 s.free h), testsTake_keep P (fun s x0 x1 h => hP s s.time s.power s.ctl s.host s.urz x0 s.rest s.keys s.cls s.fab s.path s.otn x1 s.out s.free h), timeTakes_keep P (fun s x0 x1 x2 x3 x4 x5 x6 x7 => hP s x0 s.power s.ctl x1 s.urz s.rng x2 x3 x4 s.fab x5 x6 s.mpu x7 s.free rfl), tribTakes_keep P (fun s x0 x1 h => hP s s.time s.power s.ctl s.host s.urz s.rng s.rest s.keys s.cls s.fab s.path x0 x1 s.out s.free h), hP])))).trans ?_) | (with_reducible refine (keep2 (fun _ _ => by (repeat' (first | with_reducible rfl | split | simp only [channelTakes_keep P (fun s x0 x1 x2 => hP s x0 s.power x1 s.host x2 s.rng s.rest s.keys s.cls s.fab s.path s.otn s.mpu s.out s.free rfl), fabricTakes_keep P (fun s x0 x1 x2 x3 x4 x5 x6 x7 h => hP s s.time x0 s.ctl x1 s.urz x2 x3 s.keys s.cls x4 x5 s.otn x6 x7 s.free h), flowTakes_keep P (fun s x0 x1 => hP s s.time s.power s.ctl s.host s.urz s.rng s.rest s.keys s.cls s.fab x0 s.otn s.mpu x1 s.free rfl), keysApply_keep P (fun s x0 x1 => hP s s.time s.power s.ctl s.host s.urz s.rng x0 x1 s.cls s.fab s.path s.otn s.mpu s.out s.free rfl), lastTakes_keep P hP, linksTake_keep P (fun s x0 x1 => hP s s.time s.power s.ctl s.host s.urz s.rng s.rest s.keys s.cls s.fab x0 s.otn s.mpu x1 s.free rfl), logConfig_keep P (fun s x0 x1 x2 => hP s s.time s.power s.ctl x0 s.urz s.rng x1 s.keys s.cls s.fab s.path s.otn s.mpu x2 s.free rfl), noticesTake_keep P (fun s x0 x1 x2 => hP s s.time s.power s.ctl s.host s.urz s.rng s.rest x0 s.cls s.fab s.path x1 s.mpu x2 s.free rfl), otnTakes_keep P (fun s x0 x1 => hP s s.time s.power s.ctl s.host s.urz s.rng s.rest s.keys s.cls s.fab s.path x0 s.mpu x1 s.free rfl), powerTakes_keep P (fun s x0 x1 => hP s s.time x0 s.ctl s.host s.urz x1 s.rest s.keys s.cls s.fab s.path s.otn s.mpu s.out s.free rfl), queueTakes_keep P (fun s x0 x1 x2 x3 x4 x5 x6 h => hP s s.time x0 s.ctl x1 s.urz s.rng s.rest x2 s.cls s.fab x3 x4 x5 x6 s.free h), resetsTake_keep P (fun s x0 x1 x2 x3 x4 x5 x6 x7 x8 x9 x10 x11 x12 h => hP s x0 x1 x2 x3 s.urz x4 x5 x6 x7 x8 x9 x10 x11 x12 s.free h), restTakes_keep P (fun s x0 x1 x2 x3 x4 => hP s s.time x0 s.ctl x1 s.urz x2 x3 s.keys s.cls s.fab s.path s.otn s.mpu x4 s.free rfl), ringsTake_keep P (fun s x0 x1 x2 x3 => hP s x0 s.power x1 x2 s.urz s.rng s.rest s.keys s.cls s.fab s.path s.otn s.mpu x3 s.free rfl), saveStart_keep P (fun s x0 => hP s s.time s.power x0 s.host s.urz s.rng s.rest s.keys s.cls s.fab s.path s.otn s.mpu s.out s.free rfl), shapesTake_keep P (fun s x0 x1 x2 x3 x4 h => hP s s.time x0 s.ctl s.host s.urz s.rng s.rest s.keys s.cls s.fab x1 x2 x3 x4 s.free h), switchCut_keep P (fun s x0 x1 x2 x3 x4 x5 h => hP s s.time s.power s.ctl x0 s.urz s.rng x1 s.keys x2 s.fab x3 s.otn x4 x5 s.free h), testsTake_keep P (fun s x0 x1 h => hP s s.time s.power s.ctl s.host s.urz x0 s.rest s.keys s.cls s.fab s.path s.otn x1 s.out s.free h), timeTakes_keep P (fun s x0 x1 x2 x3 x4 x5 x6 x7 => hP s x0 s.power s.ctl x1 s.urz s.rng x2 x3 x4 s.fab x5 x6 s.mpu x7 s.free rfl), tribTakes_keep P (fun s x0 x1 h => hP s s.time s.power s.ctl s.host s.urz s.rng s.rest s.keys s.cls s.fab s.path x0 x1 s.out s.free h), hP])))).trans ?_))

end Sys2Proof.Machine
end

