-- ==== Sys2Proof/Laws/KeepCommit.lean ====
section
/-! SUPPORT. What the operations and meanings of Machine/Commit.lean leave alone: `f_keep` says that whatever is read from
the state without looking at the components `f` may change is the same after `f`. -/
set_option linter.all false
namespace Sys2Proof.Machine

theorem updSession_keep {β : Type} (P : State → β) (hP : ∀ s x0, P { s with ctl := x0 } = P s) (k : Nat) (f : Session → Session) (s : State) : P (updSession k f s) = P s := by
  unfold updSession; (repeat' split) <;> simp only [hP]

theorem classResult_keep {β : Type} (P : State → β) (hP : ∀ s x0, P { s with cls := x0 } = P s) (st : Tab Octets) (fails : List (Nat × Nat)) (s : State) : P (classResult st fails s) = P s := by
  unfold classResult; (repeat' split) <;> simp only [hP]

theorem runCommit_keep {β : Type} (P : State → β) (hP : ∀ s x0 x1 x2 x3 x4 x5 x6 x7 x8 x9 x10 x11 x12 x13 x14, Memory.wf x12.hbm = Memory.wf s.mpu.hbm → P { s with time := x0, power := x1, ctl := x2, host := x3, urz := x4, rng := x5, rest := x6, keys := x7, cls := x8, fab := x9, path := x10, otn := x11, mpu := x12, out := x13, free := x14 } = P s) (k : Nat) (st : Tab Octets) (ck : ChuckRun) (extra : List (Nat × Nat)) (cut : Option (Cut × Tab (BitVec 512))) (s : State) : P (runCommit k st ck extra cut s).2 = P s := by
  have f := checkCommit_run P (fun s x0 x1 x2 x3 x4 x5 x6 x7 x8 x9 x10 x11 x12 x13 h => hP s x0 x1 x2 x3 s.urz x4 x5 x6 x7 x8 x9 x10 x11 x12 x13 h) k st ck extra s
  unfold runCommit; dsimp only; split <;> simp only [applyCommit_keep P hP, classResult_keep P (fun s x0 => hP s s.time s.power s.ctl s.host s.urz s.rng s.rest s.keys x0 s.fab s.path s.otn s.mpu s.out s.free rfl), hP, f]

theorem setLast_keep {β : Type} (P : State → β) (hP : ∀ s x0, P { s with ctl := x0 } = P s) (k code : Nat) (s : State) : P (setLast k code s) = P s := by
  unfold setLast; (repeat' split) <;> simp only [updSession_keep P hP, hP]

theorem endCommit_keep {β : Type} (P : State → β) (hP : ∀ s x0 x1 x2 x3 x4 x5 x6 x7 x8 x9 x10 x11 x12 x13 x14, Memory.wf x12.hbm = Memory.wf s.mpu.hbm → P { s with time := x0, power := x1, ctl := x2, host := x3, urz := x4, rng := x5, rest := x6, keys := x7, cls := x8, fab := x9, path := x10, otn := x11, mpu := x12, out := x13, free := x14 } = P s) (j : Job) (extra : List (Nat × Nat)) (cut : Option (Cut × Tab (BitVec 512))) (s : State) : P (endCommit j extra cut s).2 = P s := by
  unfold endCommit; (repeat' split) <;> simp only [runCommit_keep P hP, setLast_keep P (fun s x0 => hP s s.time s.power x0 s.host s.urz s.rng s.rest s.keys s.cls s.fab s.path s.otn s.mpu s.out s.free rfl), hP]

theorem takeUp_keep {β : Type} (P : State → β) (hP : ∀ s x0 x1 x2 x3 x4 x5 x6 x7 x8 x9 x10 x11 x12 x13 x14, Memory.wf x12.hbm = Memory.wf s.mpu.hbm → P { s with time := x0, power := x1, ctl := x2, host := x3, urz := x4, rng := x5, rest := x6, keys := x7, cls := x8, fab := x9, path := x10, otn := x11, mpu := x12, out := x13, free := x14 } = P s) (j : Job) (s : State) : P (takeUp j s).2 = P s := by
  unfold takeUp; dsimp only; (repeat' split) <;> simp only [endCommit_keep P hP, startCompile_keep P (fun s x0 x1 => hP s s.time s.power x0 s.host s.urz s.rng s.rest s.keys x1 s.fab s.path s.otn s.mpu s.out s.free rfl), hP]

theorem finish_keep {β : Type} (P : State → β) (hP : ∀ s x0, P { s with ctl := x0 } = P s) (k code : Nat) (s : State) : P (finish k code s) = P s := by
  unfold finish; (repeat' split) <;> simp only [hP]

theorem serveQueue_keep {β : Type} (P : State → β) (hP : ∀ s x0 x1 x2 x3 x4 x5 x6 x7 x8 x9 x10 x11 x12 x13 x14, Memory.wf x12.hbm = Memory.wf s.mpu.hbm → P { s with time := x0, power := x1, ctl := x2, host := x3, urz := x4, rng := x5, rest := x6, keys := x7, cls := x8, fab := x9, path := x10, otn := x11, mpu := x12, out := x13, free := x14 } = P s)  (a0 : Nat) (a1 : State) : P (serveQueue a0 a1) = P a1 := by
  induction a0 generalizing a1 with
  | zero => rfl
  | succ n ih => unfold serveQueue; repeat' (first | with_reducible rfl | split | simp only [ih, finish_keep P (fun s x0 => hP s s.time s.power x0 s.host s.urz s.rng s.rest s.keys s.cls s.fab s.path s.otn s.mpu s.out s.free rfl), takeUp_keep P hP, hP])

theorem commitArrive_keep {β : Type} (P : State → β) (hP : ∀ s x0 x1 x2 x3 x4 x5 x6 x7 x8 x9 x10 x11 x12 x13 x14, Memory.wf x12.hbm = Memory.wf s.mpu.hbm → P { s with time := x0, power := x1, ctl := x2, host := x3, urz := x4, rng := x5, rest := x6, keys := x7, cls := x8, fab := x9, path := x10, otn := x11, mpu := x12, out := x13, free := x14 } = P s) (j : Job) (s : State) : P (commitArrive j s).2 = P s := by
  unfold commitArrive; (repeat' split) <;> simp only [takeUp_keep P hP, hP]

theorem commitWrite_keep {β : Type} (P : State → β) (hP : ∀ s x0 x1 x2 x3 x4 x5 x6 x7 x8 x9 x10 x11 x12 x13 x14, Memory.wf x12.hbm = Memory.wf s.mpu.hbm → P { s with time := x0, power := x1, ctl := x2, host := x3, urz := x4, rng := x5, rest := x6, keys := x7, cls := x8, fab := x9, path := x10, otn := x11, mpu := x12, out := x13, free := x14 } = P s) (k expected : Nat) (ck : ChuckRun) (s : State) : P (commitWrite k expected ck s).2 = P s := by
  unfold commitWrite; (repeat' split) <;> simp only [commitArrive_keep P hP, updSession_keep P (fun s x0 => hP s s.time s.power x0 s.host s.urz s.rng s.rest s.keys s.cls s.fab s.path s.otn s.mpu s.out s.free rfl), hP]

theorem jobOut_keep {β : Type} (P : State → β) (hP : ∀ s x0 x1, P { s with ctl := x0, cls := x1 } = P s) (s : State) : P (jobOut s) = P s := by
  unfold jobOut; (repeat' split) <;> simp only [hP]

theorem compileEnd_keep {β : Type} (P : State → β) (hP : ∀ s x0 x1 x2 x3 x4 x5 x6 x7 x8 x9 x10 x11 x12 x13 x14, Memory.wf x12.hbm = Memory.wf s.mpu.hbm → P { s with time := x0, power := x1, ctl := x2, host := x3, urz := x4, rng := x5, rest := x6, keys := x7, cls := x8, fab := x9, path := x10, otn := x11, mpu := x12, out := x13, free := x14 } = P s) (tree : Compiled) (s : State) : P (compileEnd tree s) = P s := by
  unfold compileEnd; (repeat' split) <;> simp only [candidate_keep P (fun s x0 x1 x2 x3 x4 x5 => hP s x0 s.power x1 s.host s.urz s.rng s.rest x2 x3 s.fab x4 x5 s.mpu s.out s.free rfl), endCommit_keep P hP, finish_keep P (fun s x0 => hP s s.time s.power x0 s.host s.urz s.rng s.rest s.keys s.cls s.fab s.path s.otn s.mpu s.out s.free rfl), jobOut_keep P (fun s x0 x1 => hP s s.time s.power x0 s.host s.urz s.rng s.rest s.keys x1 s.fab s.path s.otn s.mpu s.out s.free rfl), serveQueue_keep P hP, hP]

theorem cutWaitEnd_keep {β : Type} (P : State → β) (hP : ∀ s x0 x1 x2 x3 x4 x5 x6 x7 x8 x9 x10 x11 x12 x13 x14, Memory.wf x12.hbm = Memory.wf s.mpu.hbm → P { s with time := x0, power := x1, ctl := x2, host := x3, urz := x4, rng := x5, rest := x6, keys := x7, cls := x8, fab := x9, path := x10, otn := x11, mpu := x12, out := x13, free := x14 } = P s) (s : State) : P (cutWaitEnd s) = P s := by
  unfold cutWaitEnd; (repeat' split) <;> simp only [endCommit_keep P hP, finish_keep P (fun s x0 => hP s s.time s.power x0 s.host s.urz s.rng s.rest s.keys s.cls s.fab s.path s.otn s.mpu s.out s.free rfl), jobOut_keep P (fun s x0 x1 => hP s s.time s.power x0 s.host s.urz s.rng s.rest s.keys x1 s.fab s.path s.otn s.mpu s.out s.free rfl), serveQueue_keep P hP, waitCycle_keep P (fun s x0 => hP s x0 s.power s.ctl s.host s.urz s.rng s.rest s.keys s.cls s.fab s.path s.otn s.mpu s.out s.free rfl), hP]

theorem slotCommit_keep {β : Type} (P : State → β) (hP : ∀ s x0 x1 x2 x3 x4 x5 x6 x7 x8 x9 x10 x11 x12 x13 x14, Memory.wf x12.hbm = Memory.wf s.mpu.hbm → P { s with time := x0, power := x1, ctl := x2, host := x3, urz := x4, rng := x5, rest := x6, keys := x7, cls := x8, fab := x9, path := x10, otn := x11, mpu := x12, out := x13, free := x14 } = P s) (i : Nat) (r : Slot) (s : State) : P (slotCommit i r s) = P s := by
  unfold slotCommit; dsimp only; (repeat' split) <;> simp only [post_keep P (fun s x0 x1 => hP s s.time s.power s.ctl x0 s.urz s.rng s.rest s.keys s.cls s.fab s.path s.otn s.mpu x1 s.free rfl), runCommit_keep P hP, setLast_keep P (fun s x0 => hP s s.time s.power x0 s.host s.urz s.rng s.rest s.keys s.cls s.fab s.path s.otn s.mpu s.out s.free rfl), slotPast_keep P (fun s x0 => hP s x0 s.power s.ctl s.host s.urz s.rng s.rest s.keys s.cls s.fab s.path s.otn s.mpu s.out s.free rfl), updSession_keep P (fun s x0 => hP s s.time s.power x0 s.host s.urz s.rng s.rest s.keys s.cls s.fab s.path s.otn s.mpu s.out s.free rfl), updTslot_keep P (fun s x0 => hP s x0 s.power s.ctl s.host s.urz s.rng s.rest s.keys s.cls s.fab s.path s.otn s.mpu s.out s.free rfl), hP]

theorem slotDue_keep {β : Type} (P : State → β) (hP : ∀ s x0 x1 x2 x3 x4 x5 x6 x7 x8 x9 x10 x11 x12 x13 x14, Memory.wf x12.hbm = Memory.wf s.mpu.hbm → P { s with time := x0, power := x1, ctl := x2, host := x3, urz := x4, rng := x5, rest := x6, keys := x7, cls := x8, fab := x9, path := x10, otn := x11, mpu := x12, out := x13, free := x14 } = P s) (i : Nat) (s : State) : P (slotDue i s) = P s := by
  unfold slotDue; dsimp only; (repeat' split) <;> simp only [slotAct_keep P (fun s x0 x1 x2 => hP s x0 s.power s.ctl x1 s.urz s.rng s.rest s.keys s.cls s.fab s.path s.otn s.mpu x2 s.free rfl), slotCommit_keep P hP, slotPast_keep P (fun s x0 => hP s x0 s.power s.ctl s.host s.urz s.rng s.rest s.keys s.cls s.fab s.path s.otn s.mpu s.out s.free rfl), waitTime_keep P (fun s x0 => hP s x0 s.power s.ctl s.host s.urz s.rng s.rest s.keys s.cls s.fab s.path s.otn s.mpu s.out s.free rfl), hP]

end Sys2Proof.Machine
end

