-- ==== Sys2Proof/Laws/KeepTransact.lean ====
section
/-! SUPPORT. What the operations and meanings of Machine/Transact.lean leave alone: `f_keep` says that whatever is read from
the state without looking at the components `f` may change is the same after `f`. -/
set_option linter.all false
namespace Sys2Proof.Machine

theorem readServed_keep {β : Type} (P : State → β) (hP : ∀ s x0 x1 x2 x3 x4 x5 x6 x7 x8, P { s with time := x0, power := x1, ctl := x2, host := x3, keys := x4, path := x5, otn := x6, out := x7, free := x8 } = P s) (k : Nat) (q : Request) (e : Entry) (s : State) : P (readServed k q e s).2 = P s := by
  unfold readServed; dsimp only; (repeat' split) <;> simp only [readClears_keep P (fun s x0 x1 x2 x3 => hP s x0 s.power s.ctl s.host s.keys x1 x2 s.out x3), updSession_keep P (fun s x0 => hP s s.time s.power x0 s.host s.keys s.path s.otn s.out s.free), hP]

theorem readRecord_keep {β : Type} (P : State → β) (hP : ∀ s x0 x1 x2 x3 x4 x5 x6 x7 x8, P { s with time := x0, power := x1, ctl := x2, host := x3, keys := x4, path := x5, otn := x6, out := x7, free := x8 } = P s) (k : Nat) (q : Request) (e : Entry) (s : State) : P (readRecord k q e s).2 = P s := by
  unfold readRecord; (repeat' split) <;> simp only [readServed_keep P hP, hP]

theorem stageValue_keep {β : Type} (P : State → β) (hP : ∀ s x0, P { s with ctl := x0 } = P s) (k idx sub : Nat) (e : Entry) (v : Octets) (s : State) : P (stageValue k idx sub e v s).2 = P s := by
  unfold stageValue; dsimp only; (repeat' split) <;> simp only [updSession_keep P hP, hP]

theorem clearBits_keep {β : Type} (P : State → β) (hP : ∀ s x0 x1 x2, Memory.wf x2.hbm = Memory.wf s.mpu.hbm → P { s with rest := x0, otn := x1, mpu := x2 } = P s) (idx sub : Nat) (v : Octets) (s : State) : P (clearBits idx sub v s) = P s := by
  unfold clearBits; (repeat' split) <;> simp only [hP]

theorem writeWhole_keep {β : Type} (P : State → β) (hP : ∀ s x0 x1 x2 x3 x4 x5 x6 x7 x8 x9 x10 x11 x12 x13 x14, Memory.wf x12.hbm = Memory.wf s.mpu.hbm → P { s with time := x0, power := x1, ctl := x2, host := x3, urz := x4, rng := x5, rest := x6, keys := x7, cls := x8, fab := x9, path := x10, otn := x11, mpu := x12, out := x13, free := x14 } = P s) (k : Nat) (ck : ChuckRun) (q : Request) (e : Entry) (v : Octets) (s : State) : P (writeWhole k ck q e v s).2 = P s := by
  unfold writeWhole; (repeat' split) <;> simp only [clearBits_keep P (fun s x0 x1 x2 h => hP s s.time s.power s.ctl s.host s.urz s.rng x0 s.keys s.cls s.fab s.path x1 x2 s.out s.free h), commitWrite_keep P hP, stageValue_keep P (fun s x0 => hP s s.time s.power x0 s.host s.urz s.rng s.rest s.keys s.cls s.fab s.path s.otn s.mpu s.out s.free rfl), updSession_keep P (fun s x0 => hP s s.time s.power x0 s.host s.urz s.rng s.rest s.keys s.cls s.fab s.path s.otn s.mpu s.out s.free rfl), hP]

theorem writeSegment_keep {β : Type} (P : State → β) (hP : ∀ s x0 x1 x2 x3 x4 x5 x6 x7 x8 x9 x10 x11 x12 x13 x14, Memory.wf x12.hbm = Memory.wf s.mpu.hbm → P { s with time := x0, power := x1, ctl := x2, host := x3, urz := x4, rng := x5, rest := x6, keys := x7, cls := x8, fab := x9, path := x10, otn := x11, mpu := x12, out := x13, free := x14 } = P s) (k : Nat) (ck : ChuckRun) (q : Request) (e : Entry) (s : State) : P (writeSegment k ck q e s).2 = P s := by
  unfold writeSegment; dsimp only; (repeat' split) <;> simp only [updSession_keep P (fun s x0 => hP s s.time s.power x0 s.host s.urz s.rng s.rest s.keys s.cls s.fab s.path s.otn s.mpu s.out s.free rfl), writeWhole_keep P hP, hP]

theorem writeRecord_keep {β : Type} (P : State → β) (hP : ∀ s x0 x1 x2 x3 x4 x5 x6 x7 x8 x9 x10 x11 x12 x13 x14, Memory.wf x12.hbm = Memory.wf s.mpu.hbm → P { s with time := x0, power := x1, ctl := x2, host := x3, urz := x4, rng := x5, rest := x6, keys := x7, cls := x8, fab := x9, path := x10, otn := x11, mpu := x12, out := x13, free := x14 } = P s) (k : Nat) (ck : ChuckRun) (q : Request) (e : Entry) (s : State) : P (writeRecord k ck q e s).2 = P s := by
  unfold writeRecord; (repeat' split) <;> simp only [writeSegment_keep P hP, hP]

theorem runRecord_keep {β : Type} (P : State → β) (hP : ∀ s x0 x1 x2 x3 x4 x5 x6 x7 x8 x9 x10 x11 x12 x13 x14, Memory.wf x12.hbm = Memory.wf s.mpu.hbm → P { s with time := x0, power := x1, ctl := x2, host := x3, urz := x4, rng := x5, rest := x6, keys := x7, cls := x8, fab := x9, path := x10, otn := x11, mpu := x12, out := x13, free := x14 } = P s) (k : Nat) (b : Octets) (ck : ChuckRun) (s : State) : P (runRecord k b ck s).2 = P s := by
  unfold runRecord; dsimp only; (repeat' split) <;> simp only [readRecord_keep P (fun s x0 x1 x2 x3 x4 x5 x6 x7 x8 => hP s x0 x1 x2 x3 s.urz s.rng s.rest x4 s.cls s.fab x5 x6 s.mpu x7 x8 rfl), writeRecord_keep P hP, hP]

theorem transact_keep {β : Type} (P : State → β) (hP : ∀ s x0 x1 x2 x3 x4 x5 x6 x7 x8 x9 x10 x11 x12 x13 x14, Memory.wf x12.hbm = Memory.wf s.mpu.hbm → P { s with time := x0, power := x1, ctl := x2, host := x3, urz := x4, rng := x5, rest := x6, keys := x7, cls := x8, fab := x9, path := x10, otn := x11, mpu := x12, out := x13, free := x14 } = P s) (k : Nat) (b : Octets) (ck : ChuckRun) (s : State) : P (transact k b ck s) = P s := by
  unfold transact; dsimp only; (repeat' split) <;> simp only [emit_keep P (fun s x0 => hP s s.time s.power s.ctl s.host s.urz s.rng s.rest s.keys s.cls s.fab s.path s.otn s.mpu x0 s.free rfl), runRecord_keep P hP, hP]

end Sys2Proof.Machine
end

