-- ==== Sys2Proof/Laws/KeepUrzidun.lean ====
section
/-! SUPPORT. What the operations and meanings of Machine/Urzidun.lean leave alone: `f_keep` says that whatever is read from
the state without looking at the components `f` may change is the same after `f`. -/
set_option linter.all false
namespace Sys2Proof.Machine

theorem urzRefuse_keep {β : Type} (P : State → β) (hP : ∀ s x0 x1 x2, P { s with host := x0, urz := x1, out := x2 } = P s) (p : PD) (s : State) : P (urzRefuse p s) = P s := by
  unfold urzRefuse; dsimp only; (repeat' split) <;> simp only [post_keep P (fun s x0 x1 => hP s x0 s.urz x1), hP]

theorem urzForward_keep {β : Type} (P : State → β) (hP : ∀ s x0 x1, P { s with urz := x0, path := x1 } = P s) (p : PD) (d : Octets) (s : State) : P (urzForward p d s) = P s := by
  unfold urzForward; dsimp only; (repeat' split) <;> simp only [urzCount_keep P (fun s x0 => hP s x0 s.path), urzSend_keep P hP, hP]

theorem urzTake_keep {β : Type} (P : State → β) (hP : ∀ s x0 x1 x2 x3 x4 x5, P { s with host := x0, urz := x1, keys := x2, path := x3, otn := x4, out := x5 } = P s) (p : PD) (d : Octets) (s : State) : P (urzTake p d s) = P s := by
  unfold urzTake; dsimp only; (repeat' split) <;> simp only [urzCount_keep P (fun s x0 => hP s s.host x0 s.keys s.path s.otn s.out), urzForward_keep P (fun s x0 x1 => hP s s.host x0 s.keys x1 s.otn s.out), urzRefuse_keep P (fun s x0 x1 x2 => hP s x0 x1 s.keys s.path s.otn x2), hP]

theorem urzFront_keep {β : Type} (P : State → β) (hP : ∀ s x0, P { s with urz := x0 } = P s) (types : List Nat) (s : State) (q : PD × Octets × State) (e : urzFront types s = some q) : P q.2.2 = P s := by
  unfold urzFront at e; (repeat' split at e) <;> (first | (simp at e; done) | (simp only [Option.some.injEq] at e; subst e; simp only [hP]))

theorem urzReply_keep {β : Type} (P : State → β) (hP : ∀ s x0 x1, P { s with urz := x0, path := x1 } = P s) (p : PD) (d : Octets) (sealing : Octets × Octets × Octets) (type number : Nat) (payload : Octets) (s : State) : P (urzReply p d sealing type number payload s).2 = P s := by
  unfold urzReply; (repeat' split) <;> simp only [urzSend_keep P hP, hP]

theorem urzRespond_keep {β : Type} (P : State → β) (hP : ∀ s x0 x1, P { s with urz := x0, path := x1 } = P s) (p : PD) (d : Octets) (sealing : Octets × Octets × Octets) (payload : Octets) (s : State) : P (urzRespond p d sealing payload s) = P s := by
  unfold urzRespond; dsimp only; (repeat' split) <;> simp only [urzCount_keep P (fun s x0 => hP s x0 s.path), urzReply_keep P hP, hP]

theorem runRecords_keep {β : Type} (P : State → β) (hP : ∀ s x0 x1 x2 x3 x4 x5 x6 x7 x8 x9 x10 x11 x12 x13 x14, Memory.wf x12.hbm = Memory.wf s.mpu.hbm → P { s with time := x0, power := x1, ctl := x2, host := x3, urz := x4, rng := x5, rest := x6, keys := x7, cls := x8, fab := x9, path := x10, otn := x11, mpu := x12, out := x13, free := x14 } = P s)  (a0 : Nat) (a1 : Held) (a2 : State) : P (runRecords a0 a1 a2).2 = P a2 := by
  induction a0 generalizing a1 a2 with
  | zero => rfl
  | succ n ih => unfold runRecords; repeat' (first | with_reducible rfl | split | simp only [ih, runRecord_keep P hP, hP])

theorem urzRun_keep {β : Type} (P : State → β) (hP : ∀ s x0 x1 x2 x3 x4 x5 x6 x7 x8 x9 x10 x11 x12 x13 x14, Memory.wf x12.hbm = Memory.wf s.mpu.hbm → P { s with time := x0, power := x1, ctl := x2, host := x3, urz := x4, rng := x5, rest := x6, keys := x7, cls := x8, fab := x9, path := x10, otn := x11, mpu := x12, out := x13, free := x14 } = P s) (h : Held) (s : State) : P (urzRun h s) = P s := by
  unfold urzRun; dsimp only; (repeat' split) <;> simp only [runRecords_keep P hP, urzRespond_keep P (fun s x0 x1 => hP s s.time s.power s.ctl s.host x0 s.rng s.rest s.keys s.cls s.fab x1 s.otn s.mpu s.out s.free rfl), hP]

theorem urzRequested_keep {β : Type} (P : State → β) (hP : ∀ s x0 x1 x2 x3 x4 x5 x6 x7 x8 x9 x10 x11 x12 x13 x14, Memory.wf x12.hbm = Memory.wf s.mpu.hbm → P { s with time := x0, power := x1, ctl := x2, host := x3, urz := x4, rng := x5, rest := x6, keys := x7, cls := x8, fab := x9, path := x10, otn := x11, mpu := x12, out := x13, free := x14 } = P s) (p : PD) (d : Octets) (s : State) : P (urzRequested p d s) = P s := by
  unfold urzRequested; dsimp only; (repeat' split) <;> simp only [urzCount_keep P (fun s x0 => hP s s.time s.power s.ctl s.host x0 s.rng s.rest s.keys s.cls s.fab s.path s.otn s.mpu s.out s.free rfl), urzRefuse_keep P (fun s x0 x1 x2 => hP s s.time s.power s.ctl x0 x1 s.rng s.rest s.keys s.cls s.fab s.path s.otn s.mpu x2 s.free rfl), urzRun_keep P hP, urzSend_keep P (fun s x0 x1 => hP s s.time s.power s.ctl s.host x0 s.rng s.rest s.keys s.cls s.fab x1 s.otn s.mpu s.out s.free rfl), hP]

theorem urzOpened_keep {β : Type} (P : State → β) (hP : ∀ s x0 x1 x2 x3 x4 x5 x6 x7 x8, P { s with time := x0, ctl := x1, host := x2, urz := x3, rng := x4, keys := x5, path := x6, otn := x7, out := x8 } = P s) (s : State) : P (urzOpened s) = P s := by
  unfold urzOpened; (repeat' (first | with_reducible rfl | split | simp only [urzClose_keep P (fun s x0 x1 x2 => hP s x0 x1 s.host x2 s.rng s.keys s.path s.otn s.out), urzReply_keep P (fun s x0 x1 => hP s s.time s.ctl s.host x0 s.rng s.keys x1 s.otn s.out), hP])) <;> (have f := urzFront_keep P (fun s x0 => hP s s.time s.ctl s.host x0 s.rng s.keys s.path s.otn s.out) _ _ _ ‹urzFront _ _ = _›; first | exact f | exact (rngDraw_keep P (fun s x0 => hP s s.time s.ctl s.host s.urz x0 s.keys s.path s.otn s.out) _ _ _ ‹rngDraw _ _ = _›).trans f)

theorem urzClosed_keep {β : Type} (P : State → β) (hP : ∀ s x0 x1 x2 x3 x4 x5 x6 x7, P { s with time := x0, ctl := x1, host := x2, urz := x3, keys := x4, path := x5, otn := x6, out := x7 } = P s) (s : State) : P (urzClosed s) = P s := by
  unfold urzClosed; (repeat' (first | with_reducible rfl | split | simp only [urzClose_keep P (fun s x0 x1 x2 => hP s x0 x1 s.host x2 s.keys s.path s.otn s.out), urzRefuse_keep P (fun s x0 x1 x2 => hP s s.time s.ctl x0 x1 s.keys s.path s.otn x2), urzRespond_keep P (fun s x0 x1 => hP s s.time s.ctl s.host x0 s.keys x1 s.otn s.out), hP])) <;> (have f := urzFront_keep P (fun s x0 => hP s s.time s.ctl s.host x0 s.keys s.path s.otn s.out) _ _ _ ‹urzFront _ _ = _›; first | exact f)

theorem urzIdle_keep {β : Type} (P : State → β) (hP : ∀ s x0 x1 x2, P { s with time := x0, ctl := x1, urz := x2 } = P s) (i : Nat) (s : State) : P (urzIdle i s) = P s := by
  unfold urzIdle; dsimp only; (repeat' split) <;> simp only [urzClose_keep P hP, waitCycle_keep P (fun s x0 => hP s x0 s.ctl s.urz), hP]

theorem beatSend_keep {β : Type} (P : State → β) (hP : ∀ s x0 x1 x2 x3 x4 x5 x6, P { s with time := x0, host := x1, urz := x2, keys := x3, path := x4, otn := x5, out := x6 } = P s) (p : PD) (s : State) : P (beatSend p s) = P s := by
  unfold beatSend; (repeat' split) <;> simp only [urzSend_keep P (fun s x0 x1 => hP s s.time s.host x0 s.keys x1 s.otn s.out), waitCycle_keep P (fun s x0 => hP s x0 s.host s.urz s.keys s.path s.otn s.out), hP]

theorem beatHeard_keep {β : Type} (P : State → β) (hP : ∀ s x0 x1 x2 x3 x4 x5, P { s with host := x0, urz := x1, keys := x2, path := x3, otn := x4, out := x5 } = P s) (s : State) : P (beatHeard s) = P s := by
  unfold beatHeard; (repeat' (first | with_reducible rfl | split | simp only [notice_keep P hP, post_keep P (fun s x0 x1 => hP s x0 s.urz s.keys s.path s.otn x1), urzRefuse_keep P (fun s x0 x1 x2 => hP s x0 x1 s.keys s.path s.otn x2), hP, id])) <;> (have f := urzFront_keep P (fun s x0 => hP s s.host x0 s.keys s.path s.otn s.out) _ _ _ ‹urzFront _ _ = _›; first | exact f)

theorem peerLost_keep {β : Type} (P : State → β) (hP : ∀ s x0 x1 x2 x3 x4 x5 x6, P { s with time := x0, host := x1, urz := x2, keys := x3, path := x4, otn := x5, out := x6 } = P s) (p : PD) (s : State) : P (peerLost p s) = P s := by
  unfold peerLost; dsimp only; (repeat' split) <;> simp only [notice_keep P (fun s x0 x1 x2 x3 x4 x5 => hP s s.time x0 x1 x2 x3 x4 x5), post_keep P (fun s x0 x1 => hP s s.time x0 s.urz s.keys s.path s.otn x1), waitCycle_keep P (fun s x0 => hP s x0 s.host s.urz s.keys s.path s.otn s.out), hP]

end Sys2Proof.Machine
end

