-- ==== Sys2Proof/Laws/KeepHost.lean ====
section
/-! SUPPORT. What the operations and meanings of Machine/Host.lean leave alone: `f_keep` says that whatever is read from
the state without looking at the components `f` may change is the same after `f`. -/
set_option linter.all false
namespace Sys2Proof.Machine

theorem mailboxAnswer_keep {β : Type} (P : State → β) (hP : ∀ s x0, P { s with out := x0 } = P s) (desc b : Octets) (s : State) : P (mailboxAnswer desc b s).2 = P s := by
  unfold mailboxAnswer; dsimp only; (repeat' split) <;> simp only [emit_keep P hP, hP]

theorem ringFlush_keep {β : Type} (P : State → β) (hP : ∀ s x0 x1 x2, P { s with ctl := x0, host := x1, out := x2 } = P s)  (a0 : Nat) (a1 : Nat) (a2 : State) : P (ringFlush a0 a1 a2) = P a2 := by
  induction a0 generalizing a2 with
  | zero => rfl
  | succ n ih => unfold ringFlush; repeat' (first | with_reducible rfl | split | simp only [ih, mailboxAnswer_keep P (fun s x0 => hP s s.ctl s.host x0), ringComplete_keep P (fun s x0 x1 => hP s s.ctl x0 x1), hP])

theorem mailboxOne_keep {β : Type} (P : State → β) (hP : ∀ s x0 x1 x2 x3 x4 x5 x6 x7 x8 x9 x10 x11 x12 x13 x14, Memory.wf x12.hbm = Memory.wf s.mpu.hbm → P { s with time := x0, power := x1, ctl := x2, host := x3, urz := x4, rng := x5, rest := x6, keys := x7, cls := x8, fab := x9, path := x10, otn := x11, mpu := x12, out := x13, free := x14 } = P s) (r e : Nat) (desc data : Octets) (s : State) : P (mailboxOne r e desc data s) = P s := by
  unfold mailboxOne; dsimp only; (repeat' split) <;> simp only [emit_keep P (fun s x0 => hP s s.time s.power s.ctl s.host s.urz s.rng s.rest s.keys s.cls s.fab s.path s.otn s.mpu x0 s.free rfl), gatherOne_keep P (fun s x0 x1 => hP s s.time s.power s.ctl x0 s.urz s.rng s.rest s.keys s.cls s.fab s.path s.otn s.mpu x1 s.free rfl), mailboxAnswer_keep P (fun s x0 => hP s s.time s.power s.ctl s.host s.urz s.rng s.rest s.keys s.cls s.fab s.path s.otn s.mpu x0 s.free rfl), ringComplete_keep P (fun s x0 x1 => hP s s.time s.power s.ctl x0 s.urz s.rng s.rest s.keys s.cls s.fab s.path s.otn s.mpu x1 s.free rfl), runRecord_keep P hP, hP]

theorem ringServe_keep {β : Type} (P : State → β) (hP : ∀ s x0 x1 x2 x3 x4 x5 x6 x7 x8 x9 x10 x11 x12 x13 x14, Memory.wf x12.hbm = Memory.wf s.mpu.hbm → P { s with time := x0, power := x1, ctl := x2, host := x3, urz := x4, rng := x5, rest := x6, keys := x7, cls := x8, fab := x9, path := x10, otn := x11, mpu := x12, out := x13, free := x14 } = P s)  (a0 : Nat) (a1 : Nat) (a2 : State) : P (ringServe a0 a1 a2) = P a2 := by
  induction a0 generalizing a2 with
  | zero => rfl
  | succ n ih => unfold ringServe; repeat' (first | with_reducible rfl | split | simp only [ih, mailboxOne_keep P hP, hP])

theorem ringsServe_keep {β : Type} (P : State → β) (hP : ∀ s x0 x1 x2 x3 x4 x5 x6 x7 x8 x9 x10 x11 x12 x13 x14, Memory.wf x12.hbm = Memory.wf s.mpu.hbm → P { s with time := x0, power := x1, ctl := x2, host := x3, urz := x4, rng := x5, rest := x6, keys := x7, cls := x8, fab := x9, path := x10, otn := x11, mpu := x12, out := x13, free := x14 } = P s) (s : State) : P (ringsServe s) = P s := by
  unfold ringsServe; repeat' (first | with_reducible rfl | split | simp only [ringServe_keep P hP, hP] | (with_reducible refine (keep (fun _ _ => by (repeat' (first | with_reducible rfl | split | simp only [ringServe_keep P hP, hP])))).trans ?_) | (with_reducible refine (keep2 (fun _ _ => by (repeat' (first | with_reducible rfl | split | simp only [ringServe_keep P hP, hP])))).trans ?_))

theorem answer_keep {β : Type} (P : State → β) (hP : ∀ s x0 x1 x2 x3 x4 x5 x6 x7 x8 x9 x10 x11 x12 x13 x14, Memory.wf x12.hbm = Memory.wf s.mpu.hbm → P { s with time := x0, power := x1, ctl := x2, host := x3, urz := x4, rng := x5, rest := x6, keys := x7, cls := x8, fab := x9, path := x10, otn := x11, mpu := x12, out := x13, free := x14 } = P s) (k code : Nat) (s : State) : P (answer k code s) = P s := by
  unfold answer; (repeat' split) <;> simp only [emit_keep P (fun s x0 => hP s s.time s.power s.ctl s.host s.urz s.rng s.rest s.keys s.cls s.fab s.path s.otn s.mpu x0 s.free rfl), ringFlush_keep P (fun s x0 x1 x2 => hP s s.time s.power x0 x1 s.urz s.rng s.rest s.keys s.cls s.fab s.path s.otn s.mpu x2 s.free rfl), urzRun_keep P hP, hP]

theorem serveFinished_keep {β : Type} (P : State → β) (hP : ∀ s x0 x1 x2 x3 x4 x5 x6 x7 x8 x9 x10 x11 x12 x13 x14, Memory.wf x12.hbm = Memory.wf s.mpu.hbm → P { s with time := x0, power := x1, ctl := x2, host := x3, urz := x4, rng := x5, rest := x6, keys := x7, cls := x8, fab := x9, path := x10, otn := x11, mpu := x12, out := x13, free := x14 } = P s)  (a0 : Nat) (a1 : State) : P (serveFinished a0 a1) = P a1 := by
  induction a0 generalizing a1 with
  | zero => rfl
  | succ n ih => unfold serveFinished; repeat' (first | with_reducible rfl | split | simp only [ih, answer_keep P hP, hP])

theorem commitsFail_keep {β : Type} (P : State → β) (hP : ∀ s x0 x1, P { s with ctl := x0, cls := x1 } = P s) (s : State) : P (commitsFail s) = P s := by
  unfold commitsFail; repeat' (first | with_reducible rfl | split | simp only [finish_keep P (fun s x0 => hP s x0 s.cls), jobOut_keep P hP, setLast_keep P (fun s x0 => hP s x0 s.cls), hP] | (with_reducible refine (keep (fun _ _ => by (repeat' (first | with_reducible rfl | split | simp only [finish_keep P (fun s x0 => hP s x0 s.cls), jobOut_keep P hP, setLast_keep P (fun s x0 => hP s x0 s.cls), hP])))).trans ?_) | (with_reducible refine (keep2 (fun _ _ => by (repeat' (first | with_reducible rfl | split | simp only [finish_keep P (fun s x0 => hP s x0 s.cls), jobOut_keep P hP, setLast_keep P (fun s x0 => hP s x0 s.cls), hP])))).trans ?_))

theorem resume_keep {β : Type} (P : State → β) (hP : ∀ s x0 x1 x2 x3 x4 x5 x6 x7 x8 x9 x10 x11 x12 x13 x14, Memory.wf x12.hbm = Memory.wf s.mpu.hbm → P { s with time := x0, power := x1, ctl := x2, host := x3, urz := x4, rng := x5, rest := x6, keys := x7, cls := x8, fab := x9, path := x10, otn := x11, mpu := x12, out := x13, free := x14 } = P s) (s : State) : P (resume s) = P s := by
  unfold resume; repeat' (first | with_reducible rfl | split | simp only [commitsFail_keep P (fun s x0 x1 => hP s s.time s.power x0 s.host s.urz s.rng s.rest s.keys x1 s.fab s.path s.otn s.mpu s.out s.free rfl), serveQueue_keep P hP, transact_keep P hP, urzRun_keep P hP, hP] | (with_reducible refine (keep (fun _ _ => by (repeat' (first | with_reducible rfl | split | simp only [commitsFail_keep P (fun s x0 x1 => hP s s.time s.power x0 s.host s.urz s.rng s.rest s.keys x1 s.fab s.path s.otn s.mpu s.out s.free rfl), serveQueue_keep P hP, transact_keep P hP, urzRun_keep P hP, hP])))).trans ?_) | (with_reducible refine (keep2 (fun _ _ => by (repeat' (first | with_reducible rfl | split | simp only [commitsFail_keep P (fun s x0 x1 => hP s s.time s.power x0 s.host s.urz s.rng s.rest s.keys x1 s.fab s.path s.otn s.mpu s.out s.free rfl), serveQueue_keep P hP, transact_keep P hP, urzRun_keep P hP, hP])))).trans ?_))

theorem controlCheckpoint_keep {β : Type} (P : State → β) (hP : ∀ s x0 x1 x2 x3 x4 x5, Memory.wf x4.hbm = Memory.wf s.mpu.hbm → P { s with ctl := x0, host := x1, rest := x2, path := x3, mpu := x4, out := x5 } = P s) (s : State) : P (controlCheckpoint s) = P s := by
  unfold controlCheckpoint; (repeat' split) <;> simp only [controlWrite_keep P (fun s x0 x1 x2 x3 x4 h => hP s s.ctl x0 x1 x2 x3 x4 h), hP]

theorem dictServe_keep {β : Type} (P : State → β) (hP : ∀ s x0 x1 x2 x3 x4 x5 x6 x7 x8 x9 x10 x11 x12 x13 x14, Memory.wf x12.hbm = Memory.wf s.mpu.hbm → P { s with time := x0, power := x1, ctl := x2, host := x3, urz := x4, rng := x5, rest := x6, keys := x7, cls := x8, fab := x9, path := x10, otn := x11, mpu := x12, out := x13, free := x14 } = P s) (s : State) : P (dictServe s) = P s := by
  unfold dictServe; (repeat' split) <;> simp only [pcieSettle_keep P (fun s x0 x1 x2 x3 x4 => hP s x0 x1 x2 x3 s.urz s.rng s.rest s.keys s.cls s.fab x4 s.otn s.mpu s.out s.free rfl), resume_keep P hP, ringsServe_keep P hP, serveFinished_keep P hP, hP]

theorem dictSettle_keep {β : Type} (P : State → β) (hP : ∀ s x0 x1 x2 x3 x4 x5 x6 x7 x8 x9 x10 x11 x12 x13 x14, Memory.wf x12.hbm = Memory.wf s.mpu.hbm → P { s with time := x0, power := x1, ctl := x2, host := x3, urz := x4, rng := x5, rest := x6, keys := x7, cls := x8, fab := x9, path := x10, otn := x11, mpu := x12, out := x13, free := x14 } = P s) (s : State) : P (dictSettle s) = P s := by
  unfold dictSettle; (repeat' split) <;> simp only [controlCheckpoint_keep P (fun s x0 x1 x2 x3 x4 x5 h => hP s s.time s.power x0 x1 s.urz s.rng x2 s.keys s.cls s.fab x3 s.otn x4 x5 s.free h), dictServe_keep P hP, hP]

theorem controlLoad_keep {β : Type} (P : State → β) (hP : ∀ s x0 x1 x2 x3 x4, Memory.wf x3.hbm = Memory.wf s.mpu.hbm → P { s with host := x0, rest := x1, path := x2, mpu := x3, out := x4 } = P s) (s : State) : P (controlLoad s).2 = P s := by
  unfold controlLoad; (repeat' split) <;> simp only [readLines_keep P (fun s x0 x1 x2 x3 h => hP s x0 x1 s.path x2 x3 h), settleRewrites_keep P hP, hP]

theorem controlStart_keep {β : Type} (P : State → β) (hP : ∀ s x0 x1 x2 x3 x4 x5 x6, Memory.wf x5.hbm = Memory.wf s.mpu.hbm → P { s with power := x0, ctl := x1, host := x2, rest := x3, path := x4, mpu := x5, out := x6 } = P s) (ok : Bool) (s : State) : P (controlStart ok s) = P s := by
  unfold controlStart; (repeat' split) <;> simp only [controlLoad_keep P (fun s x0 x1 x2 x3 x4 h => hP s s.power s.ctl x0 x1 x2 x3 x4 h), startDone_keep P (fun s x0 x1 x2 x3 x4 => hP s x0 x1 x2 x3 s.path s.mpu x4 rfl), hP]

theorem doorbellPosts_keep {β : Type} (P : State → β) (hP : ∀ s x0 x1, P { s with host := x0, out := x1 } = P s) (r index : Nat) (dma : List (Octets × Octets)) (s : State) : P (doorbellPosts r index dma s) = P s := by
  unfold doorbellPosts; dsimp only; (repeat' split) <;> simp only [ringError_keep P hP, updRing_keep P (fun s x0 => hP s x0 s.out), hP]

theorem doorbellReads_keep {β : Type} (P : State → β) (hP : ∀ s x0 x1, P { s with host := x0, out := x1 } = P s) (r index : Nat) (s : State) : P (doorbellReads r index s) = P s := by
  unfold doorbellReads; dsimp only; (repeat' split) <;> simp only [flushLost_keep P hP, ringError_keep P hP, updRing_keep P (fun s x0 => hP s x0 s.out), hP]

theorem doorbell_keep {β : Type} (P : State → β) (hP : ∀ s x0 x1, P { s with host := x0, out := x1 } = P s) (r index : Nat) (dma : List (Octets × Octets)) (s : State) : P (doorbell r index dma s) = P s := by
  unfold doorbell; (repeat' split) <;> simp only [doorbellPosts_keep P hP, doorbellReads_keep P hP, hP]

theorem moderationEnd_keep {β : Type} (P : State → β) (hP : ∀ s x0 x1 x2, P { s with time := x0, host := x1, out := x2 } = P s) (r : Nat) (s : State) : P (moderationEnd r s) = P s := by
  unfold moderationEnd; (repeat' split) <;> simp only [signalVector_keep P (fun s x0 x1 => hP s s.time x0 x1), updRing_keep P (fun s x0 => hP s s.time x0 s.out), waitCycle_keep P (fun s x0 => hP s x0 s.host s.out), hP]

theorem requestEnd_keep {β : Type} (P : State → β) (hP : ∀ s x0 x1 x2 x3 x4 x5 x6 x7, Memory.wf x6.hbm = Memory.wf s.mpu.hbm → P { s with time := x0, power := x1, host := x2, rng := x3, rest := x4, fab := x5, mpu := x6, out := x7 } = P s) (s : State) : P (requestEnd s) = P s := by
  unfold requestEnd; dsimp only; (repeat' split) <;> simp only [rngAnswer_keep P (fun s x0 x1 => hP s s.time s.power s.host x0 s.rest s.fab s.mpu x1 rfl), rngRemove_keep P (fun s x0 => hP s s.time s.power s.host x0 s.rest s.fab s.mpu s.out rfl), spareSeedLost_keep P hP, waitCycle_keep P (fun s x0 => hP s x0 s.power s.host s.rng s.rest s.fab s.mpu s.out rfl), hP]

end Sys2Proof.Machine
end

