-- ==== Sys2Proof/Laws/KeepCommands.lean ====
section
/-! SUPPORT. What the operations and meanings of Machine/Commands.lean leave alone: `f_keep` says that whatever is read from
the state without looking at the components `f` may change is the same after `f`. -/
set_option linter.all false
namespace Sys2Proof.Machine

theorem commitSingle_keep {β : Type} (P : State → β) (hP : ∀ s x0 x1 x2 x3 x4 x5 x6 x7 x8 x9 x10 x11 x12 x13 x14, Memory.wf x12.hbm = Memory.wf s.mpu.hbm → P { s with time := x0, power := x1, ctl := x2, host := x3, urz := x4, rng := x5, rest := x6, keys := x7, cls := x8, fab := x9, path := x10, otn := x11, mpu := x12, out := x13, free := x14 } = P s) (k idx sub : Nat) (v : Octets) (ck : ChuckRun) (s : State) : P (commitSingle k idx sub v ck s) = P s := by
  unfold commitSingle; (repeat' split) <;> simp only [commitArrive_keep P hP, dictSettle_keep P hP, updSession_keep P (fun s x0 => hP s s.time s.power x0 s.host s.urz s.rng s.rest s.keys s.cls s.fab s.path s.otn s.mpu s.out s.free rfl), hP]

end Sys2Proof.Machine
end

