-- ==== Sys2Proof/Laws/KeepStartup.lean ====
section
/-! SUPPORT. What the operations and meanings of Machine/Startup.lean leave alone: `f_keep` says that whatever is read from
the state without looking at the components `f` may change is the same after `f`. -/
set_option linter.all false
namespace Sys2Proof.Machine

theorem partOff_keep {β : Type} (P : State → β) (hP : ∀ s x0 x1 x2 x3 x4 x5 x6 x7 x8 x9 x10 x11 x12 x13 x14, P { s with time := x0, power := x1, ctl := x2, host := x3, urz := x4, rng := x5, rest := x6, keys := x7, cls := x8, fab := x9, path := x10, otn := x11, mpu := x12, out := x13, free := x14 } = P s) (s : State) : P (partOff s) = P s := by
  unfold partOff; (repeat' split) <;> simp only [zeroizeDone_keep P (fun s x0 x1 => hP s s.time s.power s.ctl s.host s.urz s.rng x0 s.keys s.cls x1 s.path s.otn s.mpu s.out s.free), hP]

theorem toVbat_keep {β : Type} (P : State → β) (hP : ∀ s x0 x1, P { s with power := x0, rest := x1 } = P s) (s : State) : P (toVbat s) = P s := by
  unfold toVbat; (repeat' split) <;> simp only [hP]

theorem resetTaken_keep {β : Type} (P : State → β) (hP : ∀ s x0 x1 x2 x3 x4 x5 x6 x7 x8 x9 x10 x11 x12 x13 x14, P { s with time := x0, power := x1, ctl := x2, host := x3, urz := x4, rng := x5, rest := x6, keys := x7, cls := x8, fab := x9, path := x10, otn := x11, mpu := x12, out := x13, free := x14 } = P s) (pwrgoodFell : Bool) (s : State) : P (resetTaken pwrgoodFell s) = P s := by
  unfold resetTaken; dsimp only; (repeat' split) <;> simp only [partOff_keep P hP, toVbat_keep P (fun s x0 x1 => hP s s.time x0 s.ctl s.host s.urz s.rng x1 s.keys s.cls s.fab s.path s.otn s.mpu s.out s.free), hP]

theorem supplyLost_keep {β : Type} (P : State → β) (hP : ∀ s x0 x1 x2 x3 x4 x5 x6 x7 x8 x9 x10 x11 x12 x13 x14, P { s with time := x0, power := x1, ctl := x2, host := x3, urz := x4, rng := x5, rest := x6, keys := x7, cls := x8, fab := x9, path := x10, otn := x11, mpu := x12, out := x13, free := x14 } = P s) (s : State) : P (supplyLost s) = P s := by
  unfold supplyLost; (repeat' split) <;> simp only [partOff_keep P hP, hP]

theorem coldTaken_keep {β : Type} (P : State → β) (hP : ∀ s x0 x1 x2 x3 x4 x5 x6 x7 x8 x9 x10 x11 x12 x13 x14, P { s with time := x0, power := x1, ctl := x2, host := x3, urz := x4, rng := x5, rest := x6, keys := x7, cls := x8, fab := x9, path := x10, otn := x11, mpu := x12, out := x13, free := x14 } = P s) (s : State) : P (coldTaken s) = P s := by
  unfold coldTaken; (repeat' split) <;> simp only [partOff_keep P hP, waitCycle_keep P (fun s x0 => hP s x0 s.power s.ctl s.host s.urz s.rng s.rest s.keys s.cls s.fab s.path s.otn s.mpu s.out s.free), hP]

theorem startNote_keep {β : Type} (P : State → β) (hP : ∀ s x0, P { s with power := x0 } = P s) (i : Nat) (s : State) : P (startNote i s) = P s := by
  unfold startNote; (repeat' split) <;> simp only [hP]

theorem toMain_keep {β : Type} (P : State → β) (hP : ∀ s x0 x1, P { s with rest := x0, free := x1 } = P s) (intact : Bool) (s : State) : P (toMain intact s) = P s := by
  unfold toMain; (repeat' split) <;> simp only [openValue_keep P (fun s x0 => hP s s.rest x0), raiseAlarm_keep P (fun s x0 => hP s x0 s.free), setAlarm_keep P (fun s x0 => hP s x0 s.free), hP]

theorem unownedUnlock_keep {β : Type} (P : State → β) (hP : ∀ s x0 x1 x2, P { s with host := x0, rest := x1, out := x2 } = P s) (s : State) : P (unownedUnlock s) = P s := by
  unfold unownedUnlock; (repeat' split) <;> simp only [logEntry_keep P hP, tamperCount_keep P (fun s x0 => hP s s.host x0 s.out), hP]

theorem alertsShow_keep {β : Type} (P : State → β) (hP : ∀ s x0 x1 x2, P { s with host := x0, rest := x1, out := x2 } = P s) (s : State) : P (alertsShow s) = P s := by
  unfold alertsShow; repeat' (first | with_reducible rfl | split | simp only [post_keep P (fun s x0 x1 => hP s x0 s.rest x1), hP] | (with_reducible refine (keep (fun _ _ => by (repeat' (first | with_reducible rfl | split | simp only [post_keep P (fun s x0 x1 => hP s x0 s.rest x1), hP])))).trans ?_) | (with_reducible refine (keep2 (fun _ _ => by (repeat' (first | with_reducible rfl | split | simp only [post_keep P (fun s x0 x1 => hP s x0 s.rest x1), hP])))).trans ?_))

theorem keksStart_keep {β : Type} (P : State → β) (hP : ∀ s x0 x1 x2 x3 x4, P { s with host := x0, rng := x1, rest := x2, keys := x3, out := x4 } = P s) (s : State) : P (keksStart s) = P s := by
  unfold keksStart; (repeat' split) <;> simp only [kekAreaLost_keep P (fun s x0 x1 x2 x3 => hP s x0 s.rng x1 x2 x3), keksRestore_keep P (fun s x0 x1 x2 x3 => hP s x0 s.rng x1 x2 x3), rngAsk_keep P (fun s x0 => hP s s.host x0 s.rest s.keys s.out), hP]

theorem startBegin_keep {β : Type} (P : State → β) (hP : ∀ s x0 x1 x2 x3 x4 x5 x6 x7 x8 x9 x10 x11 x12 x13 x14, P { s with time := x0, power := x1, ctl := x2, host := x3, urz := x4, rng := x5, rest := x6, keys := x7, cls := x8, fab := x9, path := x10, otn := x11, mpu := x12, out := x13, free := x14 } = P s) (s : State) : P (startBegin s) = P s := by
  unfold startBegin; dsimp only; (repeat' split) <;> simp only [alertsShow_keep P (fun s x0 x1 x2 => hP s s.time s.power s.ctl x0 s.urz s.rng x1 s.keys s.cls s.fab s.path s.otn s.mpu x2 s.free), binsBegin_keep P (fun s x0 => hP s s.time s.power s.ctl s.host s.urz s.rng s.rest s.keys s.cls s.fab s.path x0 s.mpu s.out s.free), keksStart_keep P (fun s x0 x1 x2 x3 x4 => hP s s.time s.power s.ctl x0 s.urz x1 x2 x3 s.cls s.fab s.path s.otn s.mpu x4 s.free), logEntry_keep P (fun s x0 x1 x2 => hP s s.time s.power s.ctl x0 s.urz s.rng x1 s.keys s.cls s.fab s.path s.otn s.mpu x2 s.free), newChallenge_keep P (fun s x0 x1 => hP s s.time s.power s.ctl s.host s.urz x0 x1 s.keys s.cls s.fab s.path s.otn s.mpu s.out s.free), partOff_keep P hP, pinZeroize_keep P (fun s x0 x1 x2 x3 x4 x5 x6 x7 x8 x9 x10 x11 x12 x13 h => hP s x0 x1 x2 x3 x4 x5 x6 x7 x8 x9 x10 x11 x12 x13 s.free), rngAsk_keep P (fun s x0 => hP s s.time s.power s.ctl s.host s.urz x0 s.rest s.keys s.cls s.fab s.path s.otn s.mpu s.out s.free), unownedUnlock_keep P (fun s x0 x1 x2 => hP s s.time s.power s.ctl x0 s.urz s.rng x1 s.keys s.cls s.fab s.path s.otn s.mpu x2 s.free), hP]

theorem powerGood_keep {β : Type} (P : State → β) (hP : ∀ s x0 x1 x2 x3 x4 x5 x6 x7 x8 x9 x10 x11 x12 x13 x14, P { s with time := x0, power := x1, ctl := x2, host := x3, urz := x4, rng := x5, rest := x6, keys := x7, cls := x8, fab := x9, path := x10, otn := x11, mpu := x12, out := x13, free := x14 } = P s) (byResetN intact : Bool) (s : State) : P (powerGood byResetN intact s) = P s := by
  unfold powerGood; dsimp only; (repeat' split) <;> simp only [startBegin_keep P hP, toMain_keep P (fun s x0 x1 => hP s s.time s.power s.ctl s.host s.urz s.rng x0 s.keys s.cls s.fab s.path s.otn s.mpu s.out x1), waitCycle_keep P (fun s x0 => hP s x0 s.power s.ctl s.host s.urz s.rng s.rest s.keys s.cls s.fab s.path s.otn s.mpu s.out s.free), hP]

theorem initEnd_keep {β : Type} (P : State → β) (hP : ∀ s x0 x1 x2, P { s with power := x0, host := x1, rng := x2 } = P s) (ok : Bool) (s : State) : P (initEnd ok s) = P s := by
  unfold initEnd; repeat' (first | with_reducible rfl | split | simp only [lanesSettle_keep P (fun s x0 => hP s x0 s.host s.rng), ringZero_keep P (fun s x0 => hP s s.power x0 s.rng), setDomain_keep P (fun s x0 => hP s x0 s.host s.rng), sourcesStart_keep P (fun s x0 => hP s s.power s.host x0), startNote_keep P (fun s x0 => hP s x0 s.host s.rng), hP] | (with_reducible refine (keep (fun _ _ => by (repeat' (first | with_reducible rfl | split | simp only [lanesSettle_keep P (fun s x0 => hP s x0 s.host s.rng), ringZero_keep P (fun s x0 => hP s s.power x0 s.rng), setDomain_keep P (fun s x0 => hP s x0 s.host s.rng), sourcesStart_keep P (fun s x0 => hP s s.power s.host x0), startNote_keep P (fun s x0 => hP s x0 s.host s.rng), hP])))).trans ?_) | (with_reducible refine (keep2 (fun _ _ => by (repeat' (first | with_reducible rfl | split | simp only [lanesSettle_keep P (fun s x0 => hP s x0 s.host s.rng), ringZero_keep P (fun s x0 => hP s s.power x0 s.rng), setDomain_keep P (fun s x0 => hP s x0 s.host s.rng), sourcesStart_keep P (fun s x0 => hP s s.power s.host x0), startNote_keep P (fun s x0 => hP s x0 s.host s.rng), hP])))).trans ?_))

theorem toRestoring_keep {β : Type} (P : State → β) (hP : ∀ s x0 x1 x2 x3, Memory.wf x3.hbm = Memory.wf s.mpu.hbm → P { s with power := x0, rng := x1, keys := x2, mpu := x3 } = P s) (s : State) : P (toRestoring s) = P s := by
  unfold toRestoring; (repeat' split) <;> simp only [rngAsk_keep P (fun s x0 => hP s s.power x0 s.keys s.mpu rfl), startNote_keep P (fun s x0 => hP s x0 s.rng s.keys s.mpu rfl), hP]

theorem stackTrained_keep {β : Type} (P : State → β) (hP : ∀ s x0 x1 x2 x3, Memory.wf x3.hbm = Memory.wf s.mpu.hbm → P { s with power := x0, rng := x1, keys := x2, mpu := x3 } = P s) (stack : Nat) (pass : Bool) (s : State) : P (stackTrained stack pass s) = P s := by
  unfold stackTrained; dsimp only; (repeat' split) <;> simp only [lanesSettle_keep P (fun s x0 => hP s x0 s.rng s.keys s.mpu rfl), startNote_keep P (fun s x0 => hP s x0 s.rng s.keys s.mpu rfl), toRestoring_keep P hP, hP]

theorem roleSet_keep {β : Type} (P : State → β) (hP : ∀ s x0 x1 x2 x3 x4 x5 x6, Memory.wf x5.hbm = Memory.wf s.mpu.hbm → P { s with power := x0, host := x1, rng := x2, rest := x3, fab := x4, mpu := x5, out := x6 } = P s) (calib : Nat) (ok work : Bool) (i : Nat) (s : State) : P (roleSet calib ok work i s) = P s := by
  unfold roleSet; dsimp only; split; (· split; (· have f := rngDraw_keep P (fun s x0 => hP s s.power s.host x0 s.rest s.fab s.mpu s.out rfl) _ _ _ ‹rngDraw _ _ = _›; simp only [fabCount_keep P (fun s x0 => hP s s.power s.host s.rng s.rest x0 s.mpu s.out rfl), logSpindle_keep P (fun s x0 x1 x2 => hP s s.power x0 s.rng x1 s.fab s.mpu x2 rfl), maskSeed_keep P (fun s x0 => hP s s.power s.host s.rng s.rest x0 s.mpu s.out rfl), rngAsk_keep P (fun s x0 => hP s s.power s.host x0 s.rest s.fab s.mpu s.out rfl), setDomain_keep P (fun s x0 => hP s x0 s.host s.rng s.rest s.fab s.mpu s.out rfl), setRole_keep P (fun s x0 => hP s s.power s.host s.rng s.rest x0 s.mpu s.out rfl), toSpare_keep P (fun s x0 x1 x2 x3 x4 x5 h => hP s x0 x1 s.rng x2 x3 x4 x5 h), trimFactory_keep P (fun s x0 => hP s s.power s.host s.rng s.rest x0 s.mpu s.out rfl), updSp_keep P (fun s x0 => hP s s.power s.host s.rng s.rest x0 s.mpu s.out rfl), hP] at f ⊢; exact f); (· simp only [fabCount_keep P (fun s x0 => hP s s.power s.host s.rng s.rest x0 s.mpu s.out rfl), logSpindle_keep P (fun s x0 x1 x2 => hP s s.power x0 s.rng x1 s.fab s.mpu x2 rfl), maskSeed_keep P (fun s x0 => hP s s.power s.host s.rng s.rest x0 s.mpu s.out rfl), rngAsk_keep P (fun s x0 => hP s s.power s.host x0 s.rest s.fab s.mpu s.out rfl), setDomain_keep P (fun s x0 => hP s x0 s.host s.rng s.rest s.fab s.mpu s.out rfl), setRole_keep P (fun s x0 => hP s s.power s.host s.rng s.rest x0 s.mpu s.out rfl), toSpare_keep P (fun s x0 x1 x2 x3 x4 x5 h => hP s x0 x1 s.rng x2 x3 x4 x5 h), trimFactory_keep P (fun s x0 => hP s s.power s.host s.rng s.rest x0 s.mpu s.out rfl), updSp_keep P (fun s x0 => hP s s.power s.host s.rng s.rest x0 s.mpu s.out rfl), hP])); (· split <;> simp only [fabCount_keep P (fun s x0 => hP s s.power s.host s.rng s.rest x0 s.mpu s.out rfl), logSpindle_keep P (fun s x0 x1 x2 => hP s s.power x0 s.rng x1 s.fab s.mpu x2 rfl), maskSeed_keep P (fun s x0 => hP s s.power s.host s.rng s.rest x0 s.mpu s.out rfl), rngAsk_keep P (fun s x0 => hP s s.power s.host x0 s.rest s.fab s.mpu s.out rfl), setDomain_keep P (fun s x0 => hP s x0 s.host s.rng s.rest s.fab s.mpu s.out rfl), setRole_keep P (fun s x0 => hP s s.power s.host s.rng s.rest x0 s.mpu s.out rfl), toSpare_keep P (fun s x0 x1 x2 x3 x4 x5 h => hP s x0 x1 s.rng x2 x3 x4 x5 h), trimFactory_keep P (fun s x0 => hP s s.power s.host s.rng s.rest x0 s.mpu s.out rfl), updSp_keep P (fun s x0 => hP s s.power s.host s.rng s.rest x0 s.mpu s.out rfl), hP])

theorem rolesSet_keep {β : Type} (P : State → β) (hP : ∀ s x0 x1 x2 x3 x4 x5 x6, Memory.wf x5.hbm = Memory.wf s.mpu.hbm → P { s with power := x0, host := x1, rng := x2, rest := x3, fab := x4, mpu := x5, out := x6 } = P s) (kat : List KatRun) (s : State) : P (rolesSet kat s) = P s := by
  unfold rolesSet; repeat' (first | with_reducible rfl | split | simp only [roleSet_keep P hP, spareCheck_keep P (fun s x0 x1 x2 => hP s s.power x0 s.rng s.rest x1 s.mpu x2 rfl), hP] | (with_reducible refine (keep (fun _ _ => by (repeat' (first | with_reducible rfl | split | simp only [roleSet_keep P hP, spareCheck_keep P (fun s x0 x1 x2 => hP s s.power x0 s.rng s.rest x1 s.mpu x2 rfl), hP])))).trans ?_) | (with_reducible refine (keep2 (fun _ _ => by (repeat' (first | with_reducible rfl | split | simp only [roleSet_keep P hP, spareCheck_keep P (fun s x0 x1 x2 => hP s s.power x0 s.rng s.rest x1 s.mpu x2 rfl), hP])))).trans ?_))

theorem generatorStarts_keep {β : Type} (P : State → β) (hP : ∀ s x0 x1 x2 x3 x4 x5 x6 x7, Memory.wf x6.hbm = Memory.wf s.mpu.hbm → P { s with power := x0, host := x1, rng := x2, rest := x3, keys := x4, fab := x5, mpu := x6, out := x7 } = P s) (kat : List KatRun) (s : State) : P (generatorStarts kat s) = P s := by
  unfold generatorStarts; dsimp only; (repeat' split) <;> simp only [rolesSet_keep P (fun s x0 x1 x2 x3 x4 x5 x6 h => hP s x0 x1 x2 x3 s.keys x4 x5 x6 h), startNote_keep P (fun s x0 => hP s x0 s.host s.rng s.rest s.keys s.fab s.mpu s.out rfl), toRestoring_keep P (fun s x0 x1 x2 x3 h => hP s x0 s.host x1 s.rest x2 s.fab x3 s.out h), hP]

theorem randomWait_keep {β : Type} (P : State → β) (hP : ∀ s x0 x1, P { s with time := x0, power := x1 } = P s) (s : State) : P (randomWait s) = P s := by
  unfold randomWait; (repeat' split) <;> simp only [startNote_keep P (fun s x0 => hP s s.time x0), waitCycle_keep P (fun s x0 => hP s x0 s.power), hP]

theorem imageTakes_keep {β : Type} (P : State → β) (hP : ∀ s x0 x1 x2 x3 x4 x5 x6 x7 x8 x9 x10 x11, Memory.wf x10.hbm = Memory.wf s.mpu.hbm → P { s with time := x0, power := x1, host := x2, rng := x3, rest := x4, keys := x5, cls := x6, fab := x7, path := x8, otn := x9, mpu := x10, out := x11 } = P s) (s0 : State) (st : Tab Octets) (s : State) : P (imageTakes s0 st s) = P s := by
  unfold imageTakes; repeat' (first | with_reducible rfl | split | simp only [domainsSettle_keep P (fun s x0 => hP s s.time x0 s.host s.rng s.rest s.keys s.cls s.fab s.path s.otn s.mpu s.out rfl), fabricTakes_keep P (fun s x0 x1 x2 x3 x4 x5 x6 x7 h => hP s s.time x0 x1 x2 x3 s.keys s.cls x4 x5 s.otn x6 x7 h), powerTakes_keep P (fun s x0 x1 => hP s s.time x0 s.host x1 s.rest s.keys s.cls s.fab s.path s.otn s.mpu s.out rfl), queueTakes_keep P (fun s x0 x1 x2 x3 x4 x5 x6 h => hP s s.time x0 x1 s.rng s.rest x2 s.cls s.fab x3 x4 x5 x6 h), shapesTake_keep P (fun s x0 x1 x2 x3 x4 h => hP s s.time x0 s.host s.rng s.rest s.keys s.cls s.fab x1 x2 x3 x4 h), timeTakes_keep P (fun s x0 x1 x2 x3 x4 x5 x6 x7 => hP s x0 s.power x1 s.rng x2 x3 x4 s.fab x5 x6 s.mpu x7 rfl), hP] | (with_reducible refine (keep (fun _ _ => by (repeat' (first | with_reducible rfl | split | simp only [domainsSettle_keep P (fun s x0 => hP s s.time x0 s.host s.rng s.rest s.keys s.cls s.fab s.path s.otn s.mpu s.out rfl), fabricTakes_keep P (fun s x0 x1 x2 x3 x4 x5 x6 x7 h => hP s s.time x0 x1 x2 x3 s.keys s.cls x4 x5 s.otn x6 x7 h), powerTakes_keep P (fun s x0 x1 => hP s s.time x0 s.host x1 s.rest s.keys s.cls s.fab s.path s.otn s.mpu s.out rfl), queueTakes_keep P (fun s x0 x1 x2 x3 x4 x5 x6 h => hP s s.time x0 x1 s.rng s.rest x2 s.cls s.fab x3 x4 x5 x6 h), shapesTake_keep P (fun s x0 x1 x2 x3 x4 h => hP s s.time x0 s.host s.rng s.rest s.keys s.cls s.fab x1 x2 x3 x4 h), timeTakes_keep P (fun s x0 x1 x2 x3 x4 x5 x6 x7 => hP s x0 s.power x1 s.rng x2 x3 x4 s.fab x5 x6 s.mpu x7 rfl), hP])))).trans ?_) | (with_reducible refine (keep2 (fun _ _ => by (repeat' (first | with_reducible rfl | split | simp only [domainsSettle_keep P (fun s x0 => hP s s.time x0 s.host s.rng s.rest s.keys s.cls s.fab s.path s.otn s.mpu s.out rfl), fabricTakes_keep P (fun s x0 x1 x2 x3 x4 x5 x6 x7 h => hP s s.time x0 x1 x2 x3 s.keys s.cls x4 x5 s.otn x6 x7 h), powerTakes_keep P (fun s x0 x1 => hP s s.time x0 s.host x1 s.rest s.keys s.cls s.fab s.path s.otn s.mpu s.out rfl), queueTakes_keep P (fun s x0 x1 x2 x3 x4 x5 x6 h => hP s s.time x0 x1 s.rng s.rest x2 s.cls s.fab x3 x4 x5 x6 h), shapesTake_keep P (fun s x0 x1 x2 x3 x4 h => hP s s.time x0 s.host s.rng s.rest s.keys s.cls s.fab x1 x2 x3 x4 h), timeTakes_keep P (fun s x0 x1 x2 x3 x4 x5 x6 x7 => hP s x0 s.power x1 s.rng x2 x3 x4 s.fab x5 x6 s.mpu x7 rfl), hP])))).trans ?_))

theorem imageApply_keep {β : Type} (P : State → β) (hP : ∀ s x0 x1 x2 x3 x4 x5 x6 x7 x8 x9 x10 x11 x12, Memory.wf x11.hbm = Memory.wf s.mpu.hbm → P { s with time := x0, power := x1, ctl := x2, host := x3, rng := x4, rest := x5, keys := x6, cls := x7, fab := x8, path := x9, otn := x10, mpu := x11, out := x12 } = P s) (s : State) : P (imageApply s) = P s := by
  unfold imageApply; dsimp only; (repeat' split) <;> simp only [candidate_keep P (fun s x0 x1 x2 x3 x4 x5 => hP s x0 s.power x1 s.host s.rng s.rest x2 x3 s.fab x4 x5 s.mpu s.out rfl), domainsSettle_keep P (fun s x0 => hP s s.time x0 s.ctl s.host s.rng s.rest s.keys s.cls s.fab s.path s.otn s.mpu s.out rfl), imageTakes_keep P (fun s x0 x1 x2 x3 x4 x5 x6 x7 x8 x9 x10 x11 h => hP s x0 x1 s.ctl x2 x3 x4 x5 x6 x7 x8 x9 x10 x11 h), hP]

theorem restoreEnd_keep {β : Type} (P : State → β) (hP : ∀ s x0 x1 x2 x3 x4 x5 x6 x7 x8 x9 x10 x11 x12, Memory.wf x11.hbm = Memory.wf s.mpu.hbm → P { s with time := x0, power := x1, ctl := x2, host := x3, rng := x4, rest := x5, keys := x6, cls := x7, fab := x8, path := x9, otn := x10, mpu := x11, out := x12 } = P s) (s : State) : P (restoreEnd s) = P s := by
  unfold restoreEnd; dsimp only; (repeat' split) <;> simp only [checkpointsOwed_keep P (fun s x0 x1 x2 x3 x4 h => hP s s.time s.power s.ctl x0 s.rng x1 s.keys s.cls x2 s.path s.otn x3 x4 h), imageApply_keep P hP, lanesSettle_keep P (fun s x0 => hP s s.time x0 s.ctl s.host s.rng s.rest s.keys s.cls s.fab s.path s.otn s.mpu s.out rfl), settleRoles_keep P (fun s x0 x1 x2 x3 x4 x5 x6 h => hP s s.time x0 s.ctl x1 x2 x3 s.keys s.cls x4 s.path s.otn x5 x6 h), startNote_keep P (fun s x0 => hP s s.time x0 s.ctl s.host s.rng s.rest s.keys s.cls s.fab s.path s.otn s.mpu s.out rfl), toRestoring_keep P (fun s x0 x1 x2 x3 h => hP s s.time x0 s.ctl s.host x1 s.rest x2 s.cls s.fab s.path s.otn x3 s.out h), hP]

theorem serviceEnd_keep {β : Type} (P : State → β) (hP : ∀ s x0 x1 x2, P { s with power := x0, cls := x1, path := x2 } = P s) (s : State) : P (serviceEnd s) = P s := by
  unfold serviceEnd; repeat' (first | with_reducible rfl | split | simp only [lanesSettle_keep P (fun s x0 => hP s x0 s.cls s.path), portsOpen_keep P (fun s x0 => hP s s.power s.cls x0), setDomain_keep P (fun s x0 => hP s x0 s.cls s.path), hP] | (with_reducible refine (keep (fun _ _ => by (repeat' (first | with_reducible rfl | split | simp only [lanesSettle_keep P (fun s x0 => hP s x0 s.cls s.path), portsOpen_keep P (fun s x0 => hP s s.power s.cls x0), setDomain_keep P (fun s x0 => hP s x0 s.cls s.path), hP])))).trans ?_) | (with_reducible refine (keep2 (fun _ _ => by (repeat' (first | with_reducible rfl | split | simp only [lanesSettle_keep P (fun s x0 => hP s x0 s.cls s.path), portsOpen_keep P (fun s x0 => hP s s.power s.cls x0), setDomain_keep P (fun s x0 => hP s x0 s.cls s.path), hP])))).trans ?_))

end Sys2Proof.Machine
end

