-- ==== Sys2Proof/Laws/KeepExec.lean ====
section
/-! SUPPORT. What each command's meaning leaves alone, said as in the other Keep files; where a meaning may store to the HBM, only
what holds whatever octets are stored (its canonical form) carries over, unless the part may go Off with it. -/
set_option linter.all false
set_option exponentiation.threshold 600
namespace Sys2Proof.Machine

theorem execConditionedBlockReady_keep {β : Type} (P : State → β) (hP : ∀ s x0 x1 x2 x3 x4, P { s with time := x0, host := x1, rng := x2, rest := x3, out := x4 } = P s) (source : Fin 8) (raw : Octets) (s : State) (tt : State) (e : execConditionedBlockReady source raw s = .next tt) : P tt = P s := by
  unfold execConditionedBlockReady at e; replace e := Host.Outcome.next.inj e; subst e; (repeat' split) <;> simp only [blockReady_keep P hP, hP]

theorem execSourceHealthFailure_keep {β : Type} (P : State → β) (hP : ∀ s x0 x1 x2 x3, P { s with host := x0, rng := x1, rest := x2, out := x3 } = P s) (source : Fin 8) (test : HealthTest) (s : State) (tt : State) (e : execSourceHealthFailure source test s = .next tt) : P tt = P s := by
  unfold execSourceHealthFailure at e; replace e := Host.Outcome.next.inj e; subst e; (repeat' split) <;> simp only [sourceFail_keep P hP, hP]

theorem execSourceStartupComplete_keep {β : Type} (P : State → β) (hP : ∀ s x0 x1 x2 x3 x4, P { s with time := x0, host := x1, rng := x2, rest := x3, out := x4 } = P s) (source : Fin 8) (raw : Octets) (s : State) (tt : State) (e : execSourceStartupComplete source raw s = .next tt) : P tt = P s := by
  unfold execSourceStartupComplete at e; replace e := Host.Outcome.next.inj e; subst e; (repeat' split) <;> simp only [sourceTested_keep P hP, hP]

theorem execSourceRetest_keep {β : Type} (P : State → β) (hP : ∀ s x0 x1 x2 x3 x4, P { s with time := x0, host := x1, rng := x2, rest := x3, out := x4 } = P s) (source : Fin 8) (s : State) (tt : State) (e : execSourceRetest source s = .next tt) : P tt = P s := by
  unfold execSourceRetest at e; replace e := Host.Outcome.next.inj e; subst e; (repeat' split) <;> simp only [sourceLimit_keep P (fun s x0 x1 x2 x3 => hP s s.time x0 x1 x2 x3), updSource_keep P (fun s x0 => hP s s.time s.host x0 s.rest s.out), waitCycle_keep P (fun s x0 => hP s x0 s.host s.rng s.rest s.out), hP]

theorem execSourceFailuresCleared_keep {β : Type} (P : State → β) (hP : ∀ s x0 x1, P { s with time := x0, rng := x1 } = P s) (source : Fin 8) (s : State) (tt : State) (e : execSourceFailuresCleared source s = .next tt) : P tt = P s := by
  unfold execSourceFailuresCleared at e; replace e := Host.Outcome.next.inj e; subst e; (repeat' split) <;> simp only [updSource_keep P (fun s x0 => hP s s.time x0), waitCycle_keep P (fun s x0 => hP s x0 s.rng), hP]

theorem execExpanderReseed_keep {β : Type} (P : State → β) (hP : ∀ s x0 x1, P { s with time := x0, rng := x1 } = P s) (s : State) (tt : State) (e : execExpanderReseed s = .next tt) : P tt = P s := by
  unfold execExpanderReseed at e; replace e := Host.Outcome.next.inj e; subst e; (repeat' split) <;> simp only [rngReseed_keep P hP, hP]

theorem execExpanderFault_keep {β : Type} (P : State → β) (hP : ∀ s x0 x1, P { s with power := x0, rng := x1 } = P s) (half : Fin 2) (s : State) (tt : State) (e : execExpanderFault half s = .next tt) : P tt = P s := by
  unfold execExpanderFault at e; replace e := Host.Outcome.next.inj e; subst e; (repeat' split) <;> simp only [halfReset_keep P hP, hP]

theorem execRngDataRead_keep {β : Type} (P : State → β) (hP : ∀ s x0 x1 x2, P { s with time := x0, rng := x1, out := x2 } = P s) (wide : Bool) (stall : BitVec 16) (s : State) (tt : State) (e : execRngDataRead wide stall s = .next tt) : P tt = P s := by
  unfold execRngDataRead at e; replace e := Host.Outcome.next.inj e; subst e; (repeat' split) <;> simp only [rngDataRead_keep P hP, hP]

theorem execRawCaptureComplete_keep {β : Type} (P : State → β) (hP : ∀ s x0 x1, P { s with time := x0, rng := x1 } = P s) (data : Octets) (s : State) (tt : State) (e : execRawCaptureComplete data s = .next tt) : P tt = P s := by
  unfold execRawCaptureComplete at e; replace e := Host.Outcome.next.inj e; subst e; (repeat' split) <;> simp only [updSource_keep P (fun s x0 => hP s s.time x0), waitCycle_keep P (fun s x0 => hP s x0 s.rng), hP]

theorem execMpuRead_keep {β : Type} (P : State → β) (hP : ∀ s x0 x1 x2 x3 x4, Memory.wf x3.hbm = Memory.wf s.mpu.hbm → P { s with host := x0, rest := x1, path := x2, mpu := x3, out := x4 } = P s) (addr : BitVec 48) (lines : Fin 9) (s : State) (tt : State) (e : execMpuRead addr lines s = .next tt) : P tt = P s := by
  unfold execMpuRead at e; replace e := Host.Outcome.next.inj e; subst e; (repeat' split) <;> simp only [readLines_keep P (fun s x0 x1 x2 x3 h => hP s x0 x1 s.path x2 x3 h), refuseRequest_keep P (fun s x0 x1 x2 x3 h => hP s x0 x1 s.path x2 x3 h), settleRewrites_keep P hP, hP]

theorem execMpuWrite_keep {β : Type} (P : State → β) (hP : ∀ s x0 x1 x2 x3 x4, Memory.wf x3.hbm = Memory.wf s.mpu.hbm → P { s with host := x0, rest := x1, path := x2, mpu := x3, out := x4 } = P s) (addr : BitVec 48) (data : Octets) (s : State) (tt : State) (e : execMpuWrite addr data s = .next tt) : P tt = P s := by
  unfold execMpuWrite at e; replace e := Host.Outcome.next.inj e; subst e; (repeat' split) <;> simp only [refuseRequest_keep P (fun s x0 x1 x2 x3 h => hP s x0 x1 s.path x2 x3 h), settleRewrites_keep P hP, writeOctets_keep P (fun s x0 x1 x2 x3 h => hP s x0 x1 s.path x2 x3 h), hP]

theorem execMetadataEviction_keep {β : Type} (P : State → β) (hP : ∀ s x0 x1 x2 x3, Memory.wf x2.hbm = Memory.wf s.mpu.hbm → P { s with host := x0, rest := x1, mpu := x2, out := x3 } = P s) (line : Fin 1331200) (s : State) (tt : State) (e : execMetadataEviction line s = .next tt) : P tt = P s := by
  unfold execMetadataEviction at e; replace e := Host.Outcome.next.inj e; subst e; (repeat' split) <;> simp only [evict_keep P hP, hP]

theorem execBlockAllocate_keep {β : Type} (P : State → β) (hP : ∀ s x0 x1 x2 x3, Memory.wf x2.hbm = Memory.wf s.mpu.hbm → P { s with host := x0, rest := x1, mpu := x2, out := x3 } = P s) (key : BitVec 4) (block : Fin 1310720) (s : State) (tt : State) (e : execBlockAllocate key block s = .next tt) : P tt = P s := by
  unfold execBlockAllocate at e; replace e := Host.Outcome.next.inj e; subst e; (repeat' split) <;> (first | (have f := newMajor_keep P (fun s x0 h => hP s s.host s.rest x0 s.out h) _ _ _ ‹newMajor _ _ = _›; simp only [allocate_keep P hP, refuseRequest_keep P hP, hP] at f ⊢; exact f) | simp only [allocate_keep P hP, refuseRequest_keep P hP, hP])

theorem execPatrolScrub_keep {β : Type} (P : State → β) (hP : ∀ s x0 x1 x2 x3 x4 x5, Memory.wf x4.hbm = Memory.wf s.mpu.hbm → P { s with time := x0, host := x1, rest := x2, path := x3, mpu := x4, out := x5 } = P s) (line : Fin 83886080) (s : State) (tt : State) (e : execPatrolScrub line s = .next tt) : P tt = P s := by
  unfold execPatrolScrub at e; replace e := Host.Outcome.next.inj e; subst e; repeat' (first | with_reducible rfl | split | simp only [cachePut_keep P (fun s x0 h => hP s s.time s.host s.rest s.path x0 s.out h), loseBlock_keep P (fun s x0 x1 x2 x3 h => hP s s.time x0 x1 s.path x2 x3 h), memCount_keep P (fun s x0 h => hP s s.time s.host s.rest s.path x0 s.out h), metaScrub_keep P (fun s x0 x1 x2 x3 h => hP s s.time x0 x1 s.path x2 x3 h), node1_keep P (fun s x0 x1 x2 x3 h => hP s s.time x0 x1 s.path x2 x3 h), physRead_keep P (fun s x0 h => hP s s.time s.host s.rest s.path x0 s.out h), readLine_keep P (fun s x0 x1 x2 x3 h => hP s s.time x0 x1 s.path x2 x3 h), scrubStart_keep P (fun s x0 x1 h => hP s x0 s.host s.rest s.path x1 s.out h), settleRewrites_keep P (fun s x0 x1 x2 x3 x4 h => hP s s.time x0 x1 x2 x3 x4 h), hP] | (with_reducible refine (keep (fun _ _ => by (repeat' (first | with_reducible rfl | split | simp only [cachePut_keep P (fun s x0 h => hP s s.time s.host s.rest s.path x0 s.out h), loseBlock_keep P (fun s x0 x1 x2 x3 h => hP s s.time x0 x1 s.path x2 x3 h), memCount_keep P (fun s x0 h => hP s s.time s.host s.rest s.path x0 s.out h), metaScrub_keep P (fun s x0 x1 x2 x3 h => hP s s.time x0 x1 s.path x2 x3 h), node1_keep P (fun s x0 x1 x2 x3 h => hP s s.time x0 x1 s.path x2 x3 h), physRead_keep P (fun s x0 h => hP s s.time s.host s.rest s.path x0 s.out h), readLine_keep P (fun s x0 x1 x2 x3 h => hP s s.time x0 x1 s.path x2 x3 h), scrubStart_keep P (fun s x0 x1 h => hP s x0 s.host s.rest s.path x1 s.out h), settleRewrites_keep P (fun s x0 x1 x2 x3 x4 h => hP s s.time x0 x1 x2 x3 x4 h), hP])))).trans ?_) | (with_reducible refine (keep2 (fun _ _ => by (repeat' (first | with_reducible rfl | split | simp only [cachePut_keep P (fun s x0 h => hP s s.time s.host s.rest s.path x0 s.out h), loseBlock_keep P (fun s x0 x1 x2 x3 h => hP s s.time x0 x1 s.path x2 x3 h), memCount_keep P (fun s x0 h => hP s s.time s.host s.rest s.path x0 s.out h), metaScrub_keep P (fun s x0 x1 x2 x3 h => hP s s.time x0 x1 s.path x2 x3 h), node1_keep P (fun s x0 x1 x2 x3 h => hP s s.time x0 x1 s.path x2 x3 h), physRead_keep P (fun s x0 h => hP s s.time s.host s.rest s.path x0 s.out h), readLine_keep P (fun s x0 x1 x2 x3 h => hP s s.time x0 x1 s.path x2 x3 h), scrubStart_keep P (fun s x0 x1 h => hP s x0 s.host s.rest s.path x1 s.out h), settleRewrites_keep P (fun s x0 x1 x2 x3 x4 h => hP s s.time x0 x1 x2 x3 x4 h), hP])))).trans ?_))

theorem execGougeParseStart_keep {β : Type} (P : State → β) (hP : ∀ s x0 x1 x2 x3 x4, P { s with host := x0, rest := x1, cls := x2, path := x3, out := x4 } = P s) (pd : PD) (cluster : Fin 8) (gouge : Fin 16) (header : Octets) (len : Nat) (parityFails : Fin 3) (s : State) (tt : State) (e : execGougeParseStart pd cluster gouge header len parityFails s = .next tt) : P tt = P s := by
  unfold execGougeParseStart at e; replace e := Host.Outcome.next.inj e; subst e; (repeat' split) <;> simp only [gougeStart_keep P hP, hP]

theorem execGougeParseTimeout_keep {β : Type} (P : State → β) (hP : ∀ s x0 x1 x2 x3 x4, P { s with host := x0, rest := x1, cls := x2, path := x3, out := x4 } = P s) (cluster : Fin 8) (gouge : Fin 16) (s : State) (tt : State) (e : execGougeParseTimeout cluster gouge s = .next tt) : P tt = P s := by
  unfold execGougeParseTimeout at e; replace e := Host.Outcome.next.inj e; subst e; (repeat' split) <;> simp only [parityFailed_keep P hP, hP]

theorem execFrameAccepted_keep {β : Type} (P : State → β) (hP : ∀ s x0 x1 x2, P { s with urz := x0, path := x1, otn := x2 } = P s) (pd : PD) (rx : Received) (s : State) (tt : State) (e : execFrameAccepted pd rx s = .next tt) : P tt = P s := by
  unfold execFrameAccepted at e; replace e := Host.Outcome.next.inj e; subst e; (repeat' split) <;> simp only [acceptEthernet_keep P (fun s x0 => hP s s.urz x0 s.otn), acceptTributary_keep P hP, hP]

theorem execPauseReceived_keep {β : Type} (P : State → β) (hP : ∀ s x0, P { s with path := x0 } = P s) (port : Fin 32) (quanta : BitVec 16) (s : State) (tt : State) (e : execPauseReceived port quanta s = .next tt) : P tt = P s := by
  unfold execPauseReceived at e; replace e := Host.Outcome.next.inj e; subst e; (repeat' split) <;> simp only [macCount_keep P hP, pauseFrame_keep P hP, hP]

theorem execPfcReceived_keep {β : Type} (P : State → β) (hP : ∀ s x0, P { s with path := x0 } = P s) (port : Fin 32) (enable : BitVec 8) (times : List (BitVec 16)) (s : State) (tt : State) (e : execPfcReceived port enable times s = .next tt) : P tt = P s := by
  unfold execPfcReceived at e; replace e := Host.Outcome.next.inj e; subst e; (repeat' split) <;> simp only [macCount_keep P hP, pfcFrame_keep P hP, hP]

theorem execPauseTimeExpiry_keep {β : Type} (P : State → β) (hP : ∀ s x0 x1, P { s with time := x0, path := x1 } = P s) (port : Fin 32) (prio : Option (Fin 8)) (s : State) (tt : State) (e : execPauseTimeExpiry port prio s = .next tt) : P tt = P s := by
  unfold execPauseTimeExpiry at e; replace e := Host.Outcome.next.inj e; subst e; (repeat' split) <;> simp only [updPd_keep P (fun s x0 => hP s s.time x0), waitCycle_keep P (fun s x0 => hP s x0 s.path), hP]

theorem execInjectionDescriptor_keep {β : Type} (P : State → β) (hP : ∀ s x0 x1 x2, P { s with host := x0, path := x1, out := x2 } = P s) (ring : Fin 512) (frame : Octets) (s : State) (tt : State) (e : execInjectionDescriptor ring frame s = .next tt) : P tt = P s := by
  unfold execInjectionDescriptor at e; replace e := Host.Outcome.next.inj e; subst e; (repeat' split) <;> simp only [injectNext_keep P hP, hP]

theorem execInjectedFrameAccepted_keep {β : Type} (P : State → β) (hP : ∀ s x0 x1 x2 x3, P { s with time := x0, host := x1, path := x2, out := x3 } = P s) (s : State) (tt : State) (e : execInjectedFrameAccepted s = .next tt) : P tt = P s := by
  unfold execInjectedFrameAccepted at e; replace e := Host.Outcome.next.inj e; subst e; (repeat' split) <;> simp only [injectAccept_keep P hP, hP]

theorem execClassifyFrame_keep {β : Type} (P : State → β) (hP : ∀ s x0 x1 x2 x3 x4 x5, Memory.wf x4.hbm = Memory.wf s.mpu.hbm → P { s with host := x0, rest := x1, cls := x2, path := x3, mpu := x4, out := x5 } = P s) (pd : PD) (s : State) (tt : State) (e : execClassifyFrame pd s = .next tt) : P tt = P s := by
  unfold execClassifyFrame at e; replace e := Host.Outcome.next.inj e; subst e; (repeat' split) <;> simp only [classify_keep P hP, endParse_keep P (fun s x0 => hP s s.host s.rest s.cls x0 s.mpu s.out rfl), policeSettle_keep P (fun s x0 x1 => hP s s.host s.rest x0 x1 s.mpu s.out rfl), hP]

theorem execRuleBlockFill_keep {β : Type} (P : State → β) (hP : ∀ s x0 x1 x2 x3 x4 x5, Memory.wf x4.hbm = Memory.wf s.mpu.hbm → P { s with host := x0, rest := x1, cls := x2, path := x3, mpu := x4, out := x5 } = P s) (pd : PD) (s : State) (tt : State) (e : execRuleBlockFill pd s = .next tt) : P tt = P s := by
  unfold execRuleBlockFill at e; replace e := Host.Outcome.next.inj e; subst e; (repeat' split) <;> simp only [fillBlock_keep P hP, policeSettle_keep P (fun s x0 x1 => hP s s.host s.rest x0 x1 s.mpu s.out rfl), settleRewrites_keep P (fun s x0 x1 x2 x3 x4 h => hP s x0 x1 s.cls x2 x3 x4 h), walkApply_keep P hP, hP]

theorem execCutRetired_keep {β : Type} (P : State → β) (hP : ∀ s x0 x1 x2, P { s with ctl := x0, rest := x1, cls := x2 } = P s) (cut : BitVec 8) (s : State) (tt : State) (e : execCutRetired cut s = .next tt) : P tt = P s := by
  unfold execCutRetired at e; replace e := Host.Outcome.next.inj e; subst e; (repeat' split) <;> simp only [cutRetire_keep P hP, hP]

theorem execHeadstockSettle_keep {β : Type} (P : State → β) (hP : ∀ s x0 x1 x2 x3 x4 x5 x6 x7 x8 x9, Memory.wf x8.hbm = Memory.wf s.mpu.hbm → P { s with power := x0, host := x1, rng := x2, rest := x3, keys := x4, fab := x5, path := x6, otn := x7, mpu := x8, out := x9 } = P s) (pd : PD) (s : State) (tt : State) (e : execHeadstockSettle pd s = .next tt) : P tt = P s := by
  unfold execHeadstockSettle at e; replace e := Host.Outcome.next.inj e; subst e; (repeat' split) <;> simp only [headstockSettle_keep P (fun s x0 x1 x2 x3 x4 x5 => hP s s.power x0 s.rng s.rest x1 x2 x3 x4 s.mpu x5 rfl), unpark_keep P hP, hP]

theorem execDispatchFrame_keep {β : Type} (P : State → β) (hP : ∀ s x0 x1 x2 x3 x4 x5, P { s with host := x0, keys := x1, fab := x2, path := x3, otn := x4, out := x5 } = P s) (s : State) (tt : State) (e : execDispatchFrame s = .next tt) : P tt = P s := by
  unfold execDispatchFrame at e; replace e := Host.Outcome.next.inj e; subst e; (repeat' split) <;> simp only [dispatch_keep P hP, hP]

theorem execTokenIssue_keep {β : Type} (P : State → β) (hP : ∀ s x0 x1, P { s with fab := x0, path := x1 } = P s) (sp : Fin 28) (s : State) (tt : State) (e : execTokenIssue sp s = .next tt) : P tt = P s := by
  unfold execTokenIssue at e; replace e := Host.Outcome.next.inj e; subst e; (repeat' split) <;> simp only [issueToken_keep P hP, hP]

theorem execTokenComplete_keep {β : Type} (P : State → β) (hP : ∀ s x0 x1 x2 x3 x4 x5 x6 x7, Memory.wf x6.hbm = Memory.wf s.mpu.hbm → P { s with power := x0, host := x1, rng := x2, rest := x3, fab := x4, path := x5, mpu := x6, out := x7 } = P s) (sp : Fin 28) (s : State) (tt : State) (e : execTokenComplete sp s = .next tt) : P tt = P s := by
  unfold execTokenComplete at e; replace e := Host.Outcome.next.inj e; subst e; (repeat' split) <;> simp only [completeToken_keep P hP, hP]

theorem execSpindleFault_keep {β : Type} (P : State → β) (hP : ∀ s x0 x1 x2 x3 x4 x5 x6 x7, Memory.wf x6.hbm = Memory.wf s.mpu.hbm → P { s with power := x0, host := x1, rng := x2, rest := x3, fab := x4, path := x5, mpu := x6, out := x7 } = P s) (sp : Fin 28) (check : Check) (s : State) (tt : State) (e : execSpindleFault sp check s = .next tt) : P tt = P s := by
  unfold execSpindleFault at e; replace e := Host.Outcome.next.inj e; subst e; (repeat' split) <;> simp only [isolateSpindle_keep P hP, hP]

theorem execTokenWatchdogExpiry_keep {β : Type} (P : State → β) (hP : ∀ s x0 x1 x2 x3 x4 x5 x6 x7, Memory.wf x6.hbm = Memory.wf s.mpu.hbm → P { s with power := x0, host := x1, rng := x2, rest := x3, fab := x4, path := x5, mpu := x6, out := x7 } = P s) (sp : Fin 28) (s : State) (tt : State) (e : execTokenWatchdogExpiry sp s = .next tt) : P tt = P s := by
  unfold execTokenWatchdogExpiry at e; replace e := Host.Outcome.next.inj e; subst e; (repeat' split) <;> simp only [isolateSpindle_keep P hP, hP]

theorem execMaskReseedRequest_keep {β : Type} (P : State → β) (hP : ∀ s x0 x1, P { s with rng := x0, fab := x1 } = P s) (sp : Fin 28) (s : State) (tt : State) (e : execMaskReseedRequest sp s = .next tt) : P tt = P s := by
  unfold execMaskReseedRequest at e; replace e := Host.Outcome.next.inj e; subst e; (repeat' split) <;> simp only [rngAsk_keep P (fun s x0 => hP s x0 s.fab), updSp_keep P (fun s x0 => hP s s.rng x0), hP]

theorem execMaskReseedServed_keep {β : Type} (P : State → β) (hP : ∀ s x0 x1 x2 x3 x4 x5 x6, Memory.wf x4.hbm = Memory.wf s.mpu.hbm → P { s with rng := x0, rest := x1, keys := x2, fab := x3, mpu := x4, out := x5, free := x6 } = P s) (sp : Fin 28) (s : State) (tt : State) (e : execMaskReseedServed sp s = .next tt) : P tt = P s := by
  unfold execMaskReseedServed at e; replace e := Host.Outcome.next.inj e; subst e; (repeat' split) <;> simp only [rngServe_keep P hP, hP]

theorem execMaskRatchet_keep {β : Type} (P : State → β) (hP : ∀ s x0, P { s with fab := x0 } = P s) (sp : Fin 28) (s : State) (tt : State) (e : execMaskRatchet sp s = .next tt) : P tt = P s := by
  unfold execMaskRatchet at e; replace e := Host.Outcome.next.inj e; subst e; (repeat' split) <;> simp only [fabCount_keep P hP, updSp_keep P hP, hP]

theorem execMaskStarvation_keep {β : Type} (P : State → β) (hP : ∀ s x0 x1 x2 x3 x4 x5 x6 x7, Memory.wf x6.hbm = Memory.wf s.mpu.hbm → P { s with power := x0, host := x1, rng := x2, rest := x3, fab := x4, path := x5, mpu := x6, out := x7 } = P s) (sp : Fin 28) (s : State) (tt : State) (e : execMaskStarvation sp s = .next tt) : P tt = P s := by
  unfold execMaskStarvation at e; replace e := Host.Outcome.next.inj e; subst e; (repeat' split) <;> simp only [fabCount_keep P (fun s x0 => hP s s.power s.host s.rng s.rest x0 s.path s.mpu s.out rfl), isolateSpindle_keep P hP, hP]

theorem execAvsEvaluation_keep {β : Type} (P : State → β) (hP : ∀ s x0 x1 x2 x3, P { s with power := x0, host := x1, fab := x2, out := x3 } = P s) (rings : List Nat) (s : State) (tt : State) (e : execAvsEvaluation rings s = .next tt) : P tt = P s := by
  unfold execAvsEvaluation at e; replace e := Host.Outcome.next.inj e; subst e; (repeat' split) <;> simp only [avsEvaluate_keep P hP, hP]

theorem execMarginEventClear_keep {β : Type} (P : State → β) (hP : ∀ s x0 x1, P { s with time := x0, fab := x1 } = P s) (s : State) (tt : State) (e : execMarginEventClear s = .next tt) : P tt = P s := by
  unfold execMarginEventClear at e; replace e := Host.Outcome.next.inj e; subst e; (repeat' split) <;> simp only [marginClear_keep P hP, hP]

theorem execAvsCommandAck_keep {β : Type} (P : State → β) (hP : ∀ s x0, P { s with fab := x0 } = P s) (read : Option (BitVec 12)) (s : State) (tt : State) (e : execAvsCommandAck read s = .next tt) : P tt = P s := by
  unfold execAvsCommandAck at e; replace e := Host.Outcome.next.inj e; subst e; (repeat' split) <;> simp only [fabStatus_keep P hP, hP]

theorem execAvsVoltageRead_keep {β : Type} (P : State → β) (hP : ∀ s x0, P { s with out := x0 } = P s) (s : State) (tt : State) (e : execAvsVoltageRead s = .next tt) : P tt = P s := by
  unfold execAvsVoltageRead at e; replace e := Host.Outcome.next.inj e; subst e; (repeat' split) <;> simp only [emit_keep P hP, hP]

theorem execAvsAckTimeout_keep {β : Type} (P : State → β) (hP : ∀ s x0 x1 x2 x3, P { s with host := x0, rest := x1, fab := x2, out := x3 } = P s) (s : State) (tt : State) (e : execAvsAckTimeout s = .next tt) : P tt = P s := by
  unfold execAvsAckTimeout at e; replace e := Host.Outcome.next.inj e; subst e; (repeat' split) <;> simp only [avsFreeze_keep P hP, hP]

theorem execAvsReadbackMismatch_keep {β : Type} (P : State → β) (hP : ∀ s x0 x1 x2 x3, P { s with host := x0, rest := x1, fab := x2, out := x3 } = P s) (s : State) (tt : State) (e : execAvsReadbackMismatch s = .next tt) : P tt = P s := by
  unfold execAvsReadbackMismatch at e; replace e := Host.Outcome.next.inj e; subst e; (repeat' split) <;> simp only [avsFreeze_keep P hP, hP]

theorem execAvsRetry_keep {β : Type} (P : State → β) (hP : ∀ s x0 x1, P { s with fab := x0, out := x1 } = P s) (s : State) (tt : State) (e : execAvsRetry s = .next tt) : P tt = P s := by
  unfold execAvsRetry at e; replace e := Host.Outcome.next.inj e; subst e; (repeat' split) <;> simp only [avsSend_keep P hP, hP]

theorem execLagEvaluation_keep {β : Type} (P : State → β) (hP : ∀ s x0 x1 x2 x3 x4 x5 x6 x7, Memory.wf x6.hbm = Memory.wf s.mpu.hbm → P { s with time := x0, power := x1, host := x2, rng := x3, rest := x4, fab := x5, mpu := x6, out := x7 } = P s) (elapsed : Nat) (s : State) (tt : State) (e : execLagEvaluation elapsed s = .next tt) : P tt = P s := by
  unfold execLagEvaluation at e; replace e := Host.Outcome.next.inj e; subst e; (repeat' split) <;> simp only [lagEvaluate_keep P (fun s x0 x1 x2 x3 x4 x5 x6 h => hP s s.time x0 x1 x2 x3 x4 x5 x6 h), lagInstant_keep P (fun s x0 => hP s x0 s.power s.host s.rng s.rest s.fab s.mpu s.out rfl), hP]

theorem execRotationStart_keep {β : Type} (P : State → β) (hP : ∀ s x0 x1 x2 x3 x4 x5 x6 x7, Memory.wf x6.hbm = Memory.wf s.mpu.hbm → P { s with time := x0, power := x1, host := x2, rng := x3, rest := x4, fab := x5, mpu := x6, out := x7 } = P s) (s : State) (tt : State) (e : execRotationStart s = .next tt) : P tt = P s := by
  unfold execRotationStart at e; replace e := Host.Outcome.next.inj e; subst e; (repeat' split) <;> simp only [rotate_keep P hP, hP]

theorem execSpindleKatComplete_keep {β : Type} (P : State → β) (hP : ∀ s x0 x1 x2 x3 x4 x5 x6 x7, Memory.wf x6.hbm = Memory.wf s.mpu.hbm → P { s with time := x0, power := x1, host := x2, rng := x3, rest := x4, fab := x5, mpu := x6, out := x7 } = P s) (sp : Fin 28) (kat : KatRun) (elapsed : Nat) (s : State) (tt : State) (e : execSpindleKatComplete sp kat elapsed s = .next tt) : P tt = P s := by
  unfold execSpindleKatComplete at e; replace e := Host.Outcome.next.inj e; subst e; (repeat' split) <;> simp only [katEnds_keep P hP, hP]

theorem execSpindleStartTimeout_keep {β : Type} (P : State → β) (hP : ∀ s x0 x1 x2 x3 x4 x5 x6 x7, Memory.wf x6.hbm = Memory.wf s.mpu.hbm → P { s with time := x0, power := x1, host := x2, rng := x3, rest := x4, fab := x5, mpu := x6, out := x7 } = P s) (sp : Fin 28) (s : State) (tt : State) (e : execSpindleStartTimeout sp s = .next tt) : P tt = P s := by
  unfold execSpindleStartTimeout at e; replace e := Host.Outcome.next.inj e; subst e; (repeat' split) <;> simp only [startLate_keep P hP, hP]

theorem execSpareSeedTimeout_keep {β : Type} (P : State → β) (hP : ∀ s x0 x1 x2 x3 x4 x5 x6 x7, Memory.wf x6.hbm = Memory.wf s.mpu.hbm → P { s with time := x0, power := x1, host := x2, rng := x3, rest := x4, fab := x5, mpu := x6, out := x7 } = P s) (sp : Fin 28) (s : State) (tt : State) (e : execSpareSeedTimeout sp s = .next tt) : P tt = P s := by
  unfold execSpareSeedTimeout at e; replace e := Host.Outcome.next.inj e; subst e; (repeat' split) <;> simp only [spareSeedLost_keep P hP, hP]

theorem execSpareStartRetry_keep {β : Type} (P : State → β) (hP : ∀ s x0 x1 x2 x3 x4 x5 x6 x7, Memory.wf x6.hbm = Memory.wf s.mpu.hbm → P { s with time := x0, power := x1, host := x2, rng := x3, rest := x4, fab := x5, mpu := x6, out := x7 } = P s) (sp : Fin 28) (s : State) (tt : State) (e : execSpareStartRetry sp s = .next tt) : P tt = P s := by
  unfold execSpareStartRetry at e; replace e := Host.Outcome.next.inj e; subst e; dsimp only; (repeat' split) <;> simp only [settleRoles_keep P (fun s x0 x1 x2 x3 x4 x5 x6 h => hP s s.time x0 x1 x2 x3 x4 x5 x6 h), spareCheck_keep P (fun s x0 x1 x2 => hP s s.time s.power x0 s.rng s.rest x1 s.mpu x2 rfl), startSpindle_keep P (fun s x0 x1 x2 x3 x4 x5 x6 h => hP s s.time x0 x1 x2 x3 x4 x5 x6 h), updSp_keep P (fun s x0 => hP s s.time s.power s.host s.rng s.rest x0 s.mpu s.out rfl), waitCycle_keep P (fun s x0 => hP s x0 s.power s.host s.rng s.rest s.fab s.mpu s.out rfl), hP]

theorem execSpindleDrainComplete_keep {β : Type} (P : State → β) (hP : ∀ s x0 x1 x2 x3 x4 x5 x6, Memory.wf x5.hbm = Memory.wf s.mpu.hbm → P { s with power := x0, host := x1, rng := x2, rest := x3, fab := x4, mpu := x5, out := x6 } = P s) (sp : Fin 28) (s : State) (tt : State) (e : execSpindleDrainComplete sp s = .next tt) : P tt = P s := by
  unfold execSpindleDrainComplete at e; replace e := Host.Outcome.next.inj e; subst e; (repeat' split) <;> simp only [fabCount_keep P (fun s x0 => hP s s.power s.host s.rng s.rest x0 s.mpu s.out rfl), rotationEnd_keep P (fun s x0 => hP s s.power s.host s.rng s.rest x0 s.mpu s.out rfl), setDomain_keep P (fun s x0 => hP s x0 s.host s.rng s.rest s.fab s.mpu s.out rfl), setRole_keep P (fun s x0 => hP s s.power s.host s.rng s.rest x0 s.mpu s.out rfl), settleRoles_keep P hP, toSpare_keep P (fun s x0 x1 x2 x3 x4 x5 h => hP s x0 x1 s.rng x2 x3 x4 x5 h), updSp_keep P (fun s x0 => hP s s.power s.host s.rng s.rest x0 s.mpu s.out rfl), hP]

theorem execIsolationTimerExpiry_keep {β : Type} (P : State → β) (hP : ∀ s x0 x1 x2 x3 x4 x5, P { s with time := x0, power := x1, host := x2, rest := x3, fab := x4, out := x5 } = P s) (sp : Fin 28) (s : State) (tt : State) (e : execIsolationTimerExpiry sp s = .next tt) : P tt = P s := by
  unfold execIsolationTimerExpiry at e; replace e := Host.Outcome.next.inj e; subst e; dsimp only; (repeat' split) <;> simp only [retireSpindle_keep P (fun s x0 x1 x2 x3 x4 => hP s s.time x0 x1 x2 x3 x4), setRole_keep P (fun s x0 => hP s s.time s.power s.host s.rest x0 s.out), spareCheck_keep P (fun s x0 x1 x2 => hP s s.time s.power x0 s.rest x1 x2), waitCycle_keep P (fun s x0 => hP s x0 s.power s.host s.rest s.fab s.out), hP]

theorem execSpindleDiagnosisComplete_keep {β : Type} (P : State → β) (hP : ∀ s x0 x1 x2 x3 x4 x5 x6 x7, Memory.wf x5.hbm = Memory.wf s.mpu.hbm → P { s with power := x0, host := x1, rng := x2, rest := x3, fab := x4, mpu := x5, out := x6, free := x7 } = P s) (sp : Fin 28) (run : DiagnosisRun) (s : State) (tt : State) (e : execSpindleDiagnosisComplete sp run s = .next tt) : P tt = P s := by
  unfold execSpindleDiagnosisComplete at e; replace e := Host.Outcome.next.inj e; subst e; (repeat' split) <;> simp only [fabCount_keep P (fun s x0 => hP s s.power s.host s.rng s.rest x0 s.mpu s.out s.free rfl), openValue_keep P (fun s x0 => hP s s.power s.host s.rng s.rest s.fab s.mpu s.out x0 rfl), retireSpindle_keep P (fun s x0 x1 x2 x3 x4 => hP s x0 x1 s.rng x2 x3 s.mpu x4 s.free rfl), settleRoles_keep P (fun s x0 x1 x2 x3 x4 x5 x6 h => hP s x0 x1 x2 x3 x4 x5 x6 s.free h), toSpare_keep P (fun s x0 x1 x2 x3 x4 x5 h => hP s x0 x1 s.rng x2 x3 x4 x5 s.free h), updSp_keep P (fun s x0 => hP s s.power s.host s.rng s.rest x0 s.mpu s.out s.free rfl), hP]

theorem execDiagnosisRetryTimer_keep {β : Type} (P : State → β) (hP : ∀ s x0 x1, P { s with time := x0, fab := x1 } = P s) (sp : Fin 28) (s : State) (tt : State) (e : execDiagnosisRetryTimer sp s = .next tt) : P tt = P s := by
  unfold execDiagnosisRetryTimer at e; replace e := Host.Outcome.next.inj e; subst e; (repeat' split) <;> simp only [updSp_keep P (fun s x0 => hP s s.time x0), waitCycle_keep P (fun s x0 => hP s x0 s.fab), hP]

theorem execLockstepMismatchRestart_keep {β : Type} (P : State → β) (hP : ∀ s x0 x1 x2, P { s with power := x0, fab := x1, path := x2 } = P s) (half : Half) (s : State) (tt : State) (e : execLockstepMismatchRestart half s = .next tt) : P tt = P s := by
  unfold execLockstepMismatchRestart at e; replace e := Host.Outcome.next.inj e; subst e; (repeat' split) <;> simp only [lockstepRestart_keep P hP, hP]

theorem execSpindlePark_keep {β : Type} (P : State → β) (hP : ∀ s x0 x1 x2, P { s with time := x0, power := x1, fab := x2 } = P s) (s : State) (tt : State) (e : execSpindlePark s = .next tt) : P tt = P s := by
  unfold execSpindlePark at e; replace e := Host.Outcome.next.inj e; subst e; (repeat' split) <;> simp only [park_keep P hP, hP]

theorem execEgressSelect_keep {β : Type} (P : State → β) (hP : ∀ s x0 x1 x2 x3 x4 x5, Memory.wf x4.hbm = Memory.wf s.mpu.hbm → P { s with time := x0, host := x1, rest := x2, path := x3, mpu := x4, out := x5 } = P s) (pd : PD) (s : State) (tt : State) (e : execEgressSelect pd s = .next tt) : P tt = P s := by
  unfold execEgressSelect at e; replace e := Host.Outcome.next.inj e; subst e; (repeat' split) <;> simp only [egressSelect_keep P hP, hP]

theorem execCalendarPostingDue_keep {β : Type} (P : State → β) (hP : ∀ s x0 x1, P { s with time := x0, path := x1 } = P s) (es : Fin 4) (dir : Dir) (queue : Fin 1024) (s : State) (tt : State) (e : execCalendarPostingDue es dir queue s = .next tt) : P tt = P s := by
  unfold execCalendarPostingDue at e; replace e := Host.Outcome.next.inj e; subst e; (repeat' split) <;> simp only [postingDue_keep P hP, hP]

theorem execTimedLaunch_keep {β : Type} (P : State → β) (hP : ∀ s x0 x1 x2 x3 x4 x5, Memory.wf x4.hbm = Memory.wf s.mpu.hbm → P { s with time := x0, host := x1, rest := x2, path := x3, mpu := x4, out := x5 } = P s) (pd : PD) (s : State) (tt : State) (e : execTimedLaunch pd s = .next tt) : P tt = P s := by
  unfold execTimedLaunch at e; replace e := Host.Outcome.next.inj e; subst e; (repeat' split) <;> simp only [timedLaunch_keep P hP, hP]

theorem execFrameTransmitted_keep {β : Type} (P : State → β) (hP : ∀ s x0 x1 x2 x3 x4, Memory.wf x3.hbm = Memory.wf s.mpu.hbm → P { s with time := x0, host := x1, path := x2, mpu := x3, out := x4 } = P s) (pd : PD) (s : State) (tt : State) (e : execFrameTransmitted pd s = .next tt) : P tt = P s := by
  unfold execFrameTransmitted at e; replace e := Host.Outcome.next.inj e; subst e; (repeat' split) <;> simp only [transmitted_keep P hP, hP]

theorem execPauseRefresh_keep {β : Type} (P : State → β) (hP : ∀ s x0 x1 x2, P { s with time := x0, path := x1, out := x2 } = P s) (port : Fin 32) (s : State) (tt : State) (e : execPauseRefresh port s = .next tt) : P tt = P s := by
  unfold execPauseRefresh at e; replace e := Host.Outcome.next.inj e; subst e; dsimp only; (repeat' split) <;> simp only [sendPause_keep P (fun s x0 x1 => hP s s.time x0 x1), updPd_keep P (fun s x0 => hP s s.time x0 s.out), waitCycle_keep P (fun s x0 => hP s x0 s.path s.out), hP]

theorem execLinkReceiveFault_keep {β : Type} (P : State → β) (hP : ∀ s x0 x1, P { s with path := x0, out := x1 } = P s) (port : Fin 32) (side : Side) (localFault : Bool) (s : State) (tt : State) (e : execLinkReceiveFault port side localFault s = .next tt) : P tt = P s := by
  unfold execLinkReceiveFault at e; replace e := Host.Outcome.next.inj e; subst e; (repeat' split) <;> simp only [receiveFault_keep P hP, hP]

theorem execLinkFaultCleared_keep {β : Type} (P : State → β) (hP : ∀ s x0 x1, P { s with path := x0, out := x1 } = P s) (port : Fin 32) (side : Side) (s : State) (tt : State) (e : execLinkFaultCleared port side s = .next tt) : P tt = P s := by
  unfold execLinkFaultCleared at e; replace e := Host.Outcome.next.inj e; subst e; (repeat' split) <;> simp only [receiveFault_keep P hP, hP]

theorem execRemoteFaultReceived_keep {β : Type} (P : State → β) (hP : ∀ s x0, P { s with path := x0 } = P s) (port : Fin 32) (side : Side) (present : Bool) (s : State) (tt : State) (e : execRemoteFaultReceived port side present s = .next tt) : P tt = P s := by
  unfold execRemoteFaultReceived at e; replace e := Host.Outcome.next.inj e; subst e; (repeat' split) <;> simp only [linkBit_keep P hP, reline_keep P hP, hP]

theorem execCommitEntry_keep {β : Type} (P : State → β) (hP : ∀ s x0 x1 x2 x3 x4 x5 x6 x7 x8 x9 x10, Memory.wf x8.hbm = Memory.wf s.mpu.hbm → P { s with time := x0, host := x1, urz := x2, rest := x3, keys := x4, cls := x5, path := x6, otn := x7, mpu := x8, out := x9, free := x10 } = P s) (pd : PD) (s : State) (tt : State) (e : execCommitEntry pd s = .next tt) : P tt = P s := by
  unfold execCommitEntry at e; replace e := Host.Outcome.next.inj e; subst e; (repeat' split) <;> simp only [commitEntry_keep P hP, hP]

theorem execSpillWriteStart_keep {β : Type} (P : State → β) (hP : ∀ s x0 x1 x2 x3 x4 x5 x6 x7 x8 x9 x10, Memory.wf x8.hbm = Memory.wf s.mpu.hbm → P { s with time := x0, host := x1, urz := x2, rest := x3, keys := x4, cls := x5, path := x6, otn := x7, mpu := x8, out := x9, free := x10 } = P s) (pd : PD) (queue : Fin 1024) (s : State) (tt : State) (e : execSpillWriteStart pd queue s = .next tt) : P tt = P s := by
  unfold execSpillWriteStart at e; replace e := Host.Outcome.next.inj e; subst e; repeat' (first | with_reducible rfl | split | simp only [commitEntry_keep P hP, spillStart_keep P (fun s x0 x1 x2 x3 x4 h => hP s s.time x0 s.urz x1 s.keys s.cls x2 s.otn x3 x4 s.free h), hP] | (with_reducible refine (keep (fun _ _ => by (repeat' (first | with_reducible rfl | split | simp only [commitEntry_keep P hP, spillStart_keep P (fun s x0 x1 x2 x3 x4 h => hP s s.time x0 s.urz x1 s.keys s.cls x2 s.otn x3 x4 s.free h), hP])))).trans ?_) | (with_reducible refine (keep2 (fun _ _ => by (repeat' (first | with_reducible rfl | split | simp only [commitEntry_keep P hP, spillStart_keep P (fun s x0 x1 x2 x3 x4 h => hP s s.time x0 s.urz x1 s.keys s.cls x2 s.otn x3 x4 s.free h), hP])))).trans ?_))

theorem execAlignerLock_keep {β : Type} (P : State → β) (hP : ∀ s x0 x1, P { s with otn := x0, out := x1 } = P s) (a : AlignerId) (view : LockView) (s : State) (tt : State) (e : execAlignerLock a view s = .next tt) : P tt = P s := by
  unfold execAlignerLock at e; replace e := Host.Outcome.next.inj e; subst e; (repeat' split) <;> simp only [alignerLock_keep P hP, hP]

theorem execAlignerOof_keep {β : Type} (P : State → β) (hP : ∀ s x0, P { s with otn := x0 } = P s) (a : AlignerId) (s : State) (tt : State) (e : execAlignerOof a s = .next tt) : P tt = P s := by
  unfold execAlignerOof at e; replace e := Host.Outcome.next.inj e; subst e; (repeat' split) <;> simp only [alignerHunt_keep P hP, updAligner_keep P hP, hP]

theorem execAlignmentTimerExpiry_keep {β : Type} (P : State → β) (hP : ∀ s x0 x1 x2, P { s with time := x0, otn := x1, out := x2 } = P s) (a : AlignerId) (s : State) (tt : State) (e : execAlignmentTimerExpiry a s = .next tt) : P tt = P s := by
  unfold execAlignmentTimerExpiry at e; replace e := Host.Outcome.next.inj e; subst e; (repeat' split) <;> simp only [alignerTimer_keep P hP, hP]

theorem execOutOfMultiframe_keep {β : Type} (P : State → β) (hP : ∀ s x0, P { s with otn := x0 } = P s) (a : AlignerId) (s : State) (tt : State) (e : execOutOfMultiframe a s = .next tt) : P tt = P s := by
  unfold execOutOfMultiframe at e; replace e := Host.Outcome.next.inj e; subst e; (repeat' split) <;> simp only [outOfMulti_keep P hP, hP]

theorem execDefectDeclared_keep {β : Type} (P : State → β) (hP : ∀ s x0 x1, P { s with otn := x0, out := x1 } = P s) (d : DefectId) (s : State) (tt : State) (e : execDefectDeclared d s = .next tt) : P tt = P s := by
  unfold execDefectDeclared at e; replace e := Host.Outcome.next.inj e; subst e; (repeat' split) <;> simp only [declare_keep P hP, hP]

theorem execDefectCleared_keep {β : Type} (P : State → β) (hP : ∀ s x0 x1, P { s with otn := x0, out := x1 } = P s) (d : DefectId) (s : State) (tt : State) (e : execDefectCleared d s = .next tt) : P tt = P s := by
  unfold execDefectCleared at e; replace e := Host.Outcome.next.inj e; subst e; (repeat' split) <;> simp only [undeclare_keep P hP, hP]

theorem execTributaryRemapDue_keep {β : Type} (P : State → β) (hP : ∀ s x0 x1 x2 x3 x4 x5 x6 x7, Memory.wf x6.hbm = Memory.wf s.mpu.hbm → P { s with time := x0, host := x1, urz := x2, rest := x3, path := x4, otn := x5, mpu := x6, out := x7 } = P s) (t : Fin 256) (dir : Dir) (elapsed : Nat) (s : State) (tt : State) (e : execTributaryRemapDue t dir elapsed s = .next tt) : P tt = P s := by
  unfold execTributaryRemapDue at e; replace e := Host.Outcome.next.inj e; subst e; (repeat' split) <;> simp only [remap_keep P hP, waitCycle_keep P (fun s x0 => hP s x0 s.host s.urz s.rest s.path s.otn s.mpu s.out rfl), hP]

theorem execPmSecondTick_keep {β : Type} (P : State → β) (hP : ∀ s x0 x1, P { s with path := x0, otn := x1 } = P s) (obs : SecondObs) (s : State) (tt : State) (e : execPmSecondTick obs s = .next tt) : P tt = P s := by
  unfold execPmSecondTick at e; replace e := Host.Outcome.next.inj e; subst e; (repeat' split) <;> simp only [pmTick_keep P hP, hP]

theorem execPmBinEnd_keep {β : Type} (P : State → β) (hP : ∀ s x0 x1 x2 x3, P { s with time := x0, host := x1, otn := x2, out := x3 } = P s) (day : Bool) (s : State) (tt : State) (e : execPmBinEnd day s = .next tt) : P tt = P s := by
  unfold execPmBinEnd at e; replace e := Host.Outcome.next.inj e; subst e; (repeat' split) <;> simp only [pmBinEnd_keep P hP, hP]

theorem execPmBinComplete_keep {β : Type} (P : State → β) (hP : ∀ s x0 x1, P { s with time := x0, otn := x1 } = P s) (day : Bool) (s : State) (tt : State) (e : execPmBinComplete day s = .next tt) : P tt = P s := by
  unfold execPmBinComplete at e; replace e := Host.Outcome.next.inj e; subst e; (repeat' split) <;> simp only [pmBinComplete_keep P hP, hP]

theorem execPtpOwnClockFrame_keep {β : Type} (P : State → β) (hP : ∀ s x0 x1 x2 x3 x4 x5 x6 x7, P { s with time := x0, host := x1, rest := x2, keys := x3, cls := x4, path := x5, otn := x6, out := x7 } = P s) (s : State) (tt : State) (e : execPtpOwnClockFrame s = .next tt) : P tt = P s := by
  unfold execPtpOwnClockFrame at e; replace e := Host.Outcome.next.inj e; subst e; (repeat' split) <;> simp only [ownClockFrame_keep P hP, hP]

theorem execDelayReqSend_keep {β : Type} (P : State → β) (hP : ∀ s x0 x1, P { s with time := x0, path := x1 } = P s) (s : State) (tt : State) (e : execDelayReqSend s = .next tt) : P tt = P s := by
  unfold execDelayReqSend at e; replace e := Host.Outcome.next.inj e; subst e; (repeat' split) <;> simp only [sendDreq_keep P hP, hP]

theorem execFollowUpTimeout_keep {β : Type} (P : State → β) (hP : ∀ s x0, P { s with time := x0 } = P s) (s : State) (tt : State) (e : execFollowUpTimeout s = .next tt) : P tt = P s := by
  unfold execFollowUpTimeout at e; replace e := Host.Outcome.next.inj e; subst e; (repeat' split) <;> simp only [lostCount_keep P hP, waitCycle_keep P hP, hP]

theorem execDelayRespTimeout_keep {β : Type} (P : State → β) (hP : ∀ s x0, P { s with time := x0 } = P s) (s : State) (tt : State) (e : execDelayRespTimeout s = .next tt) : P tt = P s := by
  unfold execDelayRespTimeout at e; replace e := Host.Outcome.next.inj e; subst e; (repeat' split) <;> simp only [lostCount_keep P hP, waitCycle_keep P hP, hP]

theorem execSyncTimeout_keep {β : Type} (P : State → β) (hP : ∀ s x0 x1, P { s with time := x0, out := x1 } = P s) (s : State) (tt : State) (e : execSyncTimeout s = .next tt) : P tt = P s := by
  unfold execSyncTimeout at e; replace e := Host.Outcome.next.inj e; subst e; (repeat' split) <;> simp only [syncLost_keep P hP, hP]

theorem execToolRestSecondsWrite_keep {β : Type} (P : State → β) (hP : ∀ s x0 x1, P { s with time := x0, rest := x1 } = P s) (s : State) (tt : State) (e : execToolRestSecondsWrite s = .next tt) : P tt = P s := by
  unfold execToolRestSecondsWrite at e; replace e := Host.Outcome.next.inj e; subst e; (repeat' split) <;> simp only [restSeconds_keep P hP, hP]

theorem execSlotPulseEnd_keep {β : Type} (P : State → β) (hP : ∀ s x0 x1, P { s with time := x0, out := x1 } = P s) (pin : Fin 4) (s : State) (tt : State) (e : execSlotPulseEnd pin s = .next tt) : P tt = P s := by
  unfold execSlotPulseEnd at e; replace e := Host.Outcome.next.inj e; subst e; (repeat' split) <;> simp only [pulseEnd_keep P hP, hP]

theorem execPinCaptureEdge_keep {β : Type} (P : State → β) (hP : ∀ s x0 x1 x2 x3 x4 x5 x6 x7, P { s with time := x0, host := x1, rest := x2, keys := x3, cls := x4, path := x5, otn := x6, out := x7 } = P s) (pin : Fin 4) (rising : Bool) (s : State) (tt : State) (e : execPinCaptureEdge pin rising s = .next tt) : P tt = P s := by
  unfold execPinCaptureEdge at e; replace e := Host.Outcome.next.inj e; subst e; (repeat' split) <;> simp only [captureEdge_keep P hP, hP]

theorem execKeyExpiryCheck_keep {β : Type} (P : State → β) (hP : ∀ s x0 x1 x2 x3, P { s with host := x0, keys := x1, otn := x2, out := x3 } = P s) (s : State) (tt : State) (e : execKeyExpiryCheck s = .next tt) : P tt = P s := by
  unfold execKeyExpiryCheck at e; replace e := Host.Outcome.next.inj e; subst e; (repeat' split) <;> simp only [keyExpire_keep P hP, hP]

theorem execRolloverDue_keep {β : Type} (P : State → β) (hP : ∀ s x0 x1 x2 x3 x4, P { s with time := x0, host := x1, keys := x2, otn := x3, out := x4 } = P s) (user : RollUser) (s : State) (tt : State) (e : execRolloverDue user s = .next tt) : P tt = P s := by
  unfold execRolloverDue at e; replace e := Host.Outcome.next.inj e; subst e; (repeat' split) <;> simp only [rollDue_keep P (fun s x0 x1 x2 x3 => hP s s.time x0 x1 x2 x3), waitTime_keep P (fun s x0 => hP s x0 s.host s.keys s.otn s.out), hP]

theorem execChuckMirrorRebuildComplete_keep {β : Type} (P : State → β) (hP : ∀ s x0 x1 x2 x3 x4 x5, P { s with power := x0, ctl := x1, host := x2, keys := x3, otn := x4, out := x5 } = P s) (chuckB : Bool) (s : State) (tt : State) (e : execChuckMirrorRebuildComplete chuckB s = .next tt) : P tt = P s := by
  unfold execChuckMirrorRebuildComplete at e; replace e := Host.Outcome.next.inj e; subst e; (repeat' split) <;> simp only [chuckRebuilt_keep P (fun s x0 => hP s s.power s.ctl s.host x0 s.otn s.out), serviceGoes_keep P hP, hP]

theorem execRetentionRebuildComplete_keep {β : Type} (P : State → β) (hP : ∀ s x0 x1 x2 x3 x4 x5 x6 x7, P { s with power := x0, ctl := x1, host := x2, keys := x3, fab := x4, path := x5, otn := x6, out := x7 } = P s) (bank : Fin 4) (s : State) (tt : State) (e : execRetentionRebuildComplete bank s = .next tt) : P tt = P s := by
  unfold execRetentionRebuildComplete at e; replace e := Host.Outcome.next.inj e; subst e; (repeat' split) <;> simp only [rebuildDone_keep P (fun s x0 x1 x2 x3 x4 => hP s x0 s.ctl x1 s.keys x2 x3 s.otn x4), serviceGoes_keep P (fun s x0 x1 x2 x3 x4 x5 => hP s x0 x1 x2 x3 s.fab s.path x4 x5), hP]

theorem execRngHalfRestartComplete_keep {β : Type} (P : State → β) (hP : ∀ s x0 x1 x2 x3 x4 x5 x6, P { s with power := x0, ctl := x1, host := x2, rng := x3, keys := x4, otn := x5, out := x6 } = P s) (half : Fin 2) (s : State) (tt : State) (e : execRngHalfRestartComplete half s = .next tt) : P tt = P s := by
  unfold execRngHalfRestartComplete at e; replace e := Host.Outcome.next.inj e; subst e; dsimp only; (repeat' split) <;> simp only [halfReset_keep P (fun s x0 x1 => hP s x0 s.ctl s.host x1 s.keys s.otn s.out), serviceGoes_keep P (fun s x0 x1 x2 x3 x4 x5 => hP s x0 x1 x2 s.rng x3 x4 x5), setDomain_keep P (fun s x0 => hP s x0 s.ctl s.host s.rng s.keys s.otn s.out), sourcesStart_keep P (fun s x0 => hP s s.power s.ctl s.host x0 s.keys s.otn s.out), hP]

theorem execDrainComplete_keep {β : Type} (P : State → β) (hP : ∀ s x0 x1 x2 x3 x4 x5 x6 x7 x8 x9 x10 x11 x12, Memory.wf x11.hbm = Memory.wf s.mpu.hbm → P { s with time := x0, power := x1, ctl := x2, host := x3, rng := x4, rest := x5, keys := x6, cls := x7, fab := x8, path := x9, otn := x10, mpu := x11, out := x12 } = P s) (s : State) (tt : State) (e : execDrainComplete s = .next tt) : P tt = P s := by
  unfold execDrainComplete at e; replace e := Host.Outcome.next.inj e; subst e; (repeat' split) <;> simp only [drainComplete_keep P hP, hP]

theorem execDrainTimeout_keep {β : Type} (P : State → β) (hP : ∀ s x0 x1 x2 x3 x4 x5 x6 x7 x8 x9 x10 x11 x12, Memory.wf x11.hbm = Memory.wf s.mpu.hbm → P { s with time := x0, power := x1, ctl := x2, host := x3, rng := x4, rest := x5, keys := x6, cls := x7, fab := x8, path := x9, otn := x10, mpu := x11, out := x12 } = P s) (s : State) (tt : State) (e : execDrainTimeout s = .next tt) : P tt = P s := by
  unfold execDrainTimeout at e; replace e := Host.Outcome.next.inj e; subst e; (repeat' split) <;> simp only [drainTimeout_keep P hP, hP]

theorem execDomainRestartComplete_keep {β : Type} (P : State → β) (hP : ∀ s x0 x1 x2 x3, P { s with power := x0, keys := x1, cls := x2, path := x3 } = P s) (domain : Fin 80) (s : State) (tt : State) (e : execDomainRestartComplete domain s = .next tt) : P tt = P s := by
  unfold execDomainRestartComplete at e; replace e := Host.Outcome.next.inj e; subst e; (repeat' split) <;> simp only [domainRestarted_keep P (fun s x0 x1 x2 => hP s x0 x1 x2 s.path), portsOpen_keep P (fun s x0 => hP s s.power s.keys s.cls x0), hP]

theorem execZeroizePinDeasserted_keep {β : Type} (P : State → β) (hP : ∀ s x0 x1, P { s with power := x0, rest := x1 } = P s) (s : State) (tt : State) (e : execZeroizePinDeasserted s = .next tt) : P tt = P s := by
  unfold execZeroizePinDeasserted at e; replace e := Host.Outcome.next.inj e; subst e; (repeat' split) <;> simp only [hP]

theorem execZeroizationComplete_keep {β : Type} (P : State → β) (hP : ∀ s x0 x1, P { s with rest := x0, fab := x1 } = P s) (s : State) (tt : State) (e : execZeroizationComplete s = .next tt) : P tt = P s := by
  unfold execZeroizationComplete at e; replace e := Host.Outcome.next.inj e; subst e; (repeat' split) <;> simp only [zeroizeDone_keep P hP, hP]

theorem execToolRestSample_keep {β : Type} (P : State → β) (hP : ∀ s x0 x1 x2 x3 x4 x5 x6 x7 x8 x9 x10 x11 x12 x13, Memory.wf x12.hbm = Memory.wf s.mpu.hbm → P { s with time := x0, power := x1, ctl := x2, host := x3, urz := x4, rng := x5, rest := x6, keys := x7, cls := x8, fab := x9, path := x10, otn := x11, mpu := x12, out := x13 } = P s) (obs : List SensorObs) (temps : List Int) (supplies : List Nat) (s : State) (tt : State) (e : execToolRestSample obs temps supplies s = .next tt) : P tt = P s := by
  unfold execToolRestSample at e; replace e := Host.Outcome.next.inj e; subst e; (repeat' split) <;> simp only [toolRestSample_keep P hP, hP]

theorem execSensorAlarmImmediate_keep {β : Type} (P : State → β) (hP : ∀ s x0, P { s with rest := x0 } = P s) (obs : SensorObs) (s : State) (tt : State) (e : execSensorAlarmImmediate obs s = .next tt) : P tt = P s := by
  unfold execSensorAlarmImmediate at e; replace e := Host.Outcome.next.inj e; subst e; (repeat' split) <;> simp only [alarmImmediate_keep P hP, hP]

theorem execShadowScan_keep {β : Type} (P : State → β) (hP : ∀ s x0 x1 x2 x3, P { s with power := x0, host := x1, rest := x2, out := x3 } = P s) (bad : List (Fin 8 × BitVec 32)) (s : State) (tt : State) (e : execShadowScan bad s = .next tt) : P tt = P s := by
  unfold execShadowScan at e; replace e := Host.Outcome.next.inj e; subst e; (repeat' split) <;> simp only [shadowScan_keep P hP, hP]

theorem execToolRestRestart_keep {β : Type} (P : State → β) (hP : ∀ s x0 x1, P { s with power := x0, rest := x1 } = P s) (s : State) (tt : State) (e : execToolRestRestart s = .next tt) : P tt = P s := by
  unfold execToolRestRestart at e; replace e := Host.Outcome.next.inj e; subst e; (repeat' split) <;> simp only [countDomainReset_keep P (fun s x0 => hP s x0 s.rest), hP]

theorem execTokenHoldoffEnd_keep {β : Type} (P : State → β) (hP : ∀ s x0 x1, P { s with time := x0, rest := x1 } = P s) (s : State) (tt : State) (e : execTokenHoldoffEnd s = .next tt) : P tt = P s := by
  unfold execTokenHoldoffEnd at e; replace e := Host.Outcome.next.inj e; subst e; (repeat' split) <;> simp only [holdOffEnd_keep P hP, hP]

theorem execCoalesceSecondEnd_keep {β : Type} (P : State → β) (hP : ∀ s x0 x1 x2, P { s with host := x0, rest := x1, out := x2 } = P s) (s : State) (tt : State) (e : execCoalesceSecondEnd s = .next tt) : P tt = P s := by
  unfold execCoalesceSecondEnd at e; replace e := Host.Outcome.next.inj e; subst e; (repeat' split) <;> simp only [coalesce_keep P hP, hP]

theorem execLogExportReminder_keep {β : Type} (P : State → β) (hP : ∀ s x0 x1 x2 x3, P { s with time := x0, host := x1, rest := x2, out := x3 } = P s) (s : State) (tt : State) (e : execLogExportReminder s = .next tt) : P tt = P s := by
  unfold execLogExportReminder at e; replace e := Host.Outcome.next.inj e; subst e; (repeat' split) <;> simp only [exportReminder_keep P hP, hP]

theorem execExportSegmentFormed_keep {β : Type} (P : State → β) (hP : ∀ s x0 x1, P { s with rest := x0, free := x1 } = P s) (s : State) (tt : State) (e : execExportSegmentFormed s = .next tt) : P tt = P s := by
  unfold execExportSegmentFormed at e; replace e := Host.Outcome.next.inj e; subst e; (repeat' split) <;> simp only [segmentForm_keep P hP, hP]

theorem execEnrollmentSessionTimeout_keep {β : Type} (P : State → β) (hP : ∀ s x0 x1, P { s with time := x0, keys := x1 } = P s) (s : State) (tt : State) (e : execEnrollmentSessionTimeout s = .next tt) : P tt = P s := by
  unfold execEnrollmentSessionTimeout at e; replace e := Host.Outcome.next.inj e; subst e; (repeat' split) <;> simp only [enrollClose_keep P (fun s x0 => hP s s.time x0), waitCycle_keep P (fun s x0 => hP s x0 s.keys), hP]

theorem execSlotScrub_keep {β : Type} (P : State → β) (hP : ∀ s x0 x1 x2 x3, P { s with host := x0, keys := x1, otn := x2, out := x3 } = P s) (bad : List (BitVec 16 × Bool)) (s : State) (tt : State) (e : execSlotScrub bad s = .next tt) : P tt = P s := by
  unfold execSlotScrub at e; replace e := Host.Outcome.next.inj e; subst e; repeat' (first | with_reducible rfl | split | simp only [copyFails_keep P hP, hP] | (with_reducible refine (keep (fun _ _ => by (repeat' (first | with_reducible rfl | split | simp only [copyFails_keep P hP, hP])))).trans ?_) | (with_reducible refine (keep2 (fun _ _ => by (repeat' (first | with_reducible rfl | split | simp only [copyFails_keep P hP, hP])))).trans ?_))

theorem execSlotReferenceReleased_keep {β : Type} (P : State → β) (hP : ∀ s x0, P { s with keys := x0 } = P s) (target : BitVec 16) (s : State) (tt : State) (e : execSlotReferenceReleased target s = .next tt) : P tt = P s := by
  unfold execSlotReferenceReleased at e; replace e := Host.Outcome.next.inj e; subst e; (repeat' split) <;> simp only [slotFree_keep P hP, hP]

theorem execSaRetireComplete_keep {β : Type} (P : State → β) (hP : ∀ s x0, P { s with keys := x0 } = P s) (sa : Fin 32768) (s : State) (tt : State) (e : execSaRetireComplete sa s = .next tt) : P tt = P s := by
  unfold execSaRetireComplete at e; replace e := Host.Outcome.next.inj e; subst e; (repeat' split) <;> simp only [saInvalid_keep P hP, hP]

theorem execGuardWindowEnd_keep {β : Type} (P : State → β) (hP : ∀ s x0 x1 x2, P { s with time := x0, keys := x1, otn := x2 } = P s) (user : RollUser) (s : State) (tt : State) (e : execGuardWindowEnd user s = .next tt) : P tt = P s := by
  unfold execGuardWindowEnd at e; replace e := Host.Outcome.next.inj e; subst e; (repeat' split) <;> simp only [guardEnds_keep P hP, hP]

theorem execChainLoad_keep {β : Type} (P : State → β) (hP : ∀ s x0 x1 x2 x3 x4 x5 x6 x7 x8, Memory.wf x7.hbm = Memory.wf s.mpu.hbm → P { s with power := x0, host := x1, rng := x2, rest := x3, keys := x4, path := x5, otn := x6, mpu := x7, out := x8 } = P s) (user : RollUser) (chucks : ChuckRun) (s : State) (tt : State) (e : execChainLoad user chucks s = .next tt) : P tt = P s := by
  unfold execChainLoad at e; replace e := Host.Outcome.next.inj e; subst e; (repeat' split) <;> simp only [chainLoad_keep P hP, hP]

theorem execCutCompileComplete_keep {β : Type} (P : State → β) (hP : ∀ s x0 x1 x2 x3 x4 x5 x6 x7 x8 x9 x10 x11 x12 x13 x14, Memory.wf x12.hbm = Memory.wf s.mpu.hbm → P { s with time := x0, power := x1, ctl := x2, host := x3, urz := x4, rng := x5, rest := x6, keys := x7, cls := x8, fab := x9, path := x10, otn := x11, mpu := x12, out := x13, free := x14 } = P s) (tree : Compiled) (s : State) (tt : State) (e : execCutCompileComplete tree s = .next tt) : P tt = P s := by
  unfold execCutCompileComplete at e; replace e := Host.Outcome.next.inj e; subst e; (repeat' split) <;> simp only [compileEnd_keep P hP, dictSettle_keep P hP, hP]

theorem execCutLimitWaitExpiry_keep {β : Type} (P : State → β) (hP : ∀ s x0 x1 x2 x3 x4 x5 x6 x7 x8 x9 x10 x11 x12 x13 x14, Memory.wf x12.hbm = Memory.wf s.mpu.hbm → P { s with time := x0, power := x1, ctl := x2, host := x3, urz := x4, rng := x5, rest := x6, keys := x7, cls := x8, fab := x9, path := x10, otn := x11, mpu := x12, out := x13, free := x14 } = P s) (s : State) (tt : State) (e : execCutLimitWaitExpiry s = .next tt) : P tt = P s := by
  unfold execCutLimitWaitExpiry at e; replace e := Host.Outcome.next.inj e; subst e; (repeat' split) <;> simp only [cutWaitEnd_keep P hP, dictSettle_keep P hP, hP]

theorem execSlotOccurrence_keep {β : Type} (P : State → β) (hP : ∀ s x0 x1 x2 x3 x4 x5 x6 x7 x8 x9 x10 x11 x12 x13 x14, Memory.wf x12.hbm = Memory.wf s.mpu.hbm → P { s with time := x0, power := x1, ctl := x2, host := x3, urz := x4, rng := x5, rest := x6, keys := x7, cls := x8, fab := x9, path := x10, otn := x11, mpu := x12, out := x13, free := x14 } = P s) (slot : Fin 16) (s : State) (tt : State) (e : execSlotOccurrence slot s = .next tt) : P tt = P s := by
  unfold execSlotOccurrence at e; replace e := Host.Outcome.next.inj e; subst e; (repeat' split) <;> simp only [dictSettle_keep P hP, slotDue_keep P hP, hP]

theorem execDictionaryWrite_keep {β : Type} (P : State → β) (hP : ∀ s x0 x1 x2 x3 x4 x5 x6 x7 x8 x9 x10 x11 x12 x13 x14, Memory.wf x12.hbm = Memory.wf s.mpu.hbm → P { s with time := x0, power := x1, ctl := x2, host := x3, urz := x4, rng := x5, rest := x6, keys := x7, cls := x8, fab := x9, path := x10, otn := x11, mpu := x12, out := x13, free := x14 } = P s) (ses : Fin 128) (flags : BitVec 8) (index : BitVec 16) (sub : BitVec 8) (offset : BitVec 32) (data : Octets) (s : State) (tt : State) (e : execDictionaryWrite ses flags index sub offset data s = .next tt) : P tt = P s := by
  unfold execDictionaryWrite at e; replace e := Host.Outcome.next.inj e; subst e; (repeat' split) <;> simp only [dictSettle_keep P hP, transact_keep P hP, hP]

theorem execSnapshotRead_keep {β : Type} (P : State → β) (hP : ∀ s x0 x1 x2 x3 x4 x5 x6 x7 x8 x9 x10 x11 x12 x13 x14, Memory.wf x12.hbm = Memory.wf s.mpu.hbm → P { s with time := x0, power := x1, ctl := x2, host := x3, urz := x4, rng := x5, rest := x6, keys := x7, cls := x8, fab := x9, path := x10, otn := x11, mpu := x12, out := x13, free := x14 } = P s) (ses : Fin 128) (index : BitVec 16) (sub : BitVec 8) (len : BitVec 16) (s : State) (tt : State) (e : execSnapshotRead ses index sub len s = .next tt) : P tt = P s := by
  unfold execSnapshotRead at e; replace e := Host.Outcome.next.inj e; subst e; (repeat' split) <;> simp only [dictSettle_keep P hP, transact_keep P hP, hP]

theorem execCommit_keep {β : Type} (P : State → β) (hP : ∀ s x0 x1 x2 x3 x4 x5 x6 x7 x8 x9 x10 x11 x12 x13 x14, Memory.wf x12.hbm = Memory.wf s.mpu.hbm → P { s with time := x0, power := x1, ctl := x2, host := x3, urz := x4, rng := x5, rest := x6, keys := x7, cls := x8, fab := x9, path := x10, otn := x11, mpu := x12, out := x13, free := x14 } = P s) (ses : Fin 128) (generation : BitVec 64) (chucks : ChuckRun) (s : State) (tt : State) (e : execCommit ses generation chucks s = .next tt) : P tt = P s := by
  unfold execCommit at e; replace e := Host.Outcome.next.inj e; subst e; (repeat' split) <;> simp only [dictSettle_keep P hP, transact_keep P hP, hP]

theorem execDiscardStaging_keep {β : Type} (P : State → β) (hP : ∀ s x0 x1 x2 x3 x4 x5 x6 x7 x8 x9 x10 x11 x12 x13 x14, Memory.wf x12.hbm = Memory.wf s.mpu.hbm → P { s with time := x0, power := x1, ctl := x2, host := x3, urz := x4, rng := x5, rest := x6, keys := x7, cls := x8, fab := x9, path := x10, otn := x11, mpu := x12, out := x13, free := x14 } = P s) (ses : Fin 128) (s : State) (tt : State) (e : execDiscardStaging ses s = .next tt) : P tt = P s := by
  unfold execDiscardStaging at e; replace e := Host.Outcome.next.inj e; subst e; (repeat' split) <;> simp only [dictSettle_keep P hP, transact_keep P hP, hP]

theorem execRwcBitClearWrite_keep {β : Type} (P : State → β) (hP : ∀ s x0 x1 x2 x3 x4 x5 x6 x7 x8 x9 x10 x11 x12 x13 x14, Memory.wf x12.hbm = Memory.wf s.mpu.hbm → P { s with time := x0, power := x1, ctl := x2, host := x3, urz := x4, rng := x5, rest := x6, keys := x7, cls := x8, fab := x9, path := x10, otn := x11, mpu := x12, out := x13, free := x14 } = P s) (ses : Fin 128) (index : BitVec 16) (sub : BitVec 8) (data : Octets) (s : State) (tt : State) (e : execRwcBitClearWrite ses index sub data s = .next tt) : P tt = P s := by
  unfold execRwcBitClearWrite at e; replace e := Host.Outcome.next.inj e; subst e; (repeat' split) <;> simp only [dictSettle_keep P hP, transact_keep P hP, hP]

theorem execSinceLastReadStatusRead_keep {β : Type} (P : State → β) (hP : ∀ s x0 x1 x2 x3 x4 x5 x6 x7 x8 x9 x10 x11 x12 x13 x14, Memory.wf x12.hbm = Memory.wf s.mpu.hbm → P { s with time := x0, power := x1, ctl := x2, host := x3, urz := x4, rng := x5, rest := x6, keys := x7, cls := x8, fab := x9, path := x10, otn := x11, mpu := x12, out := x13, free := x14 } = P s) (ses : Fin 128) (index : BitVec 16) (sub : BitVec 8) (s : State) (tt : State) (e : execSinceLastReadStatusRead ses index sub s = .next tt) : P tt = P s := by
  unfold execSinceLastReadStatusRead at e; replace e := Host.Outcome.next.inj e; subst e; (repeat' split) <;> simp only [dictSettle_keep P hP, transact_keep P hP, hP]

theorem execCaptureFifoRead_keep {β : Type} (P : State → β) (hP : ∀ s x0 x1 x2 x3 x4 x5 x6 x7 x8 x9 x10 x11 x12 x13 x14, Memory.wf x12.hbm = Memory.wf s.mpu.hbm → P { s with time := x0, power := x1, ctl := x2, host := x3, urz := x4, rng := x5, rest := x6, keys := x7, cls := x8, fab := x9, path := x10, otn := x11, mpu := x12, out := x13, free := x14 } = P s) (ses : Fin 128) (pin : Fin 4) (s : State) (tt : State) (e : execCaptureFifoRead ses pin s = .next tt) : P tt = P s := by
  unfold execCaptureFifoRead at e; replace e := Host.Outcome.next.inj e; subst e; (repeat' split) <;> simp only [dictSettle_keep P hP, transact_keep P hP, hP]

theorem execSnapshotExpiry_keep {β : Type} (P : State → β) (hP : ∀ s x0 x1, P { s with time := x0, ctl := x1 } = P s) (ses : Fin 128) (index : BitVec 16) (sub : BitVec 8) (s : State) (tt : State) (e : execSnapshotExpiry ses index sub s = .next tt) : P tt = P s := by
  unfold execSnapshotExpiry at e; replace e := Host.Outcome.next.inj e; subst e; (repeat' split) <;> simp only [updSession_keep P (fun s x0 => hP s s.time x0), waitCycle_keep P (fun s x0 => hP s x0 s.ctl), hP]

theorem execDoorbellWrite_keep {β : Type} (P : State → β) (hP : ∀ s x0 x1 x2 x3 x4 x5 x6 x7 x8 x9 x10 x11 x12 x13 x14, Memory.wf x12.hbm = Memory.wf s.mpu.hbm → P { s with time := x0, power := x1, ctl := x2, host := x3, urz := x4, rng := x5, rest := x6, keys := x7, cls := x8, fab := x9, path := x10, otn := x11, mpu := x12, out := x13, free := x14 } = P s) (ring : Fin 1120) (index : BitVec 32) (dma : List (Octets × Octets)) (s : State) (tt : State) (e : execDoorbellWrite ring index dma s = .next tt) : P tt = P s := by
  unfold execDoorbellWrite at e; replace e := Host.Outcome.next.inj e; subst e; (repeat' split) <;> simp only [dictSettle_keep P hP, doorbell_keep P (fun s x0 x1 => hP s s.time s.power s.ctl x0 s.urz s.rng s.rest s.keys s.cls s.fab s.path s.otn s.mpu x1 s.free rfl), hP]

theorem execModerationTimerExpiry_keep {β : Type} (P : State → β) (hP : ∀ s x0 x1 x2, P { s with time := x0, host := x1, out := x2 } = P s) (ring : Fin 1120) (s : State) (tt : State) (e : execModerationTimerExpiry ring s = .next tt) : P tt = P s := by
  unfold execModerationTimerExpiry at e; replace e := Host.Outcome.next.inj e; subst e; (repeat' split) <;> simp only [moderationEnd_keep P hP, hP]

theorem execFunctionLevelReset_keep {β : Type} (P : State → β) (hP : ∀ s x0 x1 x2 x3 x4 x5 x6 x7 x8 x9 x10 x11 x12 x13 x14, Memory.wf x12.hbm = Memory.wf s.mpu.hbm → P { s with time := x0, power := x1, ctl := x2, host := x3, urz := x4, rng := x5, rest := x6, keys := x7, cls := x8, fab := x9, path := x10, otn := x11, mpu := x12, out := x13, free := x14 } = P s) (s : State) (tt : State) (e : execFunctionLevelReset s = .next tt) : P tt = P s := by
  unfold execFunctionLevelReset at e; replace e := Host.Outcome.next.inj e; subst e; (repeat' split) <;> simp only [dictSettle_keep P hP, flr_keep P (fun s x0 x1 x2 x3 => hP s x0 s.power x1 x2 s.urz s.rng s.rest s.keys s.cls s.fab x3 s.otn s.mpu s.out s.free rfl), ringZero_keep P (fun s x0 => hP s s.time s.power s.ctl x0 s.urz s.rng s.rest s.keys s.cls s.fab s.path s.otn s.mpu s.out s.free rfl), hP]

theorem execRngRequestTimeout_keep {β : Type} (P : State → β) (hP : ∀ s x0 x1 x2 x3 x4 x5 x6 x7, Memory.wf x6.hbm = Memory.wf s.mpu.hbm → P { s with time := x0, power := x1, host := x2, rng := x3, rest := x4, fab := x5, mpu := x6, out := x7 } = P s) (s : State) (tt : State) (e : execRngRequestTimeout s = .next tt) : P tt = P s := by
  unfold execRngRequestTimeout at e; replace e := Host.Outcome.next.inj e; subst e; (repeat' split) <;> simp only [requestEnd_keep P hP, hP]

theorem execUrzidunFrameReceived_keep {β : Type} (P : State → β) (hP : ∀ s x0 x1 x2 x3 x4 x5, P { s with host := x0, urz := x1, keys := x2, path := x3, otn := x4, out := x5 } = P s) (s : State) (tt : State) (e : execUrzidunFrameReceived s = .next tt) : P tt = P s := by
  unfold execUrzidunFrameReceived at e; replace e := Host.Outcome.next.inj e; subst e; (repeat' split) <;> simp only [urzTake_keep P hP, hP]

theorem execUrzidunOpen_keep {β : Type} (P : State → β) (hP : ∀ s x0 x1 x2 x3 x4 x5 x6 x7 x8 x9 x10 x11 x12 x13 x14, Memory.wf x12.hbm = Memory.wf s.mpu.hbm → P { s with time := x0, power := x1, ctl := x2, host := x3, urz := x4, rng := x5, rest := x6, keys := x7, cls := x8, fab := x9, path := x10, otn := x11, mpu := x12, out := x13, free := x14 } = P s) (s : State) (tt : State) (e : execUrzidunOpen s = .next tt) : P tt = P s := by
  unfold execUrzidunOpen at e; replace e := Host.Outcome.next.inj e; subst e; (repeat' split) <;> simp only [dictSettle_keep P hP, urzOpened_keep P (fun s x0 x1 x2 x3 x4 x5 x6 x7 x8 => hP s x0 s.power x1 x2 x3 x4 s.rest x5 s.cls s.fab x6 x7 s.mpu x8 s.free rfl), hP]

theorem execUrzidunRequest_keep {β : Type} (P : State → β) (hP : ∀ s x0 x1 x2 x3 x4 x5 x6 x7 x8 x9 x10 x11 x12 x13 x14, Memory.wf x12.hbm = Memory.wf s.mpu.hbm → P { s with time := x0, power := x1, ctl := x2, host := x3, urz := x4, rng := x5, rest := x6, keys := x7, cls := x8, fab := x9, path := x10, otn := x11, mpu := x12, out := x13, free := x14 } = P s) (s : State) (tt : State) (e : execUrzidunRequest s = .next tt) : P tt = P s := by
  unfold execUrzidunRequest at e; replace e := Host.Outcome.next.inj e; subst e; split
  · rw [dictSettle_keep P hP, urzRequested_keep P hP]; exact urzFront_keep P (fun s x0 => hP s s.time s.power s.ctl s.host x0 s.rng s.rest s.keys s.cls s.fab s.path s.otn s.mpu s.out s.free rfl) _ _ _ ‹_›
  · simp only [dictSettle_keep P hP, urzRequested_keep P hP, hP]

theorem execUrzidunClose_keep {β : Type} (P : State → β) (hP : ∀ s x0 x1 x2 x3 x4 x5 x6 x7 x8 x9 x10 x11 x12 x13 x14, Memory.wf x12.hbm = Memory.wf s.mpu.hbm → P { s with time := x0, power := x1, ctl := x2, host := x3, urz := x4, rng := x5, rest := x6, keys := x7, cls := x8, fab := x9, path := x10, otn := x11, mpu := x12, out := x13, free := x14 } = P s) (s : State) (tt : State) (e : execUrzidunClose s = .next tt) : P tt = P s := by
  unfold execUrzidunClose at e; replace e := Host.Outcome.next.inj e; subst e; (repeat' split) <;> simp only [dictSettle_keep P hP, urzClosed_keep P (fun s x0 x1 x2 x3 x4 x5 x6 x7 => hP s x0 s.power x1 x2 x3 s.rng s.rest x4 s.cls s.fab x5 x6 s.mpu x7 s.free rfl), hP]

theorem execUrzidunSessionTimeout_keep {β : Type} (P : State → β) (hP : ∀ s x0 x1 x2 x3 x4 x5 x6 x7 x8 x9 x10 x11 x12 x13 x14, Memory.wf x12.hbm = Memory.wf s.mpu.hbm → P { s with time := x0, power := x1, ctl := x2, host := x3, urz := x4, rng := x5, rest := x6, keys := x7, cls := x8, fab := x9, path := x10, otn := x11, mpu := x12, out := x13, free := x14 } = P s) (slot : Fin 64) (s : State) (tt : State) (e : execUrzidunSessionTimeout slot s = .next tt) : P tt = P s := by
  unfold execUrzidunSessionTimeout at e; replace e := Host.Outcome.next.inj e; subst e; (repeat' split) <;> simp only [dictSettle_keep P hP, urzIdle_keep P (fun s x0 x1 x2 => hP s x0 s.power x1 s.host x2 s.rng s.rest s.keys s.cls s.fab s.path s.otn s.mpu s.out s.free rfl), hP]

theorem execHeartbeatSend_keep {β : Type} (P : State → β) (hP : ∀ s x0 x1 x2 x3 x4 x5 x6, P { s with time := x0, host := x1, urz := x2, keys := x3, path := x4, otn := x5, out := x6 } = P s) (pd : PD) (s : State) (tt : State) (e : execHeartbeatSend pd s = .next tt) : P tt = P s := by
  unfold execHeartbeatSend at e; replace e := Host.Outcome.next.inj e; subst e; (repeat' split) <;> simp only [beatSend_keep P hP, hP]

theorem execHeartbeatReceived_keep {β : Type} (P : State → β) (hP : ∀ s x0 x1 x2 x3 x4 x5, P { s with host := x0, urz := x1, keys := x2, path := x3, otn := x4, out := x5 } = P s) (s : State) (tt : State) (e : execHeartbeatReceived s = .next tt) : P tt = P s := by
  unfold execHeartbeatReceived at e; replace e := Host.Outcome.next.inj e; subst e; (repeat' split) <;> simp only [beatHeard_keep P hP, hP]

theorem execPeerAbsentTimeout_keep {β : Type} (P : State → β) (hP : ∀ s x0 x1 x2 x3 x4 x5 x6, P { s with time := x0, host := x1, urz := x2, keys := x3, path := x4, otn := x5, out := x6 } = P s) (pd : PD) (s : State) (tt : State) (e : execPeerAbsentTimeout pd s = .next tt) : P tt = P s := by
  unfold execPeerAbsentTimeout at e; replace e := Host.Outcome.next.inj e; subst e; (repeat' split) <;> simp only [peerLost_keep P hP, hP]

theorem execControllerFault_keep {β : Type} (P : State → β) (hP : ∀ s x0 x1 x2 x3 x4 x5 x6 x7 x8 x9 x10 x11 x12 x13 x14, Memory.wf x12.hbm = Memory.wf s.mpu.hbm → P { s with time := x0, power := x1, ctl := x2, host := x3, urz := x4, rng := x5, rest := x6, keys := x7, cls := x8, fab := x9, path := x10, otn := x11, mpu := x12, out := x13, free := x14 } = P s) (s : State) (tt : State) (e : execControllerFault s = .next tt) : P tt = P s := by
  unfold execControllerFault at e; replace e := Host.Outcome.next.inj e; subst e; (repeat' split) <;> simp only [dictSettle_keep P hP, failOver_keep P (fun s x0 x1 => hP s s.time x0 x1 s.host s.urz s.rng s.rest s.keys s.cls s.fab s.path s.otn s.mpu s.out s.free rfl), startDone_keep P (fun s x0 x1 x2 x3 x4 => hP s s.time x0 x1 x2 s.urz s.rng x3 s.keys s.cls s.fab s.path s.otn s.mpu x4 s.free rfl), hP]

theorem execProgressMarkTimeout_keep {β : Type} (P : State → β) (hP : ∀ s x0 x1 x2 x3 x4 x5 x6 x7 x8 x9 x10 x11 x12 x13 x14, Memory.wf x12.hbm = Memory.wf s.mpu.hbm → P { s with time := x0, power := x1, ctl := x2, host := x3, urz := x4, rng := x5, rest := x6, keys := x7, cls := x8, fab := x9, path := x10, otn := x11, mpu := x12, out := x13, free := x14 } = P s) (s : State) (tt : State) (e : execProgressMarkTimeout s = .next tt) : P tt = P s := by
  unfold execProgressMarkTimeout at e; replace e := Host.Outcome.next.inj e; subst e; (repeat' split) <;> simp only [dictSettle_keep P hP, failOver_keep P (fun s x0 x1 => hP s s.time x0 x1 s.host s.urz s.rng s.rest s.keys s.cls s.fab s.path s.otn s.mpu s.out s.free rfl), hP]

theorem execControllerStartComplete_keep {β : Type} (P : State → β) (hP : ∀ s x0 x1 x2 x3 x4 x5 x6 x7 x8 x9 x10 x11 x12 x13 x14, Memory.wf x12.hbm = Memory.wf s.mpu.hbm → P { s with time := x0, power := x1, ctl := x2, host := x3, urz := x4, rng := x5, rest := x6, keys := x7, cls := x8, fab := x9, path := x10, otn := x11, mpu := x12, out := x13, free := x14 } = P s) (ok : Bool) (s : State) (tt : State) (e : execControllerStartComplete ok s = .next tt) : P tt = P s := by
  unfold execControllerStartComplete at e; replace e := Host.Outcome.next.inj e; subst e; (repeat' split) <;> simp only [controlStart_keep P (fun s x0 x1 x2 x3 x4 x5 x6 h => hP s s.time x0 x1 x2 s.urz s.rng x3 s.keys s.cls s.fab x4 s.otn x5 x6 s.free h), dictSettle_keep P hP, hP]

theorem execControllerDiagnosisComplete_keep {β : Type} (P : State → β) (hP : ∀ s x0 x1 x2 x3 x4 x5 x6 x7 x8 x9 x10 x11 x12 x13 x14, Memory.wf x12.hbm = Memory.wf s.mpu.hbm → P { s with time := x0, power := x1, ctl := x2, host := x3, urz := x4, rng := x5, rest := x6, keys := x7, cls := x8, fab := x9, path := x10, otn := x11, mpu := x12, out := x13, free := x14 } = P s) (ctlB : Bool) (pass : Bool) (s : State) (tt : State) (e : execControllerDiagnosisComplete ctlB pass s = .next tt) : P tt = P s := by
  unfold execControllerDiagnosisComplete at e; replace e := Host.Outcome.next.inj e; subst e; (repeat' split) <;> simp only [ctlDiagnosed_keep P (fun s x0 x1 x2 x3 x4 => hP s s.time x0 x1 x2 s.urz s.rng x3 s.keys s.cls s.fab s.path s.otn s.mpu x4 s.free rfl), dictSettle_keep P hP, hP]

theorem execZeroizePinAsserted_keep {β : Type} (P : State → β) (hP : ∀ s x0 x1 x2 x3 x4 x5 x6 x7 x8 x9 x10 x11 x12 x13 x14, Memory.wf x12.hbm = Memory.wf s.mpu.hbm → P { s with time := x0, power := x1, ctl := x2, host := x3, urz := x4, rng := x5, rest := x6, keys := x7, cls := x8, fab := x9, path := x10, otn := x11, mpu := x12, out := x13, free := x14 } = P s) (s : State) (tt : State) (e : execZeroizePinAsserted s = .next tt) : P tt = P s := by
  unfold execZeroizePinAsserted at e; replace e := Host.Outcome.next.inj e; subst e; (repeat' split) <;> simp only [dictSettle_keep P hP, pinZeroize_keep P (fun s x0 x1 x2 x3 x4 x5 x6 x7 x8 x9 x10 x11 x12 x13 h => hP s x0 x1 x2 x3 x4 x5 x6 x7 x8 x9 x10 x11 x12 x13 s.free h), hP]

theorem execDecisionWindowClose_keep {β : Type} (P : State → β) (hP : ∀ s x0 x1 x2 x3 x4 x5 x6 x7 x8 x9 x10 x11 x12 x13 x14, Memory.wf x12.hbm = Memory.wf s.mpu.hbm → P { s with time := x0, power := x1, ctl := x2, host := x3, urz := x4, rng := x5, rest := x6, keys := x7, cls := x8, fab := x9, path := x10, otn := x11, mpu := x12, out := x13, free := x14 } = P s) (s : State) (tt : State) (e : execDecisionWindowClose s = .next tt) : P tt = P s := by
  unfold execDecisionWindowClose at e; replace e := Host.Outcome.next.inj e; subst e; (repeat' split) <;> simp only [dictSettle_keep P hP, windowClose_keep P (fun s x0 x1 x2 x3 x4 x5 x6 x7 x8 x9 x10 x11 x12 x13 h => hP s x0 x1 x2 x3 x4 x5 x6 x7 x8 x9 x10 x11 x12 x13 s.free h), hP]

theorem execSpindleIsolate_keep {β : Type} (P : State → β) (hP : ∀ s x0 x1 x2 x3 x4 x5 x6 x7 x8 x9 x10 x11 x12 x13 x14, Memory.wf x12.hbm = Memory.wf s.mpu.hbm → P { s with time := x0, power := x1, ctl := x2, host := x3, urz := x4, rng := x5, rest := x6, keys := x7, cls := x8, fab := x9, path := x10, otn := x11, mpu := x12, out := x13, free := x14 } = P s) (ses : Fin 128) (sp : Fin 28) (s : State) (tt : State) (e : execSpindleIsolate ses sp s = .next tt) : P tt = P s := by
  unfold execSpindleIsolate at e; replace e := Host.Outcome.next.inj e; subst e; (repeat' split) <;> simp only [commitSingle_keep P hP, hP]

theorem execSpindleReturn_keep {β : Type} (P : State → β) (hP : ∀ s x0 x1 x2 x3 x4 x5 x6 x7 x8 x9 x10 x11 x12 x13 x14, Memory.wf x12.hbm = Memory.wf s.mpu.hbm → P { s with time := x0, power := x1, ctl := x2, host := x3, urz := x4, rng := x5, rest := x6, keys := x7, cls := x8, fab := x9, path := x10, otn := x11, mpu := x12, out := x13, free := x14 } = P s) (ses : Fin 128) (sp : Fin 28) (s : State) (tt : State) (e : execSpindleReturn ses sp s = .next tt) : P tt = P s := by
  unfold execSpindleReturn at e; replace e := Host.Outcome.next.inj e; subst e; (repeat' split) <;> simp only [commitSingle_keep P hP, hP]

theorem execSpindleInjectFault_keep {β : Type} (P : State → β) (hP : ∀ s x0 x1 x2 x3 x4 x5 x6 x7 x8 x9 x10 x11 x12 x13 x14, Memory.wf x12.hbm = Memory.wf s.mpu.hbm → P { s with time := x0, power := x1, ctl := x2, host := x3, urz := x4, rng := x5, rest := x6, keys := x7, cls := x8, fab := x9, path := x10, otn := x11, mpu := x12, out := x13, free := x14 } = P s) (ses : Fin 128) (sp : Fin 28) (s : State) (tt : State) (e : execSpindleInjectFault ses sp s = .next tt) : P tt = P s := by
  unfold execSpindleInjectFault at e; replace e := Host.Outcome.next.inj e; subst e; (repeat' split) <;> simp only [commitSingle_keep P hP, hP]

theorem execKeyLoadBlob_keep {β : Type} (P : State → β) (hP : ∀ s x0 x1 x2 x3 x4 x5 x6 x7 x8 x9 x10 x11 x12 x13 x14, Memory.wf x12.hbm = Memory.wf s.mpu.hbm → P { s with time := x0, power := x1, ctl := x2, host := x3, urz := x4, rng := x5, rest := x6, keys := x7, cls := x8, fab := x9, path := x10, otn := x11, mpu := x12, out := x13, free := x14 } = P s) (ses : Fin 128) (target : BitVec 16) (blob : Octets) (chucks : ChuckRun) (s : State) (tt : State) (e : execKeyLoadBlob ses target blob chucks s = .next tt) : P tt = P s := by
  unfold execKeyLoadBlob keyRow at e; replace e := Host.Outcome.next.inj e; subst e; exact commitSingle_keep P hP _ _ _ _ _ _

theorem execKeyLoadBlobStore_keep {β : Type} (P : State → β) (hP : ∀ s x0 x1 x2 x3 x4 x5 x6 x7 x8 x9 x10 x11 x12 x13 x14, Memory.wf x12.hbm = Memory.wf s.mpu.hbm → P { s with time := x0, power := x1, ctl := x2, host := x3, urz := x4, rng := x5, rest := x6, keys := x7, cls := x8, fab := x9, path := x10, otn := x11, mpu := x12, out := x13, free := x14 } = P s) (ses : Fin 128) (target : BitVec 16) (index : BitVec 32) (chucks : ChuckRun) (s : State) (tt : State) (e : execKeyLoadBlobStore ses target index chucks s = .next tt) : P tt = P s := by
  unfold execKeyLoadBlobStore keyRow at e; replace e := Host.Outcome.next.inj e; subst e; exact commitSingle_keep P hP _ _ _ _ _ _

theorem execKeyDerive_keep {β : Type} (P : State → β) (hP : ∀ s x0 x1 x2 x3 x4 x5 x6 x7 x8 x9 x10 x11 x12 x13 x14, Memory.wf x12.hbm = Memory.wf s.mpu.hbm → P { s with time := x0, power := x1, ctl := x2, host := x3, urz := x4, rng := x5, rest := x6, keys := x7, cls := x8, fab := x9, path := x10, otn := x11, mpu := x12, out := x13, free := x14 } = P s) (ses : Fin 128) (target source : BitVec 16) (prf ctrWidth lenWidth : BitVec 8) (label context attr : Octets) (chucks : ChuckRun) (s : State) (tt : State) (e : execKeyDerive ses target source prf ctrWidth lenWidth label context attr chucks s = .next tt) : P tt = P s := by
  unfold execKeyDerive keyRow at e; replace e := Host.Outcome.next.inj e; subst e; exact commitSingle_keep P hP _ _ _ _ _ _

theorem execKeyGenerate_keep {β : Type} (P : State → β) (hP : ∀ s x0 x1 x2 x3 x4 x5 x6 x7 x8 x9 x10 x11 x12 x13 x14, Memory.wf x12.hbm = Memory.wf s.mpu.hbm → P { s with time := x0, power := x1, ctl := x2, host := x3, urz := x4, rng := x5, rest := x6, keys := x7, cls := x8, fab := x9, path := x10, otn := x11, mpu := x12, out := x13, free := x14 } = P s) (ses : Fin 128) (target : BitVec 16) (attr : Octets) (chucks : ChuckRun) (s : State) (tt : State) (e : execKeyGenerate ses target attr chucks s = .next tt) : P tt = P s := by
  unfold execKeyGenerate keyRow at e; replace e := Host.Outcome.next.inj e; subst e; exact commitSingle_keep P hP _ _ _ _ _ _

theorem execKeyExport_keep {β : Type} (P : State → β) (hP : ∀ s x0 x1 x2 x3 x4 x5 x6 x7 x8 x9 x10 x11 x12 x13 x14, Memory.wf x12.hbm = Memory.wf s.mpu.hbm → P { s with time := x0, power := x1, ctl := x2, host := x3, urz := x4, rng := x5, rest := x6, keys := x7, cls := x8, fab := x9, path := x10, otn := x11, mpu := x12, out := x13, free := x14 } = P s) (ses : Fin 128) (source wrapping : BitVec 16) (format : BitVec 8) (chucks : ChuckRun) (s : State) (tt : State) (e : execKeyExport ses source wrapping format chucks s = .next tt) : P tt = P s := by
  unfold execKeyExport keyRow at e; replace e := Host.Outcome.next.inj e; subst e; exact commitSingle_keep P hP _ _ _ _ _ _

theorem execKeyImportBare_keep {β : Type} (P : State → β) (hP : ∀ s x0 x1 x2 x3 x4 x5 x6 x7 x8 x9 x10 x11 x12 x13 x14, Memory.wf x12.hbm = Memory.wf s.mpu.hbm → P { s with time := x0, power := x1, ctl := x2, host := x3, urz := x4, rng := x5, rest := x6, keys := x7, cls := x8, fab := x9, path := x10, otn := x11, mpu := x12, out := x13, free := x14 } = P s) (ses : Fin 128) (target kek : BitVec 16) (attr wrapped : Octets) (chucks : ChuckRun) (s : State) (tt : State) (e : execKeyImportBare ses target kek attr wrapped chucks s = .next tt) : P tt = P s := by
  unfold execKeyImportBare keyRow at e; replace e := Host.Outcome.next.inj e; subst e; exact commitSingle_keep P hP _ _ _ _ _ _

theorem execKeyDelete_keep {β : Type} (P : State → β) (hP : ∀ s x0 x1 x2 x3 x4 x5 x6 x7 x8 x9 x10 x11 x12 x13 x14, Memory.wf x12.hbm = Memory.wf s.mpu.hbm → P { s with time := x0, power := x1, ctl := x2, host := x3, urz := x4, rng := x5, rest := x6, keys := x7, cls := x8, fab := x9, path := x10, otn := x11, mpu := x12, out := x13, free := x14 } = P s) (ses : Fin 128) (target : BitVec 16) (s : State) (tt : State) (e : execKeyDelete ses target s = .next tt) : P tt = P s := by
  unfold execKeyDelete keyRow at e; replace e := Host.Outcome.next.inj e; subst e; exact commitSingle_keep P hP _ _ _ _ _ _

theorem execKeyLoadSa_keep {β : Type} (P : State → β) (hP : ∀ s x0 x1 x2 x3 x4 x5 x6 x7 x8 x9 x10 x11 x12 x13 x14, Memory.wf x12.hbm = Memory.wf s.mpu.hbm → P { s with time := x0, power := x1, ctl := x2, host := x3, urz := x4, rng := x5, rest := x6, keys := x7, cls := x8, fab := x9, path := x10, otn := x11, mpu := x12, out := x13, free := x14 } = P s) (ses : Fin 128) (store : BitVec 32) (sa slot : BitVec 16) (chucks : ChuckRun) (s : State) (tt : State) (e : execKeyLoadSa ses store sa slot chucks s = .next tt) : P tt = P s := by
  unfold execKeyLoadSa keyRow at e; replace e := Host.Outcome.next.inj e; subst e; exact commitSingle_keep P hP _ _ _ _ _ _

theorem execOwnershipTake_keep {β : Type} (P : State → β) (hP : ∀ s x0 x1 x2 x3 x4 x5 x6 x7 x8 x9 x10 x11 x12 x13 x14, Memory.wf x12.hbm = Memory.wf s.mpu.hbm → P { s with time := x0, power := x1, ctl := x2, host := x3, urz := x4, rng := x5, rest := x6, keys := x7, cls := x8, fab := x9, path := x10, otn := x11, mpu := x12, out := x13, free := x14 } = P s) (ses : Fin 128) (command : Octets) (s : State) (tt : State) (e : execOwnershipTake ses command s = .next tt) : P tt = P s := by
  unfold execOwnershipTake at e; replace e := Host.Outcome.next.inj e; subst e; (repeat' split) <;> simp only [commitSingle_keep P hP, hP]

theorem execOwnershipTransfer_keep {β : Type} (P : State → β) (hP : ∀ s x0 x1 x2 x3 x4 x5 x6 x7 x8 x9 x10 x11 x12 x13 x14, Memory.wf x12.hbm = Memory.wf s.mpu.hbm → P { s with time := x0, power := x1, ctl := x2, host := x3, urz := x4, rng := x5, rest := x6, keys := x7, cls := x8, fab := x9, path := x10, otn := x11, mpu := x12, out := x13, free := x14 } = P s) (ses : Fin 128) (command : Octets) (s : State) (tt : State) (e : execOwnershipTransfer ses command s = .next tt) : P tt = P s := by
  unfold execOwnershipTransfer at e; replace e := Host.Outcome.next.inj e; subst e; (repeat' split) <;> simp only [commitSingle_keep P hP, hP]

theorem execOwnershipRelease_keep {β : Type} (P : State → β) (hP : ∀ s x0 x1 x2 x3 x4 x5 x6 x7 x8 x9 x10 x11 x12 x13 x14, Memory.wf x12.hbm = Memory.wf s.mpu.hbm → P { s with time := x0, power := x1, ctl := x2, host := x3, urz := x4, rng := x5, rest := x6, keys := x7, cls := x8, fab := x9, path := x10, otn := x11, mpu := x12, out := x13, free := x14 } = P s) (ses : Fin 128) (command : Octets) (s : State) (tt : State) (e : execOwnershipRelease ses command s = .next tt) : P tt = P s := by
  unfold execOwnershipRelease at e; replace e := Host.Outcome.next.inj e; subst e; (repeat' split) <;> simp only [commitSingle_keep P hP, hP]

theorem execEnrollmentOpen_keep {β : Type} (P : State → β) (hP : ∀ s x0 x1 x2 x3 x4 x5 x6 x7 x8 x9 x10 x11 x12 x13 x14, Memory.wf x12.hbm = Memory.wf s.mpu.hbm → P { s with time := x0, power := x1, ctl := x2, host := x3, urz := x4, rng := x5, rest := x6, keys := x7, cls := x8, fab := x9, path := x10, otn := x11, mpu := x12, out := x13, free := x14 } = P s) (ses : Fin 128) (nk : Octets) (s : State) (tt : State) (e : execEnrollmentOpen ses nk s = .next tt) : P tt = P s := by
  unfold execEnrollmentOpen at e; replace e := Host.Outcome.next.inj e; subst e; (repeat' split) <;> simp only [commitSingle_keep P hP, hP]

theorem execEnrollmentRequest_keep {β : Type} (P : State → β) (hP : ∀ s x0 x1 x2 x3 x4 x5 x6 x7 x8 x9 x10 x11 x12 x13 x14, Memory.wf x12.hbm = Memory.wf s.mpu.hbm → P { s with time := x0, power := x1, ctl := x2, host := x3, urz := x4, rng := x5, rest := x6, keys := x7, cls := x8, fab := x9, path := x10, otn := x11, mpu := x12, out := x13, free := x14 } = P s) (ses : Fin 128) (request : Octets) (chucks : ChuckRun) (s : State) (tt : State) (e : execEnrollmentRequest ses request chucks s = .next tt) : P tt = P s := by
  unfold execEnrollmentRequest at e; replace e := Host.Outcome.next.inj e; subst e; (repeat' split) <;> simp only [commitSingle_keep P hP, hP]

theorem execZeroizeDataKeys_keep {β : Type} (P : State → β) (hP : ∀ s x0 x1 x2 x3 x4 x5 x6 x7 x8 x9 x10 x11 x12 x13 x14, Memory.wf x12.hbm = Memory.wf s.mpu.hbm → P { s with time := x0, power := x1, ctl := x2, host := x3, urz := x4, rng := x5, rest := x6, keys := x7, cls := x8, fab := x9, path := x10, otn := x11, mpu := x12, out := x13, free := x14 } = P s) (ses : Fin 128) (s : State) (tt : State) (e : execZeroizeDataKeys ses s = .next tt) : P tt = P s := by
  unfold execZeroizeDataKeys at e; replace e := Host.Outcome.next.inj e; subst e; (repeat' split) <;> simp only [commitSingle_keep P hP, hP]

theorem execZeroizeWholePart_keep {β : Type} (P : State → β) (hP : ∀ s x0 x1 x2 x3 x4 x5 x6 x7 x8 x9 x10 x11 x12 x13 x14, Memory.wf x12.hbm = Memory.wf s.mpu.hbm → P { s with time := x0, power := x1, ctl := x2, host := x3, urz := x4, rng := x5, rest := x6, keys := x7, cls := x8, fab := x9, path := x10, otn := x11, mpu := x12, out := x13, free := x14 } = P s) (ses : Fin 128) (s : State) (tt : State) (e : execZeroizeWholePart ses s = .next tt) : P tt = P s := by
  unfold execZeroizeWholePart at e; replace e := Host.Outcome.next.inj e; subst e; (repeat' split) <;> simp only [commitSingle_keep P hP, hP]

theorem execSetTime_keep {β : Type} (P : State → β) (hP : ∀ s x0 x1 x2 x3 x4 x5 x6 x7 x8 x9 x10 x11 x12 x13 x14, Memory.wf x12.hbm = Memory.wf s.mpu.hbm → P { s with time := x0, power := x1, ctl := x2, host := x3, urz := x4, rng := x5, rest := x6, keys := x7, cls := x8, fab := x9, path := x10, otn := x11, mpu := x12, out := x13, free := x14 } = P s) (ses : Fin 128) (time96 : Octets) (s : State) (tt : State) (e : execSetTime ses time96 s = .next tt) : P tt = P s := by
  unfold execSetTime at e; replace e := Host.Outcome.next.inj e; subst e; (repeat' split) <;> simp only [commitSingle_keep P hP, hP]

theorem execAdjustTime_keep {β : Type} (P : State → β) (hP : ∀ s x0 x1 x2 x3 x4 x5 x6 x7 x8 x9 x10 x11 x12 x13 x14, Memory.wf x12.hbm = Memory.wf s.mpu.hbm → P { s with time := x0, power := x1, ctl := x2, host := x3, urz := x4, rng := x5, rest := x6, keys := x7, cls := x8, fab := x9, path := x10, otn := x11, mpu := x12, out := x13, free := x14 } = P s) (ses : Fin 128) (amount : BitVec 64) (s : State) (tt : State) (e : execAdjustTime ses amount s = .next tt) : P tt = P s := by
  unfold execAdjustTime at e; replace e := Host.Outcome.next.inj e; subst e; (repeat' split) <;> simp only [commitSingle_keep P hP, hP]

theorem execFaultInjection_keep {β : Type} (P : State → β) (hP : ∀ s x0 x1 x2 x3 x4 x5 x6 x7 x8 x9 x10 x11 x12 x13 x14, Memory.wf x12.hbm = Memory.wf s.mpu.hbm → P { s with time := x0, power := x1, ctl := x2, host := x3, urz := x4, rng := x5, rest := x6, keys := x7, cls := x8, fab := x9, path := x10, otn := x11, mpu := x12, out := x13, free := x14 } = P s) (ses : Fin 128) (record : Octets) (s : State) (tt : State) (e : execFaultInjection ses record s = .next tt) : P tt = P s := by
  unfold execFaultInjection at e; replace e := Host.Outcome.next.inj e; subst e; (repeat' split) <;> simp only [commitSingle_keep P hP, hP]

theorem execRawViewRead_keep {β : Type} (P : State → β) (hP : ∀ s x0 x1 x2 x3 x4 x5 x6 x7 x8 x9 x10 x11 x12 x13 x14, Memory.wf x12.hbm = Memory.wf s.mpu.hbm → P { s with time := x0, power := x1, ctl := x2, host := x3, urz := x4, rng := x5, rest := x6, keys := x7, cls := x8, fab := x9, path := x10, otn := x11, mpu := x12, out := x13, free := x14 } = P s) (ses : Fin 128) (addr : BitVec 64) (s : State) (tt : State) (e : execRawViewRead ses addr s = .next tt) : P tt = P s := by
  unfold execRawViewRead at e; replace e := Host.Outcome.next.inj e; subst e; (repeat' split) <;> simp only [commitSingle_keep P hP, hP]

theorem execConditionerKat_keep {β : Type} (P : State → β) (hP : ∀ s x0 x1 x2 x3 x4 x5 x6 x7 x8 x9 x10 x11 x12 x13 x14, Memory.wf x12.hbm = Memory.wf s.mpu.hbm → P { s with time := x0, power := x1, ctl := x2, host := x3, urz := x4, rng := x5, rest := x6, keys := x7, cls := x8, fab := x9, path := x10, otn := x11, mpu := x12, out := x13, free := x14 } = P s) (ses : Fin 128) (input : Octets) (s : State) (tt : State) (e : execConditionerKat ses input s = .next tt) : P tt = P s := by
  unfold execConditionerKat at e; replace e := Host.Outcome.next.inj e; subst e; (repeat' split) <;> simp only [commitSingle_keep P hP, hP]

theorem execExpanderKat_keep {β : Type} (P : State → β) (hP : ∀ s x0 x1 x2 x3 x4 x5 x6 x7 x8 x9 x10 x11 x12 x13 x14, Memory.wf x12.hbm = Memory.wf s.mpu.hbm → P { s with time := x0, power := x1, ctl := x2, host := x3, urz := x4, rng := x5, rest := x6, keys := x7, cls := x8, fab := x9, path := x10, otn := x11, mpu := x12, out := x13, free := x14 } = P s) (ses : Fin 128) (vector : Octets) (s : State) (tt : State) (e : execExpanderKat ses vector s = .next tt) : P tt = P s := by
  unfold execExpanderKat at e; replace e := Host.Outcome.next.inj e; subst e; (repeat' split) <;> simp only [commitSingle_keep P hP, hP]

theorem execRawCapture_keep {β : Type} (P : State → β) (hP : ∀ s x0 x1 x2 x3 x4 x5 x6 x7 x8 x9 x10 x11 x12 x13 x14, Memory.wf x12.hbm = Memory.wf s.mpu.hbm → P { s with time := x0, power := x1, ctl := x2, host := x3, urz := x4, rng := x5, rest := x6, keys := x7, cls := x8, fab := x9, path := x10, otn := x11, mpu := x12, out := x13, free := x14 } = P s) (ses : Fin 128) (source : Fin 8) (s : State) (tt : State) (e : execRawCapture ses source s = .next tt) : P tt = P s := by
  unfold execRawCapture at e; replace e := Host.Outcome.next.inj e; subst e; (repeat' split) <;> simp only [commitSingle_keep P hP, hP]

theorem execUnlockToken_keep {β : Type} (P : State → β) (hP : ∀ s x0 x1 x2 x3 x4 x5 x6 x7 x8 x9 x10 x11 x12 x13 x14, Memory.wf x12.hbm = Memory.wf s.mpu.hbm → P { s with time := x0, power := x1, ctl := x2, host := x3, urz := x4, rng := x5, rest := x6, keys := x7, cls := x8, fab := x9, path := x10, otn := x11, mpu := x12, out := x13, free := x14 } = P s) (ses : Fin 128) (token : Octets) (s : State) (tt : State) (e : execUnlockToken ses token s = .next tt) : P tt = P s := by
  unfold execUnlockToken at e; replace e := Host.Outcome.next.inj e; subst e; (repeat' split) <;> simp only [commitSingle_keep P hP, hP]

theorem execDebugToken_keep {β : Type} (P : State → β) (hP : ∀ s x0 x1 x2 x3 x4 x5 x6 x7 x8 x9 x10 x11 x12 x13 x14, Memory.wf x12.hbm = Memory.wf s.mpu.hbm → P { s with time := x0, power := x1, ctl := x2, host := x3, urz := x4, rng := x5, rest := x6, keys := x7, cls := x8, fab := x9, path := x10, otn := x11, mpu := x12, out := x13, free := x14 } = P s) (ses : Fin 128) (token : Octets) (s : State) (tt : State) (e : execDebugToken ses token s = .next tt) : P tt = P s := by
  unfold execDebugToken at e; replace e := Host.Outcome.next.inj e; subst e; (repeat' split) <;> simp only [commitSingle_keep P hP, hP]

theorem execDebugPowerOn_keep {β : Type} (P : State → β) (hP : ∀ s x0 x1 x2 x3 x4 x5 x6 x7 x8 x9 x10 x11 x12 x13 x14, Memory.wf x12.hbm = Memory.wf s.mpu.hbm → P { s with time := x0, power := x1, ctl := x2, host := x3, urz := x4, rng := x5, rest := x6, keys := x7, cls := x8, fab := x9, path := x10, otn := x11, mpu := x12, out := x13, free := x14 } = P s) (ses : Fin 128) (s : State) (tt : State) (e : execDebugPowerOn ses s = .next tt) : P tt = P s := by
  unfold execDebugPowerOn at e; replace e := Host.Outcome.next.inj e; subst e; (repeat' split) <;> simp only [commitSingle_keep P hP, hP]

theorem execDebugPowerOff_keep {β : Type} (P : State → β) (hP : ∀ s x0 x1 x2 x3 x4 x5 x6 x7 x8 x9 x10 x11 x12 x13 x14, Memory.wf x12.hbm = Memory.wf s.mpu.hbm → P { s with time := x0, power := x1, ctl := x2, host := x3, urz := x4, rng := x5, rest := x6, keys := x7, cls := x8, fab := x9, path := x10, otn := x11, mpu := x12, out := x13, free := x14 } = P s) (ses : Fin 128) (s : State) (tt : State) (e : execDebugPowerOff ses s = .next tt) : P tt = P s := by
  unfold execDebugPowerOff at e; replace e := Host.Outcome.next.inj e; subst e; (repeat' split) <;> simp only [commitSingle_keep P hP, hP]

theorem execExportAcknowledge_keep {β : Type} (P : State → β) (hP : ∀ s x0 x1 x2 x3 x4 x5 x6 x7 x8 x9 x10 x11 x12 x13 x14, Memory.wf x12.hbm = Memory.wf s.mpu.hbm → P { s with time := x0, power := x1, ctl := x2, host := x3, urz := x4, rng := x5, rest := x6, keys := x7, cls := x8, fab := x9, path := x10, otn := x11, mpu := x12, out := x13, free := x14 } = P s) (ses : Fin 128) (segment : BitVec 16) (last : BitVec 64) (s : State) (tt : State) (e : execExportAcknowledge ses segment last s = .next tt) : P tt = P s := by
  unfold execExportAcknowledge at e; replace e := Host.Outcome.next.inj e; subst e; (repeat' split) <;> simp only [commitSingle_keep P hP, hP]

theorem execCounterAdvance_keep {β : Type} (P : State → β) (hP : ∀ s x0 x1 x2 x3 x4 x5 x6 x7 x8 x9 x10 x11 x12 x13 x14, Memory.wf x12.hbm = Memory.wf s.mpu.hbm → P { s with time := x0, power := x1, ctl := x2, host := x3, urz := x4, rng := x5, rest := x6, keys := x7, cls := x8, fab := x9, path := x10, otn := x11, mpu := x12, out := x13, free := x14 } = P s) (ses : Fin 128) (counter : BitVec 8) (value : BitVec 32) (s : State) (tt : State) (e : execCounterAdvance ses counter value s = .next tt) : P tt = P s := by
  unfold execCounterAdvance at e; replace e := Host.Outcome.next.inj e; subst e; (repeat' split) <;> simp only [commitSingle_keep P hP, hP]

theorem execSavePersistentImage_keep {β : Type} (P : State → β) (hP : ∀ s x0 x1 x2 x3 x4 x5 x6 x7 x8 x9 x10 x11 x12 x13 x14, Memory.wf x12.hbm = Memory.wf s.mpu.hbm → P { s with time := x0, power := x1, ctl := x2, host := x3, urz := x4, rng := x5, rest := x6, keys := x7, cls := x8, fab := x9, path := x10, otn := x11, mpu := x12, out := x13, free := x14 } = P s) (ses : Fin 128) (s : State) (tt : State) (e : execSavePersistentImage ses s = .next tt) : P tt = P s := by
  unfold execSavePersistentImage at e; replace e := Host.Outcome.next.inj e; subst e; (repeat' split) <;> simp only [commitSingle_keep P hP, hP]

theorem execImageSaveComplete_keep {β : Type} (P : State → β) (hP : ∀ s x0 x1, P { s with ctl := x0, out := x1 } = P s) (ok : Bool) (s : State) (tt : State) (e : execImageSaveComplete ok s = .next tt) : P tt = P s := by
  unfold execImageSaveComplete at e; replace e := Host.Outcome.next.inj e; subst e; (repeat' split) <;> simp only [saveEnd_keep P hP, hP]

theorem execDomainPowerRequest_keep {β : Type} (P : State → β) (hP : ∀ s x0 x1 x2 x3 x4 x5 x6 x7 x8 x9 x10 x11 x12 x13 x14, Memory.wf x12.hbm = Memory.wf s.mpu.hbm → P { s with time := x0, power := x1, ctl := x2, host := x3, urz := x4, rng := x5, rest := x6, keys := x7, cls := x8, fab := x9, path := x10, otn := x11, mpu := x12, out := x13, free := x14 } = P s) (ses : Fin 128) (domain : Fin 80) (value : BitVec 8) (s : State) (tt : State) (e : execDomainPowerRequest ses domain value s = .next tt) : P tt = P s := by
  unfold execDomainPowerRequest at e; replace e := Host.Outcome.next.inj e; subst e; (repeat' split) <;> simp only [commitSingle_keep P hP, hP]

theorem execDomainReset_keep {β : Type} (P : State → β) (hP : ∀ s x0 x1 x2 x3 x4 x5 x6 x7 x8 x9 x10 x11 x12 x13 x14, Memory.wf x12.hbm = Memory.wf s.mpu.hbm → P { s with time := x0, power := x1, ctl := x2, host := x3, urz := x4, rng := x5, rest := x6, keys := x7, cls := x8, fab := x9, path := x10, otn := x11, mpu := x12, out := x13, free := x14 } = P s) (ses : Option (Fin 128)) (domain : Fin 80) (s : State) (tt : State) (e : execDomainReset ses domain s = .next tt) : P tt = P s := by
  unfold execDomainReset at e; replace e := Host.Outcome.next.inj e; subst e; (repeat' split) <;> simp only [commitSingle_keep P hP, dictSettle_keep P hP, domainReset_keep P (fun s x0 x1 x2 x3 x4 x5 x6 x7 x8 x9 x10 x11 x12 h => hP s x0 x1 x2 x3 s.urz x4 x5 x6 x7 x8 x9 x10 x11 x12 s.free h), drainStart_keep P (fun s x0 x1 => hP s s.time x0 s.ctl s.host s.urz s.rng s.rest s.keys s.cls s.fab x1 s.otn s.mpu s.out s.free rfl), hP]

theorem execServiceReset_keep {β : Type} (P : State → β) (hP : ∀ s x0 x1 x2 x3 x4 x5 x6 x7 x8 x9 x10 x11 x12 x13 x14, Memory.wf x12.hbm = Memory.wf s.mpu.hbm → P { s with time := x0, power := x1, ctl := x2, host := x3, urz := x4, rng := x5, rest := x6, keys := x7, cls := x8, fab := x9, path := x10, otn := x11, mpu := x12, out := x13, free := x14 } = P s) (ses : Fin 128) (s : State) (tt : State) (e : execServiceReset ses s = .next tt) : P tt = P s := by
  unfold execServiceReset at e; replace e := Host.Outcome.next.inj e; subst e; (repeat' split) <;> simp only [commitSingle_keep P hP, hP]

theorem execColdReset_keep {β : Type} (P : State → β) (hP : ∀ s x0 x1 x2 x3 x4 x5 x6 x7 x8 x9 x10 x11 x12 x13 x14, Memory.wf x12.hbm = Memory.wf s.mpu.hbm → P { s with time := x0, power := x1, ctl := x2, host := x3, urz := x4, rng := x5, rest := x6, keys := x7, cls := x8, fab := x9, path := x10, otn := x11, mpu := x12, out := x13, free := x14 } = P s) (ses : Fin 128) (s : State) (tt : State) (e : execColdReset ses s = .next tt) : P tt = P s := by
  unfold execColdReset at e; replace e := Host.Outcome.next.inj e; subst e; (repeat' split) <;> simp only [commitSingle_keep P hP, hP]

theorem execPowerGoodAsserted_keep {β : Type} (P : State → β) (hP : ∀ s x0 x1 x2 x3 x4 x5 x6 x7 x8 x9 x10 x11 x12 x13 x14, P { s with time := x0, power := x1, ctl := x2, host := x3, urz := x4, rng := x5, rest := x6, keys := x7, cls := x8, fab := x9, path := x10, otn := x11, mpu := x12, out := x13, free := x14 } = P s) (byResetN : Bool) (sramIntact : Bool) (s : State) (tt : State) (e : execPowerGoodAsserted byResetN sramIntact s = .next tt) : P tt = P s := by
  unfold execPowerGoodAsserted at e; replace e := Host.Outcome.next.inj e; subst e; (repeat' split) <;> simp only [powerGood_keep P hP, hP]

theorem execResetAsserted_keep {β : Type} (P : State → β) (hP : ∀ s x0 x1 x2 x3 x4 x5 x6 x7 x8 x9 x10 x11 x12 x13 x14, P { s with time := x0, power := x1, ctl := x2, host := x3, urz := x4, rng := x5, rest := x6, keys := x7, cls := x8, fab := x9, path := x10, otn := x11, mpu := x12, out := x13, free := x14 } = P s) (pwrgoodFell : Bool) (s : State) (tt : State) (e : execResetAsserted pwrgoodFell s = .next tt) : P tt = P s := by
  unfold execResetAsserted at e; replace e := Host.Outcome.next.inj e; subst e; (repeat' split) <;> simp only [resetTaken_keep P hP, hP]

theorem execInitComplete_keep {β : Type} (P : State → β) (hP : ∀ s x0 x1 x2, P { s with power := x0, host := x1, rng := x2 } = P s) (ok : Bool) (s : State) (tt : State) (e : execInitComplete ok s = .next tt) : P tt = P s := by
  unfold execInitComplete at e; replace e := Host.Outcome.next.inj e; subst e; (repeat' split) <;> simp only [initEnd_keep P hP, hP]

theorem execHbmTrainingComplete_keep {β : Type} (P : State → β) (hP : ∀ s x0 x1 x2 x3 x4 x5 x6 x7 x8 x9 x10 x11 x12 x13 x14, Memory.wf x12.hbm = Memory.wf s.mpu.hbm → P { s with time := x0, power := x1, ctl := x2, host := x3, urz := x4, rng := x5, rest := x6, keys := x7, cls := x8, fab := x9, path := x10, otn := x11, mpu := x12, out := x13, free := x14 } = P s) (stack : Fin 2) (pass : Bool) (s : State) (tt : State) (e : execHbmTrainingComplete stack pass s = .next tt) : P tt = P s := by
  unfold execHbmTrainingComplete at e; replace e := Host.Outcome.next.inj e; subst e; (repeat' split) <;> simp only [dictSettle_keep P hP, stackTrained_keep P (fun s x0 x1 x2 x3 h => hP s s.time x0 s.ctl s.host s.urz x1 s.rest x2 s.cls s.fab s.path s.otn x3 s.out s.free h), hP]

theorem execGeneratorReady_keep {β : Type} (P : State → β) (hP : ∀ s x0 x1 x2 x3 x4 x5 x6 x7, Memory.wf x6.hbm = Memory.wf s.mpu.hbm → P { s with power := x0, host := x1, rng := x2, rest := x3, keys := x4, fab := x5, mpu := x6, out := x7 } = P s) (kat : List KatRun) (s : State) (tt : State) (e : execGeneratorReady kat s = .next tt) : P tt = P s := by
  unfold execGeneratorReady at e; replace e := Host.Outcome.next.inj e; subst e; (repeat' split) <;> simp only [generatorStarts_keep P hP, hP]

theorem execRngRequestServed_keep {β : Type} (P : State → β) (hP : ∀ s x0 x1 x2 x3 x4 x5 x6 x7, Memory.wf x5.hbm = Memory.wf s.mpu.hbm → P { s with power := x0, rng := x1, rest := x2, keys := x3, fab := x4, mpu := x5, out := x6, free := x7 } = P s) (s : State) (tt : State) (e : execRngRequestServed s = .next tt) : P tt = P s := by
  unfold execRngRequestServed at e; replace e := Host.Outcome.next.inj e; subst e; (repeat' split) <;> simp only [rngServe_keep P (fun s x0 x1 x2 x3 x4 x5 x6 h => hP s s.power x0 x1 x2 x3 x4 x5 x6 h), toRestoring_keep P (fun s x0 x1 x2 x3 h => hP s x0 x1 s.rest x2 s.fab x3 s.out s.free h), hP]

theorem execRandomWaitTimeout_keep {β : Type} (P : State → β) (hP : ∀ s x0 x1 x2 x3 x4 x5 x6 x7 x8 x9 x10 x11 x12 x13 x14, Memory.wf x12.hbm = Memory.wf s.mpu.hbm → P { s with time := x0, power := x1, ctl := x2, host := x3, urz := x4, rng := x5, rest := x6, keys := x7, cls := x8, fab := x9, path := x10, otn := x11, mpu := x12, out := x13, free := x14 } = P s) (s : State) (tt : State) (e : execRandomWaitTimeout s = .next tt) : P tt = P s := by
  unfold execRandomWaitTimeout at e; replace e := Host.Outcome.next.inj e; subst e; (repeat' split) <;> simp only [dictSettle_keep P hP, randomWait_keep P (fun s x0 x1 => hP s x0 x1 s.ctl s.host s.urz s.rng s.rest s.keys s.cls s.fab s.path s.otn s.mpu s.out s.free rfl), hP]

theorem execImageRestore_keep {β : Type} (P : State → β) (hP : ∀ s x0 x1 x2 x3 x4 x5 x6 x7 x8 x9 x10 x11 x12 x13 x14, Memory.wf x12.hbm = Memory.wf s.mpu.hbm → P { s with time := x0, power := x1, ctl := x2, host := x3, urz := x4, rng := x5, rest := x6, keys := x7, cls := x8, fab := x9, path := x10, otn := x11, mpu := x12, out := x13, free := x14 } = P s) (s : State) (tt : State) (e : execImageRestore s = .next tt) : P tt = P s := by
  unfold execImageRestore at e; replace e := Host.Outcome.next.inj e; subst e; (repeat' split) <;> simp only [dictSettle_keep P hP, restoreEnd_keep P (fun s x0 x1 x2 x3 x4 x5 x6 x7 x8 x9 x10 x11 x12 h => hP s x0 x1 x2 x3 s.urz x4 x5 x6 x7 x8 x9 x10 x11 x12 s.free h), hP]

theorem execColdResetDelayExpiry_keep {β : Type} (P : State → β) (hP : ∀ s x0 x1 x2 x3 x4 x5 x6 x7 x8 x9 x10 x11 x12 x13 x14, P { s with time := x0, power := x1, ctl := x2, host := x3, urz := x4, rng := x5, rest := x6, keys := x7, cls := x8, fab := x9, path := x10, otn := x11, mpu := x12, out := x13, free := x14 } = P s) (s : State) (tt : State) (e : execColdResetDelayExpiry s = .next tt) : P tt = P s := by
  unfold execColdResetDelayExpiry at e; replace e := Host.Outcome.next.inj e; subst e; (repeat' split) <;> simp only [coldTaken_keep P hP, hP]

theorem execCoreSupplyUnderVoltage_keep {β : Type} (P : State → β) (hP : ∀ s x0 x1 x2 x3 x4 x5 x6 x7 x8 x9 x10 x11 x12 x13 x14, P { s with time := x0, power := x1, ctl := x2, host := x3, urz := x4, rng := x5, rest := x6, keys := x7, cls := x8, fab := x9, path := x10, otn := x11, mpu := x12, out := x13, free := x14 } = P s) (s : State) (tt : State) (e : execCoreSupplyUnderVoltage s = .next tt) : P tt = P s := by
  unfold execCoreSupplyUnderVoltage at e; replace e := Host.Outcome.next.inj e; subst e; (repeat' split) <;> simp only [supplyLost_keep P hP, hP]

theorem execThermtripAssert_keep {β : Type} (P : State → β) (hP : ∀ s x0, P { s with power := x0 } = P s) (s : State) (tt : State) (e : execThermtripAssert s = .next tt) : P tt = P s := by
  unfold execThermtripAssert at e; replace e := Host.Outcome.next.inj e; subst e; (repeat' split) <;> simp only [hP]

theorem execServiceResetComplete_keep {β : Type} (P : State → β) (hP : ∀ s x0 x1 x2 x3 x4 x5 x6 x7 x8 x9 x10 x11 x12 x13 x14, Memory.wf x12.hbm = Memory.wf s.mpu.hbm → P { s with time := x0, power := x1, ctl := x2, host := x3, urz := x4, rng := x5, rest := x6, keys := x7, cls := x8, fab := x9, path := x10, otn := x11, mpu := x12, out := x13, free := x14 } = P s) (s : State) (tt : State) (e : execServiceResetComplete s = .next tt) : P tt = P s := by
  unfold execServiceResetComplete at e; replace e := Host.Outcome.next.inj e; subst e; (repeat' split) <;> simp only [dictSettle_keep P hP, serviceEnd_keep P (fun s x0 x1 x2 => hP s s.time x0 s.ctl s.host s.urz s.rng s.rest s.keys x1 s.fab x2 s.otn s.mpu s.out s.free rfl), hP]

end Sys2Proof.Machine
end

