-- ==== Sys2Proof/Laws/Path.lean ====
section
/-! SUPPORT. What the operations on retention banks and edge FIFOs do: they change their own part of the data path and nothing else
(R20, R198, R199). -/
namespace Sys2Proof.Machine

@[simp] theorem edgePass_time (k n : Nat) (s : State) : (edgePass k n s).time = s.time := rfl
@[simp] theorem edgePass_power (k n : Nat) (s : State) : (edgePass k n s).power = s.power := rfl
@[simp] theorem edgePass_ctl (k n : Nat) (s : State) : (edgePass k n s).ctl = s.ctl := rfl
@[simp] theorem edgePass_host (k n : Nat) (s : State) : (edgePass k n s).host = s.host := rfl
@[simp] theorem edgePass_urz (k n : Nat) (s : State) : (edgePass k n s).urz = s.urz := rfl
@[simp] theorem edgePass_rng (k n : Nat) (s : State) : (edgePass k n s).rng = s.rng := rfl
@[simp] theorem edgePass_rest (k n : Nat) (s : State) : (edgePass k n s).rest = s.rest := rfl
@[simp] theorem edgePass_keys (k n : Nat) (s : State) : (edgePass k n s).keys = s.keys := rfl
@[simp] theorem edgePass_cls (k n : Nat) (s : State) : (edgePass k n s).cls = s.cls := rfl
@[simp] theorem edgePass_fab (k n : Nat) (s : State) : (edgePass k n s).fab = s.fab := rfl
@[simp] theorem edgePass_otn (k n : Nat) (s : State) : (edgePass k n s).otn = s.otn := rfl
@[simp] theorem edgePass_mpu (k n : Nat) (s : State) : (edgePass k n s).mpu = s.mpu := rfl
@[simp] theorem edgePass_out (k n : Nat) (s : State) : (edgePass k n s).out = s.out := rfl
@[simp] theorem edgePass_free (k n : Nat) (s : State) : (edgePass k n s).free = s.free := rfl
@[simp] theorem edgePass_pending (k n : Nat) (s : State) : (edgePass k n s).pending = s.pending := rfl
@[simp] theorem edgePass_frames (k n : Nat) (s : State) : (edgePass k n s).path.frames = s.path.frames := rfl
@[simp] theorem edgePass_nextId (k n : Nat) (s : State) : (edgePass k n s).path.nextId = s.path.nextId := rfl
@[simp] theorem edgePass_banks (k n : Nat) (s : State) : (edgePass k n s).path.banks = s.path.banks := rfl
@[simp] theorem edgePass_pds (k n : Nat) (s : State) : (edgePass k n s).path.pds = s.path.pds := rfl
@[simp] theorem edgePass_links (k n : Nat) (s : State) : (edgePass k n s).path.links = s.path.links := rfl
@[simp] theorem edgePass_queues (k n : Nat) (s : State) : (edgePass k n s).path.queues = s.path.queues := rfl
@[simp] theorem edgePass_schedCounters (k n : Nat) (s : State) : (edgePass k n s).path.schedCounters = s.path.schedCounters := rfl
@[simp] theorem edgePass_inject (k n : Nat) (s : State) : (edgePass k n s).path.inject = s.path.inject := rfl
@[simp] theorem edgePass_pools (k n : Nat) (s : State) : (edgePass k n s).path.pools = s.path.pools := rfl
@[simp] theorem edgePass_peak (k n : Nat) (s : State) : (edgePass k n s).path.peak = s.path.peak := rfl
@[simp] theorem edgePass_txSc (k n : Nat) (s : State) : (edgePass k n s).path.txSc = s.path.txSc := rfl
@[simp] theorem edgePass_rxSc (k n : Nat) (s : State) : (edgePass k n s).path.rxSc = s.path.rxSc := rfl

@[simp] theorem setBank_time (b : Nat) (f : Tab (List Nat) → Tab (List Nat)) (s : State) : (setBank b f s).time = s.time := rfl
@[simp] theorem setBank_power (b : Nat) (f : Tab (List Nat) → Tab (List Nat)) (s : State) : (setBank b f s).power = s.power := rfl
@[simp] theorem setBank_ctl (b : Nat) (f : Tab (List Nat) → Tab (List Nat)) (s : State) : (setBank b f s).ctl = s.ctl := rfl
@[simp] theorem setBank_host (b : Nat) (f : Tab (List Nat) → Tab (List Nat)) (s : State) : (setBank b f s).host = s.host := rfl
@[simp] theorem setBank_urz (b : Nat) (f : Tab (List Nat) → Tab (List Nat)) (s : State) : (setBank b f s).urz = s.urz := rfl
@[simp] theorem setBank_rng (b : Nat) (f : Tab (List Nat) → Tab (List Nat)) (s : State) : (setBank b f s).rng = s.rng := rfl
@[simp] theorem setBank_rest (b : Nat) (f : Tab (List Nat) → Tab (List Nat)) (s : State) : (setBank b f s).rest = s.rest := rfl
@[simp] theorem setBank_keys (b : Nat) (f : Tab (List Nat) → Tab (List Nat)) (s : State) : (setBank b f s).keys = s.keys := rfl
@[simp] theorem setBank_cls (b : Nat) (f : Tab (List Nat) → Tab (List Nat)) (s : State) : (setBank b f s).cls = s.cls := rfl
@[simp] theorem setBank_fab (b : Nat) (f : Tab (List Nat) → Tab (List Nat)) (s : State) : (setBank b f s).fab = s.fab := rfl
@[simp] theorem setBank_otn (b : Nat) (f : Tab (List Nat) → Tab (List Nat)) (s : State) : (setBank b f s).otn = s.otn := rfl
@[simp] theorem setBank_mpu (b : Nat) (f : Tab (List Nat) → Tab (List Nat)) (s : State) : (setBank b f s).mpu = s.mpu := rfl
@[simp] theorem setBank_out (b : Nat) (f : Tab (List Nat) → Tab (List Nat)) (s : State) : (setBank b f s).out = s.out := rfl
@[simp] theorem setBank_free (b : Nat) (f : Tab (List Nat) → Tab (List Nat)) (s : State) : (setBank b f s).free = s.free := rfl
@[simp] theorem setBank_pending (b : Nat) (f : Tab (List Nat) → Tab (List Nat)) (s : State) : (setBank b f s).pending = s.pending := rfl
@[simp] theorem setBank_frames (b : Nat) (f : Tab (List Nat) → Tab (List Nat)) (s : State) : (setBank b f s).path.frames = s.path.frames := rfl
@[simp] theorem setBank_nextId (b : Nat) (f : Tab (List Nat) → Tab (List Nat)) (s : State) : (setBank b f s).path.nextId = s.path.nextId := rfl
@[simp] theorem setBank_edges (b : Nat) (f : Tab (List Nat) → Tab (List Nat)) (s : State) : (setBank b f s).path.edges = s.path.edges := rfl
@[simp] theorem setBank_pds (b : Nat) (f : Tab (List Nat) → Tab (List Nat)) (s : State) : (setBank b f s).path.pds = s.path.pds := rfl
@[simp] theorem setBank_links (b : Nat) (f : Tab (List Nat) → Tab (List Nat)) (s : State) : (setBank b f s).path.links = s.path.links := rfl
@[simp] theorem setBank_queues (b : Nat) (f : Tab (List Nat) → Tab (List Nat)) (s : State) : (setBank b f s).path.queues = s.path.queues := rfl
@[simp] theorem setBank_schedCounters (b : Nat) (f : Tab (List Nat) → Tab (List Nat)) (s : State) : (setBank b f s).path.schedCounters = s.path.schedCounters := rfl
@[simp] theorem setBank_inject (b : Nat) (f : Tab (List Nat) → Tab (List Nat)) (s : State) : (setBank b f s).path.inject = s.path.inject := rfl
@[simp] theorem setBank_pools (b : Nat) (f : Tab (List Nat) → Tab (List Nat)) (s : State) : (setBank b f s).path.pools = s.path.pools := rfl
@[simp] theorem setBank_peak (b : Nat) (f : Tab (List Nat) → Tab (List Nat)) (s : State) : (setBank b f s).path.peak = s.path.peak := rfl
@[simp] theorem setBank_txSc (b : Nat) (f : Tab (List Nat) → Tab (List Nat)) (s : State) : (setBank b f s).path.txSc = s.path.txSc := rfl
@[simp] theorem setBank_rxSc (b : Nat) (f : Tab (List Nat) → Tab (List Nat)) (s : State) : (setBank b f s).path.rxSc = s.path.rxSc := rfl

/-- retWrite only changes the banks. -/
theorem retWrite_banks_only (id : Nat) (d : Octets) (s : State) : ∃ w, retWrite id d s = { s with path := { s.path with banks := w } } := by
  unfold retWrite; simp only [List.range, List.range.loop, List.foldl, setBank]; exact ⟨_, rfl⟩
@[simp] theorem retWrite_time (id : Nat) (d : Octets) (s : State) : (retWrite id d s).time = s.time := by obtain ⟨w, h⟩ := retWrite_banks_only id d s; rw [h]
@[simp] theorem retWrite_power (id : Nat) (d : Octets) (s : State) : (retWrite id d s).power = s.power := by obtain ⟨w, h⟩ := retWrite_banks_only id d s; rw [h]
@[simp] theorem retWrite_ctl (id : Nat) (d : Octets) (s : State) : (retWrite id d s).ctl = s.ctl := by obtain ⟨w, h⟩ := retWrite_banks_only id d s; rw [h]
@[simp] theorem retWrite_host (id : Nat) (d : Octets) (s : State) : (retWrite id d s).host = s.host := by obtain ⟨w, h⟩ := retWrite_banks_only id d s; rw [h]
@[simp] theorem retWrite_urz (id : Nat) (d : Octets) (s : State) : (retWrite id d s).urz = s.urz := by obtain ⟨w, h⟩ := retWrite_banks_only id d s; rw [h]
@[simp] theorem retWrite_rng (id : Nat) (d : Octets) (s : State) : (retWrite id d s).rng = s.rng := by obtain ⟨w, h⟩ := retWrite_banks_only id d s; rw [h]
@[simp] theorem retWrite_rest (id : Nat) (d : Octets) (s : State) : (retWrite id d s).rest = s.rest := by obtain ⟨w, h⟩ := retWrite_banks_only id d s; rw [h]
@[simp] theorem retWrite_keys (id : Nat) (d : Octets) (s : State) : (retWrite id d s).keys = s.keys := by obtain ⟨w, h⟩ := retWrite_banks_only id d s; rw [h]
@[simp] theorem retWrite_cls (id : Nat) (d : Octets) (s : State) : (retWrite id d s).cls = s.cls := by obtain ⟨w, h⟩ := retWrite_banks_only id d s; rw [h]
@[simp] theorem retWrite_fab (id : Nat) (d : Octets) (s : State) : (retWrite id d s).fab = s.fab := by obtain ⟨w, h⟩ := retWrite_banks_only id d s; rw [h]
@[simp] theorem retWrite_otn (id : Nat) (d : Octets) (s : State) : (retWrite id d s).otn = s.otn := by obtain ⟨w, h⟩ := retWrite_banks_only id d s; rw [h]
@[simp] theorem retWrite_mpu (id : Nat) (d : Octets) (s : State) : (retWrite id d s).mpu = s.mpu := by obtain ⟨w, h⟩ := retWrite_banks_only id d s; rw [h]
@[simp] theorem retWrite_out (id : Nat) (d : Octets) (s : State) : (retWrite id d s).out = s.out := by obtain ⟨w, h⟩ := retWrite_banks_only id d s; rw [h]
@[simp] theorem retWrite_free (id : Nat) (d : Octets) (s : State) : (retWrite id d s).free = s.free := by obtain ⟨w, h⟩ := retWrite_banks_only id d s; rw [h]
@[simp] theorem retWrite_pending (id : Nat) (d : Octets) (s : State) : (retWrite id d s).pending = s.pending := by obtain ⟨w, h⟩ := retWrite_banks_only id d s; rw [h]
@[simp] theorem retWrite_frames (id : Nat) (d : Octets) (s : State) : (retWrite id d s).path.frames = s.path.frames := by obtain ⟨w, h⟩ := retWrite_banks_only id d s; rw [h]
@[simp] theorem retWrite_nextId (id : Nat) (d : Octets) (s : State) : (retWrite id d s).path.nextId = s.path.nextId := by obtain ⟨w, h⟩ := retWrite_banks_only id d s; rw [h]
@[simp] theorem retWrite_edges (id : Nat) (d : Octets) (s : State) : (retWrite id d s).path.edges = s.path.edges := by obtain ⟨w, h⟩ := retWrite_banks_only id d s; rw [h]
@[simp] theorem retWrite_pds (id : Nat) (d : Octets) (s : State) : (retWrite id d s).path.pds = s.path.pds := by obtain ⟨w, h⟩ := retWrite_banks_only id d s; rw [h]
@[simp] theorem retWrite_links (id : Nat) (d : Octets) (s : State) : (retWrite id d s).path.links = s.path.links := by obtain ⟨w, h⟩ := retWrite_banks_only id d s; rw [h]
@[simp] theorem retWrite_queues (id : Nat) (d : Octets) (s : State) : (retWrite id d s).path.queues = s.path.queues := by obtain ⟨w, h⟩ := retWrite_banks_only id d s; rw [h]
@[simp] theorem retWrite_schedCounters (id : Nat) (d : Octets) (s : State) : (retWrite id d s).path.schedCounters = s.path.schedCounters := by obtain ⟨w, h⟩ := retWrite_banks_only id d s; rw [h]
@[simp] theorem retWrite_inject (id : Nat) (d : Octets) (s : State) : (retWrite id d s).path.inject = s.path.inject := by obtain ⟨w, h⟩ := retWrite_banks_only id d s; rw [h]
@[simp] theorem retWrite_pools (id : Nat) (d : Octets) (s : State) : (retWrite id d s).path.pools = s.path.pools := by obtain ⟨w, h⟩ := retWrite_banks_only id d s; rw [h]
@[simp] theorem retWrite_peak (id : Nat) (d : Octets) (s : State) : (retWrite id d s).path.peak = s.path.peak := by obtain ⟨w, h⟩ := retWrite_banks_only id d s; rw [h]
@[simp] theorem retWrite_txSc (id : Nat) (d : Octets) (s : State) : (retWrite id d s).path.txSc = s.path.txSc := by obtain ⟨w, h⟩ := retWrite_banks_only id d s; rw [h]
@[simp] theorem retWrite_rxSc (id : Nat) (d : Octets) (s : State) : (retWrite id d s).path.rxSc = s.path.rxSc := by obtain ⟨w, h⟩ := retWrite_banks_only id d s; rw [h]

/-- retFree only changes the banks. -/
theorem retFree_banks_only (id : Nat) (s : State) : ∃ w, retFree id s = { s with path := { s.path with banks := w } } := by
  unfold retFree; simp only [List.range, List.range.loop, List.foldl, setBank]; exact ⟨_, rfl⟩
@[simp] theorem retFree_time (id : Nat) (s : State) : (retFree id s).time = s.time := by obtain ⟨w, h⟩ := retFree_banks_only id s; rw [h]
@[simp] theorem retFree_power (id : Nat) (s : State) : (retFree id s).power = s.power := by obtain ⟨w, h⟩ := retFree_banks_only id s; rw [h]
@[simp] theorem retFree_ctl (id : Nat) (s : State) : (retFree id s).ctl = s.ctl := by obtain ⟨w, h⟩ := retFree_banks_only id s; rw [h]
@[simp] theorem retFree_host (id : Nat) (s : State) : (retFree id s).host = s.host := by obtain ⟨w, h⟩ := retFree_banks_only id s; rw [h]
@[simp] theorem retFree_urz (id : Nat) (s : State) : (retFree id s).urz = s.urz := by obtain ⟨w, h⟩ := retFree_banks_only id s; rw [h]
@[simp] theorem retFree_rng (id : Nat) (s : State) : (retFree id s).rng = s.rng := by obtain ⟨w, h⟩ := retFree_banks_only id s; rw [h]
@[simp] theorem retFree_rest (id : Nat) (s : State) : (retFree id s).rest = s.rest := by obtain ⟨w, h⟩ := retFree_banks_only id s; rw [h]
@[simp] theorem retFree_keys (id : Nat) (s : State) : (retFree id s).keys = s.keys := by obtain ⟨w, h⟩ := retFree_banks_only id s; rw [h]
@[simp] theorem retFree_cls (id : Nat) (s : State) : (retFree id s).cls = s.cls := by obtain ⟨w, h⟩ := retFree_banks_only id s; rw [h]
@[simp] theorem retFree_fab (id : Nat) (s : State) : (retFree id s).fab = s.fab := by obtain ⟨w, h⟩ := retFree_banks_only id s; rw [h]
@[simp] theorem retFree_otn (id : Nat) (s : State) : (retFree id s).otn = s.otn := by obtain ⟨w, h⟩ := retFree_banks_only id s; rw [h]
@[simp] theorem retFree_mpu (id : Nat) (s : State) : (retFree id s).mpu = s.mpu := by obtain ⟨w, h⟩ := retFree_banks_only id s; rw [h]
@[simp] theorem retFree_out (id : Nat) (s : State) : (retFree id s).out = s.out := by obtain ⟨w, h⟩ := retFree_banks_only id s; rw [h]
@[simp] theorem retFree_free (id : Nat) (s : State) : (retFree id s).free = s.free := by obtain ⟨w, h⟩ := retFree_banks_only id s; rw [h]
@[simp] theorem retFree_pending (id : Nat) (s : State) : (retFree id s).pending = s.pending := by obtain ⟨w, h⟩ := retFree_banks_only id s; rw [h]
@[simp] theorem retFree_frames (id : Nat) (s : State) : (retFree id s).path.frames = s.path.frames := by obtain ⟨w, h⟩ := retFree_banks_only id s; rw [h]
@[simp] theorem retFree_nextId (id : Nat) (s : State) : (retFree id s).path.nextId = s.path.nextId := by obtain ⟨w, h⟩ := retFree_banks_only id s; rw [h]
@[simp] theorem retFree_edges (id : Nat) (s : State) : (retFree id s).path.edges = s.path.edges := by obtain ⟨w, h⟩ := retFree_banks_only id s; rw [h]
@[simp] theorem retFree_pds (id : Nat) (s : State) : (retFree id s).path.pds = s.path.pds := by obtain ⟨w, h⟩ := retFree_banks_only id s; rw [h]
@[simp] theorem retFree_links (id : Nat) (s : State) : (retFree id s).path.links = s.path.links := by obtain ⟨w, h⟩ := retFree_banks_only id s; rw [h]
@[simp] theorem retFree_queues (id : Nat) (s : State) : (retFree id s).path.queues = s.path.queues := by obtain ⟨w, h⟩ := retFree_banks_only id s; rw [h]
@[simp] theorem retFree_schedCounters (id : Nat) (s : State) : (retFree id s).path.schedCounters = s.path.schedCounters := by obtain ⟨w, h⟩ := retFree_banks_only id s; rw [h]
@[simp] theorem retFree_inject (id : Nat) (s : State) : (retFree id s).path.inject = s.path.inject := by obtain ⟨w, h⟩ := retFree_banks_only id s; rw [h]
@[simp] theorem retFree_pools (id : Nat) (s : State) : (retFree id s).path.pools = s.path.pools := by obtain ⟨w, h⟩ := retFree_banks_only id s; rw [h]
@[simp] theorem retFree_peak (id : Nat) (s : State) : (retFree id s).path.peak = s.path.peak := by obtain ⟨w, h⟩ := retFree_banks_only id s; rw [h]
@[simp] theorem retFree_txSc (id : Nat) (s : State) : (retFree id s).path.txSc = s.path.txSc := by obtain ⟨w, h⟩ := retFree_banks_only id s; rw [h]
@[simp] theorem retFree_rxSc (id : Nat) (s : State) : (retFree id s).path.rxSc = s.path.rxSc := by obtain ⟨w, h⟩ := retFree_banks_only id s; rw [h]

theorem lineOne_unlined (s : State) (p : PD) (w : List Egr) (q : List Egr × Nat) :
    (w.foldl (lineOne s p) q).1.map Egr.unlined = q.1.map Egr.unlined ++ w.map Egr.unlined := by
  induction w generalizing q with
  | nil => simp
  | cons e w ih => rw [List.foldl_cons, ih]; unfold lineOne; split <;> simp [Egr.unlined]

/-- Lining a port's buffer up again changes the instants at which its frames begin and the end of the last, and nothing else. -/
theorem reline_spec (p : PD) (s : State) : ∃ b l, reline p s = updPd p (fun r => { r with buffer := b, lineFree := l }) s ∧ b.map Egr.unlined = (s.pd p).buffer.map Egr.unlined := by
  refine ⟨_, _, rfl, ?_⟩
  rw [List.map_append, lineOne_unlined]
  simp [startedOf, waitingOf, ← List.map_append, List.takeWhile_append_dropWhile]

end Sys2Proof.Machine
end

