-- ==== Sys2Proof/Laws/PerInstr.lean ====
section
/-! SUPPORT. Per command: the queue is not among the parts of the state that the command can change. -/
namespace Sys2Proof.Laws.Queued
open Sys2Proof Sys2Proof.Machine

/-- The table of what commands can change leaves the queue out for this one. -/
def Statement (i : Instr) : Prop := (changes i).contains .pending = false

theorem of (i : Instr) : Statement i := by cases i <;> rfl

theorem gougeParseStart (pd : PD) (cluster : Fin 8) (gouge : Fin 16) (header : Octets) (len : Nat) (parityFails : Fin 3) : Statement (.gougeParseStart pd cluster gouge header len parityFails) := of _
theorem gougeParseTimeout (cluster : Fin 8) (gouge : Fin 16) : Statement (.gougeParseTimeout cluster gouge) := of _
theorem frameAccepted (pd : PD) (rx : Received) : Statement (.frameAccepted pd rx) := of _
theorem pauseReceived (port : Fin 32) (quanta : BitVec 16) : Statement (.pauseReceived port quanta) := of _
theorem pfcReceived (port : Fin 32) (enable : BitVec 8) (times : List (BitVec 16)) : Statement (.pfcReceived port enable times) := of _
theorem pauseTimeExpiry (port : Fin 32) (prio : Option (Fin 8)) : Statement (.pauseTimeExpiry port prio) := of _
theorem classifyFrame (pd : PD) : Statement (.classifyFrame pd) := of _
theorem ruleBlockFill (pd : PD) : Statement (.ruleBlockFill pd) := of _
theorem cutCompileComplete (tree : Compiled) : Statement (.cutCompileComplete tree) := of _
theorem cutRetired (cut : BitVec 8) : Statement (.cutRetired cut) := of _
theorem cutLimitWaitExpiry : Statement (.cutLimitWaitExpiry) := of _
theorem headstockSettle (pd : PD) : Statement (.headstockSettle pd) := of _
theorem dispatchFrame : Statement (.dispatchFrame) := of _
theorem tokenIssue (sp : Fin 28) : Statement (.tokenIssue sp) := of _
theorem tokenComplete (sp : Fin 28) : Statement (.tokenComplete sp) := of _
theorem spindleFault (sp : Fin 28) (check : Check) : Statement (.spindleFault sp check) := of _
theorem tokenWatchdogExpiry (sp : Fin 28) : Statement (.tokenWatchdogExpiry sp) := of _
theorem maskReseedRequest (sp : Fin 28) : Statement (.maskReseedRequest sp) := of _
theorem maskReseedServed (sp : Fin 28) : Statement (.maskReseedServed sp) := of _
theorem maskRatchet (sp : Fin 28) : Statement (.maskRatchet sp) := of _
theorem maskStarvation (sp : Fin 28) : Statement (.maskStarvation sp) := of _
theorem commitEntry (pd : PD) : Statement (.commitEntry pd) := of _
theorem pauseRefresh (port : Fin 32) : Statement (.pauseRefresh port) := of _
theorem injectionDescriptor (ring : Fin 512) (frame : Octets) : Statement (.injectionDescriptor ring frame) := of _
theorem injectedFrameAccepted : Statement (.injectedFrameAccepted) := of _
theorem spillWriteStart (pd : PD) (queue : Fin 1024) : Statement (.spillWriteStart pd queue) := of _
theorem egressSelect (pd : PD) : Statement (.egressSelect pd) := of _
theorem calendarPostingDue (es : Fin 4) (dir : Dir) (queue : Fin 1024) : Statement (.calendarPostingDue es dir queue) := of _
theorem timedLaunch (pd : PD) : Statement (.timedLaunch pd) := of _
theorem frameTransmitted (pd : PD) : Statement (.frameTransmitted pd) := of _
theorem linkReceiveFault (port : Fin 32) (side : Side) (localFault : Bool) : Statement (.linkReceiveFault port side localFault) := of _
theorem linkFaultCleared (port : Fin 32) (side : Side) : Statement (.linkFaultCleared port side) := of _
theorem avsEvaluation (rings : List Nat) : Statement (.avsEvaluation rings) := of _
theorem marginEventClear : Statement (.marginEventClear) := of _
theorem avsCommandAck (read : Option (BitVec 12)) : Statement (.avsCommandAck read) := of _
theorem avsVoltageRead : Statement (.avsVoltageRead) := of _
theorem avsAckTimeout : Statement (.avsAckTimeout) := of _
theorem avsReadbackMismatch : Statement (.avsReadbackMismatch) := of _
theorem avsRetry : Statement (.avsRetry) := of _
theorem lagEvaluation (elapsed : Nat) : Statement (.lagEvaluation elapsed) := of _
theorem rotationStart : Statement (.rotationStart) := of _
theorem spindleKatComplete (sp : Fin 28) (kat : KatRun) (elapsed : Nat) : Statement (.spindleKatComplete sp kat elapsed) := of _
theorem spindleStartTimeout (sp : Fin 28) : Statement (.spindleStartTimeout sp) := of _
theorem spareSeedTimeout (sp : Fin 28) : Statement (.spareSeedTimeout sp) := of _
theorem spareStartRetry (sp : Fin 28) : Statement (.spareStartRetry sp) := of _
theorem spindleDrainComplete (sp : Fin 28) : Statement (.spindleDrainComplete sp) := of _
theorem isolationTimerExpiry (sp : Fin 28) : Statement (.isolationTimerExpiry sp) := of _
theorem spindleDiagnosisComplete (sp : Fin 28) (run : DiagnosisRun) : Statement (.spindleDiagnosisComplete sp run) := of _
theorem diagnosisRetryTimer (sp : Fin 28) : Statement (.diagnosisRetryTimer sp) := of _
theorem spindleIsolate (ses : Fin 128) (sp : Fin 28) : Statement (.spindleIsolate ses sp) := of _
theorem spindleReturn (ses : Fin 128) (sp : Fin 28) : Statement (.spindleReturn ses sp) := of _
theorem spindleInjectFault (ses : Fin 128) (sp : Fin 28) : Statement (.spindleInjectFault ses sp) := of _
theorem lockstepMismatchRestart (half : Half) : Statement (.lockstepMismatchRestart half) := of _
theorem retentionRebuildComplete (bank : Fin 4) : Statement (.retentionRebuildComplete bank) := of _
theorem spindlePark : Statement (.spindlePark) := of _
theorem alignerLock (a : AlignerId) (view : LockView) : Statement (.alignerLock a view) := of _
theorem alignerOof (a : AlignerId) : Statement (.alignerOof a) := of _
theorem alignmentTimerExpiry (a : AlignerId) : Statement (.alignmentTimerExpiry a) := of _
theorem defectDeclared (d : DefectId) : Statement (.defectDeclared d) := of _
theorem defectCleared (d : DefectId) : Statement (.defectCleared d) := of _
theorem tributaryRemapDue (t : Fin 256) (dir : Dir) (elapsed : Nat) : Statement (.tributaryRemapDue t dir elapsed) := of _
theorem pmSecondTick (obs : SecondObs) : Statement (.pmSecondTick obs) := of _
theorem pmBinEnd (day : Bool) : Statement (.pmBinEnd day) := of _
theorem pmBinComplete (day : Bool) : Statement (.pmBinComplete day) := of _
theorem keyLoadBlob (ses : Fin 128) (target : BitVec 16) (blob : Octets) (chucks : ChuckRun) : Statement (.keyLoadBlob ses target blob chucks) := of _
theorem keyLoadBlobStore (ses : Fin 128) (target : BitVec 16) (index : BitVec 32) (chucks : ChuckRun) : Statement (.keyLoadBlobStore ses target index chucks) := of _
theorem keyDerive (ses : Fin 128) (target source : BitVec 16) (prf ctrWidth lenWidth : BitVec 8) (label context attr : Octets) (chucks : ChuckRun) : Statement (.keyDerive ses target source prf ctrWidth lenWidth label context attr chucks) := of _
theorem keyGenerate (ses : Fin 128) (target : BitVec 16) (attr : Octets) (chucks : ChuckRun) : Statement (.keyGenerate ses target attr chucks) := of _
theorem keyExport (ses : Fin 128) (source wrapping : BitVec 16) (format : BitVec 8) (chucks : ChuckRun) : Statement (.keyExport ses source wrapping format chucks) := of _
theorem keyImportBare (ses : Fin 128) (target kek : BitVec 16) (attr wrapped : Octets) (chucks : ChuckRun) : Statement (.keyImportBare ses target kek attr wrapped chucks) := of _
theorem keyDelete (ses : Fin 128) (target : BitVec 16) : Statement (.keyDelete ses target) := of _
theorem keyLoadSa (ses : Fin 128) (store : BitVec 32) (sa slot : BitVec 16) (chucks : ChuckRun) : Statement (.keyLoadSa ses store sa slot chucks) := of _
theorem chuckMirrorRebuildComplete (chuckB : Bool) : Statement (.chuckMirrorRebuildComplete chuckB) := of _
theorem ownershipTake (ses : Fin 128) (command : Octets) : Statement (.ownershipTake ses command) := of _
theorem ownershipTransfer (ses : Fin 128) (command : Octets) : Statement (.ownershipTransfer ses command) := of _
theorem ownershipRelease (ses : Fin 128) (command : Octets) : Statement (.ownershipRelease ses command) := of _
theorem enrollmentOpen (ses : Fin 128) (nk : Octets) : Statement (.enrollmentOpen ses nk) := of _
theorem enrollmentRequest (ses : Fin 128) (request : Octets) (chucks : ChuckRun) : Statement (.enrollmentRequest ses request chucks) := of _
theorem enrollmentSessionTimeout : Statement (.enrollmentSessionTimeout) := of _
theorem slotScrub (bad : List (BitVec 16 × Bool)) : Statement (.slotScrub bad) := of _
theorem slotReferenceReleased (target : BitVec 16) : Statement (.slotReferenceReleased target) := of _
theorem saRetireComplete (sa : Fin 32768) : Statement (.saRetireComplete sa) := of _
theorem rolloverDue (user : RollUser) : Statement (.rolloverDue user) := of _
theorem guardWindowEnd (user : RollUser) : Statement (.guardWindowEnd user) := of _
theorem chainLoad (user : RollUser) (chucks : ChuckRun) : Statement (.chainLoad user chucks) := of _
theorem keyExpiryCheck : Statement (.keyExpiryCheck) := of _
theorem zeroizePinAsserted : Statement (.zeroizePinAsserted) := of _
theorem zeroizePinDeasserted : Statement (.zeroizePinDeasserted) := of _
theorem zeroizeDataKeys (ses : Fin 128) : Statement (.zeroizeDataKeys ses) := of _
theorem zeroizeWholePart (ses : Fin 128) : Statement (.zeroizeWholePart ses) := of _
theorem ptpOwnClockFrame : Statement (.ptpOwnClockFrame) := of _
theorem delayReqSend : Statement (.delayReqSend) := of _
theorem followUpTimeout : Statement (.followUpTimeout) := of _
theorem delayRespTimeout : Statement (.delayRespTimeout) := of _
theorem syncTimeout : Statement (.syncTimeout) := of _
theorem setTime (ses : Fin 128) (time96 : Octets) : Statement (.setTime ses time96) := of _
theorem adjustTime (ses : Fin 128) (amount : BitVec 64) : Statement (.adjustTime ses amount) := of _
theorem toolRestSecondsWrite : Statement (.toolRestSecondsWrite) := of _
theorem slotOccurrence (slot : Fin 16) : Statement (.slotOccurrence slot) := of _
theorem slotPulseEnd (pin : Fin 4) : Statement (.slotPulseEnd pin) := of _
theorem pinCaptureEdge (pin : Fin 4) (rising : Bool) : Statement (.pinCaptureEdge pin rising) := of _
theorem captureFifoRead (ses : Fin 128) (pin : Fin 4) : Statement (.captureFifoRead ses pin) := of _
theorem mpuRead (addr : BitVec 48) (lines : Fin 9) : Statement (.mpuRead addr lines) := of _
theorem mpuWrite (addr : BitVec 48) (data : Octets) : Statement (.mpuWrite addr data) := of _
theorem metadataEviction (line : Fin 1331200) : Statement (.metadataEviction line) := of _
theorem blockAllocate (key : BitVec 4) (block : Fin 1310720) : Statement (.blockAllocate key block) := of _
theorem patrolScrub (line : Fin 83886080) : Statement (.patrolScrub line) := of _
theorem faultInjection (ses : Fin 128) (record : Octets) : Statement (.faultInjection ses record) := of _
theorem rawViewRead (ses : Fin 128) (addr : BitVec 64) : Statement (.rawViewRead ses addr) := of _
theorem conditionedBlockReady (source : Fin 8) (raw : Octets) : Statement (.conditionedBlockReady source raw) := of _
theorem sourceHealthFailure (source : Fin 8) (test : HealthTest) : Statement (.sourceHealthFailure source test) := of _
theorem sourceStartupComplete (source : Fin 8) (raw : Octets) : Statement (.sourceStartupComplete source raw) := of _
theorem sourceRetest (source : Fin 8) : Statement (.sourceRetest source) := of _
theorem sourceFailuresCleared (source : Fin 8) : Statement (.sourceFailuresCleared source) := of _
theorem expanderReseed : Statement (.expanderReseed) := of _
theorem rngRequestServed : Statement (.rngRequestServed) := of _
theorem rngRequestTimeout : Statement (.rngRequestTimeout) := of _
theorem expanderFault (half : Fin 2) : Statement (.expanderFault half) := of _
theorem rngHalfRestartComplete (half : Fin 2) : Statement (.rngHalfRestartComplete half) := of _
theorem rngDataRead (wide : Bool) (stall : BitVec 16) : Statement (.rngDataRead wide stall) := of _
theorem conditionerKat (ses : Fin 128) (input : Octets) : Statement (.conditionerKat ses input) := of _
theorem expanderKat (ses : Fin 128) (vector : Octets) : Statement (.expanderKat ses vector) := of _
theorem rawCapture (ses : Fin 128) (source : Fin 8) : Statement (.rawCapture ses source) := of _
theorem rawCaptureComplete (data : Octets) : Statement (.rawCaptureComplete data) := of _
theorem toolRestSample (obs : List SensorObs) (temps : List Int) (supplies : List Nat) : Statement (.toolRestSample obs temps supplies) := of _
theorem sensorAlarmImmediate (obs : SensorObs) : Statement (.sensorAlarmImmediate obs) := of _
theorem decisionWindowClose : Statement (.decisionWindowClose) := of _
theorem shadowScan (bad : List (Fin 8 × BitVec 32)) : Statement (.shadowScan bad) := of _
theorem toolRestRestart : Statement (.toolRestRestart) := of _
theorem unlockToken (ses : Fin 128) (token : Octets) : Statement (.unlockToken ses token) := of _
theorem debugToken (ses : Fin 128) (token : Octets) : Statement (.debugToken ses token) := of _
theorem tokenHoldoffEnd : Statement (.tokenHoldoffEnd) := of _
theorem debugPowerOn (ses : Fin 128) : Statement (.debugPowerOn ses) := of _
theorem debugPowerOff (ses : Fin 128) : Statement (.debugPowerOff ses) := of _
theorem coalesceSecondEnd : Statement (.coalesceSecondEnd) := of _
theorem logExportReminder : Statement (.logExportReminder) := of _
theorem exportSegmentFormed : Statement (.exportSegmentFormed) := of _
theorem exportAcknowledge (ses : Fin 128) (segment : BitVec 16) (last : BitVec 64) : Statement (.exportAcknowledge ses segment last) := of _
theorem counterAdvance (ses : Fin 128) (counter : BitVec 8) (value : BitVec 32) : Statement (.counterAdvance ses counter value) := of _
theorem dictionaryWrite (ses : Fin 128) (flags : BitVec 8) (index : BitVec 16) (sub : BitVec 8) (offset : BitVec 32) (data : Octets) : Statement (.dictionaryWrite ses flags index sub offset data) := of _
theorem snapshotRead (ses : Fin 128) (index : BitVec 16) (sub : BitVec 8) (len : BitVec 16) : Statement (.snapshotRead ses index sub len) := of _
theorem snapshotExpiry (ses : Fin 128) (index : BitVec 16) (sub : BitVec 8) : Statement (.snapshotExpiry ses index sub) := of _
theorem commit (ses : Fin 128) (generation : BitVec 64) (chucks : ChuckRun) : Statement (.commit ses generation chucks) := of _
theorem discardStaging (ses : Fin 128) : Statement (.discardStaging ses) := of _
theorem savePersistentImage (ses : Fin 128) : Statement (.savePersistentImage ses) := of _
theorem imageSaveComplete (ok : Bool) : Statement (.imageSaveComplete ok) := of _
theorem doorbellWrite (ring : Fin 1120) (index : BitVec 32) (dma : List (Octets × Octets)) : Statement (.doorbellWrite ring index dma) := of _
theorem moderationTimerExpiry (ring : Fin 1120) : Statement (.moderationTimerExpiry ring) := of _
theorem functionLevelReset : Statement (.functionLevelReset) := of _
theorem urzidunFrameReceived : Statement (.urzidunFrameReceived) := of _
theorem urzidunOpen : Statement (.urzidunOpen) := of _
theorem urzidunRequest : Statement (.urzidunRequest) := of _
theorem urzidunClose : Statement (.urzidunClose) := of _
theorem urzidunSessionTimeout (slot : Fin 64) : Statement (.urzidunSessionTimeout slot) := of _
theorem heartbeatSend (pd : PD) : Statement (.heartbeatSend pd) := of _
theorem heartbeatReceived : Statement (.heartbeatReceived) := of _
theorem peerAbsentTimeout (pd : PD) : Statement (.peerAbsentTimeout pd) := of _
theorem controllerFault : Statement (.controllerFault) := of _
theorem progressMarkTimeout : Statement (.progressMarkTimeout) := of _
theorem controllerStartComplete (ok : Bool) : Statement (.controllerStartComplete ok) := of _
theorem controllerDiagnosisComplete (ctlB : Bool) (pass : Bool) : Statement (.controllerDiagnosisComplete ctlB pass) := of _
theorem powerGoodAsserted (byResetN : Bool) (sramIntact : Bool) : Statement (.powerGoodAsserted byResetN sramIntact) := of _
theorem resetAsserted (pwrgoodFell : Bool) : Statement (.resetAsserted pwrgoodFell) := of _
theorem initComplete (ok : Bool) : Statement (.initComplete ok) := of _
theorem hbmTrainingComplete (stack : Fin 2) (pass : Bool) : Statement (.hbmTrainingComplete stack pass) := of _
theorem generatorReady (kat : List KatRun) : Statement (.generatorReady kat) := of _
theorem randomWaitTimeout : Statement (.randomWaitTimeout) := of _
theorem imageRestore : Statement (.imageRestore) := of _
theorem serviceReset (ses : Fin 128) : Statement (.serviceReset ses) := of _
theorem coldReset (ses : Fin 128) : Statement (.coldReset ses) := of _
theorem coldResetDelayExpiry : Statement (.coldResetDelayExpiry) := of _
theorem drainComplete : Statement (.drainComplete) := of _
theorem drainTimeout : Statement (.drainTimeout) := of _
theorem domainPowerRequest (ses : Fin 128) (domain : Fin 80) (value : BitVec 8) : Statement (.domainPowerRequest ses domain value) := of _
theorem domainReset (ses : Option (Fin 128)) (domain : Fin 80) : Statement (.domainReset ses domain) := of _
theorem thermtripAssert : Statement (.thermtripAssert) := of _
theorem outOfMultiframe (a : AlignerId) : Statement (.outOfMultiframe a) := of _
theorem remoteFaultReceived (port : Fin 32) (side : Side) (present : Bool) : Statement (.remoteFaultReceived port side present) := of _
theorem rwcBitClearWrite (ses : Fin 128) (index : BitVec 16) (sub : BitVec 8) (data : Octets) : Statement (.rwcBitClearWrite ses index sub data) := of _
theorem sinceLastReadStatusRead (ses : Fin 128) (index : BitVec 16) (sub : BitVec 8) : Statement (.sinceLastReadStatusRead ses index sub) := of _
theorem domainRestartComplete (domain : Fin 80) : Statement (.domainRestartComplete domain) := of _
theorem serviceResetComplete : Statement (.serviceResetComplete) := of _
theorem zeroizationComplete : Statement (.zeroizationComplete) := of _
theorem coreSupplyUnderVoltage : Statement (.coreSupplyUnderVoltage) := of _

end Sys2Proof.Laws.Queued
end

