-- ==== Sys2Proof/Laws/State.lean ====
section
/-! SUPPORT. What each primitive update of the state does: the record it changes, the other records of the same kind, and every other field
of the state. -/
namespace Sys2Proof.Machine

@[simp] theorem updRing_time (r : Nat) (f : Ring → Ring) (s : State) : (updRing r f s).time = s.time := rfl
@[simp] theorem updRing_power (r : Nat) (f : Ring → Ring) (s : State) : (updRing r f s).power = s.power := rfl
@[simp] theorem updRing_ctl (r : Nat) (f : Ring → Ring) (s : State) : (updRing r f s).ctl = s.ctl := rfl
@[simp] theorem updRing_urz (r : Nat) (f : Ring → Ring) (s : State) : (updRing r f s).urz = s.urz := rfl
@[simp] theorem updRing_rng (r : Nat) (f : Ring → Ring) (s : State) : (updRing r f s).rng = s.rng := rfl
@[simp] theorem updRing_rest (r : Nat) (f : Ring → Ring) (s : State) : (updRing r f s).rest = s.rest := rfl
@[simp] theorem updRing_keys (r : Nat) (f : Ring → Ring) (s : State) : (updRing r f s).keys = s.keys := rfl
@[simp] theorem updRing_cls (r : Nat) (f : Ring → Ring) (s : State) : (updRing r f s).cls = s.cls := rfl
@[simp] theorem updRing_fab (r : Nat) (f : Ring → Ring) (s : State) : (updRing r f s).fab = s.fab := rfl
@[simp] theorem updRing_path (r : Nat) (f : Ring → Ring) (s : State) : (updRing r f s).path = s.path := rfl
@[simp] theorem updRing_otn (r : Nat) (f : Ring → Ring) (s : State) : (updRing r f s).otn = s.otn := rfl
@[simp] theorem updRing_mpu (r : Nat) (f : Ring → Ring) (s : State) : (updRing r f s).mpu = s.mpu := rfl
@[simp] theorem updRing_out (r : Nat) (f : Ring → Ring) (s : State) : (updRing r f s).out = s.out := rfl
@[simp] theorem updRing_free (r : Nat) (f : Ring → Ring) (s : State) : (updRing r f s).free = s.free := rfl
@[simp] theorem updRing_pending (r : Nat) (f : Ring → Ring) (s : State) : (updRing r f s).pending = s.pending := rfl
@[simp] theorem updRing_get (r j : Nat) (f : Ring → Ring) (s : State) : (updRing r f s).ring j = if j = r then f (s.ring r) else s.ring j := Tab.get_upd _ _ _ _ _ _

@[simp] theorem updSession_time (k : Nat) (f : Session → Session) (s : State) : (updSession k f s).time = s.time := rfl
@[simp] theorem updSession_power (k : Nat) (f : Session → Session) (s : State) : (updSession k f s).power = s.power := rfl
@[simp] theorem updSession_host (k : Nat) (f : Session → Session) (s : State) : (updSession k f s).host = s.host := rfl
@[simp] theorem updSession_urz (k : Nat) (f : Session → Session) (s : State) : (updSession k f s).urz = s.urz := rfl
@[simp] theorem updSession_rng (k : Nat) (f : Session → Session) (s : State) : (updSession k f s).rng = s.rng := rfl
@[simp] theorem updSession_rest (k : Nat) (f : Session → Session) (s : State) : (updSession k f s).rest = s.rest := rfl
@[simp] theorem updSession_keys (k : Nat) (f : Session → Session) (s : State) : (updSession k f s).keys = s.keys := rfl
@[simp] theorem updSession_cls (k : Nat) (f : Session → Session) (s : State) : (updSession k f s).cls = s.cls := rfl
@[simp] theorem updSession_fab (k : Nat) (f : Session → Session) (s : State) : (updSession k f s).fab = s.fab := rfl
@[simp] theorem updSession_path (k : Nat) (f : Session → Session) (s : State) : (updSession k f s).path = s.path := rfl
@[simp] theorem updSession_otn (k : Nat) (f : Session → Session) (s : State) : (updSession k f s).otn = s.otn := rfl
@[simp] theorem updSession_mpu (k : Nat) (f : Session → Session) (s : State) : (updSession k f s).mpu = s.mpu := rfl
@[simp] theorem updSession_out (k : Nat) (f : Session → Session) (s : State) : (updSession k f s).out = s.out := rfl
@[simp] theorem updSession_free (k : Nat) (f : Session → Session) (s : State) : (updSession k f s).free = s.free := rfl
@[simp] theorem updSession_pending (k : Nat) (f : Session → Session) (s : State) : (updSession k f s).pending = s.pending := rfl
@[simp] theorem updSession_get (k j : Nat) (f : Session → Session) (s : State) : (updSession k f s).session j = if j = k then f (s.session k) else s.session j := Tab.get_upd _ _ _ _ _ _

@[simp] theorem updSource_time (k : Nat) (f : Source → Source) (s : State) : (updSource k f s).time = s.time := rfl
@[simp] theorem updSource_power (k : Nat) (f : Source → Source) (s : State) : (updSource k f s).power = s.power := rfl
@[simp] theorem updSource_ctl (k : Nat) (f : Source → Source) (s : State) : (updSource k f s).ctl = s.ctl := rfl
@[simp] theorem updSource_host (k : Nat) (f : Source → Source) (s : State) : (updSource k f s).host = s.host := rfl
@[simp] theorem updSource_urz (k : Nat) (f : Source → Source) (s : State) : (updSource k f s).urz = s.urz := rfl
@[simp] theorem updSource_rest (k : Nat) (f : Source → Source) (s : State) : (updSource k f s).rest = s.rest := rfl
@[simp] theorem updSource_keys (k : Nat) (f : Source → Source) (s : State) : (updSource k f s).keys = s.keys := rfl
@[simp] theorem updSource_cls (k : Nat) (f : Source → Source) (s : State) : (updSource k f s).cls = s.cls := rfl
@[simp] theorem updSource_fab (k : Nat) (f : Source → Source) (s : State) : (updSource k f s).fab = s.fab := rfl
@[simp] theorem updSource_path (k : Nat) (f : Source → Source) (s : State) : (updSource k f s).path = s.path := rfl
@[simp] theorem updSource_otn (k : Nat) (f : Source → Source) (s : State) : (updSource k f s).otn = s.otn := rfl
@[simp] theorem updSource_mpu (k : Nat) (f : Source → Source) (s : State) : (updSource k f s).mpu = s.mpu := rfl
@[simp] theorem updSource_out (k : Nat) (f : Source → Source) (s : State) : (updSource k f s).out = s.out := rfl
@[simp] theorem updSource_free (k : Nat) (f : Source → Source) (s : State) : (updSource k f s).free = s.free := rfl
@[simp] theorem updSource_pending (k : Nat) (f : Source → Source) (s : State) : (updSource k f s).pending = s.pending := rfl
@[simp] theorem updSource_get (k j : Nat) (f : Source → Source) (s : State) : (updSource k f s).rng.source j = if j = k then f (s.rng.source k) else s.rng.source j := Tab.get_upd _ _ _ _ _ _

@[simp] theorem updSp_time (i : Nat) (f : Spindle → Spindle) (s : State) : (updSp i f s).time = s.time := rfl
@[simp] theorem updSp_power (i : Nat) (f : Spindle → Spindle) (s : State) : (updSp i f s).power = s.power := rfl
@[simp] theorem updSp_ctl (i : Nat) (f : Spindle → Spindle) (s : State) : (updSp i f s).ctl = s.ctl := rfl
@[simp] theorem updSp_host (i : Nat) (f : Spindle → Spindle) (s : State) : (updSp i f s).host = s.host := rfl
@[simp] theorem updSp_urz (i : Nat) (f : Spindle → Spindle) (s : State) : (updSp i f s).urz = s.urz := rfl
@[simp] theorem updSp_rng (i : Nat) (f : Spindle → Spindle) (s : State) : (updSp i f s).rng = s.rng := rfl
@[simp] theorem updSp_rest (i : Nat) (f : Spindle → Spindle) (s : State) : (updSp i f s).rest = s.rest := rfl
@[simp] theorem updSp_keys (i : Nat) (f : Spindle → Spindle) (s : State) : (updSp i f s).keys = s.keys := rfl
@[simp] theorem updSp_cls (i : Nat) (f : Spindle → Spindle) (s : State) : (updSp i f s).cls = s.cls := rfl
@[simp] theorem updSp_path (i : Nat) (f : Spindle → Spindle) (s : State) : (updSp i f s).path = s.path := rfl
@[simp] theorem updSp_otn (i : Nat) (f : Spindle → Spindle) (s : State) : (updSp i f s).otn = s.otn := rfl
@[simp] theorem updSp_mpu (i : Nat) (f : Spindle → Spindle) (s : State) : (updSp i f s).mpu = s.mpu := rfl
@[simp] theorem updSp_out (i : Nat) (f : Spindle → Spindle) (s : State) : (updSp i f s).out = s.out := rfl
@[simp] theorem updSp_free (i : Nat) (f : Spindle → Spindle) (s : State) : (updSp i f s).free = s.free := rfl
@[simp] theorem updSp_pending (i : Nat) (f : Spindle → Spindle) (s : State) : (updSp i f s).pending = s.pending := rfl
@[simp] theorem updSp_get (i j : Nat) (f : Spindle → Spindle) (s : State) : (updSp i f s).spindle j = if j = i then f (s.spindle i) else s.spindle j := Tab.get_upd _ _ _ _ _ _

@[simp] theorem updTr_time (i : Nat) (f : Trib → Trib) (s : State) : (updTr i f s).time = s.time := rfl
@[simp] theorem updTr_power (i : Nat) (f : Trib → Trib) (s : State) : (updTr i f s).power = s.power := rfl
@[simp] theorem updTr_ctl (i : Nat) (f : Trib → Trib) (s : State) : (updTr i f s).ctl = s.ctl := rfl
@[simp] theorem updTr_host (i : Nat) (f : Trib → Trib) (s : State) : (updTr i f s).host = s.host := rfl
@[simp] theorem updTr_urz (i : Nat) (f : Trib → Trib) (s : State) : (updTr i f s).urz = s.urz := rfl
@[simp] theorem updTr_rng (i : Nat) (f : Trib → Trib) (s : State) : (updTr i f s).rng = s.rng := rfl
@[simp] theorem updTr_rest (i : Nat) (f : Trib → Trib) (s : State) : (updTr i f s).rest = s.rest := rfl
@[simp] theorem updTr_keys (i : Nat) (f : Trib → Trib) (s : State) : (updTr i f s).keys = s.keys := rfl
@[simp] theorem updTr_cls (i : Nat) (f : Trib → Trib) (s : State) : (updTr i f s).cls = s.cls := rfl
@[simp] theorem updTr_fab (i : Nat) (f : Trib → Trib) (s : State) : (updTr i f s).fab = s.fab := rfl
@[simp] theorem updTr_path (i : Nat) (f : Trib → Trib) (s : State) : (updTr i f s).path = s.path := rfl
@[simp] theorem updTr_mpu (i : Nat) (f : Trib → Trib) (s : State) : (updTr i f s).mpu = s.mpu := rfl
@[simp] theorem updTr_out (i : Nat) (f : Trib → Trib) (s : State) : (updTr i f s).out = s.out := rfl
@[simp] theorem updTr_free (i : Nat) (f : Trib → Trib) (s : State) : (updTr i f s).free = s.free := rfl
@[simp] theorem updTr_pending (i : Nat) (f : Trib → Trib) (s : State) : (updTr i f s).pending = s.pending := rfl
@[simp] theorem updTr_get (i j : Nat) (f : Trib → Trib) (s : State) : (updTr i f s).tr j = if j = i then f (s.tr i) else s.tr j := Tab.get_upd _ _ _ _ _ _

@[simp] theorem updSc_time (i : Nat) (f : Sc → Sc) (s : State) : (updSc i f s).time = s.time := rfl
@[simp] theorem updSc_power (i : Nat) (f : Sc → Sc) (s : State) : (updSc i f s).power = s.power := rfl
@[simp] theorem updSc_ctl (i : Nat) (f : Sc → Sc) (s : State) : (updSc i f s).ctl = s.ctl := rfl
@[simp] theorem updSc_host (i : Nat) (f : Sc → Sc) (s : State) : (updSc i f s).host = s.host := rfl
@[simp] theorem updSc_urz (i : Nat) (f : Sc → Sc) (s : State) : (updSc i f s).urz = s.urz := rfl
@[simp] theorem updSc_rng (i : Nat) (f : Sc → Sc) (s : State) : (updSc i f s).rng = s.rng := rfl
@[simp] theorem updSc_rest (i : Nat) (f : Sc → Sc) (s : State) : (updSc i f s).rest = s.rest := rfl
@[simp] theorem updSc_cls (i : Nat) (f : Sc → Sc) (s : State) : (updSc i f s).cls = s.cls := rfl
@[simp] theorem updSc_fab (i : Nat) (f : Sc → Sc) (s : State) : (updSc i f s).fab = s.fab := rfl
@[simp] theorem updSc_path (i : Nat) (f : Sc → Sc) (s : State) : (updSc i f s).path = s.path := rfl
@[simp] theorem updSc_otn (i : Nat) (f : Sc → Sc) (s : State) : (updSc i f s).otn = s.otn := rfl
@[simp] theorem updSc_mpu (i : Nat) (f : Sc → Sc) (s : State) : (updSc i f s).mpu = s.mpu := rfl
@[simp] theorem updSc_out (i : Nat) (f : Sc → Sc) (s : State) : (updSc i f s).out = s.out := rfl
@[simp] theorem updSc_free (i : Nat) (f : Sc → Sc) (s : State) : (updSc i f s).free = s.free := rfl
@[simp] theorem updSc_pending (i : Nat) (f : Sc → Sc) (s : State) : (updSc i f s).pending = s.pending := rfl
@[simp] theorem updSc_get (i j : Nat) (f : Sc → Sc) (s : State) : (updSc i f s).sc j = if j = i then f (s.sc i) else s.sc j := Tab.get_upd _ _ _ _ _ _

@[simp] theorem updLink_time (n : Nat) (f : Link → Link) (s : State) : (updLink n f s).time = s.time := rfl
@[simp] theorem updLink_power (n : Nat) (f : Link → Link) (s : State) : (updLink n f s).power = s.power := rfl
@[simp] theorem updLink_ctl (n : Nat) (f : Link → Link) (s : State) : (updLink n f s).ctl = s.ctl := rfl
@[simp] theorem updLink_host (n : Nat) (f : Link → Link) (s : State) : (updLink n f s).host = s.host := rfl
@[simp] theorem updLink_urz (n : Nat) (f : Link → Link) (s : State) : (updLink n f s).urz = s.urz := rfl
@[simp] theorem updLink_rng (n : Nat) (f : Link → Link) (s : State) : (updLink n f s).rng = s.rng := rfl
@[simp] theorem updLink_rest (n : Nat) (f : Link → Link) (s : State) : (updLink n f s).rest = s.rest := rfl
@[simp] theorem updLink_keys (n : Nat) (f : Link → Link) (s : State) : (updLink n f s).keys = s.keys := rfl
@[simp] theorem updLink_cls (n : Nat) (f : Link → Link) (s : State) : (updLink n f s).cls = s.cls := rfl
@[simp] theorem updLink_fab (n : Nat) (f : Link → Link) (s : State) : (updLink n f s).fab = s.fab := rfl
@[simp] theorem updLink_otn (n : Nat) (f : Link → Link) (s : State) : (updLink n f s).otn = s.otn := rfl
@[simp] theorem updLink_mpu (n : Nat) (f : Link → Link) (s : State) : (updLink n f s).mpu = s.mpu := rfl
@[simp] theorem updLink_out (n : Nat) (f : Link → Link) (s : State) : (updLink n f s).out = s.out := rfl
@[simp] theorem updLink_free (n : Nat) (f : Link → Link) (s : State) : (updLink n f s).free = s.free := rfl
@[simp] theorem updLink_pending (n : Nat) (f : Link → Link) (s : State) : (updLink n f s).pending = s.pending := rfl
@[simp] theorem updLink_get (n j : Nat) (f : Link → Link) (s : State) : (updLink n f s).link j = if j = n then f (s.link n) else s.link j := Tab.get_upd _ _ _ _ _ _

@[simp] theorem updTslot_power (i : Nat) (f : Slot → Slot) (s : State) : (updTslot i f s).power = s.power := rfl
@[simp] theorem updTslot_ctl (i : Nat) (f : Slot → Slot) (s : State) : (updTslot i f s).ctl = s.ctl := rfl
@[simp] theorem updTslot_host (i : Nat) (f : Slot → Slot) (s : State) : (updTslot i f s).host = s.host := rfl
@[simp] theorem updTslot_urz (i : Nat) (f : Slot → Slot) (s : State) : (updTslot i f s).urz = s.urz := rfl
@[simp] theorem updTslot_rng (i : Nat) (f : Slot → Slot) (s : State) : (updTslot i f s).rng = s.rng := rfl
@[simp] theorem updTslot_rest (i : Nat) (f : Slot → Slot) (s : State) : (updTslot i f s).rest = s.rest := rfl
@[simp] theorem updTslot_keys (i : Nat) (f : Slot → Slot) (s : State) : (updTslot i f s).keys = s.keys := rfl
@[simp] theorem updTslot_cls (i : Nat) (f : Slot → Slot) (s : State) : (updTslot i f s).cls = s.cls := rfl
@[simp] theorem updTslot_fab (i : Nat) (f : Slot → Slot) (s : State) : (updTslot i f s).fab = s.fab := rfl
@[simp] theorem updTslot_path (i : Nat) (f : Slot → Slot) (s : State) : (updTslot i f s).path = s.path := rfl
@[simp] theorem updTslot_otn (i : Nat) (f : Slot → Slot) (s : State) : (updTslot i f s).otn = s.otn := rfl
@[simp] theorem updTslot_mpu (i : Nat) (f : Slot → Slot) (s : State) : (updTslot i f s).mpu = s.mpu := rfl
@[simp] theorem updTslot_out (i : Nat) (f : Slot → Slot) (s : State) : (updTslot i f s).out = s.out := rfl
@[simp] theorem updTslot_free (i : Nat) (f : Slot → Slot) (s : State) : (updTslot i f s).free = s.free := rfl
@[simp] theorem updTslot_pending (i : Nat) (f : Slot → Slot) (s : State) : (updTslot i f s).pending = s.pending := rfl
@[simp] theorem updTslot_get (i j : Nat) (f : Slot → Slot) (s : State) : (updTslot i f s).tslot j = if j = i then f (s.tslot i) else s.tslot j := Tab.get_upd _ _ _ _ _ _

@[simp] theorem updPd_time (p : PD) (f : PortDir → PortDir) (s : State) : (updPd p f s).time = s.time := rfl
@[simp] theorem updPd_power (p : PD) (f : PortDir → PortDir) (s : State) : (updPd p f s).power = s.power := rfl
@[simp] theorem updPd_ctl (p : PD) (f : PortDir → PortDir) (s : State) : (updPd p f s).ctl = s.ctl := rfl
@[simp] theorem updPd_host (p : PD) (f : PortDir → PortDir) (s : State) : (updPd p f s).host = s.host := rfl
@[simp] theorem updPd_urz (p : PD) (f : PortDir → PortDir) (s : State) : (updPd p f s).urz = s.urz := rfl
@[simp] theorem updPd_rng (p : PD) (f : PortDir → PortDir) (s : State) : (updPd p f s).rng = s.rng := rfl
@[simp] theorem updPd_rest (p : PD) (f : PortDir → PortDir) (s : State) : (updPd p f s).rest = s.rest := rfl
@[simp] theorem updPd_keys (p : PD) (f : PortDir → PortDir) (s : State) : (updPd p f s).keys = s.keys := rfl
@[simp] theorem updPd_cls (p : PD) (f : PortDir → PortDir) (s : State) : (updPd p f s).cls = s.cls := rfl
@[simp] theorem updPd_fab (p : PD) (f : PortDir → PortDir) (s : State) : (updPd p f s).fab = s.fab := rfl
@[simp] theorem updPd_otn (p : PD) (f : PortDir → PortDir) (s : State) : (updPd p f s).otn = s.otn := rfl
@[simp] theorem updPd_mpu (p : PD) (f : PortDir → PortDir) (s : State) : (updPd p f s).mpu = s.mpu := rfl
@[simp] theorem updPd_out (p : PD) (f : PortDir → PortDir) (s : State) : (updPd p f s).out = s.out := rfl
@[simp] theorem updPd_free (p : PD) (f : PortDir → PortDir) (s : State) : (updPd p f s).free = s.free := rfl
@[simp] theorem updPd_pending (p : PD) (f : PortDir → PortDir) (s : State) : (updPd p f s).pending = s.pending := rfl
@[simp] theorem PD.key_eq (p q : PD) : p.key = q.key ↔ p = q := by
  constructor
  · intro h
    obtain ⟨⟨a, ha⟩, d⟩ := p; obtain ⟨⟨b, hb⟩, e⟩ := q
    cases d <;> cases e <;> simp [PD.key, Dir.num] at h ⊢ <;> omega
  · rintro rfl; rfl
@[simp] theorem updPd_get (p q : PD) (f : PortDir → PortDir) (s : State) : (updPd p f s).pd q = if q = p then f (s.pd p) else s.pd q := by
  unfold updPd State.pd
  simp only [Tab.get_upd, PD.key_eq]

@[simp] theorem emit_time (o : Output) (s : State) : (emit o s).time = s.time := rfl
@[simp] theorem emit_power (o : Output) (s : State) : (emit o s).power = s.power := rfl
@[simp] theorem emit_ctl (o : Output) (s : State) : (emit o s).ctl = s.ctl := rfl
@[simp] theorem emit_host (o : Output) (s : State) : (emit o s).host = s.host := rfl
@[simp] theorem emit_urz (o : Output) (s : State) : (emit o s).urz = s.urz := rfl
@[simp] theorem emit_rng (o : Output) (s : State) : (emit o s).rng = s.rng := rfl
@[simp] theorem emit_rest (o : Output) (s : State) : (emit o s).rest = s.rest := rfl
@[simp] theorem emit_keys (o : Output) (s : State) : (emit o s).keys = s.keys := rfl
@[simp] theorem emit_cls (o : Output) (s : State) : (emit o s).cls = s.cls := rfl
@[simp] theorem emit_fab (o : Output) (s : State) : (emit o s).fab = s.fab := rfl
@[simp] theorem emit_path (o : Output) (s : State) : (emit o s).path = s.path := rfl
@[simp] theorem emit_otn (o : Output) (s : State) : (emit o s).otn = s.otn := rfl
@[simp] theorem emit_mpu (o : Output) (s : State) : (emit o s).mpu = s.mpu := rfl
@[simp] theorem emit_free (o : Output) (s : State) : (emit o s).free = s.free := rfl
@[simp] theorem emit_pending (o : Output) (s : State) : (emit o s).pending = s.pending := rfl
@[simp] theorem emit_out (o : Output) (s : State) : (emit o s).out = o :: s.out := rfl

@[simp] theorem setDomain_time (d st : Nat) (s : State) : (setDomain d st s).time = s.time := rfl
@[simp] theorem setDomain_ctl (d st : Nat) (s : State) : (setDomain d st s).ctl = s.ctl := rfl
@[simp] theorem setDomain_host (d st : Nat) (s : State) : (setDomain d st s).host = s.host := rfl
@[simp] theorem setDomain_urz (d st : Nat) (s : State) : (setDomain d st s).urz = s.urz := rfl
@[simp] theorem setDomain_rng (d st : Nat) (s : State) : (setDomain d st s).rng = s.rng := rfl
@[simp] theorem setDomain_rest (d st : Nat) (s : State) : (setDomain d st s).rest = s.rest := rfl
@[simp] theorem setDomain_keys (d st : Nat) (s : State) : (setDomain d st s).keys = s.keys := rfl
@[simp] theorem setDomain_cls (d st : Nat) (s : State) : (setDomain d st s).cls = s.cls := rfl
@[simp] theorem setDomain_fab (d st : Nat) (s : State) : (setDomain d st s).fab = s.fab := rfl
@[simp] theorem setDomain_path (d st : Nat) (s : State) : (setDomain d st s).path = s.path := rfl
@[simp] theorem setDomain_otn (d st : Nat) (s : State) : (setDomain d st s).otn = s.otn := rfl
@[simp] theorem setDomain_mpu (d st : Nat) (s : State) : (setDomain d st s).mpu = s.mpu := rfl
@[simp] theorem setDomain_out (d st : Nat) (s : State) : (setDomain d st s).out = s.out := rfl
@[simp] theorem setDomain_free (d st : Nat) (s : State) : (setDomain d st s).free = s.free := rfl
@[simp] theorem setDomain_pending (d st : Nat) (s : State) : (setDomain d st s).pending = s.pending := rfl
@[simp] theorem setDomain_get (d st j : Nat) (s : State) : (setDomain d st s).domain j = if j = d then { s.domain d with state := st } else s.domain j := by
  unfold setDomain State.domain; simp only [Tab.get_upd]

@[simp] theorem countDomainReset_time (d c : Nat) (s : State) : (countDomainReset d c s).time = s.time := rfl
@[simp] theorem countDomainReset_ctl (d c : Nat) (s : State) : (countDomainReset d c s).ctl = s.ctl := rfl
@[simp] theorem countDomainReset_host (d c : Nat) (s : State) : (countDomainReset d c s).host = s.host := rfl
@[simp] theorem countDomainReset_urz (d c : Nat) (s : State) : (countDomainReset d c s).urz = s.urz := rfl
@[simp] theorem countDomainReset_rng (d c : Nat) (s : State) : (countDomainReset d c s).rng = s.rng := rfl
@[simp] theorem countDomainReset_rest (d c : Nat) (s : State) : (countDomainReset d c s).rest = s.rest := rfl
@[simp] theorem countDomainReset_keys (d c : Nat) (s : State) : (countDomainReset d c s).keys = s.keys := rfl
@[simp] theorem countDomainReset_cls (d c : Nat) (s : State) : (countDomainReset d c s).cls = s.cls := rfl
@[simp] theorem countDomainReset_fab (d c : Nat) (s : State) : (countDomainReset d c s).fab = s.fab := rfl
@[simp] theorem countDomainReset_path (d c : Nat) (s : State) : (countDomainReset d c s).path = s.path := rfl
@[simp] theorem countDomainReset_otn (d c : Nat) (s : State) : (countDomainReset d c s).otn = s.otn := rfl
@[simp] theorem countDomainReset_mpu (d c : Nat) (s : State) : (countDomainReset d c s).mpu = s.mpu := rfl
@[simp] theorem countDomainReset_out (d c : Nat) (s : State) : (countDomainReset d c s).out = s.out := rfl
@[simp] theorem countDomainReset_free (d c : Nat) (s : State) : (countDomainReset d c s).free = s.free := rfl
@[simp] theorem countDomainReset_pending (d c : Nat) (s : State) : (countDomainReset d c s).pending = s.pending := rfl
@[simp] theorem countDomainReset_get (d c j : Nat) (s : State) : (countDomainReset d c s).domain j = if j = d then { s.domain d with cause := c, resets := (s.domain d).resets + 1 } else s.domain j := by
  unfold countDomainReset State.domain; simp only [Tab.get_upd]

@[simp] theorem setAlarm_time (n : Nat) (b : Bool) (s : State) : (setAlarm n b s).time = s.time := rfl
@[simp] theorem setAlarm_power (n : Nat) (b : Bool) (s : State) : (setAlarm n b s).power = s.power := rfl
@[simp] theorem setAlarm_ctl (n : Nat) (b : Bool) (s : State) : (setAlarm n b s).ctl = s.ctl := rfl
@[simp] theorem setAlarm_host (n : Nat) (b : Bool) (s : State) : (setAlarm n b s).host = s.host := rfl
@[simp] theorem setAlarm_urz (n : Nat) (b : Bool) (s : State) : (setAlarm n b s).urz = s.urz := rfl
@[simp] theorem setAlarm_rng (n : Nat) (b : Bool) (s : State) : (setAlarm n b s).rng = s.rng := rfl
@[simp] theorem setAlarm_keys (n : Nat) (b : Bool) (s : State) : (setAlarm n b s).keys = s.keys := rfl
@[simp] theorem setAlarm_cls (n : Nat) (b : Bool) (s : State) : (setAlarm n b s).cls = s.cls := rfl
@[simp] theorem setAlarm_fab (n : Nat) (b : Bool) (s : State) : (setAlarm n b s).fab = s.fab := rfl
@[simp] theorem setAlarm_path (n : Nat) (b : Bool) (s : State) : (setAlarm n b s).path = s.path := rfl
@[simp] theorem setAlarm_otn (n : Nat) (b : Bool) (s : State) : (setAlarm n b s).otn = s.otn := rfl
@[simp] theorem setAlarm_mpu (n : Nat) (b : Bool) (s : State) : (setAlarm n b s).mpu = s.mpu := rfl
@[simp] theorem setAlarm_out (n : Nat) (b : Bool) (s : State) : (setAlarm n b s).out = s.out := rfl
@[simp] theorem setAlarm_free (n : Nat) (b : Bool) (s : State) : (setAlarm n b s).free = s.free := rfl
@[simp] theorem setAlarm_pending (n : Nat) (b : Bool) (s : State) : (setAlarm n b s).pending = s.pending := rfl
@[simp] theorem setAlarm_get (n j : Nat) (b : Bool) (s : State) : (setAlarm n b s).sensor j = if j = n then { s.sensor n with alarm := b } else s.sensor j := by
  unfold setAlarm State.sensor; simp only [Tab.get_upd]

@[simp] theorem waitCycle_power (c : Nat) (s : State) : (waitCycle c s).power = s.power := rfl
@[simp] theorem waitCycle_ctl (c : Nat) (s : State) : (waitCycle c s).ctl = s.ctl := rfl
@[simp] theorem waitCycle_host (c : Nat) (s : State) : (waitCycle c s).host = s.host := rfl
@[simp] theorem waitCycle_urz (c : Nat) (s : State) : (waitCycle c s).urz = s.urz := rfl
@[simp] theorem waitCycle_rng (c : Nat) (s : State) : (waitCycle c s).rng = s.rng := rfl
@[simp] theorem waitCycle_rest (c : Nat) (s : State) : (waitCycle c s).rest = s.rest := rfl
@[simp] theorem waitCycle_keys (c : Nat) (s : State) : (waitCycle c s).keys = s.keys := rfl
@[simp] theorem waitCycle_cls (c : Nat) (s : State) : (waitCycle c s).cls = s.cls := rfl
@[simp] theorem waitCycle_fab (c : Nat) (s : State) : (waitCycle c s).fab = s.fab := rfl
@[simp] theorem waitCycle_path (c : Nat) (s : State) : (waitCycle c s).path = s.path := rfl
@[simp] theorem waitCycle_otn (c : Nat) (s : State) : (waitCycle c s).otn = s.otn := rfl
@[simp] theorem waitCycle_mpu (c : Nat) (s : State) : (waitCycle c s).mpu = s.mpu := rfl
@[simp] theorem waitCycle_out (c : Nat) (s : State) : (waitCycle c s).out = s.out := rfl
@[simp] theorem waitCycle_free (c : Nat) (s : State) : (waitCycle c s).free = s.free := rfl
@[simp] theorem waitCycle_pending (c : Nat) (s : State) : (waitCycle c s).pending = s.pending := rfl
@[simp] theorem waitTime_power (c : Nat) (s : State) : (waitTime c s).power = s.power := rfl
@[simp] theorem waitTime_ctl (c : Nat) (s : State) : (waitTime c s).ctl = s.ctl := rfl
@[simp] theorem waitTime_host (c : Nat) (s : State) : (waitTime c s).host = s.host := rfl
@[simp] theorem waitTime_urz (c : Nat) (s : State) : (waitTime c s).urz = s.urz := rfl
@[simp] theorem waitTime_rng (c : Nat) (s : State) : (waitTime c s).rng = s.rng := rfl
@[simp] theorem waitTime_rest (c : Nat) (s : State) : (waitTime c s).rest = s.rest := rfl
@[simp] theorem waitTime_keys (c : Nat) (s : State) : (waitTime c s).keys = s.keys := rfl
@[simp] theorem waitTime_cls (c : Nat) (s : State) : (waitTime c s).cls = s.cls := rfl
@[simp] theorem waitTime_fab (c : Nat) (s : State) : (waitTime c s).fab = s.fab := rfl
@[simp] theorem waitTime_path (c : Nat) (s : State) : (waitTime c s).path = s.path := rfl
@[simp] theorem waitTime_otn (c : Nat) (s : State) : (waitTime c s).otn = s.otn := rfl
@[simp] theorem waitTime_mpu (c : Nat) (s : State) : (waitTime c s).mpu = s.mpu := rfl
@[simp] theorem waitTime_out (c : Nat) (s : State) : (waitTime c s).out = s.out := rfl
@[simp] theorem waitTime_free (c : Nat) (s : State) : (waitTime c s).free = s.free := rfl
@[simp] theorem waitTime_pending (c : Nat) (s : State) : (waitTime c s).pending = s.pending := rfl
@[simp] theorem keyCount_time (i : Nat) (s : State) : (keyCount i s).time = s.time := rfl
@[simp] theorem keyCount_power (i : Nat) (s : State) : (keyCount i s).power = s.power := rfl
@[simp] theorem keyCount_ctl (i : Nat) (s : State) : (keyCount i s).ctl = s.ctl := rfl
@[simp] theorem keyCount_host (i : Nat) (s : State) : (keyCount i s).host = s.host := rfl
@[simp] theorem keyCount_urz (i : Nat) (s : State) : (keyCount i s).urz = s.urz := rfl
@[simp] theorem keyCount_rng (i : Nat) (s : State) : (keyCount i s).rng = s.rng := rfl
@[simp] theorem keyCount_rest (i : Nat) (s : State) : (keyCount i s).rest = s.rest := rfl
@[simp] theorem keyCount_cls (i : Nat) (s : State) : (keyCount i s).cls = s.cls := rfl
@[simp] theorem keyCount_fab (i : Nat) (s : State) : (keyCount i s).fab = s.fab := rfl
@[simp] theorem keyCount_path (i : Nat) (s : State) : (keyCount i s).path = s.path := rfl
@[simp] theorem keyCount_otn (i : Nat) (s : State) : (keyCount i s).otn = s.otn := rfl
@[simp] theorem keyCount_mpu (i : Nat) (s : State) : (keyCount i s).mpu = s.mpu := rfl
@[simp] theorem keyCount_out (i : Nat) (s : State) : (keyCount i s).out = s.out := rfl
@[simp] theorem keyCount_free (i : Nat) (s : State) : (keyCount i s).free = s.free := rfl
@[simp] theorem keyCount_pending (i : Nat) (s : State) : (keyCount i s).pending = s.pending := rfl
@[simp] theorem keyCount_get (i j : Nat) (s : State) : (keyCount i s).keys.counters.get j 0 = if j = i then s.keys.counters.get i 0 + 1 else s.keys.counters.get j 0 := Tab.get_bump _ _ _ _

@[simp] theorem tamperCount_time (i : Nat) (s : State) : (tamperCount i s).time = s.time := rfl
@[simp] theorem tamperCount_power (i : Nat) (s : State) : (tamperCount i s).power = s.power := rfl
@[simp] theorem tamperCount_ctl (i : Nat) (s : State) : (tamperCount i s).ctl = s.ctl := rfl
@[simp] theorem tamperCount_host (i : Nat) (s : State) : (tamperCount i s).host = s.host := rfl
@[simp] theorem tamperCount_urz (i : Nat) (s : State) : (tamperCount i s).urz = s.urz := rfl
@[simp] theorem tamperCount_rng (i : Nat) (s : State) : (tamperCount i s).rng = s.rng := rfl
@[simp] theorem tamperCount_keys (i : Nat) (s : State) : (tamperCount i s).keys = s.keys := rfl
@[simp] theorem tamperCount_cls (i : Nat) (s : State) : (tamperCount i s).cls = s.cls := rfl
@[simp] theorem tamperCount_fab (i : Nat) (s : State) : (tamperCount i s).fab = s.fab := rfl
@[simp] theorem tamperCount_path (i : Nat) (s : State) : (tamperCount i s).path = s.path := rfl
@[simp] theorem tamperCount_otn (i : Nat) (s : State) : (tamperCount i s).otn = s.otn := rfl
@[simp] theorem tamperCount_mpu (i : Nat) (s : State) : (tamperCount i s).mpu = s.mpu := rfl
@[simp] theorem tamperCount_out (i : Nat) (s : State) : (tamperCount i s).out = s.out := rfl
@[simp] theorem tamperCount_free (i : Nat) (s : State) : (tamperCount i s).free = s.free := rfl
@[simp] theorem tamperCount_pending (i : Nat) (s : State) : (tamperCount i s).pending = s.pending := rfl
@[simp] theorem tamperCount_get (i j : Nat) (s : State) : (tamperCount i s).rest.counters.get j 0 = if j = i then s.rest.counters.get i 0 + 1 else s.rest.counters.get j 0 := Tab.get_bump _ _ _ _

@[simp] theorem urzCount_time (i : Nat) (s : State) : (urzCount i s).time = s.time := rfl
@[simp] theorem urzCount_power (i : Nat) (s : State) : (urzCount i s).power = s.power := rfl
@[simp] theorem urzCount_ctl (i : Nat) (s : State) : (urzCount i s).ctl = s.ctl := rfl
@[simp] theorem urzCount_host (i : Nat) (s : State) : (urzCount i s).host = s.host := rfl
@[simp] theorem urzCount_rng (i : Nat) (s : State) : (urzCount i s).rng = s.rng := rfl
@[simp] theorem urzCount_rest (i : Nat) (s : State) : (urzCount i s).rest = s.rest := rfl
@[simp] theorem urzCount_keys (i : Nat) (s : State) : (urzCount i s).keys = s.keys := rfl
@[simp] theorem urzCount_cls (i : Nat) (s : State) : (urzCount i s).cls = s.cls := rfl
@[simp] theorem urzCount_fab (i : Nat) (s : State) : (urzCount i s).fab = s.fab := rfl
@[simp] theorem urzCount_path (i : Nat) (s : State) : (urzCount i s).path = s.path := rfl
@[simp] theorem urzCount_otn (i : Nat) (s : State) : (urzCount i s).otn = s.otn := rfl
@[simp] theorem urzCount_mpu (i : Nat) (s : State) : (urzCount i s).mpu = s.mpu := rfl
@[simp] theorem urzCount_out (i : Nat) (s : State) : (urzCount i s).out = s.out := rfl
@[simp] theorem urzCount_free (i : Nat) (s : State) : (urzCount i s).free = s.free := rfl
@[simp] theorem urzCount_pending (i : Nat) (s : State) : (urzCount i s).pending = s.pending := rfl
@[simp] theorem urzCount_get (i j : Nat) (s : State) : (urzCount i s).urz.counters.get j 0 = if j = i then s.urz.counters.get i 0 + 1 else s.urz.counters.get j 0 := Tab.get_bump _ _ _ _

@[simp] theorem clockCount_power (i : Nat) (s : State) : (clockCount i s).power = s.power := rfl
@[simp] theorem clockCount_ctl (i : Nat) (s : State) : (clockCount i s).ctl = s.ctl := rfl
@[simp] theorem clockCount_host (i : Nat) (s : State) : (clockCount i s).host = s.host := rfl
@[simp] theorem clockCount_urz (i : Nat) (s : State) : (clockCount i s).urz = s.urz := rfl
@[simp] theorem clockCount_rng (i : Nat) (s : State) : (clockCount i s).rng = s.rng := rfl
@[simp] theorem clockCount_rest (i : Nat) (s : State) : (clockCount i s).rest = s.rest := rfl
@[simp] theorem clockCount_keys (i : Nat) (s : State) : (clockCount i s).keys = s.keys := rfl
@[simp] theorem clockCount_cls (i : Nat) (s : State) : (clockCount i s).cls = s.cls := rfl
@[simp] theorem clockCount_fab (i : Nat) (s : State) : (clockCount i s).fab = s.fab := rfl
@[simp] theorem clockCount_path (i : Nat) (s : State) : (clockCount i s).path = s.path := rfl
@[simp] theorem clockCount_otn (i : Nat) (s : State) : (clockCount i s).otn = s.otn := rfl
@[simp] theorem clockCount_mpu (i : Nat) (s : State) : (clockCount i s).mpu = s.mpu := rfl
@[simp] theorem clockCount_out (i : Nat) (s : State) : (clockCount i s).out = s.out := rfl
@[simp] theorem clockCount_free (i : Nat) (s : State) : (clockCount i s).free = s.free := rfl
@[simp] theorem clockCount_pending (i : Nat) (s : State) : (clockCount i s).pending = s.pending := rfl
@[simp] theorem clockCount_get (i j : Nat) (s : State) : (clockCount i s).time.counters.get j 0 = if j = i then s.time.counters.get i 0 + 1 else s.time.counters.get j 0 := Tab.get_bump _ _ _ _

/-- Waiting for a cycle ends no sooner than it. -/
theorem waitCycle_cycles (c : Nat) (s : State) : c ≤ (waitCycle c s).time.cycles ∧ s.time.cycles ≤ (waitCycle c s).time.cycles := by
  simp [waitCycle, TimeUnit.run]; omega

end Sys2Proof.Machine
end

