-- ==== Sys2Proof/WellFormed.lean ====
section
/-! DEFINITION. Which commands can come from outside at all: the lengths and ranges their operands have on the pins,
the rings and in the records of the spec. A meaning is defined on every command; these checks name the ill-formed ones. -/
namespace Sys2Proof

/-- Frames on the lanes are at most 10,272 + 32 octets (R9) and hold at least the two MAC addresses. -/
def frameLen (d : Octets) : Bool := 12 ≤ d.length && d.length ≤ 10304

/-- Whether a command's operands have the lengths and ranges the spec gives them. -/
def Instr.wf : Instr → Bool
  | .gougeParseStart _ _ _ header len _ => header.length ≤ 256 && header.length ≤ len
  | .frameAccepted _ (.ethernet data _ _) => frameLen data
  | .frameAccepted _ (.tributary _ payload overhead _) => payload.length = 15232 && overhead.length = 64
  | .pfcReceived _ _ times => times.length = 8
  | .injectionDescriptor _ frame => frame.length ≤ 10236
  | .avsEvaluation rings => rings.length = 28
  | .keyLoadBlob _ _ blob _ => blob.length = 104
  | .keyDerive _ _ _ _ _ _ label context attr _ => 1 ≤ label.length && label.length ≤ 64 && context.length ≤ 256 && attr.length = 24
  | .keyGenerate _ _ attr _ => attr.length = 24
  | .keyImportBare _ _ _ attr wrapped _ => attr.length = 24 && wrapped.length ≤ 40
  | .ownershipTake _ c | .ownershipTransfer _ c | .ownershipRelease _ c => c.length = 201
  | .enrollmentOpen _ nk => nk.length = 32
  | .enrollmentRequest _ r _ => r.length = 255
  | .setTime _ t => t.length = 12
  | .mpuRead _ lines => 1 ≤ lines.val
  | .mpuWrite _ data => 1 ≤ data.length && data.length ≤ 64
  | .faultInjection _ r => r.length = 16
  | .conditionedBlockReady _ raw | .sourceStartupComplete _ raw => raw.length = 128
  | .conditionerKat _ input => input.length = 128
  | .expanderKat _ v => v.length ≤ 340
  | .rawCaptureComplete data => data.length = 131072
  | .toolRestSample _ temps supplies => temps.length = 16 && supplies.length = 16
  | .unlockToken _ t | .debugToken _ t => t.length = 160
  | .dictionaryWrite _ _ _ _ _ data => 1 ≤ data.length && data.length ≤ 4096
  | .generatorReady kat => kat.length = 28
  | _ => true

/-- A well-formed command. -/
abbrev Instr.WellFormed (i : Instr) : Prop := i.wf = true

end Sys2Proof
end

