-- ==== Sys2Proof/Tests/Slice0.lean ====
section
/-! SUPPORT. Witnesses for the statements' hypotheses, an ill-formed command for each check of well-formedness, and small tests. -/

set_option Elab.async false
set_option maxRecDepth 100000

open Sys2Proof Sys2Proof.Machine
namespace Sys2Proof.Tests

/-! ## Small states -/

/-- The state after reset with dictionary entries applied. -/
def withOd (l : List (Nat × Nat × Octets)) (s : State) : State := l.foldl (fun s e => { s with ctl := { s.ctl with dict := s.ctl.dict.put (odKey e.1 e.2.1) e.2.2 } }) s

/-- Every power domain On, the part Ready on main power. -/
def up : State := { State.reset with power := { State.reset.power with domains := (List.range 80).map (fun d => (d, { state := 1 })), start := .ready, pwrgood := true, pcieUp := true }, rest := { State.reset.rest with onVbat := false } }

/-- `up` with pair E0 at 4 x 100GbE, pair E1 at 2 x 200GbE and pair E7 at 400GbE. -/
def eth : State := withOd [(0x2400, 1, [1]), (0x2400, 2, [2]), (0x2400, 8, [3])] up

/-- `up` with pair E0 in the OTUC8 shape and tributary 0 valid. -/
def otn : State := { withOd [(0x2800, 1, [8])] up with otn := { tribs := [(0, { valid := true, mode := 1 })] } }


theorem quiet_of {s : State} (h : s.reachable = true ∧ controlServes s = true ∧ (s.power.pcieUp && decide ((s.domain 75).state = 0)) = false ∧ (!s.power.pcieUp && decide ((s.domain 75).state = 1)) = false ∧
    s.ctl.job = none ∧ s.ctl.queue = [] ∧ s.ctl.held = [] ∧ s.ctl.intake = [] ∧ s.ctl.finished = [] ∧ ∀ r < 64, (s.ring r).posted = []) : Quiet s := by
  obtain ⟨h1, h2, h3, h4, h5⟩ := h
  refine ⟨h1, h2, ?_, h5⟩
  unfold pcieSettle
  simp only [h3, h4, Bool.false_and, Bool.false_eq_true, if_false]

def sysIn : PD := { port := 0, dir := .s2l }
def lineIn : PD := { port := 0, dir := .l2s }
def lastPd : PD := { port := 28, dir := .l2s }

/-- One retained frame. -/
def holding (f : Machine.Frm) (s : State) : State := { s with path := { s.path with frames := [(3, f)] } }

/-- One spindle in a given state. -/
def spin (i : Nat) (x : Spindle) (s : State) : State := { s with fab := { s.fab with spindles := [(i, x)] } }

/-- One filled key slot. -/
def key16 : Copy := { key := zeros 16, suite := 1 }
def keyed (n : Nat) (s : State) : State := { s with keys := { s.keys with data := [(n, filledSlot s n key16)] } }

def badFcs : Machine.Frm := { pd := sysIn, stage := .accepted, parsed := true, kv := 1 <<< 497 }
def plain : Machine.Frm := { pd := sysIn, stage := .accepted, parsed := true }

/-- A cut whose table 0 has one leaf, of one rule that matches every frame; with more rules than stay resident where `big`. -/
def walked (big : Bool) (f : Machine.Frm) : State :=
  { holding f eth with cls := { eth.cls with cuts := [{ number := 0, state := .current, roots := [(0, 1)], rules := if big then (List.range 363).map (fun i => (i, List.replicate 362 (0, ⟨0, 0, 0⟩))) else [] }], lines := [(0, 1 <<< 125), (1, (2 <<< 510) ||| (1 <<< 506))] } }

def cutJob : Job := { session := 0, staged := [(odKey 0x2011 1, [0])], waiting := false, at_ := 0, cut := 1, expected := 0, chucks := .agree }

def settled (v : Verdict) : Machine.Frm := { pd := sysIn, stage := .classified, verdict := v }
/-- A transmit SC 5 of port 0 with an SA 9 of slot 12. -/
def secured : State := { holding { settled .protect with injSc := some 5 } (keyed 12 eth) with keys := { (keyed 12 eth).keys with sc := [(5, { valid := true, sa0 := 9 })], sa := [(9, { valid := true, enabled := true, slot := 12, n := 1 })] } }

def worked : Machine.Frm := { pd := sysIn, stage := .dispatched, desc := { spindle := some 27, tokens := 2, issued := 1 } }
def readyRng : Rng := { exp0 := some ⟨0, 0⟩, started := true }

def readyTo (v : Verdict) (q : Nat) : Machine.Frm := { pd := sysIn, stage := .ready, verdict := v, queue := q }
def queued0 (e : Egr) (x : Queue) (s : State) : State := { s with path := { s.path with queues := [(1024 * (2 * (e.pd.port / 8) + e.pd.dir.num) + e.queue, { x with items := [e] })] } }
def egr : Egr := { pd := lastPd, seq := 0, data := zeros 60, queue := 900, timed := false, launch := 0, report := none, overflow := false, spilled := false, late := false, pool := 0, occ := 0, dreq := none }

def cand : Candidate := { offset := 7, agreements := 3, mfas := 0 }
/-- `otn` with an aligner in frame. -/
def framed (a : AlignerId) : State := updAligner a (fun r => { r with inFrame := true }) otn

def played : State := { otn with otn := { otn.otn with tribs := [(0, { valid := true, playS := [{ seq := 0, payload := [], overhead := [], acceptAt := 0, bipIn := 0, bipOut := 0, ais := false, lso := none }] })] } }

/-- The generator serves. -/
def seeded : State := { up with rng := readyRng }
def attr16 : Octets := zeros 8 ++ [16, 1, 0, 1]
/-- `seeded` with KEK slot 5 Filled, with every KEK usage and every flag but persistence, of key identifier 9. -/
def kekked : State := { seeded with keys := { seeded.keys with kek := [(5, filledSlot seeded 0x8005 { key := (List.range 16).map (BitVec.ofNat 8), usage := 0x7C, flags := 1, keyId := 9 })] } }
/-- `kekked` with data slot 12 Filled, its export allowed. -/
def exporting : State := { kekked with keys := { kekked.keys with data := [(12, filledSlot kekked 12 { key16 with flags := 1 })] } }
def kek5 : Octets := (List.range 16).map (BitVec.ofNat 8)
/-- A blob of kind `kind` for a 16-octet key that KEK 9 wraps (R242, R243). -/
def blobHead (kind len : Nat) : Octets := beBytes 2 0x4C42 ++ [1] ++ oct kind ++ beBytes 8 9 ++ beBytes 2 len ++ zeros 2

/-- Octets from an address on. -/
def cells (a : Nat) (b : Octets) : List Host.Cell := List.zipWith (fun i x => (a + i, x)) (List.range b.length) b

/-- What the two entries hold under memory keys of 0, with their tags. -/
def storedOctets : List Host.Cell :=
  cells 5100273408 (beBytes 48 0xecf73ce4b379a9fd0fb1dc410d0e99502049ccfb989b3e760f616c0652347866664a77f948b628f86fae35369f5c51a6 ++ beBytes 48 0x9610c0890c2a29cd90a4761af5e9b4d8c88e091f1027905fe17180d8372c6a76c83ef3468712c960143b4f8994b71532 ++ beBytes 48 0x647b9b86083c3e146410960de47135e409cea851f093fae34a795e947d9e690886fc9d630123020890b3b6941c5d8d23 ++ beBytes 48 0xfbd9b3fc35060ca974821d0549fb7e903123486d1cc86819d547ddd42d2df93e2b2c7f81330c65b5bef673692022540a ++ beBytes 48 0x5d96de6e66c0efc612fd04a432738ead3834ac5c0a68dc2881d935998a586a8ca8f50b336d614f4abef4ed13c190e41e ++ beBytes 16 0xed34a03bcb9a755c6fb9625f657217fc) ++
  cells 5108662144 (beBytes 48 0x5727d199ac04642a4bdfab0f70b690d564b36fcd411bdae658c2b250b61dff75ea23d3258956e9d8f8be100f942799cd ++ beBytes 48 0x75871b16e83c238cbcd1f3fdc629dd2015afce26cae8a8ef69341072a098ef8e8a1483fd5e9fde69bf0874610f2bcb37 ++ beBytes 32 0x7015a158c7b1f277ae4d5b6c1690ef98a4e8281ef83d4f29f9a4e1cd62e00a0c) ++
  cells 6006243296 (beBytes 32 0xf5c891d3f8964cbf6092ee07208f63b0d2752c51e0631392a744d44ab8e9a321) ++
  cells 6007291888 (beBytes 16 0x7ce051d9a09f3cc98f2f8a69fce9b8b1)

/-- `kekked` with the blob of a KEK in the last blob store entry and an SA record in the last SA store entry: their stored octets and tags.
The record of SC 0 is in Loading: its incoming SA 9 names that SA store entry as successor, and chains fill data slot 32767. -/
def stored : State :=
  { withOd [(0x2400, 1, [1]), (0x3432, 2, [255, 127])] kekked with keys := { kekked.keys with saUsed := [1048575], blobUsed := [65535], sc := [(0, { valid := true, txAn := 1, sa0 := 0xFFFF, sa1 := 9, sa2 := 0xFFFF, sa3 := 0xFFFF })], sa := [(9, { valid := true, enabled := true, slot := 12, succ := 1048575 })], rollSc := [(0, { state := 3, incoming := 1, outgoing := 32767 })] }, mpu := { kekked.mpu with keys := (List.range 16).map (fun i => (i, 0)), cache := [(1245183, { ctr := { minors := [(60, 1), (61, 1), (62, 1), (63, 1)] }, dirty := false }), (1247231, { ctr := { minors := [(62, 1), (63, 1)] }, dirty := false })], hbm := storedOctets } }
def ownerKey : Octets := ptOctets p384G
/-- An owned part with the generator serving; its owner's private key is 1. -/
def owned : State := { seeded with rest := { seeded.rest with owner := { owned := true, key := ownerKey }, challenge := zeros 32 } }
def signed (m : Octets) : Octets := m ++ ecdsaSign 1 2 m

def enrolling : State := { owned with keys := { owned.keys with enroll := some { number := 1, dp := 1, qp := ownerKey, np := zeros 32, nk := zeros 32, at_ := 0 } } }

/-- `up` with the time set, transmit SC 0 with SA 9 at AN 1 of slot 12, and tributary 0 with SA 10 at KI 1. -/
def rolling (r : Roll) : State :=
  { keyed 12 otn with time := { otn.time with isSet := true }, keys := { (keyed 12 otn).keys with sc := [(0, { valid := true, port := 0, sa0 := 8, sa1 := 9, sa2 := 0xFFFF, sa3 := 0xFFFF })], sa := [(8, { valid := true, enabled := true, slot := 12 }), (9, { valid := true, enabled := true, slot := 12 }), (10, { valid := true, enabled := true, slot := 12, suite := 2 })], rollSc := [(0, r)], rollTrib := [(0, r)] }, otn := { otn.otn with tribs := [(0, { valid := true, mode := 1, sas := [(1, 10)] })] } }

def master : Octets := zeros 9 ++ [1]
/-- The own clock follows a master on the system input of port 0. -/
def clocked : State := withOd [(0x4010, 1, [1]), (0x4010, 3, oct sysIn.key), (0x4010, 4, master), (0x4010, 5, master)] eth
def ptpOf (type flags : Nat) : Octets := zeros 12 ++ beBytes 2 0x88F7 ++ oct type ++ [2] ++ zeros 4 ++ oct flags ++ zeros 13 ++ master ++ zeros 14 ++ master
def received (d : Octets) : State := { clocked with time := { clocked.time with inbox := [(sysIn, d, 5, 0)], sm := some 3, syncs := [{ seqId := 0, t2 := 0, corr := 0, at_ := 0 }], dreqs := [{ seqId := 0, t3 := 0, at_ := 0 }], syncSeen := true } }

def slotted (r : Slot) (set : Bool) : State := { up with time := { up.time with slots := [(15, r)], isSet := set } }

/-- `up` with the memory keys in place, and a counter line of block 0 on chip. -/
def remembered (n : Nat) : State := { up with mpu := { up.mpu with keys := (List.range 16).map (fun i => (i, 0)), cache := [(0, { ctr := { minors := [(63, n)] }, dirty := false })] } }

/-- `up` with every noise source in a state, each with a block in hand. -/
def sourced (x : SourceState) (f : Nat) : State := { up with rng := { readyRng with exp1 := some ⟨0, 0⟩, sources := (List.range 8).map (fun k => (k, { state := x, fails := f, blocks := [0] })) } }
def asked (c : Consumer) : State := { up with rng := { readyRng with queue := [{ who := c, cls := 1, at_ := 0 }] } }

/-- `up` with a snapshot that session 0 holds of a read of 0x1000.1. -/
def snapped : State := updSession 0 (fun x => { x with snaps := [(odKey 0x1000 1, ([1, 2, 3], 0))] }) up

def staging (l : Tab Octets) : State := updSession 0 (fun x => { x with staged := l }) up

def ringed (r : Nat) (x : Ring) : State := { up with host := { up.host with rings := [(r, x)] } }
/-- A mailbox descriptor of one read request and room for the response. -/
def readDesc : Octets := zeros 16 ++ [24, 0, 64, 0] ++ zeros 12
def readRequest : Octets := requestRecord 1 0 0x1000 1 0 1 []

def framedAs (m : Octets) : Octets := urzFrame (zeros 6) (zeros 6) [] m
/-- A message of console 9 for part 7. -/
def toPart (type number seq : Nat) (payload : Octets) : Octets :=
  urzMessage kek5 [] [] ([BitVec.ofNat 8 (0x10 + type), 1] ++ beBytes 2 3 ++ beBytes 2 7 ++ beBytes 2 9 ++ beBytes 4 number ++ beBytes 8 seq ++ beBytes 2 payload.length ++ (if type = 6 then [1, 0] else [0, 0])) payload
/-- Part 7 of domain 3, its Management key in KEK slot 5 and the domain key in slot 6, with the channel on at port 0. -/
def part7 (m : List (PD × Octets)) : State :=
  let s := withOd [(0x1010, 1, [7, 0]), (0x1010, 2, [3, 0]), (0x1010, 3, [5]), (0x1010, 4, [6]), (0x1011, 1, [7])] { eth with rng := readyRng }
  let k : Copy := { key := kek5, usage := 0x20 }
  let s := { s with keys := { s.keys with kek := [(5, filledSlot s 0x8005 k), (6, filledSlot s 0x8006 k)] } }
  { s with urz := { s.urz with sessions := [(2, { isOpen := true, number := 258, console := 9, nc := zeros 16, np := zeros 16, highest := 4, lastMac := urzTag (toPart 3 258 4 readRequest), lastResp := [1] })], inbox := m, accepted := m } }

def taken (m : Octets) : State := part7 [(sysIn, framedAs m)]
def after (m : Octets) : State := { taken m with urz := { (taken m).urz with accepted := [] } }
def openMsg : Octets := toPart 1 0 1 (zeros 16)
def newMsg : Octets := toPart 3 258 5 readRequest
def oldMsg : Octets := toPart 3 258 4 readRequest
def farMsg : Octets := toPart 3 258 9 readRequest
def closeMsg : Octets := toPart 5 258 5 []
def beatMsg (n : Nat) : Octets := toPart 6 0 1 (beBytes 6 n ++ zeros 5 ++ [1] ++ zeros 12)

def set (s : State) : State := { s with time := { s.time with isSet := true } }

def ctls (a b : CtlState) : State := { up with ctl := { up.ctl with ctlA := a, ctlB := b } }

def powered (f : Power → Power) : State := { State.reset with power := f State.reset.power }

def training (t : List Nat) : State := powered (fun p => { p with start := .training, trained := t })
def seeding : State := { training [] with rng := { sources := (List.range 8).map (fun k => (k, { state := .healthy, blocks := [0, 0, 0, 0] })) } }

def drain74 : Drain := { domains := [74], ports := [0, 31], at_ := 0, cause := 1 }

/-! ## Key commands: runs and reads -/


theorem copyOk_filled {s t : State} {n : Nat} {c : Copy} (h : s.keys.checkKey = t.keys.checkKey) : copyOk s n (filledSlot t n c).a = true := by
  simp [copyOk, filledSlot, copyCheck, Copy.octets, h]
theorem readSlot_filled {s t : State} {n : Nat} {c : Copy} (h1 : s.slot n = filledSlot t n c) (h : s.keys.checkKey = t.keys.checkKey) (h3 : s.keys.isoA = false) :
    readSlot n s = (some (filledSlot t n c).a, s) := by
  have ok := copyOk_filled (n := n) (c := c) h
  have h4 : (filledSlot t n c).state = .filled := rfl
  have h5 : (filledSlot t n c).copyBad = 0 := rfl
  unfold readSlot copyOrder
  simp only [h1, h3, h4, h5]
  cases s.keys.isoB <;> simp [ok]
def kekCopy : Copy := { key := (List.range 16).map (BitVec.ofNat 8), usage := 0x7C, flags := 1, keyId := 9 }
theorem passes_of_run {j : Nat} {st : Tab Octets} {ck : ChuckRun} {s : State} {b : Octets} {k : KeyRun}
    (hb : stagedAt st 0x3410 1 = some b) (h0 : s.locked = false ∧ (pinRefusals s st).isEmpty = true ∧ (storeFailures s st).isEmpty = true)
    (hn : stagedAt st 0x3421 1 = none ∧ stagedAt st 0x3421 3 = none ∧ stagedAt st 0x3422 1 = none ∧ stagedAt st 0x5030 1 = none ∧ stagedAt st 0x5020 2 = none)
    (hk : keyCommands (b.length + 1) b { s := storesPut st (candidate j st s), b := s, ck := ck } = k) (hf : k.fail = none)
    (hr : (keyFailures s (keyTablesPut s st k.s) k.loaded st).isEmpty = true ∧ deleteFail (keyTablesPut s st k.s) [] k.deletes = none ∧
      deleteDangles (keyTablesPut s st k.s) k.deletes = false ∧ (checkFailures s (keyTablesPut s st k.s) j st (rulesAfter s st)).isEmpty = true) :
    firstFailure (checkCommit j st ck [] s).fails = none := by
  obtain ⟨h1, h2, h3⟩ := h0
  obtain ⟨n1, n2, n3, n4, n5⟩ := hn
  obtain ⟨r1, r2, r3, r4⟩ := hr
  have hkr : keyRange s (candidate j st s) st ck = { fails := [], base := k.b, cand := keyTablesPut s st k.s, run := { k with s := keyTablesPut s st k.s } } := by
    unfold keyRange
    simp only [h1, h2, h3, hb, Option.getD_some, hk, hf, r1, r2, r3, refuse, Bool.not_true, Bool.false_eq_true, if_false]
  unfold checkCommit
  simp only [hkr, enrollChecked, ownerChecked, tokenChecked, n1, n2, n3, n4, n5, Checked.refused, List.isEmpty_iff.1 r4, List.append_nil]
  rfl

theorem one_command {r : Octets} {k k1 : KeyRun} (h : r.isEmpty = false ∧ leAt r 2 2 = r.length ∧ 8 ≤ r.length ∧ keyRecordLen (padTo (max r.length 16) r) = r.length) (hc : keyCommand r k = (0, k1)) :
    keyCommands (r.length + 1) r k = { k1 with n := k1.n + 1 } := by
  obtain ⟨h1, h2, h3, h4⟩ := h
  have hz : ∀ m k, keyCommands m [] k = k := by intro m k; cases m <;> rfl
  unfold keyCommands
  simp only [h1, h2, h4, List.take_length, hc, Bool.false_eq_true, if_false, List.drop_length, hz]
  rw [if_neg (by omega)]

theorem named_filled {k : KeyRun} {t : State} {n need : Nat} {c : Copy} (h1 : k.s.slot (0x8000 + n) = filledSlot t (0x8000 + n) c) (h2 : k.b.slot (0x8000 + n) = filledSlot t (0x8000 + n) c)
    (g1 : k.s.keys.checkKey = t.keys.checkKey) (g2 : k.b.keys.checkKey = t.keys.checkKey) (i1 : k.s.keys.isoA = false) (i2 : k.b.keys.isoA = false) (hu : c.usage &&& need = need) :
    k.kekNamed n need = (0, (filledSlot t (0x8000 + n) c).a, k) := by
  have e : (filledSlot t (0x8000 + n) c).state = .filled := rfl
  have e2 : (filledSlot t (0x8000 + n) c).a.usage = c.usage := rfl
  have e3 : (filledSlot t (0x8000 + n) c).expired = false := rfl
  unfold KeyRun.kekNamed KeyRun.read
  simp only [h1, e, e2, e3, hu, readSlot_filled h1 g1 i1, readSlot_filled h2 g2 i2]
  simp

def kst (r : Octets) : Tab Octets := [(odKey 0x3410 1, r)]
theorem putPlains_kst (r : Octets) (s : State) : putPlains (kst r) s = s := by
  have h : ∀ e, entryAt 0x3410 1 = some e → plainEntry 0x3410 e = false := by
    intro e he
    have : (entryAt 0x3410 1).all (fun e => !plainEntry 0x3410 e) = true := by decide +kernel
    rw [he] at this; simpa using this
  unfold putPlains kst
  rw [List.foldl_cons, List.foldl_nil]
  unfold putPlain
  rw [show odKey 0x3410 1 / 256 = 0x3410 from rfl, show odKey 0x3410 1 % 256 = 1 from rfl]
  dsimp only
  split
  · rfl
  · rename_i e he; rw [h e he]; rfl
theorem candidate_kst (r : Octets) (j : Nat) (s : State) : storesPut (kst r) (candidate j (kst r) s) = s := by
  show candidate j (kst r) s = s
  unfold candidate
  rw [putPlains_kst]; rfl

/-- What a run of one key command has to show for its commit to pass. -/
def runOk (r : Octets) (n : Nat) (k : KeyRun) (s : State) : Bool :=
  k.fail.isNone && (keyFailures s (keyTablesPut s (kst r) k.s) k.loaded (kst r)).isEmpty && (deleteFail (keyTablesPut s (kst r) k.s) [] k.deletes).isNone &&
  !deleteDangles (keyTablesPut s (kst r) k.s) k.deletes && (checkFailures s (keyTablesPut s (kst r) k.s) n (kst r) (rulesAfter s (kst r))).isEmpty

/-- A commit of one key command whose run is `k` passes its checks where what follows the run passes. -/
theorem passes_of_command {r : Octets} {ck : ChuckRun} {s : State} {k : KeyRun} {n : Nat}
    (hc : keyCommand r { s := updSession n (fun x => x) s, b := updSession n (fun x => x) s, ck := ck } = (0, k))
    (hs : r.isEmpty = false ∧ leAt r 2 2 = r.length ∧ 8 ≤ r.length ∧ keyRecordLen (padTo (max r.length 16) r) = r.length) (h0 : s.locked = false ∧ s.power.zeroizeN = false)
    (hr : runOk r n k (updSession n (fun x => x) s) = true) : Passes n [(odKey 0x3410 1, r)] ck s := by
  have hk := one_command hs hc
  simp only [runOk, Bool.and_eq_true, Option.isNone_iff_eq_none, Bool.not_eq_true'] at hr
  obtain ⟨⟨⟨⟨h1, h2⟩, h3⟩, h4⟩, h5⟩ := hr
  unfold Passes
  refine passes_of_run (st := kst r) (k := { k with n := k.n + 1 }) rfl ⟨h0.1, ?_, rfl⟩ ⟨rfl, rfl, rfl, rfl, rfl⟩ (by rw [candidate_kst]; exact hk) h1 ⟨h2, h3, h4, h5⟩
  have : (updSession n (fun x => x) s).power.zeroizeN = false := h0.2
  unfold pinRefusals; rw [this]; rfl

def impRec : Octets := keyRecord 6 (leBytes 2 0 ++ leBytes 2 5 ++ padTo 24 attr16 ++ padTo 40 (aesKw kek5 (zeros 16)))
theorem kekNamed5 (ck : ChuckRun) (need : Nat) (hu : 0x7C &&& need = need) (n : Nat) : ({ s := updSession n (fun x => x) kekked, b := updSession n (fun x => x) kekked, ck := ck } : KeyRun).kekNamed 5 need =
   (0, (filledSlot seeded 0x8005 kekCopy).a, { s := updSession n (fun x => x) kekked, b := updSession n (fun x => x) kekked, ck := ck }) :=
  named_filled (t := seeded) (c := kekCopy) (by rfl) (by rfl) (by rfl) (by rfl) (by rfl) (by rfl) hu
def kek0 : KeyRun := { s := updSession 0 (fun x => x) kekked, b := updSession 0 (fun x => x) kekked, ck := .agree }
theorem import_runs : keyCommand impRec kek0 = (0, (kek0.fill 0 (Attr.ofBlock (slice impRec 8 24)) (zeros 16)).2) := by
  have h : octet impRec 0 = 6 := by decide +kernel
  have e : leAt impRec 6 2 = 5 := by decide +kernel
  have e2 : leAt impRec 4 2 = 0 := by decide +kernel
  have e3 : (Attr.ofBlock (slice impRec 8 24)).keyLen + 8 = 24 := by decide +kernel
  have e4 : aesKwOpen kek5 (slice impRec 32 24) = some (zeros 16) := by decide +kernel
  have e5 : (filledSlot seeded 0x8005 kekCopy).a.key = kek5 := rfl
  unfold keyCommand; rw [h]
  show cmdImport _ _ = _
  unfold cmdImport
  rw [if_neg (by decide +kernel), if_neg (by decide +kernel), if_neg (by decide +kernel), e]
  unfold kek0
  rw [kekNamed5 _ _ (by decide), e2]
  simp only [e3, e5, e4]
  unfold KeyRun.fill
  rw [if_neg (by decide +kernel)]
  rfl


theorem blobCheck_eq {blob : Octets} {sa : Bool} {target n : Nat} {c : Copy} {p : Octets} {k : KeyRun}
    (h1 : blobOuter blob = true ∧ octet blob 3 = (if sa then 3 else if isKek target then 2 else 1) ∧ kekFind k.s (beAt blob 4 8) = some n ∧
      bitAt (k.s.slot (0x8000 + n)).a.usage 2 = true ∧ (k.s.slot (0x8000 + n)).expired = false)
    (hr : k.read (0x8000 + n) = (some c, k)) (hp : aesKwpOpen c.key (blob.drop 16) = some p)
    (h2 : p.length = (if octet blob 3 = 3 then 124 else 80) ∧ p.take 16 = blob.take 16 ∧ plainClean p (octet blob 3) = true ∧ attrReason k.s target (Attr.ofPlain p) (octet blob 3 == 3) = 0 ∧
      inTime k.s (Attr.ofPlain p) = true ∧ rollbackOk k.s p = true ∧ (octet blob 3 == 3 && !blobSaOk p) = false) :
    blobCheck blob sa target k = (0, p, k) := by
  obtain ⟨a1, a2, a3, a4, a5⟩ := h1
  obtain ⟨b1, b2, b3, b4, b5, b6, b7⟩ := h2
  unfold blobCheck
  simp only [a1, a3, a4, a5, hr, Bool.not_true, Bool.false_eq_true, if_false]
  rw [if_neg (by simp [a2])]
  unfold blobInside
  simp only [hp, b2, b3, b4, b5, b6, b7, Bool.not_true, Bool.false_eq_true, if_false, ne_eq, not_true_eq_false]
  rw [if_neg (by simp [b1])]

theorem read_filled {k : KeyRun} {t : State} {n : Nat} {c : Copy} (h1 : k.s.slot n = filledSlot t n c) (h2 : k.b.slot n = filledSlot t n c)
    (g1 : k.s.keys.checkKey = t.keys.checkKey) (g2 : k.b.keys.checkKey = t.keys.checkKey) (i1 : k.s.keys.isoA = false) (i2 : k.b.keys.isoA = false) :
    k.read n = (some (filledSlot t n c).a, k) := by
  unfold KeyRun.read
  simp only [readSlot_filled h1 g1 i1, readSlot_filled h2 g2 i2]

def blobPlain (kind usage : Nat) : Octets := blobHead kind (if kind = 3 then 136 else 88) ++ beBytes 8 77 ++ oct 16 ++ oct usage ++ zeros 14 ++ oct 0xFF ++ zeros 39
def blobK : Octets := blobHead 2 88 ++ beBytes 48 0x9bed9ff042bfae35be318931394fd7254e5159b508e93d06d220e5792c5f1f6e5aa71468ec6d6ff983b4c2a4b9b2a3fe ++ beBytes 40 0x7325c8151636af4a8a1d79edf26a01f9cf9e8125f7ae3fd6f5b31f8a99fe5546483c17d00e95f35b
def derRec : Octets := keyRecord 3 (pad4 (leBytes 2 0 ++ leBytes 2 5 ++ [0, 32, 32] ++ oct 1 ++ leBytes 2 0 ++ zeros 2 ++ padTo 24 attr16 ++ [1] ++ []))
theorem derive_runs : keyCommand derRec kek0 = (0, (kek0.fill 0 (Attr.ofBlock (slice derRec 16 24)) (kdfWith (hmac384 kek5) 48 4 4 [1] [] 128)).2) := by
  have h : octet derRec 0 = 3 := by decide +kernel
  have e1 : targetAt derRec 4 = 0 := by decide +kernel
  have e2 : leAt derRec 6 2 = 5 := by decide +kernel
  have e3 : octet derRec 8 = 0 ∧ octet derRec 9 = 32 ∧ octet derRec 10 = 32 ∧ octet derRec 11 = 1 ∧ leAt derRec 12 2 = 0 := by decide +kernel
  have e4 : attrReason kek0.s 0 (Attr.ofBlock (slice derRec 16 24)) false = 0 := by decide +kernel
  have e5 : (Attr.ofBlock (slice derRec 16 24)).keyLen = 16 := by decide +kernel
  have e6 : slice derRec 40 1 = [1] ∧ slice derRec 41 0 = [] := by decide +kernel
  have hn : kek0.kekNamed 5 8 = (0, (filledSlot seeded 0x8005 kekCopy).a, kek0) := kekNamed5 _ _ (by decide) 0
  have e7 : (filledSlot seeded 0x8005 kekCopy).a.key = kek5 := rfl
  unfold keyCommand; rw [h]
  show cmdDerive _ _ = _
  unfold cmdDerive
  rw [if_neg (by decide +kernel), e1, e2, hn]
  simp only [e3.1, e3.2.1, e3.2.2.1, e3.2.2.2.1, e3.2.2.2.2, e4, e5, e6.1, e7, if_true, ne_eq, not_true_eq_false, if_false]
  unfold KeyRun.fill
  rw [if_neg (by decide +kernel)]
  rfl

def exp0 : KeyRun := { s := updSession 0 (fun x => x) exporting, b := updSession 0 (fun x => x) exporting, ck := .isolates true }
def expRec : Octets := keyRecord 5 (leBytes 2 12 ++ leBytes 2 5 ++ [1] ++ zeros 3)
theorem bare_runs : keyCommand expRec exp0 = (0, { exp0.chucks.2 with exports := leBytes 2 0 ++ leBytes 2 24 ++ aesKw kek5 (zeros 16), exported := true }) := by
  have h : octet expRec 0 = 5 := by decide +kernel
  have e1 : targetAt expRec 4 = 12 := by decide +kernel
  have e2 : leAt expRec 6 2 = 5 := by decide +kernel
  have e3 : octet expRec 8 = 1 := by decide +kernel
  have hn : exp0.kekNamed 5 0x50 = (0, (filledSlot seeded 0x8005 kekCopy).a, exp0) :=
    named_filled (t := seeded) (c := kekCopy) (by rfl) (by rfl) (by rfl) (by rfl) (by rfl) (by rfl) (by decide)
  have hr : exp0.read 12 = (some (filledSlot kekked 12 { key16 with flags := 1 }).a, exp0) :=
    read_filled (by rfl) (by rfl) (by rfl) (by rfl) (by rfl) (by rfl)
  have e7 : (filledSlot seeded 0x8005 kekCopy).a.key = kek5 := rfl
  have e8 : (filledSlot kekked 12 { key16 with flags := 1 }).a.key = zeros 16 := rfl
  have e9 : exp0.chucks.1 = 0 := by decide +kernel
  have e10 : (aesKw kek5 (zeros 16)).length = 24 := by decide +kernel
  have e11 : exp0.chucks.2.n = 0 ∧ exp0.chucks.2.exports = [] := by decide +kernel
  unfold keyCommand; rw [h]
  show cmdExport _ _ = _
  unfold cmdExport
  rw [if_neg (by decide +kernel), if_neg (by decide +kernel), e1, e2, e3]
  simp only [beq_self_eq_true, if_true, hn, hr, e7, e8, e9, e10, e11.1, e11.2, Bool.true_and]
  rw [if_neg (by decide +kernel)]
  rfl
theorem slot_congr {s t : State} (n : Nat) (h : t.keys = s.keys) (h2 : t.rest.shadowBad = s.rest.shadowBad) : t.slot n = s.slot n := by
  unfold State.slot State.shadow; rw [h, h2]
theorem storeRead_keys (sa : Bool) (i : Nat) (s : State) : (storeRead sa i s).2.keys = s.keys := storeRead_keep State.keys (fun _ _ _ _ _ _ _ => rfl) sa i s


theorem entry_eq {sa : Bool} {i : Nat} {k : KeyRun} {o : Octets} (h : (if sa then k.s.keys.saUsed else k.s.keys.blobUsed).contains i = true ∧ mpuReady k.s = true) (hb : k.b = k.s)
    (h2 : (storeRead sa i k.s).1 = some o) :
    k.entry sa i = (some (o.take (if sa then 152 else 104)), { k with s := (storeRead sa i k.s).2, b := (storeRead sa i k.s).2 }) := by
  unfold KeyRun.entry
  simp only [h.1, h.2, hb, h2, Bool.and_self, Bool.not_true, Bool.false_eq_true, if_false, if_true, Option.map_some]

/-- A run after a read of a store entry. -/
def afterRead (sa : Bool) (i : Nat) (s : State) : KeyRun := { s := (storeRead sa i s).2, b := (storeRead sa i s).2, ck := .agree }
theorem kekRead {sa : Bool} {i : Nat} {s : State} (h : (storeRead sa i s).2.rest.shadowBad = s.rest.shadowBad) (h1 : s.slot 0x8005 = filledSlot seeded 0x8005 kekCopy) (h2 : s.keys.checkKey = seeded.keys.checkKey)
    (h3 : s.keys.isoA = false) : (afterRead sa i s).read 0x8005 = (some (filledSlot seeded 0x8005 kekCopy).a, afterRead sa i s) := by
  have hk := storeRead_keys sa i s
  have g1 := (slot_congr 0x8005 hk h).trans h1
  rw [← hk] at h2 h3
  exact read_filled g1 g1 h2 h2 h3 h3

def stored0 : State := updSession 0 (fun x => x) stored
def saPart : Octets := zeros 16 ++ beBytes 8 5 ++ zeros 4 ++ beBytes 4 0xFFFFFFFF ++ zeros 12
def blobS : Octets := blobHead 3 136 ++ beBytes 48 0xcbc8cab255c922214542f81060046d1d01eaf4e7197d3d6d0e6af05f2fc532e93f2183c03e6e281dd8e9dcf305221fbf ++ beBytes 48 0x7a9ffc4ba746318369f5e92fba38d02f033db0b2abcebcbad47fa4728dea53e02301b86d8d37b9c15d9dd8aa8f8f92f9 ++ beBytes 40 0xf0e808af7e3fe607e743dd5e89ed23781db16e960478b8aee224a08ab22617f88e7a0eb28a473c58
theorem openK : aesKwpOpen kek5 (blobK.drop 16) = some (blobPlain 2 4) := by decide +kernel
theorem openS : aesKwpOpen kek5 (blobS.drop 16) = some (blobPlain 3 1 ++ saPart) := by decide +kernel

def chainRun (s : State) : Nat × Nat × KeyRun := chainAll (.sc 0) (chainParts s (.sc 0)) { s := s, b := s, ck := .agree }
theorem fill_ok {target : Nat} {a : Attr} {key : Octets} {k : KeyRun} (h1 : (k.s.slot target).state = .free) (h2 : k.chucks.1 = 0) : k.fill target a key = (0, (k.fill target a key).2) := by
  unfold KeyRun.fill; simp [h1, h2]

def blobRec : Octets := keyRecord 1 (leBytes 2 0x80FF ++ zeros 2 ++ blobK)
theorem blob_run_of {r p : Octets} {k k2 : KeyRun} {target : Nat} (h : octet r 0 = 1 ∧ targetAt r 4 = target) (hb : blobCheck (slice r 8 104) false target k = (0, p, k))
    (hf : k.fill target (Attr.ofPlain p) (slice p 48 (Attr.ofPlain p).keyLen) = (0, k2)) : keyCommand r k = (0, k2) := by
  obtain ⟨h1, h2⟩ := h
  unfold keyCommand; rw [h1]
  show cmdBlob _ _ = _
  unfold cmdBlob
  simp only [h2]
  unfold loadBlob
  simp only [hb, hf]
theorem blob_runs : keyCommand blobRec kek0 = (0, (kek0.fill 0x80FF (Attr.ofPlain (blobPlain 2 4)) (slice (blobPlain 2 4) 48 (Attr.ofPlain (blobPlain 2 4)).keyLen)).2) :=
  have hb : blobCheck blobK false 0x80FF kek0 = (0, blobPlain 2 4, kek0) :=
    blobCheck_eq (n := 5) (c := (filledSlot seeded 0x8005 kekCopy).a) (by decide +kernel) (read_filled (t := seeded) (c := kekCopy) (by rfl) (by rfl) (by rfl) (by rfl) (by rfl) (by rfl)) openK (by decide +kernel)
  have e : slice blobRec 8 104 = blobK := by decide +kernel
  blob_run_of (p := blobPlain 2 4) (by decide +kernel) (e ▸ hb) (fill_ok (by decide +kernel) (by decide +kernel))

theorem import_passes : Passes 0 [(odKey 0x3410 1, impRec)] .agree kekked := passes_of_command import_runs (by decide +kernel) (by decide +kernel) (by decide +kernel)
theorem blob_passes : Passes 0 [(odKey 0x3410 1, blobRec)] .agree kekked := passes_of_command blob_runs (by decide +kernel) (by decide +kernel) (by decide +kernel)
theorem derive_passes : Passes 0 [(odKey 0x3410 1, derRec)] .agree kekked := passes_of_command derive_runs (by decide +kernel) (by decide +kernel) (by decide +kernel)
theorem bare_passes : Passes 0 [(odKey 0x3410 1, expRec)] (.isolates true) exporting := passes_of_command bare_runs (by decide +kernel) (by decide +kernel) (by decide +kernel)

def stRun : KeyRun := { s := stored0, b := stored0, ck := .agree }
theorem stored_slot : stored0.slot 0x8005 = filledSlot seeded 0x8005 kekCopy := by rfl
theorem stored_read {sa : Bool} {i : Nat} (h : (storeRead sa i stored0).2.rest.shadowBad = []) : (afterRead sa i stored0).read 0x8005 = (some (filledSlot seeded 0x8005 kekCopy).a, afterRead sa i stored0) :=
  kekRead h stored_slot (by rfl) (by rfl)
/-- What the blob and its KEK have to show before the unwrapping. -/
def outerOk (k : KeyRun) (blob : Octets) (sa : Bool) (target n : Nat) : Bool :=
  blobOuter blob && octet blob 3 == (if sa then 3 else if isKek target then 2 else 1) && kekFind k.s (beAt blob 4 8) == some n && bitAt (k.s.slot (0x8000 + n)).a.usage 2 && !(k.s.slot (0x8000 + n)).expired
/-- What the plaintext has to show. -/
def innerOk (k : KeyRun) (blob p : Octets) (target : Nat) : Bool :=
  p.length == (if octet blob 3 = 3 then 124 else 80) && p.take 16 == blob.take 16 && plainClean p (octet blob 3) && attrReason k.s target (Attr.ofPlain p) (octet blob 3 == 3) == 0 &&
  inTime k.s (Attr.ofPlain p) && rollbackOk k.s p && !(octet blob 3 == 3 && !blobSaOk p)
theorem blobCheck_ok {blob : Octets} {sa : Bool} {target n : Nat} {c : Copy} {p : Octets} {k : KeyRun} (h1 : outerOk k blob sa target n = true) (hr : k.read (0x8000 + n) = (some c, k))
    (hp : aesKwpOpen c.key (blob.drop 16) = some p) (h2 : innerOk k blob p target = true) : blobCheck blob sa target k = (0, p, k) := by
  simp only [outerOk, innerOk, Bool.and_eq_true, beq_iff_eq, Bool.not_eq_true'] at h1 h2
  obtain ⟨⟨⟨⟨a1, a2⟩, a3⟩, a4⟩, a5⟩ := h1
  obtain ⟨⟨⟨⟨⟨⟨b1, b2⟩, b3⟩, b4⟩, b5⟩, b6⟩, b7⟩ := h2
  exact blobCheck_eq ⟨a1, a2, a3, a4, a5⟩ hr hp ⟨b1, b2, b3, b4, b5, b6, b7⟩

theorem store_run_of {r b p : Octets} {k k1 k2 : KeyRun} {target i : Nat} (h : octet r 0 = 2 ∧ targetAt r 4 = target ∧ leAt r 8 4 = i) (en : k.entry false i = (some b, k1))
    (hb : blobCheck b false target k1 = (0, p, k1)) (hf : k1.fill target (Attr.ofPlain p) (slice p 48 (Attr.ofPlain p).keyLen) = (0, k2)) : keyCommand r k = (0, k2) := by
  obtain ⟨h1, h2, h3⟩ := h
  unfold keyCommand; rw [h1]
  show cmdBlobStore _ _ = _
  unfold cmdBlobStore
  simp only [h2, h3, en]
  unfold loadBlob
  simp only [hb, hf]
theorem load_run_of {r b p : Octets} {k k1 k2 : KeyRun} {index i slot : Nat} (h : octet r 0 = 8 ∧ leAt r 4 4 = index ∧ leAt r 8 2 = i ∧ leAt r 10 2 = slot ∧ i ≤ 32767 ∧ slot ≤ 32767) (en : k.entry true index = (some b, k1))
    (hb : blobCheck b true slot k1 = (0, p, k1)) (hu : saUnused k1.s i = true) (hf : k1.fill slot (Attr.ofPlain p) (slice p 48 (Attr.ofPlain p).keyLen) = (0, k2)) :
    keyCommand r k = (0, { k2 with s := putSa i (saOfPlain p slot index) k2.s, loaded := i :: k2.loaded }) := by
  obtain ⟨h1, h2, h3, h4, h5, h6⟩ := h
  unfold keyCommand; rw [h1]
  show cmdLoadSa _ _ = _
  unfold cmdLoadSa
  simp only [h2, h3, h4, en, hb, hu, hf, Bool.not_true, Bool.false_eq_true, if_false]
  rw [if_neg (by omega)]
theorem entry_read {sa : Bool} {i : Nat} {o x : Octets} (h : (if sa then stored0.keys.saUsed else stored0.keys.blobUsed).contains i = true ∧ mpuReady stored0 = true) (h2 : (storeRead sa i stored0).1 = some o)
    (hx : o.take (if sa then 152 else 104) = x) : stRun.entry sa i = (some x, afterRead sa i stored0) := by
  rw [entry_eq (k := stRun) h rfl h2, hx]; rfl
def bsRec : Octets := keyRecord 2 (leBytes 2 0x80FF ++ zeros 2 ++ leBytes 4 65535)
theorem store_facts : (storeRead false 65535 stored0).1 = some (padTo 128 blobK) ∧ (storeRead false 65535 stored0).2.rest.shadowBad = [] ∧ outerOk (afterRead false 65535 stored0) blobK false 0x80FF 5 = true ∧
    innerOk (afterRead false 65535 stored0) blobK (blobPlain 2 4) 0x80FF = true ∧ ((afterRead false 65535 stored0).s.slot 0x80FF).state = .free ∧ (afterRead false 65535 stored0).chucks.1 = 0 ∧
    runOk bsRec 0 ((afterRead false 65535 stored0).fill 0x80FF (Attr.ofPlain (blobPlain 2 4)) (slice (blobPlain 2 4) 48 (Attr.ofPlain (blobPlain 2 4)).keyLen)).2 stored0 = true := by decide +kernel
theorem store_runs : keyCommand bsRec stRun = (0, ((afterRead false 65535 stored0).fill 0x80FF (Attr.ofPlain (blobPlain 2 4)) (slice (blobPlain 2 4) 48 (Attr.ofPlain (blobPlain 2 4)).keyLen)).2) :=
  have ⟨h1, h2, h3, h4, h5, h6, _⟩ := store_facts
  store_run_of (b := blobK) (p := blobPlain 2 4) (k1 := afterRead false 65535 stored0) (by decide +kernel) (entry_read (by decide +kernel) h1 (by decide +kernel)) (blobCheck_ok h3 (stored_read h2) openK h4) (fill_ok h5 h6)
theorem store_passes : Passes 0 [(odKey 0x3410 1, bsRec)] .agree stored := passes_of_command store_runs (by decide +kernel) (by decide +kernel) store_facts.2.2.2.2.2.2

/-- The data slot that a chain fills next. -/
def chainSlot (s : State) : Option Nat := firstFrom (fun n => (s.slot n).state == .free) (32768 - s.odNat 0x3432 2) (s.odNat 0x3432 2)
def saRec : Octets := keyRecord 8 (leBytes 4 1048575 ++ leBytes 2 32767 ++ leBytes 2 32767)
def saPlain : Octets := blobPlain 3 1 ++ saPart
theorem load_facts : (storeRead true 1048575 stored0).1 = some (padTo 256 blobS) ∧ (storeRead true 1048575 stored0).2.rest.shadowBad = [] ∧ outerOk (afterRead true 1048575 stored0) blobS true 32767 5 = true ∧
    innerOk (afterRead true 1048575 stored0) blobS saPlain 32767 = true ∧ ((afterRead true 1048575 stored0).s.slot 32767).state = .free ∧ (afterRead true 1048575 stored0).chucks.1 = 0 ∧
    saUnused (afterRead true 1048575 stored0).s 32767 = true ∧ chainSlot (afterRead true 1048575 stored0).s = some 32767 ∧ (afterRead true 1048575 stored0).s.keys.sa.any (fun z => z.2.live && z.2.slot == 32767) = false ∧ runOk saRec 0 { ((afterRead true 1048575 stored0).fill 32767 (Attr.ofPlain saPlain) (slice saPlain 48 (Attr.ofPlain saPlain).keyLen)).2 with s := putSa 32767 (saOfPlain saPlain 32767 1048575) ((afterRead true 1048575 stored0).fill 32767 (Attr.ofPlain saPlain) (slice saPlain 48 (Attr.ofPlain saPlain).keyLen)).2.s, loaded := 32767 :: ((afterRead true 1048575 stored0).fill 32767 (Attr.ofPlain saPlain) (slice saPlain 48 (Attr.ofPlain saPlain).keyLen)).2.loaded } stored0 = true := by decide +kernel
theorem load_runs : keyCommand saRec stRun = (0, { ((afterRead true 1048575 stored0).fill 32767 (Attr.ofPlain saPlain) (slice saPlain 48 (Attr.ofPlain saPlain).keyLen)).2 with s := putSa 32767 (saOfPlain saPlain 32767 1048575) ((afterRead true 1048575 stored0).fill 32767 (Attr.ofPlain saPlain) (slice saPlain 48 (Attr.ofPlain saPlain).keyLen)).2.s, loaded := 32767 :: ((afterRead true 1048575 stored0).fill 32767 (Attr.ofPlain saPlain) (slice saPlain 48 (Attr.ofPlain saPlain).keyLen)).2.loaded }) :=
  have ⟨h1, h2, h3, h4, h5, h6, h7, _, _, _⟩ := load_facts
  load_run_of (b := blobS) (p := saPlain) (k1 := afterRead true 1048575 stored0) (by decide +kernel) (entry_read (by decide +kernel) h1 (by decide +kernel)) (blobCheck_ok h3 (stored_read h2) openS h4) h7 (fill_ok h5 h6)
theorem load_passes : Passes 0 [(odKey 0x3410 1, saRec)] .agree stored := passes_of_command load_runs (by decide +kernel) (by decide +kernel) load_facts.2.2.2.2.2.2.2.2.2

theorem chain_run_of {u : RollUser} {p : ChainPart} {k k1 k2 : KeyRun} {b q : Octets} {index slot : Nat} (h1 : (k.s.sa p.incoming).succ = index ∧ index ≠ 0xFFFFFFFF ∧ p.outgoing ≠ 0xFFFF)
    (en : k.entry true index = (some b, k1)) (h2 : chainSlot k1.s = some slot) (hb : blobCheck b true slot k1 = (0, q, k1))
    (h3 : ((saOfPlain q slot index).rx != p.rx || (saOfPlain q slot index).trib != (p.suite.isNone) || p.suite.any (fun n => n != (saOfPlain q slot index).suite)) = false ∧ (saOfPlain q slot index).rollAt = 0)
    (h5 : k1.s.keys.sa.any (fun z => z.2.live && z.2.slot == slot) = false) (hf : k1.fill slot (Attr.ofPlain q) (slice q 48 (Attr.ofPlain q).keyLen) = (0, k2)) :
    chainAll u [p] k = (0, 0, { k2 with s := chainPlace u p.dir p.outgoing (putSa p.outgoing (saOfPlain q slot index) k2.s) }) := by
  obtain ⟨a1, a2, a3⟩ := h1
  unfold chainSlot at h2
  unfold chainAll chainOne
  simp only [a1, a2, a3, en, h2, hb, h3.1, h3.2, h5, hf, if_false, Bool.false_eq_true, ne_eq, not_true_eq_false, false_and]
  rfl
theorem chain_parts : chainParts stored0 (.sc 0) = [{ incoming := 9, outgoing := 32767, rx := false, suite := some 0, dir := .s2l }] := by rfl
theorem chain_runs : chainAll (.sc 0) (chainParts stored0 (.sc 0)) { s := stored0, b := stored0, ck := .agree } = (0, 0, { ((afterRead true 1048575 stored0).fill 32767 (Attr.ofPlain saPlain) (slice saPlain 48 (Attr.ofPlain saPlain).keyLen)).2 with s := chainPlace (.sc 0) .s2l 32767 (putSa 32767 (saOfPlain saPlain 32767 1048575) ((afterRead true 1048575 stored0).fill 32767 (Attr.ofPlain saPlain) (slice saPlain 48 (Attr.ofPlain saPlain).keyLen)).2.s) }) :=
  have ⟨h1, h2, h3, h4, h5, h6, _, h8, h9, _⟩ := load_facts
  chain_parts ▸ chain_run_of (b := blobS) (q := saPlain) (k1 := afterRead true 1048575 stored0) (by decide +kernel) (entry_read (by decide +kernel) h1 (by decide +kernel)) h8 (blobCheck_ok h3 (stored_read h2) openS h4) (by decide +kernel) h9 (fill_ok h5 h6)

/-! ## The Urzidun channel -/


/-! ## Messages of the channel -/

theorem front_of {types : List Nat} {s : State} {p : PD} {d : Octets} {rest : List (PD × Octets)} (h : s.urz.accepted = (p, d) :: rest) (h2 : types.contains (urzType (urzBody s d)) = true) :
    urzFront types s = some (p, d, { s with urz := { s.urz with accepted := rest } }) := by
  unfold urzFront; simp only [h, h2, if_true]

theorem channelKey_filled {s t : State} {sub n : Nat} {c : Copy} (h1 : s.odNat 0x1010 sub = n) (hn : n ≠ 0xFF) (h2 : s.slot (0x8000 + n) = filledSlot t (0x8000 + n) c)
    (h3 : s.keys.checkKey = t.keys.checkKey) (h4 : s.keys.isoA = false) (hu : bitAt c.usage 5 = true) : channelKey s sub = some c.key := by
  have e : (filledSlot t (0x8000 + n) c).expired = false := rfl
  have e2 : (filledSlot t (0x8000 + n) c).a.usage = c.usage := rfl
  have e3 : (filledSlot t (0x8000 + n) c).a.key = c.key := rfl
  unfold channelKey
  simp only [h1, hn, if_false, readSlot_filled h2 h3 h4, h2, e, e2, e3, hu]
  simp

theorem urzSealing_open {s : State} {m k : Octets} (h : urzType m = 1 ∧ octet m 22 = 0) (h3 : partKey s = some k) : urzSealing s m = some (k, [], []) := by
  unfold urzSealing; simp only [h.1, h.2, h3]; rfl

theorem part_key (m : List (PD × Octets)) : partKey (part7 m) = some kek5 :=
  channelKey_filled (t := up) (n := 5) (c := { key := kek5, usage := 0x20 }) (by rfl) (by decide) (by rfl) (by rfl) (by rfl) (by decide)
theorem domain_key (m : List (PD × Octets)) : domainKey (part7 m) = some kek5 :=
  channelKey_filled (t := up) (n := 6) (c := { key := kek5, usage := 0x20 }) (by rfl) (by decide) (by rfl) (by rfl) (by rfl) (by decide)
theorem part_key_after (m : Octets) : partKey (after m) = some kek5 :=
  channelKey_filled (t := up) (n := 5) (c := { key := kek5, usage := 0x20 }) (by rfl) (by decide) (by rfl) (by rfl) (by rfl) (by decide)
theorem part_key_dry (m : Octets) : partKey { after m with rng := {} } = some kek5 :=
  channelKey_filled (t := up) (n := 5) (c := { key := kek5, usage := 0x20 }) (by rfl) (by decide) (by rfl) (by rfl) (by rfl) (by decide)

/-! ## Tokens -/


def counted : State := { up with rest := { up.rest with monotonic := [(63, 0xFFFFFFFF)] } }
def lockedOwned : State := { owned with rest := { owned.rest with state := .locked } }
def ust (v : Octets) : Tab Octets := [(odKey 0x5020 2, v)]
def dst (v : Octets) : Tab Octets := [(odKey 0x5030 1, v)]
def locked0 : State := updSession 0 (fun x => x) lockedOwned
def owned0 : State := updSession 0 (fun x => x) owned
theorem candidate_one {idx sub : Nat} {v : Octets} {k : Nat} {s : State} (h : (entryAt (odKey idx sub / 256) (odKey idx sub % 256)).all (fun e => !plainEntry (odKey idx sub / 256) e) = true)
    (h2 : ∀ u, putPlains [(odKey idx sub, v)] s = u → candidate k [(odKey idx sub, v)] s = u) : candidate k [(odKey idx sub, v)] s = s := by
  apply h2
  unfold putPlains
  rw [List.foldl_cons, List.foldl_nil]
  unfold putPlain
  dsimp only
  split
  · rfl
  · rename_i e he
    rw [he] at h
    simp only [Option.all_some, Bool.not_eq_true'] at h
    rw [h]; rfl
theorem unlock_cand (v : Octets) : candidate 0 (ust v) locked0 = locked0 := candidate_one (by decide +kernel) (fun u h => by unfold candidate; rw [h]; rfl)
theorem debug_cand (v : Octets) : candidate 0 (dst v) owned0 = owned0 := candidate_one (by decide +kernel) (fun u h => by unfold candidate; rw [h]; rfl)
theorem unlock_range (v : Octets) : keyRange locked0 locked0 (ust v) .agree = { fails := [], base := locked0, cand := locked0, run := { s := locked0, b := locked0, ck := .agree } } := by
  have h : locked0.locked = true ∧ tableFailures locked0 = [] := by decide +kernel
  have h1 : pinRefusals locked0 (ust v) = [] := by unfold pinRefusals; rw [show locked0.power.zeroizeN = false from rfl]; rfl
  unfold keyRange
  simp only [h.1, h.2, h1, if_true]
  rfl
theorem entry_one {idx sub : Nat} {v : Octets} {s : State} {e : Entry} (he : entryAt (odKey idx sub / 256) (odKey idx sub % 256) = some e) (h : (e.acc == .rwl && s.locked) = false) (h1 : e.within = .any)
    (h2 : e.ty = .octets 160) : entryFailures s [(odKey idx sub, v)] = [] := by
  have hr : e.inRange v = true := by unfold Entry.inRange; rw [h1, h2]; rfl
  simp only [entryFailures, List.filterMap_cons, List.filterMap_nil, he, h, hr, Bool.false_eq_true, if_false, if_true]
theorem unlock_rest_entry (v : Octets) : entryFailures locked0 (ust v) = [] := entry_one (e := ((entryAt (odKey 0x5020 2 / 256) (odKey 0x5020 2 % 256)).get (by decide +kernel))) (Option.some_get _).symm (by decide +kernel) (by decide +kernel) (by decide +kernel)
theorem unlock_rest_0 (v : Octets) : hostFailures locked0 locked0 (ust v) = [] := by with_unfolding_all rfl
theorem unlock_rest_1 (v : Octets) : rulesAfter locked0 (ust v) = [] := by with_unfolding_all rfl
theorem unlock_rest_2 (v : Octets) : classFailures locked0 locked0 (ust v) [] = [] := by unfold classFailures; rw [show classifies (ust v) = false from by simp [classifies, stagedIn, ust, odKey]]; rfl
theorem unlock_rest_3 (v : Octets) : deltaOk 0x2411 1 32 16384 (ust v) = true := by with_unfolding_all rfl
theorem unlock_rest_4 (v : Octets) : otnFailures (ust v) = [] := by with_unfolding_all rfl
theorem unlock_rest_5 (v : Octets) : fabricFailures locked0 locked0 (ust v) = [] := by with_unfolding_all rfl
theorem unlock_rest_6 (v : Octets) : queueFailures locked0 locked0 (ust v) = [] := by with_unfolding_all rfl
theorem unlock_rest_7 (v : Octets) : timeFailures locked0 locked0 (ust v) = [] := by with_unfolding_all rfl
theorem unlock_rest_8 (v : Octets) : slotFailures locked0 locked0 0 (ust v) = [] := by with_unfolding_all rfl
theorem unlock_rest_9 (v : Octets) : testFailures locked0 locked0 (ust v) = [] := by with_unfolding_all rfl
theorem unlock_rest_10 (v : Octets) : powerFailures locked0 locked0 (ust v) = [] := by with_unfolding_all rfl
theorem unlock_rest_shape : shapeFailures locked0 locked0 = [] := by decide +kernel
theorem unlock_rest (v : Octets) : checkFailures locked0 locked0 0 (ust v) (rulesAfter locked0 (ust v)) = [] := by
  unfold checkFailures
  rw [unlock_rest_1, unlock_rest_entry, unlock_rest_0, unlock_rest_2, unlock_rest_shape, unlock_rest_3, unlock_rest_4, unlock_rest_5, unlock_rest_6, unlock_rest_7, unlock_rest_8, unlock_rest_9, unlock_rest_10]
  rfl
theorem unlock_passes {v : Octets} (h : tokenCheck locked0 v false = none) : Passes 0 [(odKey 0x5020 2, v)] .agree lockedOwned := by
  show firstFailure (checkCommit 0 (ust v) .agree [] locked0).fails = none
  unfold checkCommit tokenChecked ownerChecked enrollChecked
  rw [show stagedAt (ust v) 0x5020 2 = some v from rfl, show stagedAt (ust v) 0x5030 1 = none from rfl, show stagedAt (ust v) 0x3421 1 = none from rfl, show stagedAt (ust v) 0x3421 3 = none from rfl,
    show stagedAt (ust v) 0x3422 1 = none from rfl, unlock_cand, unlock_range]
  simp only [h, unlock_rest, Checked.refused, List.append_nil]
  rfl
theorem debug_tables (v : Octets) : keyTablesPut owned0 (dst v) (storesPut (dst v) owned0) = owned0 := by with_unfolding_all rfl
theorem debug_range (v : Octets) : keyRange owned0 owned0 (dst v) .agree = { fails := [], base := owned0, cand := owned0, run := { s := owned0, b := owned0, ck := .agree } } := by
  have h : owned0.locked = false := by decide +kernel
  have h1 : pinRefusals owned0 (dst v) = [] := by unfold pinRefusals; rw [show owned0.power.zeroizeN = false from rfl]; rfl
  have h2 : storeFailures owned0 (dst v) = [] := by with_unfolding_all rfl
  have h3 : stagedAt (dst v) 0x3410 1 = none := rfl
  have h4 : keyFailures owned0 owned0 [] (dst v) = [] := by with_unfolding_all rfl
  have h5 : ∀ k, keyCommands 1 [] k = k := fun _ => rfl
  unfold keyRange
  simp only [h, h1, h2, h3, h4, h5, debug_tables, Option.getD_none, List.length_nil, List.isEmpty_nil, Bool.not_true, Bool.false_eq_true, if_false]
  rfl
theorem debug_rest_entry (v : Octets) : entryFailures owned0 (dst v) = [] := entry_one (e := ((entryAt (odKey 0x5030 1 / 256) (odKey 0x5030 1 % 256)).get (by decide +kernel))) (Option.some_get _).symm (by decide +kernel) (by decide +kernel) (by decide +kernel)
theorem debug_rest_0 (v : Octets) : hostFailures owned0 owned0 (dst v) = [] := by with_unfolding_all rfl
theorem debug_rest_1 (v : Octets) : rulesAfter owned0 (dst v) = [] := by with_unfolding_all rfl
theorem debug_rest_2 (v : Octets) : classFailures owned0 owned0 (dst v) [] = [] := by unfold classFailures; rw [show classifies (dst v) = false from by simp [classifies, stagedIn, dst, odKey]]; rfl
theorem debug_rest_3 (v : Octets) : deltaOk 0x2411 1 32 16384 (dst v) = true := by with_unfolding_all rfl
theorem debug_rest_4 (v : Octets) : otnFailures (dst v) = [] := by with_unfolding_all rfl
theorem debug_rest_5 (v : Octets) : fabricFailures owned0 owned0 (dst v) = [] := by with_unfolding_all rfl
theorem debug_rest_6 (v : Octets) : queueFailures owned0 owned0 (dst v) = [] := by with_unfolding_all rfl
theorem debug_rest_7 (v : Octets) : timeFailures owned0 owned0 (dst v) = [] := by with_unfolding_all rfl
theorem debug_rest_8 (v : Octets) : slotFailures owned0 owned0 0 (dst v) = [] := by with_unfolding_all rfl
theorem debug_rest_9 (v : Octets) : testFailures owned0 owned0 (dst v) = [] := by with_unfolding_all rfl
theorem debug_rest_10 (v : Octets) : powerFailures owned0 owned0 (dst v) = [] := by with_unfolding_all rfl
theorem debug_rest_shape : shapeFailures owned0 owned0 = [] := by decide +kernel
theorem debug_rest (v : Octets) : checkFailures owned0 owned0 0 (dst v) (rulesAfter owned0 (dst v)) = [] := by
  unfold checkFailures
  rw [debug_rest_1, debug_rest_entry, debug_rest_0, debug_rest_2, debug_rest_shape, debug_rest_3, debug_rest_4, debug_rest_5, debug_rest_6, debug_rest_7, debug_rest_8, debug_rest_9, debug_rest_10]
  rfl
theorem debug_passes {v : Octets} (h : tokenCheck owned0 v true = none) : Passes 0 [(odKey 0x5030 1, v)] .agree owned := by
  show firstFailure (checkCommit 0 (dst v) .agree [] owned0).fails = none
  unfold checkCommit tokenChecked ownerChecked enrollChecked
  rw [show stagedAt (dst v) 0x5020 2 = none from rfl, show stagedAt (dst v) 0x5030 1 = some v from rfl, show stagedAt (dst v) 0x3421 1 = none from rfl, show stagedAt (dst v) 0x3421 3 = none from rfl,
    show stagedAt (dst v) 0x3422 1 = none from rfl, debug_cand, debug_range]
  simp only [h, debug_rest, Checked.refused, List.append_nil]
  rfl
theorem token_fits {v : Octets} (h : v.length = 160) : Fits 0x5020 2 v ∧ Fits 0x5030 1 v := by
  constructor
  · show decide (v.length = 160) = true
    simpa using h
  · show decide (v.length = 160) = true
    simpa using h

/-! ## Witnesses: for each statement, states and operands that meet the hypotheses of each of its clauses -/


theorem witness_GougeParsesFrame : (∃ (pd : PD) (c : Fin 8) (g : Fin 16) (header : Octets) (len : Nat) (s : State), ethPort s pd.port = true ∧ clusterOf s pd.port (s.pd pd).nextSeq = c.val ∧ clusterUp s c = true ∧ s.cls.outOfService.contains (16 * c.val + g.val) = false ∧ (s.pd pd).closed = false ∧ findFrm s (fun f => f.gouge == some (c.val, g.val) && !f.parsed) = none ∧ frmToParse s pd = none) ∧
    (∃ (pd : PD) (c : Fin 8) (g : Fin 16) (header : Octets) (len id : Nat) (f : Machine.Frm) (s : State), ethPort s pd.port = true ∧ frmToParse s pd = some (id, f) ∧ s.path.frames.find id = some f ∧ clusterOf s pd.port f.seq = c.val ∧ clusterUp s c = true ∧ s.cls.outOfService.contains (16 * c.val + g.val) = false ∧ findFrm s (fun f => f.gouge == some (c.val, g.val) && !f.parsed) = none) ∧
    (∃ (c : Fin 8) (g : Fin 16) (id : Nat) (f f' : Machine.Frm) (s : State), findFrm s (fun f => f.gouge == some (c.val, g.val) && !f.parsed) = some (id, f) ∧ s.path.frames.find id = some f') :=
  ⟨⟨sysIn, 0, 15, [], 0, eth, by decide +kernel⟩,
    ⟨sysIn, 0, 15, [], 0, 3, { pd := sysIn, stage := .accepted }, holding { pd := sysIn, stage := .accepted } eth, by decide +kernel⟩,
    ⟨7, 0, 3, { pd := lastPd, gouge := some (7, 0) }, { pd := lastPd, gouge := some (7, 0) }, holding { pd := lastPd, gouge := some (7, 0) } eth, by decide +kernel⟩⟩

theorem witness_FramesAreAcceptedInSequence : (∃ (p : PD) (data : Octets) (ago pool : Nat) (s : State), ethPort s p.port = true ∧ laneUp s p = true ∧ (s.pd p).closed = false ∧ findFrm s (fun f => f.pd == p && f.stage == .receiving) = none ∧ 60 ≤ data.length ∧ data.length + 4 ≤ s.odNat 0x2402 (p.port + 1) ∧ be16 data 12 ≠ 0x8808 ∧ poolFor s flightOrder (occupancy (data.length + 4)) = some pool) ∧
    (∃ (p : PD) (i : Fin 256) (payload overhead : Octets) (jc : Octets) (pool : Nat) (s : State), (s.tr i).valid = true ∧ otnShape s (tribPair s i) ≠ 0 ∧ p.port.val = 4 * tribPair s i ∧ laneUp s p = true ∧ (s.pd p).closed = false ∧ poolFor s flightOrder (occupancy 15232) = some pool) ∧
    (∃ (q : Fin 512) (frame d x : Octets) (rest : List (Octets × Octets)) (s : State), (s.ring (576 + q)).posted = (d, x) :: rest ∧ (s.ring (576 + q)).state = 1 ∧ injectRoom s = true ∧ injectStatus s d frame = 0) ∧
    (∃ (i : Inject) (rest : List Inject) (pool : Nat) (s : State), s.path.inject = i :: rest ∧ poolFor s flightOrder (occupancy (i.data.length + 4)) = some pool) :=
  ⟨⟨lastPd, zeros 60, 0, 0, eth, by decide +kernel⟩,
    ⟨sysIn, 0, [], [], [], 0, otn, by decide +kernel⟩,
    ⟨0, zeros 60, zeros 8 ++ [60, 0] ++ zeros 22, [], [], { eth with host := { eth.host with rings := [(576, { state := 1, posted := [(zeros 8 ++ [60, 0] ++ zeros 22, [])] })] } }, by decide +kernel⟩,
    ⟨{ pd := sysIn, data := [], origin := .host, treatment := 0, stamp := false, sc := 0, queue := none, ingress := 0, report := none, ring := none, dreq := none }, [], 0, { eth with path := { eth.path with inject := [{ pd := sysIn, data := [], origin := .host, treatment := 0, stamp := false, sc := 0, queue := none, ingress := 0, report := none, ring := none, dreq := none }] } }, by decide +kernel⟩⟩

theorem witness_ReceivedPauseHoldsTheSystemPort : (∃ (n : Fin 32) (q : BitVec 16) (s : State), ethPort s n = true ∧ draining s n = false) ∧
    (∃ (n : Fin 32) (en : BitVec 8) (times : List (BitVec 16)) (s : State), ethPort s n = true ∧ draining s n = false) ∧
    (∃ (n : Fin 32) (c : Nat) (s : State), (s.pd ⟨n, .l2s⟩).pausedUntil = some c) ∧
    (∃ (n : Fin 32) (k : Fin 8) (c : Nat) (s : State), (s.pd ⟨n, .l2s⟩).pfcUntil.find k = some c) :=
  ⟨⟨28, 0, eth, by decide +kernel⟩,
    ⟨0, 0x81, [], eth, by decide +kernel⟩,
    ⟨31, 5, updPd ⟨31, .l2s⟩ (fun r => { r with pausedUntil := some 5 }) eth, by decide +kernel⟩,
    ⟨31, 7, 5, updPd ⟨31, .l2s⟩ (fun r => { r with pfcUntil := [(7, 5)] }) eth, by decide +kernel⟩⟩

theorem witness_LinkFaultsPropagate : (∃ (n : Fin 32) (sd : Side) (loc : Bool) (s : State), s.odNat 0x2403 (n + 1) = 1 ∧ (s.link n).faultSys = false ∧ (s.link n).faultLine = false) ∧
    (∃ (n : Fin 32) (sd : Side) (s : State), s.odNat 0x2403 (n + 1) = 1 ∧ sideFault s n sd = true ∧ sideFault s n sd.other = false) ∧
    (∃ (n : Fin 32) (c : Nat) (s : State), (s.pd ⟨n, .s2l⟩).refreshAt = some c ∧ (s.pd ⟨n, .s2l⟩).xoff = true ∧ (s.odNat 0x3804 (n + 1) = 1 ∨ s.odNat 0x3804 (n + 1) = 2) ∧ draining s n = false ∧ (s.pd ⟨n, .l2s⟩).launchList = []) ∧
    (∃ (n : Fin 32) (c : Nat) (s : State), (s.pd ⟨n, .s2l⟩).refreshAt = some c ∧ s.odNat 0x3804 (n + 1) ≠ 1 ∧ s.odNat 0x3804 (n + 1) ≠ 2) :=
  ⟨⟨31, .line, true, withOd [(0x2403, 32, [1])] eth, by decide +kernel⟩,
    ⟨0, .system, { withOd [(0x2403, 1, [1])] eth with path := { eth.path with links := [(0, { faultSys := true })] } }, by decide +kernel⟩,
    ⟨0, 9, updPd ⟨0, .s2l⟩ (fun r => { r with refreshAt := some 9, xoff := true }) (withOd [(0x3804, 1, [1])] eth), by decide +kernel⟩,
    ⟨0, 9, updPd ⟨0, .s2l⟩ (fun r => { r with refreshAt := some 9 }) (withOd [(0x3804, 1, [0])] eth), by decide +kernel⟩⟩

theorem witness_ClassificationSettlesFrames : (∃ (p : PD) (id : Nat) (f : Machine.Frm) (s : State), nextFrm s p (fun f => f.stage == .accepted && (f.parsed || f.gouge.isSome)) = some (id, f) ∧ s.path.frames.find id = some f ∧ kvFlag f.kv 15 = true) ∧
    (∃ (p : PD) (id : Nat) (f : Machine.Frm) (a : BitVec 128) (s : State), nextFrm s p (fun f => f.stage == .accepted && (f.parsed || f.gouge.isSome)) = some (id, f) ∧ s.path.frames.find id = some f ∧ kvFlag f.kv 15 = false ∧ kvFlag f.kv 14 = false ∧ malformedAction s f = 0 ∧ kvFlag f.kv 1 = false ∧ kvFlag f.kv 0 = false ∧ walkFrame s false f = .hit a ∧ bitAt a.toNat 124 = false ∧ ((bits a.toNat 127 125 = 1 ∨ bits a.toNat 127 125 = 2))) ∧
    (∃ (p : PD) (id : Nat) (f : Machine.Frm) (a : BitVec 128) (s : State), nextFrm s p (fun f => f.stage == .accepted && (f.parsed || f.gouge.isSome)) = some (id, f) ∧ s.path.frames.find id = some f ∧ kvFlag f.kv 15 = false ∧ kvFlag f.kv 14 = false ∧ malformedAction s f = 0 ∧ kvFlag f.kv 1 = false ∧ kvFlag f.kv 0 = false ∧ walkFrame s false f = .hit a ∧ bitAt a.toNat 124 = true ∧ ((bits a.toNat 127 125 = 1 ∨ bits a.toNat 127 125 = 2))) ∧
    (∃ (p : PD) (id : Nat) (f : Machine.Frm) (ls : List Nat) (a : BitVec 128) (s : State), nextFrm s p (fun f => f.stage == .waitFill) = some (id, f) ∧ s.path.frames.find id = some f ∧ walkFrame (settleRewrites s) false f = .fill ls ∧ walkFrame (fillBlock f (settleRewrites s)) true f = .hit a ∧ bitAt a.toNat 124 = false ∧ ((bits a.toNat 127 125 = 1 ∨ bits a.toNat 127 125 = 2))) ∧
    (∃ (p : PD) (s : State), nextFrm s p (fun f => f.stage == .accepted && (f.parsed || f.gouge.isSome)) = none) ∧
    (∃ (id : Nat) (f : Machine.Frm) (s : State), policeNext s = some (id, f) ∧ policeNext (settleClass id (match (police (bits f.action.toNat 123 112) f s).1 with | some c => .drop c | none => actionVerdict f.action.toNat) (police (bits f.action.toNat 123 112) f s).2) = none) ∧
    (∃ s : State, policeNext s = none) :=
  ⟨⟨sysIn, 3, badFcs, holding badFcs eth, by decide +kernel⟩,
    ⟨sysIn, 3, plain, 1 <<< 125, walked false plain, by decide +kernel⟩,
    ⟨sysIn, 3, plain, 3 <<< 124, { walked false plain with cls := { (walked false plain).cls with lines := [(0, 3 <<< 124), (1, (2 <<< 510) ||| (1 <<< 506))] } }, by decide +kernel⟩,
    ⟨sysIn, 3, { plain with stage := .waitFill }, [0], 1 <<< 125, walked true { plain with stage := .waitFill }, by decide +kernel⟩,
    ⟨sysIn, eth, by decide +kernel⟩,
    ⟨3, { plain with stage := .policing, action := 3 <<< 124 }, holding { plain with stage := .policing, action := 3 <<< 124 } eth, by decide +kernel⟩,
    ⟨eth, by decide +kernel⟩⟩

theorem witness_CutsSwitchWhole : (∃ (j : Job) (tree : Compiled) (s : State), s.ctl.job = some j ∧ j.waiting = false ∧ Quiet (jobOut s) ∧ ((j.expected = 0 ∨ j.expected = s.ctl.generation.toNat)) ∧ (∀ q ∈ j.staged, odKey 0x2000 0 ≤ q.1 ∧ q.1 < odKey 0x2400 0) ∧ j.staged ≠ [] ∧ j.cut ≠ s.currentCut ∧ (∀ c ∈ (jobOut s).cls.cuts, c.number ≠ j.cut) ∧ compiledOk (jobOut s) tree (newCut (jobOut s) (candidate j.session j.staged (jobOut s)) j.cut (rulesAfter (jobOut s) j.staged) tree) = true ∧ Passes j.session j.staged j.chucks (jobOut s)) ∧
    (∃ (n : BitVec 8) (c : Cut) (s : State), s.cls.cuts.find? (fun x => x.number == n.toNat) = some c ∧ c.state = .retiring ∧ cutInUse s n.toNat = false ∧ s.ctl.job = none) ∧
    (∃ (j : Job) (x : Nat) (s : State), s.ctl.job = some j ∧ j.waiting = true ∧ Quiet (jobOut (waitCycle (j.at_ + cyclesUs 1000) s)) ∧ ((j.expected = 0 ∨ j.expected = s.ctl.generation.toNat)) ∧ (∀ q ∈ j.staged, odKey 0x2000 0 ≤ q.1 ∧ q.1 < odKey 0x2400 0) ∧ j.staged ≠ [] ∧ firstFailure (checkCommit j.session j.staged j.chucks (cutFailure j.staged abCut) (jobOut (waitCycle (j.at_ + cyclesUs 1000) s))).fails = some (x, abCut)) :=
  ⟨⟨cutJob, { fits := true, roots := [], lines := [] }, { eth with ctl := { eth.ctl with job := some cutJob } }, ⟨by decide +kernel, by decide +kernel, quiet_of (by decide +kernel), by delta Passes; decide +kernel⟩⟩,
    ⟨5, { number := 5, state := .retiring }, { eth with cls := { eth.cls with cuts := [{ number := 0, state := .current }, { number := 5, state := .retiring }] } }, by decide +kernel⟩,
    ⟨{ cutJob with waiting := true }, odKey 0x2011 1, { eth with ctl := { eth.ctl with job := some { cutJob with waiting := true } } }, ⟨by decide +kernel, by decide +kernel, quiet_of (by decide +kernel), by decide +kernel⟩⟩⟩

theorem witness_HeadstockSettlesInOrder : (∃ (p : PD) (id : Nat) (f : Machine.Frm) (s : State), frameAt s p (s.pd p).settlePtr = some (id, f) ∧ s.path.frames.find id = some f ∧ f.stage = .classified ∧ s.power.parked = false ∧ f.verdict = .bypass ∧ trafficStopped s = false) ∧
    (∃ (p : PD) (id : Nat) (f : Machine.Frm) (s : State), frameAt s p (s.pd p).settlePtr = some (id, f) ∧ s.path.frames.find id = some f ∧ f.stage = .classified ∧ s.power.parked = false ∧ (∀ c, f.verdict ≠ .drop c) ∧ trafficStopped s = true ∧ lockPasses f = false) ∧
    (∃ (p : PD) (id sc : Nat) (f : Machine.Frm) (s : State), frameAt s p (s.pd p).settlePtr = some (id, f) ∧ s.path.frames.find id = some f ∧ f.stage = .classified ∧ s.power.parked = false ∧ f.verdict = .protect ∧ p.dir = .s2l ∧ trafficStopped s = false ∧ f.injSc.getD (bits f.action.toNat 97 84) = sc ∧ sc < 16384 ∧ f.timed = false ∧ (s.sc sc).valid = true ∧ (s.sc sc).rx = false ∧ (s.sc sc).port = p.port.val ∧ (s.sc sc).saAt (s.sc sc).txAn ≠ 0xFFFF ∧ (s.sa ((s.sc sc).saAt (s.sc sc).txAn)).usable = true ∧ (s.sa ((s.sc sc).saAt (s.sc sc).txAn)).rx = false ∧ (s.sa ((s.sc sc).saAt (s.sc sc).txAn)).slot < 32768 ∧ (s.sa ((s.sc sc).saAt (s.sc sc).txAn)).n ≠ lastPn (s.sa ((s.sc sc).saAt (s.sc sc).txAn)).suite ∧ (s.sa ((s.sc sc).saAt (s.sc sc).txAn)).n < noticeAt s (s.sa ((s.sc sc).saAt (s.sc sc).txAn)).suite) ∧
    (∃ (id i : Nat) (f : Machine.Frm) (rest : List Nat) (s : State), s.rest.zeroizing = false ∧ s.power.service ≠ .resetting ∧ s.fab.replay = [] ∧ s.fab.dispatch = id :: rest ∧ dispatchTo s = some i ∧ s.path.frames.find id = some f ∧ s.keys.isoA = false ∧ (s.slot f.desc.slot).state = .filled ∧ (s.slot f.desc.slot).copyBad = 0 ∧ copyOk s f.desc.slot (s.slot f.desc.slot).a = true) :=
  ⟨⟨sysIn, 3, settled .bypass, holding (settled .bypass) eth, by decide +kernel⟩,
    ⟨sysIn, 3, settled .bypass, { holding (settled .bypass) eth with rest := { eth.rest with state := .zeroized } }, ⟨by decide +kernel, by decide +kernel, by decide +kernel, by decide +kernel, nofun, by decide +kernel, by decide +kernel⟩⟩,
    ⟨sysIn, 3, 5, { settled .protect with injSc := some 5 }, secured, by decide +kernel⟩,
    ⟨3, 0, { settled .protect with desc := { slot := 12 } }, [], { holding { settled .protect with desc := { slot := 12 } } (spin 0 { role := .working, credits := 1 } (keyed 12 eth)) with fab := { (spin 0 { role := .working, credits := 1 } eth).fab with dispatch := [3] } }, ⟨by decide +kernel, by decide +kernel, by decide +kernel, by decide +kernel, by decide +kernel, by decide +kernel, by decide +kernel, by decide +kernel, by decide +kernel, copyOk_filled rfl⟩⟩⟩

theorem witness_SpindlesRunTokens : (∃ (i : Fin 28) (id : Nat) (f : Machine.Frm) (s : State), atWork s i = true ∧ (s.spindle i).credits ≠ 0 ∧ s.path.frames.find? (fun q => holds i q.2 && decide (q.2.desc.issued < q.2.desc.tokens)) = some (id, f) ∧ s.path.frames.find id = some f) ∧
    (∃ (i : Fin 28) (id : Nat) (rest : List (Nat × BitVec 2)) (f : Machine.Frm) (s : State), atWork s i = true ∧ (s.spindle i).flight = (id, f.desc.attempt) :: rest ∧ (s.spindle i).injected = false ∧ s.path.frames.find id = some f ∧ holds i f = true) ∧
    (∃ (i : Fin 28) (id : Nat) (a : BitVec 2) (rest : List (Nat × BitVec 2)) (f : Machine.Frm) (s : State), atWork s i = true ∧ (s.spindle i).flight = (id, a) :: rest ∧ (s.spindle i).injected = false ∧ s.path.frames.find id = some f ∧ f.desc.attempt ≠ a) ∧
    (∃ (i : Fin 28) (s : State), atWork s i = true ∧ (s.spindle i).reseedAsked = false ∧ 2 ^ 20 ≤ (s.spindle i).maskCount.toNat) ∧
    (∃ (i : Fin 28) (s : State), atWork s i = true ∧ (s.spindle i).reseedAsked = true ∧ 2 ^ 21 ≤ (s.spindle i).maskCount.toNat) ∧
    (∃ (i : Fin 28) (r : RngReq) (d : Drbg) (s : State), s.rng.queue.find? (fun r => r.who == .maskReseed i.val) = some r ∧ rngCan s = true ∧ s.rng.live = some d) :=
  ⟨⟨27, 3, worked, holding worked (spin 27 { role := .working, credits := 1 } eth), by decide +kernel⟩,
    ⟨27, 3, [], worked, holding worked (spin 27 { role := .draining, flight := [(3, worked.desc.attempt)] } eth), by decide +kernel⟩,
    ⟨27, 3, 1, [], worked, holding worked (spin 27 { role := .draining, flight := [(3, 1)] } eth), by decide +kernel⟩,
    ⟨0, spin 0 { role := .working, maskCount := 2 ^ 20 } eth, by decide +kernel⟩,
    ⟨27, spin 27 { role := .draining, maskCount := 2 ^ 21, reseedAsked := true } eth, by decide +kernel⟩,
    ⟨27, { who := .maskReseed 27, cls := 1, at_ := 0 }, ⟨0, 0⟩, { eth with rng := { readyRng with queue := [{ who := .maskReseed 27, cls := 1, at_ := 0 }] } }, by decide +kernel⟩⟩

theorem witness_FaultsIsolateSpindles : (∃ (i : Fin 28) (c : Instr) (cause : Nat) (s : State), atWork s i = true ∧ ∃ k, c = .spindleFault i k ∧ cause = checkCode k ∧ (s.spindle i).injected = false) ∧
  (∃ (i : Fin 28) (s : State), atWork s i = true ∧ (s.spindle i).flight ≠ []) ∧ (∃ (i : Fin 28) (s : State), atWork s i = true ∧ 2 ^ 32 ≤ (s.spindle i).maskCount) :=
  ⟨⟨27, .spindleFault 27 .transfer, 4, spin 27 { role := .working } eth, by decide +kernel, .transfer, rfl, rfl, by decide +kernel⟩, ⟨27, spin 27 { role := .draining, flight := [3] } eth, by decide +kernel⟩, 0, spin 0 { role := .working, maskCount := 2 ^ 32 } eth, by decide +kernel⟩

theorem witness_TailstockCommitsInOrder : (∃ (p : PD) (id i : Nat) (c : Cause) (f : Machine.Frm) (d : Octets) (s : State), commitHead s p = some (id, { f with data := d }) ∧ s.path.frames.find id = some f ∧ frameAt s p ((s.pd p).commitPtr + 1) = none ∧ commitsHeld s p = false ∧ schedRestarting s p = false ∧ f.verdict = .drop c ∧ c.column = some i ∧ f.desc.tokens = 0) ∧
    (∃ (p : PD) (id : Nat) (f : Machine.Frm) (d : Octets) (s : State), commitHead s p = some (id, { f with data := d }) ∧ s.path.frames.find id = some f ∧ frameAt s p ((s.pd p).commitPtr + 1) = none ∧ commitsHeld s p = false ∧ schedRestarting s p = false ∧ f.verdict = .bypass ∧ p.dir = .s2l ∧ f.timed = false ∧ f.desc.tokens = 0 ∧ queueRefuses s (f.toQueue id d) = none ∧ directOk s (f.toQueue id d) = true) ∧
    (∃ (p : PD) (id : Nat) (f g : Machine.Frm) (d : Octets) (s : State), g = { f with data := d } ∧ commitHead s p = some (id, g) ∧ s.path.frames.find id = some f ∧ frameAt s p ((s.pd p).commitPtr + 1) = none ∧ commitsHeld s p = false ∧ schedRestarting s p = false ∧ f.verdict = .protect ∧ f.odu = none ∧ p.dir = .s2l ∧ f.timed = false ∧ queueRefuses s (f.toQueue id (protectedFrame g)) = none ∧ directOk s (f.toQueue id (protectedFrame g)) = true) ∧
    (∃ (p : PD) (i : Fin 1024) (e : Egr) (s : State), (s.queue p i).items.find? (fun e => e.overflow) = some e ∧ mpuReady s = true ∧ e.pd = p ∧ e.queue = i ∧ (∀ q ∈ quadrantPds p, (s.pd q).heldBack = false) ∧ (egrSpill { e with data := (egrRead e s).1.getD e.data } (egrRead e s).2).isSome = true) :=
  ⟨⟨sysIn, 3, 0, .fcs, readyTo (.drop .fcs) 0, [], holding (readyTo (.drop .fcs) 0) eth, by decide +kernel⟩,
    ⟨sysIn, 3, readyTo .bypass 0, [], holding (readyTo .bypass 0) eth, by decide +kernel⟩,
    ⟨sysIn, 3, readyTo .protect 0, readyTo .protect 0, [], holding (readyTo .protect 0) eth, by decide +kernel⟩,
    ⟨lastPd, 900, { egr with overflow := true }, { queued0 { egr with overflow := true } { shaper := true } eth with mpu := { eth.mpu with keys := (List.range 16).map (fun i => (i, 0)) } }, by decide +kernel⟩⟩

theorem witness_EgressSendsFrames : (∃ (p : PD) (i : Nat) (e : Egr) (rest : List Egr) (d : Octets) (s : State), ethPort s p.port = true ∧ pausedNow s p = false ∧ remoteFault s p.port (outSide p) = false ∧ faultTx s p.port (outSide p) = false ∧ schedRestarting s p = false ∧ (s.pd p).lateList = [] ∧ (s.pd p).lists.get 0 [] = [i] ∧ (s.queue p i).items = e :: rest ∧ e.pd = p ∧ e.overflow = false ∧ pfcPaused s p (s.queue p i).prio = false ∧ (egrRead e s).1 = some d ∧ charged (s.queue p i) (lenR8 e.data) ≤ (if (s.queue p i).credC then (s.queue p i).defC else (s.queue p i).defC + (s.queue p i).quantum) ∧ bufferRoom s p (lenR8 e.data) = true ∧ fitsLine s p (lenR8 e.data) = true) ∧
    (∃ (p : PD) (es : Fin 4) (i : Fin 1024) (te : Nat) (s : State), es.val = p.port.val / 8 ∧ (s.queue p i).portOf (p.port / 8) i = p.port.val ∧ (s.queue p i).posted = some te ∧ 0 < tickAmount s.time.y ∧ (s.queue p i).items ≠ [] ∧ queueActive s p i = true) ∧
    (∃ (p : PD) (e : Egr) (rest : List Egr) (s : State), (s.pd p).launchList = e :: rest ∧ e.pd = p ∧ 0 < tickAmount s.time.y ∧ faultTx s p.port (outSide p) = false ∧ remoteFault s p.port (outSide p) = false ∧ (s.pd p).pausedUntil = none ∧ (s.pd p).pfcUntil = [] ∧ schedRestarting s p = false ∧ bufferRoom s p (lenR8 e.data) = true ∧ (s.pd p).macBusy ≤ launchAt s e - preambleTime s p.port ∧ ((∀ x ∈ (s.pd p).buffer, ∀ a, x.startAt = some a → a + lineTime s p.port (lenR8 x.data) ≤ launchAt s e - preambleTime s p.port))) ∧
    (∃ (p : PD) (e : Egr) (rest : List Egr) (a : Nat) (s : State), (s.pd p).buffer = e :: rest ∧ faultTx s p.port (outSide p) = false ∧ e.startAt = some a ∧ e.report = none) :=
  ⟨⟨lastPd, 900, egr, [], zeros 60, { queued0 egr { port := some 28 } (updPd lastPd (fun r => { r with lists := [(0, [900])] }) eth) with path := { (queued0 egr { port := some 28 } (updPd lastPd (fun r => { r with lists := [(0, [900])] }) eth)).path with nextId := 0 } }, by decide +kernel⟩,
    ⟨lastPd, 3, 900, 7, queued0 egr { port := some 28, posted := some 7 } eth, by decide +kernel⟩,
    ⟨lastPd, { egr with timed := true, launch := 2 ^ 30 }, [], updPd lastPd (fun r => { r with launchList := [{ egr with timed := true, launch := 2 ^ 30 }] }) eth, by decide +kernel⟩,
    ⟨lastPd, { egr with startAt := some 5 }, [], 5, updPd lastPd (fun r => { r with buffer := [{ egr with startAt := some 5 }] }) eth, by decide +kernel⟩⟩

theorem witness_VoltageLoopSteersTheRail : (∃ (rates : List Nat) (s : State), rates.length = 28 ∧ s.odNat 0x3002 1 = 1 ∧ s.fab.frozen = false ∧ 1000000 * supplyNow (avsMeasure rates s) < (100 + s.odNat 0x3002 2) * demandFine s ∧ s.fab.lastCmd + 10 ≤ s.odNat 0x3002 5 ∧ s.odNat 0x3002 4 ≤ s.fab.lastCmd) ∧
    (∃ (rates : List Nat) (s : State), s.odNat 0x3002 1 = 1 ∧ s.fab.frozen = false ∧ (107 + s.odNat 0x3002 2) * demandFine s ≤ 1000000 * supplyNow (avsMeasure rates s) ∧ s.fab.lowStreak + 1 < 10 ∧ 0 < demandFine s) ∧
    (∃ (mv : Nat) (l : List Nat) (s : State), s.fab.avsPending = mv :: l) ∧
    (∃ s : State, s.fab.avsPending ≠ []) ∧
    (∃ s : State, s.fab.frozen = false ∧ ((s.fab.lastCmd + 15 < s.fab.reported ∨ s.fab.reported + 15 < s.fab.lastCmd))) ∧
    (∃ s : State, s.fab.frozen = true) ∧
    (∃ s : State, s.fab.status.getLsbD 0 = true ∧ s.fab.status.getLsbD 1 = true ∧ s.fab.marginAt ≤ s.fab.capacityAt) :=
  ⟨⟨List.replicate 28 0, withOd [(0x3002, 1, [1])] eth, by decide +kernel⟩,
    ⟨List.replicate 28 65535, withOd [(0x3002, 1, [1])] { eth with fab := { eth.fab with spindles := (List.range 24).map (fun i => (i, { role := .working, calib := 65536 })) } }, by decide +kernel⟩,
    ⟨760, [], { eth with fab := { eth.fab with avsPending := [760] } }, by decide +kernel⟩,
    ⟨{ eth with fab := { eth.fab with avsPending := [760] } }, by decide +kernel⟩,
    ⟨{ eth with fab := { eth.fab with reported := 766 } }, by decide +kernel⟩,
    ⟨{ eth with fab := { eth.fab with frozen := true } }, by decide +kernel⟩,
    ⟨{ eth with fab := { eth.fab with status := 3 } }, by decide +kernel⟩⟩

theorem witness_SparesReplaceSpindles : (∃ (i : Fin 28) (kat : KatRun) (e : Nat) (s : State), katPasses kat = true ∧ (s.spindle i).role = .starting ∧ (s.spindle i).why ≠ .rotation ∧ s.rng.queue.any (fun r => r.who == .spareSeed i.val) = false ∧ s.time.cycles + e ≤ (s.spindle i).since + cyclesUs 1000) ∧
    (∃ (i : Fin 28) (kat : KatRun) (e : Nat) (s : State), (s.spindle i).role = .starting ∧ s.rng.queue.any (fun r => r.who == .spareSeed i.val) = false ∧ (s.spindle i).since + cyclesUs 1000 < s.time.cycles + e) ∧
    (∃ (i : Fin 28) (kat : KatRun) (e : Nat) (s : State), katPasses kat = false ∧ (s.spindle i).role = .starting ∧ s.rng.queue.any (fun r => r.who == .spareSeed i.val) = false ∧ s.time.cycles + e ≤ (s.spindle i).since + cyclesUs 1000) ∧
    (∃ (i : Fin 28) (s : State), (s.spindle i).role = .starting) ∧
    (∃ (i : Fin 28) (s : State), (s.spindle i).role = .starting ∧ s.rng.queue.any (fun r => r.who == .spareSeed i.val) = true) ∧
    (∃ (i : Fin 28) (b : Bool) (s : State), (s.spindle i).role = .spare ∧ (s.spindle i).retryAt ≠ 0 ∧ s.fab.rotation = some (i.val, b)) ∧
    (∃ (i : Nat) (s : State), s.odNat 0x3000 1 ≠ 0 ∧ s.power.start = .ready ∧ s.power.parked = false ∧ s.fab.rotation = none ∧ s.fab.failover = [] ∧ swapping s = false ∧ s.power.service = .none ∧ s.fab.status.getLsbD 3 = false ∧ nextSpare (waitCycle (s.fab.rotatedAt + cyclesUs (1000 * s.odNat 0x3000 2)) s) = some i) :=
  ⟨⟨27, { outputs := katExpected, violation := true, parity := true }, 0, spin 27 { role := .starting } eth, ⟨by simp [katPasses], by decide +kernel⟩⟩,
    ⟨27, {}, cyclesUs 1000 + 1, spin 27 { role := .starting } eth, by decide +kernel⟩,
    ⟨27, {}, 0, spin 27 { role := .starting } eth, ⟨by simp [katPasses], by decide +kernel⟩⟩,
    ⟨27, spin 27 { role := .starting } eth, by decide +kernel⟩,
    ⟨27, { (spin 27 { role := .starting } eth) with rng := { readyRng with queue := [{ who := .spareSeed 27, cls := 1, at_ := 0 }] } }, by decide +kernel⟩,
    ⟨27, true, { spin 27 { role := .spare, retryAt := 5 } eth with fab := { (spin 27 { role := .spare, retryAt := 5 } eth).fab with rotation := some (27, true) } }, by decide +kernel⟩,
    ⟨0, { eth with fab := { eth.fab with spindles := (List.range 24).map (fun i => (i + 1, { role := .working })) } }, by decide +kernel⟩⟩

theorem witness_SpindlesLeaveService : (∃ (i : Fin 28) (s : State), (s.spindle i).role = .draining ∧ (s.spindle i).flight = [] ∧ s.path.frames.any (fun q => holds i q.2) = false ∧ (((s.spindle i).why = .lag ∨ wanted s = 0))) ∧
    (∃ (i : Fin 28) (s : State), (s.spindle i).role = .isolated) ∧
    (∃ (i : Fin 28) (run : DiagnosisRun) (s : State), (run.memory && katPasses run.kat) = true ∧ (s.spindle i).role = .diagnosing ∧ wanted s = 0) ∧
    (∃ (i : Fin 28) (run : DiagnosisRun) (s : State), (run.memory && katPasses run.kat) = false ∧ (s.spindle i).role = .diagnosing) ∧
    (∃ (i : Fin 28) (s : State), (s.spindle i).role = .diagnosing) ∧
    (∃ s : State, s.odNat 0x5404 1 ≠ 0 ∧ s.power.parked = false ∧ s.fab.offered = 0 ∧ s.power.start = .ready) ∧
    (∃ (b : Fin 4) (s : State), s.fab.rebuild = some b.val ∧ ((s.power.service ≠ .resetting ∨ b.val = 3))) ∧
    (∃ (b : Fin 4) (s : State), s.fab.rebuild = some b.val ∧ s.power.service = .resetting ∧ b.val < 3) :=
  ⟨⟨27, { spin 27 { role := .draining } eth with power := { eth.power with parked := true } }, by decide +kernel⟩,
    ⟨0, spin 0 { role := .isolated } eth, by decide +kernel⟩,
    ⟨27, { memory := true, kat := { outputs := katExpected, violation := true, parity := true } }, { spin 27 { role := .diagnosing } eth with power := { eth.power with parked := true } }, ⟨by simp [katPasses], by decide +kernel⟩⟩,
    ⟨27, {}, spin 27 { role := .diagnosing } eth, by decide +kernel⟩,
    ⟨0, spin 0 { role := .diagnosing } eth, by decide +kernel⟩,
    ⟨withOd [(0x5404, 1, [1])] eth, by decide +kernel⟩,
    ⟨3, { eth with fab := { eth.fab with rebuild := some 3 } }, by decide +kernel⟩,
    ⟨0, { eth with fab := { eth.fab with rebuild := some 0 }, power := { eth.power with service := .resetting } }, by decide +kernel⟩⟩

theorem witness_RetentionHoldsFrames : (∃ (id : Nat) (d : Octets) (s : State), s.fab.rebuild = none) ∧
    (∃ (id j n : Nat) (d : Octets) (s : State), s.fab.rebuild = none ∧ j ≠ id) ∧
    (∃ (id n : Nat) (s : State), ((∀ b, b < 4 → (s.path.banks.get b []).Rising))) :=
  ⟨⟨3, zeros 64, eth, by decide +kernel⟩,
    ⟨3, 4, 64, zeros 64, eth, by decide +kernel⟩,
    ⟨3, 64, eth, by decide +kernel⟩⟩

theorem witness_AlignersFollowTheirStates : (∃ (k : Fin 8) (sd : Side) (j : Fin 8) (s : State), alignerOn s (.slice k sd j) = true ∧ (s.aligner (.slice k sd j)).am = false ∧ (s.aligner (.slice k sd j)).amRun = 0) ∧
    (∃ (k : Fin 8) (sd : Side) (j : Fin 8) (s : State), alignerOn s (.slice k sd j) = true ∧ (s.aligner (.slice k sd j)).am = true ∧ (s.aligner (.slice k sd j)).amRun = 0) ∧
    (∃ (a : AlignerId) (c : Candidate) (s : State), alignerOn s a = true ∧ (s.aligner a).inFrame = false ∧ examines s a c = true) ∧
    (∃ (a : AlignerId) (c d : Candidate) (s : State), alignerOn s a = true ∧ (s.aligner a).inFrame = false ∧ c.agreements = d.agreements ∧ examines s a c = true ∧ examines s a d = true) ∧
    (∃ (a : AlignerId) (s : State), alignerOn s a = true ∧ (s.aligner a).inFrame = true) ∧
    (∃ (a : AlignerId) (s : State), alignerOn s a = true ∧ (s.aligner a).inFrame = false ∧ (s.aligner a).lof = false) ∧
    (∃ (k : Fin 8) (sd : Side) (j : Fin 8) (s : State), alignerOn s (.slice k sd j) = true ∧ (s.aligner (.slice k sd j)).inFrame = true ∧ (s.aligner (.slice k sd j)).oom = false) ∧
    (∃ (i : Fin 256) (sd : Side) (s : State), (s.tr i).valid = true ∧ (s.aligner (.tributary i sd)).inFrame = true) :=
  ⟨⟨0, .line, 7, otn, by decide +kernel⟩,
    ⟨0, .line, 7, (updAligner (.slice 0 .line 7) (fun r => { r with am := true }) otn), by decide +kernel⟩,
    ⟨.slice 0 .line 7, { cand with offset := 32 }, (updAligner (.slice 0 .line 7) (fun r => { r with am := true }) otn), by decide +kernel⟩,
    ⟨.tributary 0 .system, cand, { cand with offset := 9 }, otn, by decide +kernel⟩,
    ⟨.slice 0 .system 0, framed (.slice 0 .system 0), by decide +kernel⟩,
    ⟨.slice 0 .line 7, (updAligner (.slice 0 .line 7) (fun r => { r with am := true }) otn), by decide +kernel⟩,
    ⟨0, .line, 7, (updAligner (.slice 0 .line 7) (fun r => { r with am := true, inFrame := true }) otn), by decide +kernel⟩,
    ⟨0, .system, framed (.tributary 0 .system), by decide +kernel⟩⟩

theorem witness_DefectsSettleByLayer : (∃ (k : Fin 8) (sd : Side) (b : Fin 19) (w : Fin 3) (s : State), otnShape s k ≠ 0 ∧ ((∀ c < 19, layerOf c < layerOf b → (s.otn.sideRaw.get (sideKey k sd) 0).getLsbD c = false))) ∧
    (∃ (k : Fin 8) (sd : Side) (b : Fin 19) (w : Fin 3) (c : Nat) (s : State), otnShape s k ≠ 0 ∧ c < 19 ∧ layerOf c < layerOf b ∧ (sideDefects s k sd).getLsbD c = true ∧ (s.otn.sideRaw.get (sideKey k sd) 0).getLsbD c = true) ∧
    (∃ (i : Fin 256) (sd : Side) (b : Fin 7) (s : State), (s.tr i).valid = true ∧ bits (sideDefects s (tribPair s i) sd).toNat 18 0 = 0) ∧
    (∃ (i : Fin 256) (w : Fin 3) (s : State), (s.tr i).valid = true ∧ (s.tr i).mode ≠ 0 ∧ bits (sideDefects s (tribPair s i) .line).toNat 18 0 = 0 ∧ s.otn.tribRaw.get i 0 &&& 0x7F00 = 0) ∧
    (∃ (k : Fin 8) (sd : Side) (b : Fin 19) (w : Fin 3) (s : State), b.val ≠ 13) :=
  ⟨⟨0, .line, 18, 0, otn, by decide +kernel⟩,
    ⟨0, .system, 1, 0, 0, { otn with otn := { otn.otn with side := [(0, 1)], sideRaw := [(0, 1)] } }, by decide +kernel⟩,
    ⟨0, .line, 6, otn, by decide +kernel⟩,
    ⟨0, 2, otn, by decide +kernel⟩,
    ⟨7, .line, 18, 0, otn, by decide +kernel⟩⟩

theorem witness_TributariesAreRemappedOnce : (∃ (i : Fin 256) (d : Dir) (e : Nat) (x : PlayItem) (rest : List PlayItem) (s : State), (s.tr i).valid = true ∧ otnShape s (tribPair s i) ≠ 0 ∧ playOf (s.tr i) d = x :: rest ∧ x.place = [] ∧ ((∀ m, mfasNext (s.tr i) d = some m → m = x.mfas))) ∧
    (∃ (i : Fin 256) (d : Dir) (e : Nat) (s : State), (s.tr i).valid = true ∧ otnShape s (tribPair s i) ≠ 0 ∧ playOf (s.tr i) d = []) :=
  ⟨⟨0, .s2l, 7, (playOf (played.tr 0) .s2l).head (by decide +kernel), [], played, ⟨by decide +kernel, by decide +kernel, by decide +kernel, by decide +kernel, nofun⟩⟩,
    ⟨0, .l2s, 7, played, by decide +kernel⟩⟩

theorem witness_MonitoringKeepsItsBins : (∃ (o : SecObs) (s : State), o.entity < 544 ∧ entityOn s o.entity = true ∧ (s.pmEnt o.entity).unavail = false ∧ (nearRec (s.time.secs - 1) (seenOf s o.entity) o).ses = false ∧ (s.pmEnt o.entity).cur15.start ≤ s.time.secs - 1 ∧ (s.pmEnt o.entity).funavail = false ∧ (farRec (s.time.secs - 1) (seenOf s o.entity) o).ses = false) ∧
    (∃ (l : LaneObs) (s : State), 0 < otnShape s l.pair) ∧
    (∃ (p : PD) (m n : Nat) (s : State), ethPort s p.port = true) :=
  ⟨⟨{ entity := 0, blocks := 1000, errored := 1, farBlocks := 1000, farErrored := 0 }, otn, by decide +kernel⟩,
    ⟨{ pair := 0, lane := 3, corrected := 5, uncorrectable := 1, symbols := 9 }, otn, by decide +kernel⟩,
    ⟨sysIn, 1, 2, eth, by decide +kernel⟩⟩

theorem witness_KeyCommandsFillSlots : (∃ (ses : Fin 128) (target : BitVec 16) (attr : Octets) (ck : ChuckRun) (s : State), Commits ses 0x3410 1 (keyRecord 4 (leBytes 2 target.toNat ++ zeros 2 ++ padTo 24 attr)) ck s) ∧
    (∃ (ses : Fin 128) (target source : BitVec 16) (prf cw lw : BitVec 8) (label context attr : Octets) (ck : ChuckRun) (s : State), label.length ≤ 64 ∧ context.length ≤ 256 ∧ Commits ses 0x3410 1 (keyRecord 3 (pad4 (leBytes 2 target.toNat ++ leBytes 2 source.toNat ++ [prf, cw, lw] ++ oct label.length ++ leBytes 2 context.length ++ zeros 2 ++ padTo 24 attr ++ label ++ context))) ck s) ∧
    (∃ (ses : Fin 128) (target kek : BitVec 16) (attr wrapped : Octets) (ck : ChuckRun) (s : State), Commits ses 0x3410 1 (keyRecord 6 (leBytes 2 target.toNat ++ leBytes 2 kek.toNat ++ padTo 24 attr ++ padTo 40 wrapped)) ck s) ∧
    (∃ (ses : Fin 128) (target : BitVec 16) (blob : Octets) (ck : ChuckRun) (s : State), blob.length = 104 ∧ Commits ses 0x3410 1 (keyRecord 1 (leBytes 2 target.toNat ++ zeros 2 ++ blob)) ck s) ∧
    (∃ (ses : Fin 128) (target : BitVec 16) (index : BitVec 32) (ck : ChuckRun) (s : State), Commits ses 0x3410 1 (keyRecord 2 (leBytes 2 target.toNat ++ zeros 2 ++ leBytes 4 index.toNat)) ck s) :=
  ⟨⟨0, 0x7FFF, attr16, .agree, seeded, ⟨quiet_of (by decide +kernel), by decide +kernel, by delta Fits; decide +kernel, by delta Passes; decide +kernel⟩⟩,
    ⟨0, 0, 5, 0, 32, 32, [1], [], attr16, .agree, kekked, ⟨by decide +kernel, by decide +kernel, ⟨quiet_of (by decide +kernel), by decide +kernel, by delta Fits; decide +kernel, derive_passes⟩⟩⟩,
    ⟨0, 0, 5, attr16, aesKw kek5 (zeros 16), .agree, kekked, ⟨quiet_of (by decide +kernel), by decide +kernel, by delta Fits; decide +kernel, import_passes⟩⟩,
    ⟨0, 0x80FF, blobK, .agree, kekked, ⟨by decide +kernel, ⟨quiet_of (by decide +kernel), by decide +kernel, by delta Fits; decide +kernel, blob_passes⟩⟩⟩,
    ⟨0, 0x80FF, 65535, .agree, stored, ⟨quiet_of (by decide +kernel), by decide +kernel, by delta Fits; decide +kernel, store_passes⟩⟩⟩

theorem witness_KeysAreExportedDeletedAndLoadedAsAssociations : (∃ (ses : Fin 128) (source wrapping : BitVec 16) (format : BitVec 8) (ck : ChuckRun) (s : State), Commits ses 0x3410 1 (keyRecord 5 (leBytes 2 source.toNat ++ leBytes 2 wrapping.toNat ++ [format] ++ zeros 3)) ck s ∧ (s.slot source.toNat).a.key.length ≤ 32 ∧ (s.slot source.toNat).b.key.length ≤ 32) ∧
    (∃ (ses : Fin 128) (target : BitVec 16) (s : State), Commits ses 0x3410 1 (keyRecord 7 (leBytes 2 target.toNat ++ zeros 2)) .agree s ∧ (s.slot target.toNat).copyBad = 0) ∧
    (∃ (ses : Fin 128) (store : BitVec 32) (sa slot : BitVec 16) (ck : ChuckRun) (s : State), Commits ses 0x3410 1 (keyRecord 8 (leBytes 4 store.toNat ++ leBytes 2 sa.toNat ++ leBytes 2 slot.toNat)) ck s) :=
  ⟨⟨0, 12, 5, 1, .isolates true, exporting, ⟨⟨quiet_of (by decide +kernel), by decide +kernel, by delta Fits; decide +kernel, bare_passes⟩, by decide +kernel⟩⟩,
    ⟨0, 12, keyed 12 up, ⟨⟨quiet_of (by decide +kernel), by decide +kernel, by delta Fits; decide +kernel, by delta Passes; decide +kernel⟩, by decide +kernel⟩⟩,
    ⟨0, 1048575, 32767, 32767, .agree, stored, ⟨quiet_of (by decide +kernel), by decide +kernel, by delta Fits; decide +kernel, load_passes⟩⟩⟩

theorem witness_OwnershipChangesHands : (∃ (ses : Fin 128) (command : Octets) (s : State), octet command 0 = 1 ∧ Commits ses 0x3422 1 command .agree s) ∧
    (∃ (ses : Fin 128) (command : Octets) (s : State), octet command 0 = 2 ∧ Commits ses 0x3422 1 command .agree s) ∧
    (∃ (ses : Fin 128) (command : Octets) (s : State), octet command 0 = 3 ∧ Commits ses 0x3422 1 command .agree s) :=
  ⟨⟨0, [1] ++ zeros 7 ++ ownerKey ++ zeros 96, seeded, ⟨by decide +kernel, ⟨quiet_of (by decide +kernel), by decide +kernel, by delta Fits; decide +kernel, by delta Passes; decide +kernel⟩⟩⟩,
    ⟨127, signed ([2] ++ zeros 7 ++ ownerKey), { owned with urz := { owned.urz with sessions := [(63, { isOpen := true })] } }, ⟨by decide +kernel, ⟨quiet_of (by decide +kernel), by decide +kernel, by delta Fits; decide +kernel, by delta Passes; decide +kernel⟩⟩⟩,
    ⟨0, signed ([3] ++ zeros 104), owned, ⟨by decide +kernel, ⟨quiet_of (by decide +kernel), by decide +kernel, by delta Fits; decide +kernel, by delta Passes; decide +kernel⟩⟩⟩⟩

theorem witness_EnrollmentInstallsAKey : (∃ (ses : Fin 128) (nk : Octets) (s : State), rngCan s = true ∧ Commits ses 0x3421 1 nk .agree s) ∧
    (∃ (ses : Fin 128) (request : Octets) (ck : ChuckRun) (s : State), Commits ses 0x3421 3 request ck s) ∧
    (∃ (e : Enroll) (s : State), s.keys.enroll = some e) :=
  ⟨⟨0, zeros 32, seeded, ⟨by decide +kernel, ⟨quiet_of (by decide +kernel), by decide +kernel, by delta Fits; decide +kernel, by delta Passes; decide +kernel⟩⟩⟩,
    ⟨0, signed (leBytes 4 1 ++ ownerKey ++ leBytes 2 255 ++ padTo 24 (zeros 8 ++ [16, 8, 0, 0]) ++ zeros 32), .agree, enrolling, ⟨quiet_of (by decide +kernel), by decide +kernel, by delta Fits; decide +kernel, by delta Passes; decide +kernel⟩⟩,
    ⟨_, enrolling, rfl⟩⟩

theorem witness_ZeroizationLeavesNoKey : (∃ (ses : Fin 128) (s : State), Commits ses 0x3460 1 [1] .agree s) ∧
    (∃ (ses : Fin 128) (s : State), Commits ses 0x3460 1 [2] .agree s) ∧
    (∃ s : State, Quiet s ∧ s.power.zeroizeN = false ∧ s.rest.onVbat = false) ∧
    (∃ s : State, s.power.zeroizeN = false ∧ s.rest.onVbat = true) ∧
    (∃ s : State, s.rest.onVbat = false) ∧
    (∃ (n : Nat) (l : List Nat) (s : State), s.rest.zeroizing = true ∧ s.rest.deferred = n :: l) :=
  ⟨⟨0, up, ⟨quiet_of (by decide +kernel), by decide +kernel, by delta Fits; decide +kernel, by delta Passes; decide +kernel⟩⟩,
    ⟨127, { up with urz := { up.urz with sessions := [(63, { isOpen := true })] } }, ⟨quiet_of (by decide +kernel), by decide +kernel, by delta Fits; decide +kernel, by delta Passes; decide +kernel⟩⟩,
    ⟨up, ⟨quiet_of (by decide +kernel), by decide +kernel⟩⟩,
    ⟨State.reset, by decide +kernel⟩,
    ⟨up, by decide +kernel⟩,
    ⟨3, [], { up with rest := { up.rest with zeroizing := true, deferred := [3] } }, by decide +kernel⟩⟩

theorem witness_SlotCopiesFailAndAreRebuilt : (∃ (target : BitVec 16) (b : Bool) (s : State), (s.slot target.toNat).state = .filled ∧ (s.slot target.toNat).copyBad = 0) ∧
    (∃ (target : BitVec 16) (b : Bool) (s : State), (s.slot target.toNat).state = .filled ∧ (s.slot target.toNat).copyBad = (if b then 1 else 2)) ∧
    (∃ (target : BitVec 16) (s : State), (s.slot target.toNat).state = .releasing ∧ (s.slot target.toNat).refs = 0) ∧
    (∃ (b : Bool) (s : State), s.keys.rebuilding = (if b then 2 else 1) ∧ s.power.service ≠ .resetting) ∧
    (∃ s : State, s.keys.rebuilding = 1 ∧ s.keys.isoB = false ∧ s.power.service = .resetting ∧ s.power.serviceStep = 1 ∧ s.rng.inReset = [] ∧ s.fab.rebuild = none) ∧
    (∃ (c : Bool) (s : State), s.keys.rebuilding = 2 ∧ s.keys.isoA = false ∧ s.power.service = .resetting ∧ s.power.serviceStep = 2 ∧ s.rng.inReset = [] ∧ s.fab.rebuild = none ∧ ctlIn s .active = some c) ∧
    (∃ s : State, s.time.isSet = true) ∧
    (∃ (i : Fin 32768) (s : State), (s.sa i).retiring = true ∧ saBusy s i = false) :=
  ⟨⟨12, false, keyed 12 up, by decide +kernel⟩,
    ⟨0x7FFF, true, { up with keys := { up.keys with data := [(0x7FFF, { state := .filled, copyBad := 1 })] } }, by decide +kernel⟩,
    ⟨0x8000, { up with keys := { up.keys with kek := [(0, { state := .releasing })] } }, by decide +kernel⟩,
    ⟨true, { up with keys := { up.keys with rebuilding := 2 } }, by decide +kernel⟩,
    ⟨{ up with keys := { up.keys with rebuilding := 1 }, power := { up.power with service := .resetting, serviceStep := 1 } }, by decide +kernel⟩,
    ⟨false, { up with keys := { up.keys with rebuilding := 2 }, power := { up.power with service := .resetting, serviceStep := 2 } }, by decide +kernel⟩,
    ⟨{ up with time := { up.time with isSet := true } }, by decide +kernel⟩,
    ⟨32767, { up with keys := { up.keys with sa := [(32767, { valid := true, retiring := true })] } }, by decide +kernel⟩⟩

theorem witness_RolloversAreTaken : (∃ (i : Fin 16384) (s : State), s.time.isSet = true ∧ (s.roll (.sc i)).state = 1 ∧ rollReady s (.sc i) = true) ∧
    (∃ (i : Fin 256) (s : State), s.time.isSet = true ∧ (s.roll (.tributary i)).state = 1 ∧ rollReady s (.tributary i) = true) ∧
    (∃ (u : RollUser) (s : State), s.time.isSet = true ∧ (s.roll u).state = 1 ∧ rollReady s u = false) ∧
    (∃ (u : RollUser) (s : State), (s.roll u).state = 2 ∧ rollWaits s u = false ∧ rollDrained s u = true) ∧
    (∃ (u : RollUser) (ck : ChuckRun) (T : Nat) (k : KeyRun) (s : State), (s.roll u).state = 3 ∧ ((∀ i ∈ [(s.roll u).outgoing, (s.roll u).outgoingRx], i ≠ 0xFFFF → saUnused s i = true)) ∧ chainParts s u ≠ [] ∧ chainAll u (chainParts s u) { s := s, b := s, ck := ck } = (0, T, k)) ∧
    (∃ (u : RollUser) (ck : ChuckRun) (e T : Nat) (k : KeyRun) (s : State), (s.roll u).state = 3 ∧ ((∀ i ∈ [(s.roll u).outgoing, (s.roll u).outgoingRx], i ≠ 0xFFFF → saUnused s i = true)) ∧ e ≠ 0 ∧ chainAll u (chainParts s u) { s := s, b := s, ck := ck } = (e, T, k)) :=
  ⟨⟨0, rolling { state := 1, incoming := 1 }, by decide +kernel⟩,
    ⟨0, rolling { state := 1, incoming := 1 }, by decide +kernel⟩,
    ⟨.sc 0, rolling { state := 1, incoming := 2 }, by decide +kernel⟩,
    ⟨.sc 0, rolling { state := 2, outgoing := 8 }, by decide +kernel⟩,
    ⟨.sc 0, .agree, 0, _, stored0, ⟨by decide +kernel, by decide +kernel, by decide +kernel, chain_runs⟩⟩,
    ⟨.sc 0, .agree, 0x0C, (chainRun (rolling { state := 3, outgoing := 5 })).2.1, (chainRun (rolling { state := 3, outgoing := 5 })).2.2, rolling { state := 3, outgoing := 5 }, ⟨by decide +kernel, by decide +kernel, by decide +kernel, Prod.ext (by decide +kernel : (chainRun (rolling { state := 3, outgoing := 5 })).1 = 0x0C) rfl⟩⟩⟩

theorem witness_TheOwnClockFollowsItsMaster : ((received (ptpOf 0 2)).time.inbox = [(sysIn, (ptpOf 0 2), 5, 0)] ∧ ptpAt (ptpOf 0 2) (tagCount (received (ptpOf 0 2)).tpid (ptpOf 0 2)) (be16 (ptpOf 0 2) (12 + 4 * tagCount (received (ptpOf 0 2)).tpid (ptpOf 0 2))) true = some (14, none) ∧ fromMaster (received (ptpOf 0 2)) sysIn (ptpOf 0 2) 14 = true ∧ (received (ptpOf 0 2)).odNat 0x4010 12 ≠ 1 ∧ (received (ptpOf 0 2)).odNat 0x4010 1 = 1 ∧ octet (ptpOf 0 2) 14 % 16 = 0 ∧ bitAt (octet (ptpOf 0 2) 20) 1 = true) ∧
    ((received (ptpOf 0 0)).time.inbox = [(sysIn, (ptpOf 0 0), 5, 0)] ∧ ptpAt (ptpOf 0 0) (tagCount (received (ptpOf 0 0)).tpid (ptpOf 0 0)) (be16 (ptpOf 0 0) (12 + 4 * tagCount (received (ptpOf 0 0)).tpid (ptpOf 0 0))) true = some (14, none) ∧ fromMaster (received (ptpOf 0 0)) sysIn (ptpOf 0 0) 14 = true ∧ (received (ptpOf 0 0)).odNat 0x4010 12 ≠ 1 ∧ (received (ptpOf 0 0)).odNat 0x4010 1 = 1 ∧ octet (ptpOf 0 0) 14 % 16 = 0 ∧ bitAt (octet (ptpOf 0 0) 20) 1 = false ∧ (received (ptpOf 0 0)).time.sm = some 3) ∧
    ((received (ptpOf 8 0)).time.inbox = [(sysIn, (ptpOf 8 0), 5, 0)] ∧ ptpAt (ptpOf 8 0) (tagCount (received (ptpOf 8 0)).tpid (ptpOf 8 0)) (be16 (ptpOf 8 0) (12 + 4 * tagCount (received (ptpOf 8 0)).tpid (ptpOf 8 0))) true = some (14, none) ∧ fromMaster (received (ptpOf 8 0)) sysIn (ptpOf 8 0) 14 = true ∧ (received (ptpOf 8 0)).odNat 0x4010 12 ≠ 1 ∧ (received (ptpOf 8 0)).odNat 0x4010 1 = 1 ∧ octet (ptpOf 8 0) 14 % 16 = 8 ∧ (received (ptpOf 8 0)).time.syncs.find? (fun x => x.seqId == beAt (ptpOf 8 0) 44 2) = some { seqId := 0, t2 := 0, corr := 0, at_ := 0 } ∧ (received (ptpOf 8 0)).time.sm = some 3) ∧
    ((received (ptpOf 9 0)).time.inbox = [(sysIn, (ptpOf 9 0), 5, 0)] ∧ ptpAt (ptpOf 9 0) (tagCount (received (ptpOf 9 0)).tpid (ptpOf 9 0)) (be16 (ptpOf 9 0) (12 + 4 * tagCount (received (ptpOf 9 0)).tpid (ptpOf 9 0))) true = some (14, none) ∧ fromMaster (received (ptpOf 9 0)) sysIn (ptpOf 9 0) 14 = true ∧ (received (ptpOf 9 0)).odNat 0x4010 12 ≠ 1 ∧ (received (ptpOf 9 0)).odNat 0x4010 1 = 1 ∧ octet (ptpOf 9 0) 14 % 16 = 9 ∧ slice (ptpOf 9 0) 58 10 = padTo 10 ((received (ptpOf 9 0)).od 0x4010 5) ∧ (received (ptpOf 9 0)).time.dreqs.find? (fun x => x.seqId == beAt (ptpOf 9 0) 44 2) = some { seqId := 0, t3 := 0, at_ := 0 }) ∧
    ((received []).odNat 0x4010 1 = 1 ∧ ((received []).od 0x4010 4).any (· != 0) = true ∧ (received []).time.syncSeen = true ∧ ethPort (received []) ((received []).odNat 0x4010 3 / 2) = true ∧ (received []).odNat 0x4010 3 < 64) ∧
    (∃ (w : SyncWait) (rest : List SyncWait) (s : State), s.time.syncs = w :: rest) ∧
    (∃ (w : DreqWait) (rest : List DreqWait) (s : State), s.time.dreqs = w :: rest) ∧
    (∃ s : State, (s.odNat 0x4010 1 = 1 ∨ s.odNat 0x4010 1 = 2) ∧ s.time.servo = .acquiring) :=
  ⟨by decide +kernel, by decide +kernel, by decide +kernel, by decide +kernel, by decide +kernel, ⟨_, _, received [], rfl⟩, ⟨_, _, received [], rfl⟩, { clocked with time := { clocked.time with servo := .acquiring } }, by decide +kernel⟩

theorem witness_TheTimeIsSetAndSlotsAct : (∃ (ses : Fin 128) (v : Octets) (s : State), Commits ses 0x4001 1 v .agree s) ∧
    (∃ (ses : Fin 128) (x : BitVec 64) (s : State), Commits ses 0x4001 2 (leBytes 8 x.toNat) .agree s ∧ 0 ≤ (s.time.now : Int) + x.toInt) ∧
    (∃ s : State, s.time.servo = .locked) ∧
    (∃ (i : Fin 16) (s : State), Quiet s ∧ (s.tslot i).state = 1 ∧ ((s.tslot i).action = 1 ∨ (s.tslot i).action = 2) ∧ s.time.isSet = true ∧ (s.domain 74).state ≠ 3 ∧ slotFirst i s = i.val) ∧
    (∃ (i : Fin 16) (s : State), Quiet s ∧ (s.tslot i).state = 1 ∧ (s.tslot i).periodic = true ∧ s.time.isSet = false ∧ (s.domain 74).state ≠ 3 ∧ slotFirst i s = i.val) ∧
    (∃ (p : Fin 4) (T : Nat) (s : State), (s.time.pins.get p.val {}).pulseEnd = some T) ∧
    (∃ (p : Fin 4) (b : Bool) (s : State), s.odNat 0x6000 (p + 1) = 2 ∧ ((b != bitAt (s.odNat 0x6001 (p + 1)) 0) = true ∨ bitAt (s.odNat 0x6001 (p + 1)) 1 = true)) ∧
    (∃ (ses : Fin 128) (p : Fin 4) (s : State), Quiet s ∧ sessionOpen s ses = true ∧ (s.session ses).snaps.find (odKey 0x6004 (p + 1)) = none) :=
  ⟨⟨0, zeros 12, up, ⟨quiet_of (by decide +kernel), by decide +kernel, by delta Fits; decide +kernel, by delta Passes; decide +kernel⟩⟩,
    ⟨0, 1, up, ⟨⟨quiet_of (by decide +kernel), by decide +kernel, by delta Fits; decide +kernel, by delta Passes; decide +kernel⟩, by decide +kernel⟩⟩,
    ⟨{ up with time := { up.time with servo := .locked } }, by decide +kernel⟩,
    ⟨15, slotted { state := 1, action := 1, width := 10 } true, ⟨quiet_of (by decide +kernel), by decide +kernel⟩⟩,
    ⟨15, slotted { state := 1, action := 2, periodic := true } false, ⟨quiet_of (by decide +kernel), by decide +kernel⟩⟩,
    ⟨3, 9, { up with time := { up.time with pins := [(3, { active := true, pulseEnd := some 9 })] } }, by decide +kernel⟩,
    ⟨3, true, withOd [(0x6000, 4, [2])] up, by decide +kernel⟩,
    ⟨0, 3, up, ⟨quiet_of (by decide +kernel), by decide +kernel⟩⟩⟩

theorem witness_SpindleCommandsTakeEffect : (∃ (ses : Fin 128) (i : Fin 28) (s : State), Commits ses 0x3005 (i + 1) [1] .agree s) ∧
    (∃ (ses : Fin 128) (i : Fin 28) (s : State), Commits ses 0x3005 (i + 1) [2] .agree s) ∧
    (∃ (ses : Fin 128) (i : Fin 28) (s : State), Commits ses 0x3005 (i + 1) [3] .agree s) :=
  ⟨⟨0, 27, spin 27 { role := .working } up, ⟨quiet_of (by decide +kernel), by decide +kernel, by delta Fits; decide +kernel, by delta Passes; decide +kernel⟩⟩,
    ⟨0, 0, spin 0 { role := .retired } up, ⟨quiet_of (by decide +kernel), by decide +kernel, by delta Fits; decide +kernel, by delta Passes; decide +kernel⟩⟩,
    ⟨0, 27, spin 27 { role := .working } up, ⟨quiet_of (by decide +kernel), by decide +kernel, by delta Fits; decide +kernel, by delta Passes; decide +kernel⟩⟩⟩

theorem witness_TestCommandsTakeEffect : (∃ (ses : Fin 128) (r : Octets) (s : State), s.power.parked = false ∧ Commits ses 0x4410 1 r .agree s) ∧
    (∃ (ses : Fin 128) (addr : BitVec 64) (s : State), s.power.parked = false ∧ Commits ses 0x4420 1 (leBytes 8 addr.toNat) .agree s) ∧
    (∃ (ses : Fin 128) (v : Octets) (s : State), Commits ses 0x4810 1 v .agree s) ∧
    (∃ (ses : Fin 128) (v : Octets) (s : State), v ≠ [] ∧ Commits ses 0x4811 1 v .agree s) ∧
    (∃ (ses : Fin 128) (k : Fin 8) (s : State), Commits ses 0x4812 1 (oct k) .agree s) :=
  ⟨⟨0, zeros 8 ++ [1] ++ leBytes 2 511 ++ zeros 5, up, ⟨by decide +kernel, ⟨quiet_of (by decide +kernel), by decide +kernel, by delta Fits; decide +kernel, by delta Passes; decide +kernel⟩⟩⟩,
    ⟨0, 0x183FFFFC0, up, ⟨by decide +kernel, ⟨quiet_of (by decide +kernel), by decide +kernel, by delta Fits; decide +kernel, by delta Passes; decide +kernel⟩⟩⟩,
    ⟨0, zeros 128, up, ⟨quiet_of (by decide +kernel), by decide +kernel, by delta Fits; decide +kernel, by delta Passes; decide +kernel⟩⟩,
    ⟨0, [0, 32, 0, 0] ++ zeros 48, { up with rng := { exp0 := some ⟨0, 0⟩, exp1 := some ⟨0, 0⟩ } }, ⟨by decide +kernel, ⟨quiet_of (by decide +kernel), by decide +kernel, by delta Fits; decide +kernel, by delta Passes; decide +kernel⟩⟩⟩,
    ⟨0, 7, { up with rng := { sources := (List.range 8).map (fun k => (k, { state := .healthy })) } }, ⟨quiet_of (by decide +kernel), by decide +kernel, by delta Fits; decide +kernel, by delta Passes; decide +kernel⟩⟩⟩

theorem witness_TokensAndCountersTakeEffect : (∀ v : Octets, v.length = 160 → tokenCheck locked0 v false = none → Commits 0 0x5020 2 v .agree lockedOwned) ∧
    (∀ v : Octets, v.length = 160 → tokenCheck owned0 v true = none → Commits 0 0x5030 1 v .agree owned) ∧
    Commits 0 0x5030 2 [1] .agree up ∧
    Commits 0 0x5030 2 [0] .agree owned ∧
    Commits 0 0x5041 2 (leBytes 2 3 ++ zeros 2 ++ leBytes 8 9) .agree { up with rest := { up.rest with segment := some (3, 9, []) } } ∧
    Commits 0 0x5050 2 ([63] ++ zeros 3 ++ leBytes 4 0xFFFFFFFF) .agree counted :=
  ⟨fun v h c => ⟨quiet_of (by decide +kernel), by decide +kernel, (token_fits h).1, unlock_passes c⟩, fun v h c => ⟨quiet_of (by decide +kernel), by decide +kernel, (token_fits h).2, debug_passes c⟩, ⟨quiet_of (by decide +kernel), by decide +kernel, by delta Fits; decide +kernel, by delta Passes; decide +kernel⟩, ⟨quiet_of (by decide +kernel), by decide +kernel, by delta Fits; decide +kernel, by delta Passes; decide +kernel⟩, ⟨quiet_of (by decide +kernel), by decide +kernel, by delta Fits; decide +kernel, by delta Passes; decide +kernel⟩, ⟨quiet_of (by decide +kernel), by decide +kernel, by delta Fits; decide +kernel, by delta Passes; decide +kernel⟩⟩

theorem witness_SavesAndPowerCommandsTakeEffect : (∃ (ses : Fin 128) (s : State), Commits ses 0x1F01 1 [1] .agree s) ∧
    (∃ (n c : Nat) (b : Octets) (s : State), s.ctl.saving = some (n, c, b)) ∧
    (∃ (n c : Nat) (b : Octets) (s : State), s.ctl.saving = some (n, c, b)) ∧
    (∃ (ses : Fin 128) (d : Fin 80) (v : BitVec 8) (s : State), Commits ses 0x5401 (d + 1) [v] .agree s) ∧
    (∃ (ses : Fin 128) (d : Fin 80) (s : State), Commits ses 0x5402 (d + 1) [1] .agree s ∧ (s.domain d).state = 1 ∧ (drainType d = true ∨ (44 ≤ d.val ∧ d.val < 52) ∨ (76 ≤ d.val ∧ d.val < 79))) ∧
    (∃ (d : Fin 80) (s : State), Quiet s ∧ (s.domain d).state = 1 ∧ 44 ≤ d.val ∧ d.val < 52) ∧
    (∃ (ses : Fin 128) (s : State), Commits ses 0x5400 1 [1] .agree s) ∧
    (∃ (ses : Fin 128) (s : State), Commits ses 0x5400 1 [2] .agree s) :=
  ⟨⟨0, up, ⟨quiet_of (by decide +kernel), by decide +kernel, by delta Fits; decide +kernel, by delta Passes; decide +kernel⟩⟩,
    ⟨1, 1, [], { up with ctl := { up.ctl with saving := some (1, 1, []) } }, by decide +kernel⟩,
    ⟨1, 1, [], { up with ctl := { up.ctl with saving := some (1, 1, []) } }, by decide +kernel⟩,
    ⟨0, 77, 0, up, ⟨quiet_of (by decide +kernel), by decide +kernel, by delta Fits; decide +kernel, by delta Passes; decide +kernel⟩⟩,
    ⟨0, 51, eth, ⟨⟨quiet_of (by decide +kernel), by decide +kernel, by delta Fits; decide +kernel, by delta Passes; decide +kernel⟩, by decide +kernel, by decide +kernel⟩⟩,
    ⟨51, eth, ⟨quiet_of (by decide +kernel), by decide +kernel⟩⟩,
    ⟨0, eth, ⟨quiet_of (by decide +kernel), by decide +kernel, by delta Fits; decide +kernel, by delta Passes; decide +kernel⟩⟩,
    ⟨0, eth, ⟨quiet_of (by decide +kernel), by decide +kernel, by delta Fits; decide +kernel, by delta Passes; decide +kernel⟩⟩⟩

theorem witness_MemoryReadsBackWhatIsWritten : ∃ (addr : BitVec 48) (data : Octets) (k a : Nat) (l : CacheLine) (s : State), mpuReady s = true ∧ s.mpu.broken = [] ∧ s.mpu.poison = [] ∧ s.mpu.poisonRegions = [] ∧ s.mpu.retired = [] ∧ s.mpu.rewrites = [] ∧ s.mpu.treeLost = none ∧ mpuAddress addr.toNat = some (k, a) ∧ a % 64 = 0 ∧ data.length = 64 ∧ s.mpu.cache.find (a / 4096) = some l ∧ l.ctr.minor (a / 64 % 64) < 127 :=
  ⟨63 * 64, zeros 64, 0, 63 * 64, { ctr := { minors := [(63, 126)] }, dirty := false }, remembered 126, by decide +kernel⟩

theorem witness_MemoryCommandsAnswer : (∃ (addr : BitVec 48) (k a : Nat) (l : CacheLine) (s : State), mpuReady s = true ∧ s.mpu.poison = [] ∧ s.mpu.poisonRegions = [] ∧ s.mpu.rewrites = [] ∧ s.mpu.treeLost = none ∧ mpuAddress addr.toNat = some (k, a) ∧ s.mpu.cache.find (a / 4096) = some l ∧ l.ctr.minor (a / 64 % 64) = 0) ∧
    (∃ (addr : BitVec 48) (n : Fin 9) (s : State), mpuReady s = true ∧ mpuAddress addr.toNat = none) ∧
    (∃ (addr : BitVec 48) (d : Octets) (s : State), mpuReady s = true ∧ mpuAddress addr.toNat = none) ∧
    (∃ (m : Fin 1331200) (l : CacheLine) (s : State), mpuReady s = true ∧ m.val < 1310720 ∧ s.mpu.cache.find m = some l ∧ l.dirty = false) ∧
    (∃ (k : BitVec 4) (b : Fin 1310720) (r : Region) (s : State), mpuReady s = true ∧ regionOf (b * 4096) = some r ∧ r.num < 2 ∧ r.keys.contains k.toNat = true ∧ s.mpu.retired.contains b.val = false ∧ s.mpu.live.find b = none ∧ s.mpu.majors.get k.toNat 0 ≠ BitVec.allOnes 64) ∧
    (∃ (line : Fin 83886080) (s : State), mpuReady s = true) ∧
    (∃ (line : Fin 83886080) (k : Nat) (r : Region) (l : CacheLine) (s : State), mpuReady s = true ∧ s.mpu.poison = [] ∧ s.mpu.poisonRegions = [] ∧ s.mpu.rewrites = [] ∧ s.mpu.treeLost = none ∧ line.val % 64 ≠ 0 ∧ regionOf (line * 64) = some r ∧ s.mpu.cache.find (line / 64) = some l ∧ l.ctr.minor (line % 64) ≠ 0 ∧ k < 512 ∧ s.mpu.broken = [(line.val, 2 ^ k)]) :=
  ⟨⟨0, 0, 0, { ctr := { minors := [(63, 1)] }, dirty := false }, remembered 1, by decide +kernel⟩,
    ⟨0xFFFFFFFFFFFF, 8, remembered 1, by decide +kernel⟩,
    ⟨0xFFFFFFFFFFFF, [], remembered 1, by decide +kernel⟩,
    ⟨0, { ctr := { minors := [(63, 1)] }, dirty := false }, remembered 1, by decide +kernel⟩,
    ⟨0, 0, (regionOf 0).get (by decide +kernel), remembered 1, ⟨by decide +kernel, (Option.some_get _).symm, by decide +kernel, by decide +kernel, by decide +kernel, by decide +kernel⟩⟩,
    ⟨83886079, remembered 1, by decide +kernel⟩,
    ⟨63, 511, (regionOf (63 * 64)).get (by decide +kernel), { ctr := { minors := [(63, 1)] }, dirty := false }, { remembered 1 with mpu := { (remembered 1).mpu with broken := [(63, 2 ^ 511)] } }, ⟨by decide +kernel, by decide +kernel, by decide +kernel, by decide +kernel, by decide +kernel, by decide +kernel, (Option.some_get (by decide +kernel)).symm, by decide +kernel, by decide +kernel, by decide +kernel, by decide +kernel⟩⟩⟩

theorem witness_SourcesFollowTheirStates : (∃ (k : Fin 8) (raw : Octets) (s : State), (s.rng.source k).state = .healthy ∧ testFailed s (s.rng.source k) raw = none) ∧
    (∃ (k : Fin 8) (raw : Octets) (s : State), (s.rng.source k).state = .healthy ∧ (testFailed s (s.rng.source k) raw).isSome = true) ∧
    (∃ (k : Fin 8) (test : HealthTest) (s : State), (s.rng.source k).state = .healthy) ∧
    (∃ (k : Fin 8) (raw : Octets) (s : State), (s.rng.source k).state = .starting ∧ testFailed s (s.rng.source k) raw = none) ∧
    (∃ (k : Fin 8) (raw : Octets) (s : State), (s.rng.source k).state = .starting ∧ (testFailed s (s.rng.source k) raw).isSome = true) ∧
    (∃ (k : Fin 8) (s : State), (s.rng.source k).state = .isolated ∧ (s.rng.source k).fails < s.odNat 0x4803 2) ∧
    (∃ (k : Fin 8) (c : Nat) (s : State), (s.rng.source k).healthyFrom = some c) ∧
    (∃ (data : Octets) (k : Nat) (s : State), (List.range 8).find? (fun k => (s.rng.source k).state == .capture) = some k) :=
  ⟨⟨7, List.replicate 128 0xAA, sourced .healthy 0, by decide +kernel⟩,
    ⟨7, zeros 128, sourced .healthy 0, by decide +kernel⟩,
    ⟨7, .repetition, sourced .healthy 0, by decide +kernel⟩,
    ⟨0, List.replicate 128 0xAA, sourced .starting 0, by decide +kernel⟩,
    ⟨0, zeros 128, sourced .starting 0, by decide +kernel⟩,
    ⟨7, sourced .isolated 1, by decide +kernel⟩,
    ⟨7, 5, { up with rng := { up.rng with sources := [(7, { healthyFrom := some 5 })] } }, by decide +kernel⟩,
    ⟨[], 0, sourced .capture 0, by decide +kernel⟩⟩

theorem witness_TheExpanderServesItsConsumers : (∃ (d : Drbg) (e : Octets) (g : Rng) (s : State), s.rng.started = true ∧ s.rng.degraded = false ∧ s.rng.serving < 2 ∧ s.rng.live = some d ∧ s.rng.inReset.contains s.rng.serving = false ∧ s.rng.entropy = some (e, g)) ∧
    (∃ (r : RngReq) (q : List RngReq), rngHead q = some r) ∧
    (∃ (r : RngReq) (d : Drbg) (s : State), rngHead s.rng.queue = some r ∧ (∀ w, r.who ≠ .hostRead w) ∧ r.who ≠ .bbk ∧ rngCan s = true ∧ s.rng.live = some d) ∧
    (∃ (r : RngReq) (d : Drbg) (s : State), rngHead s.rng.queue = some r ∧ r.who = .bbk ∧ rngCan s = true ∧ s.rng.live = some d) ∧
    (∃ (wide : Bool) (stall : BitVec 16) (s : State), s.rng.hostBuf ≠ []) ∧
    (∃ (wide : Bool) (stall : BitVec 16) (d : Drbg) (s : State), s.rng.hostBuf = [] ∧ rngCan s = true ∧ s.rng.live = some d ∧ s.rng.degraded = false) ∧
    (∃ (r : RngReq) (w : Bool) (rest : List RngReq) (s : State), s.rng.queue = r :: rest ∧ r.who = .hostRead w) ∧
    (∃ (h : Fin 2) (s : State), s.rng.serving = h.val) ∧
    (∃ (h : Fin 2) (s : State), s.rng.inReset.contains h.val = true ∧ s.power.service ≠ .resetting) :=
  ⟨⟨⟨0, 0⟩, ((sourced .healthy 0).rng.entropy.get (by decide +kernel)).1, ((sourced .healthy 0).rng.entropy.get (by decide +kernel)).2, sourced .healthy 0, ⟨by decide +kernel, by decide +kernel, by decide +kernel, by decide +kernel, by decide +kernel, (Option.some_get (by decide +kernel : (sourced .healthy 0).rng.entropy.isSome = true)).symm⟩⟩,
    ⟨{ who := .memoryKeys, cls := 2, at_ := 0 }, [{ who := .memoryKeys, cls := 2, at_ := 0 }], by decide +kernel⟩,
    ⟨{ who := .memoryKeys, cls := 1, at_ := 0 }, ⟨0, 0⟩, asked .memoryKeys, ⟨by decide +kernel, nofun, by decide +kernel⟩⟩,
    ⟨{ who := .bbk, cls := 1, at_ := 0 }, ⟨0, 0⟩, asked .bbk, by decide +kernel⟩,
    ⟨true, 0, { up with rng := { readyRng with hostBuf := [1] } }, by decide +kernel⟩,
    ⟨false, 5, ⟨0, 0⟩, sourced .healthy 0, by decide +kernel⟩,
    ⟨{ who := .hostRead true, cls := 1, at_ := 0 }, true, [], asked (.hostRead true), by decide +kernel⟩,
    ⟨0, asked .bbk, by decide +kernel⟩,
    ⟨1, { up with rng := { readyRng with inReset := [1] } }, by decide +kernel⟩⟩

theorem witness_SensorsAreSampled : (∃ (temps : List Int) (supplies : List Nat) (s : State), s.rest.onVbat = false) ∧
    (∃ (n : Nat) (o : Option SensorObs) (x : Sensor), x.hist.length = 4) ∧
    (∃ (o : SensorObs) (s : State), s.rest.onVbat = true) ∧
    (∃ (o : SensorObs) (s : State), s.rest.onVbat = false ∧ (o.now = true ∨ o.latched = true) ∧ o.sensor.val ∈ [0, 1, 7, 13, 15] ∧ sampled s o.sensor.val = true ∧ (s.sensor o.sensor.val).alarm = false) ∧
    (∃ (o : SensorObs) (s : State), s.rest.onVbat = false ∧ (o.now = true ∨ o.latched = true) ∧ o.sensor.val ∈ [4, 9, 10, 11, 12, 14]) :=
  ⟨⟨[], [], up, by decide +kernel⟩,
    ⟨22, none, { hist := [true, false, false, false] }, by decide +kernel⟩,
    ⟨{ sensor := 0, now := true, latched := false, sub := 0, value := 0 }, State.reset, by decide +kernel⟩,
    ⟨{ sensor := 15, now := false, latched := true, sub := 0, value := 0 }, { up with power := { up.power with start := .ready } }, by decide +kernel⟩,
    ⟨{ sensor := 14, now := true, latched := false, sub := 0, value := 0 }, up, by decide +kernel⟩⟩

theorem witness_DecisionsAreTaken : ∃ (c : Nat) (l : List Nat) (s : State), Quiet s ∧ s.rest.onVbat = false ∧ s.rest.window = some (c, l) ∧ l ≠ [] ∧ topRank s l ≤ 3 ∧ (∀ n ∈ l, n < 23) :=
  ⟨0, [22], { up with rest := { up.rest with window := some (0, [22]) } }, ⟨quiet_of (by decide +kernel), by decide +kernel⟩⟩

theorem witness_TheLogIsKeptAndSigned : (∃ s : State, s.unexported + s.rest.heldBack.length ≤ logLimit s) ∧
    (∃ s : State, s.unexported < s.odNat 0x5042 1) ∧
    (∃ s : State, s.odNat 0x5042 1 ≤ s.unexported) ∧
    (∃ (e : LogEntry) (l : List LogEntry) (s : State), s.rest.segment = none ∧ s.rest.ring = e :: l) ∧
    (∃ s : State, (s.rest.segment ≠ none ∨ s.rest.ring = [])) ∧
    (∃ (c : Nat) (s : State), s.rest.holdOff = some c) :=
  ⟨⟨up, by decide +kernel⟩,
    ⟨up, by decide +kernel⟩,
    ⟨withOd [(0x5042, 1, [0, 0])] up, by decide +kernel⟩,
    ⟨{ seq := 1, data := [] }, [], { up with rest := { up.rest with ring := [{ seq := 1, data := [] }] } }, by decide +kernel⟩,
    ⟨up, by decide +kernel⟩,
    ⟨9, { up with rest := { up.rest with holdOff := some 9 } }, by decide +kernel⟩⟩

theorem witness_TransactionsStageReadAndClear : (∃ (ses : Fin 128) (fl : BitVec 8) (idx : BitVec 16) (sub : BitVec 8) (v : Octets) (e : Entry) (s : State), Quiet s ∧ sessionOpen s ses = true ∧ entryAt idx.toNat sub.toNat = some e ∧ e.acc ≠ .ro ∧ e.acc ≠ .rwc ∧ ((e.acc = .rwl → s.locked = false)) ∧ idx ≠ 0x1F00 ∧ concatenated idx.toNat sub.toNat = false ∧ e.ty.fits v = true ∧ 0 < v.length ∧ v.length ≤ 4096 ∧ v.length ≤ e.ty.size ∧ fl.getLsbD 0 = true ∧ fl.getLsbD 1 = true ∧ stagedBytes s ses + v.length ≤ 16777216 ∧ stagedTotal s + v.length ≤ 50331648) ∧
    (∃ (ses : Fin 128) (fl : BitVec 8) (idx : BitVec 16) (sub : BitVec 8) (off : BitVec 32) (v : Octets) (s : State), Quiet s ∧ sessionOpen s ses = true ∧ 0 < v.length ∧ v.length ≤ 4096) ∧
    (∃ (ses : Fin 128) (idx : BitVec 16) (sub : BitVec 8) (n : BitVec 16) (e : Entry) (s : State), Quiet s ∧ sessionOpen s ses = true ∧ entryAt idx.toNat sub.toNat = some e ∧ e.acc ≠ .wo ∧ 0 < n.toNat ∧ n.toNat ≤ 4096) ∧
    (∃ (ses : Fin 128) (idx : BitVec 16) (sub : BitVec 8) (v : Octets) (c : Nat) (s : State), (s.session ses).snaps.find (odKey idx.toNat sub.toNat) = some (v, c)) ∧
    (∃ (ses : Fin 128) (s : State), Quiet s ∧ sessionOpen s ses = true) ∧
    (∃ (ses : Fin 128) (v : Octets) (s : State), Quiet s ∧ sessionOpen s ses = true ∧ v.length = 8) ∧
    (∃ (ses : Fin 128) (v : Octets) (s : State), Quiet s ∧ sessionOpen s ses = true ∧ v.length = 2) ∧
    (∃ (ses : Fin 128) (v : Octets) (s : State), Quiet s ∧ sessionOpen s ses = true ∧ v.length = 1024) ∧
    (∃ (ses : Fin 128) (sub : BitVec 8) (v : Octets) (s : State), Quiet s ∧ sessionOpen s ses = true ∧ 1 ≤ sub.toNat ∧ sub.toNat ≤ 8 ∧ v.length = 8) ∧
    (∃ (ses : Fin 128) (idx : BitVec 16) (sub : BitVec 8) (s : State), Quiet s ∧ sessionOpen s ses = true ∧ snapshotOf s ses (odKey idx.toNat sub.toNat) = none) ∧
    (∃ (ses : Fin 128) (idx : BitVec 16) (sub : BitVec 8) (e : Entry) (c : Octets) (s : State), Quiet s ∧ sessionOpen s ses = true ∧ entryAt idx.toNat sub.toNat = some e ∧ snapshotOf s ses (odKey idx.toNat sub.toNat) = some c) :=
  ⟨⟨0, 3, 0x2400, 1, [1], (entryAt 0x2400 1).get (by decide +kernel), up, ⟨quiet_of (by decide +kernel), by decide +kernel, (Option.some_get _).symm, by decide +kernel, by decide +kernel, by decide +kernel, by decide +kernel, by decide +kernel, by decide +kernel, by decide +kernel, by decide +kernel, by decide +kernel, by decide +kernel, by decide +kernel, by decide +kernel, by decide +kernel⟩⟩,
    ⟨0, 3, 0x3410, 1, 5, zeros 4096, up, ⟨quiet_of (by decide +kernel), by decide +kernel⟩⟩,
    ⟨0, 0x1000, 1, 1, (entryAt 0x1000 1).get (by decide +kernel), up, ⟨quiet_of (by decide +kernel), by decide +kernel, (Option.some_get _).symm, by decide +kernel⟩⟩,
    ⟨0, 0x1000, 1, [1, 2, 3], 0, snapped, by decide +kernel⟩,
    ⟨0, up, ⟨quiet_of (by decide +kernel), by decide +kernel⟩⟩,
    ⟨0, zeros 8, up, ⟨quiet_of (by decide +kernel), by decide +kernel⟩⟩,
    ⟨0, zeros 2, up, ⟨quiet_of (by decide +kernel), by decide +kernel⟩⟩,
    ⟨0, zeros 1024, up, ⟨quiet_of (by decide +kernel), by decide +kernel⟩⟩,
    ⟨0, 8, zeros 8, up, ⟨quiet_of (by decide +kernel), by decide +kernel⟩⟩,
    ⟨0, 0x1000, 1, up, ⟨quiet_of (by decide +kernel), by decide +kernel⟩⟩,
    ⟨0, 0x1000, 1, (entryAt 0x1000 1).get (by decide +kernel), [1, 2, 3], snapped, ⟨quiet_of (by decide +kernel), by decide +kernel, (Option.some_get _).symm, by decide +kernel⟩⟩⟩

theorem witness_CommitsAreCheckedThenApplied : (∃ (ses : Fin 128) (g : BitVec 64) (ck : ChuckRun) (s : State), Quiet s ∧ s.ctl.sessions.Rising ∧ sessionOpen s ses = true ∧ classifies (s.session ses).staged = false ∧ (s.session ses).partials.find (odKey 0x1F00 1) = none ∧ (g = 0 ∨ g.toNat = s.ctl.generation.toNat) ∧ firstFailure (checkCommit ses (s.session ses).staged ck [] (updSession ses (fun x => { x with staged := [] }) s)).fails = none) ∧
    (∃ (ses : Fin 128) (g : BitVec 64) (ck : ChuckRun) (q : Nat × Nat) (s : State), Quiet s ∧ sessionOpen s ses = true ∧ classifies (s.session ses).staged = false ∧ (s.session ses).partials.find (odKey 0x1F00 1) = none ∧ (g = 0 ∨ g.toNat = s.ctl.generation.toNat) ∧ q.2 < 2 ^ 32 ∧ firstFailure (checkCommit ses (s.session ses).staged ck [] (updSession ses (fun x => { x with staged := [] }) s)).fails = some q) ∧
    (∃ (ses : Fin 128) (g : BitVec 64) (ck : ChuckRun) (s : State), Quiet s ∧ sessionOpen s ses = true ∧ g ≠ 0 ∧ g.toNat ≠ s.ctl.generation.toNat) ∧
    (∃ s : State, s.controlUp = true ∧ mpuReady s = true) ∧
    (∃ s : State, s.ctl.recorded = controlRecord s) :=
  ⟨⟨0, 1, .agree, staging [(odKey 0x2400 1, [1])], ⟨quiet_of (by decide +kernel), by decide +kernel⟩⟩,
    ⟨0, 0, .agree, (odKey 0x2400 1, abRange), staging [(odKey 0x2400 1, [9])], ⟨quiet_of (by decide +kernel), by decide +kernel⟩⟩,
    ⟨0, 2, .agree, staging [], ⟨quiet_of (by decide +kernel), by decide +kernel⟩⟩,
    ⟨remembered 1, by decide +kernel⟩,
    ⟨{ up with ctl := { up.ctl with recorded := controlRecord up } }, by decide +kernel⟩⟩

theorem witness_RingsAreServedInOrder : (∃ (r : Fin 1120) (i : BitVec 32) (dma : List (Octets × Octets)) (s : State), Quiet s ∧ s.power.pcieUp = true ∧ (s.ring r).state = 1 ∧ 64 ≤ r.val ∧ r.val < 1088 ∧ i.toNat < ringSlots s r ∧ (s.ring r).posted.length + (i.toNat + ringSlots s r - (s.ring r).host % ringSlots s r) % ringSlots s r ≤ ringSlots s r) ∧
    (∃ (r : Fin 1120) (i : BitVec 32) (dma : List (Octets × Octets)) (s : State), Quiet s ∧ s.power.pcieUp = true ∧ (s.ring r).state = 1 ∧ ringSlots s r ≤ i.toNat) ∧
    (∃ (r : Fin 1120) (i : BitVec 32) (dma : List (Octets × Octets)) (s : State), Quiet s ∧ s.power.pcieUp = true ∧ (s.ring r).state = 1 ∧ 1088 ≤ r.val ∧ i.toNat < ringSlots s r ∧ (i.toNat + ringSlots s r - (s.ring r).host % ringSlots s r) % ringSlots s r ≤ ((s.ring r).part + ringSlots s r - (s.ring r).host % ringSlots s r) % ringSlots s r) ∧
    (∃ (r : Fin 1120) (i : BitVec 32) (desc data : Octets) (q : Request) (e : Entry) (s : State), Quiet s ∧ s.power.pcieUp = true ∧ (s.ring r).state = 1 ∧ r.val < 64 ∧ i.toNat < ringSlots s r ∧ (i.toNat + ringSlots s r - (s.ring r).host % ringSlots s r) % ringSlots s r = 1 ∧ 24 ≤ leAt desc 16 2 ∧ leAt desc 16 2 ≤ 4120 ∧ 24 ≤ leAt desc 18 2 ∧ leAt desc 18 2 ≤ 4120 ∧ q = requestOf (data.take (leAt desc 16 2)) ∧ q.op = 1 ∧ q.len ≠ 0 ∧ q.len ≤ 4096 ∧ ((bitAt q.flags 2 = true → q.off = 0)) ∧ entryAt q.idx q.sub = some e) ∧
    (∃ (r : Fin 1120) (i : BitVec 32) (dma : List (Octets × Octets)) (s : State), Quiet s ∧ (s.power.pcieUp = false ∨ (s.ring r).state ≠ 1)) ∧
    (∃ (r : Fin 1120) (c : Nat) (s : State), (s.ring r).moderateAt = some c) ∧
    (∃ (r : Fin 1120) (s : State), (s.ring r).moderateAt = none) ∧
    (∃ s : State, Quiet s ∧ s.ctl.sessions.Rising ∧ s.power.pcieUp = true) ∧
    (∃ s : State, Quiet s ∧ s.power.pcieUp = false) :=
  ⟨⟨1087, 0, [], ringed 1087 { state := 1 }, ⟨quiet_of (by decide +kernel), by decide +kernel⟩⟩,
    ⟨64, 1, [], ringed 64 { state := 1 }, ⟨quiet_of (by decide +kernel), by decide +kernel⟩⟩,
    ⟨1119, 0, [], ringed 1119 { state := 1 }, ⟨quiet_of (by decide +kernel), by decide +kernel⟩⟩,
    ⟨0, 1, readDesc, readRequest, requestOf readRequest, (entryAt (requestOf readRequest).idx (requestOf readRequest).sub).get (by decide +kernel), ringed 0 { state := 1 }, ⟨quiet_of (by decide +kernel), by decide +kernel, by decide +kernel, by decide +kernel, by decide +kernel, by decide +kernel, by decide +kernel, by decide +kernel, by decide +kernel, by decide +kernel, by decide +kernel, by decide +kernel, by decide +kernel, by decide +kernel, by decide +kernel, (Option.some_get _).symm⟩⟩,
    ⟨5, 0, [], up, ⟨quiet_of (by decide +kernel), by decide +kernel⟩⟩,
    ⟨9, 7, ringed 9 { moderateAt := some 7 }, by decide +kernel⟩,
    ⟨9, up, by decide +kernel⟩,
    ⟨up, ⟨quiet_of (by decide +kernel), by decide +kernel⟩⟩,
    ⟨{ up with power := { up.power with pcieUp := false, domains := [] } }, ⟨quiet_of (by decide +kernel), by decide +kernel⟩⟩⟩

theorem witness_MessagesAreVerifiedOrForwarded : (∃ (p : PD) (d : Octets) (l : List (PD × Octets)) (key np nc : Octets) (s : State), s.urz.inbox = (p, d) :: l ∧ s.reachable = true ∧ s.domOn 77 = true ∧ bitAt (s.odNat 0x1011 (p.port + 1)) p.dir.num = true ∧ urzFormOk s d = true ∧ urzForUs s (urzBody s d) = true ∧ urzSealing s (urzBody s d) = some (key, np, nc) ∧ urzMac key np nc ((urzBody s d).take (24 + beAt (urzBody s d) 20 2)) = urzTag (urzBody s d)) ∧
    (∃ (p : PD) (d : Octets) (l : List (PD × Octets)) (key np nc : Octets) (s : State), s.urz.inbox = (p, d) :: l ∧ s.reachable = true ∧ s.domOn 77 = true ∧ bitAt (s.odNat 0x1011 (p.port + 1)) p.dir.num = true ∧ urzFormOk s d = true ∧ urzForUs s (urzBody s d) = true ∧ urzSealing s (urzBody s d) = some (key, np, nc) ∧ urzMac key np nc ((urzBody s d).take (24 + beAt (urzBody s d) 20 2)) ≠ urzTag (urzBody s d)) ∧
    (∃ (p : PD) (d : Octets) (l : List (PD × Octets)) (s : State), s.urz.inbox = (p, d) :: l ∧ s.reachable = true ∧ s.domOn 77 = true ∧ bitAt (s.odNat 0x1011 (p.port + 1)) p.dir.num = true ∧ urzFormOk s d = true ∧ urzForUs s (urzBody s d) = false ∧ 2 ≤ octet d (15 + 4 * tagCount s.tpid d)) ∧
    (∃ (p : PD) (d : Octets) (l : List (PD × Octets)) (s : State), s.urz.inbox = (p, d) :: l ∧ s.reachable = true ∧ s.domOn 77 = true ∧ bitAt (s.odNat 0x1011 (p.port + 1)) p.dir.num = true ∧ urzFormOk s d = true ∧ urzForUs s (urzBody s d) = false ∧ octet d (15 + 4 * tagCount s.tpid d) < 2) ∧
    (∃ s : State, s.urz.inbox = []) :=
  ⟨⟨sysIn, framedAs (toPart 1 0 1 (zeros 16)), [], kek5, [], [], part7 [(sysIn, framedAs (toPart 1 0 1 (zeros 16)))], ⟨rfl, by decide +kernel, by decide +kernel, by decide +kernel, by decide +kernel, by decide +kernel, urzSealing_open (by decide +kernel) (part_key _), by decide +kernel⟩⟩,
    ⟨sysIn, framedAs (toPart 1 0 1 (zeros 16) |>.set 30 1), [], kek5, [], [], part7 [(sysIn, framedAs (toPart 1 0 1 (zeros 16) |>.set 30 1))], ⟨rfl, by decide +kernel, by decide +kernel, by decide +kernel, by decide +kernel, by decide +kernel, urzSealing_open (by decide +kernel) (part_key _), by decide +kernel⟩⟩,
    ⟨sysIn, framedAs (toPart 1 0 1 (zeros 16) |>.set 1 2 |>.set 5 8), [], part7 [(sysIn, framedAs (toPart 1 0 1 (zeros 16) |>.set 1 2 |>.set 5 8))], by decide +kernel⟩,
    ⟨sysIn, framedAs (toPart 1 0 1 (zeros 16) |>.set 1 1 |>.set 5 8), [], part7 [(sysIn, framedAs (toPart 1 0 1 (zeros 16) |>.set 1 1 |>.set 5 8))], by decide +kernel⟩,
    ⟨up, by decide +kernel⟩⟩

theorem witness_SessionsOpenRunAndClose : (∃ (p : PD) (d key np : Octets) (u v s : State), Quiet s ∧ urzFront [1] s = some (p, d, u) ∧ partKey u = some key ∧ rngDraw 16 u = some (np, v)) ∧
    (∃ (p : PD) (d key : Octets) (u s : State), Quiet s ∧ urzFront [1] s = some (p, d, u) ∧ partKey u = some key ∧ rngDraw 16 u = none) ∧
    (∃ (p : PD) (d key : Octets) (i : Nat) (q : Request) (e : Entry) (u s : State), Quiet s ∧ urzFront [3] s = some (p, d, u) ∧ partKey u = some key ∧ urzSlotOf u (urzNumber (urzBody u d)) = some i ∧ i < 64 ∧ urzSeq (urzBody u d) = (u.urz.sessions.get i {}).highest + 1 ∧ (urzPayload (urzBody u d)).length = 24 ∧ q = requestOf (urzPayload (urzBody u d)) ∧ q.op = 1 ∧ q.len ≠ 0 ∧ q.len ≤ 4096 ∧ ((bitAt q.flags 2 = true → q.off = 0)) ∧ entryAt q.idx q.sub = some e) ∧
    (∃ (p : PD) (d key : Octets) (i : Nat) (u s : State), Quiet s ∧ urzFront [3] s = some (p, d, u) ∧ partKey u = some key ∧ urzSlotOf u (urzNumber (urzBody u d)) = some i ∧ urzSeq (urzBody u d) = (u.urz.sessions.get i {}).highest ∧ urzTag (urzBody u d) = (u.urz.sessions.get i {}).lastMac ∧ (u.urz.sessions.get i {}).lastResp ≠ []) ∧
    (∃ (p : PD) (d key : Octets) (i : Nat) (u s : State), Quiet s ∧ urzFront [3] s = some (p, d, u) ∧ partKey u = some key ∧ urzSlotOf u (urzNumber (urzBody u d)) = some i ∧ urzSeq (urzBody u d) ≠ (u.urz.sessions.get i {}).highest + 1 ∧ ((urzSeq (urzBody u d) ≠ (u.urz.sessions.get i {}).highest ∨ urzTag (urzBody u d) ≠ (u.urz.sessions.get i {}).lastMac))) ∧
    (∃ (p : PD) (d key : Octets) (i : Nat) (u s : State), Quiet s ∧ s.urz.sessions.Rising ∧ urzFront [5] s = some (p, d, u) ∧ partKey u = some key ∧ urzSlotOf u (urzNumber (urzBody u d)) = some i) ∧
    (∃ (i : Fin 64) (s : State), Quiet s ∧ s.urz.sessions.Rising ∧ (s.urz.sessions.get i {}).isOpen = true) ∧
    (∃ (i : Fin 64) (s : State), Quiet s ∧ (s.urz.sessions.get i {}).isOpen = false) :=
  ⟨⟨sysIn, framedAs openMsg, kek5, ((rngDraw 16 (after openMsg)).get (by decide +kernel)).1, after openMsg, ((rngDraw 16 (after openMsg)).get (by decide +kernel)).2, taken openMsg, ⟨quiet_of (by decide +kernel), front_of rfl (by decide +kernel), part_key_after _, (Option.some_get (by decide +kernel)).symm⟩⟩,
    ⟨sysIn, framedAs openMsg, kek5, { after openMsg with rng := {} }, { taken openMsg with rng := {} }, ⟨quiet_of (by decide +kernel), front_of rfl (by decide +kernel), part_key_dry _, by decide +kernel⟩⟩,
    ⟨sysIn, framedAs newMsg, kek5, 2, requestOf readRequest, (entryAt (requestOf readRequest).idx (requestOf readRequest).sub).get (by decide +kernel), after newMsg, taken newMsg, ⟨quiet_of (by decide +kernel), front_of rfl (by decide +kernel), part_key_after _, by decide +kernel, by decide +kernel, by decide +kernel, by decide +kernel, congrArg requestOf (by decide +kernel), by decide +kernel, by decide +kernel, by decide +kernel, by decide +kernel, (Option.some_get _).symm⟩⟩,
    ⟨sysIn, framedAs oldMsg, kek5, 2, after oldMsg, taken oldMsg, ⟨quiet_of (by decide +kernel), front_of rfl (by decide +kernel), part_key_after _, by decide +kernel⟩⟩,
    ⟨sysIn, framedAs farMsg, kek5, 2, after farMsg, taken farMsg, ⟨quiet_of (by decide +kernel), front_of rfl (by decide +kernel), part_key_after _, by decide +kernel⟩⟩,
    ⟨sysIn, framedAs closeMsg, kek5, 2, after closeMsg, taken closeMsg, ⟨quiet_of (by decide +kernel), by decide +kernel, front_of rfl (by decide +kernel), part_key_after _, by decide +kernel⟩⟩,
    ⟨2, taken [], ⟨quiet_of (by decide +kernel), by decide +kernel⟩⟩,
    ⟨0, up, ⟨quiet_of (by decide +kernel), by decide +kernel⟩⟩⟩

theorem witness_HeartbeatsTellOfPeers : (∃ (p : PD) (key : Octets) (u s : State), u = waitCycle (s.urz.beatDue.get p.key 0) s ∧ domainKey s = some key ∧ s.power.start = .ready ∧ s.domOn 77 = true ∧ domainPartId s ≠ 0xFFFF ∧ bitAt (s.odNat 0x1011 (p.port + 1)) 2 = true) ∧
    (∃ (p : PD) (d : Octets) (u s : State), urzFront [6] s = some (p, d, u) ∧ (urzPayload (urzBody u d)).length = 24 ∧ beatTimeOk (urzPayload (urzBody u d)) u = true) ∧
    (∃ (p : PD) (d : Octets) (u s : State), urzFront [6] s = some (p, d, u) ∧ beatTimeOk (urzPayload (urzBody u d)) u = false) ∧
    (∃ (p : PD) (s : State), (s.urz.peers.get p.key {}).present = true) ∧
    (∃ (p : PD) (s : State), (s.urz.peers.get p.key {}).present = false) :=
  ⟨⟨sysIn, kek5, _, part7 [], ⟨rfl, domain_key _, by decide +kernel⟩⟩,
    ⟨sysIn, framedAs (beatMsg 10), set (after (beatMsg 10)), set (taken (beatMsg 10)), ⟨front_of rfl (by decide +kernel), by decide +kernel⟩⟩,
    ⟨sysIn, framedAs (beatMsg 11), set (after (beatMsg 11)), set (taken (beatMsg 11)), ⟨front_of rfl (by decide +kernel), by decide +kernel⟩⟩,
    ⟨lineIn, { up with urz := { up.urz with peers := [(lineIn.key, { present := true })] } }, by decide +kernel⟩,
    ⟨sysIn, up, by decide +kernel⟩⟩

theorem witness_ControllersFailOver : (∃ (b : Bool) (s : State), Idle s ∧ ctlIn s .active = some b ∧ ctlIn s .starting = none ∧ ctlOf s (!b) = .standby) ∧
    (∃ (b : Bool) (s : State), Idle s ∧ ctlIn s .active = some b ∧ ctlIn s .starting = none ∧ ctlOf s (!b) ≠ .standby) ∧
    (∃ (b : Bool) (s : State), Idle s ∧ ctlIn s .starting = some b) ∧
    (∃ (b : Bool) (s : State), Idle s ∧ ctlOf s b = .isolated ∧ s.controlUp = true) ∧
    (∃ (b : Bool) (s : State), Idle s ∧ ctlOf s b = .diagnosing ∧ s.controlUp = false ∧ (ctlIn s .starting).isSome = false) :=
  ⟨⟨false, ctls .active .standby, by delta Idle; decide +kernel⟩, ⟨true, ctls .retired .active, by delta Idle; decide +kernel⟩, ⟨true, ctls .isolated .starting, by delta Idle; decide +kernel⟩, ⟨false, ctls .isolated .active, by delta Idle; decide +kernel⟩, true, ctls .retired .diagnosing, by delta Idle; decide +kernel⟩

theorem witness_ThePartPowersUpAndDown : (∃ s : State, s.power.pwrgood = false ∧ s.power.resetN = false) ∧
    (∃ s : State, s.power.pwrgood = false ∧ s.power.resetN = true ∧ s.rest.zeroizing = false) ∧
    (∃ (i : Bool) (s : State), s.power.resetN = true ∧ s.power.pwrgood = true) ∧
    (∃ s : State, s.power.pwrgood = true) ∧
    (∃ s : State, s.power.resetN = false ∧ s.power.pwrgood = true) ∧
    (∃ s : State, s.power.pwrgood = true ∧ s.power.start ≠ .off) ∧
    (∃ s : State, (s.power.pwrgood = false ∨ s.power.start = .off)) ∧
    (∃ (c : Nat) (s : State), s.power.coldAt = some c ∧ s.power.start ≠ .off) ∧
    (∃ s : State, (s.power.coldAt = none ∨ s.power.start = .off)) :=
  ⟨⟨State.reset, by decide +kernel⟩,
    ⟨powered (fun p => { p with resetN := true }), by decide +kernel⟩,
    ⟨true, powered (fun p => { p with resetN := true, pwrgood := true }), by decide +kernel⟩,
    ⟨up, by decide +kernel⟩,
    ⟨up, by decide +kernel⟩,
    ⟨up, by decide +kernel⟩,
    ⟨State.reset, by decide +kernel⟩,
    ⟨5, { up with power := { up.power with coldAt := some 5 } }, by decide +kernel⟩,
    ⟨up, by decide +kernel⟩⟩

theorem witness_StartUpReachesReady : (∃ s : State, s.power.start = .init) ∧
    (∃ s : State, s.power.start = .init) ∧
    (∃ (ok : Bool) (s : State), s.power.start ≠ .init) ∧
    (∃ (k : Fin 2) (s : State), Idle s ∧ inTraining s = true ∧ s.power.trained.contains k.val = false) ∧
    (∃ (k : Fin 2) (s : State), Idle s ∧ inTraining s = true ∧ s.power.trained.contains k.val = false) ∧
    (∃ (kat : List KatRun) (d0 d1 : Drbg) (s : State), inTraining s = true ∧ s.rng.started = false ∧ (Rng.seedHalf 1 (Rng.seedHalf 0 s.rng)).exp0 = some d0 ∧ (Rng.seedHalf 1 (Rng.seedHalf 0 s.rng)).exp1 = some d1) ∧
    (∃ s : State, Idle s ∧ s.power.start = .training ∧ s.rng.started = false) ∧
    (∃ s : State, Quiet s ∧ (s.power.start ≠ .training ∨ s.rng.started = true)) ∧
    (∃ s : State, Idle s ∧ s.power.start = .restoring ∧ mpuReady s = true) :=
  ⟨⟨powered (fun p => { p with start := .init }), by decide +kernel⟩,
    ⟨powered (fun p => { p with start := .init }), by decide +kernel⟩,
    ⟨true, up, by decide +kernel⟩,
    ⟨1, training [0], ⟨by delta Idle; decide +kernel, by decide +kernel⟩⟩,
    ⟨0, training [], ⟨by delta Idle; decide +kernel, by decide +kernel⟩⟩,
    ⟨[], ((Rng.seedHalf 1 (Rng.seedHalf 0 seeding.rng)).exp0).get (by decide +kernel), ((Rng.seedHalf 1 (Rng.seedHalf 0 seeding.rng)).exp1).get (by decide +kernel), seeding, ⟨by decide +kernel, by decide +kernel, (Option.some_get _).symm, (Option.some_get _).symm⟩⟩,
    ⟨training [0, 1], ⟨by delta Idle; decide +kernel, by decide +kernel⟩⟩,
    ⟨up, ⟨quiet_of (by decide +kernel), by decide +kernel⟩⟩,
    ⟨{ remembered 1 with power := { (remembered 1).power with start := .restoring } }, ⟨by delta Idle; decide +kernel, by decide +kernel⟩⟩⟩

theorem witness_DrainsAndRestartsEnd : (∃ (dr : Drain) (s : State), s.power.drains.find? (fun dr => drainLeft s dr == 0) = some dr) ∧
    (∃ s : State, s.power.drains.find? (fun dr => drainLeft s dr == 0) = none) ∧
    (∃ (dr : Drain) (l : List Drain) (s : State), s.power.drains = dr :: l) ∧
    (∃ s : State, s.power.drains = []) ∧
    (∃ (d : Fin 80) (s : State), (s.domain d).state = 3) ∧
    (∃ (d : Fin 80) (s : State), (s.domain d).state ≠ 3) ∧
    (∃ s : State, Idle s ∧ s.power.service = .resetting ∧ s.power.serviceStep = 3 ∧ ctlIn s .starting = none) ∧
    (∃ s : State, Quiet s ∧ (s.power.service ≠ .resetting ∨ s.power.serviceStep ≠ 3 ∨ ctlIn s .starting ≠ none)) :=
  ⟨⟨drain74, { up with power := { up.power with drains := [drain74] } }, by decide +kernel⟩,
    ⟨up, by decide +kernel⟩,
    ⟨drain74, [], { up with power := { up.power with drains := [drain74] } }, by decide +kernel⟩,
    ⟨up, by decide +kernel⟩,
    ⟨79, { up with power := { up.power with domains := [(79, { state := 3 })] } }, by decide +kernel⟩,
    ⟨79, up, by decide +kernel⟩,
    ⟨{ up with power := { up.power with service := .resetting, serviceStep := 3 } }, ⟨by delta Idle; decide +kernel, by decide +kernel⟩⟩,
    ⟨up, ⟨quiet_of (by decide +kernel), by decide +kernel⟩⟩⟩

theorem witness_StepRunsTheCommand : (∃ (c : Instr) (l : List Instr) (s : State), s.pending = c :: l) ∧
    (∃ s : State, s.pending = []) :=
  ⟨⟨.thermtripAssert, [], { State.reset with pending := [.thermtripAssert] }, by decide +kernel⟩,
    ⟨State.reset, by decide +kernel⟩⟩

theorem witness_SingleCommitsLeaveOtherEntries : ∃ (c : Instr) (k : Fin 128) (idx sub : Nat) (v : Octets) (s : State), single c = some (k, idx, sub, v) ∧ Commits k idx sub v .agree s :=
  ⟨.savePersistentImage 0, 0, 0x1F01, 1, [1], up, ⟨rfl, ⟨quiet_of (by decide +kernel), by decide +kernel, by delta Fits; decide +kernel, by delta Passes; decide +kernel⟩⟩⟩

theorem witness_StoredMemoryKeepsItsForm : ∃ s t : State, Memory.wf s.mpu.hbm = true ∧ step s = .next t :=
  ⟨State.reset, _, ⟨by decide +kernel, rfl⟩⟩

theorem witness_LogEntriesAreStamped : ∃ (type source : Nat) (detail : Octets) (s : State), s.unexported < logLimit s :=
  ⟨0x21, 0xFF, [], up, by decide +kernel⟩

theorem witness_SplitCountersAreLaidOut : ∃ c : Split, (∀ i < 64, c.minor i < 128) :=
  ⟨{ minors := [(63, 127)] }, by decide +kernel⟩

theorem witness_TheCurrentTimeIsRead : ∃ (ses : Fin 128) (s : State), Quiet s ∧ sessionOpen s ses = true ∧ snapshotOf s ses (odKey 0x4000 1) = none ∧ s.time.now < 2 ^ 48 * 10 ^ 9 * 2 ^ 16 :=
  ⟨0, { up with time := { up.time with t48 := 2 ^ 80 } }, ⟨quiet_of (by decide +kernel), by decide +kernel⟩⟩

/-- From a command that changes no part of the key unit. -/
theorem witness_CommandsKeepWhatIsNotTheirs : ∃ (c : Instr) (s t : State) (k : Component), exec c s = .next t ∧ k ∉ changes c :=
  ⟨.thermtripAssert, State.reset, _, .pending, rfl, by decide⟩

/-! ## Well-formedness -/

/-- An ill-formed command for each check. -/
def illFormed : List Instr :=
  [.gougeParseStart sysIn 0 0 [0] 0 0, .frameAccepted sysIn (.ethernet (zeros 11) 0 0), .frameAccepted sysIn (.tributary 0 [] (zeros 64) []), .pfcReceived 0 0 [0],
   .injectionDescriptor 0 (zeros 10237), .avsEvaluation [], .keyLoadBlob 0 0 (zeros 103) .agree, .keyDerive 0 0 0 0 8 16 [] [] (zeros 24) .agree, .keyGenerate 0 0 (zeros 23) .agree,
   .keyImportBare 0 0 0 (zeros 24) (zeros 41) .agree, .ownershipTake 0 (zeros 200), .ownershipTransfer 0 (zeros 200), .ownershipRelease 0 (zeros 202), .enrollmentOpen 0 (zeros 31),
   .enrollmentRequest 0 (zeros 254) .agree, .setTime 0 (zeros 11), .mpuRead 0 0, .mpuWrite 0 (zeros 65), .faultInjection 0 (zeros 15), .conditionedBlockReady 0 (zeros 127),
   .conditionerKat 0 (zeros 129), .expanderKat 0 (zeros 341), .rawCaptureComplete [], .toolRestSample [] [] [], .unlockToken 0 (zeros 159), .debugToken 0 (zeros 161),
   .dictionaryWrite 0 0 0 0 0 [], .generatorReady []]
theorem test_ill_formed_commands_are_refused : illFormed.all (fun c => !c.wf) = true := by decide +kernel
theorem test_a_longest_frame_is_well_formed : (Instr.frameAccepted sysIn (.ethernet (zeros 10304) 0 0)).wf = true := by decide +kernel

/-! ## Algorithms against their published examples -/

/-- FIPS 197, appendix C.1. -/
theorem test_aes128 : aesEnc (beBytes 16 0x000102030405060708090a0b0c0d0e0f) (beBytes 16 0x00112233445566778899aabbccddeeff) = beBytes 16 0x69c4e0d86a7b0430d8cdb78070b4c55a := by decide +kernel
/-- FIPS 197, appendix C.3. -/
theorem test_aes256 : aesEnc (beBytes 32 0x000102030405060708090a0b0c0d0e0f101112131415161718191a1b1c1d1e1f) (beBytes 16 0x00112233445566778899aabbccddeeff) = beBytes 16 0x8ea2b7ca516745bfeafc49904b496089 := by decide +kernel
/-- The first test case of the GCM specification: a zero key and IV, and no data. -/
theorem test_gcm : gcmTag (zeros 16) (zeros 12) [] [] = beBytes 16 0x58e2fccefa7e3061367f1d57a4e7455a := by decide +kernel
/-- FIPS 180-4 example: SHA-384 of "abc". -/
theorem test_sha384 : sha384 [0x61, 0x62, 0x63] = beBytes 48 0xcb00753f45a35e8bb5a03d699ac65007272c32ab0eded1631a8b605a43ff5bed8086072ba1e7cc2358baeca134c825a7 := by decide +kernel
/-- The check value of the CRC-32 of IEEE 802.3: the nine digits. -/
theorem test_fcs : fcs32 [0x31, 0x32, 0x33, 0x34, 0x35, 0x36, 0x37, 0x38, 0x39] = leBytes 4 0xCBF43926 := by decide +kernel

/-! ## The retention code (R198) -/

def sampleWord : List Nat := (List.range 16).map (fun i => 4099 * i + 7)
/-- The symbols of the sample word with their positions, those of bank `b` left out, and some changed. -/
def sampleSymbols (b : Option Nat) (wrong : List Nat) : List (Nat × Nat) :=
  (((retEncode sampleWord).zipIdx.map (fun p => (p.2, if wrong.contains p.2 then p.1 ^^^ 0x8001 else p.1))).filter (fun p => b.all (fun b => !(bankPositions b).contains p.1)))
theorem test_checks_lie_on_the_code : retCheck sampleWord 19 = retSymbol (sampleWord.zipIdx.map (fun p => (p.2, p.1))) 19 := by decide +kernel
theorem test_a_bank_and_a_symbol_are_recovered : retDecode (sampleSymbols (some 2) [0]) = some sampleWord := by decide +kernel
theorem test_a_bank_is_recovered : retDecode (sampleSymbols (some 0) []) = some sampleWord := by decide +kernel

/-! ## Single steps -/

/-- R1: an idle step lets a cycle pass and nothing else happens. -/
theorem test_idle_step : (match step up with | .next t => t.time.cycles == up.time.cycles + 1 && t.out.isEmpty | _ => false) = true := by decide +kernel
/-- R515: THERMTRIP asserts on main power alone. -/
theorem test_thermtrip : (match exec .thermtripAssert up, exec .thermtripAssert State.reset with | .next s, .next t => s.power.thermtrip && !t.power.thermtrip | _, _ => false) = true := by decide +kernel
/-- R89: a frame shorter than 64 octets with its FCS is a runt, and takes no sequence number. -/
theorem test_runt : (match exec (.frameAccepted sysIn (.ethernet (zeros 59) 0 0)) eth with | .next t => (t.pd sysIn).nextSeq == (eth.pd sysIn).nextSeq && t.path.frames.isEmpty | _ => false) = true := by decide +kernel
/-- R24: a frame of 64 octets takes the next sequence number and joins retention. -/
theorem test_shortest_frame : (match exec (.frameAccepted sysIn (.ethernet (zeros 60) 0 0)) eth with | .next t => (t.pd sysIn).nextSeq == (eth.pd sysIn).nextSeq + 1 && t.path.frames.length == 1 | _ => false) = true := by decide +kernel

end Sys2Proof.Tests
end

/-! Dictionary transactions while nothing waits: the records (R434, R435), what a transaction leaves alone so that settling it only
brings the checkpoint up to date, and what a read, a write and a bit-clearing write come to (R13, R429, R436). -/
namespace Sys2Proof

/-! ## Octets and tables -/

@[simp] theorem length_leBytes (n v : Nat) : (leBytes n v).length = n := by
  induction n generalizing v with
  | zero => rfl
  | succ n ih => simp [leBytes, ih]

theorem leNat_leBytes (n v : Nat) : leNat (leBytes n v) = v % 256 ^ n := by
  induction n generalizing v with
  | zero => simp [leBytes, leNat, Nat.mod_one]
  | succ n ih =>
    rw [leBytes, leNat, ih, BitVec.toNat_ofNat, show 256 ^ (n + 1) = 256 * 256 ^ n from Nat.pow_succ', Nat.mod_mul]

/-- A value that fits a type is no longer than the type. -/
theorem Ty.length_le_of_fits {t : Ty} {v : Octets} (h : t.fits v = true) : v.length ≤ t.size := by
  cases t with
  | upTo n => exact of_decide_eq_true h
  | _ => exact Nat.le_of_eq (of_decide_eq_true h)

section
variable {α : Type}

theorem Tab.find_mapAll (f : Nat → α → α) (k : Nat) (t : Tab α) : (t.mapAll f).find k = (t.find k).map (f k) := by
  induction t with
  | nil => rfl
  | cons p t ih =>
    obtain ⟨i, y⟩ := p
    by_cases h : i = k
    · subst h; simp [Tab.mapAll, Tab.find]
    · simpa [Tab.mapAll, Tab.find, h] using ih

/-- A change of every record changes the default in the same way where it leaves the default alone. -/
theorem Tab.get_mapAll {f : Nat → α → α} {k : Nat} {d : α} (h : f k d = d) (t : Tab α) : (t.mapAll f).get k d = f k (t.get k d) := by
  unfold Tab.get
  rw [Tab.find_mapAll]
  cases t.find k with
  | none => exact h.symm
  | some x => rfl
end

namespace Machine

/-! ## Records (R434, R435) -/

/-- A request record spells its fields back, each cut to its width. -/
theorem requestOf_requestRecord (op flags idx sub off len : Nat) (data : Octets) :
    requestOf (requestRecord op flags idx sub off len data) =
      { op := op % 256, flags := flags % 256, idx := idx % 65536, sub := sub % 256, tag := 0, off := off % 4294967296, len := len % 65536, data := data.take (len % 65536) } := by
  have hidx : leAt (requestRecord op flags idx sub off len data) 2 2 = idx % 65536 := leNat_leBytes 2 idx
  have htag : leAt (requestRecord op flags idx sub off len data) 8 4 = 0 := rfl
  have hoff : leAt (requestRecord op flags idx sub off len data) 12 4 = off % 4294967296 := leNat_leBytes 4 off
  have hlen : leAt (requestRecord op flags idx sub off len data) 16 2 = len % 65536 := leNat_leBytes 2 len
  unfold requestOf
  rw [hidx, htag, hoff, hlen]
  rfl

theorem responseCode_responseOf (q : Request) (code : Nat) (more : Bool) (data : Octets) (size : Nat) :
    responseCode (responseOf q code more data size) = code % 4294967296 := leNat_leBytes 4 code

theorem responseOf_drop (q : Request) (code : Nat) (more : Bool) (data : Octets) (size : Nat) :
    (responseOf q code more data size).drop 24 = pad4 data := by
  unfold responseOf
  exact List.drop_left' (by simp [oct, zeros])

/-- The data of a response record stand behind its header. -/
theorem responseOf_carries_data (q : Request) (code : Nat) (more : Bool) (data : Octets) (size : Nat) :
    data <+: (responseOf q code more data size).drop 24 := by
  rw [responseOf_drop]; exact List.prefix_append _ _

/-- The request of a row that writes. -/
def rowWrite (fl : BitVec 8) (idx : BitVec 16) (sub : BitVec 8) (off : BitVec 32) (v : Octets) : Request :=
  { op := 2, flags := fl.toNat, idx := idx.toNat, sub := sub.toNat, tag := 0, off := off.toNat, len := v.length, data := v }

/-- The record of a row that writes. -/
def rowWriteRecord (fl : BitVec 8) (idx : BitVec 16) (sub : BitVec 8) (off : BitVec 32) (v : Octets) : Octets :=
  requestRecord 2 fl.toNat idx.toNat sub.toNat off.toNat v.length v

theorem requestOf_rowWriteRecord (fl : BitVec 8) (idx : BitVec 16) (sub : BitVec 8) (off : BitVec 32) {v : Octets} (hv : v.length ≤ 4096) :
    requestOf (rowWriteRecord fl idx sub off v) = rowWrite fl idx sub off v := by
  unfold rowWriteRecord rowWrite
  rw [requestOf_requestRecord, Nat.mod_eq_of_lt fl.isLt, Nat.mod_eq_of_lt idx.isLt, Nat.mod_eq_of_lt sub.isLt, Nat.mod_eq_of_lt off.isLt,
    Nat.mod_eq_of_lt (show v.length < 65536 by omega), List.take_length]

/-- The request of a row that reads from the first octet. -/
def rowRead (fl : BitVec 8) (idx : BitVec 16) (sub : BitVec 8) (n : BitVec 16) : Request :=
  { op := 1, flags := fl.toNat, idx := idx.toNat, sub := sub.toNat, tag := 0, off := 0, len := n.toNat, data := [] }

/-- The record of a row that reads. -/
def rowReadRecord (fl : BitVec 8) (idx : BitVec 16) (sub : BitVec 8) (n : BitVec 16) : Octets :=
  requestRecord 1 fl.toNat idx.toNat sub.toNat 0 n.toNat []

theorem requestOf_rowReadRecord (fl : BitVec 8) (idx : BitVec 16) (sub : BitVec 8) (n : BitVec 16) :
    requestOf (rowReadRecord fl idx sub n) = rowRead fl idx sub n := by
  unfold rowReadRecord rowRead
  rw [requestOf_requestRecord, Nat.mod_eq_of_lt fl.isLt, Nat.mod_eq_of_lt idx.isLt, Nat.mod_eq_of_lt sub.isLt, Nat.mod_eq_of_lt n.isLt, List.take_nil]

/-! ## What settling does not notice -/

/-- The second state differs from the first in nothing that settling looks at but what the sessions hold. -/
structure QuietFrame (s t : State) : Prop where
  power : t.power = s.power
  host : t.host = s.host
  ctl : t.ctl = { s.ctl with sessions := t.ctl.sessions }

theorem QuietFrame.trans {s t u : State} (h : QuietFrame s t) (g : QuietFrame t u) : QuietFrame s u :=
  ⟨g.power.trans h.power, g.host.trans h.host, by rw [g.ctl, h.ctl]⟩

/-- The second state differs from the first in what the sessions hold alone. -/
def SessionsOnly (s t : State) : Prop := ∃ w, t = { s with ctl := { s.ctl with sessions := w } }

theorem SessionsOnly.refl (s : State) : SessionsOnly s s := ⟨s.ctl.sessions, rfl⟩

theorem SessionsOnly.trans {s t u : State} (h : SessionsOnly s t) (g : SessionsOnly t u) : SessionsOnly s u := by
  obtain ⟨w, rfl⟩ := h; obtain ⟨v, rfl⟩ := g; exact ⟨v, rfl⟩

theorem SessionsOnly.quietFrame {s t : State} (h : SessionsOnly s t) : QuietFrame s t := by
  obtain ⟨w, rfl⟩ := h; exact ⟨rfl, rfl, rfl⟩

theorem SessionsOnly.out {s t : State} (h : SessionsOnly s t) : t.out = s.out := by
  obtain ⟨w, rfl⟩ := h; rfl

/-- So it is after an output, once what left the part is put aside. -/
theorem SessionsOnly.eq_emit {s t : State} (h : SessionsOnly s t) (o : Output) :
    ({ emit o t with ctl := { (emit o t).ctl with sessions := s.ctl.sessions }, out := s.out } : State) = s := by
  obtain ⟨w, rfl⟩ := h; rfl

@[simp] theorem emit_session (o : Output) (s : State) (k : Nat) : (emit o s).session k = s.session k := rfl

@[simp] theorem waitCycle_session (c k : Nat) (s : State) : (waitCycle c s).session k = s.session k := by
  unfold State.session; rw [waitCycle_ctl]

theorem sessionsOnly_updSession (k : Nat) (f : Session → Session) (s : State) : SessionsOnly s (updSession k f s) := ⟨_, rfl⟩

/-- The link agrees with PD75 where neither change of R452 and R494 is due. -/
theorem pcieSettle_eq_self_iff (s : State) : pcieSettle s = s ↔
    (s.power.pcieUp = true → (s.domain 75).state ≠ 0) ∧ (s.power.pcieUp = false → (s.domain 75).state = 1 → s.reachable = false) := by
  unfold pcieSettle
  constructor
  · intro h
    split at h
    · rename_i hd
      have := congrArg (fun u : State => u.power.pcieUp) h
      simp_all
    · split at h
      · have := congrArg (fun u : State => u.power.pcieUp) h
        simp_all
      · simp_all
  · rintro ⟨hup, hdown⟩
    rw [if_neg (by simpa using hup), if_neg (by simpa using hdown)]

theorem Quiet.of_frame {s t : State} (h : Quiet s) (f : QuietFrame s t) : Quiet t := by
  obtain ⟨hr, hs, hp, hj, hq, hh, hi, hf, hm⟩ := h
  obtain ⟨fp, fh, fc⟩ := f
  have hd : t.domain 75 = s.domain 75 := by unfold State.domain; rw [fp]
  have hr' : t.reachable = s.reachable := by unfold State.reachable; rw [fp]
  refine ⟨hr'.trans hr, ?_, ?_, ?_, ?_, ?_, ?_, ?_, ?_⟩
  · rw [← hs]; unfold controlServes controlWaits State.controlUp ctlIn; rw [fc, fp]
  · rw [pcieSettle_eq_self_iff] at hp ⊢; rw [fp, hd, hr']; exact hp
  · rw [fc]; exact hj
  · rw [fc]; exact hq
  · rw [fc]; exact hh
  · rw [fc]; exact hi
  · rw [fc]; exact hf
  · unfold State.ring; rw [fh]; exact hm

theorem Quiet.controlUp {s : State} (h : Quiet s) : s.controlUp = true := (Bool.and_eq_true_iff.mp h.2.1).1

theorem Quiet.not_controlWaits {s : State} (h : Quiet s) : controlWaits s = false := by
  simpa using (Bool.and_eq_true_iff.mp h.2.1).2

/-- A transaction that is answered while nothing waits: its response leaves, and the checkpoint follows. -/
theorem dictSettle_transact {k : Nat} {b x : Octets} {ck : ChuckRun} {s t : State} (h : Quiet s) (hr : runRecord k b ck s = (some x, t)) (f : QuietFrame s t) :
    dictSettle (transact k b ck s) = controlCheckpoint (emit (.response k x) t) := by
  have ht : transact k b ck s = emit (.response k x) t := by
    unfold transact
    simp only [h.1, h.not_controlWaits, hr, Bool.not_true, Bool.false_eq_true, if_false]
  rw [ht]
  exact dictSettle_quiet (h.of_frame ⟨f.power, f.host, f.ctl⟩)

/-! ## Writes (R429, R436) -/

theorem runRecord_write {k : Nat} {fl : BitVec 8} {idx : BitVec 16} {sub : BitVec 8} {off : BitVec 32} {v : Octets} {ck : ChuckRun} {e : Entry} {s : State}
    (hq : Quiet s) (ho : sessionOpen s k = true) (he : entryAt idx.toNat sub.toNat = some e) (h0 : 0 < v.length) (hv : v.length ≤ 4096) :
    runRecord k (rowWriteRecord fl idx sub off v) ck s =
      ((writeRecord k ck (rowWrite fl idx sub off v) e s).1.map (fun code => responseOf (rowWrite fl idx sub off v) code false []
          (entrySize (writeRecord k ck (rowWrite fl idx sub off v) e s).2 k idx.toNat sub.toNat e)),
        (writeRecord k ck (rowWrite fl idx sub off v) e s).2) := by
  have hl : ¬ (v.length = 0 ∨ 4096 < v.length) := by omega
  unfold runRecord
  rw [requestOf_rowWriteRecord fl idx sub off hv]
  simp only [ho, hq.controlUp, rowWrite, he, hl, Bool.not_true, Bool.false_eq_true, if_false, ne_eq, not_true_eq_false, and_false, OfNat.ofNat_ne_one]

/-- A write that the entry's rights and checks give a code: the response has the code, and the checkpoint follows. -/
theorem dictSettle_write {ses : Nat} {fl : BitVec 8} {idx : BitVec 16} {sub : BitVec 8} {off : BitVec 32} {v : Octets} {ck : ChuckRun} {e : Entry} {s t : State} {code : Nat}
    (hq : Quiet s) (ho : sessionOpen s ses = true) (he : entryAt idx.toNat sub.toNat = some e) (h0 : 0 < v.length) (hv : v.length ≤ 4096)
    (hw : writeRecord ses ck (rowWrite fl idx sub off v) e s = (some code, t)) (hc : code < 4294967296) (f : QuietFrame s t) :
    ∃ x, dictSettle (transact ses (rowWriteRecord fl idx sub off v) ck s) = controlCheckpoint (emit (.response ses x) t) ∧ responseCode x = code := by
  have hr := runRecord_write (fl := fl) (off := off) (ck := ck) hq ho he h0 hv
  rw [hw] at hr
  exact ⟨_, dictSettle_transact hq hr f, (responseCode_responseOf ..).trans (Nat.mod_eq_of_lt hc)⟩

/-- A transaction on an entry that does not exist (R439). -/
theorem dictSettle_missing {ses : Nat} {b : Octets} {ck : ChuckRun} {s : State} (hq : Quiet s) (ho : sessionOpen s ses = true)
    (he : entryAt (requestOf b).idx (requestOf b).sub = none) :
    ∃ x, dictSettle (transact ses b ck s) = controlCheckpoint (emit (.response ses x) s) ∧ responseCode x = abMissing := by
  have hr : runRecord ses b ck s = (some (responseOf (requestOf b) abMissing false [] 0), s) := by
    unfold runRecord
    simp [ho, hq.controlUp, he]
  exact ⟨_, dictSettle_transact hq hr (SessionsOnly.refl s).quietFrame, responseCode_responseOf ..⟩

/-- The unfinished segmented write of an entry ends. -/
def endPartial (k key : Nat) (s : State) : State :=
  if ((s.session k).partials.find key).isSome then updSession k (fun x => { x with partials := x.partials.drop key }) s else s

theorem sessionsOnly_endPartial (k key : Nat) (s : State) : SessionsOnly s (endPartial k key s) := by
  unfold endPartial; split
  · exact sessionsOnly_updSession ..
  · exact SessionsOnly.refl s

theorem endPartial_session_other {k j : Nat} (h : j ≠ k) (key : Nat) (s : State) : (endPartial k key s).session j = s.session j := by
  unfold endPartial; split
  · rw [updSession_get, if_neg h]
  · rfl

@[simp] theorem endPartial_staged (k key j : Nat) (s : State) : ((endPartial k key s).session j).staged = (s.session j).staged := by
  unfold endPartial; split
  · rw [updSession_get]; split
    · rename_i hj; rw [hj]
    · rfl
  · rfl

/-- What the sessions have staged is counted alike where nothing is staged or taken. -/
theorem stagedBytes_congr {s t : State} (h : SessionsOnly s t) (hs : ∀ j, (t.session j).staged = (s.session j).staged) (k : Nat) : stagedBytes t k = stagedBytes s k := by
  unfold stagedBytes Session.size
  rw [hs]
  obtain ⟨w, rfl⟩ := h
  rfl

theorem stagedTotal_congr {s t : State} (h : SessionsOnly s t) (hs : ∀ j, (t.session j).staged = (s.session j).staged) : stagedTotal t = stagedTotal s := by
  unfold stagedTotal
  simp only [stagedBytes_congr h hs]

/-- A write in one segment is the write of a whole value. -/
theorem writeSegment_whole {k : Nat} {ck : ChuckRun} {q : Request} {e : Entry} {s : State} (hf : bitAt q.flags 0 = true) (hl : bitAt q.flags 1 = true)
    (ho : q.off = 0) (hs : q.data.length ≤ e.ty.size) :
    writeSegment k ck q e s = writeWhole k ck q e q.data (endPartial k (odKey q.idx q.sub) s) := by
  unfold writeSegment
  simp only [hf, hl, ho, if_true, List.nil_append, List.length_nil, ne_eq, not_true_eq_false, if_false, Nat.not_lt.mpr hs]
  rfl

/-- A whole write to an entry that can be written. -/
theorem writeRecord_whole {k : Nat} {ck : ChuckRun} {q : Request} {e : Entry} {s : State} (hro : e.acc ≠ .ro) (hwl : e.acc = .rwl → s.locked = false)
    (hn : q.data.length = q.len) (hf : bitAt q.flags 0 = true) (hl : bitAt q.flags 1 = true) (ho : q.off = 0) (hs : q.data.length ≤ e.ty.size) :
    writeRecord k ck q e s = writeWhole k ck q e q.data (endPartial k (odKey q.idx q.sub) s) := by
  unfold writeRecord
  rw [if_neg hro, if_neg (by rintro ⟨ha, hb⟩; rw [hwl ha] at hb; exact Bool.false_ne_true hb), if_neg (not_not.mpr hn), writeSegment_whole hf hl ho hs]

theorem writeRecord_ro {k : Nat} {ck : ChuckRun} {q : Request} {e : Entry} {s : State} (h : e.acc = .ro) : writeRecord k ck q e s = (some abReadOnly, s) := if_pos h

theorem writeRecord_locked {k : Nat} {ck : ChuckRun} {q : Request} {e : Entry} {s : State} (h : e.acc = .rwl) (hl : s.locked = true) : writeRecord k ck q e s = (some abLocked, s) := by
  unfold writeRecord
  rw [if_neg (by rw [h]; decide), if_pos ⟨h, hl⟩]

theorem stageValue_fits {k idx sub : Nat} {e : Entry} {v : Octets} {s : State} (hc : concatenated idx sub = false) (hs : v.length ≤ e.ty.size)
    (hb : stagedBytes s k + v.length ≤ 16777216) (ht : stagedTotal s + v.length ≤ 50331648) :
    stageValue k idx sub e v s = (0, updSession k (fun x => { x with staged := x.staged.put (odKey idx sub) v }) s) := by
  unfold stageValue
  simp only [hc, Bool.false_eq_true, if_false]
  exact if_neg (by omega)

/-- The whole value of an entry that is neither the commit nor the discard entry (R433) is staged, or clears bits. -/
theorem writeWhole_of_ordinary {k : Nat} {ck : ChuckRun} {q : Request} {e : Entry} {v : Octets} {s : State} (hf : e.ty.fits v = true)
    (hi : q.idx ≠ 0x1F00) :
    writeWhole k ck q e v s = if e.acc = .rwc then (some 0, clearBits q.idx q.sub v s) else (some (stageValue k q.idx q.sub e v s).1, (stageValue k q.idx q.sub e v s).2) := by
  unfold writeWhole
  rw [if_neg (by simp [hf]), if_neg (fun h => hi h.1), if_neg (fun h => hi h.1)]

/-- A whole write with room to an entry that stages puts the value there and leaves everything else. -/
theorem writeRecord_stages {k : Nat} {ck : ChuckRun} {q : Request} {e : Entry} {s : State} (hro : e.acc ≠ .ro) (hwc : e.acc ≠ .rwc) (hwl : e.acc = .rwl → s.locked = false)
    (hi : q.idx ≠ 0x1F00) (hc : concatenated q.idx q.sub = false) (ht : e.ty.fits q.data = true) (hn : q.data.length = q.len) (hf : bitAt q.flags 0 = true)
    (hl : bitAt q.flags 1 = true) (ho : q.off = 0) (hb : stagedBytes s k + q.data.length ≤ 16777216) (hm : stagedTotal s + q.data.length ≤ 50331648) :
    writeRecord k ck q e s = (some 0, updSession k (fun x => { x with staged := x.staged.put (odKey q.idx q.sub) q.data }) (endPartial k (odKey q.idx q.sub) s)) := by
  have hp := sessionsOnly_endPartial k (odKey q.idx q.sub) s
  have hst := endPartial_staged k (odKey q.idx q.sub) (s := s)
  have hs := Ty.length_le_of_fits ht
  rw [writeRecord_whole hro hwl hn hf hl ho hs, writeWhole_of_ordinary ht hi, if_neg hwc,
    stageValue_fits hc hs (by rwa [stagedBytes_congr hp hst]) (by rwa [stagedTotal_congr hp hst])]

/-- A whole write to an RWC entry clears its bits and leaves everything else (R13). -/
theorem writeRecord_clears {k : Nat} {ck : ChuckRun} {q : Request} {e : Entry} {s : State} (hwc : e.acc = .rwc) (hi : q.idx ≠ 0x1F00)
    (ht : e.ty.fits q.data = true) (hn : q.data.length = q.len) (hf : bitAt q.flags 0 = true) (hl : bitAt q.flags 1 = true) (ho : q.off = 0) :
    writeRecord k ck q e s = (some 0, clearBits q.idx q.sub q.data (endPartial k (odKey q.idx q.sub) s)) := by
  rw [writeRecord_whole (by rw [hwc]; decide) (by rw [hwc]; nofun) hn hf hl ho (Ty.length_le_of_fits ht), writeWhole_of_ordinary ht hi, if_pos hwc]

theorem clearBits_quietFrame (idx sub : Nat) (v : Octets) (s : State) : QuietFrame s (clearBits idx sub v s) :=
  ⟨clearBits_keep State.power (fun _ _ _ _ _ => rfl) .., clearBits_keep State.host (fun _ _ _ _ _ => rfl) .., by
    rw [clearBits_keep State.ctl (fun _ _ _ _ _ => rfl)]⟩

/-- A row that writes an RWC entry of its length clears the bits; beside that only an unfinished write of the session can end. -/
theorem exec_rwcBitClearWrite {ses : Fin 128} {idx : BitVec 16} {sub : BitVec 8} {v : Octets} {e : Entry} {s : State} (hq : Quiet s) (ho : sessionOpen s ses = true)
    (he : entryAt idx.toNat sub.toNat = some e) (hwc : e.acc = .rwc) (hi : idx.toNat ≠ 0x1F00) (ht : e.ty.fits v = true) (h0 : 0 < v.length) (hv : v.length ≤ 4096) :
    ∃ x u, SessionsOnly s u ∧ exec (.rwcBitClearWrite ses idx sub v) s = .next (controlCheckpoint (emit (.response ses x) (clearBits idx.toNat sub.toNat v u))) := by
  have hw := writeRecord_clears (k := ses) (ck := .agree) (q := rowWrite 3 idx sub 0 v) (s := s) hwc hi ht rfl (by decide : bitAt 3 0 = true) (by decide : bitAt 3 1 = true) rfl
  have hs := sessionsOnly_endPartial ses (odKey idx.toNat sub.toNat) s
  obtain ⟨x, hx, -⟩ := dictSettle_write hq ho he h0 hv hw (by decide) (hs.quietFrame.trans (clearBits_quietFrame idx.toNat sub.toNat v _))
  exact ⟨x, _, hs, congrArg Host.Outcome.next hx⟩

/-! ## Reads (R436) -/

theorem runRecord_read {k : Nat} {fl : BitVec 8} {idx : BitVec 16} {sub : BitVec 8} {n : BitVec 16} {ck : ChuckRun} {e : Entry} {s : State}
    (hq : Quiet s) (ho : sessionOpen s k = true) (he : entryAt idx.toNat sub.toNat = some e) (h0 : 0 < n.toNat) (hn : n.toNat ≤ 4096) :
    runRecord k (rowReadRecord fl idx sub n) ck s = (some (readRecord k (rowRead fl idx sub n) e s).1, (readRecord k (rowRead fl idx sub n) e s).2) := by
  have hl : ¬ (n.toNat = 0 ∨ 4096 < n.toNat) := by omega
  unfold runRecord
  rw [requestOf_rowReadRecord]
  simp only [ho, hq.controlUp, rowRead, he, hl, Bool.not_true, Bool.false_eq_true, if_false, ne_eq, not_true_eq_false, false_and, if_true]

/-- A read from the first octet is answered with the first octets of the value that serves it. -/
theorem readRecord_of_start {k : Nat} {q : Request} {e : Entry} {s : State} (ho : q.off = 0) :
    readRecord k q e s = (responseOf q 0 (decide (q.len < (readServed k q e s).1.length)) ((readServed k q e s).1.take q.len) (readServed k q e s).1.length, (readServed k q e s).2) := by
  unfold readRecord
  simp [ho, slice]

theorem readServed_snapshot {k : Nat} {q : Request} {e : Entry} {s : State} (hf : bitAt q.flags 2 = true) (ha : e.acc ≠ .wo) :
    readServed k q e s = (readValue s k q.idx q.sub, readClears q.idx q.sub
      (updSession k (fun x => { x with snaps := x.snaps.put (odKey q.idx q.sub) (readValue s k q.idx q.sub, s.time.cycles) }) s)) := by
  unfold readServed
  simp only [hf, if_true, beq_eq_false_iff_ne.mpr ha, Bool.false_eq_true, if_false]

theorem readServed_live {k : Nat} {q : Request} {e : Entry} {c : Octets} {s : State} (hf : bitAt q.flags 2 = false) (hs : snapshotOf s k (odKey q.idx q.sub) = some c) :
    readServed k q e s = (c, s) := by
  unfold readServed
  simp only [hf, hs, Bool.false_eq_true, if_false]

theorem readServed_fresh {k : Nat} {q : Request} {e : Entry} {s : State} (hf : bitAt q.flags 2 = false) (hs : snapshotOf s k (odKey q.idx q.sub) = none) :
    ∃ d, readServed k q e s = (d, readClears q.idx q.sub s) := by
  unfold readServed
  simp only [hf, hs, Bool.false_eq_true, if_false]
  exact ⟨_, rfl⟩

@[simp] theorem readClears_ctl (idx sub : Nat) (s : State) : (readClears idx sub s).ctl = s.ctl := readClears_keep State.ctl (fun _ _ _ _ _ => rfl) ..

theorem readClears_quietFrame (idx sub : Nat) (s : State) : QuietFrame s (readClears idx sub s) :=
  ⟨readClears_keep State.power (fun _ _ _ _ _ => rfl) .., readClears_keep State.host (fun _ _ _ _ _ => rfl) .., by rw [readClears_ctl]⟩

@[simp] theorem readClears_out (idx sub : Nat) (s : State) : (readClears idx sub s).out = s.out := readClears_keep State.out (fun _ _ _ _ _ => rfl) ..

@[simp] theorem readClears_session (idx sub : Nat) (s : State) (k : Nat) : (readClears idx sub s).session k = s.session k := by
  unfold State.session; rw [readClears_ctl]

/-- A row's read from the first octet: its response holds the first octets of what serves it, and the checkpoint follows. -/
theorem dictSettle_read {k : Nat} {fl : BitVec 8} {idx : BitVec 16} {sub : BitVec 8} {n : BitVec 16} {ck : ChuckRun} {e : Entry} {d : Octets} {s t : State}
    (hq : Quiet s) (ho : sessionOpen s k = true) (he : entryAt idx.toNat sub.toNat = some e) (h0 : 0 < n.toNat) (hn : n.toNat ≤ 4096)
    (hr : readServed k (rowRead fl idx sub n) e s = (d, t)) (f : QuietFrame s t) :
    ∃ x, dictSettle (transact k (rowReadRecord fl idx sub n) ck s) = controlCheckpoint (emit (.response k x) t) ∧ responseCode x = 0 ∧ d.take n.toNat <+: x.drop 24 := by
  have hrun := runRecord_read (fl := fl) (ck := ck) hq ho he h0 hn
  rw [readRecord_of_start rfl, hr] at hrun
  exact ⟨_, dictSettle_transact hq hrun f, responseCode_responseOf .., responseOf_carries_data ..⟩

/-! ## Writes that are staged or turned away, and discards -/

/-- A whole write that is answered 0 and changes what its session has staged, in settling: no other session and nothing else changes. -/
theorem dictSettle_restages {ses key : Nat} {fl : BitVec 8} {idx : BitVec 16} {sub : BitVec 8} {off : BitVec 32} {v : Octets} {e : Entry} {s : State} {f : Tab Octets → Tab Octets}
    (hq : Quiet s) (ho : sessionOpen s ses = true) (he : entryAt idx.toNat sub.toNat = some e) (h0 : 0 < v.length) (hv : v.length ≤ 4096)
    (hw : writeRecord ses .agree (rowWrite fl idx sub off v) e s = (some 0, updSession ses (fun x => { x with staged := f x.staged }) (endPartial ses key s))) :
    ∃ t x, dictSettle (transact ses (rowWriteRecord fl idx sub off v) .agree s) = controlCheckpoint t ∧ t.out = .response ses x :: s.out ∧ responseCode x = 0 ∧
      (t.session ses).staged = f (s.session ses).staged ∧ (∀ k, k ≠ ses → t.session k = s.session k) ∧
      ({ t with ctl := { t.ctl with sessions := s.ctl.sessions }, out := s.out } : State) = s := by
  have hp := sessionsOnly_endPartial ses key s
  have hs := hp.trans (sessionsOnly_updSession ses (fun x => { x with staged := f x.staged }) _)
  obtain ⟨x, hx, hcode⟩ := dictSettle_write hq ho he h0 hv hw (by decide) hs.quietFrame
  refine ⟨_, x, hx, ?_, hcode, ?_, fun k hk => ?_, hs.eq_emit _⟩
  · rw [emit_out, updSession_out, hp.out]
  · rw [emit_session, updSession_get, if_pos rfl, endPartial_staged]
  · rw [emit_session, updSession_get, if_neg hk, endPartial_session_other hk]

theorem exec_dictionaryWrite_stages {ses : Fin 128} {fl : BitVec 8} {idx : BitVec 16} {sub : BitVec 8} {v : Octets} {e : Entry} {s : State}
    (hq : Quiet s) (ho : sessionOpen s ses = true) (he : entryAt idx.toNat sub.toNat = some e) (hro : e.acc ≠ .ro) (hwc : e.acc ≠ .rwc) (hwl : e.acc = .rwl → s.locked = false)
    (hi : idx ≠ 0x1F00) (hc : concatenated idx.toNat sub.toNat = false) (ht : e.ty.fits v = true) (h0 : 0 < v.length) (hv : v.length ≤ 4096)
    (hf : fl.getLsbD 0 = true) (hl : fl.getLsbD 1 = true) (hb : stagedBytes s ses + v.length ≤ 16777216) (hm : stagedTotal s + v.length ≤ 50331648) :
    ∃ t x, exec (.dictionaryWrite ses fl idx sub 0 v) s = .next (controlCheckpoint t) ∧ t.out = .response ses x :: s.out ∧ responseCode x = 0 ∧
      (t.session ses).staged.find (odKey idx.toNat sub.toNat) = some v ∧ (∀ k, k ≠ ses.val → t.session k = s.session k) ∧
      ({ t with ctl := { t.ctl with sessions := s.ctl.sessions }, out := s.out } : State) = s := by
  have hi' : idx.toNat ≠ 0x1F00 := fun h => hi (BitVec.eq_of_toNat_eq h)
  have hw := writeRecord_stages (k := ses) (ck := .agree) (q := rowWrite fl idx sub 0 v) hro hwc hwl hi' hc ht rfl hf hl rfl hb hm
  obtain ⟨t, x, hx, hout, hcode, hstaged, hother, hframe⟩ := dictSettle_restages hq ho he h0 hv hw
  exact ⟨t, x, congrArg Host.Outcome.next hx, hout, hcode, by rw [hstaged]; exact Tab.find_put_same .., hother, hframe⟩

/-- A row's write that is turned away with a code leaves nothing but its response. -/
theorem exec_dictionaryWrite_refused {ses : Fin 128} {fl : BitVec 8} {idx : BitVec 16} {sub : BitVec 8} {off : BitVec 32} {v : Octets} {e : Entry} {s : State} {code : Nat}
    (hq : Quiet s) (ho : sessionOpen s ses = true) (he : entryAt idx.toNat sub.toNat = some e) (h0 : 0 < v.length) (hv : v.length ≤ 4096)
    (hw : writeRecord ses .agree (rowWrite fl idx sub off v) e s = (some code, s)) (hc : code < 4294967296) :
    ∃ t x, exec (.dictionaryWrite ses fl idx sub off v) s = .next (controlCheckpoint t) ∧ t.out = .response ses x :: s.out ∧ responseCode x = code ∧ ({ t with out := s.out } : State) = s := by
  obtain ⟨x, hx, hcode⟩ := dictSettle_write hq ho he h0 hv hw hc (SessionsOnly.refl s).quietFrame
  exact ⟨_, x, congrArg Host.Outcome.next hx, rfl, hcode, rfl⟩

theorem exec_dictionaryWrite_missing {ses : Fin 128} {fl : BitVec 8} {idx : BitVec 16} {sub : BitVec 8} {off : BitVec 32} {v : Octets} {s : State}
    (hq : Quiet s) (ho : sessionOpen s ses = true) (hv : v.length ≤ 4096) (he : entryAt idx.toNat sub.toNat = none) :
    ∃ t x, exec (.dictionaryWrite ses fl idx sub off v) s = .next (controlCheckpoint t) ∧ t.out = .response ses x :: s.out ∧ responseCode x = abMissing ∧ ({ t with out := s.out } : State) = s := by
  obtain ⟨x, hx, hcode⟩ := dictSettle_missing (b := rowWriteRecord fl idx sub off v) (ck := .agree) hq ho (by rw [requestOf_rowWriteRecord _ _ _ _ hv]; exact he)
  exact ⟨_, x, congrArg Host.Outcome.next hx, rfl, hcode, rfl⟩

/-- A whole write of 1 to the discard entry empties the session's staging (R433). -/
theorem writeRecord_discards {k : Nat} {ck : ChuckRun} {e : Entry} {s : State} (ha : e.acc = .wo) (ht : e.ty = .uint 1) :
    writeRecord k ck (rowWrite 3 0x1F00 2 0 [1]) e s = (some 0, updSession k (fun x => { x with staged := [] }) (endPartial k (odKey 0x1F00 2) s)) := by
  rw [writeRecord_whole (by rw [ha]; decide) (by rw [ha]; nofun) rfl (by decide : bitAt 3 0 = true) (by decide : bitAt 3 1 = true) rfl (by rw [ht]; exact le_refl 1)]
  have hf : ¬ ((!concatenated 0x1F00 2 && !e.ty.fits [1]) = true) := by rw [ht]; decide
  have h2 : ¬ ((0x1F00 : Nat) = 0x1F00 ∧ (2 : Nat) = 1) := by decide
  have h1 : leNat [1] = 1 := rfl
  exact (if_neg hf).trans ((if_neg h2).trans ((if_pos ⟨rfl, rfl⟩).trans (if_pos h1)))

theorem entryAt_discard : ∃ e, entryAt 0x1F00 2 = some e ∧ e.acc = .wo ∧ e.ty = .uint 1 := ⟨_, rfl, rfl, rfl⟩

theorem exec_discardStaging {ses : Fin 128} {s : State} (hq : Quiet s) (ho : sessionOpen s ses = true) :
    ∃ t x, exec (.discardStaging ses) s = .next (controlCheckpoint t) ∧ t.out = .response ses x :: s.out ∧ responseCode x = 0 ∧ (t.session ses).staged = [] ∧
      (∀ k, k ≠ ses.val → t.session k = s.session k) ∧ ({ t with ctl := { t.ctl with sessions := s.ctl.sessions }, out := s.out } : State) = s := by
  obtain ⟨e, he, ha, ht⟩ := entryAt_discard
  obtain ⟨t, x, hx, hanswer⟩ := dictSettle_restages (fl := 3) (idx := 0x1F00) (sub := 2) (off := 0) (v := [1]) (f := fun _ => []) hq ho he (by decide) (by decide)
    (writeRecord_discards ha ht)
  exact ⟨t, x, congrArg Host.Outcome.next hx, hanswer⟩

/-! ## Snapshots -/

theorem exec_snapshotRead {ses : Fin 128} {idx : BitVec 16} {sub : BitVec 8} {n : BitVec 16} {e : Entry} {s : State} (hq : Quiet s) (ho : sessionOpen s ses = true)
    (he : entryAt idx.toNat sub.toNat = some e) (ha : e.acc ≠ .wo) (h0 : 0 < n.toNat) (hn : n.toNat ≤ 4096) :
    ∃ t x, exec (.snapshotRead ses idx sub n) s = .next (controlCheckpoint t) ∧ t.out = .response ses x :: s.out ∧ responseCode x = 0 ∧
      (readValue s ses idx.toNat sub.toNat).take n.toNat <+: x.drop 24 ∧
      (t.session ses).snaps.find (odKey idx.toNat sub.toNat) = some (readValue s ses idx.toNat sub.toNat, s.time.cycles) := by
  have hr := readServed_snapshot (k := ses) (q := rowRead 7 idx sub n) (s := s) (by decide : bitAt 7 2 = true) ha
  have hs := sessionsOnly_updSession ses (fun x => { x with snaps := x.snaps.put (odKey idx.toNat sub.toNat) (readValue s ses idx.toNat sub.toNat, s.time.cycles) }) s
  obtain ⟨x, hx, hcode, hd⟩ := dictSettle_read hq ho he h0 hn hr (hs.quietFrame.trans (readClears_quietFrame ..))
  refine ⟨_, x, congrArg Host.Outcome.next hx, ?_, hcode, hd, ?_⟩
  · rw [emit_out, readClears_out]; rfl
  · rw [emit_session, readClears_session, updSession_get, if_pos rfl]; exact Tab.find_put_same ..

theorem exec_snapshotExpiry {ses : Fin 128} {idx : BitVec 16} {sub : BitVec 8} {v : Octets} {c : Nat} {s : State}
    (h : (s.session ses).snaps.find (odKey idx.toNat sub.toNat) = some (v, c)) :
    ∃ t, exec (.snapshotExpiry ses idx sub) s = .next t ∧ c + 10 * secCycles ≤ t.time.cycles ∧
      (t.session ses).snaps = (s.session ses).snaps.drop (odKey idx.toNat sub.toNat) ∧ (t.session ses).staged = (s.session ses).staged := by
  have hx : exec (.snapshotExpiry ses idx sub) s =
      .next (updSession ses (fun x => { x with snaps := x.snaps.drop (odKey idx.toNat sub.toNat) }) (waitCycle (c + 10 * secCycles) s)) := by
    unfold exec execSnapshotExpiry
    simp only [h, snapshotCycles]
  exact ⟨_, hx, (waitCycle_cycles (c + 10 * secCycles) s).1, by rw [updSession_get, if_pos rfl, waitCycle_session], by rw [updSession_get, if_pos rfl, waitCycle_session]⟩

/-! ## RWC entries (R13) -/

theorem entryAt_alertLatch : ∃ e, entryAt 0x5002 1 = some e ∧ e.acc = .rwc ∧ e.ty = .uint 8 := ⟨_, rfl, rfl, rfl⟩
theorem entryAt_memoryLatch : ∃ e, entryAt 0x4401 1 = some e ∧ e.acc = .rwc ∧ e.ty = .uint 2 := ⟨_, rfl, rfl, rfl⟩
theorem entryAt_tribLatch : ∃ e, entryAt 0x2823 1 = some e ∧ e.acc = .rwc ∧ e.ty = .octets 1024 := ⟨_, rfl, rfl, rfl⟩
/-- One entry serves the eight subindices of the side latches. -/
theorem entryAt_sideLatch {sub : Nat} (h1 : 1 ≤ sub) (h8 : sub ≤ 8) : ∃ e, entryAt 0x2821 sub = some e ∧ e.acc = .rwc ∧ e.ty = .octets 8 := by
  interval_cases sub <;> exact ⟨_, rfl, rfl, rfl⟩

theorem exec_rwcBitClearWrite_alertLatch {ses : Fin 128} {v : Octets} {s : State} (hq : Quiet s) (ho : sessionOpen s ses = true) (hv : v.length = 8) :
    ∃ t, exec (.rwcBitClearWrite ses 0x5002 1 v) s = .next (controlCheckpoint t) ∧ t.rest.alertLatch = s.rest.alertLatch &&& ~~~(BitVec.ofNat 64 (leNat v)) ∧
      t.time = s.time ∧ t.otn = s.otn ∧ t.mpu = s.mpu := by
  obtain ⟨e, he, ha, ht⟩ := entryAt_alertLatch
  obtain ⟨x, u, ⟨w, rfl⟩, hx⟩ := exec_rwcBitClearWrite (idx := 0x5002) (sub := 1) hq ho he ha (by decide) (by rw [ht]; exact decide_eq_true hv) (by omega) (by omega)
  exact ⟨_, hx, rfl, rfl, rfl, rfl⟩

theorem exec_rwcBitClearWrite_memoryLatch {ses : Fin 128} {v : Octets} {s : State} (hq : Quiet s) (ho : sessionOpen s ses = true) (hv : v.length = 2) :
    ∃ t, exec (.rwcBitClearWrite ses 0x4401 1 v) s = .next (controlCheckpoint t) ∧ t.mpu.latched = s.mpu.latched &&& ~~~(BitVec.ofNat 16 (leNat v)) ∧
      t.rest = s.rest ∧ t.otn = s.otn ∧ t.mpu.hbm = s.mpu.hbm := by
  obtain ⟨e, he, ha, ht⟩ := entryAt_memoryLatch
  obtain ⟨x, u, ⟨w, rfl⟩, hx⟩ := exec_rwcBitClearWrite (idx := 0x4401) (sub := 1) hq ho he ha (by decide) (by rw [ht]; exact decide_eq_true hv) (by omega) (by omega)
  exact ⟨_, hx, rfl, rfl, rfl, rfl⟩

theorem clearBits_tribLatch (v : Octets) (s : State) (i : Nat) :
    (clearBits 0x2823 1 v s).otn.tribLatched.get i 0 = s.otn.tribLatched.get i 0 &&& ~~~(BitVec.ofNat 32 (leAt v (4 * i) 4)) := by
  have h : (clearBits 0x2823 1 v s).otn.tribLatched = s.otn.tribLatched.mapAll (fun i x => x &&& ~~~(BitVec.ofNat 32 (leAt v (4 * i) 4))) := rfl
  rw [h, Tab.get_mapAll BitVec.zero_and]

theorem exec_rwcBitClearWrite_tribLatch {ses : Fin 128} {v : Octets} {s : State} (hq : Quiet s) (ho : sessionOpen s ses = true) (hv : v.length = 1024) :
    ∃ t, exec (.rwcBitClearWrite ses 0x2823 1 v) s = .next (controlCheckpoint t) ∧
      ∀ i, t.otn.tribLatched.get i 0 = s.otn.tribLatched.get i 0 &&& ~~~(BitVec.ofNat 32 (leAt v (4 * i) 4)) := by
  obtain ⟨e, he, ha, ht⟩ := entryAt_tribLatch
  obtain ⟨x, u, ⟨w, rfl⟩, hx⟩ := exec_rwcBitClearWrite (idx := 0x2823) (sub := 1) hq ho he ha (by decide) (by rw [ht]; exact decide_eq_true hv) (by omega) (by omega)
  exact ⟨_, hx, clearBits_tribLatch v _⟩

theorem clearBits_sideLatch (sub : Nat) (v : Octets) (s : State) (i : Nat) :
    (clearBits 0x2821 sub v s).otn.sideLatched.get i 0 =
      if i / 2 + 1 = sub then s.otn.sideLatched.get i 0 &&& ~~~(BitVec.ofNat 32 (leAt v (4 * (i % 2)) 4)) else s.otn.sideLatched.get i 0 := by
  have h : (clearBits 0x2821 sub v s).otn.sideLatched =
      s.otn.sideLatched.mapAll (fun i x => if i / 2 + 1 = sub then x &&& ~~~(BitVec.ofNat 32 (leAt v (4 * (i % 2)) 4)) else x) := rfl
  rw [h, Tab.get_mapAll (by rw [show (0 : W32) = 0#32 from rfl, BitVec.zero_and, ite_self])]

theorem exec_rwcBitClearWrite_sideLatch {ses : Fin 128} {sub : BitVec 8} {v : Octets} {s : State} (hq : Quiet s) (ho : sessionOpen s ses = true)
    (h1 : 1 ≤ sub.toNat) (h8 : sub.toNat ≤ 8) (hv : v.length = 8) :
    ∃ t, exec (.rwcBitClearWrite ses 0x2821 sub v) s = .next (controlCheckpoint t) ∧ ∀ i, t.otn.sideLatched.get i 0 =
      (if i / 2 + 1 = sub.toNat then s.otn.sideLatched.get i 0 &&& ~~~(BitVec.ofNat 32 (leAt v (4 * (i % 2)) 4)) else s.otn.sideLatched.get i 0) := by
  obtain ⟨e, he, ha, ht⟩ := entryAt_sideLatch h1 h8
  obtain ⟨x, u, ⟨w, rfl⟩, hx⟩ := exec_rwcBitClearWrite (idx := 0x2821) hq ho he ha (by decide) (by rw [ht]; exact decide_eq_true hv) (by omega) (by omega)
  exact ⟨_, hx, clearBits_sideLatch sub.toNat v _⟩

/-! ## Since-last-read fields (R171, R228, R341) -/

theorem readClears_stepped (s : State) : (readClears 0x4000 2 s).time.stepped = false := rfl
theorem readClears_peak (s : State) : (readClears 0x3008 1 s).path.peak = s.inUse := rfl
theorem readClears_trib (s : State) (i : Nat) : (readClears 0x2822 1 s).otn.trib.get i 0 = s.otn.trib.get i 0 &&& ~~~(0x8080 : W32) := by
  have h : (readClears 0x2822 1 s).otn.trib = s.otn.trib.mapAll (fun _ w => w &&& ~~~(0x8080 : W32)) := rfl
  rw [h, Tab.get_mapAll BitVec.zero_and]

/-- With no live snapshot the read of an existing entry starts anew what is since the last read. -/
theorem exec_sinceLastRead_fresh {ses : Fin 128} {idx : BitVec 16} {sub : BitVec 8} {e : Entry} {s : State} (hq : Quiet s) (ho : sessionOpen s ses = true)
    (he : entryAt idx.toNat sub.toNat = some e) (hs : snapshotOf s ses (odKey idx.toNat sub.toNat) = none) :
    ∃ x, exec (.sinceLastReadStatusRead ses idx sub) s = .next (controlCheckpoint (emit (.response ses x) (readClears idx.toNat sub.toNat s))) := by
  obtain ⟨d, hr⟩ := readServed_fresh (q := rowRead 3 idx sub 4096) (e := e) (by decide : bitAt 3 2 = false) hs
  obtain ⟨x, hx, -⟩ := dictSettle_read (n := 4096) (ck := .agree) hq ho he (by decide) (by decide) hr (readClears_quietFrame ..)
  exact ⟨x, congrArg Host.Outcome.next hx⟩

theorem exec_sinceLastRead_missing {ses : Fin 128} {idx : BitVec 16} {sub : BitVec 8} {s : State} (hq : Quiet s) (ho : sessionOpen s ses = true)
    (he : entryAt idx.toNat sub.toNat = none) : ∃ t, exec (.sinceLastReadStatusRead ses idx sub) s = .next (controlCheckpoint t) := by
  obtain ⟨x, hx, -⟩ := dictSettle_missing (b := rowReadRecord 3 idx sub 4096) (ck := .agree) hq ho (by rw [requestOf_rowReadRecord]; exact he)
  exact ⟨_, congrArg Host.Outcome.next hx⟩

theorem exec_sinceLastReadStatusRead_fresh {ses : Fin 128} {idx : BitVec 16} {sub : BitVec 8} {s : State} (hq : Quiet s) (ho : sessionOpen s ses = true)
    (hs : snapshotOf s ses (odKey idx.toNat sub.toNat) = none) :
    ∃ t, exec (.sinceLastReadStatusRead ses idx sub) s = .next (controlCheckpoint t) ∧ (idx = 0x4000 → sub = 2 → t.time.stepped = false) ∧
      (idx = 0x3008 → sub = 1 → t.path.peak = s.inUse) ∧ (idx = 0x2822 → sub = 1 → ∀ i, t.otn.trib.get i 0 = s.otn.trib.get i 0 &&& ~~~(0x8080 : W32)) := by
  cases he : entryAt idx.toNat sub.toNat with
  | none =>
    have hno (i j : Nat) (h : (entryAt i j).isSome = true) (hi : idx.toNat = i) (hj : sub.toNat = j) : False := by
      rw [← hi, ← hj, he] at h; exact Bool.false_ne_true h
    obtain ⟨t, ht⟩ := exec_sinceLastRead_missing hq ho he
    refine ⟨t, ht, ?_, ?_, ?_⟩ <;> (rintro rfl rfl; exact (hno _ _ rfl rfl rfl).elim)
  | some e =>
    obtain ⟨x, hx⟩ := exec_sinceLastRead_fresh hq ho he hs
    refine ⟨_, hx, ?_, ?_, ?_⟩ <;> rintro rfl rfl
    · exact readClears_stepped s
    · exact readClears_peak s
    · exact readClears_trib s

theorem exec_sinceLastReadStatusRead_live {ses : Fin 128} {idx : BitVec 16} {sub : BitVec 8} {e : Entry} {c : Octets} {s : State} (hq : Quiet s) (ho : sessionOpen s ses = true)
    (he : entryAt idx.toNat sub.toNat = some e) (hs : snapshotOf s ses (odKey idx.toNat sub.toNat) = some c) :
    ∃ t x, exec (.sinceLastReadStatusRead ses idx sub) s = .next (controlCheckpoint t) ∧ t.out = .response ses x :: s.out ∧ c.take 4096 <+: x.drop 24 ∧ ({ t with out := s.out } : State) = s := by
  have hr := readServed_live (q := rowRead 3 idx sub 4096) (e := e) (by decide : bitAt 3 2 = false) hs
  obtain ⟨x, hx, -, hd⟩ := dictSettle_read (n := 4096) (ck := .agree) hq ho he (by decide) (by decide) hr (SessionsOnly.refl s).quietFrame
  exact ⟨_, x, congrArg Host.Outcome.next hx, rfl, hd, rfl⟩

/-! ## The statement -/

/-- Settles O40, clause by clause from what each row comes to while nothing waits. -/
theorem transactionsStageReadAndClear : Obligations.TransactionsStageReadAndClear := by
  unfold Obligations.TransactionsStageReadAndClear
  refine ⟨?stages, ?turnedAway, ?snapshot, ?expiry, ?discard, ?alert, ?memory, ?tributaries, ?sides, ?fresh, ?live⟩
  case stages =>
    intro ses fl idx sub v e s hq ho he hro hwc hwl hi hc ht h0 hv _ hf hl hb hm
    exact exec_dictionaryWrite_stages hq ho he hro hwc hwl hi hc ht h0 hv hf hl hb hm
  case turnedAway =>
    intro ses fl idx sub off v s hq ho h0 hv
    exact ⟨fun e he ha => exec_dictionaryWrite_refused hq ho he h0 hv (writeRecord_ro ha) (by decide),
      fun e he ha hl => exec_dictionaryWrite_refused hq ho he h0 hv (writeRecord_locked ha hl) (by decide),
      fun he => exec_dictionaryWrite_missing hq ho hv he⟩
  case snapshot => exact fun ses idx sub n e s hq ho he ha h0 hn => exec_snapshotRead hq ho he ha h0 hn
  case expiry => exact fun ses idx sub v c s h => exec_snapshotExpiry h
  case discard => exact fun ses s hq ho => exec_discardStaging hq ho
  case alert => exact fun ses v s hq ho hv => exec_rwcBitClearWrite_alertLatch hq ho hv
  case memory => exact fun ses v s hq ho hv => exec_rwcBitClearWrite_memoryLatch hq ho hv
  case tributaries => exact fun ses v s hq ho hv => exec_rwcBitClearWrite_tribLatch hq ho hv
  case sides => exact fun ses sub v s hq ho h1 h8 hv => exec_rwcBitClearWrite_sideLatch hq ho h1 h8 hv
  case fresh => exact fun ses idx sub s hq ho hs => exec_sinceLastReadStatusRead_fresh hq ho hs
  case live => exact fun ses idx sub e c s hq ho he hs => exec_sinceLastReadStatusRead_live hq ho he hs

end Machine
end Sys2Proof

/-! What each command may change (R226, R378): the table's row of SOURCE_FAILURES_CLEARED leaves out the time unit, which the command
advances. -/
namespace Sys2Proof.Machine

/-- The failures of a source that became Healthy at cycle `c` clear no earlier than eight hours after it: the command runs the clock on to
that instant (R378). -/
theorem exec_sourceFailuresCleared_cycles {k : Fin 8} {c : Nat} {s : State} (h : (s.rng.source k).healthyFrom = some c) :
    ∃ t, exec (.sourceFailuresCleared k) s = .next t ∧ c + cyclesUs 28800000000 ≤ t.time.cycles := by
  refine ⟨updSource k (fun x => { x with fails := 0 }) (waitCycle (c + cyclesUs 28800000000) s), ?_, ?_⟩
  · show execSourceFailuresCleared k s = _
    simp only [execSourceFailuresCleared, h]
  · rw [updSource_time]
    exact (waitCycle_cycles _ s).1

/-- Refutes O54: in the state after reset, but with source 0 Healthy since cycle 0, SOURCE_FAILURES_CLEARED moves the clock eight hours on,
and the table gives it the generator alone. -/
theorem not_commandsKeepWhatIsNotTheirs : ¬ Obligations.CommandsKeepWhatIsNotTheirs := by
  unfold Obligations.CommandsKeepWhatIsNotTheirs
  intro h
  obtain ⟨t, ht, hlate⟩ := exec_sourceFailuresCleared_cycles (k := 0) (c := 0) (s := updSource 0 (fun x => { x with healthyFrom := some 0 }) State.reset) rfl
  have hkept : t.time = State.reset.time := h (.sourceFailuresCleared 0) _ t ht .time (by decide)
  rw [hkept] at hlate
  exact absurd hlate (by decide)

end Sys2Proof.Machine

/-! Retention records in the four banks (R36, R198, R199): what a write leaves in each bank, and the rest of a record that fills no whole
word. -/
namespace Sys2Proof

/-- Octets too few for one record hold none. -/
theorem recordsOf_short {n : Nat} {b : Octets} (h : b.length < n) : recordsOf n b = [] := by
  unfold recordsOf records
  exact if_pos (Or.inl h)

theorem take_zeros {n m : Nat} (h : n ≤ m) : (zeros m).take n = zeros n := by
  unfold zeros; rw [List.take_replicate, Nat.min_eq_left h]

namespace Machine

theorem setBank_bank (b j : Nat) (f : Tab (List Nat) → Tab (List Nat)) (s : State) :
    (setBank b f s).path.banks.get j [] = if j = b then f (s.path.banks.get b []) else s.path.banks.get j [] := Tab.get_upd _ _ _ _ _ _

/-- With every bank in service a bank is written with the record's words, six symbols of each. -/
theorem retWrite_bank {b : Nat} (hb : b < 4) (id : Nat) (d : Octets) {s : State} (h : s.fab.rebuild = none) :
    (retWrite id d s).path.banks.get b [] = (s.path.banks.get b []).put id (((recordsOf 32 d).map (fun x => retEncode (wordSymbols x))).map (bankPack b)) := by
  simp only [retWrite, show List.range 4 = [0, 1, 2, 3] from rfl, List.foldl, setBank_bank, bankServes, setBank_fab, h]
  interval_cases b <;> rfl

theorem bankServes_of_none {s : State} (h : s.fab.rebuild = none) (b : Nat) : bankServes s b = true := by
  unfold bankServes; rw [h]; rfl

/-- Of a record that every bank holds with no words, each word reads as zeros. -/
theorem wordRead_of_empty {id : Nat} {s : State} (h : s.fab.rebuild = none) (he : ∀ b < 4, (s.path.banks.get b []).find id = some []) (k : Nat) :
    wordRead s id k = zeros 32 := by
  have hp : wordPresent s id k = (List.range 24).map (fun i => (i, 0)) := by
    unfold wordPresent
    simp only [show List.range 4 = [0, 1, 2, 3] from rfl, List.map, he 0 (by decide), he 1 (by decide), he 2 (by decide), he 3 (by decide),
      bankServes_of_none h, if_true, List.getD_nil]
    decide
  have hd : retDecode ((List.range 24).map (fun i => (i, 0))) = some (List.replicate 16 0) := by decide
  unfold wordRead
  simp only [hp, hd]
  decide

/-- A record shorter than one word is written without its octets, and reads as zeros. -/
theorem retRead_retWrite_short {d : Octets} (hd : d.length < 32) (hn : 0 < d.length) (id : Nat) {s : State} (h : s.fab.rebuild = none) :
    retRead (retWrite id d s) id d.length = some (zeros d.length) := by
  have hs : (retWrite id d s).fab.rebuild = none := by rw [retWrite_fab, h]
  have he : ∀ b < 4, ((retWrite id d s).path.banks.get b []).find id = some [] := by
    intro b hb
    rw [retWrite_bank hb id d h, Tab.find_put_same, recordsOf_short hd]
    rfl
  unfold retRead
  rw [if_pos (by simp [show List.range 4 = [0, 1, 2, 3] from rfl, he, bankServes_of_none hs]),
    show (d.length + 31) / 32 = 1 by omega]
  simp only [List.range_one, List.map_singleton, List.flatten_singleton, wordRead_of_empty hs he, take_zeros hd.le]

/-- Refutes O15: of octets that fill no whole 32-octet word nothing is written, so the one octet 1 in record 0 of the reset state reads
back as 0. -/
theorem not_retentionHoldsFrames : ¬ Obligations.RetentionHoldsFrames := by
  unfold Obligations.RetentionHoldsFrames
  rintro ⟨hread, -, -⟩
  have hone : retRead (retWrite 0 [1] State.reset) 0 1 = some [1] := hread 0 [1] State.reset rfl
  have hzero : retRead (retWrite 0 [1] State.reset) 0 1 = some [0] := retRead_retWrite_short (d := [1]) (by decide) (by decide) 0 rfl
  exact absurd (hone.symm.trans hzero) (by decide)

end Machine
end Sys2Proof

/-! Acceptance (R22, R24, R35, R37, R145, R222, R446): what charging a pool, taking a sequence number and entering a frame each leave, and
the three ways in. -/
namespace Sys2Proof.Machine

/-! ## Port-directions, pools and retained frames -/

@[simp] theorem poolTake_pd (i n : Nat) (s : State) (p : PD) : (poolTake i n s).pd p = s.pd p := rfl
@[simp] theorem edgePass_pd (k n : Nat) (s : State) (p : PD) : (edgePass k n s).pd p = s.pd p := rfl

/-- A pool charged holds its use and what it granted (R37). -/
@[simp] theorem poolTake_pools_get (i n : Nat) (s : State) : (poolTake i n s).path.pools.get i 0 = s.path.pools.get i 0 + n :=
  Tab.get_upd_same i 0 (· + n) s.path.pools

/-- Space is granted by the dictionary and the use of the pools alone. -/
theorem poolFor_congr {s t : State} (hc : t.ctl = s.ctl) (hp : t.path.pools = s.path.pools) (order : List Nat) (n : Nat) :
    poolFor t order n = poolFor s order n := by
  unfold poolFor poolFree poolSize floorF shareT floorS pairUsed quadrantEth ethShape otnShape State.odNat State.od
  rw [hc, hp]

@[simp] theorem takeSeq_fst (p : PD) (s : State) : (takeSeq p s).1 = (s.pd p).nextSeq := rfl
theorem takeSeq_snd (p : PD) (s : State) : (takeSeq p s).2 = updPd p (fun r => { r with nextSeq := r.nextSeq + 1 }) s := rfl

/-- A new frame is entered in retention with its octets. -/
def enterFrm (f : Frm) (d : Octets) (s : State) : State := retWrite (newFrm f s).1 d (newFrm f s).2

theorem enterFrm_frame? (f : Frm) (d : Octets) (s : State) : (enterFrm f d s).frame? s.path.nextId = some f := by
  unfold enterFrm State.frame? newFrm
  rw [retWrite_frames, Tab.find_put_same]

theorem enterFrm_pd (f : Frm) (d : Octets) (s : State) (p : PD) : (enterFrm f d s).pd p = s.pd p := by
  unfold enterFrm State.pd
  rw [retWrite_pds]
  rfl

theorem enterFrm_pools (f : Frm) (d : Octets) (s : State) : (enterFrm f d s).path.pools = s.path.pools := by
  unfold enterFrm
  rw [retWrite_pools]
  rfl

theorem enterFrm_inject (f : Frm) (d : Octets) (s : State) : (enterFrm f d s).path.inject = s.path.inject := by
  unfold enterFrm
  rw [retWrite_inject]
  rfl

/-- Between `s` and `u` a frame of port-direction `p` took `n` bytes of a pool and the next sequence number; it is yet to be entered. -/
structure Admitted (p : PD) (pool n : Nat) (s u : State) : Prop where
  nextId : u.path.nextId = s.path.nextId
  nextSeq : (u.pd p).nextSeq = (s.pd p).nextSeq + 1
  pools : u.path.pools.get pool 0 = s.path.pools.get pool 0 + n

theorem Admitted.enterFrm {p : PD} {pool n : Nat} {s u : State} (h : Admitted p pool n s u) (f : Frm) (d : Octets) :
    (enterFrm f d u).frame? s.path.nextId = some f ∧ ((enterFrm f d u).pd p).nextSeq = (s.pd p).nextSeq + 1 ∧
      (enterFrm f d u).path.pools.get pool 0 = s.path.pools.get pool 0 + n := by
  refine ⟨?_, ?_, ?_⟩
  · rw [← h.nextId]; exact enterFrm_frame? f d u
  · rw [enterFrm_pd]; exact h.nextSeq
  · rw [enterFrm_pools]; exact h.pools

/-- Taking the sequence number of a state in which the space is charged. -/
theorem Admitted.of_takeSeq {p : PD} {pool n : Nat} {s v : State} (hid : v.path.nextId = s.path.nextId) (hseq : (v.pd p).nextSeq = (s.pd p).nextSeq)
    (hpool : v.path.pools.get pool 0 = s.path.pools.get pool 0 + n) : Admitted p pool n s (takeSeq p v).2 :=
  ⟨hid, by simp [takeSeq_snd, hseq], hpool⟩

/-! ## Frames from the lanes -/

/-- An Ethernet frame that passes the MAC's checks and finds room is charged, counted and entered under the next sequence number. -/
theorem acceptEthernet_enters {p : PD} {data : Octets} {ago pool : Nat} {s : State} (he : ethPort s p.port = true) (hl : laneUp s p = true)
    (hc : (s.pd p).closed = false) (hr : findFrm s (fun f => f.pd == p && f.stage == .receiving) = none) (hmin : 60 ≤ data.length)
    (hmax : data.length + 4 ≤ s.odNat 0x2402 (p.port + 1)) (hmac : be16 data 12 ≠ 0x8808)
    (hpool : poolFor s flightOrder (occupancy (data.length + 4)) = some pool) :
    ∃ f u, acceptEthernet p data false ago s = enterFrm f data u ∧ Admitted p pool (occupancy (data.length + 4)) s u ∧
      f.pd = p ∧ f.data = data ∧ f.seq = (s.pd p).nextSeq ∧ f.stage = .accepted ∧ f.pool = pool ∧ f.occ = occupancy (data.length + 4) ∧
      (u.pd p).mac = ((s.pd p).mac.bump 0 1).bump 1 (data.length + 4) := by
  have hshort : ¬ data.length + 4 < 64 := by omega
  have hlong : ∀ x, ¬ s.odNat 0x2402 (p.port + 1) + x < data.length + 4 := by intro x; omega
  unfold acceptEthernet
  simp only [he, hl, hc, hr, hshort, hlong, hpool, beq_eq_false_iff_ne.mpr hmac, Bool.not_true, Bool.or_self, Bool.false_and, Bool.and_false,
    Bool.false_eq_true, if_false]
  refine ⟨_, _, rfl, Admitted.of_takeSeq rfl ?_ ?_, rfl, rfl, ?_, rfl, rfl, rfl, ?_⟩
  · simp [macCount]
  · exact poolTake_pools_get _ _ _
  · simp [macCount]
  · simp [macCount, takeSeq_snd]

/-- A tributary frame of a valid tributary, on the port of its OTUCn, that finds room is charged and entered under the next sequence number. -/
theorem acceptTributary_enters {p : PD} {t pool : Nat} {payload overhead jc : Octets} {s : State} (hv : (s.tr t).valid = true)
    (ho : otnShape s (tribPair s t) ≠ 0) (hp : p.port.val = 4 * tribPair s t) (hl : laneUp s p = true) (hc : (s.pd p).closed = false)
    (hpool : poolFor s flightOrder (occupancy 15232) = some pool) :
    ∃ f u, acceptTributary p t payload overhead jc s = enterFrm f payload u ∧ Admitted p pool (occupancy 15232) s u ∧
      f.pd = p ∧ f.data = payload ∧ f.seq = (s.pd p).nextSeq ∧ f.stage = .classified ∧ f.odu.map OduPart.overhead = some overhead := by
  have hpool' : poolFor (updPd p (fun r => { r with finishing := r.finishing.erase t }) s) flightOrder (occupancy 15232) = some pool :=
    (poolFor_congr rfl rfl _ _).trans hpool
  have hpath : ∀ v, (gccReceive p t overhead (receiveCm p.dir t jc v)).path = v.path := fun v =>
    (gccReceive_keep State.path (fun _ _ => rfl) p t overhead _).trans (receiveCm_keep State.path (fun _ _ => rfl) p.dir t jc v)
  have hpd : ∀ v, (gccReceive p t overhead (receiveCm p.dir t jc v)).pd p = v.pd p := fun v => by unfold State.pd; rw [hpath]
  unfold acceptTributary
  simp only [hv, beq_eq_false_iff_ne.mpr ho, hp, hl, hc, hpool', bne_self_eq_false, Bool.not_true, Bool.or_self, Bool.false_and,
    Bool.false_eq_true, if_false]
  refine ⟨_, _, rfl, Admitted.of_takeSeq ?_ ?_ ?_, rfl, rfl, ?_, rfl, rfl⟩
  · rw [hpath]; rfl
  · simp [hpd]
  · rw [hpath]; exact poolTake_pools_get _ _ _
  · simp [hpd]

/-! ## Injection -/

/-- A valid descriptor of a running ring leaves the ring while the injection FIFO has room, and its frame joins the FIFO. -/
theorem injectNext_joins {q : Nat} {frame d x : Octets} {rest : List (Octets × Octets)} {s : State} (hp : (s.ring (576 + q)).posted = (d, x) :: rest)
    (hr : (s.ring (576 + q)).state = 1) (hroom : injectRoom s = true) (hst : injectStatus s d frame = 0) :
    ∃ i, (injectNext q frame s).path.inject = s.path.inject ++ [i] ∧ i.data = frame ∧ i.ring = some (576 + q, d) ∧
      ((injectNext q frame s).ring (576 + q)).posted = rest := by
  unfold injectNext
  simp only [hp, hr, hroom, hst, ne_eq, not_true_eq_false, decide_false, Bool.not_true, Bool.or_self, Bool.false_eq_true, if_false]
  refine ⟨_, rfl, rfl, rfl, ?_⟩
  show ((updRing (576 + q) _ s).ring (576 + q)).posted = rest
  simp [hp]

/-- The record under which the frame at the head of the injection FIFO is accepted (R112, R115). -/
def injectedFrm (i : Inject) (pool : Nat) (s : State) : Frm :=
  { pd := i.pd, seq := (s.pd i.pd).nextSeq, data := i.data, origin := i.origin, stage := .classified,
    verdict := if i.treatment = 1 ∨ (i.dreq.isSome ∧ i.sc ≠ 0xFFFF) then .protect else .bypass, parsed := true, acceptNs := s.time.ns,
    acceptCycle := s.time.cycles, stamp := s.time.now, budget := budgetOf s i.pd.port, timed := i.treatment == 2 || i.dreq.isSome,
    stamped := i.stamp || i.dreq.isSome, launch := (if i.stamp || i.dreq.isSome then s.time.now else i.ingress) + budgetOf s i.pd.port * 65536,
    queue := i.queue.getD (defaultQueue s i.pd), report := i.report,
    injSc := if i.treatment = 1 ∨ (i.dreq.isSome ∧ i.sc ≠ 0xFFFF) then some i.sc else none, pool := pool, occ := occupancy (i.data.length + 4), dreq := i.dreq }

/-- The frame at the head of the injection FIFO leaves it, once a pool has room, and is entered under the next sequence number; what the
clock's Delay_Req and the completion record of its descriptor then take is not of the path. -/
theorem injectAccept_enters {i : Inject} {rest : List Inject} {pool : Nat} {s : State} (hi : s.path.inject = i :: rest)
    (hpool : poolFor s flightOrder (occupancy (i.data.length + 4)) = some pool) :
    ∃ u, (injectAccept s).path = (enterFrm (injectedFrm i pool s) i.data u).path ∧ Admitted i.pd pool (occupancy (i.data.length + 4)) s u ∧
      u.path.inject = rest := by
  have hdone : ∀ r d v, (injectDone r d v).path = v.path := fun r d v => injectDone_keep State.path (fun _ _ _ => rfl) r d v
  refine ⟨(takeSeq i.pd (edgePass edgeInject i.data.length (poolTake pool (occupancy (i.data.length + 4))
    { s with path := { s.path with inject := rest } }))).2, ?_, Admitted.of_takeSeq rfl rfl (poolTake_pools_get _ _ _), rfl⟩
  unfold injectAccept
  simp only [hi, hpool]
  split
  · rw [hdone]
    split <;> rfl
  · split <;> rfl

/-! ## The statement -/

/-- Settles O2, each way in by the lemma that says under which record and in which state its frame is entered. -/
theorem framesAreAcceptedInSequence : Obligations.FramesAreAcceptedInSequence := by
  unfold Obligations.FramesAreAcceptedInSequence
  refine ⟨?ethernet, ?tributary, ?descriptor, ?injected⟩
  case ethernet =>
    intro p data ago pool s he hl hc hr hmin hmax hmac hpool
    obtain ⟨f, u, hacc, hadm, hpd, hdata, hseq, hstage, hfp, hocc, hcount⟩ := acceptEthernet_enters (ago := ago) he hl hc hr hmin hmax hmac hpool
    obtain ⟨hfrm, hnext, hpools⟩ := hadm.enterFrm f data
    refine ⟨_, f, congrArg Host.Outcome.next hacc, hfrm, hpd, hdata, hseq, hstage, hfp, hocc, hnext, hpools, ?_, ?_⟩
    · rw [enterFrm_pd, hcount, Tab.get_bump, if_neg (by decide), Tab.get_bump_same]; rfl
    · rw [enterFrm_pd, hcount, Tab.get_bump_same, Tab.get_bump, if_neg (by decide)]
  case tributary =>
    intro p i payload overhead jc pool s hv ho hp hl hc hpool
    obtain ⟨f, u, hacc, hadm, hpd, hdata, hseq, hstage, hodu⟩ := acceptTributary_enters (payload := payload) (overhead := overhead) (jc := jc) hv ho hp hl hc hpool
    obtain ⟨hfrm, hnext, hpools⟩ := hadm.enterFrm f payload
    exact ⟨_, f, congrArg Host.Outcome.next hacc, hfrm, hpd, hdata, hseq, hstage, hodu, hnext, hpools⟩
  case descriptor =>
    intro q frame d x rest s hp hr hroom hst
    obtain ⟨i, hjoin, hdata, hring, hposted⟩ := injectNext_joins hp hr hroom hst
    exact ⟨_, i, rfl, hjoin, hdata, hring, hposted⟩
  case injected =>
    intro i rest pool s hi hpool
    obtain ⟨u, hpath, hadm, hrest⟩ := injectAccept_enters hi hpool
    obtain ⟨hfrm, hnext, hpools⟩ := hadm.enterFrm (injectedFrm i pool s) i.data
    refine ⟨_, injectedFrm i pool s, rfl, ?_, ?_, rfl, rfl, rfl, ?_, ?_⟩
    · rw [hpath, enterFrm_inject, hrest]
    · unfold State.frame?; rw [hpath]; exact hfrm
    · unfold State.pd; rw [hpath]; exact hnext
    · rw [hpath, hpools]

end Sys2Proof.Machine

/-! Commits at the tailstock (R201, R203, R285, R286): what a commit that starts has done, what admission to an egress queue looks at, the
direct path, and the packet-buffer write of a frame held as shaping overflow. -/
namespace Sys2Proof.Machine

/-! ## What admission to an egress queue looks at -/

/-- A port-direction's record without its commit pointer and the mark of a commit held back, which admission does not read. -/
def PortDir.uncommitted (r : PortDir) : PortDir := { r with commitPtr := 0, heldBack := false }

theorem PortDir.uncommitted_heldBack (r : PortDir) (b : Bool) : ({ r with heldBack := b } : PortDir).uncommitted = r.uncommitted := rfl

/-- A port's link record without the count of frames sent untagged. -/
def Link.uncounted (l : Link) : Link := { l with txSecy := 0 }

/-- The two states agree on all that the admission of a frame to its egress queue reads. -/
structure SameAdmission (s t : State) : Prop where
  time : t.time = s.time
  power : t.power = s.power
  ctl : t.ctl = s.ctl
  queues : t.path.queues = s.path.queues
  pd : ∀ q, (t.pd q).uncommitted = (s.pd q).uncommitted
  link : ∀ n, (t.link n).uncounted = (s.link n).uncounted

theorem SameAdmission.trans {s t u : State} (h : SameAdmission s t) (g : SameAdmission t u) : SameAdmission s u :=
  ⟨g.time.trans h.time, g.power.trans h.power, g.ctl.trans h.ctl, g.queues.trans h.queues, fun q => (g.pd q).trans (h.pd q),
    fun n => (g.link n).trans (h.link n)⟩

theorem sameAdmission_updPd {p : PD} {f : PortDir → PortDir} (hf : ∀ r, (f r).uncommitted = r.uncommitted) (s : State) : SameAdmission s (updPd p f s) := by
  refine ⟨rfl, rfl, rfl, rfl, fun q => ?_, fun _ => rfl⟩
  rw [updPd_get]
  split
  · next hq => rw [hq, hf]
  · rfl

theorem sameAdmission_untagged (n : Nat) (s : State) : SameAdmission s (untagged n s) := by
  refine ⟨rfl, rfl, rfl, rfl, fun _ => rfl, fun m => ?_⟩
  unfold untagged
  rw [updLink_get]
  split
  · next hm => rw [hm]; rfl
  · rfl

theorem sameAdmission_countProtected (f : Frm) (s : State) : SameAdmission s (countProtected f s) :=
  ⟨rfl, rfl, rfl, rfl, fun _ => rfl, fun _ => rfl⟩

theorem sameAdmission_edgePass (k n : Nat) (s : State) : SameAdmission s (edgePass k n s) := ⟨rfl, rfl, rfl, rfl, fun _ => rfl, fun _ => rfl⟩

section
variable {s t : State} (h : SameAdmission s t)
include h

theorem SameAdmission.odNat (idx sub : Nat) : t.odNat idx sub = s.odNat idx sub := by unfold State.odNat State.od; rw [h.ctl]

theorem SameAdmission.queue (p : PD) (i : Nat) : t.queue p i = s.queue p i := by unfold State.queue; rw [h.queues]

theorem SameAdmission.ethPort (n : Nat) : ethPort t n = ethPort s n := by unfold Machine.ethPort ethShape; rw [h.odNat]

theorem SameAdmission.portGbps (n : Nat) : portGbps t n = portGbps s n := by unfold Machine.portGbps ethShape; rw [h.ethPort, h.odNat]

theorem SameAdmission.draining (n : Nat) : draining t n = draining s n := by unfold Machine.draining; rw [h.power]

theorem SameAdmission.fill (q : PD) : (t.pd q).fill = (s.pd q).fill := congrArg (·.fill) (h.pd q)
theorem SameAdmission.buffer (q : PD) : (t.pd q).buffer = (s.pd q).buffer := congrArg (·.buffer) (h.pd q)
theorem SameAdmission.lineFree (q : PD) : (t.pd q).lineFree = (s.pd q).lineFree := congrArg (·.lineFree) (h.pd q)
theorem SameAdmission.launchList (q : PD) : (t.pd q).launchList = (s.pd q).launchList := congrArg (·.launchList) (h.pd q)
theorem SameAdmission.lateList (q : PD) : (t.pd q).lateList = (s.pd q).lateList := congrArg (·.lateList) (h.pd q)
theorem SameAdmission.pausedUntil (q : PD) : (t.pd q).pausedUntil = (s.pd q).pausedUntil := congrArg (·.pausedUntil) (h.pd q)
theorem SameAdmission.pfcUntil (q : PD) : (t.pd q).pfcUntil = (s.pd q).pfcUntil := congrArg (·.pfcUntil) (h.pd q)

theorem SameAdmission.sideFault (n : Nat) (sd : Side) : sideFault t n sd = sideFault s n sd := by
  cases sd
  · exact congrArg (·.faultSys) (h.link n)
  · exact congrArg (·.faultLine) (h.link n)

theorem SameAdmission.faultTx (n : Nat) (sd : Side) : faultTx t n sd = faultTx s n sd := by
  unfold Machine.faultTx setsSent sendsLocal
  rw [h.sideFault, h.sideFault, h.odNat]

theorem SameAdmission.remoteFault (n : Nat) (sd : Side) : remoteFault t n sd = remoteFault s n sd := by
  have hstatus : (t.link n).status = (s.link n).status := congrArg (·.status) (h.link n)
  unfold Machine.remoteFault; rw [hstatus]

theorem SameAdmission.lineTime (n len : Nat) : lineTime t n len = lineTime s n len := by unfold Machine.lineTime; rw [h.portGbps]

theorem SameAdmission.boundary (p : PD) : boundary t p = boundary s p := by
  have hat : launchAt t = launchAt s := by unfold launchAt egressComp State.od; rw [h.ctl]
  unfold Machine.boundary nextLaunch preambleTime
  rw [h.launchList, h.portGbps, hat]

theorem SameAdmission.fitsLine (p : PD) (len : Nat) : fitsLine t p len = fitsLine s p len := by
  unfold Machine.fitsLine
  rw [h.boundary, h.time, h.lineFree, h.lineTime]

theorem SameAdmission.bufferRoom (p : PD) (len : Nat) : bufferRoom t p len = bufferRoom s p len := by
  have hg : groupBuffer t p = groupBuffer s p := by simp only [groupBuffer, h.buffer]
  unfold Machine.bufferRoom
  rw [hg]

theorem SameAdmission.pausedNow (p : PD) : pausedNow t p = pausedNow s p := by
  simp only [Machine.pausedNow, h.draining, h.pausedUntil, h.time]

theorem SameAdmission.pfcPaused (p : PD) (k : Nat) : pfcPaused t p k = pfcPaused s p k := by
  simp only [Machine.pfcPaused, h.draining, h.pfcUntil, h.time]

theorem SameAdmission.pdLimit (p : PD) : pdLimit t p = pdLimit s p := by unfold Machine.pdLimit; rw [h.odNat, h.portGbps]

theorem SameAdmission.queueActive (p : PD) (i : Nat) : queueActive t p i = queueActive s p i := by
  simp only [Machine.queueActive, h.queue, h.ethPort]

theorem SameAdmission.queueRefuses (x : ToQueue) : queueRefuses t x = queueRefuses s x := by
  unfold Machine.queueRefuses
  rw [h.queueActive, h.queue, h.pdLimit, h.fill]

theorem SameAdmission.directOk (x : ToQueue) : directOk t x = directOk s x := by
  simp only [Machine.directOk, h.time, h.queue, h.draining, h.bufferRoom, h.fitsLine, h.lateList, h.faultTx, h.remoteFault, h.pausedNow, h.pfcPaused]

end

/-! ## The direct path (R285, R299) -/

@[simp] theorem emit_pd (o : Output) (s : State) (q : PD) : (emit o s).pd q = s.pd q := rfl
@[simp] theorem schedCount_pd (p : PD) (i n : Nat) (s : State) (q : PD) : (schedCount p i n s).pd q = s.pd q := rfl
@[simp] theorem schedCount_frames (p : PD) (i n : Nat) (s : State) : (schedCount p i n s).path.frames = s.path.frames := rfl
@[simp] theorem updQueue_frames (p : PD) (i : Nat) (f : Queue → Queue) (s : State) : (updQueue p i f s).path.frames = s.path.frames := rfl
@[simp] theorem poolGive_frames (i n : Nat) (s : State) : (poolGive i n s).path.frames = s.path.frames := rfl
@[simp] theorem updQueue_pd (p : PD) (i : Nat) (f : Queue → Queue) (s : State) (q : PD) : (updQueue p i f s).pd q = s.pd q := rfl
@[simp] theorem poolGive_pd (i n : Nat) (s : State) (q : PD) : (poolGive i n s).pd q = s.pd q := rfl
@[simp] theorem retFree_pd (id : Nat) (s : State) (q : PD) : (retFree id s).pd q = s.pd q := by unfold State.pd; rw [retFree_pds]

/-- A pause frame goes out on the system side: the port's S2L record and the retained frames stay. -/
theorem sendPause_keeps (n : Fin 32) (d : Octets) (s : State) :
    (sendPause n d s).pd ⟨n, .s2l⟩ = s.pd ⟨n, .s2l⟩ ∧ (sendPause n d s).path.frames = s.path.frames := by
  unfold sendPause
  dsimp only
  split
  · exact ⟨by simp [reline, lineUp], rfl⟩
  · exact ⟨by simp, rfl⟩

/-- A port-direction's record without its pause state toward the system. -/
def PortDir.unpaused (r : PortDir) : PortDir := { r with xoff := false, xoffPfc := 0, refreshAt := none }

/-- The second state has the first one's retained frames and, pause state aside, its record of port-direction `p`. -/
structure SameButPause (p : PD) (s t : State) : Prop where
  pd : (t.pd p).unpaused = (s.pd p).unpaused
  frames : t.path.frames = s.path.frames

theorem sameButPause_updPd {p : PD} {f : PortDir → PortDir} (s : State) (hf : ∀ r, (f r).unpaused = r.unpaused) : SameButPause p s (updPd p f s) :=
  ⟨by rw [updPd_get, if_pos rfl, hf], rfl⟩

theorem sameButPause_sendPause {n : Fin 32} {d : Octets} {s t : State} (h : SameButPause ⟨n, .s2l⟩ s t) : SameButPause ⟨n, .s2l⟩ s (sendPause n d t) := by
  obtain ⟨hpd, hfrm⟩ := sendPause_keeps n d t
  exact ⟨by rw [hpd, h.pd], hfrm.trans h.frames⟩

theorem xoffCheck_sameButPause (n : Fin 32) (s : State) : SameButPause ⟨n, .s2l⟩ s (xoffCheck n s) := by
  unfold xoffCheck
  dsimp only
  split
  · split
    · exact sameButPause_sendPause (sameButPause_updPd s (by intro r; rfl))
    · split
      · exact sameButPause_sendPause (sameButPause_updPd s (by intro r; rfl))
      · exact ⟨rfl, rfl⟩
  · split
    · exact ⟨rfl, rfl⟩
    · exact sameButPause_sendPause (sameButPause_updPd s (by intro r; rfl))
  · split
    · exact sameButPause_updPd s (by intro r; rfl)
    · exact ⟨rfl, rfl⟩

theorem fillCheck_sameButPause {p : PD} (hd : p.dir = .s2l) (s : State) : SameButPause p s (fillCheck p s) := by
  obtain ⟨n, d⟩ := p
  subst hd
  exact xoffCheck_sameButPause n s

/-- A change of an S2L port-direction's fill, with the pause state that follows from it, leaves the rest of its record. -/
theorem addFill_sameButPause {p : PD} (hd : p.dir = .s2l) (n : Nat) (s : State) :
    SameButPause p (updPd p (fun r => { r with fill := r.fill + n }) s) (addFill p n s) := fillCheck_sameButPause hd _

theorem addFill_buffer {p : PD} (hd : p.dir = .s2l) (n : Nat) (s : State) : ((addFill p n s).pd p).buffer = (s.pd p).buffer := by
  have h := congrArg PortDir.buffer (addFill_sameButPause hd n s).pd
  rwa [updPd_get, if_pos rfl] at h

theorem addFill_commitPtr {p : PD} (hd : p.dir = .s2l) (n : Nat) (s : State) : ((addFill p n s).pd p).commitPtr = (s.pd p).commitPtr := by
  have h := congrArg PortDir.commitPtr (addFill_sameButPause hd n s).pd
  rwa [updPd_get, if_pos rfl] at h

theorem addFill_frames {p : PD} (hd : p.dir = .s2l) (n : Nat) (s : State) : (addFill p n s).path.frames = s.path.frames :=
  (addFill_sameButPause hd n s).frames

/-- The frame joins the tail of the egress buffer, the instants of those that wait aside. -/
theorem startFrame_buffer {e : Egr} {p : PD} (he : e.pd = p) (s : State) :
    ((startFrame e s).pd p).buffer.map Egr.unlined = (s.pd p).buffer.map Egr.unlined ++ [e.unlined] := by
  subst he
  unfold startFrame lineUp
  rw [updPd_get, if_pos rfl]
  simp only [List.map_append, lineOne_unlined, List.map_nil, List.nil_append, List.map_cons]
  rw [← List.append_assoc, ← List.map_append]
  unfold startedOf waitingOf
  rw [List.takeWhile_append_dropWhile]

theorem startFrame_commitPtr (e : Egr) (s : State) (q : PD) : ((startFrame e s).pd q).commitPtr = (s.pd q).commitPtr := by
  unfold startFrame lineUp
  rw [updPd_get]
  split
  · next h => rw [h]
  · rfl

@[simp] theorem startFrame_frames (e : Egr) (s : State) : (startFrame e s).path.frames = s.path.frames := rfl

section
variable {x : ToQueue} (hd : x.pd.dir = .s2l) (s : State)
include hd

/-- By the direct path an S2L frame goes to the tail of its port-direction's egress buffer (R285). -/
theorem enterDirect_buffer : ((enterDirect x s).pd x.pd).buffer.map Egr.unlined =
    (s.pd x.pd).buffer.map Egr.unlined ++ [({ x.egr with pool := 0, occ := 0 } : Egr).unlined] := by
  unfold enterDirect
  dsimp only
  rw [addFill_buffer hd, schedCount_pd, startFrame_buffer (p := x.pd), poolGive_pd, updQueue_pd, retFree_pd]
  rfl

theorem enterDirect_commitPtr : ((enterDirect x s).pd x.pd).commitPtr = (s.pd x.pd).commitPtr := by
  unfold enterDirect
  dsimp only
  rw [addFill_commitPtr hd, schedCount_pd, startFrame_commitPtr, poolGive_pd, updQueue_pd, retFree_pd]

theorem enterDirect_frames : (enterDirect x s).path.frames = s.path.frames := by
  unfold enterDirect
  dsimp only
  rw [addFill_frames hd, schedCount_frames, startFrame_frames, poolGive_frames, updQueue_frames, retFree_frames]

end

/-! ## One commit (R201) -/

/-- A commit that starts has advanced the commit pointer, with no commit of the quadrant held back. -/
def commitStart (p : PD) (s : State) : State := updPd p (fun r => { r with commitPtr := r.commitPtr + 1 }) (commitsResume p s)

/-- Commits that go on clear the marks of those held back. -/
theorem commitsResume_eq (p : PD) (s : State) :
    ∃ w, commitsResume p s = { s with path := { s.path with pds := w } } ∧
      ∀ q, (commitsResume p s).pd q = { s.pd q with heldBack := ((commitsResume p s).pd q).heldBack } := by
  unfold commitsResume
  generalize quadrantPds p = l
  induction l generalizing s with
  | nil => exact ⟨_, rfl, fun _ => rfl⟩
  | cons q l ih =>
    rw [List.foldl_cons]
    split
    · obtain ⟨w, hw, hpd⟩ := ih (updPd q (fun r => { r with heldBack := false }) s)
      refine ⟨w, hw, fun j => ?_⟩
      rw [hpd j, updPd_get]
      split
      · next h => subst h; rfl
      · rfl
    · exact ih s

theorem commitStart_sameAdmission (p : PD) (s : State) : SameAdmission s (commitStart p s) := by
  obtain ⟨w, hw, hpd⟩ := commitsResume_eq p s
  have hres : SameAdmission s (commitsResume p s) :=
    ⟨by rw [hw], by rw [hw], by rw [hw], by rw [hw], fun q => by rw [hpd q, PortDir.uncommitted_heldBack], fun n => by unfold State.link; rw [hw]⟩
  exact hres.trans (sameAdmission_updPd (by intro r; rfl) _)

theorem commitStart_commitPtr (p : PD) (s : State) : ((commitStart p s).pd p).commitPtr = (s.pd p).commitPtr + 1 := by
  obtain ⟨w, -, hpd⟩ := commitsResume_eq p s
  unfold commitStart
  rw [updPd_get, if_pos rfl, hpd p]

theorem commitStart_frames (p : PD) (s : State) : (commitStart p s).path.frames = s.path.frames := by
  obtain ⟨w, hw, -⟩ := commitsResume_eq p s
  unfold commitStart
  rw [hw]
  rfl

theorem commitStart_pools (p : PD) (s : State) : (commitStart p s).path.pools = s.path.pools := by
  obtain ⟨w, hw, -⟩ := commitsResume_eq p s
  unfold commitStart
  rw [hw]
  rfl

theorem commitStart_cls (p : PD) (s : State) : (commitStart p s).cls = s.cls := by
  obtain ⟨w, hw, -⟩ := commitsResume_eq p s
  unfold commitStart
  rw [hw]
  rfl

theorem commitHead_commitsResume (p : PD) (s : State) : commitHead (commitsResume p s) p = commitHead s p := by
  obtain ⟨w, hw, hpd⟩ := commitsResume_eq p s
  unfold commitHead
  rw [hpd p, hw]
  rfl

/-- The frame at the commit pointer is one of its port-direction's (R24, R201). -/
theorem pd_of_commitHead {s : State} {p : PD} {id : Nat} {f : Frm} (h : commitHead s p = some (id, f)) : f.pd = p := by
  unfold commitHead at h
  split at h
  · next j g hg =>
    have hp := List.find?_some hg
    simp only [Bool.and_eq_true, beq_iff_eq] at hp
    split at h
    · simp only [Option.some.injEq, Prod.mk.injEq] at h
      rw [← h.2]
      exact hp.1.1
    · simp at h
  · simp at h

/-- A frame that leaves retention leaves no entry where there was none. -/
theorem commitHead_none_of_drop {s u : State} {p : PD} {id : Nat} (hn : frameAt s p ((s.pd p).commitPtr + 1) = none)
    (hf : u.path.frames = s.path.frames.drop id) (hp : (u.pd p).commitPtr = (s.pd p).commitPtr + 1) : commitHead u p = none := by
  have hnone : frameAt u p ((s.pd p).commitPtr + 1) = none := by
    unfold frameAt findFrm at hn ⊢
    rw [List.find?_eq_none] at hn ⊢
    intro q hq
    rw [hf] at hq
    exact hn q (Tab.mem_drop hq)
  unfold commitHead
  rw [hp, hnone]

/-- Where the commit pointer's entry is ready and no entry follows it, COMMIT_ENTRY commits that entry alone. -/
theorem exec_commitEntry_one {s u : State} {p : PD} {id : Nat} {f g : Frm} (hh : commitHead s p = some (id, g)) (hid : s.path.frames.find id = some f)
    (hn : frameAt s p ((s.pd p).commitPtr + 1) = none) (hheld : commitsHeld s p = false) (hsched : schedRestarting s p = false)
    (hc : commitFrame id g (commitStart p s) = some u) (hf : u.path.frames = s.path.frames.drop id)
    (hp : (u.pd p).commitPtr = (s.pd p).commitPtr + 1) : exec (.commitEntry p) s = .next u := by
  have hlen : ∃ n, s.path.frames.length = n + 1 := by
    cases hfr : s.path.frames with
    | nil => rw [hfr] at hid; simp [Tab.find] at hid
    | cons q l => exact ⟨l.length, rfl⟩
  obtain ⟨n, hn1⟩ := hlen
  have hlast : commitRun p n u = u := by
    cases n with
    | zero => rfl
    | succ n => unfold commitRun; rw [commitHead_none_of_drop hn hf hp]
  show Host.Outcome.next (commitEntry p s) = _
  unfold commitEntry
  rw [hheld, hsched, hn1, commitRun, commitHead_commitsResume, hh]
  simp only [Bool.and_false, Bool.or_self, Bool.false_eq_true, if_false]
  rw [show updPd p (fun r => { r with commitPtr := r.commitPtr + 1 }) (commitsResume p s) = commitStart p s from rfl, hc]
  exact congrArg _ hlast

/-! ## What the committed frame leaves (R27, R196, R203) -/

@[simp] theorem moveFrm_pd (id : Nat) (s : State) (q : PD) : (moveFrm id s).pd q = s.pd q := rfl
@[simp] theorem moveFrm_frames (id : Nat) (s : State) : (moveFrm id s).path.frames = s.path.frames.drop id := rfl
@[simp] theorem poolGive_get (i n : Nat) (s : State) : (poolGive i n s).path.pools.get i 0 = s.path.pools.get i 0 - n :=
  Tab.get_upd_same i 0 (· - n) s.path.pools

@[simp] theorem untagged_pd (n : Nat) (s : State) (q : PD) : (untagged n s).pd q = s.pd q := rfl
@[simp] theorem untagged_frames (n : Nat) (s : State) : (untagged n s).path.frames = s.path.frames := rfl
@[simp] theorem countProtected_pd (f : Frm) (s : State) (q : PD) : (countProtected f s).pd q = s.pd q := rfl
@[simp] theorem countProtected_frames (f : Frm) (s : State) : (countProtected f s).path.frames = s.path.frames := rfl

/-- A retained frame forgotten returns its space to its pool and leaves the rest but the banks (R203 step 5). -/
theorem dropFrm_of_find {id : Nat} {f : Frm} {s : State} (h : s.path.frames.find id = some f) :
    (dropFrm id s).path.frames = s.path.frames.drop id ∧ (dropFrm id s).path.pools.get f.pool 0 = s.path.pools.get f.pool 0 - f.occ ∧
      (∀ q, (dropFrm id s).pd q = s.pd q) ∧ (dropFrm id s).cls = s.cls := by
  unfold dropFrm
  rw [h]
  refine ⟨?_, ?_, fun q => ?_, ?_⟩
  · rw [retFree_frames]; rfl
  · rw [retFree_pools]; exact poolGive_get _ _ _
  · rw [retFree_pd]; rfl
  · rw [retFree_cls]; rfl

/-- A void entry of a classification cause counts on that cause's drop counter of the port-direction, not on the path (R27, R82). -/
theorem countDrop_of_column {c : Cause} {i : Nat} (h : c.column = some i) (p : PD) (s : State) :
    (countDrop p c s).path = s.path ∧ (countDrop p c s).cls.drops.get (10 * p.key + i) 0 = s.cls.drops.get (10 * p.key + i) 0 + 1 := by
  unfold countDrop
  rw [h]
  exact ⟨rfl, Tab.get_bump_same _ _ _⟩

/-- The slot reference that a commit gives back is not of the path (R196). -/
theorem commitFrame_path {id : Nat} {f : Frm} {s u : State} (h : commitWork id f s = some u) :
    ∃ t, commitFrame id f s = some t ∧ t.path = u.path := by
  unfold commitFrame
  rw [h, Option.map_some]
  refine ⟨_, rfl, ?_⟩
  split
  · rfl
  · exact slotUnref_keep State.path (fun _ _ => rfl) _ u

/-- A frame that its queue does not refuse, that is not timed and that may take the direct path takes it. -/
theorem toEgress_direct {id : Nat} {x : ToQueue} {s : State} (hq : queueRefuses s x = none) (ht : x.timed = false) (hd : directOk s x = true) :
    toEgress id x s = some (enterDirect x (moveFrm id (edgePass (edgeOut x.pd) x.data.length s))) := by
  have hd' : directOk (edgePass (edgeOut x.pd) x.data.length s) x = true := ((sameAdmission_edgePass _ _ s).directOk x).trans hd
  have hfault : faultTx (edgePass (edgeOut x.pd) x.data.length s) x.pd.port (outSide x.pd) = false := by
    have h := hd'
    unfold directOk at h
    simp only [Bool.and_eq_true, Bool.not_eq_true'] at h
    obtain ⟨⟨⟨⟨-, hf⟩, -⟩, -⟩, -⟩ := h
    exact hf
  unfold toEgress
  simp only [hq, ht, hfault, hd', Bool.false_eq_true, if_false, if_true]

/-- An S2L bypass frame asks for its egress queue with its octets as they are, and counts as sent untagged. -/
theorem commitWork_bypass {f : Frm} (hv : f.verdict = .bypass) (hdir : f.pd.dir = .s2l) (ht : f.timed = false) (id : Nat) (s : State) :
    commitWork id f s = toEgress id (f.toQueue id f.data) (untagged f.pd.port s) := by
  unfold commitWork timedOwn
  simp only [hv, hdir, ht, Bool.false_eq_true, if_false]

/-- An S2L protect frame asks for its egress queue with its SecTAG and ICV, and is counted (R98, R122). -/
theorem commitWork_protect {f : Frm} (hv : f.verdict = .protect) (hodu : f.odu = none) (hdir : f.pd.dir = .s2l) (id : Nat) (s : State) :
    commitWork id f s = toEgress id (f.toQueue id (protectedFrame f)) (countProtected f s) := by
  unfold commitWork
  simp only [hv, hodu, hdir]

/-- An S2L entry whose work comes to an egress request that may take the direct path is committed to the tail of the egress buffer. -/
theorem exec_commitEntry_direct {s v : State} {p : PD} {id : Nat} {f g : Frm} {x : ToQueue} (hh : commitHead s p = some (id, g))
    (hid : s.path.frames.find id = some f) (hn : frameAt s p ((s.pd p).commitPtr + 1) = none) (hheld : commitsHeld s p = false)
    (hsched : schedRestarting s p = false) (hw : commitWork id g (commitStart p s) = toEgress id x v) (hv : SameAdmission s v)
    (hvp : (v.pd p).commitPtr = (s.pd p).commitPtr + 1) (hvf : v.path.frames = s.path.frames) (hxp : x.pd = p) (hdir : p.dir = .s2l)
    (ht : x.timed = false) (hq : queueRefuses s x = none) (hd : directOk s x = true) :
    ∃ t, exec (.commitEntry p) s = .next t ∧ (t.pd p).commitPtr = (s.pd p).commitPtr + 1 ∧ t.path.frames = s.path.frames.drop id ∧
      (t.pd p).buffer.map Egr.unlined = (s.pd p).buffer.map Egr.unlined ++ [({ x.egr with pool := 0, occ := 0 } : Egr).unlined] := by
  subst hxp
  rw [toEgress_direct ((hv.queueRefuses x).trans hq) ht ((hv.directOk x).trans hd)] at hw
  obtain ⟨t, hc, hpath⟩ := commitFrame_path hw
  have hpd : ∀ q, t.pd q = (enterDirect x (moveFrm id (edgePass (edgeOut x.pd) x.data.length v))).pd q := fun q => by
    unfold State.pd; rw [hpath]
  have hptr : (t.pd x.pd).commitPtr = (s.pd x.pd).commitPtr + 1 := by
    rw [hpd, enterDirect_commitPtr hdir, moveFrm_pd]
    exact hvp
  have hfrm : t.path.frames = s.path.frames.drop id := by
    rw [hpath, enterDirect_frames hdir, moveFrm_frames, edgePass_frames, hvf]
  refine ⟨t, exec_commitEntry_one hh hid hn hheld hsched hc hfrm hptr, hptr, hfrm, ?_⟩
  rw [hpd, enterDirect_buffer hdir, moveFrm_pd, ← hv.buffer]
  rfl

/-! ## The packet-buffer write of shaping overflow (R286) -/

/-- The lines of a frame pass the FIFOs toward the stacks, and no more of the path changes. -/
theorem foldl_edgePass_path (l : List Nat) (s : State) :
    ∃ w, (l.foldl (fun s a => edgePass (edgeStack a) 64 s) s).path = { s.path with edges := w } := by
  induction l generalizing s with
  | nil => exact ⟨_, rfl⟩
  | cons a l ih => exact ih _

/-- Reading a frame that waits at egress changes the edge FIFOs alone of the path. -/
theorem egrRead_path (e : Egr) (s : State) : ∃ w, (egrRead e s).2.path = { s.path with edges := w } := by
  unfold egrRead
  split
  · exact ⟨_, rfl⟩
  · split
    · exact ⟨_, rfl⟩
    · dsimp only
      rw [pbRead_keep State.path (fun _ _ _ _ _ _ => rfl)]
      exact foldl_edgePass_path e.place s

/-- A frame written to the packet buffer is spilled, with its length; of the path its queue's open block and the edge
FIFOs change. -/
theorem egrSpill_path {e e' : Egr} {s t : State} (h : egrSpill e s = some (e', t)) :
    e'.overflow = false ∧ e'.data.length = e.data.length ∧
      ∃ w o, t.path = { s.path with edges := w, queues := s.path.queues.upd (queueKey e.pd e.queue) {} (fun x => { x with open_ := o }) } := by
  unfold egrSpill at h
  split at h
  · simp at h
  · next l o u hw =>
    have hu : u.path = s.path := pbWrite_keep State.path (fun _ _ _ _ _ _ => rfl) _ _ _ _ _ _ hw
    obtain ⟨w, hedges⟩ := foldl_edgePass_path l u
    simp only [Option.some.injEq, Prod.mk.injEq] at h
    obtain ⟨rfl, rfl⟩ := h
    refine ⟨rfl, by simp [zeros], w, o, ?_⟩
    unfold updQueue
    rw [hedges, hu]

theorem queue_updQueue (p : PD) (i : Nat) (f : Queue → Queue) (s : State) : (updQueue p i f s).queue p i = f (s.queue p i) := Tab.get_upd_same _ _ _ _

/-- A frame held on die gives its space back to its pool, and of the path the banks change besides. -/
theorem egrFree_on_die {e : Egr} (h : e.place = []) (s : State) :
    (egrFree e s).path.pools.get e.pool 0 = s.path.pools.get e.pool 0 - e.occ ∧ (egrFree e s).path.queues = s.path.queues ∧
      (egrFree e s).path.frames = s.path.frames ∧ (egrFree e s).path.pds = s.path.pds ∧ (egrFree e s).path.links = s.path.links := by
  have hgive : ∀ u, u = (if e.occ = 0 then s else poolGive e.pool e.occ s) → u.path.pools.get e.pool 0 = s.path.pools.get e.pool 0 - e.occ ∧
      u.path.queues = s.path.queues ∧ u.path.frames = s.path.frames ∧ u.path.pds = s.path.pds ∧ u.path.links = s.path.links := by
    rintro u rfl
    split
    · next h0 => rw [h0]; exact ⟨rfl, rfl, rfl, rfl, rfl⟩
    · exact ⟨poolGive_get _ _ _, rfl, rfl, rfl, rfl⟩
  unfold egrFree
  rw [h]
  cases e.rid with
  | none => exact hgive _ rfl
  | some j =>
    simp only [List.isEmpty_nil, if_true, retFree_pools, retFree_queues, retFree_frames, retFree_pds, retFree_links]
    exact hgive _ rfl

/-- The oldest frame held as shaping overflow, once its write starts, is a frame of the packet buffer and has given its space back. -/
theorem spillStart_spec {p : PD} {i : Nat} {e : Egr} {s : State} (hf : (s.queue p i).items.find? (fun e => e.overflow) = some e)
    (hm : mpuReady s = true) (hp : e.pd = p) (hi : e.queue = i)
    (hs : (egrSpill { e with data := (egrRead e s).1.getD e.data } (egrRead e s).2).isSome = true) :
    ∃ e' : Egr, e'.overflow = false ∧ e'.data.length = ((egrRead e s).1.getD e.data).length ∧
      ((spillStart p i s).queue p i).items = (s.queue p i).items.map (fun x => if x.seq = e.seq ∧ x.overflow = true then e' else x) ∧
      (spillStart p i s).path.pools.get e.pool 0 = s.path.pools.get e.pool 0 - e.occ ∧ (spillStart p i s).path.frames = s.path.frames ∧
      (spillStart p i s).path.pds = s.path.pds ∧ (spillStart p i s).path.links = s.path.links := by
  subst hp hi
  obtain ⟨⟨e', u⟩, hspill⟩ := Option.isSome_iff_exists.mp hs
  obtain ⟨hover, hlen, w, o, hu⟩ := egrSpill_path hspill
  obtain ⟨v, hread⟩ := egrRead_path e s
  rw [hread] at hu
  have hqueue : u.queue e.pd e.queue = { s.queue e.pd e.queue with open_ := o } := by
    unfold State.queue; rw [hu]; exact Tab.get_upd_same (queueKey e.pd e.queue) {} (fun x => { x with open_ := o }) s.path.queues
  obtain ⟨hpools, hqueues, hfrm, hpds, hlinks⟩ := egrFree_on_die (e := { e with place := [] }) rfl
    (updQueue e.pd e.queue (fun x => { x with items := x.items.map (fun x => if x.seq = e.seq ∧ x.overflow = true then e' else x) }) u)
  have hstart : spillStart e.pd e.queue s = schedCount e.pd 1 1 (egrFree { e with place := [] } (updQueue e.pd e.queue
      (fun x => { x with items := x.items.map (fun x => if x.seq = e.seq ∧ x.overflow = true then e' else x) }) u)) := by
    unfold spillStart
    simp only [hf, hm, hspill, Bool.not_true, Bool.false_eq_true, if_false]
  rw [hstart]
  refine ⟨e', hover, hlen, ?_, hpools.trans (by unfold updQueue; rw [hu]), hfrm.trans (by unfold updQueue; rw [hu]),
    hpds.trans (by unfold updQueue; rw [hu]), hlinks.trans (by unfold updQueue; rw [hu])⟩
  show (Tab.get (egrFree _ _).path.queues _ _).items = _
  rw [hqueues]
  exact congrArg Queue.items ((queue_updQueue e.pd e.queue _ u).trans (by rw [hqueue]))

/-- Where no commit of the quadrant is held back, SPILL_WRITE_START starts the write and commits nothing. -/
theorem exec_spillWriteStart_of_none_held {p : PD} {i : Fin 1024} {s : State} (h : ∀ q ∈ quadrantPds p, (s.pd q).heldBack = false) :
    exec (.spillWriteStart p i) s = .next (spillStart p i s) := by
  have hnil : (quadrantPds p).filter (fun q => (s.pd q).heldBack) = [] := List.filter_eq_nil_iff.mpr (fun q hq => by rw [h q hq]; decide)
  show execSpillWriteStart p i s = _
  unfold execSpillWriteStart
  rw [hnil]
  rfl

/-! ## The statement -/

/-- Settles O10: a void entry by the drop of its frame, bypass and protect entries by the direct path, and the spill write by what its start
leaves. -/
theorem tailstockCommitsInOrder : Obligations.TailstockCommitsInOrder := by
  unfold Obligations.TailstockCommitsInOrder
  refine ⟨?void, ?bypass, ?protect, ?spill⟩
  case void =>
    intro p id i c f d s hh hid hn hheld hsched hv hcol h0
    have hp : f.pd = p := pd_of_commitHead (f := { f with data := d }) hh
    have hid' : (commitStart p s).path.frames.find id = some f := by rw [commitStart_frames]; exact hid
    obtain ⟨hfrm, hpool, hpd, hcls⟩ := dropFrm_of_find hid'
    have hc : commitFrame id { f with data := d } (commitStart p s) = some (countDrop p c (dropFrm id (commitStart p s))) := by
      unfold commitFrame commitWork
      simp only [hv, h0, hp, Option.map_some, if_true]
    obtain ⟨hpath, hcount⟩ := countDrop_of_column hcol p (dropFrm id (commitStart p s))
    have hptr : ((countDrop p c (dropFrm id (commitStart p s))).pd p).commitPtr = (s.pd p).commitPtr + 1 := by
      rw [← commitStart_commitPtr, ← hpd]; unfold State.pd; rw [hpath]
    rw [← hpath, commitStart_frames] at hfrm
    rw [← hpath, commitStart_pools] at hpool
    rw [hcls, commitStart_cls] at hcount
    exact ⟨_, exec_commitEntry_one hh hid hn hheld hsched hc hfrm hptr, hptr, hfrm, hpool, hcount⟩
  case bypass =>
    intro p id f d s hh hid hn hheld hsched hv hdir ht h0 hq hd
    have hp : f.pd = p := pd_of_commitHead (f := { f with data := d }) hh
    subst hp
    obtain ⟨t, ht1, hptr, hfrm, hbuf⟩ := exec_commitEntry_direct hh hid hn hheld hsched (commitWork_bypass (f := { f with data := d }) hv hdir ht id _)
      ((commitStart_sameAdmission _ s).trans (sameAdmission_untagged _ _)) (by rw [untagged_pd, commitStart_commitPtr])
      (by rw [untagged_frames, commitStart_frames]) rfl hdir ht hq hd
    exact ⟨t, _, ht1, hptr, hfrm, hbuf, rfl, rfl, rfl⟩
  case protect =>
    intro p id f g d s hg hh hid hn hheld hsched hv hodu hdir ht hq hd
    have hp : g.pd = p := pd_of_commitHead hh
    subst hp hg
    obtain ⟨t, ht1, hptr, hfrm, hbuf⟩ := exec_commitEntry_direct hh hid hn hheld hsched (commitWork_protect (f := { f with data := d }) hv hodu hdir id _)
      ((commitStart_sameAdmission _ s).trans (sameAdmission_countProtected _ _)) (by rw [countProtected_pd, commitStart_commitPtr])
      (by rw [countProtected_frames, commitStart_frames]) rfl hdir ht hq hd
    exact ⟨t, _, ht1, hptr, hfrm, hbuf, rfl⟩
  case spill =>
    intro p i e s hf hm hp hi hheld hs
    obtain ⟨e', hover, hlen, hitems, hpool, hfrm, hpds, hlinks⟩ := spillStart_spec hf hm hp hi hs
    refine ⟨_, exec_spillWriteStart_of_none_held hheld, hpool, ?_, ?_, hfrm, hpds, hlinks⟩
    · intro x hx hseq
      rw [hitems] at hx
      obtain ⟨y, -, rfl⟩ := List.mem_map.mp hx
      split
      · exact hover
      · next hne => rw [if_neg hne] at hseq; simpa [hseq] using hne
    · rw [hitems, List.map_map]
      refine List.map_congr_left (fun x _ => ?_)
      simp only [Function.comp_apply]
      split
      · exact hlen
      · rfl

end Sys2Proof.Machine

/-! Parsing on the gouges (R45, R79): what changing a retained frame leaves, the frame that a free gouge starts on, and the parse again after a
timeout. -/
namespace Sys2Proof.Machine

/-! ## Retained frames -/

/-- Changing a retained frame that exists writes its record and nothing else. -/
theorem updFrm_of_find {id : Nat} {x : Frm} {s : State} (h : s.path.frames.find id = some x) (f : Frm → Frm) :
    updFrm id f s = { s with path := { s.path with frames := s.path.frames.put id (f x) } } := by
  unfold updFrm; rw [h]

theorem updFrm_frame?_same {id : Nat} {x : Frm} {s : State} (h : s.frame? id = some x) (f : Frm → Frm) : (updFrm id f s).frame? id = some (f x) := by
  rw [updFrm_of_find h]; exact Tab.find_put_same _ _ _

/-! ## Gouges -/

/-- A gouge that parses nothing has no parse to end. -/
theorem gougeEnded_of_free {c g : Nat} {s : State} (h : findFrm s (fun f => f.gouge == some (c, g) && !f.parsed) = none) : gougeEnded c g s = s := by
  unfold gougeEnded; rw [h]

/-- Without an FCS error the key vector of a frame parsed now is that of the parse (R51). -/
theorem parse_of_fcs_good {f : Frm} (h : f.fcsBad = false) (s : State) :
    f.parse s = { f with kv := parseFrame s f.pd s.currentCut f.data f.len, cut := s.currentCut } := by
  unfold Frm.parse; rw [h]; rfl

/-- A free gouge takes a frame that waits for its parse. -/
theorem gougeTake_waiting {p : PD} {id : Nat} {f : Frm} {s : State} (h : frmToParse s p = some (id, f)) (c g : Nat) (header : Octets) (len : Nat) :
    gougeTake p c g header len s = some (id, f.reparsed, updFrm id (fun f => { (f.parse s) with gouge := some (c, g) }) s) := by
  unfold gougeTake; rw [h]

/-- Where no frame waits, a free gouge takes the frame that arrives at an open port. -/
theorem gougeTake_arriving {p : PD} {s : State} (h : frmToParse s p = none) (hopen : (s.pd p).closed = false) (c g : Nat) (header : Octets) (len : Nat) :
    gougeTake p c g header len s = some (s.path.nextId, false,
      (newFrm { pd := p, data := header, len := len, gouge := some (c, g), cut := s.currentCut, kv := parseFrame s p s.currentCut header len } s).2) := by
  unfold gougeTake
  rw [h]
  simp only [hopen, Bool.false_eq_true, if_false]
  rw [parse_of_fcs_good (f := { pd := p, data := header, len := len }) rfl]
  rfl

/-- A gouge in service that parses nothing, of the cluster that serves the port's next frame, starts on what it takes; a parse without a
parity failure leaves the state of the taking (R45). -/
theorem gougeStart_of_free {p : PD} {c g : Nat} {header : Octets} {len id : Nat} {again : Bool} {s t : State} (he : ethPort s p.port = true)
    (hc : clusterOf s p.port (gougeSeq p s) = c) (hup : clusterUp s c = true) (hin : s.cls.outOfService.contains (16 * c + g) = false)
    (hfree : findFrm s (fun f => f.gouge == some (c, g) && !f.parsed) = none) (ht : gougeTake p c g header len s = some (id, again, t)) :
    gougeStart p c g header len 0 s = t := by
  unfold gougeStart
  simp only [he, hc, hup, hin, bne_self_eq_false, Bool.not_true, Bool.or_self, Bool.false_eq_true, if_false, gougeEnded_of_free hfree, ht, if_true]

theorem gougeSeq_waiting {p : PD} {id : Nat} {f : Frm} {s : State} (h : frmToParse s p = some (id, f)) : gougeSeq p s = f.seq := by
  unfold gougeSeq; rw [h]

theorem gougeSeq_arriving {p : PD} {s : State} (h : frmToParse s p = none) : gougeSeq p s = (s.pd p).nextSeq := by
  unfold gougeSeq; rw [h]

/-- Taking a gouge out of service is noted and logged, which is not of the path. -/
theorem gougeOut_path (c g : Nat) (s : State) : (gougeOut c g s).path = s.path := gougeOut_keep State.path (fun _ _ _ _ _ => rfl) c g s

theorem gougeOut_contains (c g : Nat) (s : State) : (gougeOut c g s).cls.outOfService.contains (16 * c + g) = true := by
  unfold gougeOut
  rw [logEntry_keep State.cls (fun _ _ _ _ => rfl)]
  dsimp only
  split
  · assumption
  · exact List.contains_iff_mem.mpr List.mem_cons_self

/-- A failed parse takes its gouge out of service, and the frame is parsed again, on a free gouge of the cluster if it has one (R79). -/
theorem parityFailed_spec {id : Nat} {f : Frm} {s : State} (h : s.path.frames.find id = some f) (c g : Nat) :
    (parityFailed id c g s).cls.outOfService.contains (16 * c + g) = true ∧
      (parityFailed id c g s).path = { s.path with
        frames := s.path.frames.put id { (f.parse (gougeOut c g s)) with gouge := (freeGouge (gougeOut c g s) c).map (fun h => (c, h)), reparsed := true } } := by
  have h' : (gougeOut c g s).path.frames.find id = some f := by rw [gougeOut_path]; exact h
  unfold parityFailed
  rw [updFrm_of_find h']
  exact ⟨gougeOut_contains c g s, by rw [gougeOut_path]⟩

/-! ## The statement -/

/-- Settles O1: the start by what the gouge takes, and the timeout by what a failed parse leaves. -/
theorem gougeParsesFrame : Obligations.GougeParsesFrame := by
  unfold Obligations.GougeParsesFrame
  refine ⟨?arriving, ?waiting, ?timeout⟩
  case arriving =>
    intro pd c g header len s he hc hup hin hopen hfree hnone
    exact congrArg Host.Outcome.next
      (gougeStart_of_free he ((congrArg _ (gougeSeq_arriving hnone)).trans hc) hup hin hfree (gougeTake_arriving hnone hopen c g header len))
  case waiting =>
    intro pd c g header len id f s he hp hid hc hup hin hfree
    have hstart := gougeStart_of_free he ((congrArg _ (gougeSeq_waiting hp)).trans hc) hup hin hfree (gougeTake_waiting hp c g header len)
    rw [updFrm_of_find hid] at hstart
    exact congrArg Host.Outcome.next hstart
  case timeout =>
    intro c g id f f' s hp hid
    have ht : exec (.gougeParseTimeout c g) s = .next (parityFailed id c g s) := by
      show execGougeParseTimeout c g s = _
      unfold execGougeParseTimeout
      rw [hp]
    exact ⟨_, ht, parityFailed_spec hid c g⟩

end Sys2Proof.Machine

/-! Classification (R52, R59, R62 to R66, R75): what a walk reads, what an action record leaves, the rule-block fill, and the frames that are
policed in their turn. -/
namespace Sys2Proof

/-- Writing a record again replaces it. -/
theorem Tab.put_put {α : Type} (k : Nat) (x y : α) (t : Tab α) : (t.put k x).put k y = t.put k y := by
  induction t with
  | nil => simp [Tab.put]
  | cons p t ih =>
    obtain ⟨i, z⟩ := p
    rcases lt_trichotomy k i with h | h | h
    · simp [Tab.put, h]
    · simp [Tab.put, h]
    · simp [Tab.put, h.not_gt, h.ne', ih]

namespace Machine

/-- Two changes of a retained frame are one. -/
theorem updFrm_updFrm (id : Nat) (f g : Frm → Frm) (s : State) : updFrm id f (updFrm id g s) = updFrm id (fun x => f (g x)) s := by
  cases h : s.path.frames.find id with
  | none => simp [updFrm, h]
  | some x =>
    have hg : (updFrm id g s).path.frames.find id = some (g x) := updFrm_frame?_same h g
    rw [updFrm_of_find hg, updFrm_of_find h, updFrm_of_find h]
    simp only [Tab.put_put]

/-! ## What a walk reads (R59) -/

theorem matchBlock_congr {s t : State} (h : ∀ l, treeLine t l = treeLine s l) (word : Nat) (block : List Nat) :
    matchBlock t word block = matchBlock s word block := by
  induction block with
  | nil => rfl
  | cons l block ih => simp only [matchBlock, h, ih]

/-- A walk reads the cuts, the tree lines and which of these are lost. -/
theorem walkFrom_congr {s t : State} (hc : t.cls = s.cls) (hl : ∀ l, treeLineLost t l = treeLineLost s l) (filled : Bool) (profile : Octets)
    (kv : BitVec 512) (n line : Nat) : walkFrom t filled profile kv n line = walkFrom s filled profile kv n line := by
  have ht : ∀ l, treeLine t l = treeLine s l := by intro l; unfold treeLine; rw [hl, hc]
  have hr : rulesResident t = rulesResident s := by unfold rulesResident State.liveRules; rw [hc]
  induction n generalizing line with
  | zero => rfl
  | succ n ih => simp only [walkFrom, ht, ih, hl, hc, hr, matchBlock_congr ht]

/-- No walk reads the data path. -/
theorem walkFrame_path (s : State) (w : Path) (filled : Bool) (f : Frm) : walkFrame { s with path := w } filled f = walkFrame s filled f := by
  unfold walkFrame
  simp only [walkFrom_congr (s := s) (t := { s with path := w }) rfl (fun _ => rfl)]
  rfl

/-! ## Action records (R63, R64, R66) -/

/-- The hit counter of an action record counts. -/
def countHit (a : BitVec 128) (s : State) : State :=
  { s with cls := { s.cls with hits := s.cls.hits.bump (bits a.toNat 71 56) 1 } }

/-- The record of a frame under the action record that its walk has found. -/
def Frm.ruled (q : Frm) (a : BitVec 128) (s : State) (f : Frm) : Frm :=
  { f with
    action := a
    queue := if bitAt a.toNat 111 then bits a.toNat 110 101 else defaultQueue s q.pd
    timed := transitOn s q.pd && kvFlag q.kv 2 && (bits a.toNat 127 125 == 1 || (bits a.toNat 127 125 == 2 && q.pd.dir == .s2l))
    launch := f.stamp + f.budget * 65536 }

section
variable {a : BitVec 128} (hd : bits a.toNat 127 125 = 1 ∨ bits a.toNat 127 125 = 2)
include hd

/-- A record of bypass or protect without a policer settles its frame. -/
theorem applyAction_settles (hp : bitAt a.toNat 124 = false) (id : Nat) (q : Frm) (dflt : Bool) (s : State) :
    applyAction id q a dflt s = updFrm id (fun f => { q.ruled a s f with
      verdict := if bits a.toNat 127 125 = 1 then .bypass else .protect, stage := .classified }) (countHit a s) := by
  have hv : actionVerdict a.toNat = if bits a.toNat 127 125 = 1 then .bypass else .protect := by
    unfold actionVerdict
    rcases hd with h | h <;> simp [h]
  unfold applyAction settleClass
  simp only [show ¬ (bits a.toNat 127 125 = 0 ∨ 3 < bits a.toNat 127 125) by omega, hp, Bool.false_eq_true, if_false, hv, updFrm_updFrm]
  rfl

/-- With a policer the frame waits for its turn. -/
theorem applyAction_polices (hp : bitAt a.toNat 124 = true) (id : Nat) (q : Frm) (dflt : Bool) (s : State) :
    applyAction id q a dflt s = updFrm id (fun f => { q.ruled a s f with stage := .policing }) (countHit a s) := by
  unfold applyAction
  simp only [show ¬ (bits a.toNat 127 125 = 0 ∨ 3 < bits a.toNat 127 125) by omega, hp, if_false, if_true, updFrm_updFrm]
  rfl

end

/-- What a frame's action record leaves beside the frame: its hit counter, counted. -/
theorem updFrm_countHit_frame {id : Nat} {f : Frm} {s : State} (h : s.frame? id = some f) (a : BitVec 128) (g : Frm → Frm) :
    (updFrm id g (countHit a s)).frame? id = some (g f) ∧
      (updFrm id g (countHit a s)).cls.hits.get (bits a.toNat 71 56) 0 = s.cls.hits.get (bits a.toNat 71 56) 0 + 1 ∧
      (updFrm id g (countHit a s)).cls.resident = s.cls.resident ∧
      ∀ w, ({ updFrm id g (countHit a s) with path := w, cls := { (updFrm id g (countHit a s)).cls with hits := s.cls.hits } } : State) = { s with path := w } := by
  have h' : (countHit a s).frame? id = some f := h
  refine ⟨updFrm_frame?_same h' g, ?_⟩
  rw [updFrm_of_find h']
  exact ⟨Tab.get_bump_same _ _ _, rfl, fun _ => rfl⟩

theorem walkApply_hit {id : Nat} {f : Frm} {filled : Bool} {a : BitVec 128} {s : State} (h : walkFrame s filled f = .hit a) :
    walkApply id f filled s = applyAction id f a false s := by
  unfold walkApply; rw [h]

/-! ## CLASSIFY_FRAME (R52) -/

/-- A frame whose parse has ended. -/
def Frm.ended (f : Frm) : Frm := { f with parsed := true, gouge := none }

theorem endParse_of_find {id : Nat} {f : Frm} {s : State} (h : s.path.frames.find id = some f) :
    endParse id s = { s with path := { s.path with frames := s.path.frames.put id f.ended } } := updFrm_of_find h _

/-- The action record of a frame whose parse ends leaves the frame changed and its hit counter counted. -/
theorem updFrm_countHit_endParse {id : Nat} {f : Frm} {s : State} (hid : s.path.frames.find id = some f) (a : BitVec 128) (g : Frm → Frm) :
    (updFrm id g (countHit a (endParse id s))).frame? id = some (g f.ended) ∧
      (updFrm id g (countHit a (endParse id s))).cls.hits.get (bits a.toNat 71 56) 0 = s.cls.hits.get (bits a.toNat 71 56) 0 + 1 ∧
      ({ updFrm id g (countHit a (endParse id s)) with
        path := s.path, cls := { (updFrm id g (countHit a (endParse id s))).cls with hits := s.cls.hits } } : State) = s := by
  have hend : (endParse id s).frame? id = some f.ended := by rw [endParse_of_find hid]; exact Tab.find_put_same _ _ _
  obtain ⟨hfrm, hhit, -, hrest⟩ := updFrm_countHit_frame hend a g
  have hcls : (endParse id s).cls = s.cls := by rw [endParse_of_find hid]
  rw [hcls] at hhit hrest
  exact ⟨hfrm, hhit, (hrest s.path).trans (by rw [endParse_of_find hid])⟩

section
variable {p : PD} {id : Nat} {f : Frm} {s : State} (hn : nextFrm s p (fun f => f.stage == .accepted && (f.parsed || f.gouge.isSome)) = some (id, f))
include hn

theorem exec_classifyFrame_some : exec (.classifyFrame p) s = .next (policeSettle (classify id f.ended (endParse id s))) := by
  show execClassifyFrame p s = _
  unfold execClassifyFrame
  rw [hn]
  rfl

/-- A frame that no fixed check settles and that no steering takes is walked; the first match acts on it. -/
theorem exec_classifyFrame_hit {a : BitVec 128} (hid : s.path.frames.find id = some f) (hfcs : kvFlag f.kv 15 = false) (hcode : kvFlag f.kv 14 = false)
    (hbad : malformedAction s f = 0) (huz : kvFlag f.kv 1 = false) (hea : kvFlag f.kv 0 = false) (hw : walkFrame s false f = .hit a) :
    exec (.classifyFrame p) s = .next (policeSettle (applyAction id f.ended a false (endParse id s))) := by
  rw [exec_classifyFrame_some hn]
  have hbad' : malformedAction (endParse id s) f.ended = 0 := by rw [endParse_of_find hid]; exact hbad
  have hw' : walkFrame (endParse id s) false f.ended = .hit a := by rw [endParse_of_find hid, walkFrame_path]; exact hw
  have hkv : f.ended.kv = f.kv := rfl
  unfold classify
  simp only [hkv, hfcs, hcode, huz, hea, hbad', Bool.false_eq_true, if_false, Nat.zero_ne_one, OfNat.zero_ne_ofNat, walkApply_hit hw']

end

/-! ## RULE_BLOCK_FILL (R62) -/

theorem writeOver_frames (key a : Nat) (l : List Octets) (s : State) : (writeOver key a l s).path.frames = s.path.frames := by
  induction l generalizing a s with
  | nil => rfl
  | cons d l ih =>
    unfold writeOver
    rw [ih, writeLine_keep State.path (fun _ _ _ _ _ _ => rfl), edgePass_frames]

theorem treeWrite_frames (l : List (Nat × BitVec 512)) (s : State) : (treeWrite l s).path.frames = s.path.frames := by
  unfold treeWrite
  split
  · exact keep (P := fun s => s.path.frames) (fun s q => writeOver_frames 8 (treeAt q.1) _ s)
  · rfl

theorem controlWrite_frames (s : State) : (controlWrite s).path.frames = s.path.frames := by
  unfold controlWrite
  split
  · exact writeOver_frames _ _ _ s
  · rfl

theorem settleRewrites_frames (s : State) : (settleRewrites s).path.frames = s.path.frames := by
  unfold settleRewrites
  split
  · rfl
  · dsimp only
    split
    · rw [controlWrite_frames, treeWrite_frames]
    · rw [treeWrite_frames]

theorem settleRewrites_cls (s : State) : (settleRewrites s).cls = s.cls := settleRewrites_keep State.cls (fun _ _ _ _ _ _ _ => rfl) s

theorem fillRead_frames (l : List Nat) (s : State) : (fillRead l s).2.path.frames = s.path.frames := by
  induction l generalizing s with
  | nil => rfl
  | cons a l ih =>
    unfold fillRead
    dsimp only
    rw [ih, readLine_keep State.path (fun _ _ _ _ _ _ => rfl), edgePass_frames]

theorem fillRead_cls (l : List Nat) (s : State) : (fillRead l s).2.cls = s.cls := fillRead_keep State.cls (fun _ _ _ _ _ _ _ => rfl) l s

/-- Beside reading its lines, a fill changes which lines are resident. -/
theorem fillBlock_eq (f : Frm) (s : State) : fillBlock f s = s ∨
    ∃ ls w, fillBlock f s = { (fillRead ls s).2 with cls := { (fillRead ls s).2.cls with resident := w } } := by
  unfold fillBlock
  split
  · next ls hw =>
    refine .inr ⟨ls, ?_⟩
    dsimp only
    split
    · exact ⟨_, rfl⟩
    · exact ⟨(fillRead ls s).2.cls.resident, rfl⟩
  · exact .inl rfl

theorem fillBlock_frames (f : Frm) (s : State) : (fillBlock f s).path.frames = s.path.frames := by
  obtain h | ⟨ls, w, h⟩ := fillBlock_eq f s
  · rw [h]
  · rw [h, ← fillRead_frames ls s]

theorem fillBlock_hits (f : Frm) (s : State) : (fillBlock f s).cls.hits = s.cls.hits := by
  obtain h | ⟨ls, w, h⟩ := fillBlock_eq f s
  · rw [h]
  · rw [h, ← fillRead_cls ls s]

/-- The lines of a block that has been read are resident, where the tree cache need not drop any. -/
theorem fillBlock_resident {f : Frm} {ls : List Nat} {s : State} (hw : walkFrame s false f = .fill ls) (hr : (fillRead ls s).1 = true)
    (hfit : s.cls.resident.length + ls.length ≤ 131072) : ∀ l ∈ ls, l ∈ (fillBlock f s).cls.resident := by
  intro l hl
  have hfits : (s.cls.resident ++ ls.filter (fun l => !s.cls.resident.contains l)).length ≤ 131072 := by
    have := List.length_filter_le (fun l => !s.cls.resident.contains l) ls
    rw [List.length_append]; omega
  have hres : (fillBlock f s).cls.resident = s.cls.resident ++ ls.filter (fun l => !s.cls.resident.contains l) := by
    unfold fillBlock
    simp only [hw, hr, if_true]
    rw [Nat.sub_eq_zero_of_le hfits, List.drop_zero]
  rw [hres]
  by_cases h : l ∈ s.cls.resident <;> simp [h, hl]

theorem exec_ruleBlockFill_some {p : PD} {id : Nat} {f : Frm} {s : State} (hn : nextFrm s p (fun f => f.stage == .waitFill) = some (id, f)) :
    exec (.ruleBlockFill p) s = .next (policeSettle (walkApply id f true (fillBlock f (settleRewrites s)))) := by
  show execRuleBlockFill p s = _
  unfold execRuleBlockFill
  rw [hn]

/-! ## Policing in turn (R75) -/

/-- A frame policed takes the policer's drop, or its rule's disposition. -/
def policeOne (id : Nat) (f : Frm) (s : State) : State :=
  settleClass id (match (police (bits f.action.toNat 123 112) f s).1 with | some c => .drop c | none => actionVerdict f.action.toNat)
    (police (bits f.action.toNat 123 112) f s).2

theorem policeAll_of_none {s : State} (h : policeNext s = none) (n : Nat) : policeAll n s = s := by
  cases n with
  | zero => rfl
  | succ n => unfold policeAll; rw [h]

theorem policeAll_of_some {id : Nat} {f : Frm} {s : State} (h : policeNext s = some (id, f)) (n : Nat) :
    policeAll (n + 1) s = policeAll n (policeOne id f s) := by
  conv_lhs => unfold policeAll
  rw [h]
  rfl

/-- Where a frame is due, a frame is retained. -/
theorem frames_of_policeNext {q : Nat × Frm} {s : State} (h : policeNext s = some q) : ∃ n, s.path.frames.length = n + 1 := by
  cases hf : s.path.frames with
  | nil => simp [policeNext, hf] at h
  | cons x l => exact ⟨l.length, rfl⟩

/-! ## The statement -/

/-- Settles O5: a bad FCS by the two changes of its record, a match by its action record, and policing by the frame due. -/
theorem classificationSettlesFrames : Obligations.ClassificationSettlesFrames := by
  unfold Obligations.ClassificationSettlesFrames
  refine ⟨?fcs, ?rule, ?policer, ?fill, ?nothing, ?due, ?noneDue⟩
  case fcs =>
    intro p id f s hn hid hfcs
    rw [exec_classifyFrame_some hn]
    have hc : classify id f.ended (endParse id s) = settleClass id (.drop .fcs) (endParse id s) := if_pos hfcs
    rw [hc]
    unfold settleClass endParse
    rw [updFrm_updFrm, updFrm_of_find hid]
  case rule =>
    intro p id f a s hn hid hfcs hcode hbad huz hea hw hp hd
    obtain ⟨hfrm, hhit, hrest⟩ := updFrm_countHit_endParse hid a (fun g => { f.ended.ruled a (endParse id s) g with
      verdict := if bits a.toNat 127 125 = 1 then .bypass else .protect, stage := .classified })
    rw [← applyAction_settles hd hp id f.ended false] at hfrm hhit hrest
    refine ⟨_, _, exec_classifyFrame_hit hn hid hfcs hcode hbad huz hea hw, hfrm, rfl, rfl, rfl, ?_, rfl, rfl, rfl, ?_, ?_⟩
    · rw [endParse_of_find hid]; rfl
    · exact hhit
    · exact hrest
  case policer =>
    intro p id f a s hn hid hfcs hcode hbad huz hea hw hp hd
    obtain ⟨hfrm, hhit, hrest⟩ := updFrm_countHit_endParse hid a (fun g => { f.ended.ruled a (endParse id s) g with stage := .policing })
    rw [← applyAction_polices hd hp id f.ended false] at hfrm hhit hrest
    refine ⟨_, _, exec_classifyFrame_hit hn hid hfcs hcode hbad huz hea hw, hfrm, rfl, rfl, rfl, rfl, ?_, ?_⟩
    · exact hhit
    · exact hrest
  case fill =>
    intro p id f ls a s hn hid hwait hw hp hd
    have hfrm0 : (fillBlock f (settleRewrites s)).frame? id = some f := by
      unfold State.frame?; rw [fillBlock_frames, settleRewrites_frames]; exact hid
    obtain ⟨hfrm, -, hres, hrest⟩ := updFrm_countHit_frame hfrm0 a (fun g => { f.ruled a (fillBlock f (settleRewrites s)) g with
      verdict := if bits a.toNat 127 125 = 1 then .bypass else .protect, stage := .classified })
    rw [← applyAction_settles hd hp id f false, ← walkApply_hit (id := id) hw] at hfrm hres hrest
    refine ⟨_, _, exec_ruleBlockFill_some hn, hfrm, rfl, rfl, rfl, rfl, rfl, ?_, ?_⟩
    · intro hr hfit l hl
      rw [hres]
      exact fillBlock_resident hwait hr (by rw [settleRewrites_cls]; exact hfit) l hl
    · have hhits : s.cls.hits = (fillBlock f (settleRewrites s)).cls.hits := by rw [fillBlock_hits, settleRewrites_cls]
      rw [hhits, hrest]
  case nothing =>
    intro p s hn
    show execClassifyFrame p s = _
    unfold execClassifyFrame
    rw [hn]
  case due =>
    intro id f s hdue hnone
    obtain ⟨n, hlen⟩ := frames_of_policeNext hdue
    unfold policeSettle
    rw [hlen, policeAll_of_some hdue]
    exact policeAll_of_none hnone n
  case noneDue => exact fun s h => policeAll_of_none h _

end Machine
end Sys2Proof

namespace Sys2Proof.Machine

/-! ## Events are posted to event rings (R448, R449) -/

theorem signalVector_ring (v : Nat) (s : State) (j : Nat) : (signalVector v s).ring j = s.ring j := by
  unfold signalVector; (repeat' split) <;> rfl

theorem gatherOne_ring {r j : Nat} (h : j ≠ r) (s : State) : (gatherOne r s).ring j = s.ring j := by
  unfold gatherOne; dsimp only
  split
  · rw [signalVector_ring, updRing_get, if_neg h]
  · rw [updRing_get, if_neg h]

theorem eventWrite_ring {r j : Nat} (h : j ≠ r) (e : Event) (s : State) : (eventWrite r e s).ring j = s.ring j := by
  unfold eventWrite
  rw [gatherOne_ring h, updRing_get, if_neg h]
  rfl

/-- An event leaves the mailbox rings. -/
theorem post_ring {j : Nat} (h : j < 64) (e : Event) (s : State) : (post e s).ring j = s.ring j := by
  have hne (k : Nat) : j ≠ 1088 + k := by omega
  have hflush : (flushLost (eventQueue s e) s).ring j = s.ring j := by
    unfold flushLost; dsimp only
    split
    · rfl
    · rw [eventWrite_ring (hne _), updRing_get, if_neg (hne _)]
  unfold post postTo
  dsimp only
  split
  · unfold eventLost
    rw [updRing_get, if_neg (hne _), ← hflush]
    rfl
  · rw [eventWrite_ring (hne _), hflush]

/-- What `P` reads of the state shows nothing of a posted event, of the tool rest, of the data path, of the memory protection unit and of what
leaves the part. -/
structure PostBlind {β : Type} (P : State → β) : Prop where
  post : ∀ e s, P (post e s) = P s
  rest : ∀ s x, P { s with rest := x } = P s
  path : ∀ s x, P { s with path := x } = P s
  mpu : ∀ s x, P { s with mpu := x } = P s
  out : ∀ s x, P { s with out := x } = P s

section
variable {β : Type} {P : State → β} (h : PostBlind P)
include h

theorem PostBlind.hbm (s : State) (x : Mpu) (_ : Memory.wf x.hbm = Memory.wf s.mpu.hbm) : P { s with mpu := x } = P s := h.mpu s x

theorem PostBlind.logEntry (type source : Nat) (detail : Octets) (s : State) : P (logEntry type source detail s) = P s := by
  have hstop : ∀ s, P (logStops s) = P s := logStops_keep P h.rest
  have hafter : ∀ s, P (logAfter s) = P s := fun s => by
    unfold logAfter exportEvent
    rw [hstop]
    split
    · rw [h.post, h.rest]
    · rfl
  unfold Machine.logEntry logForce
  split
  · split
    · rw [hafter, logAppend_keep P h.rest, h.rest]
    · split
      · rw [h.rest, h.rest]
      · rw [hstop, h.rest, h.rest]
  · exact h.rest _ _

theorem PostBlind.memReport (alarm : Bool) (region block : Nat) (s : State) : P (memReport alarm region block s) = P s := by
  unfold Machine.memReport memoryAlarm memoryEvent
  split <;> rw [memLatch_keep P h.hbm, raiseEvent_keep P h.rest, h.logEntry]

theorem PostBlind.poisonLines (b : Nat) (map : W64) (s : State) : P (poisonLines b map s) = P s := by
  unfold Machine.poisonLines; dsimp only
  (repeat' split) <;> simp only [memCount_keep P h.hbm, h.memReport, h.mpu]

theorem PostBlind.storeRefetch (region index : Nat) (s : State) : P (storeRefetch region index s) = P s := by
  unfold Machine.storeRefetch; dsimp only
  split
  · rfl
  · rw [memLatch_keep P h.hbm, memCount_keep P h.hbm, h.post, h.mpu]

theorem PostBlind.loseLine (a : Nat) (s : State) : P (loseLine a s) = P s := by
  unfold Machine.loseLine; dsimp only
  (repeat' split) <;> simp only [h.storeRefetch, h.poisonLines, h.memReport, h.mpu]

theorem PostBlind.metaFetch (m : Nat) (parent : Split) (slot block : Nat) (s : State) : P (metaFetch m parent slot block s).2 = P s := by
  unfold Machine.metaFetch; dsimp only
  (repeat' split) <;> simp only [memCount_keep P h.hbm, h.memReport, metaWrite_keep P h.hbm, metaCopy_keep P h.hbm]

theorem PostBlind.loseBlock (b : Nat) (s : State) : P (loseBlock b s) = P s := by
  unfold Machine.loseBlock; dsimp only
  split
  · rw [keep (P := P) (fun s i => h.storeRefetch _ _ s), h.poisonLines, h.memReport]
  · rw [keep (P := P) (fun s i => h.storeRefetch _ _ s), h.poisonLines, h.memReport]
  · rw [h.mpu, h.poisonLines, h.memReport]
  · rw [h.mpu, h.poisonLines, h.memReport]
  · split
    · rw [memCount_keep P h.hbm, h.mpu, h.poisonLines, h.memReport]
    · rw [h.poisonLines, h.memReport]

theorem PostBlind.node1 (j : Nat) (s : State) : P (node1 j s).2 = P s := by
  unfold Machine.node1; dsimp only
  split
  · exact cacheCount_keep P h.hbm _ _
  · split
    · rw [cachePut_keep P h.hbm, h.metaFetch, cacheCount_keep P h.hbm]
    · rw [keep (P := P) (fun s i => h.loseBlock _ s), cachePut_keep P h.hbm, h.metaFetch, cacheCount_keep P h.hbm]

theorem PostBlind.counterLine (b : Nat) (s : State) : P (counterLine b s).2 = P s := by
  unfold Machine.counterLine; dsimp only
  split
  · exact cacheCount_keep P h.hbm _ _
  · split
    · rw [cachePut_keep P h.hbm, h.metaFetch, h.node1, cacheCount_keep P h.hbm]
    · rw [h.loseBlock, cachePut_keep P h.hbm, h.metaFetch, h.node1, cacheCount_keep P h.hbm]

theorem PostBlind.recover (key a : Nat) (c : Split) (s : State) : P (recover key a c s).2 = P s := by
  unfold Machine.recover; dsimp only
  (repeat' split) <;> simp only [memCount_keep P h.hbm, h.memReport, physWrite_keep P h.hbm, physRead_keep P h.hbm, h.loseLine]

theorem PostBlind.readLine (key a : Nat) (s : State) : P (readLine key a s).2 = P s := by
  unfold Machine.readLine; dsimp only
  (repeat' split) <;> simp only [h.recover, memCount_keep P h.hbm, physRead_keep P h.hbm, h.counterLine]

theorem PostBlind.retireBlock (b : Nat) (s : State) : P (retireBlock b s) = P s := by
  unfold Machine.retireBlock; dsimp only
  (repeat' split) <;> simp only [h.post, h.poisonLines, memLatch_keep P h.hbm, memCount_keep P h.hbm, h.mpu]

theorem PostBlind.reencrypt (key a : Nat) (data : Octets) (c : Split) (s : State) : P (reencrypt key a data c s) = P s := by
  unfold Machine.reencrypt; dsimp only
  split
  · exact h.retireBlock _ s
  · next maj u hu =>
    have hstart : P u = P s := newMajor_keep P h.hbm key s (maj, u) hu
    have hput : ∀ s (p : Nat × Octets), P (putLine key (a / 4096 * 4096 + 64 * p.1) maj.toNat 1 p.2 s) = P s :=
      fun s p => putLine_keep P h.hbm _ _ _ _ _ s
    rw [apply_ite P, h.mpu, ite_self, cachePut_keep P h.hbm, keep hput]
    refine (keep2 (P := P) (fun p k => ?_)).trans hstart
    (repeat' split) <;> simp only [h.readLine]

theorem PostBlind.writeLine (key a : Nat) (data : Octets) (s : State) : P (writeLine key a data s) = P s := by
  unfold Machine.writeLine; dsimp only
  (repeat' split) <;> simp only [clearPoison_keep P h.hbm, foldParity_keep P h.hbm, cachePut_keep P h.hbm,
    putLine_keep P h.hbm, memCount_keep P h.hbm, h.reencrypt, h.counterLine, h.mpu]

theorem PostBlind.treeWrite (l : List (Nat × BitVec 512)) (s : State) : P (treeWrite l s) = P s := by
  have hover : ∀ (d : List Octets) (key a : Nat) s, P (writeOver key a d s) = P s := by
    intro d
    induction d with
    | nil => exact fun _ _ _ => rfl
    | cons x d ih => intro key a s; unfold writeOver; rw [ih, h.writeLine, edgePass_keep P h.path]
  unfold Machine.treeWrite
  split
  · exact keep (P := P) (fun s q => hover _ _ _ s)
  · rfl

end
end Sys2Proof.Machine

namespace Sys2Proof.Machine

/-! ## Spindle roles settle (R206, R211) -/

/-- What `P` reads shows nothing of the spindles and their domains either. -/
structure RoleBlind {β : Type} (P : State → β) : Prop extends PostBlind P where
  rng : ∀ s x, P { s with rng := x } = P s
  fab : ∀ s x, P { s with fab := x } = P s
  domain : ∀ i st s, i < 28 → P (setDomain i st s) = P s

/-- The spare that has waited longest is a spindle. -/
theorem nextSpare_lt {i : Nat} {s : State} (h : nextSpare s = some i) : i < 28 := by
  refine List.foldlRecOn (motive := fun m : Option Nat => ∀ j ∈ m, j < 28) _ _ (by simp) (fun m hm a ha => ?_) i h
  have ha28 : a < 28 := List.mem_range.mp (List.mem_of_mem_filter (List.mem_of_mem_filter ha))
  cases m with
  | none => simpa using ha28
  | some j =>
    dsimp only
    split
    · simpa using ha28
    · exact hm

section
variable {β : Type} {P : State → β} (h : RoleBlind P)
include h

theorem RoleBlind.checkpointLoad (i : Nat) (s : State) : P (checkpointLoad i s) = P s := by
  unfold Machine.checkpointLoad
  split
  · have hread := h.readLine 12 (checkpointAt i) s
    split
    · next d t hr => rw [hr] at hread; rw [updSp_keep P h.fab, hread]
    · next t hr => rw [hr] at hread; rw [trimFactory_keep P h.fab, hread]
  · exact trimFactory_keep P h.fab i s

theorem RoleBlind.startSpindle {i : Nat} (hi : i < 28) (w : Why) (s : State) : P (startSpindle i w s) = P s := by
  unfold Machine.startSpindle
  rw [rngAsk_keep P h.rng, h.checkpointLoad, updSp_keep P h.fab, h.domain _ _ _ hi, setRole_keep P h.fab]

theorem RoleBlind.settleRoles (s : State) : P (settleRoles s) = P s := by
  have hfill : ∀ n s, P (fillSpares n s) = P s := by
    intro n
    induction n with
    | zero => exact fun _ => rfl
    | succ n ih =>
      intro s
      unfold fillSpares
      split
      · rfl
      · split
        · rfl
        · next i hi => rw [ih, h.startSpindle (nextSpare_lt hi)]
  unfold Machine.settleRoles spareCheck
  dsimp only
  rw [fabStatus_keep P h.fab, apply_ite P, h.post, ite_self, hfill]

end

/-! ## What settling looks at -/

/-- What settling reads of the power and of the mailbox rings. -/
def outlook (s : State) : Start × ServicePhase × Bool × Domain × (Fin 64 → Ring) :=
  (s.power.start, s.power.service, s.power.pcieUp, s.domain 75, fun r => s.ring r)

theorem outlook_roleBlind : RoleBlind outlook where
  post e s := by
    have hp : (post e s).power = s.power := post_keep State.power (fun _ _ _ => rfl) e s
    have hr : (fun r : Fin 64 => (post e s).ring r) = fun r : Fin 64 => s.ring r := funext fun r => post_ring r.isLt e s
    unfold outlook State.domain
    rw [hp, hr]
  rest _ _ := rfl
  path _ _ := rfl
  mpu _ _ := rfl
  out _ _ := rfl
  rng _ _ := rfl
  fab _ _ := rfl
  domain i st s hi := by
    have hd : (setDomain i st s).domain 75 = s.domain 75 := by
      unfold State.domain setDomain
      rw [Tab.get_upd_other (by omega)]
    unfold outlook
    rw [hd]
    rfl

/-- A state with the outlook of a quiet one in which nothing of the dictionary has come to wait is quiet. -/
theorem Quiet.of_outlook {s t : State} (h : Quiet s) (ho : outlook t = outlook s) (hctl : t.ctl = { s.ctl with
    dict := t.ctl.dict, generation := t.ctl.generation, applyAt := t.ctl.applyAt, sessions := t.ctl.sessions }) : Quiet t := by
  simp only [outlook, Prod.mk.injEq] at ho
  obtain ⟨hstart, hservice, hup, hd, hring⟩ := ho
  obtain ⟨hr, hs, hp, hj, hq, hh, hi, hf, hm⟩ := h
  have hreach : t.reachable = s.reachable := by unfold State.reachable; rw [hstart]
  refine ⟨hreach.trans hr, ?_, ?_, ?_, ?_, ?_, ?_, ?_, ?_⟩
  · rw [← hs]; unfold controlServes controlWaits State.controlUp ctlIn; rw [hctl, hservice]
  · rw [pcieSettle_eq_self_iff] at hp ⊢; rw [hup, hd, hreach]; exact hp
  · rw [hctl]; exact hj
  · rw [hctl]; exact hq
  · rw [hctl]; exact hh
  · rw [hctl]; exact hi
  · rw [hctl]; exact hf
  · intro r hr64
    have := congrFun hring ⟨r, hr64⟩
    rw [show t.ring r = s.ring r from this]; exact hm r hr64

end Sys2Proof.Machine

namespace Sys2Proof.Machine

/-! ## A staging of classification entries alone (R68) -/

/-- Every staged entry is one of the trees: its index is from 0x2000 up to but not including 0x2400. -/
def TreesOnly (st : Tab Octets) : Prop := ∀ q ∈ st, odKey 0x2000 0 ≤ q.1 ∧ q.1 < odKey 0x2400 0

section
variable {st : Tab Octets} (h : TreesOnly st)
include h

theorem TreesOnly.find_none {key : Nat} (hk : key < odKey 0x2000 0 ∨ odKey 0x2400 0 ≤ key) : st.find key = none :=
  Tab.find_none fun p hp => by have := h p hp; omega

theorem TreesOnly.find_key {idx sub : Nat} (hk : idx * 256 + sub < odKey 0x2000 0 ∨ odKey 0x2400 0 ≤ idx * 256 + sub) : st.find (odKey idx sub) = none :=
  h.find_none hk

/-- Nothing with an index from 0x2400 on is staged. -/
theorem TreesOnly.find_above {idx : Nat} (hi : 0x2400 ≤ idx) (sub : Nat) : st.find (odKey idx sub) = none :=
  h.find_none (.inr (by unfold odKey; omega))

theorem TreesOnly.stagedAt_above {idx : Nat} (hi : 0x2400 ≤ idx) (sub : Nat) : stagedAt st idx sub = none := h.find_above hi sub

theorem TreesOnly.isStaged_above {idx : Nat} (hi : 0x2400 ≤ idx) (sub : Nat) : isStaged st idx sub = false := by
  unfold isStaged; rw [h.stagedAt_above hi]; rfl

theorem TreesOnly.stagedNat_above {idx : Nat} (hi : 0x2400 ≤ idx) (sub : Nat) : stagedNat st idx sub = none := by
  unfold stagedNat; rw [h.stagedAt_above hi]; rfl

theorem TreesOnly.stagedIn_outside {lo hi : Nat} (hr : hi ≤ 0x2000 ∨ 0x2400 ≤ lo) : stagedIn st lo hi = false := by
  unfold stagedIn
  rw [List.any_eq_false]
  intro q hq
  obtain ⟨h1, h2⟩ := h q hq
  unfold odKey at h1 h2
  simp only [Bool.and_eq_true, decide_eq_true_eq, not_and, not_lt]
  omega

theorem TreesOnly.classifies (hne : st ≠ []) : classifies st = true := by
  obtain ⟨q, l, rfl⟩ := List.exists_cons_of_ne_nil hne
  obtain ⟨h1, h2⟩ := h q List.mem_cons_self
  unfold odKey at h1 h2
  unfold Machine.classifies stagedIn
  rw [List.any_cons, Bool.or_eq_true]
  exact .inl (by simp only [Bool.and_eq_true, decide_eq_true_eq]; omega)

theorem TreesOnly.imageWrites_above {idx : Nat} (hi : 0x2400 ≤ idx) (sub base width : Nat) (same : Nat → Octets → Bool) :
    imageWrites idx sub base width same st = [] := by unfold imageWrites; rw [h.find_above hi]

theorem TreesOnly.deltaWrites_above {idx : Nat} (hi : 0x2400 ≤ idx) (sub width : Nat) : deltaWrites idx sub width st = [] := by
  unfold deltaWrites; rw [h.find_above hi]

theorem TreesOnly.scWrites (s : State) : scWrites s st = [] := by
  unfold Machine.scWrites; rw [h.imageWrites_above (by decide), h.deltaWrites_above (by decide)]; rfl

theorem TreesOnly.tribWrites (s : State) : tribWrites s st = [] := by
  unfold Machine.tribWrites; rw [h.imageWrites_above (by decide), h.deltaWrites_above (by decide)]; rfl

theorem TreesOnly.saWrites (s : State) : saWrites s st = [] := by
  unfold Machine.saWrites; dsimp only; rw [h.imageWrites_above (by decide), h.imageWrites_above (by decide), h.deltaWrites_above (by decide)]; rfl

theorem TreesOnly.rollScWrites (s : State) : rollScWrites s st = [] := by
  unfold Machine.rollScWrites; rw [h.imageWrites_above (by decide), h.deltaWrites_above (by decide)]; rfl

theorem TreesOnly.rollTribWrites (s : State) : rollTribWrites s st = [] := by
  unfold Machine.rollTribWrites; rw [h.imageWrites_above (by decide), h.deltaWrites_above (by decide)]; rfl

theorem TreesOnly.queueWrites (s : State) : queueWrites s st = [] := by
  unfold Machine.queueWrites
  dsimp only
  rw [h.stagedAt_above (by decide), List.map_congr_left (g := fun _ => []) fun g _ => h.imageWrites_above (by decide) _ _ _ _]
  rfl

theorem TreesOnly.slotsStaged : slotsStaged st = [] := by
  unfold Machine.slotsStaged
  exact List.filter_eq_nil_iff.mpr fun i _ => by rw [h.isStaged_above (by decide)]; exact Bool.false_ne_true

/-! ### The key range of such a commit -/

theorem TreesOnly.pinRefusals (s : State) : pinRefusals s st = [] := by
  unfold Machine.pinRefusals
  split
  · rfl
  · dsimp only
    simp only [h.isStaged_above (show 0x2400 ≤ 0x3410 by decide), h.isStaged_above (show 0x2400 ≤ 0x3421 by decide), h.isStaged_above (show 0x2400 ≤ 0x3422 by decide),
      h.isStaged_above (show 0x2400 ≤ 0x3450 by decide), h.rollScWrites, h.rollTribWrites]
    rfl

theorem TreesOnly.storeFailures (s : State) : storeFailures s st = [] := by
  unfold Machine.storeFailures
  dsimp only
  rw [h.stagedAt_above (by decide), h.stagedAt_above (by decide)]
  rfl

theorem TreesOnly.storesPut (s : State) : storesPut st s = s := by
  unfold Machine.storesPut
  dsimp only
  rw [h.stagedAt_above (by decide), h.stagedAt_above (by decide)]
  rfl

theorem TreesOnly.keyTablesPut (s0 s : State) : keyTablesPut s0 st s = s := by
  unfold Machine.keyTablesPut
  rw [h.saWrites, h.rollScWrites, h.rollTribWrites]
  rfl

/-- Failures of the key range of a commit that stages nothing there. -/
theorem TreesOnly.keyRange (s c : State) (ck : ChuckRun) : keyRange s c st ck =
    { fails := if s.locked then tableFailures c else keyFailures s c [] st, base := s, cand := c, run := { s := c, b := s, ck := ck } } := by
  have hrun : keyCommands 1 [] { s := c, b := s, ck := ck } = { s := c, b := s, ck := ck } := rfl
  unfold Machine.keyRange
  dsimp only
  rw [h.pinRefusals, h.storeFailures, h.stagedAt_above (by decide), h.storesPut]
  simp only [List.isEmpty_nil, Bool.not_true, Bool.false_eq_true, if_false, Option.getD_none, List.length_nil, Nat.zero_add, hrun, h.keyTablesPut]
  by_cases hlock : s.locked = true
  · rw [if_pos hlock, if_pos hlock]
  · rw [if_neg hlock, if_neg hlock]
    cases hk : keyFailures s c [] st with
    | nil => rfl
    | cons a l => rfl

theorem TreesOnly.enrollChecked (x : Checked) : enrollChecked st x = x := by
  unfold Machine.enrollChecked; rw [h.stagedAt_above (by decide), h.stagedAt_above (by decide)]

theorem TreesOnly.ownerChecked (k : Nat) (s : State) (x : Checked) : ownerChecked k st s x = x := by
  unfold Machine.ownerChecked; rw [h.stagedAt_above (by decide)]

theorem TreesOnly.tokenChecked {idx : Nat} (hi : 0x2400 ≤ idx) (sub : Nat) (debug : Bool) (s : State) (x : Checked) : tokenChecked idx sub debug st s x = x := by
  unfold Machine.tokenChecked; rw [h.stagedAt_above hi]

/-- What the checks of a commit of classification entries come to: its candidate is that of its own entries, and a refusal leaves nothing behind. -/
theorem TreesOnly.checkCommit (k : Nat) (ck : ChuckRun) (extra : List (Nat × Nat)) (s : State) : checkCommit k st ck extra s =
    { fails := (if s.locked then tableFailures (candidate k st s) else keyFailures s (candidate k st s) [] st) ++
        (checkFailures s (candidate k st s) k st (rulesAfter s st) ++ extra),
      base := s, cand := candidate k st s, run := { s := candidate k st s, b := s, ck := ck } } := by
  unfold Machine.checkCommit
  dsimp only
  rw [h.keyRange, h.enrollChecked, h.ownerChecked, h.tokenChecked (by decide), h.tokenChecked (by decide)]
  rfl

end
end Sys2Proof.Machine

namespace Sys2Proof.Machine

/-! ## The state that a commit of classification entries would leave -/

/-- The second state differs from the first in policers and in applied values of the trees alone. -/
def TreesDiffer (s c : State) : Prop :=
  ∃ d p, c = { s with ctl := { s.ctl with dict := d }, cls := { s.cls with policers := p } } ∧
    ∀ key, key < odKey 0x2000 0 ∨ odKey 0x2400 0 ≤ key → d.find key = s.ctl.dict.find key

theorem TreesDiffer.refl (s : State) : TreesDiffer s s := ⟨s.ctl.dict, s.cls.policers, rfl, fun _ _ => rfl⟩

theorem TreesDiffer.trans {s t u : State} (h : TreesDiffer s t) (g : TreesDiffer t u) : TreesDiffer s u := by
  obtain ⟨d, p, rfl, hd⟩ := h
  obtain ⟨e, q, rfl, he⟩ := g
  exact ⟨e, q, rfl, fun key hk => (he key hk).trans (hd key hk)⟩

/-- Steps that each change trees alone change trees alone. -/
theorem TreesDiffer.foldl {α : Type} {f : State → α → State} {l : List α} (h : ∀ a ∈ l, ∀ s, TreesDiffer s (f s a)) (s : State) :
    TreesDiffer s (l.foldl f s) := by
  induction l generalizing s with
  | nil => exact .refl s
  | cons a l ih => exact (h a List.mem_cons_self s).trans (ih (fun b hb => h b (List.mem_cons_of_mem a hb)) (f s a))

theorem putPlain_treesDiffer {key : Nat} (h1 : odKey 0x2000 0 ≤ key) (h2 : key < odKey 0x2400 0) (b : Octets) (s : State) :
    TreesDiffer s (putPlain key b s) := by
  unfold putPlain
  dsimp only
  split
  · exact .refl s
  · split
    · exact .refl s
    · refine ⟨_, _, rfl, fun key' hk => ?_⟩
      have hne : key' ≠ key := by omega
      split
      · exact Tab.find_drop_other hne _
      · exact Tab.find_put_other hne _ _

theorem policerWriteAll_treesDiffer (l : List Written) (s : State) : TreesDiffer s (policerWriteAll l s) :=
  TreesDiffer.foldl (fun _ _ s => ⟨s.ctl.dict, _, rfl, fun _ _ => rfl⟩) s

/-- The sessions of a state replaced. -/
def withSessions (w : Tab Session) (s : State) : State := { s with ctl := { s.ctl with sessions := w } }

theorem putPlain_withSessions (w : Tab Session) (key : Nat) (b : Octets) (s : State) : putPlain key b (withSessions w s) = withSessions w (putPlain key b s) := by
  unfold putPlain
  dsimp only
  split
  · rfl
  · split <;> rfl

section
variable {st : Tab Octets} (h : TreesOnly st)
include h

theorem TreesOnly.candidate_eq (k : Nat) (s : State) : candidate k st s = policerWriteAll (policerWrites s st) (putPlains st s) := by
  unfold candidate slotWriteAll
  dsimp only
  rw [h.slotsStaged, h.scWrites, h.tribWrites, h.queueWrites]
  rfl

theorem TreesOnly.candidate_treesDiffer (k : Nat) (s : State) : TreesDiffer s (candidate k st s) := by
  rw [h.candidate_eq]
  refine .trans ?_ (policerWriteAll_treesDiffer _ _)
  exact TreesDiffer.foldl (fun q hq s => putPlain_treesDiffer (h q hq).1 (h q hq).2 q.2 s) s

theorem TreesOnly.checked_base (k : Nat) (ck : ChuckRun) (extra : List (Nat × Nat)) (s : State) : (Machine.checkCommit k st ck extra s).base = s := by
  rw [h.checkCommit]

theorem TreesOnly.checked_run (k : Nat) (ck : ChuckRun) (extra : List (Nat × Nat)) (s : State) :
    (Machine.checkCommit k st ck extra s).run = { s := candidate k st s, b := s, ck := ck } := by rw [h.checkCommit]

theorem TreesOnly.checked_treesDiffer (k : Nat) (ck : ChuckRun) (extra : List (Nat × Nat)) (s : State) :
    TreesDiffer s (Machine.checkCommit k st ck extra s).cand := by rw [h.checkCommit]; exact h.candidate_treesDiffer k s

theorem TreesOnly.candidate_withSessions (k : Nat) (w : Tab Session) (s : State) : candidate k st (withSessions w s) = withSessions w (candidate k st s) := by
  have hput : putPlains st (withSessions w s) = withSessions w (putPlains st s) :=
    List.foldl_hom (withSessions w) (fun s q => putPlain_withSessions w q.1 q.2 s)
  have hpol : ∀ l s, policerWriteAll l (withSessions w s) = withSessions w (policerWriteAll l s) := fun l s =>
    List.foldl_hom (withSessions w) (fun _ _ => rfl)
  rw [h.candidate_eq, h.candidate_eq, hput, hpol]
  rfl

theorem TreesOnly.spindleFailures (l : List Nat) (s : State) : spindleFailures st l s = [] := by
  induction l generalizing s with
  | nil => rfl
  | cons i l ih => unfold Machine.spindleFailures; rw [h.stagedNat_above (by decide)]; exact ih s

/-- The checks read nothing of what sessions have staged. -/
theorem TreesOnly.checkFailures_withSessions (k : Nat) (rules : Tab (Tab Rule)) (w : Tab Session) (s c : State) :
    checkFailures (withSessions w s) (withSessions w c) k st rules = checkFailures s c k st rules := by
  have hfab : fabricFailures (withSessions w s) (withSessions w c) st = fabricFailures s c st := by
    unfold fabricFailures; rw [h.spindleFailures, h.spindleFailures]; rfl
  unfold checkFailures
  rw [hfab]
  rfl

/-- What the checks of a commit of classification entries find depends on no session. -/
theorem TreesOnly.checkCommit_fails_withSessions (k : Nat) (ck : ChuckRun) (extra : List (Nat × Nat)) (w : Tab Session) (s : State) :
    (Machine.checkCommit k st ck extra (withSessions w s)).fails = (Machine.checkCommit k st ck extra s).fails := by
  rw [h.checkCommit, h.checkCommit, h.candidate_withSessions]
  dsimp only
  rw [show rulesAfter (withSessions w s) st = rulesAfter s st from rfl, h.checkFailures_withSessions]
  rfl

/-- A commit of classification entries that `Passes` has no failure. -/
theorem TreesOnly.fails_of_passes {k : Nat} {ck : ChuckRun} {s : State} (hp : Passes k st ck s) : firstFailure (Machine.checkCommit k st ck [] s).fails = none := by
  rw [← h.checkCommit_fails_withSessions k ck [] (s.ctl.sessions.upd k {} (fun x => x)) s]
  exact hp

end
end Sys2Proof.Machine

namespace Sys2Proof.Machine

/-! ## What such a commit does at its apply instant (R68, R69, R72, R431) -/

/-- The states agree on the applied values outside the trees. -/
def AgreeOutside (s0 s : State) : Prop := ∀ key, key < odKey 0x2000 0 ∨ odKey 0x2400 0 ≤ key → s.ctl.dict.find key = s0.ctl.dict.find key

theorem TreesDiffer.agreeOutside {s c : State} (h : TreesDiffer s c) : AgreeOutside s c := by
  obtain ⟨d, p, rfl, hd⟩ := h; exact hd

section
variable {s0 s : State} (h : AgreeOutside s0 s)
include h

theorem AgreeOutside.of_ctl {t : State} (ht : t.ctl.dict = s.ctl.dict) : AgreeOutside s0 t := by
  intro key hk; rw [ht]; exact h key hk

theorem AgreeOutside.od {idx sub : Nat} (hk : odKey idx sub < odKey 0x2000 0 ∨ odKey 0x2400 0 ≤ odKey idx sub) : s.od idx sub = s0.od idx sub := by
  unfold State.od; rw [h _ hk]

theorem AgreeOutside.od_above {idx : Nat} (hi : 0x2400 ≤ idx) (sub : Nat) : s.od idx sub = s0.od idx sub := h.od (.inr (by unfold odKey; omega))

theorem AgreeOutside.odChanged {idx sub : Nat} (hk : odKey idx sub < odKey 0x2000 0 ∨ odKey 0x2400 0 ≤ odKey idx sub) : odChanged s0 s idx sub = false := by
  unfold Machine.odChanged; rw [h.od hk, bne_self_eq_false]

theorem AgreeOutside.odChanged_above {idx : Nat} (hi : 0x2400 ≤ idx) (sub : Nat) : Machine.odChanged s0 s idx sub = false :=
  h.odChanged (.inr (by unfold odKey; omega))

theorem AgreeOutside.ethShape (k : Nat) : ethShape s k = ethShape s0 k := by unfold Machine.ethShape State.odNat; rw [h.od_above (by decide)]

theorem AgreeOutside.otnShape (k : Nat) : otnShape s k = otnShape s0 k := by unfold Machine.otnShape State.odNat; rw [h.od_above (by decide)]

theorem AgreeOutside.shapesTake : shapesTake s0 s = s := by
  have hnone : (List.range 8).filter (fun k => Machine.ethShape s0 k != Machine.ethShape s k || Machine.otnShape s0 k != Machine.otnShape s k) = [] :=
    List.filter_eq_nil_iff.mpr fun k _ => by rw [h.ethShape, h.otnShape, bne_self_eq_false, bne_self_eq_false]; exact Bool.false_ne_true
  unfold Machine.shapesTake
  dsimp only
  rw [hnone]
  rfl

theorem AgreeOutside.otnTakes : otnTakes s0 s = s := by
  unfold Machine.otnTakes
  dsimp only
  rw [List.filter_eq_nil_iff.mpr fun k _ => by
    rw [h.odChanged_above (by decide), h.odChanged_above (by decide), h.odChanged_above (by decide), h.odChanged_above (by decide), h.odChanged_above (by decide),
      h.odChanged_above (by decide)]
    exact Bool.false_ne_true]
  rfl

theorem AgreeOutside.linksTake : linksTake s0 s = s :=
  foldl_same _ _ s fun n _ => by rw [h.odChanged_above (by decide)]; rfl

theorem AgreeOutside.flowTakes : flowTakes s0 s = s :=
  foldl_same _ _ s fun n _ => by
    dsimp only
    rw [h.odChanged_above (idx := 0x3804) (by decide)]
    simp only [Bool.false_eq_true, if_false, Bool.false_or]
    rw [h.odChanged_above (by decide), h.odChanged_above (by decide), h.odChanged_above (by decide)]
    rfl

theorem AgreeOutside.channelTakes : channelTakes s0 s = s := by
  unfold Machine.channelTakes; rw [h.odChanged (.inl (by decide))]; rfl

end

section
variable {st : Tab Octets} (h : TreesOnly st)
include h

theorem TreesOnly.ringsTake (s0 s : State) : ringsTake s0 st s = s := by
  unfold Machine.ringsTake; rw [h.stagedIn_outside (.inl (by decide))]; rfl

/-- No time entry is staged or changed: the output pins alone settle. -/
theorem TreesOnly.timeTakes {s0 s : State} (ha : AgreeOutside s0 s) : timeTakes s0 st s = (List.range 4).foldl (fun s p => pinSettle p s) (lockPins s) := by
  unfold Machine.timeTakes
  dsimp only
  rw [ha.odChanged_above (idx := 0x4010) (by decide)]
  simp only [Bool.false_eq_true, if_false]
  rw [ha.odChanged_above (idx := 0x4010) (by decide), ha.odChanged_above (idx := 0x4010) (by decide)]
  simp only [Bool.or_self, Bool.false_eq_true, if_false]
  rw [ha.odChanged_above (idx := 0x4011) (by decide), h.stagedAt_above (by decide), h.stagedNat_above (by decide)]
  simp only [Bool.false_eq_true, if_false]
  rw [foldl_same _ _ s fun p _ => by
    unfold pinFreed; rw [ha.odChanged_above (by decide), h.slotsStaged]; rfl]

/-- No cipher-fabric entry is staged: a fabric that was parked for thermal reasons alone settles its roles. -/
theorem TreesOnly.fabricTakes (s : State) : fabricTakes st s =
    if s.power.parked && s.odNat 0x5404 1 = 0 then settleRoles { s with power := { s.power with parked := false } } else s := by
  unfold Machine.fabricTakes
  dsimp only
  rw [h.stagedIn_outside (.inr (by decide))]
  simp only [Bool.false_eq_true, if_false]
  rw [foldl_same _ _ s fun i _ => by rw [h.stagedNat_above (by decide)]]

theorem TreesOnly.testsTake (s : State) : testsTake st s = s := by
  unfold Machine.testsTake
  simp only [h.stagedAt_above (show 0x2400 ≤ 0x4410 by decide), h.stagedNat_above (show 0x2400 ≤ 0x4420 by decide), h.stagedAt_above (show 0x2400 ≤ 0x4810 by decide),
    h.stagedAt_above (show 0x2400 ≤ 0x4811 by decide), h.stagedNat_above (show 0x2400 ≤ 0x4812 by decide)]

theorem TreesOnly.restTakes (s : State) : restTakes st s = s := by
  unfold Machine.restTakes
  simp only [h.stagedAt_above (show 0x2400 ≤ 0x5020 by decide), h.stagedAt_above (show 0x2400 ≤ 0x5030 by decide), h.stagedNat_above (show 0x2400 ≤ 0x5030 by decide),
    h.stagedAt_above (show 0x2400 ≤ 0x5041 by decide), h.stagedAt_above (show 0x2400 ≤ 0x5050 by decide)]

theorem TreesOnly.powerTakes (s : State) : powerTakes st s = s :=
  foldl_same _ _ s fun d _ => by rw [h.stagedNat_above (by decide)]

theorem TreesOnly.resetsTake (s : State) : resetsTake st s = s := by
  have hnone : resetsStaged st = [] := List.filter_eq_nil_iff.mpr fun d _ => by rw [h.isStaged_above (by decide)]; exact Bool.false_ne_true
  unfold Machine.resetsTake
  rw [hnone, h.stagedNat_above (by decide)]
  rfl

theorem TreesOnly.lastTakes (s : State) : lastTakes st s = s := by
  unfold Machine.lastTakes
  rw [h.stagedAt_above (by decide), h.stagedNat_above (by decide)]

theorem TreesOnly.not_savesImage : isStaged st 0x1F01 1 = false := by
  unfold isStaged stagedAt; rw [h.find_key (.inl (by decide))]; rfl

end

/-! ## What the apply instant leaves as it was -/

/-- What `P` reads shows nothing of the time unit, of the key unit, of the OTN side and of the parking of the fabric either. -/
structure ApplyBlind {β : Type} (P : State → β) : Prop extends RoleBlind P where
  time : ∀ s x, P { s with time := x } = P s
  keys : ∀ s x, P { s with keys := x } = P s
  otn : ∀ s x, P { s with otn := x } = P s
  parked : ∀ s x, P { s with power := { s.power with parked := x } } = P s

theorem ctl_applyBlind : ApplyBlind State.ctl where
  post e s := post_keep State.ctl (fun _ _ _ => rfl) e s
  rest _ _ := rfl
  path _ _ := rfl
  mpu _ _ := rfl
  out _ _ := rfl
  rng _ _ := rfl
  fab _ _ := rfl
  domain _ _ _ _ := rfl
  time _ _ := rfl
  keys _ _ := rfl
  otn _ _ := rfl
  parked _ _ := rfl

theorem cls_applyBlind : ApplyBlind State.cls where
  post e s := post_keep State.cls (fun _ _ _ => rfl) e s
  rest _ _ := rfl
  path _ _ := rfl
  mpu _ _ := rfl
  out _ _ := rfl
  rng _ _ := rfl
  fab _ _ := rfl
  domain _ _ _ _ := rfl
  time _ _ := rfl
  keys _ _ := rfl
  otn _ _ := rfl
  parked _ _ := rfl

theorem outlook_applyBlind : ApplyBlind outlook where
  toRoleBlind := outlook_roleBlind
  time _ _ := rfl
  keys _ _ := rfl
  otn _ _ := rfl
  parked _ _ := rfl

section
variable {st : Tab Octets} (h : TreesOnly st) {β : Type} {P : State → β} (hP : ApplyBlind P)
include h hP

theorem ApplyBlind.timeTakes {s0 s : State} (ha : AgreeOutside s0 s) : P (timeTakes s0 st s) = P s := by
  have hkeep : ∀ s x y, P { s with time := x, out := y } = P s := fun s x y => by
    rw [show ({ s with time := x, out := y } : State) = { ({ s with time := x } : State) with out := y } from rfl, hP.out, hP.time]
  rw [h.timeTakes ha, keep (P := P) fun s p => pinSettle_keep P hkeep p s, lockPins_keep P hkeep]

omit h in
theorem ApplyBlind.noticesTake (s : State) : P (noticesTake s) = P s :=
  noticesTake_keep P (fun s x y z => by
    rw [show ({ s with keys := x, otn := y, out := z } : State) = { ({ ({ s with keys := x } : State) with otn := y } : State) with out := z } from rfl,
      hP.out, hP.otn, hP.keys]) s

theorem ApplyBlind.fabricTakes (s : State) : P (fabricTakes st s) = P s := by
  rw [h.fabricTakes]
  split
  · rw [hP.settleRoles, hP.parked]
  · rfl

omit h in
theorem ApplyBlind.logConfig (s0 s : State) : P (logConfig s0 st s) = P s := by
  unfold Machine.logConfig
  refine keep (P := P) fun s q => ?_
  dsimp only
  split
  · split
    · exact hP.logEntry _ _ _ s
    · rfl
  · rfl

omit h in
theorem ApplyBlind.keysApply (k : State) (b : State) (ck : ChuckRun) (s : State) : P (keysApply { s := k, b := b, ck := ck } s) = P s := by
  unfold Machine.keysApply
  exact hP.keys _ _

end

/-- The switch leaves the dictionary. -/
theorem switchCut_ctl (st : Tab Octets) (cut : Cut × Tab (BitVec 512)) (s : State) : (switchCut st cut s).ctl = s.ctl :=
  switchCut_keep State.ctl (fun _ _ _ _ _ _ _ _ => rfl) st cut s

theorem switchCut_outlook (st : Tab Octets) (cut : Cut × Tab (BitVec 512)) (s : State) : outlook (switchCut st cut s) = outlook s := by
  have hcls : ∀ s x, outlook { s with cls := x } = outlook s := fun _ _ => rfl
  unfold switchCut
  dsimp only
  (repeat' split) <;> simp only [hcls, outlook_roleBlind.treeWrite]

/-- The live cuts after the switch to `c`. -/
def cutsSwitched (c : Cut) (l : List Cut) : List Cut :=
  (l.filter (fun x => x.number != c.number)).map (fun x => if x.state == .current then { x with state := CutState.retiring } else x) ++ [c]

theorem switchCut_cuts (st : Tab Octets) (cut : Cut × Tab (BitVec 512)) (s : State) : (switchCut st cut s).cls.cuts = cutsSwitched cut.1 s.cls.cuts := by
  unfold switchCut cutsSwitched
  dsimp only
  (repeat' split) <;> rfl

/-- The state at the apply instant of a commit with the key range carried out, before its cut is switched. -/
def atApply (s0 : State) (x : Checked) : State :=
  Machine.keysApply x.run { x.cand with ctl := { x.cand.ctl with generation := x.cand.ctl.generation + 1, applyAt := s0.time.now } }

section
variable {st : Tab Octets} (h : TreesOnly st) {s0 : State} {x : Checked} (ha : AgreeOutside s0 x.cand) {k b : State} {ck : ChuckRun}
  (hrun : x.run = { s := k, b := b, ck := ck })
include ha hrun

omit ha in
theorem ApplyBlind.atApply {β : Type} {P : State → β} (hP : ApplyBlind P) :
    P (atApply s0 x) = P { x.cand with ctl := { x.cand.ctl with generation := x.cand.ctl.generation + 1, applyAt := s0.time.now } } := by
  unfold Machine.atApply; rw [hrun, hP.keysApply]

include h

/-- Only the pins, rollovers at their notice, a parked fabric and the log follow the switch of the cut. -/
theorem TreesOnly.applyCommit_eq (cut : Cut × Tab (BitVec 512)) : applyCommit s0 st x (some cut) =
    Machine.logConfig s0 st (Machine.fabricTakes st (Machine.noticesTake (Machine.timeTakes s0 st (switchCut st cut (Machine.atApply s0 x))))) := by
  have hsw : AgreeOutside s0 (switchCut st cut (Machine.atApply s0 x)) := ha.of_ctl (by rw [switchCut_ctl, ctl_applyBlind.atApply hrun])
  have htab (f g : State → Nat → State) (s : State) : ((Machine.queueWrites s0 st).map Written.idx).dedup.foldl g
      (((Machine.tribWrites s0 st).map Written.idx).dedup.foldl f s) = s := by rw [h.tribWrites, h.queueWrites]; rfl
  unfold applyCommit
  rw [h.lastTakes, h.resetsTake, h.powerTakes, h.not_savesImage, h.restTakes, h.testsTake]
  simp only [Bool.false_eq_true, if_false]
  rw [htab]
  change Machine.logConfig s0 st (Machine.fabricTakes st (Machine.noticesTake (Machine.timeTakes s0 st (Machine.channelTakes s0 (Machine.ringsTake s0 st
    (Machine.flowTakes s0 (Machine.linksTake s0 (Machine.otnTakes s0 (Machine.shapesTake s0 (switchCut st cut (Machine.atApply s0 x)))))))))))
    = _
  rw [hsw.shapesTake, hsw.otnTakes, hsw.linksTake, hsw.flowTakes, h.ringsTake, hsw.channelTakes]

theorem ApplyBlind.applyCommit {β : Type} {P : State → β} (hP : ApplyBlind P) (cut : Cut × Tab (BitVec 512)) :
    P (applyCommit s0 st x (some cut)) = P (switchCut st cut (Machine.atApply s0 x)) := by
  have hsw : AgreeOutside s0 (switchCut st cut (Machine.atApply s0 x)) := ha.of_ctl (by rw [switchCut_ctl, ctl_applyBlind.atApply hrun])
  rw [h.applyCommit_eq ha hrun, hP.logConfig, hP.fabricTakes h, hP.noticesTake, hP.timeTakes h hsw]

theorem TreesOnly.applyCommit_ctl (cut : Cut × Tab (BitVec 512)) :
    (applyCommit s0 st x (some cut)).ctl = { x.cand.ctl with generation := x.cand.ctl.generation + 1, applyAt := s0.time.now } := by
  rw [ctl_applyBlind.applyCommit h ha hrun, switchCut_ctl, ctl_applyBlind.atApply hrun]

theorem TreesOnly.applyCommit_cuts (cut : Cut × Tab (BitVec 512)) : (applyCommit s0 st x (some cut)).cls.cuts = cutsSwitched cut.1 x.cand.cls.cuts := by
  rw [cls_applyBlind.applyCommit h ha hrun, switchCut_cuts, cls_applyBlind.atApply hrun]

theorem TreesOnly.applyCommit_outlook (cut : Cut × Tab (BitVec 512)) : outlook (applyCommit s0 st x (some cut)) = outlook x.cand := by
  rw [outlook_applyBlind.applyCommit h ha hrun, switchCut_outlook, outlook_applyBlind.atApply hrun]; rfl

end
end Sys2Proof.Machine

namespace Sys2Proof.Machine

/-! ## The end of a commit (R69, R70, R431) -/

/-- The cut switched to is the Current one. -/
theorem find_current_cutsSwitched {c : Cut} (hc : c.state = .current) (l : List Cut) : (cutsSwitched c l).find? (fun x => x.state == .current) = some c := by
  have hnone : ((l.filter (fun x => x.number != c.number)).map (fun x => if x.state == .current then { x with state := CutState.retiring } else x)).find?
      (fun x => x.state == .current) = none := by
    refine List.find?_eq_none.mpr fun y hy => ?_
    obtain ⟨x, -, rfl⟩ := List.mem_map.mp hy
    by_cases hx : x.state = .current
    · simp [hx]
    · simp [hx]
  unfold cutsSwitched
  rw [List.find?_append, hnone, List.find?_cons_of_pos (by rw [hc]; rfl)]
  rfl

/-- The cut that was Current is Retiring. -/
theorem mem_cutsSwitched {c x : Cut} {l : List Cut} (hx : x ∈ l) (hn : x.number ≠ c.number) (hs : x.state = .current) :
    ({ x with state := .retiring } : Cut) ∈ cutsSwitched c l := by
  refine List.mem_append_left _ (List.mem_map.mpr ⟨x, List.mem_filter.mpr ⟨hx, by simpa using hn⟩, ?_⟩)
  rw [hs]; rfl

/-- The result of a classification commit is all that noting it changes. -/
theorem classResult_eq (st : Tab Octets) (fails : List (Nat × Nat)) (s : State) :
    classResult st fails s = { s with cls := { s.cls with result := (classResult st fails s).cls.result } } := by
  unfold classResult
  split <;> rfl

theorem classResult_quietFrame (st : Tab Octets) (fails : List (Nat × Nat)) (s : State) : QuietFrame s (classResult st fails s) := by
  rw [classResult_eq]; exact ⟨rfl, rfl, rfl⟩

theorem classResult_passed {st : Tab Octets} (hc : classifies st = true) (s : State) : classResult st [] s = { s with cls := { s.cls with result := 0 } } := by
  unfold classResult; rw [hc]; rfl

theorem sessionsOnly_setLast (k code : Nat) (s : State) : SessionsOnly s (setLast k code s) := by
  unfold setLast
  split
  · exact sessionsOnly_updSession k _ s
  · exact .refl s

theorem SessionsOnly.cls {s t : State} (h : SessionsOnly s t) : t.cls = s.cls := by
  obtain ⟨w, rfl⟩ := h; rfl

theorem SessionsOnly.time {s t : State} (h : SessionsOnly s t) : t.time = s.time := by
  obtain ⟨w, rfl⟩ := h; rfl

theorem SessionsOnly.outlook {s t : State} (h : SessionsOnly s t) : outlook t = outlook s := by
  obtain ⟨w, rfl⟩ := h; rfl

/-- A commit whose expected generation is 0 or the present one is checked. -/
theorem endCommit_expected {j : Job} {extra : List (Nat × Nat)} {cut : Option (Cut × Tab (BitVec 512))} {s : State}
    (h : j.expected = 0 ∨ j.expected = s.ctl.generation.toNat) : endCommit j extra cut s =
      ((runCommit j.session j.staged j.chucks extra cut s).1,
        setLast j.session (runCommit j.session j.staged j.chucks extra cut s).1 (runCommit j.session j.staged j.chucks extra cut s).2) := by
  unfold endCommit
  rw [if_neg (by tauto)]

theorem runCommit_of_none {k : Nat} {st : Tab Octets} {ck : ChuckRun} {extra : List (Nat × Nat)} {s : State}
    (h : firstFailure (checkCommit k st ck extra s).fails = none) (cut : Option (Cut × Tab (BitVec 512))) :
    runCommit k st ck extra cut s = (0, classResult st [] (applyCommit s st (checkCommit k st ck extra s) cut)) := by
  unfold runCommit; dsimp only; rw [h]

theorem runCommit_of_some {k : Nat} {st : Tab Octets} {ck : ChuckRun} {extra : List (Nat × Nat)} {q : Nat × Nat} {s : State}
    (h : firstFailure (checkCommit k st ck extra s).fails = some q) (cut : Option (Cut × Tab (BitVec 512))) :
    runCommit k st ck extra cut s = (q.2, classResult st (checkCommit k st ck extra s).fails (checkCommit k st ck extra s).base) := by
  unfold runCommit; dsimp only; rw [h]

/-- Where nothing waits, the end of a commit is followed by the checkpoint alone. -/
theorem dictSettle_ended {t : State} (h : Quiet t) (k code : Nat) : dictSettle (serveQueue (t.ctl.queue.length + 1) (finish k code t)) = controlCheckpoint t := by
  obtain ⟨-, -, -, hjob, hqueue, hheld, -, -, -⟩ := id h
  have hfin : finish k code t = t := by unfold finish; rw [hheld]; rfl
  have hserve : serveQueue (t.ctl.queue.length + 1) t = t := by
    unfold serveQueue
    split
    · next heq => rw [hqueue] at heq; exact absurd heq (List.cons_ne_nil _ _).symm
    · rfl
  rw [hfin, hserve, dictSettle_quiet h]

/-- The checkpoint shows in the dictionary unit as what the controller has recorded. -/
theorem controlCheckpoint_ctl (s : State) : (controlCheckpoint s).ctl = { s.ctl with recorded := (controlCheckpoint s).ctl.recorded } := by
  unfold controlCheckpoint
  split
  · rw [controlWrite_keep State.ctl (fun _ _ _ _ _ _ _ => rfl)]
  · rfl

@[simp] theorem controlCheckpoint_cls (s : State) : (controlCheckpoint s).cls = s.cls := controlCheckpoint_keep State.cls (fun _ _ _ _ _ _ _ _ => rfl) s

@[simp] theorem controlCheckpoint_time (s : State) : (controlCheckpoint s).time = s.time := controlCheckpoint_keep State.time (fun _ _ _ _ _ _ _ _ => rfl) s

@[simp] theorem controlCheckpoint_generation (s : State) : (controlCheckpoint s).ctl.generation = s.ctl.generation := by rw [controlCheckpoint_ctl]

@[simp] theorem controlCheckpoint_job (s : State) : (controlCheckpoint s).ctl.job = s.ctl.job := by rw [controlCheckpoint_ctl]

@[simp] theorem controlCheckpoint_dict (s : State) : (controlCheckpoint s).ctl.dict = s.ctl.dict := by rw [controlCheckpoint_ctl]

/-! ### The compiler is done -/

/-- The state that a commit of classification entries leaves: applied, its result noted. -/
def cutApplied (j : Job) (cut : Cut × Tab (BitVec 512)) (s : State) : State :=
  setLast j.session 0 (classResult j.staged [] (applyCommit s j.staged (checkCommit j.session j.staged j.chucks [] s) (some cut)))

theorem exec_cutCompileComplete {j : Job} {tree : Compiled} {cut : Cut × Tab (BitVec 512)} {s : State} (hj : s.ctl.job = some j) (hw : j.waiting = false)
    (hserves : controlServes s = true) (he : j.expected = 0 ∨ j.expected = s.ctl.generation.toNat)
    (hcut : cut = newCut (jobOut s) (candidate j.session j.staged (jobOut s)) j.cut (rulesAfter (jobOut s) j.staged) tree)
    (hok : compiledOk (jobOut s) tree cut = true) (hpass : firstFailure (checkCommit j.session j.staged j.chucks [] (jobOut s)).fails = none)
    (hq : Quiet (cutApplied j cut (jobOut s))) : exec (.cutCompileComplete tree) s = .next (controlCheckpoint (cutApplied j cut (jobOut s))) := by
  have hend : endCommit j [] (some cut) (jobOut s) = (0, cutApplied j cut (jobOut s)) := by
    rw [endCommit_expected (s := jobOut s) he, runCommit_of_none hpass]; rfl
  change execCutCompileComplete tree s = _
  unfold execCutCompileComplete compileEnd
  simp only [hj, hw, hserves, Bool.not_true, Bool.or_self, Bool.false_eq_true, if_false, ← hcut, hok, if_true, hend]
  rw [dictSettle_ended hq]

section
variable {j : Job} {cut : Cut × Tab (BitVec 512)} {s : State} (h : TreesOnly j.staged)
include h

theorem cutApplied_ctl : ∃ d w, (cutApplied j cut s).ctl = { s.ctl with dict := d, generation := s.ctl.generation + 1, applyAt := s.time.now, sessions := w } := by
  obtain ⟨d, p, hc, -⟩ := h.checked_treesDiffer j.session j.chucks [] s
  obtain ⟨w, hw⟩ := sessionsOnly_setLast j.session 0 (classResult j.staged [] (applyCommit s j.staged (checkCommit j.session j.staged j.chucks [] s) (some cut)))
  refine ⟨d, w, ?_⟩
  unfold cutApplied
  rw [hw, classResult_eq]
  dsimp only
  rw [h.applyCommit_ctl (h.checked_treesDiffer _ _ _ s).agreeOutside (h.checked_run _ _ _ s), hc]

theorem cutApplied_outlook : outlook (cutApplied j cut s) = outlook s := by
  obtain ⟨d, p, hc, -⟩ := h.checked_treesDiffer j.session j.chucks [] s
  unfold cutApplied
  rw [(sessionsOnly_setLast _ _ _).outlook, classResult_eq]
  refine (h.applyCommit_outlook (h.checked_treesDiffer _ _ _ s).agreeOutside (h.checked_run _ _ _ s) cut).trans ?_
  rw [hc]
  rfl

theorem cutApplied_cuts : (cutApplied j cut s).cls.cuts = cutsSwitched cut.1 s.cls.cuts := by
  obtain ⟨d, p, hc, -⟩ := h.checked_treesDiffer j.session j.chucks [] s
  unfold cutApplied
  rw [(sessionsOnly_setLast _ _ _).cls, classResult_eq]
  refine (h.applyCommit_cuts (h.checked_treesDiffer _ _ _ s).agreeOutside (h.checked_run _ _ _ s) cut).trans ?_
  rw [hc]

theorem cutApplied_result (hne : j.staged ≠ []) : (cutApplied j cut s).cls.result = 0 := by
  unfold cutApplied
  rw [(sessionsOnly_setLast _ _ _).cls, classResult_passed (h.classifies hne)]

theorem cutApplied_quiet (hq : Quiet s) : Quiet (cutApplied j cut s) := by
  obtain ⟨d, w, hctl⟩ := cutApplied_ctl (cut := cut) (s := s) h
  exact hq.of_outlook (cutApplied_outlook h) (by rw [hctl])

end

/-- The compiler is done for a commit of classification entries whose checks pass: its cut is switched to. -/
theorem exec_cutCompileComplete_switches {j : Job} {tree : Compiled} {s : State} (hj : s.ctl.job = some j) (hw : j.waiting = false) (hq : Quiet (jobOut s))
    (he : j.expected = 0 ∨ j.expected = s.ctl.generation.toNat) (h : TreesOnly j.staged) (hne : j.staged ≠ [])
    (hnum : ∀ c ∈ (jobOut s).cls.cuts, c.number ≠ j.cut)
    (hok : compiledOk (jobOut s) tree (newCut (jobOut s) (candidate j.session j.staged (jobOut s)) j.cut (rulesAfter (jobOut s) j.staged) tree) = true)
    (hpass : Passes j.session j.staged j.chucks (jobOut s)) :
    ∃ t, exec (.cutCompileComplete tree) s = .next t ∧ t.ctl.job = none ∧ t.ctl.generation = s.ctl.generation + 1 ∧ t.currentCut = j.cut ∧ t.cls.result = 0 ∧
      (∀ c ∈ s.cls.cuts, c.state = .current → ({ c with state := .retiring } : Cut) ∈ t.cls.cuts) := by
  obtain ⟨cut, hcut⟩ : ∃ cut, cut = newCut (jobOut s) (candidate j.session j.staged (jobOut s)) j.cut (rulesAfter (jobOut s) j.staged) tree := ⟨_, rfl⟩
  have hcnum : cut.1.number = j.cut := by rw [hcut]; rfl
  have hccur : cut.1.state = .current := by rw [hcut]; rfl
  obtain ⟨d, w, hctl⟩ := cutApplied_ctl (cut := cut) (s := jobOut s) h
  have hcuts := cutApplied_cuts (cut := cut) (s := jobOut s) h
  refine ⟨_, exec_cutCompileComplete hj hw hq.2.1 he hcut (hcut ▸ hok) (h.fails_of_passes hpass) (cutApplied_quiet h hq), ?_, ?_, ?_, ?_, ?_⟩
  · rw [controlCheckpoint_job, hctl]; rfl
  · rw [controlCheckpoint_generation, hctl]; rfl
  · unfold State.currentCut
    rw [controlCheckpoint_cls, hcuts, find_current_cutsSwitched hccur]
    exact hcnum
  · rw [controlCheckpoint_cls, cutApplied_result h hne]
  · intro c hc hcur
    have hmem : c ∈ (jobOut s).cls.cuts := List.mem_filter.mpr ⟨hc, by rw [hcur]; rfl⟩
    rw [controlCheckpoint_cls, hcuts]
    exact mem_cutsSwitched hmem (hcnum ▸ hnum c hmem) hcur

/-! ### A cut retires, and a wait ends -/

/-- The lines of a Retiring cut that no walk needs are released with it, and nothing else changes where no commit waits. -/
theorem exec_cutRetired_frees {n : BitVec 8} {c : Cut} {s : State} (hc : s.cls.cuts.find? (fun x => x.number == n.toNat) = some c) (hr : c.state = .retiring)
    (hu : cutInUse s n.toNat = false) (hj : s.ctl.job = none) :
    ∃ t, exec (.cutRetired n) s = .next t ∧ t.cls.cuts = s.cls.cuts.filter (fun x => x.number != n.toNat) ∧
      ({ t with cls := { t.cls with cuts := s.cls.cuts, lines := s.cls.lines, resident := s.cls.resident } } : State) = s := by
  have hfree : cutRetire n.toNat s = freeCut n.toNat s := by
    unfold cutRetire
    have hjf : (freeCut n.toNat s).ctl.job = none := by unfold freeCut; rw [hc]; exact hj
    simp only [hc, hr, hu, hjf, bne_self_eq_false, Bool.or_self, Bool.false_eq_true, if_false]
  refine ⟨freeCut n.toNat s, congrArg Host.Outcome.next hfree, ?_, ?_⟩
  · unfold freeCut; rw [hc]
  · unfold freeCut; rw [hc]

/-- The state that a refused commit leaves: its result noted, and nothing else changed. -/
def cutRefused (j : Job) (s : State) : State :=
  setLast j.session abCut (classResult j.staged (checkCommit j.session j.staged j.chucks (cutFailure j.staged abCut) s).fails s)

theorem cutRefused_quietFrame (j : Job) (s : State) : QuietFrame s (cutRefused j s) :=
  (classResult_quietFrame _ _ s).trans (sessionsOnly_setLast _ _ _).quietFrame

theorem cutRefused_cuts (j : Job) (s : State) : (cutRefused j s).cls.cuts = s.cls.cuts := by
  unfold cutRefused
  rw [(sessionsOnly_setLast _ _ _).cls, classResult_eq]

theorem cutRefused_time (j : Job) (s : State) : (cutRefused j s).time = s.time := by
  unfold cutRefused
  rw [(sessionsOnly_setLast _ _ _).time, classResult_eq]

/-- The state in which the wait of a commit ends: 1 ms after it began, the commit out of the engine. -/
def waitedOut (j : Job) (s : State) : State := jobOut (waitCycle (j.at_ + cyclesUs 1000) s)

theorem waitedOut_ctl (j : Job) (s : State) : (waitedOut j s).ctl = { s.ctl with job := none } := by
  unfold waitedOut jobOut; dsimp only; rw [waitCycle_ctl]

theorem waitedOut_cuts (j : Job) (s : State) : (waitedOut j s).cls.cuts = s.cls.cuts.filter (fun c => c.state != .compiling) := by
  unfold waitedOut jobOut; dsimp only; rw [waitCycle_cls]

theorem waitedOut_cycles (j : Job) (s : State) : j.at_ + cyclesUs 1000 ≤ (waitedOut j s).time.cycles := by
  unfold waitedOut jobOut; exact (waitCycle_cycles _ s).1

theorem exec_cutLimitWaitExpiry {j : Job} {x : Nat} {s : State} (hj : s.ctl.job = some j) (hw : j.waiting = true) (hq : Quiet (waitedOut j s))
    (he : j.expected = 0 ∨ j.expected = s.ctl.generation.toNat) (h : TreesOnly j.staged)
    (hfail : firstFailure (checkCommit j.session j.staged j.chucks (cutFailure j.staged abCut) (waitedOut j s)).fails = some (x, abCut)) :
    exec .cutLimitWaitExpiry s = .next (controlCheckpoint (cutRefused j (waitedOut j s))) := by
  have hend : endCommit j (cutFailure j.staged abCut) none (waitedOut j s) = (abCut, cutRefused j (waitedOut j s)) := by
    rw [endCommit_expected (s := waitedOut j s) (by rw [waitedOut_ctl]; exact he), runCommit_of_some hfail]
    unfold cutRefused
    rw [show (checkCommit j.session j.staged j.chucks (cutFailure j.staged abCut) (waitedOut j s)).base = waitedOut j s from h.checked_base _ _ _ _]
  change execCutLimitWaitExpiry s = _
  unfold execCutLimitWaitExpiry cutWaitEnd
  simp only [hj, hw, Bool.not_true, Bool.false_eq_true, if_false]
  change Host.Outcome.next (dictSettle (serveQueue ((endCommit j (cutFailure j.staged abCut) none (waitedOut j s)).2.ctl.queue.length + 1)
    (finish j.session (endCommit j (cutFailure j.staged abCut) none (waitedOut j s)).1 (endCommit j (cutFailure j.staged abCut) none (waitedOut j s)).2))) = _
  rw [hend, dictSettle_ended (hq.of_frame (cutRefused_quietFrame j _))]

/-- A commit of classification entries that has waited 1 ms for a cut is refused: the generation, the values and the live cuts stay. -/
theorem exec_cutLimitWaitExpiry_refuses {j : Job} {x : Nat} {s : State} (hj : s.ctl.job = some j) (hw : j.waiting = true) (hq : Quiet (waitedOut j s))
    (he : j.expected = 0 ∨ j.expected = s.ctl.generation.toNat) (h : TreesOnly j.staged)
    (hfail : firstFailure (checkCommit j.session j.staged j.chucks (cutFailure j.staged abCut) (waitedOut j s)).fails = some (x, abCut)) :
    ∃ t, exec .cutLimitWaitExpiry s = .next t ∧ j.at_ + cyclesUs 1000 ≤ t.time.cycles ∧ t.ctl.job = none ∧ t.ctl.generation = s.ctl.generation ∧ t.ctl.dict = s.ctl.dict ∧
      t.cls.cuts = s.cls.cuts.filter (fun c => c.state != .compiling) := by
  have hctl := (cutRefused_quietFrame j (waitedOut j s)).ctl
  refine ⟨_, exec_cutLimitWaitExpiry hj hw hq he h hfail, ?_, ?_, ?_, ?_, ?_⟩
  · rw [controlCheckpoint_time, cutRefused_time]; exact waitedOut_cycles j s
  · rw [controlCheckpoint_job, hctl, waitedOut_ctl]
  · rw [controlCheckpoint_generation, hctl, waitedOut_ctl]
  · rw [controlCheckpoint_dict, hctl, waitedOut_ctl]
  · rw [controlCheckpoint_cls, cutRefused_cuts, waitedOut_cuts]

/-- Settles O6: the cut of a commit that passes is switched to whole, a cut that no walk needs is freed, and a commit that waits too long leaves all as it was. -/
theorem cutsSwitchWhole : Obligations.CutsSwitchWhole := by
  unfold Obligations.CutsSwitchWhole
  refine ⟨?switch, ?retire, ?wait⟩
  case switch =>
    intro j tree s hj hw hq he hst hne _ hnum hok hpass
    exact exec_cutCompileComplete_switches hj hw hq he hst hne hnum hok hpass
  case retire => exact fun n c s hc hr hu hj => exec_cutRetired_frees hc hr hu hj
  case wait =>
    intro j x s hj hw hq he hst _ hfail
    exact exec_cutLimitWaitExpiry_refuses hj hw hq he hst hfail

end Sys2Proof.Machine

/-! Pause frames received on a system port (R90, R301, R302): what lining a buffer up again leaves, what a PAUSE and a PFC frame
leave, and the end of a pause. -/
namespace Sys2Proof.Machine

/-! ## What a change of the data path leaves -/

/-- The second state differs from the first in the data path alone. -/
def PathOnly (s t : State) : Prop := ∃ w, t = { s with path := w }

theorem PathOnly.trans {s t u : State} (h : PathOnly s t) (g : PathOnly t u) : PathOnly s u := by
  obtain ⟨w, rfl⟩ := h; obtain ⟨v, rfl⟩ := g; exact ⟨v, rfl⟩

theorem PathOnly.restored {s t : State} (h : PathOnly s t) : ({ t with path := s.path } : State) = s := by
  obtain ⟨w, rfl⟩ := h; rfl

theorem pathOnly_updPd (p : PD) (f : PortDir → PortDir) (s : State) : PathOnly s (updPd p f s) := ⟨_, rfl⟩
theorem pathOnly_macCount (p : PD) (i n : Nat) (s : State) : PathOnly s (macCount p i n s) := ⟨_, rfl⟩
theorem pathOnly_reline (p : PD) (s : State) : PathOnly s (reline p s) := ⟨_, rfl⟩

/-- Lining a port's frames up again leaves every other port-direction. -/
theorem reline_pd_other {p q : PD} (h : q ≠ p) (s : State) : (reline p s).pd q = s.pd q := by
  obtain ⟨b, l, hr, -⟩ := reline_spec p s
  rw [hr, updPd_get, if_neg h]

/-- Of the port-direction itself it changes the buffer, in which the frames keep their order, and the end of the last frame. -/
theorem reline_pd (p : PD) (s : State) :
    (reline p s).pd p = { s.pd p with buffer := ((reline p s).pd p).buffer, lineFree := ((reline p s).pd p).lineFree } ∧
      ((reline p s).pd p).buffer.map Egr.unlined = (s.pd p).buffer.map Egr.unlined := by
  obtain ⟨b, l, hr, hb⟩ := reline_spec p s
  rw [hr, updPd_get, if_pos rfl]
  exact ⟨rfl, hb⟩

theorem s2l_ne_l2s (n : Fin 32) : (⟨n, .s2l⟩ : PD) ≠ ⟨n, .l2s⟩ := fun h => Dir.noConfusion (congrArg PD.dir h)

/-! ## PAUSE (R301) -/

theorem pauseFrame_taken {n : Fin 32} {q : Nat} {s : State} (he : ethPort s n = true) (hd : draining s n = false) :
    pauseFrame n q s = reline ⟨n, .l2s⟩ (updPd ⟨n, .l2s⟩ (fun r => { r with pausedUntil := if q = 0 then none else some (pauseEnd s n q) }) s) := by
  simp only [pauseFrame, he, hd, Bool.not_true, Bool.or_self, Bool.false_eq_true, if_false]

theorem exec_pauseReceived {n : Fin 32} {q : BitVec 16} {s : State} (he : ethPort s n = true) (hd : draining s n = false) :
    exec (.pauseReceived n q) s = .next (reline ⟨n, .l2s⟩
      (updPd ⟨n, .l2s⟩ (fun r => { r with pausedUntil := if q.toNat = 0 then none else some (pauseEnd s n q.toNat) }) (macCount ⟨n, .s2l⟩ 5 1 s))) := by
  have hend : pauseEnd (macCount ⟨n, .s2l⟩ 5 1 s) n q.toNat = pauseEnd s n q.toNat := rfl
  change execPauseReceived n q s = _
  rw [execPauseReceived, if_pos he, pauseFrame_taken (s := macCount ⟨n, .s2l⟩ 5 1 s) he hd, hend]

/-- A PAUSE frame is counted, and holds the frames toward the system until its quanta have passed. -/
theorem exec_pauseReceived_holds {n : Fin 32} {q : BitVec 16} {s : State} (he : ethPort s n = true) (hd : draining s n = false) :
    ∃ t, exec (.pauseReceived n q) s = .next t ∧ t.pd ⟨n, .s2l⟩ = { s.pd ⟨n, .s2l⟩ with mac := (s.pd ⟨n, .s2l⟩).mac.bump 5 1 } ∧
      t.pd ⟨n, .l2s⟩ = { s.pd ⟨n, .l2s⟩ with pausedUntil := if q.toNat = 0 then none else some (pauseEnd s n q.toNat), buffer := (t.pd ⟨n, .l2s⟩).buffer, lineFree := (t.pd ⟨n, .l2s⟩).lineFree } ∧
      (t.pd ⟨n, .l2s⟩).buffer.map Egr.unlined = (s.pd ⟨n, .l2s⟩).buffer.map Egr.unlined ∧
      (∀ p : PD, p ≠ ⟨n, .s2l⟩ → p ≠ ⟨n, .l2s⟩ → t.pd p = s.pd p) ∧ ({ t with path := s.path } : State) = s := by
  refine ⟨_, exec_pauseReceived he hd, ?_, ?_, ?_, ?_, ((pathOnly_macCount _ _ _ s).trans ((pathOnly_updPd _ _ _).trans (pathOnly_reline _ _))).restored⟩
  · rw [reline_pd_other (s2l_ne_l2s n), updPd_get, if_neg (s2l_ne_l2s n), macCount, updPd_get, if_pos rfl]
  · rw [(reline_pd _ _).1, updPd_get, if_pos rfl, macCount, updPd_get, if_neg (s2l_ne_l2s n).symm]
  · rw [(reline_pd _ _).2, updPd_get, if_pos rfl, macCount, updPd_get, if_neg (s2l_ne_l2s n).symm]
  · intro p hs hl
    rw [reline_pd_other hl, updPd_get, if_neg hl, macCount, updPd_get, if_neg hs]

/-! ## PFC (R301) -/

/-- The second state differs from the first in the PFC pauses of port-direction `p` alone, so far as the port-directions' records go. -/
structure PfcOnly (p : PD) (s t : State) : Prop where
  pd : t.pd p = { s.pd p with pfcUntil := (t.pd p).pfcUntil }
  others : ∀ q ≠ p, t.pd q = s.pd q
  path : PathOnly s t

theorem PfcOnly.refl (p : PD) (s : State) : PfcOnly p s s := ⟨rfl, fun _ _ => rfl, s.path, rfl⟩

theorem PfcOnly.trans {p : PD} {s t u : State} (h : PfcOnly p s t) (g : PfcOnly p t u) : PfcOnly p s u :=
  ⟨by rw [g.pd, h.pd], fun q hq => (g.others q hq).trans (h.others q hq), h.path.trans g.path⟩

theorem pfcOnly_updPd (p : PD) (f : Tab Nat → Tab Nat) (s : State) : PfcOnly p s (updPd p (fun r => { r with pfcUntil := f r.pfcUntil }) s) :=
  ⟨by rw [updPd_get, if_pos rfl], fun q hq => by rw [updPd_get, if_neg hq], _, rfl⟩

/-- What a PFC frame does to one priority. -/
def pfcPause (n : Fin 32) (enable : BitVec 8) (times : List Nat) (s : State) (k : Nat) : State :=
  if enable.getLsbD k then
    updPd ⟨n, .l2s⟩ (fun r => { r with pfcUntil := if times.getD k 0 = 0 then r.pfcUntil.drop k else r.pfcUntil.put k (pauseEnd s n (times.getD k 0)) }) s
  else s

theorem pfcFrame_taken {n : Fin 32} {enable : BitVec 8} {times : List Nat} {s : State} (he : ethPort s n = true) (hd : draining s n = false) :
    pfcFrame n enable times s = reline ⟨n, .l2s⟩ ((List.range 8).foldl (pfcPause n enable times) s) := by
  simp only [pfcFrame, he, hd, Bool.not_true, Bool.or_self, Bool.false_eq_true, if_false]
  rfl

section
variable (n : Fin 32) (enable : BitVec 8) (times : List Nat)

theorem pfcPause_only (s : State) (k : Nat) : PfcOnly ⟨n, .l2s⟩ s (pfcPause n enable times s k) := by
  unfold pfcPause
  split
  · exact pfcOnly_updPd _ (fun w => if times.getD k 0 = 0 then w.drop k else w.put k (pauseEnd s n (times.getD k 0))) s
  · exact .refl _ s

theorem pauseEnd_pfcPause (s : State) (k q : Nat) : pauseEnd (pfcPause n enable times s k) n q = pauseEnd s n q := by
  unfold pfcPause; split <;> rfl

/-- The pause of a priority is not changed by that of another, nor where the frame does not enable it. -/
theorem pfcPause_find_other {s : State} {j k : Nat} (h : k ≠ j ∨ enable.getLsbD k = false) :
    ((pfcPause n enable times s j).pd ⟨n, .l2s⟩).pfcUntil.find k = (s.pd ⟨n, .l2s⟩).pfcUntil.find k := by
  unfold pfcPause
  split
  · next hj =>
    have hk : k ≠ j := by rintro rfl; simp [hj] at h
    rw [updPd_get, if_pos rfl]
    dsimp only
    split
    · exact Tab.find_drop_other hk _
    · exact Tab.find_put_other hk _ _
  · rfl

theorem pfcPause_find_same {s : State} {k : Nat} (he : enable.getLsbD k = true) (hq : 0 < times.getD k 0) :
    ((pfcPause n enable times s k).pd ⟨n, .l2s⟩).pfcUntil.find k = some (pauseEnd s n (times.getD k 0)) := by
  rw [pfcPause, if_pos he, updPd_get, if_pos rfl]
  dsimp only
  rw [if_neg (Nat.ne_of_gt hq), Tab.find_put_same]

theorem foldl_pfcPause_only (l : List Nat) (s : State) : PfcOnly ⟨n, .l2s⟩ s (l.foldl (pfcPause n enable times) s) := by
  induction l generalizing s with
  | nil => exact .refl _ s
  | cons j l ih => exact (pfcPause_only n enable times s j).trans (ih _)

theorem foldl_pfcPause_find_other {k : Nat} {l : List Nat} (h : k ∉ l ∨ enable.getLsbD k = false) (s : State) :
    ((l.foldl (pfcPause n enable times) s).pd ⟨n, .l2s⟩).pfcUntil.find k = (s.pd ⟨n, .l2s⟩).pfcUntil.find k := by
  induction l generalizing s with
  | nil => rfl
  | cons j l ih =>
    rw [List.foldl_cons, ih (h.imp_left List.not_mem_of_not_mem_cons), pfcPause_find_other n enable times (h.imp_left List.ne_of_not_mem_cons)]

theorem foldl_pfcPause_find_mem {k : Nat} {l : List Nat} (hn : l.Nodup) (hk : k ∈ l) (he : enable.getLsbD k = true) (hq : 0 < times.getD k 0) (s : State) :
    ((l.foldl (pfcPause n enable times) s).pd ⟨n, .l2s⟩).pfcUntil.find k = some (pauseEnd s n (times.getD k 0)) := by
  induction l generalizing s with
  | nil => cases hk
  | cons j l ih =>
    obtain ⟨hj, hn⟩ := List.nodup_cons.mp hn
    rw [List.foldl_cons]
    rcases List.mem_cons.mp hk with rfl | hk
    · rw [foldl_pfcPause_find_other n enable times (.inl hj), pfcPause_find_same n enable times he hq]
    · rw [ih hn hk, pauseEnd_pfcPause]

end

theorem exec_pfcReceived {n : Fin 32} {enable : BitVec 8} {times : List (BitVec 16)} {s : State} (he : ethPort s n = true) (hd : draining s n = false) :
    exec (.pfcReceived n enable times) s =
      .next (reline ⟨n, .l2s⟩ ((List.range 8).foldl (pfcPause n enable (times.map BitVec.toNat)) (macCount ⟨n, .s2l⟩ 5 1 s))) := by
  change execPfcReceived n enable times s = _
  rw [execPfcReceived, if_pos he, pfcFrame_taken (s := macCount ⟨n, .s2l⟩ 5 1 s) he hd]

/-- A PFC frame is counted, and holds the frames of each priority it enables; the other priorities and PAUSE stay. -/
theorem exec_pfcReceived_holds {n : Fin 32} {enable : BitVec 8} {times : List (BitVec 16)} {s : State} (he : ethPort s n = true) (hd : draining s n = false) :
    ∃ t, exec (.pfcReceived n enable times) s = .next t ∧ (t.pd ⟨n, .s2l⟩).mac.get 5 0 = (s.pd ⟨n, .s2l⟩).mac.get 5 0 + 1 ∧
      (∀ k < 8, enable.getLsbD k = true → 0 < (times.map BitVec.toNat).getD k 0 →
        (t.pd ⟨n, .l2s⟩).pfcUntil.find k = some (pauseEnd s n ((times.map BitVec.toNat).getD k 0))) ∧
      (∀ k < 8, enable.getLsbD k = false → (t.pd ⟨n, .l2s⟩).pfcUntil.find k = (s.pd ⟨n, .l2s⟩).pfcUntil.find k) ∧
      (t.pd ⟨n, .l2s⟩).pausedUntil = (s.pd ⟨n, .l2s⟩).pausedUntil ∧
      (t.pd ⟨n, .l2s⟩).buffer.map Egr.unlined = (s.pd ⟨n, .l2s⟩).buffer.map Egr.unlined ∧ ({ t with path := s.path } : State) = s := by
  have honly := foldl_pfcPause_only n enable (times.map BitVec.toNat) (List.range 8) (macCount ⟨n, .s2l⟩ 5 1 s)
  have hcounted : (macCount ⟨n, .s2l⟩ 5 1 s).pd ⟨n, .l2s⟩ = s.pd ⟨n, .l2s⟩ := by rw [macCount, updPd_get, if_neg (s2l_ne_l2s n).symm]
  refine ⟨_, exec_pfcReceived he hd, ?_, ?_, ?_, ?_, ?_, ?_⟩
  · rw [reline_pd_other (s2l_ne_l2s n), honly.others _ (s2l_ne_l2s n), macCount, updPd_get, if_pos rfl]
    exact Tab.get_bump_same _ _ _
  · intro k hk hek hqk
    rw [(reline_pd _ _).1]
    exact foldl_pfcPause_find_mem n enable _ List.nodup_range (List.mem_range.mpr hk) hek hqk _
  · intro k _ hek
    rw [(reline_pd _ _).1, ← hcounted]
    exact foldl_pfcPause_find_other n enable _ (.inr hek) _
  · rw [(reline_pd _ _).1, honly.pd, hcounted]
  · rw [(reline_pd _ _).2, honly.pd, hcounted]
  · exact ((pathOnly_macCount _ _ _ s).trans (honly.path.trans (pathOnly_reline _ _))).restored

/-! ## The end of a pause (R301) -/

theorem exec_pauseTimeExpiry_pause {n : Fin 32} {c : Nat} {s : State} (h : (s.pd ⟨n, .l2s⟩).pausedUntil = some c) :
    exec (.pauseTimeExpiry n none) s = .next (updPd ⟨n, .l2s⟩ (fun r => { r with pausedUntil := none }) (waitCycle c s)) := by
  change execPauseTimeExpiry n none s = _
  simp only [execPauseTimeExpiry, h]

theorem exec_pauseTimeExpiry_pfc {n : Fin 32} {k : Fin 8} {c : Nat} {s : State} (h : (s.pd ⟨n, .l2s⟩).pfcUntil.find k = some c) :
    exec (.pauseTimeExpiry n (some k)) s = .next (updPd ⟨n, .l2s⟩ (fun r => { r with pfcUntil := r.pfcUntil.drop k }) (waitCycle c s)) := by
  change execPauseTimeExpiry n (some k) s = _
  simp only [execPauseTimeExpiry, h]

/-- Settles O3: PAUSE and PFC by the pause they set before the buffer is lined up again, an expiry by the change that the clock's running brings on. -/
theorem receivedPauseHoldsTheSystemPort : Obligations.ReceivedPauseHoldsTheSystemPort := by
  unfold Obligations.ReceivedPauseHoldsTheSystemPort
  refine ⟨?pause, ?pfc, ?pauseEnds, ?pfcEnds⟩
  case pause =>
    intro n q s he hd
    obtain ⟨t, hexec, hs2l, hl2s, hbuf, hother, hrest⟩ := exec_pauseReceived_holds (q := q) he hd
    exact ⟨t, hexec, hs2l, hl2s, hbuf, fun p hs hl => hother p (mt (congrArg PD.key) hs) (mt (congrArg PD.key) hl), hrest⟩
  case pfc => exact fun n en times s he hd => exec_pfcReceived_holds he hd
  case pauseEnds =>
    intro n c s h
    exact ⟨_, exec_pauseTimeExpiry_pause h, (waitCycle_cycles c s).1, by rw [updPd_get, if_pos rfl]; rfl⟩
  case pfcEnds =>
    intro n k c s h
    exact ⟨_, exec_pauseTimeExpiry_pfc h, (waitCycle_cycles c s).1, by rw [updPd_get, if_pos rfl]; rfl⟩

end Sys2Proof.Machine

/-! Link faults and the refresh of pause (R91, R92, R125, R299, R300): the bits of the link status, the ordered sets that a port's transmitters send
while the fault of one side is propagated, and the pause frame that is sent again. -/
namespace Sys2Proof.Machine

/-! ## The link status (R125) -/

/-- A link status with bit `i` set or cleared. -/
def statusWith (i : Nat) (on : Bool) (v : BitVec 8) : BitVec 8 := if on then v ||| ((1 : BitVec 8) <<< i) else v &&& ~~~((1 : BitVec 8) <<< i)

theorem getLsbD_statusWith {i j : Nat} (hj : j < 8) (on : Bool) (v : BitVec 8) : (statusWith i on v).getLsbD j = if j = i then on else v.getLsbD j := by
  have hbit : ((1 : BitVec 8) <<< i).getLsbD j = decide (j = i) := by
    change (BitVec.twoPow 8 i).getLsbD j = _
    rw [BitVec.getLsbD_twoPow, ← Bool.decide_and, decide_eq_decide]
    omega
  unfold statusWith
  cases on
  · simp only [Bool.false_eq_true, if_false, BitVec.getLsbD_and, BitVec.getLsbD_not, hbit, hj]
    split <;> simp [*]
  · simp only [if_true, BitVec.getLsbD_or, hbit]
    split <;> simp [*]

theorem linkBit_link (n i : Nat) (on : Bool) (s : State) (m : Nat) :
    (linkBit n i on s).link m = if m = n then { s.link n with status := statusWith i on (s.link n).status } else s.link m := updLink_get _ _ _ _

@[simp] theorem linkBit_sideFault (n i : Nat) (on : Bool) (s : State) (sd : Side) : sideFault (linkBit n i on s) n sd = sideFault s n sd := by
  cases sd <;> simp only [sideFault, linkBit_link, if_true]

@[simp] theorem linkBit_sendsLocal (n i : Nat) (on : Bool) (s : State) (sd : Side) : sendsLocal (linkBit n i on s) n sd = sendsLocal s n sd := by
  unfold sendsLocal; rw [linkBit_sideFault]; rfl

/-- The status after bits 6 and 7 have been settled. -/
theorem linkSettle_status (n : Nat) (s : State) : ((linkSettle n s).link n).status =
    statusWith 7 ((s.link n).status.getLsbD 0 && (s.link n).status.getLsbD 1 && !sideFault s n .system && !sideFault s n .line)
      (statusWith 6 (sendsLocal s n .system || sendsLocal s n .line) (s.link n).status) := by
  unfold linkSettle
  simp only [linkBit_link, if_true]
  rfl

theorem linkSettle_link_other {n m : Nat} (h : m ≠ n) (s : State) : (linkSettle n s).link m = s.link m := by
  unfold linkSettle
  simp only [linkBit_link, if_neg h]

@[simp] theorem linkSettle_sideFault (n : Nat) (s : State) (sd : Side) : sideFault (linkSettle n s) n sd = sideFault s n sd := by
  unfold linkSettle; dsimp only; rw [linkBit_sideFault, linkBit_sideFault]

/-! ## A receive fault begins or ends (R91) -/

/-- The second state differs from the first in the ports' link records alone. -/
def LinksOnly (s t : State) : Prop := ∃ w, t = { s with path := { s.path with links := w } }

theorem LinksOnly.trans {s t u : State} (h : LinksOnly s t) (g : LinksOnly t u) : LinksOnly s u := by
  obtain ⟨w, rfl⟩ := h; obtain ⟨v, rfl⟩ := g; exact ⟨v, rfl⟩

theorem linksOnly_updLink (n : Nat) (f : Link → Link) (s : State) : LinksOnly s (updLink n f s) := ⟨_, rfl⟩

theorem linksOnly_linkBit (n i : Nat) (on : Bool) (s : State) : LinksOnly s (linkBit n i on s) := linksOnly_updLink _ _ s

theorem linksOnly_linkSettle (n : Nat) (s : State) : LinksOnly s (linkSettle n s) := (linksOnly_linkBit _ _ _ s).trans (linksOnly_linkBit _ _ _ _)

theorem LinksOnly.odNat {s t : State} (h : LinksOnly s t) (idx sub : Nat) : t.odNat idx sub = s.odNat idx sub := by
  obtain ⟨w, rfl⟩ := h; rfl

/-- A link record with the receive fault of a side. -/
def Link.withFault (sd : Side) (on : Bool) (l : Link) : Link :=
  match sd with
  | .system => { l with faultSys := on }
  | .line => { l with faultLine := on }

/-- The fault of a side and its two status bits are noted. -/
def faultNoted (n : Nat) (sd : Side) (on loc : Bool) (s : State) : State :=
  linkBit n (2 + sd.num) (on && loc) (linkBit n sd.num (!on || loc) (updLink n (Link.withFault sd on) s))

section
variable (n : Nat) (sd : Side) (on loc : Bool) (s : State)

theorem receiveFault_eq : receiveFault n sd on loc s = setsChange s n (linkSettle n (faultNoted n sd on loc s)) := by cases sd <;> rfl

theorem linksOnly_faultNoted : LinksOnly s (faultNoted n sd on loc s) :=
  ((linksOnly_updLink _ _ s).trans (linksOnly_linkBit _ _ _ _)).trans (linksOnly_linkBit _ _ _ _)

theorem faultNoted_sideFault (x : Side) : sideFault (faultNoted n sd on loc s) n x = if x = sd then on else sideFault s n x := by
  unfold faultNoted
  rw [linkBit_sideFault, linkBit_sideFault]
  unfold sideFault
  rw [updLink_get, if_pos rfl]
  cases sd <;> cases x <;> rfl

theorem faultNoted_link_other {m : Nat} (h : m ≠ n) : (faultNoted n sd on loc s).link m = s.link m := by
  unfold faultNoted
  rw [linkBit_link, if_neg h, linkBit_link, if_neg h, updLink_get, if_neg h]

theorem faultNoted_status : ((faultNoted n sd on loc s).link n).status =
    statusWith (2 + sd.num) (on && loc) (statusWith sd.num (!on || loc) (s.link n).status) := by
  unfold faultNoted
  simp only [linkBit_link, updLink_get, if_true]
  cases sd <;> rfl

end

/-- What the transmitter of side `x` sends where a fault of side `sd` alone is propagated: the Remote Fault that answers it on its own side,
Local Fault on the other. -/
def faultSets (sd : Side) (on : Bool) (x : Side) : Ordered := if on then if sd = x then .remoteFault else .localFault else .none

theorem faultSets_not (sd : Side) (on : Bool) (x : Side) : faultSets sd on x ≠ faultSets sd (!on) x := by
  cases sd <;> cases on <;> cases x <;> decide

section
variable {n : Nat} {s : State} (hp : s.odNat 0x2403 (n + 1) = 1)
include hp

theorem sendsLocal_of_propagation (x : Side) : sendsLocal s n x = sideFault s n x.other := by
  unfold sendsLocal; rw [hp]; rfl

theorem setsSent_of_propagation {sd : Side} (ho : sideFault s n sd.other = false) (x : Side) : setsSent s n x = faultSets sd (sideFault s n sd) x := by
  unfold setsSent faultSets
  rw [sendsLocal_of_propagation hp]
  cases sd <;> cases x <;> simp_all [Side.other]

end

@[simp] theorem emit_link (o : Output) (s : State) (n : Nat) : (emit o s).link n = s.link n := rfl
@[simp] theorem emit_sideFault (o : Output) (s : State) (n : Nat) (sd : Side) : sideFault (emit o s) n sd = sideFault s n sd := rfl
@[simp] theorem emit_setsSent (o : Output) (s : State) (n : Nat) (sd : Side) : setsSent (emit o s) n sd = setsSent s n sd := rfl

/-- Where what both transmitters send has changed, both put it out, the line's last. -/
theorem setsChange_both {s0 s : State} {n : Nat} (h : ∀ x, setsSent s n x ≠ setsSent s0 n x) :
    setsChange s0 n s = emit (.orderedSet n .line (setsSent s n .line)) (emit (.orderedSet n .system (setsSent s n .system)) s) := by
  have hne (x : Side) : (setsSent s n x != setsSent s0 n x) = true := bne_iff_ne.mpr (h x)
  simp only [setsChange, hne, emit_setsSent, if_true]

/-- The link records that a fault of side `sd` beginning or ending leaves. -/
def faultSettled (n : Nat) (sd : Side) (on loc : Bool) (s : State) : State := linkSettle n (faultNoted n sd on loc s)

section
variable (n : Nat) (sd : Side) (on loc : Bool) (s : State)

theorem linksOnly_faultSettled : LinksOnly s (faultSettled n sd on loc s) :=
  (linksOnly_faultNoted n sd on loc s).trans (linksOnly_linkSettle _ _)

theorem faultSettled_sideFault (x : Side) : sideFault (faultSettled n sd on loc s) n x = if x = sd then on else sideFault s n x := by
  rw [faultSettled, linkSettle_sideFault, faultNoted_sideFault]

theorem faultSettled_link_other {m : Nat} (h : m ≠ n) : (faultSettled n sd on loc s).link m = s.link m := by
  rw [faultSettled, linkSettle_link_other h, faultNoted_link_other n sd on loc s h]

/-- The two bits of the side itself. -/
theorem faultSettled_status_side : ((faultSettled n sd on loc s).link n).status.getLsbD (2 + sd.num) = (on && loc) ∧
    ((faultSettled n sd on loc s).link n).status.getLsbD sd.num = (!on || loc) := by
  have hlow : sd.num < 2 := by cases sd <;> decide
  rw [faultSettled, linkSettle_status, faultNoted_status]
  constructor <;> simp (disch := omega) only [getLsbD_statusWith, if_neg, if_true]

end

section
variable {n : Nat} {sd : Side} (on loc : Bool) {s : State} (hp : s.odNat 0x2403 (n + 1) = 1) (ho : sideFault s n sd.other = false)
include hp ho

/-- Bit 6 says that a fault is propagated, and bit 7 is clear while there is one. -/
theorem faultSettled_status_settled : ((faultSettled n sd on loc s).link n).status.getLsbD 6 = on ∧
    (on = true → ((faultSettled n sd on loc s).link n).status.getLsbD 7 = false) := by
  have hp' : (faultNoted n sd on loc s).odNat 0x2403 (n + 1) = 1 := ((linksOnly_faultNoted n sd on loc s).odNat _ _).trans hp
  rw [faultSettled, linkSettle_status, sendsLocal_of_propagation hp', sendsLocal_of_propagation hp']
  simp (disch := decide) only [getLsbD_statusWith, faultNoted_sideFault]
  cases sd <;> simp_all [Side.other]

theorem faultSettled_setsSent (x : Side) : setsSent (faultSettled n sd on loc s) n x = faultSets sd on x := by
  have hp' : (faultSettled n sd on loc s).odNat 0x2403 (n + 1) = 1 := ((linksOnly_faultSettled n sd on loc s).odNat _ _).trans hp
  have hon : sideFault (faultSettled n sd on loc s) n sd = on := by rw [faultSettled_sideFault, if_pos rfl]
  have ho' : sideFault (faultSettled n sd on loc s) n sd.other = false := by
    rw [faultSettled_sideFault, if_neg (by cases sd <;> decide), ho]
  rw [setsSent_of_propagation hp' ho', hon]

/-- While the other side has no fault and propagation is on, a fault that begins or ends changes what both transmitters send (R91). -/
theorem receiveFault_propagates (hs : sideFault s n sd = !on) : receiveFault n sd on loc s =
    emit (.orderedSet n .line (faultSets sd on .line)) (emit (.orderedSet n .system (faultSets sd on .system)) (faultSettled n sd on loc s)) := by
  have hsets := faultSettled_setsSent on loc hp ho
  have hchange (x : Side) : setsSent (faultSettled n sd on loc s) n x ≠ setsSent s n x := by
    rw [hsets, setsSent_of_propagation hp ho, hs]; exact faultSets_not sd on x
  rw [receiveFault_eq]
  exact (setsChange_both hchange).trans (by rw [hsets, hsets])

end

theorem exec_linkReceiveFault (n : Fin 32) (sd : Side) (loc : Bool) (s : State) :
    exec (.linkReceiveFault n sd loc) s = .next (receiveFault n sd true loc s) := rfl

theorem exec_linkFaultCleared (n : Fin 32) (sd : Side) (s : State) : exec (.linkFaultCleared n sd) s = .next (receiveFault n sd false false s) := rfl

/-- The link records and what left the part put back, the state is the first one. -/
theorem LinksOnly.restored_emit {s t : State} (h : LinksOnly s t) (o o' : Output) :
    ({ emit o (emit o' t) with path := { (emit o (emit o' t)).path with links := s.path.links }, out := s.out } : State) = s := by
  obtain ⟨w, rfl⟩ := h; rfl

theorem LinksOnly.out {s t : State} (h : LinksOnly s t) : t.out = s.out := by obtain ⟨w, rfl⟩ := h; rfl

/-! ## Remote Fault is received (R91, R125) -/

/-- The direction whose frames leave on a side. -/
def outDir : Side → Dir
  | .system => .l2s
  | .line => .s2l

theorem exec_remoteFaultReceived (n : Fin 32) (sd : Side) (on : Bool) (s : State) :
    exec (.remoteFaultReceived n sd on) s = .next (reline ⟨n, outDir sd⟩ (linkBit n (4 + sd.num) on s)) := by cases sd <;> rfl

/-- One bit of the link status follows what is received, and the frames toward that side are lined up again. -/
theorem exec_remoteFaultReceived_notes (n : Fin 32) (sd : Side) (on : Bool) (s : State) :
    ∃ t, exec (.remoteFaultReceived n sd on) s = .next t ∧
      (∀ i < 8, (t.link n).status.getLsbD i = if i = 4 + sd.num then on else (s.link n).status.getLsbD i) ∧
      t.link n = { s.link n with status := (t.link n).status } ∧ (∀ m, m ≠ n.val → t.link m = s.link m) ∧ (∀ p : PD, p ≠ ⟨n, outDir sd⟩ → t.pd p = s.pd p) ∧
      ({ t with path := { t.path with links := s.path.links, pds := s.path.pds } } : State) = s := by
  have hlink (m : Nat) : (reline ⟨n, outDir sd⟩ (linkBit n (4 + sd.num) on s)).link m = (linkBit n (4 + sd.num) on s).link m := rfl
  refine ⟨_, exec_remoteFaultReceived n sd on s, ?_, ?_, ?_, ?_, rfl⟩
  · intro i hi
    rw [hlink, linkBit_link, if_pos rfl]
    exact getLsbD_statusWith hi on _
  · rw [hlink, linkBit_link, if_pos rfl]
  · intro m hm
    rw [hlink, linkBit_link, if_neg hm]
  · intro p hp
    exact reline_pd_other hp _

/-! ## The refresh of pause (R299, R300) -/

/-- The port-direction's refresh, due at `c`, is due again half a pause time later. -/
def refreshAgain (n : Fin 32) (c : Nat) (s : State) : State :=
  updPd ⟨n, .s2l⟩ (fun r => { r with refreshAt := some ((waitCycle c s).time.cycles + halfPause s n) }) (waitCycle c s)

theorem exec_pauseRefresh {n : Fin 32} {c : Nat} {s : State} (h : (s.pd ⟨n, .s2l⟩).refreshAt = some c) :
    exec (.pauseRefresh n) s = .next (
      if s.odNat 0x3804 (n + 1) ≠ 1 ∧ s.odNat 0x3804 (n + 1) ≠ 2 then updPd ⟨n, .s2l⟩ (fun r => { r with xoff := false, xoffPfc := 0, refreshAt := none }) (refreshAgain n c s)
      else if draining s n then refreshAgain n c s
      else if (s.pd ⟨n, .s2l⟩).xoff then sendPause n (pauseOctets s n 1 (s.odNat 0x3807 (n + 1)) []) (refreshAgain n c s)
      else if (s.pd ⟨n, .s2l⟩).xoffPfc ≠ 0 then sendPause n (pfcOctets s n (s.pd ⟨n, .s2l⟩).xoffPfc (s.pd ⟨n, .s2l⟩).xoffPfc) (refreshAgain n c s)
      else updPd ⟨n, .s2l⟩ (fun r => { r with refreshAt := none }) (refreshAgain n c s)) := by
  change execPauseRefresh n s = _
  unfold execPauseRefresh
  dsimp only
  rw [h]
  rfl

/-- Where no timed frame holds the line, a pause frame is sent at once. -/
theorem sendPause_out {n : Fin 32} {s : State} (h : (s.pd ⟨n, .l2s⟩).launchList = []) (d : Octets) : (sendPause n d s).out = .pause n d :: s.out := by
  have hclear : boundary s ⟨n, .l2s⟩ = none := by unfold boundary nextLaunch; rw [h]; rfl
  unfold sendPause
  dsimp only
  rw [hclear, Option.all_none, if_pos rfl]
  rfl

theorem sendPause_time (n : Fin 32) (d : Octets) (s : State) : (sendPause n d s).time = s.time := by
  unfold sendPause; dsimp only; split <;> rfl

/-- While XOFF is in force the refresh sends the PAUSE frame again. -/
theorem exec_pauseRefresh_xoff {n : Fin 32} {c : Nat} {s : State} (h : (s.pd ⟨n, .s2l⟩).refreshAt = some c) (hx : (s.pd ⟨n, .s2l⟩).xoff = true)
    (hm : s.odNat 0x3804 (n + 1) = 1 ∨ s.odNat 0x3804 (n + 1) = 2) (hd : draining s n = false) :
    exec (.pauseRefresh n) s = .next (sendPause n (pauseOctets s n 1 (s.odNat 0x3807 (n + 1)) []) (refreshAgain n c s)) := by
  rw [exec_pauseRefresh h, if_neg (by omega), hd, hx]
  rfl

theorem exec_pauseRefresh_off {n : Fin 32} {c : Nat} {s : State} (h : (s.pd ⟨n, .s2l⟩).refreshAt = some c)
    (h1 : s.odNat 0x3804 (n + 1) ≠ 1) (h2 : s.odNat 0x3804 (n + 1) ≠ 2) :
    exec (.pauseRefresh n) s = .next (updPd ⟨n, .s2l⟩ (fun r => { r with xoff := false, xoffPfc := 0, refreshAt := none }) (refreshAgain n c s)) := by
  rw [exec_pauseRefresh h, if_pos ⟨h1, h2⟩]

/-! ## The statement -/

/-- Settles O4: a fault by what both transmitters then send, Remote Fault by its bit, and the refresh by whether pause toward the system is on. -/
theorem linkFaultsPropagate : Obligations.LinkFaultsPropagate := by
  unfold Obligations.LinkFaultsPropagate
  refine ⟨?fault, ?cleared, ?remote, ?refresh, ?off⟩
  case fault =>
    intro n sd loc s hp hsys hline
    have hnone (x : Side) : sideFault s n x = false := by cases x <;> assumption
    have hbits := faultSettled_status_side n sd true loc s
    have hsettled := faultSettled_status_settled true loc hp (hnone sd.other)
    refine ⟨_, (exec_linkReceiveFault n sd loc s).trans (congrArg _ (receiveFault_propagates true loc hp (hnone _) (hnone _))), ?_⟩
    simp only [emit_sideFault, emit_link, emit_out, (linksOnly_faultSettled n sd true loc s).out]
    refine ⟨?_, ?_, hbits.1, hbits.2, hsettled.1, hsettled.2 rfl, ?_, fun m hm => faultSettled_link_other n sd true loc s hm,
      (linksOnly_faultSettled n sd true loc s).restored_emit _ _⟩
    · rw [faultSettled_sideFault, if_pos rfl]
    · rw [faultSettled_sideFault, if_neg (by cases sd <;> decide), hnone]
    · simp only [faultSets, if_true]
  case cleared =>
    intro n sd s hp hs ho
    have hbits := faultSettled_status_side n sd false false s
    have hsettled := faultSettled_status_settled false false hp ho
    have hnone (x : Side) : sideFault (faultSettled n sd false false s) n x = false := by
      rw [faultSettled_sideFault]
      cases sd <;> cases x <;> simp_all [Side.other]
    refine ⟨_, (exec_linkFaultCleared n sd s).trans (congrArg _ (receiveFault_propagates false false hp ho hs)), ?_⟩
    simp only [emit_link, emit_out, (linksOnly_faultSettled n sd false false s).out]
    exact ⟨hnone .system, hnone .line, hbits.1, hsettled.1, rfl, fun m hm => faultSettled_link_other n sd false false s hm,
      (linksOnly_faultSettled n sd false false s).restored_emit _ _⟩
  case remote =>
    intro n sd on s
    obtain ⟨t, hexec, hbits, hlink, hlinks, hpds, hrest⟩ := exec_remoteFaultReceived_notes n sd on s
    exact ⟨t, hexec, hbits, hlink, hlinks, fun p hp => hpds p (mt (congrArg PD.key) (by cases sd <;> exact hp)), hrest⟩
  case refresh =>
    intro n c s h hx hm hd hl
    have hl' : ((refreshAgain n c s).pd ⟨n, .l2s⟩).launchList = [] := by rw [refreshAgain, updPd_get, if_neg (s2l_ne_l2s n).symm]; exact hl
    refine ⟨_, exec_pauseRefresh_xoff h hx hm hd, ?_, ?_, ?_, sendPause_out hl' _⟩
    · rw [sendPause_time]; exact (waitCycle_cycles c s).1
    · rw [sendPause_time, (sendPause_keeps n _ _).1, refreshAgain, updPd_get, if_pos rfl]; rfl
    · rw [(sendPause_keeps n _ _).1, refreshAgain, updPd_get, if_pos rfl]; exact hx
  case off =>
    intro n c s h h1 h2
    refine ⟨_, exec_pauseRefresh_off h h1 h2, ?_, ?_, ?_, rfl⟩ <;> rw [updPd_get, if_pos rfl]

end Sys2Proof.Machine

/-! Performance monitoring (R122, R165 to R167, R172): what a change of every entity leaves, what a second does to the bins of one entity, and the
end and completion of bins. -/
namespace Sys2Proof.Machine

/-! ## Changing the records of all entities -/

@[simp] theorem updPm_pmEnt (e j : Nat) (f : PmEnt → PmEnt) (s : State) : (updPm e f s).pmEnt j = if j = e then f (s.pmEnt e) else s.pmEnt j :=
  Tab.get_upd _ _ _ _ _ _

/-- Changing the entities of a list one after another changes each of them once. `P` is what the changes keep and each of them may rest on. -/
theorem foldl_pmEnt {P : State → Prop} {one : State → Nat → State} {g : Nat → PmEnt → PmEnt} (hP : ∀ s e, P s → P (one s e))
    (hone : ∀ s e j, P s → (one s e).pmEnt j = if j = e then g e (s.pmEnt e) else s.pmEnt j) {l : List Nat} (hl : l.Nodup) {s : State} (hs : P s) :
    P (l.foldl one s) ∧ ∀ e, (l.foldl one s).pmEnt e = if e ∈ l then g e (s.pmEnt e) else s.pmEnt e := by
  induction l generalizing s with
  | nil => exact ⟨hs, fun e => (if_neg List.not_mem_nil).symm⟩
  | cons j l ih =>
    obtain ⟨hj, hl⟩ := List.nodup_cons.mp hl
    obtain ⟨hkept, hents⟩ := ih hl (hP s j hs)
    refine ⟨hkept, fun e => ?_⟩
    rw [List.foldl_cons, hents, hone s j e hs]
    by_cases he : e = j
    · subst he; simp [hj]
    · simp [he]

/-- Of the entities that are monitored each is changed once. -/
theorem foldl_range_pmEnt {P : State → Prop} {one : State → Nat → State} {g : Nat → PmEnt → PmEnt} (hP : ∀ s e, P s → P (one s e))
    (hone : ∀ s e j, P s → (one s e).pmEnt j = if j = e then g e (s.pmEnt e) else s.pmEnt j) {s : State} (hs : P s) :
    P ((List.range 544).foldl one s) ∧ ∀ e < 544, ((List.range 544).foldl one s).pmEnt e = g e (s.pmEnt e) := by
  obtain ⟨hkept, hents⟩ := foldl_pmEnt hP hone List.nodup_range hs
  exact ⟨hkept, fun e he => (hents e).trans (if_pos (List.mem_range.mpr he))⟩

/-- The second state differs from the first in the records of the monitored entities alone. -/
def PmOnly (s t : State) : Prop := ∃ w, t = { s with otn := { s.otn with pm := w } }

theorem PmOnly.refl (s : State) : PmOnly s s := ⟨s.otn.pm, rfl⟩

theorem PmOnly.updPm {s t : State} (h : PmOnly s t) (e : Nat) (f : PmEnt → PmEnt) : PmOnly s (updPm e f t) := by
  obtain ⟨w, rfl⟩ := h; exact ⟨_, rfl⟩

section
variable {s t : State} (h : PmOnly s t)
include h

theorem PmOnly.entityOn (e : Nat) : entityOn t e = entityOn s e := by obtain ⟨w, rfl⟩ := h; rfl
theorem PmOnly.seenOf (e : Nat) : seenOf t e = seenOf s e := by obtain ⟨w, rfl⟩ := h; rfl
theorem PmOnly.fec : t.otn.fec = s.otn.fec := by obtain ⟨w, rfl⟩ := h; rfl
theorem PmOnly.path : t.path = s.path := by obtain ⟨w, rfl⟩ := h; rfl

end

/-! ## Bins (R165, R166) -/

/-- What `P` reads of the current bins is the same in both records. -/
def SameCurrent {β : Type} (P : Bin → β) (x y : PmEnt) : Prop := P y.cur15 = P x.cur15 ∧ P y.cur24 = P x.cur24

section
variable {β : Type} {P : Bin → β}

theorem SameCurrent.trans {x y z : PmEnt} (h : SameCurrent P x y) (g : SameCurrent P y z) : SameCurrent P x z :=
  ⟨g.1.trans h.1, g.2.trans h.2⟩

theorem inBins_sameCurrent {f : Bin → Bin} (hf : ∀ b, P (f b) = P b) (sec : Nat) (x : PmEnt) : SameCurrent P x (inBins sec f x) := by
  unfold SameCurrent inBins
  dsimp only
  (repeat' split) <;> simp only [hf, and_self]

theorem foldl_inBins_sameCurrent {f : SecRec → Bin → Bin} (hf : ∀ q b, P (f q b) = P b) (l : List SecRec) (x : PmEnt) :
    SameCurrent P x (l.foldl (fun x q => inBins q.second (f q) x) x) := by
  induction l generalizing x with
  | nil => exact ⟨rfl, rfl⟩
  | cons q l ih => exact (inBins_sameCurrent (hf q) q.second x).trans (ih _)

/-- A second of one end leaves what counting seconds, available and unavailable, leaves. -/
theorem availability_sameCurrent {count : Bool → SecRec → Bin → Bin} {uas : Bool → Bin → Bin}
    (hc : ∀ a q b, P (count a q b) = P b) (hu : ∀ a b, P (uas a b) = P b) (unavail : Bool) (run : List SecRec) (q : SecRec) (x : PmEnt) :
    SameCurrent P x (availability count uas unavail run q x).1 := by
  unfold availability
  dsimp only
  split
  · have hnow := inBins_sameCurrent (hu true) q.second x
    (repeat' split)
    · exact hnow
    · exact hnow
    · exact hnow.trans (foldl_inBins_sameCurrent (f := fun q b => count true q (uas false b)) (fun q b => (hc _ q _).trans (hu _ b)) _ _)
  · have hnow := inBins_sameCurrent (hc true q) q.second x
    (repeat' split)
    · exact hnow
    · exact hnow
    · exact hnow.trans (foldl_inBins_sameCurrent (f := fun q b => uas true (count false q b)) (fun q b => (hu _ _).trans (hc _ q b)) _ _)

end

theorem inBins_cur15 {sec : Nat} {f : Bin → Bin} {x : PmEnt} (h : x.cur15.start ≤ sec) : (inBins sec f x).cur15 = f x.cur15 := by
  unfold inBins
  rw [if_pos h]
  dsimp only
  split <;> rfl

theorem inBins_unavail (sec : Nat) (f : Bin → Bin) (x : PmEnt) : (inBins sec f x).unavail = x.unavail ∧ (inBins sec f x).funavail = x.funavail := by
  unfold inBins
  dsimp only
  (repeat' split) <;> exact ⟨rfl, rfl⟩

/-- An available second that is not severely errored is counted, and the end stays available with no run. -/
theorem availability_counts {count : Bool → SecRec → Bin → Bin} {uas : Bool → Bin → Bin} {unavail : Bool} {run : List SecRec} {q : SecRec} {x : PmEnt}
    (hu : unavail = false) (hq : q.ses = false) : availability count uas unavail run q x = (inBins q.second (count true q) x, false, []) := by
  unfold availability
  simp only [hu, hq, Bool.not_false, Bool.false_eq_true, if_false, if_true]

/-! ## One second of an entity (R165, R166) -/

/-- What a second does at the near end. -/
def nearStage (sec : Nat) (w : Seen) (o : SecObs) (x : PmEnt) : PmEnt :=
  { (availability nearSecond nearUas x.unavail x.run (nearRec sec w o) x).1 with
    unavail := (availability nearSecond nearUas x.unavail x.run (nearRec sec w o) x).2.1
    run := (availability nearSecond nearUas x.unavail x.run (nearRec sec w o) x).2.2 }

/-- What it does at the far end. -/
def farStage (sec : Nat) (w : Seen) (o : SecObs) (x : PmEnt) : PmEnt :=
  { (availability farSecond farUas x.funavail x.frun (farRec sec w o) x).1 with
    funavail := (availability farSecond farUas x.funavail x.frun (farRec sec w o) x).2.1
    frun := (availability farSecond farUas x.funavail x.frun (farRec sec w o) x).2.2 }

/-- On the line side of a tributary it counts the failed blocks. -/
def failedStage (sec : Nat) (w : Seen) (o : SecObs) (x : PmEnt) : PmEnt :=
  if 32 ≤ o.entity ∧ o.entity % 2 = 1 then inBins sec (fun b => { b with failed := b.failed + w.secFailed }) x else x

theorem pmSecond_eq (sec : Nat) (w : Seen) (o : SecObs) (x : PmEnt) :
    pmSecond sec w o x = failedStage sec w o (farStage sec w o (nearStage sec w o x)) := rfl

section
variable {sec : Nat} {w : Seen} {o : SecObs} {x : PmEnt}

theorem failedStage_sameCurrent {β : Type} {P : Bin → β} (hP : ∀ b v, P { b with failed := v } = P b) : SameCurrent P x (failedStage sec w o x) := by
  unfold failedStage
  split
  · exact inBins_sameCurrent (fun b => hP b _) sec x
  · exact ⟨rfl, rfl⟩

theorem failedStage_unavail : (failedStage sec w o x).unavail = x.unavail := by
  unfold failedStage
  split
  · exact (inBins_unavail _ _ _).1
  · rfl

theorem nearStage_suspect : SameCurrent Bin.suspect x (nearStage sec w o x) :=
  availability_sameCurrent (count := nearSecond) (uas := nearUas) (fun _ _ _ => rfl) (fun _ _ => rfl) _ _ _ x

theorem farStage_suspect : SameCurrent Bin.suspect x (farStage sec w o x) :=
  availability_sameCurrent (count := farSecond) (uas := farUas) (fun _ _ _ => rfl) (fun _ _ => rfl) _ _ _ x

/-- The current bins keep the mark of suspicion through a second. -/
theorem pmSecond_suspect : SameCurrent Bin.suspect x (pmSecond sec w o x) :=
  nearStage_suspect.trans (farStage_suspect.trans (failedStage_sameCurrent (fun _ _ => rfl)))

/-- The far end's counts are not those of the near end. -/
theorem farStage_nearCounts : SameCurrent (fun b => (b.es, b.bbe)) x (farStage sec w o x) :=
  availability_sameCurrent (P := fun b => (b.es, b.bbe)) (count := farSecond) (uas := farUas) (fun _ _ _ => rfl) (fun _ _ => rfl) _ _ _ x

theorem nearStage_counts (hu : x.unavail = false) (hq : (nearRec sec w o).ses = false) :
    nearStage sec w o x = { inBins sec (nearSecond true (nearRec sec w o)) x with unavail := false, run := [] } := by
  unfold nearStage
  rw [availability_counts hu hq]
  rfl

theorem farStage_counts (hu : x.funavail = false) (hq : (farRec sec w o).ses = false) :
    farStage sec w o x = { inBins sec (farSecond true (farRec sec w o)) x with funavail := false, frun := [] } := by
  unfold farStage
  rw [availability_counts hu hq]
  rfl

/-- A second of an available near end that is not severely errored counts into the current 15-minute bin that holds it (R165). -/
theorem nearStage_cur15 (hu : x.unavail = false) (hq : (nearRec sec w o).ses = false) (hc : x.cur15.start ≤ sec) :
    (nearStage sec w o x).cur15.es = x.cur15.es + (if 0 < o.errored ∨ w.near = true then 1 else 0) ∧
      (nearStage sec w o x).cur15.bbe = x.cur15.bbe + o.errored := by
  have hbbe : (nearRec sec w o).bbe = o.errored := if_neg (Bool.eq_false_iff.mp hq)
  rw [nearStage_counts hu hq]
  dsimp only
  rw [inBins_cur15 hc]
  constructor
  · simp only [nearSecond, nearRec, if_true, Bool.or_eq_true, decide_eq_true_eq]
    split <;> rfl
  · simp only [nearSecond, hbbe, if_true]

theorem pmSecond_counts (hu : x.unavail = false) (hq : (nearRec sec w o).ses = false) (hc : x.cur15.start ≤ sec) (hfu : x.funavail = false)
    (hfq : (farRec sec w o).ses = false) :
    (pmSecond sec w o x).cur15.es = x.cur15.es + (if 0 < o.errored ∨ w.near = true then 1 else 0) ∧
      (pmSecond sec w o x).cur15.bbe = x.cur15.bbe + o.errored ∧ (pmSecond sec w o x).unavail = false := by
  have hlater : SameCurrent (fun b => (b.es, b.bbe)) (nearStage sec w o x) (pmSecond sec w o x) :=
    farStage_nearCounts.trans (failedStage_sameCurrent (fun _ _ => rfl))
  have hcount := Prod.mk.inj hlater.1
  have hnear := nearStage_cur15 hu hq hc
  have hfu' : (nearStage sec w o x).funavail = false := by rw [nearStage_counts hu hq]; exact (inBins_unavail _ _ _).2.trans hfu
  refine ⟨hcount.1.trans hnear.1, hcount.2.trans hnear.2, ?_⟩
  rw [pmSecond_eq, failedStage_unavail, farStage_counts hfu' hfq]
  refine (inBins_unavail _ _ _).1.trans ?_
  rw [nearStage_counts hu hq]

end

/-! ## A second of every entity (R165 to R167) -/

theorem suspectAll_marks (s : State) :
    PmOnly s (suspectAll s) ∧ ∀ e < 544, (suspectAll s).pmEnt e = markBins (fun b => { b with suspect := true }) (s.pmEnt e) :=
  foldl_range_pmEnt (P := PmOnly s) (g := fun _ => markBins (fun b => { b with suspect := true })) (fun _ e h => h.updPm e _)
    (fun _ _ _ _ => updPm_pmEnt _ _ _ _) (.refl s)

/-- The marks of suspicion that a second sets where the time unit is not set (R167). -/
def suspected (s : State) : State := if s.time.isSet then s else suspectAll s

theorem suspected_only (s : State) : PmOnly s (suspected s) := by
  unfold suspected
  split
  · exact .refl s
  · exact (suspectAll_marks s).1

theorem suspected_pmEnt {e : Nat} (he : e < 544) (s : State) :
    (suspected s).pmEnt e = if s.time.isSet then s.pmEnt e else markBins (fun b => { b with suspect := true }) (s.pmEnt e) := by
  unfold suspected
  split
  · rfl
  · exact (suspectAll_marks s).2 e he

/-- What a second does to the record of entity `e`, as the state `s` shows it. -/
def secondOf (obs : SecondObs) (sec : Nat) (s : State) (e : Nat) (x : PmEnt) : PmEnt :=
  if entityOn s e then pmSecond sec (seenOf s e) (blocksOf obs e) x else markBins (fun b => { b with unconf := true }) x

/-- A second does so to every entity, once it has counted and set the marks of suspicion. -/
theorem pmTick_spec (obs : SecondObs) (s : State) : ∃ t, pmTick obs s = seenReset t ∧ PmOnly (secondCounts obs s) t ∧
    ∀ e < 544, t.pmEnt e = secondOf obs (s.time.secs - 1) (secondCounts obs s) e ((suspected (secondCounts obs s)).pmEnt e) := by
  refine ⟨_, rfl, ?_⟩
  refine foldl_range_pmEnt (P := PmOnly (secondCounts obs s)) (g := secondOf obs (s.time.secs - 1) (secondCounts obs s)) ?_ ?_ (suspected_only _)
  · intro t e h
    split
    · exact h.updPm e _
    · exact h.updPm e _
  · intro t e j h
    unfold secondOf
    rw [h.entityOn, h.seenOf]
    split
    · exact updPm_pmEnt _ _ _ _
    · exact updPm_pmEnt _ _ _ _

@[simp] theorem seenReset_pmEnt (s : State) (e : Nat) : (seenReset s).pmEnt e = s.pmEnt e := rfl

theorem pmTick_pmEnt (obs : SecondObs) (s : State) {e : Nat} (he : e < 544) :
    (pmTick obs s).pmEnt e = secondOf obs (s.time.secs - 1) (secondCounts obs s) e ((suspected (secondCounts obs s)).pmEnt e) := by
  obtain ⟨t, ht, -, hents⟩ := pmTick_spec obs s
  rw [ht, seenReset_pmEnt, hents e he]

theorem pmTick_fec (obs : SecondObs) (s : State) : (pmTick obs s).otn.fec = (secondCounts obs s).otn.fec := by
  obtain ⟨t, ht, honly, -⟩ := pmTick_spec obs s
  rw [ht, ← honly.fec]
  rfl

theorem pmTick_path (obs : SecondObs) (s : State) : (pmTick obs s).path = (secondCounts obs s).path := by
  obtain ⟨t, ht, honly, -⟩ := pmTick_spec obs s
  rw [ht, ← honly.path]
  rfl

theorem exec_pmSecondTick (obs : SecondObs) (s : State) : exec (.pmSecondTick obs) s = .next (pmTick obs s) := rfl

/-- A second of one entity, of which alone blocks were reported. -/
theorem pmTick_counts {o : SecObs} {s : State} (he : o.entity < 544) (hon : entityOn s o.entity = true) (hu : (s.pmEnt o.entity).unavail = false)
    (hq : (nearRec (s.time.secs - 1) (seenOf s o.entity) o).ses = false) (hc : (s.pmEnt o.entity).cur15.start ≤ s.time.secs - 1)
    (hfu : (s.pmEnt o.entity).funavail = false) (hfq : (farRec (s.time.secs - 1) (seenOf s o.entity) o).ses = false) :
    ((pmTick { entities := [o] } s).pmEnt o.entity).cur15.es = (s.pmEnt o.entity).cur15.es + (if 0 < o.errored ∨ (seenOf s o.entity).near = true then 1 else 0) ∧
      ((pmTick { entities := [o] } s).pmEnt o.entity).cur15.bbe = (s.pmEnt o.entity).cur15.bbe + o.errored ∧
      ((pmTick { entities := [o] } s).pmEnt o.entity).unavail = false := by
  have hcounts : secondCounts { entities := [o] } s = s := rfl
  have hblocks : blocksOf { entities := [o] } o.entity = o := by
    simp only [blocksOf, List.find?_cons, beq_self_eq_true, Option.getD_some]
  rw [pmTick_pmEnt _ _ he, hcounts, secondOf, if_pos hon, hblocks, suspected_pmEnt he]
  split
  · exact pmSecond_counts hu hq hc hfu hfq
  · exact pmSecond_counts (x := markBins (fun b => { b with suspect := true }) (s.pmEnt o.entity)) hu hq hc hfu hfq

/-- The counters of an OTN lane (R172). -/
theorem secondCounts_lane {l : LaneObs} {s : State} (h : 0 < otnShape s l.pair) : (secondCounts { lanes := [l] } s).otn.fec =
    ((s.otn.fec.bump (24 * l.pair.val + 3 * l.lane.val) l.corrected).bump (24 * l.pair.val + 3 * l.lane.val + 1) l.uncorrectable).bump
      (24 * l.pair.val + 3 * l.lane.val + 2) l.symbols := by
  have hlanes : [l].filter (fun o => decide (0 < otnShape s o.pair)) = [l] := List.filter_cons_of_pos (p := fun o : LaneObs => decide (0 < otnShape s o.pair)) (decide_eq_true h)
  unfold secondCounts
  dsimp only
  rw [hlanes]
  rfl

/-- The FEC counters of an Ethernet port (R122). -/
theorem secondCounts_port {p : PD} {m n : Nat} {s : State} (h : ethPort s p.port = true) :
    (secondCounts { ports := [(p, m, n)] } s).pd p = { s.pd p with mac := ((s.pd p).mac.bump 10 m).bump 11 n } := by
  have hports : [(p, m, n)].filter (fun q => ethPort s q.1.port) = [(p, m, n)] := List.filter_cons_of_pos (p := fun q : PD × Nat × Nat => ethPort s q.1.port) h
  have hcounted : (secondCounts { ports := [(p, m, n)] } s).pd p = (macCount p 11 n (macCount p 10 m s)).pd p := by
    unfold secondCounts
    dsimp only [List.filter_nil, List.foldl_nil]
    rw [hports]
    rfl
  rw [hcounted, macCount, updPd_get, if_pos rfl, macCount, updPd_get, if_pos rfl]

/-- Without observations a second marks the current bins of every entity that is not configured, and all of them while the time unit is not set. -/
theorem pmTick_marks (s : State) {e : Nat} (he : e < 544) :
    (entityOn s e = false → ((pmTick {} s).pmEnt e).cur15.unconf = true ∧ ((pmTick {} s).pmEnt e).cur24.unconf = true) ∧
      (s.time.isSet = false → ((pmTick {} s).pmEnt e).cur15.suspect = true ∧ ((pmTick {} s).pmEnt e).cur24.suspect = true) := by
  have hcounts : secondCounts {} s = s := rfl
  rw [pmTick_pmEnt _ _ he, hcounts, secondOf]
  constructor
  · intro hon
    rw [if_neg (Bool.eq_false_iff.mp hon)]
    exact ⟨rfl, rfl⟩
  · intro hset
    rw [suspected_pmEnt he, if_neg (Bool.eq_false_iff.mp hset)]
    split
    · exact pmSecond_suspect
    · exact ⟨rfl, rfl⟩

/-! ## Bins end and become complete (R167) -/

theorem post_pmEnt (v : Event) (s : State) (e : Nat) : (post v s).pmEnt e = s.pmEnt e :=
  post_keep (fun s => s.pmEnt e) (fun _ _ _ => rfl) v s

theorem post_time (v : Event) (s : State) : (post v s).time = s.time := post_keep State.time (fun _ _ _ => rfl) v s

@[simp] theorem waitTime_pmEnt (c : Nat) (s : State) (e : Nat) : (waitTime c s).pmEnt e = s.pmEnt e := by unfold State.pmEnt; rw [waitTime_otn]

/-- The record of an entity whose current bin ends. -/
def binEnded (day : Bool) (start : Nat) (x : PmEnt) : PmEnt :=
  if day then { x with prev24 := x.cur24, cur24 := { start := start } } else { x with prev15 := (x.cur15 :: x.prev15).take 32, cur15 := { start := start } }

/-- The length of a bin in seconds. -/
def binLength (day : Bool) : Nat := if day then 86400 else 900

/-- The clock has run to the end of the current bin. -/
def atBinEnd (day : Bool) (s : State) : State :=
  if (if day then (s.pmEnt 0).cur24.start else (s.pmEnt 0).cur15.start) < s.time.secs / binLength day * binLength day then s
  else waitTime ((s.time.secs / binLength day + 1) * binLength day * 10 ^ 9 * 65536) s

theorem atBinEnd_pmEnt (day : Bool) (s : State) (e : Nat) : (atBinEnd day s).pmEnt e = s.pmEnt e := by
  rw [atBinEnd, apply_ite (fun u => State.pmEnt u e), waitTime_pmEnt, ite_self]

/-- The thresholds `c` that a bin of entity `e` has reached are posted. -/
def postCrossings (day : Bool) (e c : Nat) (s : State) : State := if c = 0 then s else post { type := 0x2802, source := e, a := c, c := bit day } s

theorem postCrossings_pmEnt (day : Bool) (e c : Nat) (s : State) (j : Nat) : (postCrossings day e c s).pmEnt j = s.pmEnt j := by
  unfold postCrossings
  split
  · rfl
  · exact post_pmEnt _ s j

theorem postCrossings_time (day : Bool) (e c : Nat) (s : State) : (postCrossings day e c s).time = s.time := by
  unfold postCrossings
  split
  · rfl
  · exact post_time _ s

/-- The current bin of entity `e` ends: the thresholds of `th` it has reached are posted, and the next one starts at `start`. -/
def endBin (day : Bool) (th : Octets) (start : Nat) (s : State) (e : Nat) : State :=
  updPm e (binEnded day start) (postCrossings day e (crossings th (if day then (s.pmEnt e).cur24 else (s.pmEnt e).cur15)) s)

theorem pmBinEnd_eq (day : Bool) (s : State) : pmBinEnd day s = (List.range 544).foldl
    (endBin day ((atBinEnd day s).od 0x7120 (if day then 2 else 1)) ((atBinEnd day s).time.secs / binLength day * binLength day)) (atBinEnd day s) := by
  unfold pmBinEnd atBinEnd endBin postCrossings binEnded binLength
  rfl

theorem endBin_time (day : Bool) (th : Octets) (start : Nat) (s : State) (e : Nat) : (endBin day th start s e).time = s.time := by
  unfold endBin
  rw [updPm_keep State.time (fun _ _ => rfl), postCrossings_time]

theorem endBin_pmEnt (day : Bool) (th : Octets) (start : Nat) (s : State) (e j : Nat) :
    (endBin day th start s e).pmEnt j = if j = e then binEnded day start (s.pmEnt e) else s.pmEnt j := by
  rw [endBin, updPm_pmEnt, postCrossings_pmEnt, postCrossings_pmEnt]

/-- At the end of a bin that of every entity ends, and the next one starts at the multiple of its length that has been reached. -/
theorem pmBinEnd_pmEnt (day : Bool) (s : State) {e : Nat} (he : e < 544) :
    (pmBinEnd day s).pmEnt e = binEnded day ((pmBinEnd day s).time.secs / binLength day * binLength day) (s.pmEnt e) := by
  obtain ⟨htime, hents⟩ := foldl_range_pmEnt (P := fun t => t.time = (atBinEnd day s).time)
    (one := endBin day ((atBinEnd day s).od 0x7120 (if day then 2 else 1)) ((atBinEnd day s).time.secs / binLength day * binLength day))
    (fun t e h => (endBin_time _ _ _ t e).trans h) (fun t e j _ => endBin_pmEnt _ _ _ t e j) (s := atBinEnd day s) rfl
  rw [pmBinEnd_eq, htime, hents e he, atBinEnd_pmEnt]

/-- The record of an entity whose latest previous bin becomes complete. -/
def binCompleted (day : Bool) (x : PmEnt) : PmEnt :=
  if day then { x with prev24 := { x.prev24 with complete := true } }
  else match x.prev15 with
    | b :: t => { x with prev15 := { b with complete := true } :: t }
    | [] => x

theorem binCompleted_prev15 {x : PmEnt} {b : Bin} {l : List Bin} (h : x.prev15 = b :: l) :
    (binCompleted false x).prev15 = { b with complete := true } :: l := by
  simp only [binCompleted, h, Bool.false_eq_true, if_false]

/-- The latest previous bin of every entity becomes complete. -/
theorem pmBinComplete_pmEnt (day : Bool) (s : State) {e : Nat} (he : e < 544) : (pmBinComplete day s).pmEnt e = binCompleted day (s.pmEnt e) := by
  have hfold (u : State) : ((List.range 544).foldl (fun s e => updPm e (binCompleted day) s) u).pmEnt e = binCompleted day (u.pmEnt e) :=
    (foldl_range_pmEnt (P := fun _ => True) (g := fun _ => binCompleted day) (fun _ _ _ => trivial) (fun _ _ _ _ => updPm_pmEnt _ _ _ _) trivial).2 e he
  unfold pmBinComplete
  exact (hfold _).trans (congrArg _ (waitTime_pmEnt _ s e))

theorem exec_pmBinEnd (day : Bool) (s : State) : exec (.pmBinEnd day) s = .next (pmBinEnd day s) := rfl
theorem exec_pmBinComplete (day : Bool) (s : State) : exec (.pmBinComplete day) s = .next (pmBinComplete day s) := rfl

/-! ## The statement -/

/-- Settles O19: a second by what it does to each entity once its counts stand, the end and the completion of bins by the record each leaves. -/
theorem monitoringKeepsItsBins : Obligations.MonitoringKeepsItsBins := by
  unfold Obligations.MonitoringKeepsItsBins
  refine ⟨?second, ?lanes, ?ports, ?marks, ?quarterEnds, ?dayEnds, ?dayComplete, ?quarterComplete⟩
  case second => exact fun o s he hon hu hq hc hfu hfq => ⟨_, exec_pmSecondTick _ s, pmTick_counts he hon hu hq hc hfu hfq⟩
  case lanes =>
    intro l s h
    refine ⟨_, exec_pmSecondTick _ s, ?_⟩
    rw [pmTick_fec, secondCounts_lane h]
    refine ⟨?_, ?_, ?_⟩ <;> simp (disch := omega) only [Tab.get_bump, if_neg, if_true]
  case ports =>
    intro p m n s h
    refine ⟨_, exec_pmSecondTick _ s, ?_⟩
    have hpd : (pmTick { ports := [(p, m, n)] } s).pd p = (secondCounts { ports := [(p, m, n)] } s).pd p := by
      unfold State.pd; rw [pmTick_path]
    rw [hpd, secondCounts_port h]
    constructor <;> simp (disch := omega) only [Tab.get_bump, if_neg, if_true]
  case marks =>
    exact fun s => ⟨_, exec_pmSecondTick _ s, fun e he => (pmTick_marks s he).1, fun hset e he => (pmTick_marks s he).2 hset⟩
  case quarterEnds =>
    refine fun s => ⟨_, exec_pmBinEnd false s, fun e he => ?_⟩
    rw [pmBinEnd_pmEnt false s he]
    simp only [binEnded, binLength, Bool.false_eq_true, if_false, and_self]
  case dayEnds =>
    refine fun s => ⟨_, exec_pmBinEnd true s, fun e he => ?_⟩
    rw [pmBinEnd_pmEnt true s he]
    simp only [binEnded, binLength, if_true, and_self]
  case dayComplete =>
    refine fun s => ⟨_, exec_pmBinComplete true s, fun e he => ?_⟩
    rw [pmBinComplete_pmEnt true s he]
    rfl
  case quarterComplete =>
    refine fun s => ⟨_, exec_pmBinComplete false s, fun e he b l h => ?_⟩
    rw [pmBinComplete_pmEnt false s he]
    exact binCompleted_prev15 h

end Sys2Proof.Machine

/-! Defects of OTN sides and tributaries (R138 to R140, R163, R171): the status that a side and a tributary show of the conditions that hold, and what
showing them leaves alone. -/
namespace Sys2Proof.Machine

/-! ## Bits of a status word -/

theorem getLsbD_bitMask {b j : Nat} (hj : j < 32) : ((1 : W32) <<< b).getLsbD j = decide (j = b) := by
  change (BitVec.twoPow 32 b).getLsbD j = _
  rw [BitVec.getLsbD_twoPow, ← Bool.decide_and, decide_eq_decide]
  omega

theorem bitMask_and_eq_zero_iff {v : W32} {b : Nat} (hb : b < 32) : v &&& ((1 : W32) <<< b) = 0 ↔ v.getLsbD b = false := by
  change v &&& BitVec.twoPow 32 b = 0 ↔ _
  rw [BitVec.and_twoPow]
  constructor
  · intro h
    by_contra hv
    rw [if_pos (Bool.eq_true_of_not_eq_false hv)] at h
    have hbit := congrArg (fun v => BitVec.getLsbD v b) h
    simp [hb] at hbit
  · intro h
    rw [h]
    rfl

theorem ne_zero_of_getLsbD {v : W32} {b : Nat} (h : v.getLsbD b = true) : v ≠ 0 := by
  rintro rfl
  simp at h

/-! ## What following its side changes of a tributary -/

section
variable {β : Type} (P : Otn → β)
  (hP : ∀ o v w x y z u, P { o with trib := v, tribLatched := w, tribSeen := x, secHeld := y, tribs := z, sent := u } = P o)
include hP

theorem tribAcquire_otn_keep (t : Nat) (s : State) : P (tribAcquire t s).otn = P s.otn := by
  unfold tribAcquire
  split
  · exact hP s.otn _ _ _ _ _ _
  · rfl

theorem tribShow_otn_keep (t : Nat) (s : State) : P (tribShow t s).otn = P s.otn := by
  unfold tribShow
  dsimp only
  split
  · rw [tribAcquire_otn_keep P hP]
    exact hP s.otn _ _ _ _ _ _
  · exact hP s.otn _ _ _ _ _ _

theorem otuSettle_otn_keep (k : Nat) (sd : Side) (s : State) : P (otuSettle k sd s).otn = P s.otn := by
  unfold otuSettle
  dsimp only
  (repeat' split)
  · exact hP s.otn _ _ _ _ _ _
  · rfl
  · exact hP s.otn _ _ _ _ _ _

end

/-- What returning a tributary to Acquiring leaves of the tributary records. -/
theorem tribAcquire_tr_keep {β : Type} (P : Trib → β) (hP : ∀ x a b c d, P { x with rxState := a, rxSeen := b, acqL0 := c, acqCtr := d } = P x)
    (t : Nat) (s : State) (j : Nat) : P ((tribAcquire t s).tr j) = P (s.tr j) := by
  unfold tribAcquire
  split
  · rw [acquire, updTr_get]
    split
    · next h => rw [hP, h]
    · rfl
  · rfl

theorem tribShow_tr_keep {β : Type} (P : Trib → β) (hP : ∀ x a b c d, P { x with rxState := a, rxSeen := b, acqL0 := c, acqCtr := d } = P x)
    (t : Nat) (s : State) (j : Nat) : P ((tribShow t s).tr j) = P (s.tr j) := by
  unfold tribShow
  dsimp only
  split
  · exact tribAcquire_tr_keep P hP t _ j
  · rfl

theorem tribAcquire_trib (t : Nat) (s : State) : (tribAcquire t s).otn.trib = s.otn.trib := by
  unfold tribAcquire
  split <;> rfl

/-! ## The status of a tributary (R140, R163, R171) -/

theorem tribShow_trib (t : Nat) (s : State) : (tribShow t s).otn.trib.get t 0 = tribShown s t := by
  unfold tribShow
  dsimp only
  split
  · rw [tribAcquire_trib]
    exact Tab.get_put_same ..
  · exact Tab.get_put_same ..

/-- The OTUCn that carries tributary `t` shows a defect on a side. -/
def sideSick (s : State) (t : Nat) (sd : Side) : Bool := decide (bits (sideDefects s (tribPair s t) sd).toNat 18 0 ≠ 0)

theorem sideSick_eq_false {s : State} {t : Nat} {sd : Side} (h : bits (sideDefects s (tribPair s t) sd).toNat 18 0 = 0) : sideSick s t sd = false :=
  decide_eq_false (not_not_intro h)

/-- What stays of a tributary's status: its marks, and the defects whose conditions hold. -/
def tribStays (s : State) (t : Nat) : W32 := s.otn.trib.get t 0 &&& (s.otn.tribRaw.get t 0 ||| ~~~tribSuppressed)

/-- What the status shows once the defects of either side have joined. -/
def tribSides (s : State) (t : Nat) : W32 :=
  let v := if sideSick s t .system then tribStays s t else tribStays s t ||| (s.otn.tribRaw.get t 0 &&& 0x7F)
  if sideSick s t .line then v else v ||| (s.otn.tribRaw.get t 0 &&& 0x7F00)

/-- What the status shows once those of security have joined too. -/
def tribJoined (s : State) (t : Nat) : W32 :=
  if sideSick s t .line || decide (tribSides s t &&& 0x7F00 ≠ 0) then tribSides s t else tribSides s t ||| (s.otn.tribRaw.get t 0 &&& 0x70000)

theorem tribShown_eq (s : State) (t : Nat) : tribShown s t =
    if (s.tr t).squelch && decide (tribJoined s t &&& 0x70000 ≠ 0) then tribJoined s t ||| 0x80000 else tribJoined s t &&& ~~~0x80000 := rfl

section
variable {s : State} {t b : Nat}

theorem getLsbD_tribStays (hb : b < 32) : (tribStays s t).getLsbD b =
    ((s.otn.trib.get t 0).getLsbD b && ((s.otn.tribRaw.get t 0).getLsbD b || !tribSuppressed.getLsbD b)) := by
  simp [tribStays, hb]

theorem getLsbD_tribSides : (tribSides s t).getLsbD b = ((tribStays s t).getLsbD b ||
    (s.otn.tribRaw.get t 0).getLsbD b && (!sideSick s t .system && (0x7F : W32).getLsbD b || !sideSick s t .line && (0x7F00 : W32).getLsbD b)) := by
  unfold tribSides
  cases sideSick s t .system <;> cases sideSick s t .line <;> simp [Bool.and_or_distrib_left, Bool.or_assoc]

theorem getLsbD_tribJoined : (tribJoined s t).getLsbD b = ((tribSides s t).getLsbD b ||
    (s.otn.tribRaw.get t 0).getLsbD b && !(sideSick s t .line || decide (tribSides s t &&& 0x7F00 ≠ 0)) && (0x70000 : W32).getLsbD b) := by
  unfold tribJoined
  cases sideSick s t .line || decide (tribSides s t &&& 0x7F00 ≠ 0) <;> simp

/-- Squelch is a bit of its own. -/
theorem getLsbD_tribShown (hb : b < 19) : (tribShown s t).getLsbD b = (tribJoined s t).getLsbD b := by
  have hmask : (0x80000 : W32).getLsbD b = false := by
    change (BitVec.twoPow 32 19).getLsbD b = false
    rw [BitVec.getLsbD_twoPow, decide_eq_false (by omega : ¬ 19 = b), Bool.and_false]
  rw [tribShown_eq]
  split
  · rw [BitVec.getLsbD_or, hmask, Bool.or_false]
  · rw [BitVec.getLsbD_and, BitVec.getLsbD_not, hmask, decide_eq_true (by omega : b < 32), Bool.not_false, Bool.and_self, Bool.and_true]

theorem getLsbD_tribShown_squelch : (tribShown s t).getLsbD 19 = ((s.tr t).squelch && decide (tribJoined s t &&& 0x70000 ≠ 0)) := by
  rw [tribShown_eq]
  cases (s.tr t).squelch && decide (tribJoined s t &&& 0x70000 ≠ 0)
  · exact (BitVec.getLsbD_and ..).trans (Bool.and_false _)
  · exact (BitVec.getLsbD_or ..).trans (Bool.or_true _)

end

/-! ## A bit of a tributary's status comes or goes -/

/-- A status word with bit `b` set or cleared. -/
def withBit (b : Nat) (on : Bool) (v : W32) : W32 := if on then v ||| ((1 : W32) <<< b) else v &&& ~~~((1 : W32) <<< b)

theorem getLsbD_withBit {b j : Nat} (hj : j < 32) (on : Bool) (v : W32) : (withBit b on v).getLsbD j = if j = b then on else v.getLsbD j := by
  have hmask := getLsbD_bitMask (b := b) hj
  unfold withBit
  cases on
  · rw [if_neg Bool.false_ne_true, BitVec.getLsbD_and, BitVec.getLsbD_not, hmask, decide_eq_true hj, Bool.true_and]
    by_cases h : j = b <;> simp [h]
  · rw [if_pos rfl, BitVec.getLsbD_or, hmask]
    by_cases h : j = b <;> simp [h]

/-- The bit is noted: as a condition that R140 may suppress, or as a mark of its own. -/
def tribNoted (t b : Nat) (on : Bool) (s : State) : State :=
  { s with otn := if tribSuppressed &&& ((1 : W32) <<< b) = 0 then { s.otn with trib := s.otn.trib.upd t 0 (withBit b on) }
    else { s.otn with tribRaw := s.otn.tribRaw.upd t 0 (withBit b on) } }

theorem tribDefect_eq (t b : Nat) (on : Bool) (s : State) : tribDefect t b on s = tribShow t (tribNoted t b on s) := rfl

theorem tribNoted_otn_keep {β : Type} (P : Otn → β) (hP : ∀ o v w, P { o with trib := v, tribRaw := w } = P o) (t b : Nat) (on : Bool) (s : State) :
    P (tribNoted t b on s).otn = P s.otn := by
  unfold tribNoted
  dsimp only
  split <;> exact hP s.otn _ _

section
variable {s : State} {t b : Nat} (hb : b < 19)
include hb

theorem tribDefect_trib_bit (on : Bool) : ((tribDefect t b on s).otn.trib.get t 0).getLsbD b = (tribJoined (tribNoted t b on s) t).getLsbD b := by
  rw [tribDefect_eq, tribShow_trib, getLsbD_tribShown hb]

theorem tribNoted_condition (h : tribSuppressed.getLsbD b = true) (on : Bool) :
    tribNoted t b on s = { s with otn := { s.otn with tribRaw := s.otn.tribRaw.upd t 0 (withBit b on) } } := by
  unfold tribNoted
  rw [if_neg (by rw [bitMask_and_eq_zero_iff (by omega), h]; exact Bool.false_ne_true.symm)]

theorem tribNoted_mark (h : tribSuppressed.getLsbD b = false) (on : Bool) :
    tribNoted t b on s = { s with otn := { s.otn with trib := s.otn.trib.upd t 0 (withBit b on) } } := by
  unfold tribNoted
  rw [if_pos ((bitMask_and_eq_zero_iff (by omega)).mpr h)]

theorem tribNoted_raw_bit (h : tribSuppressed.getLsbD b = true) (on : Bool) {j : Nat} (hj : j < 32) :
    ((tribNoted t b on s).otn.tribRaw.get t 0).getLsbD j = if j = b then on else (s.otn.tribRaw.get t 0).getLsbD j := by
  rw [tribNoted_condition hb h, Tab.get_upd_same, getLsbD_withBit hj]

/-- A defect whose condition no longer holds is absent. -/
theorem tribDefect_cleared (h : tribSuppressed.getLsbD b = true) : ((tribDefect t b false s).otn.trib.get t 0).getLsbD b = false := by
  have hraw : ((tribNoted t b false s).otn.tribRaw.get t 0).getLsbD b = false := by rw [tribNoted_raw_bit hb h _ (by omega), if_pos rfl]
  rw [tribDefect_trib_bit hb, getLsbD_tribJoined, getLsbD_tribSides, getLsbD_tribStays (by omega), hraw, h]
  simp only [Bool.not_true, Bool.or_false, Bool.and_false, Bool.false_and]

/-- A mark that R140 does not suppress shows as it is set. -/
theorem tribDefect_marked (h : tribSuppressed.getLsbD b = false) : ((tribDefect t b true s).otn.trib.get t 0).getLsbD b = true := by
  have htrib : ((tribNoted t b true s).otn.trib.get t 0).getLsbD b = true := by
    rw [tribNoted_mark hb h, Tab.get_upd_same, getLsbD_withBit (by omega), if_pos rfl]
  rw [tribDefect_trib_bit hb, getLsbD_tribJoined, getLsbD_tribSides, getLsbD_tribStays (by omega), htrib, h]
  simp only [Bool.not_false, Bool.or_true, Bool.true_or, Bool.and_true]

end

theorem tribNoted_sideSick (t b : Nat) (on : Bool) (s : State) (sd : Side) : sideSick (tribNoted t b on s) t sd = sideSick s t sd :=
  congrArg (fun v : Tab W32 => decide (bits (v.get (sideKey (tribPair s t) sd) 0).toNat 18 0 ≠ 0)) (tribNoted_otn_keep Otn.side (fun _ _ _ => rfl) t b on s)

/-- The bits of a side's defects among those of a tributary. -/
def sideMask : Side → W32
  | .system => 0x7F
  | .line => 0x7F00

theorem sideMask_getLsbD (sd : Side) (b : Fin 7) : (sideMask sd).getLsbD (8 * sd.num + b) = true ∧ tribSuppressed.getLsbD (8 * sd.num + b) = true := by
  revert b
  cases sd <;> decide

theorem side_bit_lt (sd : Side) (b : Fin 7) : 8 * sd.num + b < 19 := by
  cases sd <;> simp only [Side.num] <;> omega

theorem tribSides_of_raw {s : State} {t b : Nat} {sd : Side} (hm : (sideMask sd).getLsbD b = true) (hs : sideSick s t sd = false)
    (hr : (s.otn.tribRaw.get t 0).getLsbD b = true) : (tribSides s t).getLsbD b = true := by
  rw [getLsbD_tribSides, hr]
  cases sd
  · rw [hs, show (0x7F : W32).getLsbD b = true from hm]; simp
  · rw [hs, show (0x7F00 : W32).getLsbD b = true from hm]; simp

/-- A defect of a tributary's side is present once declared where its OTUCn has none there. -/
theorem tribDeclare_shows {s : State} {t : Nat} {sd : Side} {b : Fin 7} (h : bits (sideDefects s (tribPair s t) sd).toNat 18 0 = 0) :
    ((tribDeclare t sd b s).otn.trib.get t 0).getLsbD (8 * sd.num + b) = true := by
  obtain ⟨hmask, hsup⟩ := sideMask_getLsbD sd b
  have hlt := side_bit_lt sd b
  have hraw : ((tribNoted t (8 * sd.num + b) true s).otn.tribRaw.get t 0).getLsbD (8 * sd.num + b) = true := by
    rw [tribNoted_raw_bit hlt hsup _ (by omega), if_pos rfl]
  unfold tribDeclare
  rw [tribDefect_trib_bit hlt, getLsbD_tribJoined, tribSides_of_raw hmask ((tribNoted_sideSick ..).trans (sideSick_eq_false h)) hraw, Bool.true_or]

theorem tribSides_line_eq_zero {s : State} {t : Nat} (hr : ∀ j < 32, (0x7F00 : W32).getLsbD j = true → (s.otn.tribRaw.get t 0).getLsbD j = false) :
    tribSides s t &&& 0x7F00 = 0 := by
  refine BitVec.eq_of_getLsbD_eq fun j hj => ?_
  rw [BitVec.getLsbD_and, getLsbD_tribSides, getLsbD_tribStays hj]
  cases hm : (0x7F00 : W32).getLsbD j
  · simp
  · have hsup : ∀ i : Fin 32, (0x7F00 : W32).getLsbD i = true → tribSuppressed.getLsbD i = true := by decide
    rw [hr j hj hm, hsup ⟨j, hj⟩ hm]
    simp only [Bool.not_true, Bool.or_false, Bool.and_false, Bool.false_and]
    exact BitVec.getLsbD_zero.symm

theorem security_suppressed (w : Fin 3) : tribSuppressed.getLsbD (16 + w) = true ∧ (0x70000 : W32).getLsbD (16 + w) = true ∧ (0x7F00 : W32).getLsbD (16 + w) = false := by
  revert w
  decide

/-- A security defect is present once declared where the line side shows none, and squelches. -/
theorem secDeclare_shows {s : State} {t : Nat} {w : Fin 3} (hside : bits (sideDefects s (tribPair s t) .line).toNat 18 0 = 0)
    (hline : s.otn.tribRaw.get t 0 &&& 0x7F00 = 0) :
    ((secDeclare t (16 + w) s).otn.trib.get t 0).getLsbD (16 + w) = true ∧ ((secDeclare t (16 + w) s).otn.trib.get t 0).getLsbD 19 = (s.tr t).squelch := by
  obtain ⟨hsup, hmask, hother⟩ := security_suppressed w
  have hlt : 16 + w.val < 19 := by omega
  have hsick : sideSick (tribNoted t (16 + w) true s) t .line = false := (tribNoted_sideSick ..).trans (sideSick_eq_false hside)
  have hraw : ((tribNoted t (16 + w) true s).otn.tribRaw.get t 0).getLsbD (16 + w) = true := by
    rw [tribNoted_raw_bit hlt hsup _ (by omega), if_pos rfl]
  have hlines : tribSides (tribNoted t (16 + w) true s) t &&& 0x7F00 = 0 := by
    refine tribSides_line_eq_zero fun j hj hm => ?_
    rw [tribNoted_raw_bit hlt hsup _ hj, if_neg (by rintro rfl; exact Bool.false_ne_true (hother.symm.trans hm))]
    have hbit : (s.otn.tribRaw.get t 0 &&& 0x7F00).getLsbD j = false := by rw [hline]; exact BitVec.getLsbD_zero
    rwa [BitVec.getLsbD_and, hm, Bool.and_true] at hbit
  have hjoined : (tribJoined (tribNoted t (16 + w) true s) t).getLsbD (16 + w) = true := by
    rw [getLsbD_tribJoined, hsick, hlines, hraw, hmask]
    simp
  have hsec : tribJoined (tribNoted t (16 + w) true s) t &&& 0x70000 ≠ 0 :=
    ne_zero_of_getLsbD (b := 16 + w) (by rw [BitVec.getLsbD_and, hjoined, hmask, Bool.and_self])
  refine ⟨(tribDefect_trib_bit hlt true).trans hjoined, ?_⟩
  unfold secDeclare
  rw [tribDefect_eq, tribShow_trib, getLsbD_tribShown_squelch, decide_eq_true hsec, Bool.and_true, tribNoted_condition hlt hsup]
  rfl

/-! ## The defects of a side (R138 to R140) -/

/-- Some defect of `v` is of a lower layer than that of bit `b`. -/
def lowerShown (v : W32) (b : Nat) : Bool := (List.range 19).any (fun c => v.getLsbD c && decide (layerOf c < layerOf b))

/-- The defect of bit `b` joins those shown, where its condition holds and no lower layer shows one. -/
def sideJoin (raw v : W32) (b : Nat) : W32 := if raw.getLsbD b && !lowerShown v b then v ||| ((1 : W32) <<< b) else v

theorem sideShown_eq (raw v : W32) : sideShown raw v = (List.range 19).foldl (sideJoin raw) (v &&& raw &&& 0x7FFFF) := rfl

theorem lowerShown_of {v : W32} {b c : Nat} (hc : c < 19) (hl : layerOf c < layerOf b) (hv : v.getLsbD c = true) : lowerShown v b = true :=
  List.any_eq_true.mpr ⟨c, List.mem_range.mpr hc, by rw [hv, decide_eq_true hl, Bool.and_self]⟩

theorem getLsbD_sideJoin (raw v : W32) (b : Nat) {j : Nat} (hj : j < 32) :
    (sideJoin raw v b).getLsbD j = (v.getLsbD j || decide (j = b) && raw.getLsbD b && !lowerShown v b) := by
  unfold sideJoin
  split
  · next h => rw [BitVec.getLsbD_or, getLsbD_bitMask hj, Bool.and_assoc, h, Bool.and_true]
  · next h => rw [Bool.and_assoc, Bool.eq_false_iff.mpr h, Bool.and_false, Bool.or_false]

section
variable {raw : W32} {b : Nat} (hb : b < 32)
include hb

theorem foldl_sideJoin_keeps {l : List Nat} {v : W32} (hv : v.getLsbD b = true) : (l.foldl (sideJoin raw) v).getLsbD b = true := by
  induction l generalizing v with
  | nil => exact hv
  | cons c l ih => exact ih (by rw [getLsbD_sideJoin _ _ _ hb, hv, Bool.true_or])

/-- A bit joins only in its turn, and only if its condition holds. -/
theorem foldl_sideJoin_other {l : List Nat} (h : b ∉ l ∨ raw.getLsbD b = false) (v : W32) : (l.foldl (sideJoin raw) v).getLsbD b = v.getLsbD b := by
  induction l generalizing v with
  | nil => rfl
  | cons c l ih =>
    rw [List.foldl_cons, ih (h.imp_left fun h hm => h (List.mem_cons_of_mem c hm)), getLsbD_sideJoin _ _ _ hb]
    rcases eq_or_ne b c with rfl | hne
    · rw [h.resolve_left fun h => h List.mem_cons_self, Bool.and_false, Bool.false_and, Bool.or_false]
    · rw [decide_eq_false hne, Bool.false_and, Bool.false_and, Bool.or_false]

/-- Where a lower layer shows a defect, none joins. -/
theorem foldl_sideJoin_suppressed {c : Nat} (hc : c < 19) (hl : layerOf c < layerOf b) {l : List Nat} {v : W32} (hv : v.getLsbD c = true) :
    (l.foldl (sideJoin raw) v).getLsbD b = v.getLsbD b := by
  induction l generalizing v with
  | nil => rfl
  | cons d l ih =>
    rw [List.foldl_cons, ih (by rw [getLsbD_sideJoin _ _ _ (by omega), hv, Bool.true_or]), getLsbD_sideJoin _ _ _ hb]
    rcases eq_or_ne b d with rfl | hne
    · rw [lowerShown_of hc hl hv, Bool.not_true, Bool.and_false, Bool.or_false]
    · rw [decide_eq_false hne, Bool.false_and, Bool.false_and, Bool.or_false]

/-- Where no condition of a lower layer holds, a defect whose own condition holds joins. -/
theorem foldl_sideJoin_joins (hraw : raw.getLsbD b = true) (hlow : ∀ c < 19, layerOf c < layerOf b → raw.getLsbD c = false) {l : List Nat} (hm : b ∈ l) {v : W32}
    (hv : ∀ c < 19, raw.getLsbD c = false → v.getLsbD c = false) : (l.foldl (sideJoin raw) v).getLsbD b = true := by
  induction l generalizing v with
  | nil => exact absurd hm List.not_mem_nil
  | cons d l ih =>
    rcases List.mem_cons.mp hm with rfl | hm
    · have hnone : lowerShown v b = false := by
        refine List.any_eq_false.mpr fun c hc => ?_
        by_cases hl : layerOf c < layerOf b
        · rw [hv c (List.mem_range.mp hc) (hlow c (List.mem_range.mp hc) hl), Bool.false_and]; exact Bool.false_ne_true
        · rw [decide_eq_false hl, Bool.and_false]; exact Bool.false_ne_true
      exact foldl_sideJoin_keeps hb (l := l) (v := sideJoin raw v b) (by
        rw [getLsbD_sideJoin _ _ _ hb, hraw, hnone, decide_eq_true rfl]; exact Bool.or_true _)
    · refine ih hm fun c hc hr => ?_
      have hother := foldl_sideJoin_other (raw := raw) (l := [d]) (by omega : c < 32) (.inr hr) v
      exact hother.trans (hv c hc hr)

end

section
variable {raw v : W32} {b : Nat} (hb : b < 19)
include hb

theorem getLsbD_sideStays : (v &&& raw &&& 0x7FFFF).getLsbD b = (v.getLsbD b && raw.getLsbD b) := by
  have hmask : ∀ i : Fin 19, (0x7FFFF : W32).getLsbD i = true := by decide
  rw [BitVec.getLsbD_and, BitVec.getLsbD_and, hmask ⟨b, hb⟩, Bool.and_true]

theorem sideShown_joins (hraw : raw.getLsbD b = true) (hlow : ∀ c < 19, layerOf c < layerOf b → raw.getLsbD c = false) : (sideShown raw v).getLsbD b = true := by
  rw [sideShown_eq]
  exact foldl_sideJoin_joins (by omega) hraw hlow (List.mem_range.mpr hb) fun c hc hr => by rw [getLsbD_sideStays hc, hr, Bool.and_false]

theorem sideShown_suppressed {c : Nat} (hc : c < 19) (hl : layerOf c < layerOf b) (hv : v.getLsbD c = true) (hr : raw.getLsbD c = true)
    (hraw : raw.getLsbD b = true) : (sideShown raw v).getLsbD b = v.getLsbD b := by
  rw [sideShown_eq, foldl_sideJoin_suppressed (by omega) hc hl (by rw [getLsbD_sideStays hc, hv, hr, Bool.and_self]), getLsbD_sideStays hb, hraw, Bool.and_true]

theorem sideShown_cleared (hraw : raw.getLsbD b = false) : (sideShown raw v).getLsbD b = false := by
  rw [sideShown_eq, foldl_sideJoin_other (by omega) (.inr hraw), getLsbD_sideStays hb, hraw, Bool.and_false]

end

theorem sideShown_ssf (raw v : W32) : (sideShown raw v).getLsbD 19 = false := by
  rw [sideShown_eq, foldl_sideJoin_other (by omega) (.inl (by simp))]
  exact (BitVec.getLsbD_and ..).trans (Bool.and_false _)

/-! ## Showing a side -/

/-- Some defect of `v` calls for aSSF on a side of pair `k`. -/
def ssfOf (s : State) (k : Nat) (v : W32) : Bool := (ssfBits s k).any (fun b => v.getLsbD b)

/-- The defects `v` of a side with aSSF as it follows. -/
def withSsf (s : State) (k : Nat) (v : W32) : W32 := if ssfOf s k v then v ||| 0x80000 else v

theorem getLsbD_withSsf {b : Nat} (hb : b < 19) (s : State) (k : Nat) (v : W32) : (withSsf s k v).getLsbD b = v.getLsbD b := by
  have hmask : ∀ i : Fin 19, (0x80000 : W32).getLsbD i = false := by decide
  unfold withSsf
  split
  · rw [BitVec.getLsbD_or, hmask ⟨b, hb⟩, Bool.or_false]
  · rfl

theorem ssfBits_lt {s : State} {k b : Nat} (h : b ∈ ssfBits s k) : b < 19 := by
  unfold ssfBits at h
  split at h <;> simp at h <;> omega

theorem ssfOf_withSsf (s : State) (k : Nat) (v : W32) : ssfOf s k (withSsf s k v) = ssfOf s k v := by
  unfold ssfOf
  rw [Bool.eq_iff_iff, List.any_eq_true, List.any_eq_true]
  exact exists_congr fun b => and_congr_right fun hb => by rw [getLsbD_withSsf (ssfBits_lt hb)]

theorem withSsf_ssf {s : State} {k : Nat} {v : W32} (hv : v.getLsbD 19 = false) : (withSsf s k v).getLsbD 19 = ssfOf s k (withSsf s k v) := by
  rw [ssfOf_withSsf]
  unfold withSsf
  split
  · next h => rw [h]; exact (BitVec.getLsbD_or ..).trans (Bool.or_true _)
  · next h => rw [hv, Bool.eq_false_iff.mpr h]

/-- What a side shows of the conditions that hold there. -/
def sideStatus (s : State) (k : Nat) (sd : Side) : W32 := withSsf s k (sideShown (s.otn.sideRaw.get (sideKey k sd) 0) (sideDefects s k sd))

/-- A side brought in line with the conditions that hold there, before its tributaries and what is sent back follow. -/
def sideNoted (k : Nat) (sd : Side) (s : State) : State :=
  { s with otn := { s.otn with
    side := (s.otn.side.put (sideKey k sd) (sideShown (s.otn.sideRaw.get (sideKey k sd) 0) (sideDefects s k sd))).put (sideKey k sd) (sideStatus s k sd)
    sideLatched := s.otn.sideLatched.upd (sideKey k sd) 0 (· ||| sideStatus s k sd)
    sideSeen := s.otn.sideSeen.upd (sideKey k sd) 0 (· ||| sideStatus s k sd) } }

/-- The tributaries of a side, and what is sent back, follow what it shows. -/
theorem sideShow_otn_keep {β : Type} (P : Otn → β)
    (hP : ∀ o v w x y z u, P { o with trib := v, tribLatched := w, tribSeen := x, secHeld := y, tribs := z, sent := u } = P o)
    (k : Nat) (sd : Side) (s : State) : P (sideShow k sd s).otn = P (sideNoted k sd s).otn := by
  have hacquire (l : List Nat) (s : State) : P (l.foldl (fun s t => tribAcquire t s) s).otn = P s.otn :=
    keep (P := fun s => P s.otn) fun s t => tribAcquire_otn_keep P hP t s
  have hshow (l : List Nat) (s : State) : P (l.foldl (fun s t => tribShow t s) s).otn = P s.otn :=
    keep (P := fun s => P s.otn) fun s t => tribShow_otn_keep P hP t s
  have hssf : sideSsf { s with otn := { s.otn with side := s.otn.side.put (sideKey k sd) (sideShown (s.otn.sideRaw.get (sideKey k sd) 0) (sideDefects s k sd)) } } k sd =
      ssfOf s k (sideShown (s.otn.sideRaw.get (sideKey k sd) 0) (sideDefects s k sd)) := by
    unfold sideSsf sideDefects
    rw [Tab.get_put_same]
    rfl
  unfold sideShow
  dsimp only
  rw [otuSettle_otn_keep P hP, hshow, hssf]
  split
  · rw [hacquire]; rfl
  · rfl

section
variable (k : Nat) (sd : Side) (s : State)

theorem sideShow_sideRaw : (sideShow k sd s).otn.sideRaw = s.otn.sideRaw := sideShow_otn_keep Otn.sideRaw (fun _ _ _ _ _ _ _ => rfl) k sd s

theorem sideShow_sideDefects : sideDefects (sideShow k sd s) k sd = sideStatus s k sd := by
  rw [sideDefects, sideShow_otn_keep Otn.side (fun _ _ _ _ _ _ _ => rfl)]
  exact Tab.get_put_same ..

theorem sideShow_sideLatched : (sideShow k sd s).otn.sideLatched.get (sideKey k sd) 0 = s.otn.sideLatched.get (sideKey k sd) 0 ||| sideStatus s k sd := by
  rw [sideShow_otn_keep Otn.sideLatched (fun _ _ _ _ _ _ _ => rfl)]
  exact Tab.get_upd_same (sideKey k sd) 0 (· ||| sideStatus s k sd) _

theorem sideShow_ctl : (sideShow k sd s).ctl = s.ctl := sideShow_keep State.ctl (fun _ _ _ => rfl) k sd s

/-- aSSF shows whether any defect present calls for it. -/
theorem sideShow_ssf : (sideDefects (sideShow k sd s) k sd).getLsbD 19 = sideSsf (sideShow k sd s) k sd := by
  have hssf : sideSsf (sideShow k sd s) k sd = ssfOf s k (sideStatus s k sd) := by
    unfold sideSsf ssfOf ssfBits defectControl State.odNat State.od
    rw [sideShow_sideDefects, sideShow_ctl]
  rw [hssf, sideShow_sideDefects, sideStatus, withSsf_ssf (sideShown_ssf _ _)]

end

/-! ## A condition of a side begins or ends -/

/-- The condition of side defect `b` holds, or no longer does. -/
def sideCondition (k : Nat) (sd : Side) (b : Nat) (on : Bool) (s : State) : State :=
  { s with otn := { s.otn with sideRaw := s.otn.sideRaw.upd (sideKey k sd) 0 (withBit b on) } }

theorem sideDeclare_eq (k : Nat) (sd : Side) (b : Nat) (s : State) : sideDeclare k sd b s = sideShow k sd (sideCondition k sd b true s) := rfl
theorem sideClear_eq (k : Nat) (sd : Side) (b : Nat) (s : State) : sideClear k sd b s = sideShow k sd (sideCondition k sd b false s) := rfl

section
variable {k : Nat} {sd : Side} {b : Nat} (s : State)

theorem sideCondition_raw (on : Bool) {c : Nat} (hc : c < 32) : ((sideCondition k sd b on s).otn.sideRaw.get (sideKey k sd) 0).getLsbD c =
    if c = b then on else (s.otn.sideRaw.get (sideKey k sd) 0).getLsbD c := by
  unfold sideCondition
  rw [Tab.get_upd_same, getLsbD_withBit hc]

theorem sideDeclare_raw (hb : b < 32) : ((sideDeclare k sd b s).otn.sideRaw.get (sideKey k sd) 0).getLsbD b = true := by
  rw [sideDeclare_eq, sideShow_sideRaw, sideCondition_raw s true hb, if_pos rfl]

variable (hb : b < 19)
include hb

theorem sideShow_bit (s : State) : (sideDefects (sideShow k sd s) k sd).getLsbD b =
    (sideShown (s.otn.sideRaw.get (sideKey k sd) 0) (sideDefects s k sd)).getLsbD b := by
  rw [sideShow_sideDefects, sideStatus, getLsbD_withSsf hb]

theorem sideDeclare_shows (h : ∀ c < 19, layerOf c < layerOf b → (s.otn.sideRaw.get (sideKey k sd) 0).getLsbD c = false) :
    (sideDefects (sideDeclare k sd b s) k sd).getLsbD b = true := by
  rw [sideDeclare_eq, sideShow_bit hb]
  refine sideShown_joins hb (by rw [sideCondition_raw s true (by omega), if_pos rfl]) fun c hc hl => ?_
  rw [sideCondition_raw s true (by omega), if_neg (by rintro rfl; exact lt_irrefl _ hl)]
  exact h c hc hl

theorem sideDeclare_suppressed {c : Nat} (hc : c < 19) (hl : layerOf c < layerOf b) (hv : (sideDefects s k sd).getLsbD c = true)
    (hr : (s.otn.sideRaw.get (sideKey k sd) 0).getLsbD c = true) :
    (sideDefects (sideDeclare k sd b s) k sd).getLsbD b = (sideDefects s k sd).getLsbD b := by
  rw [sideDeclare_eq, sideShow_bit hb]
  refine sideShown_suppressed hb hc hl hv ?_ (by rw [sideCondition_raw s true (by omega), if_pos rfl])
  rw [sideCondition_raw s true (by omega), if_neg (by rintro rfl; exact lt_irrefl _ hl)]
  exact hr

theorem sideClear_shows : (sideDefects (sideClear k sd b s) k sd).getLsbD b = false := by
  rw [sideClear_eq, sideShow_bit hb]
  exact sideShown_cleared hb (by rw [sideCondition_raw s false (by omega), if_pos rfl])

end

theorem sideDeclare_latched {k : Nat} {sd : Side} {b : Nat} {s : State} (h : (sideDefects (sideDeclare k sd b s) k sd).getLsbD b = true) :
    ((sideDeclare k sd b s).otn.sideLatched.get (sideKey k sd) 0).getLsbD b = true := by
  rw [sideDeclare_eq, sideShow_sideDefects] at h
  rw [sideDeclare_eq, sideShow_sideLatched, BitVec.getLsbD_or, h, Bool.or_true]


/-- Both states show the same defects of every side and hold the same conditions; which of dAIS, dOCI and dLCK is present, and AM lock, may differ. -/
structure SameSides (s t : State) : Prop where
  side : t.otn.side = s.otn.side
  sideRaw : t.otn.sideRaw = s.otn.sideRaw

theorem amAll_sameSides (k : Fin 8) (sd : Side) (on : Bool) (s : State) : SameSides s (amAll k sd on s) :=
  ⟨keep (P := fun s => s.otn.side) fun _ _ => rfl, keep (P := fun s => s.otn.sideRaw) fun _ _ => rfl⟩

theorem declare_side {k : Fin 8} {sd : Side} {b : Fin 19} {w : Fin 3} {s : State} (h : otnShape s k ≠ 0) :
    ∃ u, declare (.side k sd b w) s = sideDeclare k sd b u ∧ SameSides s u := by
  unfold declare
  dsimp only
  rw [if_neg h]
  split
  · next hb => exact ⟨pmStatSet k sd w true s, by rw [hb], rfl, rfl⟩
  · split
    · next hb => exact ⟨_, by rw [hb], amAll_sameSides k sd false s⟩
    · exact ⟨s, rfl, rfl, rfl⟩

theorem undeclare_side {k : Fin 8} {sd : Side} {b : Fin 19} {w : Fin 3} (h : b.val ≠ 13) (s : State) :
    ∃ u, undeclare (.side k sd b w) s = sideClear k sd b u := by
  unfold undeclare
  dsimp only
  rw [if_neg h]
  split
  · next hb => exact ⟨_, by rw [hb]⟩
  · exact ⟨s, rfl⟩

/-! ## The rows -/

theorem exec_defectDeclared (d : DefectId) (s : State) : exec (.defectDeclared d) s = .next (declare d s) := rfl
theorem exec_defectCleared (d : DefectId) (s : State) : exec (.defectCleared d) s = .next (undeclare d s) := rfl

theorem declare_tributary {i : Fin 256} {sd : Side} {b : Fin 7} {s : State} (h : (s.tr i).valid = true) :
    declare (.tributary i sd b) s = tribDeclare i sd b s := if_pos h

theorem declare_security {i : Fin 256} {w : Fin 3} {s : State} (h : (s.tr i).valid = true) (hm : (s.tr i).mode ≠ 0) :
    declare (.security i w) s = secDeclare i (16 + w) s := if_pos (by rw [h, Bool.true_and]; exact bne_iff_ne.mpr hm)

/-! ## The statement -/

/-- Settles O17: a side by what it shows of its conditions once its raw bit is set or cleared, a tributary and its security likewise. -/
theorem defectsSettleByLayer : Obligations.DefectsSettleByLayer := by
  unfold Obligations.DefectsSettleByLayer
  refine ⟨?declared, ?suppressed, ?tributary, ?security, ?sideCleared, ?tributaryCleared, ?securityCleared⟩
  case declared =>
    intro k sd b w s hk hlow
    obtain ⟨u, hu, hsame⟩ := declare_side (sd := sd) (b := b) (w := w) hk
    have hshows := sideDeclare_shows u b.isLt (hsame.sideRaw ▸ hlow)
    exact ⟨_, (exec_defectDeclared _ s).trans (congrArg _ hu), hshows, sideDeclare_latched hshows, sideShow_ssf k sd _⟩
  case suppressed =>
    intro k sd b w c s hk hc hl hv hr
    obtain ⟨u, hu, hsame⟩ := declare_side (sd := sd) (b := b) (w := w) hk
    have hdefects : sideDefects u k sd = sideDefects s k sd := by unfold sideDefects; rw [hsame.side]
    refine ⟨_, (exec_defectDeclared _ s).trans (congrArg _ hu), ?_, sideDeclare_raw u (by omega)⟩
    rw [sideDeclare_suppressed u b.isLt hc hl (hdefects ▸ hv) (hsame.sideRaw ▸ hr), hdefects]
  case tributary =>
    exact fun i sd b s hv h => ⟨_, (exec_defectDeclared _ s).trans (congrArg _ (declare_tributary hv)), tribDeclare_shows h⟩
  case security =>
    exact fun i w s hv hm hside hline => ⟨_, (exec_defectDeclared _ s).trans (congrArg _ (declare_security hv hm)), secDeclare_shows hside hline⟩
  case sideCleared =>
    intro k sd b w s hb
    obtain ⟨u, hu⟩ := undeclare_side (sd := sd) (w := w) hb s
    exact ⟨_, (exec_defectCleared _ s).trans (congrArg _ hu), sideClear_shows u b.isLt, sideShow_ssf k sd _⟩
  case tributaryCleared =>
    exact fun i sd b s => ⟨_, exec_defectCleared _ s, tribDefect_cleared (side_bit_lt sd b) (sideMask_getLsbD sd b).2⟩
  case securityCleared =>
    exact fun i w s => ⟨_, exec_defectCleared _ s, tribDefect_cleared (by omega) (security_suppressed w).1⟩

end Sys2Proof.Machine

/-! Frame alignment (R132 to R137): the aligners' records, markers and candidates, loss of frame and multiframe, and the 3 ms timer. -/
namespace Sys2Proof.Machine

/-! ## The aligners' records -/

theorem sliceKey_inj {k l : Fin 8} {x y : Side} {i j : Fin 8} (h : 16 * k.val + 8 * x.num + i.val = 16 * l.val + 8 * y.num + j.val) : k = l ∧ x = y ∧ i = j := by
  cases x <;> cases y <;> simp only [Side.num, Fin.ext_iff, reduceCtorEq, true_and, false_and, and_false] at h ⊢ <;> omega

theorem tribKey_inj {t u : Fin 256} {x y : Side} (h : 2 * t.val + x.num = 2 * u.val + y.num) : t = u ∧ x = y := by
  cases x <;> cases y <;> simp only [Side.num, Fin.ext_iff, reduceCtorEq, and_true, and_false] at h ⊢ <;> omega

@[simp] theorem updAligner_aligner (a b : AlignerId) (f : Aligner → Aligner) (s : State) :
    (updAligner a f s).aligner b = if b = a then f (s.aligner a) else s.aligner b := by
  cases a with
  | slice k x i =>
    cases b with
    | slice l y j =>
      refine (Tab.get_upd ..).trans (if_congr ⟨fun h => ?_, fun h => ?_⟩ rfl rfl)
      · obtain ⟨rfl, rfl, rfl⟩ := sliceKey_inj h; rfl
      · cases h; rfl
    | tributary => rfl
  | tributary t x =>
    cases b with
    | slice => rfl
    | tributary u y =>
      refine (Tab.get_upd ..).trans (if_congr ⟨fun h => ?_, fun h => ?_⟩ rfl rfl)
      · obtain ⟨rfl, rfl⟩ := tribKey_inj h; rfl
      · cases h; rfl

theorem updAligner_time (a : AlignerId) (f : Aligner → Aligner) (s : State) : (updAligner a f s).time = s.time :=
  updAligner_keep State.time (fun _ _ => rfl) a f s

theorem aligner_of_otn {s t : State} (h : t.otn.slices = s.otn.slices) (g : t.otn.tribAl = s.otn.tribAl) (a : AlignerId) : t.aligner a = s.aligner a := by
  unfold State.aligner; rw [h, g]

@[simp] theorem sideDeclare_aligner (k : Nat) (sd : Side) (b : Nat) (s : State) (a : AlignerId) : (sideDeclare k sd b s).aligner a = s.aligner a :=
  aligner_of_otn (sideShow_otn_keep Otn.slices (fun _ _ _ _ _ _ _ => rfl) k sd _) (sideShow_otn_keep Otn.tribAl (fun _ _ _ _ _ _ _ => rfl) k sd _) a

@[simp] theorem sideClear_aligner (k : Nat) (sd : Side) (b : Nat) (s : State) (a : AlignerId) : (sideClear k sd b s).aligner a = s.aligner a :=
  aligner_of_otn (sideShow_otn_keep Otn.slices (fun _ _ _ _ _ _ _ => rfl) k sd _) (sideShow_otn_keep Otn.tribAl (fun _ _ _ _ _ _ _ => rfl) k sd _) a

@[simp] theorem tribDefect_aligner (t b : Nat) (on : Bool) (s : State) (a : AlignerId) : (tribDefect t b on s).aligner a = s.aligner a := by
  rw [tribDefect_eq]
  refine aligner_of_otn ?_ ?_ a
  · rw [tribShow_otn_keep Otn.slices fun _ _ _ _ _ _ _ => rfl, tribNoted_otn_keep Otn.slices fun _ _ _ => rfl]
  · rw [tribShow_otn_keep Otn.tribAl fun _ _ _ _ _ _ _ => rfl, tribNoted_otn_keep Otn.tribAl fun _ _ _ => rfl]

theorem framesBetween_self (c : Nat) : framesBetween c c = 0 := by
  unfold framesBetween
  rw [Nat.sub_self, Nat.zero_mul, Nat.zero_add]
  exact Nat.div_eq_of_lt (by norm_num [kiloOtucFrames])

/-- The record of an aligner whose frame timer starts at cycle `n`, its MFAS carried forward (R137). -/
def Aligner.restarted (x : Aligner) (n : Nat) : Aligner := { x with mfas := x.mfas + BitVec.ofNat 8 (framesBetween x.timer n), timer := n }

theorem Aligner.restarted_self {x : Aligner} {n : Nat} (h : x.timer = n) : x.restarted n = x := by
  subst h
  unfold Aligner.restarted
  rw [framesBetween_self]
  exact congrArg (fun m => { x with mfas := m }) (BitVec.add_zero x.mfas)

/-- The frame timers of an OTUCn start together: that of an aligner started just now stays as it is (R137). -/
theorem restartSlices_aligner {a : AlignerId} {s : State} (h : (s.aligner a).timer = s.time.cycles) (k : Fin 8) (sd : Side) :
    (restartSlices k sd s).aligner a = s.aligner a := by
  have hfold (l : List Nat) (u : State) (hu : (u.aligner a).timer = u.time.cycles) :
      (l.foldl (fun u j => updAligner (.slice k sd (Fin.ofNat 8 j)) (fun x => x.restarted u.time.cycles) u) u).aligner a = u.aligner a := by
    induction l generalizing u with
    | nil => rfl
    | cons j l ih =>
      have hone : (updAligner (.slice k sd (Fin.ofNat 8 j)) (fun x => x.restarted u.time.cycles) u).aligner a = u.aligner a := by
        rw [updAligner_aligner]
        split
        · next ha => rw [← ha, Aligner.restarted_self hu]
        · rfl
      rw [List.foldl_cons, ih _ (by rw [hone, hu, updAligner_time]), hone]
  exact hfold _ s h

/-! ## Markers and candidates (R132 to R134) -/

theorem exec_alignerLock (a : AlignerId) (view : LockView) (s : State) : exec (.alignerLock a view) s = .next (alignerLock a view.markers view.cands s) := rfl

theorem alignerLock_markers {a : AlignerId} {s : State} (h : alignerOn s a = true) (m : List Bool) : alignerLock a m [] s = alignerMarkers a m s := by
  unfold alignerLock alignerOffers
  simp [h]

theorem alignerMarkers_none (a : AlignerId) (s : State) : alignerMarkers a [] s = s := by
  cases a <;> rfl

theorem alignerLock_cands {a : AlignerId} {s : State} (h : alignerOn s a = true) {l : List Candidate} (hl : ∀ c ∈ l, examines s a c = true) :
    alignerLock a [] l s = alignerOffers a l s := by
  unfold alignerLock
  simp only [h, Bool.not_true, Bool.false_eq_true, if_false, alignerMarkers_none, List.filter_eq_self.mpr hl]

/-- The AM lock that the markers of a slice come to; lost, it is the dLOL of the side. -/
theorem alignerMarkers_slice {k : Fin 8} {sd : Side} {j : Fin 8} {s : State} {m : List Bool} (hm : m ≠ []) :
    ((alignerMarkers (.slice k sd j) m s).aligner (.slice k sd j)) = m.foldl amSee (s.aligner (.slice k sd j)) ∧
      ((s.aligner (.slice k sd j)).am = true → (m.foldl amSee (s.aligner (.slice k sd j))).am = false →
        ((alignerMarkers (.slice k sd j) m s).otn.sideRaw.get (sideKey k sd) 0).getLsbD 1 = true) := by
  have hseen : (updAligner (.slice k sd j) (fun x => m.foldl amSee x) s).aligner (.slice k sd j) = m.foldl amSee (s.aligner (.slice k sd j)) := by
    rw [updAligner_aligner, if_pos rfl]
  unfold alignerMarkers
  dsimp only
  rw [if_neg (by simpa using hm), hseen]
  split
  · exact ⟨by rw [sideDeclare_aligner, hseen], fun _ _ => sideDeclare_raw _ (by omega)⟩
  · next hlost =>
    refine ⟨?_, fun hwas hnow => absurd (by rw [hwas, hnow]; rfl) hlost⟩
    split
    · rw [sideClear_aligner, hseen]
    · exact hseen

theorem amSee_two_valid {x : Aligner} (h : x.am = false) (hr : x.amRun = 0) : ([true, true].foldl amSee x).am = true := by
  simp [amSee, h, hr]

theorem amSee_four_invalid {x : Aligner} (h : x.am = true) (hr : x.amRun = 0) : ([false, false, false, false].foldl amSee x).am = false := by
  simp [amSee, h, hr]

/-- The record of an aligner that locks to candidate `c` at cycle `n`. -/
def Aligner.locked (x : Aligner) (c : Candidate) (n : Nat) : Aligner :=
  { x with inFrame := true, offset := c.offset, mfas := c.mfas, timer := n, oom := false, oomAt := n }

theorem alignerOffers_one {a : AlignerId} {c : Candidate} {s : State} (h : alignerOn s a = true) (hf : (s.aligner a).inFrame = false) :
    (alignerOffers a [c] s).aligner a = (s.aligner a).locked c s.time.cycles := by
  have hlocked : (updAligner a (fun x => x.locked c s.time.cycles) s).aligner a = (s.aligner a).locked c s.time.cycles := by
    rw [updAligner_aligner, if_pos rfl]
  unfold alignerOffers
  simp only [h, hf, Bool.not_true, List.isEmpty_cons, Bool.or_self, Bool.false_eq_true, if_false, bestCandidate]
  split
  · split
    · rw [restartSlices_aligner]
      · exact hlocked
      · exact (congrArg Aligner.timer hlocked).trans (congrArg TimeUnit.cycles (updAligner_time ..)).symm
    · exact hlocked
  · exact hlocked

theorem bestCandidate_tie {c d : Candidate} (h : c.agreements = d.agreements) : bestCandidate [c, d] = none := by
  simp [bestCandidate, h]

theorem alignerOffers_tie {a : AlignerId} {c d : Candidate} {s : State} (h : alignerOn s a = true) (hf : (s.aligner a).inFrame = false)
    (heq : c.agreements = d.agreements) : alignerOffers a [c, d] s = { s with otn := { s.otn with ambiguities := s.otn.ambiguities + 1 } } := by
  unfold alignerOffers
  simp only [h, hf, Bool.not_true, List.isEmpty_cons, Bool.or_self, Bool.false_eq_true, if_false, bestCandidate_tie heq]

/-! ## Out of frame and out of multiframe (R135, R136) -/

/-- The record of an aligner that falls out of frame at cycle `n`. -/
def Aligner.hunting (x : Aligner) (n : Nat) : Aligner := { x with inFrame := false, oom := false, timer := n }

theorem alignerHunt_aligner (a : AlignerId) (s : State) : (alignerHunt a s).aligner a = (s.aligner a).hunting s.time.cycles := by
  have hhunt : (updAligner a (fun x => x.hunting s.time.cycles) s).aligner a = (s.aligner a).hunting s.time.cycles := by
    rw [updAligner_aligner, if_pos rfl]
  unfold alignerHunt
  dsimp only
  split
  · split
    · rw [restartSlices_aligner]
      · exact hhunt
      · exact (congrArg Aligner.timer hhunt).trans (congrArg TimeUnit.cycles (updAligner_time ..)).symm
    · exact hhunt
  · exact hhunt

theorem exec_alignerOof {a : AlignerId} {s : State} (h : alignerOn s a = true) (hf : (s.aligner a).inFrame = true) :
    exec (.alignerOof a) s = .next (alignerHunt a (updAligner a (fun x => { x with fasErrors := x.fasErrors + 4 }) s)) :=
  congrArg Host.Outcome.next (if_pos (by rw [h, hf, Bool.and_self]))

theorem exec_outOfMultiframe {a : AlignerId} {s : State} (h : alignerOn s a = true) : exec (.outOfMultiframe a) s = .next (outOfMulti a s) :=
  congrArg Host.Outcome.next (if_pos h)

theorem outOfMulti_slice {k : Fin 8} {sd : Side} {j : Fin 8} {s : State} (hf : (s.aligner (.slice k sd j)).inFrame = true)
    (ho : (s.aligner (.slice k sd j)).oom = false) :
    (outOfMulti (.slice k sd j) s).aligner (.slice k sd j) = { s.aligner (.slice k sd j) with oom := true, oomAt := s.time.cycles } := by
  unfold outOfMulti
  simp only [hf, ho, Bool.not_true, Bool.false_eq_true, if_false, updAligner_aligner, if_true]

theorem outOfMulti_tributary {i : Fin 256} {sd : Side} {s : State} (hf : (s.aligner (.tributary i sd)).inFrame = true) :
    outOfMulti (.tributary i sd) s = alignerHunt (.tributary i sd) s := by
  unfold outOfMulti
  simp only [hf, Bool.not_true, Bool.false_eq_true, if_false]

/-! ## The 3 ms timer (R136) -/

/-- The slices of an OTUCn are not in frame together while one of them hunts. -/
theorem framed_of_hunting {a : AlignerId} {s : State} (h : alignerOn s a = true) (hf : (s.aligner a).inFrame = false) : framed s a = false := by
  cases a with
  | tributary => exact hf
  | slice k sd j =>
    have hj : j.val < otnShape s k := of_decide_eq_true h
    have hall : ((List.range (otnShape s k)).map (fun j => s.aligner (.slice k sd (Fin.ofNat 8 j)))).all (fun x => x.inFrame) = false := by
      refine List.all_eq_false.mpr ⟨s.aligner (.slice k sd j), List.mem_map.mpr ⟨j, List.mem_range.mpr hj, ?_⟩, by rw [hf]; exact Bool.false_ne_true⟩
      rw [Fin.ofNat_val_eq_self]
    unfold framed slicesTogether
    dsimp only
    rw [hall, Bool.false_and]

theorem alignerDue_hunting {a : AlignerId} {s : State} (h : alignerOn s a = true) (hf : (s.aligner a).inFrame = false) (hl : (s.aligner a).lof = false) :
    alignerDue s a = some ((s.aligner a).timer + threeMs) := by
  unfold alignerDue
  simp [framed_of_hunting h hf, hf, hl]

/-! Waiting leaves the aligners and the sides as they are. -/

theorem waitCycle_aligner (c : Nat) (s : State) (a : AlignerId) : (waitCycle c s).aligner a = s.aligner a := rfl
theorem waitCycle_alignerOn (c : Nat) (s : State) (a : AlignerId) : alignerOn (waitCycle c s) a = alignerOn s a := rfl
theorem waitCycle_pairDefects (c : Nat) (s : State) (t : Nat) (sd : Side) :
    sideDefects (waitCycle c s) (tribPair (waitCycle c s) t) sd = sideDefects s (tribPair s t) sd := rfl
theorem updAligner_pairDefects (a : AlignerId) (f : Aligner → Aligner) (s : State) (t : Nat) (sd : Side) :
    sideDefects (updAligner a f s) (tribPair (updAligner a f s) t) sd = sideDefects s (tribPair s t) sd := by
  cases a <;> rfl

theorem alignerTimer_hunting {a : AlignerId} {s : State} (h : alignerOn s a = true) (hf : (s.aligner a).inFrame = false) (hl : (s.aligner a).lof = false) :
    ∃ f : Aligner → Aligner, f (s.aligner a) = { s.aligner a with lof := true } ∧
      alignerTimer a s = alignerDefects a (updAligner a f (waitCycle ((s.aligner a).timer + threeMs) s)) := by
  have hdue := (waitCycle_cycles ((s.aligner a).timer + threeMs) s).1
  have hup : framed (waitCycle ((s.aligner a).timer + threeMs) s) a = false := 
    framed_of_hunting (by rw [waitCycle_alignerOn, h]) (by rw [waitCycle_aligner, hf])
  refine ⟨_, ?_, by unfold alignerTimer; rw [alignerDue_hunting h hf hl]⟩
  dsimp only
  rw [if_pos hdue, hup]
  simp [hf]

theorem alignerDefects_aligner (a b : AlignerId) (s : State) : (alignerDefects a s).aligner b = s.aligner b := by
  unfold alignerDefects tribDeclare tribClear
  split
  · dsimp only
    (repeat' split) <;> simp only [sideDeclare_aligner, sideClear_aligner]
  · split <;> exact tribDefect_aligner ..

theorem exec_alignmentTimerExpiry {a : AlignerId} {s : State} (h : alignerOn s a = true) : exec (.alignmentTimerExpiry a) s = .next (alignerTimer a s) :=
  congrArg Host.Outcome.next (if_pos h)

theorem alignerTimer_declares {a : AlignerId} {s : State} (h : alignerOn s a = true) (hf : (s.aligner a).inFrame = false) (hl : (s.aligner a).lof = false) :
    (s.aligner a).timer + threeMs ≤ (alignerTimer a s).time.cycles ∧ ((alignerTimer a s).aligner a).lof = true ∧
      ∀ (i : Fin 256) (sd : Side), a = .tributary i sd → bits (sideDefects s (tribPair s i) sd).toNat 18 0 = 0 →
        ((alignerTimer a s).otn.trib.get i 0).getLsbD (8 * sd.num) = true := by
  obtain ⟨f, hfa, htimer⟩ := alignerTimer_hunting h hf hl
  have hlof : ((updAligner a f (waitCycle ((s.aligner a).timer + threeMs) s)).aligner a).lof = true := by
    rw [updAligner_aligner, if_pos rfl, waitCycle_aligner, hfa]
  rw [htimer]
  refine ⟨?_, by rw [alignerDefects_aligner, hlof], ?_⟩
  · rw [alignerDefects_keep State.time fun _ _ _ => rfl, updAligner_time]
    exact (waitCycle_cycles _ s).1
  · rintro i sd rfl hside
    unfold alignerDefects
    dsimp only
    rw [if_pos hlof]
    exact tribDeclare_shows (b := 0) (by rw [updAligner_pairDefects, waitCycle_pairDefects, hside])

/-! ## The statement -/

/-- Settles O16: each row by the record of the aligner it leaves, and what that declares. -/
theorem alignersFollowTheirStates : Obligations.AlignersFollowTheirStates := by
  unfold Obligations.AlignersFollowTheirStates
  refine ⟨?gains, ?loses, ?locks, ?tie, ?fifth, ?expiry, ?slice, ?tributary⟩
  case gains =>
    intro k sd j s h ha hr
    obtain ⟨hrecord, -⟩ := alignerMarkers_slice (k := k) (sd := sd) (j := j) (s := s) (m := [true, true]) (List.cons_ne_nil _ _)
    exact ⟨_, (exec_alignerLock _ _ s).trans (congrArg _ (alignerLock_markers h _)), by rw [hrecord, amSee_two_valid ha hr]⟩
  case loses =>
    intro k sd j s h ha hr
    obtain ⟨hrecord, hlol⟩ := alignerMarkers_slice (k := k) (sd := sd) (j := j) (s := s) (m := [false, false, false, false]) (List.cons_ne_nil _ _)
    exact ⟨_, (exec_alignerLock _ _ s).trans (congrArg _ (alignerLock_markers h _)), by rw [hrecord, amSee_four_invalid ha hr], hlol ha (amSee_four_invalid ha hr)⟩
  case locks =>
    intro a c s h hf hc
    refine ⟨_, (exec_alignerLock _ _ s).trans (congrArg _ (alignerLock_cands h (l := [c]) (by simpa using hc))), ?_⟩
    rw [alignerOffers_one h hf]
    exact ⟨rfl, rfl, rfl, rfl, rfl⟩
  case tie =>
    intro a c d s h hf heq hc hd
    exact (exec_alignerLock _ _ s).trans (congrArg _ ((alignerLock_cands h (l := [c, d]) (by simpa using ⟨hc, hd⟩)).trans (alignerOffers_tie h hf heq)))
  case fifth =>
    intro a s h hf
    refine ⟨_, exec_alignerOof h hf, ?_⟩
    rw [alignerHunt_aligner, updAligner_aligner, if_pos rfl, updAligner_time]
    exact ⟨rfl, rfl, rfl⟩
  case expiry => exact fun a s h hf hl => ⟨_, exec_alignmentTimerExpiry h, alignerTimer_declares h hf hl⟩
  case slice =>
    intro k sd j s h hf ho
    refine ⟨_, exec_outOfMultiframe h, ?_⟩
    rw [outOfMulti_slice hf ho]
    exact ⟨hf, rfl, rfl⟩
  case tributary =>
    intro i sd s hv hf
    refine ⟨_, exec_outOfMultiframe (a := .tributary i sd) hv, ?_⟩
    rw [outOfMulti_tributary hf, alignerHunt_aligner]
    exact ⟨rfl, rfl⟩

end Sys2Proof.Machine

/-! Remapping of tributary frames (R146 to R151, R163): what goes out through the multiplexer, a committed frame that is sent, and ODUk-AIS for one that is
missing. -/
namespace Sys2Proof.Machine

/-! ## Out through the multiplexer (R148) -/

/-- The GCC octets leave the frame alignment overhead and MFAS as they are. -/
theorem gccSend_take (p : PD) (t : Nat) {ov : Octets} (h : 7 ≤ ov.length) (s : State) : (gccSend p t ov s).1.take 7 = ov.take 7 := by
  unfold gccSend
  dsimp only
  split
  · unfold patch
    rw [List.append_assoc, List.take_append_of_le_length (by rw [List.length_take]; omega), List.take_take]
    rfl
  · rfl

/-- A frame goes out with the JC octets of its tributary and its own alignment; the tributary's record stays. -/
theorem oduOut_spec (t : Nat) (d : Dir) (payload ov : Octets) (s : State) :
    (∃ o, (oduOut t d payload ov s).out = .odu t d payload o (jcOf (s.tr t) d) :: s.out ∧ (7 ≤ ov.length → o.take 7 = ov.take 7)) ∧
      (oduOut t d payload ov s).otn = s.otn ∧ (oduOut t d payload ov s).time = s.time := by
  refine ⟨⟨(gccSend ⟨Fin.ofNat 32 (4 * tribPair s t), d⟩ t ov (edgePass (edgeOtnOut (tribPair s t) d) payload.length s)).1, ?_, fun h => gccSend_take _ _ h _⟩, oduOut_keep State.otn (fun _ _ _ _ => rfl) t d payload ov s, oduOut_keep State.time (fun _ _ _ _ => rfl) t d payload ov s⟩
  unfold oduOut
  dsimp only
  rw [emit_out, gccSend_keep State.out fun _ _ => rfl, edgePass_keep State.out fun _ _ => rfl]

/-! ## The records of what was sent -/

section
variable (t : Nat) (d : Dir) (s : State)

theorem playSent_playOf (rest : List PlayItem) (m : BitVec 8) (delta : Nat) : playOf ((playSent t d rest m delta s).tr t) d = rest := by
  rw [playSent, updTr_get, if_pos rfl]; cases d <;> rfl

theorem playSent_mfasNext (rest : List PlayItem) (m : BitVec 8) (delta : Nat) : mfasNext ((playSent t d rest m delta s).tr t) d = some (m + 1) := by
  rw [playSent, updTr_get, if_pos rfl]; cases d <;> rfl

theorem playSent_jcOf (rest : List PlayItem) (m : BitVec 8) (delta : Nat) : jcOf ((playSent t d rest m delta s).tr t) d = jcOf (s.tr t) d := by
  rw [playSent, updTr_get, if_pos rfl]; cases d <;> rfl

theorem playSent_counters (rest : List PlayItem) (m : BitVec 8) (delta : Nat) : ((playSent t d rest m delta s).tr t).counters = (s.tr t).counters := by
  rw [playSent, updTr_get, if_pos rfl]; cases d <;> rfl

theorem tribCount_tr (i : Nat) : (tribCount t i s).tr t = { s.tr t with counters := (s.tr t).counters.bump i 1 } := by
  rw [tribCount, updTr_get, if_pos rfl]

theorem tribCount_tr_keep {β : Type} (P : Trib → β) (hP : ∀ x c, P { x with counters := c } = P x) (i : Nat) : P ((tribCount t i s).tr t) = P (s.tr t) := by
  rw [tribCount_tr, hP]

theorem gmpTake_tr_keep {β : Type} (P : Trib → β) (hP : ∀ x a b c e, P { x with cmOut := a, cnOut := b, cmOutL := c, cnOutL := e } = P x) :
    P ((gmpTake t d s).tr t) = P (s.tr t) := by
  rw [gmpTake, updTr_get, if_pos rfl]
  cases d <;> exact hP (s.tr t) _ _ _ _

/-- The JC octets are those of the Cm and CnD chosen for the frame (R148). -/
theorem gmpTake_jcOf : jcOf ((gmpTake t d s).tr t) d = Config.jcOctets (gmpNext t d s).1 (gmpNext t d s).2 := by
  rw [gmpTake, updTr_get, if_pos rfl]; cases d <;> rfl

theorem gmpTake_tribAis : tribAis (gmpTake t d s) t d = tribAis s t d := by
  unfold tribAis
  dsimp only
  rw [gmpTake_tr_keep t d s Trib.mode fun _ _ _ _ _ => rfl]
  rfl

end

theorem tribDefect_tr_keep {β : Type} (P : Trib → β) (hP : ∀ x a b c d, P { x with rxState := a, rxSeen := b, acqL0 := c, acqCtr := d } = P x)
    (t b : Nat) (on : Bool) (s : State) : P ((tribDefect t b on s).tr t) = P (s.tr t) := by
  rw [tribDefect_eq, tribShow_tr_keep P hP]
  unfold State.tr
  rw [tribNoted_otn_keep Otn.tribs fun _ _ _ => rfl]

/-! ## A frame is sent (R146, R163) -/

/-- A frame is taken note of as sent: the buffer is left with `rest`, and MFAS `m` was the last. -/
structure NotedSent (t : Nat) (d : Dir) (rest : List PlayItem) (m : BitVec 8) (s u : State) : Prop where
  jc : jcOf (u.tr t) d = jcOf (s.tr t) d
  buffer : playOf (u.tr t) d = rest
  next : mfasNext (u.tr t) d = some (m + 1)
  out : u.out = s.out
  time : u.time = s.time

section
variable {t : Nat} {d : Dir} {rest : List PlayItem} {m : BitVec 8} {s u : State}

theorem playSent_noted (delta : Nat) : NotedSent t d rest m s (playSent t d rest m delta s) :=
  ⟨playSent_jcOf .., playSent_playOf .., playSent_mfasNext .., rfl, rfl⟩

theorem NotedSent.tribCount (h : NotedSent t d rest m s u) (i : Nat) : NotedSent t d rest m s (tribCount t i u) where
  jc := (tribCount_tr_keep t u (fun x => jcOf x d) (fun _ _ => rfl) i).trans h.jc
  buffer := (tribCount_tr_keep t u (fun x => playOf x d) (fun _ _ => rfl) i).trans h.buffer
  next := (tribCount_tr_keep t u (fun x => mfasNext x d) (fun _ _ => rfl) i).trans h.next
  out := h.out
  time := h.time

/-- The frame `payload` is what goes out, and what was noted of it stands. -/
structure SentAs (t : Nat) (d : Dir) (payload : Octets) (rest : List PlayItem) (m : BitVec 8) (s u : State) : Prop where
  out : ∃ o, u.out = .odu t d payload o (jcOf (s.tr t) d) :: s.out
  buffer : playOf (u.tr t) d = rest
  next : mfasNext (u.tr t) d = some (m + 1)
  time : u.time = s.time

theorem NotedSent.oduOut (h : NotedSent t d rest m s u) (payload ov : Octets) : SentAs t d payload rest m s (oduOut t d payload ov u) := by
  obtain ⟨⟨o, hout, -⟩, hotn, htime⟩ := oduOut_spec t d payload ov u
  have htr : (Machine.oduOut t d payload ov u).tr t = u.tr t := by unfold State.tr; rw [hotn]
  exact ⟨⟨o, by rw [hout, h.jc, h.out]⟩, by rw [htr, h.buffer], by rw [htr, h.next], htime.trans h.time⟩

end

/-- A committed frame goes out as ODUk-AIS where the consequent action or the frame itself calls for it, and with its own payload otherwise. -/
theorem playSend_sentAs (t : Nat) (d : Dir) (x : PlayItem) (rest : List PlayItem) (s : State) :
    SentAs t d (if tribAis s t d = true ∨ x.ais = true then List.replicate 15232 0xFF else x.payload) rest x.mfas s (playSend t d x rest s) := by
  unfold playSend
  dsimp only
  split
  · exact ((playSent_noted 0).tribCount 4).oduOut ..
  · split
    · exact (playSent_noted 0).oduOut ..
    · exact (playSent_noted _).oduOut ..

/-! ## Remapping -/

theorem exec_tributaryRemapDue (i : Fin 256) (d : Dir) (e : Nat) (s : State) :
    exec (.tributaryRemapDue i d e) s = .next (remap i d (waitCycle (s.time.cycles + e) s)) := rfl

section
variable {t : Nat} {d : Dir} {s : State} (hv : (s.tr t).valid = true) (hk : otnShape s (tribPair s t) ≠ 0)
include hv hk

/-- A frame on die that follows the one sent last is sent once its cushion has passed. -/
theorem remap_follows {x : PlayItem} {rest : List PlayItem} (hp : playOf (s.tr t) d = x :: rest) (hx : x.place = [])
    (hm : ∀ m, mfasNext (s.tr t) d = some m → m = x.mfas) :
    remap t d s = playSend t d x rest (waitCycle (x.acceptAt + cyclesUs (s.odNat 0x2802 (tribPair s t + 1))) (gmpTake t d s)) := by
  have hfetch (u : State) : playFetch t d x u = (some x, u) := if_pos (by rw [hx]; rfl)
  have hod : (gmpTake t d s).odNat 0x2802 (tribPair s t + 1) = s.odNat 0x2802 (tribPair s t + 1) := rfl
  unfold remap
  simp only [hv, beq_eq_false_iff_ne.mpr hk, Bool.not_true, Bool.or_self, Bool.false_eq_true, if_false, hp, hfetch, hod]
  refine if_pos ?_
  cases h : mfasNext (s.tr t) d with
  | none => rfl
  | some m => simp [hm m h]

theorem remap_empty (hp : playOf (s.tr t) d = []) : remap t d s = playUnderrun t d (gmpTake t d s) := by
  unfold remap
  simp only [hv, beq_eq_false_iff_ne.mpr hk, Bool.not_true, Bool.or_self, Bool.false_eq_true, if_false, hp]

end

/-! ## A frame is missing (R147, R151) -/

/-- The bit of a tributary's status that shows a play-out underrun in a direction. -/
def underrunBit : Dir → Nat
  | .s2l => 7
  | .l2s => 15

/-- A play-out underrun is counted and shows. -/
def underrunShown (t : Nat) (d : Dir) (s : State) : State := tribDefect t (underrunBit d) true (tribCount t 5 (tribCount t 4 s))

theorem playUnderrun_eq (t : Nat) (d : Dir) (s : State) : playUnderrun t d s = oduOut t d (List.replicate 15232 0xFF) (freshAis ((mfasNext (s.tr t) d).getD 0))
    (playSent t d (playOf ((underrunShown t d s).tr t) d) ((mfasNext (s.tr t) d).getD 0) 0 (underrunShown t d s)) := by
  cases d <;> rfl

section
variable (t : Nat) (d : Dir) (s : State)

theorem underrunShown_bit : ((underrunShown t d s).otn.trib.get t 0).getLsbD (underrunBit d) = true := by
  cases d <;> exact tribDefect_marked (by decide) (by decide)

theorem underrunShown_tr_keep {β : Type} (P : Trib → β) (hA : ∀ x a b c d, P { x with rxState := a, rxSeen := b, acqL0 := c, acqCtr := d } = P x)
    (hC : ∀ x c, P { x with counters := c } = P x) : P ((underrunShown t d s).tr t) = P (s.tr t) := by
  rw [underrunShown, tribDefect_tr_keep P hA, tribCount_tr_keep t _ P hC, tribCount_tr_keep t _ P hC]

theorem underrunShown_counter : ((underrunShown t d s).tr t).counters.get 5 0 = (s.tr t).counters.get 5 0 + 1 := by
  rw [underrunShown, tribDefect_tr_keep Trib.counters fun _ _ _ _ _ => rfl, tribCount_tr, tribCount_tr]
  simp only [Tab.get_bump]
  rfl

theorem underrunShown_out : (underrunShown t d s).out = s.out := tribDefect_keep State.out (fun _ _ => rfl) t _ true _
theorem underrunShown_time : (underrunShown t d s).time = s.time := tribDefect_keep State.time (fun _ _ => rfl) t _ true _

theorem freshAis_length (m : BitVec 8) : (freshAis m).length = 64 := rfl
theorem freshAis_take (m : BitVec 8) : (freshAis m).take 7 = beBytes 6 0xF6F6F6282828 ++ [m] := rfl

/-- A frame that goes out once it has been taken note of. -/
theorem oduOut_playSent (payload ov : Octets) (rest : List PlayItem) (m : BitVec 8) (delta : Nat) :
    (∃ o, (oduOut t d payload ov (playSent t d rest m delta s)).out = .odu t d payload o (jcOf (s.tr t) d) :: s.out ∧ (7 ≤ ov.length → o.take 7 = ov.take 7)) ∧
      (oduOut t d payload ov (playSent t d rest m delta s)).time = s.time ∧
      playOf ((oduOut t d payload ov (playSent t d rest m delta s)).tr t) d = rest ∧
      ((oduOut t d payload ov (playSent t d rest m delta s)).tr t).counters = (s.tr t).counters ∧
      (oduOut t d payload ov (playSent t d rest m delta s)).otn.trib = s.otn.trib := by
  obtain ⟨⟨o, hout, htake⟩, hotn, htime⟩ := oduOut_spec t d payload ov (playSent t d rest m delta s)
  have htr : (oduOut t d payload ov (playSent t d rest m delta s)).tr t = (playSent t d rest m delta s).tr t := congrArg (fun o : Otn => o.tribs.get t {}) hotn
  exact ⟨⟨o, by rw [hout, playSent_jcOf]; rfl, htake⟩, htime, by rw [htr, playSent_playOf], by rw [htr, playSent_counters], (congrArg Otn.trib hotn).trans rfl⟩

/-- The frame due is replaced by ODUk-AIS of the next MFAS, and the underrun is counted and shows. -/
theorem playUnderrun_spec : (∃ o, (playUnderrun t d s).out = .odu t d (List.replicate 15232 0xFF) o (jcOf (s.tr t) d) :: s.out ∧
      o.take 7 = beBytes 6 0xF6F6F6282828 ++ [(mfasNext (s.tr t) d).getD 0]) ∧
    (playUnderrun t d s).time = s.time ∧ playOf ((playUnderrun t d s).tr t) d = playOf (s.tr t) d ∧
      ((playUnderrun t d s).tr t).counters.get 5 0 = (s.tr t).counters.get 5 0 + 1 ∧
      ((playUnderrun t d s).otn.trib.get t 0).getLsbD (underrunBit d) = true := by
  have hplay : playOf ((underrunShown t d s).tr t) d = playOf (s.tr t) d := underrunShown_tr_keep t d s (fun x => playOf x d) (fun _ _ _ _ _ => rfl) fun _ _ => rfl
  have hjc : jcOf ((underrunShown t d s).tr t) d = jcOf (s.tr t) d := underrunShown_tr_keep t d s (fun x => jcOf x d) (fun _ _ _ _ _ => rfl) fun _ _ => rfl
  rw [playUnderrun_eq]
  obtain ⟨⟨o, hout, htake⟩, htime, hbuffer, hcounters, htrib⟩ := oduOut_playSent t d (underrunShown t d s) (List.replicate 15232 0xFF)
    (freshAis ((mfasNext (s.tr t) d).getD 0)) (playOf ((underrunShown t d s).tr t) d) ((mfasNext (s.tr t) d).getD 0) 0
  refine ⟨⟨o, ?_, (htake (by rw [freshAis_length]; decide)).trans (freshAis_take _)⟩, ?_, ?_, ?_, ?_⟩
  · rw [hout, hjc, underrunShown_out]
  · rw [htime, underrunShown_time]
  · rw [hbuffer, hplay]
  · rw [hcounters, underrunShown_counter]
  · rw [htrib, underrunShown_bit]

end

/-! ## The statement -/

/-- Settles O18: the frame at the head by what sending it leaves, the empty buffer by what an underrun does. -/
theorem tributariesAreRemappedOnce : Obligations.TributariesAreRemappedOnce := by
  unfold Obligations.TributariesAreRemappedOnce
  constructor
  · intro i d e x rest s hv hk hp hx hm
    have hremap := remap_follows (s := waitCycle (s.time.cycles + e) s) hv hk hp hx hm
    obtain ⟨⟨o, hout⟩, hbuffer, hnext, htime⟩ := playSend_sentAs i d x rest
      (waitCycle (x.acceptAt + cyclesUs (s.odNat 0x2802 (tribPair s i + 1))) (gmpTake i d (waitCycle (s.time.cycles + e) s)))
    obtain ⟨hcushion, hlater⟩ := waitCycle_cycles (x.acceptAt + cyclesUs (s.odNat 0x2802 (tribPair s i + 1))) (gmpTake i d (waitCycle (s.time.cycles + e) s))
    refine ⟨_, o, (exec_tributaryRemapDue i d e s).trans (congrArg _ hremap), ?_, ?_, hbuffer, hnext, ?_⟩
    · exact ((waitCycle_cycles (s.time.cycles + e) s).1.trans hlater).trans_eq (congrArg TimeUnit.cycles htime).symm
    · exact hcushion.trans_eq (congrArg TimeUnit.cycles htime).symm
    · have hais : tribAis (waitCycle (x.acceptAt + cyclesUs (s.odNat 0x2802 (tribPair s i + 1))) (gmpTake i d (waitCycle (s.time.cycles + e) s))) i d = tribAis s i d :=
        gmpTake_tribAis i d (waitCycle (s.time.cycles + e) s)
      have hjc : jcOf ((waitCycle (x.acceptAt + cyclesUs (s.odNat 0x2802 (tribPair s i + 1))) (gmpTake i d (waitCycle (s.time.cycles + e) s))).tr i) d =
          Config.jcOctets (gmpNext i d s).1 (gmpNext i d s).2 := gmpTake_jcOf i d (waitCycle (s.time.cycles + e) s)
      rw [hais, hjc] at hout
      exact hout
  · intro i d e s hv hk hp
    have hremap := remap_empty (s := waitCycle (s.time.cycles + e) s) hv hk hp
    obtain ⟨⟨o, hout, htake⟩, htime, hplay, hcount, hshows⟩ := playUnderrun_spec i d (gmpTake i d (waitCycle (s.time.cycles + e) s))
    have hkeep {β : Type} (P : Trib → β) (hP : ∀ x a b c e, P { x with cmOut := a, cnOut := b, cmOutL := c, cnOutL := e } = P x) :
        P ((gmpTake i d (waitCycle (s.time.cycles + e) s)).tr i) = P (s.tr i) := gmpTake_tr_keep i d (waitCycle (s.time.cycles + e) s) P hP
    rw [gmpTake_jcOf] at hout
    rw [hkeep (fun x => mfasNext x d) fun _ _ _ _ _ => rfl] at htake
    rw [hkeep (fun x => playOf x d) fun _ _ _ _ _ => rfl, hp] at hplay
    rw [hkeep Trib.counters fun _ _ _ _ _ => rfl] at hcount
    refine ⟨_, o, (exec_tributaryRemapDue i d e s).trans (congrArg _ hremap), ?_, hplay, hcount, ?_, hout, htake⟩
    · rw [htime]
      exact congrArg (s.time.cycles + ·) (Nat.add_sub_cancel_left ..)
    · cases d <;> exact hshows

end Sys2Proof.Machine

/-! The spindles' records (R206, R229): what each operation of the fabric leaves of a spindle's record and of its domain, what starting a spare
does, and what settling the roles (R211, R213, R219) can change. -/
namespace Sys2Proof.Machine

/-! ## Reading a spindle and a domain -/

theorem spindle_congr {s t : State} (h : t.fab = s.fab) (j : Nat) : t.spindle j = s.spindle j := by unfold State.spindle; rw [h]
theorem domain_congr {s t : State} (h : t.power = s.power) (d : Nat) : t.domain d = s.domain d := by unfold State.domain; rw [h]

@[simp] theorem post_spindle (e : Event) (s : State) (j : Nat) : (post e s).spindle j = s.spindle j := spindle_congr (by simp) j
@[simp] theorem post_domain (e : Event) (s : State) (d : Nat) : (post e s).domain d = s.domain d := domain_congr (by simp) d
@[simp] theorem logEntry_spindle (type source : Nat) (detail : Octets) (s : State) (j : Nat) : (logEntry type source detail s).spindle j = s.spindle j :=
  spindle_congr (by simp) j
@[simp] theorem logEntry_domain (type source : Nat) (detail : Octets) (s : State) (d : Nat) : (logEntry type source detail s).domain d = s.domain d :=
  domain_congr (by simp) d
@[simp] theorem setDomain_spindle (d st : Nat) (s : State) (j : Nat) : (setDomain d st s).spindle j = s.spindle j := rfl
@[simp] theorem countDomainReset_spindle (d c : Nat) (s : State) (j : Nat) : (countDomainReset d c s).spindle j = s.spindle j := rfl
@[simp] theorem waitCycle_spindle (c : Nat) (s : State) (j : Nat) : (waitCycle c s).spindle j = s.spindle j := rfl
@[simp] theorem waitCycle_domain (c : Nat) (s : State) (d : Nat) : (waitCycle c s).domain d = s.domain d := rfl
@[simp] theorem rngAsk_spindle (w : Consumer) (c : Nat) (s : State) (j : Nat) : (rngAsk w c s).spindle j = s.spindle j := rfl
@[simp] theorem rngAsk_domain (w : Consumer) (c : Nat) (s : State) (d : Nat) : (rngAsk w c s).domain d = s.domain d := rfl
@[simp] theorem openValue_spindle (s : State) (j : Nat) : (openValue s).2.spindle j = s.spindle j := rfl
@[simp] theorem updSp_domain (i : Nat) (f : Spindle → Spindle) (s : State) (d : Nat) : (updSp i f s).domain d = s.domain d := rfl

/-- Changing a spindle changes the spindles' table alone. -/
theorem updSp_fab (i : Nat) (f : Spindle → Spindle) (s : State) : (updSp i f s).fab = { s.fab with spindles := s.fab.spindles.upd i {} f } := rfl

@[simp] theorem fabCount_spindle (i n : Nat) (s : State) (j : Nat) : (fabCount i n s).spindle j = s.spindle j := rfl
@[simp] theorem fabCount_domain (i n : Nat) (s : State) (d : Nat) : (fabCount i n s).domain d = s.domain d := rfl
@[simp] theorem fabStatus_spindle (i : Nat) (on : Bool) (s : State) (j : Nat) : (fabStatus i on s).spindle j = s.spindle j := rfl
@[simp] theorem fabStatus_domain (i : Nat) (on : Bool) (s : State) (d : Nat) : (fabStatus i on s).domain d = s.domain d := rfl
@[simp] theorem rotationEnd_spindle (s : State) (j : Nat) : (rotationEnd s).spindle j = s.spindle j := rfl
@[simp] theorem rotationEnd_domain (s : State) (d : Nat) : (rotationEnd s).domain d = s.domain d := rfl

@[simp] theorem logSpindle_fab (i cause frames tokens : Nat) (s : State) : (logSpindle i cause frames tokens s).fab = s.fab := by simp [logSpindle]
@[simp] theorem logSpindle_power (i cause frames tokens : Nat) (s : State) : (logSpindle i cause frames tokens s).power = s.power := by simp [logSpindle]
@[simp] theorem logSpindle_rng (i cause frames tokens : Nat) (s : State) : (logSpindle i cause frames tokens s).rng = s.rng := by simp [logSpindle]
@[simp] theorem logSpindle_time (i cause frames tokens : Nat) (s : State) : (logSpindle i cause frames tokens s).time = s.time := by simp [logSpindle]
@[simp] theorem logSpindle_path (i cause frames tokens : Nat) (s : State) : (logSpindle i cause frames tokens s).path = s.path := by simp [logSpindle]
@[simp] theorem logSpindle_spindle (i cause frames tokens : Nat) (s : State) (j : Nat) : (logSpindle i cause frames tokens s).spindle j = s.spindle j :=
  spindle_congr (by simp) j
@[simp] theorem logSpindle_domain (i cause frames tokens : Nat) (s : State) (d : Nat) : (logSpindle i cause frames tokens s).domain d = s.domain d :=
  domain_congr (by simp) d

/-! ## Entering a role -/

/-- A spindle's record as it enters a role at cycle `now`. -/
def Spindle.enter (r : Role) (now : Nat) (x : Spindle) : Spindle :=
  { x with role := r, worked := x.worked + (if x.role == .working then now - x.since else 0), since := now }

theorem setRole_eq (i : Nat) (r : Role) (s : State) : setRole i r s = updSp i (Spindle.enter r s.time.cycles) s := rfl

@[simp] theorem setRole_spindle (i : Nat) (r : Role) (s : State) (j : Nat) :
    (setRole i r s).spindle j = if j = i then (s.spindle i).enter r s.time.cycles else s.spindle j := updSp_get i j _ s
@[simp] theorem setRole_domain (i : Nat) (r : Role) (s : State) (d : Nat) : (setRole i r s).domain d = s.domain d := rfl
@[simp] theorem setRole_power (i : Nat) (r : Role) (s : State) : (setRole i r s).power = s.power := rfl
@[simp] theorem setRole_rng (i : Nat) (r : Role) (s : State) : (setRole i r s).rng = s.rng := rfl
@[simp] theorem setRole_time (i : Nat) (r : Role) (s : State) : (setRole i r s).time = s.time := rfl
@[simp] theorem setRole_path (i : Nat) (r : Role) (s : State) : (setRole i r s).path = s.path := rfl

/-! ## Checkpoints (R208) -/

/-- Writing a checkpoint notes whether it is owed, and changes nothing else of the fabric. -/
theorem checkpointWrite_fab (i : Nat) (s : State) :
    (checkpointWrite i s).fab = (updSp i (fun x => { x with checkpointDue := !mpuReady s }) s).fab := by
  unfold checkpointWrite
  dsimp only
  split
  · exact writeLine_keep State.fab (fun _ _ _ _ _ _ => rfl) _ _ _ _
  · rfl

@[simp] theorem checkpointWrite_spindle (i : Nat) (s : State) (j : Nat) :
    (checkpointWrite i s).spindle j = if j = i then { s.spindle i with checkpointDue := !mpuReady s } else s.spindle j :=
  (spindle_congr (checkpointWrite_fab i s) j).trans (updSp_get i j _ s)
@[simp] theorem checkpointWrite_power (i : Nat) (s : State) : (checkpointWrite i s).power = s.power :=
  checkpointWrite_keep State.power (fun _ _ _ _ _ _ _ => rfl) i s
@[simp] theorem checkpointWrite_rng (i : Nat) (s : State) : (checkpointWrite i s).rng = s.rng :=
  checkpointWrite_keep State.rng (fun _ _ _ _ _ _ _ => rfl) i s
@[simp] theorem checkpointWrite_time (i : Nat) (s : State) : (checkpointWrite i s).time = s.time :=
  checkpointWrite_keep State.time (fun _ _ _ _ _ _ _ => rfl) i s
@[simp] theorem checkpointWrite_domain (i : Nat) (s : State) (d : Nat) : (checkpointWrite i s).domain d = s.domain d :=
  domain_congr (checkpointWrite_power i s) d

@[simp] theorem toSpare_spindle (i : Nat) (s : State) (j : Nat) : (toSpare i s).spindle j =
    if j = i then { (s.spindle i).enter .spare s.time.cycles with checkpointDue := !mpuReady s } else s.spindle j := by
  unfold toSpare
  by_cases h : j = i
  · subst h; simp; rfl
  · simp [h]
@[simp] theorem toSpare_domain (i : Nat) (s : State) (d : Nat) : (toSpare i s).domain d = if d = i then { s.domain i with state := 0 } else s.domain d := by
  unfold toSpare
  simp
@[simp] theorem toSpare_rng (i : Nat) (s : State) : (toSpare i s).rng = s.rng := by simp [toSpare]
@[simp] theorem toSpare_time (i : Nat) (s : State) : (toSpare i s).time = s.time := by simp [toSpare]

/-- Becoming Spare changes the spindles' table of the fabric alone. -/
theorem toSpare_fab (i : Nat) (s : State) : ∃ l, (toSpare i s).fab = { s.fab with spindles := l } := ⟨_, checkpointWrite_fab i (setRole i .spare s)⟩

/-- Two records of a spindle that differ at most in what a checkpoint holds (R208). -/
def Spindle.Reloaded (x y : Spindle) : Prop :=
  y = { x with trim := y.trim, calib := y.calib, isolations := y.isolations, repairs := y.repairs, tokens := y.tokens, worked := y.worked,
               repairMap := y.repairMap, factoryTrim := y.factoryTrim }

theorem updSp_fab_congr {s t : State} (h : t.fab = s.fab) (i : Nat) (f : Spindle → Spindle) : (updSp i f t).fab = (updSp i f s).fab := by
  rw [updSp_fab, updSp_fab, h]

/-- Loading a checkpoint changes the spindle's record alone of the fabric, and of it what a checkpoint holds. -/
theorem checkpointLoad_fab (i : Nat) (s : State) :
    ∃ f : Spindle → Spindle, (∀ x, Spindle.Reloaded x (f x)) ∧ (checkpointLoad i s).fab = (updSp i f s).fab := by
  have hread : (readLine 12 (checkpointAt i) s).2.fab = s.fab := readLine_keep State.fab (fun _ _ _ _ _ _ => rfl) _ _ _
  unfold checkpointLoad trimFactory
  split
  · split
    · next d t hr =>
      rw [hr] at hread
      exact ⟨_, fun _ => by unfold Spindle.Reloaded; rfl, updSp_fab_congr hread _ _⟩
    · next t hr =>
      rw [hr] at hread
      exact ⟨_, fun _ => by unfold Spindle.Reloaded; rfl, updSp_fab_congr hread _ _⟩
  · exact ⟨_, fun _ => by unfold Spindle.Reloaded; rfl, rfl⟩

@[simp] theorem checkpointLoad_power (i : Nat) (s : State) : (checkpointLoad i s).power = s.power :=
  checkpointLoad_keep State.power (fun _ _ _ _ _ _ _ => rfl) i s
@[simp] theorem checkpointLoad_rng (i : Nat) (s : State) : (checkpointLoad i s).rng = s.rng :=
  checkpointLoad_keep State.rng (fun _ _ _ _ _ _ _ => rfl) i s
@[simp] theorem checkpointLoad_time (i : Nat) (s : State) : (checkpointLoad i s).time = s.time :=
  checkpointLoad_keep State.time (fun _ _ _ _ _ _ _ => rfl) i s

/-! ## Starting a spare (R206) -/

/-- What starting a spindle for `w` makes of its record `x`. -/
def Spindle.Started (w : Why) (x y : Spindle) : Prop :=
  y = { x with role := .starting, why := w, retryAt := 0, since := y.since, worked := y.worked, trim := y.trim, calib := y.calib,
               isolations := y.isolations, repairs := y.repairs, tokens := y.tokens, repairMap := y.repairMap, factoryTrim := y.factoryTrim }

theorem Spindle.Started.role {w : Why} {x y : Spindle} (h : x.Started w y) : y.role = .starting := (congrArg Spindle.role h).trans rfl
theorem Spindle.Started.why {w : Why} {x y : Spindle} (h : x.Started w y) : y.why = w := (congrArg Spindle.why h).trans rfl
theorem Spindle.Started.busy {w : Why} {x y : Spindle} (h : x.Started w y) : y.busy = x.busy := (congrArg Spindle.busy h).trans rfl
theorem Spindle.Started.parts {w : Why} {x y : Spindle} (h : x.Started w y) : y.parts = x.parts := (congrArg Spindle.parts h).trans rfl

/-- Starting a spindle changes its own record alone of the fabric. -/
theorem startSpindle_fab (i : Nat) (w : Why) (s : State) :
    ∃ f : Spindle → Spindle, (s.spindle i).Started w (f (s.spindle i)) ∧ (startSpindle i w s).fab = (updSp i f s).fab := by
  obtain ⟨f, hf, hfab⟩ := checkpointLoad_fab i (updSp i (fun x => { x with why := w, retryAt := 0 }) (setDomain i 1 (setRole i .starting s)))
  refine ⟨fun x => f { x.enter .starting s.time.cycles with why := w, retryAt := 0 }, ?_, hfab.trans ?_⟩
  · have hre := hf { (s.spindle i).enter .starting s.time.cycles with why := w, retryAt := 0 }
    unfold Spindle.Reloaded at hre
    unfold Spindle.Started
    dsimp only
    rw [hre]
    rfl
  · simp only [updSp_fab, setDomain_fab, setRole_eq, Tab.upd, Tab.put_put, Tab.get_put_same]

@[simp] theorem startSpindle_power (i : Nat) (w : Why) (s : State) : (startSpindle i w s).power = (setDomain i 1 s).power := checkpointLoad_power i _
@[simp] theorem startSpindle_domain (i : Nat) (w : Why) (s : State) (d : Nat) :
    (startSpindle i w s).domain d = if d = i then { s.domain i with state := 1 } else s.domain d :=
  (domain_congr (startSpindle_power i w s) d).trans (setDomain_get i 1 d s)
@[simp] theorem startSpindle_time (i : Nat) (w : Why) (s : State) : (startSpindle i w s).time = s.time := checkpointLoad_time i _

/-- Starting a spindle asks for its mask seed. -/
theorem startSpindle_rng (i : Nat) (w : Why) (s : State) :
    (startSpindle i w s).rng = { s.rng with queue := s.rng.queue ++ [{ who := .spareSeed i, cls := 1, at_ := s.time.cycles }] } := by
  unfold startSpindle rngAsk
  dsimp only
  rw [checkpointLoad_rng, checkpointLoad_time]
  rfl

theorem startSpindle_spindle_other {i j : Nat} (h : j ≠ i) (w : Why) (s : State) : (startSpindle i w s).spindle j = s.spindle j := by
  obtain ⟨f, -, hfab⟩ := startSpindle_fab i w s
  rw [spindle_congr hfab, updSp_get, if_neg h]

theorem startSpindle_spindle_same (i : Nat) (w : Why) (s : State) : (s.spindle i).Started w ((startSpindle i w s).spindle i) := by
  obtain ⟨f, hf, hfab⟩ := startSpindle_fab i w s
  rw [spindle_congr hfab, updSp_get, if_pos rfl]
  exact hf

/-- The fabric but for the spindles' table and the event status. -/
def Fabric.frame (f : Fabric) : Fabric := { f with spindles := [], status := 0 }

theorem startSpindle_frame (i : Nat) (w : Why) (s : State) : (startSpindle i w s).fab.frame = s.fab.frame := by
  obtain ⟨f, -, hfab⟩ := startSpindle_fab i w s
  rw [hfab]; rfl

/-! ## Settling the roles (R211, R213, R219) -/

/-- The spare that has waited longest is a spare whose retry is not still to come. -/
theorem nextSpare_spec {i : Nat} {s : State} (h : nextSpare s = some i) : (s.spindle i).role = .spare ∧ (s.spindle i).retryAt ≤ s.time.cycles := by
  refine List.foldlRecOn (motive := fun m : Option Nat => ∀ j ∈ m, (s.spindle j).role = .spare ∧ (s.spindle j).retryAt ≤ s.time.cycles)
    _ _ (by simp) (fun m hm a ha => ?_) i h
  have hready : (s.spindle a).role = .spare ∧ (s.spindle a).retryAt ≤ s.time.cycles := by
    simp only [List.mem_filter, inRole, List.mem_range, beq_iff_eq, decide_eq_true_eq] at ha
    exact ⟨ha.1.2, ha.2⟩
  cases m with
  | none => simpa using hready
  | some j =>
    dsimp only
    split
    · simpa using hready
    · exact hm

/-- What starting a spare, posting an event and setting the no-spare status each keep, settling the roles keeps. -/
theorem settleRoles_induct {M : State → Prop} (hstart : ∀ (s : State) (i : Nat) (w : Why), M s → i < 28 → (s.spindle i).role = .spare →
      (s.spindle i).retryAt ≤ s.time.cycles → M (startSpindle i w s))
    (hpost : ∀ e s, M s → M (post e s)) (hstatus : ∀ on s, M s → M (fabStatus 3 on s)) {s : State} (h : M s) : M (settleRoles s) := by
  have hfill : ∀ n s, M s → M (fillSpares n s) := by
    intro n
    induction n with
    | zero => exact fun _ h => h
    | succ n ih =>
      intro s h
      unfold fillSpares
      split
      · exact h
      · split
        · exact h
        · next i hi => exact ih _ (hstart s i _ h (nextSpare_lt hi) (nextSpare_spec hi).1 (nextSpare_spec hi).2)
  unfold settleRoles spareCheck
  dsimp only
  split
  · exact hstatus _ _ (hpost _ _ (hfill _ _ h))
  · exact hstatus _ _ (hfill _ _ h)

/-- Spindle `j` is not one that settling the roles can start. -/
def Kept (s : State) (j : Nat) : Prop := (s.spindle j).role ≠ .spare ∨ s.time.cycles < (s.spindle j).retryAt

theorem Kept.of_role {s : State} {j : Nat} (h : (s.spindle j).role ≠ .spare) : Kept s j := .inl h

theorem settleRoles_time (s : State) : (settleRoles s).time = s.time := settleRoles_keep State.time (fun _ _ _ _ _ _ _ _ _ => rfl) s

/-- Settling the roles leaves a spindle that it cannot start, its domain, and what was asked for it. -/
theorem Kept.settleRoles {s : State} {j : Nat} (h : Kept s j) :
    (settleRoles s).spindle j = s.spindle j ∧ (settleRoles s).domain j = s.domain j ∧
      ∀ r ∈ (settleRoles s).rng.queue, r.who = .spareSeed j → r ∈ s.rng.queue := by
  have hall := settleRoles_induct (s := s) (M := fun t => t.time = s.time ∧ t.spindle j = s.spindle j ∧ t.domain j = s.domain j ∧
      ∀ r ∈ t.rng.queue, r.who = .spareSeed j → r ∈ s.rng.queue) ?start ?post ?status ⟨rfl, rfl, rfl, fun _ hr _ => hr⟩
  · exact hall.2
  case start =>
    rintro t i w ⟨htime, hsp, hdom, hreq⟩ - hrole hretry
    have hne : j ≠ i := by
      rintro rfl
      rw [hsp, htime] at hretry
      rw [hsp] at hrole
      exact h.elim (· hrole) (by omega)
    refine ⟨by rw [startSpindle_time, htime], by rw [startSpindle_spindle_other hne, hsp], by rw [startSpindle_domain, if_neg hne, hdom], ?_⟩
    intro r hr hw
    rw [startSpindle_rng] at hr
    rcases List.mem_append.mp hr with hr | hr
    · exact hreq r hr hw
    · rw [List.mem_singleton.mp hr] at hw
      exact absurd (Consumer.spareSeed.inj hw) hne.symm
  case post => exact fun e t ht => by simpa using ht
  case status => exact fun on t ht => ht

/-- Of the fabric settling the roles changes the spindles and the event status alone. -/
theorem settleRoles_frame (s : State) : (settleRoles s).fab.frame = s.fab.frame :=
  settleRoles_induct (M := fun t => t.fab.frame = s.fab.frame) (fun t i w ht _ _ _ => (startSpindle_frame i w t).trans ht)
    (fun e t ht => by simpa using ht) (fun _ _ ht => ht) rfl

@[simp] theorem spareCheck_spindle (s : State) (j : Nat) : (spareCheck s).spindle j = s.spindle j := by
  unfold spareCheck; dsimp only; split <;> simp
@[simp] theorem spareCheck_power (s : State) : (spareCheck s).power = s.power := spareCheck_keep State.power (fun _ _ _ _ => rfl) s
@[simp] theorem spareCheck_rng (s : State) : (spareCheck s).rng = s.rng := spareCheck_keep State.rng (fun _ _ _ _ => rfl) s
@[simp] theorem spareCheck_time (s : State) : (spareCheck s).time = s.time := spareCheck_keep State.time (fun _ _ _ _ => rfl) s
@[simp] theorem spareCheck_domain (s : State) (d : Nat) : (spareCheck s).domain d = s.domain d := domain_congr (spareCheck_power s) d
theorem spareCheck_frame (s : State) : (spareCheck s).fab.frame = s.fab.frame := by
  unfold spareCheck; dsimp only; split <;> simp [fabStatus, Fabric.frame]

/-- Where no further Working spindle is wanted, settling the roles only checks the spares. -/
theorem settleRoles_of_not_wanted {s : State} (h : wanted s = 0) : settleRoles s = spareCheck s := by
  unfold settleRoles fillSpares
  rw [if_pos h]

end Sys2Proof.Machine

/-! Fail-over (R183, R214, R215): what the replay of frames leaves of them, and what isolating a spindle leaves. -/
namespace Sys2Proof.Machine

/-! ## Replay (R202, R215) -/

theorem updFrm_frame? (id k : Nat) (f : Frm → Frm) (s : State) : (updFrm id f s).frame? k = if k = id then (s.frame? id).map f else s.frame? k := by
  unfold updFrm State.frame?
  split
  · next x hx =>
    rw [Tab.find_put]
    split <;> simp_all
  · next hx =>
    split <;> simp_all

/-- The record of a frame that is replayed. -/
def Frm.replayed (f : Frm) : Frm :=
  { f with stage := .queued, desc := { f.desc with attempt := f.desc.attempt + 1, issued := 0, done := 0, y := 0, mask := 0, spindle := none } }

theorem replayFrame_frame? (id k : Nat) (s : State) : (replayFrame id s).frame? k = if k = id then (s.frame? id).map Frm.replayed else s.frame? k :=
  updFrm_frame? id k Frm.replayed s

theorem mem_replayInsert {s : State} {id k : Nat} {l : List Nat} : k ∈ replayInsert s id l ↔ k = id ∨ k ∈ l := by
  induction l with
  | nil => simp [replayInsert]
  | cons j l ih =>
    unfold replayInsert
    dsimp only
    split
    · simp
    · simp only [List.mem_cons, ih]; tauto

theorem replayFrame_fab (id : Nat) (s : State) :
    (replayFrame id s).fab = { s.fab with replay := replayInsert (updFrm id Frm.replayed s) id s.fab.replay } := by
  have hfab : (updFrm id Frm.replayed s).fab = s.fab := updFrm_keep State.fab (fun _ _ => rfl) _ _ _
  have hdef : (replayFrame id s).fab = { (updFrm id Frm.replayed s).fab with
      replay := replayInsert (updFrm id Frm.replayed s) id (updFrm id Frm.replayed s).fab.replay } := rfl
  rw [hdef, hfab]

theorem mem_replayFrame {s : State} {id k : Nat} : k ∈ (replayFrame id s).fab.replay ↔ k = id ∨ k ∈ s.fab.replay := by
  rw [replayFrame_fab]; exact mem_replayInsert

/-- A frame waits for its replay: queued, on no spindle. -/
def AwaitsReplay (t : State) (id : Nat) : Prop := id ∈ t.fab.replay ∧ ∃ g, t.frame? id = some g ∧ g.stage = .queued ∧ g.desc.spindle = none

theorem AwaitsReplay.replayFrame {t : State} {id : Nat} (h : AwaitsReplay t id) (k : Nat) : AwaitsReplay (replayFrame k t) id := by
  obtain ⟨hmem, g, hg, hstage, hsp⟩ := h
  refine ⟨mem_replayFrame.mpr (.inr hmem), ?_⟩
  rw [replayFrame_frame?]
  split
  · next he => subst he; exact ⟨g.replayed, by rw [hg]; rfl, rfl, rfl⟩
  · exact ⟨g, hg, hstage, hsp⟩

theorem awaitsReplay_replayFrame {s : State} {id : Nat} {f : Frm} (h : s.frame? id = some f) : AwaitsReplay (replayFrame id s) id := by
  exact ⟨mem_replayFrame.mpr (.inl rfl), f.replayed, by rw [replayFrame_frame?, if_pos rfl, h]; rfl, rfl, rfl⟩

theorem replayFrame_frame?_isSome {s : State} {id k : Nat} (h : (s.frame? k).isSome) : ((replayFrame id s).frame? k).isSome := by
  rw [replayFrame_frame?]
  split
  · next he => subst he; simpa using h
  · exact h

/-- Every frame replayed that retention holds then waits for its replay. -/
theorem awaitsReplay_foldl {id : Nat} {ids : List Nat} (hid : id ∈ ids) {s : State} (h : (s.frame? id).isSome) :
    AwaitsReplay (ids.foldl (fun s k => replayFrame k s) s) id := by
  induction ids generalizing s with
  | nil => exact absurd hid List.not_mem_nil
  | cons k ids ih =>
    rw [List.foldl_cons]
    by_cases hin : id ∈ ids
    · exact ih hin (replayFrame_frame?_isSome h)
    · obtain rfl : id = k := (List.mem_cons.mp hid).resolve_right hin
      obtain ⟨f, hf⟩ := Option.isSome_iff_exists.mp h
      exact List.foldlRecOn (motive := fun t => AwaitsReplay t id) _ _ (awaitsReplay_replayFrame hf) fun t ht k _ => ht.replayFrame k

/-- What replaying changes of the fabric: the frames for replay, and the fabric's counters of it. -/
theorem replayAll_fab (ids : List Nat) (s : State) :
    ∃ r, (replayAll ids s).fab = { s.fab with replay := r, counters := (replayAll ids s).fab.counters } := by
  have hfold : ∃ r, (ids.foldl (fun s id => replayFrame id s) s).fab = { s.fab with replay := r } := by
    refine List.foldlRecOn (motive := fun t : State => ∃ r, t.fab = { s.fab with replay := r }) _ _ ⟨_, rfl⟩ fun t ht k _ => ?_
    obtain ⟨r, hr⟩ := ht
    exact ⟨_, by rw [replayFrame_fab, hr]⟩
  obtain ⟨r, hr⟩ := hfold
  exact ⟨r, congrArg (fun f : Fabric => { f with counters := (replayAll ids s).fab.counters }) hr⟩

@[simp] theorem replayAll_spindle (ids : List Nat) (s : State) (j : Nat) : (replayAll ids s).spindle j = s.spindle j := by
  obtain ⟨r, hr⟩ := replayAll_fab ids s
  unfold State.spindle
  rw [hr]

@[simp] theorem replayAll_power (ids : List Nat) (s : State) : (replayAll ids s).power = s.power := replayAll_keep State.power (fun _ _ _ => rfl) ids s
@[simp] theorem replayAll_rng (ids : List Nat) (s : State) : (replayAll ids s).rng = s.rng := replayAll_keep State.rng (fun _ _ _ => rfl) ids s
@[simp] theorem replayAll_time (ids : List Nat) (s : State) : (replayAll ids s).time = s.time := replayAll_keep State.time (fun _ _ _ => rfl) ids s
@[simp] theorem replayAll_domain (ids : List Nat) (s : State) (d : Nat) : (replayAll ids s).domain d = s.domain d := domain_congr (replayAll_power ids s) d

/-! ## Isolation (R214) -/

/-- The ids of the frames that a spindle holds. -/
def heldIds (s : State) (i : Nat) : List Nat := (s.path.frames.filter (fun q => holds i q.2)).map Prod.fst

/-- The record of a spindle isolated for `cause`. -/
def Spindle.isolate (cause now : Nat) (x : Spindle) : Spindle :=
  { x.enter .isolated now with cause := cause, credits := 0, flight := [], heldFrom := none, lag := false, injected := false, reseedAsked := false,
                               isolations := x.isolations + 1 }

@[simp] theorem rotationYield_path (s : State) : (rotationYield s).path = s.path := rotationYield_keep State.path (fun _ _ => rfl) s
@[simp] theorem rotationYield_power (s : State) : (rotationYield s).power = s.power := rotationYield_keep State.power (fun _ _ => rfl) s
@[simp] theorem rotationYield_time (s : State) : (rotationYield s).time = s.time := rotationYield_keep State.time (fun _ _ => rfl) s
theorem rotationEnd_path (s : State) : (rotationEnd s).path = s.path := rfl
theorem rotationEnd_replay (s : State) : (rotationEnd s).fab.replay = s.fab.replay := rfl
theorem rotationYield_replay (s : State) : (rotationYield s).fab.replay = s.fab.replay := by
  unfold rotationYield; (repeat' split) <;> rfl
/-- A rotation gives its spare up only while that spare is starting. -/
theorem rotationYield_spindle {s : State} {j : Nat} (h : (s.spindle j).role ≠ .starting) : (rotationYield s).spindle j = s.spindle j := by
  unfold rotationYield
  split
  · next i b _ =>
    split
    · next hrole =>
      have hne : j ≠ i := fun he => h (by rw [he]; simpa using hrole)
      rw [rotationEnd_spindle, updSp_get, if_neg hne]
    · rfl
  · rfl


/-- What isolating spindle `i` leaves (R214, R215): its record, its domain, and each frame it held waiting for its replay. -/
structure Isolated (i cause : Nat) (s t : State) : Prop where
  spindle : t.spindle i = (s.spindle i).isolate cause s.time.cycles
  domain : t.domain i = { s.domain i with state := 0 }
  awaits : ∀ id ∈ heldIds s i, (s.frame? id).isSome → AwaitsReplay t id
  alone : ∀ id, heldIds s i = [id] → t.frame? id = (s.frame? id).map Frm.replayed

/-- Steps that leave the frames, the queue of replays, the spindle and its domain leave a spindle isolated. -/
theorem Isolated.congr {i cause : Nat} {s t u : State} (h : Isolated i cause s t) (hpath : u.path = t.path) (hreplay : u.fab.replay = t.fab.replay)
    (hsp : u.spindle i = t.spindle i) (hdom : u.domain i = t.domain i) : Isolated i cause s u := by
  have hfrm : ∀ id, u.frame? id = t.frame? id := fun id => by unfold State.frame?; rw [hpath]
  refine ⟨hsp.trans h.spindle, hdom.trans h.domain, fun id hid hs => ?_, fun id hid => (hfrm id).trans (h.alone id hid)⟩
  obtain ⟨hmem, hg⟩ := h.awaits id hid hs
  exact ⟨hreplay ▸ hmem, by rw [hfrm]; exact hg⟩

/-- An isolated spindle stays so as the roles settle. -/
theorem Isolated.settleRoles {i cause : Nat} {s t : State} (h : Isolated i cause s t) : Isolated i cause s (settleRoles t) := by
  obtain ⟨hsp, hdom, -⟩ := (Kept.of_role (s := t) (j := i) (by rw [h.spindle]; exact nofun)).settleRoles
  exact h.congr (settleRoles_keep State.path (fun _ _ _ _ _ _ _ _ _ => rfl) t) (congrArg Fabric.replay (settleRoles_frame t) :) hsp hdom

/-- Replaying the frames of a spindle whose record and domain show it isolated. -/
theorem isolated_replayAll {i cause : Nat} {s u : State} (hpath : u.path = s.path) (hsp : u.spindle i = (s.spindle i).isolate cause s.time.cycles)
    (hdom : u.domain i = { s.domain i with state := 0 }) : Isolated i cause s (replayAll (heldIds s i) u) := by
  have hfrm : ∀ id, u.frame? id = s.frame? id := fun id => by unfold State.frame?; rw [hpath]
  refine ⟨by rw [replayAll_spindle, hsp], by rw [replayAll_domain, hdom], fun id hid hs => ?_, fun id hid => ?_⟩
  · exact awaitsReplay_foldl hid (by rw [hfrm]; exact hs)
  · rw [hid]
    exact (replayFrame_frame? id id u).trans (by rw [if_pos rfl, hfrm])

/-- The first step of an isolation: the record, the domain, and its mask reseed withdrawn. -/
def isolateRecord (i cause : Nat) (s : State) : State :=
  let u := updSp i (fun x => { x with cause := cause, credits := 0, flight := [], heldFrom := none, lag := false, injected := false, reseedAsked := false,
                                      isolations := x.isolations + 1 }) (setDomain i 0 (setRole i .isolated s))
  { u with rng := { u.rng with queue := u.rng.queue.filter (fun r => r.who != .maskReseed i) } }

/-- The next: the frames of it counted and remembered for the failover. -/
def isolateCount (ids : List Nat) (s : State) : State :=
  let u := fabCount 0 1 s
  { u with fab := { u.fab with failover := u.fab.failover ++ ids.filter (fun k => !u.fab.failover.contains k) } }

/-- The last before the roles settle: the entries that say so, and what becomes of a rotation. -/
def isolateTell (i cause n tokens : Nat) (working rotating : Bool) (s : State) : State :=
  let u := post { type := 0x3006, source := i, a := n, b := tokens } (logSpindle i cause n tokens s)
  if rotating then rotationEnd u else if working then rotationYield u else u

theorem isolateSpindle_eq (i cause : Nat) (s : State) :
    ∃ n tokens working rotating, isolateSpindle i cause s =
      settleRoles (isolateTell i cause n tokens working rotating (isolateCount (heldIds s i) (replayAll (heldIds s i) (isolateRecord i cause s)))) :=
  ⟨_, _, _, _, rfl⟩

theorem isolateRecord_path (i cause : Nat) (s : State) : (isolateRecord i cause s).path = s.path := by
  change (setRole i .isolated s).path = s.path
  rw [setRole_eq]; rfl
theorem isolateRecord_spindle (i cause : Nat) (s : State) : (isolateRecord i cause s).spindle i = (s.spindle i).isolate cause s.time.cycles := by
  unfold isolateRecord
  refine (updSp_get _ _ _ _).trans ?_
  rw [if_pos rfl, setDomain_spindle, setRole_spindle, if_pos rfl]
  rfl
theorem isolateRecord_domain (i cause : Nat) (s : State) : (isolateRecord i cause s).domain i = { s.domain i with state := 0 } := by
  refine (domain_congr (t := setDomain i 0 (setRole i .isolated s)) rfl i).trans ?_
  rw [setDomain_get, if_pos rfl, setRole_domain]

theorem Isolated.count {i cause : Nat} {s t : State} (h : Isolated i cause s t) (ids : List Nat) : Isolated i cause s (isolateCount ids t) :=
  h.congr rfl rfl (spindle_congr rfl i) (domain_congr rfl i)

theorem Isolated.tell {i cause : Nat} {s t : State} (h : Isolated i cause s t) (n tokens : Nat) (working rotating : Bool) :
    Isolated i cause s (isolateTell i cause n tokens working rotating t) := by
  have hlog : Isolated i cause s (post { type := 0x3006, source := i, a := n, b := tokens } (logSpindle i cause n tokens t)) :=
    h.congr (by simp) (by simp) (by simp) (by simp)
  unfold isolateTell
  split
  · exact hlog.congr (rotationEnd_path _) (rotationEnd_replay _) (rotationEnd_spindle _ _) (rotationEnd_domain _ _)
  · split
    · exact hlog.congr (rotationYield_path _) (rotationYield_replay _) (rotationYield_spindle (by rw [hlog.spindle]; exact nofun)) (domain_congr (rotationYield_power _) _)
    · exact hlog

theorem isolateSpindle_isolated (i cause : Nat) (s : State) : Isolated i cause s (isolateSpindle i cause s) := by
  obtain ⟨n, tokens, working, rotating, h⟩ := isolateSpindle_eq i cause s
  rw [h]
  exact (((isolated_replayAll (isolateRecord_path i cause s) (isolateRecord_spindle i cause s) (isolateRecord_domain i cause s)).count _).tell ..).settleRoles

/-! ## The faults that isolate a spindle at work (R183, R182) -/

theorem find_isSome_of_mem {α : Type} {t : Tab α} {q : Nat × α} (h : q ∈ t) : (t.find q.1).isSome := by
  induction t with
  | nil => exact absurd h List.not_mem_nil
  | cons r t ih =>
    obtain ⟨k, x⟩ := r
    unfold Tab.find
    split
    · rfl
    · next hne => exact ih ((List.mem_cons.mp h).resolve_left fun he => hne (congrArg Prod.fst he).symm)

theorem mem_heldIds {s : State} {i id : Nat} {f : Frm} (hmem : (id, f) ∈ s.path.frames) (hold : holds i f = true) : id ∈ heldIds s i :=
  List.mem_map_of_mem (f := Prod.fst) (List.mem_filter.mpr ⟨hmem, hold⟩)

theorem heldIds_eq_singleton {s : State} {i id : Nat} {f : Frm} (h : s.path.frames.filter (fun q => holds i q.2) = [(id, f)]) : heldIds s i = [id] := by
  unfold heldIds; rw [h]; rfl

theorem spindleFault_isolated {i : Fin 28} {s : State} (k : Check) (hwork : atWork s i = true) (hinj : (s.spindle i).injected = false) :
    ∃ t, exec (.spindleFault i k) s = .next t ∧ Isolated i (checkCode k) s t := by
  refine ⟨_, congrArg Host.Outcome.next (if_pos hwork), ?_⟩
  rw [hinj]
  exact isolateSpindle_isolated _ _ _

theorem tokenWatchdogExpiry_isolated {i : Fin 28} {s : State} (hwork : atWork s i = true) (hflight : (s.spindle i).flight ≠ []) :
    ∃ t, exec (.tokenWatchdogExpiry i) s = .next t ∧ Isolated i 5 s t :=
  ⟨_, congrArg Host.Outcome.next (if_pos (by simp [hwork, hflight])), isolateSpindle_isolated _ _ _⟩

/-- Counting the starvation first leaves what an isolation reads as it was. -/
theorem maskStarvation_isolated {i : Fin 28} {s : State} (hwork : atWork s i = true) (hfull : (s.spindle i).maskFull = true) :
    ∃ t, exec (.maskStarvation i) s = .next t ∧ Isolated i 6 s t := by
  obtain ⟨hsp, hdom, hawaits, halone⟩ := isolateSpindle_isolated i 6 (fabCount 7 1 s)
  exact ⟨_, congrArg Host.Outcome.next (if_pos (by simp [hwork, hfull])), hsp, hdom, hawaits, halone⟩

/-- Settles O9: an isolation leaves the spindle's record, its domain and the frames it held as `Isolated` says, and each of the three faults of a
spindle at work is an isolation for its cause. -/
theorem faultsIsolateSpindles : Obligations.FaultsIsolateSpindles := by
  unfold Obligations.FaultsIsolateSpindles
  intro i s hwork c cause hfault
  obtain ⟨t, hexec, hsp, hdom, hawaits, halone⟩ : ∃ t, exec c s = .next t ∧ Isolated i cause s t := by
    obtain ⟨k, rfl, rfl, hinj⟩ | ⟨rfl, rfl, hflight⟩ | ⟨rfl, rfl, hfull⟩ := hfault
    · exact spindleFault_isolated k hwork hinj
    · exact tokenWatchdogExpiry_isolated hwork hflight
    · exact maskStarvation_isolated hwork hfull
  refine ⟨t, hexec, by rw [hsp]; rfl, by rw [hsp]; rfl, by rw [hdom], by rw [hsp]; rfl, by rw [hsp]; rfl, by rw [hsp]; rfl, fun id f hmem hold => ?_, fun id f hone hf => ?_⟩
  · exact hawaits id (mem_heldIds hmem hold) (find_isSome_of_mem hmem)
  · rw [halone id (heldIds_eq_singleton hone), State.frame?, hf]
    rfl

end Sys2Proof.Machine

/-! Tokens (R173 to R182, R194): a token's issue, what its completion does to its frame, and the reseeding of a spindle's mask generator. -/
namespace Sys2Proof.Machine

/-! ## Issue (R194, R195) -/

/-- The spindle's record with one more token in flight. -/
def Spindle.issue (id : Nat) (attempt : BitVec 2) (now : Nat) (x : Spindle) : Spindle :=
  { x with credits := x.credits - 1, flight := x.flight ++ [(id, attempt)], heldFrom := if x.heldFrom.isNone then some now else x.heldFrom }

theorem issueToken_eq {i id : Nat} {f : Frm} {s : State} (hwork : atWork s i = true) (hcredit : (s.spindle i).credits ≠ 0)
    (hpart : s.path.frames.find? (fun q => holds i q.2 && decide (q.2.desc.issued < q.2.desc.tokens)) = some (id, f)) (hf : s.path.frames.find id = some f) :
    issueToken i s = updSp i (Spindle.issue id f.desc.attempt s.time.cycles)
      { s with path := { s.path with frames := s.path.frames.put id { f with desc := { f.desc with issued := f.desc.issued + 1 } } } } := by
  unfold issueToken
  rw [if_neg (by simp [hwork, hcredit]), hpart]
  exact congrArg (updSp i (Spindle.issue id f.desc.attempt s.time.cycles)) (updFrm_of_find hf _)

/-! ## Completion (R175, R178) -/

/-- Writing cipher blocks in place changes the octets and moves the watermark. -/
theorem writeBlocks_frame (key : Octets) (k n : Nat) (f : Frm) : ∃ d w, writeBlocks key k n f = { f with data := d, desc := { f.desc with watermark := w } } := by
  induction k generalizing f with
  | zero => exact ⟨_, _, rfl⟩
  | succ k ih =>
    by_cases hn : n < f.desc.watermark + 1
    · exact ⟨f.data, f.desc.watermark, if_pos hn⟩
    · obtain ⟨d, w, h⟩ := ih { f with data := patch f.data (f.desc.lead + 16 * (f.desc.watermark + 1 - 1)) (cryptBlock key f (f.desc.watermark + 1)), desc := { f.desc with watermark := f.desc.watermark + 1 } }
      exact ⟨d, w, (if_neg hn).trans h⟩

/-- What one more token changes of a frame: its GHASH inputs are folded in, the token counts as done, and of the rest only the octets, the watermark
and E(J0) move. -/
theorem tokenStep_eq (key : Octets) (f : Frm) : ∃ d w m, tokenStep key f = { f with data := d, desc := { f.desc with
    watermark := w, mask := m, done := f.desc.done + 1,
    y := foldInput (hashKey key) (foldInput (hashKey key) f.desc.y (ghashInput key f (2 * f.desc.done + 1))) (ghashInput key f (2 * f.desc.done + 2)) } } := by
  unfold tokenStep
  dsimp only
  split
  · obtain ⟨d, w, h⟩ := writeBlocks_frame key 3 (min (blocksIn f.desc.body) (if f.desc.ej0 then 2 * (f.desc.done + 1) - 1 else 2 * (f.desc.done + 1))) f
    exact ⟨d, w, _, by rw [h]; rfl⟩
  · exact ⟨_, _, _, rfl⟩

/-- The frame once its token is done: ready, and off its spindle, with the last one (R194). -/
def Frm.tokenDone (f : Frm) : Frm :=
  if f.desc.done = f.desc.tokens then { f with stage := .ready, desc := { f.desc with spindle := none } } else f

theorem Frm.tokenDone_stage (f : Frm) : f.tokenDone.stage = if f.desc.done = f.desc.tokens then .ready else f.stage := by
  unfold Frm.tokenDone; split <;> rfl
theorem Frm.tokenDone_spindle (f : Frm) : f.tokenDone.desc.spindle = if f.desc.done = f.desc.tokens then none else f.desc.spindle := by
  unfold Frm.tokenDone; split <;> rfl
theorem Frm.tokenDone_other (f : Frm) : f.tokenDone.desc.done = f.desc.done ∧ f.tokenDone.seq = f.seq ∧ f.tokenDone.pd = f.pd ∧ f.tokenDone.desc.y = f.desc.y := by
  unfold Frm.tokenDone; split <;> exact ⟨rfl, rfl, rfl, rfl⟩

/-- The frame takes its new state; with its last token it leaves its spindle, and no failover waits for it any more. -/
def tokenSettles (id : Nat) (g : Frm) (s : State) : State :=
  if g.desc.done = g.desc.tokens then
    { (updFrm id (fun _ => { g with stage := .ready, desc := { g.desc with spindle := none } }) s) with fab := { s.fab with failover := s.fab.failover.erase id } }
  else updFrm id (fun _ => g) s

theorem tokenSettles_eq {id : Nat} {f : Frm} {s : State} (hf : s.path.frames.find id = some f) (g : Frm) :
    ∃ l, tokenSettles id g s = { s with path := { s.path with frames := s.path.frames.put id g.tokenDone }, fab := { s.fab with failover := l } } := by
  unfold tokenSettles Frm.tokenDone
  split
  · exact ⟨_, by rw [updFrm_of_find hf]⟩
  · exact ⟨_, updFrm_of_find hf _⟩

/-- The octets that a token has changed go back to retention. -/
def tokenWrites (id : Nat) (old new : Octets) (s : State) : State := if new = old then s else retWrite id new s

theorem tokenWrites_eq (id : Nat) (old new : Octets) (s : State) : ∃ w, tokenWrites id old new s = { s with path := { s.path with banks := w } } := by
  unfold tokenWrites
  split
  · exact ⟨s.path.banks, rfl⟩
  · exact retWrite_banks_only id new s

/-- The state after a token that counts. -/
def tokenCounts (i id : Nat) (f : Frm) (s : State) : State :=
  let g := tokenStep (slotKey s f.desc.slot) { f with data := frmData s id f }
  tokenSettles id g (tokenWrites id (frmData s id f) g.data (updSp i (fun x => x.tokenLeaves s.time.cycles) s))

theorem completeToken_of_flight {i id : Nat} {a : BitVec 2} {rest : List (Nat × BitVec 2)} {f : Frm} {s : State} (hwork : atWork s i = true)
    (hflight : (s.spindle i).flight = (id, a) :: rest) (hinj : (s.spindle i).injected = false) (hf : s.path.frames.find id = some f) :
    completeToken i s = if !holds i f || f.desc.attempt != a then updSp i (fun x => x.tokenLeaves s.time.cycles) s else tokenCounts i id f s := by
  have hfrm : (updSp i (fun x => x.tokenLeaves s.time.cycles) s).frame? id = some f := hf
  unfold completeToken
  simp only [hwork, hflight, hinj, hfrm]
  rfl

/-- What a token that counts changes: its frame, the octets in retention, the spindle's record, and the frames of a failover. -/
theorem tokenCounts_eq {i id : Nat} {f : Frm} {s : State} (hf : s.path.frames.find id = some f) :
    ∃ w l, tokenCounts i id f s = { s with
      path := { s.path with frames := s.path.frames.put id (tokenStep (slotKey s f.desc.slot) { f with data := frmData s id f }).tokenDone, banks := w },
      fab := { s.fab with spindles := s.fab.spindles.put i ((s.spindle i).tokenLeaves s.time.cycles), failover := l } } := by
  unfold tokenCounts
  generalize tokenStep (slotKey s f.desc.slot) { f with data := frmData s id f } = g
  obtain ⟨w, hw⟩ := tokenWrites_eq id (frmData s id f) g.data (updSp i (fun x => x.tokenLeaves s.time.cycles) s)
  obtain ⟨l, hl⟩ := tokenSettles_eq (s := { updSp i (fun x => x.tokenLeaves s.time.cycles) s with path := { s.path with banks := w } }) hf g
  exact ⟨w, l, (congrArg (tokenSettles id g) hw).trans hl⟩

/-! ## The mask generator's reseed (R181, R182) -/

/-- The generator after one more generate call that left its expander in state `d`, with the reseed limit at `limit`. -/
def Rng.afterDraw (limit : Nat) (d : Drbg) (g : Rng) : Rng :=
  let g := g.setLive (some d)
  let g := { g with count := g.count + 1, counters := g.counters.bump 2 1 }
  let blocked := decide (limit ≤ g.count)
  let g := if blocked && !g.wasBlocked then { g with counters := g.counters.bump 6 1 } else g
  { g with wasBlocked := blocked }

theorem rngDraw_of_live {n : Nat} {d : Drbg} {s : State} (hcan : rngCan s = true) (hlive : s.rng.live = some d) :
    rngDraw n s = some ((drbgGenerate [] n d).1, { s with rng := s.rng.afterDraw (s.odNat 0x4804 1) (drbgGenerate [] n d).2 }) := by
  unfold rngDraw
  rw [if_pos hcan, hlive]
  rfl

theorem Rng.setLive_live (o : Option Drbg) (g : Rng) : (g.setLive o).live = o := by
  unfold Rng.setLive
  split
  · next h => exact if_pos h
  · next h => exact if_neg h

theorem Rng.setLive_other (o : Option Drbg) (g : Rng) : (g.setLive o).queue = g.queue ∧ (g.setLive o).count = g.count ∧ (g.setLive o).counters = g.counters := by
  unfold Rng.setLive
  split <;> exact ⟨rfl, rfl, rfl⟩

theorem Rng.afterDraw_other (limit : Nat) (d : Drbg) (g : Rng) : (g.afterDraw limit d).queue = g.queue ∧ (g.afterDraw limit d).live = some d ∧
    (g.afterDraw limit d).count = g.count + 1 ∧ (g.afterDraw limit d).counters.get 5 0 = g.counters.get 5 0 := by
  obtain ⟨hqueue, hcount, hcounters⟩ := g.setLive_other (some d)
  have hlive := g.setLive_live (some d)
  generalize hset : g.setLive (some d) = h at *
  simp only [Rng.afterDraw, hset]
  split
  · exact ⟨hqueue, hlive, congrArg (· + 1) hcount, by simp [Tab.get_bump_lit, hcounters]⟩
  · exact ⟨hqueue, hlive, congrArg (· + 1) hcount, by simp [Tab.get_bump_lit, hcounters]⟩

/-- Serving a mask reseed: the seed drawn goes to the spindle, the request is gone and counted. -/
theorem rngServe_maskReseed {i : Nat} {r : RngReq} {d : Drbg} {s : State} (hwho : r.who = .maskReseed i) (hcan : rngCan s = true) (hlive : s.rng.live = some d) :
    rngServe r s = { s with
      rng := { s.rng.afterDraw (s.odNat 0x4804 1) (drbgGenerate [] 32 d).2 with
        queue := (s.rng.afterDraw (s.odNat 0x4804 1) (drbgGenerate [] 32 d).2).queue.erase r
        counters := (s.rng.afterDraw (s.odNat 0x4804 1) (drbgGenerate [] 32 d).2).counters.bump 5 1 },
      fab := (maskSeed i (BitVec.ofNat 256 (beNat (drbgGenerate [] 32 d).1)) s).fab } := by
  unfold rngServe
  rw [hwho]
  simp only [show (Consumer.maskReseed i).octets = 32 from rfl, rngDraw_of_live hcan hlive]
  rfl

theorem maskSeed_spindle (i j : Nat) (w : W256) (s : State) : (maskSeed i w s).spindle j =
    if j = i then { s.spindle i with mask := w, maskCount := 0, maskFull := false, reseedAsked := false } else s.spindle j :=
  updSp_get i j (fun x => { x with mask := w, maskCount := 0, maskFull := false, reseedAsked := false }) s

/-! ## The obligation -/

/-- Settles O8: the record of the spindle, the frame and the mask generator after each row, by the equations above. -/
theorem spindlesRunTokens : Obligations.SpindlesRunTokens := by
  unfold Obligations.SpindlesRunTokens
  refine ⟨?issue, ?counts, ?stale, ?ask, ?ratchet, ?seed⟩
  case issue =>
    intro i id f s hwork hcredit hpart hf
    exact congrArg Host.Outcome.next (issueToken_eq hwork hcredit hpart hf)
  case counts =>
    intro i id rest f s hwork hflight hinj hf hold
    obtain ⟨w, l, hcounts⟩ := tokenCounts_eq (i := i) hf
    have hcomplete := (completeToken_of_flight hwork hflight hinj hf).trans (if_neg (by simp [hold]))
    obtain ⟨d, m, e, hstep⟩ := tokenStep_eq (slotKey s f.desc.slot) { f with data := frmData s id f }
    generalize tokenStep (slotKey s f.desc.slot) { f with data := frmData s id f } = g at hcounts hstep
    obtain ⟨hdone, hseq, hpd, hy⟩ := g.tokenDone_other
    have hsp : (s.fab.spindles.put i ((s.spindle i).tokenLeaves s.time.cycles)).get i {} = (s.spindle i).tokenLeaves s.time.cycles := Tab.get_put_same ..
    refine ⟨_, g.tokenDone, congrArg Host.Outcome.next (hcomplete.trans hcounts), Tab.find_put_same .., hdone.trans (by rw [hstep]), hseq.trans (by rw [hstep]),
      hpd.trans (by rw [hstep]), hy.trans (by rw [hstep]), g.tokenDone_stage.trans (by rw [hstep]), g.tokenDone_spindle.trans (by rw [hstep]),
      (congrArg Spindle.flight hsp).trans (congrArg (List.drop 1) hflight), congrArg Spindle.credits hsp, congrArg Spindle.tokens hsp, congrArg Spindle.maskCount hsp,
      congrArg Spindle.mask hsp, hsp, fun j hj => Tab.find_put_other hj .., rfl⟩
  case stale =>
    intro i id a rest f s hwork hflight hinj hf hattempt
    exact congrArg Host.Outcome.next ((completeToken_of_flight hwork hflight hinj hf).trans (if_pos (by simp [hattempt])))
  case ask =>
    intro i s hwork hasked hcount
    exact congrArg Host.Outcome.next (if_pos (by rw [hwork, hasked, decide_eq_true hcount, Bool.or_true]; rfl))
  case ratchet =>
    intro i s hwork hasked hcount
    exact congrArg Host.Outcome.next (if_pos (by rw [hwork, hasked, decide_eq_true hcount, Bool.or_true]; rfl))
  case seed =>
    intro i r d s hreq hcan hlive
    have hwho : r.who = .maskReseed i.val := by simpa using List.find?_some hreq
    obtain ⟨hqueue, hlive', hcount, hcounter⟩ := s.rng.afterDraw_other (s.odNat 0x4804 1) (drbgGenerate [] 32 d).2
    have hserve : execMaskReseedServed i s = .next (rngServe r s) := by unfold execMaskReseedServed; rw [hreq]
    refine ⟨_, hserve.trans (congrArg Host.Outcome.next (rngServe_maskReseed hwho hcan hlive)), (maskSeed_spindle ..).trans (if_pos rfl),
      congrArg (List.erase · r) hqueue, hlive', hcount, ?_, fun j hj => (maskSeed_spindle ..).trans (if_neg hj), rfl⟩
    exact (Tab.get_bump_same ..).trans (congrArg (· + 1) hcounter)

end Sys2Proof.Machine

/-! The headstock (R192 to R197): a frame settles, takes its packet number and joins the dispatch queue, and is dispatched to a spindle. -/
namespace Sys2Proof.Machine

/-! ## Settling in sequence order (R192) -/

/-- The state in which a port-direction's next frame settles. -/
def settled (p : PD) (s : State) : State := updPd p (fun r => { r with settlePtr := r.settlePtr + 1 }) s

theorem settled_pd (p : PD) (s : State) : (settled p s).pd p = { s.pd p with settlePtr := (s.pd p).settlePtr + 1 } := (updPd_get ..).trans (if_pos rfl)

theorem pd_of_frameAt {s : State} {p : PD} {n : W32} {id : Nat} {f : Frm} (h : frameAt s p n = some (id, f)) : f.pd = p := by
  have hf := List.find?_some h
  simp only [Bool.and_eq_true, beq_iff_eq] at hf
  exact hf.1.1

theorem unpark_of_not_parked {s : State} (h : s.power.parked = false) : unpark s = s := by unfold unpark; rw [h]; rfl

theorem exec_headstockSettle {p : PD} {id : Nat} {f : Frm} {s : State} (hat : frameAt s p (s.pd p).settlePtr = some (id, f)) (hstage : f.stage = .classified)
    (hparked : s.power.parked = false) : exec (.headstockSettle p) s = .next (settle id f (settled p s)) := by
  have hsettle : headstockSettle p s = settle id f (settled p s) := by
    unfold headstockSettle
    rw [hat]
    exact if_pos (by rw [hstage]; rfl)
  have hpower : (settle id f (settled p s)).power = s.power :=
    (settle_keep State.power (fun _ _ _ _ _ _ _ => rfl) id f (settled p s)).trans rfl
  exact congrArg Host.Outcome.next ((congrArg unpark hsettle).trans (unpark_of_not_parked (by rw [hpower, hparked])))

theorem settle_bypass {id : Nat} {f : Frm} {s : State} (hv : f.verdict = .bypass) (hgo : trafficStopped s = false) : settle id f s = readyWith id .bypass s := by
  unfold settle
  rw [hgo, hv]
  rfl

theorem settle_locked {id : Nat} {f : Frm} {s : State} (hv : ∀ c, f.verdict ≠ .drop c) (hstop : trafficStopped s = true) (hlock : lockPasses f = false) :
    settle id f s = readyWith id (.drop .lock) s := by
  unfold settle
  rw [hstop, hlock]
  refine (if_pos rfl).trans ?_
  split
  · next c hc => exact absurd hc (hv c)
  · rfl

theorem settle_transmit {id : Nat} {f : Frm} {s : State} (hv : f.verdict = .protect) (hdir : f.pd.dir = .s2l) (hgo : trafficStopped s = false) :
    settle id f s = settleTransmit id f (f.injSc.getD (bits f.action.toNat 97 84)) s := by
  unfold settle
  rw [hgo, hv, hdir]
  rfl

/-! ## The packet number (R25) and the dispatch queue (R193, R196) -/

/-- The state with one more packet number of SA `i` given. -/
def countPn (i : Nat) (s : State) : State := updSa i (fun a => { a with n := a.n + 1 }) s

/-- Below the last packet number and the notice threshold, giving a PN only counts it. -/
theorem givePn_plain {sc : Fin 16384} {i : Nat} {s : State} (hlast : (s.sa i).n ≠ lastPn (s.sa i).suite) (hnotice : (s.sa i).n < noticeAt s (s.sa i).suite) :
    givePn sc i s = ((s.sa i).n, countPn i s) := by
  unfold givePn
  simp only [if_neg hlast]
  exact if_neg fun h => absurd h.1 (Nat.not_le.mpr hnotice)

/-- A frame that SA `i` of its SC can protect is queued under the SA's next PN with the descriptor of R104. -/
theorem settleTransmit_enqueues {id sc i : Nat} {f : Frm} {s : State} (hi : (s.sc sc).saAt (s.sc sc).txAn = i) (hsc : sc < 16384) (htimed : f.timed = false)
    (hvalid : (s.sc sc).valid = true) (hrx : (s.sc sc).rx = false) (hport : (s.sc sc).port = f.pd.port.val) (hsa : i ≠ 0xFFFF) (husable : (s.sa i).usable = true)
    (hsarx : (s.sa i).rx = false) (hlast : (s.sa i).n ≠ lastPn (s.sa i).suite) (hnotice : (s.sa i).n < noticeAt s (s.sa i).suite) :
    ∃ d : Desc, settleTransmit id f sc s = enqueue id d (setData id f.data (countPn i s)) ∧
      d.pn = (s.sa i).n ∧ d.sa = i ∧ d.sc = sc ∧ d.slot = (s.sa i).slot ∧ d.iv = macsecIv (s.sa i).suite (s.sc sc).sci (s.sa i) (s.sa i).n := by
  have hpn := givePn_plain (sc := ⟨sc, hsc⟩) hlast hnotice
  have hown (u : State) : timedOwn f u = (f.data, u) := by unfold timedOwn; rw [htimed]; rfl
  unfold settleTransmit
  simp only [hi, hsc, hvalid, hrx, hport, hsa, husable, hsarx, hpn, hown]
  rw [dif_pos trivial, if_neg (by simp), if_neg (by simp)]
  exact ⟨_, rfl, rfl, rfl, rfl, rfl, rfl⟩

theorem setData_frame? {id : Nat} {f : Frm} {s : State} (h : s.frame? id = some f) (d : Octets) : (setData id d s).frame? id = some { f with data := d } := by
  unfold setData State.frame?
  rw [retWrite_frames]
  exact updFrm_frame?_same h _

theorem enqueue_frame? {id : Nat} {f : Frm} {s : State} (h : s.frame? id = some f) (d : Desc) : (enqueue id d s).frame? id = some { f with desc := d, stage := .queued } := by
  refine updFrm_frame?_same (s := slotRef d.slot s) (x := f) ?_ (fun f => { f with desc := d, stage := .queued })
  unfold State.frame?
  rw [slotRef_keep State.path (fun _ _ => rfl)]
  exact h

theorem pd_congr {s t : State} (h : t.path.pds = s.path.pds) (p : PD) : t.pd p = s.pd p := by unfold State.pd; rw [h]
theorem updFrm_pds (id : Nat) (g : Frm → Frm) (s : State) : (updFrm id g s).path.pds = s.path.pds := by unfold updFrm; split <;> rfl
theorem setData_pd (id : Nat) (d : Octets) (s : State) (p : PD) : (setData id d s).pd p = s.pd p :=
  pd_congr ((retWrite_pds ..).trans (updFrm_pds ..)) p
theorem enqueue_pd (id : Nat) (d : Desc) (s : State) (p : PD) : (enqueue id d s).pd p = s.pd p :=
  pd_congr ((updFrm_pds ..).trans (congrArg Path.pds (slotRef_keep State.path (fun _ _ => rfl) ..))) p

theorem enqueue_dispatch (id : Nat) (d : Desc) (s : State) : (enqueue id d s).fab.dispatch = s.fab.dispatch ++ [id] := by
  have hfab : (updFrm id (fun f => { f with desc := d, stage := .queued }) (slotRef d.slot s)).fab = s.fab :=
    (updFrm_keep State.fab (fun _ _ => rfl) ..).trans (slotRef_keep State.fab (fun _ _ => rfl) ..)
  exact congrArg (fun g : Fabric => g.dispatch ++ [id]) hfab

theorem enqueue_keys (id : Nat) (d : Desc) (s : State) : (enqueue id d s).keys = (slotRef d.slot s).keys :=
  updFrm_keep State.keys (fun _ _ => rfl) ..

/-- The reference is on the data slot, and no association moves. -/
theorem slotRef_data {slot : Nat} (h : slot < 0x8000) (s : State) :
    (slotRef slot s).keys = { s.keys with data := s.keys.data.upd slot {} (fun x => { x with refs := x.refs + 1 }) } := by
  unfold slotRef updSlot
  rw [if_neg (Nat.not_le.mpr h)]

theorem sa_congr {s t : State} (hsa : t.keys.sa = s.keys.sa) (hrest : t.rest = s.rest) (i : Nat) : t.sa i = s.sa i := by
  unfold State.sa State.shadow; rw [hsa, hrest]

theorem countPn_n (i : Nat) (s : State) : ((countPn i s).sa i).n = (s.sa i).n + 1 := by
  have hget : (countPn i s).keys.sa.get i {} = { s.keys.sa.get i {} with n := (s.keys.sa.get i {}).n + 1 } := Tab.get_put_same ..
  have hshadow : (countPn i s).shadow 5 (saItem i) = s.shadow 5 (saItem i) := rfl
  unfold State.sa
  rw [hget, hshadow]
  split <;> rfl

/-- The same, read off the state: the frame, the SA's next PN, the dispatch queue, the slot's references, and no port-direction moved. -/
theorem settleTransmit_queued {id sc i : Nat} {f : Frm} {s : State} (hf : s.frame? id = some f) (hi : (s.sc sc).saAt (s.sc sc).txAn = i) (hsc : sc < 16384) (htimed : f.timed = false)
    (hvalid : (s.sc sc).valid = true) (hrx : (s.sc sc).rx = false) (hport : (s.sc sc).port = f.pd.port.val) (hsa : i ≠ 0xFFFF) (husable : (s.sa i).usable = true)
    (hsarx : (s.sa i).rx = false) (hslot : (s.sa i).slot < 0x8000) (hlast : (s.sa i).n ≠ lastPn (s.sa i).suite) (hnotice : (s.sa i).n < noticeAt s (s.sa i).suite) :
    ∃ g, (settleTransmit id f sc s).frame? id = some g ∧ g.stage = .queued ∧ g.data = f.data ∧ g.seq = f.seq ∧
      g.desc.pn = (s.sa i).n ∧ g.desc.sa = i ∧ g.desc.sc = sc ∧ g.desc.slot = (s.sa i).slot ∧ g.desc.iv = macsecIv (s.sa i).suite (s.sc sc).sci (s.sa i) (s.sa i).n ∧
      ((settleTransmit id f sc s).sa i).n = (s.sa i).n + 1 ∧ (settleTransmit id f sc s).fab.dispatch = s.fab.dispatch ++ [id] ∧
      ((settleTransmit id f sc s).keys.data.get g.desc.slot {}).refs = (s.keys.data.get g.desc.slot {}).refs + 1 ∧
      ∀ p, (settleTransmit id f sc s).pd p = s.pd p := by
  obtain ⟨d, henqueue, hpn, hdsa, hdsc, hdslot, hiv⟩ := settleTransmit_enqueues hi hsc htimed hvalid hrx hport hsa husable hsarx hlast hnotice
  have hkeys : (setData id f.data (countPn i s)).keys = (countPn i s).keys := setData_keep State.keys (fun _ _ => rfl) ..
  have hrest (u : State) : (enqueue id d (setData id f.data u)).rest = u.rest :=
    (enqueue_keep State.rest (fun _ _ _ _ => rfl) ..).trans (setData_keep State.rest (fun _ _ => rfl) ..)
  have hfab : (setData id f.data (countPn i s)).fab = s.fab := setData_keep State.fab (fun _ _ => rfl) ..
  have hqueued := (enqueue_keys id d (setData id f.data (countPn i s))).trans (slotRef_data (hdslot ▸ hslot) _)
  rw [henqueue]
  have hf' : (countPn i s).frame? id = some f := hf
  refine ⟨_, enqueue_frame? (setData_frame? hf' f.data) d, rfl, rfl, rfl, hpn, hdsa, hdsc, hdslot, hiv, ?_, ?_, ?_, fun p => ?_⟩
  · rw [sa_congr (by rw [hqueued, hkeys]) (hrest _), countPn_n]
  · rw [enqueue_dispatch, hfab]
  · rw [hqueued, hkeys]
    exact congrArg KeySlot.refs (Tab.get_put_same ..)
  · exact (enqueue_pd id d _ p).trans (setData_pd id f.data _ p)

/-! ## Dispatch (R195) -/

/-- Copy a of a sound slot is read first and serves (R254, R256). -/
theorem readSlot_copyA {target : Nat} {s : State} (hiso : s.keys.isoA = false) (hstate : (s.slot target).state = .filled) (hbad : (s.slot target).copyBad = 0)
    (hok : copyOk s target (s.slot target).a = true) : readSlot target s = (some (s.slot target).a, s) := by
  have horder : copyOrder s = if s.keys.isoB then [false] else [false, true] := if_neg (by simp [hiso])
  unfold readSlot
  simp only [horder, hstate, hbad]
  refine (if_neg (by decide)).trans ?_
  by_cases hb : s.keys.isoB = true
  · simp [hb, hok]
  · simp [hb, hok]

theorem dispatch_eq {id i : Nat} {f : Frm} {rest : List Nat} {s : State} (hzero : s.rest.zeroizing = false) (hservice : s.power.service ≠ .resetting) (hreplay : s.fab.replay = [])
    (hqueue : s.fab.dispatch = id :: rest) (hto : dispatchTo s = some i) (hf : s.path.frames.find id = some f)
    (hread : ∀ u : State, u.keys = s.keys → u.rest = s.rest → ∃ c, readSlot f.desc.slot u = (some c, u)) :
    dispatch s = { s with
      fab := { s.fab with dispatch := rest }
      path := { s.path with frames := s.path.frames.put id { f with stage := .dispatched, desc := { f.desc with spindle := some i } } } } := by
  have hslot := hread { s with fab := { s.fab with dispatch := rest } } rfl rfl
  obtain ⟨c, hc⟩ := hslot
  have hfrm : s.frame? id = some f := hf
  have hkeep : dispatch s = updFrm id (fun f => { f with stage := .dispatched, desc := { f.desc with spindle := some i } }) { s with fab := { s.fab with dispatch := rest } } := by
    unfold dispatch
    rw [hreplay, hqueue, if_neg (by simp [hzero, hservice])]
    simp [hto, hfrm, hc]
  rw [hkeep]
  exact updFrm_of_find (s := { s with fab := { s.fab with dispatch := rest } }) hf _

/-! ## The obligation -/

/-- Settles O7: a frame at the settle pointer settles in the state `settled`, and the queue's head goes to the spindle chosen. -/
theorem headstockSettlesInOrder : Obligations.HeadstockSettlesInOrder := by
  unfold Obligations.HeadstockSettlesInOrder
  refine ⟨?bypass, ?locked, ?transmit, ?dispatch⟩
  case bypass =>
    intro p id f s hat hf hstage hparked hv hgo
    have hready : readyWith id .bypass (settled p s) = { settled p s with path := { (settled p s).path with frames := s.path.frames.put id { f with verdict := .bypass, stage := .ready } } } :=
      updFrm_of_find (s := settled p s) hf _
    have hexec := (exec_headstockSettle hat hstage hparked).trans (congrArg Host.Outcome.next ((settle_bypass (s := settled p s) hv hgo).trans hready))
    refine ⟨_, hexec, ?_, settled_pd p s, fun j hj => Tab.find_put_other hj .., rfl⟩
    rw [← hv]
    exact Tab.find_put_same ..
  case locked =>
    intro p id f s hat hf hstage hparked hv hstop hlock
    refine ⟨_, (exec_headstockSettle hat hstage hparked).trans (congrArg Host.Outcome.next (settle_locked (s := settled p s) hv hstop hlock)), ?_, ?_⟩
    · exact updFrm_frame?_same (s := settled p s) hf _
    · have hready : (readyWith id (.drop .lock) (settled p s)).pd p = (settled p s).pd p :=
        pd_congr (congrArg (fun t : State => t.path.pds) (updFrm_of_find (s := settled p s) hf _)) p
      rw [hready, settled_pd]
  case transmit =>
    intro p id sc f s hat hf hstage hparked hv hdir hgo hinj hsc htimed hvalid hrx hport hsa husable hsarx hslot hlast hnotice
    obtain rfl := pd_of_frameAt hat
    obtain ⟨g, hframe, hstaged, hdata, hseq, hpn, hgsa, hgsc, hgslot, hiv, hnext, hqueue, hrefs, hpds⟩ :=
      settleTransmit_queued (id := id) (s := settled f.pd s) hf rfl hsc htimed hvalid hrx hport hsa husable hsarx hslot hlast hnotice
    have hsettle : settle id f (settled f.pd s) = settleTransmit id f sc (settled f.pd s) :=
      (settle_transmit (s := settled f.pd s) hv hdir hgo).trans (congrArg (settleTransmit id f · _) hinj)
    exact ⟨_, g, (exec_headstockSettle hat hstage hparked).trans (congrArg Host.Outcome.next hsettle), hframe, hstaged, hdata, hseq, hpn, hgsa, hgsc, hgslot, hiv,
      hnext, hqueue, hrefs, by rw [hpds, settled_pd]⟩
  case dispatch =>
    intro id i f rest s hzero hservice hreplay hqueue hto hf hiso hstate hbad hok
    refine congrArg Host.Outcome.next (dispatch_eq hzero hservice hreplay hqueue hto hf fun u hkeys hrest => ?_)
    have hslot : u.slot f.desc.slot = s.slot f.desc.slot := by unfold State.slot State.shadow; rw [hkeys, hrest]
    refine ⟨_, readSlot_copyA (by rw [hkeys, hiso]) (by rw [hslot, hstate]) (by rw [hslot, hbad]) ?_⟩
    unfold copyOk copyCheck at hok ⊢
    rw [hslot, hkeys]
    exact hok

end Sys2Proof.Machine

/-! The adaptive-voltage loop (R185 to R190, R503). -/
namespace Sys2Proof.Machine

/-! ## The fabric's event status (R189) -/

theorem getLsbD_one_shiftLeft {i k : Nat} (hk : k < 8) : ((1 : BitVec 8) <<< i).getLsbD k = decide (k = i) := by
  by_cases he : k = i
  · subst he; simp [hk]
  · rcases Nat.lt_or_gt_of_ne he with h | h
    · simp [h, he]
    · simp [he, Nat.sub_ne_zero_of_lt h]

theorem fabStatus_bit {i k : Nat} (hk : k < 8) (on : Bool) (s : State) : (fabStatus i on s).fab.status.getLsbD k = if k = i then on else s.fab.status.getLsbD k := by
  have hset : (s.fab.status ||| ((1 : BitVec 8) <<< i)).getLsbD k = (s.fab.status.getLsbD k || decide (k = i)) := by
    rw [BitVec.getLsbD_or, getLsbD_one_shiftLeft hk]
  have hclear : (s.fab.status &&& ~~~((1 : BitVec 8) <<< i)).getLsbD k = (s.fab.status.getLsbD k && !decide (k = i)) := by
    rw [BitVec.getLsbD_and, BitVec.getLsbD_not, getLsbD_one_shiftLeft hk, decide_eq_true hk, Bool.true_and]
  cases on
  · exact hclear.trans (by by_cases he : k = i <;> simp [he])
  · exact hset.trans (by by_cases he : k = i <;> simp [he])

/-! ## A step of each spindle in turn -/

/-- Changing every spindle below `n`, each by its own function, while `P` holds. -/
theorem foldl_range_spindle {P : State → Prop} {step : State → Nat → State} {g : Nat → Spindle → Spindle} (hP : ∀ s k, P s → P (step s k))
    (hstep : ∀ s k j, P s → (step s k).spindle j = if j = k then g k (s.spindle k) else s.spindle j) (n : Nat) {s : State} (hs : P s) :
    P ((List.range n).foldl step s) ∧ ∀ j, ((List.range n).foldl step s).spindle j = if j < n then g j (s.spindle j) else s.spindle j := by
  induction n with
  | zero => exact ⟨hs, fun j => rfl⟩
  | succ n ih =>
    obtain ⟨hPn, hn⟩ := ih
    rw [List.range_succ, List.foldl_append]
    refine ⟨hP _ _ hPn, fun j => (hstep _ n j hPn).trans ?_⟩
    rw [hn, hn]
    grind

/-! ## Evaluation (R185 to R189) -/

/-- A spindle with its ring's rate measured. -/
def Spindle.measure (rate : Nat) (x : Spindle) : Spindle := { x with ring := rate, measured := rate * x.calib / 65536 }

/-- A measurement changes the spindles alone. -/
theorem avsMeasure_eq (rates : List Nat) (s : State) : ∃ x, avsMeasure rates s = { s with fab := { s.fab with spindles := x } } := by
  refine List.foldlRecOn (motive := fun t : State => ∃ x, t = { s with fab := { s.fab with spindles := x } }) _ _ ⟨_, rfl⟩ fun t ht i _ => ?_
  obtain ⟨x, rfl⟩ := ht
  split
  · exact ⟨_, rfl⟩
  · exact ⟨_, rfl⟩

theorem avsMeasure_spindle {rates : List Nat} (hlen : rates.length = 28) {j : Nat} (hj : j < 28) (s : State) :
    (avsMeasure rates s).spindle j = (s.spindle j).measure (rates.getD j 0) := by
  have hfold := foldl_range_spindle (P := fun _ => True)
    (step := fun s i => match rates[i]? with | some r => updSp i (fun x => { x with ring := r, measured := r * x.calib / 65536 }) s | none => s)
    (g := fun i x => match rates[i]? with | some r => x.measure r | none => x) (fun _ _ _ => trivial) (fun t k i _ => ?_) 28 (s := s) trivial
  · have hget : rates[j]? = some (rates.getD j 0) := by simp [hlen, hj]
    have hspindle := hfold.2 j
    rw [if_pos hj, hget] at hspindle
    exact hspindle
  · split
    · exact updSp_get ..
    · split
      · next he => rw [he]
      · rfl

theorem odNat_congr {s t : State} (h : t.ctl = s.ctl) (idx sub : Nat) : t.odNat idx sub = s.odNat idx sub := by unfold State.odNat State.od; rw [h]

/-- The margin-low condition seen: its event as it begins, and its instant. -/
def marginSeen (s : State) : State :=
  let s := if s.fab.status.getLsbD 0 then s else post { type := 0x3001, source := 0xFFFF } s
  fabStatus 0 true { s with fab := { s.fab with marginAt := s.time.cycles } }

/-- The capacity-low condition seen. -/
def capacitySeen (s : State) : State :=
  let s := if s.fab.status.getLsbD 1 then s else post { type := 0x3002, source := 0xFFFF } s
  fabStatus 1 true { s with fab := { s.fab with capacityAt := s.time.cycles } }

theorem avsEvents_eq (margin capacity : Bool) (s : State) :
    avsEvents margin capacity s = if capacity then capacitySeen (if margin then marginSeen s else s) else if margin then marginSeen s else s := rfl

theorem ite_post_fab (b : Bool) (e : Event) (s : State) : (if b then s else post e s).fab = s.fab := by
  split
  · rfl
  · simp

theorem marginSeen_fab (s : State) : ∃ st m, (marginSeen s).fab = { s.fab with status := st, marginAt := m } := by
  refine ⟨(marginSeen s).fab.status, (marginSeen s).fab.marginAt, ?_⟩
  have hfab := ite_post_fab (s.fab.status.getLsbD 0) { type := 0x3001, source := 0xFFFF } s
  exact congrArg (fun f : Fabric => { f with status := (marginSeen s).fab.status, marginAt := (marginSeen s).fab.marginAt }) hfab

theorem capacitySeen_fab (s : State) : ∃ st c, (capacitySeen s).fab = { s.fab with status := st, capacityAt := c } := by
  refine ⟨(capacitySeen s).fab.status, (capacitySeen s).fab.capacityAt, ?_⟩
  have hfab := ite_post_fab (s.fab.status.getLsbD 1) { type := 0x3002, source := 0xFFFF } s
  exact congrArg (fun f : Fabric => { f with status := (capacitySeen s).fab.status, capacityAt := (capacitySeen s).fab.capacityAt }) hfab

/-- The events of an evaluation change of the fabric its status and the instants of its conditions. -/
theorem avsEvents_fab (margin capacity : Bool) (s : State) :
    ∃ st m c, (avsEvents margin capacity s).fab = { s.fab with status := st, marginAt := m, capacityAt := c } := by
  obtain ⟨st, m, hm⟩ : ∃ st m, (if margin then marginSeen s else s).fab = { s.fab with status := st, marginAt := m } := by
    cases margin
    · exact ⟨s.fab.status, s.fab.marginAt, rfl⟩
    · exact marginSeen_fab s
  rw [avsEvents_eq]
  cases capacity
  · exact ⟨st, m, s.fab.capacityAt, hm⟩
  · obtain ⟨st', c, hc⟩ := capacitySeen_fab (if margin then marginSeen s else s)
    exact ⟨st', m, c, by rw [if_pos rfl, hc, hm]⟩

theorem avsEvents_ctl (margin capacity : Bool) (s : State) : (avsEvents margin capacity s).ctl = s.ctl :=
  avsEvents_keep State.ctl (fun _ _ _ _ => rfl) ..

/-- The state of an evaluation once supply and demand are recorded. -/
def avsRecord (sup demand : Nat) (ample : Bool) (s : State) : State :=
  { s with
    fab := { s.fab with supply := sup, demand := demand / 10000, offered := 0, lowStreak := if ample then s.fab.lowStreak + 1 else 0 }
    power := { s.power with zeroSince := if decide (0 < s.fab.offered) then s.time.cycles else s.power.zeroSince } }

/-- An evaluation in terms of the state before it: the measurement changes nothing it reads but the supply. -/
theorem avsEvaluate_eq (rates : List Nat) (s : State) : ∃ margin,
    avsEvaluate rates s = avsSteer (decide (1000000 * supplyNow (avsMeasure rates s) < (100 + s.odNat 0x3002 2) * demandFine s)) (s.odNat 0x3002 4) (s.odNat 0x3002 5)
      (avsEvents (decide (1000000 * supplyNow (avsMeasure rates s) < (100 + s.odNat 0x3002 2) * demandFine s) && margin)
        (decide (10000 * supplyNow (avsMeasure rates s) < demandFine s))
        (avsRecord (supplyNow (avsMeasure rates s)) (demandFine s) (decide ((107 + s.odNat 0x3002 2) * demandFine s ≤ 1000000 * supplyNow (avsMeasure rates s)))
          (avsMeasure rates s))) := by
  refine ⟨decide (s.odNat 0x3002 5 ≤ s.fab.rail), ?_⟩
  have heval : ∀ u, avsMeasure rates s = u → avsEvaluate rates s =
      avsSteer (decide (1000000 * supplyNow u < (100 + u.odNat 0x3002 2) * demandFine u)) (u.odNat 0x3002 4) (u.odNat 0x3002 5)
      (avsEvents (decide (1000000 * supplyNow u < (100 + u.odNat 0x3002 2) * demandFine u) && decide (u.odNat 0x3002 5 ≤ u.fab.rail)) (decide (10000 * supplyNow u < demandFine u))
        (avsRecord (supplyNow u) (demandFine u) (decide ((107 + u.odNat 0x3002 2) * demandFine u ≤ 1000000 * supplyNow u)) u)) := by
    rintro u rfl
    rfl
  obtain ⟨x, hx⟩ := avsMeasure_eq rates s
  rw [heval _ rfl, hx]
  rfl

/-- What an evaluation's record leaves before it steers: the spindles measured, supply and demand recorded, the command as it was. -/
structure Evaluated (rates : List Nat) (sup : Nat) (ample : Bool) (s u : State) : Prop where
  ctl : u.ctl = s.ctl
  spindle : ∀ j, u.spindle j = (avsMeasure rates s).spindle j
  frozen : u.fab.frozen = s.fab.frozen
  lastCmd : u.fab.lastCmd = s.fab.lastCmd
  pending : u.fab.avsPending = s.fab.avsPending
  offered : u.fab.offered = 0
  supply : u.fab.supply = sup
  streak : u.fab.lowStreak = if ample then s.fab.lowStreak + 1 else 0

theorem evaluated (rates : List Nat) (sup demand : Nat) (ample margin capacity : Bool) (s : State) :
    Evaluated rates sup ample s (avsEvents margin capacity (avsRecord sup demand ample (avsMeasure rates s))) := by
  obtain ⟨x, hx⟩ := avsMeasure_eq rates s
  obtain ⟨st, m, c, hfab⟩ := avsEvents_fab margin capacity (avsRecord sup demand ample (avsMeasure rates s))
  have hctl : (avsRecord sup demand ample (avsMeasure rates s)).ctl = s.ctl := by rw [hx]; rfl
  refine ⟨(avsEvents_ctl ..).trans hctl, fun j => ?_, ?_, ?_, ?_, ?_, ?_, ?_⟩
  · unfold State.spindle; rw [hfab]; rfl
  all_goals rw [hfab, hx]; rfl

/-- With supply short and the limits apart, an enabled loop that is not frozen asks for 10 mV more. -/
theorem avsSteer_raises {lo hi : Nat} {s : State} (hon : s.odNat 0x3002 1 = 1) (hfrozen : s.fab.frozen = false) (hhi : s.fab.lastCmd + 10 ≤ hi) (hlo : lo ≤ s.fab.lastCmd) :
    avsSteer true lo hi s = avsSend (s.fab.lastCmd + 10) s := by
  have hv : max lo (min hi (s.fab.lastCmd + 10)) = s.fab.lastCmd + 10 := by omega
  unfold avsSteer
  rw [if_neg (by omega), if_neg (by simp [hfrozen]), if_pos rfl]
  simp [hv]

/-- With supply not short and fewer than ten evaluations in a row that allow lowering, the loop asks for nothing. -/
theorem avsSteer_holds {lo hi : Nat} {s : State} (hon : s.odNat 0x3002 1 = 1) (hfrozen : s.fab.frozen = false) (hlow : s.fab.lowStreak < 10) :
    avsSteer false lo hi s = s := by
  unfold avsSteer
  rw [if_neg (by omega), if_neg (by simp [hfrozen]), if_neg Bool.false_ne_true, if_neg (by omega)]

/-- Supply that is ample is not short, and short supply is not ample. -/
theorem not_ample_of_short {h d u : Nat} (hshort : u < (100 + h) * d) : ¬(107 + h) * d ≤ u :=
  fun hle => absurd (hshort.trans_le ((Nat.mul_le_mul_right d (by omega)).trans hle)) (lt_irrefl _)

/-! ## Freezing (R190) -/

theorem avsFreeze_fab (s : State) : (avsFreeze s).fab = (fabStatus 2 true { s with fab := { s.fab with frozen := true, avsPending := [] } }).fab := by
  unfold avsFreeze; simp

theorem avsFreeze_bit (s : State) : (avsFreeze s).fab.status.getLsbD 2 = true := by
  rw [avsFreeze_fab, fabStatus_bit (by omega), if_pos rfl]

/-! ## The conditions' end (R189) -/

/-- The conditions showing and the cycles at which each has been absent for `d` cycles. -/
def dueClears (d : Nat) (s : State) : List (Nat × Nat) :=
  (if s.fab.status.getLsbD 0 then [(0, s.fab.marginAt + d)] else []) ++ (if s.fab.status.getLsbD 1 then [(1, s.fab.capacityAt + d)] else [])

/-- Clear the conditions whose time has come. -/
def clearDue (s : State) (q : Nat × Nat) : State := if q.2 ≤ s.time.cycles then fabStatus q.1 false s else s

theorem marginClear_two {s : State} {a b : Nat × Nat} (h : dueClears tenMs s = [a, b]) : marginClear s = clearDue (clearDue (waitCycle (min a.2 b.2) s) a) b := by
  change (match dueClears tenMs s with
    | [] => s
    | (_, c) :: t => (dueClears tenMs s).foldl clearDue (waitCycle (t.foldl (fun m (q : Nat × Nat) => min m q.2) c) s)) = _
  rw [h]
  rfl

theorem dueClears_both {s : State} (hmargin : s.fab.status.getLsbD 0 = true) (hcapacity : s.fab.status.getLsbD 1 = true) (d : Nat) :
    dueClears d s = [(0, s.fab.marginAt + d), (1, s.fab.capacityAt + d)] := by
  unfold dueClears; rw [hmargin, hcapacity]; rfl

/-- Of two conditions showing, the first has had its time `c`; the second clears where its time `e` has come too. -/
theorem clearDue_both {c e : Nat} {s : State} (hcapacity : s.fab.status.getLsbD 1 = true) (hdue : c ≤ s.time.cycles) :
    (clearDue (clearDue s (0, c)) (1, e)).time = s.time ∧ (clearDue (clearDue s (0, c)) (1, e)).fab.status.getLsbD 0 = false ∧
      (clearDue (clearDue s (0, c)) (1, e)).fab.status.getLsbD 1 = decide (s.time.cycles < e) ∧
      ({ clearDue (clearDue s (0, c)) (1, e) with fab := { (clearDue (clearDue s (0, c)) (1, e)).fab with status := s.fab.status } } : State) = s := by
  have hfirst : clearDue s (0, c) = fabStatus 0 false s := if_pos hdue
  have hbit : (fabStatus 0 false s).fab.status.getLsbD 0 = false ∧ (fabStatus 0 false s).fab.status.getLsbD 1 = true := by
    simp only [fabStatus_bit (show 0 < 8 by omega), fabStatus_bit (show 1 < 8 by omega)]
    exact ⟨rfl, hcapacity⟩
  rw [hfirst]
  unfold clearDue
  split
  · next he =>
    have he : e ≤ s.time.cycles := he
    refine ⟨rfl, ?_, ?_, rfl⟩
    · rw [fabStatus_bit (by omega)]; exact hbit.1
    · rw [fabStatus_bit (by omega), if_pos rfl, decide_eq_false (by omega)]
  · next he =>
    have he : ¬e ≤ s.time.cycles := he
    exact ⟨rfl, hbit.1, hbit.2.trans (decide_eq_true (by omega)).symm, rfl⟩

theorem clears_both {s : State} (hcapacity : s.fab.status.getLsbD 1 = true) (hle : s.fab.marginAt ≤ s.fab.capacityAt) (d : Nat) :
    let t := clearDue (clearDue (waitCycle (min (s.fab.marginAt + d) (s.fab.capacityAt + d)) s) (0, s.fab.marginAt + d)) (1, s.fab.capacityAt + d)
    s.fab.marginAt + d ≤ t.time.cycles ∧ t.fab.status.getLsbD 0 = false ∧ t.fab.status.getLsbD 1 = decide (t.time.cycles < s.fab.capacityAt + d) ∧
      ({ t with time := s.time, fab := { t.fab with status := s.fab.status } } : State) = s := by
  rw [Nat.min_eq_left (Nat.add_le_add_right hle d)]
  have hdue := (waitCycle_cycles (s.fab.marginAt + d) s).1
  obtain ⟨htime, hbit0, hbit1, hrest⟩ := clearDue_both (s := waitCycle (s.fab.marginAt + d) s) (e := s.fab.capacityAt + d) hcapacity hdue
  exact ⟨by rw [htime]; exact hdue, hbit0, by rw [htime]; exact hbit1, congrArg (fun u : State => { u with time := s.time }) hrest⟩

/-! ## The obligation -/

/-- Settles O12: an evaluation through what its record leaves (`Evaluated`), the clearing through the two conditions due, the rest by definition. -/
theorem voltageLoopSteersTheRail : Obligations.VoltageLoopSteersTheRail := by
  unfold Obligations.VoltageLoopSteersTheRail
  refine ⟨?raise, ?hold, ?ack, ?report, ?read, ?timeout, ?mismatch, ?retry, ?clear⟩
  case raise =>
    intro rates s hlen hon hfrozen hshort hhi hlo
    obtain ⟨margin, heval⟩ := avsEvaluate_eq rates s
    rw [decide_eq_true hshort, decide_eq_false (not_ample_of_short hshort)] at heval
    have hu := evaluated rates (supplyNow (avsMeasure rates s)) (demandFine s) false margin (decide (10000 * supplyNow (avsMeasure rates s) < demandFine s)) s
    rw [Bool.true_and] at heval
    generalize avsEvents _ _ _ = u at heval hu
    have hsteer := avsSteer_raises (lo := s.odNat 0x3002 4) (hi := s.odNat 0x3002 5) (s := u) (by rw [odNat_congr hu.ctl, hon]) (by rw [hu.frozen, hfrozen])
      (by rw [hu.lastCmd]; exact hhi) (by rw [hu.lastCmd]; exact hlo)
    rw [hu.lastCmd] at hsteer
    refine ⟨_, congrArg Host.Outcome.next (heval.trans hsteer), rfl, congrArg (· ++ [s.fab.lastCmd + 10]) hu.pending, rfl, hu.offered, hu.streak, fun i => ?_⟩
    have hspindle : (avsSend (s.fab.lastCmd + 10) u).spindle i = (s.spindle i).measure (rates.getD i 0) := (hu.spindle i).trans (avsMeasure_spindle hlen i.isLt s)
    exact ⟨congrArg Spindle.ring hspindle, congrArg Spindle.measured hspindle⟩
  case hold =>
    intro rates s hon hfrozen hample hlow hdemand
    obtain ⟨margin, heval⟩ := avsEvaluate_eq rates s
    have hshort : ¬1000000 * supplyNow (avsMeasure rates s) < (100 + s.odNat 0x3002 2) * demandFine s := fun h => not_ample_of_short h hample
    have hcapacity : ¬10000 * supplyNow (avsMeasure rates s) < demandFine s := by
      rw [Nat.add_mul] at hample
      omega
    have hu := evaluated rates (supplyNow (avsMeasure rates s)) (demandFine s) true false false s
    rw [decide_eq_false hshort, decide_eq_true hample, decide_eq_false hcapacity, Bool.false_and] at heval
    have hout : (avsEvents false false (avsRecord (supplyNow (avsMeasure rates s)) (demandFine s) true (avsMeasure rates s))).out = s.out := by
      obtain ⟨x, hx⟩ := avsMeasure_eq rates s
      have hmeasure : (avsMeasure rates s).out = s.out := by rw [hx]
      exact hmeasure
    generalize avsEvents _ _ _ = u at heval hu hout
    have hsteer := avsSteer_holds (lo := s.odNat 0x3002 4) (hi := s.odNat 0x3002 5) (s := u) (by rw [odNat_congr hu.ctl, hon]) (by rw [hu.frozen, hfrozen])
      (by rw [hu.streak]; exact hlow)
    exact ⟨_, congrArg Host.Outcome.next (heval.trans hsteer), hu.streak, hu.lastCmd, hu.supply, hout⟩
  case ack =>
    intro mv l s hpending
    have hack : execAvsCommandAck none s = .next (fabStatus 2 (s.fab.status.getLsbD 2 && !s.fab.frozen) { s with fab := { s.fab with rail := mv, avsPending := l, frozen := false } }) := by
      unfold execAvsCommandAck
      rw [hpending]
    refine ⟨_, hack, rfl, rfl, rfl, fun hfrozen => ?_, rfl, rfl⟩
    rw [fabStatus_bit (by omega), if_pos rfl, hfrozen, Bool.not_true, Bool.and_false]
  case report => exact fun v s => rfl
  case read => exact fun s => rfl
  case timeout =>
    intro s hpending
    refine ⟨_, congrArg Host.Outcome.next (if_pos (by simp [hpending])), ?_, ?_, avsFreeze_bit s, ?_, ?_⟩ <;> rw [avsFreeze_fab] <;> rfl
  case mismatch =>
    intro s hfrozen hfar
    refine ⟨_, congrArg Host.Outcome.next (if_pos (by simpa [hfrozen] using hfar)), ?_, ?_, avsFreeze_bit s, ?_⟩ <;> rw [avsFreeze_fab] <;> rfl
  case retry => exact fun s hfrozen => congrArg Host.Outcome.next (if_pos hfrozen)
  case clear =>
    intro s hmargin hcapacity hle
    exact ⟨_, congrArg Host.Outcome.next (marginClear_two (dueClears_both hmargin hcapacity tenMs)), clears_both hcapacity hle tenMs⟩

end Sys2Proof.Machine

/-! Spares (R206, R209 to R211, R218, R219): starting, failing and passing the known-answer test, the lag evaluation, and the rotation's start. -/
namespace Sys2Proof.Machine

theorem waitCycle_exact {c : Nat} {s : State} (h : s.time.cycles ≤ c) : (waitCycle c s).time.cycles = c :=
  Nat.add_sub_cancel' h

theorem settleRoles_counters (s : State) : (settleRoles s).fab.counters = s.fab.counters :=
  (congrArg Fabric.counters (settleRoles_frame s) :)
theorem spareCheck_counters (s : State) : (spareCheck s).fab.counters = s.fab.counters :=
  (congrArg Fabric.counters (spareCheck_frame s) :)
theorem startSpindle_counters (i : Nat) (w : Why) (s : State) : (startSpindle i w s).fab.counters = s.fab.counters :=
  (congrArg Fabric.counters (startSpindle_frame i w s) :)

/-! ## A start that fails (R206) -/

/-- What a failed start leaves of spindle `i`: Diagnosing with cause 8 and its domain off. -/
structure StartRefused (i : Nat) (s t : State) : Prop where
  role : (t.spindle i).role = .diagnosing
  cause : (t.spindle i).cause = 8
  domain : (t.domain i).state = 0
  counters : t.fab.counters = s.fab.counters

theorem StartRefused.congr {i : Nat} {s t u : State} (h : StartRefused i s t) (hsp : u.spindle i = t.spindle i) (hdom : u.domain i = t.domain i)
    (hcount : u.fab.counters = t.fab.counters) : StartRefused i s u :=
  ⟨by rw [hsp, h.role], by rw [hsp, h.cause], by rw [hdom, h.domain], hcount.trans h.counters⟩

theorem StartRefused.settleRoles {i : Nat} {s t : State} (h : StartRefused i s t) : StartRefused i s (settleRoles t) := by
  obtain ⟨hsp, hdom, -⟩ := (Kept.of_role (s := t) (j := i) (by rw [h.role]; exact nofun)).settleRoles
  exact h.congr hsp hdom (settleRoles_counters t)

theorem StartRefused.spareCheck {i : Nat} {s t : State} (h : StartRefused i s t) : StartRefused i s (spareCheck t) :=
  h.congr (spareCheck_spindle t i) (spareCheck_domain t i) (spareCheck_counters t)

/-- The requester's next choice is another spindle. -/
theorem StartRefused.startSpindle {i j : Nat} {s t u : State} (h : StartRefused i s t) (hj : nextSpare t = some j) (hsp : u.spindle i = t.spindle i) (hdom : u.domain i = t.domain i)
    (hcount : u.fab.counters = t.fab.counters) (w : Why) : StartRefused i s (startSpindle j w u) := by
  have hne : i ≠ j := by
    rintro rfl
    have hrole := (nextSpare_spec hj).1
    rw [h.role] at hrole
    cases hrole
  exact h.congr ((startSpindle_spindle_other hne w u).trans hsp) ((startSpindle_domain j w u i).trans ((if_neg hne).trans hdom)) ((startSpindle_counters j w u).trans hcount)

/-- A rotation under way with spare `j`. -/
def rotationTo (j : Nat) (again : Bool) (s : State) : State := { s with fab := { s.fab with rotation := some (j, again) } }

@[simp] theorem rotationTo_spindle (j : Nat) (again : Bool) (s : State) (i : Nat) : (rotationTo j again s).spindle i = s.spindle i := rfl
@[simp] theorem rotationTo_domain (j : Nat) (again : Bool) (s : State) (d : Nat) : (rotationTo j again s).domain d = s.domain d := rfl

/-- The spindle's record, its domain, and its seed's request, as a start fails. -/
def refuseStart (i : Nat) (s : State) : State :=
  let u := logSpindle i 8 0 0 (updSp i (fun x => { x with cause := 8 }) (setDomain i 0 (setRole i .diagnosing s)))
  { u with rng := { u.rng with queue := u.rng.queue.filter (fun r => r.who != .spareSeed i) } }

theorem refuseStart_refused (i : Nat) (s : State) : StartRefused i s (refuseStart i s) := by
  have hsp : (refuseStart i s).spindle i = { (s.spindle i).enter .diagnosing s.time.cycles with cause := 8 } := by
    refine (spindle_congr (t := refuseStart i s) (logSpindle_fab ..) i).trans ?_
    rw [updSp_get, if_pos rfl, setDomain_spindle, setRole_spindle, if_pos rfl]
  have hdom : (refuseStart i s).domain i = { s.domain i with state := 0 } := by
    refine (domain_congr (t := refuseStart i s) (logSpindle_power ..) i).trans ?_
    rw [updSp_domain, setDomain_get, if_pos rfl, setRole_domain]
  have hfab : (refuseStart i s).fab = (updSp i (fun x => { x with cause := 8 }) (setDomain i 0 (setRole i .diagnosing s))).fab := logSpindle_fab ..
  exact ⟨by rw [hsp]; rfl, by rw [hsp], by rw [hdom], by rw [hfab]; rfl⟩

theorem startFailed_eq (i : Nat) (s : State) : startFailed i s =
    if (s.spindle i).why == .rotation then
      match (refuseStart i s).fab.rotation, nextSpare (refuseStart i s) with
      | some (_, false), some j => spareCheck (startSpindle j .rotation (rotationTo j true (refuseStart i s)))
      | _, _ => spareCheck (rotationEnd (refuseStart i s))
    else settleRoles (refuseStart i s) := rfl

theorem startFailed_refused (i : Nat) (s : State) : StartRefused i s (startFailed i s) := by
  have h := refuseStart_refused i s
  rw [startFailed_eq]
  generalize refuseStart i s = u at h
  split
  · split
    · next j _ hj => exact (h.startSpindle (u := rotationTo j true u) hj (rotationTo_spindle ..) (rotationTo_domain ..) rfl .rotation).spareCheck
    · exact (h.congr (u := rotationEnd u) (rotationEnd_spindle _ i) (rotationEnd_domain _ i) rfl).spareCheck
  · exact h.settleRoles

theorem startFailed_refused_later (i c : Nat) (s : State) : StartRefused i s (startFailed i (waitCycle c s)) := by
  obtain ⟨hrole, hcause, hdom, hcount⟩ := startFailed_refused i (waitCycle c s)
  exact ⟨hrole, hcause, hdom, hcount.trans (congrArg Fabric.counters (waitCycle_fab c s))⟩

theorem startLate_refused (i : Nat) (s : State) : StartRefused i s (startLate i s) := startFailed_refused_later i _ s

/-! ## A start that passes (R206, R209) -/

/-- A spindle as its start passes with calibration factor `calib`. -/
def Spindle.begins (calib now : Nat) (x : Spindle) : Spindle := ({ x with calib := calib, lag := false }.enter .working now).fresh

/-- Spindle `i` at work once its start has passed. -/
def passStart (i calib : Nat) (s : State) : State := updSp i Spindle.fresh (setRole i .working (updSp i (fun x => { x with calib := calib, lag := false }) s))

theorem passStart_spindle (i calib : Nat) (s : State) : (passStart i calib s).spindle i = (s.spindle i).begins calib s.time.cycles := by
  unfold passStart
  rw [updSp_get, if_pos rfl, setRole_spindle, if_pos rfl, updSp_get, if_pos rfl]
  rfl

/-- A replacement that passes works, and lets a lagging spindle drain where there is one to spare. -/
theorem startPassed_eq {i calib : Nat} {s : State} (hwhy : (s.spindle i).why ≠ .rotation) : startPassed i calib s =
    match (inRole (passStart i calib s) .working).find? (fun j => ((passStart i calib s).spindle j).lag), decide (24 < roleCount (passStart i calib s) .working) with
    | some j, true => settleRoles (fabCount 1 1 (updSp j (fun x => { x with why := .lag }) (setRole j .draining (passStart i calib s))))
    | _, _ => settleRoles (passStart i calib s) := by
  unfold startPassed
  dsimp only
  split
  · next h => exact absurd h hwhy
  · rfl

theorem startPassed_spindle {i calib : Nat} {s : State} (hwhy : (s.spindle i).why ≠ .rotation) : (startPassed i calib s).spindle i = (s.spindle i).begins calib s.time.cycles := by
  have hsp := passStart_spindle i calib s
  have hkept {u : State} (hu : u.spindle i = (passStart i calib s).spindle i) : (settleRoles u).spindle i = (s.spindle i).begins calib s.time.cycles := by
    rw [(Kept.of_role (s := u) (j := i) (by rw [hu, hsp]; exact nofun)).settleRoles.1, hu, hsp]
  rw [startPassed_eq hwhy]
  split
  · next j hj _ =>
    have hne : i ≠ j := by
      rintro rfl
      have hlag := List.find?_some hj
      rw [hsp] at hlag
      cases hlag
    refine hkept ?_
    rw [fabCount_spindle, updSp_get, if_neg hne, setRole_spindle, if_neg hne]
  · exact hkept rfl

theorem startPassed_time (i calib : Nat) (s : State) : (startPassed i calib s).time = s.time :=
  startPassed_keep State.time (fun _ _ _ _ _ _ _ _ _ => rfl) i calib s

/-! ## The lag evaluation (R186, R218, R219) -/

/-- A spindle with its interval closed and its busy rate taken over the lag window of `win` us. -/
def Spindle.lagMeasure (win now : Nat) (x : Spindle) : Spindle := let x := x.lagClose now; { x with busy := busyRate (x.lagWindow win) }

/-- One spindle's interval closed. -/
def lagStep (win : Nat) (s : State) (i : Nat) : State := updSp i (fun x => x.lagMeasure win s.time.cycles) s

/-- Every spindle's interval closed. -/
def lagMeasured (win : Nat) (s : State) : State := (List.range 28).foldl (lagStep win) s

theorem lagStep_spindle (win : Nat) (s : State) (i j : Nat) : (lagStep win s i).spindle j = if j = i then (s.spindle i).lagMeasure win s.time.cycles else s.spindle j :=
  updSp_get i j _ s

theorem lagMeasured_spec (win : Nat) (s : State) : (lagMeasured win s).time = s.time ∧
    ∀ j, (lagMeasured win s).spindle j = if j < 28 then (s.spindle j).lagMeasure win s.time.cycles else s.spindle j :=
  foldl_range_spindle (P := fun t => t.time = s.time) (step := lagStep win) (g := fun _ x => x.lagMeasure win s.time.cycles) (fun _ _ h => h)
    (fun t k j h => h ▸ lagStep_spindle win t k j) 28 rfl

theorem lagMeasured_ctl (win : Nat) (s : State) : (lagMeasured win s).ctl = s.ctl :=
  List.foldlRecOn (motive := fun t : State => t.ctl = s.ctl) _ _ rfl fun _ h _ _ => h

/-- A spindle found to lag: marked, with its event. -/
def markLag (i : Nat) (s : State) : State := post { type := 0x3007, source := i } (logSpindle i 7 0 0 (updSp i (fun x => { x with lag := true, cause := 7 }) s))

theorem markLag_spindle (i j : Nat) (s : State) : (markLag i s).spindle j = if j = i then { s.spindle i with lag := true, cause := 7 } else s.spindle j := by
  unfold markLag
  rw [post_spindle, logSpindle_spindle]
  exact updSp_get i j _ s

/-- The spindles of a state that lag by its rates and are not marked. -/
def slowSpindles (win percent : Nat) (s : State) : List Nat :=
  (inRole s .working).filter (fun i => decide (10000 ≤ ((s.spindle i).lagWindow win).1) &&
    decide (200 * (s.spindle i).busy < percent * median2 ((inRole s .working).map (fun i => (s.spindle i).busy))) && !(s.spindle i).lag)

theorem lagEvaluate_eq (s : State) : lagEvaluate s =
    settleRoles ((slowSpindles (s.odNat 0x3001 2) ((lagMeasured (s.odNat 0x3001 2) s).odNat 0x3001 1) (lagMeasured (s.odNat 0x3001 2) s)).foldl (fun s i => markLag i s)
      (lagMeasured (s.odNat 0x3001 2) s)) := rfl

/-- Marking spindles leaves the record of each but for the mark. -/
theorem foldl_markLag_spindle (l : List Nat) (s : State) (j : Nat) :
    (l.foldl (fun s i => markLag i s) s).spindle j = if j ∈ l then { s.spindle j with lag := true, cause := 7 } else s.spindle j := by
  induction l generalizing s with
  | nil => rfl
  | cons i l ih =>
    rw [List.foldl_cons, ih, markLag_spindle]
    by_cases hj : j = i
    · subst hj; simp
    · simp [hj]

/-- Settling the roles changes no spindle's rate or intervals. -/
theorem settleRoles_busy (s : State) (j : Nat) : ((settleRoles s).spindle j).busy = (s.spindle j).busy ∧ ((settleRoles s).spindle j).parts = (s.spindle j).parts := by
  refine settleRoles_induct (M := fun t => (t.spindle j).busy = (s.spindle j).busy ∧ (t.spindle j).parts = (s.spindle j).parts) (fun t i w ht _ _ _ => ?_)
    (fun e t ht => by simpa using ht) (fun _ _ ht => ht) ⟨rfl, rfl⟩
  by_cases hj : j = i
  · subst hj
    have hstarted := startSpindle_spindle_same j w t
    exact ⟨hstarted.busy.trans ht.1, hstarted.parts.trans ht.2⟩
  · rw [startSpindle_spindle_other hj]; exact ht

/-- What a lag evaluation leaves of every spindle's rate, and of each Working one that is slow. -/
theorem lagEvaluate_spec (s : State) : (lagEvaluate s).time = s.time ∧
    (∀ i : Fin 28, ((lagEvaluate s).spindle i).busy = busyRate (((s.spindle i).lagClose s.time.cycles).lagWindow (s.odNat 0x3001 2)) ∧
      ((lagEvaluate s).spindle i).parts = ((s.spindle i).lagClose s.time.cycles).parts) ∧
    ∀ i : Fin 28, (s.spindle i).role = .working → 10000 ≤ (((s.spindle i).lagClose s.time.cycles).lagWindow (s.odNat 0x3001 2)).1 →
      200 * ((lagEvaluate s).spindle i).busy < s.odNat 0x3001 1 * median2 ((inRole s .working).map (fun j => ((lagEvaluate s).spindle j).busy)) → (s.spindle i).lag = false →
      ((lagEvaluate s).spindle i).lag = true ∧ ((lagEvaluate s).spindle i).cause = 7 ∧ ((lagEvaluate s).spindle i).role = .working := by
  obtain ⟨htime, hmeasured⟩ := lagMeasured_spec (s.odNat 0x3001 2) s
  have hod := odNat_congr (lagMeasured_ctl (s.odNat 0x3001 2) s) 0x3001 1
  have heq := lagEvaluate_eq s
  rw [hod] at heq
  generalize lagMeasured (s.odNat 0x3001 2) s = u at *
  have hmark := foldl_markLag_spindle (slowSpindles (s.odNat 0x3001 2) (s.odNat 0x3001 1) u) u
  have hbusy (j : Nat) : ((lagEvaluate s).spindle j).busy = (u.spindle j).busy ∧ ((lagEvaluate s).spindle j).parts = (u.spindle j).parts := by
    rw [heq]
    refine ⟨(settleRoles_busy _ j).1.trans ?_, (settleRoles_busy _ j).2.trans ?_⟩
    · rw [hmark]; split <;> rfl
    · rw [hmark]; split <;> rfl
  have hin (i : Fin 28) : u.spindle i = (s.spindle i).lagMeasure (s.odNat 0x3001 2) s.time.cycles := (hmeasured i).trans (if_pos i.isLt)
  have hroles : inRole u .working = inRole s .working := by
    refine List.filter_congr fun j hj => ?_
    rw [hin ⟨j, List.mem_range.mp hj⟩]
    rfl
  refine ⟨?_, fun i => ?_, fun i hrole htokens hslow hlag => ?_⟩
  · rw [heq, settleRoles_time]
    refine Eq.trans (List.foldlRecOn (motive := fun t : State => t.time = u.time) _ _ rfl fun t ht i _ => ?_) htime
    simpa [markLag] using ht
  · rw [(hbusy i).1, (hbusy i).2, hin]
    exact ⟨rfl, rfl⟩
  · have hmem : i.val ∈ slowSpindles (s.odNat 0x3001 2) (s.odNat 0x3001 1) u := by
      simp only [hbusy] at hslow
      unfold slowSpindles
      rw [hroles]
      refine List.mem_filter.mpr ⟨List.mem_filter.mpr ⟨List.mem_range.mpr i.isLt, by rw [hrole]; rfl⟩, ?_⟩
      have hwindow : 10000 ≤ ((u.spindle i).lagWindow (s.odNat 0x3001 2)).1 := by rw [hin]; exact htokens
      have hunmarked : (u.spindle i).lag = false := by rw [hin]; exact hlag
      rw [decide_eq_true hslow, decide_eq_true hwindow, hunmarked]
      rfl
    have hmarked := (hmark i).trans (if_pos hmem)
    have hworking : (u.spindle i).role = .working := by rw [hin]; exact hrole
    rw [heq, (Kept.of_role (by rw [hmarked]; exact fun h => nomatch h.symm.trans hworking)).settleRoles.1, hmarked]
    exact ⟨rfl, rfl, hworking⟩

/-! ## The rows of a start (R206, R383) -/

/-- A known-answer test that ends at a Starting spindle whose seed has been served. -/
theorem exec_spindleKatComplete {i : Fin 28} {kat : KatRun} {e : Nat} {s : State} (hrole : (s.spindle i).role = .starting)
    (hseed : s.rng.queue.any (fun r => r.who == .spareSeed i.val) = false) : exec (.spindleKatComplete i kat e) s = .next (katEnds i kat (s.time.cycles + e) s) :=
  congrArg Host.Outcome.next (if_pos (by rw [hrole, hseed]; rfl))

theorem katEnds_late {i at_ : Nat} {kat : KatRun} {s : State} (h : (s.spindle i).since + cyclesUs 1000 < at_) : katEnds i kat at_ s = startLate i s := if_pos h
theorem katEnds_passes {i at_ : Nat} {kat : KatRun} {s : State} (hkat : katPasses kat = true) (h : at_ ≤ (s.spindle i).since + cyclesUs 1000) :
    katEnds i kat at_ s = startPassed i (calibOf kat) (waitCycle at_ s) := by
  unfold katEnds
  rw [if_neg (Nat.not_lt.mpr h), if_pos hkat]
theorem katEnds_fails {i at_ : Nat} {kat : KatRun} {s : State} (hkat : katPasses kat = false) (h : at_ ≤ (s.spindle i).since + cyclesUs 1000) :
    katEnds i kat at_ s = startFailed i (fabCount 3 1 (waitCycle at_ s)) := by
  unfold katEnds
  rw [if_neg (Nat.not_lt.mpr h), if_neg (by simp [hkat])]

theorem startFailed_time (i : Nat) (s : State) : (startFailed i s).time = s.time := startFailed_keep State.time (fun _ _ _ _ _ _ _ _ _ => rfl) i s

theorem startLate_cycles (i : Nat) (s : State) : (s.spindle i).since + cyclesUs 1000 ≤ (startLate i s).time.cycles := by
  unfold startLate
  rw [startFailed_time]
  exact (waitCycle_cycles ..).1

/-- The request for spindle `i`'s seed withdrawn. -/
def withdrawSeed (i : Nat) (s : State) : State := { s with rng := { s.rng with queue := s.rng.queue.filter (fun r => r.who != .spareSeed i) } }

theorem withdrawSeed_queue (i : Nat) (s : State) : ∀ r ∈ (withdrawSeed i s).rng.queue, r.who ≠ .spareSeed i := by
  intro r hr
  simpa using (List.mem_filter.mp hr).2

/-- Spindle `i` Spare again, with a retry no sooner than `retry` cycles from now. -/
def spareAgain (i retry : Nat) (s : State) : State := updSp i (fun x => { x with retryAt := s.time.cycles + retry }) (toSpare i s)

/-- A Starting spare that gives up its seed is Spare with its domain off, and settling the roles cannot start it at once. -/
theorem spareAgain_settleRoles {i retry : Nat} (hretry : 0 < retry) {s : State} (hqueue : ∀ r ∈ s.rng.queue, r.who ≠ .spareSeed i) :
    let t := settleRoles (spareAgain i retry s)
    t.time = s.time ∧ (t.spindle i).role = .spare ∧ (t.domain i).state = 0 ∧ (t.spindle i).retryAt = s.time.cycles + retry ∧ ∀ r ∈ t.rng.queue, r.who ≠ .spareSeed i := by
  have htime : (spareAgain i retry s).time = s.time := toSpare_time i s
  have hrng : (spareAgain i retry s).rng = s.rng := toSpare_rng i s
  have hsp : (spareAgain i retry s).spindle i = { (s.spindle i).enter .spare s.time.cycles with checkpointDue := !mpuReady s, retryAt := s.time.cycles + retry } := by
    unfold spareAgain
    rw [updSp_get, if_pos rfl, toSpare_spindle, if_pos rfl]
  have hdom : (spareAgain i retry s).domain i = { s.domain i with state := 0 } := by
    unfold spareAgain
    rw [updSp_domain, toSpare_domain, if_pos rfl]
  generalize spareAgain i retry s = u at *
  obtain ⟨hsp', hdom', hqueue'⟩ := Kept.settleRoles (s := u) (j := i) (.inr (by rw [htime, hsp]; exact Nat.lt_add_of_pos_right hretry))
  dsimp only
  rw [settleRoles_time, htime, hsp', hsp, hdom', hdom]
  exact ⟨rfl, rfl, rfl, rfl, fun r hr hw => hqueue r (hrng ▸ hqueue' r hr hw) hw⟩

theorem spareSeedLost_eq {i : Nat} {s : State} (hrole : (s.spindle i).role = .starting) (hseed : s.rng.queue.any (fun r => r.who == .spareSeed i) = true) :
    spareSeedLost i s = settleRoles (spareAgain i (cyclesUs 1000) (withdrawSeed i (waitCycle ((s.spindle i).since + cyclesUs 40) s))) :=
  if_pos (by rw [hrole, hseed]; rfl)

/-- A spare started for a rotation: Starting, its domain on, its seed asked for. -/
theorem startSpindle_rotation (i : Nat) (s : State) : ((spareCheck (startSpindle i .rotation s)).spindle i).role = .starting ∧
    ((spareCheck (startSpindle i .rotation s)).spindle i).why = .rotation ∧ ((spareCheck (startSpindle i .rotation s)).domain i).state = 1 ∧
      ∃ r ∈ (spareCheck (startSpindle i .rotation s)).rng.queue, r.who = .spareSeed i := by
  have hstarted := startSpindle_spindle_same i .rotation s
  rw [spareCheck_spindle, spareCheck_domain, spareCheck_rng, startSpindle_domain, if_pos rfl, startSpindle_rng]
  exact ⟨hstarted.role, hstarted.why, rfl, _, List.mem_append_right _ (List.mem_singleton_self _), rfl⟩

theorem spareCheck_rotation (s : State) : (spareCheck s).fab.rotation = s.fab.rotation := (congrArg Fabric.rotation (spareCheck_frame s) :)
theorem startSpindle_fab_rotation (i : Nat) (w : Why) (s : State) : (startSpindle i w s).fab.rotation = s.fab.rotation :=
  (congrArg Fabric.rotation (startSpindle_frame i w s) :)

/-- A rotation that may start starts the spare it chooses once its interval is over. -/
theorem rotate_eq {i : Nat} {s : State} (hon : s.odNat 0x3000 1 ≠ 0) (hready : s.power.start = .ready) (hparked : s.power.parked = false) (hrot : s.fab.rotation = none)
    (hfail : s.fab.failover = []) (hswap : swapping s = false) (hservice : s.power.service = .none) (hspare : s.fab.status.getLsbD 3 = false)
    (hnext : nextSpare (waitCycle (s.fab.rotatedAt + cyclesUs (1000 * s.odNat 0x3000 2)) s) = some i) :
    rotate s = spareCheck (startSpindle i .rotation (rotationTo i false (waitCycle (s.fab.rotatedAt + cyclesUs (1000 * s.odNat 0x3000 2)) s))) := by
  unfold rotate
  rw [hspare, hready, hparked, hrot, hfail, hswap, hservice, if_neg (by simp [hon])]
  simp only [hnext]
  rfl

/-- The next multiple of `p` from cycle `c` on. -/
theorem next_multiple {p : Nat} (hp : 0 < p) (c : Nat) : c ≤ (c + (p - 1)) / p * p ∧ (c + (p - 1)) / p * p < c + p := by
  have hdiv := Nat.div_add_mod (c + (p - 1)) p
  have hmod := Nat.mod_lt (c + (p - 1)) hp
  rw [Nat.mul_comm] at hdiv
  omega

theorem lagInstant_cycles (e : Nat) (s : State) : s.time.cycles + e ≤ (lagInstant e s).time.cycles ∧ (lagInstant e s).time.cycles < s.time.cycles + e + cyclesUs 100 ∧
    (lagInstant e s).time.cycles % cyclesUs 100 = 0 := by
  have hp : 0 < cyclesUs 100 := by decide
  unfold lagInstant
  generalize cyclesUs 100 = p at hp
  obtain ⟨hle, hlt⟩ := next_multiple hp (s.time.cycles + e)
  dsimp only
  rw [waitCycle_exact ((Nat.le_add_right _ e).trans hle)]
  exact ⟨hle, hlt, Nat.mul_mod_left ..⟩

/-! ## The obligation -/

/-- Settles O13: starts through `StartRefused` and `startPassed_spindle`, the lag evaluation through `lagEvaluate_spec`. -/
theorem sparesReplaceSpindles : Obligations.SparesReplaceSpindles := by
  unfold Obligations.SparesReplaceSpindles
  refine ⟨?passes, ?late, ?fails, ?timeout, ?seed, ?retry, ?lag, ?rotation⟩
  case passes =>
    intro i kat e s hkat hrole hwhy hseed hintime
    refine ⟨_, (exec_spindleKatComplete hrole hseed).trans (congrArg Host.Outcome.next (katEnds_passes hkat hintime)), ?_⟩
    rw [startPassed_time, startPassed_spindle (by exact hwhy)]
    exact ⟨waitCycle_exact (Nat.le_add_right ..), rfl, rfl, rfl, rfl, rfl⟩
  case late =>
    intro i kat e s hrole hseed hlate
    obtain ⟨hdiag, hcause, hdom, -⟩ := startLate_refused i s
    exact ⟨_, (exec_spindleKatComplete hrole hseed).trans (congrArg Host.Outcome.next (katEnds_late hlate)), hdiag, hcause, hdom⟩
  case fails =>
    intro i kat e s hkat hrole hseed hintime
    obtain ⟨hdiag, hcause, hdom, hcount⟩ := startFailed_refused i (fabCount 3 1 (waitCycle (s.time.cycles + e) s))
    refine ⟨_, (exec_spindleKatComplete hrole hseed).trans (congrArg Host.Outcome.next (katEnds_fails hkat hintime)), hdiag, hcause, hdom, ?_⟩
    rw [hcount]
    exact Tab.get_bump_same ..
  case timeout =>
    intro i s hrole
    obtain ⟨hdiag, hcause, hdom, -⟩ := startLate_refused i s
    exact ⟨_, congrArg Host.Outcome.next (if_pos (by rw [hrole]; rfl)), startLate_cycles i s, hdiag, hcause, hdom⟩
  case seed =>
    intro i s hrole hseed
    have hdue := (waitCycle_cycles ((s.spindle i).since + cyclesUs 40) s).1
    have hspare := spareAgain_settleRoles (i := i) (retry := cyclesUs 1000) (by decide) (withdrawSeed_queue i (waitCycle ((s.spindle i).since + cyclesUs 40) s))
    dsimp only at hspare
    rw [← spareSeedLost_eq hrole hseed] at hspare
    obtain ⟨htime, hspare, hdom, hretry, hqueue⟩ := hspare
    exact ⟨_, rfl, by rw [htime]; exact hdue, hspare, hdom, by rw [htime]; exact hretry, hqueue⟩
  case retry =>
    intro i b s hrole hretry hrot
    refine ⟨_, ?_, ?_, startSpindle_rotation i (updSp i (fun x => { x with retryAt := 0 }) (waitCycle (s.spindle i).retryAt s))⟩
    · refine congrArg Host.Outcome.next ((if_pos (by rw [hrole, decide_eq_true hretry]; rfl)).trans (if_pos ?_))
      exact (congrArg (Option.any _) hrot).trans (by simp)
    · rw [spareCheck_time, startSpindle_time]
      exact (waitCycle_cycles ..).1
  case lag =>
    intro e s
    obtain ⟨htime, hbusy, hslow⟩ := lagEvaluate_spec (lagInstant e s)
    obtain ⟨hle, hlt, hmod⟩ := lagInstant_cycles e s
    rw [← htime] at hle hlt hmod hbusy hslow
    exact ⟨_, rfl, hle, hlt, hmod, hbusy, hslow⟩
  case rotation =>
    intro i s hon hready hparked hrot hfail hswap hservice hspare hnext
    obtain ⟨hstart, hwhy, hdom, hreq⟩ := startSpindle_rotation i (rotationTo i false (waitCycle (s.fab.rotatedAt + cyclesUs (1000 * s.odNat 0x3000 2)) s))
    refine ⟨_, congrArg Host.Outcome.next (rotate_eq hon hready hparked hrot hfail hswap hservice hspare hnext), ?_, ?_, hstart, hwhy, hdom, hreq⟩
    · rw [spareCheck_time, startSpindle_time]
      exact (waitCycle_cycles ..).1
    · rw [spareCheck_rotation, startSpindle_fab_rotation]
      rfl

end Sys2Proof.Machine

/-! Spindles that leave service (R206, R495): drains, isolations and diagnoses that end, parking, lockstep restarts (R221) and the retention
rebuild (R199). -/
namespace Sys2Proof.Machine

/-! ## The Working spindles wanted (R206) -/

/-- A spindle counts neither as Working nor as one that starts. -/
def Spindle.OffDuty (x : Spindle) : Prop := x.role ≠ .working ∧ x.role ≠ .starting

theorem Spindle.OffDuty.of_role {x : Spindle} {r : Role} (h : x.role = r) (hr : r ≠ .working ∧ r ≠ .starting) : x.OffDuty := ⟨h ▸ hr.1, h ▸ hr.2⟩

/-- What is wanted depends on the Working and the Starting spindles alone. -/
theorem wanted_congr {s t : State} (hparked : t.power.parked = s.power.parked) (hstart : t.power.start = s.power.start)
    (h : ∀ j, t.spindle j = s.spindle j ∨ (Spindle.OffDuty (t.spindle j) ∧ Spindle.OffDuty (s.spindle j))) : wanted t = wanted s := by
  have hrole (r : Role) (hr : r = .working ∨ r = .starting) : inRole t r = inRole s r := by
    refine List.filter_congr fun j _ => ?_
    rcases h j with he | ⟨ht, hs⟩
    · rw [he]
    · have hne {x : Spindle} (hx : Spindle.OffDuty x) : (x.role == r) = false := beq_false_of_ne (hr.elim (· ▸ hx.1) (· ▸ hx.2))
      rw [hne ht, hne hs]
  have hsame (r : Role) (hr : r = .working ∨ r = .starting) (j : Nat) (hj : j ∈ inRole s r) : t.spindle j = s.spindle j := by
    refine (h j).resolve_right fun ⟨_, hs⟩ => ?_
    have hjr : (s.spindle j).role = r := by simpa using (List.mem_filter.mp hj).2
    exact hr.elim (fun hw => hs.1 (hjr.trans hw)) (fun hw => hs.2 (hjr.trans hw))
  have hlag : (inRole t .working).filter (fun i => (t.spindle i).lag) = (inRole s .working).filter (fun i => (s.spindle i).lag) := by
    rw [hrole .working (.inl rfl)]
    exact List.filter_congr fun j hj => by rw [hsame .working (.inl rfl) j hj]
  have hstarting : startingWork t = startingWork s := by
    unfold startingWork
    rw [hrole .starting (.inr rfl)]
    exact congrArg List.length (List.filter_congr fun j hj => by rw [hsame .starting (.inr rfl) j hj])
  unfold wanted roleCount
  rw [hlag, hstarting, hrole .working (.inl rfl), hparked, hstart]

theorem toSpare_parked (i : Nat) (s : State) : (toSpare i s).power.parked = s.power.parked ∧ (toSpare i s).power.start = s.power.start := by
  have hpower : (checkpointWrite i (setRole i .spare s)).power = s.power := checkpointWrite_power i _
  have hset : (toSpare i s).power.parked = (checkpointWrite i (setRole i .spare s)).power.parked ∧ (toSpare i s).power.start = (checkpointWrite i (setRole i .spare s)).power.start := ⟨rfl, rfl⟩
  rwa [hpower] at hset

theorem toSpare_offDuty (i : Nat) (s : State) : Spindle.OffDuty ((toSpare i s).spindle i) := by
  rw [toSpare_spindle, if_pos rfl]
  exact ⟨nofun, nofun⟩

/-- Making an idle spindle Spare changes nothing of what is wanted. -/
theorem toSpare_wanted {i : Nat} {s : State} (h : Spindle.OffDuty (s.spindle i)) : wanted (toSpare i s) = wanted s := by
  refine wanted_congr (toSpare_parked i s).1 (toSpare_parked i s).2 fun j => ?_
  by_cases hj : j = i
  · subst hj; exact .inr ⟨toSpare_offDuty j s, h⟩
  · left; rw [toSpare_spindle, if_neg hj]

/-- A spindle made Spare where none is wanted stays so as the roles settle. -/
structure Spared (i : Nat) (s t : State) : Prop where
  spindle : t.spindle i = (toSpare i s).spindle i
  domain : (t.domain i).state = 0
  counters : t.fab.counters = s.fab.counters

theorem toSpare_settleRoles {i : Nat} {s : State} (hidle : Spindle.OffDuty (s.spindle i)) (hwanted : wanted s = 0) : Spared i s (settleRoles (toSpare i s)) := by
  obtain ⟨l, hfab⟩ := toSpare_fab i s
  rw [settleRoles_of_not_wanted ((toSpare_wanted hidle).trans hwanted)]
  refine ⟨spareCheck_spindle .., ?_, ?_⟩
  · rw [spareCheck_domain, toSpare_domain, if_pos rfl]
  · rw [spareCheck_counters, hfab]

theorem spared_role {i : Nat} {s t : State} (h : Spared i s t) : (t.spindle i).role = .spare := by
  rw [h.spindle, toSpare_spindle, if_pos rfl]
  rfl

/-! ## The end of a drain (R206) -/

theorem exec_spindleDrainComplete {i : Fin 28} {s : State} (hrole : (s.spindle i).role = .draining) (hflight : (s.spindle i).flight = [])
    (hheld : s.path.frames.any (fun q => holds i q.2) = false) : exec (.spindleDrainComplete i) s = .next (match (s.spindle i).why with
      | .lag => settleRoles (updSp i (fun x => { x with lag := false }) (setDomain i 0 (setRole i .diagnosing s)))
      | .rotation => settleRoles (rotationEnd (fabCount 2 1 (toSpare i s)))
      | _ => settleRoles (toSpare i s)) :=
  congrArg Host.Outcome.next (if_pos (by rw [hrole, hflight, hheld]; rfl))

/-- After a lag swap the spindle that drained is Diagnosing. -/
theorem drained_diagnosing (i : Nat) (s : State) :
    let t := settleRoles (updSp i (fun x => { x with lag := false }) (setDomain i 0 (setRole i .diagnosing s)))
    (t.spindle i).role = .diagnosing ∧ (t.domain i).state = 0 := by
  have hsp : (updSp i (fun x => { x with lag := false }) (setDomain i 0 (setRole i .diagnosing s))).spindle i =
      { (s.spindle i).enter .diagnosing s.time.cycles with lag := false } := by
    rw [updSp_get, if_pos rfl, setDomain_spindle, setRole_spindle, if_pos rfl]
  have hdom : (updSp i (fun x => { x with lag := false }) (setDomain i 0 (setRole i .diagnosing s))).domain i = { s.domain i with state := 0 } := by
    rw [updSp_domain, setDomain_get, if_pos rfl, setRole_domain]
  obtain ⟨hsp', hdom', -⟩ := (Kept.of_role (by rw [hsp]; exact nofun)).settleRoles
  dsimp only
  rw [hsp', hdom', hsp, hdom]
  exact ⟨rfl, rfl⟩

/-- A rotation ends with its drain, and is counted. -/
theorem drained_rotation {i : Nat} {s : State} (hidle : Spindle.OffDuty (s.spindle i)) (hwanted : wanted s = 0) :
    let t := settleRoles (rotationEnd (fabCount 2 1 (toSpare i s)))
    (t.spindle i).role = .spare ∧ (t.domain i).state = 0 ∧ t.fab.rotation = none ∧ t.fab.counters.get 2 0 = s.fab.counters.get 2 0 + 1 := by
  have hnone : wanted (rotationEnd (fabCount 2 1 (toSpare i s))) = 0 := (toSpare_wanted hidle).trans hwanted
  obtain ⟨l, hfab⟩ := toSpare_fab i s
  dsimp only
  rw [settleRoles_of_not_wanted hnone, spareCheck_spindle, spareCheck_domain, spareCheck_rotation, spareCheck_counters, rotationEnd_spindle, rotationEnd_domain,
    fabCount_spindle, fabCount_domain, toSpare_spindle, toSpare_domain, if_pos rfl, if_pos rfl]
  refine ⟨rfl, rfl, rfl, (Tab.get_bump_same ..).trans ?_⟩
  rw [hfab]
  rfl

/-! ## Isolations and diagnoses that end (R206) -/

theorem retireSpindle_spindle (i j : Nat) (s : State) : (retireSpindle i s).spindle j = if j = i then (s.spindle i).enter .retired s.time.cycles else s.spindle j := by
  unfold retireSpindle
  rw [spareCheck_spindle, post_spindle, logSpindle_spindle, setDomain_spindle, setRole_spindle]
theorem retireSpindle_time (i : Nat) (s : State) : (retireSpindle i s).time = s.time := by
  unfold retireSpindle
  rw [spareCheck_time]
  simp
theorem retireSpindle_counters (i : Nat) (s : State) : (retireSpindle i s).fab.counters = s.fab.counters := by
  unfold retireSpindle
  rw [spareCheck_counters]
  simp [setRole_eq, updSp_fab]

/-- The end of an isolation at cycle `c`. -/
def isolationEnds (i c : Nat) (s : State) : State :=
  let s := setRole i .diagnosing (waitCycle c s)
  if 16 ≤ (s.spindle i).isolations.toNat then retireSpindle i s else spareCheck s

theorem isolationEnds_spec (i c : Nat) (s : State) : c ≤ (isolationEnds i c s).time.cycles ∧
    ((isolationEnds i c s).spindle i).role = if 16 ≤ (s.spindle i).isolations.toNat then .retired else .diagnosing := by
  have hiso : ((setRole i .diagnosing (waitCycle c s)).spindle i).isolations = (s.spindle i).isolations := by rw [setRole_spindle, if_pos rfl]; rfl
  have hdue : c ≤ (setRole i .diagnosing (waitCycle c s)).time.cycles := (waitCycle_cycles c s).1
  unfold isolationEnds
  dsimp only
  rw [hiso]
  split
  · rw [retireSpindle_time, retireSpindle_spindle, if_pos rfl]
    exact ⟨hdue, rfl⟩
  · rw [spareCheck_time, spareCheck_spindle, setRole_spindle, if_pos rfl]
    exact ⟨hdue, rfl⟩

/-- The record of a spindle whose diagnosis has passed: repaired with `map`. -/
def Spindle.repaired (calib : Nat) (map : W256) (x : Spindle) : Spindle := { x with repairs := x.repairs + 1, fails := 0, calib := calib, repairMap := map, retryAt := 0 }

theorem diagnosis_passes {i : Fin 28} {run : DiagnosisRun} {s : State} (hpass : (run.memory && katPasses run.kat) = true) (hrole : (s.spindle i).role = .diagnosing) :
    exec (.spindleDiagnosisComplete i run) s =
      .next (settleRoles (toSpare i (updSp i (Spindle.repaired (calibOf run.kat) (BitVec.ofNat 256 (openValue s).1)) (openValue s).2))) :=
  congrArg Host.Outcome.next ((if_pos (by rw [hrole]; rfl)).trans (if_pos hpass))

/-- The record of a spindle whose diagnosis has failed, with its next run at cycle `retry`. -/
def Spindle.failed (retry : Nat) (x : Spindle) : Spindle := { x with fails := x.fails + 1, cause := 8, retryAt := retry }

/-- A failed diagnosis: counted, and the spindle retired where it was the third in a row. -/
def diagnosisFails (i retry : Nat) (s : State) : State :=
  let u := fabCount 3 1 (updSp i (Spindle.failed retry) s)
  if 3 ≤ (s.spindle i).fails + 1 then retireSpindle i (updSp i (fun x => { x with retryAt := 0 }) u) else u

theorem diagnosis_fails {i : Fin 28} {run : DiagnosisRun} {s : State} (hfail : (run.memory && katPasses run.kat) = false) (hrole : (s.spindle i).role = .diagnosing) :
    exec (.spindleDiagnosisComplete i run) s = .next (diagnosisFails i (s.time.cycles + cyclesUs 1000000) s) :=
  congrArg Host.Outcome.next ((if_pos (by rw [hrole]; rfl)).trans (if_neg (by rw [hfail]; exact Bool.false_ne_true)))

theorem diagnosisFails_spec (i retry : Nat) {s : State} (hrole : (s.spindle i).role = .diagnosing) :
    ((diagnosisFails i retry s).spindle i).fails = (s.spindle i).fails + 1 ∧ ((diagnosisFails i retry s).spindle i).cause = 8 ∧
      (diagnosisFails i retry s).fab.counters.get 3 0 = s.fab.counters.get 3 0 + 1 ∧
      ((diagnosisFails i retry s).spindle i).role = if 3 ≤ (s.spindle i).fails + 1 then .retired else .diagnosing := by
  have hsp : (fabCount 3 1 (updSp i (Spindle.failed retry) s)).spindle i = (s.spindle i).failed retry := (updSp_get ..).trans (if_pos rfl)
  have hcount : (fabCount 3 1 (updSp i (Spindle.failed retry) s)).fab.counters.get 3 0 = s.fab.counters.get 3 0 + 1 := Tab.get_bump_same ..
  unfold diagnosisFails
  dsimp only
  generalize fabCount 3 1 (updSp i (Spindle.failed retry) s) = u at *
  split
  · rw [retireSpindle_spindle, if_pos rfl, updSp_get, if_pos rfl, retireSpindle_counters, hsp]
    exact ⟨rfl, rfl, hcount, rfl⟩
  · rw [hsp]
    exact ⟨rfl, rfl, hcount, hrole⟩

/-! ## Parking (R495) -/

/-- One Working spindle drained to park. -/
def parkOne (s : State) (i : Nat) : State := updSp i (fun x => { x with why := .park, lag := false }) (setRole i .draining s)

theorem parkOne_spindle (s : State) (i j : Nat) : (parkOne s i).spindle j =
    if j = i then { (s.spindle i).enter .draining s.time.cycles with why := .park, lag := false } else s.spindle j := by
  unfold parkOne
  rw [updSp_get, setRole_spindle, if_pos rfl, setRole_spindle]
  split <;> rfl

/-- Every spindle of a list drained to park is Draining for it. -/
theorem foldl_parkOne {l : List Nat} {j : Nat} (hj : j ∈ l) (s : State) : ((l.foldl parkOne s).spindle j).role = .draining ∧ ((l.foldl parkOne s).spindle j).why = .park := by
  induction l using List.reverseRecOn with
  | nil => exact absurd hj List.not_mem_nil
  | append_singleton l i ih =>
    rw [List.foldl_append, List.foldl_cons, List.foldl_nil, parkOne_spindle]
    by_cases hji : j = i
    · rw [if_pos hji]; exact ⟨rfl, rfl⟩
    · rw [if_neg hji]
      exact ih ((List.mem_append.mp hj).resolve_right fun h => hji (List.mem_singleton.mp h))

theorem park_eq {s : State} (hon : s.odNat 0x5404 1 ≠ 0) (hparked : s.power.parked = false) (hoffered : s.fab.offered = 0) (hready : s.power.start = .ready) :
    park s = (inRole s .working).foldl parkOne
      { waitCycle (s.power.zeroSince + cyclesUs (1000 * s.odNat 0x5404 2)) s with power := { s.power with parked := true } } := by
  unfold park
  rw [hparked, hoffered, hready, if_neg (by simp [hon])]
  rfl

/-! ## Lockstep restarts (R221) -/

theorem replayAll_awaits {id : Nat} {ids : List Nat} (hid : id ∈ ids) {s : State} (h : (s.frame? id).isSome) : AwaitsReplay (replayAll ids s) id :=
  awaitsReplay_foldl hid h

/-- A lockstep restart counts its domain's reset, and its frames wait for their replay. -/
theorem restart_spec (d cause : Nat) (ids : List Nat) (s : State) :
    let t := countDomainReset d cause (takeBack ids s)
    (t.domain d).resets = (s.domain d).resets + 1 ∧ (t.domain d).cause = cause ∧ ∀ id ∈ ids, (s.frame? id).isSome → id ∈ t.fab.replay ∧ ∃ g, t.frame? id = some g ∧ g.stage = .queued := by
  dsimp only
  rw [countDomainReset_get, if_pos rfl]
  refine ⟨congrArg (fun x : Domain => x.resets + 1) (replayAll_domain ids s d), rfl, fun id hid hs => ?_⟩
  obtain ⟨hmem, g, hg, hstage, -⟩ := replayAll_awaits hid hs
  exact ⟨hmem, g, hg, hstage⟩

/-! ## The retention rebuild (R199, R491) -/

/-- A bank rewritten: its status bit clear and the event posted. -/
def bankBack (b : Nat) (s : State) : State :=
  let s := bankRebuild b s
  post { type := 0x3005, source := b, a := 1 } (fabStatus 4 false { s with fab := { s.fab with rebuild := none } })

theorem rebuildDone_eq {b : Nat} {s : State} (h : s.fab.rebuild = some b) :
    rebuildDone b s = if (bankBack b s).power.service = .resetting ∧ b < 3 then bankReset (b + 1) 3 (bankBack b s) else bankBack b s :=
  if_pos h

theorem bankBack_spec (b : Nat) (s : State) : (bankBack b s).power = s.power ∧ (bankBack b s).fab.rebuild = none ∧ (bankBack b s).fab.status.getLsbD 4 = false ∧
    (bankBack b s).path = { s.path with banks := (bankRebuild b s).path.banks } := by
  have hpost {β : Type} (P : State → β) (hP : ∀ s x0 x1, P { s with host := x0, out := x1 } = P s) :
      P (bankBack b s) = P (fabStatus 4 false { bankRebuild b s with fab := { s.fab with rebuild := none } }) := post_keep P hP _ _
  refine ⟨hpost State.power fun _ _ _ => rfl, congrArg Fabric.rebuild (hpost State.fab fun _ _ _ => rfl), ?_, hpost State.path fun _ _ _ => rfl⟩
  rw [hpost State.fab fun _ _ _ => rfl, fabStatus_bit (by omega), if_pos rfl]

/-- Bank `b` in reset: its rebuild under way, its status bit set. -/
theorem bankReset_spec (b cause : Nat) (s : State) : (bankReset b cause s).fab.rebuild = some b ∧ (bankReset b cause s).fab.status.getLsbD 4 = true ∧
    ((bankReset b cause s).domain (52 + b)).state = 3 := by
  have hpost {β : Type} (P : State → β) (hP : ∀ s x0 x1, P { s with host := x0, out := x1 } = P s) :
      P (bankReset b cause s) = P (fabStatus 4 true { bankLost b (countDomainReset (52 + b) cause (setDomain (52 + b) 3 s)) with fab := { s.fab with rebuild := some b } }) :=
    post_keep P hP _ _
  refine ⟨congrArg Fabric.rebuild (hpost State.fab fun _ _ _ => rfl), ?_, ?_⟩
  · rw [hpost State.fab fun _ _ _ => rfl, fabStatus_bit (by omega), if_pos rfl]
  · have hdom : (bankReset b cause s).domain (52 + b) = (countDomainReset (52 + b) cause (setDomain (52 + b) 3 s)).domain (52 + b) :=
      domain_congr (hpost State.power fun _ _ _ => rfl) _
    rw [hdom, countDomainReset_get, if_pos rfl, setDomain_get, if_pos rfl]

theorem serviceGoes_fab (s : State) : (serviceGoes s).fab = s.fab := serviceGoes_keep State.fab (fun _ _ _ _ _ _ _ => rfl) s
theorem serviceGoes_path (s : State) : (serviceGoes s).path = s.path := serviceGoes_keep State.path (fun _ _ _ _ _ _ _ => rfl) s

/-- A service reset waits for a bank that is being rebuilt. -/
theorem serviceGoes_of_rebuild {b : Nat} {s : State} (h : s.fab.rebuild = some b) : serviceGoes s = s :=
  if_pos (by rw [h]; simp)

/-! ## The obligation -/

/-- Settles O14: each row that makes a spindle Spare through `Spared`, the restarts through `restart_spec`, the banks through `rebuildDone_eq`. -/
theorem spindlesLeaveService : Obligations.SpindlesLeaveService := by
  unfold Obligations.SpindlesLeaveService
  refine ⟨?drained, ?isolated, ?passes, ?fails, ?retry, ?park, ?headstock, ?tailstock, ?last, ?next⟩
  case drained =>
    intro i s hrole hflight hheld hwhy
    have hexec := exec_spindleDrainComplete hrole hflight hheld
    have hoff : Spindle.OffDuty (s.spindle i) := .of_role hrole ⟨nofun, nofun⟩
    have hspare (hne : (s.spindle i).why ≠ .lag) : Spared i s (settleRoles (toSpare i s)) := toSpare_settleRoles hoff (hwhy.resolve_left hne)
    cases hw : (s.spindle i).why with
    | lag =>
      rw [hw] at hexec
      obtain ⟨hdiag, hdom⟩ := drained_diagnosing i s
      exact ⟨_, hexec, hdiag, hdom, nofun⟩
    | rotation =>
      rw [hw] at hexec
      obtain ⟨hspared, hdom, hnone, hcount⟩ := drained_rotation hoff (hwhy.resolve_left (by rw [hw]; exact nofun))
      exact ⟨_, hexec, hspared, hdom, fun _ => ⟨hnone, hcount⟩⟩
    | replacement | testOnly | park =>
      rw [hw] at hexec
      have h := hspare (by rw [hw]; exact nofun)
      exact ⟨_, hexec, spared_role h, h.domain, nofun⟩
  case isolated =>
    intro i s hrole
    obtain ⟨hdue, hdone⟩ := isolationEnds_spec i ((s.spindle i).since + tenMs) s
    exact ⟨_, congrArg Host.Outcome.next (if_pos (by rw [hrole]; rfl)), hdue, hdone⟩
  case passes =>
    intro i run s hpass hrole hwanted
    have hsp : (updSp i (Spindle.repaired (calibOf run.kat) (BitVec.ofNat 256 (openValue s).1)) (openValue s).2).spindle i =
        (s.spindle i).repaired (calibOf run.kat) (BitVec.ofNat 256 (openValue s).1) := (updSp_get ..).trans (if_pos rfl)
    have hexec := diagnosis_passes hpass hrole
    have hoff : Spindle.OffDuty ((updSp i (Spindle.repaired (calibOf run.kat) (BitVec.ofNat 256 (openValue s).1)) (openValue s).2).spindle i) :=
      .of_role ((congrArg Spindle.role hsp).trans hrole) ⟨nofun, nofun⟩
    have hnone : wanted (updSp i (Spindle.repaired (calibOf run.kat) (BitVec.ofNat 256 (openValue s).1)) (openValue s).2) = wanted s := by
      refine wanted_congr rfl rfl fun j => ?_
      by_cases hj : j = i.val
      · subst hj; exact .inr ⟨hoff, .of_role hrole ⟨nofun, nofun⟩⟩
      · exact .inl ((updSp_get ..).trans (if_neg hj))
    generalize updSp i (Spindle.repaired (calibOf run.kat) (BitVec.ofNat 256 (openValue s).1)) (openValue s).2 = u at *
    have h := toSpare_settleRoles hoff (hnone.trans hwanted)
    refine ⟨_, hexec, spared_role h, ?_, ?_, ?_, h.domain⟩ <;> rw [h.spindle, toSpare_spindle, if_pos rfl, hsp] <;> rfl
  case fails =>
    intro i run s hfail hrole
    exact ⟨_, diagnosis_fails hfail hrole, diagnosisFails_spec i _ hrole⟩
  case retry =>
    intro i s hrole
    refine ⟨_, congrArg Host.Outcome.next (if_pos (by rw [hrole]; rfl)), (waitCycle_cycles ..).1, (updSp_get ..).trans (if_pos rfl), rfl⟩
  case park =>
    intro s hon hparked hoffered hready
    generalize hu : ({ waitCycle (s.power.zeroSince + cyclesUs (1000 * s.odNat 0x5404 2)) s with power := { s.power with parked := true } } : State) = u
    have hpark := park_eq hon hparked hoffered hready
    rw [hu] at hpark
    have hkeep : (inRole s .working |>.foldl parkOne u).power = u.power ∧ (inRole s .working |>.foldl parkOne u).time = u.time :=
      List.foldlRecOn (motive := fun t : State => t.power = u.power ∧ t.time = u.time) _ _ ⟨rfl, rfl⟩ fun _ h _ _ => h
    refine ⟨_, congrArg Host.Outcome.next hpark, by rw [hkeep.1, ← hu], ?_, fun i hrole => foldl_parkOne ?_ u⟩
    · rw [hkeep.2, ← hu]
      exact (waitCycle_cycles ..).1
    · exact List.mem_filter.mpr ⟨List.mem_range.mpr i.isLt, by rw [hrole]; rfl⟩
  case headstock =>
    intro s
    obtain ⟨hresets, hcause, hawaits⟩ := restart_spec 72 2 ((s.path.frames.filter (fun q => q.2.desc.tokens != 0 && (q.2.stage == .dispatched || (q.2.stage == .ready && q.2.desc.done == q.2.desc.tokens)))).map Prod.fst) s
    refine ⟨_, rfl, hresets, hcause, fun id f hmem htokens hstage => hawaits id ?_ (find_isSome_of_mem hmem)⟩
    exact List.mem_map_of_mem (f := Prod.fst) (List.mem_filter.mpr ⟨hmem, by simp [htokens, hstage]⟩)
  case tailstock =>
    intro s
    obtain ⟨hresets, hcause, hawaits⟩ := restart_spec 73 2 ((s.path.frames.filter (fun q => q.2.stage == .dispatched && q.2.desc.issued == q.2.desc.tokens)).map Prod.fst) s
    refine ⟨_, rfl, hresets, hcause, fun id f hmem hissued hstage => hawaits id ?_ (find_isSome_of_mem hmem)⟩
    exact List.mem_map_of_mem (f := Prod.fst) (List.mem_filter.mpr ⟨hmem, by simp [hissued, hstage]⟩)
  case last =>
    intro b s hrebuild hlast
    obtain ⟨hpower, hnone, hstatus, hpath⟩ := bankBack_spec b s
    have hdone : rebuildDone b s = bankBack b s := (rebuildDone_eq hrebuild).trans (if_neg fun h => by
      rw [hpower] at h
      exact hlast.elim (fun hs => hs h.1) (fun h3 => absurd h.2 (by omega)))
    refine ⟨_, congrArg Host.Outcome.next (congrArg serviceGoes hdone), ?_, ?_, ?_⟩
    · rw [serviceGoes_fab, hnone]
    · rw [serviceGoes_fab, hstatus]
    · rw [serviceGoes_path, hpath]
  case next =>
    intro b s hrebuild hservice hnext
    obtain ⟨hrebuild', hstatus, hdom⟩ := bankReset_spec (b + 1) 3 (bankBack b s)
    have hdone : rebuildDone b s = bankReset (b + 1) 3 (bankBack b s) :=
      (rebuildDone_eq hrebuild).trans (if_pos ⟨by rw [(bankBack_spec b s).1, hservice], hnext⟩)
    refine ⟨_, congrArg Host.Outcome.next ((congrArg serviceGoes hdone).trans (serviceGoes_of_rebuild hrebuild')), hrebuild', hstatus, ?_⟩
    rw [show 53 + b.val = 52 + (b.val + 1) by omega]
    exact hdom

end Sys2Proof.Machine

/-! The ends of drains, of domain restarts and of a service reset (R225, R491, R492). -/
namespace Sys2Proof.Machine

/-! ## What a port-direction has yet to send -/

/-- The frames of a port-direction in its egress buffer and its launch lists. -/
def outgoing (s : State) (p : PD) : List Egr × List Egr × List Egr := ((s.pd p).buffer, (s.pd p).launchList, (s.pd p).lateList)

theorem outgoing_congr {s t : State} (h : t.path.pds = s.path.pds) (q : PD) : outgoing t q = outgoing s q := by unfold outgoing; rw [pd_congr h]

theorem outgoing_updPd_other {p q : PD} (h : q ≠ p) (f : PortDir → PortDir) (s : State) : outgoing (updPd p f s) q = outgoing s q := by
  unfold outgoing; rw [updPd_get, if_neg h]

/-- The lists of queues say nothing of what is to be sent. -/
theorem outgoing_lists (p : PD) (g : PortDir → Tab (List Nat)) (s : State) (q : PD) : outgoing (updPd p (fun r => { r with lists := g r }) s) q = outgoing s q := by
  unfold outgoing
  rw [updPd_get]
  split
  · next h => subst h; rfl
  · rfl

/-- A fold of steps that each leave what a port-direction has to send leaves it. -/
theorem outgoing_foldl {α : Type} {f : State → α → State} {q : PD} (hf : ∀ s a, outgoing (f s a) q = outgoing s q) (l : List α) (s : State) :
    outgoing (l.foldl f s) q = outgoing s q :=
  List.foldlRecOn (motive := fun t => outgoing t q = outgoing s q) _ _ rfl fun t h a _ => (hf t a).trans h

theorem dropFrm_outgoing (id : Nat) (s : State) (q : PD) : outgoing (dropFrm id s) q = outgoing s q := by
  unfold dropFrm
  split
  · exact outgoing_congr (retFree_pds ..) q
  · rfl

theorem purgeFrm_outgoing (id : Nat) (s : State) (q : PD) : outgoing (purgeFrm id s) q = outgoing s q := by
  unfold purgeFrm
  split
  · rfl
  · refine (dropFrm_outgoing ..).trans (outgoing_congr ?_ q)
    dsimp only
    split
    · rfl
    · exact congrArg Path.pds (slotUnref_keep State.path (fun _ _ => rfl) ..)

theorem egrFree_outgoing (e : Egr) (s : State) (q : PD) : outgoing (egrFree e s) q = outgoing s q := by
  have hgive : outgoing (if e.occ = 0 then s else poolGive e.pool e.occ s) q = outgoing s q := by split <;> rfl
  have hfree (u : State) : outgoing (match e.rid with | some i => retFree i u | none => u) q = outgoing u q := by
    split
    · exact outgoing_congr (retFree_pds ..) q
    · rfl
  have hblocks (u : State) : outgoing (if e.place.isEmpty then u else pbFree e.place u) q = outgoing u q := by
    split
    · rfl
    · exact outgoing_congr (congrArg Path.pds (pbFree_keep State.path (fun _ _ _ => rfl) ..)) q
  exact (hblocks _).trans ((hfree _).trans hgive)

theorem leaveLists_outgoing (p : PD) (i : Nat) (s : State) (q : PD) : outgoing (leaveLists p i s) q = outgoing s q :=
  outgoing_lists p (fun r => r.lists.mapAll (fun _ l => l.erase i)) s q

theorem enterState_outgoing (p : PD) (i : Nat) (st : QState) (s : State) (q : PD) : outgoing (enterState p i st s) q = outgoing s q := by
  unfold enterState
  dsimp only
  split
  · rfl
  · split
    · exact (outgoing_lists p _ _ q).trans (leaveLists_outgoing p i _ q)
    · exact leaveLists_outgoing p i _ q

theorem restate_outgoing (p : PD) (i : Nat) (s : State) (q : PD) : outgoing (restate p i s) q = outgoing s q := by
  unfold restate
  dsimp only
  split
  · exact leaveLists_outgoing p i _ q
  · exact enterState_outgoing p i _ s q

/-- Clearing a port-direction leaves nothing of it to send. -/
theorem clearPd_outgoing_same (p : PD) (n : Nat) (s : State) : outgoing (clearPd p n s) p = ([], [], []) := by
  unfold clearPd outgoing
  rw [updPd_get, if_pos rfl]

/-- It leaves what every other port-direction has to send. -/
theorem clearPd_outgoing_other {p q : PD} (h : q ≠ p) (n : Nat) (s : State) : outgoing (clearPd p n s) q = outgoing s q := by
  have hqueue (u : State) (i : Nat) : outgoing (restate p i (updQueue p i (fun x => { x with items := [], heldFrames := 0, heldOctets := 0 })
      ((u.queue p i).items.foldl (fun s e => egrFree e s) u))) q = outgoing u q :=
    (restate_outgoing p i _ q).trans (outgoing_foldl (fun v e => egrFree_outgoing e v q) _ u)
  have hplay (u : State) (t : Nat) : outgoing (playClear t p.dir u) q = outgoing u q := outgoing_congr (congrArg Path.pds (playClear_keep State.path (fun _ _ _ _ => rfl) ..)) q
  have htribs (u : State) : outgoing (if otnPort u p.port then (tribsOf u (p.port / 4)).foldl (fun s t => playClear t p.dir s) u else u) q = outgoing u q := by
    split
    · exact outgoing_foldl hplay _ u
    · rfl
  unfold clearPd
  refine (outgoing_updPd_other h _ _).trans ((htribs _).trans ((outgoing_foldl hqueue _ _).trans ((outgoing_foldl (fun v e => egrFree_outgoing e v q) _ _).trans ?_)))
  exact outgoing_foldl (fun v (x : Nat × Frm) => purgeFrm_outgoing x.1 v q) _ s

/-! ## A fold that settles each item of a list -/

/-- Where a step makes `Q` hold of its item and keeps it of every other, `Q` holds of all after the fold. -/
theorem foldl_settles {α σ : Type} {Q : σ → α → Prop} {f : σ → α → σ} (hset : ∀ s a, Q (f s a) a) (hkeep : ∀ s a b, Q s b → Q (f s a) b) {l : List α} {b : α} (hb : b ∈ l)
    (s : σ) : Q (l.foldl f s) b := by
  induction l using List.reverseRecOn with
  | nil => exact absurd hb List.not_mem_nil
  | append_singleton l a ih =>
    rw [List.foldl_append, List.foldl_cons, List.foldl_nil]
    rcases List.mem_append.mp hb with hl | ha
    · exact hkeep _ a b (ih hl)
    · rw [List.mem_singleton.mp ha]
      exact hset _ a

/-! ## Carrying out the reset of a drain (R225, R492) -/

/-- The port-directions of a drain cleared. -/
def drainCleared (dr : Drain) (s : State) : State :=
  (pdsOf dr.ports).foldl (fun s p => clearPd p (awaiting s p) s) { s with power := { s.power with drains := s.power.drains.erase dr } }

theorem drainCleared_outgoing (dr : Drain) (s : State) {p : PD} (hp : p ∈ pdsOf dr.ports) : outgoing (drainCleared dr s) p = ([], [], []) := by
  refine foldl_settles (Q := fun t q => outgoing t q = ([], [], [])) (fun t q => clearPd_outgoing_same q _ t) (fun t q r h => ?_) hp _
  by_cases hr : r = q
  · subst hr; exact clearPd_outgoing_same r _ t
  · exact (clearPd_outgoing_other hr _ t).trans h

theorem drainCleared_power (dr : Drain) (s : State) : (drainCleared dr s).power = { s.power with drains := s.power.drains.erase dr } :=
  List.foldlRecOn (motive := fun t : State => t.power = { s.power with drains := s.power.drains.erase dr }) _ _ rfl fun t h p _ =>
    (clearPd_keep State.power (fun _ _ _ _ _ _ _ _ _ => rfl) p _ t).trans h

theorem drainCleared_time (dr : Drain) (s : State) : (drainCleared dr s).time = s.time :=
  List.foldlRecOn (motive := fun t : State => t.time = s.time) _ _ rfl fun t h p _ => (clearPd_keep State.time (fun _ _ _ _ _ _ _ _ _ => rfl) p _ t).trans h

/-- Domain `d` put in reset for a drain. -/
def drainRestart (cause : Nat) (s : State) (d : Nat) : State := countDomainReset d cause (setDomain d 3 (if 60 ≤ d ∧ d ≤ 63 then writeBackAll s else s))

theorem drainReset_domains {dr : Drain} (h : dr.domains ≠ []) (s : State) : drainReset dr s =
    lanesSettle ((dr.domains.filter (fun d => ((drainCleared dr s).domain d).state != 0)).foldl (drainRestart dr.cause) (drainCleared dr s)) :=
  if_neg (by simpa using h)

theorem drainRestart_domain (cause : Nat) (s : State) (d j : Nat) : (drainRestart cause s d).domain j =
    if j = d then { s.domain d with state := 3, cause := cause, resets := (s.domain d).resets + 1 } else s.domain j := by
  have hpower : (if 60 ≤ d ∧ d ≤ 63 then writeBackAll s else s).power = s.power := by
    split
    · exact writeBackAll_keep State.power (fun _ _ _ _ _ _ => rfl) s
    · rfl
  unfold drainRestart
  rw [countDomainReset_get, setDomain_get, setDomain_get, if_pos rfl, domain_congr hpower, domain_congr hpower]
  split
  · rfl
  · rfl

/-- What of the part a domain's reset leaves: the drains, the service reset, the counts of resets and the time. -/
def drainPart (s : State) : List Drain × ServicePhase × Tab W64 × TimeUnit := (s.power.drains, s.power.service, s.power.resetCounts, s.time)

theorem foldl_drainRestart_keeps (cause : Nat) (l : List Nat) (s : State) : drainPart (l.foldl (drainRestart cause) s) = drainPart s ∧ (l.foldl (drainRestart cause) s).path = s.path := by
  refine List.foldlRecOn (motive := fun t : State => drainPart t = drainPart s ∧ t.path = s.path) _ _ ⟨rfl, rfl⟩ fun t ht d _ => ?_
  have hback (u : State) : drainPart (if 60 ≤ d ∧ d ≤ 63 then writeBackAll u else u) = drainPart u ∧ (if 60 ≤ d ∧ d ≤ 63 then writeBackAll u else u).path = u.path := by
    split
    · exact ⟨writeBackAll_keep drainPart (fun _ _ _ _ _ _ => rfl) u, writeBackAll_keep State.path (fun _ _ _ _ _ _ => rfl) u⟩
    · exact ⟨rfl, rfl⟩
  exact ⟨(hback t).1.trans ht.1, (hback t).2.trans ht.2⟩

/-- What carrying out a drain for domains leaves. -/
theorem drainReset_domains_spec {dr : Drain} (h : dr.domains ≠ []) (s : State) :
    drainPart (drainReset dr s) = (s.power.drains.erase dr, s.power.service, s.power.resetCounts, s.time) ∧
      (∀ p ∈ pdsOf dr.ports, outgoing (drainReset dr s) p = ([], [], [])) ∧
      ∀ d ∈ dr.domains, (s.domain d).state ≠ 0 → ((drainReset dr s).domain d).state = 3 ∧ ((drainReset dr s).domain d).cause = dr.cause := by
  have hpower := drainCleared_power dr s
  have hlanes (u : State) : drainPart (lanesSettle u) = drainPart u ∧ (lanesSettle u).path = u.path ∧ ∀ d, (lanesSettle u).domain d = u.domain d := ⟨rfl, rfl, fun _ => rfl⟩
  rw [drainReset_domains h]
  obtain ⟨hpart, hpath⟩ := foldl_drainRestart_keeps dr.cause (dr.domains.filter (fun d => ((drainCleared dr s).domain d).state != 0)) (drainCleared dr s)
  refine ⟨?_, fun p hp => ?_, fun d hd hstate => ?_⟩
  · rw [(hlanes _).1, hpart]
    unfold drainPart
    rw [hpower, drainCleared_time]
  · rw [outgoing_congr (congrArg Path.pds ((hlanes _).2.1.trans hpath)), drainCleared_outgoing dr s hp]
  · have hlive : d ∈ dr.domains.filter (fun d => ((drainCleared dr s).domain d).state != 0) := by
      refine List.mem_filter.mpr ⟨hd, ?_⟩
      have hdom : (drainCleared dr s).domain d = s.domain d := by unfold State.domain; rw [hpower]
      rw [hdom]
      simpa using hstate
    rw [(hlanes _).2.2]
    refine foldl_settles (Q := fun (t : State) d => (t.domain d).state = 3 ∧ (t.domain d).cause = dr.cause) (fun t d => ?_) (fun t d j hj => ?_) hlive _
    · rw [drainRestart_domain, if_pos rfl]; exact ⟨rfl, rfl⟩
    · rw [drainRestart_domain]
      split
      · exact ⟨rfl, rfl⟩
      · exact hj

theorem serviceDomains_range : ∀ d ∈ serviceDomains, d < 79 ∧ ¬(66 ≤ d ∧ d < 70) ∧ d ≠ 75 := by decide

/-- Domain `d` in reset, counted for `cause`. -/
def domainMark (d cause : Nat) (s : State) : State := countDomainReset d cause (setDomain d 3 s)

/-- The same where the domain is on. -/
def domainMarkOn (d cause : Nat) (s : State) : State := if s.domOn d then domainMark d cause s else s

theorem domainReset_eq (d : Nat) (s : State) : domainReset d 3 s =
    if d < 28 then (if 3 = 3 then domainMarkOn d 3 s else isolateSpindle d (if 3 = 1 then 9 else 3) (countDomainReset d 3 s))
    else if d < 44 then domainMarkOn d 3 s
    else if d < 52 then (if s.domOn d then clusterReset (d - 44) (domainMark d 3 s) else s)
    else if d < 56 then bankReset (d - 52) 3 s
    else if d < 60 then domainMarkOn d 3 s
    else if d < 64 then writeBackAll (domainMark d 3 s)
    else if d < 66 then domainMarkOn d 3 s
    else if d < 68 then chuckIsolate (d == 67) 3 s
    else if d < 70 then
      (if ctlOf s (d == 69) == .active then failOver (countDomainReset d 3 s)
      else if ctlOf s (d == 69) == .standby then countDomainReset d 3 (setDomain d 2 (setCtl (d == 69) .diagnosing s))
      else s)
    else if d < 72 then (if s.domOn d then halfReset (d - 70) 3 s else s)
    else if d = 72 then lockstepRestart .headstock 3 s
    else if d = 73 then lockstepRestart .tailstock 3 s
    else if d = 75 then ringZero (flr (domainMark d 3 s))
    else if d < 79 then domainMarkOn d 3 s
    else s := rfl

theorem domainMarkOn_drainPart (d cause : Nat) (s : State) : drainPart (domainMarkOn d cause s) = drainPart s := by unfold domainMarkOn; split <;> rfl
theorem bankReset_drainPart (b cause : Nat) (s : State) : drainPart (bankReset b cause s) = drainPart s :=
  post_keep (P := drainPart) (fun _ _ _ => rfl) { type := 0x3005, source := b }
    (fabStatus 4 true { bankLost b (countDomainReset (52 + b) cause (setDomain (52 + b) 3 s)) with fab := { s.fab with rebuild := some b } })
theorem writeBackAll_drainPart (s : State) : drainPart (writeBackAll s) = drainPart s := writeBackAll_keep drainPart (fun _ _ _ _ _ _ => rfl) s
theorem takeBack_drainPart (ids : List Nat) (s : State) : drainPart (takeBack ids s) = drainPart s := replayAll_keep drainPart (fun _ _ _ => rfl) ids s
theorem halfReset_drainPart (h cause : Nat) (s : State) : drainPart (halfReset h cause s) = drainPart s := by
  have hoff : drainPart (sourcesOff h (countDomainReset (70 + h) cause (setDomain (70 + h) 3 s))) = drainPart (countDomainReset (70 + h) cause (setDomain (70 + h) 3 s)) :=
    sourcesOff_keep drainPart (fun _ _ => rfl) h _
  have hset : drainPart (halfReset h cause s) = drainPart (sourcesOff h (countDomainReset (70 + h) cause (setDomain (70 + h) 3 s))) := by
    unfold halfReset
    dsimp only [drainPart]
  exact (hset.trans hoff).trans rfl

/-- The restart of a domain in a service reset leaves the drains and the phase of the service reset. -/
theorem domainReset_drainPart {d : Nat} (hd : d ∈ serviceDomains) (s : State) : drainPart (domainReset d 3 s) = drainPart s := by
  obtain ⟨h79, h66, h75⟩ := serviceDomains_range d hd
  rw [domainReset_eq]
  by_cases h28 : d < 28
  · rw [if_pos h28, if_pos rfl, domainMarkOn_drainPart]
  rw [if_neg h28]
  by_cases h44 : d < 44
  · rw [if_pos h44, domainMarkOn_drainPart]
  rw [if_neg h44]
  by_cases h52 : d < 52
  · rw [if_pos h52]; split <;> rfl
  rw [if_neg h52]
  by_cases h56 : d < 56
  · rw [if_pos h56, bankReset_drainPart]
  rw [if_neg h56]
  by_cases h60 : d < 60
  · rw [if_pos h60, domainMarkOn_drainPart]
  rw [if_neg h60]
  by_cases h64 : d < 64
  · rw [if_pos h64, writeBackAll_drainPart]; rfl
  rw [if_neg h64]
  by_cases h66' : d < 66
  · rw [if_pos h66', domainMarkOn_drainPart]
  rw [if_neg h66', if_neg (by omega), if_neg (by omega)]
  by_cases h72 : d < 72
  · rw [if_pos h72]
    split
    · exact halfReset_drainPart _ _ s
    · rfl
  rw [if_neg h72]
  by_cases h72' : d = 72
  · rw [if_pos h72']; exact takeBack_drainPart _ s
  rw [if_neg h72']
  by_cases h73 : d = 73
  · rw [if_pos h73]; exact takeBack_drainPart _ s
  rw [if_neg h73, if_neg h75, if_pos h79, domainMarkOn_drainPart]

/-- What carrying out the drain of a service reset leaves. -/
theorem drainReset_service_spec {dr : Drain} (h : dr.domains = []) (s : State) : drainPart (drainReset dr s) = (s.power.drains.erase dr, .resetting, s.power.resetCounts, s.time) := by
  have heq : drainReset dr s = lanesSettle (serviceDomains.foldl (fun s d => domainReset d 3 s)
      { drainCleared dr s with power := { (drainCleared dr s).power with service := .resetting, serviceStep := 0 } }) := if_pos (by rw [h]; rfl)
  have hlanes (u : State) : drainPart (lanesSettle u) = drainPart u := rfl
  have hfold : ∀ u, drainPart (serviceDomains.foldl (fun s d => domainReset d 3 s) u) = drainPart u := fun u =>
    List.foldlRecOn (motive := fun t => drainPart t = drainPart u) _ _ rfl fun t ht d hd => (domainReset_drainPart hd t).trans ht
  rw [heq, hlanes, hfold]
  unfold drainPart
  rw [drainCleared_power, drainCleared_time]

/-- What a drain leaves as its reset is carried out, whatever it was for. -/
structure DrainDone (dr : Drain) (s t : State) : Prop where
  drains : t.power.drains = s.power.drains.erase dr
  counts : t.power.resetCounts = s.power.resetCounts
  time : t.time = s.time
  cleared : dr.domains ≠ [] → ∀ p ∈ pdsOf dr.ports, (t.pd p).buffer = [] ∧ (t.pd p).launchList = [] ∧ (t.pd p).lateList = []
  restarted : if dr.domains = [] then t.power.service = .resetting else ∀ d ∈ dr.domains, (s.domain d).state ≠ 0 → (t.domain d).state = 3 ∧ (t.domain d).cause = dr.cause

theorem drainReset_done (dr : Drain) (s : State) : DrainDone dr s (drainReset dr s) := by
  by_cases h : dr.domains = []
  · have hpart := drainReset_service_spec h s
    simp only [drainPart, Prod.mk.injEq] at hpart
    obtain ⟨hdrains, hservice, hcounts, htime⟩ := hpart
    exact ⟨hdrains, hcounts, htime, fun hne => absurd h hne, by rw [if_pos h]; exact hservice⟩
  · obtain ⟨hpart, hout, hdom⟩ := drainReset_domains_spec h s
    simp only [drainPart, outgoing, Prod.mk.injEq] at hpart hout
    obtain ⟨hdrains, -, hcounts, htime⟩ := hpart
    exact ⟨hdrains, hcounts, htime, fun _ => hout, by rw [if_neg h]; exact hdom⟩

/-- The state of the oldest drain's time-out at cycle `c`: what is left counted and logged. -/
def drainCounted (dr : Drain) (c : Nat) (s : State) : State :=
  let s := waitCycle c s
  let n := drainLeft s dr
  let s := { s with power := { s.power with resetCounts := s.power.resetCounts.bump 4 n } }
  if n = 0 then s else logEntry Config.drainLogType 0xFF (zeros 4 ++ beBytes 4 n) s

theorem drainTimeout_eq {dr : Drain} {l : List Drain} {s : State} (h : s.power.drains = dr :: l) :
    drainTimeout s = drainReset dr (drainCounted dr (dr.at_ + cyclesUs 5000) s) := by
  unfold drainTimeout
  rw [h]
  rfl

theorem drainCounted_spec (dr : Drain) (c : Nat) (s : State) : c ≤ (drainCounted dr c s).time.cycles ∧
    (drainCounted dr c s).power = { s.power with resetCounts := s.power.resetCounts.bump 4 (drainLeft s dr) } := by
  have hleft : drainLeft (waitCycle c s) dr = drainLeft s dr := rfl
  have hdue := (waitCycle_cycles c s).1
  unfold drainCounted
  dsimp only
  rw [hleft]
  split
  · exact ⟨hdue, rfl⟩
  · exact ⟨by simpa using hdue, by simp⟩

/-! ## The end of a domain's restart (R492) -/

theorem portsOpen_power (s : State) : (portsOpen s).power = s.power := portsOpen_keep State.power (fun _ _ => rfl) s
theorem portsOpen_cls (s : State) : (portsOpen s).cls = s.cls := portsOpen_keep State.cls (fun _ _ => rfl) s
theorem portsOpen_keys (s : State) : (portsOpen s).keys = s.keys := portsOpen_keep State.keys (fun _ _ => rfl) s

/-- The cluster of a domain, if it is one, takes its groups back. -/
def clusterBack (d : Nat) (s : State) : State :=
  if 44 ≤ d ∧ d < 52 then { s with cls := { s.cls with resetClusters := s.cls.resetClusters.erase (d - 44) } } else s

/-- The chuck of a domain, if it is one, begins the rebuild of its mirror. -/
def chuckBack (d : Nat) (s : State) : State := if d = 66 ∨ d = 67 then chuckRestarted (d == 67) s else s

theorem domainRestarted_eq {d : Nat} {s : State} (h : (s.domain d).state = 3) : domainRestarted d s = lanesSettle (chuckBack d (clusterBack d (setDomain d 1 s))) :=
  if_neg fun hne => hne h

theorem clusterBack_spec (d : Nat) (s : State) : (clusterBack d s).power = s.power ∧ (clusterBack d s).keys = s.keys ∧
    (44 ≤ d ∧ d < 52 → (clusterBack d s).cls.resetClusters = s.cls.resetClusters.erase (d - 44)) := by
  unfold clusterBack
  split
  · exact ⟨rfl, rfl, fun _ => rfl⟩
  · next h => exact ⟨rfl, rfl, fun h' => absurd h' h⟩

theorem chuckBack_spec (d : Nat) (s : State) : (chuckBack d s).power = s.power ∧ (chuckBack d s).cls = s.cls ∧ (d = 66 → (chuckBack d s).keys.rebuilding = 1) ∧
    (d = 67 → (chuckBack d s).keys.rebuilding = 2) ∧ (d ≠ 66 → d ≠ 67 → (chuckBack d s).keys = s.keys) := by
  unfold chuckBack
  split
  · next h =>
    refine ⟨rfl, rfl, fun h66 => ?_, fun h67 => ?_, fun h66 h67 => absurd h (by tauto)⟩
    · subst h66; rfl
    · subst h67; rfl
  · next h => exact ⟨rfl, rfl, fun h66 => absurd (.inl h66) h, fun h67 => absurd (.inr h67) h, fun _ _ => rfl⟩

/-! ## The end of a service reset (R491) -/

/-- A domain out of its reset. -/
def domainUp (s : State) (d : Nat) : State := if (s.domain d).state = 3 then setDomain d 1 s else s

theorem domainUp_domain (s : State) (d j : Nat) : ((domainUp s d).domain j).state = if j = d ∧ (s.domain d).state = 3 then 1 else (s.domain j).state := by
  unfold domainUp
  by_cases h : (s.domain d).state = 3
  · rw [if_pos h, setDomain_get]
    by_cases hj : j = d
    · simp [hj, h]
    · simp [hj]
  · rw [if_neg h, if_neg fun hj => h hj.2]

/-- Every domain below `n` out of its reset. -/
theorem foldl_domainUp (n : Nat) (s : State) (j : Nat) : (((List.range n).foldl domainUp s).domain j).state =
    if j < n ∧ (s.domain j).state = 3 then 1 else (s.domain j).state := by
  induction n with
  | zero => simp
  | succ n ih =>
    rw [List.range_succ, List.foldl_append, List.foldl_cons, List.foldl_nil, domainUp_domain]
    by_cases hj : j = n
    · subst hj
      rw [ih]
      grind
    · rw [if_neg fun h => hj h.1, ih]
      grind

theorem foldl_domainUp_keeps (l : List Nat) (s : State) : (l.foldl domainUp s).power.drains = s.power.drains ∧ (l.foldl domainUp s).ctl = s.ctl ∧ (l.foldl domainUp s).host = s.host ∧
    (l.foldl domainUp s).power.start = s.power.start := by
  refine List.foldlRecOn (motive := fun t : State => t.power.drains = s.power.drains ∧ t.ctl = s.ctl ∧ t.host = s.host ∧ t.power.start = s.power.start) _ _ ⟨rfl, rfl, rfl, rfl⟩ fun t h d _ => ?_
  unfold domainUp
  split
  · exact h
  · exact h

end Sys2Proof.Machine

/-! What settling the dictionary leaves of a part in which nothing waits for it (R438, R467): the link may follow PD75, and the controller's checkpoint is
brought up to date. -/
namespace Sys2Proof.Machine

theorem Idle.congr {s t : State} (h : Idle s) (hctl : t.ctl = s.ctl) (hhost : t.host = s.host) : Idle t := by
  unfold Idle State.ring at *
  rw [hctl, hhost]
  exact h

theorem Idle.lanesSettle {s : State} (h : Idle s) : Idle (lanesSettle s) := h.congr rfl rfl

/-- No cut is being compiled. -/
def cutsDropped (s : State) : State := { s with cls := { s.cls with cuts := s.cls.cuts.filter (fun c => c.state != CutState.compiling) } }

theorem commitsFail_idle {s : State} (h : Idle s) : commitsFail s = cutsDropped s := by
  obtain ⟨hjob, hqueue, -⟩ := h
  have hctl : ({ s.ctl with job := none, queue := [] } : Control) = s.ctl := by rw [← hjob, ← hqueue]
  have hfail : commitsFail s = { cutsDropped s with ctl := { s.ctl with job := none, queue := [] } } := by
    unfold commitsFail
    rw [hjob, hqueue]
    rfl
  rw [hfail, hctl]
  rfl

/-- An idle part's transactions and answers change nothing but the cut that was being compiled where no controller serves. -/
theorem dictServe_of_idle {s : State} (h : Idle s) : dictServe s = pcieSettle s ∨ dictServe s = pcieSettle (cutsDropped s) := by
  by_cases hc : s.reachable = false ∨ controlWaits s = true ∨ s.controlUp = true
  · exact .inl (dictServe_idle h hc)
  · right
    simp only [not_or, Bool.not_eq_false, Bool.not_eq_true] at hc
    obtain ⟨hreach, hwaits, hup⟩ := hc
    have hidle : Idle (cutsDropped s) := h
    obtain ⟨-, -, hheld, hintake, hfinished, hposted⟩ := hidle
    have hresume : resume s = cutsDropped s := by
      unfold resume
      simp only [hreach, hwaits, hup, commitsFail_idle h]
      simp [hheld, hintake]
    unfold dictServe
    rw [hresume]
    simp only [hheld, hfinished, List.length_nil]
    rw [show serveFinished (0 + 0 + 1) (cutsDropped s) = cutsDropped s by simp [serveFinished, hfinished]]
    exact congrArg pcieSettle (ringsServe_idle hposted)

/-- What settling the dictionary of an idle part leaves: of the power state all but the link, of classification all but the cuts, the port-directions, the
status of the images and the clock. -/
structure IdleSettled (s t : State) : Prop where
  power : t.power = { s.power with pcieUp := t.power.pcieUp }
  cls : t.cls = { s.cls with cuts := t.cls.cuts }
  pds : t.path.pds = s.path.pds
  imageStatus : t.ctl.imageStatus = s.ctl.imageStatus
  saveCount : t.ctl.saveCount = s.ctl.saveCount
  cycles : t.time.cycles = s.time.cycles

theorem IdleSettled.refl (s : State) : IdleSettled s s := ⟨rfl, rfl, rfl, rfl, rfl, rfl⟩

theorem IdleSettled.trans {s t u : State} (h : IdleSettled s t) (g : IdleSettled t u) : IdleSettled s u := by
  obtain ⟨hpower, hcls, hpds, hstatus, hcount, hcycles⟩ := h
  refine ⟨?_, ?_, g.pds.trans hpds, g.imageStatus.trans hstatus, g.saveCount.trans hcount, g.cycles.trans hcycles⟩
  · have hg := g.power
    rw [hpower] at hg
    exact hg
  · have hg := g.cls
    rw [hcls] at hg
    exact hg

theorem cutsDropped_settled (s : State) : IdleSettled s (cutsDropped s) := ⟨rfl, rfl, rfl, rfl, rfl, rfl⟩

theorem closeStaging_image (k : Nat) (s : State) : (closeStaging k s).ctl.imageStatus = s.ctl.imageStatus ∧
    (closeStaging k s).ctl.saveCount = s.ctl.saveCount ∧ (closeStaging k s).time.cycles = s.time.cycles := by
  unfold closeStaging
  dsimp only
  split
  · exact ⟨rfl, rfl, rfl⟩
  · exact ⟨rfl, rfl, rfl⟩

theorem closeStaging_settled (k : Nat) (s : State) : IdleSettled s (closeStaging k s) := by
  have hpower : (closeStaging k s).power = s.power := closeStaging_keep State.power (fun _ _ _ => rfl) k s
  have hcls : (closeStaging k s).cls = s.cls := closeStaging_keep State.cls (fun _ _ _ => rfl) k s
  have hpath : (closeStaging k s).path = s.path := closeStaging_keep State.path (fun _ _ _ => rfl) k s
  obtain ⟨hstatus, hcount, hcycles⟩ := closeStaging_image k s
  exact ⟨by rw [hpower], by rw [hcls], by rw [hpath], hstatus, hcount, hcycles⟩

theorem foldl_closeStaging_settled (l : List Nat) (s : State) : IdleSettled s (l.foldl (fun s k => closeStaging k s) s) :=
  List.foldlRecOn (motive := fun t => IdleSettled s t) _ _ (.refl s) fun t h k _ => h.trans (closeStaging_settled k t)

theorem flr_settled (s : State) : IdleSettled s (flr s) := by
  refine (foldl_closeStaging_settled (List.range 64) s).trans ?_
  unfold flr
  generalize (List.range 64).foldl (fun s k => closeStaging k s) s = u
  exact ⟨rfl, rfl, rfl, rfl, rfl, rfl⟩

theorem pcieSettle_settled (s : State) : IdleSettled s (pcieSettle s) := by
  unfold pcieSettle
  split
  · exact (flr_settled s).trans ⟨rfl, rfl, rfl, rfl, rfl, rfl⟩
  · split
    · exact ⟨rfl, rfl, rfl, rfl, rfl, rfl⟩
    · exact .refl s

theorem writeOver_pds (key a : Nat) (l : List Octets) (s : State) : (writeOver key a l s).path.pds = s.path.pds := by
  induction l generalizing a s with
  | nil => rfl
  | cons d l ih =>
    unfold writeOver
    rw [ih, writeLine_keep State.path (fun _ _ _ _ _ _ => rfl)]
    rfl

theorem controlCheckpoint_pds (s : State) : (controlCheckpoint s).path.pds = s.path.pds := by
  unfold controlCheckpoint controlWrite
  split
  · split
    · exact writeOver_pds ..
    · rfl
  · rfl

theorem controlCheckpoint_settled (s : State) : IdleSettled s (controlCheckpoint s) := by
  have hpower : (controlCheckpoint s).power = s.power := controlCheckpoint_keep State.power (fun _ _ _ _ _ _ _ _ => rfl) s
  refine ⟨by rw [hpower], by rw [controlCheckpoint_cls], controlCheckpoint_pds s, ?_, ?_, by rw [controlCheckpoint_time]⟩
  · rw [controlCheckpoint_ctl]
  · rw [controlCheckpoint_ctl]

theorem dictSettle_settled {s : State} (h : Idle s) : IdleSettled s (dictSettle s) := by
  refine IdleSettled.trans ?_ (controlCheckpoint_settled _)
  rcases dictServe_of_idle h with hs | hs
  · rw [hs]; exact pcieSettle_settled s
  · rw [hs]; exact (cutsDropped_settled s).trans (pcieSettle_settled _)

theorem IdleSettled.domain {s t : State} (h : IdleSettled s t) (d : Nat) : t.domain d = s.domain d := by unfold State.domain; rw [h.power]

/-! ## The ports open (R491, R492) -/

theorem mem_pdsOf {p : PD} {ports : List Nat} (h : p.port.val ∈ ports) : p ∈ pdsOf ports := by
  refine List.mem_flatten.mpr ⟨_, List.mem_map_of_mem h, ?_⟩
  obtain ⟨n, d⟩ := p
  have hn : Fin.ofNat 32 n.val = n := Fin.ext (Nat.mod_eq_of_lt n.isLt)
  dsimp only
  rw [hn]
  cases d <;> simp

/-- A port-direction opened where it is closed. -/
def portOpen (s : State) (p : PD) : State := if (s.pd p).closed then updPd p (fun r => { r with closed := false, finishing := [] }) s else s

theorem portOpen_closed (s : State) (p q : PD) (h : q = p ∨ (s.pd q).closed = false) : ((portOpen s p).pd q).closed = false := by
  unfold portOpen
  split
  · rw [updPd_get]
    split
    · rfl
    · next hne => exact h.resolve_left hne
  · next hopen => exact h.elim (fun he => he ▸ Bool.not_eq_true _ ▸ hopen) id

/-- With no drain of a port, no service reset and no domain in reset, the port opens. -/
theorem portsOpen_open {s : State} {p : PD} (hdrain : draining s p.port = false) (hservice : s.power.service = .none) (hreset : ∀ d < 80, (s.domain d).state ≠ 3) :
    ((portsOpen s).pd p).closed = false := by
  have hmem : p ∈ pdsOf ((List.range 32).filter (fun n => !(draining s n || s.power.service != .none ||
      (List.range 80).any (fun d => drainType d && (s.domain d).state == 3 && (drainPorts s d).contains n)))) := by
    refine mem_pdsOf (List.mem_filter.mpr ⟨List.mem_range.mpr p.port.isLt, ?_⟩)
    have hany : (List.range 80).any (fun d => drainType d && (s.domain d).state == 3 && (drainPorts s d).contains p.port.val) = false := by
      rw [List.any_eq_false]
      intro d hd
      simp [hreset d (List.mem_range.mp hd)]
    rw [hdrain, hservice, hany]
    rfl
  exact foldl_settles (Q := fun (t : State) q => (t.pd q).closed = false) (f := portOpen) (fun t q => portOpen_closed t q q (.inl rfl))
    (fun t q r h => portOpen_closed t q r (.inr h)) hmem s

/-- The service reset over, with no cluster in reset. -/
def serviceClosed (s : State) : State := { s with cls := { s.cls with resetClusters := [] }, power := { s.power with service := .none } }

/-- Every domain out of its reset, and the service reset over. -/
def serviceOver (s : State) : State := serviceClosed ((List.range 80).foldl domainUp s)

theorem serviceEnd_eq {s : State} (hservice : s.power.service = .resetting) (hstep : s.power.serviceStep = 3) (hstart : ctlIn s .starting = none) :
    serviceEnd s = lanesSettle (portsOpen (serviceOver s)) := by
  have hfold (l : List Nat) : l.foldl (fun s d => if (s.domain d).state = 3 then setDomain d 1 s else s) s = l.foldl domainUp s := rfl
  unfold serviceEnd serviceOver
  rw [hservice, hstep, hstart, hfold, if_neg (by decide)]
  generalize (List.range 80).foldl domainUp s = u
  rfl

theorem serviceEnd_of_not {s : State} (h : s.power.service ≠ .resetting ∨ s.power.serviceStep ≠ 3 ∨ ctlIn s .starting ≠ none) : serviceEnd s = s := by
  unfold serviceEnd
  refine if_pos ?_
  rcases h with h | h | h
  · simp [h]
  · simp [h]
  · simp [Option.isSome_iff_ne_none.mpr h]

/-- The end of a service reset: its domains are back, and every port opens that no drain holds. -/
theorem serviceOver_spec (s : State) : (∀ d < 80, ((serviceOver s).domain d).state = if (s.domain d).state = 3 then 1 else (s.domain d).state) ∧
    (∀ n, draining (serviceOver s) n = draining s n) ∧ (serviceOver s).ctl = s.ctl ∧ (serviceOver s).host = s.host ∧
      (serviceOver s).power.service = .none ∧ (serviceOver s).cls.resetClusters = [] := by
  obtain ⟨hdrains, hctl, hhost, -⟩ := foldl_domainUp_keeps (List.range 80) s
  have hup := foldl_domainUp 80 s
  unfold serviceOver
  generalize (List.range 80).foldl domainUp s = u at *
  refine ⟨fun d hd => ?_, fun n => ?_, hctl, hhost, rfl, rfl⟩
  · refine (hup d).trans ?_
    by_cases h3 : (s.domain d).state = 3
    · rw [if_pos ⟨hd, h3⟩, if_pos h3]
    · rw [if_neg fun h => h3 h.2, if_neg h3]
  · unfold draining
    rw [← hdrains]
    rfl

theorem serviceOver_open {s : State} {p : PD} (hdrain : draining s p.port = false) : ((portsOpen (serviceOver s)).pd p).closed = false := by
  obtain ⟨hdom, hdraining, -, -, hservice, -⟩ := serviceOver_spec s
  refine portsOpen_open (by rw [hdraining, hdrain]) hservice fun d hd => ?_
  rw [hdom d hd]
  split
  · omega
  · assumption

/-! ## The obligation -/

/-- Settles O49: a drain's end through `DrainDone`, a restart's through the parts it gives back, and a service reset's through `serviceOver`. -/
theorem drainsAndRestartsEnd : Obligations.DrainsAndRestartsEnd := by
  unfold Obligations.DrainsAndRestartsEnd
  refine ⟨?complete, ?none, ?timeout, ?empty, ?restarted, ?notReset, ?service, ?quiet⟩
  case complete =>
    intro dr s hfind
    obtain ⟨hdrains, -, -, hcleared, hrestarted⟩ := drainReset_done dr s
    have hexec : drainComplete s = drainReset dr s := by unfold drainComplete; rw [hfind]
    exact ⟨_, congrArg Host.Outcome.next hexec, hdrains, hcleared, hrestarted⟩
  case none =>
    intro s hfind
    have hexec : drainComplete s = s := by unfold drainComplete; rw [hfind]
    exact congrArg Host.Outcome.next hexec
  case timeout =>
    intro dr l s hdrains
    obtain ⟨hdue, hpower⟩ := drainCounted_spec dr (dr.at_ + cyclesUs 5000) s
    have hexec := drainTimeout_eq hdrains
    generalize drainCounted dr (dr.at_ + cyclesUs 5000) s = u at *
    obtain ⟨hdrains', hcounts, htime, hcleared, hrestarted⟩ := drainReset_done dr u
    have hdom (d : Nat) : u.domain d = s.domain d := by unfold State.domain; rw [hpower]
    refine ⟨_, congrArg Host.Outcome.next hexec, ?_, by rw [htime]; exact hdue, ?_, hcleared, ?_⟩
    · rw [hdrains', hpower]
      exact (congrArg (List.erase · dr) hdrains).trans (List.erase_cons_head ..)
    · rw [hcounts, hpower]
      exact Tab.get_bump_same ..
    · simpa only [hdom] using hrestarted
  case empty =>
    intro s hdrains
    have hexec : drainTimeout s = s := by unfold drainTimeout; rw [hdrains]
    exact congrArg Host.Outcome.next hexec
  case restarted =>
    intro d s hreset
    obtain ⟨hpower, hkeys, hcluster⟩ := clusterBack_spec d (setDomain d 1 s)
    obtain ⟨hpower', hcls, h66, h67, hother⟩ := chuckBack_spec d (clusterBack d (setDomain d 1 s))
    have hdom (j : Nat) : (portsOpen (lanesSettle (chuckBack d (clusterBack d (setDomain d 1 s))))).domain j = (setDomain d 1 s).domain j := by
      rw [domain_congr (portsOpen_power _)]
      exact domain_congr (hpower'.trans hpower) j
    refine ⟨_, congrArg Host.Outcome.next (congrArg portsOpen (domainRestarted_eq hreset)), ?_, fun j hj => ?_, fun hd => ?_, fun hd => ?_, fun hd => ?_, fun hne66 hne67 => ?_⟩
    · rw [hdom, setDomain_get, if_pos rfl]
    · rw [hdom, setDomain_get, if_neg hj]
    · rw [portsOpen_cls]
      exact (congrArg Classifier.resetClusters hcls).trans (hcluster hd)
    · rw [portsOpen_keys]
      exact h66 (congrArg Fin.val hd)
    · rw [portsOpen_keys]
      exact h67 (congrArg Fin.val hd)
    · rw [portsOpen_keys]
      exact (hother (fun h => hne66 (Fin.ext h)) fun h => hne67 (Fin.ext h)).trans hkeys
  case notReset =>
    intro d s hne
    exact congrArg Host.Outcome.next (congrArg portsOpen (if_pos hne))
  case service =>
    intro s hidle hservice hstep hstart
    obtain ⟨hdom, -, hctl, hhost, hended, hclusters⟩ := serviceOver_spec s
    have heq := serviceEnd_eq hservice hstep hstart
    have hpower := portsOpen_power (serviceOver s)
    have hcls := portsOpen_cls (serviceOver s)
    have hopen := fun p (h : draining s p.port = false) => serviceOver_open (p := p) h
    have hidle' : Idle (portsOpen (serviceOver s)) :=
      hidle.congr ((portsOpen_keep State.ctl (fun _ _ => rfl) _).trans hctl) ((portsOpen_keep State.host (fun _ _ => rfl) _).trans hhost)
    generalize serviceOver s = u at *
    generalize portsOpen u = v at *
    have hsettled := dictSettle_settled hidle'.lanesSettle
    refine ⟨_, congrArg Host.Outcome.next (congrArg dictSettle heq), ?_, ?_, fun d hd => ?_, fun p hp => ?_⟩
    · rw [hsettled.power]
      exact (congrArg Power.service hpower).trans hended
    · rw [hsettled.cls]
      exact (congrArg Classifier.resetClusters hcls).trans hclusters
    · rw [hsettled.domain d, ← hdom d hd]
      exact congrArg Domain.state (domain_congr hpower d)
    · rw [pd_congr hsettled.pds]
      exact hopen p hp
  case quiet =>
    intro s hquiet hnot
    exact congrArg Host.Outcome.next ((congrArg dictSettle (serviceEnd_of_not hnot)).trans (dictSettle_quiet hquiet))

end Sys2Proof.Machine

/-! The beginning of start-up (R485, R488): Init's end, the training of the stacks, and the wait for random data. -/
namespace Sys2Proof.Machine

/-! ## Init ends (R485) -/

/-- A source that a half's start turns on at cycle `now`. -/
def Source.begun (now : Nat) (x : Source) : Source := if x.state == .off then { x with state := .starting, since := now } else x

/-- The first `n` sources of half `h` started. -/
def sourcesBegin (h n : Nat) (s : State) : State := (List.range n).foldl (fun s i => updSource (4 * h + i) (Source.begun s.time.cycles) s) s

theorem sourcesBegin_succ (h n : Nat) (s : State) :
    sourcesBegin h (n + 1) s = updSource (4 * h + n) (Source.begun (sourcesBegin h n s).time.cycles) (sourcesBegin h n s) := by
  unfold sourcesBegin
  rw [List.range_succ, List.foldl_append, List.foldl_cons, List.foldl_nil]

theorem sourcesBegin_time (h n : Nat) (s : State) : (sourcesBegin h n s).time = s.time := by
  induction n with
  | zero => rfl
  | succ n ih => rw [sourcesBegin_succ]; exact ih

theorem sourcesBegin_source (h n k : Nat) (s : State) : (sourcesBegin h n s).rng.source k =
    if 4 * h ≤ k ∧ k < 4 * h + n then (s.rng.source k).begun s.time.cycles else s.rng.source k := by
  induction n generalizing k with
  | zero => exact (if_neg (by omega)).symm
  | succ n ih =>
    rw [sourcesBegin_succ, updSource_get, sourcesBegin_time, ih, ih]
    by_cases hk : k = 4 * h + n
    · subst hk
      rw [if_pos rfl, if_neg (by omega), if_pos (by omega)]
    · rw [if_neg hk]
      exact if_congr (by omega) rfl rfl

theorem sourcesStart_source (h k : Nat) (s : State) : (sourcesStart h s).rng.source k =
    if 4 * h ≤ k ∧ k < 4 * h + 4 then (s.rng.source k).begun s.time.cycles else s.rng.source k := sourcesBegin_source h 4 k s

theorem sourcesStart_time (h : Nat) (s : State) : (sourcesStart h s).time = s.time := sourcesBegin_time h 4 s
theorem sourcesStart_power (h : Nat) (s : State) : (sourcesStart h s).power = s.power := sourcesStart_keep State.power (fun _ _ => rfl) h s

/-- The sources of both halves start. -/
theorem sourcesStart_both {k : Nat} (hk : k < 8) {s : State} (hoff : (s.rng.source k).state = .off) :
    ((sourcesStart 1 (sourcesStart 0 s)).rng.source k).state = .starting := by
  have hbegun : ((s.rng.source k).begun s.time.cycles).state = .starting := by unfold Source.begun; rw [hoff]; rfl
  rw [sourcesStart_source, sourcesStart_source]
  by_cases hlow : k < 4
  · rw [if_neg (by omega), if_pos (by omega)]
    exact hbegun
  · rw [if_pos (by omega), if_neg (by omega), sourcesStart_time]
    exact hbegun

/-- The part enters Training. -/
def trainingBegins (s : State) : State := startNote 0 { s with power := { s.power with start := .training, attempts := 1, pcieUp := true } }

/-- Init's domains are on. -/
def initPowered (s : State) : State := initDomains.foldl (fun s d => setDomain d 1 s) s

/-- The active controller's domain is on. -/
def controllerPowered (s : State) : State := match ctlIn s .active with | some b => setDomain (68 + bit b) 1 s | none => s

theorem initEnd_true {s : State} (h : s.power.start = .init) :
    initEnd true s = ringZero (lanesSettle (sourcesStart 1 (sourcesStart 0 (controllerPowered (initPowered (trainingBegins s)))))) := by
  unfold initEnd
  rw [h]
  rfl

theorem initPowered_on {d : Nat} (hd : d ∈ initDomains) (s : State) : ((initPowered s).domain d).state = 1 :=
  foldl_settles (Q := fun (t : State) d => (t.domain d).state = 1) (fun t d => by rw [setDomain_get, if_pos rfl])
    (fun t d j hj => by rw [setDomain_get]; split; exacts [rfl, hj]) hd s

/-- What turning a domain on leaves. -/
def Powered (s t : State) : Prop := t.power = { s.power with domains := t.power.domains } ∧ t.rng = s.rng ∧ t.ctl = s.ctl

theorem Powered.setDomain {s t : State} (h : Powered s t) (d st : Nat) : Powered s (setDomain d st t) := by
  obtain ⟨hpower, hrng, hctl⟩ := h
  refine ⟨?_, hrng, hctl⟩
  have hset : (Machine.setDomain d st t).power = { t.power with domains := (Machine.setDomain d st t).power.domains } := rfl
  rw [hpower] at hset
  exact hset

theorem initPowered_spec (s : State) : Powered s (initPowered s) :=
  List.foldlRecOn (motive := fun t => Powered s t) _ _ ⟨rfl, rfl, rfl⟩ fun _ h d _ => h.setDomain d 1

theorem controllerPowered_spec {s u : State} (h : Powered s u) : Powered s (controllerPowered u) := by
  unfold controllerPowered
  split
  · exact h.setDomain _ 1
  · exact h

theorem controllerPowered_on {d : Nat} {s : State} (h : (s.domain d).state = 1 ∨ ∃ b, ctlIn s .active = some b ∧ d = 68 + bit b) :
    ((controllerPowered s).domain d).state = 1 := by
  unfold controllerPowered
  rcases h with h | ⟨b, hb, rfl⟩
  · split
    · rw [setDomain_get]
      split
      · rfl
      · exact h
    · exact h
  · rw [hb]
    dsimp only
    rw [setDomain_get, if_pos rfl]

/-! ## A stack's training (R485) -/

theorem inTraining_iff (s : State) : inTraining s = true ↔ s.power.start = .training ∨ s.power.start = .waitRandom := by
  unfold inTraining
  simp

/-- The memory keys are asked for. -/
def keysAsked (s : State) : State :=
  let s := if (s.power.record.find 2).isNone then startNote 2 s else s
  let s := { s with power := { s.power with start := .restoring }, mpu := { s.mpu with keys := [] } }
  rngAsk .memoryKeys 2 { s with rng := { s.rng with queue := s.rng.queue.filter (fun r => r.who != .memoryKeys) } }

/-- Training, the generator and the KEKs are done. -/
def Trained (s : State) : Prop := inTraining s = true ∧ s.power.trained.length = 2 ∧ s.rng.started = true ∧ s.rest.bbk ≠ none

theorem toRestoring_of_trained {s : State} (h : Trained s) : toRestoring s = keysAsked s := by
  obtain ⟨htraining, hstacks, hstarted, hbbk⟩ := h
  refine if_pos ?_
  simp [htraining, hstacks, hstarted, Option.isSome_iff_ne_none.mpr hbbk]

theorem toRestoring_of_not {s : State} (h : ¬ Trained s) : toRestoring s = s := by
  refine if_neg fun hc => h ?_
  simp only [Bool.and_eq_true, beq_iff_eq] at hc
  obtain ⟨⟨⟨htraining, hstacks⟩, hstarted⟩, hbbk⟩ := hc
  exact ⟨htraining, hstacks, hstarted, Option.isSome_iff_ne_none.mp hbbk⟩

theorem keysAsked_spec (s : State) : (keysAsked s).power = { s.power with start := .restoring, record := (keysAsked s).power.record } ∧ (keysAsked s).mpu.keys = [] ∧
    (keysAsked s).fab = s.fab ∧ (keysAsked s).rng.started = s.rng.started ∧ (keysAsked s).rng.reseedAt = s.rng.reseedAt ∧ (keysAsked s).ctl = s.ctl ∧ (keysAsked s).host = s.host := by
  unfold keysAsked
  dsimp only
  split
  · exact ⟨rfl, rfl, rfl, rfl, rfl, rfl, rfl⟩
  · exact ⟨rfl, rfl, rfl, rfl, rfl, rfl, rfl⟩

/-- A stack trained, and the time noted where it is the second. -/
def stackNoted (k : Nat) (s : State) : State :=
  let s := { s with power := { s.power with trained := k :: s.power.trained } }
  if s.power.trained.length = 2 then startNote 3 s else s

theorem stackNoted_spec (k : Nat) (s : State) : (stackNoted k s).power = { s.power with trained := k :: s.power.trained, record := (stackNoted k s).power.record } ∧
    (stackNoted k s).rng = s.rng ∧ (stackNoted k s).rest = s.rest ∧ (stackNoted k s).ctl = s.ctl ∧ (stackNoted k s).host = s.host := by
  unfold stackNoted
  dsimp only
  split
  · exact ⟨rfl, rfl, rfl, rfl, rfl⟩
  · exact ⟨rfl, rfl, rfl, rfl, rfl⟩

/-- Neither has trained before, and the part trains. -/
def Untrained (k : Nat) (s : State) : Prop := inTraining s = true ∧ s.power.trained.contains k = false

theorem stackTrained_pass {k : Nat} {s : State} (h : Untrained k s) : stackTrained k true s = toRestoring (stackNoted k s) := by
  unfold stackTrained
  dsimp only
  rw [h.1, h.2]
  rfl

/-- The part is left without memory. -/
def memoryFailed (s : State) : State := lanesSettle (startNote 5 { s with power := { s.power with start := .memFailed } })

/-- A second attempt of stack `k`. -/
def secondAttempt (k : Nat) (s : State) : State := { s with power := { s.power with failedOnce := k :: s.power.failedOnce, attempts := 2 } }

theorem stackTrained_fail {k : Nat} {s : State} (h : Untrained k s) :
    stackTrained k false s = if s.power.failedOnce.contains k then memoryFailed s else secondAttempt k s := by
  unfold stackTrained
  dsimp only
  rw [h.1, h.2]
  rfl

/-- A part whose memory keys are gone writes no checkpoint. -/
theorem dictSettle_keysGone {s : State} (h : Idle s) (hkeys : s.mpu.keys = []) : (dictSettle s).mpu.keys = [] := by
  have hserve : (dictServe s).mpu = s.mpu := by
    have hsettle (u : State) : (pcieSettle u).mpu = u.mpu := pcieSettle_keep State.mpu (fun _ _ _ _ _ _ => rfl) u
    rcases dictServe_of_idle h with hs | hs
    · rw [hs, hsettle]
    · rw [hs, hsettle]; rfl
  have hready : mpuReady (dictServe s) = false := by unfold mpuReady; rw [hserve, hkeys]; rfl
  unfold dictSettle controlCheckpoint
  rw [hready, Bool.and_false, Bool.false_and, if_neg Bool.false_ne_true, hserve, hkeys]

/-! ## The wait for random data (R488) -/

/-- The part enters the wait. -/
def waitEntered (s : State) : State := startNote 5 { s with power := { s.power with start := .waitRandom } }

theorem randomWait_of_waiting {s : State} (hstart : s.power.start = .training) (hrng : s.rng.started = false) :
    randomWait s = waitEntered (waitCycle (s.power.ref + cyclesUs 200000) s) :=
  if_neg (by rw [hstart, hrng]; decide)

theorem randomWait_of_not {s : State} (h : s.power.start ≠ .training ∨ s.rng.started = true) : randomWait s = s := by
  refine if_pos ?_
  rcases h with h | h
  · simp [h]
  · simp [h]

end Sys2Proof.Machine

/-! The known-answer tests of power-up (R212): the role that each spindle's test gives it. -/
namespace Sys2Proof.Machine

/-! ## What a draw leaves of the generator -/

/-- What of the generator no draw changes: whether it has started, and when it was last reseeded. -/
def Rng.epoch (g : Rng) : Bool × Nat := (g.started, g.reseedAt)

theorem Rng.setLive_epoch (d : Option Drbg) (g : Rng) : (g.setLive d).epoch = g.epoch := by
  unfold Rng.setLive
  split <;> rfl

theorem rngDraw_epoch {n : Nat} {s : State} {q : Octets × State} (h : rngDraw n s = some q) : q.2.rng.epoch = s.rng.epoch ∧ q.2.fab = s.fab := by
  unfold rngDraw at h
  split at h
  · split at h
    · next d hd =>
      have hq := Option.some.inj h
      subst hq
      refine ⟨?_, rfl⟩
      rw [← s.rng.setLive_epoch (some (drbgGenerate [] n d).2)]
      dsimp only
      split <;> rfl
    · exact absurd h (by simp)
  · exact absurd h (by simp)

/-! ## One spindle's role -/

/-- The role that a spindle's test gives it. -/
def roleGiven (ok work : Bool) : Role := if work then .working else if ok then .spare else .diagnosing

/-- The test's calibration factor recorded, with factory trim. -/
def katRecorded (calib i : Nat) (s : State) : State := trimFactory i (updSp i (fun x => { x with calib := calib, since := s.time.cycles }) s)

/-- The mask seed of a spindle drawn, or asked for. -/
def seedDrawn (i : Nat) (s : State) : State :=
  match rngDraw 32 s with
  | some (o, s) => maskSeed i (BitVec.ofNat 256 (beNat o)) s
  | none => rngAsk (.maskReseed i) 1 s

/-- A spindle put to work, without its seed. -/
def workBegun (i : Nat) (s : State) : State := updSp i Spindle.fresh (setDomain i 1 (setRole i .working s))

/-- A spindle that failed its test. -/
def testFailedRole (i : Nat) (s : State) : State := logSpindle i 8 0 0 (fabCount 3 1 (updSp i (fun x => { x with cause := 8 }) (setRole i .diagnosing s)))

theorem roleSet_eq (calib : Nat) (ok work : Bool) (i : Nat) (s : State) : roleSet calib ok work i s =
    if work then seedDrawn i (workBegun i (katRecorded calib i s)) else if ok then toSpare i (katRecorded calib i s) else testFailedRole i (katRecorded calib i s) := rfl

theorem katRecorded_other {calib i j : Nat} (h : j ≠ i) (s : State) : (katRecorded calib i s).spindle j = s.spindle j := by
  unfold katRecorded trimFactory
  rw [updSp_get, if_neg h, updSp_get, if_neg h]

theorem seedDrawn_role (i j : Nat) (s : State) : ((seedDrawn i s).spindle j).role = (s.spindle j).role := by
  unfold seedDrawn
  split
  · next o u hu =>
    rw [maskSeed_spindle]
    have hfab := (rngDraw_epoch hu).2
    have hrole (k : Nat) : (u.spindle k).role = (s.spindle k).role := congrArg Spindle.role (spindle_congr hfab k)
    split
    · next hj => subst hj; exact hrole j
    · exact hrole j
  · rfl

theorem seedDrawn_epoch (i : Nat) (s : State) : (seedDrawn i s).rng.epoch = s.rng.epoch := by
  unfold seedDrawn
  split
  · next o u hu => exact (rngDraw_epoch hu).1
  · rfl

theorem roleSet_role (calib : Nat) (ok work : Bool) (i : Nat) (s : State) : ((roleSet calib ok work i s).spindle i).role = roleGiven ok work := by
  unfold roleGiven
  rw [roleSet_eq]
  split
  · rw [seedDrawn_role]
    unfold workBegun
    rw [updSp_get, if_pos rfl, setDomain_spindle, setRole_spindle, if_pos rfl]
    rfl
  · split
    · rw [toSpare_spindle, if_pos rfl]
      rfl
    · unfold testFailedRole
      rw [logSpindle_spindle, fabCount_spindle, updSp_get, if_pos rfl, setRole_spindle, if_pos rfl]
      rfl

theorem roleSet_role_other {i j : Nat} (h : j ≠ i) (calib : Nat) (ok work : Bool) (s : State) : ((roleSet calib ok work i s).spindle j).role = (s.spindle j).role := by
  rw [roleSet_eq]
  split
  · rw [seedDrawn_role]
    unfold workBegun
    rw [updSp_get, if_neg h, setDomain_spindle, setRole_spindle, if_neg h, katRecorded_other h]
  · split
    · rw [toSpare_spindle, if_neg h, katRecorded_other h]
    · unfold testFailedRole
      rw [logSpindle_spindle, fabCount_spindle, updSp_get, if_neg h, setRole_spindle, if_neg h, katRecorded_other h]

theorem roleSet_epoch (calib : Nat) (ok work : Bool) (i : Nat) (s : State) : (roleSet calib ok work i s).rng.epoch = s.rng.epoch := by
  rw [roleSet_eq]
  split
  · rw [seedDrawn_epoch]; rfl
  · split
    · rw [toSpare_rng]; rfl
    · unfold testFailedRole
      rw [logSpindle_rng]; rfl

/-! ## The tests (R212) -/

/-- The spindles that are not retired. -/
def liveSpindles (s : State) : List Nat := (List.range 28).filter (fun i => (s.spindle i).role != .retired)

/-- Those of them whose test passes. -/
def passingSpindles (kat : List KatRun) (s : State) : List Nat := (liveSpindles s).filter (fun i => katPasses (kat.getD i {}))

/-- Those of these that work: the 24 of fewest service hours. -/
def workingSpindles (kat : List KatRun) (s : State) : List Nat := ((passingSpindles kat s).foldl (fun l i => hoursInsert s i l) []).take 24

/-- The role set of spindle `i` among all. -/
def roleSetOf (kat : List KatRun) (ok work : List Nat) (s : State) (i : Nat) : State := roleSet (calibOf (kat.getD i {})) (ok.contains i) (work.contains i) i s

theorem rolesSet_eq (kat : List KatRun) (s : State) :
    rolesSet kat s = spareCheck ((liveSpindles s).foldl (roleSetOf kat (passingSpindles kat s) (workingSpindles kat s)) s) := rfl

theorem mem_hoursInsert {s : State} {i j : Nat} {l : List Nat} (h : j ∈ hoursInsert s i l) : j = i ∨ j ∈ l := by
  induction l with
  | nil => exact .inl (List.mem_singleton.mp h)
  | cons k l ih =>
    unfold hoursInsert at h
    split at h
    · exact List.mem_cons.mp h
    · rcases List.mem_cons.mp h with hk | hl
      · exact .inr (hk ▸ List.mem_cons_self)
      · exact (ih hl).imp_right (List.mem_cons_of_mem k)

theorem workingSpindles_subset {kat : List KatRun} {s : State} : ∀ i ∈ workingSpindles kat s, i ∈ passingSpindles kat s := by
  intro i hi
  refine List.foldlRecOn (motive := fun l : List Nat => ∀ i ∈ l, i ∈ passingSpindles kat s) _ _ (fun _ h => absurd h List.not_mem_nil)
    (fun l hl a ha j hj => ?_) i (List.mem_of_mem_take hi)
  exact (mem_hoursInsert hj).elim (fun h => h ▸ ha) (hl j)

theorem rolesSet_role_live {kat : List KatRun} {s : State} {i : Nat} (hi : i ∈ liveSpindles s) :
    ((rolesSet kat s).spindle i).role = roleGiven ((passingSpindles kat s).contains i) ((workingSpindles kat s).contains i) := by
  rw [rolesSet_eq, spareCheck_spindle]
  refine foldl_settles (Q := fun (t : State) j => (t.spindle j).role = roleGiven ((passingSpindles kat s).contains j) ((workingSpindles kat s).contains j))
    (fun t j => roleSet_role ..) (fun t j k hk => ?_) hi s
  by_cases hkj : k = j
  · subst hkj; exact roleSet_role ..
  · exact (roleSet_role_other hkj ..).trans hk

theorem rolesSet_role_other {kat : List KatRun} {s : State} {i : Nat} (hi : i ∉ liveSpindles s) : ((rolesSet kat s).spindle i).role = (s.spindle i).role := by
  rw [rolesSet_eq, spareCheck_spindle]
  exact List.foldlRecOn (motive := fun t : State => (t.spindle i).role = (s.spindle i).role) _ _ rfl fun t ht j hj =>
    (roleSet_role_other (fun he => hi (by rw [he]; exact hj)) ..).trans ht

theorem rolesSet_epoch (kat : List KatRun) (s : State) : (rolesSet kat s).rng.epoch = s.rng.epoch := by
  rw [rolesSet_eq, spareCheck_rng]
  exact List.foldlRecOn (motive := fun t : State => t.rng.epoch = s.rng.epoch) _ _ rfl fun t ht j _ => (roleSet_epoch ..).trans ht

/-- Where spindles' roles were set by their tests, those of `s` being the roles before: at most 24 work, a retired one stays, and one that failed is
Diagnosing. -/
structure RolesTested (kat : List KatRun) (s t : State) : Prop where
  working : ((List.range 28).filter (fun i => (t.spindle i).role == .working && (s.spindle i).role != .retired)).length ≤ 24
  retired : ∀ i < 28, (s.spindle i).role = .retired → (t.spindle i).role = .retired
  failed : ∀ i < 28, (s.spindle i).role ≠ .retired → katPasses (kat.getD i {}) = false → (t.spindle i).role = .diagnosing

theorem mem_liveSpindles {s : State} {i : Nat} : i ∈ liveSpindles s ↔ i < 28 ∧ (s.spindle i).role ≠ .retired := by
  unfold liveSpindles
  simp

theorem mem_working_of_role {kat : List KatRun} {s : State} {i : Nat} (hlive : i ∈ liveSpindles s) (h : ((rolesSet kat s).spindle i).role = .working) :
    i ∈ workingSpindles kat s := by
  rw [rolesSet_role_live hlive] at h
  unfold roleGiven at h
  by_contra hnot
  rw [List.contains_eq_mem, decide_eq_false hnot] at h
  simp at h
  split at h <;> cases h

theorem rolesSet_tested (kat : List KatRun) (s : State) : RolesTested kat s (rolesSet kat s) := by
  refine ⟨?_, fun i _ hret => ?_, fun i hi hnot hfail => ?_⟩
  · have hsub : (List.range 28).filter (fun i => ((rolesSet kat s).spindle i).role == .working && (s.spindle i).role != .retired) ⊆ workingSpindles kat s := by
      intro i hi
      simp only [List.mem_filter, List.mem_range, Bool.and_eq_true, beq_iff_eq, bne_iff_ne, ne_eq] at hi
      obtain ⟨h28, hrole, hlive⟩ := hi
      exact mem_working_of_role (mem_liveSpindles.mpr ⟨h28, hlive⟩) hrole
    exact ((List.nodup_range.filter _).subperm hsub).length_le.trans (List.length_take_le ..)
  · exact (rolesSet_role_other fun h => (mem_liveSpindles.mp h).2 hret).trans hret
  · have hpass : i ∉ passingSpindles kat s := fun h => by
      have := (List.mem_filter.mp h).2
      rw [hfail] at this
      exact absurd this Bool.false_ne_true
    have hwork : i ∉ workingSpindles kat s := fun h => hpass (workingSpindles_subset i h)
    rw [rolesSet_role_live (mem_liveSpindles.mpr ⟨hi, hnot⟩), List.contains_eq_mem, List.contains_eq_mem, decide_eq_false hpass, decide_eq_false hwork]
    rfl

theorem RolesTested.congr {kat : List KatRun} {s s' t t' : State} (h : RolesTested kat s t) (hs : s'.fab = s.fab) (ht : t'.fab = t.fab) : RolesTested kat s' t' := by
  have hspindle (i : Nat) : s'.spindle i = s.spindle i := spindle_congr hs i
  have hspindle' (i : Nat) : t'.spindle i = t.spindle i := spindle_congr ht i
  refine ⟨?_, ?_, ?_⟩
  · simp only [hspindle, hspindle']; exact h.working
  · simp only [hspindle, hspindle']; exact h.retired
  · simp only [hspindle, hspindle']; exact h.failed

/-! ## The generator starts (R386) -/

/-- The generator instantiated. -/
def generatorUp (s : State) : State := startNote 1 { s with rng := { Rng.seedHalf 1 (Rng.seedHalf 0 s.rng) with started := true, reseedAt := s.time.cycles } }

theorem generatorStarts_eq (kat : List KatRun) (s : State) : generatorStarts kat s =
    if !inTraining s || s.rng.started then s
    else if (Rng.seedHalf 1 (Rng.seedHalf 0 s.rng)).exp0.isNone || (Rng.seedHalf 1 (Rng.seedHalf 0 s.rng)).exp1.isNone then s
    else toRestoring (rolesSet kat (generatorUp s)) := rfl

theorem generatorStarts_of_seeded {kat : List KatRun} {d0 d1 : Drbg} {s : State} (htraining : inTraining s = true) (hrng : s.rng.started = false)
    (h0 : (Rng.seedHalf 1 (Rng.seedHalf 0 s.rng)).exp0 = some d0) (h1 : (Rng.seedHalf 1 (Rng.seedHalf 0 s.rng)).exp1 = some d1) :
    generatorStarts kat s = toRestoring (rolesSet kat (generatorUp s)) := by
  rw [generatorStarts_eq, if_neg (by rw [htraining, hrng]; decide), if_neg (by rw [h0, h1]; exact Bool.false_ne_true)]

theorem toRestoring_keeps (s : State) : (toRestoring s).fab = s.fab ∧ (toRestoring s).rng.epoch = s.rng.epoch := by
  by_cases h : Trained s
  · rw [toRestoring_of_trained h]
    obtain ⟨-, -, hfab, hstarted, hreseed, -, -⟩ := keysAsked_spec s
    exact ⟨hfab, Prod.ext hstarted hreseed⟩
  · rw [toRestoring_of_not h]
    exact ⟨rfl, rfl⟩

end Sys2Proof.Machine

/-! What taking an image up leaves (R438): the part's start and the mailbox rings, which the applied values do not show in. -/
namespace Sys2Proof.Machine

/-! ## The spindle commands -/

section
variable {β : Type} {P : State → β} (h : RoleBlind P)
include h

theorem RoleBlind.logSpindle (i cause frames tokens : Nat) (s : State) : P (logSpindle i cause frames tokens s) = P s := h.logEntry _ _ _ s

theorem RoleBlind.isolateSpindle {i : Nat} (hi : i < 28) (cause : Nat) (s : State) : P (isolateSpindle i cause s) = P s := by
  have hreplay (ids : List Nat) (s : State) : P (replayAll ids s) = P s := replayAll_keep P (fun s x y => (h.path { s with fab := x } y).trans (h.fab s x)) ids s
  unfold Machine.isolateSpindle
  dsimp only
  rw [h.settleRoles, apply_ite P, rotationEnd_keep P h.fab, apply_ite P, rotationYield_keep P h.fab, ite_self, ite_self, h.post, h.logSpindle, h.fab,
    fabCount_keep P h.fab, hreplay, h.rng, updSp_keep P h.fab, h.domain _ _ _ hi, setRole_keep P h.fab]

theorem RoleBlind.spindleCommand {i : Nat} (hi : i < 28) (code : Nat) (s : State) : P (spindleCommand i code s) = P s := by
  unfold Machine.spindleCommand
  split
  · exact h.isolateSpindle hi 9 s
  · rw [h.domain _ _ _ hi, updSp_keep P h.fab, setRole_keep P h.fab]
  · exact updSp_keep P h.fab i _ s
  · rfl

theorem RoleBlind.fixedRail (s : State) : P (fixedRail s) = P s :=
  fixedRail_keep P (fun s x y => (h.out { s with fab := x } y).trans (h.fab s x)) s

end

/-- The rail follows a committed change of its settings. -/
def railTakes (st : Tab Octets) (s : State) : State :=
  if stagedIn st 0x3002 0x3003 then fixedRail { s with fab := { s.fab with fixedSent := s.fab.fixedSent && !(isStaged st 0x3002 7) } } else s

/-- The command staged for spindle `i`. -/
def spindleOrdered (st : Tab Octets) (s : State) (i : Nat) : State := match stagedNat st 0x3005 (i + 1) with | some v => spindleCommand i v s | none => s

/-- A fabric that was parked for thermal reasons alone works again. -/
def unparked (s : State) : State := if s.power.parked && s.odNat 0x5404 1 = 0 then settleRoles { s with power := { s.power with parked := false } } else s

theorem fabricTakes_eq (st : Tab Octets) (s : State) : fabricTakes st s = unparked ((List.range 28).foldl (spindleOrdered st) (railTakes st s)) := rfl

theorem ApplyBlind.fabricTakes_staged {β : Type} {P : State → β} (h : ApplyBlind P) (st : Tab Octets) (s : State) : P (Machine.fabricTakes st s) = P s := by
  have hcommands (s : State) : P ((List.range 28).foldl (spindleOrdered st) s) = P s :=
    List.foldlRecOn (motive := fun t => P t = P s) _ _ rfl fun t ht i hi => by
      unfold spindleOrdered
      split
      · exact (h.spindleCommand (List.mem_range.mp hi) _ t).trans ht
      · exact ht
  have hrail : P (railTakes st s) = P s := by
    unfold railTakes
    split
    · exact (h.fixedRail _).trans (h.fab s _)
    · rfl
  have hpark (s : State) : P (unparked s) = P s := by
    unfold unparked
    split
    · exact (h.settleRoles _).trans (h.parked s _)
    · rfl
  rw [fabricTakes_eq, hpark, hcommands, hrail]

/-! ## The start and the mailbox rings -/

/-- The part's start, and its mailbox rings. -/
def startRings (s : State) : Start × (Fin 64 → Ring) := (s.power.start, fun r => s.ring r)

theorem startRings_applyBlind : ApplyBlind startRings where
  post e s := Prod.ext (congrArg Power.start (post_keep State.power (fun _ _ _ => rfl) e s)) (funext fun r => post_ring r.isLt e s)
  rest _ _ := rfl
  path _ _ := rfl
  mpu _ _ := rfl
  out _ _ := rfl
  rng _ _ := rfl
  fab _ _ := rfl
  domain _ _ _ _ := rfl
  time _ _ := rfl
  keys _ _ := rfl
  otn _ _ := rfl
  parked _ _ := rfl

theorem postTo_ring {j : Nat} (h : j < 64) (k : Nat) (e : Event) (s : State) : (postTo k e s).ring j = s.ring j := by
  have hne (k : Nat) : j ≠ 1088 + k := by omega
  have hflush : (flushLost k s).ring j = s.ring j := by
    unfold flushLost
    dsimp only
    split
    · rfl
    · rw [eventWrite_ring (hne _), updRing_get, if_neg (hne _)]
  unfold postTo
  dsimp only
  split
  · unfold eventLost
    rw [updRing_get, if_neg (hne _)]
    exact hflush
  · rw [eventWrite_ring (hne _), hflush]

theorem startRings_postTo (k : Nat) (e : Event) (s : State) : startRings (postTo k e s) = startRings s :=
  Prod.ext (congrArg Power.start (postTo_keep State.power (fun _ _ _ => rfl) k e s)) (funext fun r => postTo_ring r.isLt k e s)

/-! ### Shapes and queues -/

theorem startRings_domainsSettle (s : State) : startRings (domainsSettle s) = startRings s := by
  refine List.foldlRecOn (motive := fun t : State => startRings (lanesSettle t) = startRings s) _ _ rfl fun t ht d _ => ?_
  dsimp only
  split
  · split
    · exact ht
    · exact ht
  · split
    · exact ht
    · exact ht
  · exact ht

theorem startRings_shapesTake (s0 s : State) : startRings (shapesTake s0 s) = startRings s := by
  unfold shapesTake
  dsimp only
  split
  · rfl
  · rw [startRings_domainsSettle, keep (P := startRings) (fun t k => otucRestarts_keep startRings (fun _ _ _ _ _ => rfl) k t),
      keep (P := startRings) (fun t k => keep (P := startRings) fun u j => portRestarts_keep startRings (fun _ _ _ _ _ => rfl) _ u)]

theorem startRings_queueTakes (s0 : State) (key : Nat) (s : State) : startRings (queueTakes s0 key s) = startRings s := by
  have hpath : ∀ s x, startRings { s with path := x } = startRings s := fun _ _ => rfl
  unfold queueTakes
  dsimp only
  split
  · rfl
  · split
    · rw [restate_keep startRings hpath, updQueue_keep startRings hpath, leaveLists_keep startRings hpath, hpath]
    · rw [discardQueue_keep startRings (fun _ _ _ _ _ => rfl), updQueue_keep startRings hpath, leaveLists_keep startRings hpath, hpath]

/-! ### The time unit -/

theorem startRings_slotPassed (s : State) (i : Nat) : startRings (slotPassed s i) = startRings s := by
  unfold slotPassed
  dsimp only
  split
  · rw [slotPast_keep startRings (fun _ _ => rfl)]
    unfold slotAct
    split
    · exact setPin_keep startRings (fun _ _ _ => rfl) _ _ s
    · exact setPin_keep startRings (fun _ _ _ => rfl) _ _ s
    · exact startRings_postTo _ _ s
    · rfl
  · rfl

theorem startRings_rollDue (u : RollUser) (s : State) : startRings (rollDue u s) = startRings s := by
  have hkeys : ∀ s x, startRings { s with keys := x } = startRings s := fun _ _ => rfl
  unfold rollDue
  dsimp only
  split
  · rfl
  · split
    · exact rollGuard_keep startRings (fun _ _ _ _ => rfl) _ _ s
    · unfold rollMissed
      dsimp only
      rw [keyEvent_keep startRings hkeys, keyCount_keep startRings hkeys, startRings_applyBlind.post, updRoll_keep startRings hkeys]

theorem startRings_rollsPassed (s : State) : startRings (rollsPassed s) = startRings s := by
  unfold rollsPassed
  split
  · rfl
  · exact keep (P := startRings) fun t u => startRings_rollDue u t

theorem startRings_freezeSlotSas (target cause : Nat) (s : State) : startRings (freezeSlotSas target cause s) = startRings s := by
  have hkeys : ∀ s x, startRings { s with keys := x } = startRings s := fun _ _ => rfl
  have hfreeze (i : Nat) (s : State) : startRings (freezeSa i cause s) = startRings s := by
    unfold freezeSa
    split
    · rfl
    · rw [saShow_keep startRings (fun _ _ => rfl), keyEvent_keep startRings hkeys, startRings_applyBlind.post, updSa_keep startRings hkeys]
  unfold freezeSlotSas
  split
  · rfl
  · refine keep (P := startRings) fun t i => (hfreeze i _).trans ?_
    split
    · exact updSa_keep startRings hkeys _ _ t
    · rfl

theorem startRings_keyExpire (s : State) : startRings (keyExpire s) = startRings s := by
  unfold keyExpire
  split
  · rfl
  · have hone (base : Nat) (t : State) (q : Nat × KeySlot) :
        startRings (freezeSlotSas (base + q.1) 3 (updSlot (base + q.1) (fun x => { x with expired := true }) t)) = startRings t := by
      rw [startRings_freezeSlotSas, updSlot_keep startRings (fun _ _ => rfl)]
    dsimp only
    rw [keep (P := startRings) (hone 0x8000), keep (P := startRings) (hone 0)]

theorem startRings_timeStep (x : Int) (s : State) : startRings (timeStep x s) = startRings s := by
  have htime : ∀ s x, startRings { s with time := x } = startRings s := fun _ _ => rfl
  unfold timeStep
  dsimp only
  rw [startRings_keyExpire, startRings_rollsPassed, suspectAll_keep startRings (fun _ _ => rfl), startRings_applyBlind.logEntry, startRings_applyBlind.post,
    clockCount_keep startRings htime, keep (P := startRings) startRings_slotPassed, htime, moveHeld_keep startRings (fun _ _ _ _ => rfl), htime]

theorem startRings_timeGiven (x : Int) (s : State) : startRings (timeGiven x s) = startRings s := by
  have htime : ∀ s x, startRings { s with time := x } = startRings s := fun _ _ => rfl
  have hrestart (s : State) : startRings (servoRestart (timeStep x s)) = startRings s :=
    (servoRestart_keep startRings htime _).trans (startRings_timeStep x s)
  have hset (v : Servo) (s : State) : startRings (setServo v s) = startRings s := setServo_keep startRings (fun _ _ _ => rfl) v s
  unfold timeGiven
  dsimp only
  split
  · rw [hset, htime, hrestart, htime]
  · split
    · rw [hset, htime, hrestart, htime]
    · rw [hrestart, htime]
  · rw [hrestart, htime]

/-- The servo follows a committed change of its source, its master and its step policy. -/
def servoTakes (s0 s : State) : State :=
  let s := if odChanged s0 s 0x4010 1 then servoSource (s.odNat 0x4010 1) s else s
  let s := if odChanged s0 s 0x4010 3 || odChanged s0 s 0x4010 4 then servoMaster s else s
  if odChanged s0 s 0x4011 6 then servoPolicy s else s

/-- A committed set-time. -/
def timeSet (st : Tab Octets) (s : State) : State := match stagedAt st 0x4001 1 with | some b => setTimeTo (time96Of b) s | none => s

/-- A committed adjustment. -/
def timeAdjusted (st : Tab Octets) (s : State) : State := match stagedNat st 0x4001 2 with | some v => timeGiven (signed 64 v) s | none => s

/-- An event pin that a commit frees, or configures again, is inactive. -/
def pinOff (s0 : State) (st : Tab Octets) (s : State) (p : Nat) : State :=
  if odChanged s0 s 0x6000 (p + 1) || pinFreed s0 st s p then updPin p (fun q => { q with active := false, pulseEnd := none }) s else s

theorem timeTakes_eq (s0 : State) (st : Tab Octets) (s : State) : timeTakes s0 st s =
    (List.range 4).foldl (fun s p => pinSettle p s) (lockPins ((List.range 4).foldl (pinOff s0 st) (timeAdjusted st (timeSet st (servoTakes s0 s))))) := rfl

theorem startRings_servoTakes (s0 s : State) : startRings (servoTakes s0 s) = startRings s := by
  have hout : ∀ s x y, startRings { s with time := x, out := y } = startRings s := fun _ _ _ => rfl
  unfold servoTakes
  dsimp only
  (repeat' split) <;> simp only [servoPolicy_keep startRings hout, servoMaster_keep startRings hout, servoSource_keep startRings hout]

theorem startRings_timeSet (st : Tab Octets) (s : State) : startRings (timeSet st s) = startRings s := by
  unfold timeSet
  split
  · exact startRings_timeGiven _ _
  · rfl

theorem startRings_timeAdjusted (st : Tab Octets) (s : State) : startRings (timeAdjusted st s) = startRings s := by
  unfold timeAdjusted
  split
  · exact startRings_timeGiven _ _
  · rfl

theorem startRings_pinOff (s0 : State) (st : Tab Octets) (s : State) (p : Nat) : startRings (pinOff s0 st s p) = startRings s := by
  unfold pinOff
  split
  · exact updPin_keep startRings (fun _ _ => rfl) _ _ s
  · rfl

theorem startRings_timeTakes (s0 : State) (st : Tab Octets) (s : State) : startRings (timeTakes s0 st s) = startRings s := by
  have hout : ∀ s x y, startRings { s with time := x, out := y } = startRings s := fun _ _ _ => rfl
  rw [timeTakes_eq, keep (P := startRings) (fun t p => pinSettle_keep startRings hout p t), lockPins_keep startRings hout,
    keep (P := startRings) (startRings_pinOff s0 st), startRings_timeAdjusted, startRings_timeSet, startRings_servoTakes]

/-! ### Power requests -/

theorem startRings_powerTakes (st : Tab Octets) (s : State) : startRings (powerTakes st s) = startRings s := by
  have hswitch (d : Nat) (on : Bool) (s : State) : startRings (powerSwitch d on s) = startRings s := by
    have hrng : ∀ s x, startRings { s with rng := x } = startRings s := fun _ _ => rfl
    have hpower (d st : Nat) (s : State) : startRings (setDomain d st s) = startRings s := rfl
    unfold powerSwitch
    dsimp only
    (repeat' split) <;> simp only [hrng, hpower, sourcesStart_keep startRings hrng, sourcesOff_keep startRings hrng]
  unfold powerTakes
  refine keep (P := startRings) fun t d => ?_
  split
  · exact hswitch _ _ t
  · rfl

/-! ## The image -/

theorem startRings_imageTakes (s0 : State) (st : Tab Octets) (s : State) : startRings (imageTakes s0 st s) = startRings s := by
  have hcls : ∀ s x, startRings { s with cls := x } = startRings s := fun _ _ => rfl
  unfold imageTakes
  dsimp only
  rw [startRings_domainsSettle, startRings_powerTakes, hcls, startRings_applyBlind.fabricTakes_staged, startRings_timeTakes,
    keep (P := startRings) (fun t k => startRings_queueTakes s0 k t), startRings_shapesTake]

theorem imageTakes_ctl (s0 : State) (st : Tab Octets) (s : State) : (imageTakes s0 st s).ctl = s.ctl :=
  imageTakes_keep State.ctl (fun _ _ _ _ _ _ _ _ _ _ _ _ _ _ => rfl) s0 st s

theorem putPlain_ctl (key : Nat) (b : Octets) (s : State) : (putPlain key b s).ctl = { s.ctl with dict := (putPlain key b s).ctl.dict } := by
  unfold putPlain
  dsimp only
  split
  · rfl
  · split <;> rfl

/-- The candidate differs from the state in the dictionary's values alone, of what the controllers hold. -/
theorem candidate_ctl (k : Nat) (st : Tab Octets) (s : State) : (candidate k st s).ctl = { s.ctl with dict := (candidate k st s).ctl.dict } := by
  have hput : (putPlains st s).ctl = { s.ctl with dict := (putPlains st s).ctl.dict } :=
    List.foldlRecOn (motive := fun t : State => t.ctl = { s.ctl with dict := t.ctl.dict }) _ _ rfl fun t ht q _ => by
      have hq := putPlain_ctl q.1 q.2 t
      rw [ht] at hq
      exact hq
  have heq : (candidate k st s).ctl = (putPlains st s).ctl := by
    unfold candidate
    rw [slotWriteAll_keep State.ctl (fun _ _ => rfl), policerWriteAll_keep State.ctl (fun _ _ => rfl), queueWriteAll_keep State.ctl (fun _ _ => rfl),
      tribWriteAll_keep State.ctl (fun _ _ => rfl), scWriteAll_keep State.ctl (fun _ _ => rfl)]
  rw [heq]
  exact hput

theorem startRings_candidate (k : Nat) (st : Tab Octets) (s : State) : startRings (candidate k st s) = startRings s :=
  candidate_keep startRings (fun _ _ _ _ _ _ _ => rfl) k st s

end Sys2Proof.Machine

/-! The restore and the part's readiness (R438, R485), and with them obligation O48. -/
namespace Sys2Proof.Machine

/-! ## The restore -/

/-- The part is Ready as of now. -/
def readied (s : State) : State := { s with power := { s.power with start := .ready, zeroSince := s.time.cycles }, fab := { s.fab with rotatedAt := s.time.cycles } }

/-- A flag of the image status. -/
def imageFlag (n : Nat) (s : State) : State := { s with ctl := { s.ctl with imageStatus := s.ctl.imageStatus ||| n } }

/-- The values `st` taken up, of an image of save count `n`. -/
def imageTaken (n : Nat) (st : Tab Octets) (s : State) : State :=
  let t := imageTakes s st (candidate 128 st s)
  { t with ctl := { t.ctl with saveCount := BitVec.ofNat 64 n }, power := { t.power with startFlags := t.power.startFlags ||| 1 } }

/-- The newest valid image `o` taken up; the status says where there is none, and where a value of it did not pass its checks. -/
def imageBy (o : Option (Nat × Nat × Tab Octets)) (s : State) : State :=
  match o with
  | none => imageFlag 2 (domainsSettle s)
  | some (_, n, vals) =>
    if (imageChecked s (vals.length + 1) vals).length < vals.length then imageFlag 4 (imageTaken n (imageChecked s (vals.length + 1) vals) s)
    else imageTaken n (imageChecked s (vals.length + 1) vals) s

theorem imageApply_eq (s : State) : imageApply s = imageBy (newestImage (readied s)) (readied s) := by
  unfold imageApply
  extract_lets p f u flag
  have hu : u = readied s := rfl
  clear_value u
  subst hu
  generalize readied s = u
  have hflag (n : Nat) (s : State) : flag n s = imageFlag n s := rfl
  clear_value flag
  unfold imageBy
  generalize newestImage u = o
  cases o with
  | none => exact hflag 2 _
  | some q =>
    dsimp only
    rw [hflag]
    rfl

theorem imageApply_none {s : State} (h : newestImage s = none) : imageApply s = imageFlag 2 (domainsSettle (readied s)) :=
  (imageApply_eq s).trans (congrArg (imageBy · (readied s)) h)

theorem imageApply_some {i n : Nat} {vals : Tab Octets} {s : State} (h : newestImage s = some (i, n, vals)) : ∃ st,
    imageApply s = imageTaken n st (readied s) ∨ imageApply s = imageFlag 4 (imageTaken n st (readied s)) := by
  have heq : imageApply s = imageBy (some (i, n, vals)) (readied s) := (imageApply_eq s).trans (congrArg (imageBy · (readied s)) h)
  refine ⟨imageChecked (readied s) (vals.length + 1) vals, ?_⟩
  rw [heq]
  unfold imageBy
  dsimp only
  split
  · exact .inr rfl
  · exact .inl rfl

/-- What taking an image up, or the lack of one, makes of the state `s`. -/
structure Restored (s t : State) : Prop where
  start : t.power.start = .ready
  ring : ∀ r < 64, t.ring r = s.ring r
  ctl : t.ctl = { s.ctl with dict := t.ctl.dict, imageStatus := t.ctl.imageStatus, saveCount := t.ctl.saveCount }
  missing : newestImage s = none → t.ctl.imageStatus.testBit 1 = true
  count : ∀ i n v, newestImage s = some (i, n, v) → t.ctl.saveCount = BitVec.ofNat 64 n

theorem ring_of_startRings {s t : State} (h : startRings t = startRings s) : ∀ r < 64, t.ring r = s.ring r := fun r hr => congrFun (congrArg Prod.snd h) ⟨r, hr⟩
theorem start_of_startRings {s t : State} (h : startRings t = startRings s) : t.power.start = s.power.start := congrArg Prod.fst h

theorem imageTaken_spec (n : Nat) (st : Tab Octets) (s : State) : startRings (imageTaken n st s) = startRings s ∧
    (imageTaken n st s).ctl = { s.ctl with dict := (imageTaken n st s).ctl.dict, saveCount := BitVec.ofNat 64 n } := by
  have hrings : startRings (imageTakes s st (candidate 128 st s)) = startRings s := (startRings_imageTakes ..).trans (startRings_candidate ..)
  have hctl : (imageTakes s st (candidate 128 st s)).ctl = { s.ctl with dict := (imageTakes s st (candidate 128 st s)).ctl.dict } := by
    rw [imageTakes_ctl]
    exact candidate_ctl 128 st s
  unfold imageTaken
  dsimp only
  generalize imageTakes s st (candidate 128 st s) = t at *
  refine ⟨hrings, ?_⟩
  rw [hctl]

theorem imageApply_restored (s : State) : Restored s (imageApply s) := by
  cases h : newestImage s with
  | none =>
    have hrings : startRings (domainsSettle (readied s)) = startRings (readied s) := startRings_domainsSettle _
    have hctl : (domainsSettle (readied s)).ctl = s.ctl := domainsSettle_keep State.ctl (fun _ _ => rfl) (readied s)
    rw [imageApply_none h]
    generalize domainsSettle (readied s) = t at *
    refine ⟨(start_of_startRings hrings :), fun r hr => (ring_of_startRings hrings r hr :), ?_, fun _ => ?_, fun i n v hv => ?_⟩
    · unfold imageFlag
      rw [hctl]
    · exact (Nat.testBit_or ..).trans (by rw [show Nat.testBit 2 1 = true from rfl, Bool.or_true])
    · rw [h] at hv; exact absurd hv (by simp)
  | some q =>
    obtain ⟨i, n, vals⟩ := q
    obtain ⟨st, heq⟩ := imageApply_some h
    obtain ⟨hrings, hctl⟩ := imageTaken_spec n st (readied s)
    have hcount : (imageTaken n st (readied s)).ctl.saveCount = BitVec.ofNat 64 n := by rw [hctl]
    generalize imageTaken n st (readied s) = t at *
    have hdone : Restored s t := by
      refine ⟨(start_of_startRings hrings :), fun r hr => (ring_of_startRings hrings r hr :), ?_, fun hnone => ?_, fun j m v hv => ?_⟩
      · rw [hctl]; rfl
      · rw [h] at hnone; exact absurd hnone (by simp)
      · rw [h] at hv
        obtain ⟨-, rfl, -⟩ := Prod.mk.inj (Option.some.inj hv) |>.imp_right Prod.mk.inj
        exact hcount
    rcases heq with heq | heq
    · rw [heq]; exact hdone
    · rw [heq]
      exact ⟨hdone.start, hdone.ring, by have := hdone.ctl; unfold imageFlag; rw [this], fun hnone => absurd (h.symm.trans hnone) (by simp), hdone.count⟩

/-- What `P` reads shows nothing of a checkpoint that is written. -/
theorem RoleBlind.checkpointsOwed {β : Type} {P : State → β} (h : RoleBlind P) (s : State) : P (checkpointsOwed s) = P s := by
  unfold Machine.checkpointsOwed
  refine keep (P := P) fun t i => ?_
  unfold checkpointWrite
  dsimp only
  split
  · rw [h.writeLine, updSp_keep P h.fab]
  · exact updSp_keep P h.fab _ _ t

/-- The end of the restore noted, and the part's readiness where it was not noted before. -/
def readyNoted (s : State) : State :=
  let s := startNote 4 s
  if (s.power.record.find 5).isNone then startNote 5 s else s

theorem restoreEnd_eq {s : State} (hstart : s.power.start = .restoring) (hkeys : mpuReady s = true) :
    restoreEnd s = settleRoles (lanesSettle (readyNoted (imageApply (checkpointsOwed s)))) := by
  have hnot : ¬ Trained s := fun h => by
    have := (inTraining_iff s).mp h.1
    rw [hstart] at this
    exact absurd this (by decide)
  have heq : restoreEnd s = if (toRestoring s).power.start != .restoring || !mpuReady (toRestoring s) then toRestoring s
      else settleRoles (lanesSettle (readyNoted (imageApply (checkpointsOwed (toRestoring s))))) := rfl
  rw [heq, toRestoring_of_not hnot, hstart, hkeys]
  exact if_neg (by decide)

theorem readyNoted_spec (s : State) : startRings (readyNoted s) = startRings s ∧ (readyNoted s).ctl = s.ctl := by
  unfold readyNoted
  dsimp only
  split
  · exact ⟨rfl, rfl⟩
  · exact ⟨rfl, rfl⟩

theorem newestImage_congr {s t : State} (h : t.ctl = s.ctl) : newestImage t = newestImage s := by unfold newestImage; rw [h]

theorem restoreEnd_restored {s : State} (hstart : s.power.start = .restoring) (hkeys : mpuReady s = true) : Restored s (restoreEnd s) := by
  have howed := startRings_applyBlind.checkpointsOwed s
  have howedCtl := ctl_applyBlind.checkpointsOwed s
  have himage := imageApply_restored (checkpointsOwed s)
  have hnewest := newestImage_congr howedCtl
  rw [restoreEnd_eq hstart hkeys]
  generalize imageApply (checkpointsOwed s) = t at *
  generalize checkpointsOwed s = u at *
  obtain ⟨hrings, hctl⟩ := readyNoted_spec t
  generalize readyNoted t = v at *
  have hsettled : startRings (settleRoles (lanesSettle v)) = startRings t := (startRings_applyBlind.settleRoles _).trans hrings
  have hsettledCtl : (settleRoles (lanesSettle v)).ctl = t.ctl := (ctl_applyBlind.settleRoles _).trans hctl
  generalize settleRoles (lanesSettle v) = w at *
  refine ⟨(start_of_startRings hsettled).trans himage.start, fun r hr => ?_, ?_, ?_, ?_⟩
  · rw [ring_of_startRings hsettled r hr, himage.ring r hr, ring_of_startRings howed r hr]
  · rw [hsettledCtl, ← howedCtl]
    exact himage.ctl
  · rw [hsettledCtl, ← hnewest]
    exact himage.missing
  · rw [hsettledCtl, ← hnewest]
    exact himage.count

theorem Restored.idle {s t : State} (h : Restored s t) (hidle : Idle s) : Idle t := by
  obtain ⟨hjob, hqueue, hheld, hintake, hfinished, hposted⟩ := hidle
  have hctl := h.ctl
  refine ⟨?_, ?_, ?_, ?_, ?_, fun r hr => ?_⟩
  · rw [hctl]; exact hjob
  · rw [hctl]; exact hqueue
  · rw [hctl]; exact hheld
  · rw [hctl]; exact hintake
  · rw [hctl]; exact hfinished
  · rw [h.ring r hr]; exact hposted r hr

/-! ## The obligation -/

theorem IdleSettled.start {s t : State} (h : IdleSettled s t) : t.power.start = s.power.start := (congrArg Power.start h.power).trans rfl

theorem reachable_of_start {s : State} (h : s.power.start = .ready ∨ s.power.start = .memFailed ∨ s.power.start = .waitRandom) : s.reachable = true := by
  unfold State.reachable
  rcases h with h | h | h <;> rw [h] <;> rfl

theorem waitEntered_settled (c : Nat) {s : State} (h : Idle s) : (dictSettle (waitEntered (waitCycle c s))).power.start = .waitRandom ∧
    c ≤ (dictSettle (waitEntered (waitCycle c s))).time.cycles := by
  have hsettled := dictSettle_settled (s := waitEntered (waitCycle c s)) (h.congr rfl rfl)
  refine ⟨hsettled.start, ?_⟩
  rw [hsettled.cycles]
  exact (waitCycle_cycles c s).1

/-- Init's end, of a part in Init. -/
theorem initEnd_spec {s : State} (h : s.power.start = .init) : (initEnd true s).power.start = .training ∧ (initEnd true s).power.attempts = 1 ∧
    (initEnd true s).power.pcieUp = true ∧ ((initEnd true s).ring 0).state = 1 ∧ (∀ d ∈ initDomains, ((initEnd true s).domain d).state = 1) ∧
    (∀ k < 8, (s.rng.source k).state = .off → ((initEnd true s).rng.source k).state = .starting) ∧
    ∀ b, ctlIn s .active = some b → ((initEnd true s).domain (68 + bit b)).state = 1 := by
  have hbegun : Powered (trainingBegins s) (controllerPowered (initPowered (trainingBegins s))) := controllerPowered_spec (initPowered_spec _)
  have hinit (d : Nat) (hd : d ∈ initDomains) := controllerPowered_on (.inl (initPowered_on hd (trainingBegins s)))
  have hcontroller (b : Bool) (hb : ctlIn s .active = some b) :
      ((controllerPowered (initPowered (trainingBegins s))).domain (68 + bit b)).state = 1 := by
    refine controllerPowered_on (.inr ⟨b, ?_, rfl⟩)
    unfold ctlIn at hb ⊢
    rw [(initPowered_spec (trainingBegins s)).2.2]
    exact hb
  rw [initEnd_true h]
  generalize controllerPowered (initPowered (trainingBegins s)) = u at *
  obtain ⟨hpower, hrng, -⟩ := hbegun
  have hstarted : (sourcesStart 1 (sourcesStart 0 u)).power = u.power := (sourcesStart_power ..).trans (sourcesStart_power ..)
  have hsource (k : Nat) (hk : k < 8) (hoff : (s.rng.source k).state = .off) := sourcesStart_both (s := u) hk (by rw [hrng]; exact hoff)
  generalize sourcesStart 1 (sourcesStart 0 u) = v at *
  have hdomain (d : Nat) : (ringZero (lanesSettle v)).domain d = u.domain d := domain_congr hstarted d
  refine ⟨?_, ?_, ?_, ?_, fun d hd => ?_, hsource, fun b hb => ?_⟩
  · show v.power.start = _
    rw [hstarted, hpower]; rfl
  · show v.power.attempts = _
    rw [hstarted, hpower]; rfl
  · show v.power.pcieUp = _
    rw [hstarted, hpower]; rfl
  · exact congrArg Ring.state ((updRing_get 0 0 _ _).trans (if_pos rfl))
  · rw [hdomain]; exact hinit d hd
  · rw [hdomain]; exact hcontroller b hb

/-- Settles O48: Init's end through the domains it powers, the tests through the role that each gives its spindle, and the restore through what an image's
values leave of the part's start and its mailbox rings. -/
theorem startUpReachesReady : Obligations.StartUpReachesReady := by
  unfold Obligations.StartUpReachesReady
  refine ⟨?init, ?initFails, ?notInit, ?trains, ?fails, ?generator, ?waits, ?noWait, ?restore⟩
  case init => exact fun s h => ⟨_, rfl, initEnd_spec h⟩
  case initFails =>
    intro s h
    have hexec : initEnd false s = { s with power := { s.power with start := .halted } } := by unfold initEnd; rw [h]; rfl
    exact congrArg Host.Outcome.next hexec
  case notInit =>
    intro ok s h
    exact congrArg Host.Outcome.next (if_pos (by simpa using h))
  case trains =>
    intro k s hidle htraining huntrained
    obtain ⟨hpower, hrng, hrest, hctl, hhost⟩ := stackNoted_spec k.val s
    have hexec := stackTrained_pass ⟨htraining, huntrained⟩
    have hidle' : Idle (stackNoted k.val s) := hidle.congr hctl hhost
    generalize stackNoted k.val s = u at *
    have htrained : Trained u ↔ s.power.trained.length = 1 ∧ s.rng.started = true ∧ s.rest.bbk ≠ none := by
      have htraining' : inTraining u = true := by unfold inTraining at htraining ⊢; rw [hpower]; exact htraining
      unfold Trained
      rw [hpower, hrng, hrest]
      simp [htraining']
    by_cases hall : Trained u
    · rw [toRestoring_of_trained hall] at hexec
      obtain ⟨hasked, hgone, -, -, -, haskedCtl, haskedHost⟩ := keysAsked_spec u
      have hidle'' := hidle'.congr haskedCtl haskedHost
      have hsettled := dictSettle_settled hidle''
      have hkeys := dictSettle_keysGone hidle'' hgone
      obtain ⟨hone, hstarted, hbbk⟩ := htrained.mp hall
      refine ⟨_, congrArg Host.Outcome.next (congrArg dictSettle hexec), ?_, fun _ _ _ => ⟨?_, hkeys⟩, fun hnot => ?_⟩
      · rw [hsettled.power, hasked, hpower]
      · rw [hsettled.start, hasked]
      · rw [hone, hstarted] at hnot
        simp [hbbk] at hnot
    · rw [toRestoring_of_not hall] at hexec
      have hsettled := dictSettle_settled hidle'
      refine ⟨_, congrArg Host.Outcome.next (congrArg dictSettle hexec), ?_, fun hone hstarted hbbk => absurd (htrained.mpr ⟨hone, hstarted, hbbk⟩) hall, fun _ => ?_⟩
      · rw [hsettled.power, hpower]
      · rw [hsettled.start, hpower]
  case fails =>
    intro k s hidle htraining huntrained
    have hexec := stackTrained_fail ⟨htraining, huntrained⟩
    split
    · next hsecond =>
      rw [if_pos hsecond] at hexec
      have hsettled := dictSettle_settled (s := memoryFailed s) (hidle.congr rfl rfl)
      refine ⟨_, congrArg Host.Outcome.next (congrArg dictSettle hexec), ?_, ?_⟩
      · rw [hsettled.power]; rfl
      · rw [hsettled.start]; rfl
    · next hfirst =>
      rw [if_neg hfirst] at hexec
      have hsettled := dictSettle_settled (s := secondAttempt k.val s) (hidle.congr rfl rfl)
      refine ⟨_, congrArg Host.Outcome.next (congrArg dictSettle hexec), ?_, ?_, ?_, ?_⟩
      · rw [hsettled.power]; rfl
      · rw [hsettled.start]; rfl
      · rw [hsettled.power]; rfl
      · rw [hsettled.power]; rfl
  case generator =>
    intro kat d0 d1 s htraining hrng h0 h1
    have hexec := generatorStarts_of_seeded (kat := kat) htraining hrng h0 h1
    have htested := rolesSet_tested kat (generatorUp s)
    have hepoch : (rolesSet kat (generatorUp s)).rng.epoch = (true, s.time.cycles) := rolesSet_epoch kat (generatorUp s)
    generalize rolesSet kat (generatorUp s) = u at *
    obtain ⟨hfab, hkept⟩ := toRestoring_keeps u
    have hdone := hkept.trans hepoch
    have hroles : RolesTested kat s (toRestoring u) := htested.congr rfl hfab
    exact ⟨_, congrArg Host.Outcome.next hexec, congrArg Prod.fst hdone, congrArg Prod.snd hdone, hroles.working, hroles.retired, hroles.failed⟩
  case waits =>
    intro s hidle hstart hrng
    have hexec := randomWait_of_waiting hstart hrng
    obtain ⟨hwaits, hdue⟩ := waitEntered_settled (s.power.ref + cyclesUs 200000) hidle
    exact ⟨_, congrArg Host.Outcome.next (congrArg dictSettle hexec), hwaits, hdue, reachable_of_start (.inr (.inr hwaits))⟩
  case noWait =>
    intro s hquiet hnot
    exact congrArg Host.Outcome.next ((congrArg dictSettle (randomWait_of_not hnot)).trans (dictSettle_quiet hquiet))
  case restore =>
    intro s hidle hstart hkeys
    have hrestored := restoreEnd_restored hstart hkeys
    have hsettled := dictSettle_settled (hrestored.idle hidle)
    have hready := hsettled.start.trans hrestored.start
    refine ⟨_, rfl, hready, reachable_of_start (.inl hready), fun hnone => ?_, fun i n v hv => ?_⟩
    · rw [hsettled.imageStatus]; exact hrestored.missing hnone
    · rw [hsettled.saveCount]; exact hrestored.count i n v hv

end Sys2Proof.Machine

/-! The part off (R226, R483, R489): what a loss of power, a reset and a supply's loss leave. -/
namespace Sys2Proof.Machine

theorem Tab.mem_of_find {α : Type} {k : Nat} {x : α} {t : Tab α} (h : t.find k = some x) : (k, x) ∈ t := by
  induction t with
  | nil => exact absurd h (by simp [Tab.find])
  | cons q t ih =>
    unfold Tab.find at h
    split at h
    · next hk => rw [← hk, Option.some.inj h.symm]; exact List.mem_cons_self
    · exact List.mem_cons_of_mem _ (ih h)

/-- A record that a table does not list by default is one that it lists. -/
theorem Tab.mem_of_get_ne {α : Type} {k : Nat} {d : α} {t : Tab α} (h : t.get k d ≠ d) : (k, t.get k d) ∈ t := by
  unfold Tab.get at *
  cases hf : t.find k with
  | none => rw [hf] at h; exact absurd rfl h
  | some x => exact Tab.mem_of_find hf

theorem Tab.get_filter_key {α : Type} (p : Nat → Bool) (k : Nat) (d : α) (t : Tab α) : Tab.get (t.filter (fun q => p q.1)) k d = if p k then t.get k d else d := by
  induction t with
  | nil => unfold Tab.get; simp [Tab.find]
  | cons q t ih =>
    obtain ⟨i, x⟩ := q
    unfold Tab.get at *
    by_cases hi : p i = true
    · rw [List.filter_cons_of_pos (by exact hi), Tab.find, Tab.find]
      by_cases hk : i = k
      · subst hk; simp [hi]
      · rw [if_neg hk, if_neg hk]; exact ih
    · rw [List.filter_cons_of_neg (by exact hi), Tab.find, ih]
      by_cases hk : i = k
      · subst hk; simp [hi]
      · rw [if_neg hk]

/-! ## Off -/

/-- What a zeroization that ends changes of the tool rest. -/
def restFrame (r : ToolRest) : ToolRest := { r with zeroizing := false, deferred := [], window := none }

theorem zeroizeDone_spec (s : State) : restFrame (zeroizeDone s).rest = restFrame s.rest ∧ (zeroizeDone s).power = s.power ∧ (zeroizeDone s).keys = s.keys ∧
    (zeroizeDone s).time = s.time ∧ (zeroizeDone s).ctl = s.ctl := by
  unfold zeroizeDone
  dsimp only
  split
  · exact ⟨rfl, rfl, rfl, rfl, rfl⟩
  · split
    · exact ⟨rfl, rfl, rfl, rfl, rfl⟩
    · exact ⟨rfl, rfl, rfl, rfl, rfl⟩

/-- A slot of target base `b` that stays Bad over the loss of power. -/
def slotStaysBad (resets : Nat) (b : Nat) (q : Nat × KeySlot) : Option (Nat × KeySlot) :=
  if q.2.state == .bad && !Config.slotSelfTest resets (b + q.1) then some (q.1, { state := .bad }) else none

/-- The keys of a part that is off. -/
def keysLeft (s : State) : Keys where
  data := s.keys.data.filterMap (slotStaysBad (s.power.resetCounts.get 0 0).toNat 0)
  kek := s.keys.kek.filterMap (slotStaysBad (s.power.resetCounts.get 0 0).toNat 0x8000)

/-- The power state of a part that is off. -/
def powerLeft (p : Power) : Power :=
  { pwrgood := p.pwrgood, resetN := p.resetN, lastCause := p.lastCause, resetCounts := p.resetCounts, thermtrip := p.thermtrip, zeroizeN := p.zeroizeN }

theorem partOff_keys (s : State) : (partOff s).keys = keysLeft (zeroizeDone s) := rfl
theorem partOff_power (s : State) : (partOff s).power = powerLeft s.power := by
  show powerLeft (zeroizeDone s).power = _
  rw [(zeroizeDone_spec s).2.1]
theorem partOff_cycles (s : State) : (partOff s).time.cycles = s.time.cycles := by
  show (zeroizeDone s).time.cycles = _
  rw [(zeroizeDone_spec s).2.2.2.1]

theorem mem_slotStaysBad {resets b : Nat} {l : Tab KeySlot} {q : Nat × KeySlot} (h : q ∈ l.filterMap (slotStaysBad resets b)) : q.2 = { state := .bad } := by
  obtain ⟨p, -, hp⟩ := List.mem_filterMap.mp h
  unfold slotStaysBad at hp
  split at hp
  · rw [← Option.some.inj hp]
  · exact absurd hp (by simp)

theorem slotStaysBad_none {resets b : Nat} {l : Tab KeySlot} (h : ∀ q ∈ l, q.2.state ≠ .bad) : l.filterMap (slotStaysBad resets b) = [] := by
  refine List.filterMap_eq_nil_iff.mpr fun q hq => ?_
  unfold slotStaysBad
  rw [if_neg (by simp [h q hq])]

/-- What a part that is off has kept of `s`: the MRAM state, the log and the counters, and of the keys nothing but that a slot is Bad. -/
structure PartGone (s t : State) : Prop where
  state : t.rest.state = s.rest.state
  ring : t.rest.ring = s.rest.ring
  lockSeq : t.rest.lockSeq = s.rest.lockSeq
  monotonic : t.rest.monotonic = s.rest.monotonic
  path : t.path = {}
  mpu : t.mpu = {}
  keys : ({ t.keys with data := [], kek := [] } : Keys) = {}
  slot : ∀ n, t.slot n ≠ {} → t.slot n = { state := .bad }
  clean : (∀ q ∈ s.keys.data ++ s.keys.kek, q.2.state ≠ .bad) → t.keys = {}

theorem kept_shadow (r : ToolRest) (item : Nat) : r.kept.shadowBad.contains (5, item) = false := by
  rw [Bool.eq_false_iff]
  intro h
  have hmem := (List.mem_filter.mp (List.contains_iff_mem.mp h)).2
  exact absurd hmem (show ¬ ([1, 2, 3, 6] : List Nat).contains 5 = true by decide)

theorem partOff_slot (s : State) (n : Nat) (h : (partOff s).slot n ≠ {}) : (partOff s).slot n = { state := .bad } := by
  have hslot : (partOff s).slot n = if 0x8000 ≤ n then Tab.get (keysLeft (zeroizeDone s)).kek (n % 256) {} else Tab.get (keysLeft (zeroizeDone s)).data n {} :=
    if_neg (by rw [show (partOff s).shadow 5 (slotItem n) = false from kept_shadow (zeroizeDone s).rest (slotItem n)]; exact Bool.false_ne_true)
  rw [hslot] at h ⊢
  split at h
  · next hkek =>
    rw [if_pos hkek]
    exact mem_slotStaysBad (Tab.mem_of_get_ne h)
  · next hdata =>
    rw [if_neg hdata]
    exact mem_slotStaysBad (Tab.mem_of_get_ne h)

theorem partOff_gone (s : State) : PartGone s (partOff s) := by
  obtain ⟨hrest, -, hkeys, -, -⟩ := zeroizeDone_spec s
  refine ⟨?_, ?_, ?_, ?_, rfl, rfl, rfl, partOff_slot s, fun hclean => ?_⟩
  · exact (congrArg ToolRest.state hrest :)
  · exact (congrArg ToolRest.ring hrest :)
  · exact (congrArg ToolRest.lockSeq hrest :)
  · exact (congrArg ToolRest.monotonic hrest :)
  · rw [partOff_keys]
    unfold keysLeft
    rw [hkeys, slotStaysBad_none fun q hq => hclean q (List.mem_append_left _ hq), slotStaysBad_none fun q hq => hclean q (List.mem_append_right _ hq)]

theorem PartGone.toVbat {s t : State} (h : PartGone s t) : PartGone s (toVbat t) :=
  ⟨h.state, h.ring, h.lockSeq, h.monotonic, h.path, h.mpu, h.keys, h.slot, h.clean⟩

/-- A change of the power state alone leaves what a part that is off has kept. -/
theorem PartGone.power {s t : State} (h : PartGone s t) (p : Power) : PartGone s { t with power := p } :=
  ⟨h.state, h.ring, h.lockSeq, h.monotonic, h.path, h.mpu, h.keys, h.slot, h.clean⟩

theorem PartGone.of_rest {s u t : State} (h : PartGone u t) (hrest : u.rest = s.rest) (hkeys : u.keys = s.keys) : PartGone s t := by
  obtain ⟨hstate, hring, hseq, hmono, hpath, hmpu, hframe, hslot, hclean⟩ := h
  rw [hrest] at hstate hring hseq hmono
  rw [hkeys] at hclean
  exact ⟨hstate, hring, hseq, hmono, hpath, hmpu, hframe, hslot, hclean⟩

theorem partOff_sensors (s : State) : (partOff s).rest.sensors = s.rest.sensors := (congrArg ToolRest.sensors (zeroizeDone_spec s).1 :)
theorem partOff_onVbat (s : State) : (partOff s).rest.onVbat = s.rest.onVbat := (congrArg ToolRest.onVbat (zeroizeDone_spec s).1 :)

/-- On VBAT the sensors of main power lapse, and the others stay (R393). -/
theorem toVbat_sensor (s : State) (n : Nat) : (toVbat (partOff s)).sensor n = if n < 8 then s.sensor n else {} := by
  refine (Tab.get_filter_key (fun n => decide (n < 8)) n {} (partOff s).rest.sensors).trans ?_
  rw [partOff_sensors]
  simp [State.sensor]

/-! ## Resets -/

theorem resetTaken_power {s : State} (h : s.power.pwrgood = true) : resetTaken true s = toVbat (partOff s) := by
  unfold resetTaken
  rw [h]
  rfl

/-- RESET_N asserted. -/
def resetHeld (s : State) : State := { s with power := { s.power with resetN := true } }

/-- The part in reset by its pin. -/
def pinReset (s : State) : State := { partOff (resetHeld s) with power := { (partOff (resetHeld s)).power with lastCause := 1 } }

theorem resetTaken_pin {s : State} (hn : s.power.resetN = false) (h : s.power.pwrgood = true) : resetTaken false s = pinReset s := by
  have heq : resetTaken false s = if s.power.resetN then s else if s.power.pwrgood then pinReset s else resetHeld s := rfl
  rw [heq, hn, h]
  rfl

theorem pinReset_gone (s : State) : PartGone s (pinReset s) := ((partOff_gone (resetHeld s)).power _).of_rest rfl rfl

/-- A cold reset that acts at cycle `c`, its RESET_N held for `d` cycles. -/
def coldReset (c d : Nat) (s : State) : State :=
  { partOff (waitCycle c s) with power := { (partOff (waitCycle c s)).power with resetN := true, lastCause := 2, coldAt := some ((partOff (waitCycle c s)).time.cycles + d) } }

theorem coldTaken_due {c : Nat} {s : State} (hcold : s.power.coldAt = some c) (hstart : s.power.start ≠ .off) : coldTaken s = coldReset c (cyclesUs 1000) s := by
  unfold coldTaken coldReset
  generalize cyclesUs 1000 = d
  rw [hcold]
  exact if_neg (by simpa using hstart)

theorem coldReset_spec (c d : Nat) (s : State) : c ≤ (coldReset c d s).time.cycles ∧ (coldReset c d s).power.start = .off ∧ (coldReset c d s).power.resetN = true ∧
    (coldReset c d s).power.lastCause = 2 ∧ (coldReset c d s).power.coldAt = some ((coldReset c d s).time.cycles + d) ∧ (coldReset c d s).rest.ring = s.rest.ring := by
  have hpower := partOff_power (waitCycle c s)
  have hcycles := partOff_cycles (waitCycle c s)
  have hring := (partOff_gone (waitCycle c s)).ring
  unfold coldReset
  generalize partOff (waitCycle c s) = t at *
  refine ⟨?_, ?_, rfl, rfl, rfl, hring⟩
  · show c ≤ t.time.cycles
    rw [hcycles]
    exact (waitCycle_cycles c s).1
  · show t.power.start = _
    rw [hpower]
    rfl

theorem coldTaken_none {s : State} (h : s.power.coldAt = none ∨ s.power.start = .off) : coldTaken s = s := by
  unfold coldTaken
  generalize cyclesUs 1000 = d
  rcases h with h | h
  · rw [h]
  · split
    · rfl
    · exact if_pos (by rw [h]; rfl)

theorem supplyLost_of_on {s : State} (h : s.power.pwrgood = true) (hstart : s.power.start ≠ .off) : supplyLost s = partOff s :=
  if_pos (by simp [h, hstart])

theorem supplyLost_of_off {s : State} (h : s.power.pwrgood = false ∨ s.power.start = .off) : supplyLost s = s := by
  refine if_neg ?_
  rcases h with h | h
  · simp [h]
  · simp [h]

end Sys2Proof.Machine

/-! Power good (R395, R408, R485): what the beginning of start-up keeps of the part, and with it obligation O47. -/
namespace Sys2Proof.Machine

/-! ## What the log and the keys' start leave -/

/-- What `P` reads shows nothing of the rings, of what leaves the part, of the key unit, of the generator, and of the tool rest at most its supply, its
seconds and its BBK. -/
structure RestBlind {β : Type} (P : State → β) : Prop where
  rest : ∀ s x, x.onVbat = s.rest.onVbat → x.seconds = s.rest.seconds → x.bbk = s.rest.bbk → P { s with rest := x } = P s
  post : ∀ e s, P (post e s) = P s
  keys : ∀ s x, P { s with keys := x } = P s
  rng : ∀ s x, P { s with rng := x } = P s

section
variable {β : Type} {P : State → β} (h : RestBlind P)
include h

theorem RestBlind.raiseAlarm (n : Nat) (s : State) : P (raiseAlarm n s) = P s := by
  unfold Machine.raiseAlarm
  dsimp only
  split
  · exact h.rest _ _ rfl rfl rfl
  · split
    · exact h.rest _ _ rfl rfl rfl
    · exact h.rest _ _ rfl rfl rfl

theorem RestBlind.logStops (s : State) : P (logStops s) = P s := by
  unfold Machine.logStops setAlarm
  split
  · exact (h.raiseAlarm 22 _).trans (h.rest s _ rfl rfl rfl)
  · rfl

theorem RestBlind.logEntry (type source : Nat) (detail : Octets) (s : State) : P (logEntry type source detail s) = P s := by
  have hafter (s : State) : P (logAfter s) = P s := by
    unfold logAfter exportEvent
    rw [h.logStops]
    split
    · exact (h.post _ _).trans (h.rest s _ rfl rfl rfl)
    · rfl
  have happend (s : State) : P (logAppend type source detail s) = P s := by
    unfold logAppend tamperCount
    dsimp only
    exact h.rest s _ rfl rfl rfl
  unfold Machine.logEntry logForce
  split
  · split
    · exact ((hafter _).trans (happend _)).trans (h.rest s _ rfl rfl rfl)
    · split
      · exact h.rest s _ rfl rfl rfl
      · exact (h.logStops _).trans (h.rest s _ rfl rfl rfl)
  · exact h.rest s _ rfl rfl rfl

theorem RestBlind.tamperCount (i : Nat) (s : State) : P (tamperCount i s) = P s := h.rest s _ rfl rfl rfl

theorem RestBlind.unownedUnlock (s : State) : P (unownedUnlock s) = P s := by
  unfold Machine.unownedUnlock
  split
  · rfl
  · rw [h.tamperCount, h.logEntry]
    exact h.rest s _ rfl rfl rfl

theorem RestBlind.alertsShow (s : State) : P (alertsShow s) = P s := by
  unfold Machine.alertsShow
  dsimp only
  exact (keep (P := P) fun t q => h.post _ t).trans (h.rest s _ rfl rfl rfl)

theorem RestBlind.rngAsk (w : Consumer) (c : Nat) (s : State) : P (rngAsk w c s) = P s := h.rng s _

theorem RestBlind.newChallenge (s : State) : P (newChallenge s) = P s := by
  unfold Machine.newChallenge
  split
  · next o u hu => exact (h.rest u { u.rest with challenge := o } rfl rfl rfl).trans (rngDraw_keep P h.rng 32 s _ hu)
  · exact h.rngAsk _ _ s

theorem RestBlind.kekLost (n : Nat) (s : State) : P (kekLost n s) = P s := by
  unfold Machine.kekLost
  rw [keyEvent_keep P h.keys, h.post]
  exact h.rest s _ rfl rfl rfl

theorem RestBlind.keksStart (s : State) : P (keksStart s) = P s := by
  have hrestore (n : Nat) (w : Octets) (s : State) : P (kekRestore n w s) = P s := by
    unfold kekRestore
    dsimp only
    split
    · rfl
    · split
      · exact h.kekLost n s
      · split
        · exact updSlot_keep P h.keys _ _ s
        · exact h.kekLost n s
  unfold Machine.keksStart
  split
  · unfold kekAreaLost
    dsimp only
    rw [h.rngAsk]
    split
    · exact h.rest s _ rfl rfl rfl
    · rw [keyEvent_keep P h.keys, h.post]
      exact h.rest s _ rfl rfl rfl
  · next b hb =>
    have hall (s : State) : P (keksRestore s) = P s := keep (P := P) fun t q => hrestore q.1 q.2 t
    generalize kdf frk "LLX SRK" (beBytes 32 b.toNat) 256 = o
    exact (hall _).trans (h.keys s _)

end

/-! ## What start-up keeps -/

/-- What the beginning of start-up has decided: the start, the pins, the reference, the supply of the tool rest, its seconds and the clock. -/
def begun (s : State) : Start × Bool × Bool × Nat × List Drain × Bool × BitVec 40 × Nat :=
  (s.power.start, s.power.pwrgood, s.power.resetN, s.power.ref, s.power.drains, s.rest.onVbat, s.rest.seconds, s.time.cycles)

/-- The parts that start from their reset values, and the BBK. -/
def blank (s : State) : Path × Otn × Classifier × Mpu × Option W256 := (s.path, { s.otn with pm := [] }, s.cls, s.mpu, s.rest.bbk)

theorem begun_restBlind : RestBlind begun where
  rest s x hvbat hseconds _ := by unfold begun; dsimp only; rw [hvbat, hseconds]
  post e s := by
    have hpower : (post e s).power = s.power := by simp
    have hrest : (post e s).rest = s.rest := by simp
    have htime : (post e s).time = s.time := by simp
    unfold begun
    rw [hpower, hrest, htime]
  keys _ _ := rfl
  rng _ _ := rfl

theorem blank_restBlind : RestBlind blank where
  rest s x _ _ hbbk := by unfold blank; dsimp only; rw [hbbk]
  post e s := post_keep blank (fun _ _ _ => rfl) e s
  keys _ _ := rfl
  rng _ _ := rfl

/-! ## A zeroization found at start-up (R403) -/

theorem begun_drains {s t : State} (h : begun t = begun s) : t.power.drains = s.power.drains := by
  simp only [begun, Prod.mk.injEq] at h
  exact h.2.2.2.2.1

/-- The rows of R275 taken, but for the drains that end. -/
def memoryErased (s : State) : State :=
  let s := zeroizeKeks (zeroizeKeys (rotationStop (spindlesStop s)))
  let s := voidFrames (fun _ => true) { s with path := { s.path with frames := s.path.frames.filter (fun q => q.2.stage != .receiving), banks := [] } }
  memoryZeroized (masksClear (rngZeroize (sessionsZeroized (playLost ((pdsOf (List.range 32)).foldl (fun s p => egressLost p s) s)))))

/-- Every drain ended, the zeroization in progress. -/
def drainsOver (s : State) : State :=
  let s := s.power.drains.foldl (fun s d => drainReset d s) s
  { s with rest := { s.rest with zeroizing := true } }

theorem begun_zeroizeWhole {s : State} (hrotation : s.fab.rotation = none) (hdrains : s.power.drains = []) : begun (zeroizeWhole s) = begun s := by
  have hstop : rotationStop (spindlesStop s) = spindlesStop s := by
    unfold rotationStop
    rw [show (spindlesStop s).fab.rotation = none from hrotation]
  have hvoid (s : State) : begun (voidFrames (fun _ => true) s) = begun s := voidFrames_keep begun (fun _ _ _ _ _ _ _ => rfl) _ s
  have hlost (s : State) : begun ((pdsOf (List.range 32)).foldl (fun s p => egressLost p s) s) = begun s :=
    keep (P := begun) fun t p => egressLost_keep begun (fun _ _ _ _ _ => rfl) p t
  have hplay (s : State) : begun (playLost s) = begun s := playLost_keep begun (fun _ _ _ _ => rfl) s
  have hsessions (s : State) : begun (sessionsZeroized s) = begun s := rfl
  have hframes (s : State) (x : Path) : begun { s with path := x } = begun s := rfl
  have hrng (s : State) : begun (rngZeroize s) = begun s := rngZeroize_keep begun (fun _ _ _ => rfl) s
  have hmemory (s : State) : begun (memoryZeroized s) = begun s := memoryZeroized_keep begun (fun _ _ _ _ _ => rfl) s
  have hmasks (s : State) : begun (masksClear s) = begun s := rfl
  have hkeks (s : State) : begun (zeroizeKeks (zeroizeKeys s)) = begun s := rfl
  have hcleared : begun (memoryErased s) = begun s := by
    unfold memoryErased
    rw [hstop, hmemory, hmasks, hrng, hsessions, hplay, hlost, hvoid, hframes, hkeks]
    exact spindlesStop_keep begun (fun _ _ _ _ _ _ _ => rfl) s
  have hnone : (memoryErased s).power.drains = [] := ((begun_drains hcleared).trans hdrains)
  have heq : zeroizeWhole s = drainsOver (memoryErased s) := by
    unfold zeroizeWhole memoryErased
    dsimp only
    generalize memoryZeroized _ = u
    rfl
  have hover : begun (drainsOver (memoryErased s)) = begun (memoryErased s) := by
    generalize memoryErased s = u at *
    unfold drainsOver
    rw [hnone]
    rfl
  rw [heq, hover, hcleared]

theorem begun_debugOff (s : State) : begun (debugOff s) = begun s := by
  unfold debugOff
  split
  · exact begun_restBlind.logEntry 0x0070 0xFF [0] (setDomain 78 0 s)
  · rfl

/-- The tamper state `next` entered, or Zeroized kept, with the next lock sequence number. -/
def lockMarked (next : TamperState) (s : State) : State :=
  let st := match s.rest.state, next with
    | .zeroized, _ => TamperState.zeroized
    | _, t => t
  { s with rest := { s.rest with state := st, lockSeq := s.rest.lockSeq + 1 } }

/-- The lock's log entry, and which it is. -/
def lockNoted (s : State) : State :=
  let n := s.unexported
  let s := logEntry 0x0020 0xFF (beBytes 4 s.rest.lockSeq.toNat) s
  if s.unexported = n then s else { s with rest := { s.rest with lockEntry := s.rest.headSeq } }

/-- A new challenge on main power. -/
def challengeRenewed (s : State) : State := if s.rest.onVbat then s else newChallenge s

theorem lockNow_eq (next : TamperState) (s : State) : lockNow next s = challengeRenewed (debugOff (tamperCount 1 (lockNoted (lockMarked next s)))) := rfl

theorem begun_lockNow (next : TamperState) (s : State) : begun (lockNow next s) = begun s := by
  have hmarked : begun (lockMarked next s) = begun s := rfl
  have hnoted (s : State) : begun (lockNoted s) = begun s := by
    unfold lockNoted
    dsimp only
    split
    · exact begun_restBlind.logEntry ..
    · exact begun_restBlind.logEntry 0x0020 0xFF (beBytes 4 s.rest.lockSeq.toNat) s
  have hrenewed (s : State) : begun (challengeRenewed s) = begun s := by
    unfold challengeRenewed
    split
    · rfl
    · exact begun_restBlind.newChallenge s
  rw [lockNow_eq, hrenewed, begun_debugOff, begun_restBlind.tamperCount, hnoted, hmarked]

theorem begun_pinZeroize {s : State} (hrotation : s.fab.rotation = none) (hdrains : s.power.drains = []) : begun (pinZeroize s) = begun s := by
  unfold pinZeroize logZeroize
  dsimp only
  rw [begun_lockNow, begun_restBlind.logEntry, begun_zeroizeWhole hrotation hdrains]

end Sys2Proof.Machine

/-! The beginning of start-up (R485), and with it obligation O47. -/
namespace Sys2Proof.Machine

/-! ## The stages of start-up -/

/-- Init entered, with the reference at this cycle and the time unit at `t`. -/
def initEntered (t : Nat) (s : State) : State :=
  { s with
    power := { s.power with start := .init, ref := s.time.cycles, resetCounts := s.power.resetCounts.bump s.power.lastCause 1 }
    time := { s.time with t48 := t } }

/-- Init entered, the time unit taking over the tool rest's seconds. -/
def initBegun (s : State) : State := binsBegin (initEntered (s.rest.seconds.toNat * 10 ^ 9 * 2 ^ 48) s)

/-- The start logged, an Unowned part unlocked, and the alerts of VBAT shown. -/
def startLogged (s : State) : State :=
  alertsShow (unownedUnlock (logEntry 0x0040 0xFF [BitVec.ofNat 8 s.rest.state.code, BitVec.ofNat 8 (bit s.rest.sramLost + 2 * bit (!s.rest.pendingAlert.isEmpty))] s))

/-- A pin ZEROIZE_N found asserted is acted on; else there is a new challenge. -/
def pinTaken (s : State) : State :=
  if s.power.zeroizeN && !s.rest.pinActed then pinZeroize { s with rest := { s.rest with pinActed := true } } else newChallenge s

/-- The start's flags, the slot-check key asked for, and the keys' start. -/
def keysBegun (s : State) : State :=
  let flags := 2 * bit s.locked + 4 * bit (s.rest.state == .zeroized)
  keksStart (rngAsk .slotCheck 2 { s with power := { s.power with startFlags := flags } })

theorem startBegin_eq (s : State) : startBegin s = keysBegun (pinTaken (startLogged (initBegun (partOff s)))) := by
  unfold startBegin initBegun initEntered
  generalize partOff s = u
  dsimp only
  generalize binsBegin _ = v
  unfold startLogged
  generalize alertsShow _ = w
  unfold pinTaken
  dsimp only
  split
  · generalize pinZeroize _ = x
    rfl
  · generalize newChallenge w = x
    rfl

theorem blank_bins {pm : Tab PmEnt} (s : State) : blank { s with otn := { s.otn with pm := pm } } = blank s := rfl

theorem binsBegin_spec (s : State) : begun (binsBegin s) = begun s ∧ blank (binsBegin s) = blank s ∧ (binsBegin s).fab = s.fab ∧ (binsBegin s).power = s.power := by
  refine ⟨binsBegin_keep begun (fun _ _ => rfl) s, ?_, binsBegin_keep State.fab (fun _ _ => rfl) s, binsBegin_keep State.power (fun _ _ => rfl) s⟩
  unfold binsBegin
  dsimp only
  split
  · rfl
  · exact blank_bins s

theorem begun_initEntered (t : Nat) (s : State) : begun (initEntered t s) =
    (.init, s.power.pwrgood, s.power.resetN, s.time.cycles, s.power.drains, s.rest.onVbat, s.rest.seconds, s.time.cycles) := rfl

theorem begun_initBegun (s : State) : begun (initBegun s) =
    (.init, s.power.pwrgood, s.power.resetN, s.time.cycles, s.power.drains, s.rest.onVbat, s.rest.seconds, s.time.cycles) :=
  (binsBegin_spec _).1.trans (begun_initEntered _ s)

theorem initEntered_keeps (t : Nat) (s : State) : blank (initEntered t s) = blank s ∧ (initEntered t s).fab = s.fab ∧
    (initEntered t s).power.zeroizeN = s.power.zeroizeN := ⟨rfl, rfl, rfl⟩

theorem initBegun_keeps (s : State) : blank (initBegun s) = blank s ∧ (initBegun s).fab = s.fab ∧ (initBegun s).power.zeroizeN = s.power.zeroizeN := by
  unfold initBegun
  generalize s.rest.seconds.toNat * 10 ^ 9 * 2 ^ 48 = t
  obtain ⟨-, hblank, hfab, hpower⟩ := binsBegin_spec (initEntered t s)
  obtain ⟨hblank', hfab', hpin⟩ := initEntered_keeps t s
  exact ⟨hblank.trans hblank', hfab.trans hfab', (congrArg Power.zeroizeN hpower).trans hpin⟩

theorem RestBlind.startLogged {β : Type} {P : State → β} (h : RestBlind P) (s : State) : P (startLogged s) = P s := by
  unfold Machine.startLogged
  rw [h.alertsShow, h.unownedUnlock, h.logEntry]

theorem startLogged_keeps (s : State) : (startLogged s).fab = s.fab ∧ (startLogged s).power = s.power := by
  have hkeep {β : Type} (P : State → β) (hP : ∀ s x0 x1 x2, P { s with host := x0, rest := x1, out := x2 } = P s) : P (startLogged s) = P s := by
    unfold startLogged
    rw [alertsShow_keep P hP, unownedUnlock_keep P hP, logEntry_keep P hP]
  exact ⟨hkeep State.fab fun _ _ _ _ => rfl, hkeep State.power fun _ _ _ _ => rfl⟩

theorem begun_pinTaken {s : State} (hrotation : s.fab.rotation = none) (hdrains : s.power.drains = []) : begun (pinTaken s) = begun s := by
  unfold pinTaken
  split
  · exact begun_pinZeroize hrotation hdrains
  · exact begun_restBlind.newChallenge s

theorem begun_keysBegun (s : State) : begun (keysBegun s) = begun s := by
  unfold keysBegun
  dsimp only
  rw [begun_restBlind.keksStart, begun_restBlind.rngAsk]
  rfl

theorem blank_keysBegun (s : State) : blank (keysBegun s) = blank s := by
  unfold keysBegun
  dsimp only
  rw [blank_restBlind.keksStart, blank_restBlind.rngAsk]
  rfl

/-- What the beginning of start-up has decided. -/
theorem begun_startBegin (s : State) : begun (startBegin s) =
    (.init, s.power.pwrgood, s.power.resetN, s.time.cycles, [], s.rest.onVbat, s.rest.seconds, s.time.cycles) := by
  have hbegun := begun_initBegun (partOff s)
  have hrotation : (initBegun (partOff s)).fab.rotation = none := congrArg Fabric.rotation (initBegun_keeps (partOff s)).2.1
  have hdrains : (initBegun (partOff s)).power.drains = [] := by
    simp only [begun, Prod.mk.injEq] at hbegun
    exact hbegun.2.2.2.2.1.trans (congrArg Power.drains (partOff_power s))
  have hlogged := begun_restBlind.startLogged (initBegun (partOff s))
  obtain ⟨hfab, hpower⟩ := startLogged_keeps (initBegun (partOff s))
  have hseconds : (partOff s).rest.seconds = s.rest.seconds := (congrArg ToolRest.seconds (zeroizeDone_spec s).1 :)
  rw [startBegin_eq, begun_keysBegun, begun_pinTaken (by rw [hfab, hrotation]) (by rw [hpower, hdrains]), hlogged, hbegun, partOff_power, partOff_cycles,
    partOff_onVbat, hseconds]
  rfl

/-- With the pin ZEROIZE_N deasserted the frame path, the OTN side, classification and memory protection start from their reset values, and the BBK stays. -/
theorem blank_startBegin {s : State} (h : s.power.zeroizeN = false) : blank (startBegin s) = ({}, {}, {}, {}, s.rest.bbk) := by
  obtain ⟨hblank, -, hpin⟩ := initBegun_keeps (partOff s)
  have hlogged := blank_restBlind.startLogged (initBegun (partOff s))
  have hpower := (startLogged_keeps (initBegun (partOff s))).2
  have hoff : (partOff s).power.zeroizeN = false := by rw [partOff_power]; exact h
  have hbbk : (partOff s).rest.bbk = s.rest.bbk := (congrArg ToolRest.bbk (zeroizeDone_spec s).1 :)
  have htaken : pinTaken (startLogged (initBegun (partOff s))) = newChallenge (startLogged (initBegun (partOff s))) :=
    if_neg (by rw [hpower, hpin, hoff]; exact Bool.false_ne_true)
  rw [startBegin_eq, blank_keysBegun, htaken, blank_restBlind.newChallenge, hlogged, hblank, ← hbbk]
  rfl

/-! ## Power good -/

/-- The part with PWRGOOD asserted. -/
def powerUp (s : State) : State := { s with power := { s.power with pwrgood := true } }

theorem powerGood_rise {i : Bool} {s : State} (h : s.power.pwrgood = false) :
    powerGood false i s = if (toMain i (powerUp s)).power.resetN then toMain i (powerUp s) else startBegin (toMain i (powerUp s)) := by
  unfold powerGood
  rw [if_neg Bool.false_ne_true, if_neg (by rw [h]; exact Bool.false_ne_true)]
  unfold powerUp
  dsimp only

/-- SRAM kept over the change of supply. -/
def sramKept (d : Nat) (s : State) : State := { s with rest := { s.rest with onVbat := false, maskUntil := s.time.cycles + d, sramLost := false } }

/-- SRAM lost: no BBK, no valid seconds counter, and open values where the counter and the crystal's were. -/
def sramGone (d seconds crystal : Nat) (s : State) : State :=
  { s with
    free := s.free + 1 + 1
    rest := { s.rest with
      onVbat := false, maskUntil := s.time.cycles + d, sramLost := true, bbk := none, secValid := false, seconds := BitVec.ofNat 40 seconds, crystal := crystal } }

theorem toMain_true (s : State) : ∃ d, toMain true s = sramKept d s := by
  refine ⟨cyclesUs 10000, ?_⟩
  unfold toMain
  generalize cyclesUs 10000 = d
  rfl

theorem toMain_false (s : State) : ∃ d seconds crystal, toMain false s = raiseAlarm 8 (setAlarm 8 true (sramGone d seconds crystal s)) := by
  refine ⟨cyclesUs 10000, Config.freeWord s.free, Config.freeWord (s.free + 1) % 32768, ?_⟩
  unfold toMain sramGone openValue
  generalize cyclesUs 10000 = d
  rfl

theorem window_raiseAlarm {n : Nat} {s : State} (h : s.rest.zeroizing = false) : ∃ w, raiseAlarm n s = { s with rest := { s.rest with window := some w } } ∧ n ∈ w.2 := by
  unfold raiseAlarm
  dsimp only
  rw [h, if_neg Bool.false_ne_true]
  split
  · exact ⟨_, rfl, List.mem_singleton_self n⟩
  · exact ⟨_, rfl, List.mem_append_right _ (List.mem_singleton_self n)⟩

/-- The cold reset's delay, where one runs, has passed. -/
def coldPassed (s : State) : State := match s.power.coldAt with | some c => waitCycle c s | none => s

/-- RESET_N deasserted. -/
def resetReleased (s : State) : State := { s with power := { s.power with resetN := false } }

theorem coldPassed_spec (s : State) : (coldPassed s).power = s.power ∧ ∀ c, s.power.coldAt = some c → c ≤ (coldPassed s).time.cycles := by
  unfold coldPassed
  split
  · next c hc =>
    refine ⟨rfl, fun c' hc' => ?_⟩
    rw [hc] at hc'
    rw [← Option.some.inj hc']
    exact (waitCycle_cycles c s).1
  · next hc => exact ⟨rfl, fun c' hc' => by rw [hc] at hc'; exact absurd hc' (by simp)⟩

theorem powerGood_release {i : Bool} {s : State} (hn : s.power.resetN = true) (hup : s.power.pwrgood = true) : powerGood true i s =
    startBegin { resetReleased (coldPassed s) with rest := { (resetReleased (coldPassed s)).rest with sramLost := false } } := by
  have heq : powerGood true i s = if !s.power.resetN then s
      else if (resetReleased (coldPassed s)).power.pwrgood then
        startBegin { resetReleased (coldPassed s) with rest := { (resetReleased (coldPassed s)).rest with sramLost := false } }
      else resetReleased (coldPassed s) := rfl
  rw [heq, hn, if_neg (by decide)]
  refine if_pos ?_
  show (coldPassed s).power.pwrgood = true
  rw [(coldPassed_spec s).1, hup]

/-! ## What has already happened -/

theorem powerGood_released {i : Bool} {s : State} (h : s.power.resetN = false) : powerGood true i s = s := by
  unfold powerGood
  rw [if_pos rfl]
  exact if_pos (by rw [h]; rfl)

theorem powerGood_risen {i : Bool} {s : State} (h : s.power.pwrgood = true) : powerGood false i s = s := by
  unfold powerGood
  rw [if_neg Bool.false_ne_true]
  exact if_pos h

theorem resetTaken_fallen {s : State} (h : s.power.pwrgood = false) : resetTaken true s = s := by
  unfold resetTaken
  rw [if_pos rfl]
  exact if_neg (by rw [h]; exact Bool.false_ne_true)

theorem resetTaken_held {s : State} (h : s.power.resetN = true) : resetTaken false s = s := by
  unfold resetTaken
  rw [if_neg Bool.false_ne_true]
  exact if_pos h

/-! ## The obligation -/

/-- Settles O47: start-up through what each of its stages keeps, and the ways off through `PartGone`. -/
theorem thePartPowersUpAndDown : Obligations.ThePartPowersUpAndDown := by
  unfold Obligations.ThePartPowersUpAndDown
  refine ⟨?rise, ?held, ?release, ?already, ?fall, ?reset, ?alreadyOff, ?supply, ?supplyOff, ?cold, ?coldOff, ?thermtrip⟩
  case rise =>
    intro s hup hn
    have hexec := powerGood_rise (i := true) hup
    obtain ⟨d, hmain⟩ := toMain_true (powerUp s)
    rw [hmain] at hexec
    rw [if_neg (by rw [show (sramKept d (powerUp s)).power.resetN = false from hn]; exact Bool.false_ne_true)] at hexec
    have hbegun := begun_startBegin (sramKept d (powerUp s))
    have hblank := fun hz : (sramKept d (powerUp s)).power.zeroizeN = false => blank_startBegin hz
    generalize startBegin (sramKept d (powerUp s)) = t at *
    simp only [begun, Prod.mk.injEq] at hbegun
    obtain ⟨hstart, hgood, -, href, -, hvbat, hseconds, -⟩ := hbegun
    refine ⟨t, congrArg Host.Outcome.next hexec, hgood, hstart, href, hvbat, hseconds.symm, fun hz => ?_⟩
    have hparts := hblank hz
    simp only [blank, Prod.mk.injEq] at hparts
    exact hparts
  case held =>
    intro s hup hn hzero
    have hexec := powerGood_rise (i := false) hup
    obtain ⟨d, seconds, crystal, hmain⟩ := toMain_false (powerUp s)
    rw [hmain] at hexec
    obtain ⟨w, hraised, hmem⟩ := window_raiseAlarm (n := 8) (s := setAlarm 8 true (sramGone d seconds crystal (powerUp s))) hzero
    rw [hraised] at hexec
    refine ⟨_, congrArg Host.Outcome.next (hexec.trans (if_pos hn)), rfl, rfl, rfl, rfl, ?_, w.1, w.2, rfl, hmem⟩
    show (Tab.get (Tab.upd s.rest.sensors 8 {} fun x => { x with alarm := true }) 8 {}).alarm = true
    rw [Tab.get_upd_same]
  case release =>
    intro i s hn hup
    have hexec := powerGood_release (i := i) hn hup
    obtain ⟨-, hcold⟩ := coldPassed_spec s
    have hbegun := begun_startBegin { resetReleased (coldPassed s) with rest := { (resetReleased (coldPassed s)).rest with sramLost := false } }
    generalize startBegin { resetReleased (coldPassed s) with rest := { (resetReleased (coldPassed s)).rest with sramLost := false } } = t at *
    simp only [begun, Prod.mk.injEq] at hbegun
    obtain ⟨hstart, -, hreset, href, -, -, -, hcycles⟩ := hbegun
    refine ⟨t, congrArg Host.Outcome.next hexec, hreset, hstart, href.trans hcycles.symm, fun c hc => ?_⟩
    rw [hcycles]
    exact hcold c hc
  case already =>
    intro i s
    exact ⟨fun h => congrArg Host.Outcome.next (powerGood_released h), fun h => congrArg Host.Outcome.next (powerGood_risen h)⟩
  case fall =>
    intro s h
    obtain ⟨hstate, hring, hseq, hmono, hpath, hmpu, hkeys, hslot, hclean⟩ := (partOff_gone s).toVbat
    refine ⟨_, congrArg Host.Outcome.next (resetTaken_power h), rfl, ?_, rfl, fun n hn => ?_, fun n hn => ?_, hstate, hring, hseq, hmono, hpath, hmpu, hkeys, hslot, hclean⟩
    · exact congrArg Power.start (partOff_power s)
    · rw [toVbat_sensor, if_neg (by omega)]
    · rw [toVbat_sensor, if_pos hn]
  case reset =>
    intro s hn h
    obtain ⟨hstate, hring, hseq, hmono, hpath, hmpu, hkeys, hslot, hclean⟩ := pinReset_gone s
    refine ⟨_, congrArg Host.Outcome.next (resetTaken_pin hn h), ?_, ?_, rfl, partOff_onVbat (resetHeld s), hstate, hring, hseq, hmono, hpath, hmpu, hkeys, hslot, hclean⟩
    · exact congrArg Power.resetN (partOff_power (resetHeld s))
    · exact congrArg Power.start (partOff_power (resetHeld s))
  case alreadyOff =>
    intro s
    exact ⟨fun h => congrArg Host.Outcome.next (resetTaken_fallen h), fun h => congrArg Host.Outcome.next (resetTaken_held h)⟩
  case supply =>
    intro s h hstart
    obtain ⟨hstate, hring, -, -, hpath, hmpu, hkeys, hslot, hclean⟩ := partOff_gone s
    refine ⟨_, congrArg Host.Outcome.next (supplyLost_of_on h hstart), ?_, ?_, hstate, hring, hpath, hmpu, hkeys, hslot, hclean⟩
    · exact (congrArg Power.pwrgood (partOff_power s)).trans h
    · exact congrArg Power.start (partOff_power s)
  case supplyOff => exact fun s h => congrArg Host.Outcome.next (supplyLost_of_off h)
  case cold =>
    intro c s hcold hstart
    obtain ⟨hdue, hoff, hreset, hcause, hnext, hring⟩ := coldReset_spec c (cyclesUs 1000) s
    exact ⟨_, congrArg Host.Outcome.next (coldTaken_due hcold hstart), hdue, hoff, hreset, hcause, hnext, hring⟩
  case coldOff => exact fun s h => congrArg Host.Outcome.next (coldTaken_none h)
  case thermtrip => exact fun s => rfl

end Sys2Proof.Machine

/-! A commit of spindle commands alone (R230, R431): what its checks come to, and what it leaves. -/
namespace Sys2Proof.Machine

/-! ## A staging of spindle commands -/

/-- Every staged entry is a spindle command. -/
def SpindleOnly (st : Tab Octets) : Prop := ∀ q ∈ st, q.1 / 256 = 0x3005

/-- No value of the spindle commands is kept as written. -/
theorem spindleEntry_notPlain {sub : Nat} {e : Entry} (h : entryAt 0x3005 sub = some e) : plainEntry 0x3005 e = false := by
  have hlisted : dictAll.all (fun e => e.idx != 0x3005 || !plainEntry 0x3005 e) = true := by decide +kernel
  unfold entryAt at h
  split at h
  · split at h
    · exact absurd h (by simp)
    · rw [← Option.some.inj h]; rfl
  · rw [if_neg (by decide)] at h
    have hmem := List.all_eq_true.mp hlisted e (List.mem_of_find?_eq_some h)
    have hidx := List.find?_some h
    simp only [Bool.and_eq_true, beq_iff_eq, decide_eq_true_eq] at hidx
    rw [hidx.1.1] at hmem
    simpa using hmem

section
variable {st : Tab Octets} (h : SpindleOnly st)
include h

theorem SpindleOnly.find_none {key : Nat} (hk : key / 256 ≠ 0x3005) : st.find key = none :=
  Tab.find_none fun q hq he => hk (he ▸ h q hq)

/-- Nothing else is staged. -/
theorem SpindleOnly.stagedAt_none {idx sub : Nat} (hk : idx < 0x3005 ∧ sub < 256 ∨ 0x3006 ≤ idx) : stagedAt st idx sub = none :=
  h.find_none (by unfold odKey; omega)

theorem SpindleOnly.isStaged_none {idx sub : Nat} (hk : idx < 0x3005 ∧ sub < 256 ∨ 0x3006 ≤ idx) : isStaged st idx sub = false := by
  unfold isStaged; rw [h.stagedAt_none hk]; rfl

theorem SpindleOnly.stagedNat_none {idx sub : Nat} (hk : idx < 0x3005 ∧ sub < 256 ∨ 0x3006 ≤ idx) : stagedNat st idx sub = none := by
  unfold stagedNat; rw [h.stagedAt_none hk]; rfl

theorem SpindleOnly.imageWrites_none {idx sub : Nat} (hk : idx < 0x3005 ∧ sub < 256 ∨ 0x3006 ≤ idx) (base width : Nat) (same : Nat → Octets → Bool) :
    imageWrites idx sub base width same st = [] := by
  have hfind : st.find (odKey idx sub) = none := h.stagedAt_none hk
  unfold imageWrites
  rw [hfind]

theorem SpindleOnly.deltaWrites_none {idx sub : Nat} (hk : idx < 0x3005 ∧ sub < 256 ∨ 0x3006 ≤ idx) (width : Nat) : deltaWrites idx sub width st = [] := by
  have hfind : st.find (odKey idx sub) = none := h.stagedAt_none hk
  unfold deltaWrites
  rw [hfind]

theorem SpindleOnly.stagedIn_none {lo hi : Nat} (hr : hi ≤ 0x3005 ∨ 0x3006 ≤ lo) : stagedIn st lo hi = false := by
  unfold stagedIn
  rw [List.any_eq_false]
  intro q hq
  rw [h q hq]
  simp only [Bool.and_eq_true, decide_eq_true_eq, not_and, not_lt]
  omega

/-! ### The tables that the staging does not write -/

theorem SpindleOnly.scWrites (s : State) : scWrites s st = [] := by
  unfold Machine.scWrites; rw [h.imageWrites_none (by decide), h.deltaWrites_none (by decide)]; rfl

theorem SpindleOnly.tribWrites (s : State) : tribWrites s st = [] := by
  unfold Machine.tribWrites; rw [h.imageWrites_none (by decide), h.deltaWrites_none (by decide)]; rfl

theorem SpindleOnly.saWrites (s : State) : saWrites s st = [] := by
  unfold Machine.saWrites; dsimp only; rw [h.imageWrites_none (by decide), h.imageWrites_none (by decide), h.deltaWrites_none (by decide)]; rfl

theorem SpindleOnly.rollScWrites (s : State) : rollScWrites s st = [] := by
  unfold Machine.rollScWrites; rw [h.imageWrites_none (by decide), h.deltaWrites_none (by decide)]; rfl

theorem SpindleOnly.rollTribWrites (s : State) : rollTribWrites s st = [] := by
  unfold Machine.rollTribWrites; rw [h.imageWrites_none (by decide), h.deltaWrites_none (by decide)]; rfl

theorem SpindleOnly.policerWrites (s : State) : policerWrites s st = [] := by
  unfold Machine.policerWrites; dsimp only; rw [h.imageWrites_none (by decide), h.imageWrites_none (by decide)]; rfl

theorem SpindleOnly.queueWrites (s : State) : queueWrites s st = [] := by
  unfold Machine.queueWrites
  dsimp only
  rw [h.stagedAt_none (by decide), List.map_congr_left (g := fun _ => []) fun g _ => h.imageWrites_none (.inr (by decide)) _ _ _]
  rfl

theorem SpindleOnly.slotsStaged : slotsStaged st = [] :=
  List.filter_eq_nil_iff.mpr fun i _ => by rw [h.isStaged_none (.inr (by decide))]; exact Bool.false_ne_true

/-! ### The checks (R431 step 3) -/

theorem SpindleOnly.candidate (k : Nat) (s : State) : candidate k st s = s := by
  have hput : putPlains st s = s := foldl_same _ _ s fun q hq => by
    unfold putPlain
    dsimp only
    rw [h q hq]
    split
    · rfl
    · next e he => rw [spindleEntry_notPlain he]; rfl
  unfold Machine.candidate slotWriteAll
  dsimp only
  rw [hput, h.slotsStaged, h.policerWrites, h.queueWrites, h.tribWrites, h.scWrites]
  rfl

theorem SpindleOnly.pinRefusals (s : State) : pinRefusals s st = [] := by
  unfold Machine.pinRefusals
  split
  · rfl
  · dsimp only
    rw [h.isStaged_none (idx := 0x3410) (by decide), h.isStaged_none (idx := 0x3421) (by decide), h.isStaged_none (idx := 0x3422) (by decide),
      h.isStaged_none (idx := 0x3450) (sub := 1) (by decide), h.isStaged_none (idx := 0x3450) (sub := 2) (by decide), h.rollScWrites, h.rollTribWrites]
    rfl

theorem SpindleOnly.keyRange (s c : State) (ck : ChuckRun) : keyRange s c st ck =
    { fails := if s.locked then tableFailures c else keyFailures s c [] st, base := s, cand := c, run := { s := c, b := s, ck := ck } } := by
  have hstores : storeFailures s st = [] := by
    unfold storeFailures; dsimp only; rw [h.stagedAt_none (sub := 1) (by decide), h.stagedAt_none (sub := 2) (by decide)]; rfl
  have hput : storesPut st c = c := by
    unfold storesPut; dsimp only; rw [h.stagedAt_none (sub := 1) (by decide), h.stagedAt_none (sub := 2) (by decide)]; rfl
  have htables : keyTablesPut s st c = c := by unfold keyTablesPut; rw [h.saWrites, h.rollScWrites, h.rollTribWrites]; rfl
  have hrun : keyCommands 1 [] { s := c, b := s, ck := ck } = { s := c, b := s, ck := ck } := rfl
  unfold Machine.keyRange
  dsimp only
  rw [h.pinRefusals, hstores, h.stagedAt_none (by decide), hput]
  simp only [List.isEmpty_nil, Bool.not_true, Bool.false_eq_true, if_false, Option.getD_none, List.length_nil, Nat.zero_add, hrun, htables]
  split
  · rfl
  · cases hk : keyFailures s c [] st with
    | nil => rfl
    | cons q l => rfl

theorem SpindleOnly.checkCommit (k : Nat) (ck : ChuckRun) (s : State) : checkCommit k st ck [] s =
    { fails := (if s.locked then tableFailures s else keyFailures s s [] st) ++ (checkFailures s s k st (rulesAfter s st) ++ []),
      base := s, cand := s, run := { s := s, b := s, ck := ck } } := by
  have henroll (x : Checked) : enrollChecked st x = x := by
    unfold enrollChecked; rw [h.stagedAt_none (sub := 1) (by decide), h.stagedAt_none (sub := 3) (by decide)]
  have howner (x : Checked) : ownerChecked k st s x = x := by unfold ownerChecked; rw [h.stagedAt_none (by decide)]
  have htoken (idx sub : Nat) (hi : 0x3006 ≤ idx) (debug : Bool) (x : Checked) : tokenChecked idx sub debug st s x = x := by
    unfold tokenChecked; rw [h.stagedAt_none (.inr hi)]
  unfold Machine.checkCommit
  dsimp only
  rw [h.candidate, h.keyRange, henroll, howner, htoken _ _ (by decide), htoken _ _ (by decide)]
  rfl

end

theorem firstFailure_none {l : List (Nat × Nat)} (h : firstFailure l = none) : l = [] := by
  cases l with
  | nil => rfl
  | cons q l =>
    unfold firstFailure at h
    split at h
    · exact absurd h (by simp)
    · split at h <;> exact absurd h (by simp)

/-- A spindle command that passes its checks, alone in its staging, is one that the spindle's role allows. -/
theorem spindleCmdOk_of_passes {st : Tab Octets} {i code : Nat} {l : List Nat} {s : State} (hi : i ∈ l) (hst : stagedNat st 0x3005 (i + 1) = some code)
    (hothers : ∀ j ∈ l, j ≠ i → stagedNat st 0x3005 (j + 1) = none) (h : spindleFailures st l s = []) : spindleCmdOk s i code = true := by
  induction l with
  | nil => exact absurd hi List.not_mem_nil
  | cons j l ih =>
    unfold spindleFailures at h
    by_cases hj : j = i
    · subst hj
      rw [hst] at h
      dsimp only at h
      split at h
      · assumption
      · exact absurd h (by simp)
    · rw [hothers j List.mem_cons_self hj] at h
      exact ih ((List.mem_cons.mp hi).resolve_left fun he => hj he.symm) (fun k hk => hothers k (List.mem_cons_of_mem j hk)) h

/-! ## What the commit leaves -/

section
variable {st : Tab Octets} (h : SpindleOnly st)
include h

/-- The state at the apply instant: nothing but the generation and the key counters has changed. -/
def applyBegun (k : Nat) (st : Tab Octets) (ck : ChuckRun) (s : State) : State :=
  keysApply (checkCommit k st ck [] s).run { (checkCommit k st ck [] s).cand with
    ctl := { (checkCommit k st ck [] s).cand.ctl with generation := (checkCommit k st ck [] s).cand.ctl.generation + 1, applyAt := s.time.now } }

theorem SpindleOnly.applyBegun {β : Type} {P : State → β} (hP : ApplyBlind P) (k : Nat) (ck : ChuckRun) (s : State) :
    P (applyBegun k st ck s) = P { s with ctl := { s.ctl with generation := s.ctl.generation + 1, applyAt := s.time.now } } := by
  unfold Machine.applyBegun
  rw [h.checkCommit, hP.keysApply]

theorem SpindleOnly.testsTake (s : State) : testsTake st s = s := by
  unfold Machine.testsTake
  rw [h.stagedAt_none (idx := 0x4410) (by decide), h.stagedNat_none (idx := 0x4420) (by decide), h.stagedAt_none (idx := 0x4810) (by decide),
    h.stagedAt_none (idx := 0x4811) (by decide), h.stagedNat_none (idx := 0x4812) (by decide)]

theorem SpindleOnly.restTakes (s : State) : restTakes st s = s := by
  unfold Machine.restTakes
  rw [h.stagedAt_none (idx := 0x5020) (by decide), h.stagedAt_none (idx := 0x5030) (by decide), h.stagedNat_none (idx := 0x5030) (by decide),
    h.stagedAt_none (idx := 0x5041) (by decide), h.stagedAt_none (idx := 0x5050) (by decide)]

theorem SpindleOnly.powerTakes (s : State) : powerTakes st s = s := foldl_same _ _ s fun d _ => by rw [h.stagedNat_none (.inr (by decide))]

theorem SpindleOnly.resetsTake (s : State) : resetsTake st s = s := by
  have hnone : resetsStaged st = [] := List.filter_eq_nil_iff.mpr fun d _ => by rw [h.isStaged_none (.inr (by decide))]; exact Bool.false_ne_true
  unfold Machine.resetsTake
  rw [hnone, h.stagedNat_none (by decide)]
  rfl

theorem SpindleOnly.lastTakes (s : State) : lastTakes st s = s := by
  unfold Machine.lastTakes
  rw [h.stagedAt_none (by decide), h.stagedNat_none (by decide)]

/-- Of the fabric's entries the commands alone are staged. -/
theorem SpindleOnly.railTakes (s : State) : railTakes st s = s := by
  unfold Machine.railTakes
  rw [h.stagedIn_none (.inl (by decide))]
  rfl

theorem SpindleOnly.applyCommit_eq (k : Nat) (ck : ChuckRun) (s : State) : applyCommit s st (Machine.checkCommit k st ck [] s) none =
    logConfig s st (fabricTakes st (noticesTake (timeTakes s st (Machine.applyBegun k st ck s)))) := by
  have ha : AgreeOutside s (Machine.applyBegun k st ck s) := fun key _ => by rw [h.applyBegun ctl_applyBlind]
  have htab (f g : State → Nat → State) (u : State) : ((Machine.queueWrites s st).map Written.idx).dedup.foldl g
      (((Machine.tribWrites s st).map Written.idx).dedup.foldl f u) = u := by rw [h.tribWrites, h.queueWrites]; rfl
  have hrings (u : State) : ringsTake s st u = u := by unfold ringsTake; rw [h.stagedIn_none (.inl (by decide))]; rfl
  unfold applyCommit
  rw [h.lastTakes, h.resetsTake, h.powerTakes, h.isStaged_none (idx := 0x1F01) (by decide), h.restTakes, h.testsTake]
  simp only [Bool.false_eq_true, if_false]
  rw [htab]
  change logConfig s st (fabricTakes st (noticesTake (timeTakes s st (channelTakes s (ringsTake s st
    (flowTakes s (linksTake s (otnTakes s (shapesTake s (Machine.applyBegun k st ck s)))))))))) = _
  rw [ha.shapesTake, ha.otnTakes, ha.linksTake, ha.flowTakes, hrings, ha.channelTakes]

/-- No time entry is staged or changed: at most the pins show in the time unit. -/
theorem SpindleOnly.timeTakes_keep {β : Type} (P : State → β) (hP : ∀ s x y, P { s with time := x, out := y } = P s) {s0 s : State} (ha : AgreeOutside s0 s) :
    P (timeTakes s0 st s) = P s := by
  have hservo : servoTakes s0 s = s := by
    unfold servoTakes
    dsimp only
    rw [ha.odChanged_above (idx := 0x4010) (by decide)]
    simp only [Bool.false_eq_true, if_false]
    rw [ha.odChanged_above (idx := 0x4010) (by decide), ha.odChanged_above (idx := 0x4010) (by decide)]
    simp only [Bool.or_self, Bool.false_eq_true, if_false]
    rw [ha.odChanged_above (by decide)]
    exact if_neg Bool.false_ne_true
  have hset : timeSet st s = s := by unfold timeSet; rw [h.stagedAt_none (by decide)]
  have hadjusted : timeAdjusted st s = s := by unfold timeAdjusted; rw [h.stagedNat_none (by decide)]
  have hpin (s : State) (p : Nat) : P (pinOff s0 st s p) = P s := by
    unfold pinOff
    split
    · exact updPin_keep P (fun s x => hP s x s.out) _ _ s
    · rfl
  rw [timeTakes_eq, keep (P := P) (fun t p => pinSettle_keep P hP p t), lockPins_keep P hP, keep (P := P) hpin, hservo, hset, hadjusted]

theorem SpindleOnly.applyCommit_blind {β : Type} {P : State → β} (hP : ApplyBlind P) (k : Nat) (ck : ChuckRun) (s : State) :
    P (applyCommit s st (Machine.checkCommit k st ck [] s) none) = P { s with ctl := { s.ctl with generation := s.ctl.generation + 1, applyAt := s.time.now } } := by
  have ha : AgreeOutside s (Machine.applyBegun k st ck s) := fun key _ => by rw [h.applyBegun ctl_applyBlind]
  rw [h.applyCommit_eq, hP.logConfig, hP.fabricTakes_staged, hP.noticesTake, h.timeTakes_keep P (fun s x y => (hP.out { s with time := x } y).trans (hP.time s x)) ha,
    h.applyBegun hP]

end
end Sys2Proof.Machine

/-! The spindle commands committed (R214, R230), and with them obligation O29. -/
namespace Sys2Proof.Machine

/-! ## One command -/

/-- The staging of one command for spindle `i`. -/
def commandStaged (i : Fin 28) (v : BitVec 8) : Tab Octets := [(odKey 0x3005 (i + 1), [v])]

theorem commandStaged_only (i : Fin 28) (v : BitVec 8) : SpindleOnly (commandStaged i v) := by
  intro q hq
  rw [List.mem_singleton.mp hq]
  have hi := i.isLt
  unfold odKey
  dsimp only
  omega

theorem stagedNat_commandStaged_same (i : Fin 28) (v : BitVec 8) : stagedNat (commandStaged i v) 0x3005 (i + 1) = some v.toNat := by
  unfold stagedNat stagedAt commandStaged
  simp [Tab.find, leNat]

theorem stagedNat_commandStaged_other {i : Fin 28} {j : Nat} (h : j ≠ i) (v : BitVec 8) : stagedNat (commandStaged i v) 0x3005 (j + 1) = none := by
  have hne : odKey 0x3005 (i + 1) ≠ odKey 0x3005 (j + 1) := by unfold odKey; omega
  unfold stagedNat stagedAt commandStaged
  rw [Tab.find, if_neg hne]
  rfl

/-- A fold of steps of which one alone changes the state. -/
theorem foldl_range_single {f : State → Nat → State} {i n : Nat} (hi : i < n) (hf : ∀ s j, j ≠ i → f s j = s) (s : State) : (List.range n).foldl f s = f s i := by
  induction n with
  | zero => exact absurd hi (by omega)
  | succ n ih =>
    rw [List.range_succ, List.foldl_append, List.foldl_cons, List.foldl_nil]
    by_cases hn : i = n
    · subst hn
      rw [foldl_same f _ s fun j hj => hf s j (by have := List.mem_range.mp hj; omega)]
    · rw [ih (by omega), hf _ n fun he => hn he.symm]

theorem fabricTakes_commandStaged (i : Fin 28) (v : BitVec 8) (s : State) : fabricTakes (commandStaged i v) s = unparked (spindleCommand i v.toNat s) := by
  have hsame (s : State) : spindleOrdered (commandStaged i v) s i = spindleCommand i v.toNat s := by
    unfold spindleOrdered
    rw [stagedNat_commandStaged_same]
  have hother (s : State) (j : Nat) (hj : j ≠ i) : spindleOrdered (commandStaged i v) s j = s := by
    unfold spindleOrdered
    rw [stagedNat_commandStaged_other hj]
  rw [fabricTakes_eq, (commandStaged_only i v).railTakes, foldl_range_single i.isLt hother, hsame]

/-- A spindle that settling the roles cannot start stays as it is when the fabric is no longer parked. -/
theorem Kept.unparked {s : State} {i : Nat} (h : Kept s i) : (unparked s).spindle i = s.spindle i ∧ (unparked s).domain i = s.domain i := by
  unfold Machine.unparked
  split
  · have hkept : Kept { s with power := { s.power with parked := false } } i := h
    exact ⟨hkept.settleRoles.1, hkept.settleRoles.2.1⟩
  · exact ⟨rfl, rfl⟩

/-- The state in which the command of a commit by session `k` is carried out. -/
def commandMet (k : Nat) (i : Fin 28) (v : BitVec 8) (s : State) : State :=
  noticesTake (timeTakes (updSession k (fun x => x) s) (commandStaged i v) (applyBegun k (commandStaged i v) .agree (updSession k (fun x => x) s)))

theorem commandMet_spec (k : Nat) (i : Fin 28) (v : BitVec 8) (s : State) : (commandMet k i v s).fab = s.fab ∧ (commandMet k i v s).power = s.power := by
  have hst := commandStaged_only i v
  have hbegun : (applyBegun k (commandStaged i v) .agree (updSession k (fun x => x) s)).fab = s.fab ∧
      (applyBegun k (commandStaged i v) .agree (updSession k (fun x => x) s)).power = s.power := by
    unfold applyBegun
    rw [hst.checkCommit]
    exact ⟨rfl, rfl⟩
  have ha : AgreeOutside (updSession k (fun x => x) s) (applyBegun k (commandStaged i v) .agree (updSession k (fun x => x) s)) := fun key _ => by
    rw [hst.applyBegun ctl_applyBlind]
  refine ⟨?_, ?_⟩
  · exact ((noticesTake_keep State.fab (fun _ _ _ _ => rfl) _).trans (hst.timeTakes_keep State.fab (fun _ _ _ => rfl) ha)).trans hbegun.1
  · exact ((noticesTake_keep State.power (fun _ _ _ _ => rfl) _).trans (hst.timeTakes_keep State.power (fun _ _ _ => rfl) ha)).trans hbegun.2

/-- The command applied. -/
def commandApplied (k : Nat) (i : Fin 28) (v : BitVec 8) (s : State) : State :=
  applyCommit (updSession k (fun x => x) s) (commandStaged i v) (checkCommit k (commandStaged i v) .agree [] (updSession k (fun x => x) s)) none

theorem commandApplied_spec (k : Nat) (i : Fin 28) (v : BitVec 8) (s : State) :
    (commandApplied k i v s).fab = (unparked (spindleCommand i v.toNat (commandMet k i v s))).fab ∧
      (commandApplied k i v s).power = (unparked (spindleCommand i v.toNat (commandMet k i v s))).power := by
  have heq : commandApplied k i v s = logConfig (updSession k (fun x => x) s) (commandStaged i v) (unparked (spindleCommand i v.toNat (commandMet k i v s))) := by
    unfold commandApplied
    rw [(commandStaged_only i v).applyCommit_eq, fabricTakes_commandStaged]
    rfl
  rw [heq]
  exact ⟨logConfig_keep State.fab (fun _ _ _ _ => rfl) _ _ _, logConfig_keep State.power (fun _ _ _ _ => rfl) _ _ _⟩

/-! ## The commit -/

/-- Where the session has a record, noting its last result changes that alone. -/
theorem setLast_session {k : Nat} {s : State} (h : (s.ctl.sessions.find k).isSome) (code : Nat) :
    ((setLast k code s).session k).staged = (s.session k).staged ∧ ((setLast k code s).session k).last = code := by
  unfold setLast
  rw [if_pos h, updSession_get, if_pos rfl]
  exact ⟨rfl, rfl⟩

theorem commandCommitted_ctl (k : Nat) (i : Fin 28) (v : BitVec 8) (s : State) : (commandApplied k i v s).ctl =
    { s.ctl with sessions := s.ctl.sessions.upd k {} (fun x => x), generation := s.ctl.generation + 1, applyAt := s.time.now } :=
  (commandStaged_only i v).applyCommit_blind ctl_applyBlind k .agree _

/-- The state after the commit's result is noted. -/
def commandNoted (k : Nat) (i : Fin 28) (v : BitVec 8) (s : State) : State := setLast k 0 (commandApplied k i v s)

theorem commandNoted_quiet {k : Nat} {i : Fin 28} {v : BitVec 8} {s : State} (h : Quiet s) : Quiet (commandNoted k i v s) := by
  have houtlook : outlook (commandApplied k i v s) = outlook s := (commandStaged_only i v).applyCommit_blind outlook_applyBlind k .agree _
  have hctl := commandCommitted_ctl k i v s
  obtain ⟨w, hw⟩ := sessionsOnly_setLast k 0 (commandApplied k i v s)
  unfold commandNoted
  refine h.of_outlook ((sessionsOnly_setLast k 0 _).outlook.trans houtlook) ?_
  rw [hw]
  dsimp only
  rw [hctl]

theorem commitSingle_command {k : Nat} {i : Fin 28} {v : BitVec 8} {s : State} (h : Commits k 0x3005 (i + 1) [v] .agree s) :
    commitSingle k 0x3005 (i + 1) [v] .agree s = controlCheckpoint (commandNoted k i v s) := by
  have hquiet := commandNoted_quiet (k := k) (i := i) (v := v) h.1
  have hnot : classifies (commandStaged i v) = false := (commandStaged_only i v).stagedIn_none (.inl (by decide))
  exact (commitSingle_commits h hnot).trans (dictSettle_quiet hquiet)

theorem command_committed (k : Nat) (i : Fin 28) (v : BitVec 8) (s : State) : Committed k s (controlCheckpoint (commandNoted k i v s)) := by
  have hctl := commandCommitted_ctl k i v s
  have hsome : ((commandApplied k i v s).ctl.sessions.find k).isSome := by
    rw [hctl]
    dsimp only
    unfold Tab.upd
    rw [Tab.find_put_same]
    rfl
  have hsame : (commandApplied k i v s).session k = s.session k := by
    unfold State.session
    rw [hctl]
    exact Tab.get_upd_same k {} (fun x => x) s.ctl.sessions
  obtain ⟨hstaged, hlast⟩ := setLast_session hsome 0
  obtain ⟨w, hw⟩ := sessionsOnly_setLast k 0 (commandApplied k i v s)
  have hsession : (controlCheckpoint (commandNoted k i v s)).session k = (commandNoted k i v s).session k := by
    unfold State.session
    rw [controlCheckpoint_ctl]
  refine ⟨?_, ?_, ?_, ?_⟩
  · rw [controlCheckpoint_generation]
    unfold commandNoted
    rw [hw]
    exact congrArg Control.generation hctl
  · rw [controlCheckpoint_ctl]
    unfold commandNoted
    rw [hw]
    exact congrArg Control.applyAt hctl
  · rw [hsession]
    exact hstaged.trans (congrArg Session.staged hsame)
  · rw [hsession]
    exact hlast

/-- What a committed command leaves of its spindle, where settling the roles cannot start it afterwards. -/
theorem command_spindle {k : Nat} {i : Fin 28} {v : BitVec 8} {s : State} (h : Kept (spindleCommand i v.toNat (commandMet k i v s)) i) :
    (controlCheckpoint (commandNoted k i v s)).spindle i = (spindleCommand i v.toNat (commandMet k i v s)).spindle i ∧
      (controlCheckpoint (commandNoted k i v s)).domain i = (spindleCommand i v.toNat (commandMet k i v s)).domain i := by
  obtain ⟨hfab, hpower⟩ := commandApplied_spec k i v s
  obtain ⟨hspindle, hdomain⟩ := h.unparked
  have hcfab : (controlCheckpoint (commandNoted k i v s)).fab = (commandApplied k i v s).fab :=
    (controlCheckpoint_keep State.fab (fun _ _ _ _ _ _ _ _ => rfl) _).trans (setLast_keep State.fab (fun _ _ => rfl) k 0 _)
  have hcpower : (controlCheckpoint (commandNoted k i v s)).power = (commandApplied k i v s).power :=
    (controlCheckpoint_keep State.power (fun _ _ _ _ _ _ _ _ => rfl) _).trans (setLast_keep State.power (fun _ _ => rfl) k 0 _)
  exact ⟨(spindle_congr (hcfab.trans hfab) i).trans hspindle, (domain_congr (hcpower.trans hpower) i).trans hdomain⟩

/-- A command that passes its checks is one that the spindle's role allows. -/
theorem command_allowed {k : Nat} {i : Fin 28} {v : BitVec 8} {s : State} (h : Passes k (commandStaged i v) .agree s) :
    spindleCmdOk (updSession k (fun x => x) s) i v.toNat = true := by
  have hnone := firstFailure_none h
  rw [(commandStaged_only i v).checkCommit] at hnone
  simp only [List.append_eq_nil_iff, checkFailures, fabricFailures] at hnone
  obtain ⟨-, ⟨⟨⟨⟨⟨⟨-, -, hspindles⟩, -⟩, -⟩, -⟩, -⟩, -⟩, -⟩ := hnone
  exact spindleCmdOk_of_passes (List.mem_range.mpr i.isLt) (stagedNat_commandStaged_same i v) (fun j _ hj => stagedNat_commandStaged_other hj v) hspindles

/-! ## The obligation -/

/-- Settles O29: each command by what it leaves of its spindle, which settling the roles afterwards cannot start. -/
theorem spindleCommandsTakeEffect : Obligations.SpindleCommandsTakeEffect := by
  unfold Obligations.SpindleCommandsTakeEffect
  refine ⟨?isolates, ?returns, ?injects⟩
  case isolates =>
    intro ses i s h
    obtain ⟨hspindle, hdomain, -, -⟩ := isolateSpindle_isolated i 9 (commandMet ses i 1 s)
    have hkept : Kept (spindleCommand i (1 : BitVec 8).toNat (commandMet ses i 1 s)) i := .of_role (by
      show ((isolateSpindle i 9 (commandMet ses i 1 s)).spindle i).role ≠ .spare
      rw [hspindle]
      simp [Spindle.isolate, Spindle.enter])
    obtain ⟨hdone, hdone'⟩ := command_spindle hkept
    have hleft := hdone.trans hspindle
    refine ⟨_, congrArg Host.Outcome.next (commitSingle_command h), command_committed .., ?_, ?_, congrArg Domain.state (hdone'.trans hdomain), ?_, ?_⟩
    · rw [hleft]; rfl
    · rw [hleft]; rfl
    · rw [hleft]; rfl
    · rw [hleft]; rfl
  case returns =>
    intro ses i s h
    have hspindle : (spindleCommand i (2 : BitVec 8).toNat (commandMet ses i 2 s)).spindle i =
        { ((commandMet ses i 2 s).spindle i).enter .diagnosing (commandMet ses i 2 s).time.cycles with fails := 0, why := .testOnly } := by
      show (setDomain i 1 (updSp i _ (setRole i .diagnosing (commandMet ses i 2 s)))).spindle i = _
      rw [setDomain_spindle, updSp_get, if_pos rfl, setRole_spindle, if_pos rfl]
    have hdomain : ((spindleCommand i (2 : BitVec 8).toNat (commandMet ses i 2 s)).domain i).state = 1 := by
      show ((setDomain i 1 _).domain i).state = 1
      rw [setDomain_get, if_pos rfl]
    have hkept : Kept (spindleCommand i (2 : BitVec 8).toNat (commandMet ses i 2 s)) i := .of_role (by rw [hspindle]; simp [Spindle.enter])
    obtain ⟨hdone, hdone'⟩ := command_spindle hkept
    have hleft := hdone.trans hspindle
    refine ⟨_, congrArg Host.Outcome.next (commitSingle_command h), command_committed .., ?_, ?_, (congrArg Domain.state hdone').trans hdomain⟩
    · rw [hleft]; rfl
    · rw [hleft]
  case injects =>
    intro ses i s h
    have hmet : (commandMet ses i 3 s).spindle i = s.spindle i := spindle_congr (commandMet_spec ses i 3 s).1 i
    have hspindle : (spindleCommand i (3 : BitVec 8).toNat (commandMet ses i 3 s)).spindle i = { s.spindle i with injected := true } := by
      show (updSp i (fun x => { x with injected := true }) (commandMet ses i 3 s)).spindle i = _
      rw [updSp_get, if_pos rfl, hmet]
    have hrole : (s.spindle i).role = .working := by
      have hok := command_allowed h.2.2.2
      have hworking : ((updSession ses (fun x => x) s).spindle i).role = .working := by
        unfold spindleCmdOk at hok
        simp only [show (3 : BitVec 8).toNat = 3 from rfl, Bool.and_eq_true, beq_iff_eq] at hok
        exact hok.2.1
      exact hworking
    have hkept : Kept (spindleCommand i (3 : BitVec 8).toNat (commandMet ses i 3 s)) i := .of_role (by rw [hspindle]; simp [hrole])
    have hleft := (command_spindle hkept).1.trans hspindle
    refine ⟨_, congrArg Host.Outcome.next (commitSingle_command h), command_committed .., ?_, ?_⟩
    · rw [hleft]
    · rw [hleft]

end Sys2Proof.Machine

/-! Key slots and associations (R249, R254 to R258, R274): what a read of one returns after a write, and what an event, a count and a freeze leave of it. -/
namespace Sys2Proof.Machine

/-! ## Reading a slot or an association after a write -/

theorem slot_eq_of {s t : State} (hdata : t.keys.data = s.keys.data) (hkek : t.keys.kek = s.keys.kek) (hbad : t.rest.shadowBad = s.rest.shadowBad) (n : Nat) :
    t.slot n = s.slot n := by
  unfold State.slot State.shadow; rw [hdata, hkek, hbad]

theorem sa_eq_of {s t : State} (hsa : t.keys.sa = s.keys.sa) (hbad : t.rest.shadowBad = s.rest.shadowBad) (i : Nat) : t.sa i = s.sa i := by
  unfold State.sa State.shadow; rw [hsa, hbad]

/-- A slot that does not read as Bad has no mismatch. -/
theorem shadow_of_slot {s : State} {n : Nat} (h : (s.slot n).state ≠ .bad) : s.shadow 5 (slotItem n) = false := by
  unfold State.slot at h
  by_contra hs
  rw [if_pos (eq_true_of_ne_false hs)] at h
  exact h rfl

theorem updSlot_shadow (n : Nat) (f : KeySlot → KeySlot) (s : State) (g i : Nat) : (updSlot n f s).shadow g i = s.shadow g i := by
  unfold updSlot; split <;> rfl

theorem updSlot_slot_same {s : State} {n : Nat} (f : KeySlot → KeySlot) (h : s.shadow 5 (slotItem n) = false) : (updSlot n f s).slot n = f (s.slot n) := by
  unfold State.slot
  rw [updSlot_shadow, h]
  unfold updSlot
  simp only [Bool.false_eq_true, if_false]
  split <;> exact Tab.get_upd_same ..

theorem updSlot_sa (n : Nat) (f : KeySlot → KeySlot) (s : State) : (updSlot n f s).keys.sa = s.keys.sa := by unfold updSlot; split <;> rfl
theorem updSlot_counters (n : Nat) (f : KeySlot → KeySlot) (s : State) : (updSlot n f s).keys.counters = s.keys.counters := by unfold updSlot; split <;> rfl

theorem keyEvent_event {i : Nat} (hi : i < 16) (s : State) : (keyEvent i s).keys.events.getLsbD i = true := by
  unfold keyEvent
  simp [hi]

/-- An SA reads as frozen where its record is. -/
theorem sa_frozen {s : State} {i : Nat} (h : (s.keys.sa.get i {}).frozen = true) : (s.sa i).frozen = true := by
  unfold State.sa; dsimp only; split
  · rfl
  · exact h

/-! ## Freezing (R258, R272, R274) -/

/-- What reads nothing of the SA table, the events of the key unit and the tributaries shows nothing of a freeze. -/
theorem freezeSa_data {β : Type} (P : State → β) (hpost : ∀ e s, P (post e s) = P s) (hotn : ∀ s x, P { s with otn := x } = P s)
    (hkeys : ∀ s x y, P { s with keys := { s.keys with sa := x, events := y } } = P s) (i cause : Nat) (s : State) : P (freezeSa i cause s) = P s := by
  have hsa (s : State) (x : Tab Sa) : P { s with keys := { s.keys with sa := x } } = P s := hkeys s x s.keys.events
  have hevents (s : State) (y : W16) : P { s with keys := { s.keys with events := y } } = P s := hkeys s s.keys.sa y
  unfold freezeSa
  split
  · rfl
  · rw [saShow_keep P hotn]
    exact (hevents _ _).trans ((hpost _ _).trans (hsa _ _))

theorem freezeSlotSas_data {β : Type} (P : State → β) (hpost : ∀ e s, P (post e s) = P s) (hotn : ∀ s x, P { s with otn := x } = P s)
    (hkeys : ∀ s x y, P { s with keys := { s.keys with sa := x, events := y } } = P s) (n cause : Nat) (s : State) : P (freezeSlotSas n cause s) = P s := by
  unfold freezeSlotSas
  split
  · rfl
  · refine keep fun t i => ?_
    rw [freezeSa_data P hpost hotn hkeys]
    split
    · exact hkeys t _ t.keys.events
    · rfl

theorem updSa_record (i j : Nat) (f : Sa → Sa) (s : State) : (updSa i f s).keys.sa.get j {} = if j = i then f (s.keys.sa.get i {}) else s.keys.sa.get j {} := by
  unfold updSa; exact Tab.get_upd ..

/-- The raw record of an SA after a freeze: frozen where it is the one, else as it was. -/
theorem freezeSa_record (i cause j : Nat) (s : State) :
    (freezeSa i cause s).keys.sa.get j {} = if j = i ∧ (s.keys.sa.get i {}).frozen = false then { s.keys.sa.get i {} with frozen := true, cause := cause } else s.keys.sa.get j {} := by
  unfold freezeSa
  split
  · next h => rw [if_neg (by rw [h]; simp)]
  · next h =>
    have hf : (s.keys.sa.get i {}).frozen = false := eq_false_of_ne_true h
    rw [saShow_keep (fun t => t.keys.sa.get j {}) (fun _ _ => rfl)]
    change (post _ _).keys.sa.get j {} = _
    rw [post_keep State.keys (fun _ _ _ => rfl)]
    rw [updSa_record]
    simp only [hf, and_true]

theorem freezeSa_frozen_same (i cause : Nat) (s : State) : ((freezeSa i cause s).keys.sa.get i {}).frozen = true := by
  rw [freezeSa_record]
  split
  · rfl
  · next h => simpa using h

theorem freezeSa_frozen_kept {i cause j : Nat} {s : State} (h : (s.keys.sa.get j {}).frozen = true) : ((freezeSa i cause s).keys.sa.get j {}).frozen = true := by
  rw [freezeSa_record]
  split
  · rfl
  · exact h

/-- What marks a record's bad key leaves it as frozen as it was. -/
theorem updSa_frozen {f : Sa → Sa} (hf : ∀ a, (f a).frozen = a.frozen) (i j : Nat) (s : State) :
    ((updSa i f s).keys.sa.get j {}).frozen = (s.keys.sa.get j {}).frozen := by
  rw [updSa_record]
  split
  · next h => rw [hf, h]
  · rfl

/-- A step of `freezeSlotSas`. -/
theorem freezeStep_frozen_kept {cause i j : Nat} {s : State} (h : (s.keys.sa.get j {}).frozen = true) :
    ((freezeSa i cause (if cause = 2 then updSa i (fun a => { a with keyBad := true }) s else s)).keys.sa.get j {}).frozen = true := by
  refine freezeSa_frozen_kept ?_
  split
  · exact (updSa_frozen (f := fun a => { a with keyBad := true }) (fun _ => rfl) i j s).trans h
  · exact h

theorem freezeSlotSas_frozen_kept {n cause j : Nat} {s : State} (h : (s.keys.sa.get j {}).frozen = true) : ((freezeSlotSas n cause s).keys.sa.get j {}).frozen = true := by
  unfold freezeSlotSas
  split
  · exact h
  · exact List.foldlRecOn (motive := fun t : State => (t.keys.sa.get j {}).frozen = true) _ _ h fun t ht i _ => freezeStep_frozen_kept ht

/-- Every Valid SA of a data slot is frozen. -/
theorem freezeSlotSas_frozen {n cause j : Nat} {s : State} (hn : n < 0x8000) (hj : j ∈ sasOfSlot s n) : ((freezeSlotSas n cause s).keys.sa.get j {}).frozen = true := by
  unfold freezeSlotSas
  rw [if_neg (by omega)]
  exact foldl_settles (Q := fun (t : State) j => (t.keys.sa.get j {}).frozen = true) (fun _ _ => freezeSa_frozen_same ..) (fun _ _ _ h => freezeStep_frozen_kept h) hj s

/-! ### The SAs of a slot -/

/-- An entry of a table is still there after a write, or was the one that the write replaces. -/
theorem mem_put_of_mem {α : Type} {k : Nat} {x : α} {t : Tab α} {p : Nat × α} (h : p ∈ t) : p ∈ t.put k x ∨ p.1 = k ∧ t.find k = some p.2 ∧ (k, x) ∈ t.put k x := by
  induction t with
  | nil => exact absurd h List.not_mem_nil
  | cons q t ih =>
    obtain ⟨i, y⟩ := q
    unfold Tab.put
    split
    · exact .inl (List.mem_cons_of_mem _ h)
    · split
      · next hi =>
        rcases List.mem_cons.mp h with rfl | h
        · exact .inr ⟨hi.symm, by simp [Tab.find, hi], List.mem_cons_self⟩
        · exact .inl (List.mem_cons_of_mem _ h)
      · next hi =>
        rcases List.mem_cons.mp h with rfl | h
        · exact .inl List.mem_cons_self
        · rcases ih h with hm | ⟨hk, hf, hm⟩
          · exact .inl (List.mem_cons_of_mem _ hm)
          · exact .inr ⟨hk, by simp [Tab.find, Ne.symm hi, hf], List.mem_cons_of_mem _ hm⟩

/-- A change of a record that keeps its validity and its slot leaves the SAs of each slot. -/
theorem mem_sasOfSlot_updSa {f : Sa → Sa} (hf : ∀ a, (f a).valid = a.valid ∧ (f a).slot = a.slot) {i j n : Nat} {s : State} (h : j ∈ sasOfSlot s n) :
    j ∈ sasOfSlot (updSa i f s) n := by
  unfold sasOfSlot at h ⊢
  obtain ⟨p, hp, rfl⟩ := List.mem_map.mp h
  obtain ⟨hp, hslot⟩ := List.mem_filter.mp hp
  change p.1 ∈ ((s.keys.sa.put i (f (s.keys.sa.get i {}))).filter _).map Prod.fst
  rcases mem_put_of_mem (k := i) (x := f (s.keys.sa.get i {})) hp with hm | ⟨hk, hfind, hm⟩
  · exact List.mem_map.mpr ⟨p, List.mem_filter.mpr ⟨hm, hslot⟩, rfl⟩
  · have hget : s.keys.sa.get i {} = p.2 := by unfold Tab.get; rw [hfind]; rfl
    refine List.mem_map.mpr ⟨_, List.mem_filter.mpr ⟨hm, ?_⟩, hk.symm⟩
    rw [hget]
    dsimp only
    rw [(hf p.2).1, (hf p.2).2]
    exact hslot

theorem sasOfSlot_congr {s t : State} (h : t.keys.sa = s.keys.sa) (n : Nat) : sasOfSlot t n = sasOfSlot s n := by unfold sasOfSlot; rw [h]

theorem mem_sasOfSlot_freezeSa {i cause j n : Nat} {s : State} (h : j ∈ sasOfSlot s n) : j ∈ sasOfSlot (freezeSa i cause s) n := by
  unfold freezeSa
  split
  · exact h
  · rw [sasOfSlot_congr (s := updSa i (fun a => { a with frozen := true, cause := cause }) s)]
    · exact mem_sasOfSlot_updSa (f := fun a => { a with frozen := true, cause := cause }) (fun _ => ⟨rfl, rfl⟩) h
    · rw [saShow_keep (fun t => t.keys.sa) (fun _ _ => rfl)]
      change (post _ _).keys.sa = _
      rw [post_keep State.keys (fun _ _ _ => rfl)]

theorem mem_sasOfSlot_freezeSlotSas {m cause j n : Nat} {s : State} (h : j ∈ sasOfSlot s n) : j ∈ sasOfSlot (freezeSlotSas m cause s) n := by
  unfold freezeSlotSas
  split
  · exact h
  · refine List.foldlRecOn (motive := fun t : State => j ∈ sasOfSlot t n) _ _ h fun t ht i _ => mem_sasOfSlot_freezeSa ?_
    split
    · exact mem_sasOfSlot_updSa (f := fun a => { a with keyBad := true }) (fun _ => ⟨rfl, rfl⟩) ht
    · exact ht

end Sys2Proof.Machine

/-! What log entries, alarms and memory accesses leave of the tool rest (R362, R397, R414 to R419): the tamper state, the owner record, the KEK area and
the shadow mismatches stay. -/
namespace Sys2Proof.Machine

/-- What the log and the alarms leave of the tool rest. -/
def restCore (r : ToolRest) : TamperState × Owner × Tab Octets × List (Nat × Nat) × Bool × Bool := (r.state, r.owner, r.kekArea, r.shadowBad, r.onVbat, r.zeroizing)

/-- What `P` reads shows nothing of a posted event, of the data path, of the memory protection unit, of what leaves the part, and of the tool rest at most
its core. -/
structure CoreBlind {β : Type} (P : State → β) : Prop where
  post : ∀ e s, P (post e s) = P s
  rest : ∀ s x, restCore x = restCore s.rest → P { s with rest := x } = P s
  path : ∀ s x, P { s with path := x } = P s
  mpu : ∀ s x, P { s with mpu := x } = P s
  out : ∀ s x, P { s with out := x } = P s

section
variable {β : Type} {P : State → β} (h : CoreBlind P)
include h

theorem CoreBlind.hbm (s : State) (x : Mpu) (_ : Memory.wf x.hbm = Memory.wf s.mpu.hbm) : P { s with mpu := x } = P s := h.mpu s x

/-! ## The log and the alarms -/

theorem CoreBlind.raiseAlarm (n : Nat) (s : State) : P (raiseAlarm n s) = P s := by
  unfold Machine.raiseAlarm
  dsimp only
  split
  · exact h.rest s _ rfl
  · split
    · exact h.rest s _ rfl
    · exact h.rest s _ rfl

theorem CoreBlind.raiseEvent (n sub : Nat) (s : State) : P (raiseEvent n sub s) = P s := by
  unfold Machine.raiseEvent noteSensor
  split
  · rfl
  · exact (h.raiseAlarm n _).trans (h.rest s _ rfl)

theorem CoreBlind.logStops (s : State) : P (logStops s) = P s := by
  unfold Machine.logStops setAlarm
  split
  · exact (h.raiseAlarm 22 _).trans (h.rest s _ rfl)
  · rfl

theorem CoreBlind.logAfter (s : State) : P (logAfter s) = P s := by
  unfold Machine.logAfter exportEvent
  rw [h.logStops]
  split
  · exact (h.post _ _).trans (h.rest s _ rfl)
  · rfl

theorem CoreBlind.logEntry (type source : Nat) (detail : Octets) (s : State) : P (logEntry type source detail s) = P s := by
  have happend (s : State) : P (logAppend type source detail s) = P s := h.rest s _ rfl
  unfold Machine.logEntry logForce
  split
  · split
    · exact ((h.logAfter _).trans (happend _)).trans (h.rest s _ rfl)
    · split
      · exact h.rest s _ rfl
      · exact (h.logStops _).trans (h.rest s _ rfl)
  · exact h.rest s _ rfl

/-! ## Lines of the protected memory -/

theorem CoreBlind.memReport (alarm : Bool) (region block : Nat) (s : State) : P (memReport alarm region block s) = P s := by
  unfold Machine.memReport memoryAlarm memoryEvent
  split <;> rw [memLatch_keep P h.hbm, h.raiseEvent, h.logEntry]

theorem CoreBlind.poisonLines (b : Nat) (map : W64) (s : State) : P (poisonLines b map s) = P s := by
  unfold Machine.poisonLines; dsimp only
  (repeat' split) <;> simp only [memCount_keep P h.hbm, h.memReport, h.mpu]

theorem CoreBlind.storeRefetch (region index : Nat) (s : State) : P (storeRefetch region index s) = P s := by
  unfold Machine.storeRefetch; dsimp only
  split
  · rfl
  · rw [memLatch_keep P h.hbm, memCount_keep P h.hbm, h.post, h.mpu]

theorem CoreBlind.loseLine (a : Nat) (s : State) : P (loseLine a s) = P s := by
  unfold Machine.loseLine; dsimp only
  (repeat' split) <;> simp only [h.storeRefetch, h.poisonLines, h.memReport, h.mpu]

theorem CoreBlind.metaFetch (m : Nat) (parent : Split) (slot block : Nat) (s : State) : P (metaFetch m parent slot block s).2 = P s := by
  unfold Machine.metaFetch; dsimp only
  (repeat' split) <;> simp only [memCount_keep P h.hbm, h.memReport, metaWrite_keep P h.hbm, metaCopy_keep P h.hbm]

theorem CoreBlind.loseBlock (b : Nat) (s : State) : P (loseBlock b s) = P s := by
  unfold Machine.loseBlock; dsimp only
  split
  · rw [keep (P := P) (fun s i => h.storeRefetch _ _ s), h.poisonLines, h.memReport]
  · rw [keep (P := P) (fun s i => h.storeRefetch _ _ s), h.poisonLines, h.memReport]
  · rw [h.mpu, h.poisonLines, h.memReport]
  · rw [h.mpu, h.poisonLines, h.memReport]
  · split
    · rw [memCount_keep P h.hbm, h.mpu, h.poisonLines, h.memReport]
    · rw [h.poisonLines, h.memReport]

theorem CoreBlind.node1 (j : Nat) (s : State) : P (node1 j s).2 = P s := by
  unfold Machine.node1; dsimp only
  split
  · exact cacheCount_keep P h.hbm _ _
  · split
    · rw [cachePut_keep P h.hbm, h.metaFetch, cacheCount_keep P h.hbm]
    · rw [keep (P := P) (fun s i => h.loseBlock _ s), cachePut_keep P h.hbm, h.metaFetch, cacheCount_keep P h.hbm]

theorem CoreBlind.counterLine (b : Nat) (s : State) : P (counterLine b s).2 = P s := by
  unfold Machine.counterLine; dsimp only
  split
  · exact cacheCount_keep P h.hbm _ _
  · split
    · rw [cachePut_keep P h.hbm, h.metaFetch, h.node1, cacheCount_keep P h.hbm]
    · rw [h.loseBlock, cachePut_keep P h.hbm, h.metaFetch, h.node1, cacheCount_keep P h.hbm]

theorem CoreBlind.recover (key a : Nat) (c : Split) (s : State) : P (recover key a c s).2 = P s := by
  unfold Machine.recover; dsimp only
  (repeat' split) <;> simp only [memCount_keep P h.hbm, h.memReport, physWrite_keep P h.hbm, physRead_keep P h.hbm, h.loseLine]

theorem CoreBlind.readLine (key a : Nat) (s : State) : P (readLine key a s).2 = P s := by
  unfold Machine.readLine; dsimp only
  (repeat' split) <;> simp only [h.recover, memCount_keep P h.hbm, physRead_keep P h.hbm, h.counterLine]

theorem CoreBlind.retireBlock (b : Nat) (s : State) : P (retireBlock b s) = P s := by
  unfold Machine.retireBlock; dsimp only
  (repeat' split) <;> simp only [h.post, h.poisonLines, memLatch_keep P h.hbm, memCount_keep P h.hbm, h.mpu]

theorem CoreBlind.reencrypt (key a : Nat) (data : Octets) (c : Split) (s : State) : P (reencrypt key a data c s) = P s := by
  unfold Machine.reencrypt; dsimp only
  split
  · exact h.retireBlock _ s
  · next maj u hu =>
    have hstart : P u = P s := newMajor_keep P h.hbm key s (maj, u) hu
    have hput : ∀ s (p : Nat × Octets), P (putLine key (a / 4096 * 4096 + 64 * p.1) maj.toNat 1 p.2 s) = P s :=
      fun s p => putLine_keep P h.hbm _ _ _ _ _ s
    rw [apply_ite P, h.mpu, ite_self, cachePut_keep P h.hbm, keep hput]
    refine (keep2 (P := P) (fun p k => ?_)).trans hstart
    (repeat' split) <;> simp only [h.readLine]

theorem CoreBlind.writeLine (key a : Nat) (data : Octets) (s : State) : P (writeLine key a data s) = P s := by
  unfold Machine.writeLine; dsimp only
  (repeat' split) <;> simp only [clearPoison_keep P h.hbm, foldParity_keep P h.hbm, cachePut_keep P h.hbm,
    putLine_keep P h.hbm, memCount_keep P h.hbm, h.reencrypt, h.counterLine, h.mpu]

theorem CoreBlind.writeOver (key a : Nat) (l : List Octets) (s : State) : P (writeOver key a l s) = P s := by
  induction l generalizing a s with
  | nil => rfl
  | cons d l ih => unfold Machine.writeOver; rw [ih, h.writeLine, edgePass_keep P h.path]

theorem CoreBlind.readLines (key a n : Nat) (s : State) : P (readLines key a n s).2 = P s := by
  induction n generalizing a s with
  | zero => rfl
  | succ n ih =>
    unfold Machine.readLines
    dsimp only
    split
    · exact h.readLine ..
    · exact (ih ..).trans (h.readLine ..)

theorem CoreBlind.storeRead (sa : Bool) (i : Nat) (s : State) : P (storeRead sa i s).2 = P s := by
  unfold Machine.storeRead
  split
  · exact (h.readLines ..).trans (stackPass_keep P h.path ..)
  · exact (h.readLines ..).trans (stackPass_keep P h.path ..)

end
end Sys2Proof.Machine

/-! Failed copies, references and mirrors of key slots, the expiry of keys and the end of a retired association (R248, R254, R255, R257, R260, R274, R491),
and with them obligation O25. -/
namespace Sys2Proof.Machine

/-! ## A copy that fails (R254, R255) -/

/-- What an event of the key unit and its count leave of the slots. -/
theorem keyEvent_slot (i n : Nat) (s : State) : (keyEvent i s).slot n = s.slot n := rfl
theorem keyCount_slot (i n : Nat) (s : State) : (keyCount i s).slot n = s.slot n := rfl
theorem post_slot (e : Event) (n : Nat) (s : State) : (post e s).slot n = s.slot n := post_keep (fun t => t.slot n) (fun _ _ _ => rfl) e s
theorem freezeSlotSas_slot (m cause n : Nat) (s : State) : (freezeSlotSas m cause s).slot n = s.slot n :=
  freezeSlotSas_data (fun t => t.slot n) (fun e s => post_slot e n s) (fun _ _ => rfl) (fun _ _ _ => rfl) m cause s
theorem freezeSlotSas_counters (m cause : Nat) (s : State) : (freezeSlotSas m cause s).keys.counters = s.keys.counters :=
  freezeSlotSas_data (fun t => t.keys.counters) (fun e s => by rw [post_keep State.keys (fun _ _ _ => rfl)]) (fun _ _ => rfl) (fun _ _ _ => rfl) m cause s
theorem post_keys (e : Event) (s : State) : (post e s).keys = s.keys := post_keep State.keys (fun _ _ _ => rfl) e s

theorem keyEvent_counters (i : Nat) (s : State) : (keyEvent i s).keys.counters = s.keys.counters := rfl
theorem keyEvent_sa (i : Nat) (s : State) : (keyEvent i s).keys.sa = s.keys.sa := rfl
theorem keyCount_sa (i : Nat) (s : State) : (keyCount i s).keys.sa = s.keys.sa := rfl

/-- The number that a slot shows for a copy that failed: 1 for chuck A's, 2 for chuck B's. -/
def copyMark (b : Bool) : Nat := if b then 2 else 1

theorem copyFails_first {n : Nat} {b : Bool} {s : State} (hf : (s.slot n).state = .filled) (hc : (s.slot n).copyBad = 0) :
    copyFails n b s = keyEvent 1 (post { type := 0x3403, source := n, a := bit b } (updSlot n (fun x => { x with copyBad := copyMark b }) (keyCount 3 s))) := by
  unfold copyFails
  cases b <;> simp [hf, hc, copyMark]

theorem copyFails_second {n : Nat} {b : Bool} {s : State} (hf : (s.slot n).state = .filled) (hc : (s.slot n).copyBad = copyMark !b) :
    copyFails n b s = slotBad n (keyCount 3 s) := by
  unfold copyFails
  cases b <;> simp [hf, hc, copyMark]

theorem slotBad_slot {n : Nat} {s : State} (h : s.shadow 5 (slotItem n) = false) : (slotBad n s).slot n = { s.slot n with state := .bad } := by
  unfold slotBad
  rw [freezeSlotSas_slot, keyEvent_slot, keyCount_slot, post_slot, updSlot_slot_same _ h]

theorem slotBad_counter (n : Nat) (s : State) : (slotBad n s).keys.counters.get 4 0 = s.keys.counters.get 4 0 + 1 := by
  unfold slotBad
  rw [freezeSlotSas_counters, keyEvent_counters, keyCount_get, if_pos rfl, post_keys, updSlot_counters]

theorem slotBad_frozen {n i : Nat} {s : State} (hn : n < 0x8000) (hi : i ∈ sasOfSlot s n) : ((slotBad n s).sa i).frozen = true := by
  unfold slotBad
  refine sa_frozen (freezeSlotSas_frozen hn ?_)
  rw [sasOfSlot_congr (s := s)]
  · exact hi
  · rw [keyEvent_sa, keyCount_sa, post_keys, updSlot_sa]

theorem exec_slotScrub (target : BitVec 16) (b : Bool) (s : State) : exec (.slotScrub [(target, b)]) s = .next (copyFails target.toNat b s) := rfl

/-- The first copy of a Filled slot that fails shows as bad and is counted. -/
theorem slotScrub_first (target : BitVec 16) (b : Bool) (s : State) (hf : (s.slot target.toNat).state = .filled) (hc : (s.slot target.toNat).copyBad = 0) :
    ∃ t, exec (.slotScrub [(target, b)]) s = .next t ∧ t.slot target.toNat = { s.slot target.toNat with copyBad := copyMark b } ∧
      t.keys.counters.get 3 0 = s.keys.counters.get 3 0 + 1 ∧ t.keys.events.getLsbD 1 = true := by
  have hshadow : (keyCount 3 s).shadow 5 (slotItem target.toNat) = false := shadow_of_slot (s := s) (by rw [hf]; decide)
  refine ⟨_, exec_slotScrub .., ?_⟩
  rw [copyFails_first hf hc]
  refine ⟨?_, ?_, keyEvent_event (by decide) _⟩
  · rw [keyEvent_slot, post_slot, updSlot_slot_same _ hshadow, keyCount_slot]
  · rw [keyEvent_counters, post_keys, updSlot_counters, keyCount_get, if_pos rfl]

/-- The second leaves it Bad, with its associations frozen. -/
theorem slotScrub_second (target : BitVec 16) (b : Bool) (s : State) (hf : (s.slot target.toNat).state = .filled)
    (hc : (s.slot target.toNat).copyBad = copyMark !b) :
    ∃ t, exec (.slotScrub [(target, b)]) s = .next t ∧ (t.slot target.toNat).state = .bad ∧ t.keys.counters.get 4 0 = s.keys.counters.get 4 0 + 1 ∧
      (target.toNat < 0x8000 → ∀ i ∈ sasOfSlot s target.toNat, (t.sa i).frozen = true) := by
  have hshadow : (keyCount 3 s).shadow 5 (slotItem target.toNat) = false := shadow_of_slot (s := s) (by rw [hf]; decide)
  refine ⟨_, exec_slotScrub .., ?_⟩
  rw [copyFails_second hf hc]
  refine ⟨by rw [slotBad_slot hshadow], ?_, fun hn i hi => slotBad_frozen hn hi⟩
  rw [slotBad_counter, keyCount_get, if_neg (by decide)]

/-! ## References (R255, R257) -/

theorem slotFree_slot {n : Nat} {s : State} (hf : (s.slot n).state = .releasing) (hr : (s.slot n).refs = 0) :
    (slotFree n s).slot n = { state := if (s.slot n).copyBad = 0 then .free else .bad } := by
  unfold slotFree
  simp only [hf, hr, beq_self_eq_true, Bool.and_self, if_true]
  exact updSlot_slot_same _ (shadow_of_slot (by rw [hf]; decide))

/-- A Filled slot that no frame holds is Free once it is released. -/
theorem slotRelease_free {n : Nat} {s : State} (hf : (s.slot n).state = .filled) (hr : (s.slot n).refs = 0) : ((slotRelease n s).slot n).state = .free := by
  unfold slotRelease
  simp only [hf, hr, beq_self_eq_true, if_true]
  rw [updSlot_slot_same _ (shadow_of_slot (by rw [hf]; decide))]

theorem slotRelease_sa (n : Nat) (s : State) : (slotRelease n s).keys.sa = s.keys.sa := by
  unfold slotRelease
  dsimp only
  split
  · split
    · exact updSlot_sa ..
    · exact updSlot_sa ..
  · rfl

/-! ## The mirrors (R248, R491) -/

theorem rebuilt_b (b : Bool) (x : KeySlot) : (x.rebuilt b).b = (x.rebuilt b).a := by cases b <;> rfl

theorem mem_mapAll_rebuilt {b : Bool} {t : Tab KeySlot} {q : Nat × KeySlot} (h : q ∈ t.mapAll (fun _ x => x.rebuilt b)) : q.2.b = q.2.a := by
  obtain ⟨p, _, rfl⟩ := List.mem_map.mp h
  exact rebuilt_b b p.2

/-- The end of a rebuild leaves every slot with two equal copies, and the chuck in. -/
theorem chuckRebuilt_mirrors {b : Bool} {s : State} (h : s.keys.rebuilding = copyMark b) :
    (chuckRebuilt b s).keys.rebuilding = 0 ∧ chuckOut (chuckRebuilt b s) b = false ∧ chuckOut (chuckRebuilt b s) (!b) = chuckOut s (!b) ∧
      (∀ q ∈ (chuckRebuilt b s).keys.data, q.2.b = q.2.a) ∧ (∀ q ∈ (chuckRebuilt b s).keys.kek, q.2.b = q.2.a) := by
  unfold chuckRebuilt
  rw [if_neg (by rw [h]; exact not_not_intro rfl)]
  cases b
  · exact ⟨rfl, rfl, rfl, fun q hq => mem_mapAll_rebuilt hq, fun q hq => mem_mapAll_rebuilt hq⟩
  · exact ⟨rfl, rfl, rfl, fun q hq => mem_mapAll_rebuilt hq, fun q hq => mem_mapAll_rebuilt hq⟩

/-- With the other chuck in, an isolation marks the domain and takes the chuck out. -/
theorem chuckIsolate_alone {b : Bool} (cause : Nat) {s : State} (h : chuckOut s (!b) = false) :
    chuckIsolate b cause s = keyEvent 0 { countDomainReset (66 + bit b) cause (setDomain (66 + bit b) 3 s) with
      keys := if b then { s.keys with isoB := true } else { s.keys with isoA := true } } := by
  unfold chuckIsolate
  rw [h]
  rfl

/-- Every condition for the next step of a service reset holds (R491). -/
theorem serviceGoes_next {s : State} (hp : s.power.service = .resetting) (hr : s.rng.inReset = []) (hb : s.fab.rebuild = none) (ha : s.keys.isoA = false) (hc : s.keys.isoB = false) :
    (s.power.serviceStep = 1 → serviceGoes s = chuckIsolate true 3 { s with power := { s.power with serviceStep := 2 } }) ∧
    (s.power.serviceStep = 2 → serviceGoes s = failOver { s with power := { s.power with serviceStep := 3 } }) := by
  constructor <;>
  · intro hstep
    unfold serviceGoes
    simp only [hp, hr, hb, ha, hc, hstep]
    rfl

theorem serviceGoes_idle {s : State} (h : s.power.service ≠ .resetting) : serviceGoes s = s := by
  unfold serviceGoes
  simp [h]

/-- The Active controller is isolated and powered off, whether or not a Standby one starts (R464). -/
theorem failOver_isolates {c : Bool} {s : State} (h : ctlIn s .active = some c) :
    ctlOf (failOver s) c = .isolated ∧ ((failOver s).domain (68 + bit c)).state = 0 ∧ (failOver s).power.serviceStep = s.power.serviceStep ∧ (failOver s).keys = s.keys := by
  unfold failOver
  rw [h]
  dsimp only
  split
  · cases c
    · exact ⟨rfl, by rw [setDomain_get, if_neg (by decide)]; exact congrArg Domain.state (if_pos rfl ▸ setDomain_get .. : _ = _), rfl, rfl⟩
    · exact ⟨rfl, by rw [setDomain_get, if_neg (by decide)]; exact congrArg Domain.state (if_pos rfl ▸ setDomain_get .. : _ = _), rfl, rfl⟩
  · cases c
    · exact ⟨rfl, by rw [setDomain_get, if_pos rfl], rfl, rfl⟩
    · exact ⟨rfl, by rw [setDomain_get, if_pos rfl], rfl, rfl⟩

/-- Outside a service reset the end of a rebuild ends it. -/
theorem rebuildComplete_alone (b : Bool) (s : State) (h : s.keys.rebuilding = copyMark b) (hs : s.power.service ≠ .resetting) :
    ∃ t, exec (.chuckMirrorRebuildComplete b) s = .next t ∧ t.keys.rebuilding = 0 ∧ chuckOut t b = false ∧
      (∀ q ∈ t.keys.data, q.2.b = q.2.a) ∧ (∀ q ∈ t.keys.kek, q.2.b = q.2.a) := by
  obtain ⟨hzero, hin, _, hdata, hkek⟩ := chuckRebuilt_mirrors h
  have hidle : serviceGoes (chuckRebuilt b s) = chuckRebuilt b s := serviceGoes_idle (by rw [chuckRebuilt_keep State.power (fun _ _ => rfl)]; exact hs)
  exact ⟨chuckRebuilt b s, congrArg Host.Outcome.next hidle, hzero, hin, hdata, hkek⟩

/-- What a rebuild's end leaves for the next step of a service reset. -/
theorem chuckRebuilt_service {b : Bool} {s : State} (h : s.keys.rebuilding = copyMark b) (hother : chuckOut s (!b) = false) (hr : s.rng.inReset = [])
    (hb : s.fab.rebuild = none) :
    (chuckRebuilt b s).power = s.power ∧ (chuckRebuilt b s).rng.inReset = [] ∧ (chuckRebuilt b s).fab.rebuild = none ∧
      (chuckRebuilt b s).keys.isoA = false ∧ (chuckRebuilt b s).keys.isoB = false := by
  obtain ⟨_, hin, hout, _, _⟩ := chuckRebuilt_mirrors h
  rw [hother] at hout
  refine ⟨chuckRebuilt_keep State.power (fun _ _ => rfl) b s, ?_, ?_, ?_, ?_⟩
  · rw [chuckRebuilt_keep State.rng (fun _ _ => rfl)]; exact hr
  · rw [chuckRebuilt_keep State.fab (fun _ _ => rfl)]; exact hb
  · cases b
    · exact hin
    · exact hout
  · cases b
    · exact hout
    · exact hin

/-- In a service reset chuck B goes out once chuck A is back. -/
theorem rebuildComplete_chuckA (s : State) (h : s.keys.rebuilding = 1) (hiso : s.keys.isoB = false) (hp : s.power.service = .resetting) (hstep : s.power.serviceStep = 1)
    (hr : s.rng.inReset = []) (hb : s.fab.rebuild = none) :
    ∃ t, exec (.chuckMirrorRebuildComplete false) s = .next t ∧ t.keys.isoA = false ∧ t.keys.isoB = true ∧ (t.domain 67).state = 3 ∧ (t.domain 67).cause = 3 ∧
      t.power.serviceStep = 2 ∧ (∀ q ∈ t.keys.data, q.2.b = q.2.a) := by
  obtain ⟨_, _, _, hdata, _⟩ := chuckRebuilt_mirrors (b := false) h
  obtain ⟨hpower, hrng, hfab, hA, hB⟩ := chuckRebuilt_service (b := false) h hiso hr hb
  have hgoes := (serviceGoes_next (by rw [hpower]; exact hp) hrng hfab hA hB).1 (by rw [hpower]; exact hstep)
  rw [chuckIsolate_alone (b := true) (s := { chuckRebuilt false s with power := { (chuckRebuilt false s).power with serviceStep := 2 } }) 3 hA] at hgoes
  refine ⟨_, congrArg Host.Outcome.next hgoes, hA, rfl, ?_, ?_, rfl, hdata⟩
  · change ((countDomainReset 67 3 (setDomain 67 3 _)).domain 67).state = 3
    rw [countDomainReset_get, if_pos rfl, setDomain_get, if_pos rfl]
  · change ((countDomainReset 67 3 (setDomain 67 3 _)).domain 67).cause = 3
    rw [countDomainReset_get, if_pos rfl]

/-- And once chuck B is back the Active controller fails over. -/
theorem rebuildComplete_chuckB (c : Bool) (s : State) (h : s.keys.rebuilding = 2) (hiso : s.keys.isoA = false) (hp : s.power.service = .resetting) (hstep : s.power.serviceStep = 2)
    (hr : s.rng.inReset = []) (hb : s.fab.rebuild = none) (hc : ctlIn s .active = some c) :
    ∃ t, exec (.chuckMirrorRebuildComplete true) s = .next t ∧ t.keys.isoA = false ∧ t.keys.isoB = false ∧ ctlOf t c = .isolated ∧ (t.domain (68 + bit c)).state = 0 ∧
      t.power.serviceStep = 3 := by
  obtain ⟨hpower, hrng, hfab, hA, hB⟩ := chuckRebuilt_service (b := true) h hiso hr hb
  have hgoes := (serviceGoes_next (by rw [hpower]; exact hp) hrng hfab hA hB).2 (by rw [hpower]; exact hstep)
  have hactive : ctlIn { chuckRebuilt true s with power := { (chuckRebuilt true s).power with serviceStep := 3 } } .active = some c :=
    (congrArg (fun x : Control => if x.ctlA == .active then some false else if x.ctlB == .active then some true else none)
      (chuckRebuilt_keep State.ctl (fun _ _ => rfl) true s)).trans hc
  obtain ⟨hisolated, hoff, hthree, hkeys⟩ := failOver_isolates hactive
  refine ⟨_, congrArg Host.Outcome.next hgoes, ?_, ?_, hisolated, hoff, hthree⟩
  · rw [hkeys]; exact hA
  · rw [hkeys]; exact hB

/-! ## The expiry of keys (R274) -/

/-- A Filled slot whose not-after lies behind the seconds. -/
def pastKey (s : State) (q : Nat × KeySlot) : Bool := q.2.state == .filled && q.2.a.notAfter != 0 && decide (q.2.a.notAfter < s.time.secs)

/-- One slot expires, and its associations freeze. -/
def keyExpired (base : Nat) (s : State) (q : Nat × KeySlot) : State := freezeSlotSas (base + q.1) 3 (updSlot (base + q.1) (fun x => { x with expired := true }) s)

theorem keyExpire_eq {s : State} (h : s.time.isSet = true) :
    keyExpire s = (s.keys.kek.filter (pastKey s)).foldl (keyExpired 0x8000) ((s.keys.data.filter (pastKey s)).foldl (keyExpired 0) s) := by
  unfold keyExpire
  rw [h]
  rfl

theorem freezeSlotSas_slots (m cause : Nat) (s : State) : (freezeSlotSas m cause s).keys.data = s.keys.data ∧ (freezeSlotSas m cause s).keys.kek = s.keys.kek :=
  Prod.mk.inj (freezeSlotSas_data (fun t => (t.keys.data, t.keys.kek)) (fun e s => by rw [post_keys]) (fun _ _ => rfl) (fun _ _ _ => rfl) m cause s)

/-- A table of slots after one expiry. -/
theorem keyExpired_tables (base : Nat) (s : State) (q : Nat × KeySlot) :
    (keyExpired base s q).keys.data = (if 0x8000 ≤ base + q.1 then s.keys.data else s.keys.data.upd (base + q.1) {} (fun x => { x with expired := true })) ∧
    (keyExpired base s q).keys.kek = (if 0x8000 ≤ base + q.1 then s.keys.kek.upd ((base + q.1) % 256) {} (fun x => { x with expired := true }) else s.keys.kek) := by
  unfold keyExpired
  rw [(freezeSlotSas_slots ..).1, (freezeSlotSas_slots ..).2]
  unfold updSlot
  split
  · exact ⟨rfl, rfl⟩
  · exact ⟨rfl, rfl⟩

/-- Expiring a slot leaves every other expired. -/
theorem expired_upd {t : Tab KeySlot} {i j : Nat} (h : (t.get i {}).expired = true) : ((t.upd j {} (fun x => { x with expired := true })).get i {}).expired = true := by
  rw [Tab.get_upd]
  split
  · rfl
  · exact h

theorem keyExpired_data_kept {base i : Nat} {s : State} {q : Nat × KeySlot} (h : (s.keys.data.get i {}).expired = true) : ((keyExpired base s q).keys.data.get i {}).expired = true := by
  rw [(keyExpired_tables base s q).1]
  split
  · exact h
  · exact expired_upd h

theorem keyExpired_kek_kept {base i : Nat} {s : State} {q : Nat × KeySlot} (h : (s.keys.kek.get i {}).expired = true) : ((keyExpired base s q).keys.kek.get i {}).expired = true := by
  rw [(keyExpired_tables base s q).2]
  split
  · exact expired_upd h
  · exact h

theorem keyExpired_data_same {s : State} {q : Nat × KeySlot} (h : q.1 < 0x8000) : ((keyExpired 0 s q).keys.data.get q.1 {}).expired = true := by
  rw [(keyExpired_tables 0 s q).1, if_neg (by omega), Nat.zero_add, Tab.get_upd_same]

theorem keyExpired_kek_same {s : State} {q : Nat × KeySlot} (h : q.1 < 256) : ((keyExpired 0x8000 s q).keys.kek.get q.1 {}).expired = true := by
  rw [(keyExpired_tables 0x8000 s q).2, if_pos (by omega), show (0x8000 + q.1) % 256 = q.1 by omega, Tab.get_upd_same]

theorem keyExpired_frozen_kept {base j : Nat} {s : State} {q : Nat × KeySlot} (h : (s.keys.sa.get j {}).frozen = true) : ((keyExpired base s q).keys.sa.get j {}).frozen = true :=
  freezeSlotSas_frozen_kept (by rw [updSlot_sa]; exact h)

theorem mem_sasOfSlot_keyExpired {base j n : Nat} {s : State} {q : Nat × KeySlot} (h : j ∈ sasOfSlot s n) : j ∈ sasOfSlot (keyExpired base s q) n :=
  mem_sasOfSlot_freezeSlotSas (by rw [sasOfSlot_congr (updSlot_sa ..)]; exact h)

theorem keyExpired_frozen_same {j : Nat} {s : State} {q : Nat × KeySlot} (hq : q.1 < 0x8000) (h : j ∈ sasOfSlot s q.1) : ((keyExpired 0 s q).keys.sa.get j {}).frozen = true := by
  unfold keyExpired
  rw [Nat.zero_add]
  exact freezeSlotSas_frozen hq (by rw [sasOfSlot_congr (updSlot_sa ..)]; exact h)

/-- Where a step makes `Q` hold at its item from `I`, which every step keeps, `Q` holds after the fold. -/
theorem foldl_reaches {α σ : Type} {I Q : σ → Prop} {f : σ → α → σ} {b : α} (hI : ∀ s a, I s → I (f s a)) (hset : ∀ s, I s → Q (f s b)) (hkeep : ∀ s a, Q s → Q (f s a))
    {l : List α} (hb : b ∈ l) {s : σ} (hs : I s) : Q (l.foldl f s) := by
  induction l generalizing s with
  | nil => exact absurd hb List.not_mem_nil
  | cons a l ih =>
    rw [List.foldl_cons]
    rcases List.mem_cons.mp hb with rfl | hb
    · exact List.foldlRecOn l f (hset s hs) fun t ht a _ => hkeep t a ht
    · exact ih hb (hI s a hs)

/-- What holds of a state after an expired data slot still holds after those of the KEK slots. -/
theorem keyExpire_data {s : State} (hset : s.time.isSet = true) {I Q : State → Prop} {q : Nat × KeySlot} (hq : q ∈ s.keys.data) (hpast : pastKey s q = true)
    (hI : ∀ base t p, I t → I (keyExpired base t p)) (hsame : ∀ t, I t → Q (keyExpired 0 t q)) (hkeep : ∀ base t p, Q t → Q (keyExpired base t p)) (hs : I s) : Q (keyExpire s) := by
  rw [keyExpire_eq hset]
  refine List.foldlRecOn _ _ ?_ fun t ht p _ => hkeep 0x8000 t p ht
  exact foldl_reaches (hI 0) hsame (hkeep 0) (List.mem_filter.mpr ⟨hq, hpast⟩) hs

theorem pastKey_of {s : State} {i : Nat} {x : KeySlot} (hf : x.state = .filled) (h0 : x.a.notAfter ≠ 0) (hn : x.a.notAfter < s.time.secs) : pastKey s (i, x) = true := by
  unfold pastKey
  simp [hf, h0, hn]

theorem keyExpire_expires (s : State) (hset : s.time.isSet = true) :
    (∀ i x, (i, x) ∈ s.keys.data → i < 0x8000 → x.state = .filled → x.a.notAfter ≠ 0 → x.a.notAfter < s.time.secs →
      ((keyExpire s).keys.data.get i {}).expired = true ∧ ∀ a ∈ sasOfSlot s i, ((keyExpire s).sa a).frozen = true) ∧
    (∀ i x, (i, x) ∈ s.keys.kek → i < 256 → x.state = .filled → x.a.notAfter ≠ 0 → x.a.notAfter < s.time.secs → ((keyExpire s).keys.kek.get i {}).expired = true) := by
  refine ⟨fun i x hx hi hf h0 hn => ⟨?_, fun a ha => ?_⟩, fun i x hx hi hf h0 hn => ?_⟩
  · exact keyExpire_data hset (I := fun _ : State => True) (Q := fun t : State => (t.keys.data.get i {}).expired = true) hx (pastKey_of hf h0 hn) (fun _ _ _ h => h)
      (fun t _ => keyExpired_data_same hi) (fun _ _ _ h => keyExpired_data_kept h) trivial
  · exact sa_frozen (keyExpire_data hset (I := fun t : State => a ∈ sasOfSlot t i) (Q := fun t : State => (t.keys.sa.get a {}).frozen = true) hx (pastKey_of hf h0 hn)
      (fun _ _ _ h => mem_sasOfSlot_keyExpired h) (fun t h => keyExpired_frozen_same hi h) (fun _ _ _ h => keyExpired_frozen_kept h) ha)
  · rw [keyExpire_eq hset]
    exact foldl_reaches (I := fun _ : State => True) (Q := fun t : State => (t.keys.kek.get i {}).expired = true) (fun _ _ h => h) (fun t _ => keyExpired_kek_same hi)
      (fun _ _ h => keyExpired_kek_kept h) (List.mem_filter.mpr ⟨hx, pastKey_of hf h0 hn⟩) trivial

/-! ## A retired association (R260) -/

/-- An SA that no frame uses becomes Invalid, and the slot that it loaded from the store is released. -/
theorem saInvalid_ends {i : Nat} {s : State} (hr : (s.sa i).retiring = true) (hb : saBusy s i = false) :
    ((saInvalid i s).sa i).valid = false ∧ ((saInvalid i s).sa i).retiring = false ∧ ((saInvalid i s).sa i).enabled = false ∧
      ((s.sa i).store ≠ 0xFFFFFFFF → (s.slot (s.sa i).slot).state = .filled → (s.slot (s.sa i).slot).refs = 0 → ((saInvalid i s).slot (s.sa i).slot).state = .free) := by
  let u := updSa i (fun a => { a with valid := false, retiring := false, enabled := false }) s
  have hu : (u.sa i).valid = false ∧ (u.sa i).retiring = false ∧ (u.sa i).enabled = false := by
    have hraw : u.keys.sa.get i {} = { s.keys.sa.get i {} with valid := false, retiring := false, enabled := false } := (updSa_record ..).trans (if_pos rfl)
    unfold State.sa
    rw [hraw]
    dsimp only
    split <;> exact ⟨rfl, rfl, rfl⟩
  have heq : saInvalid i s = if (s.sa i).store ≠ 0xFFFFFFFF then slotRelease (s.sa i).slot u else u := by
    unfold saInvalid
    simp only [hr, hb, Bool.not_false, Bool.and_self, if_true]
    rfl
  have hsa : (saInvalid i s).sa i = u.sa i := by
    rw [heq]
    split
    · refine sa_eq_of (slotRelease_sa ..) ?_ i
      exact congrArg ToolRest.shadowBad (slotRelease_keep State.rest (fun _ _ => rfl) ..)
    · rfl
  rw [hsa]
  refine ⟨hu.1, hu.2.1, hu.2.2, fun hst hf hrefs => ?_⟩
  rw [heq, if_pos hst]
  exact slotRelease_free (s := u) hf hrefs

/-- Settles O25: each clause is one operation of the key unit, read through the rules of slots and associations. -/
theorem slotCopiesFailAndAreRebuilt : Obligations.SlotCopiesFailAndAreRebuilt := by
  unfold Obligations.SlotCopiesFailAndAreRebuilt
  refine ⟨slotScrub_first, fun target b s hf hc => slotScrub_second target b s hf ?_, fun target s hf hr => ⟨_, rfl, slotFree_slot hf hr⟩, rebuildComplete_alone,
    rebuildComplete_chuckA, rebuildComplete_chuckB, fun s hset => ⟨_, rfl, keyExpire_expires s hset⟩, fun i s hr hb => ⟨_, rfl, saInvalid_ends hr hb⟩⟩
  rw [hc]
  cases b <;> rfl

end Sys2Proof.Machine

/-! The state after reset (R255, R355, R378, R403, R422, R431, R484, R485), and with it obligation O52. -/
namespace Sys2Proof.Machine

/-- No slot is listed and no mismatch, so that each slot reads as the default record. -/
theorem reset_slot (n : Nat) : State.reset.slot n = {} := by
  have hrecord : (if 0x8000 ≤ n then State.reset.keys.kek.get (n % 256) {} else State.reset.keys.data.get n {}) = {} := ite_self (α := KeySlot) {}
  unfold State.slot
  rw [hrecord]
  rfl

/-- Settles O52: the state after reset lists no slot, association, source, ring, session or counter, and its parts are the initial ones. -/
theorem resetLeavesThePartOff : Obligations.ResetLeavesThePartOff := by
  have hlisted : State.reset.keys.sa = [] := rfl
  refine ⟨rfl, rfl, rfl, fun _ => rfl, fun n => ?_, fun q hq => ?_, fun _ => rfl, rfl, rfl, fun _ => rfl, fun _ => rfl, fun _ => rfl, rfl, rfl⟩
  · rw [reset_slot]
  · rw [hlisted] at hq
    exact absurd hq List.not_mem_nil

end Sys2Proof.Machine

/-! Rollovers that fall due and guard windows that end (R159, R266 to R268). -/
namespace Sys2Proof.Machine

/-! ## Reading a rollover record after a write -/

theorem updRoll_roll_same (u : RollUser) (f : Roll → Roll) (s : State) : (updRoll u f s).roll u = f (s.roll u) := by
  cases u <;> exact Tab.get_upd_same ..

/-- A change of a rollover record leaves the associations, the SCs, the counters and the tributaries. -/
theorem updRoll_keep_others {β : Type} (P : State → β) (hP : ∀ s x y, P { s with keys := { s.keys with rollSc := x, rollTrib := y } } = P s) (u : RollUser) (f : Roll → Roll) (s : State) :
    P (updRoll u f s) = P s := by
  cases u with
  | sc i => exact hP s _ s.keys.rollTrib
  | tributary i => exact hP s s.keys.rollSc _

theorem updRoll_sc (u : RollUser) (f : Roll → Roll) (s : State) (i : Nat) : (updRoll u f s).sc i = s.sc i := updRoll_keep_others (fun t => t.sc i) (fun _ _ _ => rfl) u f s
theorem updRoll_sa (u : RollUser) (f : Roll → Roll) (s : State) (i : Nat) : (updRoll u f s).sa i = s.sa i := updRoll_keep_others (fun t => t.sa i) (fun _ _ _ => rfl) u f s
theorem updRoll_tr (u : RollUser) (f : Roll → Roll) (s : State) (i : Nat) : (updRoll u f s).tr i = s.tr i := updRoll_keep_others (fun t => t.tr i) (fun _ _ _ => rfl) u f s
theorem updRoll_counters (u : RollUser) (f : Roll → Roll) (s : State) : (updRoll u f s).keys.counters = s.keys.counters :=
  updRoll_keep_others (fun t => t.keys.counters) (fun _ _ _ => rfl) u f s
theorem updRoll_slot (u : RollUser) (f : Roll → Roll) (s : State) (n : Nat) : (updRoll u f s).slot n = s.slot n := updRoll_keep_others (fun t => t.slot n) (fun _ _ _ => rfl) u f s
theorem updRoll_time (u : RollUser) (f : Roll → Roll) (s : State) : (updRoll u f s).time = s.time := updRoll_keep_others State.time (fun _ _ _ => rfl) u f s

/-- A read of a rollover record depends on the two tables alone. -/
theorem roll_eq_of {s t : State} (hsc : t.keys.rollSc = s.keys.rollSc) (htrib : t.keys.rollTrib = s.keys.rollTrib) (u : RollUser) : t.roll u = s.roll u := by
  cases u with
  | sc i => exact congrArg (fun x : Tab Roll => x.get i {}) hsc
  | tributary i => exact congrArg (fun x : Tab Roll => x.get i {}) htrib

/-- Neither an event nor a count of the key unit touches a rollover record. -/
theorem keyEvent_roll (i : Nat) (s : State) (u : RollUser) : (keyEvent i s).roll u = s.roll u := roll_eq_of rfl rfl u
theorem keyCount_roll (i : Nat) (s : State) (u : RollUser) : (keyCount i s).roll u = s.roll u := roll_eq_of rfl rfl u
theorem post_roll (e : Event) (s : State) (u : RollUser) : (post e s).roll u = s.roll u :=
  roll_eq_of (congrArg Keys.rollSc (post_keys ..)) (congrArg Keys.rollTrib (post_keys ..)) u

/-! ## A record that falls due (R266, R267) -/

theorem exec_rolloverDue {u : RollUser} {s : State} (hset : s.time.isSet = true) (harmed : (s.roll u).state = 1) :
    exec (.rolloverDue u) s = .next (rollDue u (waitTime (s.roll u).t s)) := by
  refine congrArg Host.Outcome.next (if_pos ?_)
  rw [hset, harmed]
  rfl

theorem waitTime_roll (c : Nat) (s : State) (u : RollUser) : (waitTime c s).roll u = s.roll u := roll_eq_of rfl rfl u
theorem waitTime_rollReady (c : Nat) (s : State) (u : RollUser) : rollReady (waitTime c s) u = rollReady s u := by
  cases u <;> rfl

theorem rollDue_ready {u : RollUser} {s : State} (harmed : (s.roll u).state = 1) (hready : rollReady s u = true) : rollDue u s = rollGuard u (s.roll u).t s := by
  unfold rollDue
  rw [if_neg (not_not_intro harmed), if_pos hready]

theorem rollDue_missed {u : RollUser} {s : State} (harmed : (s.roll u).state = 1) (hready : rollReady s u = false) : rollDue u s = rollMissed u s := by
  unfold rollDue
  rw [if_neg (not_not_intro harmed), if_neg (by rw [hready]; exact Bool.false_ne_true)]

/-- What the guard record of any user shows: the window counts from the present cycle. -/
theorem rollGuard_window (u : RollUser) (T : Nat) (s : State) :
    ((rollGuard u T s).roll u).state = 2 ∧ ((rollGuard u T s).roll u).guardEnd = (rollGuard u T s).time.cycles + cyclesUs (guardOf s (s.roll u)) ∧
      (rollGuard u T s).keys.counters.get 7 0 = s.keys.counters.get 7 0 + 1 := by
  cases u with
  | sc i =>
    unfold rollGuard
    dsimp only
    rw [updRoll_roll_same, updRoll_time, updRoll_counters]
    refine ⟨rfl, ?_, ?_⟩
    · split <;> rfl
    · split <;> exact (keyCount_get 7 7 s).trans (if_pos rfl)
  | tributary i =>
    unfold rollGuard keyChangeDue
    dsimp only
    rw [updRoll_roll_same, updRoll_time, updRoll_counters]
    refine ⟨rfl, ?_, ?_⟩
    · split <;> rfl
    · split <;> exact (keyCount_get 7 7 s).trans (if_pos rfl)

/-- A transmit SC switches to the incoming AN; the association of the AN before is the outgoing one. -/
theorem rollGuard_transmits {i : Fin 16384} {T : Nat} {s : State} (hrx : (s.sc i).rx = false) :
    ((rollGuard (.sc i) T s).sc i).txAn = (s.roll (.sc i)).incoming ∧ ((rollGuard (.sc i) T s).roll (.sc i)).outgoing = (s.sc i).saAt (s.sc i).txAn := by
  have hrx' : ((keyCount 7 s).sc i).rx = false := hrx
  unfold rollGuard
  dsimp only
  rw [updRoll_roll_same, updRoll_sc, hrx']
  simp only [Bool.false_eq_true, if_false]
  refine ⟨?_, rfl⟩
  rw [updSc_get, if_pos rfl]

/-- A transmit tributary switches to the incoming KI, with a key change unless the block under way carries that KI already. -/
theorem rollGuard_keyChange {i : Fin 256} {T : Nat} {s : State} (htx : (s.tr i).saAt .s2l (s.roll (.tributary i)).incoming ≠ 0xFFFF) :
    ((rollGuard (.tributary i) T s).tr i).txKi = (s.roll (.tributary i)).incoming % 4 ∧
      ((s.tr i).blkOpen = false ∨ (s.tr i).changes ≠ [] ∨ (s.tr i).blkKi ≠ (s.roll (.tributary i)).incoming % 4 →
        ((rollGuard (.tributary i) T s).tr i).changes = (s.tr i).changes ++ [((s.roll (.tributary i)).incoming % 4, T)]) := by
  have htx' : ((keyCount 7 s).tr i).saAt .s2l (s.roll (.tributary i)).incoming ≠ 0xFFFF := htx
  have htr : (keyCount 7 s).tr i = s.tr i := rfl
  unfold rollGuard keyChangeDue
  dsimp only
  rw [updRoll_tr, if_pos htx', updTr_get, if_pos rfl, htr]
  constructor
  · split <;> rfl
  · intro hopen
    rw [if_neg]
    intro hsame
    simp only [Bool.and_eq_true, List.isEmpty_iff, beq_iff_eq] at hsame
    obtain ⟨⟨hblk, hnil⟩, hki⟩ := hsame
    rcases hopen with h | h | h
    · exact absurd (hblk.symm.trans h) (by decide)
    · exact h hnil
    · exact h hki

theorem rollMissed_shows (u : RollUser) (s : State) :
    ((rollMissed u s).roll u).state = 4 ∧ (rollMissed u s).keys.counters.get 8 0 = s.keys.counters.get 8 0 + 1 ∧ (rollMissed u s).keys.events.getLsbD 6 = true := by
  unfold rollMissed
  dsimp only
  refine ⟨?_, ?_, keyEvent_event (by decide) _⟩
  · rw [keyEvent_roll, keyCount_roll, post_roll, updRoll_roll_same]
  · rw [keyEvent_counters, keyCount_get, if_pos rfl, post_keys, updRoll_counters]

/-! ## The end of a guard window (R268) -/

/-- Only the Frozen bit of an SA shows a mismatch. -/
theorem sa_valid (s : State) (i : Nat) : (s.sa i).valid = (s.keys.sa.get i {}).valid := by unfold State.sa; dsimp only; split <;> rfl
theorem sa_retiring (s : State) (i : Nat) : (s.sa i).retiring = (s.keys.sa.get i {}).retiring := by unfold State.sa; dsimp only; split <;> rfl

theorem saRetire_record (i j : Nat) (s : State) : (saRetire i s).keys.sa.get j {} =
    if j = i ∧ (s.keys.sa.get i {}).valid = true then { s.keys.sa.get i {} with retiring := true } else s.keys.sa.get j {} := by
  unfold saRetire
  rw [sa_valid]
  split
  · next hv =>
    rw [updSa_record]
    simp only [hv, and_true]
  · next hv => rw [if_neg fun h => hv h.2]

theorem saRetire_valid (i j : Nat) (s : State) : ((saRetire i s).sa j).valid = (s.sa j).valid := by
  rw [sa_valid, sa_valid, saRetire_record]
  split
  · next h => rw [h.1]
  · rfl

theorem saRetire_retiring {i j : Nat} {s : State} (h : (s.sa j).retiring = true) : ((saRetire i s).sa j).retiring = true := by
  rw [sa_retiring] at h ⊢
  rw [saRetire_record]
  split
  · rfl
  · exact h

theorem saRetire_retires {i : Nat} {s : State} (h : (s.sa i).valid = true) : ((saRetire i s).sa i).retiring = true := by
  rw [sa_valid] at h
  rw [sa_retiring, saRetire_record, if_pos ⟨rfl, h⟩]

/-- The Valid outgoing associations of a record are Retiring once it has taken them out. -/
theorem retireOutgoing_retires {u : RollUser} {i : Nat} {s : State} (hi : i ∈ [(s.roll u).outgoing, (s.roll u).outgoingRx]) (hnone : i ≠ 0xFFFF) (hv : (s.sa i).valid = true) :
    ((retireOutgoing u s).sa i).retiring = true := by
  have hmem : i ∈ [(s.roll u).outgoing, (s.roll u).outgoingRx].filter (· ≠ 0xFFFF) := List.mem_filter.mpr ⟨hi, decide_eq_true hnone⟩
  unfold retireOutgoing
  refine foldl_reaches (I := fun t : State => (t.sa i).valid = true) (Q := fun t : State => (t.sa i).retiring = true) (fun t j h => (saRetire_valid j i t).trans h)
    (fun t h => saRetire_retires h) (fun t j h => saRetire_retiring h) hmem ?_
  cases u <;> exact hv

theorem retireOutgoing_roll (u v : RollUser) (s : State) : (retireOutgoing u s).roll v = s.roll v := by
  have hretire (i : Nat) (t : State) : (saRetire i t).roll v = t.roll v := by
    unfold saRetire
    split
    · exact roll_eq_of rfl rfl v
    · rfl
  unfold retireOutgoing
  refine (keep (P := fun t : State => t.roll v) fun t i => hretire i t).trans ?_
  cases u <;> exact roll_eq_of rfl rfl v

/-- A guard window that nothing holds open ends no sooner than its instant. -/
theorem guardEnds_ends {u : RollUser} {s : State} (hguard : (s.roll u).state = 2) (hwaits : rollWaits s u = false) (hdrained : rollDrained s u = true) :
    (s.roll u).guardEnd ≤ (guardEnds u s).time.cycles ∧ ((guardEnds u s).roll u).state = (if (s.roll u).chain then 3 else 0) ∧
      ∀ i ∈ [(s.roll u).outgoing, (s.roll u).outgoingRx], i ≠ 0xFFFF → (s.sa i).valid = true → ((guardEnds u s).sa i).retiring = true := by
  have hwait (v : RollUser) (c : Nat) : (waitCycle c s).roll v = s.roll v := roll_eq_of rfl rfl v
  unfold guardEnds
  rw [if_neg (by rw [hguard, hwaits, hdrained]; decide)]
  refine ⟨?_, ?_, fun i hi hnone hv => ?_⟩
  · rw [updRoll_time, retireOutgoing_keep State.time (fun _ _ _ => rfl)]
    exact (waitCycle_cycles _ s).1
  · rw [updRoll_roll_same, retireOutgoing_roll, hwait]
  · rw [updRoll_sa]
    exact retireOutgoing_retires (by rw [hwait]; exact hi) hnone hv

end Sys2Proof.Machine

/-! What the commands of a commit's run leave of the state (R247, R249, R254, R255): the rollover records, the count of key commands, the power unit but for
the chucks' domains, and the tool rest's core. -/
namespace Sys2Proof.Machine

/-- What a key command leaves of the key unit: all but the slots, the associations, the chucks, the events and the counters of what it meets. -/
def keysCore (k : Keys) : Keys × W64 × W64 :=
  ({ k with data := [], kek := [], isoA := false, isoB := false, sa := [], events := 0, counters := [] }, k.counters.get 0 0, k.counters.get 5 0)

/-- What `P` reads shows nothing of what a run of key commands changes, the loaded associations apart. -/
structure RunBlind {β : Type} (P : State → β) : Prop extends CoreBlind P where
  keys : ∀ s x, keysCore x = keysCore s.keys → P { s with keys := x } = P s
  otn : ∀ s x, P { s with otn := x } = P s
  rng : ∀ s x, P { s with rng := x } = P s
  time : ∀ s x, P { s with time := x } = P s
  free : ∀ s x, P { s with free := x } = P s
  domain : ∀ s d f, d = 66 ∨ d = 67 → P { s with power := { s.power with domains := s.power.domains.upd d {} f } } = P s

/-- What `P` reads of the state that a run would leave, with its record number, its deletes and its results. -/
def runView {β : Type} (P : State → β) (k : KeyRun) : β × Nat × List (Nat × Nat) × Octets := (P k.s, k.n, k.deletes, k.exports)

/-- A run that changes its state as `P` does not show it shows the same. -/
theorem runView_eq {β : Type} {P : State → β} {k k' : KeyRun} (hs : P k'.s = P k.s) (hbook : (k'.n, k'.deletes, k'.exports) = (k.n, k.deletes, k.exports)) :
    runView P k' = runView P k := Prod.ext hs hbook

theorem runView_then {β : Type} {P : State → β} {k k₁ k' : KeyRun} (hv : runView P k₁ = runView P k) (hs : P k'.s = P k₁.s)
    (hbook : (k'.n, k'.deletes, k'.exports) = (k₁.n, k₁.deletes, k₁.exports)) : runView P k' = runView P k := (runView_eq hs hbook).trans hv

section
variable {β : Type} {P : State → β} (h : RunBlind P)
include h

/-! ## Slots -/

theorem RunBlind.keyCount {i : Nat} (hi : 0 ≠ i ∧ 5 ≠ i) (s : State) : P (keyCount i s) = P s := by
  refine h.keys s _ ?_
  unfold keysCore
  rw [Tab.get_bump, Tab.get_bump, if_neg hi.1, if_neg hi.2]

theorem RunBlind.keyEvent (i : Nat) (s : State) : P (keyEvent i s) = P s := h.keys s _ rfl

theorem RunBlind.updSlot (n : Nat) (f : KeySlot → KeySlot) (s : State) : P (updSlot n f s) = P s := by
  unfold Machine.updSlot
  split
  · exact h.keys s _ rfl
  · exact h.keys s _ rfl

theorem RunBlind.slotBad (n : Nat) (s : State) : P (slotBad n s) = P s := by
  unfold Machine.slotBad
  rw [freezeSlotSas_data P h.post h.otn (fun s _ _ => h.keys s _ rfl), h.keyEvent, h.keyCount (by decide), h.post, h.updSlot]

theorem RunBlind.copyFails (n : Nat) (b : Bool) (s : State) : P (copyFails n b s) = P s := by
  unfold Machine.copyFails
  generalize (if b then 2 else 1) = mark
  dsimp only
  split
  · rfl
  · rw [apply_ite P, h.slotBad, h.keyEvent, h.post, h.updSlot, ite_self, h.keyCount (by decide)]

theorem RunBlind.readSlot (n : Nat) (s : State) : P (readSlot n s).2 = P s := by
  unfold Machine.readSlot
  dsimp only
  split
  · rfl
  · refine keep2 fun p b => ?_
    split
    · rfl
    · rw [apply_ite Prod.snd, apply_ite P, h.copyFails, ite_self]

/-! ## Chucks -/

theorem RunBlind.chuckIsolate (b : Bool) (cause : Nat) (s : State) : P (chuckIsolate b cause s) = P s := by
  have hd : 66 + bit b = 66 ∨ 66 + bit b = 67 := by cases b <;> decide
  have hout : P (Machine.keyEvent 0 { countDomainReset (66 + bit b) cause (setDomain (66 + bit b) 3 s) with
      keys := if b then { s.keys with isoB := true } else { s.keys with isoA := true } }) = P s := by
    rw [h.keyEvent]
    refine (h.keys (countDomainReset (66 + bit b) cause (setDomain (66 + bit b) 3 s)) _ ?_).trans ((h.domain (setDomain (66 + bit b) 3 s) _ _ hd).trans (h.domain s _ _ hd))
    cases b <;> rfl
  unfold Machine.chuckIsolate
  dsimp only
  split
  · refine (keep fun t q => ?_).trans ((keep fun t q => ?_).trans hout)
    · split
      · exact h.slotBad ..
      · rfl
    · split
      · exact h.slotBad ..
      · rfl
  · exact hout

theorem RunBlind.chucks (k : KeyRun) : runView P k.chucks.2 = runView P k := by
  unfold KeyRun.chucks KeyRun.both
  split
  · rfl
  · split
    · rfl
    · exact runView_eq ((h.chuckIsolate ..).trans (h.keyCount (by decide) _)) rfl
    · exact runView_eq (h.keyCount (by decide) _) rfl

theorem RunBlind.fill (n : Nat) (a : Attr) (key : Octets) (k : KeyRun) : runView P (k.fill n a key).2 = runView P k := by
  unfold KeyRun.fill
  dsimp only
  split
  · rfl
  · split
    · exact h.chucks k
    · exact runView_then (h.chucks k) (h.updSlot ..) rfl

/-! ## Draws, reads and stores -/

theorem RunBlind.openOctets (n : Nat) (k : KeyRun) : runView P (KeyRun.openOctets n k).2 = runView P k := by
  induction n generalizing k with
  | zero => rfl
  | succ n ih => exact (ih _).trans (runView_eq (h.free k.s _) rfl)

theorem RunBlind.draw (n : Nat) (k : KeyRun) : runView P (k.draw n).2 = runView P k := by
  unfold KeyRun.draw KeyRun.both
  split
  · next o t hd => exact runView_eq (rngDraw_keep P h.rng n k.s (o, t) hd) rfl
  · dsimp only
    split
    · exact (h.openOctets ..).trans (runView_eq ((h.time ..).trans (h.free k.s _)) rfl)
    · exact runView_eq ((h.time ..).trans (h.free k.s _)) rfl

theorem RunBlind.read (n : Nat) (k : KeyRun) : runView P (k.read n).2 = runView P k := runView_eq (h.readSlot n k.s) rfl

theorem RunBlind.entry (sa : Bool) (i : Nat) (k : KeyRun) : runView P (k.entry sa i).2 = runView P k := by
  have heach (used : Bool) (r : Option Octets × KeyRun) (hr : runView P r.2 = runView P k) : runView P (if !used then (none, k) else r).2 = runView P k := by
    cases used
    · rfl
    · exact hr
  exact heach _ _ (runView_eq (h.storeRead sa i k.s) rfl)

/-! ## Blobs -/

theorem RunBlind.blobInside (blob key : Octets) (n : Nat) (k : KeyRun) : runView P (blobInside blob key n k).2.2 = runView P k := by
  unfold Machine.blobInside KeyRun.both
  dsimp only
  split
  · exact runView_eq (h.keyCount (by decide) _) rfl
  · next p _ =>
    generalize (if octet blob 3 = 3 then 124 else 80 : Nat) = len
    split
    · exact runView_eq (h.keyCount (by decide) _) rfl
    · (repeat' split) <;> rfl

theorem RunBlind.blobCheck (blob : Octets) (sa : Bool) (n : Nat) (k : KeyRun) : runView P (blobCheck blob sa n k).2.2 = runView P k := by
  unfold Machine.blobCheck
  generalize (if sa then 3 else if isKek n then 2 else 1 : Nat) = kind
  dsimp only
  split
  · rfl
  · split
    · rfl
    · split
      · rfl
      · next m _ =>
        have hread := h.read (0x8000 + m) k
        split
        · rfl
        · split
          · rfl
          · split
            · next hr => rw [hr] at hread; exact hread
            · next hr => rw [hr] at hread; exact (h.blobInside ..).trans hread

theorem RunBlind.kekNamed (n need : Nat) (k : KeyRun) : runView P (k.kekNamed n need).2.2 = runView P k := by
  have hread := h.read (0x8000 + n) k
  unfold KeyRun.kekNamed
  dsimp only
  split
  · rfl
  · split
    · rfl
    · split
      · rfl
      · split
        · next hr => rw [hr] at hread; exact hread
        · next hr => rw [hr] at hread; exact hread

theorem RunBlind.loadBlob (n : Nat) (blob : Octets) (k : KeyRun) : runView P (loadBlob n blob k).2 = runView P k := by
  have hcheck := h.blobCheck blob false n k
  unfold Machine.loadBlob
  split
  · next hc => rw [hc] at hcheck; exact (h.fill ..).trans hcheck
  · next hc => rw [hc] at hcheck; exact hcheck

/-! ## Commands (R249) -/

theorem RunBlind.cmdBlobStore (r : Octets) (k : KeyRun) : runView P (cmdBlobStore r k).2 = runView P k := by
  have hentry := h.entry false (leAt r 8 4) k
  unfold Machine.cmdBlobStore
  split
  · next he => rw [he] at hentry; exact (h.loadBlob ..).trans hentry
  · next he => rw [he] at hentry; exact hentry

theorem RunBlind.cmdDerive (r : Octets) (k : KeyRun) : runView P (cmdDerive r k).2 = runView P k := by
  have hnamed := h.kekNamed (leAt r 6 2) 0x08 k
  unfold Machine.cmdDerive
  dsimp only
  split
  · rfl
  · split
    · next hn =>
      rw [hn] at hnamed
      split
      · exact hnamed
      · exact (h.fill ..).trans hnamed
    · next hn => rw [hn] at hnamed; exact hnamed

theorem RunBlind.cmdGenerate (r : Octets) (k : KeyRun) : runView P (cmdGenerate r k).2 = runView P k := by
  have hdraw := h.draw (Attr.ofBlock (slice r 8 24)).keyLen k
  unfold Machine.cmdGenerate
  dsimp only
  split
  · rfl
  · split
    · rfl
    · split
      · next hd => rw [hd] at hdraw; exact (h.fill ..).trans hdraw
      · next hd => rw [hd] at hdraw; exact hdraw

theorem RunBlind.cmdExport (r : Octets) (k : KeyRun) : P (cmdExport r k).2.s = P k.s := by
  have hstate {k k' : KeyRun} (hv : runView P k' = runView P k) : P k'.s = P k.s := congrArg Prod.fst hv
  unfold Machine.cmdExport
  dsimp only
  split
  · rfl
  · split
    · rfl
    · have hnamed := h.kekNamed (leAt r 6 2) (if (octet r 8 == 1) = true then 0x50 else 0x10) k
      split
      · next k' hn =>
        rw [hn] at hnamed
        split
        · exact hstate hnamed
        · have hread := h.read (targetAt r 4) k'
          split
          · next hr => rw [hr] at hread; exact hstate (hread.trans hnamed)
          · next hr =>
            rw [hr] at hread
            have hdone := hstate ((h.chucks _).trans (hread.trans hnamed))
            split
            · exact hdone
            · exact hdone
      · next hn => rw [hn] at hnamed; exact hstate hnamed

theorem RunBlind.cmdImport (r : Octets) (k : KeyRun) : runView P (cmdImport r k).2 = runView P k := by
  have hnamed := h.kekNamed (leAt r 6 2) 0x44 k
  unfold Machine.cmdImport KeyRun.both
  dsimp only
  split
  · rfl
  · split
    · rfl
    · split
      · rfl
      · split
        · next hn =>
          rw [hn] at hnamed
          split
          · exact (h.fill ..).trans hnamed
          · exact runView_then hnamed (h.keyCount (by decide) _) rfl
        · next hn => rw [hn] at hnamed; exact hnamed

section
variable (hshadow : ∀ g i s, P (shadowFix g i s) = P s)
include hshadow

theorem RunBlind.putSa (i : Nat) (a : Sa) (s : State) : P (putSa i a s) = P s := (hshadow ..).trans (h.keys s _ rfl)

theorem RunBlind.cmdLoadSa (r : Octets) (k : KeyRun) : runView P (cmdLoadSa r k).2 = runView P k := by
  have hentry := h.entry true (leAt r 4 4) k
  unfold Machine.cmdLoadSa
  dsimp only
  split
  · rfl
  · split
    · next he => rw [he] at hentry; exact hentry
    · next b k' he =>
      rw [he] at hentry
      have hcheck := h.blobCheck b true (leAt r 10 2) k'
      split
      · next p k'' hc =>
        rw [hc] at hcheck
        have hfill := h.fill (leAt r 10 2) (Attr.ofPlain p) (slice p 48 (Attr.ofPlain p).keyLen) k''
        split
        · exact hcheck.trans hentry
        · split
          · next hf => rw [hf] at hfill; exact runView_then (hfill.trans (hcheck.trans hentry)) (h.putSa hshadow ..) rfl
          · exact hfill.trans (hcheck.trans hentry)
      · next hc => rw [hc] at hcheck; exact hcheck.trans hentry

theorem RunBlind.keyCommand (r : Octets) (k : KeyRun) : P (keyCommand r k).2.s = P k.s := by
  unfold Machine.keyCommand
  split
  · exact congrArg Prod.fst (h.loadBlob (targetAt r 4) (slice r 8 104) k)
  · exact congrArg Prod.fst (h.cmdBlobStore r k)
  · exact congrArg Prod.fst (h.cmdDerive r k)
  · exact congrArg Prod.fst (h.cmdGenerate r k)
  · exact h.cmdExport r k
  · exact congrArg Prod.fst (h.cmdImport r k)
  · rfl
  · exact congrArg Prod.fst (h.cmdLoadSa hshadow r k)

/-! ## Chains (R269) -/

theorem RunBlind.chainOne (hsc : ∀ i f s, P (updSc i f s) = P s) (u : RollUser) (p : ChainPart) (k : KeyRun) : runView P (chainOne u p k).2.2 = runView P k := by
  have hplace (d : Dir) (i : Nat) (s : State) : P (chainPlace u d i s) = P s := by
    cases u with
    | sc n => exact hsc ..
    | tributary n => exact h.otn ..
  have hentry : runView P (if (k.s.sa p.incoming).succ = 0xFFFFFFFF then ((none : Option Octets), k) else k.entry true (k.s.sa p.incoming).succ).2 = runView P k := by
    split
    · rfl
    · exact h.entry ..
  unfold Machine.chainOne
  dsimp only
  split
  · next he => rw [he] at hentry; exact hentry
  · next b k' he =>
    rw [he] at hentry
    split
    · exact hentry
    · next slot _ =>
      split
      · exact hentry
      · have hcheck := h.blobCheck b true slot k'
        split
        · next q k'' hc =>
          rw [hc] at hcheck
          have hfill := h.fill slot (Attr.ofPlain q) (slice q 48 (Attr.ofPlain q).keyLen) k''
          have hthen := hcheck.trans hentry
          split
          · exact hthen
          · split
            · exact hthen
            · split
              · exact hthen
              · split
                · next hf => rw [hf] at hfill; exact runView_then (hfill.trans hthen) ((hplace ..).trans (h.putSa hshadow ..)) rfl
                · next hf => rw [hf] at hfill; exact hfill.trans hthen
        · next hc => rw [hc] at hcheck; exact hcheck.trans hentry

theorem RunBlind.chainAll (hsc : ∀ i f s, P (updSc i f s) = P s) (u : RollUser) (l : List ChainPart) (k : KeyRun) : runView P (chainAll u l k).2.2 = runView P k := by
  induction l generalizing k with
  | nil => rfl
  | cons p l ih =>
    have hone := h.chainOne hshadow hsc u p k
    unfold Machine.chainAll
    split
    · next k' ho =>
      rw [ho] at hone
      have hrest := ih k'
      split
      · next hr => rw [hr] at hrest; exact hrest.trans hone
      · exact hrest.trans hone
    · exact hone

end
end

end Sys2Proof.Machine

/-! Key slots that a run fills (R247, R255) and chains that load a successor (R269), and with them obligation O26. -/
namespace Sys2Proof.Machine

/-! ## What a run leaves -/

theorem coreBlind_rest {β : Type} (f : TamperState × Owner × Tab Octets × List (Nat × Nat) × Bool × Bool → β) : RunBlind (fun s => f (restCore s.rest)) where
  post e s := congrArg (fun r => f (restCore r)) (post_keep State.rest (fun _ _ _ => rfl) e s)
  rest s x hx := by rw [hx]
  path _ _ := rfl
  mpu _ _ := rfl
  out _ _ := rfl
  keys _ _ _ := rfl
  otn _ _ := rfl
  rng _ _ := rfl
  time _ _ := rfl
  free _ _ := rfl
  domain _ _ _ _ := rfl

theorem shadowBad_runBlind : RunBlind (fun s => s.rest.shadowBad) := coreBlind_rest (fun x => x.2.2.2.1)

theorem keysCore_runBlind {β : Type} (f : Keys × W64 × W64 → β) : RunBlind (fun s => f (keysCore s.keys)) where
  post e s := congrArg (fun x => f (keysCore x)) (post_keys e s)
  rest _ _ _ := rfl
  path _ _ := rfl
  mpu _ _ := rfl
  out _ _ := rfl
  keys s x hx := by rw [hx]
  otn _ _ := rfl
  rng _ _ := rfl
  time _ _ := rfl
  free _ _ := rfl
  domain _ _ _ _ := rfl

/-- A record of a rollover, and the counter of chain loads, as a run keeps them. -/
def chainView (u : RollUser) (s : State) : Roll × W64 := (s.roll u, s.keys.counters.get 5 0)

theorem chainView_runBlind (u : RollUser) : RunBlind (chainView u) := by
  cases u with
  | sc i => exact keysCore_runBlind fun x => (x.1.rollSc.get i {}, x.2.2)
  | tributary i => exact keysCore_runBlind fun x => (x.1.rollTrib.get i {}, x.2.2)

theorem chainView_shadowFix (u : RollUser) (g i : Nat) (s : State) : chainView u (shadowFix g i s) = chainView u s := by cases u <;> rfl
theorem chainView_updSc (u : RollUser) (i : Nat) (f : Sc → Sc) (s : State) : chainView u (updSc i f s) = chainView u s := by cases u <;> rfl

/-! ## A slot that is filled (R247, R255) -/

/-- A fill that succeeds found the slot Free, and leaves it Filled with two equal copies. -/
theorem fill_fills {n : Nat} {a : Attr} {key : Octets} {k k' : KeyRun} (h : k.fill n a key = (0, k')) :
    (k.s.slot n).state = .free ∧ k' = { k.chucks.2 with s := updSlot n (fun _ => filledSlot k.chucks.2.s n (a.copy key)) k.chucks.2.s, fills := n :: k.chucks.2.fills } ∧
      k'.s.slot n = filledSlot k.chucks.2.s n (a.copy key) := by
  unfold KeyRun.fill at h
  split at h
  · exact absurd (congrArg Prod.fst h) (by dsimp only; decide)
  · next hfree =>
    have hfree : (k.s.slot n).state = .free := by simpa using hfree
    have hshadow : k.chucks.2.s.shadow 5 (slotItem n) = false := by
      have hrun : k.chucks.2.s.rest.shadowBad = k.s.rest.shadowBad := (congrArg (fun x : List (Nat × Nat) × _ => x.1) (shadowBad_runBlind.chucks k) :)
      unfold State.shadow
      rw [hrun]
      exact shadow_of_slot (by rw [hfree]; decide)
    dsimp only at h
    split at h
    · next hne => exact absurd (congrArg Prod.fst h) hne
    · have hk' : k' = _ := (congrArg Prod.snd h).symm
      refine ⟨hfree, hk', ?_⟩
      rw [hk']
      exact updSlot_slot_same _ hshadow

/-! ## A loaded association (R263) -/

theorem sa_enabled (s : State) (i : Nat) : (s.sa i).enabled = (s.keys.sa.get i {}).enabled := by unfold State.sa; dsimp only; split <;> rfl
theorem sa_slot (s : State) (i : Nat) : (s.sa i).slot = (s.keys.sa.get i {}).slot := by unfold State.sa; dsimp only; split <;> rfl
theorem sa_store (s : State) (i : Nat) : (s.sa i).store = (s.keys.sa.get i {}).store := by unfold State.sa; dsimp only; split <;> rfl

theorem putSa_record (i : Nat) (a : Sa) (s : State) : (putSa i a s).keys.sa.get i {} = a := by
  unfold putSa
  exact (updSa_record i i (fun _ => a) s).trans (if_pos rfl)

/-- Writing an SA leaves a slot that does not read as Bad. -/
theorem putSa_slot {i n : Nat} {a : Sa} {s : State} (h : (s.slot n).state ≠ .bad) : (putSa i a s).slot n = s.slot n := by
  have hshadow : s.rest.shadowBad.contains (5, slotItem n) = false := shadow_of_slot h
  have hshadow' : (putSa i a s).rest.shadowBad.contains (5, slotItem n) = false := by
    rw [List.contains_eq_mem, decide_eq_false_iff_not] at hshadow ⊢
    exact fun hmem => hshadow (List.mem_of_mem_erase hmem)
  unfold State.slot State.shadow
  rw [hshadow, hshadow']
  rfl

/-! ## Places of an SC -/

theorem Sc.saAt_setSa_same (c : Sc) (an i : Nat) : (c.setSa an i).saAt an = i := by
  unfold Sc.setSa Sc.saAt
  match an % 4 with
  | 0 | 1 | 2 | _ + 3 => rfl

/-! ## One load of a chain (R269) -/

/-- A load that passes puts the successor at the outgoing index, with its slot Filled. -/
theorem chainOne_loads {u : RollUser} {p : ChainPart} {k k' : KeyRun} {T : Nat} (h : chainOne u p k = (0, T, k')) (hout : p.outgoing ≠ 0xFFFF) :
    ∃ (n : Nat) (q : Octets) (k2 : KeyRun), (k2.s.slot n).state = .filled ∧ k2.s.roll u = k.s.roll u ∧
      k'.s = chainPlace u p.dir p.outgoing (putSa p.outgoing (saOfPlain q n (k.s.sa p.incoming).succ) k2.s) := by
  have hentry : runView (chainView u) (if (k.s.sa p.incoming).succ = 0xFFFFFFFF then ((none : Option Octets), k) else k.entry true (k.s.sa p.incoming).succ).2 =
      runView (chainView u) k := by
    split
    · rfl
    · exact (chainView_runBlind u).entry ..
  unfold chainOne at h
  dsimp only at h
  split at h
  · exact absurd (congrArg Prod.fst h) (by dsimp only; decide)
  · next b k1 he =>
    rw [he] at hentry
    split at h
    · exact absurd (congrArg Prod.fst h) (by dsimp only; decide)
    · next n _ =>
      rw [if_neg hout] at h
      dsimp only at h
      have hcheck := (chainView_runBlind u).blobCheck b true n k1
      split at h
      · next q k2 hc =>
        rw [hc] at hcheck
        split at h
        · exact absurd (congrArg Prod.fst h) (by dsimp only; decide)
        · split at h
          · exact absurd (congrArg Prod.fst h) (by dsimp only; decide)
          · split at h
            · exact absurd (congrArg Prod.fst h) (by dsimp only; decide)
            · split at h
              · next k3 hf =>
                have hfill := (chainView_runBlind u).fill n (Attr.ofPlain q) (slice q 48 (Attr.ofPlain q).keyLen) k2
                rw [hf] at hfill
                refine ⟨n, q, k3, ?_, congrArg (fun x => x.1.1) (hfill.trans (hcheck.trans hentry)), ?_⟩
                · rw [(fill_fills hf).2.2]
                  rfl
                · exact (congrArg (fun x : Nat × Nat × KeyRun => x.2.2.s) h).symm
              · next hne _ => exact (hne (congrArg Prod.fst h)).elim
      · next hne _ => exact (hne (congrArg Prod.fst h)).elim

/-- The one load of an SC's chain. -/
theorem chainAll_sc {i : Fin 16384} {s : State} {k0 k : KeyRun} {T : Nat} (h : chainAll (.sc i) (chainParts s (.sc i)) k0 = (0, T, k)) :
    ∃ (p : ChainPart) (T' : Nat) (k' : KeyRun), p.outgoing = (s.roll (.sc i)).outgoing ∧ chainOne (.sc i) p k0 = (0, T', k') ∧ k = k' := by
  unfold chainParts at h
  dsimp only at h
  unfold chainAll at h
  split at h
  · next T' k' ho =>
    refine ⟨_, T', k', rfl, ho, ?_⟩
    exact (congrArg (fun x : Nat × Nat × KeyRun => x.2.2) h).symm
  · next hne => exact absurd h (fun he => hne _ _ he)

/-! ## A chain's outcome -/

/-- A record once its chain has loaded a successor of rollover time `t`, 0 for none. -/
def chained (t : Nat) (r : Roll) : Roll :=
  { r with state := if t = 0 then 0 else 1, incoming := if t = 0 then r.incoming else (r.incoming + 1) % 4, t := if t = 0 then r.t else t, outgoing := 0xFFFF, outgoingRx := 0xFFFF }

/-- How a chain's outcome ends it. -/
def chainEnded (u : RollUser) : Nat × Nat × KeyRun → State
  | (0, t, k) => keyCount 5 (updRoll u (chained t) k.s)
  | (e, _, k) => chainFailed u e k.b

theorem chainEnded_passes (u : RollUser) (T : Nat) (k : KeyRun) : chainEnded u (0, T, k) = keyCount 5 (updRoll u (chained T) k.s) := rfl

theorem chainEnded_fails (u : RollUser) {e : Nat} (he : e ≠ 0) (T : Nat) (k : KeyRun) : chainEnded u (e, T, k) = chainFailed u e k.b := by
  cases e with
  | zero => exact absurd rfl he
  | succ e => rfl

/-- A record in Loading whose outgoing associations are unused, with something to load, runs its chain. -/
theorem chainLoad_runs {u : RollUser} {ck : ChuckRun} {s : State} (hload : (s.roll u).state = 3)
    (hunused : ∀ i ∈ [(s.roll u).outgoing, (s.roll u).outgoingRx], i ≠ 0xFFFF → saUnused s i = true) (hparts : chainParts s u ≠ []) :
    chainLoad u ck s = chainEnded u (chainAll u (chainParts s u) { s := s, b := s, ck := ck }) := by
  have hall : ([(s.roll u).outgoing, (s.roll u).outgoingRx].filter (· ≠ 0xFFFF)).all (saUnused s) = true := by
    rw [List.all_eq_true]
    intro i hi
    obtain ⟨hi, hne⟩ := List.mem_filter.mp hi
    exact hunused i hi (of_decide_eq_true hne)
  unfold chainLoad
  dsimp only
  rw [if_neg (by rw [hload, hall]; decide), if_neg (by simpa using hparts)]
  rfl

theorem chainFailed_shows (u : RollUser) (e : Nat) (s : State) :
    ((chainFailed u e s).roll u).state = 5 ∧ ((chainFailed u e s).roll u).reason = e ∧ (chainFailed u e s).keys.events.getLsbD 5 = true := by
  unfold chainFailed
  have hroll : ((keyEvent 5 (keyCount 6 (post { type := 0x3405, source := rollNum u, a := e, c := rollKind u }
      (updRoll u (fun r => { r with state := 5, reason := e }) s)))).roll u) = { s.roll u with state := 5, reason := e } := by
    rw [keyEvent_roll, keyCount_roll, post_roll, updRoll_roll_same]
  rw [hroll]
  exact ⟨rfl, rfl, keyEvent_event (by decide) _⟩

/-- A chain whose loads pass. -/
theorem chainLoad_passes {u : RollUser} {ck : ChuckRun} {T : Nat} {k : KeyRun} {s : State} (hload : (s.roll u).state = 3)
    (hunused : ∀ i ∈ [(s.roll u).outgoing, (s.roll u).outgoingRx], i ≠ 0xFFFF → saUnused s i = true) (hparts : chainParts s u ≠ [])
    (hrun : chainAll u (chainParts s u) { s := s, b := s, ck := ck } = (0, T, k)) :
    ∃ t, exec (.chainLoad u ck) s = .next t ∧ (t.roll u).state = (if T = 0 then 0 else 1) ∧
      (t.roll u).incoming = (if T = 0 then (s.roll u).incoming else ((s.roll u).incoming + 1) % 4) ∧ (T ≠ 0 → (t.roll u).t = T) ∧
      t.keys.counters.get 5 0 = s.keys.counters.get 5 0 + 1 ∧
      ∀ i : Fin 16384, u = .sc i → (s.roll u).outgoing ≠ 0xFFFF → (t.sc i).saAt ((s.roll u).incoming + 1) = (s.roll u).outgoing ∧ (t.sa (s.roll u).outgoing).valid = true ∧
        (t.sa (s.roll u).outgoing).enabled = true ∧ (t.slot (t.sa (s.roll u).outgoing).slot).state = .filled := by
  have hview : chainView u k.s = chainView u s := by
    have hall := (chainView_runBlind u).chainAll (chainView_shadowFix u) (chainView_updSc u) u (chainParts s u) { s := s, b := s, ck := ck }
    rw [hrun] at hall
    exact congrArg Prod.fst hall
  have hkept : k.s.roll u = s.roll u := congrArg Prod.fst hview
  have hroll : (chainEnded u (0, T, k)).roll u = chained T (k.s.roll u) := by
    rw [chainEnded_passes, keyCount_roll, updRoll_roll_same]
  refine ⟨_, congrArg Host.Outcome.next ((chainLoad_runs hload hunused hparts).trans (congrArg (chainEnded u) hrun)), ?_, ?_, ?_, ?_, ?_⟩
  · rw [hroll]
    rfl
  · rw [hroll, hkept]
    rfl
  · intro hT
    rw [hroll]
    exact if_neg hT
  · rw [chainEnded_passes, keyCount_get, if_pos rfl, updRoll_counters]
    exact congrArg (· + 1) (congrArg Prod.snd hview)
  · rintro i rfl hout
    obtain ⟨p, T', k', hp, hone, rfl⟩ := chainAll_sc hrun
    rw [← hp] at hout ⊢
    obtain ⟨n, q, k2, hfilled, hroll, hplace⟩ := chainOne_loads hone hout
    have hput := putSa_record p.outgoing (saOfPlain q n (s.sa p.incoming).succ) k2.s
    have hslot : (putSa p.outgoing (saOfPlain q n (s.sa p.incoming).succ) k2.s).slot n = k2.s.slot n := putSa_slot (by rw [hfilled]; decide)
    have hsa (t : State) (j : Nat) : (keyCount 5 t).sa j = t.sa j := rfl
    have hsc (t : State) (j : Nat) : (keyCount 5 t).sc j = t.sc j := rfl
    have hplaced : (chainPlace (.sc i) p.dir p.outgoing (putSa p.outgoing (saOfPlain q n (s.sa p.incoming).succ) k2.s)).keys.sa.get p.outgoing {} =
      saOfPlain q n (s.sa p.incoming).succ := hput
    rw [chainEnded_passes, hsa, hsc, keyCount_slot, updRoll_sc, updRoll_sa, updRoll_slot, hplace, sa_valid, sa_enabled, sa_slot, hplaced]
    refine ⟨?_, rfl, rfl, ?_⟩
    · unfold chainPlace
      dsimp only
      rw [updSc_get, if_pos rfl]
      have hinc : ((putSa p.outgoing (saOfPlain q n (s.sa p.incoming).succ) k2.s).roll (.sc i)).incoming = (s.roll (.sc i)).incoming := congrArg Roll.incoming hroll
      rw [hinc, Sc.saAt_setSa_same]
    · exact (congrArg KeySlot.state hslot).trans hfilled

/-- A chain whose loads fail. -/
theorem chainLoad_fails {u : RollUser} {ck : ChuckRun} {e T : Nat} {k : KeyRun} {s : State} (hload : (s.roll u).state = 3)
    (hunused : ∀ i ∈ [(s.roll u).outgoing, (s.roll u).outgoingRx], i ≠ 0xFFFF → saUnused s i = true) (he : e ≠ 0)
    (hrun : chainAll u (chainParts s u) { s := s, b := s, ck := ck } = (e, T, k)) :
    ∃ t, exec (.chainLoad u ck) s = .next t ∧ (t.roll u).state = 5 ∧ (t.roll u).reason = e ∧ t.keys.events.getLsbD 5 = true := by
  have hparts : chainParts s u ≠ [] := by
    intro hnil
    rw [hnil] at hrun
    exact he (congrArg Prod.fst hrun).symm
  refine ⟨chainFailed u e k.b, congrArg Host.Outcome.next ((chainLoad_runs hload hunused hparts).trans ?_), chainFailed_shows u e k.b⟩
  rw [hrun, chainEnded_fails u he]

/-- Settles O26: a record falls due, its window ends, and its chain runs, each read through the rules of rollover records, associations and slots. -/
theorem rolloversAreTaken : Obligations.RolloversAreTaken := by
  unfold Obligations.RolloversAreTaken
  refine ⟨fun i s hset harmed hready => ?_, fun i s hset harmed hready => ?_, fun u s hset harmed hready => ?_, fun u s hguard hwaits hdrained => ⟨_, rfl, guardEnds_ends hguard hwaits hdrained⟩,
    fun u ck T k s hload hunused hparts hrun => chainLoad_passes hload hunused hparts hrun, fun u ck e T k s hload hunused he hrun => chainLoad_fails hload hunused he hrun⟩
  · have hdue : rollDue (.sc i) (waitTime (s.roll (.sc i)).t s) = rollGuard (.sc i) (s.roll (.sc i)).t (waitTime (s.roll (.sc i)).t s) := rollDue_ready harmed hready
    obtain ⟨hstate, hend, hcount⟩ := rollGuard_window (.sc i) (s.roll (.sc i)).t (waitTime (s.roll (.sc i)).t s)
    exact ⟨_, (exec_rolloverDue hset harmed).trans (congrArg Host.Outcome.next hdue), hstate, hend, fun hrx => rollGuard_transmits hrx, hcount⟩
  · have hdue : rollDue (.tributary i) (waitTime (s.roll (.tributary i)).t s) = rollGuard (.tributary i) (s.roll (.tributary i)).t (waitTime (s.roll (.tributary i)).t s) :=
      rollDue_ready harmed hready
    obtain ⟨hstate, hend, _⟩ := rollGuard_window (.tributary i) (s.roll (.tributary i)).t (waitTime (s.roll (.tributary i)).t s)
    exact ⟨_, (exec_rolloverDue hset harmed).trans (congrArg Host.Outcome.next hdue), hstate, hend, fun htx => rollGuard_keyChange htx⟩
  · have hdue : rollDue u (waitTime (s.roll u).t s) = rollMissed u (waitTime (s.roll u).t s) :=
      rollDue_missed (by rw [waitTime_roll]; exact harmed) (by rw [waitTime_rollReady]; exact hready)
    obtain ⟨hstate, hcount, hevent⟩ := rollMissed_shows u (waitTime (s.roll u).t s)
    exact ⟨_, (exec_rolloverDue hset harmed).trans (congrArg Host.Outcome.next hdue), hstate, hcount, hevent⟩

end Sys2Proof.Machine

/-! A commit of entries of one index of the key range (R249, R237, R235, R277, R431): what its checks come to, and what its application leaves. -/
namespace Sys2Proof.Machine

/-! ## A staging of entries of one index -/

/-- The entries of the key range that are commands: a commit of them leaves no value in the dictionary. -/
def keyIndices : List Nat := [0x3410, 0x3421, 0x3422, 0x3460]

/-- Every staged entry has the index `idx`, one of the commands of the key range. -/
def KeyOnly (idx : Nat) (st : Tab Octets) : Prop := idx ∈ keyIndices ∧ ∀ q ∈ st, q.1 / 256 = idx

theorem keyOnly_single {idx sub : Nat} (hi : idx ∈ keyIndices) (hs : sub < 256) (v : Octets) : KeyOnly idx [(odKey idx sub, v)] := by
  refine ⟨hi, fun q hq => ?_⟩
  rw [List.mem_singleton.mp hq]
  unfold odKey
  dsimp only
  omega

section
variable {idx : Nat} {st : Tab Octets} (h : KeyOnly idx st)
include h

theorem KeyOnly.range : 0x3410 ≤ idx ∧ idx ≤ 0x3460 := by
  have hi := h.1
  simp only [keyIndices, List.mem_cons, List.not_mem_nil, or_false] at hi
  omega

theorem KeyOnly.find_none {key : Nat} (hk : key / 256 ≠ idx) : st.find key = none :=
  Tab.find_none fun q hq he => hk (he ▸ h.2 q hq)

/-- Nothing else is staged. -/
theorem KeyOnly.stagedAt_none {i sub : Nat} (hk : i ≠ idx ∧ sub < 256 ∨ 0x3461 ≤ i) : stagedAt st i sub = none := by
  have hr := h.range
  exact h.find_none (by unfold odKey; omega)

theorem KeyOnly.isStaged_none {i sub : Nat} (hk : i ≠ idx ∧ sub < 256 ∨ 0x3461 ≤ i) : isStaged st i sub = false := by
  unfold isStaged; rw [h.stagedAt_none hk]; rfl

theorem KeyOnly.stagedNat_none {i sub : Nat} (hk : i ≠ idx ∧ sub < 256 ∨ 0x3461 ≤ i) : stagedNat st i sub = none := by
  unfold stagedNat; rw [h.stagedAt_none hk]; rfl

theorem KeyOnly.imageWrites_none {i sub : Nat} (hk : i ≠ idx ∧ sub < 256 ∨ 0x3461 ≤ i) (base width : Nat) (same : Nat → Octets → Bool) :
    imageWrites i sub base width same st = [] := by
  have hfind : st.find (odKey i sub) = none := h.stagedAt_none hk
  unfold imageWrites
  rw [hfind]

theorem KeyOnly.deltaWrites_none {i sub : Nat} (hk : i ≠ idx ∧ sub < 256 ∨ 0x3461 ≤ i) (width : Nat) : deltaWrites i sub width st = [] := by
  have hfind : st.find (odKey i sub) = none := h.stagedAt_none hk
  unfold deltaWrites
  rw [hfind]

theorem KeyOnly.stagedIn_none {lo hi : Nat} (hr : hi ≤ 0x3410 ∨ 0x3461 ≤ lo) : stagedIn st lo hi = false := by
  have hrange := h.range
  unfold stagedIn
  rw [List.any_eq_false]
  intro q hq
  rw [h.2 q hq]
  simp only [Bool.and_eq_true, decide_eq_true_eq, not_and, not_lt]
  omega

/-- No other entry of the range from 0x3400 on, and none of 0x3461 on, is staged: what the index is not. -/
theorem KeyOnly.ne {i : Nat} (hi : i ∉ keyIndices) : i ≠ idx := fun he => hi (he ▸ h.1)

/-! ### The tables that the staging does not write -/

theorem KeyOnly.scWrites (s : State) : scWrites s st = [] := by
  unfold Machine.scWrites; rw [h.imageWrites_none (.inl ⟨h.ne (by decide), by decide⟩), h.deltaWrites_none (.inl ⟨h.ne (by decide), by decide⟩)]; rfl

theorem KeyOnly.tribWrites (s : State) : tribWrites s st = [] := by
  unfold Machine.tribWrites; rw [h.imageWrites_none (.inl ⟨h.ne (by decide), by decide⟩), h.deltaWrites_none (.inl ⟨h.ne (by decide), by decide⟩)]; rfl

theorem KeyOnly.saWrites (s : State) : saWrites s st = [] := by
  unfold Machine.saWrites; dsimp only
  rw [h.imageWrites_none (.inl ⟨h.ne (by decide), by decide⟩), h.imageWrites_none (.inl ⟨h.ne (by decide), by decide⟩), h.deltaWrites_none (.inl ⟨h.ne (by decide), by decide⟩)]; rfl

theorem KeyOnly.rollScWrites (s : State) : rollScWrites s st = [] := by
  unfold Machine.rollScWrites; rw [h.imageWrites_none (.inl ⟨h.ne (by decide), by decide⟩), h.deltaWrites_none (.inl ⟨h.ne (by decide), by decide⟩)]; rfl

theorem KeyOnly.rollTribWrites (s : State) : rollTribWrites s st = [] := by
  unfold Machine.rollTribWrites; rw [h.imageWrites_none (.inl ⟨h.ne (by decide), by decide⟩), h.deltaWrites_none (.inl ⟨h.ne (by decide), by decide⟩)]; rfl

theorem KeyOnly.policerWrites (s : State) : policerWrites s st = [] := by
  unfold Machine.policerWrites; dsimp only; rw [h.imageWrites_none (.inl ⟨h.ne (by decide), by decide⟩), h.imageWrites_none (.inl ⟨h.ne (by decide), by decide⟩)]; rfl

theorem KeyOnly.queueWrites (s : State) : queueWrites s st = [] := by
  unfold Machine.queueWrites
  dsimp only
  rw [h.stagedAt_none (.inr (by decide)), List.map_congr_left (g := fun _ => []) fun g _ => h.imageWrites_none (.inr (by decide)) _ _ _]
  rfl

theorem KeyOnly.slotsStaged : slotsStaged st = [] :=
  List.filter_eq_nil_iff.mpr fun i _ => by rw [h.isStaged_none (.inr (by decide))]; exact Bool.false_ne_true

theorem KeyOnly.not_classifies : classifies st = false := h.stagedIn_none (.inl (by decide))

/-! ### The checks (R431 step 3) -/

theorem KeyOnly.candidate (k : Nat) (s : State) : candidate k st s = s := by
  have htable : tableIdx.contains idx = true := by
    have hi := h.1
    simp only [keyIndices, List.mem_cons, List.not_mem_nil, or_false] at hi
    rcases hi with hi | hi | hi | hi <;> subst hi <;> decide
  have hput : putPlains st s = s := foldl_same _ _ s fun q hq => by
    unfold putPlain plainEntry
    dsimp only
    rw [h.2 q hq, htable]
    split
    · rfl
    · simp only [Bool.not_true, Bool.and_false, Bool.not_false, if_true]
  unfold Machine.candidate slotWriteAll
  dsimp only
  rw [hput, h.slotsStaged, h.policerWrites, h.queueWrites, h.tribWrites, h.scWrites]
  rfl

/-- The stores and the tables of the key range are not written. -/
theorem KeyOnly.keyTablesPut (s c : State) : keyTablesPut s st c = c := by
  unfold Machine.keyTablesPut; rw [h.saWrites, h.rollScWrites, h.rollTribWrites]; rfl

theorem KeyOnly.storesPut (c : State) : storesPut st c = c := by
  unfold Machine.storesPut; dsimp only
  rw [h.stagedAt_none (sub := 1) (.inl ⟨h.ne (by decide), by decide⟩), h.stagedAt_none (sub := 2) (.inl ⟨h.ne (by decide), by decide⟩)]; rfl

theorem KeyOnly.tokenChecked {i sub : Nat} (hi : 0x3461 ≤ i) (debug : Bool) (s : State) (x : Checked) : tokenChecked i sub debug st s x = x := by
  unfold Machine.tokenChecked; rw [h.stagedAt_none (.inr hi)]

/-- What a commit of these entries comes to: its tokens and its plain entries change nothing. -/
theorem KeyOnly.checkCommit (k : Nat) (ck : ChuckRun) (s : State) : checkCommit k st ck [] s =
    let x := ownerChecked k st s (enrollChecked st (keyRange s s st ck))
    x.refused (checkFailures s x.cand k st (rulesAfter s st) ++ []) := by
  unfold Machine.checkCommit
  dsimp only
  rw [h.candidate, h.tokenChecked (by decide), h.tokenChecked (by decide)]

/-- Without key commands the key range changes nothing. -/
theorem KeyOnly.keyRange_noCommands (hi : idx ≠ 0x3410) (s : State) (ck : ChuckRun) :
    ∃ l, keyRange s s st ck = { fails := l, base := s, cand := s, run := { s := s, b := s, ck := ck } } := by
  have hrun : keyCommands 1 [] { s := s, b := s, ck := ck } = { s := s, b := s, ck := ck } := rfl
  unfold Machine.keyRange
  dsimp only
  rw [h.stagedAt_none (i := 0x3410) (sub := 1) (.inl ⟨fun he => hi he.symm, by decide⟩), h.storesPut]
  simp only [Option.getD_none, List.length_nil, Nat.zero_add, hrun, h.keyTablesPut]
  split
  · exact ⟨_, rfl⟩
  · split
    · exact ⟨_, rfl⟩
    · split
      · exact ⟨_, rfl⟩
      · split
        · exact ⟨_, rfl⟩
        · exact ⟨_, rfl⟩

/-! ## What the commit leaves -/

theorem KeyOnly.testsTake (s : State) : testsTake st s = s := by
  unfold Machine.testsTake
  rw [h.stagedAt_none (i := 0x4410) (.inr (by decide)), h.stagedNat_none (i := 0x4420) (.inr (by decide)), h.stagedAt_none (i := 0x4810) (.inr (by decide)),
    h.stagedAt_none (i := 0x4811) (.inr (by decide)), h.stagedNat_none (i := 0x4812) (.inr (by decide))]

theorem KeyOnly.restTakes (s : State) : restTakes st s = s := by
  unfold Machine.restTakes
  rw [h.stagedAt_none (i := 0x5020) (.inr (by decide)), h.stagedAt_none (i := 0x5030) (.inr (by decide)), h.stagedNat_none (i := 0x5030) (.inr (by decide)),
    h.stagedAt_none (i := 0x5041) (.inr (by decide)), h.stagedAt_none (i := 0x5050) (.inr (by decide))]

theorem KeyOnly.powerTakes (s : State) : powerTakes st s = s := foldl_same _ _ s fun d _ => by rw [h.stagedNat_none (.inr (by decide))]

theorem KeyOnly.resetsTake (s : State) : resetsTake st s = s := by
  have hnone : resetsStaged st = [] := List.filter_eq_nil_iff.mpr fun d _ => by rw [h.isStaged_none (.inr (by decide))]; exact Bool.false_ne_true
  unfold Machine.resetsTake
  rw [hnone, h.stagedNat_none (.inr (by decide))]
  rfl

theorem KeyOnly.fabricTakes (s : State) : fabricTakes st s = unparked s := by
  have hrail : railTakes st s = s := by
    unfold railTakes
    rw [h.stagedIn_none (.inl (by decide))]
    rfl
  rw [fabricTakes_eq, hrail, foldl_same _ _ s fun i hi => by
    unfold spindleOrdered
    rw [h.stagedNat_none (.inl ⟨h.ne (by decide), by have := List.mem_range.mp hi; omega⟩)]]

/-- The key range carried out at the apply instant, with the generation advanced. -/
def keysTaken (s0 : State) (x : Checked) : State :=
  keysApply x.run { x.cand with ctl := { x.cand.ctl with generation := x.cand.ctl.generation + 1, applyAt := s0.time.now } }

/-- What follows the key range at the apply instant, before the ownership and zeroize commands: pins, rollovers at their notice, a parked fabric and the log. -/
def keysFollowed (s0 : State) (st : Tab Octets) (s : State) : State := logConfig s0 st (unparked (noticesTake (timeTakes s0 st s)))

theorem KeyOnly.applyCommit_eq (s : State) {x : Checked} (ha : AgreeOutside s (keysTaken s x)) :
    applyCommit s st x none = Machine.lastTakes st (keysFollowed s st (keysTaken s x)) := by
  have htab (f g : State → Nat → State) (u : State) : ((Machine.queueWrites s st).map Written.idx).dedup.foldl g
      (((Machine.tribWrites s st).map Written.idx).dedup.foldl f u) = u := by rw [h.tribWrites, h.queueWrites]; rfl
  have hrings (u : State) : ringsTake s st u = u := by unfold ringsTake; rw [h.stagedIn_none (.inl (by decide))]; rfl
  unfold applyCommit
  refine congrArg (Machine.lastTakes st) ?_
  rw [h.resetsTake, h.powerTakes, h.isStaged_none (i := 0x1F01) (.inl ⟨h.ne (by decide), by decide⟩), h.restTakes, h.testsTake, h.fabricTakes]
  simp only [Bool.false_eq_true, if_false]
  rw [htab]
  change logConfig s st (unparked (noticesTake (timeTakes s st (channelTakes s (ringsTake s st
    (flowTakes s (linksTake s (otnTakes s (shapesTake s (keysTaken s x)))))))))) = _
  rw [ha.shapesTake, ha.otnTakes, ha.linksTake, ha.flowTakes, hrings, ha.channelTakes]
  rfl

/-- No time entry is staged or changed: at most the pins show in the time unit. -/
theorem KeyOnly.timeTakes_keep {β : Type} (P : State → β) (hP : ∀ s x y, P { s with time := x, out := y } = P s) {s0 s : State} (ha : AgreeOutside s0 s) :
    P (timeTakes s0 st s) = P s := by
  have hservo : servoTakes s0 s = s := by
    unfold servoTakes
    dsimp only
    rw [ha.odChanged_above (idx := 0x4010) (by decide)]
    simp only [Bool.false_eq_true, if_false]
    rw [ha.odChanged_above (idx := 0x4010) (by decide), ha.odChanged_above (idx := 0x4010) (by decide)]
    simp only [Bool.or_self, Bool.false_eq_true, if_false]
    rw [ha.odChanged_above (by decide)]
    exact if_neg Bool.false_ne_true
  have hset : timeSet st s = s := by unfold timeSet; rw [h.stagedAt_none (.inr (by decide))]
  have hadjusted : timeAdjusted st s = s := by unfold timeAdjusted; rw [h.stagedNat_none (.inr (by decide))]
  have hpin (s : State) (p : Nat) : P (pinOff s0 st s p) = P s := by
    unfold pinOff
    split
    · exact updPin_keep P (fun s x => hP s x s.out) _ _ s
    · rfl
  rw [timeTakes_eq, keep (P := P) (fun t p => pinSettle_keep P hP p t), lockPins_keep P hP, keep (P := P) hpin, hservo, hset, hadjusted]

end
end Sys2Proof.Machine

/-! What follows the key range at the apply instant (R38, R267, R273, R417, R466): it leaves the slots, the associations and the owner record, and a commit of a
command of the key range ends as any other. -/
namespace Sys2Proof.Machine

/-! ## The vault: what the statements read of the key unit and of the tool rest -/

/-- The key unit without its rollover records, its SCs and the counters of what falls due, with the count of key commands. -/
def keysHeld (k : Keys) : Keys × W64 := ({ k with rollSc := [], rollTrib := [], sc := [], counters := [] }, k.counters.get 0 0)

/-- What a commit of the key range is asked for. -/
def vault (s : State) : (Keys × W64) × TamperState × Owner × Tab Octets × List (Nat × Nat) × Bool × Bool := (keysHeld s.keys, restCore s.rest)

theorem vault_coreBlind : CoreBlind vault where
  post e s := by
    have hrest : (post e s).rest = s.rest := post_keep State.rest (fun _ _ _ => rfl) e s
    unfold vault
    rw [post_keys, hrest]
  rest s x hx := by unfold vault; rw [hx]
  path _ _ := rfl
  mpu _ _ := rfl
  out _ _ := rfl

theorem vault_slot {s t : State} (h : vault t = vault s) (n : Nat) : t.slot n = s.slot n :=
  slot_eq_of (congrArg (fun v => v.1.1.data) h) (congrArg (fun v => v.1.1.kek) h) (congrArg (fun v => v.2.2.2.2.1) h) n

theorem vault_sa {s t : State} (h : vault t = vault s) (i : Nat) : t.sa i = s.sa i :=
  sa_eq_of (congrArg (fun v => v.1.1.sa) h) (congrArg (fun v => v.2.2.2.2.1) h) i

/-! ## The roles of the spindles -/

theorem vault_checkpointLoad (i : Nat) (s : State) : vault (checkpointLoad i s) = vault s := by
  unfold checkpointLoad
  split
  · have hread := vault_coreBlind.readLine 12 (checkpointAt i) s
    split
    · next hr => rw [hr] at hread; exact hread
    · next hr => rw [hr] at hread; exact hread
  · rfl

theorem vault_fillSpares (n : Nat) (s : State) : vault (fillSpares n s) = vault s := by
  induction n generalizing s with
  | zero => rfl
  | succ n ih =>
    unfold fillSpares
    split
    · rfl
    · split
      · rfl
      · exact (ih _).trans (vault_checkpointLoad ..)

theorem vault_unparked (s : State) : vault (unparked s) = vault s := by
  have hsettle (t : State) : vault (settleRoles t) = vault t := by
    unfold settleRoles spareCheck
    dsimp only
    rw [fabStatus_keep vault (fun _ _ => rfl), apply_ite vault, vault_coreBlind.post, ite_self, vault_fillSpares]
  unfold unparked
  split
  · exact hsettle { s with power := { s.power with parked := false } }
  · rfl

/-! ## Notices, the log and the checkpoint -/

/-- A record that rolls takes its SC or tributary to the incoming AN or KI, and is counted. -/
theorem vault_rollGuard (u : RollUser) (T : Nat) (s : State) : vault (rollGuard u T s) = vault s := by
  have hcount : keysHeld (keyCount 7 s).keys = keysHeld s.keys := Prod.ext rfl ((keyCount_get 7 0 s).trans (if_neg (by decide)))
  cases u with
  | sc i =>
    unfold rollGuard
    dsimp only
    split <;> exact Prod.ext hcount rfl
  | tributary i =>
    unfold rollGuard keyChangeDue
    dsimp only
    split <;> exact Prod.ext hcount rfl

theorem vault_noticesTake (s : State) : vault (noticesTake s) = vault s := by
  unfold noticesTake
  refine keep fun t u => ?_
  unfold rollAtNotice
  dsimp only
  rw [apply_ite vault, vault_rollGuard, ite_self]

theorem vault_logConfig (s0 : State) (st : Tab Octets) (s : State) : vault (logConfig s0 st s) = vault s := by
  unfold logConfig
  refine keep fun t q => ?_
  dsimp only
  split
  · split
    · exact vault_coreBlind.logEntry ..
    · rfl
  · rfl

theorem vault_controlCheckpoint (s : State) : vault (controlCheckpoint s) = vault s := by
  unfold controlCheckpoint controlWrite
  split
  · split
    · exact vault_coreBlind.writeOver ..
    · rfl
  · rfl

theorem vault_setLast (k code : Nat) (s : State) : vault (setLast k code s) = vault s := setLast_keep vault (fun _ _ => rfl) k code s

/-! ## What follows the key range -/

section
variable {idx : Nat} {st : Tab Octets} (h : KeyOnly idx st) {s0 s : State} (ha : AgreeOutside s0 s)
include h ha

theorem KeyOnly.followed_vault : vault (keysFollowed s0 st s) = vault s := by
  unfold keysFollowed
  rw [vault_logConfig, vault_unparked, vault_noticesTake]
  exact h.timeTakes_keep vault (fun _ _ _ => rfl) ha

theorem KeyOnly.followed_blind {β : Type} {P : State → β} (hP : ApplyBlind P) : P (keysFollowed s0 st s) = P s := by
  unfold keysFollowed
  have hunparked (u : State) : P (unparked u) = P u := by
    unfold unparked
    split
    · rw [hP.settleRoles, hP.parked]
    · rfl
  rw [hP.logConfig, hunparked, hP.noticesTake]
  exact h.timeTakes_keep P (fun s x y => (hP.out { s with time := x } y).trans (hP.time s x)) ha

end

/-! ## The end of the commit -/

/-- What a commit of session `k` leaves of the dictionary unit at its apply instant. -/
def ctlApplied (k : Nat) (s : State) : Control :=
  { s.ctl with sessions := s.ctl.sessions.upd k {} (fun x => x), generation := s.ctl.generation + 1, applyAt := s.time.now }

theorem setLast_quiet {k code : Nat} {s t : State} (hq : Quiet s) (hctl : t.ctl = ctlApplied k s) (hout : outlook t = outlook s) : Quiet (setLast k code t) := by
  obtain ⟨w, hw⟩ := sessionsOnly_setLast k code t
  refine hq.of_outlook ((sessionsOnly_setLast k code t).outlook.trans hout) ?_
  rw [hw]
  dsimp only
  rw [hctl]
  rfl

/-- A commit whose application shows nothing to settling ends with result 0. -/
theorem committed_of_ctl {k : Nat} {s t : State} (hctl : t.ctl = ctlApplied k s) : Committed k s (controlCheckpoint (setLast k 0 t)) := by
  have hsome : (t.ctl.sessions.find k).isSome := by
    rw [hctl]
    unfold ctlApplied Tab.upd
    dsimp only
    rw [Tab.find_put_same]
    rfl
  have hsame : t.session k = s.session k := by
    unfold State.session
    rw [hctl]
    exact Tab.get_upd_same k {} (fun x => x) s.ctl.sessions
  obtain ⟨hstaged, hlast⟩ := setLast_session hsome 0
  obtain ⟨w, hw⟩ := sessionsOnly_setLast k 0 t
  have hsession : (controlCheckpoint (setLast k 0 t)).session k = (setLast k 0 t).session k := by
    unfold State.session
    rw [controlCheckpoint_ctl]
  refine ⟨?_, ?_, ?_, ?_⟩
  · rw [controlCheckpoint_generation, hw]
    exact congrArg Control.generation hctl
  · rw [controlCheckpoint_ctl, hw]
    exact congrArg Control.applyAt hctl
  · rw [hsession]
    exact hstaged.trans (congrArg Session.staged hsame)
  · rw [hsession]
    exact hlast

/-- A session with its record made, as a commit of it finds the part. -/
def sessionMade (k : Nat) (s : State) : State := updSession k (fun x => x) s

/-- What the checks of a commit of one entry come to. -/
def checked (k idx sub : Nat) (v : Octets) (ck : ChuckRun) (s : State) : Checked := checkCommit k [(odKey idx sub, v)] ck [] (sessionMade k s)

theorem outlook_runBlind : RunBlind outlook where
  post := outlook_roleBlind.post
  rest _ _ _ := rfl
  path _ _ := rfl
  mpu _ _ := rfl
  out _ _ := rfl
  keys _ _ _ := rfl
  otn _ _ := rfl
  rng _ _ := rfl
  time _ _ := rfl
  free _ _ := rfl
  domain s d f hd := by
    unfold outlook State.domain
    dsimp only
    rw [Tab.get_upd_other (by omega)]
    rfl

theorem ctl_runBlind : RunBlind State.ctl where
  post := ctl_applyBlind.post
  rest _ _ _ := rfl
  path _ _ := rfl
  mpu _ _ := rfl
  out _ _ := rfl
  keys _ _ _ := rfl
  otn _ _ := rfl
  rng _ _ := rfl
  time _ _ := rfl
  free _ _ := rfl
  domain _ _ _ _ := rfl

section
variable {k idx sub : Nat} {v : Octets} {ck : ChuckRun} {s : State} (hi : idx ∈ keyIndices) (hs : sub < 256) (h : Commits k idx sub v ck s)
include hi hs h

/-- A commit of one command of the key range, where the command touches the part as the host sees it and the dictionary no more than a key command does: it
is followed as any other, and ends with result 0. -/
theorem commitSingle_key (hctl : (checked k idx sub v ck s).cand.ctl = (sessionMade k s).ctl) :
    commitSingle k idx sub v ck s = dictSettle (setLast k 0 (lastTakes [(odKey idx sub, v)]
      (keysFollowed (sessionMade k s) [(odKey idx sub, v)] (keysTaken (sessionMade k s) (checked k idx sub v ck s))))) ∧
    AgreeOutside (sessionMade k s) (keysTaken (sessionMade k s) (checked k idx sub v ck s)) ∧
    (keysTaken (sessionMade k s) (checked k idx sub v ck s)).ctl = ctlApplied k s := by
  have hst := keyOnly_single hi hs v
  have htaken : (keysTaken (sessionMade k s) (checked k idx sub v ck s)).ctl = ctlApplied k s := by
    unfold keysTaken
    rw [keysApply_keep State.ctl (fun _ _ _ => rfl)]
    dsimp only
    rw [hctl]
    rfl
  have ha : AgreeOutside (sessionMade k s) (keysTaken (sessionMade k s) (checked k idx sub v ck s)) := fun key _ => by
    rw [htaken]
    rfl
  refine ⟨?_, ha, htaken⟩
  rw [commitSingle_commits h hst.not_classifies]
  exact congrArg (fun t => dictSettle (setLast k 0 t)) (hst.applyCommit_eq (sessionMade k s) ha)

/-- Where nothing comes after the key range, the vault that the range leaves is the one the commit leaves. -/
theorem commitSingle_key_vault (hlast : ∀ t, lastTakes [(odKey idx sub, v)] t = t) (hctl : (checked k idx sub v ck s).cand.ctl = (sessionMade k s).ctl)
    (hout : outlook (keysTaken (sessionMade k s) (checked k idx sub v ck s)) = outlook s) :
    Committed k s (commitSingle k idx sub v ck s) ∧ vault (commitSingle k idx sub v ck s) = vault (keysTaken (sessionMade k s) (checked k idx sub v ck s)) := by
  have hst := keyOnly_single hi hs v
  obtain ⟨heq, ha, htaken⟩ := commitSingle_key hi hs h hctl
  have hctl' := (hst.followed_blind ha ctl_applyBlind).trans htaken
  have hout' := (hst.followed_blind ha outlook_applyBlind).trans hout
  have hquiet : Quiet (setLast k 0 (keysFollowed (sessionMade k s) [(odKey idx sub, v)] (keysTaken (sessionMade k s) (checked k idx sub v ck s)))) := setLast_quiet h.1 hctl' hout'
  rw [hlast, dictSettle_quiet hquiet] at heq
  rw [heq]
  refine ⟨committed_of_ctl hctl', ?_⟩
  rw [vault_controlCheckpoint, vault_setLast, hst.followed_vault ha]

end
end Sys2Proof.Machine

/-! A commit of one key command that passes its checks (R249, R251): the command ran and nothing refused it, and what the commit leaves. -/
namespace Sys2Proof.Machine

/-! ## Fields of a record (R249) -/

theorem slice_append_left {a : Octets} {n : Nat} (h : a.length = n) (b : Octets) : slice (a ++ b) 0 n = a := by
  unfold slice
  rw [List.drop_zero, List.take_left' h]

theorem slice_append_right {a : Octets} {m : Nat} (h : a.length = m) (b : Octets) (o n : Nat) : slice (a ++ b) (o + m) n = slice b o n := by
  unfold slice
  rw [List.drop_append, List.drop_eq_nil_of_le (by omega), List.nil_append, h, Nat.add_sub_cancel]

theorem slice_whole {a : Octets} {n : Nat} (h : a.length = n) : slice a 0 n = a := by
  unfold slice
  rw [List.drop_zero, List.take_of_length_le (by omega)]

theorem padTo_length (n : Nat) (b : Octets) : (padTo n b).length = n := by
  unfold padTo
  rw [List.length_take, List.length_append, List.length_replicate]
  omega

theorem zeros_length (n : Nat) : (zeros n).length = n := List.length_replicate

theorem leAt_keyRecord (op : Nat) (x : Octets) (o n : Nat) : leAt (keyRecord op x) (o + 4) n = leAt x o n := rfl

theorem keyRecord_length (op : Nat) (x : Octets) : (keyRecord op x).length = 4 + x.length := by
  change x.length + 1 + 1 + 1 + 1 = 4 + x.length
  omega

/-- A record spells its own length. -/
theorem keyRecord_size {op : Nat} {x : Octets} (h : x.length < 65532) : leAt (keyRecord op x) 2 2 = (keyRecord op x).length := by
  rw [keyRecord_length]
  change leNat (leBytes 2 (4 + x.length)) = 4 + x.length
  rw [leNat_leBytes]
  exact Nat.mod_eq_of_lt (by omega)

theorem leAt_leBytes {n v : Nat} (h : v < 256 ^ n) (b : Octets) : leAt (leBytes n v ++ b) 0 n = v := by
  unfold leAt
  rw [slice_append_left (length_leBytes n v), leNat_leBytes, Nat.mod_eq_of_lt h]

theorem leAt_append_right {a : Octets} {m : Nat} (h : a.length = m) (b : Octets) (o n : Nat) : leAt (a ++ b) (o + m) n = leAt b o n := by
  unfold leAt
  rw [slice_append_right h]

/-- The slot that a target names, whatever its bits 14 to 8 hold where it names a KEK slot. -/
def targetOf (t : Nat) : Nat := if isKek t then 0x8000 + t % 256 else t

theorem targetAt_eq (r : Octets) (i : Nat) : targetAt r i = targetOf (leAt r i 2) := rfl

theorem slot_targetOf (s : State) (t : Nat) : s.slot (targetOf t) = s.slot t := by
  unfold targetOf isKek
  split
  · next h =>
    have hk : 0x8000 ≤ t := of_decide_eq_true h
    have hmod : (0x8000 + t % 256) % 256 = t % 256 := by omega
    unfold State.slot slotItem
    simp only [hk, hmod, Nat.le_add_right, if_true]
  · rfl

/-! ## The run of one record -/

/-- A run before its first record. -/
def runStart (ck : ChuckRun) (s : State) : KeyRun := { s := s, b := s, ck := ck }

/-- What a run that passes comes to. -/
def Checked.ran (k : KeyRun) : Checked := { base := k.b, cand := k.s, run := k }

/-- A run of one record that does not fail has carried it out. -/
theorem keyCommands_one {r : Octets} {k : KeyRun} (hsize : leAt r 2 2 = r.length) (hne : r ≠ []) (hfail : (keyCommands (r.length + 1) r k).fail = none) :
    ∃ k1, keyCommand r k = (0, k1) ∧ keyCommands (r.length + 1) r k = { k1 with n := k1.n + 1 } := by
  have hempty (m : Nat) (k : KeyRun) : keyCommands m [] k = k := by cases m <;> rfl
  unfold keyCommands at hfail ⊢
  rw [if_neg (by simpa using hne)] at hfail ⊢
  dsimp only at hfail ⊢
  rw [hsize, List.take_length, List.drop_length] at hfail ⊢
  split at hfail
  · exact absurd hfail (by simp)
  · next hlen =>
    rw [if_neg hlen]
    split at hfail
    · next k1 hc => exact ⟨k1, hc, hempty ..⟩
    · exact absurd hfail (by simp)

section
variable {st : Tab Octets} (hst : KeyOnly 0x3410 st) {b : Octets} (hstaged : stagedAt st 0x3410 1 = some b) {ck : ChuckRun} {s : State}
include hst hstaged

/-- The key range of a commit of key commands alone that passes, outside Lock, is the run of its commands. -/
theorem keyRange_passes (hlocked : s.locked = false) (hfails : (keyRange s s st ck).fails = []) :
    (keyCommands (b.length + 1) b (runStart ck s)).fail = none ∧
    keyRange s s st ck = Checked.ran (keyCommands (b.length + 1) b (runStart ck s)) ∧
    deleteFail (keyCommands (b.length + 1) b (runStart ck s)).s [] (keyCommands (b.length + 1) b (runStart ck s)).deletes = none := by
  have hrun : keyCommands (b.length + 1) b { s := s, b := s, ck := ck } = keyCommands (b.length + 1) b (runStart ck s) := rfl
  generalize keyCommands (b.length + 1) b (runStart ck s) = k at hrun ⊢
  have hempty {l : List (Nat × Nat)} (h : (!l.isEmpty) = true) : l ≠ [] := by
    rintro rfl
    exact absurd h (by decide)
  unfold keyRange at hfails ⊢
  dsimp only at hfails ⊢
  rw [hstaged, hst.storesPut, Option.getD_some, hrun] at hfails ⊢
  split at hfails
  · next he => exact absurd hfails (hempty he)
  · next he =>
    rw [if_neg he]
    rw [if_neg (by rw [hlocked]; exact Bool.false_ne_true)] at hfails ⊢
    split at hfails
    · next hs => exact absurd hfails (hempty hs)
    · next hs =>
      rw [if_neg hs]
      split at hfails
      · exact absurd hfails (List.cons_ne_nil _ _)
      · next hfail =>
        rw [hfail]
        simp only [hst.keyTablesPut] at hfails ⊢
        split at hfails
        · next hl => exact absurd hfails (hempty hl)
        · next hl =>
          rw [if_neg hl]
          split at hfails
          · exact absurd hfails (List.cons_ne_nil _ _)
          · next hd =>
            rw [hd]
            refine ⟨trivial, ?_, rfl⟩
            dsimp only at hfails ⊢
            rw [hfails]
            cases k
            cases hfail
            rfl

end

/-! ## Checks that pass -/

/-- An entry that Lock refuses, staged in a commit that passes its checks, shows that the part is not locked (R404). -/
theorem not_locked_of_passes {idx sub : Nat} {v : Octets} {e : Entry} {s c : State} {k : Nat} {rules : Tab (Tab Rule)} (hsub : sub < 256) (he : entryAt idx sub = some e) (hacc : e.acc = .rwl)
    (h : checkFailures s c k [(odKey idx sub, v)] rules = []) : s.locked = false := by
  unfold checkFailures at h
  simp only [List.append_eq_nil_iff] at h
  obtain ⟨⟨⟨⟨⟨⟨⟨⟨⟨⟨⟨hentry, -⟩, -⟩, -⟩, -⟩, -⟩, -⟩, -⟩, -⟩, -⟩, -⟩, -⟩ := h
  have hidx : odKey idx sub / 256 = idx := by unfold odKey; omega
  have hmod : odKey idx sub % 256 = sub := by unfold odKey; omega
  unfold entryFailures at hentry
  rw [List.filterMap_eq_nil_iff] at hentry
  have hone := hentry _ (List.mem_singleton.mpr rfl)
  dsimp only at hone
  rw [hidx, hmod, he] at hone
  dsimp only at hone
  rw [hacc] at hone
  by_contra hl
  rw [eq_true_of_ne_false hl] at hone
  simp at hone

section
variable {k idx sub : Nat} {v : Octets} {ck : ChuckRun} {s : State} (hi : idx ∈ keyIndices) (hs : sub < 256) (h : Commits k idx sub v ck s)
include hi hs h

/-- No failure of any kind: those of the key range, of enrollment and ownership, and the rest. -/
theorem checked_fails : (checked k idx sub v ck s).fails = [] ∧
    checked k idx sub v ck s = ownerChecked k [(odKey idx sub, v)] (sessionMade k s) (enrollChecked [(odKey idx sub, v)] (keyRange (sessionMade k s) (sessionMade k s) [(odKey idx sub, v)] ck)) ∧
    ∃ c rules, checkFailures (sessionMade k s) c k [(odKey idx sub, v)] rules = [] := by
  have hnone : (checked k idx sub v ck s).fails = [] := firstFailure_none h.2.2.2
  have heq := (keyOnly_single hi hs v).checkCommit k ck (sessionMade k s)
  have hfails := hnone
  unfold checked at hfails ⊢
  rw [heq] at hfails
  unfold Checked.refused at hfails
  simp only [List.append_nil, List.append_eq_nil_iff] at hfails
  refine ⟨hnone, ?_, _, _, hfails.2⟩
  rw [heq]
  unfold Checked.refused
  dsimp only
  rw [hfails.2, List.append_nil, List.append_nil]

end

theorem stagedAt_single (idx sub : Nat) (v : Octets) : stagedAt [(odKey idx sub, v)] idx sub = some v := by
  unfold stagedAt
  rw [Tab.find, if_pos rfl]

theorem entryAt_keyCommands : ∃ e, entryAt 0x3410 1 = some e ∧ e.acc = .rwl := ⟨_, rfl, rfl⟩

/-- A commit of one key command that passes has carried it out. -/
theorem keyCommit_runs {k : Nat} {r : Octets} {ck : ChuckRun} {s : State} (h : Commits k 0x3410 1 r ck s) (hsize : leAt r 2 2 = r.length) (hne : r ≠ []) :
    ∃ k1, keyCommand r (runStart ck (sessionMade k s)) = (0, k1) ∧ (checked k 0x3410 1 r ck s).cand = k1.s ∧ (checked k 0x3410 1 r ck s).run = { k1 with n := k1.n + 1 } ∧
      deleteFail k1.s [] k1.deletes = none := by
  have hst := keyOnly_single (idx := 0x3410) (sub := 1) (by decide) (by decide) r
  obtain ⟨hfails, heq, c, rules, hrest⟩ := checked_fails (by decide) (by decide) h
  obtain ⟨e, he, hacc⟩ := entryAt_keyCommands
  have hlocked := not_locked_of_passes (by decide) he hacc hrest
  have henroll (x : Checked) : enrollChecked [(odKey 0x3410 1, r)] x = x := by
    unfold enrollChecked
    rw [hst.stagedAt_none (.inl ⟨by decide, by decide⟩), hst.stagedAt_none (.inl ⟨by decide, by decide⟩)]
  have howner (x : Checked) : ownerChecked k [(odKey 0x3410 1, r)] (sessionMade k s) x = x := by
    unfold ownerChecked
    rw [hst.stagedAt_none (.inl ⟨by decide, by decide⟩)]
  rw [howner, henroll] at heq
  rw [heq] at hfails ⊢
  obtain ⟨hfail, hrange, hdelete⟩ := keyRange_passes hst (stagedAt_single 0x3410 1 r) hlocked hfails
  obtain ⟨k1, hc, hk⟩ := keyCommands_one hsize hne hfail
  rw [hk] at hdelete hrange
  rw [hrange]
  exact ⟨k1, hc, rfl, rfl, hdelete⟩

end Sys2Proof.Machine

/-! What a committed key command leaves (R249, R251, R257): the slots and associations of its run, its results and its deletes. -/
namespace Sys2Proof.Machine

/-! ## The end of a run that applies -/

/-- A run's results noted: the count of key commands and the exports. -/
def keysNoted (k : KeyRun) (s : State) : State :=
  { s with keys := { s.keys with counters := s.keys.counters.bump 0 k.n, exports := if k.exported then exportsKept k.exports.length 65536 k.exports else s.keys.exports } }

/-- Persistent KEKs are kept aside in the tool rest: the key unit and the mismatches stay. -/
theorem kekKeep_held (l : List Nat) (s : State) : (l.foldl (fun s t => kekKeep t s) s).keys = s.keys ∧ (l.foldl (fun s t => kekKeep t s) s).rest.shadowBad = s.rest.shadowBad := by
  have hkeep (t : Nat) (s : State) : ((kekKeep t s).keys, (kekKeep t s).rest.shadowBad) = (s.keys, s.rest.shadowBad) := by
    unfold kekKeep
    dsimp only
    split
    · split
      · rfl
      · rfl
    · rfl
  exact Prod.mk.inj (keep (P := fun s : State => (s.keys, s.rest.shadowBad)) fun s t => hkeep t s)

theorem keysApply_eq (k : KeyRun) (s : State) : keysApply k s = deletesApply k.deletes (k.fills.foldl (fun s t => kekKeep t s) (keysNoted k s)) := by
  unfold keysApply keysNoted
  split <;> rfl

/-- The key unit after a run without deletes. -/
theorem keysApply_kept {k : KeyRun} (h : k.deletes = []) (s : State) : (keysApply k s).keys = (keysNoted k s).keys ∧ (keysApply k s).rest.shadowBad = s.rest.shadowBad := by
  rw [keysApply_eq, h]
  exact kekKeep_held k.fills (keysNoted k s)

/-! ## A committed key command -/

section
variable {k : Nat} {r : Octets} {ck : ChuckRun} {s : State} {k1 : KeyRun}

/-- The state at the apply instant, before the run's results are noted. -/
def runApplied (s : State) (k1 : KeyRun) : State := { k1.s with ctl := { k1.s.ctl with generation := k1.s.ctl.generation + 1, applyAt := s.time.now } }

/-- A committed key command ends with result 0 and leaves the vault of its run. -/
theorem keyCommit_vault (h : Commits k 0x3410 1 r ck s) (hsize : leAt r 2 2 = r.length) (hne : r ≠ []) :
    ∃ k1, keyCommand r (runStart ck (sessionMade k s)) = (0, k1) ∧ deleteFail k1.s [] k1.deletes = none ∧ Committed k s (commitSingle k 0x3410 1 r ck s) ∧
      vault (commitSingle k 0x3410 1 r ck s) = vault (keysApply { k1 with n := k1.n + 1 } (runApplied s k1)) := by
  obtain ⟨k1, hk1, hcand, hrun, hdelete⟩ := keyCommit_runs h hsize hne
  have hblind {β : Type} {P : State → β} (hP : RunBlind P) (hshadow : ∀ g i s, P (shadowFix g i s) = P s) : P k1.s = P (sessionMade k s) := by
    have hcommand := hP.keyCommand hshadow r (runStart ck (sessionMade k s))
    rw [hk1] at hcommand
    exact hcommand
  have hctl : (checked k 0x3410 1 r ck s).cand.ctl = (sessionMade k s).ctl := by
    rw [hcand]
    exact hblind ctl_runBlind fun _ _ _ => rfl
  have htaken : keysTaken (sessionMade k s) (checked k 0x3410 1 r ck s) = keysApply { k1 with n := k1.n + 1 } (runApplied s k1) := by
    unfold keysTaken
    rw [hcand, hrun]
    rfl
  have hout : outlook (keysTaken (sessionMade k s) (checked k 0x3410 1 r ck s)) = outlook s := by
    rw [htaken, keysApply_keep outlook (fun _ _ _ => rfl)]
    exact hblind outlook_runBlind fun _ _ _ => rfl
  have hlast (t : State) : lastTakes [(odKey 0x3410 1, r)] t = t := by
    have hst := keyOnly_single (idx := 0x3410) (sub := 1) (by decide) (by decide) r
    unfold lastTakes
    rw [hst.stagedAt_none (.inl ⟨by decide, by decide⟩), hst.stagedNat_none (.inl ⟨by decide, by decide⟩)]
  obtain ⟨hcommitted, hvault⟩ := commitSingle_key_vault (by decide) (by decide) h hlast hctl hout
  rw [htaken] at hvault
  exact ⟨k1, hk1, hdelete, hcommitted, hvault⟩

end

/-- The count of key commands, as a run keeps it. -/
theorem commandCount_runBlind : RunBlind (fun s => s.keys.counters.get 0 0) := keysCore_runBlind fun x => x.2.1

section
variable {k : Nat} {r : Octets} {ck : ChuckRun} {s t : State} {k1 : KeyRun} (hvault : vault t = vault (keysApply { k1 with n := k1.n + 1 } (runApplied s k1))) (hdel : k1.deletes = [])
include hvault hdel

theorem runLeft_slot (n : Nat) : t.slot n = k1.s.slot n := by
  obtain ⟨hkeys, hbad⟩ := keysApply_kept (k := { k1 with n := k1.n + 1 }) hdel (runApplied s k1)
  rw [vault_slot hvault, slot_eq_of (congrArg Keys.data hkeys) (congrArg Keys.kek hkeys) hbad]
  rfl

theorem runLeft_sa (i : Nat) : t.sa i = k1.s.sa i := by
  obtain ⟨hkeys, hbad⟩ := keysApply_kept (k := { k1 with n := k1.n + 1 }) hdel (runApplied s k1)
  rw [vault_sa hvault, sa_eq_of (congrArg Keys.sa hkeys) hbad]
  rfl

theorem runLeft_exports (hex : k1.exported = true) : t.keys.exports = exportsKept k1.exports.length 65536 k1.exports := by
  obtain ⟨hkeys, -⟩ := keysApply_kept (k := { k1 with n := k1.n + 1 }) hdel (runApplied s k1)
  have hexports : t.keys.exports = _ := congrArg (fun v => v.1.1.exports) hvault
  rw [hexports]
  change (keysApply { k1 with n := k1.n + 1 } (runApplied s k1)).keys.exports = _
  rw [hkeys]
  exact if_pos hex

theorem runLeft_count (hn : k1.n = 0) : t.keys.counters.get 0 0 = k1.s.keys.counters.get 0 0 + 1 := by
  obtain ⟨hkeys, -⟩ := keysApply_kept (k := { k1 with n := k1.n + 1 }) hdel (runApplied s k1)
  have hcount : t.keys.counters.get 0 0 = _ := congrArg (fun v => v.1.2) hvault
  rw [hcount]
  change (keysApply { k1 with n := k1.n + 1 } (runApplied s k1)).keys.counters.get 0 0 = _
  rw [hkeys]
  unfold keysNoted
  dsimp only
  rw [Tab.get_bump_same, hn]
  rfl

end
end Sys2Proof.Machine

/-! Key commands that fill a slot, committed (R243, R244, R246, R249, R250, R254, R255), and with them obligation O20. -/
namespace Sys2Proof.Machine

/-! ## Keys that a command reads -/

/-- The copy of a slot in chuck A or in chuck B. -/
def slotCopy (x : KeySlot) (b : Bool) : Copy := if b then x.b else x.a

theorem slotCopy_or (x : KeySlot) (b : Bool) : slotCopy x b = x.a ∨ slotCopy x b = x.b := by
  cases b
  · exact .inl rfl
  · exact .inr rfl

/-- One copy of the slot `x` at `n` is read, unless a copy before it has passed. -/
def copyRead (n : Nat) (x : KeySlot) (r : Option Copy × State) (b : Bool) : Option Copy × State :=
  match r.1 with
  | some c => (some c, r.2)
  | none => if copyOk r.2 n (slotCopy x b) && x.copyBad != copyMark b then (some (slotCopy x b), r.2) else (none, copyFails n b r.2)

theorem readSlot_eq (n : Nat) (s : State) : readSlot n s =
    if !((s.slot n).state == .filled || (s.slot n).state == .releasing) then (none, s) else (copyOrder s).foldl (copyRead n (s.slot n)) (none, s) := rfl

theorem copyRead_copy {n : Nat} {x : KeySlot} {r : Option Copy × State} {b : Bool} (hr : ∀ c, r.1 = some c → c = x.a ∨ c = x.b) (c : Copy)
    (hc : (copyRead n x r b).1 = some c) : c = x.a ∨ c = x.b := by
  unfold copyRead at hc
  split at hc
  · next hr' => exact hr c (hr'.trans hc)
  · split at hc
    · rw [← Option.some.inj hc]
      exact slotCopy_or x b
    · exact absurd hc (by simp)

/-- A read gives one of the two copies. -/
theorem readSlot_copy {n : Nat} {s : State} {c : Copy} (h : (readSlot n s).1 = some c) : c = (s.slot n).a ∨ c = (s.slot n).b := by
  rw [readSlot_eq] at h
  split at h
  · exact absurd h (by simp)
  · exact List.foldlRecOn (motive := fun r : Option Copy × State => ∀ c, r.1 = some c → c = (s.slot n).a ∨ c = (s.slot n).b) _ _ (fun c hc => absurd hc (by simp))
      (fun r hr b _ => copyRead_copy hr) c h

theorem read_copy {n : Nat} {k k' : KeyRun} {c : Copy} (h : k.read n = (some c, k')) : c = (k.s.slot n).a ∨ c = (k.s.slot n).b :=
  readSlot_copy (s := k.s) (congrArg Prod.fst h)

/-- A KEK that a command may use is that of a Filled slot. -/
theorem kekNamed_copy {n need : Nat} {k k' : KeyRun} {c : Copy} (h : k.kekNamed n need = (0, c, k')) :
    (k.s.slot (0x8000 + n)).state = .filled ∧ (c = (k.s.slot (0x8000 + n)).a ∨ c = (k.s.slot (0x8000 + n)).b) ∧ k.read (0x8000 + n) = (some c, k') := by
  unfold KeyRun.kekNamed at h
  dsimp only at h
  split at h
  · exact absurd (congrArg Prod.fst h) (by simp)
  · next hf =>
    split at h
    · exact absurd (congrArg Prod.fst h) (by simp)
    · split at h
      · exact absurd (congrArg Prod.fst h) (by simp)
      · split at h
        · next c' k2 hr =>
          have hc : c' = c := congrArg (fun x : Nat × Copy × KeyRun => x.2.1) h
          have hk : k2 = k' := congrArg (fun x : Nat × Copy × KeyRun => x.2.2) h
          rw [hc, hk] at hr
          exact ⟨by simpa using hf, read_copy hr, hr⟩
        · exact absurd (congrArg Prod.fst h) (by simp)

theorem kekFind_filled {s : State} {id n : Nat} (h : kekFind s id = some n) : (s.slot (0x8000 + n)).state = .filled := by
  unfold kekFind at h
  obtain ⟨q, hq, rfl⟩ := Option.map_eq_some_iff.mp h
  have hfound := List.find?_some hq
  simp only [Bool.and_eq_true, beq_iff_eq] at hfound
  exact hfound.1

theorem blobInside_opens {blob key p : Octets} {n : Nat} {k k' : KeyRun} (h : blobInside blob key n k = (0, p, k')) : aesKwpOpen key (blob.drop 16) = some p := by
  unfold blobInside at h
  dsimp only at h
  split at h
  · exact absurd (congrArg Prod.fst h) (by simp)
  · next p' ho =>
    generalize (if octet blob 3 = 3 then 124 else 80 : Nat) = len at h
    have hp : p' = p := by
      split at h
      · exact absurd (congrArg Prod.fst h) (by simp)
      · split at h
        · exact absurd (congrArg Prod.fst h) (by simp)
        · split at h
          · exact absurd (congrArg Prod.fst h) (by simp)
          · split at h
            · next hne => exact absurd (congrArg Prod.fst h) hne
            · split at h
              · exact absurd (congrArg Prod.fst h) (by simp)
              · split at h
                · exact absurd (congrArg Prod.fst h) (by simp)
                · split at h
                  · exact absurd (congrArg Prod.fst h) (by simp)
                  · exact congrArg (fun x : Nat × Octets × KeyRun => x.2.1) h
    rw [ho, hp]

/-- The plaintext of a blob that passes its checks is what the key of a Filled KEK slot unwraps. -/
theorem blobCheck_opens {blob p : Octets} {sa : Bool} {n : Nat} {k k' : KeyRun} (h : blobCheck blob sa n k = (0, p, k')) :
    ∃ m c, (k.s.slot (0x8000 + m)).state = .filled ∧ (c = (k.s.slot (0x8000 + m)).a ∨ c = (k.s.slot (0x8000 + m)).b) ∧ aesKwpOpen c.key (blob.drop 16) = some p := by
  unfold blobCheck at h
  generalize (if sa then 3 else if isKek n then 2 else 1 : Nat) = kind at h
  dsimp only at h
  split at h
  · exact absurd (congrArg Prod.fst h) (by simp)
  · split at h
    · exact absurd (congrArg Prod.fst h) (by simp)
    · split at h
      · exact absurd (congrArg Prod.fst h) (by simp)
      · next m hm =>
        split at h
        · exact absurd (congrArg Prod.fst h) (by simp)
        · split at h
          · exact absurd (congrArg Prod.fst h) (by simp)
          · split at h
            · exact absurd (congrArg Prod.fst h) (by simp)
            · next c _ hr => exact ⟨m, c, kekFind_filled hm, read_copy hr, blobInside_opens h⟩

/-! ## Commands that fill a slot -/

/-- A command that succeeds filled the slot `n` with the attributes `a` and the key `key`, in a run that shows what it showed at its start. -/
def Fills (n : Nat) (a : Attr) (key : Octets) (k k1 : KeyRun) : Prop := ∃ k2 : KeyRun, k2.fill n a key = (0, k1) ∧ k2.deletes = k.deletes ∧ k2.n = k.n

section
variable {n : Nat} {a : Attr} {key : Octets} {k k1 k2 : KeyRun}

theorem Fills.of_view (hf : k2.fill n a key = (0, k1)) (hv : runView (fun s => s.keys.counters.get 0 0) k2 = runView (fun s => s.keys.counters.get 0 0) k) : Fills n a key k k1 :=
  ⟨k2, hf, congrArg (fun x => x.2.2.1) hv, congrArg (fun x => x.2.1) hv⟩

theorem Fills.slot (h : Fills n a key k k1) : ∃ s, k1.s.slot n = filledSlot s n (a.copy key) := by
  obtain ⟨k2, hf, -⟩ := h
  exact ⟨_, (fill_fills hf).2.2⟩

theorem Fills.book (h : Fills n a key k k1) : k1.deletes = k.deletes ∧ k1.n = k.n := by
  obtain ⟨k2, hf, hdeletes, hn⟩ := h
  have hview := commandCount_runBlind.fill n a key k2
  rw [hf] at hview
  exact ⟨(congrArg (fun x => x.2.2.1) hview).trans hdeletes, (congrArg (fun x => x.2.1) hview).trans hn⟩

end

theorem loadBlob_fills {n : Nat} {blob : Octets} {k k1 : KeyRun} (h : loadBlob n blob k = (0, k1)) :
    ∃ p, Fills n (Attr.ofPlain p) (slice p 48 (Attr.ofPlain p).keyLen) k k1 ∧
      ∃ m c, (k.s.slot (0x8000 + m)).state = .filled ∧ (c = (k.s.slot (0x8000 + m)).a ∨ c = (k.s.slot (0x8000 + m)).b) ∧ aesKwpOpen c.key (blob.drop 16) = some p := by
  have hview := commandCount_runBlind.blobCheck blob false n k
  unfold loadBlob at h
  split at h
  · next p k2 hc =>
    rw [hc] at hview
    exact ⟨p, .of_view h hview, blobCheck_opens hc⟩
  · next hne _ => exact (hne (congrArg Prod.fst h)).elim

theorem cmdBlobStore_fills {r : Octets} {k k1 : KeyRun} (h : cmdBlobStore r k = (0, k1)) : ∃ a key, Fills (targetAt r 4) a key k k1 := by
  have hview := commandCount_runBlind.entry false (leAt r 8 4) k
  unfold cmdBlobStore at h
  split at h
  · next he =>
    rw [he] at hview
    obtain ⟨p, ⟨k3, hf, hdeletes, hn⟩, -⟩ := loadBlob_fills h
    exact ⟨_, _, k3, hf, hdeletes.trans (congrArg (fun x => x.2.2.1) hview), hn.trans (congrArg (fun x => x.2.1) hview)⟩
  · exact absurd (congrArg Prod.fst h) (by simp)

theorem cmdDerive_fills {r : Octets} {k k1 : KeyRun} (h : cmdDerive r k = (0, k1)) : ∃ key, Fills (targetAt r 4) (Attr.ofBlock (slice r 16 24)) key k k1 := by
  have hview := commandCount_runBlind.kekNamed (leAt r 6 2) 0x08 k
  unfold cmdDerive at h
  dsimp only at h
  split at h
  · exact absurd (congrArg Prod.fst h) (by simp)
  · split at h
    · next hk =>
      rw [hk] at hview
      split at h
      · next hne => exact absurd (congrArg Prod.fst h) hne
      · exact ⟨_, .of_view h hview⟩
    · next hne _ => exact (hne (congrArg Prod.fst h)).elim

theorem cmdGenerate_fills {r : Octets} {k k1 : KeyRun} (h : cmdGenerate r k = (0, k1)) : ∃ key, Fills (targetAt r 4) (Attr.ofBlock (slice r 8 24)) key k k1 := by
  have hview := commandCount_runBlind.draw (Attr.ofBlock (slice r 8 24)).keyLen k
  unfold cmdGenerate at h
  dsimp only at h
  split at h
  · next hne => exact absurd (congrArg Prod.fst h) hne
  · split at h
    · exact absurd (congrArg Prod.fst h) (by simp)
    · split at h
      · next hd =>
        rw [hd] at hview
        exact ⟨_, .of_view h hview⟩
      · exact absurd (congrArg Prod.fst h) (by simp)

theorem cmdImport_fills {r : Octets} {k k1 : KeyRun} (h : cmdImport r k = (0, k1)) :
    ∃ key c, isKek (leAt r 4 2) = false ∧ Fills (leAt r 4 2) (Attr.ofBlock (slice r 8 24)) key k k1 ∧
      (c = (k.s.slot (0x8000 + leAt r 6 2)).a ∨ c = (k.s.slot (0x8000 + leAt r 6 2)).b) ∧ aesKwOpen c.key (slice r 32 ((Attr.ofBlock (slice r 8 24)).keyLen + 8)) = some key := by
  have hview := commandCount_runBlind.kekNamed (leAt r 6 2) 0x44 k
  unfold cmdImport at h
  dsimp only at h
  split at h
  · exact absurd (congrArg Prod.fst h) (by simp)
  · next hrange =>
    have hdata : isKek (leAt r 4 2) = false := eq_false_of_ne_true fun hk => hrange (.inl hk)
    split at h
    · next hne => exact absurd (congrArg Prod.fst h) hne
    · split at h
      · exact absurd (congrArg Prod.fst h) (by simp)
      · split at h
        · next c k2 hk =>
          rw [hk] at hview
          split at h
          · next key ho => exact ⟨key, c, hdata, .of_view h hview, (kekNamed_copy hk).2.1, ho⟩
          · exact absurd (congrArg Prod.fst h) (by simp)
        · next hne _ => exact (hne (congrArg Prod.fst h)).elim

/-! ## The commit of one -/

/-- A committed command that fills a slot. -/
theorem commit_fills {k : Nat} {r : Octets} {ck : ChuckRun} {s : State} {n : Nat} {Q : Attr → Octets → Prop} (h : Commits k 0x3410 1 r ck s) (hsize : leAt r 2 2 = r.length) (hne : r ≠ [])
    (hfills : ∀ k1, keyCommand r (runStart ck (sessionMade k s)) = (0, k1) → ∃ a key, Fills (targetOf n) a key (runStart ck (sessionMade k s)) k1 ∧ Q a key) :
    ∃ a key u, Q a key ∧ Committed k s (commitSingle k 0x3410 1 r ck s) ∧ (commitSingle k 0x3410 1 r ck s).slot n = filledSlot u (targetOf n) (a.copy key) ∧
      (commitSingle k 0x3410 1 r ck s).keys.counters.get 0 0 = s.keys.counters.get 0 0 + 1 := by
  obtain ⟨k1, hk1, -, hcommitted, hvault⟩ := keyCommit_vault h hsize hne
  obtain ⟨a, key, hf, hQ⟩ := hfills k1 hk1
  obtain ⟨hdel, hn⟩ := hf.book
  obtain ⟨u, hslot⟩ := hf.slot
  refine ⟨a, key, u, hQ, hcommitted, ?_, ?_⟩
  · rw [runLeft_slot hvault hdel, ← slot_targetOf, hslot]
  · rw [runLeft_count hvault hdel hn]
    have hcount := commandCount_runBlind.keyCommand (fun _ _ _ => rfl) r (runStart ck (sessionMade k s))
    rw [hk1] at hcount
    exact congrArg (· + 1) hcount

/-! ## The records of these commands -/

theorem keyRecord_ne_nil (op : Nat) (x : Octets) : keyRecord op x ≠ [] := List.cons_ne_nil _ _

/-- A target comes first in its record. -/
theorem targetAt_keyRecord (op : Nat) (target : BitVec 16) (x : Octets) : targetAt (keyRecord op (leBytes 2 target.toNat ++ x)) 4 = targetOf target.toNat := by
  rw [targetAt_eq, leAt_keyRecord, leAt_leBytes target.isLt]

section
variable (ses : Fin 128) (target source kek : BitVec 16) (prf cw lw : BitVec 8) (label context attr wrapped blob : Octets) (index : BitVec 32) (ck : ChuckRun) (s : State)

theorem generate_fills (h : Commits ses 0x3410 1 (keyRecord 4 (leBytes 2 target.toNat ++ zeros 2 ++ padTo 24 attr)) ck s) :
    ∃ t, exec (.keyGenerate ses target attr ck) s = .next t ∧ Committed ses s t ∧ (t.slot target.toNat).state = .filled ∧ (t.slot target.toNat).b = (t.slot target.toNat).a ∧
      (t.slot target.toNat).a.usage = (Attr.ofBlock (padTo 24 attr)).usage ∧ (t.slot target.toNat).a.keyId = (Attr.ofBlock (padTo 24 attr)).keyId ∧
      t.keys.counters.get 0 0 = s.keys.counters.get 0 0 + 1 := by
  have hattr : slice (keyRecord 4 (leBytes 2 target.toNat ++ zeros 2 ++ padTo 24 attr)) 8 24 = padTo 24 attr :=
    (slice_append_right (a := leBytes 2 target.toNat ++ zeros 2) (m := 4) rfl (padTo 24 attr) 0 24).trans (slice_whole (padTo_length ..))
  have hsize : (leBytes 2 target.toNat ++ zeros 2 ++ padTo 24 attr).length = 28 := by
    rw [List.length_append, padTo_length]
    rfl
  obtain ⟨a, key, u, rfl, hcommitted, hslot, hcount⟩ := commit_fills (n := target.toNat) (Q := fun a _ => a = Attr.ofBlock (padTo 24 attr)) h
    (keyRecord_size (by omega)) (keyRecord_ne_nil 4 _) fun k1 hk1 => by
    obtain ⟨key, hf⟩ := cmdGenerate_fills (r := keyRecord 4 (leBytes 2 target.toNat ++ zeros 2 ++ padTo 24 attr)) hk1
    rw [hattr, List.append_assoc, targetAt_keyRecord] at hf
    exact ⟨_, key, hf, rfl⟩
  refine ⟨_, rfl, hcommitted, ?_, ?_, ?_, ?_, hcount⟩ <;> rw [hslot] <;> rfl

theorem pad4_length (b : Octets) : (pad4 b).length ≤ b.length + 3 := by
  unfold pad4
  rw [List.length_append, zeros_length]
  omega

/-- The operands of a derivation before the attributes. -/
def deriveHead : Octets := leBytes 2 target.toNat ++ leBytes 2 source.toNat ++ [prf, cw, lw] ++ oct label.length ++ leBytes 2 context.length ++ zeros 2

/-- The operands of a derivation (R249). -/
def deriveOperands : Octets := pad4 (deriveHead target source prf cw lw label context ++ padTo 24 attr ++ label ++ context)

theorem deriveHead_length : (deriveHead target source prf cw lw label context).length = 12 := rfl

/-- The attributes stand after the head. -/
theorem deriveOperands_attr : ∃ z, deriveOperands target source prf cw lw label context attr = deriveHead target source prf cw lw label context ++ (padTo 24 attr ++ z) := by
  unfold deriveOperands pad4
  rw [List.append_assoc _ label, List.append_assoc _ (label ++ context), List.append_assoc _ (padTo 24 attr)]
  exact ⟨_, rfl⟩

/-- The target comes first. -/
theorem deriveOperands_target : ∃ y, deriveOperands target source prf cw lw label context attr = leBytes 2 target.toNat ++ y := by
  obtain ⟨z, hz⟩ := deriveOperands_attr target source prf cw lw label context attr
  rw [hz]
  unfold deriveHead
  simp only [List.append_assoc]
  exact ⟨_, rfl⟩

theorem deriveOperands_length (hlabel : label.length ≤ 64) (hcontext : context.length ≤ 256) : (deriveOperands target source prf cw lw label context attr).length < 65532 := by
  have hlen := pad4_length (deriveHead target source prf cw lw label context ++ padTo 24 attr ++ label ++ context)
  simp only [List.length_append, deriveHead_length, padTo_length] at hlen
  exact hlen.trans_lt (by omega)

theorem derive_fills (hlabel : label.length ≤ 64) (hcontext : context.length ≤ 256)
    (h : Commits ses 0x3410 1 (keyRecord 3 (deriveOperands target source prf cw lw label context attr)) ck s) :
    ∃ t, exec (.keyDerive ses target source prf cw lw label context attr ck) s = .next t ∧ Committed ses s t ∧
      (t.slot target.toNat).state = .filled ∧ (t.slot target.toNat).b = (t.slot target.toNat).a ∧ (t.slot target.toNat).a.usage = (Attr.ofBlock (padTo 24 attr)).usage ∧
      (t.slot target.toNat).a.keyId = (Attr.ofBlock (padTo 24 attr)).keyId ∧ t.keys.counters.get 0 0 = s.keys.counters.get 0 0 + 1 := by
  have hexec : exec (.keyDerive ses target source prf cw lw label context attr ck) s =
    .next (commitSingle ses 0x3410 1 (keyRecord 3 (deriveOperands target source prf cw lw label context attr)) ck s) := rfl
  have hsize := deriveOperands_length target source prf cw lw label context attr hlabel hcontext
  have hattr : slice (keyRecord 3 (deriveOperands target source prf cw lw label context attr)) 16 24 = padTo 24 attr := by
    obtain ⟨z, hz⟩ := deriveOperands_attr target source prf cw lw label context attr
    rw [hz]
    exact (slice_append_right (deriveHead_length target source prf cw lw label context) _ 0 24).trans (slice_append_left (padTo_length ..) z)
  obtain ⟨y, hy⟩ := deriveOperands_target target source prf cw lw label context attr
  rw [hexec]
  rw [hy] at h hsize hattr ⊢
  obtain ⟨a, key, u, rfl, hcommitted, hslot, hcount⟩ := commit_fills (n := target.toNat) (Q := fun a _ => a = Attr.ofBlock (padTo 24 attr)) h
    (keyRecord_size hsize) (keyRecord_ne_nil 3 _) fun k1 hk1 => by
      obtain ⟨key, hf⟩ := cmdDerive_fills (r := keyRecord 3 (leBytes 2 target.toNat ++ y)) hk1
      rw [hattr, targetAt_keyRecord] at hf
      exact ⟨_, key, hf, rfl⟩
  refine ⟨_, rfl, hcommitted, ?_, ?_, ?_, ?_, hcount⟩ <;> rw [hslot] <;> rfl

theorem import_fills (h : Commits ses 0x3410 1 (keyRecord 6 (leBytes 2 target.toNat ++ leBytes 2 kek.toNat ++ padTo 24 attr ++ padTo 40 wrapped)) ck s) :
    ∃ t, exec (.keyImportBare ses target kek attr wrapped ck) s = .next t ∧ Committed ses s t ∧ (t.slot target.toNat).state = .filled ∧ (t.slot target.toNat).b = (t.slot target.toNat).a ∧
      (t.slot target.toNat).a.usage = (Attr.ofBlock (padTo 24 attr)).usage ∧ (t.slot target.toNat).a.keyId = (Attr.ofBlock (padTo 24 attr)).keyId ∧
      t.keys.counters.get 0 0 = s.keys.counters.get 0 0 + 1 ∧ ∃ w, (w = (s.slot (0x8000 + kek.toNat)).a.key ∨ w = (s.slot (0x8000 + kek.toNat)).b.key) ∧
      aesKwOpen w ((padTo 40 wrapped).take ((Attr.ofBlock (padTo 24 attr)).keyLen + 8)) = some (t.slot target.toNat).a.key := by
  have hexec : exec (.keyImportBare ses target kek attr wrapped ck) s = .next (commitSingle ses 0x3410 1
    (keyRecord 6 (leBytes 2 target.toNat ++ leBytes 2 kek.toNat ++ padTo 24 attr ++ padTo 40 wrapped)) ck s) := rfl
  have hassoc : leBytes 2 target.toNat ++ leBytes 2 kek.toNat ++ padTo 24 attr ++ padTo 40 wrapped = leBytes 2 target.toNat ++ (leBytes 2 kek.toNat ++ (padTo 24 attr ++ padTo 40 wrapped)) := by
    rw [List.append_assoc, List.append_assoc]
  rw [hexec]
  rw [hassoc] at h ⊢
  have htarget : leAt (keyRecord 6 (leBytes 2 target.toNat ++ (leBytes 2 kek.toNat ++ (padTo 24 attr ++ padTo 40 wrapped)))) 4 2 = target.toNat := leAt_leBytes target.isLt _
  have hkek : leAt (keyRecord 6 (leBytes 2 target.toNat ++ (leBytes 2 kek.toNat ++ (padTo 24 attr ++ padTo 40 wrapped)))) 6 2 = kek.toNat :=
    (leAt_append_right (a := leBytes 2 target.toNat) (m := 2) rfl _ 0 2).trans (leAt_leBytes kek.isLt _)
  have hattr : slice (keyRecord 6 (leBytes 2 target.toNat ++ (leBytes 2 kek.toNat ++ (padTo 24 attr ++ padTo 40 wrapped)))) 8 24 = padTo 24 attr :=
    (slice_append_right (a := leBytes 2 target.toNat) (m := 2) rfl _ 2 24).trans
      ((slice_append_right (a := leBytes 2 kek.toNat) (m := 2) rfl _ 0 24).trans (slice_append_left (padTo_length ..) _))
  have hwrapped (n : Nat) : slice (keyRecord 6 (leBytes 2 target.toNat ++ (leBytes 2 kek.toNat ++ (padTo 24 attr ++ padTo 40 wrapped)))) 32 n = (padTo 40 wrapped).take n :=
    (slice_append_right (a := leBytes 2 target.toNat) (m := 2) rfl _ 26 n).trans
      ((slice_append_right (a := leBytes 2 kek.toNat) (m := 2) rfl _ 24 n).trans (slice_append_right (padTo_length 24 attr) _ 0 n))
  have hsize : (leBytes 2 target.toNat ++ (leBytes 2 kek.toNat ++ (padTo 24 attr ++ padTo 40 wrapped))).length = 68 := by
    simp only [List.length_append, length_leBytes, padTo_length]
  obtain ⟨a, key, u, ⟨rfl, c, hc, hopen⟩, hcommitted, hslot, hcount⟩ := commit_fills (n := target.toNat)
    (Q := fun a key => a = Attr.ofBlock (padTo 24 attr) ∧ ∃ c, (c = (s.slot (0x8000 + kek.toNat)).a ∨ c = (s.slot (0x8000 + kek.toNat)).b) ∧
      aesKwOpen c.key ((padTo 40 wrapped).take ((Attr.ofBlock (padTo 24 attr)).keyLen + 8)) = some key) h (keyRecord_size (by omega)) (keyRecord_ne_nil 6 _) fun k1 hk1 => by
      obtain ⟨key, c, hdata, hf, hc, hopen⟩ := cmdImport_fills (r := keyRecord 6 (leBytes 2 target.toNat ++ (leBytes 2 kek.toNat ++ (padTo 24 attr ++ padTo 40 wrapped)))) hk1
      rw [hattr, hwrapped] at hopen
      rw [hattr, htarget] at hf
      rw [hkek] at hc
      rw [htarget] at hdata
      have htargetOf : targetOf target.toNat = target.toNat := if_neg (by rw [hdata]; exact Bool.false_ne_true)
      exact ⟨_, key, by rw [htargetOf]; exact hf, rfl, c, hc, hopen⟩
  refine ⟨_, rfl, hcommitted, ?_, ?_, ?_, ?_, hcount, c.key, hc.imp (congrArg Copy.key) (congrArg Copy.key), ?_⟩ <;> rw [hslot]
  · rfl
  · rfl
  · rfl
  · rfl
  · exact hopen

theorem loadBlob_committed (hblob : blob.length = 104) (h : Commits ses 0x3410 1 (keyRecord 1 (leBytes 2 target.toNat ++ zeros 2 ++ blob)) ck s) :
    ∃ t, exec (.keyLoadBlob ses target blob ck) s = .next t ∧ Committed ses s t ∧ (t.slot target.toNat).state = .filled ∧ (t.slot target.toNat).b = (t.slot target.toNat).a ∧
      t.keys.counters.get 0 0 = s.keys.counters.get 0 0 + 1 ∧ ∃ n w p, (s.slot (0x8000 + n)).state = .filled ∧ (w = (s.slot (0x8000 + n)).a.key ∨ w = (s.slot (0x8000 + n)).b.key) ∧ aesKwpOpen w (blob.drop 16) = some p ∧
        (t.slot target.toNat).a.key = slice p 48 (Attr.ofPlain p).keyLen ∧ (t.slot target.toNat).a.usage = (Attr.ofPlain p).usage ∧ (t.slot target.toNat).a.keyId = (Attr.ofPlain p).keyId := by
  have hdata : slice (keyRecord 1 (leBytes 2 target.toNat ++ zeros 2 ++ blob)) 8 104 = blob :=
    (slice_append_right (a := leBytes 2 target.toNat ++ zeros 2) (m := 4) rfl blob 0 104).trans (slice_whole hblob)
  have hsize : (leBytes 2 target.toNat ++ zeros 2 ++ blob).length = 108 := by
    rw [List.length_append, hblob]
    rfl
  obtain ⟨a, key, u, ⟨p, rfl, rfl, n, c, hfilled, hc, hopen⟩, hcommitted, hslot, hcount⟩ := commit_fills (n := target.toNat)
    (Q := fun a key => ∃ p, a = Attr.ofPlain p ∧ key = slice p 48 (Attr.ofPlain p).keyLen ∧ ∃ n c, (s.slot (0x8000 + n)).state = .filled ∧
      (c = (s.slot (0x8000 + n)).a ∨ c = (s.slot (0x8000 + n)).b) ∧ aesKwpOpen c.key (blob.drop 16) = some p) h (keyRecord_size (by omega)) (keyRecord_ne_nil 1 _) fun k1 hk1 => by
      obtain ⟨p, hf, n, c, hfilled, hc, hopen⟩ := loadBlob_fills (n := targetAt (keyRecord 1 (leBytes 2 target.toNat ++ zeros 2 ++ blob)) 4)
        (blob := slice (keyRecord 1 (leBytes 2 target.toNat ++ zeros 2 ++ blob)) 8 104) hk1
      rw [hdata] at hopen
      rw [List.append_assoc, targetAt_keyRecord] at hf
      exact ⟨_, _, hf, p, rfl, rfl, n, c, hfilled, hc, hopen⟩
  refine ⟨_, rfl, hcommitted, ?_, ?_, hcount, n, c.key, p, hfilled, hc.imp (congrArg Copy.key) (congrArg Copy.key), hopen, ?_, ?_, ?_⟩ <;> rw [hslot] <;> rfl

theorem loadBlobStore_committed (h : Commits ses 0x3410 1 (keyRecord 2 (leBytes 2 target.toNat ++ zeros 2 ++ leBytes 4 index.toNat)) ck s) :
    ∃ t, exec (.keyLoadBlobStore ses target index ck) s = .next t ∧ Committed ses s t ∧ (t.slot target.toNat).state = .filled ∧ (t.slot target.toNat).b = (t.slot target.toNat).a ∧
      t.keys.counters.get 0 0 = s.keys.counters.get 0 0 + 1 := by
  have hsize : (leBytes 2 target.toNat ++ zeros 2 ++ leBytes 4 index.toNat).length = 8 := rfl
  obtain ⟨a, key, u, -, hcommitted, hslot, hcount⟩ := commit_fills (n := target.toNat) (Q := fun _ _ => True) h (keyRecord_size (by omega)) (keyRecord_ne_nil 2 _) fun k1 hk1 => by
    obtain ⟨a, key, hf⟩ := cmdBlobStore_fills (r := keyRecord 2 (leBytes 2 target.toNat ++ zeros 2 ++ leBytes 4 index.toNat)) hk1
    rw [List.append_assoc, targetAt_keyRecord] at hf
    exact ⟨a, key, hf, trivial⟩
  refine ⟨_, rfl, hcommitted, ?_, ?_, hcount⟩ <;> rw [hslot] <;> rfl

end

/-- Settles O20: the command of each record fills its target, and what follows in the commit leaves the slots of the run. -/
theorem keyCommandsFillSlots : Obligations.KeyCommandsFillSlots := by
  unfold Obligations.KeyCommandsFillSlots
  exact ⟨generate_fills, derive_fills, import_fills, loadBlob_committed, loadBlobStore_committed⟩

end Sys2Proof.Machine

/-! Key commands that give out or delete a key or load an association, committed (R249, R251, R257, R262, R263), and with them obligation O21. -/
namespace Sys2Proof.Machine

/-! ## The length of a wrapped key -/

/-- At most `m` semiblocks of at most 8 octets each. -/
def Semiblocks (m : Nat) (l : List Octets) : Prop := l.length ≤ m ∧ ∀ x ∈ l, x.length ≤ 8

theorem Semiblocks.flatten_length {m : Nat} {l : List Octets} (h : Semiblocks m l) : l.flatten.length ≤ 8 * m := by
  obtain ⟨hlen, hall⟩ := h
  have hsum := List.sum_le_card_nsmul (l.map List.length) 8 (by simpa using hall)
  rw [List.length_map, smul_eq_mul] at hsum
  rw [List.length_flatten]
  omega

theorem records_semiblocks (k : Nat) (b : Octets) : Semiblocks k (records 8 k b) := by
  induction k generalizing b with
  | zero => exact ⟨le_rfl, by simp [records]⟩
  | succ k ih =>
    obtain ⟨hlen, hall⟩ := ih (b.drop 8)
    unfold records
    split
    · exact ⟨Nat.zero_le _, by simp⟩
    · refine ⟨Nat.succ_le_succ hlen, fun x hx => ?_⟩
      rcases List.mem_cons.mp hx with rfl | hx
      · exact List.length_take_le ..
      · exact hall x hx

theorem kwPass_semiblocks {key : Octets} {m n : Nat} {l acc : List Octets} {a : Octets} {t : Nat} (hl : Semiblocks m l) (hacc : Semiblocks n acc) (ha : a.length ≤ 8) :
    (kwPass key l a t acc).1.length ≤ 8 ∧ Semiblocks (m + n) (kwPass key l a t acc).2.1 := by
  induction l generalizing m n a t acc with
  | nil =>
    obtain ⟨hlen, hall⟩ := hacc
    exact ⟨ha, by rw [kwPass, List.length_reverse]; omega, fun x hx => hall x (List.mem_reverse.mp hx)⟩
  | cons r rs ih =>
    obtain ⟨hlen, hall⟩ := hl
    obtain ⟨m, rfl⟩ : ∃ k, m = k + 1 := ⟨m - 1, by rw [List.length_cons] at hlen; omega⟩
    have hbe (v : Nat) : (beBytes 8 v).length = 8 := by unfold beBytes; rw [List.length_reverse, length_leBytes]
    unfold kwPass
    rw [withNat_eq, Nat.add_right_comm, Nat.add_assoc]
    refine ih ⟨Nat.le_of_succ_le_succ hlen, fun x hx => hall x (List.mem_cons_of_mem _ hx)⟩ ⟨Nat.succ_le_succ hacc.1, fun x hx => ?_⟩ ?_
    · rcases List.mem_cons.mp hx with rfl | hx
      · exact (hbe _).le
      · exact hacc.2 x hx
    · unfold xorB
      rw [List.length_zipWith, hbe, hbe]
      exact le_rfl

theorem kwWrap_length {key a : Octets} {m : Nat} {l : List Octets} (hl : Semiblocks m l) (ha : a.length ≤ 8) : (kwWrap key a l).length ≤ 8 + 8 * m := by
  have hinv := List.foldlRecOn (motive := fun s : Octets × List Octets × Nat => s.1.length ≤ 8 ∧ Semiblocks m s.2.1) (List.range 6)
    (fun (s : Octets × List Octets × Nat) _ => kwPass key s.2.1 s.1 s.2.2 []) (b := (a, l, 1)) ⟨ha, hl⟩
    (fun s hs _ _ => kwPass_semiblocks (n := 0) hs.2 ⟨le_rfl, by simp⟩ hs.1)
  unfold kwWrap
  rw [List.length_append]
  exact Nat.add_le_add hinv.1 hinv.2.flatten_length

theorem aesKw_length (key p : Octets) : (aesKw key p).length ≤ 16 + 8 * p.length := by
  have hlen : (aesKw key p).length ≤ 8 + 8 * (p.length + 1) := kwWrap_length (records_semiblocks _ p) (by simp)
  omega

theorem exportBlob_length (c w : Copy) (kek : Bool) : (exportBlob c w kek).length < 65532 := by
  have hbe (n v : Nat) : (beBytes n v).length = n := by unfold beBytes; rw [List.length_reverse, length_leBytes]
  have hoct (v : Nat) : (oct v).length = 1 := rfl
  have hwrap (key a p : Octets) (ha : a.length ≤ 8) : (kwWrap key a (semiblocks p)).length ≤ 16 + 8 * p.length := by
    have hlen : (kwWrap key a (semiblocks p)).length ≤ 8 + 8 * (p.length + 1) := kwWrap_length (records_semiblocks _ p) ha
    omega
  unfold exportBlob aesKwp
  rw [List.length_append]
  refine (Nat.add_le_add_left (hwrap _ _ _ (by rw [List.length_append, hbe]; simp)) _).trans_lt ?_
  simp only [List.length_append, hbe, hoct, zeros_length, padTo_length, List.length_cons, List.length_nil]
  decide

/-! ## One exported key -/

/-- The first exported key of a commit fits the room for results. -/
theorem exportsKept_one {o : Octets} (h : o.length < 65532) : exportsKept (leBytes 2 0 ++ leBytes 2 o.length ++ o).length 65536 (leBytes 2 0 ++ leBytes 2 o.length ++ o) =
    leBytes 2 0 ++ leBytes 2 o.length ++ o := by
  have hlen : (leBytes 2 0 ++ leBytes 2 o.length ++ o).length = o.length + 3 + 1 := by
    rw [List.length_append]
    exact Nat.add_comm ..
  have hsize : leAt (leBytes 2 0 ++ leBytes 2 o.length ++ o) 2 2 = o.length := by
    rw [List.append_assoc]
    exact (leAt_append_right (length_leBytes 2 0) _ 0 2).trans (leAt_leBytes (by omega) o)
  have hnil (fuel room : Nat) : exportsKept fuel room [] = [] := by cases fuel <;> simp [exportsKept]
  rw [hlen]
  unfold exportsKept
  dsimp only
  have hroom : ¬((leBytes 2 0 ++ leBytes 2 o.length ++ o).isEmpty = true ∨ 65536 < 4 + o.length) := by
    rintro (he | hr)
    · exact absurd (congrArg List.length (List.isEmpty_iff.mp he)) (by rw [hlen]; exact Nat.succ_ne_zero _)
    · omega
  rw [hsize, if_neg hroom, List.take_of_length_le (by omega), List.drop_of_length_le (by omega), hnil, List.append_nil]

/-! ## A copy that fails leaves both copies as they are -/

/-- The two copies of a slot. -/
def slotCopies (n : Nat) (s : State) : Copy × Copy := ((s.slot n).a, (s.slot n).b)

/-- The copies of a slot stand in its record, whatever its shadow says. -/
theorem slotCopies_eq (n : Nat) (s : State) : slotCopies n s =
    if 0x8000 ≤ n then ((s.keys.kek.get (n % 256) {}).a, (s.keys.kek.get (n % 256) {}).b) else ((s.keys.data.get n {}).a, (s.keys.data.get n {}).b) := by
  unfold slotCopies State.slot
  dsimp only
  split <;> split <;> rfl

theorem updSlot_slotCopies {f : KeySlot → KeySlot} (hf : ∀ x, (f x).a = x.a ∧ (f x).b = x.b) (m n : Nat) (s : State) : slotCopies m (updSlot n f s) = slotCopies m s := by
  have hget (i j : Nat) (t : Tab KeySlot) : (((t.upd i {} f).get j {}).a, ((t.upd i {} f).get j {}).b) = ((t.get j {}).a, (t.get j {}).b) := by
    rw [Tab.get_upd]
    split
    · next h => rw [h, (hf _).1, (hf _).2]
    · rfl
  rw [slotCopies_eq, slotCopies_eq]
  unfold updSlot
  by_cases hn : 0x8000 ≤ n
  · rw [if_pos hn]
    exact congrArg (fun x => if 0x8000 ≤ m then x else ((s.keys.data.get m {}).a, (s.keys.data.get m {}).b)) (hget ..)
  · rw [if_neg hn]
    exact congrArg (fun x => if 0x8000 ≤ m then ((s.keys.kek.get (m % 256) {}).a, (s.keys.kek.get (m % 256) {}).b) else x) (hget ..)

theorem slotCopies_of_slot {n : Nat} {s t : State} (h : t.slot n = s.slot n) : slotCopies n t = slotCopies n s := congrArg (fun x : KeySlot => (x.a, x.b)) h

theorem copyFails_slotCopies (m n : Nat) (b : Bool) (s : State) : slotCopies m (copyFails n b s) = slotCopies m s := by
  unfold copyFails
  generalize (if b then 2 else 1) = mark
  dsimp only
  split
  · rfl
  · split
    · unfold slotBad
      rw [slotCopies_of_slot ((freezeSlotSas_slot ..).trans ((keyEvent_slot ..).trans ((keyCount_slot ..).trans (post_slot ..)))),
        updSlot_slotCopies (f := fun x => { x with state := .bad }) fun _ => ⟨rfl, rfl⟩]
      rfl
    · rw [slotCopies_of_slot ((keyEvent_slot ..).trans (post_slot ..)), updSlot_slotCopies (f := fun x => { x with copyBad := mark }) fun _ => ⟨rfl, rfl⟩]
      rfl

theorem readSlot_slotCopies (m n : Nat) (s : State) : slotCopies m (readSlot n s).2 = slotCopies m s := by
  unfold readSlot
  dsimp only
  split
  · rfl
  · refine keep2 fun p b => ?_
    split
    · rfl
    · rw [apply_ite Prod.snd, apply_ite (slotCopies m), copyFails_slotCopies, ite_self]

/-! ## Exported keys (R249) -/

/-- The octets given out for a key. -/
def exported (bare : Bool) (w c : Copy) (kek : Bool) : Octets := if bare then aesKw w.key c.key else exportBlob c w kek

/-- A command that exports a key leaves one result more, of a copy of the source's key under a copy of the wrapping key. -/
theorem cmdExport_exports {r : Octets} {k k1 : KeyRun} (h : cmdExport r k = (0, k1)) : ∃ w c,
    (w = (k.s.slot (0x8000 + leAt r 6 2)).a ∨ w = (k.s.slot (0x8000 + leAt r 6 2)).b) ∧ (c = (k.s.slot (targetAt r 4)).a ∨ c = (k.s.slot (targetAt r 4)).b) ∧
    k1.deletes = k.deletes ∧ k1.exported = true ∧
    k1.exports = k.exports ++ leBytes 2 k.n ++ leBytes 2 (exported (octet r 8 == 1) w c (isKek (targetAt r 4))).length ++ exported (octet r 8 == 1) w c (isKek (targetAt r 4)) := by
  have hnamed := commandCount_runBlind.kekNamed (leAt r 6 2) (if (octet r 8 == 1) = true then 0x50 else 0x10) k
  unfold cmdExport at h
  dsimp only at h
  split at h
  · exact absurd (congrArg Prod.fst h) (by simp)
  · split at h
    · exact absurd (congrArg Prod.fst h) (by simp)
    · split at h
      · next wc k2 hk =>
        rw [hk] at hnamed
        obtain ⟨-, hw, hwread⟩ := kekNamed_copy hk
        split at h
        · exact absurd (congrArg Prod.fst h) (by simp)
        · have hread := commandCount_runBlind.read (targetAt r 4) k2
          split at h
          · exact absurd (congrArg Prod.fst h) (by simp)
          · next c k3 hc =>
            rw [hc] at hread
            have hview := (commandCount_runBlind.chucks k3).trans (hread.trans hnamed)
            split at h
            · next hne => exact absurd (congrArg Prod.fst h) hne
            · have hcopies : slotCopies (targetAt r 4) k2.s = slotCopies (targetAt r 4) k.s := by
                rw [← congrArg (fun x : Option Copy × KeyRun => x.2.s) hwread]
                exact readSlot_slotCopies ..
              have hca : (k2.s.slot (targetAt r 4)).a = (k.s.slot (targetAt r 4)).a := congrArg Prod.fst hcopies
              have hcb : (k2.s.slot (targetAt r 4)).b = (k.s.slot (targetAt r 4)).b := congrArg Prod.snd hcopies
              have hcopy := read_copy hc
              rw [hca, hcb] at hcopy
              have hn : k3.chucks.2.n = k.n := congrArg (fun x => x.2.1) hview
              have hdel : k3.chucks.2.deletes = k.deletes := congrArg (fun x => x.2.2.1) hview
              have hex : k3.chucks.2.exports = k.exports := congrArg (fun x => x.2.2.2) hview
              obtain rfl := congrArg Prod.snd h
              refine ⟨wc, c, hw, hcopy, hdel, rfl, ?_⟩
              dsimp only
              rw [hn, hex]
              rfl
      · next hne _ => exact (hne (congrArg Prod.fst h)).elim

/-! ## Load from the SA store (R262) -/

/-- A load that succeeds put a Valid and Enabled association of the slot that it filled. -/
theorem cmdLoadSa_loads {r : Octets} {k k1 : KeyRun} (h : cmdLoadSa r k = (0, k1)) : ∃ a u : _, k1.s = putSa (leAt r 8 2) a u ∧ a.valid = true ∧ a.enabled = true ∧ a.slot = leAt r 10 2 ∧
    a.store = leAt r 4 4 ∧ (u.slot (leAt r 10 2)).state = .filled ∧ k1.deletes = k.deletes := by
  have hentry := commandCount_runBlind.entry true (leAt r 4 4) k
  unfold cmdLoadSa at h
  dsimp only at h
  split at h
  · exact absurd (congrArg Prod.fst h) (by simp)
  · split at h
    · exact absurd (congrArg Prod.fst h) (by simp)
    · next b k2 he =>
      rw [he] at hentry
      have hcheck := commandCount_runBlind.blobCheck b true (leAt r 10 2) k2
      split at h
      · next p k3 hc =>
        rw [hc] at hcheck
        split at h
        · exact absurd (congrArg Prod.fst h) (by simp)
        · have hfill := commandCount_runBlind.fill (leAt r 10 2) (Attr.ofPlain p) (slice p 48 (Attr.ofPlain p).keyLen) k3
          split at h
          · next k4 hf =>
            rw [hf] at hfill
            have hdel : k4.deletes = k.deletes := congrArg (fun x => x.2.2.1) (hfill.trans (hcheck.trans hentry))
            obtain rfl := congrArg Prod.snd h
            refine ⟨_, k4.s, rfl, rfl, rfl, rfl, rfl, ?_, hdel⟩
            rw [(fill_fills hf).2.2]
            rfl
          · next hne => exact (hne _ h).elim
      · next hne _ => exact (hne (congrArg Prod.fst h)).elim

/-! ## The obligation -/

section
variable (ses : Fin 128) (source wrapping target : BitVec 16) (format : BitVec 8) (store : BitVec 32) (sa slot : BitVec 16) (ck : ChuckRun) (s : State)

theorem isKek_targetOf (t : Nat) : isKek (targetOf t) = isKek t := by
  unfold targetOf
  split
  · next h => rw [h]; exact decide_eq_true (Nat.le_add_right ..)
  · rfl

theorem export_leaves (h : Commits ses 0x3410 1 (keyRecord 5 (leBytes 2 source.toNat ++ leBytes 2 wrapping.toNat ++ [format] ++ zeros 3)) ck s)
    (ha : (s.slot source.toNat).a.key.length ≤ 32) (hb : (s.slot source.toNat).b.key.length ≤ 32) :
    ∃ t o w c, exec (.keyExport ses source wrapping format ck) s = .next t ∧ Committed ses s t ∧ t.keys.exports = leBytes 2 0 ++ leBytes 2 o.length ++ o ∧
      (w = (s.slot (0x8000 + wrapping.toNat)).a ∨ w = (s.slot (0x8000 + wrapping.toNat)).b) ∧ (c = (s.slot source.toNat).a ∨ c = (s.slot source.toNat).b) ∧
      o = (if format = 1 then aesKw w.key c.key else exportBlob c w (isKek source.toNat)) := by
  have hassoc : leBytes 2 source.toNat ++ leBytes 2 wrapping.toNat ++ [format] ++ zeros 3 = leBytes 2 source.toNat ++ (leBytes 2 wrapping.toNat ++ ([format] ++ zeros 3)) := by
    rw [List.append_assoc, List.append_assoc]
  have hexec : exec (.keyExport ses source wrapping format ck) s = .next (commitSingle ses 0x3410 1
    (keyRecord 5 (leBytes 2 source.toNat ++ leBytes 2 wrapping.toNat ++ [format] ++ zeros 3)) ck s) := rfl
  rw [hassoc] at h hexec
  have hw : leAt (keyRecord 5 (leBytes 2 source.toNat ++ (leBytes 2 wrapping.toNat ++ ([format] ++ zeros 3)))) 6 2 = wrapping.toNat :=
    (leAt_append_right (a := leBytes 2 source.toNat) (m := 2) rfl _ 0 2).trans (leAt_leBytes wrapping.isLt _)
  have hformat : octet (keyRecord 5 (leBytes 2 source.toNat ++ (leBytes 2 wrapping.toNat ++ ([format] ++ zeros 3)))) 8 = format.toNat := rfl
  have hsize : (leBytes 2 source.toNat ++ (leBytes 2 wrapping.toNat ++ ([format] ++ zeros 3))).length = 8 := rfl
  obtain ⟨k1, hk1, -, hcommitted, hvault⟩ := keyCommit_vault h (keyRecord_size (by omega)) (keyRecord_ne_nil 5 _)
  obtain ⟨w, c, hwrap, hcopy, hdel, hex, hexports⟩ := cmdExport_exports (r := keyRecord 5 (leBytes 2 source.toNat ++ (leBytes 2 wrapping.toNat ++ ([format] ++ zeros 3)))) hk1
  rw [hw] at hwrap
  rw [targetAt_keyRecord] at hcopy
  rw [targetAt_keyRecord, isKek_targetOf, hformat] at hexports
  have hcopy' : c = (s.slot source.toNat).a ∨ c = (s.slot source.toNat).b := by
    rw [← slot_targetOf s]
    exact hcopy
  have hkey : c.key.length ≤ 32 := by rcases hcopy' with rfl | rfl <;> assumption
  have hlen : (exported (format.toNat == 1) w c (isKek source.toNat)).length < 65532 := by
    unfold exported
    split
    · exact (aesKw_length w.key c.key).trans_lt (by omega)
    · exact exportBlob_length ..
  refine ⟨_, exported (format.toNat == 1) w c (isKek source.toNat), w, c, hexec, hcommitted, ?_, hwrap, hcopy', ?_⟩
  · rw [runLeft_exports hvault hdel hex, hexports]
    exact exportsKept_one hlen
  · unfold exported
    by_cases hf : format = 1
    · rw [hf]
      rfl
    · have hne : ¬(format.toNat == 1) = true := fun he => hf (BitVec.eq_of_toNat_eq (beq_iff_eq.mp he))
      rw [if_neg hne, if_neg hf]

theorem deletesApply_one (n : Nat) (s : State) : deletesApply [(0, n)] s =
    if isKek n then { slotRelease n s with rest := { (slotRelease n s).rest with kekArea := (slotRelease n s).rest.kekArea.drop (n % 0x8000) } } else slotRelease n s := rfl

theorem slotRelease_slot {n : Nat} {s : State} (h : (s.slot n).state = .filled) :
    ((slotRelease n s).slot n).state = (if (s.slot n).refs = 0 then .free else .releasing) ∧ (slotRelease n s).rest = s.rest := by
  have hshadow : s.shadow 5 (slotItem n) = false := shadow_of_slot (by rw [h]; decide)
  unfold slotRelease
  dsimp only
  rw [if_pos (beq_iff_eq.mpr h)]
  split
  · exact ⟨by rw [updSlot_slot_same _ hshadow], by unfold updSlot; split <;> rfl⟩
  · exact ⟨by rw [updSlot_slot_same _ hshadow], by unfold updSlot; split <;> rfl⟩

theorem delete_frees (h : Commits ses 0x3410 1 (keyRecord 7 (leBytes 2 target.toNat ++ zeros 2)) .agree s) :
    ∃ t, exec (.keyDelete ses target) s = .next t ∧ Committed ses s t ∧ (t.slot target.toNat).state = (if (s.slot target.toNat).refs = 0 then .free else .releasing) ∧
      (isKek target.toNat = true → t.rest.kekArea = s.rest.kekArea.drop (target.toNat % 256)) := by
  have hexec : exec (.keyDelete ses target) s = .next (commitSingle ses 0x3410 1 (keyRecord 7 (leBytes 2 target.toNat ++ zeros 2)) .agree s) := rfl
  have hsize : (leBytes 2 target.toNat ++ zeros 2).length = 4 := rfl
  obtain ⟨k1, hk1, hdelete, hcommitted, hvault⟩ := keyCommit_vault h (keyRecord_size (by omega)) (keyRecord_ne_nil 7 _)
  have hrun : { runStart .agree (sessionMade ses s) with deletes := [(0, targetAt (keyRecord 7 (leBytes 2 target.toNat ++ zeros 2)) 4)] } = k1 := congrArg Prod.snd hk1
  rw [targetAt_keyRecord] at hrun
  subst hrun
  have hfilled : (s.slot (targetOf target.toNat)).state = .filled := by
    unfold deleteFail at hdelete
    by_contra hne
    rw [if_pos (.inl (bne_iff_ne.mpr hne))] at hdelete
    exact Option.some_ne_none _ hdelete
  rw [keysApply_eq] at hvault
  generalize hu : List.foldl (fun s t => kekKeep t s) (keysNoted _ _) _ = u at hvault
  have huslot : u.slot (targetOf target.toNat) = s.slot (targetOf target.toNat) := by
    rw [← hu]
    rfl
  have huarea : u.rest.kekArea = s.rest.kekArea := by
    rw [← hu]
    rfl
  obtain ⟨hstate, hrest⟩ := slotRelease_slot (n := targetOf target.toNat) (s := u) (huslot ▸ hfilled)
  refine ⟨_, hexec, hcommitted, ?_, fun hkek => ?_⟩
  · rw [← slot_targetOf _ target.toNat, vault_slot hvault, deletesApply_one, ← slot_targetOf s, ← huslot, ← hstate]
    split <;> rfl
  · have hkek' : isKek (targetOf target.toNat) = true := (isKek_targetOf _).trans hkek
    have harea := congrArg (fun v => v.2.2.2.1) hvault
    rw [deletesApply_one, if_pos hkek'] at harea
    refine harea.trans ?_
    change (slotRelease (targetOf target.toNat) u).rest.kekArea.drop _ = _
    have hindex : targetOf target.toNat % 0x8000 = target.toNat % 256 := by
      unfold targetOf
      rw [if_pos hkek]
      omega
    rw [hrest, huarea, hindex]

theorem loadSa_loads (h : Commits ses 0x3410 1 (keyRecord 8 (leBytes 4 store.toNat ++ leBytes 2 sa.toNat ++ leBytes 2 slot.toNat)) ck s) :
    ∃ t, exec (.keyLoadSa ses store sa slot ck) s = .next t ∧ Committed ses s t ∧ (t.sa sa.toNat).valid = true ∧ (t.sa sa.toNat).enabled = true ∧ (t.sa sa.toNat).slot = slot.toNat ∧
      (t.sa sa.toNat).store = store.toNat ∧ (t.slot slot.toNat).state = .filled := by
  have hexec : exec (.keyLoadSa ses store sa slot ck) s = .next (commitSingle ses 0x3410 1 (keyRecord 8 (leBytes 4 store.toNat ++ leBytes 2 sa.toNat ++ leBytes 2 slot.toNat)) ck s) := rfl
  have hassoc : leBytes 4 store.toNat ++ leBytes 2 sa.toNat ++ leBytes 2 slot.toNat = leBytes 4 store.toNat ++ (leBytes 2 sa.toNat ++ (leBytes 2 slot.toNat ++ [])) := by
    rw [List.append_assoc, List.append_nil]
  rw [hassoc] at h hexec
  have hstore : leAt (keyRecord 8 (leBytes 4 store.toNat ++ (leBytes 2 sa.toNat ++ (leBytes 2 slot.toNat ++ [])))) 4 4 = store.toNat := leAt_leBytes store.isLt _
  have hsa : leAt (keyRecord 8 (leBytes 4 store.toNat ++ (leBytes 2 sa.toNat ++ (leBytes 2 slot.toNat ++ [])))) 8 2 = sa.toNat :=
    (leAt_append_right (a := leBytes 4 store.toNat) (m := 4) rfl _ 0 2).trans (leAt_leBytes sa.isLt _)
  have hslot : leAt (keyRecord 8 (leBytes 4 store.toNat ++ (leBytes 2 sa.toNat ++ (leBytes 2 slot.toNat ++ [])))) 10 2 = slot.toNat :=
    (leAt_append_right (a := leBytes 4 store.toNat) (m := 4) rfl _ 2 2).trans ((leAt_append_right (a := leBytes 2 sa.toNat) (m := 2) rfl _ 0 2).trans (leAt_leBytes slot.isLt _))
  have hsize : (leBytes 4 store.toNat ++ (leBytes 2 sa.toNat ++ (leBytes 2 slot.toNat ++ []))).length = 8 := rfl
  obtain ⟨k1, hk1, -, hcommitted, hvault⟩ := keyCommit_vault h (keyRecord_size (by omega)) (keyRecord_ne_nil 8 _)
  obtain ⟨a, u, hput, hvalid, henabled, haslot, hastore, hfilled, hdel⟩ := cmdLoadSa_loads (r := keyRecord 8 (leBytes 4 store.toNat ++ (leBytes 2 sa.toNat ++ (leBytes 2 slot.toNat ++ [])))) hk1
  rw [hsa] at hput
  rw [hslot] at haslot hfilled
  rw [hstore] at hastore
  have hrecord : (k1.s.keys.sa.get sa.toNat {}) = a := by rw [hput]; exact putSa_record ..
  refine ⟨_, hexec, hcommitted, ?_, ?_, ?_, ?_, ?_⟩
  · rw [runLeft_sa hvault hdel, sa_valid, hrecord, hvalid]
  · rw [runLeft_sa hvault hdel, sa_enabled, hrecord, henabled]
  · rw [runLeft_sa hvault hdel, sa_slot, hrecord, haslot]
  · rw [runLeft_sa hvault hdel, sa_store, hrecord, hastore]
  · rw [runLeft_slot hvault hdel, hput, putSa_slot (by rw [hfilled]; decide), hfilled]

end

/-- Settles O21: each command by what it does to its run; the deletes and the results of the run are applied with the commit. -/
theorem keysAreExportedDeletedAndLoadedAsAssociations : Obligations.KeysAreExportedDeletedAndLoadedAsAssociations := by
  unfold Obligations.KeysAreExportedDeletedAndLoadedAsAssociations
  exact ⟨export_leaves, fun ses target s h _ => delete_frees ses target s h, loadSa_loads⟩

end Sys2Proof.Machine

/-! A commit of the key range that holds no key command (R237, R235, R277, R278): what its checks come to and what its application leaves before the ownership
and zeroize commands. -/
namespace Sys2Proof.Machine

/-! ## Checks that fail stay failed -/

theorem requestRefused_fails (code reason : Nat) (x : Checked) : (requestRefused code reason x).fails ≠ [] := by
  unfold requestRefused Checked.refused
  exact List.append_ne_nil_of_right_ne_nil _ (List.cons_ne_nil _ _)

/-- The end of a request: a refusal, or the KEK filled, kept and confirmed and the session closed. -/
def requestEnded (x : Checked) : EnrollResult → Checked
  | .refused code reason => requestRefused code reason x
  | .installs target a key confirm =>
    let q := ({ x.run with s := x.cand, b := x.base } : KeyRun).fill target a key
    if q.1 ≠ 0 then requestRefused abKey q.1 { x with base := q.2.b }
    else { x with cand := kekKeep target (enrollClose { q.2.s with keys := { q.2.s.keys with confirm := confirm } }), base := q.2.b }

/-- A staged request processed against the candidate. -/
def requestTaken (r : Octets) (x : Checked) : Checked := requestEnded x (enrollRun x.cand r)

/-- A staged open and a staged request in this order. -/
def enrollTaken (nk r : Option Octets) (x : Checked) : Checked :=
  let x := match nk with
    | some nk => { x with cand := enrollOpen nk x.cand }
    | none => x
  match r with
  | none => x
  | some r => if x.cand.locked || x.cand.power.zeroizeN then x else requestTaken r x

theorem enrollChecked_eq (st : Tab Octets) (x : Checked) : enrollChecked st x = enrollTaken (stagedAt st 0x3421 1) (stagedAt st 0x3421 3) x := by
  unfold enrollChecked enrollTaken requestTaken requestEnded
  rfl

/-- A request that ends without a failure installed its KEK. -/
theorem requestEnded_passes {x : Checked} {e : EnrollResult} (h : (requestEnded x e).fails = []) : ∃ target a key confirm k1,
    e = .installs target a key confirm ∧ ({ x.run with s := x.cand, b := x.base } : KeyRun).fill target a key = (0, k1) ∧
      requestEnded x e = { x with cand := kekKeep target (enrollClose { k1.s with keys := { k1.s.keys with confirm := confirm } }), base := k1.b } := by
  cases e with
  | refused code reason => exact absurd h (requestRefused_fails _ _ _)
  | installs target a key confirm =>
    unfold requestEnded at h ⊢
    dsimp only at h ⊢
    split at h
    · exact absurd h (requestRefused_fails _ _ _)
    · next hfill =>
      rw [if_neg hfill]
      exact ⟨target, a, key, confirm, _, rfl, Prod.ext (not_not.mp hfill) rfl, rfl⟩

theorem requestTaken_fails {r : Octets} {x : Checked} (h : (requestTaken r x).fails = []) : x.fails = [] := by
  obtain ⟨target, a, key, confirm, k1, -, -, heq⟩ := requestEnded_passes h
  unfold requestTaken at h
  rw [heq] at h
  exact h

theorem enrollChecked_fails {st : Tab Octets} {x : Checked} (h : (enrollChecked st x).fails = []) : x.fails = [] := by
  have hrequest (r : Octets) (y : Checked) (hy : (if y.cand.locked || y.cand.power.zeroizeN then y else requestTaken r y).fails = []) : y.fails = [] := by
    split at hy
    · exact hy
    · exact requestTaken_fails hy
  rw [enrollChecked_eq] at h
  generalize stagedAt st 0x3421 1 = nk at h
  generalize stagedAt st 0x3421 3 = r at h
  cases r with
  | none =>
    cases nk with
    | none => exact h
    | some nk => exact h
  | some r =>
    cases nk with
    | none => exact hrequest r x h
    | some nk => exact hrequest r { x with cand := enrollOpen nk x.cand } h

theorem ownerChecked_passes {k : Nat} {st : Tab Octets} {s : State} {x : Checked} (h : (ownerChecked k st s x).fails = []) : ownerChecked k st s x = x := by
  unfold ownerChecked at h ⊢
  split
  · rfl
  · next c hc =>
    rw [hc] at h
    dsimp only at h
    split
    · next e he =>
      rw [he] at h
      exact absurd h (List.append_ne_nil_of_right_ne_nil _ (List.cons_ne_nil _ _))
    · rfl

/-- What the pin refuses, it refuses before all else (R278). -/
theorem keyRange_pin {s c : State} {st : Tab Octets} {ck : ChuckRun} (h : (keyRange s c st ck).fails = []) : pinRefusals s st = [] := by
  unfold keyRange at h
  dsimp only at h
  by_contra hne
  rw [if_pos (by cases hp : pinRefusals s st with
    | nil => exact absurd hp hne
    | cons q l => rfl)] at h
  exact hne h

/-! ## The candidate -/

section
variable {k idx sub : Nat} {v : Octets} {ck : ChuckRun} {s : State} (hi : idx ∈ keyIndices) (hs : sub < 256) (hne : idx ≠ 0x3410) (h : Commits k idx sub v ck s)
include hi hs hne h

/-- Without key commands the enrollment commands alone make the candidate. -/
theorem checked_commandless : checked k idx sub v ck s = enrollChecked [(odKey idx sub, v)] (Checked.ran (runStart ck (sessionMade k s))) ∧
    (enrollChecked [(odKey idx sub, v)] (Checked.ran (runStart ck (sessionMade k s)))).fails = [] ∧ pinRefusals (sessionMade k s) [(odKey idx sub, v)] = [] := by
  obtain ⟨hfails, heq, -⟩ := checked_fails hi hs h
  rw [heq] at hfails
  have howner := ownerChecked_passes hfails
  rw [howner] at hfails heq
  have hrange := enrollChecked_fails hfails
  obtain ⟨l, hl⟩ := (keyOnly_single hi hs v).keyRange_noCommands hne (sessionMade k s) ck
  have hran : keyRange (sessionMade k s) (sessionMade k s) [(odKey idx sub, v)] ck = Checked.ran (runStart ck (sessionMade k s)) := by
    rw [hl] at hrange ⊢
    obtain rfl : l = [] := hrange
    rfl
  rw [hran] at heq hfails
  exact ⟨heq, hfails, keyRange_pin hrange⟩

end

/-- A run without commands leaves the vault of its candidate. -/
theorem keysTaken_commandless {s0 u : State} {x : Checked} {ck : ChuckRun} (hrun : x.run = runStart ck u) :
    vault (keysTaken s0 x) = vault x.cand ∧ outlook (keysTaken s0 x) = outlook x.cand := by
  unfold keysTaken
  rw [hrun]
  refine ⟨Prod.ext (Prod.ext rfl ?_) rfl, rfl⟩
  change (x.cand.keys.counters.bump 0 0).get 0 0 = x.cand.keys.counters.get 0 0
  rw [Tab.get_bump_same]
  exact BitVec.add_zero _

end Sys2Proof.Machine

/-! Enrollment (R237, R238, R240): the committed open and request and the session's timeout, and with them obligation O23. -/
namespace Sys2Proof.Machine

/-! ## Open (R237, R238) -/

/-- A generator that can serve opens the session at once. -/
theorem enrollOpen_opens {nk : Octets} {s : State} (hcan : rngCan s = true) :
    ∃ e, (enrollOpen nk s).keys.enroll = some e ∧ e.nk = padTo 32 nk ∧ e.at_ = s.time.cycles ∧ (enrollOpen nk s).keys.events.getLsbD 7 = true := by
  obtain ⟨d, hlive⟩ : ∃ d, s.rng.live = some d := by
    unfold rngCan at hcan
    simp only [Bool.and_eq_true, Option.isSome_iff_exists] at hcan
    exact hcan.1.2
  have hclosed : ∃ o u, rngDraw 84 { s with keys := { s.keys with enroll := none, events := s.keys.events &&& ~~~(0x0080 : W16) } } = some (o, u) :=
    ⟨_, _, rngDraw_of_live (s := { s with keys := { s.keys with enroll := none, events := s.keys.events &&& ~~~(0x0080 : W16) } }) hcan hlive⟩
  obtain ⟨o, u, hdraw⟩ := hclosed
  have htime : u.time = s.time := rngDraw_keep State.time (fun _ _ => rfl) _ _ _ hdraw
  unfold enrollOpen
  dsimp only
  rw [hdraw]
  refine ⟨_, rfl, rfl, congrArg TimeUnit.cycles htime, ?_⟩
  change (u.keys.events ||| 0x0080).getLsbD 7 = true
  rw [BitVec.getLsbD_or]
  exact Bool.or_true _

section
variable (ses : Fin 128) (nk request : Octets) (ck : ChuckRun) (s : State)

/-- No ownership or zeroize command is staged with an enrollment command. -/
theorem lastTakes_enroll {sub : Nat} (hs : sub < 256) (v : Octets) (t : State) : lastTakes [(odKey 0x3421 sub, v)] t = t := by
  have hst := keyOnly_single (idx := 0x3421) (by decide) hs v
  unfold lastTakes
  rw [hst.stagedAt_none (.inl ⟨by decide, by decide⟩), hst.stagedNat_none (.inl ⟨by decide, by decide⟩)]

theorem open_offers (hcan : rngCan s = true) (h : Commits ses 0x3421 1 nk .agree s) :
    ∃ t e, exec (.enrollmentOpen ses nk) s = .next t ∧ Committed ses s t ∧ t.keys.enroll = some e ∧ e.nk = padTo 32 nk ∧ e.at_ = s.time.cycles ∧ t.keys.events.getLsbD 7 = true := by
  obtain ⟨hchecked, -, -⟩ := checked_commandless (by decide) (by decide) (by decide) h
  have hcand : checked ses 0x3421 1 nk .agree s = { Checked.ran (runStart .agree (sessionMade ses s)) with cand := enrollOpen nk (sessionMade ses s) } := hchecked
  have hrun : (checked ses 0x3421 1 nk .agree s).run = runStart .agree (sessionMade ses s) := congrArg Checked.run hcand
  have hcandidate : (checked ses 0x3421 1 nk .agree s).cand = enrollOpen nk (sessionMade ses s) := congrArg Checked.cand hcand
  obtain ⟨htaken, hout⟩ := keysTaken_commandless (s0 := sessionMade ses s) hrun
  rw [hcandidate] at htaken hout
  obtain ⟨hcommitted, hvault⟩ := commitSingle_key_vault (by decide) (by decide) h (lastTakes_enroll (by decide) nk)
    (by rw [hcandidate]; exact enrollOpen_keep State.ctl (fun _ _ _ _ => rfl) nk _)
    (hout.trans (enrollOpen_keep outlook (fun _ _ _ _ => rfl) nk _))
  have hleft := hvault.trans htaken
  obtain ⟨e, he, hnk, hat, hevent⟩ := enrollOpen_opens (nk := nk) (s := sessionMade ses s) hcan
  refine ⟨_, e, rfl, hcommitted, ?_, hnk, hat, ?_⟩
  · exact (congrArg (fun v => v.1.1.enroll) hleft).trans he
  · have hevents : (commitSingle ses 0x3421 1 nk .agree s).keys.events = _ := congrArg (fun v => v.1.1.events) hleft
    rw [hevents]
    exact hevent

/-! ## Request (R239, R240) -/

/-- A request that installs a key names a KEK slot and the attributes of the key. -/
theorem enrollRun_installs {s : State} {r key confirm : Octets} {target : Nat} {a : Attr} (h : enrollRun s r = .installs target a key confirm) :
    target = 0x8000 + leAt r 101 2 ∧ a = Attr.ofBlock (slice r 103 24) := by
  unfold enrollRun at h
  dsimp only at h
  split at h
  · cases h
  · split at h
    · cases h
    · split at h
      · cases h
      · split at h
        · cases h
        · split at h
          · cases h
          · split at h
            · cases h
            · split at h
              · cases h
              · split at h
                · cases h
                · injection h with htarget ha
                  exact ⟨htarget.symm, ha.symm⟩

theorem entryAt_enrollRequest : ∃ e, entryAt 0x3421 3 = some e ∧ e.acc = .rwl := ⟨_, rfl, rfl⟩

theorem request_installs (h : Commits ses 0x3421 3 request ck s) :
    ∃ t, exec (.enrollmentRequest ses request ck) s = .next t ∧ Committed ses s t ∧ t.keys.enroll = none ∧ (t.slot (0x8000 + leAt request 101 2)).state = .filled ∧
      (t.slot (0x8000 + leAt request 101 2)).b = (t.slot (0x8000 + leAt request 101 2)).a ∧
      (t.slot (0x8000 + leAt request 101 2)).a.usage = (Attr.ofBlock (slice request 103 24)).usage := by
  have hst := keyOnly_single (idx := 0x3421) (sub := 3) (by decide) (by decide) request
  obtain ⟨hchecked, hfails, hpin⟩ := checked_commandless (by decide) (by decide) (by decide) h
  obtain ⟨-, -, c, rules, hrest⟩ := checked_fails (by decide) (by decide) h
  obtain ⟨e, he, hacc⟩ := entryAt_enrollRequest
  have hlocked : (sessionMade ses s).locked = false := not_locked_of_passes (by decide) he hacc hrest
  have hzeroizeN : (sessionMade ses s).power.zeroizeN = false := by
    by_contra hz
    unfold pinRefusals at hpin
    rw [if_neg (by rw [eq_true_of_ne_false hz]; decide)] at hpin
    simp only [List.append_eq_nil_iff] at hpin
    obtain ⟨⟨⟨⟨⟨-, hrefused⟩, -⟩, -⟩, -⟩, -⟩ := hpin
    exact absurd hrefused (List.cons_ne_nil _ _)
  have htake : enrollChecked [(odKey 0x3421 3, request)] (Checked.ran (runStart ck (sessionMade ses s))) = requestTaken request (Checked.ran (runStart ck (sessionMade ses s))) := by
    have hopen : stagedAt [(odKey 0x3421 3, request)] 0x3421 1 = none := rfl
    rw [enrollChecked_eq, stagedAt_single, hopen]
    refine if_neg ?_
    change ¬((sessionMade ses s).locked || (sessionMade ses s).power.zeroizeN) = true
    rw [hlocked, hzeroizeN]
    exact Bool.false_ne_true
  rw [htake] at hchecked hfails
  obtain ⟨target, a, key, confirm, k1, hinstalls, hfill, hended⟩ := requestEnded_passes hfails
  obtain ⟨rfl, rfl⟩ := enrollRun_installs hinstalls
  have hrequest := hchecked.trans hended
  have hrun : (checked ses 0x3421 3 request ck s).run = runStart ck (sessionMade ses s) := (congrArg Checked.run hrequest).trans rfl
  have hcandidate := congrArg Checked.cand hrequest
  obtain ⟨htaken, hout⟩ := keysTaken_commandless (s0 := sessionMade ses s) hrun
  rw [hcandidate] at htaken hout
  have hblind {β : Type} {P : State → β} (hP : RunBlind P) : P k1.s = P (sessionMade ses s) := by
    have hview := congrArg Prod.fst (hP.fill (0x8000 + leAt request 101 2) (Attr.ofBlock (slice request 103 24)) key (runStart ck (sessionMade ses s)))
    exact (congrArg (fun q : Nat × KeyRun => P q.2.s) hfill).symm.trans hview
  obtain ⟨hcommitted, hvault⟩ := commitSingle_key_vault (by decide) (by decide) h (lastTakes_enroll (by decide) request)
    (by rw [hcandidate]; exact (kekKeep_keep State.ctl (fun _ _ => rfl) _ _).trans (hblind ctl_runBlind))
    (hout.trans ((kekKeep_keep outlook (fun _ _ => rfl) _ _).trans (hblind outlook_runBlind)))
  have hleft := hvault.trans htaken
  obtain ⟨hkeys, hbad⟩ := kekKeep_held [0x8000 + leAt request 101 2] (enrollClose { k1.s with keys := { k1.s.keys with confirm := confirm } })
  have hslot : (commitSingle ses 0x3421 3 request ck s).slot (0x8000 + leAt request 101 2) = k1.s.slot (0x8000 + leAt request 101 2) :=
    (vault_slot hleft _).trans (slot_eq_of (congrArg Keys.data hkeys) (congrArg Keys.kek hkeys) hbad _)
  obtain ⟨-, -, hfilled⟩ := fill_fills hfill
  refine ⟨_, rfl, hcommitted, (congrArg (fun v => v.1.1.enroll) hleft).trans (congrArg Keys.enroll hkeys), ?_, ?_, ?_⟩ <;> rw [hslot, hfilled] <;> rfl

/-! ## Timeout (R240) -/

/-- A session closed at a cycle. -/
theorem enrollClose_waitCycle (c : Nat) (s : State) : (enrollClose (waitCycle c s)).keys.enroll = none ∧ c ≤ (enrollClose (waitCycle c s)).time.cycles ∧
    (enrollClose (waitCycle c s)).keys.events.getLsbD 7 = false := by
  refine ⟨rfl, (waitCycle_cycles c s).1, ?_⟩
  change (s.keys.events &&& ~~~(0x0080 : W16)).getLsbD 7 = false
  rw [BitVec.getLsbD_and]
  exact Bool.and_false _

theorem timeout_closes (e : Enroll) (s : State) (h : s.keys.enroll = some e) :
    ∃ t, exec .enrollmentSessionTimeout s = .next t ∧ t.keys.enroll = none ∧ e.at_ + cyclesUs 60000000 ≤ t.time.cycles ∧ t.keys.events.getLsbD 7 = false := by
  refine ⟨_, ?_, enrollClose_waitCycle (e.at_ + cyclesUs 60000000) s⟩
  change execEnrollmentSessionTimeout s = _
  unfold execEnrollmentSessionTimeout
  rw [h]

end

/-- Settles O23: an open makes the offer in the candidate, a request runs to its end there, and the timeout only closes. -/
theorem enrollmentInstallsAKey : Obligations.EnrollmentInstallsAKey := by
  unfold Obligations.EnrollmentInstallsAKey
  exact ⟨open_offers, request_installs, timeout_closes⟩

end Sys2Proof.Machine

/-! What the resets of a zeroization's drains leave (R225, R257, R275, R388, R492): the slots stay without a key, the expanders overwritten, and the dictionary,
the pin and the rings as they are. -/
namespace Sys2Proof.Machine

/-! ## What a reset shows -/

/-- What `P` reads shows nothing of what the restart of a domain changes, the expanders apart. -/
structure ResetBlind {β : Type} (P : State → β) : Prop extends CoreBlind P where
  fab : ∀ s x, P { s with fab := x } = P s
  cls : ∀ s x, P { s with cls := x } = P s
  otn : ∀ s x, P { s with otn := x } = P s
  power : ∀ s x, x.zeroizeN = s.power.zeroizeN → P { s with power := x } = P s
  asked : ∀ s x, P { s with rng := { s.rng with queue := x } } = P s

section
variable {β : Type} {P : State → β} (h : ResetBlind P)
include h

theorem ResetBlind.pathMpu (s : State) (x : Path) (y : Mpu) : P { s with path := x, mpu := y } = P s := (h.mpu { s with path := x } y).trans (h.path s x)
theorem ResetBlind.otnMpu (s : State) (x : Otn) (y : Mpu) : P { s with otn := x, mpu := y } = P s := (h.mpu { s with otn := x } y).trans (h.otn s x)
theorem ResetBlind.fabPath (s : State) (x : Fabric) (y : Path) : P { s with fab := x, path := y } = P s := (h.path { s with fab := x } y).trans (h.fab s x)
theorem ResetBlind.clsPath (s : State) (x : Classifier) (y : Path) : P { s with cls := x, path := y } = P s := (h.path { s with cls := x } y).trans (h.cls s x)

theorem ResetBlind.setDomain (d st : Nat) (s : State) : P (setDomain d st s) = P s := h.power s _ rfl
theorem ResetBlind.countDomainReset (d cause : Nat) (s : State) : P (countDomainReset d cause s) = P s := h.power s _ rfl
theorem ResetBlind.domainMark (d cause : Nat) (s : State) : P (domainMark d cause s) = P s := (h.countDomainReset d cause _).trans (h.setDomain d 3 s)

theorem ResetBlind.writeBack (m : Nat) (s : State) : P (writeBack m s) = P s := by
  unfold Machine.writeBack
  dsimp only
  split
  · rfl
  · split
    · rfl
    · split
      · rw [cacheCount_keep P h.hbm, cachePut_keep P h.hbm, metaWrite_keep P h.hbm, apply_ite P, cacheCount_keep P h.hbm, retag_keep P h.hbm, ite_self, cachePut_keep P h.hbm, h.node1]
      · rw [cacheCount_keep P h.hbm, cachePut_keep P h.hbm, metaWrite_keep P h.hbm, apply_ite P, cacheCount_keep P h.hbm, retag_keep P h.hbm, ite_self, level2Put_keep P h.hbm]

theorem ResetBlind.writeBackAll (s : State) : P (writeBackAll s) = P s := by
  unfold Machine.writeBackAll
  refine (keep fun t m => h.writeBack m t).trans (keep fun t m => ?_)
  split
  · exact h.writeBack m t
  · rfl

theorem ResetBlind.bankReset (b cause : Nat) (s : State) : P (bankReset b cause s) = P s := by
  unfold Machine.bankReset bankLost
  rw [h.post, fabStatus_keep P h.fab]
  refine (h.fab (setBank b (fun _ => []) (Machine.countDomainReset (52 + b) cause (Machine.setDomain (52 + b) 3 s))) _).trans ?_
  rw [setBank_keep P h.path]
  exact h.domainMark (52 + b) cause s

theorem ResetBlind.lockstepRestart (x : Half) (cause : Nat) (s : State) : P (lockstepRestart x cause s) = P s := by
  unfold Machine.lockstepRestart takeBack
  cases x with
  | headstock => exact (h.countDomainReset 72 cause _).trans (replayAll_keep P h.fabPath _ s)
  | tailstock => exact (h.countDomainReset 73 cause _).trans (replayAll_keep P h.fabPath _ s)

theorem ResetBlind.lanesSettle (s : State) : P (lanesSettle s) = P s := h.power s _ rfl

theorem ResetBlind.toSpare (i : Nat) (s : State) : P (toSpare i s) = P s := by
  have hwrite (s : State) : P (checkpointWrite i s) = P s := by
    unfold checkpointWrite
    dsimp only
    split
    · exact (h.writeLine ..).trans (h.fab s _)
    · exact h.fab s _
  unfold Machine.toSpare
  rw [h.setDomain, hwrite, setRole_keep P h.fab]

theorem ResetBlind.rotationStop (s : State) : P (rotationStop s) = P s := by
  unfold Machine.rotationStop
  split
  · rfl
  · dsimp only
    refine (h.fab _ _).trans ?_
    split
    · exact (h.toSpare ..).trans (h.asked s _)
    · exact h.asked s _

theorem ResetBlind.rngAsk (who : Consumer) (cls : Nat) (s : State) : P (rngAsk who cls s) = P s := h.asked s _

theorem ResetBlind.egressLost (p : PD) (s : State) : P (egressLost p s) = P s :=
  egressLost_keep P (fun s x y z _ => (h.out { s with path := x, mpu := y } z).trans (h.pathMpu s x y)) p s

theorem ResetBlind.playLost (s : State) : P (playLost s) = P s := playLost_keep P (fun s x y _ => h.otnMpu s x y) s

theorem ResetBlind.updFrm (i : Nat) (f : Frm → Frm) (s : State) : P (updFrm i f s) = P s := updFrm_keep P h.path i f s

theorem ResetBlind.voidFrames (p : Frm → Bool) (s : State) : P (voidFrames p s) = P s := by
  unfold Machine.voidFrames
  exact (keep fun t i => h.updFrm i Frm.voided t).trans (h.fab s _)

/-- All of a clearing but the frames that it drops. -/
theorem ResetBlind.pdCleared (p : PD) (n : Nat) (s : State) :
    P (clearPd p n s) = P ((s.path.frames.filter (fun q => q.2.pd == p)).foldl (fun s q => purgeFrm q.1 s) s) := by
  have hfree (e : Egr) (s : State) : P (egrFree e s) = P s := egrFree_keep P (fun s x y _ => h.pathMpu s x y) e s
  have hqueue (i : Nat) (s : State) : P (restate p i (updQueue p i (fun x => { x with items := [], heldFrames := 0, heldOctets := 0 })
      ((s.queue p i).items.foldl (fun s e => egrFree e s) s))) = P s :=
    (restate_keep P h.path ..).trans ((h.path _ _).trans (keep fun u e => hfree e u))
  unfold clearPd
  dsimp only
  rw [updPd_keep P h.path, apply_ite P, keep fun t i => playClear_keep P (fun s x y _ => h.otnMpu s x y) i p.dir t, ite_self, keep fun t i => hqueue i t, keep fun t e => hfree e t]

theorem ResetBlind.debugOff (s : State) : P (debugOff s) = P s := by
  unfold Machine.debugOff
  split
  · exact (h.logEntry ..).trans (h.setDomain 78 0 s)
  · rfl

end

/-! ## A part without keys -/

/-- No slot holds a key, every Valid association is frozen, there is no enrollment session, and both expanders are overwritten. -/
structure Erased (s : State) : Prop where
  data : ∀ q ∈ s.keys.data, q.2.state = .free ∨ q.2.state = .bad
  kek : ∀ q ∈ s.keys.kek, q.2.state = .free ∨ q.2.state = .bad
  sa : ∀ q ∈ s.keys.sa, q.2.valid = true → q.2.frozen = true
  enroll : s.keys.enroll = none
  exp0 : s.rng.exp0 = none
  exp1 : s.rng.exp1 = none

/-- The dictionary, the pin and the rings are as in `s`. -/
structure Cleared (s t : State) : Prop where
  erased : Erased t
  ctl : t.ctl = s.ctl
  pin : t.power.zeroizeN = s.power.zeroizeN
  rings : ∀ r : Fin 64, t.ring r = s.ring r

/-- What these say of a state. -/
def zeroizeView (s : State) : (Keys × Option Drbg × Option Drbg) × Control × Bool × (Fin 64 → Ring) :=
  ((s.keys, s.rng.exp0, s.rng.exp1), s.ctl, s.power.zeroizeN, fun r => s.ring r)

theorem zeroizeView_blind : ResetBlind zeroizeView where
  post e s := by
    have hparts : ((post e s).keys, (post e s).rng, (post e s).ctl, (post e s).power) = (s.keys, s.rng, s.ctl, s.power) :=
      post_keep (fun t => (t.keys, t.rng, t.ctl, t.power)) (fun _ _ _ => rfl) e s
    simp only [Prod.mk.injEq] at hparts
    obtain ⟨hkeys, hrng, hctl, hpower⟩ := hparts
    have hring : (fun r : Fin 64 => (post e s).ring r) = fun r : Fin 64 => s.ring r := funext fun r => post_ring r.isLt e s
    unfold zeroizeView
    rw [hkeys, hrng, hctl, hpower, hring]
  rest _ _ _ := rfl
  path _ _ := rfl
  mpu _ _ := rfl
  out _ _ := rfl
  fab _ _ := rfl
  cls _ _ := rfl
  otn _ _ := rfl
  power s x hx := by unfold zeroizeView; dsimp only; rw [hx]; rfl
  asked _ _ := rfl

section
variable {s t u : State}

theorem Erased.of_view (h : Erased s) (hv : (t.keys, t.rng.exp0, t.rng.exp1) = (s.keys, s.rng.exp0, s.rng.exp1)) : Erased t := by
  simp only [Prod.mk.injEq] at hv
  obtain ⟨hkeys, h0, h1⟩ := hv
  exact ⟨hkeys ▸ h.data, hkeys ▸ h.kek, hkeys ▸ h.sa, hkeys ▸ h.enroll, h0 ▸ h.exp0, h1 ▸ h.exp1⟩

theorem Cleared.of_view (h : Cleared s t) (hv : zeroizeView u = zeroizeView t) : Cleared s u where
  erased := h.erased.of_view (congrArg Prod.fst hv)
  ctl := (congrArg (fun v => v.2.1) hv).trans h.ctl
  pin := (congrArg (fun v => v.2.2.1) hv).trans h.pin
  rings r := (congrArg (fun v => v.2.2.2 r) hv).trans (h.rings r)

/-- A slot of such a part holds no key. -/
theorem Erased.slot (h : Erased s) (n : Nat) : (s.slot n).state = .free ∨ (s.slot n).state = .bad := by
  have hget (t : Tab KeySlot) (ht : ∀ q ∈ t, q.2.state = .free ∨ q.2.state = .bad) (i : Nat) : (t.get i {}).state = .free ∨ (t.get i {}).state = .bad := by
    unfold Tab.get
    cases hf : t.find i with
    | none => exact .inl rfl
    | some x => exact ht _ (Tab.mem_of_find hf)
  unfold State.slot
  dsimp only
  split
  · exact .inr rfl
  · split
    · exact hget _ h.kek _
    · exact hget _ h.data _

/-- A slot record that stays without a key may change. -/
theorem Erased.updSlot {f : KeySlot → KeySlot} (h : Erased s) (hf : ∀ x, x.state = .free ∨ x.state = .bad → (f x).state = .free ∨ (f x).state = .bad) (n : Nat) : Erased (updSlot n f s) := by
  have hput (t : Tab KeySlot) (ht : ∀ q ∈ t, q.2.state = .free ∨ q.2.state = .bad) (i : Nat) : ∀ q ∈ t.upd i {} f, q.2.state = .free ∨ q.2.state = .bad := by
    intro q hq
    rcases Tab.mem_put hq with rfl | hq
    · refine hf _ ?_
      unfold Tab.get
      cases hfind : t.find i with
      | none => exact .inl rfl
      | some x => exact ht _ (Tab.mem_of_find hfind)
    · exact ht q hq
  unfold Machine.updSlot
  split
  · exact ⟨h.data, hput _ h.kek _, h.sa, h.enroll, h.exp0, h.exp1⟩
  · exact ⟨hput _ h.data _, h.kek, h.sa, h.enroll, h.exp0, h.exp1⟩

/-- A reference given back empties no slot here: none is Releasing. -/
theorem Cleared.slotUnref (h : Cleared s t) (n : Nat) : Cleared s (slotUnref n t) := by
  have hcount : Cleared s (Machine.updSlot n (fun x => { x with refs := x.refs - 1 }) t) := by
    refine ⟨h.erased.updSlot (f := fun x => { x with refs := x.refs - 1 }) (fun _ hx => hx) n, ?_, ?_, fun r => ?_⟩
    · exact (updSlot_keep State.ctl (fun _ _ => rfl) ..).trans h.ctl
    · exact (updSlot_keep (fun t => t.power.zeroizeN) (fun _ _ => rfl) ..).trans h.pin
    · exact (updSlot_keep (fun t => t.ring r) (fun _ _ => rfl) ..).trans (h.rings r)
  unfold Machine.slotUnref slotFree
  dsimp only
  rw [if_neg]
  · exact hcount
  · rcases hcount.erased.slot n with hs | hs <;> rw [hs] <;> simp

theorem Cleared.purgeFrm (h : Cleared s t) (id : Nat) : Cleared s (purgeFrm id t) := by
  unfold Machine.purgeFrm
  split
  · exact h
  · next f _ =>
    dsimp only
    have hgiven : Cleared s (if f.desc.tokens = 0 then t else Machine.slotUnref f.desc.slot t) := by
      split
      · exact h
      · exact h.slotUnref _
    exact hgiven.of_view ((dropFrm_keep zeroizeView (fun _ _ => rfl) ..).trans rfl)

theorem Cleared.clearPd (h : Cleared s t) (p : PD) (n : Nat) : Cleared s (clearPd p n t) := by
  have hpurged : Cleared s ((t.path.frames.filter (fun q => q.2.pd == p)).foldl (fun s q => Machine.purgeFrm q.1 s) t) :=
    List.foldlRecOn (motive := Cleared s) _ _ h fun u hu q _ => hu.purgeFrm q.1
  exact hpurged.of_view (zeroizeView_blind.pdCleared p n t)

/-! ## Restarts (R387, R491) -/

theorem zeroizeView_sourcesOff (x : Nat) (s : State) : zeroizeView (sourcesOff x s) = zeroizeView s := by
  have hlost (k : Nat) (s : State) : zeroizeView (captureLost k s) = zeroizeView s := by
    unfold captureLost
    split <;> rfl
  unfold sourcesOff
  exact keep fun t i => (rfl : zeroizeView (updSource _ _ _) = zeroizeView _).trans (hlost _ t)

/-- The generator may change as long as its expanders stay overwritten. -/
theorem Cleared.expanders (h : Cleared s t) {g : Rng} (h0 : g.exp0 = none) (h1 : g.exp1 = none) : Cleared s { t with rng := g } :=
  ⟨⟨h.erased.data, h.erased.kek, h.erased.sa, h.erased.enroll, h0, h1⟩, h.ctl, h.pin, h.rings⟩

theorem Rng.setHalf_none {g : Rng} (h0 : g.exp0 = none) (h1 : g.exp1 = none) (x : Nat) : (g.setHalf x none).exp0 = none ∧ (g.setHalf x none).exp1 = none := by
  unfold Rng.setHalf
  split
  · exact ⟨rfl, h1⟩
  · exact ⟨h0, rfl⟩

theorem Cleared.halfReset (h : Cleared s t) (x cause : Nat) : Cleared s (halfReset x cause t) := by
  have hmarked : Cleared s (sourcesOff x (countDomainReset (70 + x) cause (setDomain (70 + x) 3 t))) :=
    h.of_view ((zeroizeView_sourcesOff x _).trans (zeroizeView_blind.domainMark (70 + x) cause t))
  unfold Machine.halfReset
  generalize sourcesOff x (countDomainReset (70 + x) cause (setDomain (70 + x) 3 t)) = u at hmarked ⊢
  obtain ⟨h0, h1⟩ := Rng.setHalf_none hmarked.erased.exp0 hmarked.erased.exp1 x
  dsimp only
  refine hmarked.expanders ?_ ?_
  · split
    · exact h0
    · exact h0
  · split
    · exact h1
    · exact h1

theorem Cleared.domainMarkOn (h : Cleared s t) (d cause : Nat) : Cleared s (domainMarkOn d cause t) := by
  unfold Machine.domainMarkOn
  split
  · exact h.of_view (zeroizeView_blind.domainMark d cause t)
  · exact h

/-- The restart of a domain in a service reset (R491). -/
theorem Cleared.domainReset (h : Cleared s t) {d : Nat} (hd : d ∈ serviceDomains) : Cleared s (domainReset d 3 t) := by
  obtain ⟨h79, h66, h75⟩ := serviceDomains_range d hd
  rw [domainReset_eq]
  by_cases h28 : d < 28
  · rw [if_pos h28, if_pos rfl]
    exact h.domainMarkOn d 3
  rw [if_neg h28]
  by_cases h44 : d < 44
  · rw [if_pos h44]
    exact h.domainMarkOn d 3
  rw [if_neg h44]
  by_cases h52 : d < 52
  · rw [if_pos h52]
    split
    · exact h.of_view ((clusterReset_keep zeroizeView zeroizeView_blind.clsPath ..).trans (zeroizeView_blind.domainMark d 3 t))
    · exact h
  rw [if_neg h52]
  by_cases h56 : d < 56
  · rw [if_pos h56]
    exact h.of_view (zeroizeView_blind.bankReset ..)
  rw [if_neg h56]
  by_cases h60 : d < 60
  · rw [if_pos h60]
    exact h.domainMarkOn d 3
  rw [if_neg h60]
  by_cases h64 : d < 64
  · rw [if_pos h64]
    exact h.of_view ((zeroizeView_blind.writeBackAll _).trans (zeroizeView_blind.domainMark d 3 t))
  rw [if_neg h64]
  by_cases h66' : d < 66
  · rw [if_pos h66']
    exact h.domainMarkOn d 3
  rw [if_neg h66', if_neg (by omega), if_neg (by omega)]
  by_cases h72 : d < 72
  · rw [if_pos h72]
    split
    · exact h.halfReset ..
    · exact h
  rw [if_neg h72]
  by_cases h72' : d = 72
  · rw [if_pos h72']
    exact h.of_view (zeroizeView_blind.lockstepRestart ..)
  rw [if_neg h72']
  by_cases h73 : d = 73
  · rw [if_pos h73]
    exact h.of_view (zeroizeView_blind.lockstepRestart ..)
  rw [if_neg h73, if_neg h75, if_pos h79]
  exact h.domainMarkOn d 3

/-! ## The end of a drain (R225, R492) -/

theorem Cleared.drainCleared (h : Cleared s t) (dr : Drain) : Cleared s (drainCleared dr t) :=
  List.foldlRecOn (motive := Cleared s) _ _ (h.of_view (zeroizeView_blind.power t { t.power with drains := t.power.drains.erase dr } rfl)) fun _ hu p _ => hu.clearPd p _

theorem Cleared.drainReset (h : Cleared s t) (dr : Drain) : Cleared s (drainReset dr t) := by
  have hcleared := h.drainCleared dr
  by_cases hdomains : dr.domains = []
  · have heq : Machine.drainReset dr t = lanesSettle (serviceDomains.foldl (fun s d => Machine.domainReset d 3 s)
        { Machine.drainCleared dr t with power := { (Machine.drainCleared dr t).power with service := .resetting, serviceStep := 0 } }) := if_pos (by rw [hdomains]; rfl)
    have hreset := List.foldlRecOn (motive := Cleared s) serviceDomains (fun s d => Machine.domainReset d 3 s)
      (hcleared.of_view (zeroizeView_blind.power _ { (Machine.drainCleared dr t).power with service := .resetting, serviceStep := 0 } rfl)) fun _ hu d hd => hu.domainReset hd
    rw [heq]
    exact hreset.of_view (zeroizeView_blind.lanesSettle _)
  · rw [drainReset_domains hdomains]
    refine Cleared.of_view (List.foldlRecOn (motive := Cleared s) _ _ hcleared fun u hu d _ => ?_) (zeroizeView_blind.lanesSettle _)
    have hback : Cleared s (if 60 ≤ d ∧ d ≤ 63 then writeBackAll u else u) := by
      split
      · exact hu.of_view (zeroizeView_blind.writeBackAll u)
      · exact hu
    exact hback.of_view (zeroizeView_blind.domainMark d dr.cause _)

theorem Cleared.drainsOver (h : Cleared s t) : Cleared s (drainsOver t) :=
  Cleared.of_view (t := t.power.drains.foldl (fun s d => Machine.drainReset d s) t) (List.foldlRecOn (motive := Cleared s) _ _ h fun _ hu dr _ => hu.drainReset dr) rfl

end
end Sys2Proof.Machine

/-! A zeroization (R275, R276, R388, R433) and the settling of the dictionary after it (R466). -/
namespace Sys2Proof.Machine

/-! ## Keys and sessions overwritten -/

theorem mem_mapAll {α : Type} {f : Nat → α → α} {t : Tab α} {q : Nat × α} (h : q ∈ t.mapAll f) : ∃ p ∈ t, q = (p.1, f p.1 p.2) := by
  unfold Tab.mapAll at h
  obtain ⟨p, hp, rfl⟩ := List.mem_map.mp h
  exact ⟨p, hp, rfl⟩

theorem KeySlot.zeroed_state (x : KeySlot) : x.zeroed.state = .free ∨ x.zeroed.state = .bad := by
  unfold KeySlot.zeroed
  split
  · exact .inr rfl
  · exact .inl rfl

theorem Sa.zeroed_frozen {a : Sa} (h : a.zeroed.valid = true) : a.zeroed.frozen = true := by
  unfold Sa.zeroed at h ⊢
  by_cases hv : a.valid = true
  · rw [if_pos hv]
  · rw [if_neg hv] at h
    exact absurd h hv

theorem zeroizeKeys_data (s : State) : ∀ q ∈ (zeroizeKeys s).keys.data, q.2.state = .free ∨ q.2.state = .bad := fun q hq => by
  obtain ⟨p, -, rfl⟩ := mem_mapAll (f := fun _ x => x.zeroed) (t := s.keys.data) hq
  exact p.2.zeroed_state

theorem zeroizeKeys_sa (s : State) : ∀ q ∈ (zeroizeKeys s).keys.sa, q.2.valid = true → q.2.frozen = true := fun q hq hv => by
  obtain ⟨p, -, rfl⟩ := mem_mapAll (f := fun _ a => a.zeroed) (t := s.keys.sa) hq
  exact Sa.zeroed_frozen hv

theorem zeroizeKeks_kek (s : State) : ∀ q ∈ (zeroizeKeks s).keys.kek, q.2.state = .free ∨ q.2.state = .bad := fun q hq => by
  obtain ⟨p, -, rfl⟩ := mem_mapAll (f := fun _ x => x.zeroed) (t := s.keys.kek) hq
  exact p.2.zeroed_state

/-- No session has anything staged. -/
def NoStaging (c : Control) : Prop := ∀ q ∈ c.sessions, q.2.staged = []

theorem NoStaging.session {s : State} (h : NoStaging s.ctl) (k : Nat) : (s.session k).staged = [] := by
  unfold State.session Tab.get
  cases hf : s.ctl.sessions.find k with
  | none => rfl
  | some x => exact h _ (Tab.mem_of_find hf)

theorem sessionsZeroized_noStaging (s : State) : NoStaging (sessionsZeroized s).ctl := fun q hq => by
  obtain ⟨p, -, rfl⟩ := mem_mapAll (t := s.ctl.sessions) (List.mem_of_mem_filter hq)
  rfl

theorem sessionsZeroized_ctl {s t : State} (h : t.ctl = s.ctl) : (sessionsZeroized t).ctl = (sessionsZeroized s).ctl := by
  unfold sessionsZeroized
  dsimp only
  rw [h]

/-! ## The whole part (R275) -/

section
variable {s t : State} (h : zeroizeView t = zeroizeView s)
include h

theorem zeroizeView_keys : t.keys = s.keys := congrArg (fun v => v.1.1) h
theorem zeroizeView_ctl : t.ctl = s.ctl := congrArg (fun v => v.2.1) h
theorem zeroizeView_pin : t.power.zeroizeN = s.power.zeroizeN := congrArg (fun v => v.2.2.1) h
theorem zeroizeView_ring (r : Fin 64) : t.ring r = s.ring r := congrArg (fun v => v.2.2.2 r) h

end

theorem zeroizeWhole_eq (s : State) : zeroizeWhole s = drainsOver (memoryErased s) := by
  unfold zeroizeWhole memoryErased
  dsimp only
  generalize memoryZeroized _ = u
  rfl

/-- The keys overwritten, and the frames voided. -/
def framesVoided (s : State) : State :=
  let s := zeroizeKeks (zeroizeKeys (rotationStop (spindlesStop s)))
  voidFrames (fun _ => true) { s with path := { s.path with frames := s.path.frames.filter (fun q => q.2.stage != .receiving), banks := [] } }

/-- What frames hold lost, in retention and in the memory. -/
def framesLost (s : State) : State := playLost ((pdsOf (List.range 32)).foldl (fun s p => egressLost p s) (framesVoided s))

theorem framesLost_view (s : State) : zeroizeView (framesLost s) = zeroizeView (zeroizeKeks (zeroizeKeys (rotationStop (spindlesStop s)))) := by
  unfold framesLost
  rw [zeroizeView_blind.playLost, keep fun t p => zeroizeView_blind.egressLost p t]
  exact (zeroizeView_blind.voidFrames _ _).trans (zeroizeView_blind.path _ _)

theorem rngEndReads_keys (s : State) : (rngEndReads s).keys = s.keys ∧ (rngEndReads s).ctl = s.ctl ∧ (rngEndReads s).power = s.power ∧ (rngEndReads s).host = s.host := by
  have hparts := rngEndReads_keep (fun t => (t.keys, t.ctl, t.power, t.host)) (fun _ _ _ => rfl) s
  simp only [Prod.mk.injEq] at hparts
  exact hparts

/-- The generator, the masks and the memory overwritten. -/
def unitsErased (s : State) : State := memoryZeroized (masksClear (rngZeroize s))

theorem unitsErased_leaves (s : State) : (unitsErased s).keys = s.keys ∧ (unitsErased s).rng.exp0 = none ∧ (unitsErased s).rng.exp1 = none ∧
    (unitsErased s).ctl = s.ctl ∧ (unitsErased s).power.zeroizeN = s.power.zeroizeN ∧ ∀ r : Fin 64, (unitsErased s).ring r = s.ring r := by
  obtain ⟨hkeys, hctl, hpower, hhost⟩ := rngEndReads_keys s
  unfold unitsErased rngZeroize
  generalize rngEndReads s = t at hkeys hctl hpower hhost ⊢
  exact ⟨hkeys, rfl, rfl, hctl, congrArg Power.zeroizeN hpower, fun r => congrArg (fun x => x.rings.get r {}) hhost⟩

theorem memoryErased_eq (s : State) : memoryErased s = unitsErased (sessionsZeroized (framesLost s)) := by
  unfold memoryErased unitsErased framesLost framesVoided
  dsimp only

/-- What stays of the part as its frames are lost: all but the keys of the slots, the associations and the session. -/
theorem framesLost_leaves (s : State) : (framesLost s).ctl = s.ctl ∧ (framesLost s).power.zeroizeN = s.power.zeroizeN ∧ ∀ r : Fin 64, (framesLost s).ring r = s.ring r := by
  have hlost := framesLost_view s
  have hstopped : zeroizeView (rotationStop (spindlesStop s)) = zeroizeView s := (zeroizeView_blind.rotationStop _).trans (zeroizeView_blind.fab s _)
  generalize framesLost s = t at hlost ⊢
  generalize rotationStop (spindlesStop s) = u at hlost hstopped
  have hctl : t.ctl = u.ctl := (zeroizeView_ctl hlost).trans rfl
  have hpin : t.power.zeroizeN = u.power.zeroizeN := (zeroizeView_pin hlost).trans rfl
  have hring (r : Fin 64) : t.ring r = u.ring r := (zeroizeView_ring hlost r).trans rfl
  exact ⟨hctl.trans (zeroizeView_ctl hstopped), hpin.trans (zeroizeView_pin hstopped), fun r => (hring r).trans (zeroizeView_ring hstopped r)⟩

/-- The memory erased leaves no key, the sessions cleared, and the pin and the rings as they were. -/
theorem memoryErased_erases (s : State) : Erased (memoryErased s) ∧ (memoryErased s).ctl = (sessionsZeroized s).ctl ∧ (memoryErased s).power.zeroizeN = s.power.zeroizeN ∧
    ∀ r : Fin 64, (memoryErased s).ring r = s.ring r := by
  have hlost := zeroizeView_keys (framesLost_view s)
  obtain ⟨hctl, hpin, hrings⟩ := framesLost_leaves s
  rw [memoryErased_eq]
  generalize framesLost s = t at hlost hctl hpin hrings ⊢
  have hsctl := sessionsZeroized_ctl hctl
  have hskeys : (sessionsZeroized t).keys = t.keys := rfl
  have hspin : (sessionsZeroized t).power.zeroizeN = t.power.zeroizeN := rfl
  have hsrings (r : Fin 64) : (sessionsZeroized t).ring r = t.ring r := rfl
  generalize sessionsZeroized t = u at hsctl hskeys hspin hsrings ⊢
  obtain ⟨hkeys, h0, h1, hectl, hepin, herings⟩ := unitsErased_leaves u
  rw [hskeys, hlost] at hkeys
  refine ⟨⟨?_, ?_, ?_, ?_, h0, h1⟩, hectl.trans hsctl, hepin.trans (hspin.trans hpin), fun r => (herings r).trans ((hsrings r).trans (hrings r))⟩
  · rw [hkeys]; exact zeroizeKeys_data _
  · rw [hkeys]; exact zeroizeKeks_kek _
  · rw [hkeys]; exact zeroizeKeys_sa _
  · rw [hkeys]; rfl

/-- A zeroization of the whole part. -/
structure Zeroized (s t : State) : Prop where
  erased : Erased t
  ctl : t.ctl = (sessionsZeroized s).ctl
  pin : t.power.zeroizeN = s.power.zeroizeN
  rings : ∀ r : Fin 64, t.ring r = s.ring r

theorem Zeroized.of_view {s t u : State} (h : Zeroized s t) (hv : zeroizeView u = zeroizeView t) : Zeroized s u where
  erased := h.erased.of_view (congrArg Prod.fst hv)
  ctl := (zeroizeView_ctl hv).trans h.ctl
  pin := (zeroizeView_pin hv).trans h.pin
  rings r := (zeroizeView_ring hv r).trans (h.rings r)

theorem zeroizeWhole_zeroized (s : State) : Zeroized s (zeroizeWhole s) := by
  obtain ⟨herased, hctl, hpin, hrings⟩ := memoryErased_erases s
  obtain ⟨herased', hctl', hpin', hrings'⟩ := Cleared.drainsOver (s := memoryErased s) ⟨herased, rfl, rfl, fun _ => rfl⟩
  rw [zeroizeWhole_eq]
  exact ⟨herased', hctl'.trans hctl, hpin'.trans hpin, fun r => (hrings' r).trans (hrings r)⟩

theorem zeroizeWhole_zeroizing (s : State) : (zeroizeWhole s).rest.zeroizing = true := by
  rw [zeroizeWhole_eq]
  rfl

theorem Zeroized.noStaging {s t : State} (h : Zeroized s t) : NoStaging t.ctl := h.ctl ▸ sessionsZeroized_noStaging s

/-- An idle dictionary stays idle. -/
theorem Zeroized.idle {s t : State} (h : Zeroized s t) (hidle : Idle s) : Idle t := by
  obtain ⟨-, hqueue, hheld, hintake, hfinished, hposted⟩ := hidle
  obtain ⟨-, hctl, -, hrings⟩ := h
  refine ⟨by rw [hctl]; rfl, by rw [hctl]; rfl, ?_, ?_, ?_, fun r hr => ?_⟩
  · rw [hctl]
    change s.ctl.held.filter _ = []
    rw [hheld]
    rfl
  · rw [hctl]
    exact hintake
  · rw [hctl]
    unfold sessionsZeroized
    dsimp only
    rw [hfinished, hheld]
    simp
  · exact (congrArg Ring.posted (hrings ⟨r, hr⟩)).trans (hposted r hr)

/-! ## A generator without expanders serves nothing -/

theorem rngDraw_erased {s : State} (h : Erased s) (n : Nat) : rngDraw n s = none := by
  have hlive : s.rng.live = none := by
    unfold Rng.live
    split
    · exact h.exp0
    · exact h.exp1
  unfold rngDraw rngCan
  rw [hlive]
  exact if_neg (by simp)

theorem newBbk_erased {s : State} (h : Erased s) : newBbk s = rngAsk .bbk 2 s := by
  unfold newBbk
  rw [rngDraw_erased h]

theorem newChallenge_erased {s : State} (h : Erased s) : newChallenge s = rngAsk .challenge 2 s := by
  unfold newChallenge
  rw [rngDraw_erased h]

/-! ## The dictionary settles (R466) -/

/-- What the settling of an idle dictionary leaves: keys and generator, the core of the tool rest, the generation and the pin, and no more staged than before. -/
structure Calm (s t : State) : Prop where
  keys : t.keys = s.keys
  rng : t.rng = s.rng
  rest : restCore t.rest = restCore s.rest
  generation : t.ctl.generation = s.ctl.generation
  pin : t.power.zeroizeN = s.power.zeroizeN
  staging : NoStaging s.ctl → NoStaging t.ctl

theorem Calm.trans {s t u : State} (h : Calm s t) (g : Calm t u) : Calm s u :=
  ⟨g.keys.trans h.keys, g.rng.trans h.rng, g.rest.trans h.rest, g.generation.trans h.generation, g.pin.trans h.pin, fun hs => g.staging (h.staging hs)⟩

theorem closeStaging_calm (k : Nat) (s : State) : Calm s (closeStaging k s) := by
  unfold closeStaging
  dsimp only
  split
  · exact ⟨rfl, rfl, rfl, rfl, rfl, fun hs q hq => hs q (Tab.mem_drop hq)⟩
  · exact ⟨rfl, rfl, rfl, rfl, rfl, fun hs q hq => hs q (Tab.mem_drop hq)⟩

theorem flr_calm (s : State) : Calm s (flr s) := by
  have hclosed : Calm s ((List.range 64).foldl (fun s k => closeStaging k s) s) :=
    List.foldlRecOn (motive := Calm s) _ _ ⟨rfl, rfl, rfl, rfl, rfl, id⟩ fun t ht k _ => ht.trans (closeStaging_calm k t)
  unfold flr
  generalize (List.range 64).foldl (fun s k => closeStaging k s) s = u at hclosed ⊢
  exact hclosed.trans ⟨rfl, rfl, rfl, rfl, rfl, id⟩

theorem pcieSettle_calm (s : State) : Calm s (pcieSettle s) := by
  unfold pcieSettle
  split
  · exact (flr_calm s).trans ⟨rfl, rfl, rfl, rfl, rfl, id⟩
  · split
    · exact ⟨rfl, rfl, rfl, rfl, rfl, id⟩
    · exact ⟨rfl, rfl, rfl, rfl, rfl, id⟩

theorem controlCheckpoint_calm (s : State) : Calm s (controlCheckpoint s) where
  keys := controlCheckpoint_keep State.keys (fun _ _ _ _ _ _ _ _ => rfl) s
  rng := controlCheckpoint_keep State.rng (fun _ _ _ _ _ _ _ _ => rfl) s
  rest := congrArg Prod.snd (vault_controlCheckpoint s)
  generation := controlCheckpoint_generation s
  pin := controlCheckpoint_keep (fun t => t.power.zeroizeN) (fun _ _ _ _ _ _ _ _ => rfl) s
  staging hs := by
    rw [controlCheckpoint_ctl]
    exact hs

theorem dictSettle_calm {s : State} (h : Idle s) : Calm s (dictSettle s) := by
  refine Calm.trans ?_ (controlCheckpoint_calm _)
  rcases dictServe_of_idle h with hs | hs
  · rw [hs]
    exact pcieSettle_calm s
  · rw [hs]
    exact Calm.trans (t := cutsDropped s) ⟨rfl, rfl, rfl, rfl, rfl, id⟩ (pcieSettle_calm _)

theorem setLast_calm (k code : Nat) (s : State) : Calm s (setLast k code s) := by
  unfold setLast
  split
  · refine ⟨rfl, rfl, rfl, rfl, rfl, fun hs q hq => ?_⟩
    rcases Tab.mem_put hq with rfl | hq
    · exact NoStaging.session hs k
    · exact hs q hq
  · exact ⟨rfl, rfl, rfl, rfl, rfl, id⟩

theorem setLast_idle {s : State} (h : Idle s) (k code : Nat) : Idle (setLast k code s) := by
  unfold setLast
  split
  · exact h
  · exact h

theorem Calm.erased {s t : State} (h : Calm s t) (he : Erased s) : Erased t := he.of_view (by rw [h.keys, h.rng])

end Sys2Proof.Machine

/-! Ownership and zeroize commands, the ZEROIZE_N pin (R234 to R236, R275 to R278, R402, R403), and with them obligations O22 and O24. -/
namespace Sys2Proof.Machine

/-! ## A commit of a command that comes last -/

/-- The part as an ownership or zeroize command finds it in its commit: the dictionary at its next generation, the rest as before as far as the vault and the host see it. -/
structure LateState (k : Nat) (s u : State) : Prop where
  ctl : u.ctl = ctlApplied k s
  outlook : outlook u = outlook s
  vault : vault u = vault s

/-- A commit of one such command is its application to such a state, an answer and the settling of the dictionary. -/
theorem lateCommit {k idx : Nat} {v : Octets} {ck : ChuckRun} {s : State} (hidx : idx = 0x3422 ∨ idx = 0x3460) (h : Commits k idx 1 v ck s) :
    ∃ u, LateState k s u ∧ commitSingle k idx 1 v ck s = dictSettle (setLast k 0 (lastTakes [(odKey idx 1, v)] u)) := by
  have hi : idx ∈ keyIndices := by rcases hidx with rfl | rfl <;> decide
  have hst := keyOnly_single hi (by decide : 1 < 256) v
  obtain ⟨hchecked, -, -⟩ := checked_commandless hi (by decide) (by rcases hidx with rfl | rfl <;> decide) h
  have hnone (sub : Nat) (hs : sub < 256) : stagedAt [(odKey idx 1, v)] 0x3421 sub = none := hst.stagedAt_none (.inl ⟨by rcases hidx with rfl | rfl <;> decide, hs⟩)
  rw [enrollChecked_eq, hnone 1 (by decide), hnone 3 (by decide)] at hchecked
  have hran : checked k idx 1 v ck s = Checked.ran (runStart ck (sessionMade k s)) := hchecked
  obtain ⟨heq, ha, hctl⟩ := commitSingle_key hi (by decide) h (by rw [hran]; rfl)
  obtain ⟨hvault, hout⟩ := keysTaken_commandless (s0 := sessionMade k s) (x := checked k idx 1 v ck s) (u := sessionMade k s) (ck := ck) (by rw [hran]; rfl)
  rw [hran] at hvault hout
  refine ⟨_, ⟨(hst.followed_blind ha ctl_applyBlind).trans hctl, ?_, ?_⟩, heq⟩
  · rw [hst.followed_blind ha outlook_applyBlind, hran]
    exact hout
  · rw [hst.followed_vault ha, hran]
    exact hvault

section
variable {k : Nat} {s u w : State}

theorem LateState.idle (hu : LateState k s u) (hq : Quiet s) : Idle u := by
  obtain ⟨-, -, -, hjob, hqueue, hheld, hintake, hfinished, hposted⟩ := hq
  obtain ⟨hctl, hout, -⟩ := hu
  refine ⟨by rw [hctl]; exact hjob, by rw [hctl]; exact hqueue, by rw [hctl]; exact hheld, by rw [hctl]; exact hintake, by rw [hctl]; exact hfinished, fun r hr => ?_⟩
  have hring : u.ring r = s.ring r := congrFun (congrArg (fun v => v.2.2.2.2) hout) ⟨r, hr⟩
  rw [hring]
  exact hposted r hr

/-- Where the command leaves the dictionary and the rings alone, the commit ends with result 0 and leaves the vault that the command left. -/
theorem LateState.committed (hu : LateState k s u) (hq : Quiet s) (hctl : w.ctl = u.ctl) (hout : Machine.outlook w = Machine.outlook u) :
    Committed k s (dictSettle (setLast k 0 w)) ∧ Machine.vault (dictSettle (setLast k 0 w)) = Machine.vault w := by
  have hctl' := hctl.trans hu.ctl
  rw [dictSettle_quiet (setLast_quiet hq hctl' (hout.trans hu.outlook))]
  exact ⟨committed_of_ctl hctl', (vault_controlCheckpoint _).trans (vault_setLast k 0 w)⟩

/-- What a commit leaves that zeroized the part. -/
structure Wiped (s w t : State) : Prop where
  generation : t.ctl.generation = s.ctl.generation + 1
  erased : Erased t
  staging : NoStaging t.ctl
  rest : restCore t.rest = restCore w.rest

theorem LateState.wiped (hu : LateState k s u) (hq : Quiet s) (hz : Zeroized u w) : Wiped s w (dictSettle (setLast k 0 w)) := by
  have hcalm : Calm w (dictSettle (setLast k 0 w)) := (setLast_calm k 0 w).trans (dictSettle_calm (setLast_idle (hz.idle (hu.idle hq)) k 0))
  refine ⟨?_, hcalm.erased hz.erased, hcalm.staging hz.noStaging, hcalm.rest⟩
  rw [hcalm.generation, hz.ctl]
  exact congrArg Control.generation hu.ctl

end

/-! ## What the log and the random draws of these commands leave -/

theorem restCore_blind : CoreBlind (fun s => restCore s.rest) := (coreBlind_rest fun x => x).toCoreBlind

section
variable {r r' : ToolRest} (h : restCore r = restCore r')
include h

theorem state_of_rest : r.state = r'.state := congrArg Prod.fst h
theorem owner_of_rest : r.owner = r'.owner := congrArg (fun v => v.2.1) h
theorem kekArea_of_rest : r.kekArea = r'.kekArea := congrArg (fun v => v.2.2.1) h
theorem zeroizing_of_rest : r.zeroizing = r'.zeroizing := congrArg (fun v => v.2.2.2.2.2) h

end

theorem logZeroize_rest (cause sensor : Nat) (s : State) : restCore (logZeroize cause sensor s).rest = restCore s.rest := restCore_blind.logEntry ..
theorem logOwner_rest (op seq : Nat) (s : State) : restCore (logOwner op seq s).rest = restCore s.rest := restCore_blind.logEntry ..

theorem newBbk_owner (s : State) : (newBbk s).rest.owner = s.rest.owner ∧ (newBbk s).rest.kekArea = s.rest.kekArea := by
  unfold newBbk
  split
  · next o u hd =>
    have hrest : u.rest = s.rest := rngDraw_keep State.rest (fun _ _ => rfl) 32 s (o, u) hd
    have hgive : (rngGive .bbk o u).rest.owner = u.rest.owner ∧ (rngGive .bbk o u).rest.kekArea = u.rest.kekArea := ⟨rfl, rfl⟩
    exact ⟨hgive.1.trans (congrArg ToolRest.owner hrest), hgive.2.trans (congrArg ToolRest.kekArea hrest)⟩
  · exact ⟨rfl, rfl⟩

/-- A zeroization after its log entry is one of the part before it. -/
theorem zeroizeWhole_logged (cause : Nat) (s : State) : Zeroized s (zeroizeWhole (logZeroize cause 0xFF s)) := by
  have hview : zeroizeView (logZeroize cause 0xFF s) = zeroizeView s := zeroizeView_blind.logEntry ..
  obtain ⟨herased, hctl, hpin, hrings⟩ := zeroizeWhole_zeroized (logZeroize cause 0xFF s)
  exact ⟨herased, hctl.trans (sessionsZeroized_ctl (zeroizeView_ctl hview)), hpin.trans (zeroizeView_pin hview), fun r => (hrings r).trans (zeroizeView_ring hview r)⟩

/-! ## Ownership (R234 to R236) -/

/-- The part zeroized, with the owner record `o`. -/
def ownerZeroized (o : Owner) (s : State) : State :=
  let s := zeroizeWhole (logZeroize 4 0xFF s)
  { s with rest := { s.rest with owner := o } }

theorem Zeroized.owner {s t : State} (h : Zeroized s t) (o : Owner) : Zeroized s { t with rest := { t.rest with owner := o } } := h.of_view rfl

theorem ownerZeroized_zeroized (o : Owner) (s : State) : Zeroized s (ownerZeroized o s) := (zeroizeWhole_logged 4 s).owner o

theorem logOwner_zeroized {s t : State} (h : Zeroized s t) (op seq : Nat) : Zeroized s (logOwner op seq t) := h.of_view (zeroizeView_blind.logEntry ..)

section
variable {c : Octets} (s : State)

theorem ownerApply_take (h : octet c 0 = 1) :
    ownerApply c s = logOwner 1 0 (newBbk { s with rest := { s.rest with owner := ownerRecord (slice c 8 97) 0, kekArea := [] } }) := by
  unfold ownerApply
  simp only [h]

theorem ownerApply_transfer (h : octet c 0 = 2) : ownerApply c s = logOwner 2 ((s.rest.owner.seq.toNat + 1) % 2 ^ 32)
    (newBbk (ownerZeroized (ownerRecord (slice c 8 97) (s.rest.owner.seq.toNat + 1)) s)) := by
  unfold ownerApply ownerZeroized
  simp only [h]

theorem ownerApply_release (h : octet c 0 = 3) : ownerApply c s = logOwner 3 0 (ownerZeroized {} s) := by
  unfold ownerApply ownerZeroized
  simp only [h]

end

theorem lastTakes_owner (c : Octets) (u : State) : lastTakes [(odKey 0x3422 1, c)] u = ownerApply c u := by
  have hst := keyOnly_single (idx := 0x3422) (by decide) (by decide : 1 < 256) c
  unfold lastTakes
  rw [stagedAt_single, hst.stagedNat_none (.inl ⟨by decide, by decide⟩)]

section
variable (ses : Fin 128) (command : Octets) (s : State)

theorem take_owns (hop : octet command 0 = 1) (h : Commits ses 0x3422 1 command .agree s) :
    ∃ t, exec (.ownershipTake ses command) s = .next t ∧ Committed ses s t ∧ t.rest.owner = ownerRecord (slice command 8 97) 0 ∧ t.rest.kekArea = [] := by
  obtain ⟨u, hu, heq⟩ := lateCommit (.inl rfl) h
  rw [lastTakes_owner, ownerApply_take u hop] at heq
  have hlog := logOwner_rest 1 0 (newBbk { u with rest := { u.rest with owner := ownerRecord (slice command 8 97) 0, kekArea := [] } })
  obtain ⟨howner, harea⟩ := newBbk_owner { u with rest := { u.rest with owner := ownerRecord (slice command 8 97) 0, kekArea := [] } }
  have hbbk {β : Type} {P : State → β} (hP : ApplyBlind P) (hfree : ∀ s x, P { s with free := x } = P s) (t : State) : P (newBbk t) = P t :=
    newBbk_keep P (fun s a b c d e f _ => (hfree _ f).trans ((hP.mpu _ e).trans ((hP.fab _ d).trans ((hP.keys _ c).trans ((hP.rest _ b).trans (hP.rng s a)))))) t
  have hw {β : Type} {P : State → β} (hP : ApplyBlind P) (hfree : ∀ s x, P { s with free := x } = P s) :
      P (logOwner 1 0 (newBbk { u with rest := { u.rest with owner := ownerRecord (slice command 8 97) 0, kekArea := [] } })) = P u :=
    (hP.logEntry ..).trans ((hbbk hP hfree _).trans (hP.rest u _))
  obtain ⟨hcommitted, hvault⟩ := hu.committed h.1 (hw ctl_applyBlind fun _ _ => rfl) (hw outlook_applyBlind fun _ _ => rfl)
  rw [← heq] at hcommitted hvault
  have hcore := (congrArg Prod.snd hvault).trans hlog
  exact ⟨_, rfl, hcommitted, (owner_of_rest hcore).trans howner, (kekArea_of_rest hcore).trans harea⟩

theorem transfer_owns (hop : octet command 0 = 2) (h : Commits ses 0x3422 1 command .agree s) :
    ∃ t, exec (.ownershipTransfer ses command) s = .next t ∧ t.ctl.generation = s.ctl.generation + 1 ∧ t.rest.owner = ownerRecord (slice command 8 97) (s.rest.owner.seq.toNat + 1) ∧
      (∀ q ∈ t.keys.data, q.2.state = .free ∨ q.2.state = .bad) ∧ (∀ q ∈ t.keys.kek, q.2.state = .free ∨ q.2.state = .bad) ∧
      (∀ q ∈ t.keys.sa, q.2.valid = true → q.2.frozen = true) ∧ t.keys.enroll = none ∧ t.rng.exp0 = none ∧ t.rng.exp1 = none := by
  obtain ⟨u, hu, heq⟩ := lateCommit (.inl rfl) h
  have hseq : u.rest.owner = s.rest.owner := owner_of_rest (congrArg Prod.snd hu.vault)
  have hzeroized := ownerZeroized_zeroized (ownerRecord (slice command 8 97) (s.rest.owner.seq.toNat + 1)) u
  rw [lastTakes_owner, ownerApply_transfer u hop, hseq, newBbk_erased hzeroized.erased] at heq
  have hwiped := hu.wiped h.1 (logOwner_zeroized (hzeroized.of_view (zeroizeView_blind.rngAsk .bbk 2 _)) 2 ((s.rest.owner.seq.toNat + 1) % 2 ^ 32))
  rw [← heq] at hwiped
  obtain ⟨hgeneration, ⟨hdata, hkek, hsa, henroll, h0, h1⟩, -, hrest⟩ := hwiped
  exact ⟨_, rfl, hgeneration, owner_of_rest (hrest.trans (logOwner_rest ..)), hdata, hkek, hsa, henroll, h0, h1⟩

theorem release_disowns (hop : octet command 0 = 3) (h : Commits ses 0x3422 1 command .agree s) :
    ∃ t, exec (.ownershipRelease ses command) s = .next t ∧ t.ctl.generation = s.ctl.generation + 1 ∧ t.rest.owner.owned = false ∧
      (∀ q ∈ t.keys.data, q.2.state = .free ∨ q.2.state = .bad) ∧ (∀ q ∈ t.keys.kek, q.2.state = .free ∨ q.2.state = .bad) ∧
      (∀ q ∈ t.keys.sa, q.2.valid = true → q.2.frozen = true) ∧ t.keys.enroll = none ∧ t.rng.exp0 = none ∧ t.rng.exp1 = none := by
  obtain ⟨u, hu, heq⟩ := lateCommit (.inl rfl) h
  rw [lastTakes_owner, ownerApply_release u hop] at heq
  have hwiped := hu.wiped h.1 (logOwner_zeroized (ownerZeroized_zeroized {} u) 3 0)
  rw [← heq] at hwiped
  obtain ⟨hgeneration, ⟨hdata, hkek, hsa, henroll, h0, h1⟩, -, hrest⟩ := hwiped
  exact ⟨_, rfl, hgeneration, congrArg Owner.owned (owner_of_rest (hrest.trans (logOwner_rest ..))), hdata, hkek, hsa, henroll, h0, h1⟩

end

/-- Settles O22: each command is applied last in its commit; a transfer and a release through the zeroization of the whole part. -/
theorem ownershipChangesHands : Obligations.OwnershipChangesHands := by
  unfold Obligations.OwnershipChangesHands
  exact ⟨take_owns, transfer_owns, release_disowns⟩

/-! ## Zeroize commands (R275 to R277) -/

theorem lastTakes_data (u : State) : lastTakes [(odKey 0x3460 1, [1])] u = zeroizeData (logZeroize 1 0xFF u) := rfl
theorem lastTakes_whole (u : State) : lastTakes [(odKey 0x3460 1, [2])] u = zeroizeWhole (logZeroize 2 0xFF u) := rfl

/-- The data keys zeroized: the key unit, and what sees no key. -/
theorem zeroizeData_leaves (s : State) : (zeroizeData s).keys = (zeroizeKeys s).keys ∧ (zeroizeData s).ctl = s.ctl ∧ outlook (zeroizeData s) = outlook s := by
  have hkeep {β : Type} (P : State → β) (hfab : ∀ s x, P { s with fab := x } = P s) (hpath : ∀ s x, P { s with path := x } = P s) : P (zeroizeData s) = P (zeroizeKeys s) := by
    unfold zeroizeData voidFrames
    exact (keep fun t i => updFrm_keep P hpath i Frm.voided t).trans (hfab _ _)
  exact ⟨hkeep State.keys (fun _ _ => rfl) fun _ _ => rfl, hkeep State.ctl (fun _ _ => rfl) fun _ _ => rfl, hkeep outlook (fun _ _ => rfl) fun _ _ => rfl⟩

section
variable (ses : Fin 128) (s : State)

theorem dataZeroize_erases (h : Commits ses 0x3460 1 [1] .agree s) :
    ∃ t, exec (.zeroizeDataKeys ses) s = .next t ∧ Committed ses s t ∧ (∀ q ∈ t.keys.data, q.2.state = .free ∨ q.2.state = .bad) ∧
      (∀ q ∈ t.keys.sa, q.2.valid = true → q.2.frozen = true) ∧ t.keys.saUsed = [] ∧ t.keys.blobUsed = [] := by
  obtain ⟨u, hu, heq⟩ := lateCommit (.inr rfl) h
  rw [lastTakes_data] at heq
  obtain ⟨hkeys, hctl, hout⟩ := zeroizeData_leaves (logZeroize 1 0xFF u)
  obtain ⟨hcommitted, hvault⟩ := hu.committed h.1 (hctl.trans (ctl_runBlind.logEntry ..)) (hout.trans (outlook_runBlind.logEntry ..))
  rw [← heq] at hcommitted hvault
  have hheld : keysHeld (commitSingle ses 0x3460 1 [1] .agree s).keys = keysHeld (zeroizeData (logZeroize 1 0xFF u)).keys := congrArg Prod.fst hvault
  rw [hkeys] at hheld
  have hdata : (commitSingle ses 0x3460 1 [1] .agree s).keys.data = (zeroizeKeys (logZeroize 1 0xFF u)).keys.data := congrArg (fun v => v.1.data) hheld
  have hsa : (commitSingle ses 0x3460 1 [1] .agree s).keys.sa = (zeroizeKeys (logZeroize 1 0xFF u)).keys.sa := congrArg (fun v => v.1.sa) hheld
  refine ⟨_, rfl, hcommitted, ?_, ?_, congrArg (fun v => v.1.saUsed) hheld, congrArg (fun v => v.1.blobUsed) hheld⟩
  · rw [hdata]
    exact zeroizeKeys_data _
  · rw [hsa]
    exact zeroizeKeys_sa _

theorem wholeZeroize_erases (h : Commits ses 0x3460 1 [2] .agree s) :
    ∃ t, exec (.zeroizeWholePart ses) s = .next t ∧ t.ctl.generation = s.ctl.generation + 1 ∧ (∀ q ∈ t.keys.data, q.2.state = .free ∨ q.2.state = .bad) ∧
      (∀ q ∈ t.keys.kek, q.2.state = .free ∨ q.2.state = .bad) ∧ (∀ q ∈ t.keys.sa, q.2.valid = true → q.2.frozen = true) ∧ t.keys.enroll = none ∧
      t.rng.exp0 = none ∧ t.rng.exp1 = none ∧ (∀ k, (t.session k).staged = []) ∧ t.rest.zeroizing = true := by
  obtain ⟨u, hu, heq⟩ := lateCommit (.inr rfl) h
  rw [lastTakes_whole] at heq
  have hwiped := hu.wiped h.1 (zeroizeWhole_logged 2 u)
  rw [← heq] at hwiped
  obtain ⟨hgeneration, ⟨hdata, hkek, hsa, henroll, h0, h1⟩, hstaging, hrest⟩ := hwiped
  exact ⟨_, rfl, hgeneration, hdata, hkek, hsa, henroll, h0, h1, hstaging.session,
    (zeroizing_of_rest hrest).trans (zeroizeWhole_zeroizing (logZeroize 2 0xFF u))⟩

/-! ## The pin (R278, R403) -/

/-- Entering Zeroized locks the part without touching what was erased. -/
theorem lockNow_zeroized {s t : State} (h : Zeroized s t) :
    Zeroized s (lockNow .zeroized t) ∧ (lockNow .zeroized t).rest.state = .zeroized ∧ (lockNow .zeroized t).rest.zeroizing = t.rest.zeroizing := by
  have hnoted {β : Type} {P : State → β} (hP : CoreBlind P) (u : State) : P (lockNoted u) = P u := by
    unfold lockNoted
    dsimp only
    split
    · exact hP.logEntry ..
    · refine (hP.rest _ _ ?_).trans (hP.logEntry ..)
      rfl
  have hmarked : (lockMarked .zeroized t).rest.state = .zeroized := by
    unfold lockMarked
    dsimp only
    cases t.rest.state <;> rfl
  have hview : zeroizeView (debugOff (tamperCount 1 (lockNoted (lockMarked .zeroized t)))) = zeroizeView t :=
    (zeroizeView_blind.debugOff _).trans ((hnoted zeroizeView_blind.toCoreBlind _).trans rfl)
  have hdebug (u : State) : restCore (debugOff u).rest = restCore u.rest := by
    unfold debugOff
    split
    · exact restCore_blind.logEntry ..
    · rfl
  have hcore : restCore (debugOff (tamperCount 1 (lockNoted (lockMarked .zeroized t)))).rest = restCore (lockMarked .zeroized t).rest :=
    (hdebug _).trans (hnoted restCore_blind _)
  have hz := h.of_view hview
  rw [lockNow_eq]
  generalize debugOff (tamperCount 1 (lockNoted (lockMarked .zeroized t))) = u at hcore hz ⊢
  have hstate : u.rest.state = .zeroized := (state_of_rest hcore).trans hmarked
  have hzeroizing : u.rest.zeroizing = t.rest.zeroizing := (zeroizing_of_rest hcore).trans rfl
  unfold challengeRenewed
  split
  · exact ⟨hz, hstate, hzeroizing⟩
  · rw [newChallenge_erased hz.erased]
    exact ⟨hz.of_view (zeroizeView_blind.rngAsk ..), hstate, hzeroizing⟩

/-- The part as the pin's assertion finds it: the input shows, and is acted on. -/
def pinShown (s : State) : State := { s with power := { s.power with zeroizeN := true }, rest := { s.rest with pinActed := true } }

theorem exec_pinAsserted {s : State} (hpin : s.power.zeroizeN = false) (hvbat : s.rest.onVbat = false) : exec .zeroizePinAsserted s = .next (dictSettle (pinZeroize (pinShown s))) := by
  change execZeroizePinAsserted s = _
  unfold execZeroizePinAsserted
  dsimp only
  rw [if_neg (by rw [hpin]; decide), if_neg (by rw [hvbat]; decide)]
  rfl

/-- The pin zeroizes the part and leaves it Zeroized. -/
theorem pinZeroize_zeroized (s : State) : Zeroized s (pinZeroize s) ∧ (pinZeroize s).rest.state = .zeroized ∧ (pinZeroize s).rest.zeroizing = true := by
  have hlogged : Zeroized s (logZeroize 0 0xFF (zeroizeWhole s)) := (zeroizeWhole_zeroized s).of_view (zeroizeView_blind.logEntry ..)
  have hzeroizing : (logZeroize 0 0xFF (zeroizeWhole s)).rest.zeroizing = true := (zeroizing_of_rest (logZeroize_rest 0 0xFF _)).trans (zeroizeWhole_zeroizing s)
  unfold pinZeroize
  dsimp only
  generalize logZeroize 0 0xFF (zeroizeWhole s) = t at hlogged hzeroizing ⊢
  obtain ⟨hz, hstate, hkept⟩ := lockNow_zeroized hlogged
  exact ⟨hz, hstate, hkept.trans hzeroizing⟩

theorem pin_erases (hq : Quiet s) (hpin : s.power.zeroizeN = false) (hvbat : s.rest.onVbat = false) :
    ∃ t, exec .zeroizePinAsserted s = .next t ∧ t.power.zeroizeN = true ∧ t.rest.state = .zeroized ∧ (∀ q ∈ t.keys.data, q.2.state = .free ∨ q.2.state = .bad) ∧
      (∀ q ∈ t.keys.kek, q.2.state = .free ∨ q.2.state = .bad) ∧ t.rng.exp0 = none ∧ t.rng.exp1 = none ∧ (∀ k, (t.session k).staged = []) ∧ t.rest.zeroizing = true := by
  obtain ⟨-, -, -, hidle⟩ := hq
  have hshown : Idle (pinShown s) := hidle
  have hasserted : (pinShown s).power.zeroizeN = true := rfl
  rw [exec_pinAsserted hpin hvbat]
  generalize pinShown s = u at hshown hasserted ⊢
  obtain ⟨hz, hstate, hzeroizing⟩ := pinZeroize_zeroized u
  have hcalm := dictSettle_calm (hz.idle hshown)
  obtain ⟨hdata, hkek, -, -, h0, h1⟩ := hcalm.erased hz.erased
  exact ⟨_, rfl, hcalm.pin.trans (hz.pin.trans hasserted), (state_of_rest hcalm.rest).trans hstate, hdata, hkek, h0, h1, (hcalm.staging hz.noStaging).session,
    (zeroizing_of_rest hcalm.rest).trans hzeroizing⟩

theorem pin_showsOnVbat (hpin : s.power.zeroizeN = false) (hvbat : s.rest.onVbat = true) :
    ∃ t, exec .zeroizePinAsserted s = .next t ∧ t.power.zeroizeN = true ∧ t.keys = s.keys ∧ t.rest.state = s.rest.state := by
  refine ⟨{ s with power := { s.power with zeroizeN := true } }, ?_, rfl, rfl, rfl⟩
  change execZeroizePinAsserted s = _
  unfold execZeroizePinAsserted
  dsimp only
  rw [if_neg (by rw [hpin]; decide), if_pos hvbat]

theorem pin_deasserts (hvbat : s.rest.onVbat = false) :
    ∃ t, exec .zeroizePinDeasserted s = .next t ∧ t.power.zeroizeN = false ∧ t.rest.pinActed = false ∧ t.rest.state = s.rest.state ∧ t.keys = s.keys := by
  refine ⟨_, rfl, rfl, ?_, rfl, rfl⟩
  dsimp only
  rw [hvbat, Bool.and_false]

/-! ## The end of a zeroization (R402) -/

theorem zeroization_ends (n : Nat) (l : List Nat) (hzeroizing : s.rest.zeroizing = true) (hdeferred : s.rest.deferred = n :: l) :
    ∃ t, exec .zeroizationComplete s = .next t ∧ t.rest.zeroizing = false ∧ t.rest.deferred = [] ∧ t.rest.window = some (s.time.cycles, n :: l) ∧ t.fab.rotatedAt = s.time.cycles := by
  have hdone : zeroizeDone s = { s with rest := { s.rest with zeroizing := false, deferred := [], window := some (s.time.cycles, n :: l) }, fab := { s.fab with rotatedAt := s.time.cycles } } := by
    unfold zeroizeDone
    rw [if_neg (by rw [hzeroizing]; decide), hdeferred]
    rfl
  exact ⟨_, congrArg Host.Outcome.next hdone, rfl, rfl, rfl, rfl⟩

end

/-- Settles O24: the commands as the last of their commits, the pin through the same zeroization and the lock, the rest by what the commands write. -/
theorem zeroizationLeavesNoKey : Obligations.ZeroizationLeavesNoKey := by
  unfold Obligations.ZeroizationLeavesNoKey
  exact ⟨dataZeroize_erases, wholeZeroize_erases, pin_erases, pin_showsOnVbat, pin_deasserts, fun n l s => zeroization_ends s n l⟩

end Sys2Proof.Machine
